-- ==== Sys2Proof/Word.lean ====
section
/-!
DEFINITION. The word types of the Scelan S9 and their plainest arithmetic (R5, R12, R161).
-/
namespace Sys2Proof

/-- A byte of memory (R5). -/
abbrev Byte := BitVec 8
/-- A 32-bit lane of a vector register, an accumulator element, or an instruction word. -/
abbrev Lane := BitVec 32
/-- A scalar register, a constant-bank entry or a system register (R12). -/
abbrev Word := BitVec 64
/-- A vector register: 16 lanes of 32 bits, lane 0 in the lowest bytes (R12, R191). -/
abbrev VWord := Vector Lane 16
/-- A predicate: bit i for lane i (R12). -/
abbrev PWord := BitVec 16
/-- An accumulator tile: 32 rows of 32 FP32 values (R12, R201). -/
abbrev Tile := Vector (Vector Lane 32) 32


end Sys2Proof
end

