-- ==== Sys2Proof/Syntax.lean ====
section
/-!
DEFINITION. The instructions of the Scelan S9: one constructor for each row of spec/opcode_table.json.
The last 285 are the encoded instructions (chapter 01); the 96 before them are the steps that the device or the
outside world takes by itself (chapter 95). They have no word, and carry the data that the step needs.
(Lean's runtime gives at most 245 constructors with fields a tag. The decoder builds instructions beyond that number,
so it and the step are noncomputable definitions; the kernel evaluates them.)
-/
namespace Sys2Proof

/-- A field that names a scalar register s0 to s63 (R12). -/
abbrev SReg := BitVec 6
/-- A field that names a vector register v0 to v63 (R12). -/
abbrev VReg := BitVec 6
/-- A field that names a predicate p0 to p7 (R12, R16). -/
abbrev PReg := BitVec 3
/-- A field that names an accumulator tile a0 to a3 (R12, R16). -/
abbrev TReg := BitVec 2
/-- A field that names a Gaussian block g0 to g7 (R15). -/
abbrev GReg := BitVec 3

/-- A scalar source (Table 1.2, kinds 0b00, 0b10 and 0b11). -/
inductive Src where
  | reg (n : BitVec 6)
  | const (n : BitVec 6)
  | lit (v : BitVec 6)
  deriving DecidableEq, Repr

/-- A source of a vector group (Table 1.2, all four kinds). -/
inductive VSrc where
  | reg (n : BitVec 6)
  | vec (n : BitVec 6)
  | const (n : BitVec 6)
  | lit (v : BitVec 6)
  deriving DecidableEq, Repr

/-- A source of the pr group (R190). -/
inductive PSrc where
  | pred (n : BitVec 3)
  | lit (v : BitVec 6)
  deriving DecidableEq, Repr

/-- The source of pr.set (R190, Table 1.8). -/
inductive KSrc where
  | pred (n : BitVec 3)
  | const (n : BitVec 6)
  | lit (v : BitVec 6)
  deriving DecidableEq, Repr

/-! ## What the steps without a word carry -/

/-- What an access does, for the permissions of Table 4.5 and the kinds of Table 4.7. -/
inductive Acc where
  | read | write | atomic | fetch | engRead | engWrite
  deriving DecidableEq, Repr

/-- A trigger: the header of Table 14.1 and the payload, with what the device remembers of it (R291, R355, R361,
R89, R299, R72). -/
structure Msg where
  /-- Sending logical core; 0xFFF for the host port and for device units. -/
  scid : Nat := 0xFFF
  /-- Sending package. -/
  spkg : Nat := 0
  /-- Context at the receiver. -/
  ctx : Nat := 0
  /-- Route tag. -/
  tag : Nat := 0
  /-- Handler offset in words. -/
  hoff : BitVec 16 := 0
  /-- Group. -/
  grp : Nat := 0
  /-- 0 message, 1 sprinkle, 2 task, 3 launch index, 4 barrier continuation, 5 soft pending. -/
  kind : Nat := 0
  /-- Ordered. -/
  ord : Bool := false
  /-- Redelivered. -/
  redl : Bool := false
  /-- Timestamp. -/
  ts : Nat := 0
  /-- Receiving logical core. -/
  dcore : Nat := 0
  /-- The payload, eight doublewords. -/
  pay : List Word := []
  /-- Cycles for which it has waited, with its tag enabled and its context resident (R291). -/
  age : Nat := 0
  /-- Redeliveries for uncorrectable data (R355). -/
  unc : Nat := 0
  /-- Detections of a signature mismatch (R361). -/
  sig : Nat := 0
  /-- Redelivered under the pull-work rule (R89). -/
  pulled : Bool := false
  /-- The key (T, n) of an ordered message (R299). -/
  key : Option (Nat × Nat) := none
  /-- The object address of an object-addressed message (R72). -/
  obj : Option Nat := none
  /-- The notification of a context error log (R351). -/
  note : Bool := false
  /-- A task's footprint as its record gave it when the task was queued: address and length (R156, R307). -/
  fp : Nat := 0
  fplen : Nat := 0
  /-- The slot that holds the footprint, and a failure of its reading: cause, class of the error log, address, and the
  detail of the class (R156, Table 16.11). -/
  slot : Option Nat := none
  fpfail : Option (Nat × Nat × Nat × Nat) := none
  /-- The cluster in whose ready queue a task was queued, the cycle in which it first became queued, and its migratable bit
  (R308, R309). -/
  queue : Option (Nat × Nat × Bool) := none
  /-- The entry of the context's overflow ring that holds it, while it is spilled or parked there (R88, R294). -/
  rslot : Option Nat := none
  /-- Parked by a pre-emption, to be replayed at the resume (Table 14.8). -/
  resume : Bool := false
  /-- An object-addressed message whose address has been resolved, and the die that the address named (R72). -/
  sent : Bool := false
  odie : Option Nat := none
  /-- The copy of a task that keeps its place in an inbox while its footprint is fetched (R156). -/
  boxed : Bool := false
  /-- Delivered at a resume, ahead of the context's later traffic (R337). -/
  first : Bool := false
  deriving DecidableEq, Repr

/-- A read or a write of bytes that reaches a home slice, a remote port or a chain link. -/
structure MemReq where
  core : Nat := 0
  pkg : Nat := 0
  ctx : Nat := 0
  va : Nat := 0
  pa : Nat := 0
  /-- Length of a read in bytes. -/
  len : Nat := 8
  /-- The bytes of a write; empty for a read. -/
  data : List Byte := []
  acc : Acc := .read
  /-- The chain and the in-die offset of a read of another package's chain, or of its foreign record (R106, R113). -/
  chain : Option (Nat × Nat) := none
  /-- The generation of the table copy that routed a read of a chain line, and the package that sent it (R102). -/
  gen : Nat := 0
  sender : Option Nat := none
  /-- It has reached its home slice and waits there (R128). -/
  here : Bool := false
  deriving DecidableEq, Repr

/-- A scalar atomic on its way (R256). -/
structure AtomReq where
  core : Nat := 0
  pkg : Nat := 0
  ctx : Nat := 0
  /-- Function of Table 1.7, 0 to 12. -/
  fn : Nat := 0
  /-- Width in bytes: 8 or 4. -/
  width : Nat := 8
  va : Nat := 0
  pa : Nat := 0
  operand : Word := 0
  cmp : Word := 0
  /-- Destination register; 0 for none. -/
  dest : Nat := 0
  la : Nat := 0
  /-- Requester tag. -/
  rtag : Nat := 0
  /-- The members of a combined request: the unit and the crumb that list them (R132). -/
  crumb : Option (Nat × Nat) := none
  /-- The chain and the in-die offset of a request to a chain line, pa then being the address of the head's copy (R104). -/
  chain : Option (Nat × Nat) := none
  /-- The generation of the table copy that routed it there (R102). -/
  gen : Nat := 0
  /-- It has reached its home and waits there (R128). -/
  here : Bool := false
  /-- The cycle in which the request left its core (R135). -/
  since : Nat := 0
  /-- The combining units that it has passed, at which a re-routed request is not combined again (R136). -/
  passed : List Nat := []
  /-- The vector instruction to which it belongs, as a lane of one group (R262). -/
  grp : List Nat := []
  /-- The ordered activation that it belongs to: its group, and its key (R301). -/
  okey : Option (Nat × Nat × Nat) := none
  deriving DecidableEq, Repr

/-- A watch on its way to its serialisation point (R258). -/
structure WatchReq where
  ctx : Nat := 0
  core : Nat := 0
  tag : Nat := 0
  width : Nat := 8
  va : Nat := 0
  pa : Nat := 0
  exp : Word := 0
  /-- It has reached its home slice and waits there (R128). -/
  here : Bool := false
  /-- The package and the context there from which it has come over UALink (R376). -/
  origin : Option (Nat × Nat) := none
  deriving DecidableEq, Repr

/-- A store on its way along a chain (R103): its id, its chain, the generation of the table copy that routed it (R102), the
link that it goes to, its bytes by in-die offset, and what a UALink hop carries (R113). The requester's package owns the
chain. -/
structure ChainStore where
  pkg : Nat := 0
  core : Nat := 0
  seq : Nat := 0
  ctx : Nat := 0
  ch : Nat := 0
  hop : Nat := 0
  data : List (Nat × Byte) := []
  gen : Nat := 0
  /-- The virtual address of the store, for the error log (R353, R377). -/
  va : Nat := 0
  /-- The owning context's tenant, key and share class (R113). -/
  tenant : Nat := 0
  key : Word := 0
  share : Nat := 0
  /-- The atomic whose value the store's completion returns (R104). -/
  answer : Option (AtomReq × Word) := none
  /-- The ordered activation that it belongs to: its group, and its key (R301). -/
  okey : Option (Nat × Nat × Nat) := none
  /-- The line as the store has left it at the link that applied it last, by in-die offset: every link of the chain applies the
  same stores in the same order (R103, R104). -/
  after : List (Nat × Byte) := []
  /-- A beat of a copy engine with uncorrectable data, which is written poisoned (R148). -/
  bad : Bool := false
  /-- The package that sent it, where another one did (R102). -/
  sender : Option Nat := none
  /-- Its bytes are what an operation has left at the head (R104). -/
  home : Bool := false
  deriving DecidableEq, Repr

/-- The foreign record of a chain as its owner announces it to the package of a link (R114): owner, context, chain number,
gen, base, npg, the members in order, and the syncing link. -/
structure ChainRec where
  owner : Nat := 0
  ctx : Nat := 0
  ch : Nat := 0
  gen : Nat := 0
  base : Nat := 0
  npg : Nat := 0
  links : List (Nat × Nat) := []
  sync : Option (Nat × Nat) := none
  /-- The chain is freed by a kill: the ranges reserved for it are released (R369). -/
  freed : Bool := false
  /-- The identity under which the chain was frozen before its owner adopted it (R114). -/
  old : Option (Nat × Nat × Nat) := none
  deriving DecidableEq, Repr

/-- A captured post (R241). -/
structure Post where
  poster : Nat := 0
  ctx : Nat := 0
  ncore : Nat := 0
  noff : Nat := 0
  nslot : Nat := 0
  fgen : Nat := 0
  tag : Nat := 0
  dim : Nat := 1
  res : Lane := 0
  eta : List Lane := []
  lam : List Lane := []
  deriving DecidableEq, Repr

/-- A word on its way to a neighbour's port: the sending context, and the word with its control bit (R269, R273). -/
structure QueueWord where
  ctx : Nat := 0
  w : BitVec 65 := 0
  deriving DecidableEq, Repr

/-- The acknowledgement of a barrier's arrival: the generation, and the core's entry that it answers (R313). -/
structure BarAck where
  gen : Nat := 0
  ent : Nat := 0
  deriving DecidableEq, Repr

/-- The keys that firmware unwraps for a slot: the UALink key, the two keys of AES-256-XTS and the tag key (R73, R376). -/
structure TenantKeys where
  ual : Word := 0
  k1 : BitVec 256 := 0
  k2 : BitVec 256 := 0
  tagKey : BitVec 256 := 0
  deriving DecidableEq, Repr

/-- A tk operation on its way to the record's home slice (R310): 0 new, 1 arr, 2 arrd, 3 dl, 4 kill, 5 barr; 6, the
registration of tk.bwait, and 7, its arrival with it. -/
structure TaskReq where
  op : Nat := 0
  core : Nat := 0
  ctx : Nat := 0
  va : Nat := 0
  pa : Nat := 0
  arg : Word := 0
  /-- The number of the barrier entry of an arrival by tk.barr or tk.bwait (R313). -/
  ent : Nat := 0
  deriving DecidableEq, Repr

/-- A trigger of a launch entry (R319): by trigger tag or by entry number. -/
structure Trig where
  ctx : Nat := 0
  byTag : Bool := true
  n : Nat := 0
  pay : Word := 0
  deriving DecidableEq, Repr

/-- The post of a start gate (R340). -/
structure GatePost where
  id : Nat := 0
  coord : Nat := 0
  tenant : Nat := 0
  time : Nat := 0
  action : Nat := 0
  partly : Bool := false
  guard : Nat := 0
  pay : Word := 0
  /-- The tenant key that the post carries (R340). -/
  key : Word := 0
  deriving DecidableEq, Repr

/-- A pg.inval in progress (R96): context, first page, page count, all pages. -/
structure InvalReq where
  ctx : Nat := 0
  first : Nat := 0
  count : Nat := 0
  all : Bool := false
  /-- The issuing context, and the physical address of its mailbox; none for s0 (R94). -/
  iss : Nat := 0
  mpa : Option Nat := none
  deriving DecidableEq, Repr

/-- A pg.pin in progress (R99). -/
structure PinReq where
  ctx : Nat := 0
  unpin : Bool := false
  va : Nat := 0
  /-- The issuing core. -/
  core : Nat := 0
  /-- The issuing context, and the physical address of its mailbox; none for s0 (R94). -/
  iss : Nat := 0
  mpa : Option Nat := none
  deriving DecidableEq, Repr

/-- A ring operation on its way to another package: 0 rg.acq, 1 rg.cmt, 2 rg.rel (R264, R376). -/
structure RingReq where
  op : Nat := 0
  core : Nat := 0
  ctx : Nat := 0
  /-- The control block's virtual and physical address, and the slot address of rg.cmt. -/
  cb : Nat := 0
  pa : Nat := 0
  slot : Nat := 0
  deriving DecidableEq, Repr

/-- What a request that reaches a UALink port asks for (R376). -/
inductive UalBody where
  | mem (r : MemReq)
  | atomic (r : AtomReq)
  | msg (m : Msg)
  | trig (t : Trig)
  /-- A ring operation, a watch and a task operation on memory of the package (R258, R266, R311). -/
  | ring (r : RingReq)
  | watch (r : WatchReq)
  | task (r : TaskReq)
  /-- A foreign record is created or changed (R113, R114). -/
  | chainRec (r : ChainRec)
  /-- A store to a link, an acknowledgement to a member, of a chain of the sending package or of its foreign record (R103). -/
  | chainStore (st : ChainStore)
  | chainAck (st : ChainStore)
  /-- A read of a line of a chain of the sending package or of its foreign record, and its tail query (R106, R113). -/
  | chainRead (r : MemReq)
  | tailQuery (r : MemReq)
  /-- An atomic on a chain line, for its head (R104, R113). -/
  | chainAtomic (r : AtomReq)
  /-- A page of a chain for its syncing link, the bytes by in-die offset, and the promotion marker behind the pages (R109, R113). -/
  | chainPage (owner ctx ch page : Nat) (data : List (Nat × Byte))
  | chainMark (owner ctx ch : Nat)
  deriving DecidableEq, Repr

/-- A request that reaches a UALink port: sending package, tenant, key, share class and body (R376). -/
structure UalReq where
  pkg : Nat := 0
  tenant : Nat := 0
  key : Word := 0
  share : Nat := 0
  body : UalBody
  /-- The sender of a request of the own package: its context, its core, and the destination doubleword (R377). -/
  src : Option (Nat × Nat × Nat) := none
  deriving DecidableEq, Repr

/-- A link or router that is removed (R366). -/
inductive NetPart where
  | mesh (die router port : Nat)
  | router (u : Nat)
  | bridge (link : Nat)
  | ualink (port : Nat)
  deriving DecidableEq, Repr

/-- Where a detected error lies (Table 16.8, Table 16.15). -/
inductive ErrSite where
  /-- A line of HBM or of a local store; integ: the integrity tag failed (R74). -/
  | line (pa : Nat) (integ : Bool)
  /-- A task's queue entry, or word 0 of its record, by the record's address and its physical address (R362). -/
  | task (ctx va pa : Nat)
  /-- A row of a core's inbox that holds the message at a place, or, behind its places, of its cluster's inbox (R362). -/
  | inbox (c k : Nat)
  /-- A crumb of a combining unit; both: both copies (R135). -/
  | crumb (u id : Nat) (both : Bool)
  /-- A way of a set of a slice's L2 (R363). -/
  | way (die slice set : Nat)
  /-- Core logic (R350). -/
  | core (c : Nat)
  /-- A bridge lane of a link between a die and its neighbour (R363). -/
  | lane (link : Nat)
  /-- A flit on a link of a mesh, on a bridge, or on a UALink port (R350, Table 16.8). -/
  | flit (l : NetPart)
  deriving DecidableEq, Repr

/-- A function that reports ready by itself (R386). -/
inductive ReadyUnit where
  | core (c : Nat)
  | slice (die cluster : Nat)
  | die (d : Nat)
  | hub
  | hbm (stack : Nat)
  | ualink (port : Nat)
  | ether (port : Nat)
  | pcie
  | mgmt
  deriving DecidableEq, Repr

/-- A firmware image as the mask ROM fetches it (R383): what its checks find, and its version. -/
structure BootImage where
  rootOk : Bool := false
  sigOk : Bool := false
  version : Nat := 0
  measure : Nat := 0
  deriving DecidableEq, Repr


/-- An instruction of the Scelan S9, or a step of the device or of the outside world. -/
inductive Instr where
  /-- UNDEFINED_ENCODING (R26): A word that is no defined instruction traps with illegal instruction or reserved opcode. -/
  | undefinedEncoding (w : BitVec 32)
  /-- REGISTER_WRITE (R346): A write to a system register that has no behaviour of its own takes effect under its access codes. -/
  | registerWrite (n : BitVec 10) (v : Word)
  /-- ROSTAT_SELECT (R243): A rostat write with upd = 0 only selects the group whose run-out unit is reached. -/
  | rostatSelect (v : Word)
  /-- ROSTAT_ARM (R243): A rostat write with upd = 1 and arm = 1 arms the unit afresh, clearing seen and the count. -/
  | rostatArm (v : Word)
  /-- ROSTAT_DISARM (R243): A rostat write with upd = 1 and arm = 0 disarms the unit. -/
  | rostatDisarm (v : Word)
  /-- CTXCTL_PREEMPT (R336): Requests pre-emption of a running context. -/
  | ctxctlPreempt (ctx : Nat)
  /-- CTXCTL_RESUME (R337): Resumes a pre-empted context and redelivers its traffic in order. -/
  | ctxctlResume (ctx : Nat)
  /-- CTXCTL_KILL (R369): Kills a context with reason 6. -/
  | ctxctlKill (ctx : Nat)
  /-- MESSAGE_ARRIVAL (R294): An arriving message or sprinkle is placed in the core inbox, cluster inbox, overflow ring or proofing
  store. -/
  | messageArrival (m : Msg)
  /-- DISPATCH (R291): An idle core selects the highest effective-priority pending tag and starts an activation. -/
  | dispatch (c : Nat)
  /-- ACTIVATION_COMMIT (R280): Releases the commit buffer in order, waits for its stores to be performed, then releases messages,
  posts ... -/
  | activationCommit (c : Nat)
  /-- SEQUENCER_ARRIVAL (R299): An ordered message reaching its domain's sequencer receives its key. -/
  | sequencerArrival (m : Msg)
  /-- TLB_MISS_AT_SLICE (R85): An L1 TLB miss reaching its slice hits the L2 TLB, joins a pending miss, or starts a walk. -/
  | tlbMissAtSlice (c : Nat) (ctx : Nat) (va : Nat) (acc : Acc)
  /-- PAGE_WALK_COMPLETE (R87): A walk's result completes its joined requests and delivers a not-present result by trap level and
  state. -/
  | pageWalkComplete (die : Nat) (ctx : Nat) (vpage : Nat)
  /-- PG_INVAL_COMPLETION (R96): When affected accesses are performed or discarded, status 1 is written to the mailbox. -/
  | pgInvalCompletion (r : InvalReq)
  /-- PG_PIN_COMPLETION (R99): The pin walk finishes and its status is written to the mailbox. -/
  | pgPinCompletion (r : PinReq)
  /-- EPOCH_END (R68): At each placement epoch end, pages are migrated, promoted or demoted and counts clear. -/
  | epochEnd (ctx : Nat)
  /-- MIGRATION_SWITCH (R69): When a migration copy ends, the leaf is updated, TLBs are shot down and waiting requests proceed at
  the ... -/
  | migrationSwitch (ctx : Nat) (vpage : Nat)
  /-- HOME_SLICE_ACCESS (R128): A load or store request reaching a line's home slice is served, checked and counted there. -/
  | homeSliceAccess (r : MemReq)
  /-- INVALIDATION (R123): An invalidation from a home slice removes an L1 copy and is acknowledged. -/
  | invalidation (line : Nat) (target : Nat)
  /-- INVALIDATION_ACK (R123): The last invalidation acknowledgement makes a change performed and lets the slice serve reads of the
  line. -/
  | invalidationAck (line : Nat) (target : Nat)
  /-- ATOMIC_AT_HOME (R256): An atomic or ring operation executes in one step at its serialisation point and replies. -/
  | atomicAtHome (r : AtomReq)
  /-- WATCH_ARM_AT_HOME (R258): A watch reaching its serialisation point compares, arms or sends an immediate wake-up. -/
  | watchArmAtHome (r : WatchReq)
  /-- COMBINE_REQUEST (R131): A combinable add reaching a router or hub switch joins or opens an entry, or passes uncombined. -/
  | combineRequest (u : Nat) (port : Nat) (r : AtomReq)
  /-- COMBINE_WINDOW_EXPIRY (R131): An entry's window ends and it is forwarded as one request after writing its crumb. -/
  | combineWindowExpiry (u : Nat) (id : Nat)
  /-- DECOMBINE (R134): A reply reaching a combining unit is split by its crumb to each member. -/
  | decombine (u : Nat) (id : Nat) (v : Word)
  /-- ATOMIC_REPLY_TIMEOUT (R135): An atomic's reply timer expires after 50 us, delivering atomic outcome lost or counting as
  completion. -/
  | atomicReplyTimeout (c : Nat) (rtag : Nat) (applied : Bool)
  /-- TILE_FETCH_LINE (R127): The tile fetch unit pins a line at its home slice, waiting for room, and reads it into the operand
  buffer. -/
  | tileFetchLine (c : Nat)
  /-- MATRIX_COMMAND_EXECUTE (R210): The matrix engine executes its next queued command and ORs its flags into fflags. -/
  | matrixCommandExecute (c : Nat)
  /-- GANG_START (R215): When the fourth mx.gang of a row retires, the gang operation runs across the row. -/
  | gangStart (c : Nat)
  /-- COPY_BEAT (R142): A copy channel moves one beat, advancing wptr or stopping on a fault. -/
  | copyBeat (c : Nat) (ch : Nat)
  /-- FOOTPRINT_PREFETCH (R156): A task's footprint read into a pinned slot completes and the task is dispatched. -/
  | footprintPrefetch (c : Nat)
  /-- REMOTE_PORT_ACCESS (R251): An active-message access is performed by the owning core on its local store or saved image. -/
  | remotePortAccess (r : MemReq)
  /-- QUEUE_WORD_ARRIVAL (R269): A word enqueued by a neighbour arrives in the core's input FIFO. -/
  | queueWordArrival (c : Nat) (port : Nat) (w : QueueWord)
  /-- CHAIN_STORE_AT_LINK (R103): A chain store reaching a link is applied, logged and forwarded, or applied and acknowledged at the
  tail. -/
  | chainStoreAtLink (st : ChainStore)
  /-- CHAIN_ACKNOWLEDGEMENT (R107): An acknowledgement removes a store from a member's log and cleans the line; at the head it sends
  completion. -/
  | chainAcknowledgement (st : ChainStore)
  /-- CHAIN_STORE_COMPLETION (R105): The requester's die receives a chain store's completion and drops its copy. -/
  | chainStoreCompletion (st : ChainStore)
  /-- CHAIN_READ (R106): A read of a chain line is served clean or by querying the tail. -/
  | chainRead (r : MemReq)
  /-- CHAIN_TAIL_QUERY (R106): The tail answers a query with its copy. -/
  | chainTailQuery (r : MemReq)
  /-- CHAIN_PAGE_COPY (R109): The tail sends the next page of the range to the syncing link. -/
  | chainPageCopy (ctx : Nat) (ch : Nat)
  /-- CHAIN_PROMOTION_MARKER (R109): The syncing link receives the marker and becomes member and tail; gen rises. -/
  | chainPromotionMarker (ctx : Nat) (ch : Nat)
  /-- CHAIN_HEAD_HANDOFF (R111): An unlinked head drains its forwarding path and passes the head role on. -/
  | chainHeadHandoff (ctx : Nat) (ch : Nat)
  /-- CHAIN_CLEAN_DONE (R119): When the head's earlier stores have completed, ch.clean writes status 1. -/
  | chainCleanDone (ctx : Nat) (ch : Nat)
  /-- LINK_UNREACHABLE (R112): A remote link unreachable for 20 us is declared lost. -/
  | linkUnreachable (pkg : Nat) (die : Nat)
  /-- POST_ARRIVAL (R241): An arriving post is buffered at the receiving core. -/
  | postArrival (p : Post)
  /-- POST_APPLY (R241): At an activation boundary a buffered post is applied to its slot or discarded, releasing its notify. -/
  | postApply (c : Nat)
  /-- REPORT_WINDOW_EXPIRY (R245): A member's report leaves its 4,096-cycle window. -/
  | reportWindowExpiry (ctx : Nat) (g : Nat) (c : Nat)
  /-- RUN_OUT_FIRE (R245): The quiet count reaches quiet; the unit fires its launch entry and disarms. -/
  | runOutFire (ctx : Nat) (g : Nat)
  /-- TASK_AT_HOME (R308): A tk operation reaching the record's home slice moves the record's state and may queue it. -/
  | taskAtHome (r : TaskReq)
  /-- TASK_DEADLINE (R308): A waiting task's deadline passes and it is queued with status 1. -/
  | taskDeadline (ctx : Nat) (va : Nat)
  /-- TASK_TAKE (R309): An idle member core takes the oldest eligible ready task, stealing by level. -/
  | taskTake (c : Nat)
  /-- BARRIER_ACKNOWLEDGEMENT (R313): The home slice's acknowledgement writes the arrival's generation into the core's barrier entry. -/
  | barrierAcknowledgement (c : Nat) (ctx : Nat) (va : Nat) (ack : BarAck)
  /-- BARRIER_RELEASE (R313): A release marks matching entries released and queues registered continuations. -/
  | barrierRelease (c : Nat) (ctx : Nat) (va : Nat) (gen : Nat)
  /-- LAUNCH_TRIGGER (R317): A trigger reaching a launch entry fires it, counts a miss, or is discarded. -/
  | launchTrigger (t : Trig)
  /-- LAUNCH_BATCH (R321): The leader hands a batch of indices to a die dispatcher, which deals them to ready members. -/
  | launchBatch (ctx : Nat) (e : Nat) (die : Nat)
  /-- INDEX_ACKNOWLEDGEMENT (R322): A committed index is acknowledged; low advances and the firing may complete with its notify. -/
  | indexAcknowledgement (ctx : Nat) (e : Nat) (i : Nat)
  /-- PREEMPTION_HALT (R336): Each core discards or halts its activation, stops engines and saves its state. -/
  | preemptionHalt (c : Nat)
  /-- LOCAL_STORE_SWAP (R338): A core changing resident context saves its local store and loads the incoming image. -/
  | localStoreSwap (c : Nat) (ctx : Nat)
  /-- GATE_POST (R341): A gate post reaching a participant is armed or kept waiting. -/
  | gatePost (p : GatePost)
  /-- GATE_ARMED (R341): An ARMED reply reaches the coordinator, which sends GO when all are armed. -/
  | gateArmed (id : Nat) (pkg : Nat) (deg : Bool)
  /-- GATE_GUARD_DEADLINE (R341): At T - guard the coordinator decides on stragglers and a waiting participant discards its post. -/
  | gateGuardDeadline (id : Nat)
  /-- GATE_GO (R341): A GO reaching a participant schedules the action at T or acts at once. -/
  | gateGo (id : Nat) (atOnce : Bool)
  /-- GATE_ABORT (R341): An ABORT drops a participant's preparation. -/
  | gateAbort (id : Nat)
  /-- GATE_ACTION_TIME (R342): At T the participant carries out launch, pre-empt, resume or kill. -/
  | gateActionTime (id : Nat)
  /-- GATE_ARMED_TIMEOUT (R341): An armed participant without GO or ABORT by T + 1 ms drops the gate and logs 0x2F. -/
  | gateArmedTimeout (id : Nat)
  /-- ERROR_RETRY (R350): A detected error's retry completes, making it transient or lasting and starting repair. -/
  | errorRetry (e : ErrSite) (recurs : Bool)
  /-- REMAP_COMPLETE (R365): The copy to a spare core or cluster completes and held traffic is released. -/
  | remapComplete (c : Nat) (whole : Bool)
  /-- LINK_REMOVAL (R366): A dead mesh or bridge link or router is removed from routing and its packets replayed. -/
  | linkRemoval (l : NetPart)
  /-- PACKET_RESEND_TIMEOUT (R366): Packets unacknowledged for 20 us are resent end to end. -/
  | packetResendTimeout (r : NetPart)
  /-- HEARTBEAT_TIMEOUT (R367): A die's heartbeat missing for 2 us declares it lost. -/
  | heartbeatTimeout (die : Nat)
  /-- BUDGET_EXPIRY (R368): An activation's watchdog count reaches budget and trap 0x10 is taken. -/
  | budgetExpiry (c : Nat)
  /-- HOST_TRIGGER_RECORD (R372): A 16-byte host write to an open window page fires a launch entry, or is dropped. -/
  | hostTriggerRecord (page : Nat) (off : Nat) (bs : List Byte)
  /-- MBX_ATTEST (R384): Mailbox command 0x01 returns a signed attestation report over a nonce. -/
  | mbxAttest (m : Nat) (nonce : List Byte)
  /-- MBX_CREATE_CONTEXT (R374): Mailbox command 0x02 creates a context. -/
  | mbxCreateContext (m : Nat) (tenant : Nat) (privileged : Bool)
  /-- MBX_LOAD_IMAGE (R54): Mailbox command 0x03 loads an AOF image, groups, launch and gate entries. -/
  | mbxLoadImage (m : Nat) (ctx : Nat) (addr : Nat) (len : Nat)
  /-- MBX_DESTROY_CONTEXT (R374): Mailbox command 0x04 kills a context with reason 6 and frees its number. -/
  | mbxDestroyContext (m : Nat) (ctx : Nat)
  /-- MBX_TENANT_KEY (R73): Mailbox command 0x05 installs wrapped keys into a tenant's key slot. -/
  | mbxTenantKey (m : Nat) (tenant : Nat) (keys : TenantKeys) (ok : Bool)
  /-- MBX_RESERVE_RANGE (R113): Mailbox command 0x06 reserves an in-die range for a remote chain. -/
  | mbxReserveRange (m : Nat) (tenant : Nat) (die : Nat) (base : Nat) (npg : Nat)
  /-- MBX_HEALTH_LOG (R387): Mailbox command 0x07 returns health log entries from a sequence number. -/
  | mbxHealthLog (m : Nat) (seq : Nat)
  /-- MBX_UNLISTED_COMMAND (R374): An unlisted mailbox command returns Refused. -/
  | mbxUnlistedCommand (m : Nat) (code : Nat)
  /-- MAILBOX_COMPLETION (R374): Firmware writes the response and status and raises the mailbox's MSI-X vector. -/
  | mailboxCompletion (m : Nat)
  /-- UALINK_REQUEST (R376): A request reaching a UALink port is key-checked and accepted or refused. -/
  | ualinkRequest (r : UalReq)
  /-- HOST_COMPLETION (R375): A PCIe completion for a host-memory read returns data or an error. -/
  | hostCompletion (c : Nat) (ok : Bool) (data : List Byte)
  /-- HOST_COMPLETION_TIMEOUT (R375): A host read without completion for 50 us raises protection. -/
  | hostCompletionTimeout (c : Nat)
  /-- ETHERNET_TRANSMIT (R380): The port consumes a transmit-ring slot, sends the frame and releases the slot. -/
  | ethernetTransmit (port : Nat) (qp : Nat)
  /-- ETHERNET_RECEIVE (R380): A received frame is placed in the receive ring and committed, or dropped. -/
  | ethernetReceive (port : Nat) (qp : Nat) (frame : List Byte)
  /-- PTP_MESSAGE (R381): A timestamped PTP message updates the servo and now. -/
  | ptpMessage (tai : Nat) (err : Nat)
  /-- CLOCK_DEGRADED_EXIT (R382): The time error estimate stays below 500 ns for 1 s and clock-degraded clears. -/
  | clockDegradedExit
  /-- BOOT (R383): Femos mask ROM fetches, verifies and starts a firmware image or stays in recovery. -/
  | boot (net : BootImage) (flash : BootImage)
  /-- SELF_TEST_READY (R386): A function passing self-test reports ready and held messages to it are delivered. -/
  | selfTestReady (u : ReadyUnit)
  /-- THERMAL_SHUTDOWN (R388): Junction 105 C or low coolant flow kills every context and shuts down. -/
  | thermalShutdown
  /-- CLOCK_DEGRADED_ENTRY (R382): The servo's time-error estimate rises above 1 us, so the package becomes clock-degraded and
  ctxctl.clkdeg ... -/
  | clockDegradedEntry (err : Nat)
  /-- GO_MARKED_NOW (R341): At time T, a coordinator whose ARMED replies or own clock were degraded sends GO marked now to the armed
  ... -/
  | goMarkedNow (id : Nat)
  /-- BRIDGE_LANE_SWAP_DONE (R363): A spare bridge lane replaces a failed one within 10 us, and the traffic stalled on the link
  resumes with ... -/
  | bridgeLaneSwapDone (link : Nat)
  /-- LOST_RESPONSE_TIMEOUT (R350): Core logic whose response is lost times out, and the error counts as lasting at once, which
  starts repair. -/
  | lostResponseTimeout (c : Nat)
  /-- POWER_CAPPING (R389): When package power nears its 6,000 W limit, the device withholds issue slots from cores and engines, and
  ... -/
  | powerCapping (slots : Nat)
  /-- SYS_INV (R26): The all-zero sys function raises illegal instruction (0x01) at the word. -/
  | sysInv
  /-- SYS_NOP (R346): Does nothing; imm16 is ignored. -/
  | sysNop
  /-- SYS_BRK (R346): Raises breakpoint trap 0x12 with tval = imm16. -/
  | sysBrk (imm : BitVec 16)
  /-- SYS_TRAP (R346): Raises software trap 0x13 with tpc = the instruction + 4 and tval = imm16. -/
  | sysTrap (imm : BitVec 16)
  /-- SYS_ERET (R348): Returns from trap level n to n - 1 at tpc.n, or raises illegal instruction at level 0. -/
  | sysEret
  /-- SYS_GET (R346): Reads a system register into a scalar register after the privilege and number checks. -/
  | sysGet (r : SReg) (n : BitVec 10)
  /-- SYS_PUT (R346): Writes a scalar register to a system register under the field access codes. -/
  | sysPut (r : SReg) (n : BitVec 10)
  /-- SYS_SET (R346): Writes the old system register value ORed with a scalar register. -/
  | sysSet (r : SReg) (n : BitVec 10)
  /-- SYS_CLR (R346): Writes the old system register value ANDed with the complement of a scalar register. -/
  | sysClr (r : SReg) (n : BitVec 10)
  /-- SYS_KILL (R349): Kills the issuing context with reason 5 at issue. -/
  | sysKill (imm : BitVec 16)
  /-- FENCE_FULL (R286): Makes the activation irrevocable and waits until every earlier access is performed at the scope. -/
  | fenceFull (scope : BitVec 2)
  /-- FENCE_ACQ (R286): Later loads and stores wait until earlier loads and atomic reads are performed at the scope. -/
  | fenceAcq (scope : BitVec 2)
  /-- FENCE_REL (R286): Later stores, atomics and messages wait until earlier accesses are performed at the scope; held as a ... -/
  | fenceRel (scope : BitVec 2)
  /-- FENCE_ENG (R286): Waits until every kicked copy and matrix command has ended and its writes are performed at the scope. -/
  | fenceEng (scope : BitVec 2)
  /-- SA_ADD (R177): 64-bit add. -/
  | saAdd (rd : SReg) (sa : Src) (sb : Src)
  /-- SA_SUB (R177): 64-bit subtract. -/
  | saSub (rd : SReg) (sa : Src) (sb : Src)
  /-- SA_MUL (R177): Low 64 bits of the product. -/
  | saMul (rd : SReg) (sa : Src) (sb : Src)
  /-- SA_MULH (R177): High 64 bits of the signed product. -/
  | saMulh (rd : SReg) (sa : Src) (sb : Src)
  /-- SA_MULHN (R177): High 64 bits of the unsigned product. -/
  | saMulhn (rd : SReg) (sa : Src) (sb : Src)
  /-- SA_DIV (R178): Signed 64-bit divide; a zero divisor traps 0x08. -/
  | saDiv (rd : SReg) (sa : Src) (sb : Src)
  /-- SA_DIVN (R178): Unsigned 64-bit divide; a zero divisor traps 0x08. -/
  | saDivn (rd : SReg) (sa : Src) (sb : Src)
  /-- SA_REM (R178): Signed 64-bit remainder; a zero divisor traps 0x08. -/
  | saRem (rd : SReg) (sa : Src) (sb : Src)
  /-- SA_REMN (R178): Unsigned 64-bit remainder; a zero divisor traps 0x08. -/
  | saRemn (rd : SReg) (sa : Src) (sb : Src)
  /-- SA_MIN (R177): Signed minimum. -/
  | saMin (rd : SReg) (sa : Src) (sb : Src)
  /-- SA_MAX (R177): Signed maximum. -/
  | saMax (rd : SReg) (sa : Src) (sb : Src)
  /-- SA_MINN (R177): Unsigned minimum. -/
  | saMinn (rd : SReg) (sa : Src) (sb : Src)
  /-- SA_MAXN (R177): Unsigned maximum. -/
  | saMaxn (rd : SReg) (sa : Src) (sb : Src)
  /-- SA_PADD (R64): Adds an offset to a fat pointer keeping its tag, trapping 0x07 on overflow of the 52-bit address. -/
  | saPadd (rd : SReg) (sa : Src) (sb : Src)
  /-- SA_ABS (R177): Absolute value. -/
  | saAbs (rd : SReg) (sa : Src)
  /-- SA_NEG (R177): Negation. -/
  | saNeg (rd : SReg) (sa : Src)
  /-- SB_AND (R179): Bitwise AND. -/
  | sbAnd (rd : SReg) (sa : Src) (sb : Src)
  /-- SB_OR (R179): Bitwise OR. -/
  | sbOr (rd : SReg) (sa : Src) (sb : Src)
  /-- SB_XOR (R179): Bitwise XOR. -/
  | sbXor (rd : SReg) (sa : Src) (sb : Src)
  /-- SB_ANDN (R179): A AND NOT B. -/
  | sbAndn (rd : SReg) (sa : Src) (sb : Src)
  /-- SB_SHL (R179): Shift left by B[5:0]. -/
  | sbShl (rd : SReg) (sa : Src) (sb : Src)
  /-- SB_SHR (R179): Logical shift right by B[5:0]. -/
  | sbShr (rd : SReg) (sa : Src) (sb : Src)
  /-- SB_SRA (R179): Arithmetic shift right by B[5:0]. -/
  | sbSra (rd : SReg) (sa : Src) (sb : Src)
  /-- SB_ROT (R179): Rotate right by B[5:0]. -/
  | sbRot (rd : SReg) (sa : Src) (sb : Src)
  /-- SB_CLZ (R179): Count leading zeros. -/
  | sbClz (rd : SReg) (sa : Src)
  /-- SB_CTZ (R179): Count trailing zeros. -/
  | sbCtz (rd : SReg) (sa : Src)
  /-- SB_POP (R179): Population count. -/
  | sbPop (rd : SReg) (sa : Src)
  /-- SB_SEQ (R179): 1 if A equals B, else 0. -/
  | sbSeq (rd : SReg) (sa : Src) (sb : Src)
  /-- SB_SNE (R179): 1 if A differs from B, else 0. -/
  | sbSne (rd : SReg) (sa : Src) (sb : Src)
  /-- SB_SLT (R179): Signed less-than. -/
  | sbSlt (rd : SReg) (sa : Src) (sb : Src)
  /-- SB_SLTN (R179): Unsigned less-than. -/
  | sbSltn (rd : SReg) (sa : Src) (sb : Src)
  /-- SB_SEL (R179): Selects A or B by the old destination value as condition. -/
  | sbSel (rd : SReg) (sa : Src) (sb : Src)
  /-- SW_ADD (R180): 32-bit add, sign-extended. -/
  | swAdd (rd : SReg) (sa : Src) (sb : Src)
  /-- SW_SUB (R180): 32-bit subtract, sign-extended. -/
  | swSub (rd : SReg) (sa : Src) (sb : Src)
  /-- SW_MUL (R180): 32-bit multiply, sign-extended. -/
  | swMul (rd : SReg) (sa : Src) (sb : Src)
  /-- SW_DIV (R178): Signed 32-bit divide; a zero divisor traps 0x08. -/
  | swDiv (rd : SReg) (sa : Src) (sb : Src)
  /-- SW_DIVN (R178): Unsigned 32-bit divide; a zero divisor traps 0x08. -/
  | swDivn (rd : SReg) (sa : Src) (sb : Src)
  /-- SW_REM (R178): Signed 32-bit remainder; a zero divisor traps 0x08. -/
  | swRem (rd : SReg) (sa : Src) (sb : Src)
  /-- SW_REMN (R178): Unsigned 32-bit remainder; a zero divisor traps 0x08. -/
  | swRemn (rd : SReg) (sa : Src) (sb : Src)
  /-- SW_SHL (R180): 32-bit shift left by B[4:0]. -/
  | swShl (rd : SReg) (sa : Src) (sb : Src)
  /-- SW_SHR (R180): 32-bit logical shift right by B[4:0]. -/
  | swShr (rd : SReg) (sa : Src) (sb : Src)
  /-- SW_SRA (R180): 32-bit arithmetic shift right by B[4:0]. -/
  | swSra (rd : SReg) (sa : Src) (sb : Src)
  /-- SW_MIN (R180): 32-bit signed minimum. -/
  | swMin (rd : SReg) (sa : Src) (sb : Src)
  /-- SW_MAX (R180): 32-bit signed maximum. -/
  | swMax (rd : SReg) (sa : Src) (sb : Src)
  /-- SI_ADD (R181): Adds a sign-extended 14-bit immediate. -/
  | siAdd (rd : SReg) (rs : SReg) (imm : BitVec 14)
  /-- SI_AND (R181): ANDs a sign-extended immediate. -/
  | siAnd (rd : SReg) (rs : SReg) (imm : BitVec 14)
  /-- SI_OR (R181): ORs a sign-extended immediate. -/
  | siOr (rd : SReg) (rs : SReg) (imm : BitVec 14)
  /-- SI_XOR (R181): XORs a sign-extended immediate. -/
  | siXor (rd : SReg) (rs : SReg) (imm : BitVec 14)
  /-- SI_SHL (R181): Shifts left by an immediate amount. -/
  | siShl (rd : SReg) (rs : SReg) (amt : BitVec 6)
  /-- SI_SHR (R181): Logical shift right by an immediate amount. -/
  | siShr (rd : SReg) (rs : SReg) (amt : BitVec 6)
  /-- SI_SRA (R181): Arithmetic shift right by an immediate amount. -/
  | siSra (rd : SReg) (rs : SReg) (amt : BitVec 6)
  /-- SI_ROT (R181): Rotates right by an immediate amount. -/
  | siRot (rd : SReg) (rs : SReg) (amt : BitVec 6)
  /-- SI_SLT (R181): Signed compare with an immediate. -/
  | siSlt (rd : SReg) (rs : SReg) (imm : BitVec 14)
  /-- LI_HI (R182): Sets the destination to SignExtend(imm20) times 2^14. -/
  | liHi (rd : SReg) (imm : BitVec 20)
  /-- LI_TOP (R182): Replaces bits [63:44] of the destination with imm20. -/
  | liTop (rd : SReg) (imm : BitVec 20)
  /-- BR_EQ (R183): Branches when the scalar equals zero. -/
  | brEq (sa : SReg) (off : BitVec 14)
  /-- BR_NE (R183): Branches when the scalar is nonzero. -/
  | brNe (sa : SReg) (off : BitVec 14)
  /-- BR_LT (R183): Branches when the scalar is below zero. -/
  | brLt (sa : SReg) (off : BitVec 14)
  /-- BR_GE (R183): Branches when the scalar is at least zero. -/
  | brGe (sa : SReg) (off : BitVec 14)
  /-- BR_GT (R183): Branches when the scalar is above zero. -/
  | brGt (sa : SReg) (off : BitVec 14)
  /-- BR_LE (R183): Branches when the scalar is at most zero. -/
  | brLe (sa : SReg) (off : BitVec 14)
  /-- BR_ANY (R183): Branches when the named predicate is nonzero. -/
  | brAny (sa : PReg) (off : BitVec 14)
  /-- BR_NONE (R183): Branches when the named predicate is zero. -/
  | brNone (sa : PReg) (off : BitVec 14)
  /-- BR_ALWAYS (R183): Always branches. -/
  | brAlways (off : BitVec 14)
  /-- JMP (R184): Transfers control to a PC-relative target. -/
  | jmp (off : BitVec 26)
  /-- CALL (R184): Writes lr and transfers control to a PC-relative target. -/
  | call (off : BitVec 26)
  /-- JX_JR (R184): Jumps to the address in a register. -/
  | jxJr (sa : Src)
  /-- JX_CALLR (R184): Writes the return address to rd and jumps to a register address. -/
  | jxCallr (rd : SReg) (sa : Src)
  /-- JX_RET (R184): Returns to the address in lr. -/
  | jxRet
  /-- LP_DO (R187): Starts a hardware loop or skips its body when the trip count is zero. -/
  | lpDo (rs : SReg) (imm : BitVec 14)
  /-- PR_AND (R190): Predicate AND. -/
  | prAnd (rd : PReg) (sa : PSrc) (sb : PSrc)
  /-- PR_OR (R190): Predicate OR. -/
  | prOr (rd : PReg) (sa : PSrc) (sb : PSrc)
  /-- PR_XOR (R190): Predicate XOR. -/
  | prXor (rd : PReg) (sa : PSrc) (sb : PSrc)
  /-- PR_NOT (R190): Predicate NOT. -/
  | prNot (rd : PReg) (sa : PSrc)
  /-- PR_SET (R190): Sets a predicate from a source. -/
  | prSet (rd : PReg) (sa : KSrc)
  /-- PR_GET (R190): Reads a predicate into a scalar register. -/
  | prGet (rd : SReg) (sa : PSrc)
  /-- PR_CNT (R190): Counts the one bits of a predicate. -/
  | prCnt (rd : SReg) (sa : PSrc)
  /-- PR_FIRST (R190): Index of the lowest one bit, or 16. -/
  | prFirst (rd : SReg) (sa : PSrc)
  /-- LD_B (R252): Loads a sign-extended byte. -/
  | ldB (la : BitVec 4) (rv : SReg) (rb : SReg) (off : BitVec 6)
  /-- LD_BN (R252): Loads a zero-extended byte. -/
  | ldBn (la : BitVec 4) (rv : SReg) (rb : SReg) (off : BitVec 6)
  /-- LD_H (R252): Loads a sign-extended half. -/
  | ldH (la : BitVec 4) (rv : SReg) (rb : SReg) (off : BitVec 6)
  /-- LD_HN (R252): Loads a zero-extended half. -/
  | ldHn (la : BitVec 4) (rv : SReg) (rb : SReg) (off : BitVec 6)
  /-- LD_W (R252): Loads a sign-extended word. -/
  | ldW (la : BitVec 4) (rv : SReg) (rb : SReg) (off : BitVec 6)
  /-- LD_WN (R252): Loads a zero-extended word. -/
  | ldWn (la : BitVec 4) (rv : SReg) (rb : SReg) (off : BitVec 6)
  /-- LD_D (R252): Loads a doubleword. -/
  | ldD (la : BitVec 4) (rv : SReg) (rb : SReg) (off : BitVec 6)
  /-- LD_V (R252): Loads 64 bytes into a vector register. -/
  | ldV (la : BitVec 4) (rv : VReg) (rb : SReg) (off : BitVec 6)
  /-- LD_VT (R253): Typed load that converts the span named by the fat pointer's format into a vector or block. -/
  | ldVt (la : BitVec 4) (rv : VReg) (rb : SReg) (off : BitVec 6)
  /-- LD_ACQ (R252): Doubleword load with acquire at the location's scope. -/
  | ldAcq (la : BitVec 4) (rv : SReg) (rb : SReg) (off : BitVec 6)
  /-- LD_DEV (R252): Device-strong doubleword load. -/
  | ldDev (la : BitVec 4) (rv : SReg) (rb : SReg) (off : BitVec 6)
  /-- ST_B (R252): Stores a byte, gated when revocable. -/
  | stB (rv : SReg) (rb : SReg) (off : BitVec 6)
  /-- ST_H (R252): Stores a half. -/
  | stH (rv : SReg) (rb : SReg) (off : BitVec 6)
  /-- ST_W (R252): Stores a word. -/
  | stW (rv : SReg) (rb : SReg) (off : BitVec 6)
  /-- ST_D (R252): Stores a doubleword. -/
  | stD (rv : SReg) (rb : SReg) (off : BitVec 6)
  /-- ST_V (R252): Stores 64 bytes from a vector register. -/
  | stV (rv : VReg) (rb : SReg) (off : BitVec 6)
  /-- ST_VM (R252): Stores the lanes of a vector selected by p0. -/
  | stVm (rv : VReg) (rb : SReg) (off : BitVec 6)
  /-- ST_VT (R254): Typed store that narrows a vector or block into the format of the fat pointer. -/
  | stVt (rv : VReg) (rb : SReg) (off : BitVec 6)
  /-- ST_REL (R252): Doubleword store with release at the location's scope. -/
  | stRel (rv : SReg) (rb : SReg) (off : BitVec 6)
  /-- ST_DEV (R252): Device-strong doubleword store. -/
  | stDev (rv : SReg) (rb : SReg) (off : BitVec 6)
  /-- AT_ADD (R256): 64-bit atomic add. -/
  | atAdd (la : BitVec 4) (ra : SReg) (rb : SReg) (rc : SReg)
  /-- AT_ADDCB (R256): 64-bit combinable atomic add. -/
  | atAddcb (la : BitVec 4) (ra : SReg) (rb : SReg) (rc : SReg)
  /-- AT_AND (R256): 64-bit atomic AND. -/
  | atAnd (la : BitVec 4) (ra : SReg) (rb : SReg) (rc : SReg)
  /-- AT_OR (R256): 64-bit atomic OR. -/
  | atOr (la : BitVec 4) (ra : SReg) (rb : SReg) (rc : SReg)
  /-- AT_XOR (R256): 64-bit atomic XOR. -/
  | atXor (la : BitVec 4) (ra : SReg) (rb : SReg) (rc : SReg)
  /-- AT_MIN (R256): 64-bit atomic signed minimum. -/
  | atMin (la : BitVec 4) (ra : SReg) (rb : SReg) (rc : SReg)
  /-- AT_MAX (R256): 64-bit atomic signed maximum. -/
  | atMax (la : BitVec 4) (ra : SReg) (rb : SReg) (rc : SReg)
  /-- AT_MINN (R256): 64-bit atomic unsigned minimum. -/
  | atMinn (la : BitVec 4) (ra : SReg) (rb : SReg) (rc : SReg)
  /-- AT_MAXN (R256): 64-bit atomic unsigned maximum. -/
  | atMaxn (la : BitVec 4) (ra : SReg) (rb : SReg) (rc : SReg)
  /-- AT_SWP (R256): 64-bit atomic swap. -/
  | atSwp (la : BitVec 4) (ra : SReg) (rb : SReg) (rc : SReg)
  /-- AT_CAS (R256): 64-bit atomic compare-and-swap against the old destination value. -/
  | atCas (la : BitVec 4) (ra : SReg) (rb : SReg) (rc : SReg)
  /-- AT_FADD (R256): Atomic binary64 add, RNE, no flags. -/
  | atFadd (la : BitVec 4) (ra : SReg) (rb : SReg) (rc : SReg)
  /-- AT_RED (R256): 64-bit atomic saturating add. -/
  | atRed (la : BitVec 4) (ra : SReg) (rb : SReg) (rc : SReg)
  /-- AT_WATCH (R258): Arms a monitor on a doubleword or sends an immediate wake-up. -/
  | atWatch (la : BitVec 4) (ra : SReg) (rb : SReg) (rc : SReg)
  /-- ATW_ADD (R256): 32-bit atomic add. -/
  | atwAdd (la : BitVec 4) (ra : SReg) (rb : SReg) (rc : SReg)
  /-- ATW_ADDCB (R256): 32-bit combinable atomic add. -/
  | atwAddcb (la : BitVec 4) (ra : SReg) (rb : SReg) (rc : SReg)
  /-- ATW_AND (R256): 32-bit atomic AND. -/
  | atwAnd (la : BitVec 4) (ra : SReg) (rb : SReg) (rc : SReg)
  /-- ATW_OR (R256): 32-bit atomic OR. -/
  | atwOr (la : BitVec 4) (ra : SReg) (rb : SReg) (rc : SReg)
  /-- ATW_XOR (R256): 32-bit atomic XOR. -/
  | atwXor (la : BitVec 4) (ra : SReg) (rb : SReg) (rc : SReg)
  /-- ATW_MIN (R256): 32-bit atomic signed minimum. -/
  | atwMin (la : BitVec 4) (ra : SReg) (rb : SReg) (rc : SReg)
  /-- ATW_MAX (R256): 32-bit atomic signed maximum. -/
  | atwMax (la : BitVec 4) (ra : SReg) (rb : SReg) (rc : SReg)
  /-- ATW_MINN (R256): 32-bit atomic unsigned minimum. -/
  | atwMinn (la : BitVec 4) (ra : SReg) (rb : SReg) (rc : SReg)
  /-- ATW_MAXN (R256): 32-bit atomic unsigned maximum. -/
  | atwMaxn (la : BitVec 4) (ra : SReg) (rb : SReg) (rc : SReg)
  /-- ATW_SWP (R256): 32-bit atomic swap. -/
  | atwSwp (la : BitVec 4) (ra : SReg) (rb : SReg) (rc : SReg)
  /-- ATW_CAS (R256): 32-bit atomic compare-and-swap. -/
  | atwCas (la : BitVec 4) (ra : SReg) (rb : SReg) (rc : SReg)
  /-- ATW_FADD (R256): Atomic FP32 add, RNE, no flags. -/
  | atwFadd (la : BitVec 4) (ra : SReg) (rb : SReg) (rc : SReg)
  /-- ATW_RED (R256): 32-bit atomic saturating add. -/
  | atwRed (la : BitVec 4) (ra : SReg) (rb : SReg) (rc : SReg)
  /-- ATW_WATCH (R258): Arms a monitor on a word or sends an immediate wake-up. -/
  | atwWatch (la : BitVec 4) (ra : SReg) (rb : SReg) (rc : SReg)
  /-- VA_FADD (R192): FP32 lane add. -/
  | vaFadd (rd : VReg) (sa : VSrc) (sb : VSrc)
  /-- VA_FSUB (R192): FP32 lane subtract. -/
  | vaFsub (rd : VReg) (sa : VSrc) (sb : VSrc)
  /-- VA_FMUL (R192): FP32 lane multiply. -/
  | vaFmul (rd : VReg) (sa : VSrc) (sb : VSrc)
  /-- VA_FMA (R192): Fused a times b plus old rd. -/
  | vaFma (rd : VReg) (sa : VSrc) (sb : VSrc)
  /-- VA_FMS (R192): Fused a times b minus old rd. -/
  | vaFms (rd : VReg) (sa : VSrc) (sb : VSrc)
  /-- VA_FMIN (R193): FP32 lane minimum. -/
  | vaFmin (rd : VReg) (sa : VSrc) (sb : VSrc)
  /-- VA_FMAX (R193): FP32 lane maximum. -/
  | vaFmax (rd : VReg) (sa : VSrc) (sb : VSrc)
  /-- VA_FABS (R192): Clears the sign of each lane. -/
  | vaFabs (rd : VReg) (sa : VSrc)
  /-- VA_FNEG (R192): Inverts the sign of each lane. -/
  | vaFneg (rd : VReg) (sa : VSrc)
  /-- VA_FRCP (R192): Correctly rounded reciprocal. -/
  | vaFrcp (rd : VReg) (sa : VSrc)
  /-- VA_FRSQ (R192): Correctly rounded reciprocal square root. -/
  | vaFrsq (rd : VReg) (sa : VSrc)
  /-- VA_FSQRT (R192): Correctly rounded square root. -/
  | vaFsqrt (rd : VReg) (sa : VSrc)
  /-- VA_FDIV (R192): Correctly rounded divide. -/
  | vaFdiv (rd : VReg) (sa : VSrc) (sb : VSrc)
  /-- VI_ADD (R194): INT32 lane add. -/
  | viAdd (rd : VReg) (sa : VSrc) (sb : VSrc)
  /-- VI_SUB (R194): INT32 lane subtract. -/
  | viSub (rd : VReg) (sa : VSrc) (sb : VSrc)
  /-- VI_MUL (R194): INT32 lane multiply, low half. -/
  | viMul (rd : VReg) (sa : VSrc) (sb : VSrc)
  /-- VI_MULH (R194): INT32 lane multiply, signed high half. -/
  | viMulh (rd : VReg) (sa : VSrc) (sb : VSrc)
  /-- VI_AND (R194): Lane AND. -/
  | viAnd (rd : VReg) (sa : VSrc) (sb : VSrc)
  /-- VI_OR (R194): Lane OR. -/
  | viOr (rd : VReg) (sa : VSrc) (sb : VSrc)
  /-- VI_XOR (R194): Lane XOR. -/
  | viXor (rd : VReg) (sa : VSrc) (sb : VSrc)
  /-- VI_SHL (R194): Lane shift left. -/
  | viShl (rd : VReg) (sa : VSrc) (sb : VSrc)
  /-- VI_SHR (R194): Lane logical shift right. -/
  | viShr (rd : VReg) (sa : VSrc) (sb : VSrc)
  /-- VI_SRA (R194): Lane arithmetic shift right. -/
  | viSra (rd : VReg) (sa : VSrc) (sb : VSrc)
  /-- VI_MIN (R194): Lane signed minimum. -/
  | viMin (rd : VReg) (sa : VSrc) (sb : VSrc)
  /-- VI_MAX (R194): Lane signed maximum. -/
  | viMax (rd : VReg) (sa : VSrc) (sb : VSrc)
  /-- VI_MINN (R194): Lane unsigned minimum. -/
  | viMinn (rd : VReg) (sa : VSrc) (sb : VSrc)
  /-- VI_MAXN (R194): Lane unsigned maximum. -/
  | viMaxn (rd : VReg) (sa : VSrc) (sb : VSrc)
  /-- VC_FEQ (R195): Sets predicate bits where lanes compare equal as FP32. -/
  | vcFeq (rd : PReg) (sa : VSrc) (sb : VSrc)
  /-- VC_FNE (R195): FP32 not-equal compare into a predicate. -/
  | vcFne (rd : PReg) (sa : VSrc) (sb : VSrc)
  /-- VC_FLT (R195): FP32 less-than compare into a predicate. -/
  | vcFlt (rd : PReg) (sa : VSrc) (sb : VSrc)
  /-- VC_FLE (R195): FP32 less-or-equal compare into a predicate. -/
  | vcFle (rd : PReg) (sa : VSrc) (sb : VSrc)
  /-- VC_FUN (R195): Unordered test into a predicate. -/
  | vcFun (rd : PReg) (sa : VSrc) (sb : VSrc)
  /-- VC_IEQ (R195): Integer equal compare into a predicate. -/
  | vcIeq (rd : PReg) (sa : VSrc) (sb : VSrc)
  /-- VC_ILT (R195): Signed integer less-than into a predicate. -/
  | vcIlt (rd : PReg) (sa : VSrc) (sb : VSrc)
  /-- VC_ILTN (R195): Unsigned integer less-than into a predicate. -/
  | vcIltn (rd : PReg) (sa : VSrc) (sb : VSrc)
  /-- VX_BCAST (R196): Broadcasts lane n to every lane. -/
  | vxBcast (rd : VReg) (sa : VSrc) (sb : VSrc)
  /-- VX_EXTR (R196): Extracts lane n into lane 0 and zeroes the rest. -/
  | vxExtr (rd : VReg) (sa : VSrc) (sb : VSrc)
  /-- VX_INS (R196): Inserts lane n of the source into rd. -/
  | vxIns (rd : VReg) (sa : VSrc) (sb : VSrc)
  /-- VX_PERM (R196): Permutes lanes by index lanes. -/
  | vxPerm (rd : VReg) (sa : VSrc) (sb : VSrc)
  /-- VX_SEL (R196): Selects lanes by p0. -/
  | vxSel (rd : VReg) (sa : VSrc) (sb : VSrc)
  /-- VX_IOTA (R196): Lane i gets a + i times b. -/
  | vxIota (rd : VReg) (sa : VSrc) (sb : VSrc)
  /-- VX_CVTIF (R197): Integer to float conversion in 32- or 64-bit modes. -/
  | vxCvtif (rd : VReg) (sa : VSrc) (sb : VSrc)
  /-- VX_CVTFI (R197): Float to integer conversion in 32- or 64-bit modes. -/
  | vxCvtfi (rd : VReg) (sa : VSrc) (sb : VSrc)
  /-- VX_CVTBH (R197): FP32 lanes narrowed to BF16 halves. -/
  | vxCvtbh (rd : VReg) (sa : VSrc) (sb : VSrc)
  /-- VX_CVTHB (R197): BF16 halves widened to FP32 lanes. -/
  | vxCvthb (rd : VReg) (sa : VSrc) (sb : VSrc)
  /-- VX_CVTFH (R197): FP32 lanes narrowed to FP16 halves. -/
  | vxCvtfh (rd : VReg) (sa : VSrc) (sb : VSrc)
  /-- VX_CVTHF (R197): FP16 halves widened to FP32 lanes. -/
  | vxCvthf (rd : VReg) (sa : VSrc) (sb : VSrc)
  /-- VX_CVT8 (R197): 8-bit elements widened to FP32 lanes. -/
  | vxCvt8 (rd : VReg) (sa : VSrc) (sb : VSrc)
  /-- VX_CVTQ8 (R197): FP32 lanes narrowed to 8-bit elements. -/
  | vxCvtq8 (rd : VReg) (sa : VSrc) (sb : VSrc)
  /-- VX_CVT4 (R197): E2M1 nibbles widened to FP32 lanes. -/
  | vxCvt4 (rd : VReg) (sa : VSrc) (sb : VSrc)
  /-- VX_CVTQ4 (R197): FP32 lanes narrowed to E2M1 nibbles. -/
  | vxCvtq4 (rd : VReg) (sa : VSrc) (sb : VSrc)
  /-- VR_FSUM (R198): Sequential FP32 sum of the lanes into a scalar. -/
  | vrFsum (rd : SReg) (sa : VSrc) (sb : VSrc)
  /-- VR_FMAX (R198): FP32 maximum of the lanes. -/
  | vrFmax (rd : SReg) (sa : VSrc) (sb : VSrc)
  /-- VR_FMIN (R198): FP32 minimum of the lanes. -/
  | vrFmin (rd : SReg) (sa : VSrc) (sb : VSrc)
  /-- VR_ISUM (R198): 64-bit integer sum of the lanes. -/
  | vrIsum (rd : SReg) (sa : VSrc) (sb : VSrc)
  /-- VR_IMAX (R198): Signed integer maximum of the lanes. -/
  | vrImax (rd : SReg) (sa : VSrc) (sb : VSrc)
  /-- VR_IMIN (R198): Signed integer minimum of the lanes. -/
  | vrImin (rd : SReg) (sa : VSrc) (sb : VSrc)
  /-- VR_AND (R198): 32-bit AND of the lanes. -/
  | vrAnd (rd : SReg) (sa : VSrc) (sb : VSrc)
  /-- VR_OR (R198): 32-bit OR of the lanes. -/
  | vrOr (rd : SReg) (sa : VSrc) (sb : VSrc)
  /-- VG_GAT (R260): Gathers active lanes from base plus index times 4, in lane order from vprog. -/
  | vgGat (la : BitVec 4) (ra : VReg) (rb : SReg) (rc : VReg)
  /-- VG_SCA (R260): Scatters active lanes in lane order. -/
  | vgSca (ra : VReg) (rb : SReg) (rc : VReg)
  /-- VG_ATADD (R260): Per-lane 32-bit atomic add. -/
  | vgAtadd (ra : VReg) (rb : SReg) (rc : VReg)
  /-- VG_ATFADD (R260): Per-lane FP32 atomic add. -/
  | vgAtfadd (ra : VReg) (rb : SReg) (rc : VReg)
  /-- VG_ATMIN (R260): Per-lane signed atomic minimum. -/
  | vgAtmin (ra : VReg) (rb : SReg) (rc : VReg)
  /-- VG_ATMAX (R260): Per-lane signed atomic maximum. -/
  | vgAtmax (ra : VReg) (rb : SReg) (rc : VReg)
  /-- VG_ATOR (R260): Per-lane atomic OR. -/
  | vgAtor (ra : VReg) (rb : SReg) (rc : VReg)
  /-- MX_MMA (R214): Checks operands and queues a dense tile multiply-accumulate. -/
  | mxMma (la : BitVec 4) (ra : TReg) (rb : SReg) (rc : SReg)
  /-- MX_MMAS (R216): Checks and queues a sparse-record or single-element multiply-accumulate. -/
  | mxMmas (la : BitVec 4) (ra : TReg) (rb : SReg) (rc : SReg)
  /-- MX_ZERO (R218): Queues a zeroing of a tile, clearing its mark. -/
  | mxZero (la : BitVec 4) (ra : TReg)
  /-- MX_LDACC (R218): Queues a load of a tile from own local store. -/
  | mxLdacc (la : BitVec 4) (ra : TReg) (rb : SReg)
  /-- MX_STACC (R219): Waits for earlier matrix commands, delivers the tile mark, and stores the converted tile. -/
  | mxStacc (ra : TReg) (rb : SReg) (rc : SReg)
  /-- MX_STSP (R220): Stores a tile as bitmap and packed nonzeros, trapping 0x0C resumably on overflow. -/
  | mxStsp (ra : TReg) (rb : SReg) (rc : SReg)
  /-- MX_GANG (R215): Joins one core's part of a trail-mode row gang multiply. -/
  | mxGang (la : BitVec 4) (ra : TReg) (rb : SReg) (rc : SReg)
  /-- MX_CFG (R222): Queues a write of a matrix configuration item. -/
  | mxCfg (ra : SReg) (rb : SReg)
  /-- MX_MASK (R221): Queues a column-mask setting: off, predict from a tile, or set. -/
  | mxMask (ra : TReg) (rb : SReg) (rc : SReg)
  /-- MX_DRAIN (R223): Retires when every earlier matrix command has completed with its flags in fflags. -/
  | mxDrain
  /-- CP_GET (R150): Kicks a copy from any readable address into own local store. -/
  | cpGet (ra : SReg) (rb : SReg) (rc : SReg)
  /-- CP_PUT (R150): Kicks a copy from own local store to any writable address. -/
  | cpPut (ra : SReg) (rb : SReg) (rc : SReg)
  /-- CP_GET2D (R150): Kicks a strided 2D get described by a local-store descriptor. -/
  | cpGet2d (ra : SReg) (rb : SReg) (rc : SReg)
  /-- CP_PUT2D (R150): Kicks a strided 2D put. -/
  | cpPut2d (ra : SReg) (rb : SReg) (rc : SReg)
  /-- CP_FILL (R151): Kicks a fill with a repeated 8-byte pattern. -/
  | cpFill (ra : SReg) (rb : SReg) (rc : SReg)
  /-- CP_NZPK (R152): Kicks a scan that sends a sprinkle per nonzero FP32 lane. -/
  | cpNzpk (ra : SReg) (rb : SReg) (rc : SReg)
  /-- CP_WPTR (R153): Reads wptr, icnt, status or fault address of a channel; reading wptr is an acquire. -/
  | cpWptr (la : BitVec 4) (ra : SReg) (rb : SReg)
  /-- CP_CANCEL (R154): Cancels a channel's running and queued commands and clears its error. -/
  | cpCancel (ra : SReg)
  /-- MS_SEND (R304): Captures and sends one message to a core, object or remote context. -/
  | msSend (ra : SReg) (rb : VReg) (rc : SReg)
  /-- MS_SENDT (R304): Sends a timestamped message to a group's ordered domain. -/
  | msSendt (ra : SReg) (rb : VReg) (rc : SReg)
  /-- MS_SPR (R305): Releases one sprinkle to a core of the own package. -/
  | msSpr (ra : SReg) (rb : SReg) (rc : SReg)
  /-- MS_BCAST (R304): Sends one copy to every member of a group. -/
  | msBcast (ra : SReg) (rb : VReg) (rc : SReg)
  /-- MS_END (R306): Ends the activation and commits it, or waits to commit if ordered. -/
  | msEnd
  /-- MS_ENDC (R306): Ends and places a continuation message at the head of its tag's FIFO at commit. -/
  | msEndc (rb : VReg) (rc : SReg)
  /-- MS_DEFER (R306): Ends and returns the trigger to the head of its or another tag's FIFO. -/
  | msDefer (ra : SReg)
  /-- TK_NEW (R311): Arms a free task or barrier record with a count and returns the task id. -/
  | tkNew (la : BitVec 4) (ra : SReg) (rb : SReg) (rc : SReg)
  /-- TK_ARR (R311): Counts one arrival at a task record. -/
  | tkArr (rb : SReg)
  /-- TK_ARRD (R311): Counts several arrivals as one step. -/
  | tkArrd (rb : SReg) (rc : SReg)
  /-- TK_DL (R311): Writes a task deadline. -/
  | tkDl (rb : SReg) (rc : SReg)
  /-- TK_KILL (R311): Removes a waiting or queued task, freeing its record. -/
  | tkKill (rb : SReg)
  /-- TK_BARR (R312): Arrives at a fuzzy barrier and opens the marked region. -/
  | tkBarr (rb : SReg)
  /-- TK_BWAIT (R312): Ends the activation and registers a barrier continuation, arriving if not yet arrived. -/
  | tkBwait (rb : SReg) (rc : SReg)
  /-- TG_EN (R314): Enables named route tags and optionally sets their priority. -/
  | tgEn (sa : Src) (sb : Src)
  /-- TG_DIS (R314): Disables named route tags. -/
  | tgDis (sa : Src)
  /-- TG_PEND (R314): Sets soft-pending bits of named tags. -/
  | tgPend (sa : Src)
  /-- TG_CLR (R314): Clears soft-pending bits of named tags. -/
  | tgClr (sa : Src)
  /-- TG_GET (R314): Reads a tag's status or the enabled or pending mask. -/
  | tgGet (rd : SReg) (sa : Src)
  /-- GM_ADD (R233): Element-wise sum of two Gaussian blocks. -/
  | gmAdd (rd : GReg) (sa : GReg) (sb : GReg)
  /-- GM_SUB (R233): Element-wise difference of two Gaussian blocks. -/
  | gmSub (rd : GReg) (sa : GReg) (sb : GReg)
  /-- GM_DAMP (R233): Damps the new message in rd toward the old one by beta. -/
  | gmDamp (rd : GReg) (sa : GReg) (sb : Src)
  /-- GM_MARG (R234): Marginalises a block onto the kept variables by elimination. -/
  | gmMarg (rd : GReg) (sa : GReg) (sb : Src)
  /-- GM_SOL (R234): Solves for the mean and writes the LDL factors. -/
  | gmSol (rd : GReg) (sa : GReg)
  /-- GM_COV (R234): Computes the covariance and variances. -/
  | gmCov (rd : GReg) (sa : GReg)
  /-- GM_LIN (R235): Forms J^T W J and J^T W r from a block holding J, r and w. -/
  | gmLin (rd : GReg) (sa : GReg) (sb : Src)
  /-- GM_RES (R236): Computes the residual and band of two messages into a scalar. -/
  | gmRes (rd : SReg) (sa : GReg) (sb : GReg)
  /-- GM_CONV (R244): Reports a change value to a group's run-out unit, gated like a message. -/
  | gmConv (sa : Src) (sb : Src)
  /-- GM_RDRO (R246): Reads the quiet count and largest window value of a run-out unit. -/
  | gmRdro (rd : SReg) (sa : Src)
  /-- FG_ATTACH (R240): Attaches the lowest free edge of a node object and returns its new egen. -/
  | fgAttach (la : BitVec 4) (ra : SReg) (rb : SReg) (rc : SReg)
  /-- FG_DETACH (R240): Detaches an edge, bumping its egen. -/
  | fgDetach (ra : SReg) (rb : SReg)
  /-- FG_SLOT (R240): Returns the address of an edge's slot. -/
  | fgSlot (la : BitVec 4) (ra : SReg) (rb : SReg) (rc : SReg)
  /-- FG_POST (R241): Captures a block as a post to the neighbour on an edge. -/
  | fgPost (ra : GReg) (rb : SReg) (rc : SReg)
  /-- FG_GEN (R240): Reads an edge's egen or the object's ogen. -/
  | fgGen (la : BitVec 4) (ra : SReg) (rb : SReg) (rc : SReg)
  /-- CH_LINK (R116): Creates a chain, adds a syncing link, or adopts a frozen chain. -/
  | chLink (ra : SReg) (rb : SReg) (rc : SReg)
  /-- CH_UNLINK (R111): Removes a member or syncing link, optionally freeing the chain. -/
  | chUnlink (ra : SReg) (rb : SReg) (rc : SReg)
  /-- CH_RELINK (R110): Replaces a leaving link by a new syncing link. -/
  | chRelink (ra : SReg) (rb : SReg) (rc : SReg)
  /-- CH_STAT (R117): Reads one word of a chain table entry. -/
  | chStat (la : BitVec 4) (ra : SReg) (rb : SReg) (rc : SReg)
  /-- CH_TAIL (R118): Reads a doubleword as the chain's tail holds it. -/
  | chTail (la : BitVec 4) (ra : SReg) (rb : SReg)
  /-- CH_CLEAN (R119): Requests status when every store the head applied so far has completed. -/
  | chClean (ra : SReg) (rc : SReg)
  /-- RG_ACQ (R265): Reserves a ring slot as a returning atomic, or returns 0 when full. -/
  | rgAcq (la : BitVec 4) (ra : SReg) (rb : SReg)
  /-- RG_CMT (R266): Commits a reserved slot, advancing cmt and notifying on empty-to-non-empty. -/
  | rgCmt (rb : SReg) (rc : SReg)
  /-- RG_PEEK (R267): Acquire-reads the slot at tail if committed, else 0. -/
  | rgPeek (la : BitVec 4) (ra : SReg) (rb : SReg)
  /-- RG_REL (R267): Releases the slot at tail. -/
  | rgRel (rb : SReg)
  /-- QP_CTL (R272): Enqueues a control word on a neighbour port. -/
  | qpCtl (sa : Src) (sb : Src)
  /-- QP_STAT (R272): Reads a port's status. -/
  | qpStat (rd : SReg) (sa : Src)
  /-- QP_CATCH (R272): Sets or clears a port's catch address. -/
  | qpCatch (sa : Src) (sb : Src)
  /-- GL_ARM (R318): Arms a launch entry from a descriptor. -/
  | glArm (ra : SReg) (rb : SReg)
  /-- GL_DISARM (R317): Disarms a launch entry or clears rearm of a firing one. -/
  | glDisarm (ra : SReg)
  /-- GL_TRIG (R331): Sends a trigger by trigger tag, locally or over UALink. -/
  | glTrig (ra : SReg) (rb : SReg)
  /-- GL_GATE (R340): Makes the package a gate coordinator and posts the gate to every listed package. -/
  | glGate (ra : SReg)
  /-- GL_IDX (R332): Reads an item of a launch entry. -/
  | glIdx (la : BitVec 4) (ra : SReg) (rb : SReg)
  /-- GL_GRP (R333): Reads an item of a group. -/
  | glGrp (la : BitVec 4) (ra : SReg) (rb : SReg)
  /-- PG_INVAL (R96): Removes a context's translations over a range and releases pins in it. -/
  | pgInval (ra : SReg) (rb : SReg) (rc : SReg)
  /-- PG_REPLAY (R97): Advances the replay count and releases parked triggers and held activations of a context. -/
  | pgReplay (ra : SReg)
  /-- PG_FBRD (R98): Removes the oldest fault record of a die and clears its dropped flag. -/
  | pgFbrd (la : BitVec 4) (ra : SReg) (rb : SReg)
  /-- PG_PIN (R99): Locks or unlocks a page's leaf in the L2 TLBs. -/
  | pgPin (ra : SReg) (rb : SReg) (rc : SReg)
  /-- PG_HINT (R100): Prefetches a translation or requests a page move; no visible effect. -/
  | pgHint (ra : SReg) (rb : SReg) (rc : SReg)
  /-- TRL_LEAD (R323): On column 0, waits for the row's joins and starts trail mode. -/
  | trlLead
  /-- TRL_JOIN (R323): On columns 1 to 3, joins the leader's next trail-mode stream. -/
  | trlJoin
  /-- TRL_QUIT (R326): Ends trail mode for the whole row. -/
  | trlQuit
  deriving DecidableEq, Repr

end Sys2Proof
end

