-- ==== Sys2Proof/WellFormed.lean ====
section
/-!
DEFINITION. Which instructions are well-formed. The fields of an encoded instruction are bit fields, so that every value
of them is one that the word can hold. What a step of the device carries is numbers, and these lie in the ranges that
the spec gives for them. (Whether the word of undefinedEncoding is no instruction is the decoder's question.)
-/
namespace Sys2Proof

/-- A logical core id (R2). -/
def okCore (c : Nat) : Bool := decide (c < 4096)
/-- A context number. -/
def okCtx (x : Nat) : Bool := decide (x < 64)
/-- A compute die. -/
def okDie (d : Nat) : Bool := decide (d < 8)
/-- A virtual or physical address (R55, R58). -/
def okAddr (a : Nat) : Bool := decide (a < 2 ^ 52)
/-- The address of a line. -/
def okLine (a : Nat) : Bool := decide (a < 2 ^ 52) && a % 64 == 0
/-- A group, or a chain number. -/
def okByte (n : Nat) : Bool := decide (n < 256)
/-- A launch entry, or a route tag. -/
def okEntry (n : Nat) : Bool := decide (n < 64)
/-- A package number. -/
def okPkg (p : Nat) : Bool := decide (p < 1024)
/-- A tenant id. -/
def okTenant (t : Nat) : Bool := decide (t < 4096)
/-- A mailbox. -/
def okBox (m : Nat) : Bool := decide (m < 16)

/-- A trigger. -/
def okMsg (m : Msg) : Bool :=
  okCore m.scid && okPkg m.spkg && okCtx m.ctx && okEntry m.tag && okByte m.grp && decide (m.kind < 6) && okCore m.dcore &&
    m.pay.length == 8 && okAddr m.fp && decide (m.fplen ≤ 65536)
/-- A read or a write: it stays within a line. -/
def okMem (r : MemReq) : Bool :=
  okCore r.core && okPkg r.pkg && okCtx r.ctx && okAddr r.va && okAddr r.pa &&
    decide (r.pa % 64 + max r.len r.data.length ≤ 64) && decide (r.gen < 65536) && (r.sender.map okPkg).getD true
/-- A scalar atomic, aligned to its width. -/
def okAtomic (r : AtomReq) : Bool :=
  okCore r.core && okPkg r.pkg && okCtx r.ctx && decide (r.fn ≤ 12) && (r.width == 8 || r.width == 4) && okAddr r.va &&
    okAddr r.pa && r.pa % r.width == 0 && decide (r.dest < 64) && decide (r.la < 16) && decide (r.gen < 65536)
/-- A watch. -/
def okWatch (r : WatchReq) : Bool :=
  okCtx r.ctx && okCore r.core && okEntry r.tag && (r.width == 8 || r.width == 4) && okAddr r.va && okAddr r.pa &&
    (r.origin.map fun o => okPkg o.1 && okCtx o.2).getD true
/-- A ring operation from another package. -/
def okRing (r : RingReq) : Bool :=
  decide (r.op ≤ 2) && okCore r.core && okCtx r.ctx && okAddr r.cb && okAddr r.pa && decide (r.slot < 2 ^ 64)
/-- A store along a chain of at most four members and a syncing link. -/
def okStore (st : ChainStore) : Bool := okPkg st.pkg && okCore st.core && okCtx st.ctx && okByte st.ch &&
  decide (st.hop < 5) && decide (st.gen < 65536) && okAddr st.va && okTenant st.tenant && decide (st.share < 32) &&
  (st.sender.map okPkg).getD true && (st.answer.map fun a => okAtomic a.1).getD true
/-- The record of a chain of at most four members. -/
def okRec (r : ChainRec) : Bool :=
  okPkg r.owner && okCtx r.ctx && okByte r.ch && decide (r.gen < 65536) && decide (r.base + r.npg < 0x180000) &&
    decide (r.links.length ≤ 4) && (r.links ++ r.sync.toList).all fun l => okPkg l.1 && okDie l.2
/-- A post. -/
def okPost (p : Post) : Bool :=
  okCore p.poster && okCtx p.ctx && okCore p.ncore && decide (p.noff < 0x40000) && decide (p.nslot < 8) && okEntry p.tag &&
    decide (1 ≤ p.dim) && decide (p.dim ≤ 8) && p.eta.length == 8 && p.lam.length == 36
/-- A tk operation. -/
def okTask (r : TaskReq) : Bool := decide (r.op ≤ 7) && okCore r.core && okCtx r.ctx && okAddr r.va && okAddr r.pa
/-- A trigger of a launch entry. -/
def okTrig (t : Trig) : Bool := okCtx t.ctx && okEntry t.n
/-- The name of a gate: its 32-bit id, and its tenant's number of 12 bits above it. -/
def okGateName (n : Nat) : Bool := decide (n < 2 ^ 44)

/-- A gate's post. -/
def okGate (p : GatePost) : Bool :=
  decide (p.id < 2 ^ 32) && okPkg p.coord && okTenant p.tenant && decide (p.action < 4) && decide (p.guard ≤ 1000000000)
/-- A pg.inval in progress. -/
def okInval (r : InvalReq) : Bool := okCtx r.ctx && decide (r.first < 2 ^ 36)
/-- A pg.pin in progress. -/
def okPin (r : PinReq) : Bool := okCtx r.ctx && okCore r.core && okAddr r.va
/-- A request at a UALink port. -/
def okUal (r : UalReq) : Bool :=
  okPkg r.pkg && okTenant r.tenant && decide (r.share < 32) &&
    match r.body with
    | .mem q => okMem q
    | .atomic q => okAtomic q
    | .msg m => okMsg m
    | .trig t => okTrig t
    | .ring r => okRing r
    | .watch r => okWatch r
    | .task r => okTask r
    | .chainRec r => okRec r
    | .chainStore st => okStore st
    | .chainAck st => okStore st
    | .chainRead q => okMem q
    | .tailQuery q => okMem q
    | .chainAtomic q => okAtomic q
    | .chainPage owner ctx ch page _ => okPkg owner && okCtx ctx && okByte ch && decide (page < 0x180000)
    | .chainMark owner ctx ch => okPkg owner && okCtx ctx && okByte ch
/-- A link or a router. -/
def okPart (p : NetPart) : Bool :=
  match p with
  | .mesh die router port => okDie die && decide (router < 32) && decide (1 ≤ port) && decide (port ≤ 5)
  | .router u => decide (u ≤ 256)
  | .bridge link => decide (link < 12)
  | .ualink port => decide (port < 24)
/-- The site of an error. -/
def okSite (e : ErrSite) : Bool :=
  match e with
  | .line pa _ => okAddr pa
  | .task ctx va pa => okCtx ctx && okAddr va && okAddr pa
  | .inbox c k => okCore c && decide (k < 64)
  | .crumb u _ _ => decide (u ≤ 256)
  | .way die slice set => okDie die && decide (slice < 32) && decide (set < 4096)
  | .core c => okCore c
  | .lane link => decide (link < 12)
  | .flit l => okPart l
/-- A function that reports ready. -/
def okUnit (u : ReadyUnit) : Bool :=
  match u with
  | .core c => okCore c
  | .slice die cluster => okDie die && decide (cluster < 32)
  | .die d => okDie d
  | .hub => true
  | .hbm stack => decide (stack < 16)
  | .ualink port => decide (port < 24)
  | .ether port => decide (port < 2)
  | .pcie => true
  | .mgmt => true

/-- An instruction is well-formed. -/
def wellFormed (i : Instr) : Bool :=
  match i with
  | .undefinedEncoding _ => true
  | .registerWrite _ _ => true
  | .rostatSelect _ => true
  | .rostatArm _ => true
  | .rostatDisarm _ => true
  | .ctxctlPreempt ctx => okCtx ctx
  | .ctxctlResume ctx => okCtx ctx
  | .ctxctlKill ctx => okCtx ctx
  | .messageArrival m => okMsg m
  | .dispatch c => okCore c
  | .activationCommit c => okCore c
  | .sequencerArrival m => okMsg m
  | .tlbMissAtSlice c ctx va _ => okCore c && okCtx ctx && okAddr va
  | .pageWalkComplete die ctx vpage => okDie die && okCtx ctx && decide (vpage < 2 ^ 36)
  | .pgInvalCompletion r => okInval r
  | .pgPinCompletion r => okPin r
  | .epochEnd ctx => okCtx ctx
  | .migrationSwitch ctx vpage => okCtx ctx && decide (vpage < 2 ^ 36)
  | .homeSliceAccess r => okMem r
  | .invalidation line target => okLine line && decide (target < 40)
  | .invalidationAck line target => okLine line && decide (target < 40)
  | .atomicAtHome r => okAtomic r
  | .watchArmAtHome r => okWatch r
  | .combineRequest u port r => decide (u ≤ 256) && decide (port < 34) && okAtomic r
  | .combineWindowExpiry u _ => decide (u ≤ 256)
  | .decombine u _ _ => decide (u ≤ 256)
  | .atomicReplyTimeout c _ _ => okCore c
  | .tileFetchLine c => okCore c
  | .matrixCommandExecute c => okCore c
  | .gangStart c => okCore c
  | .copyBeat c ch => okCore c && decide (ch < 4)
  | .footprintPrefetch c => okCore c
  | .remotePortAccess r => okMem r
  | .queueWordArrival c port w => okCore c && decide (port < 4) && okCtx w.ctx
  | .chainStoreAtLink st => okStore st
  | .chainAcknowledgement st => okStore st
  | .chainStoreCompletion st => okStore st
  | .chainRead r => okMem r
  | .chainTailQuery r => okMem r
  | .chainPageCopy ctx ch => okCtx ctx && okByte ch
  | .chainPromotionMarker ctx ch => okCtx ctx && okByte ch
  | .chainHeadHandoff ctx ch => okCtx ctx && okByte ch
  | .chainCleanDone ctx ch => okCtx ctx && okByte ch
  | .linkUnreachable pkg die => okPkg pkg && okDie die
  | .postArrival p => okPost p
  | .postApply c => okCore c
  | .reportWindowExpiry ctx g c => okCtx ctx && okByte g && okCore c
  | .runOutFire ctx g => okCtx ctx && okByte g
  | .taskAtHome r => okTask r
  | .taskDeadline ctx va => okCtx ctx && okAddr va
  | .taskTake c => okCore c
  | .barrierAcknowledgement c ctx va a => okCore c && okCtx ctx && okAddr va && decide (a.gen < 2 ^ 24)
  | .barrierRelease c ctx va gen => okCore c && okCtx ctx && okAddr va && decide (gen < 2 ^ 24)
  | .launchTrigger t => okTrig t
  | .launchBatch ctx e die => okCtx ctx && okEntry e && okDie die
  | .indexAcknowledgement ctx e i => okCtx ctx && okEntry e && decide (i < 2 ^ 48)
  | .preemptionHalt c => okCore c
  | .localStoreSwap c ctx => okCore c && okCtx ctx
  | .gatePost p => okGate p
  | .gateArmed id pkg _ => okGateName id && okPkg pkg
  | .gateGuardDeadline id => okGateName id
  | .gateGo id _ => okGateName id
  | .gateAbort id => okGateName id
  | .gateActionTime id => okGateName id
  | .gateArmedTimeout id => okGateName id
  | .errorRetry e _ => okSite e
  | .remapComplete c _ => okCore c
  | .linkRemoval l => okPart l
  | .packetResendTimeout r => okPart r
  | .heartbeatTimeout die => okDie die
  | .budgetExpiry c => okCore c
  | .hostTriggerRecord page off bs => decide (page < 64) && decide (off + bs.length ≤ 4096)
  | .mbxAttest m nonce => okBox m && decide (nonce.length = 64)
  | .mbxCreateContext m tenant _ => okBox m && okTenant tenant
  | .mbxLoadImage m ctx _ _ => okBox m && okCtx ctx
  | .mbxDestroyContext m ctx => okBox m && okCtx ctx
  | .mbxTenantKey m tenant _ _ => okBox m && okTenant tenant
  | .mbxReserveRange m tenant die base npg => okBox m && okTenant tenant && okDie die && decide (base + npg ≤ 0x180000)
  | .mbxHealthLog m _ => okBox m
  | .mbxUnlistedCommand m code => okBox m && decide (7 < code)
  | .mailboxCompletion m => okBox m
  | .ualinkRequest r => okUal r
  | .hostCompletion c _ _ => okCore c
  | .hostCompletionTimeout c => okCore c
  | .ethernetTransmit port qp => decide (port < 2) && decide (qp < 64)
  | .ethernetReceive port qp frame => decide (port < 2) && decide (qp < 64) && decide (frame.length < 2 ^ 14)
  | .ptpMessage _ _ => true
  | .clockDegradedExit => true
  | .boot _ _ => true
  | .selfTestReady u => okUnit u
  | .thermalShutdown => true
  | .clockDegradedEntry _ => true
  | .goMarkedNow id => okGateName id
  | .bridgeLaneSwapDone link => decide (link < 12)
  | .lostResponseTimeout c => okCore c
  | .powerCapping _ => true
  | .sysInv => true
  | .sysNop => true
  | .sysBrk _ => true
  | .sysTrap _ => true
  | .sysEret => true
  | .sysGet _ _ => true
  | .sysPut _ _ => true
  | .sysSet _ _ => true
  | .sysClr _ _ => true
  | .sysKill _ => true
  | .fenceFull _ => true
  | .fenceAcq _ => true
  | .fenceRel _ => true
  | .fenceEng _ => true
  | .saAdd _ _ _ => true
  | .saSub _ _ _ => true
  | .saMul _ _ _ => true
  | .saMulh _ _ _ => true
  | .saMulhn _ _ _ => true
  | .saDiv _ _ _ => true
  | .saDivn _ _ _ => true
  | .saRem _ _ _ => true
  | .saRemn _ _ _ => true
  | .saMin _ _ _ => true
  | .saMax _ _ _ => true
  | .saMinn _ _ _ => true
  | .saMaxn _ _ _ => true
  | .saPadd _ _ _ => true
  | .saAbs _ _ => true
  | .saNeg _ _ => true
  | .sbAnd _ _ _ => true
  | .sbOr _ _ _ => true
  | .sbXor _ _ _ => true
  | .sbAndn _ _ _ => true
  | .sbShl _ _ _ => true
  | .sbShr _ _ _ => true
  | .sbSra _ _ _ => true
  | .sbRot _ _ _ => true
  | .sbClz _ _ => true
  | .sbCtz _ _ => true
  | .sbPop _ _ => true
  | .sbSeq _ _ _ => true
  | .sbSne _ _ _ => true
  | .sbSlt _ _ _ => true
  | .sbSltn _ _ _ => true
  | .sbSel _ _ _ => true
  | .swAdd _ _ _ => true
  | .swSub _ _ _ => true
  | .swMul _ _ _ => true
  | .swDiv _ _ _ => true
  | .swDivn _ _ _ => true
  | .swRem _ _ _ => true
  | .swRemn _ _ _ => true
  | .swShl _ _ _ => true
  | .swShr _ _ _ => true
  | .swSra _ _ _ => true
  | .swMin _ _ _ => true
  | .swMax _ _ _ => true
  | .siAdd _ _ _ => true
  | .siAnd _ _ _ => true
  | .siOr _ _ _ => true
  | .siXor _ _ _ => true
  | .siShl _ _ _ => true
  | .siShr _ _ _ => true
  | .siSra _ _ _ => true
  | .siRot _ _ _ => true
  | .siSlt _ _ _ => true
  | .liHi _ _ => true
  | .liTop _ _ => true
  | .brEq _ _ => true
  | .brNe _ _ => true
  | .brLt _ _ => true
  | .brGe _ _ => true
  | .brGt _ _ => true
  | .brLe _ _ => true
  | .brAny _ _ => true
  | .brNone _ _ => true
  | .brAlways _ => true
  | .jmp _ => true
  | .call _ => true
  | .jxJr _ => true
  | .jxCallr _ _ => true
  | .jxRet => true
  | .lpDo _ _ => true
  | .prAnd _ _ _ => true
  | .prOr _ _ _ => true
  | .prXor _ _ _ => true
  | .prNot _ _ => true
  | .prSet _ _ => true
  | .prGet _ _ => true
  | .prCnt _ _ => true
  | .prFirst _ _ => true
  | .ldB _ _ _ _ => true
  | .ldBn _ _ _ _ => true
  | .ldH _ _ _ _ => true
  | .ldHn _ _ _ _ => true
  | .ldW _ _ _ _ => true
  | .ldWn _ _ _ _ => true
  | .ldD _ _ _ _ => true
  | .ldV _ _ _ _ => true
  | .ldVt _ _ _ _ => true
  | .ldAcq _ _ _ _ => true
  | .ldDev _ _ _ _ => true
  | .stB _ _ _ => true
  | .stH _ _ _ => true
  | .stW _ _ _ => true
  | .stD _ _ _ => true
  | .stV _ _ _ => true
  | .stVm _ _ _ => true
  | .stVt _ _ _ => true
  | .stRel _ _ _ => true
  | .stDev _ _ _ => true
  | .atAdd _ _ _ _ => true
  | .atAddcb _ _ _ _ => true
  | .atAnd _ _ _ _ => true
  | .atOr _ _ _ _ => true
  | .atXor _ _ _ _ => true
  | .atMin _ _ _ _ => true
  | .atMax _ _ _ _ => true
  | .atMinn _ _ _ _ => true
  | .atMaxn _ _ _ _ => true
  | .atSwp _ _ _ _ => true
  | .atCas _ _ _ _ => true
  | .atFadd _ _ _ _ => true
  | .atRed _ _ _ _ => true
  | .atWatch _ _ _ _ => true
  | .atwAdd _ _ _ _ => true
  | .atwAddcb _ _ _ _ => true
  | .atwAnd _ _ _ _ => true
  | .atwOr _ _ _ _ => true
  | .atwXor _ _ _ _ => true
  | .atwMin _ _ _ _ => true
  | .atwMax _ _ _ _ => true
  | .atwMinn _ _ _ _ => true
  | .atwMaxn _ _ _ _ => true
  | .atwSwp _ _ _ _ => true
  | .atwCas _ _ _ _ => true
  | .atwFadd _ _ _ _ => true
  | .atwRed _ _ _ _ => true
  | .atwWatch _ _ _ _ => true
  | .vaFadd _ _ _ => true
  | .vaFsub _ _ _ => true
  | .vaFmul _ _ _ => true
  | .vaFma _ _ _ => true
  | .vaFms _ _ _ => true
  | .vaFmin _ _ _ => true
  | .vaFmax _ _ _ => true
  | .vaFabs _ _ => true
  | .vaFneg _ _ => true
  | .vaFrcp _ _ => true
  | .vaFrsq _ _ => true
  | .vaFsqrt _ _ => true
  | .vaFdiv _ _ _ => true
  | .viAdd _ _ _ => true
  | .viSub _ _ _ => true
  | .viMul _ _ _ => true
  | .viMulh _ _ _ => true
  | .viAnd _ _ _ => true
  | .viOr _ _ _ => true
  | .viXor _ _ _ => true
  | .viShl _ _ _ => true
  | .viShr _ _ _ => true
  | .viSra _ _ _ => true
  | .viMin _ _ _ => true
  | .viMax _ _ _ => true
  | .viMinn _ _ _ => true
  | .viMaxn _ _ _ => true
  | .vcFeq _ _ _ => true
  | .vcFne _ _ _ => true
  | .vcFlt _ _ _ => true
  | .vcFle _ _ _ => true
  | .vcFun _ _ _ => true
  | .vcIeq _ _ _ => true
  | .vcIlt _ _ _ => true
  | .vcIltn _ _ _ => true
  | .vxBcast _ _ _ => true
  | .vxExtr _ _ _ => true
  | .vxIns _ _ _ => true
  | .vxPerm _ _ _ => true
  | .vxSel _ _ _ => true
  | .vxIota _ _ _ => true
  | .vxCvtif _ _ _ => true
  | .vxCvtfi _ _ _ => true
  | .vxCvtbh _ _ _ => true
  | .vxCvthb _ _ _ => true
  | .vxCvtfh _ _ _ => true
  | .vxCvthf _ _ _ => true
  | .vxCvt8 _ _ _ => true
  | .vxCvtq8 _ _ _ => true
  | .vxCvt4 _ _ _ => true
  | .vxCvtq4 _ _ _ => true
  | .vrFsum _ _ _ => true
  | .vrFmax _ _ _ => true
  | .vrFmin _ _ _ => true
  | .vrIsum _ _ _ => true
  | .vrImax _ _ _ => true
  | .vrImin _ _ _ => true
  | .vrAnd _ _ _ => true
  | .vrOr _ _ _ => true
  | .vgGat _ _ _ _ => true
  | .vgSca _ _ _ => true
  | .vgAtadd _ _ _ => true
  | .vgAtfadd _ _ _ => true
  | .vgAtmin _ _ _ => true
  | .vgAtmax _ _ _ => true
  | .vgAtor _ _ _ => true
  | .mxMma _ _ _ _ => true
  | .mxMmas _ _ _ _ => true
  | .mxZero _ _ => true
  | .mxLdacc _ _ _ => true
  | .mxStacc _ _ _ => true
  | .mxStsp _ _ _ => true
  | .mxGang _ _ _ _ => true
  | .mxCfg _ _ => true
  | .mxMask _ _ _ => true
  | .mxDrain => true
  | .cpGet _ _ _ => true
  | .cpPut _ _ _ => true
  | .cpGet2d _ _ _ => true
  | .cpPut2d _ _ _ => true
  | .cpFill _ _ _ => true
  | .cpNzpk _ _ _ => true
  | .cpWptr _ _ _ => true
  | .cpCancel _ => true
  | .msSend _ _ _ => true
  | .msSendt _ _ _ => true
  | .msSpr _ _ _ => true
  | .msBcast _ _ _ => true
  | .msEnd => true
  | .msEndc _ _ => true
  | .msDefer _ => true
  | .tkNew _ _ _ _ => true
  | .tkArr _ => true
  | .tkArrd _ _ => true
  | .tkDl _ _ => true
  | .tkKill _ => true
  | .tkBarr _ => true
  | .tkBwait _ _ => true
  | .tgEn _ _ => true
  | .tgDis _ => true
  | .tgPend _ => true
  | .tgClr _ => true
  | .tgGet _ _ => true
  | .gmAdd _ _ _ => true
  | .gmSub _ _ _ => true
  | .gmDamp _ _ _ => true
  | .gmMarg _ _ _ => true
  | .gmSol _ _ => true
  | .gmCov _ _ => true
  | .gmLin _ _ _ => true
  | .gmRes _ _ _ => true
  | .gmConv _ _ => true
  | .gmRdro _ _ => true
  | .fgAttach _ _ _ _ => true
  | .fgDetach _ _ => true
  | .fgSlot _ _ _ _ => true
  | .fgPost _ _ _ => true
  | .fgGen _ _ _ _ => true
  | .chLink _ _ _ => true
  | .chUnlink _ _ _ => true
  | .chRelink _ _ _ => true
  | .chStat _ _ _ _ => true
  | .chTail _ _ _ => true
  | .chClean _ _ => true
  | .rgAcq _ _ _ => true
  | .rgCmt _ _ => true
  | .rgPeek _ _ _ => true
  | .rgRel _ => true
  | .qpCtl _ _ => true
  | .qpStat _ _ => true
  | .qpCatch _ _ => true
  | .glArm _ _ => true
  | .glDisarm _ => true
  | .glTrig _ _ => true
  | .glGate _ => true
  | .glIdx _ _ _ => true
  | .glGrp _ _ _ => true
  | .pgInval _ _ _ => true
  | .pgReplay _ => true
  | .pgFbrd _ _ _ => true
  | .pgPin _ _ _ => true
  | .pgHint _ _ _ => true
  | .trlLead => true
  | .trlJoin => true
  | .trlQuit => true

/-- An instruction is well-formed. -/
abbrev WellFormed (i : Instr) : Prop := wellFormed i = true

end Sys2Proof
end

