-- ==== Sys2Proof/Decode.lean ====
section
/-!
DEFINITION. Decoding, total on any bytes and rejecting by name, and the encoder, both from the tables of chapter 01:
Table 1.1 (formats), Table 1.2 (source kinds), Table 1.7 (opcode map) and Table 1.9 (fates of undefined words).
-/
namespace Sys2Proof

/-! ## Bit fields of natural numbers -/

/-- Bits [hi:lo] of a natural number, as a natural number (R5). -/
def bits (w hi lo : Nat) : Nat := (w >>> lo) % 2 ^ (hi + 1 - lo)

/-- Bit i of a natural number. -/
def bit (w i : Nat) : Bool := (w >>> i) % 2 == 1

/-- The value 2^i where a bit is set, else 0. -/
def flag (b : Bool) (i : Nat) : Nat := if b then 2 ^ i else 0

/-! ## The fields of Table 1.1 -/

/-- Why a word or a string of bytes is no instruction. -/
inductive DecodeErr where
  /-- Trap cause 0x01 (Table 1.9, checks 1, 6, 7 and 8). -/
  | illegal
  /-- Trap cause 0x02 (Table 1.9, checks 2 to 5). -/
  | reserved
  /-- Fewer than four bytes: no instruction word. -/
  | truncated
  deriving DecidableEq, Repr

/-- What a word decodes to. -/
abbrev Decoded := Except DecodeErr Instr

/-- op[31:26], in every format. -/
def wOp (w : BitVec 32) : BitVec 6 := w.extractLsb' 26 6
/-- fn[25:22] of formats A, L and M, and cond[25:22] of format B. -/
def wFn (w : BitVec 32) : BitVec 4 := w.extractLsb' 22 4
/-- rd[21:16] of format A. -/
def wRd (w : BitVec 32) : BitVec 6 := w.extractLsb' 16 6
/-- sa[15:8] of format A. -/
def wSa (w : BitVec 32) : BitVec 8 := w.extractLsb' 8 8
/-- sb[7:0] of format A. -/
def wSb (w : BitVec 32) : BitVec 8 := w.extractLsb' 0 8
/-- rd[25:20] of formats I and U. -/
def iRd (w : BitVec 32) : BitVec 6 := w.extractLsb' 20 6
/-- rs[19:14] of format I. -/
def iRs (w : BitVec 32) : BitVec 6 := w.extractLsb' 14 6
/-- imm14[13:0] of format I. -/
def iImm (w : BitVec 32) : BitVec 14 := w.extractLsb' 0 14
/-- imm14[13:12], the shift of si.sh. -/
def shFn (w : BitVec 32) : BitVec 2 := w.extractLsb' 12 2
/-- imm14[5:0], the amount of si.sh. -/
def shAmt (w : BitVec 32) : BitVec 6 := w.extractLsb' 0 6
/-- imm20[19:0] of format U. -/
def uImm (w : BitVec 32) : BitVec 20 := w.extractLsb' 0 20
/-- la[21:18] of formats L and M. -/
def wLa (w : BitVec 32) : BitVec 4 := w.extractLsb' 18 4
/-- rv[17:12] of format L and ra[17:12] of format M. -/
def wRa (w : BitVec 32) : BitVec 6 := w.extractLsb' 12 6
/-- rb[11:6] of formats L and M. -/
def wRb (w : BitVec 32) : BitVec 6 := w.extractLsb' 6 6
/-- rc[5:0] of format M. -/
def wRc (w : BitVec 32) : BitVec 6 := w.extractLsb' 0 6
/-- off6[5:0] of format L. -/
def lOff (w : BitVec 32) : BitVec 6 := w.extractLsb' 0 6
/-- sa[21:14] of format B. -/
def bSa (w : BitVec 32) : BitVec 8 := w.extractLsb' 14 8
/-- off14[13:0] of format B. -/
def bOff (w : BitVec 32) : BitVec 14 := w.extractLsb' 0 14
/-- off26[25:0] of format J. -/
def jOff (w : BitVec 32) : BitVec 26 := w.extractLsb' 0 26
/-- fn10[25:16] of format X. -/
def xFn (w : BitVec 32) : BitVec 10 := w.extractLsb' 16 10
/-- imm16[15:0] of format X. -/
def xImm (w : BitVec 32) : BitVec 16 := w.extractLsb' 0 16
/-- imm16[15:10], the scalar register of sys.get and sys.put. -/
def xReg (w : BitVec 32) : BitVec 6 := w.extractLsb' 10 6
/-- imm16[9:0], the system register of sys.get and sys.put. -/
def xNum (w : BitVec 32) : BitVec 10 := w.extractLsb' 0 10
/-- fn10[3:2], the kind of a fence. -/
def fKind (w : BitVec 32) : BitVec 2 := w.extractLsb' 18 2
/-- fn10[1:0], the scope of a fence. -/
def fScope (w : BitVec 32) : BitVec 2 := w.extractLsb' 16 2

/-! ## Operand fields (Tables 1.2 and 1.8, R15, R16) -/

/-- kind[7:6] of a source byte. -/
def kindOf (b : BitVec 8) : BitVec 2 := b.extractLsb' 6 2
/-- number[5:0] of a source byte. -/
def numOf (b : BitVec 8) : BitVec 6 := b.extractLsb' 0 6

/-- A field that names a predicate; a value above 7 is illegal (R16). -/
def asPred (n : BitVec 6) : Option PReg := if n.extractLsb' 3 3 = 0 then some (n.extractLsb' 0 3) else none
/-- A field that names a tile; a value above 3 is illegal (R16). -/
def asTile (n : BitVec 6) : Option TReg := if n.extractLsb' 2 4 = 0 then some (n.extractLsb' 0 2) else none
/-- A field that names a Gaussian block: a multiple of 8 (R15). -/
def asBlock (n : BitVec 6) : Option GReg := if n.extractLsb' 0 3 = 0 then some (n.extractLsb' 3 3) else none
/-- A source byte that names a Gaussian block: kind 0b01 (R15, Table 1.8). -/
def asBlockSrc (b : BitVec 8) : Option GReg := if kindOf b = 1 then asBlock (numOf b) else none
/-- A scalar source (Table 1.8): kinds 0b00, 0b10 and 0b11. -/
def asSrc (b : BitVec 8) : Option Src :=
  match (kindOf b).toNat with
  | 0 => some (.reg (numOf b))
  | 2 => some (.const (numOf b))
  | 3 => some (.lit (numOf b))
  | _ => none
/-- A source of a vector group: all four kinds. -/
def asVSrc (b : BitVec 8) : VSrc :=
  match (kindOf b).toNat with
  | 0 => .reg (numOf b)
  | 1 => .vec (numOf b)
  | 2 => .const (numOf b)
  | _ => .lit (numOf b)
/-- A source of the pr group: a predicate or a literal. -/
def asPSrc (b : BitVec 8) : Option PSrc :=
  match (kindOf b).toNat with
  | 0 => (asPred (numOf b)).map .pred
  | 3 => some (.lit (numOf b))
  | _ => none
/-- The source of pr.set, which also takes a constant-bank entry. -/
def asKSrc (b : BitVec 8) : Option KSrc :=
  match (kindOf b).toNat with
  | 0 => (asPred (numOf b)).map .pred
  | 2 => some (.const (numOf b))
  | 3 => some (.lit (numOf b))
  | _ => none
/-- The source of br eq to le: kind 0b00 only (Table 1.8). -/
def asBrReg (b : BitVec 8) : Option SReg := if kindOf b = 0 then some (numOf b) else none
/-- The source of br any and none: a predicate of kind 0b00 (Table 1.9, check 7). -/
def asBrPred (b : BitVec 8) : Option PReg := if kindOf b = 0 then asPred (numOf b) else none

/-- An instruction of one operand, illegal where the operand is. -/
def ok1 {α : Type} (a : Option α) (k : α → Instr) : Decoded :=
  match a with
  | some x => .ok (k x)
  | none => .error .illegal
/-- An instruction of two operands, illegal where an operand is. -/
def ok2 {α β : Type} (a : Option α) (b : Option β) (k : α → β → Instr) : Decoded :=
  match a, b with
  | some x, some y => .ok (k x y)
  | _, _ => .error .illegal
/-- An instruction of three operands, illegal where an operand is. -/
def ok3 {α β γ : Type} (a : Option α) (b : Option β) (c : Option γ) (k : α → β → γ → Instr) : Decoded :=
  match a, b, c with
  | some x, some y, some z => .ok (k x y z)
  | _, _, _ => .error .illegal
/-- An instruction of four operands, illegal where an operand is. -/
def ok4 {α β γ δ : Type} (a : Option α) (b : Option β) (c : Option γ) (d : Option δ)
    (k : α → β → γ → δ → Instr) : Decoded :=
  match a, b, c, d with
  | some x, some y, some z, some u => .ok (k x y z u)
  | _, _, _, _ => .error .illegal

/-! ## The functions of each major opcode -/

/-- Major 0x00, sys: the functions of Table 1.7. -/
def decSys (w : BitVec 32) : Decoded :=
  match (xFn w).toNat with
  | 0 => .ok .sysInv
  | 1 => .ok .sysNop
  | 2 => ok1 (some (xImm w)) .sysBrk
  | 3 => ok1 (some (xImm w)) .sysTrap
  | 4 => .ok .sysEret
  | 5 => ok2 (some (xReg w)) (some (xNum w)) .sysGet
  | 6 => ok2 (some (xReg w)) (some (xNum w)) .sysPut
  | 7 => ok2 (some (xReg w)) (some (xNum w)) .sysSet
  | 8 => ok2 (some (xReg w)) (some (xNum w)) .sysClr
  | 9 => ok1 (some (xImm w)) .sysKill
  | _ => .error .reserved

/-- Major 0x01, fence: the functions of Table 1.7. -/
def decFence (w : BitVec 32) : Decoded :=
  match (fKind w).toNat with
  | 0 => ok1 (some (fScope w)) .fenceFull
  | 1 => ok1 (some (fScope w)) .fenceAcq
  | 2 => ok1 (some (fScope w)) .fenceRel
  | 3 => ok1 (some (fScope w)) .fenceEng
  | _ => .error .reserved

/-- Major 0x02, sa: the functions of Table 1.7. -/
def decSa (w : BitVec 32) : Decoded :=
  match (wFn w).toNat with
  | 0 => ok3 (some (wRd w)) (asSrc (wSa w)) (asSrc (wSb w)) .saAdd
  | 1 => ok3 (some (wRd w)) (asSrc (wSa w)) (asSrc (wSb w)) .saSub
  | 2 => ok3 (some (wRd w)) (asSrc (wSa w)) (asSrc (wSb w)) .saMul
  | 3 => ok3 (some (wRd w)) (asSrc (wSa w)) (asSrc (wSb w)) .saMulh
  | 4 => ok3 (some (wRd w)) (asSrc (wSa w)) (asSrc (wSb w)) .saMulhn
  | 5 => ok3 (some (wRd w)) (asSrc (wSa w)) (asSrc (wSb w)) .saDiv
  | 6 => ok3 (some (wRd w)) (asSrc (wSa w)) (asSrc (wSb w)) .saDivn
  | 7 => ok3 (some (wRd w)) (asSrc (wSa w)) (asSrc (wSb w)) .saRem
  | 8 => ok3 (some (wRd w)) (asSrc (wSa w)) (asSrc (wSb w)) .saRemn
  | 9 => ok3 (some (wRd w)) (asSrc (wSa w)) (asSrc (wSb w)) .saMin
  | 10 => ok3 (some (wRd w)) (asSrc (wSa w)) (asSrc (wSb w)) .saMax
  | 11 => ok3 (some (wRd w)) (asSrc (wSa w)) (asSrc (wSb w)) .saMinn
  | 12 => ok3 (some (wRd w)) (asSrc (wSa w)) (asSrc (wSb w)) .saMaxn
  | 13 => ok3 (some (wRd w)) (asSrc (wSa w)) (asSrc (wSb w)) .saPadd
  | 14 => ok2 (some (wRd w)) (asSrc (wSa w)) .saAbs
  | 15 => ok2 (some (wRd w)) (asSrc (wSa w)) .saNeg
  | _ => .error .reserved

/-- Major 0x03, sb: the functions of Table 1.7. -/
def decSb (w : BitVec 32) : Decoded :=
  match (wFn w).toNat with
  | 0 => ok3 (some (wRd w)) (asSrc (wSa w)) (asSrc (wSb w)) .sbAnd
  | 1 => ok3 (some (wRd w)) (asSrc (wSa w)) (asSrc (wSb w)) .sbOr
  | 2 => ok3 (some (wRd w)) (asSrc (wSa w)) (asSrc (wSb w)) .sbXor
  | 3 => ok3 (some (wRd w)) (asSrc (wSa w)) (asSrc (wSb w)) .sbAndn
  | 4 => ok3 (some (wRd w)) (asSrc (wSa w)) (asSrc (wSb w)) .sbShl
  | 5 => ok3 (some (wRd w)) (asSrc (wSa w)) (asSrc (wSb w)) .sbShr
  | 6 => ok3 (some (wRd w)) (asSrc (wSa w)) (asSrc (wSb w)) .sbSra
  | 7 => ok3 (some (wRd w)) (asSrc (wSa w)) (asSrc (wSb w)) .sbRot
  | 8 => ok2 (some (wRd w)) (asSrc (wSa w)) .sbClz
  | 9 => ok2 (some (wRd w)) (asSrc (wSa w)) .sbCtz
  | 10 => ok2 (some (wRd w)) (asSrc (wSa w)) .sbPop
  | 11 => ok3 (some (wRd w)) (asSrc (wSa w)) (asSrc (wSb w)) .sbSeq
  | 12 => ok3 (some (wRd w)) (asSrc (wSa w)) (asSrc (wSb w)) .sbSne
  | 13 => ok3 (some (wRd w)) (asSrc (wSa w)) (asSrc (wSb w)) .sbSlt
  | 14 => ok3 (some (wRd w)) (asSrc (wSa w)) (asSrc (wSb w)) .sbSltn
  | 15 => ok3 (some (wRd w)) (asSrc (wSa w)) (asSrc (wSb w)) .sbSel
  | _ => .error .reserved

/-- Major 0x04, sw: the functions of Table 1.7. -/
def decSw (w : BitVec 32) : Decoded :=
  match (wFn w).toNat with
  | 0 => ok3 (some (wRd w)) (asSrc (wSa w)) (asSrc (wSb w)) .swAdd
  | 1 => ok3 (some (wRd w)) (asSrc (wSa w)) (asSrc (wSb w)) .swSub
  | 2 => ok3 (some (wRd w)) (asSrc (wSa w)) (asSrc (wSb w)) .swMul
  | 3 => ok3 (some (wRd w)) (asSrc (wSa w)) (asSrc (wSb w)) .swDiv
  | 4 => ok3 (some (wRd w)) (asSrc (wSa w)) (asSrc (wSb w)) .swDivn
  | 5 => ok3 (some (wRd w)) (asSrc (wSa w)) (asSrc (wSb w)) .swRem
  | 6 => ok3 (some (wRd w)) (asSrc (wSa w)) (asSrc (wSb w)) .swRemn
  | 7 => ok3 (some (wRd w)) (asSrc (wSa w)) (asSrc (wSb w)) .swShl
  | 8 => ok3 (some (wRd w)) (asSrc (wSa w)) (asSrc (wSb w)) .swShr
  | 9 => ok3 (some (wRd w)) (asSrc (wSa w)) (asSrc (wSb w)) .swSra
  | 10 => ok3 (some (wRd w)) (asSrc (wSa w)) (asSrc (wSb w)) .swMin
  | 11 => ok3 (some (wRd w)) (asSrc (wSa w)) (asSrc (wSb w)) .swMax
  | _ => .error .reserved

/-- Major 0x09, sish: the functions of Table 1.7. -/
def decSiSh (w : BitVec 32) : Decoded :=
  match (shFn w).toNat with
  | 0 => ok3 (some (iRd w)) (some (iRs w)) (some (shAmt w)) .siShl
  | 1 => ok3 (some (iRd w)) (some (iRs w)) (some (shAmt w)) .siShr
  | 2 => ok3 (some (iRd w)) (some (iRs w)) (some (shAmt w)) .siSra
  | 3 => ok3 (some (iRd w)) (some (iRs w)) (some (shAmt w)) .siRot
  | _ => .error .reserved

/-- Major 0x0D, br: the functions of Table 1.7. -/
def decBr (w : BitVec 32) : Decoded :=
  match (wFn w).toNat with
  | 0 => ok2 (asBrReg (bSa w)) (some (bOff w)) .brEq
  | 1 => ok2 (asBrReg (bSa w)) (some (bOff w)) .brNe
  | 2 => ok2 (asBrReg (bSa w)) (some (bOff w)) .brLt
  | 3 => ok2 (asBrReg (bSa w)) (some (bOff w)) .brGe
  | 4 => ok2 (asBrReg (bSa w)) (some (bOff w)) .brGt
  | 5 => ok2 (asBrReg (bSa w)) (some (bOff w)) .brLe
  | 6 => ok2 (asBrPred (bSa w)) (some (bOff w)) .brAny
  | 7 => ok2 (asBrPred (bSa w)) (some (bOff w)) .brNone
  | 8 => ok1 (some (bOff w)) .brAlways
  | _ => .error .reserved

/-- Major 0x10, jx: the functions of Table 1.7. -/
def decJx (w : BitVec 32) : Decoded :=
  match (wFn w).toNat with
  | 0 => ok1 (asSrc (wSa w)) .jxJr
  | 1 => ok2 (some (wRd w)) (asSrc (wSa w)) .jxCallr
  | 2 => .ok .jxRet
  | _ => .error .reserved

/-- Major 0x12, pr: the functions of Table 1.7. -/
def decPr (w : BitVec 32) : Decoded :=
  match (wFn w).toNat with
  | 0 => ok3 (asPred (wRd w)) (asPSrc (wSa w)) (asPSrc (wSb w)) .prAnd
  | 1 => ok3 (asPred (wRd w)) (asPSrc (wSa w)) (asPSrc (wSb w)) .prOr
  | 2 => ok3 (asPred (wRd w)) (asPSrc (wSa w)) (asPSrc (wSb w)) .prXor
  | 3 => ok2 (asPred (wRd w)) (asPSrc (wSa w)) .prNot
  | 4 => ok2 (asPred (wRd w)) (asKSrc (wSa w)) .prSet
  | 5 => ok2 (some (wRd w)) (asPSrc (wSa w)) .prGet
  | 6 => ok2 (some (wRd w)) (asPSrc (wSa w)) .prCnt
  | 7 => ok2 (some (wRd w)) (asPSrc (wSa w)) .prFirst
  | _ => .error .reserved

/-- Major 0x13, ld: the functions of Table 1.7. -/
def decLd (w : BitVec 32) : Decoded :=
  match (wFn w).toNat with
  | 0 => ok4 (some (wLa w)) (some (wRa w)) (some (wRb w)) (some (lOff w)) .ldB
  | 1 => ok4 (some (wLa w)) (some (wRa w)) (some (wRb w)) (some (lOff w)) .ldBn
  | 2 => ok4 (some (wLa w)) (some (wRa w)) (some (wRb w)) (some (lOff w)) .ldH
  | 3 => ok4 (some (wLa w)) (some (wRa w)) (some (wRb w)) (some (lOff w)) .ldHn
  | 4 => ok4 (some (wLa w)) (some (wRa w)) (some (wRb w)) (some (lOff w)) .ldW
  | 5 => ok4 (some (wLa w)) (some (wRa w)) (some (wRb w)) (some (lOff w)) .ldWn
  | 6 => ok4 (some (wLa w)) (some (wRa w)) (some (wRb w)) (some (lOff w)) .ldD
  | 7 => ok4 (some (wLa w)) (some (wRa w)) (some (wRb w)) (some (lOff w)) .ldV
  | 8 => ok4 (some (wLa w)) (some (wRa w)) (some (wRb w)) (some (lOff w)) .ldVt
  | 9 => ok4 (some (wLa w)) (some (wRa w)) (some (wRb w)) (some (lOff w)) .ldAcq
  | 10 => ok4 (some (wLa w)) (some (wRa w)) (some (wRb w)) (some (lOff w)) .ldDev
  | _ => .error .reserved

/-- Major 0x14, st: the functions of Table 1.7. -/
def decSt (w : BitVec 32) : Decoded :=
  match (wFn w).toNat with
  | 0 => ok3 (some (wRa w)) (some (wRb w)) (some (lOff w)) .stB
  | 1 => ok3 (some (wRa w)) (some (wRb w)) (some (lOff w)) .stH
  | 2 => ok3 (some (wRa w)) (some (wRb w)) (some (lOff w)) .stW
  | 3 => ok3 (some (wRa w)) (some (wRb w)) (some (lOff w)) .stD
  | 4 => ok3 (some (wRa w)) (some (wRb w)) (some (lOff w)) .stV
  | 5 => ok3 (some (wRa w)) (some (wRb w)) (some (lOff w)) .stVm
  | 6 => ok3 (some (wRa w)) (some (wRb w)) (some (lOff w)) .stVt
  | 7 => ok3 (some (wRa w)) (some (wRb w)) (some (lOff w)) .stRel
  | 8 => ok3 (some (wRa w)) (some (wRb w)) (some (lOff w)) .stDev
  | _ => .error .reserved

/-- Major 0x15, at: the functions of Table 1.7. -/
def decAt (w : BitVec 32) : Decoded :=
  match (wFn w).toNat with
  | 0 => ok4 (some (wLa w)) (some (wRa w)) (some (wRb w)) (some (wRc w)) .atAdd
  | 1 => ok4 (some (wLa w)) (some (wRa w)) (some (wRb w)) (some (wRc w)) .atAddcb
  | 2 => ok4 (some (wLa w)) (some (wRa w)) (some (wRb w)) (some (wRc w)) .atAnd
  | 3 => ok4 (some (wLa w)) (some (wRa w)) (some (wRb w)) (some (wRc w)) .atOr
  | 4 => ok4 (some (wLa w)) (some (wRa w)) (some (wRb w)) (some (wRc w)) .atXor
  | 5 => ok4 (some (wLa w)) (some (wRa w)) (some (wRb w)) (some (wRc w)) .atMin
  | 6 => ok4 (some (wLa w)) (some (wRa w)) (some (wRb w)) (some (wRc w)) .atMax
  | 7 => ok4 (some (wLa w)) (some (wRa w)) (some (wRb w)) (some (wRc w)) .atMinn
  | 8 => ok4 (some (wLa w)) (some (wRa w)) (some (wRb w)) (some (wRc w)) .atMaxn
  | 9 => ok4 (some (wLa w)) (some (wRa w)) (some (wRb w)) (some (wRc w)) .atSwp
  | 10 => ok4 (some (wLa w)) (some (wRa w)) (some (wRb w)) (some (wRc w)) .atCas
  | 11 => ok4 (some (wLa w)) (some (wRa w)) (some (wRb w)) (some (wRc w)) .atFadd
  | 12 => ok4 (some (wLa w)) (some (wRa w)) (some (wRb w)) (some (wRc w)) .atRed
  | 13 => ok4 (some (wLa w)) (some (wRa w)) (some (wRb w)) (some (wRc w)) .atWatch
  | _ => .error .reserved

/-- Major 0x16, atw: the functions of Table 1.7. -/
def decAtw (w : BitVec 32) : Decoded :=
  match (wFn w).toNat with
  | 0 => ok4 (some (wLa w)) (some (wRa w)) (some (wRb w)) (some (wRc w)) .atwAdd
  | 1 => ok4 (some (wLa w)) (some (wRa w)) (some (wRb w)) (some (wRc w)) .atwAddcb
  | 2 => ok4 (some (wLa w)) (some (wRa w)) (some (wRb w)) (some (wRc w)) .atwAnd
  | 3 => ok4 (some (wLa w)) (some (wRa w)) (some (wRb w)) (some (wRc w)) .atwOr
  | 4 => ok4 (some (wLa w)) (some (wRa w)) (some (wRb w)) (some (wRc w)) .atwXor
  | 5 => ok4 (some (wLa w)) (some (wRa w)) (some (wRb w)) (some (wRc w)) .atwMin
  | 6 => ok4 (some (wLa w)) (some (wRa w)) (some (wRb w)) (some (wRc w)) .atwMax
  | 7 => ok4 (some (wLa w)) (some (wRa w)) (some (wRb w)) (some (wRc w)) .atwMinn
  | 8 => ok4 (some (wLa w)) (some (wRa w)) (some (wRb w)) (some (wRc w)) .atwMaxn
  | 9 => ok4 (some (wLa w)) (some (wRa w)) (some (wRb w)) (some (wRc w)) .atwSwp
  | 10 => ok4 (some (wLa w)) (some (wRa w)) (some (wRb w)) (some (wRc w)) .atwCas
  | 11 => ok4 (some (wLa w)) (some (wRa w)) (some (wRb w)) (some (wRc w)) .atwFadd
  | 12 => ok4 (some (wLa w)) (some (wRa w)) (some (wRb w)) (some (wRc w)) .atwRed
  | 13 => ok4 (some (wLa w)) (some (wRa w)) (some (wRb w)) (some (wRc w)) .atwWatch
  | _ => .error .reserved

/-- Major 0x17, va: the functions of Table 1.7. -/
noncomputable def decVa (w : BitVec 32) : Decoded :=
  match (wFn w).toNat with
  | 0 => ok3 (some (wRd w)) (some <| asVSrc (wSa w)) (some <| asVSrc (wSb w)) .vaFadd
  | 1 => ok3 (some (wRd w)) (some <| asVSrc (wSa w)) (some <| asVSrc (wSb w)) .vaFsub
  | 2 => ok3 (some (wRd w)) (some <| asVSrc (wSa w)) (some <| asVSrc (wSb w)) .vaFmul
  | 3 => ok3 (some (wRd w)) (some <| asVSrc (wSa w)) (some <| asVSrc (wSb w)) .vaFma
  | 4 => ok3 (some (wRd w)) (some <| asVSrc (wSa w)) (some <| asVSrc (wSb w)) .vaFms
  | 5 => ok3 (some (wRd w)) (some <| asVSrc (wSa w)) (some <| asVSrc (wSb w)) .vaFmin
  | 6 => ok3 (some (wRd w)) (some <| asVSrc (wSa w)) (some <| asVSrc (wSb w)) .vaFmax
  | 7 => ok2 (some (wRd w)) (some <| asVSrc (wSa w)) .vaFabs
  | 8 => ok2 (some (wRd w)) (some <| asVSrc (wSa w)) .vaFneg
  | 9 => ok2 (some (wRd w)) (some <| asVSrc (wSa w)) .vaFrcp
  | 10 => ok2 (some (wRd w)) (some <| asVSrc (wSa w)) .vaFrsq
  | 11 => ok2 (some (wRd w)) (some <| asVSrc (wSa w)) .vaFsqrt
  | 12 => ok3 (some (wRd w)) (some <| asVSrc (wSa w)) (some <| asVSrc (wSb w)) .vaFdiv
  | _ => .error .reserved

/-- Major 0x18, vi: the functions of Table 1.7. -/
noncomputable def decVi (w : BitVec 32) : Decoded :=
  match (wFn w).toNat with
  | 0 => ok3 (some (wRd w)) (some <| asVSrc (wSa w)) (some <| asVSrc (wSb w)) .viAdd
  | 1 => ok3 (some (wRd w)) (some <| asVSrc (wSa w)) (some <| asVSrc (wSb w)) .viSub
  | 2 => ok3 (some (wRd w)) (some <| asVSrc (wSa w)) (some <| asVSrc (wSb w)) .viMul
  | 3 => ok3 (some (wRd w)) (some <| asVSrc (wSa w)) (some <| asVSrc (wSb w)) .viMulh
  | 4 => ok3 (some (wRd w)) (some <| asVSrc (wSa w)) (some <| asVSrc (wSb w)) .viAnd
  | 5 => ok3 (some (wRd w)) (some <| asVSrc (wSa w)) (some <| asVSrc (wSb w)) .viOr
  | 6 => ok3 (some (wRd w)) (some <| asVSrc (wSa w)) (some <| asVSrc (wSb w)) .viXor
  | 7 => ok3 (some (wRd w)) (some <| asVSrc (wSa w)) (some <| asVSrc (wSb w)) .viShl
  | 8 => ok3 (some (wRd w)) (some <| asVSrc (wSa w)) (some <| asVSrc (wSb w)) .viShr
  | 9 => ok3 (some (wRd w)) (some <| asVSrc (wSa w)) (some <| asVSrc (wSb w)) .viSra
  | 10 => ok3 (some (wRd w)) (some <| asVSrc (wSa w)) (some <| asVSrc (wSb w)) .viMin
  | 11 => ok3 (some (wRd w)) (some <| asVSrc (wSa w)) (some <| asVSrc (wSb w)) .viMax
  | 12 => ok3 (some (wRd w)) (some <| asVSrc (wSa w)) (some <| asVSrc (wSb w)) .viMinn
  | 13 => ok3 (some (wRd w)) (some <| asVSrc (wSa w)) (some <| asVSrc (wSb w)) .viMaxn
  | _ => .error .reserved

/-- Major 0x19, vc: the functions of Table 1.7. -/
noncomputable def decVc (w : BitVec 32) : Decoded :=
  match (wFn w).toNat with
  | 0 => ok3 (asPred (wRd w)) (some <| asVSrc (wSa w)) (some <| asVSrc (wSb w)) .vcFeq
  | 1 => ok3 (asPred (wRd w)) (some <| asVSrc (wSa w)) (some <| asVSrc (wSb w)) .vcFne
  | 2 => ok3 (asPred (wRd w)) (some <| asVSrc (wSa w)) (some <| asVSrc (wSb w)) .vcFlt
  | 3 => ok3 (asPred (wRd w)) (some <| asVSrc (wSa w)) (some <| asVSrc (wSb w)) .vcFle
  | 4 => ok3 (asPred (wRd w)) (some <| asVSrc (wSa w)) (some <| asVSrc (wSb w)) .vcFun
  | 5 => ok3 (asPred (wRd w)) (some <| asVSrc (wSa w)) (some <| asVSrc (wSb w)) .vcIeq
  | 6 => ok3 (asPred (wRd w)) (some <| asVSrc (wSa w)) (some <| asVSrc (wSb w)) .vcIlt
  | 7 => ok3 (asPred (wRd w)) (some <| asVSrc (wSa w)) (some <| asVSrc (wSb w)) .vcIltn
  | _ => .error .reserved

/-- Major 0x1A, vx: the functions of Table 1.7. -/
noncomputable def decVx (w : BitVec 32) : Decoded :=
  match (wFn w).toNat with
  | 0 => ok3 (some (wRd w)) (some <| asVSrc (wSa w)) (some <| asVSrc (wSb w)) .vxBcast
  | 1 => ok3 (some (wRd w)) (some <| asVSrc (wSa w)) (some <| asVSrc (wSb w)) .vxExtr
  | 2 => ok3 (some (wRd w)) (some <| asVSrc (wSa w)) (some <| asVSrc (wSb w)) .vxIns
  | 3 => ok3 (some (wRd w)) (some <| asVSrc (wSa w)) (some <| asVSrc (wSb w)) .vxPerm
  | 4 => ok3 (some (wRd w)) (some <| asVSrc (wSa w)) (some <| asVSrc (wSb w)) .vxSel
  | 5 => ok3 (some (wRd w)) (some <| asVSrc (wSa w)) (some <| asVSrc (wSb w)) .vxIota
  | 6 => ok3 (some (wRd w)) (some <| asVSrc (wSa w)) (some <| asVSrc (wSb w)) .vxCvtif
  | 7 => ok3 (some (wRd w)) (some <| asVSrc (wSa w)) (some <| asVSrc (wSb w)) .vxCvtfi
  | 8 => ok3 (some (wRd w)) (some <| asVSrc (wSa w)) (some <| asVSrc (wSb w)) .vxCvtbh
  | 9 => ok3 (some (wRd w)) (some <| asVSrc (wSa w)) (some <| asVSrc (wSb w)) .vxCvthb
  | 10 => ok3 (some (wRd w)) (some <| asVSrc (wSa w)) (some <| asVSrc (wSb w)) .vxCvtfh
  | 11 => ok3 (some (wRd w)) (some <| asVSrc (wSa w)) (some <| asVSrc (wSb w)) .vxCvthf
  | 12 => ok3 (some (wRd w)) (some <| asVSrc (wSa w)) (some <| asVSrc (wSb w)) .vxCvt8
  | 13 => ok3 (some (wRd w)) (some <| asVSrc (wSa w)) (some <| asVSrc (wSb w)) .vxCvtq8
  | 14 => ok3 (some (wRd w)) (some <| asVSrc (wSa w)) (some <| asVSrc (wSb w)) .vxCvt4
  | 15 => ok3 (some (wRd w)) (some <| asVSrc (wSa w)) (some <| asVSrc (wSb w)) .vxCvtq4
  | _ => .error .reserved

/-- Major 0x1B, vr: the functions of Table 1.7. -/
noncomputable def decVr (w : BitVec 32) : Decoded :=
  match (wFn w).toNat with
  | 0 => ok3 (some (wRd w)) (some <| asVSrc (wSa w)) (some <| asVSrc (wSb w)) .vrFsum
  | 1 => ok3 (some (wRd w)) (some <| asVSrc (wSa w)) (some <| asVSrc (wSb w)) .vrFmax
  | 2 => ok3 (some (wRd w)) (some <| asVSrc (wSa w)) (some <| asVSrc (wSb w)) .vrFmin
  | 3 => ok3 (some (wRd w)) (some <| asVSrc (wSa w)) (some <| asVSrc (wSb w)) .vrIsum
  | 4 => ok3 (some (wRd w)) (some <| asVSrc (wSa w)) (some <| asVSrc (wSb w)) .vrImax
  | 5 => ok3 (some (wRd w)) (some <| asVSrc (wSa w)) (some <| asVSrc (wSb w)) .vrImin
  | 6 => ok3 (some (wRd w)) (some <| asVSrc (wSa w)) (some <| asVSrc (wSb w)) .vrAnd
  | 7 => ok3 (some (wRd w)) (some <| asVSrc (wSa w)) (some <| asVSrc (wSb w)) .vrOr
  | _ => .error .reserved

/-- Major 0x1C, vg: the functions of Table 1.7. -/
noncomputable def decVg (w : BitVec 32) : Decoded :=
  match (wFn w).toNat with
  | 0 => ok4 (some (wLa w)) (some (wRa w)) (some (wRb w)) (some (wRc w)) .vgGat
  | 1 => ok3 (some (wRa w)) (some (wRb w)) (some (wRc w)) .vgSca
  | 2 => ok3 (some (wRa w)) (some (wRb w)) (some (wRc w)) .vgAtadd
  | 3 => ok3 (some (wRa w)) (some (wRb w)) (some (wRc w)) .vgAtfadd
  | 4 => ok3 (some (wRa w)) (some (wRb w)) (some (wRc w)) .vgAtmin
  | 5 => ok3 (some (wRa w)) (some (wRb w)) (some (wRc w)) .vgAtmax
  | 6 => ok3 (some (wRa w)) (some (wRb w)) (some (wRc w)) .vgAtor
  | _ => .error .reserved

/-- Major 0x1D, mx: the functions of Table 1.7. -/
noncomputable def decMx (w : BitVec 32) : Decoded :=
  match (wFn w).toNat with
  | 0 => ok4 (some (wLa w)) (asTile (wRa w)) (some (wRb w)) (some (wRc w)) .mxMma
  | 1 => ok4 (some (wLa w)) (asTile (wRa w)) (some (wRb w)) (some (wRc w)) .mxMmas
  | 2 => ok2 (some (wLa w)) (asTile (wRa w)) .mxZero
  | 3 => ok3 (some (wLa w)) (asTile (wRa w)) (some (wRb w)) .mxLdacc
  | 4 => ok3 (asTile (wRa w)) (some (wRb w)) (some (wRc w)) .mxStacc
  | 5 => ok3 (asTile (wRa w)) (some (wRb w)) (some (wRc w)) .mxStsp
  | 6 => ok4 (some (wLa w)) (asTile (wRa w)) (some (wRb w)) (some (wRc w)) .mxGang
  | 7 => ok2 (some (wRa w)) (some (wRb w)) .mxCfg
  | 8 => ok3 (asTile (wRa w)) (some (wRb w)) (some (wRc w)) .mxMask
  | 9 => .ok .mxDrain
  | _ => .error .reserved

/-- Major 0x1E, cp: the functions of Table 1.7. -/
noncomputable def decCp (w : BitVec 32) : Decoded :=
  match (wFn w).toNat with
  | 0 => ok3 (some (wRa w)) (some (wRb w)) (some (wRc w)) .cpGet
  | 1 => ok3 (some (wRa w)) (some (wRb w)) (some (wRc w)) .cpPut
  | 2 => ok3 (some (wRa w)) (some (wRb w)) (some (wRc w)) .cpGet2d
  | 3 => ok3 (some (wRa w)) (some (wRb w)) (some (wRc w)) .cpPut2d
  | 4 => ok3 (some (wRa w)) (some (wRb w)) (some (wRc w)) .cpFill
  | 5 => ok3 (some (wRa w)) (some (wRb w)) (some (wRc w)) .cpNzpk
  | 6 => ok3 (some (wLa w)) (some (wRa w)) (some (wRb w)) .cpWptr
  | 7 => ok1 (some (wRa w)) .cpCancel
  | _ => .error .reserved

/-- Major 0x1F, ms: the functions of Table 1.7. -/
noncomputable def decMs (w : BitVec 32) : Decoded :=
  match (wFn w).toNat with
  | 0 => ok3 (some (wRa w)) (some (wRb w)) (some (wRc w)) .msSend
  | 1 => ok3 (some (wRa w)) (some (wRb w)) (some (wRc w)) .msSendt
  | 2 => ok3 (some (wRa w)) (some (wRb w)) (some (wRc w)) .msSpr
  | 3 => ok3 (some (wRa w)) (some (wRb w)) (some (wRc w)) .msBcast
  | 4 => .ok .msEnd
  | 5 => ok2 (some (wRb w)) (some (wRc w)) .msEndc
  | 6 => ok1 (some (wRa w)) .msDefer
  | _ => .error .reserved

/-- Major 0x20, tk: the functions of Table 1.7. -/
noncomputable def decTk (w : BitVec 32) : Decoded :=
  match (wFn w).toNat with
  | 0 => ok4 (some (wLa w)) (some (wRa w)) (some (wRb w)) (some (wRc w)) .tkNew
  | 1 => ok1 (some (wRb w)) .tkArr
  | 2 => ok2 (some (wRb w)) (some (wRc w)) .tkArrd
  | 3 => ok2 (some (wRb w)) (some (wRc w)) .tkDl
  | 4 => ok1 (some (wRb w)) .tkKill
  | 5 => ok1 (some (wRb w)) .tkBarr
  | 6 => ok2 (some (wRb w)) (some (wRc w)) .tkBwait
  | _ => .error .reserved

/-- Major 0x21, tg: the functions of Table 1.7. -/
noncomputable def decTg (w : BitVec 32) : Decoded :=
  match (wFn w).toNat with
  | 0 => ok2 (asSrc (wSa w)) (asSrc (wSb w)) .tgEn
  | 1 => ok1 (asSrc (wSa w)) .tgDis
  | 2 => ok1 (asSrc (wSa w)) .tgPend
  | 3 => ok1 (asSrc (wSa w)) .tgClr
  | 4 => ok2 (some (wRd w)) (asSrc (wSa w)) .tgGet
  | _ => .error .reserved

/-- Major 0x22, gm: the functions of Table 1.7. -/
noncomputable def decGm (w : BitVec 32) : Decoded :=
  match (wFn w).toNat with
  | 0 => ok3 (asBlock (wRd w)) (asBlockSrc (wSa w)) (asBlockSrc (wSb w)) .gmAdd
  | 1 => ok3 (asBlock (wRd w)) (asBlockSrc (wSa w)) (asBlockSrc (wSb w)) .gmSub
  | 2 => ok3 (asBlock (wRd w)) (asBlockSrc (wSa w)) (asSrc (wSb w)) .gmDamp
  | 3 => ok3 (asBlock (wRd w)) (asBlockSrc (wSa w)) (asSrc (wSb w)) .gmMarg
  | 4 => ok2 (asBlock (wRd w)) (asBlockSrc (wSa w)) .gmSol
  | 5 => ok2 (asBlock (wRd w)) (asBlockSrc (wSa w)) .gmCov
  | 6 => ok3 (asBlock (wRd w)) (asBlockSrc (wSa w)) (asSrc (wSb w)) .gmLin
  | 7 => ok3 (some (wRd w)) (asBlockSrc (wSa w)) (asBlockSrc (wSb w)) .gmRes
  | 8 => ok2 (asSrc (wSa w)) (asSrc (wSb w)) .gmConv
  | 9 => ok2 (some (wRd w)) (asSrc (wSa w)) .gmRdro
  | _ => .error .reserved

/-- Major 0x23, fg: the functions of Table 1.7. -/
noncomputable def decFg (w : BitVec 32) : Decoded :=
  match (wFn w).toNat with
  | 0 => ok4 (some (wLa w)) (some (wRa w)) (some (wRb w)) (some (wRc w)) .fgAttach
  | 1 => ok2 (some (wRa w)) (some (wRb w)) .fgDetach
  | 2 => ok4 (some (wLa w)) (some (wRa w)) (some (wRb w)) (some (wRc w)) .fgSlot
  | 3 => ok3 (asBlock (wRa w)) (some (wRb w)) (some (wRc w)) .fgPost
  | 4 => ok4 (some (wLa w)) (some (wRa w)) (some (wRb w)) (some (wRc w)) .fgGen
  | _ => .error .reserved

/-- Major 0x24, ch: the functions of Table 1.7. -/
noncomputable def decCh (w : BitVec 32) : Decoded :=
  match (wFn w).toNat with
  | 0 => ok3 (some (wRa w)) (some (wRb w)) (some (wRc w)) .chLink
  | 1 => ok3 (some (wRa w)) (some (wRb w)) (some (wRc w)) .chUnlink
  | 2 => ok3 (some (wRa w)) (some (wRb w)) (some (wRc w)) .chRelink
  | 3 => ok4 (some (wLa w)) (some (wRa w)) (some (wRb w)) (some (wRc w)) .chStat
  | 4 => ok3 (some (wLa w)) (some (wRa w)) (some (wRb w)) .chTail
  | 5 => ok2 (some (wRa w)) (some (wRc w)) .chClean
  | _ => .error .reserved

/-- Major 0x25, rg: the functions of Table 1.7. -/
noncomputable def decRg (w : BitVec 32) : Decoded :=
  match (wFn w).toNat with
  | 0 => ok3 (some (wLa w)) (some (wRa w)) (some (wRb w)) .rgAcq
  | 1 => ok2 (some (wRb w)) (some (wRc w)) .rgCmt
  | 2 => ok3 (some (wLa w)) (some (wRa w)) (some (wRb w)) .rgPeek
  | 3 => ok1 (some (wRb w)) .rgRel
  | _ => .error .reserved

/-- Major 0x26, qp: the functions of Table 1.7. -/
noncomputable def decQp (w : BitVec 32) : Decoded :=
  match (wFn w).toNat with
  | 0 => ok2 (asSrc (wSa w)) (asSrc (wSb w)) .qpCtl
  | 1 => ok2 (some (wRd w)) (asSrc (wSa w)) .qpStat
  | 2 => ok2 (asSrc (wSa w)) (asSrc (wSb w)) .qpCatch
  | _ => .error .reserved

/-- Major 0x27, gl: the functions of Table 1.7. -/
noncomputable def decGl (w : BitVec 32) : Decoded :=
  match (wFn w).toNat with
  | 0 => ok2 (some (wRa w)) (some (wRb w)) .glArm
  | 1 => ok1 (some (wRa w)) .glDisarm
  | 2 => ok2 (some (wRa w)) (some (wRb w)) .glTrig
  | 3 => ok1 (some (wRa w)) .glGate
  | 4 => ok3 (some (wLa w)) (some (wRa w)) (some (wRb w)) .glIdx
  | 5 => ok3 (some (wLa w)) (some (wRa w)) (some (wRb w)) .glGrp
  | _ => .error .reserved

/-- Major 0x28, pg: the functions of Table 1.7. -/
noncomputable def decPg (w : BitVec 32) : Decoded :=
  match (wFn w).toNat with
  | 0 => ok3 (some (wRa w)) (some (wRb w)) (some (wRc w)) .pgInval
  | 1 => ok1 (some (wRa w)) .pgReplay
  | 2 => ok3 (some (wLa w)) (some (wRa w)) (some (wRb w)) .pgFbrd
  | 3 => ok3 (some (wRa w)) (some (wRb w)) (some (wRc w)) .pgPin
  | 4 => ok3 (some (wRa w)) (some (wRb w)) (some (wRc w)) .pgHint
  | _ => .error .reserved

/-- Major 0x29, trl: the functions of Table 1.7. -/
def decTrl (w : BitVec 32) : Decoded :=
  match (wFn w).toNat with
  | 0 => .ok .trlLead
  | 1 => .ok .trlJoin
  | 2 => .ok .trlQuit
  | _ => .error .reserved

/-- The instruction of a word, by Table 1.7; Table 1.9 gives the fate of every other word (R22, R26). -/
noncomputable def decodeWord (w : BitVec 32) : Decoded :=
  match (wOp w).toNat with
  | 0 => decSys w
  | 1 => if (xFn w).toNat > 15 then .error .reserved else decFence w
  | 2 => decSa w
  | 3 => decSb w
  | 4 => decSw w
  | 5 => ok3 (some (iRd w)) (some (iRs w)) (some (iImm w)) .siAdd
  | 6 => ok3 (some (iRd w)) (some (iRs w)) (some (iImm w)) .siAnd
  | 7 => ok3 (some (iRd w)) (some (iRs w)) (some (iImm w)) .siOr
  | 8 => ok3 (some (iRd w)) (some (iRs w)) (some (iImm w)) .siXor
  | 9 => if (iImm w).extractLsb' 6 6 = 0 then decSiSh w else .error .illegal
  | 10 => ok3 (some (iRd w)) (some (iRs w)) (some (iImm w)) .siSlt
  | 11 => ok2 (some (iRd w)) (some (uImm w)) .liHi
  | 12 => ok2 (some (iRd w)) (some (uImm w)) .liTop
  | 13 => decBr w
  | 14 => ok1 (some (jOff w)) .jmp
  | 15 => ok1 (some (jOff w)) .call
  | 16 => decJx w
  | 17 => if iRd w = 0 then ok2 (some (iRs w)) (some (iImm w)) .lpDo else .error .illegal
  | 18 => decPr w
  | 19 => decLd w
  | 20 => decSt w
  | 21 => decAt w
  | 22 => decAtw w
  | 23 => decVa w
  | 24 => decVi w
  | 25 => decVc w
  | 26 => decVx w
  | 27 => decVr w
  | 28 => decVg w
  | 29 => decMx w
  | 30 => decCp w
  | 31 => decMs w
  | 32 => decTk w
  | 33 => decTg w
  | 34 => decGm w
  | 35 => decFg w
  | 36 => decCh w
  | 37 => decRg w
  | 38 => decQp w
  | 39 => decGl w
  | 40 => decPg w
  | 41 => decTrl w
  | _ => .error .reserved
/-- How many functions each major with a function field lists (Table 1.7). Majors without one list a single word. -/
def listedFns : List Nat :=
  [10, 16, 16, 16, 12, 1, 1, 1, 1, 1, 1, 1, 1, 9, 1, 1, 3, 1, 8, 11, 9, 14, 14, 13, 14, 8, 16, 8, 7, 10, 8, 7, 7, 5, 10, 5, 6, 4, 3,
   6, 5, 3]

/-- The function that a word names in its major (Table 1.1). -/
def namedFn (w : BitVec 32) : Nat :=
  match (wOp w).toNat with
  | 0 => (xFn w).toNat
  | 1 => (xFn w).toNat
  | n => if listedFns.getD n 0 = 1 then 0 else (wFn w).toNat

/-- A word that is reserved opcode by checks 2 to 5 of Table 1.9. -/
def reservedWord (w : BitVec 32) : Bool := decide (listedFns.getD (wOp w).toNat 0 ≤ namedFn w)

/-- The word of four bytes, the byte at the lowest address holding bits [7:0] (R5). -/
def wordOfBytes (b0 b1 b2 b3 : Byte) : BitVec 32 := b3 ++ b2 ++ b1 ++ b0

/-- Decoding of a string of bytes: the instruction of the first four, and the bytes after them. -/
noncomputable def decode (bs : List Byte) : Except DecodeErr (Instr × List Byte) :=
  match bs with
  | b0 :: b1 :: b2 :: b3 :: rest =>
    match decodeWord (wordOfBytes b0 b1 b2 b3) with
    | .ok i => .ok (i, rest)
    | .error e => .error e
  | _ => .error .truncated

/-- The bytes of a word in memory, lowest address first (R5). -/
def wordBytes (w : BitVec 32) : List Byte :=
  [w.extractLsb' 0 8, w.extractLsb' 8 8, w.extractLsb' 16 8, w.extractLsb' 24 8]

/-- The instruction that the decoder reads from a word numbered as the opcode table numbers it. Every encoded row
has 32 bits. -/
noncomputable def decodeTableWord (nbits w : Nat) : Option Instr :=
  if nbits ≤ 32 ∧ 0 < nbits then
    match decode (wordBytes (BitVec.ofNat 32 w)) with
    | .ok (i, _) => some i
    | .error _ => none
  else none

/-! ## The encoder -/

/-- The source byte of a scalar source (Table 1.2). -/
def srcByte : Src → BitVec 8
  | .reg n => 0#2 ++ n
  | .const n => 2#2 ++ n
  | .lit v => 3#2 ++ v
/-- The source byte of a source of a vector group. -/
def vsrcByte : VSrc → BitVec 8
  | .reg n => 0#2 ++ n
  | .vec n => 1#2 ++ n
  | .const n => 2#2 ++ n
  | .lit v => 3#2 ++ v
/-- The source byte of a source of the pr group. -/
def psrcByte : PSrc → BitVec 8
  | .pred n => 0#5 ++ n
  | .lit v => 3#2 ++ v
/-- The source byte of the source of pr.set. -/
def ksrcByte : KSrc → BitVec 8
  | .pred n => 0#5 ++ n
  | .const n => 2#2 ++ n
  | .lit v => 3#2 ++ v
/-- A field that names a predicate. -/
def predField (n : PReg) : BitVec 6 := 0#3 ++ n
/-- A field that names a tile. -/
def tileField (n : TReg) : BitVec 6 := 0#4 ++ n
/-- A field that names a Gaussian block: gN is 8N (R15). -/
def blockField (n : GReg) : BitVec 6 := n ++ 0#3
/-- A source byte that names a Gaussian block. -/
def blockByte (n : GReg) : BitVec 8 := 1#2 ++ blockField n

/-- A word of format A (Table 1.1). -/
def packA (op : BitVec 6) (fn : BitVec 4) (rd : BitVec 6) (sa sb : BitVec 8) : BitVec 32 := op ++ fn ++ rd ++ sa ++ sb
/-- A word of format I. -/
def packI (op rd rs : BitVec 6) (imm : BitVec 14) : BitVec 32 := op ++ rd ++ rs ++ imm
/-- A word of format U. -/
def packU (op rd : BitVec 6) (imm : BitVec 20) : BitVec 32 := op ++ rd ++ imm
/-- A word of format L. -/
def packL (op : BitVec 6) (fn la : BitVec 4) (rv rb off : BitVec 6) : BitVec 32 := op ++ fn ++ la ++ rv ++ rb ++ off
/-- A word of format B, major 0x0D. -/
def packB (cond : BitVec 4) (sa : BitVec 8) (off : BitVec 14) : BitVec 32 := 0x0D#6 ++ cond ++ sa ++ off
/-- A word of format J. -/
def packJ (op : BitVec 6) (off : BitVec 26) : BitVec 32 := op ++ off
/-- A word of format M. -/
def packM (op : BitVec 6) (fn la : BitVec 4) (ra rb rc : BitVec 6) : BitVec 32 := op ++ fn ++ la ++ ra ++ rb ++ rc
/-- A word of format X, major 0x00. -/
def packX (fn : BitVec 10) (imm : BitVec 16) : BitVec 32 := 0#6 ++ fn ++ imm
/-- A word of format X, major 0x01: a fence of a kind and a scope. -/
def packF (kind scope : BitVec 2) : BitVec 32 := 1#6 ++ 0#6 ++ kind ++ scope ++ 0#16

/-- The word of an instruction, with 0 in every field that it does not read (R27); a step that has no word has none. -/
def encode : Instr → Option (BitVec 32)
  | .sysInv => some (packX 0 0)
  | .sysNop => some (packX 1 0)
  | .sysBrk imm => some (packX 2 imm)
  | .sysTrap imm => some (packX 3 imm)
  | .sysEret => some (packX 4 0)
  | .sysGet r n => some (packX 5 (r ++ n))
  | .sysPut r n => some (packX 6 (r ++ n))
  | .sysSet r n => some (packX 7 (r ++ n))
  | .sysClr r n => some (packX 8 (r ++ n))
  | .sysKill imm => some (packX 9 imm)
  | .fenceFull scope => some (packF 0 scope)
  | .fenceAcq scope => some (packF 1 scope)
  | .fenceRel scope => some (packF 2 scope)
  | .fenceEng scope => some (packF 3 scope)
  | .saAdd rd sa sb => some (packA 2 0 rd (srcByte sa) (srcByte sb))
  | .saSub rd sa sb => some (packA 2 1 rd (srcByte sa) (srcByte sb))
  | .saMul rd sa sb => some (packA 2 2 rd (srcByte sa) (srcByte sb))
  | .saMulh rd sa sb => some (packA 2 3 rd (srcByte sa) (srcByte sb))
  | .saMulhn rd sa sb => some (packA 2 4 rd (srcByte sa) (srcByte sb))
  | .saDiv rd sa sb => some (packA 2 5 rd (srcByte sa) (srcByte sb))
  | .saDivn rd sa sb => some (packA 2 6 rd (srcByte sa) (srcByte sb))
  | .saRem rd sa sb => some (packA 2 7 rd (srcByte sa) (srcByte sb))
  | .saRemn rd sa sb => some (packA 2 8 rd (srcByte sa) (srcByte sb))
  | .saMin rd sa sb => some (packA 2 9 rd (srcByte sa) (srcByte sb))
  | .saMax rd sa sb => some (packA 2 10 rd (srcByte sa) (srcByte sb))
  | .saMinn rd sa sb => some (packA 2 11 rd (srcByte sa) (srcByte sb))
  | .saMaxn rd sa sb => some (packA 2 12 rd (srcByte sa) (srcByte sb))
  | .saPadd rd sa sb => some (packA 2 13 rd (srcByte sa) (srcByte sb))
  | .saAbs rd sa => some (packA 2 14 rd (srcByte sa) 0)
  | .saNeg rd sa => some (packA 2 15 rd (srcByte sa) 0)
  | .sbAnd rd sa sb => some (packA 3 0 rd (srcByte sa) (srcByte sb))
  | .sbOr rd sa sb => some (packA 3 1 rd (srcByte sa) (srcByte sb))
  | .sbXor rd sa sb => some (packA 3 2 rd (srcByte sa) (srcByte sb))
  | .sbAndn rd sa sb => some (packA 3 3 rd (srcByte sa) (srcByte sb))
  | .sbShl rd sa sb => some (packA 3 4 rd (srcByte sa) (srcByte sb))
  | .sbShr rd sa sb => some (packA 3 5 rd (srcByte sa) (srcByte sb))
  | .sbSra rd sa sb => some (packA 3 6 rd (srcByte sa) (srcByte sb))
  | .sbRot rd sa sb => some (packA 3 7 rd (srcByte sa) (srcByte sb))
  | .sbClz rd sa => some (packA 3 8 rd (srcByte sa) 0)
  | .sbCtz rd sa => some (packA 3 9 rd (srcByte sa) 0)
  | .sbPop rd sa => some (packA 3 10 rd (srcByte sa) 0)
  | .sbSeq rd sa sb => some (packA 3 11 rd (srcByte sa) (srcByte sb))
  | .sbSne rd sa sb => some (packA 3 12 rd (srcByte sa) (srcByte sb))
  | .sbSlt rd sa sb => some (packA 3 13 rd (srcByte sa) (srcByte sb))
  | .sbSltn rd sa sb => some (packA 3 14 rd (srcByte sa) (srcByte sb))
  | .sbSel rd sa sb => some (packA 3 15 rd (srcByte sa) (srcByte sb))
  | .swAdd rd sa sb => some (packA 4 0 rd (srcByte sa) (srcByte sb))
  | .swSub rd sa sb => some (packA 4 1 rd (srcByte sa) (srcByte sb))
  | .swMul rd sa sb => some (packA 4 2 rd (srcByte sa) (srcByte sb))
  | .swDiv rd sa sb => some (packA 4 3 rd (srcByte sa) (srcByte sb))
  | .swDivn rd sa sb => some (packA 4 4 rd (srcByte sa) (srcByte sb))
  | .swRem rd sa sb => some (packA 4 5 rd (srcByte sa) (srcByte sb))
  | .swRemn rd sa sb => some (packA 4 6 rd (srcByte sa) (srcByte sb))
  | .swShl rd sa sb => some (packA 4 7 rd (srcByte sa) (srcByte sb))
  | .swShr rd sa sb => some (packA 4 8 rd (srcByte sa) (srcByte sb))
  | .swSra rd sa sb => some (packA 4 9 rd (srcByte sa) (srcByte sb))
  | .swMin rd sa sb => some (packA 4 10 rd (srcByte sa) (srcByte sb))
  | .swMax rd sa sb => some (packA 4 11 rd (srcByte sa) (srcByte sb))
  | .siAdd rd rs imm => some (packI 5 rd rs imm)
  | .siAnd rd rs imm => some (packI 6 rd rs imm)
  | .siOr rd rs imm => some (packI 7 rd rs imm)
  | .siXor rd rs imm => some (packI 8 rd rs imm)
  | .siShl rd rs amt => some (packI 9 rd rs (0#2 ++ 0#6 ++ amt))
  | .siShr rd rs amt => some (packI 9 rd rs (1#2 ++ 0#6 ++ amt))
  | .siSra rd rs amt => some (packI 9 rd rs (2#2 ++ 0#6 ++ amt))
  | .siRot rd rs amt => some (packI 9 rd rs (3#2 ++ 0#6 ++ amt))
  | .siSlt rd rs imm => some (packI 10 rd rs imm)
  | .liHi rd imm => some (packU 11 rd imm)
  | .liTop rd imm => some (packU 12 rd imm)
  | .brEq sa off => some (packB 0 (0#2 ++ sa) off)
  | .brNe sa off => some (packB 1 (0#2 ++ sa) off)
  | .brLt sa off => some (packB 2 (0#2 ++ sa) off)
  | .brGe sa off => some (packB 3 (0#2 ++ sa) off)
  | .brGt sa off => some (packB 4 (0#2 ++ sa) off)
  | .brLe sa off => some (packB 5 (0#2 ++ sa) off)
  | .brAny sa off => some (packB 6 (0#2 ++ (predField sa)) off)
  | .brNone sa off => some (packB 7 (0#2 ++ (predField sa)) off)
  | .brAlways off => some (packB 8 0 off)
  | .jmp off => some (packJ 14 off)
  | .call off => some (packJ 15 off)
  | .jxJr sa => some (packA 16 0 0 (srcByte sa) 0)
  | .jxCallr rd sa => some (packA 16 1 rd (srcByte sa) 0)
  | .jxRet => some (packA 16 2 0 0 0)
  | .lpDo rs imm => some (packI 17 0 rs imm)
  | .prAnd rd sa sb => some (packA 18 0 (predField rd) (psrcByte sa) (psrcByte sb))
  | .prOr rd sa sb => some (packA 18 1 (predField rd) (psrcByte sa) (psrcByte sb))
  | .prXor rd sa sb => some (packA 18 2 (predField rd) (psrcByte sa) (psrcByte sb))
  | .prNot rd sa => some (packA 18 3 (predField rd) (psrcByte sa) 0)
  | .prSet rd sa => some (packA 18 4 (predField rd) (ksrcByte sa) 0)
  | .prGet rd sa => some (packA 18 5 rd (psrcByte sa) 0)
  | .prCnt rd sa => some (packA 18 6 rd (psrcByte sa) 0)
  | .prFirst rd sa => some (packA 18 7 rd (psrcByte sa) 0)
  | .ldB la rv rb off => some (packL 19 0 la rv rb off)
  | .ldBn la rv rb off => some (packL 19 1 la rv rb off)
  | .ldH la rv rb off => some (packL 19 2 la rv rb off)
  | .ldHn la rv rb off => some (packL 19 3 la rv rb off)
  | .ldW la rv rb off => some (packL 19 4 la rv rb off)
  | .ldWn la rv rb off => some (packL 19 5 la rv rb off)
  | .ldD la rv rb off => some (packL 19 6 la rv rb off)
  | .ldV la rv rb off => some (packL 19 7 la rv rb off)
  | .ldVt la rv rb off => some (packL 19 8 la rv rb off)
  | .ldAcq la rv rb off => some (packL 19 9 la rv rb off)
  | .ldDev la rv rb off => some (packL 19 10 la rv rb off)
  | .stB rv rb off => some (packL 20 0 0 rv rb off)
  | .stH rv rb off => some (packL 20 1 0 rv rb off)
  | .stW rv rb off => some (packL 20 2 0 rv rb off)
  | .stD rv rb off => some (packL 20 3 0 rv rb off)
  | .stV rv rb off => some (packL 20 4 0 rv rb off)
  | .stVm rv rb off => some (packL 20 5 0 rv rb off)
  | .stVt rv rb off => some (packL 20 6 0 rv rb off)
  | .stRel rv rb off => some (packL 20 7 0 rv rb off)
  | .stDev rv rb off => some (packL 20 8 0 rv rb off)
  | .atAdd la ra rb rc => some (packM 21 0 la ra rb rc)
  | .atAddcb la ra rb rc => some (packM 21 1 la ra rb rc)
  | .atAnd la ra rb rc => some (packM 21 2 la ra rb rc)
  | .atOr la ra rb rc => some (packM 21 3 la ra rb rc)
  | .atXor la ra rb rc => some (packM 21 4 la ra rb rc)
  | .atMin la ra rb rc => some (packM 21 5 la ra rb rc)
  | .atMax la ra rb rc => some (packM 21 6 la ra rb rc)
  | .atMinn la ra rb rc => some (packM 21 7 la ra rb rc)
  | .atMaxn la ra rb rc => some (packM 21 8 la ra rb rc)
  | .atSwp la ra rb rc => some (packM 21 9 la ra rb rc)
  | .atCas la ra rb rc => some (packM 21 10 la ra rb rc)
  | .atFadd la ra rb rc => some (packM 21 11 la ra rb rc)
  | .atRed la ra rb rc => some (packM 21 12 la ra rb rc)
  | .atWatch la ra rb rc => some (packM 21 13 la ra rb rc)
  | .atwAdd la ra rb rc => some (packM 22 0 la ra rb rc)
  | .atwAddcb la ra rb rc => some (packM 22 1 la ra rb rc)
  | .atwAnd la ra rb rc => some (packM 22 2 la ra rb rc)
  | .atwOr la ra rb rc => some (packM 22 3 la ra rb rc)
  | .atwXor la ra rb rc => some (packM 22 4 la ra rb rc)
  | .atwMin la ra rb rc => some (packM 22 5 la ra rb rc)
  | .atwMax la ra rb rc => some (packM 22 6 la ra rb rc)
  | .atwMinn la ra rb rc => some (packM 22 7 la ra rb rc)
  | .atwMaxn la ra rb rc => some (packM 22 8 la ra rb rc)
  | .atwSwp la ra rb rc => some (packM 22 9 la ra rb rc)
  | .atwCas la ra rb rc => some (packM 22 10 la ra rb rc)
  | .atwFadd la ra rb rc => some (packM 22 11 la ra rb rc)
  | .atwRed la ra rb rc => some (packM 22 12 la ra rb rc)
  | .atwWatch la ra rb rc => some (packM 22 13 la ra rb rc)
  | .vaFadd rd sa sb => some (packA 23 0 rd (vsrcByte sa) (vsrcByte sb))
  | .vaFsub rd sa sb => some (packA 23 1 rd (vsrcByte sa) (vsrcByte sb))
  | .vaFmul rd sa sb => some (packA 23 2 rd (vsrcByte sa) (vsrcByte sb))
  | .vaFma rd sa sb => some (packA 23 3 rd (vsrcByte sa) (vsrcByte sb))
  | .vaFms rd sa sb => some (packA 23 4 rd (vsrcByte sa) (vsrcByte sb))
  | .vaFmin rd sa sb => some (packA 23 5 rd (vsrcByte sa) (vsrcByte sb))
  | .vaFmax rd sa sb => some (packA 23 6 rd (vsrcByte sa) (vsrcByte sb))
  | .vaFabs rd sa => some (packA 23 7 rd (vsrcByte sa) 0)
  | .vaFneg rd sa => some (packA 23 8 rd (vsrcByte sa) 0)
  | .vaFrcp rd sa => some (packA 23 9 rd (vsrcByte sa) 0)
  | .vaFrsq rd sa => some (packA 23 10 rd (vsrcByte sa) 0)
  | .vaFsqrt rd sa => some (packA 23 11 rd (vsrcByte sa) 0)
  | .vaFdiv rd sa sb => some (packA 23 12 rd (vsrcByte sa) (vsrcByte sb))
  | .viAdd rd sa sb => some (packA 24 0 rd (vsrcByte sa) (vsrcByte sb))
  | .viSub rd sa sb => some (packA 24 1 rd (vsrcByte sa) (vsrcByte sb))
  | .viMul rd sa sb => some (packA 24 2 rd (vsrcByte sa) (vsrcByte sb))
  | .viMulh rd sa sb => some (packA 24 3 rd (vsrcByte sa) (vsrcByte sb))
  | .viAnd rd sa sb => some (packA 24 4 rd (vsrcByte sa) (vsrcByte sb))
  | .viOr rd sa sb => some (packA 24 5 rd (vsrcByte sa) (vsrcByte sb))
  | .viXor rd sa sb => some (packA 24 6 rd (vsrcByte sa) (vsrcByte sb))
  | .viShl rd sa sb => some (packA 24 7 rd (vsrcByte sa) (vsrcByte sb))
  | .viShr rd sa sb => some (packA 24 8 rd (vsrcByte sa) (vsrcByte sb))
  | .viSra rd sa sb => some (packA 24 9 rd (vsrcByte sa) (vsrcByte sb))
  | .viMin rd sa sb => some (packA 24 10 rd (vsrcByte sa) (vsrcByte sb))
  | .viMax rd sa sb => some (packA 24 11 rd (vsrcByte sa) (vsrcByte sb))
  | .viMinn rd sa sb => some (packA 24 12 rd (vsrcByte sa) (vsrcByte sb))
  | .viMaxn rd sa sb => some (packA 24 13 rd (vsrcByte sa) (vsrcByte sb))
  | .vcFeq rd sa sb => some (packA 25 0 (predField rd) (vsrcByte sa) (vsrcByte sb))
  | .vcFne rd sa sb => some (packA 25 1 (predField rd) (vsrcByte sa) (vsrcByte sb))
  | .vcFlt rd sa sb => some (packA 25 2 (predField rd) (vsrcByte sa) (vsrcByte sb))
  | .vcFle rd sa sb => some (packA 25 3 (predField rd) (vsrcByte sa) (vsrcByte sb))
  | .vcFun rd sa sb => some (packA 25 4 (predField rd) (vsrcByte sa) (vsrcByte sb))
  | .vcIeq rd sa sb => some (packA 25 5 (predField rd) (vsrcByte sa) (vsrcByte sb))
  | .vcIlt rd sa sb => some (packA 25 6 (predField rd) (vsrcByte sa) (vsrcByte sb))
  | .vcIltn rd sa sb => some (packA 25 7 (predField rd) (vsrcByte sa) (vsrcByte sb))
  | .vxBcast rd sa sb => some (packA 26 0 rd (vsrcByte sa) (vsrcByte sb))
  | .vxExtr rd sa sb => some (packA 26 1 rd (vsrcByte sa) (vsrcByte sb))
  | .vxIns rd sa sb => some (packA 26 2 rd (vsrcByte sa) (vsrcByte sb))
  | .vxPerm rd sa sb => some (packA 26 3 rd (vsrcByte sa) (vsrcByte sb))
  | .vxSel rd sa sb => some (packA 26 4 rd (vsrcByte sa) (vsrcByte sb))
  | .vxIota rd sa sb => some (packA 26 5 rd (vsrcByte sa) (vsrcByte sb))
  | .vxCvtif rd sa sb => some (packA 26 6 rd (vsrcByte sa) (vsrcByte sb))
  | .vxCvtfi rd sa sb => some (packA 26 7 rd (vsrcByte sa) (vsrcByte sb))
  | .vxCvtbh rd sa sb => some (packA 26 8 rd (vsrcByte sa) (vsrcByte sb))
  | .vxCvthb rd sa sb => some (packA 26 9 rd (vsrcByte sa) (vsrcByte sb))
  | .vxCvtfh rd sa sb => some (packA 26 10 rd (vsrcByte sa) (vsrcByte sb))
  | .vxCvthf rd sa sb => some (packA 26 11 rd (vsrcByte sa) (vsrcByte sb))
  | .vxCvt8 rd sa sb => some (packA 26 12 rd (vsrcByte sa) (vsrcByte sb))
  | .vxCvtq8 rd sa sb => some (packA 26 13 rd (vsrcByte sa) (vsrcByte sb))
  | .vxCvt4 rd sa sb => some (packA 26 14 rd (vsrcByte sa) (vsrcByte sb))
  | .vxCvtq4 rd sa sb => some (packA 26 15 rd (vsrcByte sa) (vsrcByte sb))
  | .vrFsum rd sa sb => some (packA 27 0 rd (vsrcByte sa) (vsrcByte sb))
  | .vrFmax rd sa sb => some (packA 27 1 rd (vsrcByte sa) (vsrcByte sb))
  | .vrFmin rd sa sb => some (packA 27 2 rd (vsrcByte sa) (vsrcByte sb))
  | .vrIsum rd sa sb => some (packA 27 3 rd (vsrcByte sa) (vsrcByte sb))
  | .vrImax rd sa sb => some (packA 27 4 rd (vsrcByte sa) (vsrcByte sb))
  | .vrImin rd sa sb => some (packA 27 5 rd (vsrcByte sa) (vsrcByte sb))
  | .vrAnd rd sa sb => some (packA 27 6 rd (vsrcByte sa) (vsrcByte sb))
  | .vrOr rd sa sb => some (packA 27 7 rd (vsrcByte sa) (vsrcByte sb))
  | .vgGat la ra rb rc => some (packM 28 0 la ra rb rc)
  | .vgSca ra rb rc => some (packM 28 1 0 ra rb rc)
  | .vgAtadd ra rb rc => some (packM 28 2 0 ra rb rc)
  | .vgAtfadd ra rb rc => some (packM 28 3 0 ra rb rc)
  | .vgAtmin ra rb rc => some (packM 28 4 0 ra rb rc)
  | .vgAtmax ra rb rc => some (packM 28 5 0 ra rb rc)
  | .vgAtor ra rb rc => some (packM 28 6 0 ra rb rc)
  | .mxMma la ra rb rc => some (packM 29 0 la (tileField ra) rb rc)
  | .mxMmas la ra rb rc => some (packM 29 1 la (tileField ra) rb rc)
  | .mxZero la ra => some (packM 29 2 la (tileField ra) 0 0)
  | .mxLdacc la ra rb => some (packM 29 3 la (tileField ra) rb 0)
  | .mxStacc ra rb rc => some (packM 29 4 0 (tileField ra) rb rc)
  | .mxStsp ra rb rc => some (packM 29 5 0 (tileField ra) rb rc)
  | .mxGang la ra rb rc => some (packM 29 6 la (tileField ra) rb rc)
  | .mxCfg ra rb => some (packM 29 7 0 ra rb 0)
  | .mxMask ra rb rc => some (packM 29 8 0 (tileField ra) rb rc)
  | .mxDrain => some (packM 29 9 0 0 0 0)
  | .cpGet ra rb rc => some (packM 30 0 0 ra rb rc)
  | .cpPut ra rb rc => some (packM 30 1 0 ra rb rc)
  | .cpGet2d ra rb rc => some (packM 30 2 0 ra rb rc)
  | .cpPut2d ra rb rc => some (packM 30 3 0 ra rb rc)
  | .cpFill ra rb rc => some (packM 30 4 0 ra rb rc)
  | .cpNzpk ra rb rc => some (packM 30 5 0 ra rb rc)
  | .cpWptr la ra rb => some (packM 30 6 la ra rb 0)
  | .cpCancel ra => some (packM 30 7 0 ra 0 0)
  | .msSend ra rb rc => some (packM 31 0 0 ra rb rc)
  | .msSendt ra rb rc => some (packM 31 1 0 ra rb rc)
  | .msSpr ra rb rc => some (packM 31 2 0 ra rb rc)
  | .msBcast ra rb rc => some (packM 31 3 0 ra rb rc)
  | .msEnd => some (packM 31 4 0 0 0 0)
  | .msEndc rb rc => some (packM 31 5 0 0 rb rc)
  | .msDefer ra => some (packM 31 6 0 ra 0 0)
  | .tkNew la ra rb rc => some (packM 32 0 la ra rb rc)
  | .tkArr rb => some (packM 32 1 0 0 rb 0)
  | .tkArrd rb rc => some (packM 32 2 0 0 rb rc)
  | .tkDl rb rc => some (packM 32 3 0 0 rb rc)
  | .tkKill rb => some (packM 32 4 0 0 rb 0)
  | .tkBarr rb => some (packM 32 5 0 0 rb 0)
  | .tkBwait rb rc => some (packM 32 6 0 0 rb rc)
  | .tgEn sa sb => some (packA 33 0 0 (srcByte sa) (srcByte sb))
  | .tgDis sa => some (packA 33 1 0 (srcByte sa) 0)
  | .tgPend sa => some (packA 33 2 0 (srcByte sa) 0)
  | .tgClr sa => some (packA 33 3 0 (srcByte sa) 0)
  | .tgGet rd sa => some (packA 33 4 rd (srcByte sa) 0)
  | .gmAdd rd sa sb => some (packA 34 0 (blockField rd) (blockByte sa) (blockByte sb))
  | .gmSub rd sa sb => some (packA 34 1 (blockField rd) (blockByte sa) (blockByte sb))
  | .gmDamp rd sa sb => some (packA 34 2 (blockField rd) (blockByte sa) (srcByte sb))
  | .gmMarg rd sa sb => some (packA 34 3 (blockField rd) (blockByte sa) (srcByte sb))
  | .gmSol rd sa => some (packA 34 4 (blockField rd) (blockByte sa) 0)
  | .gmCov rd sa => some (packA 34 5 (blockField rd) (blockByte sa) 0)
  | .gmLin rd sa sb => some (packA 34 6 (blockField rd) (blockByte sa) (srcByte sb))
  | .gmRes rd sa sb => some (packA 34 7 rd (blockByte sa) (blockByte sb))
  | .gmConv sa sb => some (packA 34 8 0 (srcByte sa) (srcByte sb))
  | .gmRdro rd sa => some (packA 34 9 rd (srcByte sa) 0)
  | .fgAttach la ra rb rc => some (packM 35 0 la ra rb rc)
  | .fgDetach ra rb => some (packM 35 1 0 ra rb 0)
  | .fgSlot la ra rb rc => some (packM 35 2 la ra rb rc)
  | .fgPost ra rb rc => some (packM 35 3 0 (blockField ra) rb rc)
  | .fgGen la ra rb rc => some (packM 35 4 la ra rb rc)
  | .chLink ra rb rc => some (packM 36 0 0 ra rb rc)
  | .chUnlink ra rb rc => some (packM 36 1 0 ra rb rc)
  | .chRelink ra rb rc => some (packM 36 2 0 ra rb rc)
  | .chStat la ra rb rc => some (packM 36 3 la ra rb rc)
  | .chTail la ra rb => some (packM 36 4 la ra rb 0)
  | .chClean ra rc => some (packM 36 5 0 ra 0 rc)
  | .rgAcq la ra rb => some (packM 37 0 la ra rb 0)
  | .rgCmt rb rc => some (packM 37 1 0 0 rb rc)
  | .rgPeek la ra rb => some (packM 37 2 la ra rb 0)
  | .rgRel rb => some (packM 37 3 0 0 rb 0)
  | .qpCtl sa sb => some (packA 38 0 0 (srcByte sa) (srcByte sb))
  | .qpStat rd sa => some (packA 38 1 rd (srcByte sa) 0)
  | .qpCatch sa sb => some (packA 38 2 0 (srcByte sa) (srcByte sb))
  | .glArm ra rb => some (packM 39 0 0 ra rb 0)
  | .glDisarm ra => some (packM 39 1 0 ra 0 0)
  | .glTrig ra rb => some (packM 39 2 0 ra rb 0)
  | .glGate ra => some (packM 39 3 0 ra 0 0)
  | .glIdx la ra rb => some (packM 39 4 la ra rb 0)
  | .glGrp la ra rb => some (packM 39 5 la ra rb 0)
  | .pgInval ra rb rc => some (packM 40 0 0 ra rb rc)
  | .pgReplay ra => some (packM 40 1 0 ra 0 0)
  | .pgFbrd la ra rb => some (packM 40 2 la ra rb 0)
  | .pgPin ra rb rc => some (packM 40 3 0 ra rb rc)
  | .pgHint ra rb rc => some (packM 40 4 0 ra rb rc)
  | .trlLead => some (packA 41 0 0 0 0)
  | .trlJoin => some (packA 41 1 0 0 0)
  | .trlQuit => some (packA 41 2 0 0 0)
  | .undefinedEncoding _ => none
  | .registerWrite _ _ => none
  | .rostatSelect _ => none
  | .rostatArm _ => none
  | .rostatDisarm _ => none
  | .ctxctlPreempt _ => none
  | .ctxctlResume _ => none
  | .ctxctlKill _ => none
  | .messageArrival _ => none
  | .dispatch _ => none
  | .activationCommit _ => none
  | .sequencerArrival _ => none
  | .tlbMissAtSlice _ _ _ _ => none
  | .pageWalkComplete _ _ _ => none
  | .pgInvalCompletion _ => none
  | .pgPinCompletion _ => none
  | .epochEnd _ => none
  | .migrationSwitch _ _ => none
  | .homeSliceAccess _ => none
  | .invalidation _ _ => none
  | .invalidationAck _ _ => none
  | .atomicAtHome _ => none
  | .watchArmAtHome _ => none
  | .combineRequest _ _ _ => none
  | .combineWindowExpiry _ _ => none
  | .decombine _ _ _ => none
  | .atomicReplyTimeout _ _ _ => none
  | .tileFetchLine _ => none
  | .matrixCommandExecute _ => none
  | .gangStart _ => none
  | .copyBeat _ _ => none
  | .footprintPrefetch _ => none
  | .remotePortAccess _ => none
  | .queueWordArrival _ _ _ => none
  | .chainStoreAtLink _ => none
  | .chainAcknowledgement _ => none
  | .chainStoreCompletion _ => none
  | .chainRead _ => none
  | .chainTailQuery _ => none
  | .chainPageCopy _ _ => none
  | .chainPromotionMarker _ _ => none
  | .chainHeadHandoff _ _ => none
  | .chainCleanDone _ _ => none
  | .linkUnreachable _ _ => none
  | .postArrival _ => none
  | .postApply _ => none
  | .reportWindowExpiry _ _ _ => none
  | .runOutFire _ _ => none
  | .taskAtHome _ => none
  | .taskDeadline _ _ => none
  | .taskTake _ => none
  | .barrierAcknowledgement _ _ _ _ => none
  | .barrierRelease _ _ _ _ => none
  | .launchTrigger _ => none
  | .launchBatch _ _ _ => none
  | .indexAcknowledgement _ _ _ => none
  | .preemptionHalt _ => none
  | .localStoreSwap _ _ => none
  | .gatePost _ => none
  | .gateArmed _ _ _ => none
  | .gateGuardDeadline _ => none
  | .gateGo _ _ => none
  | .gateAbort _ => none
  | .gateActionTime _ => none
  | .gateArmedTimeout _ => none
  | .errorRetry _ _ => none
  | .remapComplete _ _ => none
  | .linkRemoval _ => none
  | .packetResendTimeout _ => none
  | .heartbeatTimeout _ => none
  | .budgetExpiry _ => none
  | .hostTriggerRecord _ _ _ => none
  | .mbxAttest _ _ => none
  | .mbxCreateContext _ _ _ => none
  | .mbxLoadImage _ _ _ _ => none
  | .mbxDestroyContext _ _ => none
  | .mbxTenantKey _ _ _ _ => none
  | .mbxReserveRange _ _ _ _ _ => none
  | .mbxHealthLog _ _ => none
  | .mbxUnlistedCommand _ _ => none
  | .mailboxCompletion _ => none
  | .ualinkRequest _ => none
  | .hostCompletion _ _ _ => none
  | .hostCompletionTimeout _ => none
  | .ethernetTransmit _ _ => none
  | .ethernetReceive _ _ _ => none
  | .ptpMessage _ _ => none
  | .clockDegradedExit => none
  | .boot _ _ => none
  | .selfTestReady _ => none
  | .thermalShutdown => none
  | .clockDegradedEntry _ => none
  | .goMarkedNow _ => none
  | .bridgeLaneSwapDone _ => none
  | .lostResponseTimeout _ => none
  | .powerCapping _ => none

end Sys2Proof
end

