-- ==== Sys2Proof/Machine/Float.lean ====
section
/-!
DEFINITION. Number formats and exact arithmetic with one rounding (chapter 08): every operation computes an exact
dyadic value and rounds it once.
-/
namespace Sys2Proof.Machine

/-- The five flags of fflags: bit 4 nv, 3 dz, 2 of, 1 uf, 0 nx (Table 8.8). -/
abbrev FFlags := BitVec 5

/-- Invalid operation. -/
def fNv : FFlags := 16
/-- Division by zero. -/
def fDz : FFlags := 8
/-- Overflow. -/
def fOf : FFlags := 4
/-- Underflow. -/
def fUf : FFlags := 2
/-- Inexact. -/
def fNx : FFlags := 1
/-- A flag raised under a condition. -/
def FFlags.when (c : Bool) (f : FFlags) : FFlags := if c then f else 0

/-- The rounding modes of frm.rm (Table 8.7). -/
inductive Rm where
  | rne | rz | rd | ru
  deriving DecidableEq, Repr

/-- The rounding mode of a two-bit field. -/
def rmOfBits (n : Nat) : Rm :=
  match n % 4 with
  | 0 => .rne
  | 1 => .rz
  | 2 => .rd
  | _ => .ru

/-- A floating-point format (Table 8.1, R158, Table 8.9). -/
structure Fmt where
  /-- Exponent width. -/
  ew : Nat
  /-- Mantissa width. -/
  mw : Nat
  /-- Exponent bias. -/
  bias : Nat
  /-- The bits of the largest finite value. -/
  top : Nat
  /-- The bits of infinity, where the format has one. -/
  inf : Option Nat
  /-- The bits of the canonical NaN, where the format has one. -/
  nan : Option Nat
  /-- A conversion above the largest finite value saturates (Table 8.9). -/
  sat : Bool
  deriving DecidableEq, Repr

/-- binary64. -/
def fp64 : Fmt := ⟨11, 52, 1023, 0x7FEFFFFFFFFFFFFF, some 0x7FF0000000000000, some 0x7FF8000000000000, false⟩
/-- binary32. -/
def fp32 : Fmt := ⟨8, 23, 127, 0x7F7FFFFF, some 0x7F800000, some 0x7FC00000, false⟩
/-- binary16. -/
def fp16 : Fmt := ⟨5, 10, 15, 0x7BFF, some 0x7C00, some 0x7E00, false⟩
/-- bfloat16. -/
def bf16 : Fmt := ⟨8, 7, 127, 0x7F7F, some 0x7F80, some 0x7FC0, false⟩
/-- E5M2. -/
def e5m2 : Fmt := ⟨5, 2, 15, 0x7B, some 0x7C, some 0x7E, true⟩
/-- E4M3. -/
def e4m3 : Fmt := ⟨4, 3, 7, 0x7E, none, some 0x7F, true⟩
/-- E2M1. -/
def e2m1 : Fmt := ⟨2, 1, 1, 7, none, none, true⟩

/-- The sign bit of a format. -/
def Fmt.sign (f : Fmt) : Nat := 2 ^ (f.ew + f.mw)
/-- The exponent of the least subnormal: its value is 2 to this power. -/
def Fmt.qmin (f : Fmt) : Int := 1 - (f.bias : Int) - (f.mw : Int)
/-- The canonical NaN (R158); E2M1 has none, and takes +0 (Table 8.9). -/
def Fmt.qnan (f : Fmt) : Nat := f.nan.getD 0

/-- The value of an element: a NaN (signalling or not), an infinity, or the exact number (-1)^neg * m * 2^e. -/
inductive FVal where
  | nan (sig : Bool)
  | inf (neg : Bool)
  | fin (neg : Bool) (m : Nat) (e : Int)
  deriving DecidableEq, Repr

/-- The value of a bit pattern (R157, R158, R159). -/
def Fmt.val (f : Fmt) (w : Nat) : FVal :=
  let neg := bit w (f.ew + f.mw)
  let e := (w >>> f.mw) % 2 ^ f.ew
  let m := w % 2 ^ f.mw
  let mag := w % f.sign
  match f.inf with
  | some i =>
    if mag = i then .inf neg
    else if i < mag then .nan (!bit m (f.mw - 1))
    else if e = 0 then .fin neg m f.qmin
    else .fin neg (m + 2 ^ f.mw) (f.qmin + (e : Int) - 1)
  | none =>
    if f.nan = some mag then .nan false
    else if e = 0 then .fin neg m f.qmin
    else .fin neg (m + 2 ^ f.mw) (f.qmin + (e : Int) - 1)

/-- m * 2^s as an integer, rounded by the mode when s is negative, and whether something was lost. -/
def roundShift (rm : Rm) (neg : Bool) (m : Nat) (s : Int) : Nat × Bool :=
  if 0 ≤ s then (m <<< s.toNat, false)
  else
    let k := (-s).toNat
    let q := m >>> k
    let r := m % 2 ^ k
    let half := 2 ^ (k - 1)
    let up := match rm with
      | .rne => half < r || (r == half && q % 2 == 1)
      | .rz => false
      | .rd => neg && r != 0
      | .ru => !neg && r != 0
    (if up then q + 1 else q, r != 0)

/-- The sign placed on a magnitude. -/
def Fmt.signed (f : Fmt) (neg : Bool) (mag : Nat) : Nat := if neg then f.sign + mag else mag

/-- The result of an overflow and its flags (Table 8.9). -/
def Fmt.overflow (f : Fmt) (rm : Rm) (neg : Bool) : Nat :=
  let toInf := match rm with
    | .rne => true
    | .rz => false
    | .rd => neg
    | .ru => !neg
  match f.inf with
  | some i => if f.sat || !toInf then f.signed neg f.top else f.signed neg i
  | none => f.signed neg f.top

/-- The exact value (-1)^neg * m * 2^e rounded once to the format, with the flags of R167. -/
def Fmt.round (f : Fmt) (rm : Rm) (neg : Bool) (m : Nat) (e : Int) : Nat × FFlags :=
  if m = 0 then (f.signed neg 0, 0)
  else
    let ex : Int := e + (Nat.log2 m : Int)
    let qu : Int := ex - (f.mw : Int)
    let q : Int := max qu f.qmin
    let (n, lost) := roundShift rm neg m (e - q)
    let (nu, _) := roundShift rm neg m (e - qu)
    let tiny := qu < f.qmin && !(qu == f.qmin - 1 && nu == 2 ^ (f.mw + 1))
    let raw := ((q - f.qmin).toNat <<< f.mw) + n
    if f.top < raw then (f.overflow rm neg, fOf ||| fNx)
    else (f.signed neg raw, FFlags.when lost fNx ||| FFlags.when (tiny && lost) fUf)

/-- A value converted to a format (R170, Table 8.9). -/
def Fmt.conv (f : Fmt) (rm : Rm) (v : FVal) : Nat × FFlags :=
  match v with
  | .nan sig => (f.qnan, FFlags.when (sig || f.nan == none) fNv)
  | .inf neg =>
    match f.inf with
    | some i => (f.signed neg i, 0)
    | none => (f.signed neg f.top, fOf ||| fNx)
  | .fin neg m e => f.round rm neg m e

/-- The integer nearest a value by the mode, and whether it is inexact. -/
def toIntRound (rm : Rm) (neg : Bool) (m : Nat) (e : Int) : Int × Bool :=
  let (n, lost) := roundShift rm neg m e
  (if neg then -(n : Int) else (n : Int), lost)

/-- A value converted to an integer of a width, signed or natural (Table 8.9). -/
def convInt (width : Nat) (sgn : Bool) (rm : Rm) (v : FVal) : Nat × FFlags :=
  let hi : Int := if sgn then 2 ^ (width - 1) - 1 else 2 ^ width - 1
  let lo : Int := if sgn then -(2 ^ (width - 1)) else 0
  let wrap : Int → Nat := fun x => (x % (2 ^ width : Int)).toNat
  match v with
  | .nan _ => (0, fNv)
  | .inf neg => (wrap (if neg then lo else hi), fNv)
  | .fin neg m e =>
    let (n, lost) := toIntRound rm neg m e
    if hi < n then (wrap hi, fNv)
    else if n < lo then (wrap lo, fNv)
    else (wrap n, FFlags.when lost fNx)

/-- The value of an integer. -/
def FVal.ofInt (n : Int) : FVal := .fin (n < 0) n.natAbs 0

/-- The value is a signalling NaN. -/
def FVal.isSig : FVal → Bool
  | .nan s => s
  | _ => false
/-- The value is a NaN. -/
def FVal.isNan : FVal → Bool
  | .nan _ => true
  | _ => false
/-- The value is a zero. -/
def FVal.isZero : FVal → Bool
  | .fin _ m _ => m == 0
  | _ => false
/-- The sign of a value. -/
def FVal.neg : FVal → Bool
  | .nan _ => false
  | .inf n => n
  | .fin n _ _ => n
/-- The value with its sign inverted. -/
def FVal.negate : FVal → FVal
  | .nan s => .nan s
  | .inf n => .inf !n
  | .fin n m e => .fin (!n) m e

/-- m * 2^(e - q) for q at most e, with the sign. -/
def scaled (neg : Bool) (m : Nat) (e q : Int) : Int :=
  let n : Int := ((m <<< (e - q).toNat : Nat) : Int)
  if neg then -n else n

/-- The exact sum of two finite numbers; an exact zero takes the sign IEEE 754 gives it in the mode. -/
def addFin (rm : Rm) (n1 : Bool) (m1 : Nat) (e1 : Int) (n2 : Bool) (m2 : Nat) (e2 : Int) : FVal :=
  let q := min e1 e2
  let t := scaled n1 m1 e1 q + scaled n2 m2 e2 q
  if t = 0 then .fin (if n1 = n2 then n1 else rm = .rd) 0 0
  else .fin (t < 0) t.natAbs q

/-- An exact result, with the flag it raises before rounding. -/
abbrev Exact := FVal × FFlags

/-- A NaN operand: the result is NaN, invalid where an operand signals. -/
def nanOf (vs : List FVal) : Exact := (.nan false, FFlags.when (vs.any FVal.isSig) fNv)

/-- a + b, exactly (R167). -/
def FVal.add (rm : Rm) (a b : FVal) : Exact :=
  match a, b with
  | .fin n1 m1 e1, .fin n2 m2 e2 => (addFin rm n1 m1 e1 n2 m2 e2, 0)
  | .inf n1, .inf n2 => if n1 = n2 then (.inf n1, 0) else (.nan false, fNv)
  | .inf n, .fin _ _ _ => (.inf n, 0)
  | .fin _ _ _, .inf n => (.inf n, 0)
  | a, b => nanOf [a, b]

/-- a * b, exactly. -/
def FVal.mul (a b : FVal) : Exact :=
  match a, b with
  | .fin n1 m1 e1, .fin n2 m2 e2 => (.fin (n1 != n2) (m1 * m2) (e1 + e2), 0)
  | .inf n1, .inf n2 => (.inf (n1 != n2), 0)
  | .inf n1, .fin n2 m _ => if m = 0 then (.nan false, fNv) else (.inf (n1 != n2), 0)
  | .fin n1 m _, .inf n2 => if m = 0 then (.nan false, fNv) else (.inf (n1 != n2), 0)
  | a, b => nanOf [a, b]

/-- a * b + c, exactly; 0 times infinity is invalid even with a quiet NaN as c (R192). -/
def FVal.fma (rm : Rm) (a b c : FVal) : Exact :=
  let (p, fp) := a.mul b
  if p.isNan then (.nan false, fp ||| FFlags.when c.isSig fNv)
  else p.add rm c

/-- a / b: the quotient to 64 bits beyond the divisor, with a sticky last bit. -/
def FVal.div (a b : FVal) : Exact :=
  match a, b with
  | .fin n1 m1 e1, .fin n2 m2 e2 =>
    if m2 = 0 then (if m1 = 0 then (.nan false, fNv) else (.inf (n1 != n2), fDz))
    else
      let k := 64 + Nat.log2 m2
      let q := (m1 <<< k) / m2
      let r := (m1 <<< k) % m2
      (.fin (n1 != n2) (2 * q + (if r = 0 then 0 else 1)) (e1 - e2 - (k : Int) - 1), 0)
  | .inf _, .inf _ => (.nan false, fNv)
  | .inf n1, .fin n2 _ _ => (.inf (n1 != n2), 0)
  | .fin n1 _ _, .inf n2 => (.fin (n1 != n2) 0 0, 0)
  | a, b => nanOf [a, b]

/-- The integer square root, bit by bit from bit n - 1 down. -/
def isqrt (x : Nat) : Nat → Nat → Nat
  | 0, r => r
  | n + 1, r =>
    let r' := r + 2 ^ n
    isqrt x n (if r' * r' ≤ x then r' else r)

/-- The mantissa and half the exponent of m * 2^e written with an even exponent. -/
def evenExp (m : Nat) (e : Int) : Nat × Int := if e % 2 = 0 then (m, e / 2) else (2 * m, (e - 1) / 2)

/-- The square root, with a sticky last bit. -/
def FVal.sqrt (a : FVal) : Exact :=
  match a with
  | .nan s => (.nan false, FFlags.when s fNv)
  | .inf n => if n then (.nan false, fNv) else (.inf false, 0)
  | .fin n m e =>
    if m = 0 then (.fin n 0 0, 0)
    else if n then (.nan false, fNv)
    else
      let (m', h) := evenExp m e
      let x := m' <<< 64
      let r := isqrt x 64 0
      (.fin false (2 * r + (if r * r = x then 0 else 1)) (h - 33), 0)

/-- The reciprocal square root, with a sticky last bit. -/
def FVal.rsqrt (a : FVal) : Exact :=
  match a with
  | .nan s => (.nan false, FFlags.when s fNv)
  | .inf n => if n then (.nan false, fNv) else (.fin false 0 0, 0)
  | .fin n m e =>
    if m = 0 then (.inf n, fDz)
    else if n then (.nan false, fNv)
    else
      let (m', h) := evenExp m e
      let x := 2 ^ 128 / m'
      let r := isqrt x 66 0
      (.fin false (2 * r + (if r * r * m' = 2 ^ 128 then 0 else 1)) (-h - 65), 0)

/-- An exact result rounded to the format. -/
def Fmt.fin (f : Fmt) (rm : Rm) (x : Exact) : Nat × FFlags :=
  let (w, fl) := f.conv rm x.1
  (w, fl ||| x.2)

/-- The order of two numbers: a below b. -/
def FVal.lt (a b : FVal) : Bool :=
  match a, b with
  | .fin n1 m1 e1, .fin n2 m2 e2 =>
    let q := min e1 e2
    decide (scaled n1 m1 e1 q < scaled n2 m2 e2 q)
  | .inf n1, .inf n2 => n1 && !n2
  | .inf n, .fin _ _ _ => n
  | .fin _ _ _, .inf n => !n
  | _, _ => false

/-- The equality of two numbers; +0 and -0 are equal. -/
def FVal.eq (a b : FVal) : Bool :=
  match a, b with
  | .fin n1 m1 e1, .fin n2 m2 e2 =>
    let q := min e1 e2
    decide (scaled n1 m1 e1 q = scaled n2 m2 e2 q)
  | .inf n1, .inf n2 => n1 == n2
  | _, _ => false

/-- fmin and fmax of two bit patterns (R193): the result is a copy of the chosen input. -/
def Fmt.minMax (f : Fmt) (isMax : Bool) (x y : Nat) : Nat × FFlags :=
  let a := f.val x
  let b := f.val y
  let fl := FFlags.when (a.isSig || b.isSig) fNv
  if a.isNan then (if b.isNan then f.qnan else y, fl)
  else if b.isNan then (x, fl)
  else
    let below := a.lt b || (a.eq b && a.neg && !b.neg)
    (if below = isMax then y else x, fl)

/-! ## Operations on FP32 lanes -/

/-- A lane read as a number. -/
def f32 (x : Lane) : FVal := fp32.val x.toNat
/-- A bit pattern and flags as a lane and flags. -/
def lane (r : Nat × FFlags) : Lane × FFlags := (BitVec.ofNat 32 r.1, r.2)
/-- FP32 addition with one rounding. -/
def fadd32 (rm : Rm) (x y : Lane) : Lane × FFlags := lane (fp32.fin rm ((f32 x).add rm (f32 y)))
/-- FP32 subtraction. -/
def fsub32 (rm : Rm) (x y : Lane) : Lane × FFlags := lane (fp32.fin rm ((f32 x).add rm (f32 y).negate))
/-- FP32 multiplication. -/
def fmul32 (rm : Rm) (x y : Lane) : Lane × FFlags := lane (fp32.fin rm ((f32 x).mul (f32 y)))
/-- FP32 fused multiply and add. -/
def fma32 (rm : Rm) (x y z : Lane) : Lane × FFlags := lane (fp32.fin rm ((f32 x).fma rm (f32 y) (f32 z)))
/-- FP32 fused multiply and subtract. -/
def fms32 (rm : Rm) (x y z : Lane) : Lane × FFlags := lane (fp32.fin rm ((f32 x).fma rm (f32 y) (f32 z).negate))
/-- FP32 division. -/
def fdiv32 (rm : Rm) (x y : Lane) : Lane × FFlags := lane (fp32.fin rm ((f32 x).div (f32 y)))
/-- FP32 reciprocal. -/
def frcp32 (rm : Rm) (x : Lane) : Lane × FFlags := lane (fp32.fin rm ((FVal.ofInt 1).div (f32 x)))
/-- FP32 reciprocal square root. -/
def frsq32 (rm : Rm) (x : Lane) : Lane × FFlags := lane (fp32.fin rm (f32 x).rsqrt)
/-- FP32 square root. -/
def fsqrt32 (rm : Rm) (x : Lane) : Lane × FFlags := lane (fp32.fin rm (f32 x).sqrt)
/-- FP32 minimum. -/
def fmin32 (x y : Lane) : Lane × FFlags := lane (fp32.minMax false x.toNat y.toNat)
/-- FP32 maximum. -/
def fmax32 (x y : Lane) : Lane × FFlags := lane (fp32.minMax true x.toNat y.toNat)
/-- The magnitude; a NaN gives the canonical NaN, with no flag (Table 9.8). -/
def fabs32 (x : Lane) : Lane := if (f32 x).isNan then 0x7FC00000 else x &&& 0x7FFFFFFF
/-- The negation; a NaN gives the canonical NaN, with no flag. -/
def fneg32 (x : Lane) : Lane := if (f32 x).isNan then 0x7FC00000 else x ^^^ 0x80000000

/-- The rounding mode that frm holds (Table 8.7). -/
def rmOf (frm : Word) : Rm := rmOfBits frm.toNat

end Sys2Proof.Machine
end

