-- ==== Sys2Proof/Config.lean ====
section
/-!
DEFINITION. The free values: what the spec leaves open, as constants without a body. A step applies them to a counter
that State holds, so that nothing in Lean can tell their value.
-/
namespace Sys2Proof.Config

/-- The contents of a scalar register at dispatch (R13, log 3 DESIGN CHOICE). -/
opaque freeScalar : Nat → Nat → Word
/-- The contents of a vector register at dispatch (R13, log 3 DESIGN CHOICE). -/
opaque freeVector : Nat → Nat → VWord
/-- The contents of a predicate at dispatch (R13, log 3 DESIGN CHOICE). -/
opaque freePred : Nat → Nat → PWord
/-- The cycles that pass before a turn that no agenda gives (log 4 DESIGN CHOICE). -/
opaque freeCycles : Nat → Nat
/-- A byte that the spec leaves open: of the undefined mix that a cancelled get leaves (R145, log 16 DESIGN CHOICE), and of the
Ethernet queue-pair bindings of device register space, whose layout the spec does not give (Table 17.4, log 15 DESIGN CHOICE). -/
opaque freeByte : Nat → Nat → Byte
/-- An accumulator element to which an uncorrectable byte contributed (R226, log 16 DESIGN CHOICE). -/
opaque freeLane : Nat → Nat → Lane
/-- A byte of an attestation report's signature (R384, log 18 DESIGN CHOICE). -/
opaque freeSign : Nat → Nat → Byte
/-- A choice that the device is free to make among n things (R8, log 15 DESIGN CHOICE). -/
opaque freeChoice : Nat → Nat → Nat

/-- The bits of a literal that a narrow format of a number of mantissa bits cannot represent exactly (R10, log 26 DESIGN
CHOICE). -/
opaque freeLiteral : Nat → BitVec 6 → Nat

/-- Another package's port refuses a request (R376, R377, log 14 DESIGN CHOICE). -/
opaque freeRefusal : Nat → Nat → Bool
/-- Host memory answers a read with an error (R375, log 14 DESIGN CHOICE). -/
opaque freeHostError : Nat → Nat → Bool
/-- Another package has reserved a range for a chain of this one (R113, log 14 DESIGN CHOICE). -/
opaque freeReserved : Nat → Nat → Bool
/-- A number of a record that others keep: of a frozen chain in other packages (R114, log 14 DESIGN CHOICE), or of the queue pairs that
firmware binds (R380, log 54 DESIGN CHOICE). -/
opaque freeRecord : Nat → Nat → Nat
/-- The time receiver loses its time transmitter (R382, log 30 DEDUCED). -/
opaque freeUnlock : Nat → Bool

end Sys2Proof.Config
end

