-- ==== Sys2Proof/Machine/State.lean ====
section
/-!
DEFINITION. The state of one Scelan S9 package as plain data: the cores, the contexts, memory and what the device
keeps about it, the package's units, and what is in flight. The rule that names each piece is cited beside it, and
INVENTORY.md lists them all with their reset values.
-/
namespace Sys2Proof.Machine

/-- A table by number: the entry of an absent key is the type's default (R101, R316, R317). -/
abbrev Tbl (α : Type) := List (Nat × α)

/-- Memory by 52-bit physical address, in canonical form: addresses rise strictly, and no byte equals what an
unlisted address reads as (R55, log 2 DESIGN CHOICE). -/
abbrev Mem := List Host.Cell

/-- Where an access goes once it is translated: a physical address, or an in-die offset of a chain (R65, R101). -/
inductive Place where
  | mem (pa : Nat)
  | chain (ctx ch off : Nat)
  deriving DecidableEq, Repr

/-- A register result that waits for its lookahead window (R19). -/
inductive RegVal where
  | s (n : SReg) (w : Word)
  | v (n : VReg) (x : VWord)
  | g (n : GReg) (x : List VWord)
  /-- A tile: the result is that of the matrix command of a number (R210). -/
  | t (n : TReg) (id : Nat)
  deriving DecidableEq, Repr

/-- A pending result: the value, and the instructions of the window still to retire (R19). -/
structure Pend where
  val : RegVal
  left : Nat
  /-- The tag of the outstanding atomic whose reply will give the value (R135). -/
  wait : Option Nat := none
  deriving DecidableEq, Repr

/-- The loop registers with their internal values (R186 to R189). -/
structure Loop where
  /-- lc (0x030). -/
  lc : Word := 0
  /-- ls (0x031). -/
  ls : Nat := 0
  /-- le (0x032), bits [51:2]. -/
  le : Nat := 0
  /-- le.act. -/
  act : Bool := false
  /-- le.pnd. -/
  pnd : Bool := false
  /-- The pending count. -/
  pending : Word := 0
  /-- The call depth. -/
  depth : Nat := 0
  /-- The trap level of the loop. -/
  level : Nat := 0
  deriving DecidableEq, Repr

/-- The registers of one trap level: tcause.n, tpc.n, tval.n and tscr.n (Tables 16.3 to 16.5). -/
structure TrapRegs where
  cause : Word := 0
  pc : Word := 0
  val : Word := 0
  scr : Word := 0
  deriving DecidableEq, Repr

/-- What the signature checker keeps of a block in progress (R357). -/
structure Block where
  /-- The block has been entered, and its record found. -/
  on : Bool := false
  /-- Word offset of the block's start. -/
  start : Nat := 0
  /-- Its record, found at the entry: length, flags, signature and first successor (R51, R357). -/
  len : Nat := 0
  flags : Nat := 0
  sig : Nat := 0
  next : Nat := 0
  /-- Words fed so far. -/
  pos : Nat := 0
  /-- Running CRC-32C. -/
  crc : Nat := 0xFFFFFFFF
  /-- How the next block is entered: 0 dispatch, 1 listed successor, 2 return, 3 trap entry, 4 any block start. -/
  how : Nat := 0
  /-- The successors that the block listed (Table 2.17a). -/
  succ : List Nat := []
  /-- The address saved when a trap or a catch interrupted the block. -/
  addr : Nat := 0
  deriving DecidableEq, Repr

/-- The signature checker of a core (R357 to R361). -/
structure Checker where
  cur : Block := {}
  /-- The state saved at entry to level 1 and level 2, with the address saved. -/
  lv1 : Block := {}
  lv2 : Block := {}
  /-- The four catch slots: the address of the caught instruction and the state (R357). -/
  catches : List (Nat × Block) := []
  /-- Mismatches counted by the physical core, and the cycle of the last (R361). -/
  count : Nat := 0
  last : Nat := 0
  deriving DecidableEq, Repr

/-- A copy command (R144 to R152): 0 get, 1 put, 2 get2d, 3 put2d, 4 fill, 5 nzpk. -/
structure CopyCmd where
  op : Nat := 0
  ch : Nat := 0
  /-- Own local-store offset; for fill the destination address. -/
  own : Nat := 0
  /-- Far address; for nzpk the sprinkle target word. -/
  far : Nat := 0
  /-- Bytes per row. -/
  len : Nat := 0
  rows : Nat := 1
  ostr : Int := 0
  fstr : Int := 0
  /-- The pattern of cp.fill. -/
  pat : Word := 0
  mbe : Bool := false
  ntf : Bool := false
  mcore : Nat := 0
  moff : Nat := 0
  ntag : Nat := 0
  ctx : Nat := 0
  /-- Stream bytes done. -/
  done : Nat := 0
  /-- Bytes of a beat whose chain store has not completed, and the store's number (R143). -/
  sent : Nat := 0
  sentId : Nat := 0
  /-- The chain of that store, and whether a port of another package has refused it (R148, R377). -/
  sentCh : Nat := 0
  turned : Bool := false
  /-- A beat carried poisoned data. -/
  poisoned : Bool := false
  /-- The sequence number of the issuing activation. -/
  act : Nat := 0
  /-- A queued get of an activation that was discarded, or a command that cp.cancel names while a beat of the channel is on its
  way: it ends with status 2 in its turn, at its beat boundary (R145, R147, R154). -/
  cancelled : Bool := false
  /-- The bytes held in the commit buffer at the kick, youngest first, by line and offset (R145). -/
  fwd : List (Place × Nat × Byte) := []
  /-- The source bytes of a put as they stood at the kick, and the lines of them that were poisoned (R146). -/
  snap : List Byte := []
  snapBad : List Nat := []
  deriving DecidableEq, Repr

/-- One channel of a copy engine (R143, R148, R153). -/
structure Chan where
  icnt : Word := 0
  wptr : Word := 0
  err : Bool := false
  last : Nat := 0
  fva : Word := 0
  cur : Option CopyCmd := none
  /-- Held on a not-present page. -/
  held : Bool := false
  /-- The context whose commands it last ran. -/
  ctx : Nat := 0
  deriving DecidableEq, Repr

/-- A copy engine: its two-entry queue and its channels (R141). -/
structure CopyEngine where
  queue : List CopyCmd := []
  chans : Vector Chan 4 := Vector.replicate 4 {}
  deriving DecidableEq, Repr

/-- A poison mark (R203). -/
inductive Mark where
  | clean
  | data
  | access (va : Nat)
  | sprinkle
  deriving DecidableEq, Repr

/-- The configuration items of Table 10.1. -/
structure MxCfg where
  mfmt : Word := 0x00110505
  apit : Nat := 0
  bpit : Nat := 0
  ascl : Word := 0
  bscl : Word := 0
  kofs : Nat := 0
  deriving DecidableEq, Repr

/-- A row's or column's LF8 block as its header shows it at issue: where the block begins, a malformed block, or a header that could
not be read (R208). -/
inductive Head where
  | at (va : Nat)
  | malformed
  | unread
  deriving DecidableEq, Repr

/-- An operand of a matrix command as its issue checks leave it (R204 to R208). -/
structure MxOperand where
  /-- Format code (Table 10.3). -/
  fmt : Nat := 5
  va : Nat := 0
  /-- Block length N. -/
  n : Nat := 32
  /-- Pitch in elements. -/
  p : Nat := 32
  /-- Address of the scale array; 0 for none. -/
  scl : Nat := 0
  kofs : Nat := 0
  heads : List Head := []
  deriving DecidableEq, Repr

/-- What a matrix command does (R213). -/
inductive MxOp where
  | mma (t : TReg) (a b : MxOperand)
  /-- The record form: bitmap, address of the packed values. -/
  | mmas (t : TReg) (bm vals : Nat) (a b : MxOperand)
  /-- The element form: row, column, value. -/
  | elem (t : TReg) (i k : Nat) (v : Lane) (b : MxOperand)
  /-- The leader's gang command names A; a trailing core's does not. -/
  | gang (t : TReg) (a : Option MxOperand) (b : MxOperand)
  | zero (t : TReg)
  | ldacc (t : TReg) (off : Nat)
  | cfg (item : Nat) (v : Word)
  | mask (m : BitVec 32)
  /-- The result of an earlier command takes effect when its window has ended (R210). -/
  | publish (id : Nat)
  /-- Tiles take a poison mark behind the commands before it: a command that was dropped, or a failing handler (R203, R225). -/
  | mark (ts : List TReg) (m : Mark)
  deriving DecidableEq, Repr

/-- A queued matrix command: its number, its lookahead, the column mask in force, the lines it covers with their
places, and the paged lines already fetched (R125, R210). A line with uncorrectable data is fetched as no bytes. -/
structure MxCmd where
  id : Nat := 0
  op : MxOp
  la : Nat := 0
  mask : BitVec 32 := 0xFFFFFFFF
  lines : List (Nat × Place) := []
  got : List (Nat × List Byte) := []
  /-- The lines pinned at their home slices (R127). -/
  pinned : List Nat := []
  /-- Refetching after pre-emption, and the address at which the refetch of a gang command failed (Table 10.6). -/
  refetch : Bool := false
  failed : Option Nat := none
  /-- Held on a not-present page until pg.replay (Table 10.6). -/
  waits : Bool := false
  deriving DecidableEq, Repr

/-- A tile with its mark. -/
structure MTile where
  t : Tile := Vector.replicate 32 (Vector.replicate 32 0)
  mark : Mark := .clean
  deriving DecidableEq, Repr

/-- A matrix engine (R201). -/
structure Matrix where
  tiles : Vector MTile 4 := Vector.replicate 4 {}
  /-- Results of completed commands whose windows are open: the command's number, its tile, the value (R210). -/
  held : List (Nat × TReg × MTile) := []
  /-- The number of the next command. -/
  next : Nat := 0
  /-- The shadows (R202). -/
  shadows : List (TReg × MTile) := []
  cfg : MxCfg := {}
  mask : BitVec 32 := 0xFFFFFFFF
  queue : List MxCmd := []
  deriving DecidableEq, Repr

/-- What waits in the commit buffer (Table 14.6), or is performed at issue in an irrevocable activation. -/
inductive Gated where
  /-- One line of stores: its place, its virtual address, bytes by offset in the line, and the instructions of which it holds a
  lane (R262). -/
  | store (pl : Place) (va : Nat) (bytes : List (Nat × Byte)) (rel : Bool) (grp : List Nat := [])
  | atomic (pl : Place) (r : AtomReq)
  | watch (pl : Place) (r : WatchReq)
  | rgCmt (pl : Place) (va slot : Nat)
  | rgRel (pl : Place) (va : Nat)
  /-- A message to a core of the own package. -/
  | send (m : Msg)
  /-- A message to another package. -/
  | sendRemote (pkg : Nat) (m : Msg) (dest : Word)
  | sendt (m : Msg)
  | bcast (g : Nat) (m : Msg)
  | endc (m : Msg)
  | tk (pl : Place) (r : TaskReq)
  /-- 0 en, 1 dis, 2 pend, 3 clr. -/
  | tg (op : Nat) (mask : Word) (arg : Word)
  | conv (g : Nat) (x : Lane)
  | fenceRel (scope : Nat)
  | copy (c : CopyCmd)
  | inval (r : InvalReq)
  | replay (ctx : Nat)
  | pin (r : PinReq)
  /-- A ch command: function 0 link, 1 unlink, 2 relink, 5 clean. -/
  | ch (fn : Nat) (ra rb : Word) (mpa : Option Nat)
  | post (p : Post)
  | arm (e : Nat) (w0 w1 : Word)
  | disarm (e : Nat)
  | trig (t : Trig)
  | trigRemote (pkg : Nat) (t : Trig) (dest : Word)
  | gate (p : GatePost) (ncore ntag : Nat) (pkgs : List Nat)
  deriving DecidableEq, Repr

/-- A route tag of a context on a core (R290). -/
structure TagState where
  /-- The entry of the default handler. -/
  dflt : Option Nat := none
  /-- The constant block of the default handler. -/
  kbank : List Word := []
  en : Bool := false
  spnd : Bool := false
  prio : Nat := 0
  /-- Cycles counted since the soft-pending bit was set (R291). -/
  sage : Nat := 0
  deriving DecidableEq, Repr

/-- The tags of a context on a core, with the four round-robin pointers (R291). -/
structure TagSet where
  tags : Tbl TagState := []
  rr : List Nat := [63, 63, 63, 63]
  deriving DecidableEq, Repr

/-- A barrier entry of a core (R312). -/
structure BarEntry where
  ctx : Nat := 0
  va : Nat := 0
  /-- The number of the entry (the model's own), which tells a late acknowledgement of a closed entry apart (R313). -/
  id : Nat := 0
  /-- The generation of the arrival, once acknowledged. -/
  gen : Option Nat := none
  released : Bool := false
  /-- The registered continuation. -/
  cont : Option Msg := none
  deriving DecidableEq, Repr

/-- A leaf with its context and page size, as a TLB holds it (R82). -/
structure Leaf where
  ctx : Nat := 0
  /-- First byte of the page. -/
  base : Nat := 0
  /-- log2 of the page size: 16, 21 or 30. -/
  lg : Nat := 16
  w0 : Word := 0
  w1 : Word := 0
  deriving DecidableEq, Repr

/-- Where an activation stands (R287, R306, R336). -/
inductive Phase where
  | idle
  | running
  /-- After an ending instruction: 0 end, 1 endc, 2 defer, 3 bwait. -/
  | ending (how : Nat)
  /-- Halted for pre-emption. -/
  | halted
  deriving DecidableEq, Repr

/-- The role of a core in trail mode (R323). -/
inductive TrailRole where
  | none
  /-- Has executed trl.join, or waits in trl.lead. -/
  | waiting
  | leader
  | trailing
  deriving DecidableEq, Repr

/-- One instruction of the stream of a row: its address, its word, and the leader's control results (R324). -/
structure TrailRec where
  pc : Nat := 0
  w : BitVec 32 := 0
  npc : Nat := 0
  lp : Loop := {}
  wr : List (SReg × Word) := []
  /-- Where the stream goes on behind it, once the leader has returned from a trap to another address (R325). -/
  onto : Option Nat := none
  deriving DecidableEq, Repr

/-- The trail state of a core (R323 to R327). -/
structure Trail where
  role : TrailRole := .none
  /-- The stream not yet executed, oldest first. -/
  stream : List TrailRec := []
  /-- The address at which the core left the stream in a trap or a catch (R325). -/
  left : Option Nat := none
  /-- The trap level of the stream that it left (R325, R348). -/
  level : Nat := 0
  /-- The next instruction of the stream is skipped: the core returned behind one that it had not yet received (R325). -/
  skip : Bool := false
  deriving DecidableEq, Repr

/-- An ordered activation that has ended and waits to commit (R300). -/
structure Waiting where
  trig : Msg := {}
  cbuf : List Gated := []
  rsig : List Nat := []
  how : Nat := 0
  /-- The barriers at which it arrives (R312). -/
  arrived : List Nat := []
  /-- Its sequence number, and the tiles from before it (R145, R202). -/
  seq : Nat := 0
  shadows : List (TReg × MTile) := []
  /-- Its commit has begun: a part of what it held is released. -/
  releasing : Bool := false
  /-- It had become irrevocable: it is never discarded (R298). -/
  firm : Bool := false
  /-- The posts that its core had buffered when it ended wait for its commit (R241). -/
  posts : Bool := false
  deriving DecidableEq, Repr

/-- One core. -/
structure Core where
  /-- s0 to s63; s0 is never written (R13). -/
  s : Vector Word 64 := Vector.replicate 64 0
  v : Vector VWord 64 := Vector.replicate 64 (Vector.replicate 16 0)
  p : Vector PWord 8 := Vector.replicate 8 0
  k : Vector Word 64 := Vector.replicate 64 0
  pc : BitVec 52 := 0
  /-- The word last fetched (log 9 DEDUCED). -/
  ir : BitVec 32 := 0
  pend : List Pend := []
  /-- frm (0x020). -/
  frm : Word := 0
  /-- fflags (0x021). -/
  fflags : BitVec 5 := 0
  /-- gdim (0x022). -/
  gdim : BitVec 4 := 1
  lp : Loop := {}
  /-- vprog (0x038). -/
  vprog : BitVec 11 := 0
  /-- tlv (0x040). -/
  tlv : BitVec 2 := 0
  /-- tvec (0x041). -/
  tvec : Word := 0
  t1 : TrapRegs := {}
  t2 : TrapRegs := {}
  /-- tsave (0x048). -/
  tsave : Word := 0
  /-- csel (0x100). -/
  csel : BitVec 6 := 0
  /-- fpa (0x009). -/
  fpa : Word := 0
  /-- aid.seq (0x000). -/
  seq : BitVec 52 := 0
  /-- tsn (0x007). -/
  tsn : BitVec 32 := 0
  /-- rtag (0x008). -/
  rtag : Word := 0
  /-- rostat.grp (0x062). -/
  rgrp : BitVec 8 := 0
  phase : Phase := .idle
  /-- The resident context, and the context last run (R334, R338). -/
  ctx : Option Nat := none
  last : Option Nat := none
  /-- Revocable (R297). -/
  rev : Bool := true
  trig : Msg := {}
  cbuf : List Gated := []
  icount : Nat := 0
  wcount : Nat := 0
  /-- cyc at the activation's dispatch (Table 16.6, cause 0x10, log 75 DEDUCED). -/
  started : Nat := 0
  /-- The page on which an irrevocable activation is held (R87). -/
  held : Option Nat := none
  /-- The lines read by an ordered activation (R301). -/
  rsig : List Nat := []
  word : Option Waiting := none
  bars : List BarEntry := []
  /-- The number of the next barrier entry (the model's own). -/
  nextBar : Nat := 0
  /-- The barriers at which the running activation has arrived (R312). -/
  arrived : List Nat := []
  /-- A task whose footprint is being fetched, with its slot (R156). -/
  fetching : Option (Msg × Nat) := none
  posts : List Post := []
  sprTiles : List TReg := []
  trail : Trail := {}
  chk : Checker := {}
  tags : Tbl TagSet := []
  /-- The core inbox, in order of arrival (R294). -/
  inbox : List Msg := []
  l1tlb : List Leaf := []
  /-- The lines in the L1 data cache and in the L1 instruction cache, oldest first (R122). -/
  l1 : List Nat := []
  l1i : List Nat := []
  lmon : List WatchReq := []
  /-- The four input FIFOs (R269). -/
  qin : Vector (List (BitVec 65)) 4 := Vector.replicate 4 []
  /-- The catch addresses (R271). -/
  qcatch : Vector Word 4 := Vector.replicate 4 0
  mx : Matrix := {}
  cp : CopyEngine := {}
  /-- Combinable atomics whose reply is outstanding (R135). -/
  outst : List AtomReq := []
  /-- A trap to take before the next instruction retires: cause and value (Table 1.6, R368). -/
  due : Option (Nat × Word) := none
  /-- The class under which uncorrectable data of a footprint is logged when its trap is taken (R156, R355). -/
  dueCls : Nat := 0x21
  /-- The detail of that entry: the chain of lost data (Table 16.11). -/
  dueDetail : Nat := 0
  /-- The reply of a host-memory load (R375). -/
  hostRd : Option (Bool × List Byte) := none
  /-- The core waits for a host-memory load. -/
  hostWait : Bool := false
  /-- The parts of the current load that host memory has answered, by address (R253, R375). -/
  hostGot : List (Nat × List Byte) := []
  /-- The core has reported ready (R386). -/
  ready : Bool := false
  /-- The core is being moved to a spare, or its physical core is retired (R365). -/
  remap : Bool := false
  /-- The current instruction waits (the model's own, log 5 DESIGN CHOICE). -/
  stalled : Bool := false
  /-- The instruction that waits at a queue port, by the instructions retired before it (R270, the model's own). -/
  portAt : Option Nat := none
  /-- The lines of the context's chains for which a completion is awaited (R283). -/
  chainOut : List ChainStore := []
  /-- The next store id of the core (R103). -/
  chainSeq : Nat := 0
  /-- While an instruction that performs several stores is in progress: how many stores were awaited before it (R262). -/
  group : Option Nat := none
  /-- The value of an atomic performed at the head of a chain, which waits for its store's completion (R104). -/
  ret : Option Word := none
  deriving DecidableEq, Repr

/-- The states of a launch entry (Table 15.1). -/
inductive LaunchState where
  | empty | idle | armed | firing
  deriving DecidableEq, Repr

/-- A launch entry (R317). -/
structure Launch where
  st : LaunchState := .empty
  /-- Words 0 and 1 of the descriptor (Table 15.2). -/
  w0 : Word := 0
  w1 : Word := 0
  /-- The configuration kept by a gl.arm during a firing. -/
  kept : Option (Word × Word) := none
  missed : Nat := 0
  saved : Word := 0
  fires : Nat := 0
  relead : Bool := false
  /-- A live die has led this firing. -/
  led : Bool := false
  leader : Nat := 0
  pay : Word := 0
  next : Nat := 0
  low : Nat := 0
  /-- The batches handed out and not acknowledged: first index, die, and indices not yet acknowledged. -/
  batches : List (Nat × Nat × List Nat) := []
  fired : Bool := false
  /-- The cycle in which the last trigger reached the entry (R317). -/
  hit : Option Nat := none
  deriving DecidableEq, Repr

/-- A chain table entry (Tables 5.1 to 5.3); its pend is counted from the stores in progress. -/
structure Chain where
  gen : Nat := 0
  cst : Nat := 0
  base : Nat := 0
  npg : Nat := 0
  /-- The members in order, head first: package and die. -/
  links : List (Nat × Nat) := []
  /-- The member being replaced by ch.relink. -/
  leaving : Option (Nat × Nat) := none
  sync : Option (Nat × Nat) := none
  done : Nat := 0
  /-- The mailbox of the command in progress, and of a ch.clean with the stores it waits for. -/
  mbox : Option Nat := none
  clean : List (Option Nat × List (Nat × Nat × Nat)) := []
  /-- Stores applied and not yet acknowledged, by member, in log order (R103, R107). -/
  log : List ((Nat × Nat) × ChainStore) := []
  /-- The ids of stores that reached a member (R112). -/
  seen : List ((Nat × Nat) × Nat × Nat × Nat) := []
  /-- Being reconfigured, or a frozen foreign record: stores and tail queries wait (R112, R114). -/
  reconf : Bool := false
  /-- The mailbox of a ch.unlink of the head that is draining, and whether the command frees the chain (R111, R116). -/
  handoff : Option Nat := none
  freeing : Bool := false
  deriving DecidableEq, Repr

/-- The foreign record of another package's chain (R114): its owner, context, number and tenant, and the entry. -/
structure Foreign where
  owner : Nat := 0
  ctx : Nat := 0
  ch : Nat := 0
  tenant : Nat := 0
  /-- The share class of the owning context, as its owner announced it (R113). -/
  share : Nat := 0
  e : Chain := {}
  deriving DecidableEq, Repr

/-- A run-out unit (R243 to R246). -/
structure RunOut where
  /-- rothr (0x060). -/
  thr : BitVec 32 := 0
  /-- roquiet (0x061). -/
  quiet : BitVec 32 := 0x00010000
  /-- rostat (0x062): fired, seen, arm and lent. -/
  fired : Bool := false
  seen : Bool := false
  arm : Bool := false
  lent : BitVec 6 := 0
  /-- The quiet count. -/
  count : Nat := 0
  /-- The condition as last seen. -/
  cond : Bool := false
  /-- A quiet interval has been complete while the unit is armed: it fires, whatever is reported from then on (R245). -/
  done : Bool := false
  /-- Reports in their window: member, value, and cycles since they took effect. -/
  reports : List (Nat × Lane × Nat) := []
  deriving DecidableEq, Repr

/-- An ordered domain (R299). -/
structure Domain where
  front : Nat := 0
  next : Nat := 0
  /-- Keys assigned and not committed. -/
  keys : List (Nat × Nat) := []
  deriving DecidableEq, Repr

/-- A placement operation in progress (R69, R70): the page, the source and target dies, the new frame. -/
structure Migration where
  ctx : Nat := 0
  vpage : Nat := 0
  die : Nat := 0
  frame : Nat := 0
  /-- The physical address of the page's leaf entry. -/
  epa : Nat := 0
  /-- A promotion or a demotion: the chain; a promotion's dies still to join. -/
  chain : Option Nat := none
  demote : Bool := false
  join : List Nat := []
  /-- The page was found not present meanwhile (Table 3.6). -/
  absent : Bool := false
  deriving DecidableEq, Repr

/-- A context (R334, and the per-context registers of R347). -/
structure Ctx where
  live : Bool := false
  privileged : Bool := false
  tenant : Nat := 0
  /-- 0 running, 1 pre-empting, 2 pre-empted, 3 killed. -/
  state : Nat := 0
  /-- pmctl (0x120). -/
  pmctl : Word := 0x0000100000400003
  /-- pmctl as it stood at the last epoch boundary, which is what is in force (R68). -/
  pmEff : Word := 0x0000100000400003
  /-- cyc at the last epoch boundary (R68). -/
  epochAt : Nat := 0
  /-- ptbase (0x121). -/
  ptbase : Word := 0
  /-- sigctl (0x122). -/
  sigctl : Word := 0
  /-- fparea (0x125). -/
  fparea : Word := 0
  /-- ovring (0x126). -/
  ovring : Word := 0
  /-- lcbase (0x127). -/
  lcbase : Word := 0
  /-- psave (0x128). -/
  psave : Word := 0
  /-- proof (0x129). -/
  proof : Word := 0
  /-- wdctl (0x12B). -/
  wdctl : Word := 0
  /-- ctvec (0x12C). -/
  ctvec : Word := 0
  /-- ctsave (0x12D). -/
  ctsave : Word := 0
  /-- elog (0x12E). -/
  elog : Word := 0
  /-- sigtext (0x12F). -/
  sigtext : Word := 0
  /-- shcls (0x130), in force at once (R378, R347, log 80 DEDUCED). -/
  shcls : Word := 0
  /-- The group table: ranges of logical cores (R316). -/
  groups : Tbl (List (Nat × Nat)) := []
  launches : Tbl Launch := []
  chains : Tbl Chain := []
  /-- The replay count (R92). -/
  replay : Nat := 0
  /-- Parked triggers in parking order (R88). -/
  parked : List Msg := []
  /-- A pg.replay that waits for the resume (Table 4.9). -/
  replayDue : Bool := false
  /-- The contents of the overflow ring (R294). -/
  ring : List Msg := []
  /-- The proofing store: inbox messages, then arrivals (R336). -/
  store1 : List Msg := []
  store2 : List Msg := []
  runouts : Tbl RunOut := []
  domains : Tbl Domain := []
  /-- The next store id of the device for the context's chains (R103). -/
  dseq : Nat := 0
  /-- Entries written to the error log, and whether a notification is undispatched (R351). -/
  eseq : Nat := 0
  enote : Bool := false
  /-- The saved core states (R336). -/
  saves : Tbl Core := []
  /-- Cores whose save record has been written by software (R335). -/
  altered : List Nat := []
  /-- The default handlers of the loaded image: tag, entry, priority and constant block (R42, R290). -/
  handlers : List (Nat × Nat × Nat × List Word) := []
  /-- An image has been loaded into it (R48). -/
  image : Bool := false
  /-- Regions created with promotion allowed: first address and size (R70). -/
  promo : List (Nat × Nat) := []
  /-- Where each task record was armed: record, core, deadline status (Table 14.13). -/
  armed : List (Nat × Nat) := []
  /-- Cores whose local store must be zero-filled before another context (R369). -/
  scrub : List Nat := []
  deriving DecidableEq, Repr

/-- A fault record of a die (Table 4.7). -/
structure FaultRec where
  count : Nat := 1
  ctx : Nat := 0
  vpage : Nat := 0
  kind : Nat := 0
  held : Bool := false
  cid : Nat := 0
  deriving DecidableEq, Repr

/-- A requester that waits for a walk: its core, its access, and whether its activation stands behind it (R85). -/
structure Waiter where
  core : Nat := 0
  acc : Acc := .read
  va : Nat := 0
  /-- The access belongs to an engine. -/
  engine : Bool := false
  /-- The waiting activation and its instruction: the activation's sequence number, and the program counter. -/
  seq : Nat := 0
  pc : Nat := 0
  deriving DecidableEq, Repr

/-- A pending miss of a slice (R85), with the replay count at the start of its walk (R92). -/
structure Miss where
  ctx : Nat := 0
  vpage : Nat := 0
  stamp : Nat := 0
  /-- Its walk is one of the slice's eight in flight. -/
  walking : Bool := false
  waiters : List Waiter := []
  deriving DecidableEq, Repr

/-- The translation hardware of one slice (R85, R99). -/
structure Xlate where
  tlb : List Leaf := []
  /-- Cached table pointers, oldest first: context, level of the node pointed to, first address covered, and the node. -/
  ptc : List (Nat × Nat × Nat × Nat) := []
  misses : List Miss := []
  locks : List Leaf := []
  deriving DecidableEq, Repr

/-- The directory entry of a line (R123): cluster bits of the home die, die bits, and invalidations not acknowledged. -/
structure Sharers where
  clusters : List Nat := []
  dies : List Nat := []
  busy : List Nat := []
  /-- The core whose own copy was updated in place by the change being performed. -/
  keep : Option Nat := none
  deriving DecidableEq, Repr

/-- A die: its fault buffer and readiness (R90, R386). -/
structure Die where
  fbuf : List FaultRec := []
  dropped : Bool := false
  ready : Bool := false
  tested : Bool := false
  lost : Bool := false
  /-- The slices that have reported ready. -/
  slices : List Nat := []
  /-- A spare cluster is still free (R363). -/
  spare : Bool := true
  deriving DecidableEq, Repr

/-- A queued task (R309): its trigger, the cycle in which it first became queued, its migratable bit, and whether it waits
for a replay because its footprint faulted (R87). -/
structure Ready where
  m : Msg := {}
  since : Nat := 0
  mig : Bool := false
  waits : Bool := false
  deriving DecidableEq, Repr

/-- A cluster: its inbox, ready queue and spare (R294, R309, R363). -/
structure Cluster where
  inbox : List Msg := []
  ready : List Ready := []
  spare : Bool := true
  /-- A remap of the cluster or of one of its cores is in progress (Table 17.7). -/
  remap : Bool := false
  /-- Declared lost, by itself or with its die (R367). -/
  lost : Bool := false
  deriving DecidableEq, Repr

/-- An entry of a combining table (R131): its members, by port and arrival. -/
structure CombEntry where
  id : Nat := 0
  since : Nat := 0
  window : Nat := 0
  members : List (Nat × AtomReq) := []
  deriving DecidableEq, Repr

/-- A crumb (R132, R135): its two copies, each listing the members in the order of R133 by input port and request; a copy
with an uncorrectable error is none. -/
structure Crumb where
  first : Option (List (Nat × AtomReq)) := none
  second : Option (List (Nat × AtomReq)) := none
  deriving DecidableEq, Repr

/-- A combining unit (R131, R132): open entries, and the crumb store. -/
structure CombUnit where
  entries : List CombEntry := []
  crumbs : Tbl Crumb := []
  next : Nat := 0
  /-- Crumb rows retired (R135). -/
  retired : Nat := 0
  removed : Bool := false
  deriving DecidableEq, Repr

/-- A gate table entry (R339). -/
structure GateEntry where
  id : Nat := 0
  ctx : Nat := 0
  group : Nat := 0
  action : Nat := 0
  partly : Bool := false
  guard : Nat := 0
  entry : Nat := 0
  deriving DecidableEq, Repr

/-- The states of a participant (Table 15.11). -/
inductive GateState where
  | waiting | armed | go
  deriving DecidableEq, Repr

/-- A gate in progress at its coordinator (Table 15.12). -/
structure Coord where
  p : GatePost := {}
  ctx : Nat := 0
  ncore : Nat := 0
  ntag : Nat := 0
  pkgs : List Nat := []
  /-- Packages armed, with their degraded flag. -/
  armed : List (Nat × Bool) := []
  decided : Bool := false
  /-- GO marked now is to be sent at T. -/
  late : Bool := false
  deriving DecidableEq, Repr

/-- A host mailbox (R374). -/
structure Mailbox where
  status : Nat := 0
  /-- The response and the status that the completion will write. -/
  resp : List Byte := []
  result : Nat := 2
  /-- The doorbell: the command and the request's length. -/
  door : Word := 0
  /-- Bytes 0x000 to 0xFBF, from the first on: requests that the host has written, and responses over them; zeros behind the last. -/
  page : List Byte := []
  deriving DecidableEq, Repr

/-- An Ethernet queue pair (R380): its context and the physical addresses of its rings' control blocks. -/
structure QueuePair where
  ctx : Nat := 0
  vlan : Nat := 0
  mac : Nat := 0
  tx : Nat := 0
  rx : Nat := 0
  sent : List (List Byte) := []
  dropped : Nat := 0
  unsent : Nat := 0
  deriving DecidableEq, Repr

/-- A health log entry (R387): class, detail, address and time. -/
structure Health where
  cls : Nat := 0
  detail : Nat := 0
  addr : Nat := 0
  time : Nat := 0
  /-- The compute die of the detecting unit; none for the hub die (Table 16.10). -/
  die : Option Nat := none
  deriving DecidableEq, Repr

/-- A slot of the key table (R73): an enable bit, the two keys of AES-256-XTS, and the tag key. -/
structure KeySlot where
  en : Bool := false
  k1 : BitVec 256 := 0
  k2 : BitVec 256 := 0
  tagKey : BitVec 256 := 0
  deriving DecidableEq, Repr

/-- What leaves the package (R376, R341, R103). -/
inductive Out where
  | ual (pkg : Nat) (r : UalReq)
  | gate (pkg : Nat) (i : Instr)
  | chain (pkg : Nat) (st : ChainStore)
  | reply (pkg rtag : Nat) (v : Word)
  | msix (vec : Nat)
  | refused (pkg : Nat) (r : UalReq)
  | postRefused (pkg : Nat) (p : GatePost)
  deriving DecidableEq, Repr

/-- The units of the package. -/
structure Pkg where
  /-- pkg (0x004), 10 bits. -/
  num : Nat := 0
  /-- cyc (0x011). -/
  cyc : Word := 0
  /-- now (0x010). -/
  now : Word := 0
  /-- The servo's slew in parts per million (R381), and the part of a nanosecond that now has still to gain or lose by it, in
  millionths. -/
  slew : Int := 0
  slewAcc : Int := 0
  /-- A context has been created (R381). -/
  created : Bool := false
  locked : Bool := false
  everLocked : Bool := false
  /-- The estimate of the time error in ns (R382), and ns for which it has stayed below 500. -/
  terr : Nat := 0
  calm : Nat := 0
  clkdeg : Bool := false
  /-- fbnote (0x123). -/
  fbnote : Word := 0
  /-- cbctl (0x124). -/
  cbctl : Word := 0x1041
  gates : List GateEntry := []
  parts : List (GatePost × GateState) := []
  coords : List Coord := []
  /-- UALink keys by tenant (R376), HBM key slots by tenant (R73), frame owners (R376). -/
  keys : Tbl Word := []
  enc : Tbl KeySlot := []
  owners : Tbl Nat := []
  /-- The slot under whose keys a sector was last written, if it was enabled (R73, R75). -/
  sectag : Tbl KeySlot := []
  /-- Share weights: port * 32 + class (Table 17.4). -/
  weights : Tbl Byte := []
  /-- Reserved in-die ranges for remote chains: die, base, pages, tenant (R113). -/
  reserved : List (Nat × Nat × Nat × Nat) := []
  /-- Foreign and frozen chain records (R114). -/
  foreign : List Foreign := []
  /-- Lost links, by package and die (R112). -/
  lostLinks : List (Nat × Nat) := []
  /-- Window pages granted to the host (R372). -/
  windows : List Nat := []
  mbx : Tbl Mailbox := []
  qps : Tbl QueuePair := []
  health : List Health := []
  /-- Readiness of the hub die, HBM stacks, UALink ports, Ethernet ports, host link, management port (R386). -/
  hub : Bool := false
  hbm : List Nat := []
  ual : List Nat := []
  eth : List Nat := []
  pcie : Bool := false
  mgmt : Bool := false
  femos : Bool := false
  /-- The running image's version and measurement, the fused counter, and recovery (R383). -/
  imgVer : Nat := 0
  measure : Nat := 0
  fused : Nat := 0
  recovery : Bool := false
  /-- Repairs made, as the repair-map version (R364). -/
  repairs : Nat := 0
  lostLanes : Tbl Nat := []
  /-- Failed rows of queue SRAM, by queue (R362, R363): core inbox c, cluster inbox 4096 + k, ready queue 8192 + k. -/
  rows : Tbl Nat := []
  /-- The sets of a slice's L2, by die * 32 + slice, whose spare way is in use (R363). -/
  ways : List (Nat × Nat) := []
  removedParts : List NetPart := []
  /-- Issue slots withheld (R389), and the shutdown (R388). -/
  withheld : Nat := 0
  down : Bool := false
  deriving DecidableEq, Repr

/-- A turn on the machine's agenda (the model's own, log 5 DESIGN CHOICE): cycles that pass first, and what acts. -/
inductive Turn where
  /-- A core executes; comb: its next combinable add takes the combining path. -/
  | core (dt c : Nat) (comb : Bool)
  /-- A step of the device or of the outside world. -/
  | event (dt : Nat) (i : Instr)
  /-- The k-th of the device's pending steps. -/
  | pending (dt k : Nat)
  deriving DecidableEq, Repr

/-- The machine. -/
structure State where
  cores : Tbl Core := []
  /-- The core whose turn it is (the model's own). -/
  cur : Nat := 0
  ctxs : Tbl Ctx := []
  mem : Mem := []
  /-- Lines that hold uncorrectable data (R138, R353), true for a failed integrity tag. -/
  poison : List (Nat × Bool) := []
  dies : Tbl Die := []
  clusters : Tbl Cluster := []
  /-- Translation by slice: die * 32 + slice. -/
  xl : Tbl Xlate := []
  dir : Tbl Sharers := []
  /-- Monitors at home slices, by the physical address of the slice's line (R258). -/
  mons : List WatchReq := []
  /-- The lines that the slices' L2 arrays hold, oldest first (R120). -/
  l2 : List Nat := []
  /-- Tile-fetch pins: line and holders (R127). -/
  tpins : Tbl Nat := []
  /-- The fetches that wait for a pin, in the order in which they reached their slices: core and line (R127). -/
  pinq : List (Nat × Nat) := []
  /-- Access counts by page (pageKey): the 64 KiB frame at which they were counted, and the counts of eight dies and of writes
  (R67). -/
  counts : Tbl (Nat × List Nat) := []
  migs : List Migration := []
  /-- Frames that the placement engine has freed (R69, R70, log 27 DESIGN CHOICE). -/
  freed : List Nat := []
  /-- Move requests of pg.hint: page (pageKey) and die (R100). -/
  hints : List (Nat × Nat) := []
  units : Tbl CombUnit := []
  pkg : Pkg := {}
  /-- Messages held until their receiver is ready (R72, R386). -/
  heldMsgs : List Msg := []
  /-- Steps of the device that are in progress, oldest first (the model's own, log 5 DESIGN CHOICE). -/
  flight : List Instr := []
  outs : List Out := []
  /-- The next turns (the model's own, log 5 DESIGN CHOICE). -/
  agenda : List Turn := []
  /-- The next combinable add of the current turn takes the combining path (the model's own, log 5 DESIGN CHOICE). -/
  comb : Bool := false
  /-- The counter of free values (the model's own, log 3 DESIGN CHOICE). -/
  tick : Nat := 0
  deriving DecidableEq, Repr

/-- Why the machine stops. -/
inductive Fault where
  /-- Raised by the step alone, after the module has shut down (R388): nothing runs any more. Safe. -/
  | shutDown
  deriving DecidableEq, Repr

/-- Why an instruction has no meaning. -/
inductive Refusal where
  /-- Raised by an arm of exec that has no meaning yet. Safe. -/
  | notModelled (mnemonic : String)
  deriving DecidableEq, Repr

/-- The machine right after reset: every field at the value the spec states, and the values of logs 1 and 2. -/
def State.reset : State := {}

end Sys2Proof.Machine
end

