-- ==== Sys2Proof/Machine/Base.lean ====
section
/-!
DEFINITION. The operations on tables, memory and the current core that every meaning is built from, and the step
monad: a computation that goes on with a state, or ends the instruction early in a state (a trap taken, a stall, a
discard, a kill). Both outcomes are a next state of the machine.
-/
namespace Sys2Proof.Machine

/-! ## The step monad -/

/-- A part of a step. -/
abbrev M := StateT State (Except State)

/-- The outcome of a step. -/
def run (m : M Unit) (s : State) : Host.Outcome State Fault Refusal :=
  match m s with
  | .ok (_, t) => .next t
  | .error t => .next t

/-- The instruction ends here, with nothing more done. -/
def endHere {α : Type} : M α := fun s => .error s

/-- The instruction ends here after one more change. -/
def endWith {α : Type} (f : State → State) : M α := fun s => .error (f s)

/-- A part of a step, under a condition. -/
def onlyIf (c : Bool) (m : M Unit) : M Unit := if c then m else pure ()

/-- A part of a step for each element of a list, in order. -/
def each {α : Type} (xs : List α) (f : α → M Unit) : M Unit :=
  match xs with
  | [] => pure ()
  | x :: rest => do
    f x
    each rest f

/-- A list without its repeats: the first of equal elements stays. -/
def distinct {α : Type} [DecidableEq α] (xs : List α) : List α :=
  xs.foldl (fun seen x => if x ∈ seen then seen else seen ++ [x]) []

/-! ## Tables -/

/-- The entry of a key; the default where there is none. -/
def Tbl.getD {α : Type} (t : Tbl α) (k : Nat) (d : α) : α :=
  match t with
  | [] => d
  | (k', v) :: rest => if k' = k then v else Tbl.getD rest k d

/-- The table with an entry set. -/
def Tbl.put {α : Type} (t : Tbl α) (k : Nat) (v : α) : Tbl α :=
  match t with
  | [] => [(k, v)]
  | (k', v') :: rest => if k' = k then (k, v) :: rest else (k', v') :: Tbl.put rest k v

/-- A key has an entry. -/
def Tbl.has {α : Type} (t : Tbl α) (k : Nat) : Bool := t.any fun e => e.1 == k

/-- The table without a key. -/
def Tbl.del {α : Type} (t : Tbl α) (k : Nat) : Tbl α := t.filter fun e => e.1 != k

/-- Every entry changed. -/
def Tbl.mapv {α : Type} (t : Tbl α) (f : Nat → α → α) : Tbl α := t.map fun e => (e.1, f e.1 e.2)

/-! ## Memory -/

/-- What an unlisted byte of memory reads as (log 2 DESIGN CHOICE). -/
def emptyByte : Byte := 0

/-- The byte at a physical address. -/
def Mem.read (m : Mem) (a : Nat) : Byte :=
  match m with
  | [] => emptyByte
  | (b, x) :: rest => if b = a then x else Mem.read rest a

/-- The cells without an address. -/
def Mem.erase (m : Mem) (a : Nat) : Mem := m.filter fun c => c.1 != a

/-- A cell placed in address order. -/
def Mem.insert (m : Mem) (a : Nat) (x : Byte) : Mem :=
  match m with
  | [] => [(a, x)]
  | (b, y) :: rest => if a < b then (a, x) :: (b, y) :: rest else (b, y) :: Mem.insert rest a x

/-- Memory after a write of one byte: an entry equal to what an unlisted address reads as is not kept. -/
def Mem.write (m : Mem) (a : Nat) (x : Byte) : Mem :=
  if x = emptyByte then m.erase a else (m.erase a).insert a x

/-- Addresses rise strictly from a bound, and no entry equals the unlisted byte. -/
def Mem.risesFrom (lo : Nat) (m : Mem) : Bool :=
  match m with
  | [] => true
  | (a, x) :: rest => decide (lo ≤ a) && x != emptyByte && Mem.risesFrom (a + 1) rest

/-- Memory is in canonical form (log 2 DESIGN CHOICE). -/
def Mem.wf (m : Mem) : Bool := Mem.risesFrom 0 m

/-- The bytes from an address upward. -/
def Mem.readN (m : Mem) (a n : Nat) : List Byte := (List.range n).map fun i => m.read (a + i)

/-- Memory after a write of bytes from an address upward. -/
def Mem.writeN (m : Mem) (a : Nat) (bs : List Byte) : Mem :=
  match bs with
  | [] => m
  | b :: rest => Mem.writeN (m.write a b) (a + 1) rest

/-- Bytes as a number, the first the least significant (R5). -/
def ofBytes (bs : List Byte) : Nat :=
  match bs with
  | [] => 0
  | b :: rest => b.toNat + 256 * ofBytes rest

/-- The n low bytes of a number, the least significant first (R5). -/
def toBytes (n w : Nat) : List Byte :=
  match n with
  | 0 => []
  | n + 1 => BitVec.ofNat 8 w :: toBytes n (w / 256)

/-- A number as a word. -/
def word (n : Nat) : Word := BitVec.ofNat 64 n

/-- The word with bits [hi:lo] of another. -/
def fld (w : Word) (hi lo : Nat) : Nat := bits w.toNat hi lo

/-- The bytes of a vector register, lane 0 first (R191). -/
def vecBytes (x : VWord) : List Byte := x.toList.flatMap fun l => toBytes 4 l.toNat

/-- Lane i from bytes [4i+3:4i] (R252). -/
def vecOfBytes (bs : List Byte) : VWord := Vector.ofFn fun i => BitVec.ofNat 32 (ofBytes ((bs.drop (4 * i.val)).take 4))

/-! ## Cores and contexts -/

/-- A core by its logical id. -/
def State.coreAt (s : State) (c : Nat) : Core := Tbl.getD s.cores c {}
/-- The core whose turn it is. -/
def State.core (s : State) : Core := s.coreAt s.cur
/-- The state with a core set. -/
def State.setCoreAt (s : State) (c : Nat) (x : Core) : State := { s with cores := Tbl.put s.cores c x }
/-- The state with the current core set. -/
def State.setCore (s : State) (x : Core) : State := s.setCoreAt s.cur x
/-- The state with a core changed. -/
def State.onCore (s : State) (c : Nat) (f : Core → Core) : State := s.setCoreAt c (f (s.coreAt c))
/-- A context of the package. -/
def State.ctxAt (s : State) (x : Nat) : Ctx := Tbl.getD s.ctxs x {}
/-- The state with a context changed. -/
def State.onCtx (s : State) (x : Nat) (f : Ctx → Ctx) : State := { s with ctxs := Tbl.put s.ctxs x (f (s.ctxAt x)) }
/-- A core's state for a context: on the core, or in the save area while the context is pre-empted (R135, R315, R336). -/
def State.holder (s : State) (c ctx : Nat) : Core :=
  if Tbl.has (s.ctxAt ctx).saves c then Tbl.getD (s.ctxAt ctx).saves c {} else s.coreAt c
/-- The state with a core's state for a context changed. -/
def State.onHolder (s : State) (c ctx : Nat) (f : Core → Core) : State :=
  if Tbl.has (s.ctxAt ctx).saves c then
    s.onCtx ctx fun y => { y with saves := Tbl.put y.saves c (f (Tbl.getD y.saves c {})) }
  else s.onCore c f
/-- The context of the current core's activation. -/
def State.ctxNo (s : State) : Nat := s.core.ctx.getD 0
/-- A die. -/
def State.dieAt (s : State) (d : Nat) : Die := Tbl.getD s.dies d {}
/-- The state with a die changed. -/
def State.onDie (s : State) (d : Nat) (f : Die → Die) : State := { s with dies := Tbl.put s.dies d (f (s.dieAt d)) }
/-- A cluster, by die * 32 + cluster. -/
def State.clusterAt (s : State) (k : Nat) : Cluster := Tbl.getD s.clusters k {}
/-- The state with a cluster changed. -/
def State.onCluster (s : State) (k : Nat) (f : Cluster → Cluster) : State :=
  { s with clusters := Tbl.put s.clusters k (f (s.clusterAt k)) }
/-- The state with the package's units changed. -/
def State.onPkg (s : State) (f : Pkg → Pkg) : State := { s with pkg := f s.pkg }
/-- A step of the device put in progress. -/
def State.launch (s : State) (i : Instr) : State := { s with flight := s.flight ++ [i] }

/-- The current core changed. -/
def modCore (f : Core → Core) : M Unit := modify fun s => s.setCore (f s.core)
/-- A context changed. -/
def modCtx (x : Nat) (f : Ctx → Ctx) : M Unit := modify fun s => s.onCtx x f
/-- The current core. -/
def core : M Core := do
  let s ← get
  pure s.core
/-- The current core waits: it keeps its program counter, and the machine goes on with other steps (log 5 DESIGN CHOICE). -/
def stall {α : Type} : M α := endWith fun s => s.setCore { s.core with stalled := true }
/-- The current core waits at a queue port (R270). -/
def stallAtPort {α : Type} : M α := endWith fun s => s.setCore { s.core with stalled := true, portAt := some s.core.icount }
/-- The core's next instruction waits for another core: at a queue port, or held on a page (R270, R87). -/
def Core.blocked (c : Core) : Bool := c.held.isSome || c.portAt == some c.icount

/-- The current core waits while a condition holds. -/
def waitWhile (f : State → Bool) : M Unit := do
  let s ← get
  if f s then stall else pure ()

/-- The die of a core (Table 0.2). -/
def dieOf (c : Nat) : Nat := c / 512
/-- The cluster of a core within the package, cid[11:4]. -/
def clusterOf (c : Nat) : Nat := c / 16

/-! ## Register files (R12, R13) -/

/-- The neighbour queue port that a scalar register names (Table 1.4). -/
def portOf (n : SReg) : Option Nat := if 56 ≤ n.toNat ∧ n.toNat < 60 then some (n.toNat - 56) else none

/-- A read of a scalar register: s0 reads as zero (R13). -/
def Core.getS (c : Core) (n : SReg) : Word := if n = 0 then 0 else c.s[n.toNat]'(n.isLt)
/-- A write to a scalar register: a write to s0 is discarded (R13). -/
def Core.setS (c : Core) (n : SReg) (w : Word) : Core :=
  if n = 0 then c else { c with s := c.s.set n.toNat w n.isLt }
/-- A read of a vector register. -/
def Core.getV (c : Core) (n : VReg) : VWord := c.v[n.toNat]'(n.isLt)
/-- A write to a vector register. -/
def Core.setV (c : Core) (n : VReg) (x : VWord) : Core := { c with v := c.v.set n.toNat x n.isLt }
/-- A read of a predicate. -/
def Core.getP (c : Core) (n : PReg) : PWord := c.p[n.toNat]'(n.isLt)
/-- A write to a predicate. -/
def Core.setP (c : Core) (n : PReg) (x : PWord) : Core := { c with p := c.p.set n.toNat x n.isLt }
/-- A read of a constant-bank entry. -/
def Core.getK (c : Core) (n : BitVec 6) : Word := c.k[n.toNat]'(n.isLt)

/-- The vector register q of block gN (R15, R227). -/
def blockReg (g : GReg) (q : Nat) : VReg := BitVec.ofNat 6 (8 * g.toNat + q)
/-- The five registers of a block. -/
def Core.getG (c : Core) (g : GReg) : List VWord := (List.range 5).map fun q => c.getV (blockReg g q)
/-- A block written from a register onward. -/
def Core.setGFrom (c : Core) (g : GReg) (q : Nat) (xs : List VWord) : Core :=
  match xs with
  | [] => c
  | x :: rest => Core.setGFrom (c.setV (blockReg g q) x) g (q + 1) rest
/-- A block written. -/
def Core.setG (c : Core) (g : GReg) (xs : List VWord) : Core := c.setGFrom g 0 xs

/-! ## Lookahead (R19 to R21) -/

/-- The registers that a pending result writes, each by its class and its number: a block is also its five vector registers
(R15, R227). -/
def RegVal.regs : RegVal → List (Nat × Nat)
  | .s n _ => [(0, n.toNat)]
  | .v n _ => [(1, n.toNat)]
  | .g n _ => (2, n.toNat) :: (List.range 5).map fun q => (1, 8 * n.toNat + q)
  | .t n _ => [(3, n.toNat)]

/-- Two pending results write a register in common. -/
def RegVal.meets (a b : RegVal) : Bool := a.regs.any b.regs.contains

/-- A tile set, with its mark. -/
def Matrix.setTile (m : Matrix) (t : TReg) (x : MTile) : Matrix := { m with tiles := m.tiles.set t.toNat x t.isLt }
/-- A tile read. -/
def Matrix.tile (m : Matrix) (t : TReg) : MTile := m.tiles[t.toNat]'(t.isLt)

/-- The result of a completed matrix command takes effect; a command that was dropped has none. -/
def Matrix.publish (m : Matrix) (id : Nat) : Matrix :=
  match m.held.find? fun h => h.1 == id with
  | some h => { m.setTile h.2.1 h.2.2 with held := m.held.filter fun x => x.1 != id }
  | none => m

/-- The window of a matrix command has ended: its result takes effect behind the commands that are queued (R210). -/
def Matrix.windowEnd (m : Matrix) (id : Nat) : Matrix :=
  if m.queue = [] then m.publish id else { m with queue := m.queue ++ [{ op := .publish id }] }

/-- A register result takes effect. -/
def Core.apply (c : Core) (r : RegVal) : Core :=
  match r with
  | .s n w => c.setS n w
  | .v n x => c.setV n x
  | .g n x => c.setG n x
  | .t _ id => { c with mx := c.mx.windowEnd id }

/-- The results that take effect when an instruction retires, youngest first, and those that stay: a result whose
window has ended waits for its value, and for the pending results of younger instructions to a register in common (R19). -/
def duePends (ps : List Pend) : List RegVal × List Pend :=
  match ps with
  | [] => ([], [])
  | p :: rest =>
    let (now, stay) := duePends rest
    if p.left = 0 && p.wait.isNone && !(stay.any fun q => q.val.meets p.val) then (now ++ [p.val], stay)
    else (now, p :: stay)

/-- The results that are due among some pending ones take effect, and the others stay pending. -/
def Core.settle (c : Core) (ps : List Pend) : Core :=
  let (now, stay) := duePends ps
  now.foldl Core.apply { c with pend := stay }

/-- One instruction of every open window has retired. -/
def Core.tickWindows (c : Core) : Core := c.settle (c.pend.map fun p => { p with left := p.left - 1 })

/-- Every window closes, and every pending result takes effect, youngest first (Table 1.6); one whose value has not come stays
pending. -/
def Core.closeWindows (c : Core) : Core := c.settle (c.pend.map fun p => { p with left := 0 })

/-- A lookahead window is open (R19). -/
def Core.windowOpen (c : Core) : Bool := c.pend.any fun p => decide (0 < p.left)

/-- The result of an L- or M-format instruction that is about to retire: at once, or after its window, which its own
retirement does not count in (R19, R20). -/
def Core.result (c : Core) (r : RegVal) (la : BitVec 4) : Core :=
  if la = 0 then c.apply r else { c with pend := c.pend ++ [⟨r, la.toNat + 1, none⟩] }

/-- The result of an atomic that is about to retire with its reply outstanding, under the tag of its request: it takes effect as
R19 gives when the reply has come (R130, R135). -/
def Core.awaits (c : Core) (rd : SReg) (la : BitVec 4) (rtag : Nat) : Core :=
  { c with pend := c.pend ++ [⟨.s rd 0, la.toNat + 1, some rtag⟩] }

/-- A core without an outstanding atomic whose result never comes: the register keeps its old value (Table 1.6). -/
def Core.forgets (c : Core) (rtag : Nat) : Core :=
  { c with outst := c.outst.filter fun q => q.rtag != rtag }.settle (c.pend.filter fun p => p.wait != some rtag)

/-! ## Retiring (R18, R188) -/

/-- The end-of-iteration step, and the address that follows (R188). -/
def Loop.turn (l : Loop) (pc : BitVec 52) : Loop × BitVec 52 :=
  let l := if l.pnd then { l with lc := l.pending, pnd := false } else l
  if l.lc.toNat ≤ 1 then ({ l with lc := 0, act := false }, pc + 4)
  else ({ l with lc := l.lc - 1 }, BitVec.ofNat 52 l.ls)

/-- The current instruction retires at the loop's level (R188). -/
def Core.atLoop (c : Core) : Bool := c.lp.act && c.tlv.toNat == c.lp.level && c.lp.depth == 0

/-- The loop registers and the address after an instruction that does not itself transfer control. -/
def Core.fallThrough (c : Core) : Loop × BitVec 52 :=
  if c.atLoop && c.pc.toNat == c.lp.le then c.lp.turn c.pc else (c.lp, c.pc + 4)

/-- The current core after its instruction has retired: the program counter moves on, or the loop turns. -/
def Core.retired (c : Core) : Core :=
  let (l, pc) := c.fallThrough
  ({ c with
    lp := l, pc := pc, icount := c.icount + 1, stalled := false, hostWait := false, hostRd := none, hostGot := [] }).tickWindows

/-- The instruction retires. -/
def retire : M Unit := modCore Core.retired

/-- The current core after a transfer of control to an address (R183, R184). -/
def Core.jumped (c : Core) (target : BitVec 52) : Core :=
  ({ c with pc := target, icount := c.icount + 1, stalled := false }).tickWindows

/-- The instruction retires and control goes to an address. -/
def retireTo (target : BitVec 52) : M Unit := modCore fun c => c.jumped target

/-- The instruction retires with a register result under its lookahead field (R19). -/
def retireWith (r : RegVal) (la : BitVec 4) : M Unit := modCore fun c => (c.result r la).retired

/-- A free choice among n things, by the counter of free values (R8, log 15 DESIGN CHOICE). -/
def choose (n : Nat) : M Nat := do
  let s ← get
  pure (Config.freeChoice s.tick n % max n 1)

/-- A step goes on waiting: ahead of the later ones that satisfy a test, and behind what else is in progress. -/
def placeBefore (p : Instr → Bool) (i : Instr) (is : List Instr) : List Instr := (is.filter fun x => !p x) ++ i :: is.filter p

end Sys2Proof.Machine
end

