-- ==== Sys2Proof/Machine/Device.lean ====
section
/-!
DEFINITION. The parts of the device that every meaning meets: the physical map, home slices, the caches' directory,
access counts, monitors, messages on their way, and the context error log.
-/
namespace Sys2Proof.Machine

/-! ## The physical map (R55, R56, R65, R121) -/

/-- The HBM of one die. -/
def hbmDie : Nat := 0x1800000000
/-- The first byte of the local-store row of Table 3.1. -/
def lsRow : Nat := 0x10000000000
/-- The bytes of a local store. -/
def lsSize : Nat := 0x40000

/-- PA[51:42], the package. -/
def paPkg (pa : Nat) : Nat := pa / 2 ^ 42
/-- PA[41:0], the package-local address. -/
def paLocal (pa : Nat) : Nat := pa % 2 ^ 42

/-- The rows of Table 3.1. -/
inductive Row where
  | hbm | localStore | device | host | reserved
  deriving DecidableEq, Repr

/-- The port of another package refuses a request (R377): what its tables hold is open (log 14 DESIGN CHOICE). -/
def refuses (s : State) (p : Nat) : Bool := p != s.pkg.num && Config.freeRefusal s.tick p

/-- The row of Table 3.1 that holds an address. -/
def rowOf (pa : Nat) : Row :=
  let a := paLocal pa
  if a < 0xC000000000 then .hbm
  else if a < 0x10000000000 then .reserved
  else if a < 0x10040000000 then .localStore
  else if a < 0x18000000000 then .reserved
  else if a < 0x20000000000 then .device
  else .host

/-- The line of an address. -/
def lineOf (pa : Nat) : Nat := pa / 64 * 64

/-- The die whose HBM holds an address. -/
def hbmDieOf (pa : Nat) : Nat := paLocal pa / hbmDie

/-- The offset of an HBM address in its die: A of R56 and R121. -/
def inDie (pa : Nat) : Nat := paLocal pa - hbmDieOf pa * hbmDie

/-- The HBM4E stack that holds a line: 2d + A[12] (R56). -/
def hbmStack (pa : Nat) : Nat := 2 * hbmDieOf pa + bits (inDie pa) 12 12

/-- The byte address of an HBM address within its stack: (A[41:13] << 12) | A[11:0] (R56). -/
def hbmStackByte (pa : Nat) : Nat := bits (inDie pa) 41 13 <<< 12 ||| bits (inDie pa) 11 0

/-- The home slice of a line within its die (R121). -/
def homeSlice (pa : Nat) : Nat :=
  let a := inDie pa
  (bits a 10 6) ^^^ (bits a 15 11) ^^^ (bits a 20 16) ^^^ (bits a 25 21) ^^^ (bits a 30 26) ^^^ (bits a 35 31) ^^^
    (bits a 40 36)

/-- The slice of a die that translates an address for a context (R84). -/
def xlSlice (va ctx : Nat) : Nat :=
  (bits va 25 21) ^^^ (bits va 30 26) ^^^ (bits va 35 31) ^^^ (bits va 40 36) ^^^ (bits va 45 41) ^^^ (bits va 50 46) ^^^
    (bits va 51 51) ^^^ (ctx % 32)

/-- The physical address of a byte of a core's local store in the own package. -/
def lsPa (s : State) (c off : Nat) : Nat := s.pkg.num * 2 ^ 42 + lsRow + c * lsSize + off

/-- The core whose local store holds an address of the local-store row. -/
def lsCore (pa : Nat) : Nat := (paLocal pa - lsRow) / lsSize

/-- The physical address of a byte of the image of a core's local store in a context's save area (R335). -/
def imagePa (s : State) (ctx c off : Nat) : Nat :=
  (s.ctxAt ctx).psave.toNat % 2 ^ 52 / 2 ^ 27 * 2 ^ 27 + 0x8000000 + c * lsSize + off

/-- Where a context's access to a local-store address acts: the local store while the owner is resident for the
context, else the context's image (R251, R338). -/
def lsRedirect (s : State) (ctx pa : Nat) : Nat :=
  if rowOf pa = .localStore && paPkg pa == s.pkg.num then
    let c := lsCore pa
    if (s.coreAt c).ctx = some ctx then pa else imagePa s ctx c ((paLocal pa - lsRow) % lsSize)
  else pa

/-- The address lies in the own package's HBM. -/
def ownHbm (s : State) (pa : Nat) : Bool := rowOf pa == .hbm && paPkg pa == s.pkg.num

/-- The physical address of an in-die offset on a die of the own package. -/
def diePa (s : State) (d off : Nat) : Nat := s.pkg.num * 2 ^ 42 + d * hbmDie + off

/-- The physical address of an in-die offset at a link (R101). -/
def linkPa (l : Nat × Nat) (off : Nat) : Nat := l.1 * 2 ^ 42 + l.2 * hbmDie + off

/-! ## Groups (R316) -/

/-- A core is a member of a group. -/
def inGroup (s : State) (ctx g c : Nat) : Bool :=
  (Tbl.getD (s.ctxAt ctx).groups g []).any fun r => decide (r.1 ≤ c) && decide (c ≤ r.2)

/-- A group exists: its entry lists a range. -/
def groupExists (s : State) (ctx g : Nat) : Bool := Tbl.has (s.ctxAt ctx).groups g

/-- A core belongs to some group of the context. -/
def inAnyGroup (s : State) (ctx c : Nat) : Bool :=
  (s.ctxAt ctx).groups.any fun e => e.2.any fun r => decide (r.1 ≤ c) && decide (c ≤ r.2)

/-- The members of a range list, in ascending order without repeats. -/
def members (rs : List (Nat × Nat)) : List Nat :=
  (List.range 4096).filter fun c => rs.any fun r => decide (r.1 ≤ c) && decide (c ≤ r.2)

/-- The members of a group. -/
def groupMembers (s : State) (ctx g : Nat) : List Nat := members (Tbl.getD (s.ctxAt ctx).groups g [])

/-- The ready members of a group. -/
def readyMembers (s : State) (ctx g : Nat) : List Nat := (groupMembers s ctx g).filter fun c => (s.coreAt c).ready

/-- The lowest-numbered live die of a group (R316, R321). -/
def liveDie (s : State) (ctx g : Nat) : Option Nat :=
  (List.range 8).find? fun d => !(s.dieAt d).lost && (readyMembers s ctx g).any fun c => dieOf c == d

/-! ## Device register space (Tables 17.4 to 17.7) -/

/-- Bits set for the numbers below n that satisfy a test. -/
def maskOf (n : Nat) (f : Nat → Bool) : Nat := ((List.range n).map fun i => flag (f i) i).sum

/-- The package readiness word (Table 17.5). -/
def packageWord (s : State) : Nat :=
  let p := s.pkg
  maskOf 8 (fun d => (s.dieAt d).ready) + flag p.hub 8 + flag p.femos 9 + flag p.pcie 10 + flag p.locked 11 +
    flag p.clkdeg 12 + maskOf 16 p.hbm.contains * 2 ^ 16 + maskOf 24 p.ual.contains * 2 ^ 32 +
    maskOf 2 p.eth.contains * 2 ^ 56 + flag p.mgmt 58

/-- A cluster of a die is ready: its slice and its cores have reported (log 15 DESIGN CHOICE). -/
def clusterReady (s : State) (k : Nat) : Bool :=
  (s.dieAt (k / 32)).slices.contains (k % 32) && (List.range 16).all fun i => (s.coreAt (k * 16 + i)).ready

/-- The word of a die (Table 17.6). -/
def dieWord (s : State) (d : Nat) : Nat :=
  maskOf 32 (fun k => clusterReady s (32 * d + k)) + flag (s.dieAt d).tested 32 + flag (s.dieAt d).lost 33

/-- The word of a cluster (Table 17.7). -/
def clusterWord (s : State) (k : Nat) : Nat :=
  maskOf 16 (fun i => (s.coreAt (k * 16 + i)).ready) + flag ((s.dieAt (k / 32)).slices.contains (k % 32)) 16 +
    flag ((s.clusterAt k).remap || (List.range 16).any fun i => (s.coreAt (k * 16 + i)).remap) 17

/-- A byte of device register space; an unassigned offset reads as zero. -/
def deviceByte (s : State) (off : Nat) : Byte :=
  let of := fun (w : Nat) => BitVec.ofNat 8 (w >>> (8 * (off % 8)))
  if off < 8 then of (packageWord s)
  else if off < 0x48 then of (dieWord s (off / 8 - 1))
  else if 0x100 ≤ off ∧ off < 0x900 then of (clusterWord s ((off - 0x100) / 8))
  else if 0x10000 ≤ off ∧ off < 0x10300 then Tbl.getD s.pkg.weights (off - 0x10000) 0
  else if 0x20000 ≤ off ∧ off < 0x30000 then Config.freeByte s.tick off
  else 0

/-- Bytes of device register space. -/
def deviceRead (s : State) (pa n : Nat) : List Byte :=
  (List.range n).map fun i => deviceByte s (paLocal pa - 0x18000000000 + i)

/-! ## Memory with its errors -/

/-- A line holds uncorrectable data. -/
def poisoned (s : State) (pa : Nat) : Bool := s.poison.any fun e => e.1 == lineOf pa

/-- The error-log class of an uncorrectable line (R355): 0x22 for a failed tag, else 0x21. -/
def poisonClass (s : State) (pa : Nat) : Nat := if s.poison.any fun e => e.1 == lineOf pa && e.2 then 0x22 else 0x21

/-- Bytes written to physical memory; a line written whole loses its poison (R138). -/
def State.writePa (s : State) (pa : Nat) (bs : List Byte) : State :=
  { s with mem := s.mem.writeN pa bs,
           poison := s.poison.filter fun e => !(decide (pa ≤ e.1) && decide (e.1 + 64 ≤ pa + bs.length)) }

/-- Bytes at physical addresses written as one change; a line written whole loses its poison (R138). -/
def State.writeCells (s : State) (cs : List (Nat × Byte)) : State :=
  { s with mem := cs.foldl (fun (m : Mem) (c : Nat × Byte) => m.write c.1 c.2) s.mem,
           poison := s.poison.filter fun e => !((List.range 64).all fun i => cs.any fun c => c.1 == e.1 + i) }

/-- Bytes read from physical memory. -/
def State.readPa (s : State) (pa n : Nat) : List Byte := s.mem.readN pa n

/-- Bytes at a physical address: memory, or the registers of device space (R385). -/
def State.bytesAt (s : State) (pa n : Nat) : List Byte := if rowOf pa = .device then deviceRead s pa n else s.readPa pa n

/-- A doubleword of physical memory. -/
def State.read64 (s : State) (pa : Nat) : Word := word (ofBytes (s.readPa pa 8))

/-- A doubleword written to physical memory. -/
def State.write64 (s : State) (pa : Nat) (w : Word) : State := s.writePa pa (toBytes 8 w.toNat)

/-! ## Messages on their way (R287, R288) -/

/-- A message is sent to its core: its arrival is a step to come. -/
def State.send (s : State) (m : Msg) : State := s.launch (.messageArrival m)

/-- A message of a device unit to a core of the own package, with the tag's default handler. -/
def unitMsg (s : State) (ctx core tag : Nat) (pay : List Word) : Msg :=
  { scid := 0xFFF, spkg := s.pkg.num, ctx := ctx, tag := tag, dcore := core, pay := pay ++ List.replicate (8 - pay.length) 0 }

/-! ## Page table entries, and the pages of a context (R76 to R80) -/

/-- A table pointer is malformed (R77): the level it stands at fixes the size of the next node, and at level 0, below which there
is none, no pointer is well-formed (log 69 DESIGN CHOICE). -/
def badPointer (pkg level w0 w1 : Nat) : Bool :=
  let lg := match level with
    | 3 => 16
    | 2 => 13
    | _ => 9
  bits w0 63 52 != 0 || bits w0 8 2 != 0 || w1 != 0 || bits w0 51 42 != pkg || bits w0 (lg - 1) 9 != 0 && lg != 9 || level == 0

/-- log2 of the page that a leaf at a level maps (Table 4.1). -/
def leafLg (level : Nat) : Nat :=
  match level with
  | 2 => 30
  | 1 => 21
  | _ => 16

/-- The frame of a leaf: PA[51:13]. -/
def leafFrame (w0 : Nat) : Nat := bits w0 51 13 * 2 ^ 13
/-- The class of a leaf: 0 local, 1 striped, 2 chain. -/
def leafClass (w0 : Nat) : Nat := bits w0 9 8

/-- A leaf at a level is malformed (R79, R80, R57). A striped leaf whose home field is not 0 is one too: Table 4.2 gives that
field the value 0, and the list of R79 is silent on it (log 69 DESIGN CHOICE). -/
def badLeaf (pkg level w0 : Nat) : Bool :=
  let cls := leafClass w0
  let f := leafFrame w0
  let home := bits w0 12 10
  let lg := leafLg level
  bits w0 55 52 != 0 || (bits w0 63 56 != 0 && cls != 2) || cls == 3 || level == 3 || (cls != 0 && level != 0) ||
  (bit w0 3 && !bit w0 2) ||
  (match cls with
   | 0 =>
     f % 2 ^ lg != 0 ||
     (match rowOf f with
      | .hbm => if paPkg f = pkg then home != hbmDieOf f else home != 0
      | .localStore => paPkg f == pkg || level != 0 || home != 0
      | .device => home != 0
      | .host => home != 0
      | .reserved => true)
   | 1 => home != 0 || paPkg f != pkg || hbmDie ≤ paLocal f + 0x2000 - 1
   | _ => f % 2 ^ lg != 0 || paPkg f != 0 || hbmDie ≤ paLocal f)

/-- The indices of a node that hold something: an entry that is present has a nonzero first byte (R77). -/
def usedEntries (s : State) (node n : Nat) : List Nat :=
  s.mem.filterMap fun c => if node ≤ c.1 ∧ c.1 < node + 16 * n ∧ (c.1 - node) % 16 = 0 then some ((c.1 - node) / 16) else none

/-- The entries of a node of a level (R77). -/
def nodeSize (lvl : Nat) : Nat :=
  match lvl with
  | 0 => 32
  | 1 => 512
  | 2 => 4096
  | _ => 1024

/-- The well-formed large leaves below a node: the number of the page's first 64 KiB, the first word, and the level. -/
def largeBelow (s : State) : Nat → Nat → Nat → List (Nat × Nat × Nat)
  | 0, _, _ => []
  | lvl + 1, node, vp => (usedEntries s node (nodeSize (lvl + 1))).flatMap fun i =>
      let w0 := (s.read64 (node + 16 * i)).toNat
      let w1 := (s.read64 (node + 16 * i + 8)).toNat
      let k := vp * nodeSize (lvl + 1) + i
      if w0 % 4 = 2 && !badLeaf s.pkg.num (lvl + 1) w0 then [(k * 2 ^ (leafLg (lvl + 1) - 16), w0, lvl + 1)]
      else if w0 % 4 = 1 && !badPointer s.pkg.num (lvl + 1) w0 w1 then largeBelow s lvl (bits w0 51 9 * 512) k else []

/-- The well-formed 64 KiB leaves below a node: the page, the first word, and the entry's address. -/
def leavesBelow (s : State) : Nat → Nat → Nat → List (Nat × Nat × Nat)
  | 0, node, vp => (usedEntries s node 32).filterMap fun i =>
      let epa := node + 16 * i
      let w0 := (s.read64 epa).toNat
      if w0 % 4 = 2 && !badLeaf s.pkg.num 0 w0 then some (vp * 32 + i, w0, epa) else none
  | lvl + 1, node, vp =>
    (usedEntries s node (nodeSize (lvl + 1))).flatMap fun i =>
      let w0 := (s.read64 (node + 16 * i)).toNat
      let w1 := (s.read64 (node + 16 * i + 8)).toNat
      if w0 % 4 = 1 && !badPointer s.pkg.num (lvl + 1) w0 w1 then
        leavesBelow s lvl (bits w0 51 9 * 512) (vp * nodeSize (lvl + 1) + i)
      else []

/-- The 64 KiB pages of a context. -/
def pagesOf (s : State) (ctx : Nat) : List (Nat × Nat × Nat) :=
  let r := (s.ctxAt ctx).ptbase
  if bit r.toNat 0 then leavesBelow s 3 (fld r 51 14 * 2 ^ 14) 0 else []

/-- The large pages of a context. -/
def largePagesOf (s : State) (ctx : Nat) : List (Nat × Nat × Nat) :=
  let r := (s.ctxAt ctx).ptbase
  if bit r.toNat 0 then largeBelow s 3 (fld r 51 14 * 2 ^ 14) 0 else []

/-! ## Caches (R120, R122, R123) -/

/-- A line added to a set of a cache of so many ways, the oldest of the set leaving silently when it is full; lines are
listed oldest first (log 68 DESIGN CHOICE). -/
def cacheAdd (ways : Nat) (sameSet : Nat → Bool) (t : List Nat) (l : Nat) : List Nat :=
  if t.contains l then t
  else match t.find? sameSet with
    | some old => if ways ≤ (t.filter sameSet).length then t.erase old ++ [l] else t ++ [l]
    | none => t ++ [l]

/-- Two lines lie in one of the 64 sets of an L1 (R122): PA[11:6] (log 68 DESIGN CHOICE). -/
def sameL1Set (a b : Nat) : Bool := bits a 11 6 == bits b 11 6

/-- Two lines lie in one set of one slice's L2 (R120): A[22:11] (log 68 DESIGN CHOICE). -/
def sameL2Set (a b : Nat) : Bool :=
  hbmDieOf a == hbmDieOf b && homeSlice a == homeSlice b && bits (inDie a) 22 11 == bits (inDie b) 22 11

/-- A core belongs to the cores that a sharer bit covers: a cluster of the home die (0 to 31), or a die (32 + d). -/
def underTarget (line target c : Nat) : Bool :=
  if target < 32 then dieOf c == hbmDieOf line && clusterOf c % 32 == target else dieOf c == target - 32

/-- The L1 copies of a line under a sharer bit are removed, but for the writer's own (R123). -/
def State.dropL1 (s : State) (line target : Nat) (writer : Option Nat) : State :=
  { s with cores := Tbl.mapv s.cores fun c x =>
      if underTarget line target c && !(writer == some c) then
          { x with l1 := x.l1.filter fun l => l != line, l1i := x.l1i.filter fun l => l != line } else x }

/-- The sharer bits of a line. -/
def Sharers.targets (d : Sharers) : List Nat := d.clusters ++ d.dies.map (32 + ·)

/-- A change of a line is performed: every other copy is invalidated and the bits are cleared (R123, log 6 DESIGN CHOICE). -/
def State.invalidate (s : State) (line : Nat) (writer : Option Nat) : State :=
  let d := Tbl.getD s.dir line {}
  let s := d.targets.foldl (fun s t => s.dropL1 line t writer) s
  { s with dir := Tbl.put s.dir line { d with
      clusters := match writer with
        | some c => if hbmDieOf line = dieOf c then d.clusters.filter (· == clusterOf c % 32) else []
        | none => [],
      dies := match writer with
        | some c => if hbmDieOf line = dieOf c then [] else d.dies.filter (· == dieOf c)
        | none => [] } }

/-- A line whose invalidations are not all acknowledged serves no read (R123). -/
def lineBusy (s : State) (pa : Nat) : Bool := (Tbl.getD s.dir (lineOf pa) {}).busy != []

/-- A step is a request for a line that has reached the line's home slice and waits there (R128). -/
def atSlice (pa : Nat) (i : Instr) : Bool :=
  match i with
  | .homeSliceAccess r => r.here && lineOf r.pa == lineOf pa
  | .atomicAtHome r => r.here && lineOf r.pa == lineOf pa
  | .watchArmAtHome r => r.here && lineOf r.pa == lineOf pa
  | _ => false

/-- A request waits at the home slice of a line: what reaches the slice later takes effect later (R128). -/
def lineAwaited (s : State) (pa : Nat) : Bool := s.flight.any (atSlice pa)

/-- A read or an operation of a line that has reached its slice, or reaches it now, waits (R123, R128). -/
def lineHeld (s : State) (pa : Nat) (here : Bool := false) : Bool := lineBusy s pa || (!here && lineAwaited s pa)

/-- A line that a slice evicts invalidates its sharers first (R123). -/
def State.evictLine (s : State) (line : Nat) : State :=
  let d := Tbl.getD s.dir line {}
  let s := d.targets.foldl (fun s t => s.dropL1 line t none) s
  { s with dir := Tbl.del s.dir line, l2 := s.l2.erase line }

/-- A line of the own package's HBM becomes held by its home slice's L2: in a full set an unpinned way of the device's
choice is replaced, and with none the line is not kept (R120, R122, R127, log 68 DESIGN CHOICE). -/
def State.fillL2 (s : State) (pa : Nat) : State :=
  let l := lineOf pa
  if !ownHbm s pa || s.l2.contains l then s
  else
    let set := s.l2.filter (sameL2Set l)
    let full := decide (12 ≤ set.length)
    let vs := if full then set.filter fun x => !(Tbl.has s.tpins x) && !lineBusy s x else []
    match full, vs[Config.freeChoice s.tick vs.length % max 1 vs.length]? with
    | false, _ => { s with l2 := s.l2 ++ [l] }
    | true, some v =>
      let s := s.evictLine v
      { s with l2 := s.l2 ++ [l] }
    | true, none => s

/-- A line becomes held by a core's L1 data or instruction cache, and its slice records the sharer (R123). Lines that are
not the own package's HBM are never allocated, nor is a line that its L2 does not keep (R122). -/
def State.fillL1 (s : State) (c pa : Nat) (code : Bool) : State :=
  if ownHbm s pa then
    let l := lineOf pa
    let s := s.fillL2 pa
    if !s.l2.contains l then s else
    let s := s.onCore c fun x =>
      if code then { x with l1i := cacheAdd 8 (sameL1Set l) x.l1i l } else { x with l1 := cacheAdd 8 (sameL1Set l) x.l1 l }
    let d := Tbl.getD s.dir l {}
    let d' := if hbmDieOf l = dieOf c then
        { d with clusters := if d.clusters.contains (clusterOf c % 32) then d.clusters else d.clusters ++ [clusterOf c % 32] }
      else { d with dies := if d.dies.contains (dieOf c) then d.dies else d.dies ++ [dieOf c] }
    { s with dir := Tbl.put s.dir l d' }
  else s

/-- A core's own L1 copy of a line leaves it, as an atomic of the core issues (R124). -/
def Core.dropLine (x : Core) (line : Nat) : Core := { x with l1 := x.l1.filter fun l => l != line }

/-! ## Access counts (R67) -/

/-- The name of a page in the count tables: its context and its number. -/
def pageKey (ctx vpage : Nat) : Nat := ctx * 2 ^ 36 + vpage

/-- The frame at whose home a page of 64 KiB is counted: a local page's own, or the head's copy of a page that was promoted (R67,
R70). -/
def countFrame (s : State) (ctx w0 : Nat) : Option Nat :=
  match leafClass w0 with
  | 0 => some (leafFrame w0 / 65536)
  | 2 => if bit w0 5 then
      some (linkPa ((Tbl.getD (s.ctxAt ctx).chains (bits w0 63 56) {}).links.headD (0, 0)) (paLocal (leafFrame w0)) / 65536)
    else none
  | _ => none

/-- The page of a context to which a request for a frame counts, large pages included: its number and its first frame (R67). -/
def countedPage (s : State) (ctx f : Nat) : Option (Nat × Nat) :=
  ((pagesOf s ctx).findSome? fun p => if countFrame s ctx p.2.1 = some f then some (p.1, f) else none).or
    ((largePagesOf s ctx).findSome? fun p =>
      let k := leafFrame p.2.1 / 65536
      if k ≤ f ∧ f < k + 2 ^ (leafLg p.2.2 - 16) then some (p.1, k) else none)

/-- The slice whose count table holds a page: the home slice of its first line (log 72 DESIGN CHOICE). -/
def sameCountTable (f g : Nat) : Bool :=
  hbmDieOf (f * 65536) == hbmDieOf (g * 65536) && homeSlice (f * 65536) == homeSlice (g * 65536)

/-- The requests that an entry counts. -/
def total (cs : List Nat) : Nat := (cs.take 8).sum

/-- The entry with the lowest total among some. -/
def lowestEntry (es : Tbl (Nat × List Nat)) : Option Nat :=
  match es with
  | [] => none
  | e :: rest => some (rest.foldl (fun m x => if total x.2.2 < total m.2.2 then x else m) e).1

/-- Room in a slice's table of 512 pages for the entry of a frame: a page without an entry takes that of the lowest total
(R67). -/
def countRoom (t : Tbl (Nat × List Nat)) (f : Nat) : Tbl (Nat × List Nat) :=
  let mine := t.filter fun e => sameCountTable e.2.1 f
  if mine.length < 512 then t else (lowestEntry mine).elim t (Tbl.del t)

/-- The counts of a page at a frame; none has been counted where its entry is of another frame. -/
def countsAt (s : State) (key f : Nat) : Option (List Nat) :=
  let e := Tbl.getD s.counts key (0, [])
  if Tbl.has s.counts key && e.1 == f then some e.2 else none

/-- A request of a die for a line is counted at its page's home slice while the context counts (R67); counts saturate. -/
def State.count (s : State) (ctx die pa : Nat) (wr : Bool) : State :=
  match if ownHbm s pa && bit (s.ctxAt ctx).pmEff.toNat 0 then countedPage s ctx (pa / 65536) else none with
  | none => s
  | some (vpage, f) =>
    let k := pageKey ctx vpage
    let up := fun (cs : List Nat) => cs.mapIdx fun i n => if i = die || (wr && i = 8) then min (n + 1) 0xFFFF else n
    match countsAt s k f with
    | some cs => { s with counts := Tbl.put s.counts k (f, up cs) }
    | none => { s with counts := Tbl.put (countRoom (Tbl.del s.counts k) f) k (f, up (List.replicate 9 0)) }

/-! ## Monitors (R258) -/

/-- Where the watched bytes lie: a local store's, in it while its owner is resident for the watch's context, else in the
context's image of it (R251, R258). -/
def watchedPa (s : State) (w : WatchReq) : Nat := lsRedirect s w.ctx w.pa

/-- A watched value as it is compared and reported. -/
def watchWord (w : WatchReq) (bs : List Byte) : Word :=
  let n := ofBytes bs
  if w.width = 8 then word n else (BitVec.ofNat 32 n).signExtend 64

/-- The value of the watched bytes. -/
def watchValue (s : State) (w : WatchReq) : Word := watchWord w (s.bytesAt (watchedPa s w) w.width)

/-- A watched value differs from the expected one; a word compares its low half. -/
def watchDiffers (w : WatchReq) (v : Word) : Bool :=
  if w.width = 8 then v != w.exp else v.setWidth 32 != w.exp.setWidth 32

/-- The wake-up message of a watch (R258). -/
def watchWake (s : State) (w : WatchReq) (v : Word) (status : Nat) : Msg :=
  unitMsg s w.ctx w.core w.tag [word w.va, v, word status]

/-- The wake-up of a watch is sent: to its core, or to the package from which the watch has come, with the key of its tenant (R258,
R376). -/
def State.sendWake (s : State) (w : WatchReq) (v : Word) (status : Nat) : State :=
  match w.origin with
  | none => s.send (watchWake s w v status)
  | some (pkg, x) =>
    let tenant := (s.ctxAt w.ctx).tenant
    { s with outs := s.outs ++ [.ual pkg
      { pkg := s.pkg.num, tenant := tenant, key := Tbl.getD s.pkg.keys tenant 0,
        share := fld (s.ctxAt w.ctx).shcls 4 0, body := .msg { watchWake s w v status with ctx := x } }] }

/-- The monitors of a list that a change of memory fires are freed, each with the value found; the others stay. -/
def fireList (s : State) (ws : List WatchReq) : List WatchReq × List (WatchReq × Word) :=
  match ws with
  | [] => ([], [])
  | w :: rest =>
    let (keep, out) := fireList s rest
    let v := watchValue s w
    if watchDiffers w v then (keep, (w, v) :: out) else (w :: keep, out)

/-- The monitors of a core's own local store fire after a change of a line: each sends its wake-up. -/
def State.fireOwn (s : State) (line c : Nat) : State :=
  let (hit, other) := (s.coreAt c).lmon.partition fun w => lineOf (watchedPa s w) == line
  if hit = [] then s
  else
    let (keep, out) := fireList s hit
    out.foldl (fun s w => s.sendWake w.1 w.2 0) (s.onCore c fun x => { x with lmon := keep ++ other })

/-- Monitors at home slices, and those that cores keep for their local stores, fire after a change of the line of an
address (R258). -/
def State.fireMonitors (s : State) (pa : Nat) : State :=
  let l := lineOf pa
  let (hit, other) := s.mons.partition fun w => lineOf w.pa == l
  let (keep, out) := fireList s hit
  let s := out.foldl (fun s w => s.sendWake w.1 w.2 0) { s with mons := keep ++ other }
  ((s.cores.filter fun e => e.2.lmon != []).map Prod.fst).foldl (fun s c => s.fireOwn l c) s

/-- The key slot of a tenant (R73). -/
def slotOf (s : State) (tenant : Nat) : KeySlot := Tbl.getD s.pkg.enc tenant {}

/-- A read of a sector for a tenant passes its tag check: encryption is off for the tenant, or the sector was written
under the keys that its slot holds (R74, R75). -/
def tagFits (s : State) (tenant pa : Nat) : Bool :=
  let k := slotOf s tenant
  !k.en || (Tbl.has s.pkg.sectag (lineOf pa) && Tbl.getD s.pkg.sectag (lineOf pa) {} == k)

/-- A sector written for a tenant is encrypted and tagged under the tenant's key slot while that is enabled (R73). Where the write
leaves a part of the sector as it was, that part is read first: a sector that fails its check then goes on failing (R75). -/
def State.stampFor (s : State) (tenant pa : Nat) (whole : Bool) : State :=
  let k := slotOf s tenant
  if k.en then
    if whole || tagFits s tenant pa then s.onPkg fun p => { p with sectag := Tbl.put p.sectag (lineOf pa) k } else s
  else if s.pkg.sectag = [] then s
  else s.onPkg fun p => { p with sectag := Tbl.del p.sectag (lineOf pa) }

/-- Every sector of a range is written whole for a tenant (R73). -/
def State.stampAll (s : State) (tenant a n : Nat) : State :=
  if !(slotOf s tenant).en && s.pkg.sectag == [] then s
  else (List.range (n / 64)).foldl (fun s i => s.stampFor tenant (a + 64 * i) true) s

/-- A sector written for a context. -/
def State.stamp (s : State) (ctx pa : Nat) (whole : Bool) : State := s.stampFor (s.ctxAt ctx).tenant pa whole

/-- A read of a sector for a context passes its tag check. -/
def tagPasses (s : State) (ctx pa : Nat) : Bool := tagFits s (s.ctxAt ctx).tenant pa

/-- What a read of a line of the own package's HBM for a tenant finds wrong with it (Table 3.7, R367): a lost die or a media
error, class 0x21, or an integrity violation, class 0x22. The tag of uncorrectable data is not evaluated. -/
def sectorError (s : State) (tenant pa : Nat) : Option Nat :=
  if (s.dieAt (hbmDieOf pa)).lost then some 0x21
  else if poisoned s pa then some (poisonClass s pa)
  else if !tagFits s tenant pa then some 0x22 else none

/-- What a read of a line of the own package's HBM by a context finds wrong with it. -/
def hbmError (s : State) (ctx pa : Nat) : Option Nat := sectorError s (s.ctxAt ctx).tenant pa

/-- What a device that reads a range for a tenant finds wrong with its lines: each such line, and whether it fails its integrity check
(Table 3.7). -/
def badLines (s : State) (tenant a n : Nat) : List (Nat × Bool) :=
  if ownHbm s a && ((s.dieAt (hbmDieOf a)).lost || (slotOf s tenant).en) then
    (List.range (n / 64)).filterMap fun i => (sectorError s tenant (a + 64 * i)).map fun cls => (a + 64 * i, cls == 0x22)
  else s.poison.filter fun e => decide (a ≤ e.1) && decide (e.1 < a + n)

/-- A context whose save record for a core holds an address is marked altered there (R335). -/
def Ctx.tampered (x : Ctx) (pa : Nat) : Ctx :=
  let base := fld x.psave 51 27 * 2 ^ 27
  let c := (pa - base) / 0x8000
  if Tbl.has x.saves c && decide (base ≤ pa) && decide (pa < base + 0x8000000) && !x.altered.contains c then
    { x with altered := x.altered ++ [c] }
  else x

/-- A write into the save record of a core of a pre-empted context alters it (R335). -/
def State.tamper (s : State) (pa : Nat) : State :=
  if (s.ctxs.all fun x => x.2.saves.isEmpty) then s
  else { s with ctxs := Tbl.mapv s.ctxs fun _ x => x.tampered pa }

/-- What follows at the serialisation point of a line whose bytes, all of them or some, have changed: the slice holds the line, the
other copies are invalidated, the request is counted, the sector is tagged, and the monitors fire. -/
def State.lineChanged (s : State) (ctx : Nat) (writer : Option Nat) (line : Nat) (whole : Bool) : State :=
  let s := if ownHbm s line then
      let s := (s.fillL2 line).invalidate line writer
      let s := match writer with
        | some c => s.count ctx (dieOf c) line true
        | none => s
      (s.stamp ctx line whole).tamper line
    else s
  s.fireMonitors line

/-- The lines that n bytes from an address lie in. -/
def linesFrom (pa n : Nat) : List Nat := (List.range ((pa % 64 + n + 63) / 64)).map fun i => lineOf pa + 64 * i

/-- A change of bytes from a physical address upward, with everything that follows from it. -/
def State.perform (s : State) (ctx : Nat) (writer : Option Nat) (pa : Nat) (bs : List Byte) : State :=
  (linesFrom pa bs.length).foldl (fun s l => s.lineChanged ctx writer l (decide (pa ≤ l) && decide (l + 64 ≤ pa + bs.length)))
    (s.writePa pa bs)

/-- A change of bytes of one line at one instant, with everything that follows from it (R275). -/
def State.performLine (s : State) (ctx : Nat) (writer : Option Nat) (line : Nat) (cs : List (Nat × Byte)) : State :=
  (s.writeCells cs).lineChanged ctx writer line (decide (64 ≤ cs.length))

/-! ## The context error log (R351, R352) -/

/-- The die and hub fields of an entry that a core's die detects. -/
def logPlace (c : Nat) : Nat := dieOf c % 8

/-- An entry written to a context's error log: class, code, core, die, hub, address and detail (Table 16.10,
log 74 DEDUCED). The log of a killed context receives no more entries (R351). -/
def State.log (s : State) (ctx cls code cid die : Nat) (hub : Bool) (addr detail : Nat) : State :=
  if (s.ctxAt ctx).state = 3 then s else
  let x := s.ctxAt ctx
  let e := x.elog
  let lgn := fld e 4 0
  let sq := x.eseq % 2 ^ 32
  let w0 := cls * 2 ^ 56 + code * 2 ^ 48 + cid * 2 ^ 36 + die * 2 ^ 33 + flag hub 32 + sq
  let pa := fld e 51 12 * 2 ^ 12 + 64 * (sq % 2 ^ lgn)
  let s := if lgn = 0 then s
    else s.perform ctx none pa (toBytes 8 w0 ++ toBytes 8 addr ++ toBytes 8 s.pkg.now.toNat ++ toBytes 8 detail ++ toBytes 32 0)
  let note := bit e.toNat 5 && !x.enote
  let s := s.onCtx ctx fun x => { x with eseq := x.eseq + 1, enote := x.enote || note }
  if note then s.send { unitMsg s ctx (fld e 63 52) (fld e 11 6) [word sq, word cls] with note := true } else s

/-- An entry that a core's die detects for the context of an activation. -/
def State.logCore (s : State) (ctx cls code c addr detail : Nat) : State :=
  s.log ctx cls code c (logPlace c) false addr detail

/-- A refusal by a port, in the sending context's log: it is detected at the hub die (R377, Table 16.10). -/
def State.logRefusal (s : State) (ctx c addr pkg : Nat) : State := s.log ctx 0x2C 0 c 0 true addr pkg

/-- An entry in the package health log (R387), with the compute die of the detecting unit, or none for the hub die. -/
def State.note (s : State) (cls detail addr : Nat) (die : Option Nat := none) : State :=
  s.onPkg fun p => { p with health := p.health ++ [⟨cls, detail, addr, p.now.toNat, die⟩] }

/-! ## Messages stored in HBM (R288, R294, R336) -/

/-- The payload of a stored sprinkle: its 8 bytes, the index below the value, in doubleword 0 (R289). -/
def sprinkleBytes (m : Msg) : List Byte :=
  toBytes 8 ((m.pay.headD 0).toNat % 2 ^ 16 + (m.pay.getD 1 0).toNat % 2 ^ 32 * 2 ^ 16) ++ toBytes 56 0

/-- The 80 bytes of a stored message: the header of Table 14.1 and the payload. The rest of its 128-byte entry is not
written (log 70 DESIGN CHOICE). -/
def entryBytes (m : Msg) : List Byte :=
  toBytes 8 (m.scid % 4096 * 2 ^ 52 + m.spkg % 1024 * 2 ^ 42 + m.ctx % 64 * 2 ^ 36 + m.tag % 64 * 2 ^ 30 + m.hoff.toNat * 2 ^ 14 +
    m.grp % 256 * 2 ^ 6 + m.kind % 8 * 8 + flag m.ord 2 + flag m.redl 1) ++
  toBytes 8 ((if m.ord then m.ts % 2 ^ 32 * 2 ^ 32 else 0) + m.dcore % 4096 * 2 ^ 20) ++
  (if m.kind = 1 then sprinkleBytes m else m.pay.flatMap fun w => toBytes 8 w.toNat)

/-- The entries of a store in HBM by its lgn field (Table 14.5). -/
def storeCap (lgn : Nat) : Nat := if lgn = 0 then 0 else 2 ^ min 24 (max 10 lgn)

/-- An entry of a store whose register has the layout of Table 14.5 is written. -/
def State.writeEntry (s : State) (ctx : Nat) (reg : Word) (k : Nat) (m : Msg) : State :=
  s.perform ctx none (fld reg 51 16 * 65536 + 128 * k) (entryBytes m)

/-- The ring entries of a context that hold a message: spilled messages, parked triggers and spilled tasks (R88, R294,
R309). -/
def ringUsed (s : State) (ctx : Nat) : List Nat :=
  ((s.ctxAt ctx).ring ++ (s.ctxAt ctx).parked).filterMap Msg.rslot ++
    s.clusters.flatMap fun e => e.2.ready.filterMap fun q => if q.m.ctx = ctx then q.m.rslot else none

/-- The lowest free entry of a context's ring, if it has one (log 70 DESIGN CHOICE). -/
def ringSlot (s : State) (ctx : Nat) : Option Nat :=
  let used := ringUsed s ctx
  ((List.range (used.length + 1)).find? fun k => !used.contains k).bind fun k =>
    if k < storeCap (fld (s.ctxAt ctx).ovring 4 0) then some k else none

/-- A message takes an entry of its context's ring, and is written there; none where the ring has no free entry. -/
def State.intoRing (s : State) (m : Msg) : Option (Msg × State) :=
  (ringSlot s m.ctx).map fun k => ({ m with rslot := some k }, s.writeEntry m.ctx (s.ctxAt m.ctx).ovring k m)

/-- The parked triggers that a cluster's inbox holds: those of contexts without a ring (R294). -/
def parkedIn (s : State) (k : Nat) : Nat :=
  (s.ctxs.map fun e =>
    if storeCap (fld e.2.ovring 4 0) = 0 then (e.2.parked.filter fun m => clusterOf m.dcore == k).length else 0).sum

/-- The places that a queue has lost: each failed row beyond its 16 spares takes one (Table 16.15). -/
def rowsLost (s : State) (q : Nat) : Nat := Tbl.getD s.pkg.rows q 0 - 16

/-- The capacity of a core inbox (R294). -/
def coreCap (s : State) (c : Nat) : Nat := 64 - rowsLost s c
/-- The capacity of a cluster inbox (R294). -/
def clusterCap (s : State) (k : Nat) : Nat := 1024 - rowsLost s (4096 + k)
/-- The capacity of a ready queue (R309). -/
def readyCap (s : State) (k : Nat) : Nat := 512 - rowsLost s (8192 + k)

/-- The oldest spilled tasks take n free places of a ready queue. -/
def unspill (n : Nat) (qs : List Ready) : List Ready :=
  match qs with
  | [] => []
  | q :: rest =>
    if q.m.rslot.isNone then q :: unspill n rest
    else match n with
      | 0 => q :: rest
      | n + 1 => { q with m := { q.m with rslot := none } } :: unspill n rest

/-- A ready queue whose freed places are refilled from the ring (R309). -/
def refillTasks (cap : Nat) (qs : List Ready) : List Ready := unspill (cap - (qs.filter fun q => q.m.rslot.isNone).length) qs

/-- A cluster inbox has a free place (R294). -/
def clusterRoom (s : State) (k : Nat) : Bool := decide ((s.clusterAt k).inbox.length + parkedIn s k < clusterCap s k)

/-- A lasting error retires a row of a queue (R362, R363). -/
def State.loseRow (s : State) (q : Nat) : State := s.onPkg fun p => { p with rows := Tbl.put p.rows q (Tbl.getD p.rows q 0 + 1) }

/-- The queues of a cluster, and of some of its cores, have all their rows again: they lie on spare hardware (R363). -/
def State.freshRows (s : State) (qs : List Nat) : State := s.onPkg fun p => { p with rows := p.rows.filter fun e => !qs.contains e.1 }

/-! ## Stores of a chain at a link (R103) -/

/-- The bytes of a chain store applied at a link's copy; in this package the L1 copies there are invalidated and the sectors
are tagged for the chain's tenant (R103, R73). -/
def State.applyAt (s : State) (l : Nat × Nat) (st : ChainStore) (writer : Option Nat) : State :=
  let s := s.writeCells (st.data.map fun b => (linkPa l b.1, b.2))
  if l.1 = s.pkg.num then
    (distinct (st.data.map fun b => lineOf (linkPa l b.1))).foldl
      (fun s p => (((s.fillL2 p).invalidate p writer).stampFor st.tenant p (decide (64 ≤ st.data.length))).tamper p) s
  else s

/-- As applyAt, and the line of a copy engine's beat with uncorrectable data is written poisoned (R148). -/
def State.applyStore (s : State) (l : Nat × Nat) (st : ChainStore) (writer : Option Nat) : State :=
  let s := s.applyAt l st writer
  if st.bad then { s with poison := s.poison ++ (distinct (st.data.map fun b => lineOf (linkPa l b.1))).map fun p => (p, false) } else s

/-! ## What is being moved (R365) -/

/-- A core is being moved, by itself or with its cluster (R365). -/
def moving (s : State) (c : Nat) : Bool := (s.coreAt c).remap || (s.clusterAt (clusterOf c)).remap

/-- A core holds an activation, or one that waits to commit: a remap waits for its end. -/
def holdsActivation (x : Core) : Bool := (x.phase != .idle && x.phase != .halted) || x.word.isSome || x.fetching.isSome

/-- The cores that a remap moves. -/
def movedCores (c : Nat) (whole : Bool) : List Nat := if whole then (List.range 16).map (c / 16 * 16 + ·) else [c]

/-- A cluster is being moved and none of its cores holds an activation: the requests to its slice are held (R365, step 2). -/
def copyingCluster (s : State) (k : Nat) : Bool :=
  (s.clusterAt k).remap && !(movedCores (16 * k) true).any fun i => holdsActivation (s.coreAt i)

/-- A core is being moved and no core that moves with it holds an activation: the traffic to it is held (R365, step 2). Before that,
what runs on it goes on to its end. -/
def copying (s : State) (c : Nat) : Bool :=
  ((s.coreAt c).remap && !holdsActivation (s.coreAt c)) || copyingCluster s (clusterOf c)

/-- The stack and the home slice of a line of the own package's HBM have reported ready, or are lost: before that they are not used
(R56, R386). -/
def hbmServes (s : State) (pa : Nat) : Bool :=
  let d := hbmDieOf pa
  let k := homeSlice pa
  (s.dieAt d).lost || (s.clusterAt (d * 32 + k)).lost || ((s.dieAt d).slices.contains k && s.pkg.hbm.contains (hbmStack pa))

/-- An access is held: to a local store of the own package while its owner is being copied, to a line of its HBM while the cluster
of its home slice is, or before slice and stack are ready, and to another package before a UALink port is (R251, R365, R386). -/
def accessHeld (s : State) (pa : Nat) : Bool :=
  match rowOf pa with
  | .localStore => if paPkg pa = s.pkg.num then copying s (lsCore pa) else s.pkg.ual == []
  | .hbm =>
    if paPkg pa = s.pkg.num then copyingCluster s (hbmDieOf pa * 32 + homeSlice pa) || !hbmServes s pa else s.pkg.ual == []
  | _ => false

/-- What is for another package waits for a UALink port that is ready (R386). -/
def portAwaited (s : State) (pkg : Nat) : Bool := pkg != s.pkg.num && s.pkg.ual == []

end Sys2Proof.Machine
end

