-- ==== Sys2Proof/Machine/Ops.lean ====
section
/-!
DEFINITION. Ending an activation early, killing a context, taking an exception and returning from it: the shared
operations that the meanings of chapters 09 to 16 call.
-/
namespace Sys2Proof.Machine

/-! ## Copy commands that end (R147) -/

/-- A channel of a core's copy engine changed. -/
def Core.onChan (x : Core) (ch : Nat) (f : Chan → Chan) : Core :=
  { x with cp := { x.cp with chans := Vector.ofFn fun i => if i.val = ch then f x.cp.chans[i] else x.cp.chans[i] } }

/-- The status of a copy command is written to its mailbox, and its notification is sent (R147). -/
def State.copyStatus (s : State) (c : Nat) (cmd : CopyCmd) (status : Nat) : State :=
  let s := s.onCore c fun x => x.onChan cmd.ch fun h => { h with last := status }
  if cmd.mbe then
    let s := s.perform cmd.ctx (some c) (lsRedirect s cmd.ctx (lsPa s cmd.mcore (cmd.moff * 8))) (toBytes 8 status)
    if cmd.ntf then
      s.send { unitMsg s cmd.ctx cmd.mcore cmd.ntag
        [word (0xF000000000000 + cmd.mcore * 2 ^ 36 + cmd.moff * 8), word status] with scid := c }
    else s
  else s

/-- The destination bytes of a cancelled get hold an undefined mix of old and new bytes: each is a free value (R145,
R354, log 16 DESIGN CHOICE). -/
def State.mixGet (s : State) (c : Nat) (k : CopyCmd) : State :=
  (List.range k.rows).foldl (fun s (j : Nat) =>
    s.writePa (lsPa s c ((k.own : Int) + j * k.ostr).toNat)
      ((List.range k.len).map fun i => Config.freeByte s.tick (j * k.len + i))) s

/-- The command is a get that the activation of a number has kicked. -/
def getOf (act : Nat) (k : CopyCmd) : Bool := (k.op == 0 || k.op == 2) && k.act == act

/-- A channel after its running get is cancelled. -/
def Chan.cancelled (h : Chan) (act : Nat) : Chan :=
  match h.cur with
  | some k => if getOf act k then { h with cur := none, held := false } else h
  | none => h

/-- A queued get is cancelled: it ends with status 2 in its turn, behind the earlier commands of its channel (R145, R147). -/
def CopyCmd.cancel (k : CopyCmd) (act : Nat) : CopyCmd := if getOf act k then { k with cancelled := true } else k

/-- The gets that an activation has kicked are cancelled with status 2: a running one at its beat boundary, a queued one in
its turn (R145, R147). -/
def State.cancelGetsOf (s : State) (c act : Nat) : State :=
  let x := s.coreAt c
  let runs := (x.cp.chans.toList.filterMap Chan.cur).filter (getOf act)
  let waits := x.cp.queue.filter (getOf act)
  let s := s.onCore c fun x => { x with cp := {
    queue := x.cp.queue.map fun k => k.cancel act, chans := x.cp.chans.map fun h => h.cancelled act } }
  let s := runs.foldl (fun s k => (s.mixGet c k).copyStatus c k 2) s
  let s := waits.foldl (fun s k => s.mixGet c k) s
  (List.range 4).foldl (fun s ch => if x.cp.queue.any fun k => k.ch == ch then s.launch (.copyBeat c ch) else s) s

/-- The gets of a core's running activation are cancelled. -/
def State.cancelGets (s : State) (c : Nat) : State := s.cancelGetsOf c (s.coreAt c).seq.toNat

/-! ## Discard (R298) -/

/-- Tiles get back what some shadows hold; a result that was computed from one of them and waits for its window is gone (R202, R210). -/
def Matrix.restoreFrom (m : Matrix) (sh : List (TReg × MTile)) : Matrix :=
  { m with
    tiles := sh.foldl (fun ts e => ts.set e.1.toNat e.2 (by exact e.1.isLt)) m.tiles,
    held := m.held.filter fun h => !sh.any fun e => e.1 == h.2.1 }

/-- Shadows of tiles that an earlier activation had written too get what that one's shadows hold (R202). -/
def Matrix.reshadow (m : Matrix) (sh : List (TReg × MTile)) : Matrix :=
  { m with shadows := m.shadows.map fun e => (sh.find? fun o => o.1 == e.1).getD e }

/-- The tiles saved in shadows are restored, and no command is left (R202). -/
def Matrix.restore (m : Matrix) : Matrix := { m.restoreFrom m.shadows with shadows := [], queue := [], held := [] }

/-- The lines that a matrix command has pinned (R127). -/
def MxCmd.pins (k : MxCmd) : List Nat := k.pinned

/-- Tile-fetch pins are released (R127). -/
def State.unpin (s : State) (ls : List Nat) : State :=
  { s with tpins := ls.foldl (fun t l => let n := Tbl.getD t l 0
                                         if n ≤ 1 then Tbl.del t l else Tbl.put t l (n - 1)) s.tpins }

/-- The cores of a core's row (R323). -/
def rowCores (c : Nat) : List Nat := (List.range 4).map fun i => c / 4 * 4 + i

/-- The other three cores of a row. -/
def others (c : Nat) : List Nat := (rowCores c).filter (· != c)

/-- Trail mode ends for a row, its saved members included: each core goes on independently at its next stream instruction (R326,
R327). -/
def State.endTrail (s : State) (c : Nat) : State :=
  (rowCores c).foldl (fun s i => s.onHolder i ((s.coreAt c).ctx.getD 0) fun x =>
    match x.trail.role with
    | .none => x
    | .waiting => x
    | _ =>
      let pc := match x.trail.stream with
        | r :: _ => if x.trail.left.isSome then x.pc else BitVec.ofNat 52 r.pc
        | [] => x.pc
      { x with trail := {}, pc := pc }) s

/-- A core in trail mode. -/
def Core.inTrail (c : Core) : Bool := c.trail.role == .leader || c.trail.role == .trailing

/-- A gang command. -/
def MxCmd.isGang (k : MxCmd) : Bool :=
  match k.op with
  | .gang _ _ _ => true
  | _ => false

/-- The window of a virtual address: VA[51:48] (R58). -/
def window (va : Nat) : Nat := va / 2 ^ 48 % 16

/-- A paged line that a command has not fetched. -/
def unfetched (k : MxCmd) : List (Nat × Place) :=
  k.lines.filter fun l => decide (window l.1 < 0xE) && !k.got.any fun g => g.1 == l.1

/-- The tile fetch unit of a core no longer waits at a slice for room for a pin (R127). -/
def State.leavePins (s : State) (c : Nat) : State := { s with pinq := s.pinq.filter fun w => w.1 != c }

/-- The gang commands of a row that have not run are dropped (R215). -/
def State.dropGangs (s : State) (c : Nat) : State :=
  (rowCores c).foldl (fun s i =>
    let fetching := (s.coreAt i).mx.queue.find? fun k => unfetched k != [] && !k.waits
    let s := if fetching.any MxCmd.isGang then s.leavePins i else s
    let (gs, rest) := (s.coreAt i).mx.queue.partition MxCmd.isGang
    if gs = [] then s
    else ((s.unpin (gs.flatMap MxCmd.pins)).onCore i fun x => { x with mx := { x.mx with queue := rest } }).launch
      (.matrixCommandExecute i)) s

/-- The current activation of a core leaves without a trace: its buffer, its lookahead results, its tiles from their
shadows, its gets (R298); its trigger is the caller's to redeliver. -/
def State.drop (s : State) (c : Nat) : State :=
  let s := if (s.coreAt c).inTrail then (s.dropGangs c).endTrail c else s
  let s := (s.unpin ((s.coreAt c).mx.queue.flatMap MxCmd.pins)).leavePins c
  let s := s.cancelGets c
  s.onCore c fun x => { x with
    phase := .idle, cbuf := [], pend := [], mx := x.mx.restore, held := none, rsig := [], due := none, stalled := false,
    arrived := [], trail := {}, hostWait := false, hostRd := none, hostGot := [], tlv := 0, ret := none }

/-- The trigger of a core's activation, marked redelivered: its core is the one on which it ran, also after a delivery under the
pull-work rule (R88, R89, log 96 DESIGN CHOICE). -/
def State.trigAt (s : State) (c : Nat) : Msg := { (s.coreAt c).trig with redl := true, dcore := c, slot := none, fpfail := none }

/-- A trigger is parked for replay, in its context's ring, or in its cluster's inbox where there is no ring (R88, R294). One
that finds the ring full, or without a ring the inbox, keeps its turn without a place: none is dropped. -/
def State.park (s : State) (m : Msg) : State :=
  let (m, s) := (s.intoRing m).getD (m, s)
  s.onCtx m.ctx fun x => { x with parked := x.parked ++ [m] }

/-! ## Atomics (R256) -/

/-- A value as a signed number of a width in bits. -/
def signed (w x : Nat) : Int := if 2 ^ (w - 1) ≤ x % 2 ^ w then (x % 2 ^ w : Int) - 2 ^ w else (x % 2 ^ w : Nat)

/-- A signed number wrapped to a width in bits. -/
def wrapTo (w : Nat) (x : Int) : Nat := (x % (2 ^ w : Int)).toNat

/-- A signed number saturated to a width in bits. -/
def satTo (w : Nat) (x : Int) : Int := max (-(2 ^ (w - 1))) (min x (2 ^ (w - 1) - 1))

/-- The new value of an atomic, or none where nothing is written; x the old value, b the operand and c the comparand,
each of w bits (R256). -/
def atomicFn (fn w x b c : Nat) : Option Nat :=
  match fn with
  | 0 => some ((x + b) % 2 ^ w)
  | 1 => some ((x + b) % 2 ^ w)
  | 2 => some (x &&& b)
  | 3 => some (x ||| b)
  | 4 => some (x ^^^ b)
  | 5 => some (if signed w b < signed w x then b else x)
  | 6 => some (if signed w x < signed w b then b else x)
  | 7 => some (min x b)
  | 8 => some (max x b)
  | 9 => some b
  | 10 => if x = c then some b else none
  | 11 => let f := if w = 64 then fp64 else fp32
          some (f.fin .rne ((f.val x).add .rne (f.val b))).1
  | _ => some (wrapTo w (satTo w (signed w x + signed w b)))

/-! ## Kill of a context (R369) -/

/-- A core freed by a kill of its context; its tiles stay as they are (log 88 DESIGN CHOICE). -/
def Core.freed (x : Core) (ctx : Nat) : Core :=
  let x := { x with
    inbox := x.inbox.filter fun m => m.ctx != ctx, l1tlb := x.l1tlb.filter fun l => l.ctx != ctx,
    lmon := x.lmon.filter fun w => w.ctx != ctx || w.origin.isSome, bars := x.bars.filter fun b => b.ctx != ctx,
    tags := Tbl.del x.tags ctx }
  if x.ctx = some ctx then
    let mx := if x.rev && x.phase == .running then x.mx.restore else x.mx
    { x with
      phase := .idle, ctx := none, last := some ctx, cbuf := [], pend := [], held := none, rsig := [], word := none, due := none,
      stalled := false, fetching := none, arrived := [], trail := {}, hostWait := false, hostRd := none, hostGot := [], tlv := 0,
      qin := Vector.replicate 4 [], qcatch := Vector.replicate 4 0, mx := { mx with queue := [], shadows := [], held := [] },
      cp := { queue := [], chans := x.cp.chans.map fun h => if h.ctx = ctx then {} else { h with cur := none, held := false } },
      outst := [], chainOut := [], ret := none }
  else { x with cp := { x.cp with chans := x.cp.chans.map fun h => if h.ctx = ctx then {} else h } }

/-- A request of a context of the package for an atomic. -/
def atomicOf (pkg ctx : Nat) (r : AtomReq) : Bool := r.pkg == pkg && r.ctx == ctx

/-- A step in progress that ends with a context of the package: its messages and triggers, its chains' steps, its queue words,
and the statuses of its commands (R369). -/
def endsWith (pkg ctx : Nat) (i : Instr) : Bool :=
  match i with
  | .messageArrival m => m.ctx == ctx
  | .sequencerArrival m => m.ctx == ctx
  | .launchTrigger t => t.ctx == ctx
  | .launchBatch x _ _ => x == ctx
  | .indexAcknowledgement x _ _ => x == ctx
  | .barrierAcknowledgement _ x _ _ => x == ctx
  | .barrierRelease _ x _ _ => x == ctx
  | .runOutFire x _ => x == ctx
  | .queueWordArrival _ _ w => w.ctx == ctx
  | .chainStoreAtLink st => st.pkg == pkg && st.ctx == ctx
  | .chainAcknowledgement st => st.pkg == pkg && st.ctx == ctx
  | .chainStoreCompletion st => st.pkg == pkg && st.ctx == ctx
  | .chainPageCopy x _ => x == ctx
  | .chainPromotionMarker x _ => x == ctx
  | .chainHeadHandoff x _ => x == ctx
  | .chainCleanDone x _ => x == ctx
  | .pgInvalCompletion r => r.iss == ctx
  | .pgPinCompletion r => r.iss == ctx
  | .atomicAtHome r => atomicOf pkg ctx r
  | .combineRequest _ _ r => atomicOf pkg ctx r
  | .watchArmAtHome r => r.ctx == ctx
  | .tlbMissAtSlice _ x _ _ => x == ctx
  | .pageWalkComplete _ x _ => x == ctx
  | _ => false

/-- The chain stores of a context that are on their way are performed at the links that they have not reached (R369). -/
def State.landStores (s : State) (ctx : Nat) : State :=
  let sts := s.flight.filterMap fun i => match i with
    | .chainStoreAtLink st => if st.pkg = s.pkg.num ∧ st.ctx = ctx then some st else none
    | _ => none
  sts.foldl (fun s st =>
    let e := Tbl.getD (s.ctxAt ctx).chains st.ch {}
    (e.links.drop st.hop ++ e.sync.toList).foldl (fun s l => s.applyStore l st none) s) s

/-- The atomics of a context that are on their way: to their homes, on a combining path, or held in a combining unit. -/
def atomicsOnWay (s : State) (ctx : Nat) : List AtomReq :=
  (s.flight.filterMap fun i => match i with
    | .atomicAtHome r => if atomicOf s.pkg.num ctx r then some r else none
    | .combineRequest _ _ r => if atomicOf s.pkg.num ctx r then some r else none
    | _ => none) ++
  s.units.flatMap fun u => u.2.entries.flatMap fun e => (e.members.map Prod.snd).filter (atomicOf s.pkg.num ctx)

/-- Where a released atomic acts: its location, or the copy of every link of its chain, the head's first (R104). -/
def atomicCopies (s : State) (r : AtomReq) : List Nat :=
  match r.chain with
  | none => [lsRedirect s r.ctx r.pa]
  | some (ch, off) =>
    let e := Tbl.getD (s.ctxAt r.ctx).chains ch {}
    (e.links ++ e.sync.toList).map fun l => linkPa l off

/-- A released atomic is performed as its context ends; one that meets uncorrectable data changes nothing (R353, R369). -/
def State.landAtomic (s : State) (r : AtomReq) : State :=
  match atomicCopies s r with
  | [] => s
  | a :: rest =>
    match if ownHbm s a then hbmError s r.ctx a else if poisoned s a then some (poisonClass s a) else none with
    | some cls => if r.dest = 0 then s.logCore r.ctx cls 0x0E r.core r.va 0 else s
    | none =>
      let w := 8 * r.width
      match atomicFn r.fn w (ofBytes (s.bytesAt a r.width)) (r.operand.toNat % 2 ^ w) (r.cmp.toNat % 2 ^ w) with
      | some y => if rowOf a = .device then s
          else (a :: rest).foldl (fun s p => s.perform r.ctx (some r.core) p (toBytes r.width y)) s
      | none => s

/-- The combining unit without the requests of a context. -/
def CombUnit.without (u : CombUnit) (pkg ctx : Nat) : CombUnit :=
  { u with entries := u.entries.filter fun e => !e.members.any fun m => atomicOf pkg ctx m.2,
           crumbs := u.crumbs.filter fun k => !((k.2.first.or k.2.second).getD []).any fun m => atomicOf pkg ctx m.2 }

/-- The released stores and atomics of a context are performed (R369). -/
def State.landReleased (s : State) (ctx : Nat) : State :=
  let s := (atomicsOnWay s ctx).foldl State.landAtomic (s.landStores ctx)
  { s with units := Tbl.mapv s.units fun _ u => u.without s.pkg.num ctx }

/-- A foreign record as the owner of a chain announces it to the package of a link; without links the record is removed (R113,
R114). -/
def recordFor (s : State) (ctx ch : Nat) (e : Chain) : UalReq :=
  let y := s.ctxAt ctx
  { pkg := s.pkg.num, tenant := y.tenant, key := Tbl.getD s.pkg.keys y.tenant 0, share := fld y.shcls 4 0,
    body := .chainRec ⟨s.pkg.num, ctx, ch, e.gen, e.base, e.npg, e.links, e.sync, false, none⟩ }

/-- The announcement of a chain that has been adopted, with the identity under which it was frozen (R114). -/
def adoptedRecord (s : State) (ctx ch : Nat) (e : Chain) (id : Nat × Nat × Nat) : UalReq :=
  { recordFor s ctx ch e with body := .chainRec ⟨s.pkg.num, ctx, ch, e.gen, e.base, e.npg, e.links, e.sync, false, some id⟩ }

/-- The announcement that a kill has freed a chain: the record goes, and the ranges reserved for it (R369). -/
def freedRecord (s : State) (ctx ch : Nat) (e : Chain) : UalReq :=
  { recordFor s ctx ch {} with body := .chainRec ⟨s.pkg.num, ctx, ch, e.gen, e.base, e.npg, [], none, true, none⟩ }

/-- A record is sent to the other packages among some links. -/
def State.tell (s : State) (told : List (Nat × Nat)) (r : UalReq) : State :=
  ((distinct (told.map Prod.fst)).filter (· != s.pkg.num)).foldl (fun s p => { s with outs := s.outs ++ [.ual p r] }) s

/-- The chains of a context are freed: the foreign records of other packages are removed, and the ranges reserved there for them
are released (R369). -/
def State.freeChains (s : State) (ctx : Nat) : State :=
  (s.ctxAt ctx).chains.foldl (fun s e => s.tell (e.2.links ++ e.2.sync.toList) (freedRecord s ctx e.1 e.2)) s

/-- The posts that a context has released, and that its saved cores have buffered, stay to be applied at those cores (Table
11.10). -/
def State.keepPosts (s : State) (ctx : Nat) : State :=
  (s.ctxAt ctx).saves.foldl (fun s e => s.onCore e.1 fun x => { x with posts := x.posts ++ e.2.posts }) s

/-- A context is killed with a reason; imm is the word of sys.kill (R369, Table 16.17). -/
def State.kill (s : State) (ctx reason imm : Nat) : State :=
  let s := ((s.landReleased ctx).freeChains ctx).keepPosts ctx
  let rows := s.cores.filterMap fun e => if e.2.ctx = some ctx && e.2.inTrail then some e.1 else none
  let s := rows.foldl (fun s c => (s.dropGangs c).endTrail c) s
  let s := s.unpin (s.cores.flatMap fun e => if e.2.ctx = some ctx then e.2.mx.queue.flatMap MxCmd.pins else [])
  let s := { s with
    pinq := s.pinq.filter fun w => (s.coreAt w.1).ctx != some ctx,
    cores := Tbl.mapv s.cores fun _ x => x.freed ctx,
    clusters := Tbl.mapv s.clusters fun n k => { k with
      inbox := k.inbox.filter fun m => m.ctx != ctx, ready := refillTasks (readyCap s n) (k.ready.filter fun r => r.m.ctx != ctx) },
    dies := Tbl.mapv s.dies fun _ d => { d with fbuf := d.fbuf.filter fun r => r.ctx != ctx },
    xl := Tbl.mapv s.xl fun _ x => {
      tlb := x.tlb.filter fun l => l.ctx != ctx, ptc := x.ptc.filter fun e => e.1 != ctx,
      misses := x.misses.filter fun m => m.ctx != ctx, locks := x.locks.filter fun l => l.ctx != ctx },
    mons := s.mons.filter fun w => w.ctx != ctx || w.origin.isSome,
    migs := s.migs.filter fun g => g.ctx != ctx,
    heldMsgs := s.heldMsgs.filter fun m => m.ctx != ctx,
    flight := s.flight.filter fun i => !endsWith s.pkg.num ctx i }
  let s := s.onPkg fun p => { p with
    gates := p.gates.filter fun g => g.ctx != ctx }
  let s := s.onCtx ctx fun x => { x with
    launches := [], chains := [], parked := [], replayDue := false, ring := [], store1 := [], store2 := [], runouts := [],
    domains := [], saves := [], armed := [], scrub := distinct (x.groups.flatMap fun g => members g.2) }
  let s := s.log ctx 0x31 0 0xFFF 0 true 0 (reason + imm * 2 ^ 16)
  s.onCtx ctx fun x => { x with state := 3 }

/-! ## A failing sprinkle handler (R225) -/

/-- The poison mark set on a tile. -/
def Matrix.setMark (m : Matrix) (t : TReg) (k : Mark) : Matrix :=
  { m with tiles := m.tiles.set t.toNat { m.tiles[t.toNat]'(t.isLt) with mark := k } (by exact t.isLt) }

/-- Tiles take a poison mark behind the commands that are queued, at once where there are none (R203, R210). -/
def Matrix.markLater (m : Matrix) (ts : List TReg) (k : Mark) : Matrix :=
  if m.queue = [] then ts.foldl (fun m t => m.setMark t k) m else { m with queue := m.queue ++ [{ op := .mark ts k }] }

/-- The entry of the handler that a trigger selects (R288). -/
def handlerEntry (ts : TagState) (hoff : BitVec 16) : Nat :=
  (BitVec.ofNat 52 (ts.dflt.getD 0) + (hoff.signExtend 52) * 4).toNat

/-- A sprinkle handler fails: it ends at once, and class 0x27 is logged. What it has written to tiles so far stands, the commands
that it has queued included, and the tiles it named are marked behind them. -/
def State.sprinkleFail (s : State) (c : Nat) : State :=
  let x := s.coreAt c
  let ctx := x.ctx.getD 0
  let ts := if x.sprTiles = [] then [0, 1, 2, 3] else x.sprTiles
  let entry := handlerEntry (Tbl.getD (Tbl.getD x.tags ctx {}).tags x.trig.tag {}) x.trig.hoff
  let s := s.onCore c fun x =>
    let x := x.closeWindows
    { x with phase := .idle, stalled := false, due := none, mx := x.mx.markLater ts .sprinkle, tlv := 0 }
  s.logCore ctx 0x27 0 c entry ((x.trig.pay.headD 0).toNat % 65536)

/-- The trail state of a core that goes to a handler: it leaves the stream of its row, or stops waiting for one (R325). -/
def Trail.leave (t : Trail) (pc level : Nat) : Trail :=
  match t.role with
  | .none => t
  | .waiting => {}
  | _ => if t.left.isNone then { t with left := some pc, level := level } else t

/-! ## Taking an exception (R344) -/

/-- A core takes a trap: the next level's cause, return address and value are written, the level rises, and control
goes to the handler. A trap at level 2, or with no handler base, kills the context. A sprinkle handler fails instead. -/
def State.takeTrap (s : State) (c : Nat) (code : Nat) (pcv : BitVec 52) (val : Word) : State :=
  let x := s.coreAt c
  let ctx := x.ctx.getD 0
  if x.trig.kind = 1 then s.sprinkleFail c
  else if x.tlv.toNat = 2 then s.kill ctx 1 0
  else if fld x.tvec 51 8 = 0 then s.kill ctx 2 0
  else
    let cause := word (flag x.rev 8 + code)
    let base := fld x.tvec 51 8 * 256
    let x := x.closeWindows
    let x := { x with held := none, stalled := false, due := none, hostWait := false, hostRd := none, hostGot := [], ret := none,
                      trail := x.trail.leave x.pc.toNat x.tlv.toNat }
    let ret := word (pcv.toNat / 4 * 4)
    let block := { x.chk.cur with addr := pcv.toNat }
    s.setCoreAt c <|
      if x.tlv = 0 then
        { x with t1 := { x.t1 with cause := cause, pc := ret, val := val }, tlv := 1, pc := BitVec.ofNat 52 base,
                 chk := { x.chk with lv1 := block, cur := { how := 3 } } }
      else
        { x with t2 := { x.t2 with cause := cause, pc := ret, val := val }, tlv := 2, pc := BitVec.ofNat 52 (base + 256),
                 chk := { x.chk with lv2 := block, cur := { how := 3 } } }

/-- The current instruction traps: tpc names it (Table 16.6), and it does not retire. -/
def trap {α : Type} (code : Nat) (val : Word) : M α := endWith fun s => s.takeTrap s.cur code s.core.pc val

/-- The current instruction's word, zero-extended, as a trap value. -/
def irWord (s : State) : Word := s.core.ir.setWidth 64

/-- The current instruction is illegal: cause 0x01 with its word (R26, R345). -/
def illegal {α : Type} : M α := fun s => trap 0x01 (irWord s) s

/-- A trap under a condition. -/
def trapIf (c : Bool) (code : Nat) (val : Word) : M Unit := if c then trap code val else pure ()

/-! ## Returning from an exception (R348, R357, R325) -/

/-- The checker's state after a return to an address: the interrupted block resumes, or a new block starts. -/
def Checker.resume (k : Checker) (saved : Block) (target : Nat) : Checker :=
  if saved.addr = target then { k with cur := saved } else { k with cur := { how := 4 } }

/-- Where the stream of a core's row goes on: the leader's next instruction, or the one at which it left the stream (R325). -/
def streamPc (s : State) (c : Nat) : Option Nat :=
  (rowCores c).findSome? fun i =>
    let x := s.holder i ((s.coreAt c).ctx.getD 0)
    if x.trail.role == .leader then some (x.trail.left.getD x.pc.toNat) else none

/-- A trailing core stands at an address of the stream: one that the leader reached by its return from a trap must start a block
(R325, R357, log 21 DEDUCED). -/
def Core.streamTo (x : Core) (pc : Nat) : Core :=
  if x.pc.toNat = pc then x else { x with pc := BitVec.ofNat 52 pc, chk := { x.chk with cur := { how := 4 } } }

/-- A trailing core that has executed all the stream that it has received stands where the stream goes on (R325). -/
def Core.caughtUp (x : Core) (pc : Nat) : Core :=
  if x.trail.role == .trailing && x.trail.left.isNone && x.trail.stream.isEmpty && !x.trail.skip then x.streamTo pc
  else x

/-- The last of some records names where the stream goes on behind it. -/
def goesTo (pc : Nat) : List TrailRec → List TrailRec
  | [] => []
  | [r] => [{ r with onto := some pc }]
  | r :: rs => r :: goesTo pc rs

/-- A core of a row whose leader returns to the stream: what it has still to execute ends at the leader's return target, and an
instruction that it was to skip there is not issued if the leader went past it (R325). -/
def Core.redirected (x : Core) (left target : Nat) : Core :=
  if x.trail.role ≠ .trailing then x
  else
    let t := { x.trail with stream := goesTo target x.trail.stream, skip := x.trail.skip && decide (target = left) }
    { x with trail := t }.caughtUp target

/-- A core goes on behind an instruction of its row's stream. -/
def Core.behind (x : Core) (r : TrailRec) : Core := x.streamTo (r.onto.getD r.npc)

/-- A core that left the stream of its row returns to it, or ends trail mode; a return within its handler does neither (R325). -/
def State.rejoin (s : State) (c target : Nat) : State :=
  let x := s.coreAt c
  match x.trail.left with
  | none => s
  | some a =>
    if x.trail.level ≠ x.tlv.toNat then s
    else if x.trail.role == .leader then
      let s := s.onCore c fun x => { x with trail := { x.trail with left := none } }
      (rowCores c).foldl (fun s i => s.onHolder i (x.ctx.getD 0) fun y => y.redirected a target) s
    else if target = a then s.onCore c fun x => { x with trail := { x.trail with left := none } }.caughtUp ((streamPc s c).getD a)
    else if target = a + 4 then
      s.onCore c fun x =>
        let y := { x with trail := { x.trail with
          left := none, stream := x.trail.stream.drop 1, skip := x.trail.stream.isEmpty } }
        match x.trail.stream with
        | [r] => y.behind r
        | _ => y
    else s.endTrail c

/-- The return from a trap at level 1 or 2: the level falls and control goes to the saved address. -/
def State.trapReturn (s : State) (c : Nat) : State :=
  let x := s.coreAt c
  if x.tlv.toNat = 1 then
    let t := fld x.t1.pc 51 2 * 4
    let s := s.onCore c fun x =>
      let x := { x with tlv := 0, chk := x.chk.resume x.chk.lv1 t }
      x.jumped (BitVec.ofNat 52 t)
    s.rejoin c t
  else
    let t := fld x.t2.pc 51 2 * 4
    let s := s.onCore c fun x =>
      let x := { x with tlv := 1, chk := x.chk.resume x.chk.lv2 t }
      x.jumped (BitVec.ofNat 52 t)
    s.rejoin c t

end Sys2Proof.Machine
end

