-- ==== Sys2Proof/Machine/Translate.lean ====
section
/-!
DEFINITION. Address translation and the checks of an access (chapter 04), the windows of local store (R58, R59), fault
records (R90, R91), and how a not-present page is delivered (R87 to R89).
-/
namespace Sys2Proof.Machine

/-! ## The page tables (R76 to R80) -/

/-- What a walk finds. -/
inductive Walk where
  | absent
  | bad
  /-- An entry whose reading fails: the class of R74. -/
  | poisoned (cls : Nat)
  | leaf (l : Leaf) (epa : Nat)
  deriving DecidableEq, Repr

/-- The index of an address at a level (Table 4.1). -/
def levelIndex (lvl va : Nat) : Nat :=
  match lvl with
  | 3 => bits va 51 42
  | 2 => bits va 41 30
  | 1 => bits va 29 21
  | _ => bits va 20 16

/-- What reading an entry finds wrong: each read is served at the home slice of the entry's line, under the checks of an HBM
read (R74, R85), with the keys of the tenant of the walked context (log 85 DESIGN CHOICE). A node outside the own package's HBM rows
is read as plain memory (log 69 DESIGN CHOICE). -/
def entryError (s : State) (ctx epa : Nat) : Option Nat :=
  if ownHbm s epa then hbmError s ctx epa else if poisoned s epa then some (poisonClass s epa) else none

/-- One level of a walk: the entry at a node, and what follows a table pointer (R76, R77). -/
def walkStep (s : State) (ctx va lvl node : Nat) (next : Nat → Walk) : Walk :=
  let epa := node + 16 * levelIndex lvl va
  match entryError s ctx epa with
  | some cls => .poisoned cls
  | none =>
    let w0 := (s.read64 epa).toNat
    let w1 := (s.read64 (epa + 8)).toNat
    match w0 % 4 with
    | 0 => .absent
    | 1 => if badPointer s.pkg.num lvl w0 w1 then .bad else next (bits w0 51 9 * 512)
    | 2 =>
      if badLeaf s.pkg.num lvl w0 then .bad
      else .leaf ⟨ctx, va / 2 ^ leafLg lvl * 2 ^ leafLg lvl, leafLg lvl, word w0, word w1⟩ epa
    | _ => .bad

/-- A walk from a node of a level down (R76). -/
def walkDown (s : State) (ctx va lvl node : Nat) : Walk :=
  match lvl with
  | 0 => walkStep s ctx va 0 node fun _ => .bad
  | n + 1 => walkStep s ctx va (n + 1) node (walkDown s ctx va n)

/-- The root of a context's tables, and whether its paging is on (Table 4.4). -/
def rootOf (s : State) (ctx : Nat) : Nat := fld (s.ctxAt ctx).ptbase 51 14 * 2 ^ 14
def pagingOn (s : State) (ctx : Nat) : Bool := bit (s.ctxAt ctx).ptbase.toNat 0

/-- A walk of a context's tables from the root (R76, R81). -/
def walk (s : State) (ctx va : Nat) : Walk := if pagingOn s ctx then walkDown s ctx va 3 (rootOf s ctx) else .absent

/-! ## The cache of table pointers (R85) -/

/-- log2 of the range that a node of a level covers (Table 4.1). -/
def nodeLg (lvl : Nat) : Nat :=
  match lvl with
  | 2 => 42
  | 1 => 30
  | _ => 21

/-- A cached pointer covers an address of a context. -/
def ptcCovers (ctx va : Nat) (e : Nat × Nat × Nat × Nat) : Bool :=
  e.1 == ctx && e.2.2.1 == va / 2 ^ nodeLg e.2.1 * 2 ^ nodeLg e.2.1

/-- Where a walk at a slice begins: the lowest node that its cache of table pointers gives, or the root. -/
def walkStart (s : State) (k ctx va : Nat) : Nat × Nat :=
  let es := (Tbl.getD s.xl k {}).ptc.filter (ptcCovers ctx va)
  match [0, 1, 2].filterMap fun lvl => (es.find? fun e => e.2.1 == lvl).map fun e => (lvl, e.2.2.2) with
  | e :: _ => e
  | [] => (3, rootOf s ctx)

/-- The nodes that the table pointers of a walk lead to, each with its level. -/
def walkNodes (s : State) (ctx va lvl node : Nat) : List (Nat × Nat) :=
  match lvl with
  | 0 => []
  | n + 1 =>
    let epa := node + 16 * levelIndex (n + 1) va
    let w0 := (s.read64 epa).toNat
    if (entryError s ctx epa).isNone && w0 % 4 == 1 && !badPointer s.pkg.num (n + 1) w0 (s.read64 (epa + 8)).toNat then
      (n, bits w0 51 9 * 512) :: walkNodes s ctx va n (bits w0 51 9 * 512)
    else []

/-- A pointer added to a cache of 64; when it is full the oldest goes (log 68 DESIGN CHOICE). -/
def ptcAdd (t : List (Nat × Nat × Nat × Nat)) (e : Nat × Nat × Nat × Nat) : List (Nat × Nat × Nat × Nat) :=
  let t := t.filter (· != e)
  (if t.length < 64 then t else t.drop 1) ++ [e]

/-- A walk by the slice of a key, which keeps the table pointers that it has read (R85). -/
def walkAt (s : State) (k ctx va : Nat) : Walk × State :=
  if !pagingOn s ctx then (.absent, s)
  else
    let (lvl, node) := walkStart s k ctx va
    let ns := walkNodes s ctx va lvl node
    let x := Tbl.getD s.xl k {}
    let ptc := ns.foldl (fun t n => ptcAdd t (ctx, n.1, va / 2 ^ nodeLg n.1 * 2 ^ nodeLg n.1, n.2)) x.ptc
    (walkDown s ctx va lvl node, { s with xl := Tbl.put s.xl k { x with ptc := ptc } })

/-! ## The TLBs (R82 to R85) -/

/-- A leaf covers an address of a context. -/
def covers (ctx va : Nat) (l : Leaf) : Bool := l.ctx == ctx && l.base == va / 2 ^ l.lg * 2 ^ l.lg

/-- An entry added to a TLB of a size; when it is full the oldest goes (log 68 DESIGN CHOICE). -/
def tlbAdd (n : Nat) (t : List Leaf) (l : Leaf) : List Leaf :=
  let t := t.filter fun x => x != l
  (if t.length < n then t else t.drop 1) ++ [l]

/-- The translation hardware of the slice of a die that serves an address. -/
def xlKey (die ctx va : Nat) : Nat := die * 32 + xlSlice va ctx

/-- A leaf that a slice holds, locked or not. -/
def sliceHit (s : State) (die ctx va : Nat) : Option Leaf :=
  let x := Tbl.getD s.xl (xlKey die ctx va) {}
  (x.locks ++ x.tlb).find? (covers ctx va)

/-- Two leaves lie in one of the 256 sets of a slice's TLB: bits [23:16] of their pages' addresses (log 68 DESIGN CHOICE). -/
def sameTlbSet (a b : Leaf) : Bool := bits a.base 23 16 == bits b.base 23 16

/-- A leaf added to a slice's TLB of 2,048 entries in sets of eight (R85); in a full set the oldest goes (log 68 DESIGN
CHOICE). -/
def sliceAdd (t : List Leaf) (l : Leaf) : List Leaf :=
  let t := t.filter fun x => x != l
  let set := t.filter (sameTlbSet l)
  (if set.length < 8 then t else (set.head?.elim t fun x => t.erase x)) ++ [l]

/-- A leaf entered into a slice's TLB. -/
def State.fillSlice (s : State) (die va : Nat) (l : Leaf) : State :=
  let k := xlKey die l.ctx va
  let x := Tbl.getD s.xl k {}
  { s with xl := Tbl.put s.xl k { x with tlb := sliceAdd x.tlb l } }

/-- A leaf entered into a core's L1 TLB. -/
def State.fillTlb (s : State) (c : Nat) (l : Leaf) : State :=
  s.onCore c fun x => { x with l1tlb := tlbAdd 128 x.l1tlb l }

/-- The translation of an address for a core: from its TLB, from the slice of its die, or by a walk there. While paging
is off every page is not present, one that is locked too (Table 4.4, R99, log 91 DEDUCED). -/
def lookup (s : State) (c ctx va : Nat) : Walk × State :=
  if !pagingOn s ctx then (.absent, s)
  else match (s.coreAt c).l1tlb.find? (covers ctx va) with
  | some l => (.leaf l 0, s)
  | none =>
    match sliceHit s (dieOf c) ctx va with
    | some l => (.leaf l 0, s.fillTlb c l)
    | none =>
      match walkAt s (xlKey (dieOf c) ctx va) ctx va with
      | (.leaf l e, s) => (.leaf l e, (s.fillSlice (dieOf c) va l).fillTlb c l)
      | (w, s) => (w, s)

/-- The place of an address under a leaf (R65). -/
def leafPlace (s : State) (l : Leaf) (va : Nat) : Place :=
  let w := l.w0.toNat
  let off := va % 2 ^ l.lg
  match leafClass w with
  | 0 => .mem (leafFrame w + off)
  | 1 =>
    let k := bits va 15 12
    .mem (diePa s (k % 8) (paLocal (leafFrame w)) + k / 8 * 4096 + va % 4096)
  | _ => .chain l.ctx (bits w 63 56) (paLocal (leafFrame w) + off)

/-- The permission that an access needs (Table 4.5). -/
def permits (w0 : Nat) (acc : Acc) : Bool :=
  match acc with
  | .read => bit w0 2
  | .engRead => bit w0 2
  | .write => bit w0 3
  | .engWrite => bit w0 3
  | .atomic => bit w0 2 && bit w0 3
  | .fetch => bit w0 4

/-! ## Fault records (R90, R91) -/

/-- The kind of a record for an access. -/
def accKind (acc : Acc) : Nat :=
  match acc with
  | .read => 0
  | .write => 1
  | .atomic => 1
  | .engWrite => 1
  | .fetch => 2
  | .engRead => 3

/-- The notification of a die's fault buffer (R91). -/
def State.faultNote (s : State) (die : Nat) : State :=
  let f := s.pkg.fbnote
  if bit f.toNat 24 then
    s.send (unitMsg s (fld f 23 18) (fld f 11 0) (fld f 17 12) [word die, word (flag (s.dieAt die).dropped 0)])
  else s

/-- A page was found not present: a placement operation on it is abandoned at its next step (Table 3.6). -/
def State.pageAbsent (s : State) (ctx va : Nat) : State :=
  { s with migs := s.migs.map fun g => if g.ctx = ctx ∧ g.vpage = bits va 51 16 then { g with absent := true } else g }

/-- A not-present result makes a record, merges into one, or sets the die's dropped flag. -/
def State.faultRecord (s : State) (c ctx va : Nat) (acc : Acc) (held : Bool) : State :=
  let die := dieOf c
  let d := s.dieAt die
  let vp := bits va 51 16
  let s := s.pageAbsent ctx va
  if d.fbuf.any fun r => r.ctx == ctx && r.vpage == vp then
    s.onDie die fun d => { d with fbuf := d.fbuf.map fun r =>
      if r.ctx == ctx && r.vpage == vp then
        { r with count := min 15 (r.count + 1), kind := if accKind acc = 1 then 1 else r.kind, held := r.held || held }
      else r }
  else if d.fbuf.length < 8 then
    let s := s.onDie die fun d => { d with fbuf := d.fbuf ++ [⟨1, ctx, vp, accKind acc, held, c⟩] }
    if d.fbuf = [] then s.faultNote die else s
  else if d.dropped then s
  else (s.onDie die fun d => { d with dropped := true }).faultNote die

/-! ## Delivery (R87, R89, R355, R361) -/

/-- A not-present page met by the activation of a core (Table 4.6). A sprinkle handler fails, at a fetch and at an operand of an mx
instruction (log 52 DEDUCED). -/
def State.notPresent (s : State) (c va : Nat) (acc : Acc) : State :=
  let x := s.coreAt c
  let ctx := x.ctx.getD 0
  if x.trig.kind = 1 then (s.pageAbsent ctx va).sprinkleFail c
  else match x.tlv.toNat with
  | 0 =>
    if x.rev then
      let m := s.trigAt c
      ((s.faultRecord c ctx va acc false).drop c).park m
    else
      (s.faultRecord c ctx va acc true).onCore c fun x => { x with held := some (va / 65536), stalled := true }
  | 1 => (s.pageAbsent ctx va).takeTrap c 0x04 x.pc (word va)
  | _ => s.kill ctx 1 0

/-- Uncorrectable data consumed by the activation of a core (Table 16.12); the detail of a lost chain is its number (Table
16.11). -/
def State.consume (s : State) (c cls : Nat) (addr : Nat) (val : Word) (detail : Nat := 0) : State :=
  let x := s.coreAt c
  let ctx := x.ctx.getD 0
  if x.trig.kind = 1 then s.sprinkleFail c
  else
    let s := s.logCore ctx cls 0x0E c addr detail
    if x.rev then
      if x.trig.unc = 0 then
        let m := { s.trigAt c with unc := 1 }
        (s.drop c).send m
      else s.takeTrap c 0x0E x.pc val
    else s.kill ctx 3 0

/-- A chain is lost: its data is gone (R101, R112). -/
def chainLost (s : State) (pl : Place) : Option Nat :=
  match pl with
  | .mem _ => none
  | .chain x ch _ => if (Tbl.getD (s.ctxAt x).chains ch {}).cst = 3 then some ch else none

/-- The detail of an error-log entry of a class at a place: the chain's number for class 0x24 (Table 16.11). -/
def failDetail (cls : Nat) (pl : Place) : Nat :=
  match pl with
  | .mem _ => 0
  | .chain _ ch _ => if cls = 0x24 then ch else 0

/-- A signature mismatch at a core's next instruction (R361): the block's start offset and its address. -/
def State.mismatch (s : State) (c start addr : Nat) : State :=
  let x := s.coreAt c
  let ctx := x.ctx.getD 0
  let lasting := x.chk.count != 0 && s.pkg.cyc.toNat < x.chk.last + 2 ^ 32
  let s := s.logCore ctx 0x2A (if x.rev && 2 ≤ x.trig.sig then 0x0D else 0) c addr (start % 2 ^ 32 + flag lasting 32)
  let s := s.onCore c fun x => { x with chk := { x.chk with count := x.chk.count + 1, last := s.pkg.cyc.toNat } }
  let retire := fun (s : State) =>
    if lasting then (s.onCore c fun x => { x with remap := true }).launch (.errorRetry (.core c) true) else s
  if x.trig.kind = 1 then retire (s.sprinkleFail c)
  else if x.rev then
    if x.trig.sig < 2 then
      let m := { s.trigAt c with sig := x.trig.sig + 1 }
      retire ((s.drop c).send m)
    else retire (s.takeTrap c 0x0D x.pc (word addr))
  else retire (s.kill ctx 4 0)

/-- The eligible cores of a die for a message's group (R72). -/
def eligible (s : State) (ctx g die : Nat) : List Nat := (readyMembers s ctx g).filter fun c => dieOf c == die

/-- The pull-work rule applies to an access (R89). -/
def pullWork (s : State) (c : Nat) (l : Leaf) : Bool :=
  let x := s.coreAt c
  let w := l.w0.toNat
  let f := leafFrame w
  x.tlv == 0 && leafClass w == 0 && bit w 7 && ownHbm s f && bits w 12 10 != dieOf c && x.rev && !x.trig.pulled &&
    x.trig.kind != 1 && eligible s l.ctx x.trig.grp (bits w 12 10) != []

/-- The activation is discarded and its trigger goes to an eligible core on the page's home die (R89). -/
def State.pull (s : State) (c : Nat) (l : Leaf) : State :=
  let x := s.coreAt c
  let cs := eligible s l.ctx x.trig.grp (bits l.w0.toNat 12 10)
  let i := Config.freeChoice s.tick cs.length % max cs.length 1
  let m := { s.trigAt c with pulled := true, dcore := cs.getD i (cs.headD 0) }
  (s.drop c).send m

/-! ## The checks of an access (R59, R86, R248) -/

/-- The outcome of the checks of a paged access by a core on behalf of a context. -/
inductive Checked where
  | ok (pl : Place)
  | absent
  | prot
  | cset
  | poisoned (cls : Nat)
  | pull (l : Leaf)
  deriving DecidableEq, Repr

/-- The chain that a leaf names serves accesses: its number is not 0, it is not free, and the offset lies in its range
(R101). -/
def chainNamed (s : State) (pl : Place) : Bool :=
  match pl with
  | .mem _ => true
  | .chain ctx ch off =>
    let e := Tbl.getD (s.ctxAt ctx).chains ch {}
    ch != 0 && e.cst != 0 && decide (e.base * 65536 ≤ off) && decide (off < (e.base + e.npg + 1) * 65536)

/-- An access to device register space needs a privileged context; that of another package, and another package's host
memory, are refused (R55, Table 4.12, R385). -/
def rowAllowed (s : State) (ctx : Nat) (pl : Place) : Bool :=
  match pl with
  | .mem pa =>
    match rowOf pa with
    | .device => paPkg pa == s.pkg.num && (s.ctxAt ctx).privileged
    | .host => paPkg pa == s.pkg.num
    | _ => true
  | .chain _ _ _ => true

/-- The checks of R86 in order, from the lookup on. The chain check of R101 stands before the permissions, and the check of device and
host rows behind the cluster set (log 86 DESIGN CHOICE). -/
def checkPaged (s : State) (c ctx va : Nat) (acc : Acc) (engine : Bool) : Checked × State :=
  match lookup s c ctx va with
  | (.absent, s) => (.absent, s)
  | (.bad, s) => (.prot, s)
  | (.poisoned cls, s) => (.poisoned cls, s)
  | (.leaf l _, s) =>
    let pl := leafPlace s l va
    if !chainNamed s pl then (.prot, s)
    else if !permits l.w0.toNat acc then (.prot, s)
    else if !bit l.w1.toNat (c / 64) then (.cset, s)
    else if !rowAllowed s ctx pl then (.prot, s)
    else if !engine && pullWork s c l then (.pull l, s)
    else (.ok pl, s)

/-- The checks of R59 for a window address, and its place. -/
def checkWindow (s : State) (c ctx va : Nat) : Checked :=
  if window va = 0xE then
    if bits va 47 18 = 0 then .ok (.mem (lsPa s c (bits va 17 0))) else .prot
  else if bits va 35 18 != 0 then .prot
  else if !inAnyGroup s ctx (bits va 47 36) then .prot
  else .ok (.mem (lsPa s (bits va 47 36) (bits va 17 0)))

/-! ## Misses at a slice (R85, R92) -/

/-- A miss changed in, or removed from, a slice's table. -/
def State.onSlice (s : State) (k : Nat) (f : Xlate → Xlate) : State := { s with xl := Tbl.put s.xl k (f (Tbl.getD s.xl k {})) }

/-- The walks of a slice that are in flight. -/
def walksOf (x : Xlate) : Nat := (x.misses.filter Miss.walking).length

/-- The oldest pending miss of a slice starts its walk, if fewer than eight are in flight; its stamp is the replay count as the walk
begins (R85, R92). -/
def State.startWalk (s : State) (die k : Nat) : State :=
  let x := Tbl.getD s.xl k {}
  match x.misses.find? fun m => !m.walking with
  | some m =>
    if walksOf x < 8 then
      let m' := { m with walking := true, stamp := (s.ctxAt m.ctx).replay }
      (s.onSlice k fun x => { x with misses := x.misses.map fun n => if n = m then m' else n }).launch
        (.pageWalkComplete die m.ctx m.vpage)
    else s
  | none => s

/-- A step is a miss that waits at the input of the same slice. -/
def sameInput (k : Nat) (i : Instr) : Bool :=
  match i with
  | .tlbMissAtSlice c ctx va _ => xlKey (dieOf c) ctx va == k
  | _ => false

/-- A request of an engine, by its access. -/
def ofEngine (a : Acc) : Bool :=
  match a with
  | .engRead => true
  | .engWrite => true
  | _ => false

/-- A request joins the pending miss on its page (R85). -/
def State.joinMiss (s : State) (c ctx va : Nat) (acc : Acc) : State :=
  let k := xlKey (dieOf c) ctx va
  let x := Tbl.getD s.xl k {}
  let w : Waiter := ⟨c, acc, va, ofEngine acc, (s.coreAt c).seq.toNat, (s.coreAt c).pc.toNat⟩
  { s with xl := Tbl.put s.xl k { x with misses := x.misses.map fun m =>
      if m.ctx == ctx && m.vpage == va / 65536 && !m.waiters.contains w then { m with waiters := m.waiters ++ [w] } else m } }

/-- TLB_MISS_AT_SLICE (R85): a hit in the slice's TLB returns to the core; else the miss joins a pending one, or takes a
place in the table of 32 and walks when one of the eight walks is free; with the table full it waits at the slice's input,
ahead of later misses. -/
def State.missAtSlice (s : State) (c ctx va : Nat) (acc : Acc) : State :=
  let die := dieOf c
  let k := xlKey die ctx va
  match sliceHit s die ctx va with
  | some l => s.fillTlb c l
  | none =>
    let x := Tbl.getD s.xl k {}
    if x.misses.any fun m => m.ctx == ctx && m.vpage == va / 65536 then s.joinMiss c ctx va acc
    else if 32 ≤ x.misses.length then { s with flight := placeBefore (sameInput k) (.tlbMissAtSlice c ctx va acc) s.flight }
    else
      let s := s.onSlice k fun x => { x with misses := x.misses ++ [{ ctx := ctx, vpage := va / 65536 }] }
      (s.joinMiss c ctx va acc).startWalk die k

/-- The entries that a walk from a node reads (R76). -/
def walkReads (s : State) (ctx va lvl node : Nat) : List Nat :=
  let epa := node + 16 * levelIndex lvl va
  match lvl with
  | 0 => [epa]
  | n + 1 =>
    let w0 := (s.read64 epa).toNat
    epa :: if w0 % 4 == 1 && !badPointer s.pkg.num (n + 1) w0 (s.read64 (epa + 8)).toNat then
        walkReads s ctx va n (bits w0 51 9 * 512) else []

/-- A walk meets a line that serves no read yet, or a slice that is being moved (R123, R365). -/
def walkHeld (s : State) (die ctx va : Nat) : Bool :=
  let (lvl, node) := walkStart s (xlKey die ctx va) ctx va
  (walkReads s ctx va lvl node).any fun a => ownHbm s a && (lineHeld s a || accessHeld s a)

/-- A request that no TLB serves cannot have its walk at once: a miss on its page is pending, the slice's table of 32 is full or its
eight walks are in flight, another miss waits at its input, or the walk meets a line that serves no read yet (R85, R123). A miss
that finds the slice free walks within its own turn. -/
def missWaits (s : State) (c ctx va : Nat) : Bool :=
  let k := xlKey (dieOf c) ctx va
  let x := Tbl.getD s.xl k {}
  pagingOn s ctx && !((s.coreAt c).l1tlb.any (covers ctx va)) && (sliceHit s (dieOf c) ctx va).isNone &&
    ((x.misses.any fun m => m.ctx == ctx && m.vpage == va / 65536) || decide (32 ≤ x.misses.length) || decide (8 ≤ walksOf x) ||
      s.flight.any (sameInput k) || walkHeld s (dieOf c) ctx va)

/-- A request enters the slice's table, or waits at its input behind those that wait there, once (R85). -/
def State.enterMiss (s : State) (c ctx va : Nat) (acc : Acc) : State :=
  if s.flight.any fun i => match i with
    | .tlbMissAtSlice c' x va' _ => c' == c && x == ctx && va' == va
    | _ => false
  then s
  else if s.flight.any (sameInput (xlKey (dieOf c) ctx va)) then s.launch (.tlbMissAtSlice c ctx va acc)
  else s.missAtSlice c ctx va acc

/-- An address lies in the own local store of a core: window 0xE, or window 0xF naming the core (R59). -/
def inOwnStore (c va : Nat) : Bool := window va == 0xE || (window va == 0xF && bits va 47 36 == c)

/-- The place of an address that the current instruction uses, after every check but the typed ones; a failing check
ends the instruction as R86 and R87 give. An access to a lost chain consumes uncorrectable data (R101). access: it is an access, to
which the pull-work rule applies (R89); own: it is a load or a store, with which a sprinkle handler reaches its own local store
only (R224). Accesses wait while a
combinable atomic of the core is outstanding (R257). An atomic that has been performed at the head of a chain, and waits for its
store's completion, has passed the checks, and its place is no longer used (R104). -/
def resolveFor (access own : Bool) (va size : Nat) (acc : Acc) : M Place := do
  let s ← get
  let ctx := s.ctxNo
  if s.core.ret.isSome then pure (.mem 0)
  else if s.core.outst ≠ [] then stall
  else if own && s.core.trig.kind == 1 && !inOwnStore s.cur va then endWith fun s => s.sprinkleFail s.cur
  else if va % size ≠ 0 then trap 0x03 (word va)
  else if 0xE ≤ window va then
    match checkWindow s s.cur ctx va with
    | .ok pl => pure pl
    | _ => trap 0x05 (word va)
  else if missWaits s s.cur ctx va then
    set (s.enterMiss s.cur ctx va acc)
    stall
  else
    let (r, t) := checkPaged s s.cur ctx va acc (!access)
    set t
    match r with
    | .ok pl => match chainLost t pl with
      | some ch => endWith fun s => s.consume s.cur 0x24 va (word va) ch
      | none => pure pl
    | .absent => endWith fun s => s.notPresent s.cur va acc
    | .prot => trap 0x05 (word va)
    | .cset => trap 0x06 (word va)
    | .poisoned cls => endWith fun s => s.consume s.cur cls va (word va)
    | .pull l => endWith fun s => s.pull s.cur l

/-- The place of an access of the current instruction. -/
def resolve (va size : Nat) (acc : Acc) : M Place := resolveFor true true va size acc

/-- As resolve, for an address of which an atomic on host memory is refused (R129). -/
def resolveAtomic (va size : Nat) (acc : Acc) : M Place := do
  let pl ← resolve va size acc
  match pl with
  | .mem pa => if rowOf pa = .host then trap 0x05 (word va) else pure pl
  | .chain _ _ _ => pure pl

end Sys2Proof.Machine
end

