-- ==== Sys2Proof/Machine/Home.lean ====
section
/-!
DEFINITION. What happens at a serialisation point: stores, atomics, ring operations and task operations at a home slice
or a local store, and stores on their way along a chain (chapters 05, 06, 12 and 14). The meanings and the device's own
steps share these operations.
-/
namespace Sys2Proof.Machine

/-! ## Places -/

/-- The place moved by a number of bytes. -/
def Place.plus (p : Place) (n : Nat) : Place :=
  match p with
  | .mem pa => .mem (pa + n)
  | .chain ctx ch off => .chain ctx ch (off + n)

/-- The offset of a place in its line. -/
def Place.inLine (p : Place) : Nat :=
  match p with
  | .mem pa => pa % 64
  | .chain _ _ off => off % 64

/-- The line of a place. -/
def Place.line (p : Place) : Place :=
  match p with
  | .mem pa => .mem (pa / 64 * 64)
  | .chain ctx ch off => .chain ctx ch (off / 64 * 64)

/-- A chain of a context. -/
def chainOf (s : State) (ctx ch : Nat) : Chain := Tbl.getD (s.ctxAt ctx).chains ch {}

/-- A chain of a context changed. -/
def State.onChain (s : State) (ctx ch : Nat) (f : Chain → Chain) : State :=
  s.onCtx ctx fun x => { x with chains := Tbl.put x.chains ch (f (Tbl.getD x.chains ch {})) }

/-- The record of a chain that this package keeps: the table entry of an own context, or the foreign record of another
package's chain (R101, R114). -/
def chainAt (s : State) (owner ctx ch : Nat) : Chain :=
  if owner = s.pkg.num then chainOf s ctx ch
  else ((s.pkg.foreign.find? fun f => f.owner == owner && f.ctx == ctx && f.ch == ch).map Foreign.e).getD {}

/-- The record of a chain changed. -/
def State.onChainAt (s : State) (owner ctx ch : Nat) (f : Chain → Chain) : State :=
  if owner = s.pkg.num then s.onChain ctx ch f
  else s.onPkg fun p => { p with foreign := p.foreign.map fun g =>
    if g.owner == owner && g.ctx == ctx && g.ch == ch then { g with e := f g.e } else g }

/-- A chain store touches a line. -/
def touches (st : ChainStore) (line : Nat) : Bool := st.data.any fun b => lineOf b.1 == line

/-- The last element of a member list. -/
def tailOf (ls : List (Nat × Nat)) : Nat × Nat := ls.getLastD (0, 0)

/-- The link that serves a read by a core (R106). -/
def servingLink (s : State) (c : Nat) (e : Chain) : Nat × Nat :=
  if e.links.contains (s.pkg.num, dieOf c) then (s.pkg.num, dieOf c)
  else match (List.range 8).find? fun d => e.links.contains (s.pkg.num, d) with
    | some d => (s.pkg.num, d)
    | none => e.links.headD (0, 0)

/-- The line is dirty at a member: a store that it has applied is not acknowledged (R107). -/
def dirtyAt (e : Chain) (l : Nat × Nat) (line : Nat) : Bool := e.log.any fun x => x.1 == l && touches x.2 line

/-- The line of a place is dirty at the head of its chain: what is read there has not taken effect yet (R108). -/
def dirtyHead (s : State) (pl : Place) : Bool :=
  match pl with
  | .mem _ => false
  | .chain x ch off => let e := chainOf s x ch; dirtyAt e (e.links.headD (0, 0)) (lineOf off)

/-- Where a read by a core takes a chain line from: the serving link when its line is clean, else the tail (R106). -/
def readLink (s : State) (c : Nat) (e : Chain) (off : Nat) : Nat × Nat :=
  let l := servingLink s c e
  if dirtyAt e l (lineOf off) then tailOf e.links else l

/-! ## Stores along a chain (R103, R107, R112, R113) -/

/-- Two chain stores have one id (R103). -/
def sameId (a b : ChainStore) : Bool := a.pkg == b.pkg && a.core == b.core && a.seq == b.seq

/-- Two steps of stores belong to one chain. -/
def sameChain (a b : ChainStore) : Bool := a.pkg == b.pkg && a.ctx == b.ctx && a.ch == b.ch

/-- The line of a store at a link, by in-die offset (R103). -/
def lineImage (s : State) (l : Nat × Nat) (st : ChainStore) : List (Nat × Byte) :=
  match st.data with
  | [] => []
  | b :: _ => (s.readPa (linkPa l (lineOf b.1)) 64).mapIdx fun i x => (lineOf b.1 + i, x)

/-- What a completing store left in the bytes that a monitor at the head watches (R104). -/
def storedValue (head : Nat × Nat) (st : ChainStore) (w : WatchReq) : Word :=
  watchWord w ((List.range w.width).map fun i =>
    ((st.after.find? fun b => linkPa head b.1 == w.pa + i).map Prod.snd).getD 0)

/-- The monitors of a chain line, which the head keeps, fire when a store completes that has changed the watched value, by the value
that it left (R104, R258). -/
def State.fireChain (s : State) (head : Nat × Nat) (st : ChainStore) : State :=
  let lines := st.after.map fun b => linkPa head (lineOf b.1)
  let fires := fun (w : WatchReq) => lines.contains (lineOf w.pa) && watchDiffers w (storedValue head st w)
  (s.mons.filter fires).foldl (fun s w => s.sendWake w (storedValue head st w) 0) { s with mons := s.mons.filter fun w => !fires w }

/-- The monitors that a chain's head keeps go with its role to another member (R111, R258). -/
def State.moveMons (s : State) (ctx ch : Nat) (old new : Nat × Nat) : State :=
  let e := chainOf s ctx ch
  let mine := fun (w : WatchReq) =>
    decide (linkPa old (e.base * 65536) ≤ w.pa) && decide (w.pa < linkPa old ((e.base + e.npg + 1) * 65536))
  { s with mons := s.mons.map fun w => if mine w then { w with pa := w.pa - linkPa old 0 + linkPa new 0 } else w }

/-- The store's id has reached a link before (R112). -/
def seenBefore (e : Chain) (l : Nat × Nat) (st : ChainStore) : Bool :=
  e.seen.any fun x => x.1 == l && x.2.1 == st.pkg && x.2.2.1 == st.core && x.2.2.2 == st.seq

/-- The ids of the last 16,384 stores that reached a link on a chain, with one more (R112). -/
def remember (l : Nat × Nat) (st : ChainStore) (seen : List ((Nat × Nat) × Nat × Nat × Nat)) : List ((Nat × Nat) × Nat × Nat × Nat) :=
  let (own, others) := seen.partition fun x => x.1 == l
  (l, st.pkg, st.core, st.seq) :: own.take 16383 ++ others

/-- The store stands in a member's in-flight log. -/
def logged (e : Chain) (l : Nat × Nat) (st : ChainStore) : Bool := e.log.any fun x => x.1 == l && sameId x.2 st

/-- A request leaves for another package with a tenant, its key and a share class (R113, R376, R378). -/
def ualChain (s : State) (st : ChainStore) (b : UalBody) : UalReq := 
  { pkg := s.pkg.num, tenant := st.tenant, key := st.key, share := st.share, body := b }

/-- A store leaves for a link of another package over UALink, with the key of the owning context's tenant (R113). -/
def State.overUal (s : State) (l : Nat × Nat) (st : ChainStore) : State :=
  if l.1 = s.pkg.num then s else { s with outs := s.outs ++ [.ual l.1 (ualChain s st (.chainStore st))] }

/-- The link of a hop lies in this package: so does its requester where the hop is none. -/
def sentHere (s : State) (e : Chain) (hop : Nat) : Bool :=
  match hop with
  | 0 => true
  | h + 1 => (e.links.getD h (s.pkg.num, 0)).1 == s.pkg.num

/-- A store goes on to a link. The links of an own chain are served by the model's own steps, whatever package they lie in; a
link of another package is reached from this one over UALink (R113, log 14 DESIGN CHOICE). -/
def State.toLink (s : State) (st : ChainStore) : State :=
  let e := chainAt s st.pkg st.ctx st.ch
  let l := e.links.getD st.hop (s.pkg.num, 0)
  let st := { st with sender := none }
  let s := if sentHere s e st.hop then s.overUal l st else s
  if st.pkg = s.pkg.num ∨ l.1 = s.pkg.num then s.launch (.chainStoreAtLink st) else s

/-- An acknowledgement goes up from the link of the store's hop: to the member before it, over UALink where that lies in another
package, or to the requester (R103, R113). -/
def State.toMember (s : State) (st : ChainStore) : State :=
  match st.hop with
  | 0 => s.launch (.chainAcknowledgement st)
  | h + 1 =>
    let e := chainAt s st.pkg st.ctx st.ch
    let l := e.links.getD h (s.pkg.num, 0)
    let s := if l.1 ≠ s.pkg.num ∧ sentHere s e (h + 2) then { s with outs := s.outs ++ [.ual l.1 (ualChain s st (.chainAck st))] } else s
    if st.pkg = s.pkg.num ∨ l.1 = s.pkg.num then s.launch (.chainAcknowledgement st) else s

/-- A store that a link takes for the first time: it is applied, counted at the head, and remembered. -/
def State.takeStore (s : State) (l : Nat × Nat) (st : ChainStore) : State :=
  let writer := if st.pkg = s.pkg.num && l.1 == s.pkg.num && l.2 == dieOf st.core then some st.core else none
  let s := s.applyStore l st writer
  let s := if st.hop = 0 && st.pkg == s.pkg.num then
      st.data.head?.elim s fun b => s.count st.ctx (dieOf st.core) (linkPa l b.1) true
    else s
  s.onChainAt st.pkg st.ctx st.ch fun e => { e with seen := remember l st e.seen }

/-- A store that the tail has applied goes to a syncing link, which applies it and remembers its id (R103, R107). -/
def State.toSync (s : State) (st : ChainStore) : State :=
  let e := chainAt s st.pkg st.ctx st.ch
  match e.sync with
  | some y =>
    let s := if sentHere s e e.links.length then s.overUal y { st with hop := e.links.length, sender := none } else s
    if st.pkg = s.pkg.num ∨ y.1 = s.pkg.num then
      (s.applyStore y st none).onChainAt st.pkg st.ctx st.ch fun e => { e with seen := remember y st e.seen }
    else s
  | none => s

/-- The acknowledgement of a store's first arrival is on its way, at its link's place or nearer to the head, or its completion is,
or its requester has that (R112). -/
def acked (s : State) (st : ChainStore) : Bool :=
  (s.flight.any fun i => match i with
    | .chainAcknowledgement t => sameChain t st && sameId t st && decide (t.hop ≤ st.hop)
    | .chainStoreCompletion t => sameChain t st && sameId t st
    | _ => false) ||
  (st.hop == 0 && st.pkg == s.pkg.num && !((s.holder st.core st.ctx).chainOut.any (sameId st)))

/-- A port refuses a chain store: a copy engine's beat ends its command with status 3, and any other store is dropped with class 0x2C
(R377). -/
def State.refuseStore (s : State) (st : ChainStore) (pkg : Nat) : State :=
  let beat := fun (h : Chan) => h.cur.any fun k => k.sent != 0 && k.sentId == st.seq
  if st.pkg = s.pkg.num && (s.holder st.core st.ctx).cp.chans.toList.any beat then
    s.onHolder st.core st.ctx fun x => { x with cp := { x.cp with
      chans := x.cp.chans.map fun h => if beat h then { h with cur := h.cur.map fun k => { k with turned := true } } else h } }
  else s.logRefusal st.ctx st.core st.va pkg

/-- A chain store reaches the link of its hop: it is applied, logged and forwarded, or applied and acknowledged at the tail,
which forwards to a syncing link (R103). A store that arrives again is not applied a second time, and its completion follows
that of the first arrival (R112). A port of another package that refuses drops it with class 0x2C (R377). On a lost chain it
meets uncorrectable data after its instruction has retired: it is logged and completes (R112, R353). -/
def State.chainArrive (s : State) (st : ChainStore) : State :=
  let e := chainAt s st.pkg st.ctx st.ch
  match e.links[st.hop]? with
  | none =>
    if st.hop = e.links.length ∧ e.sync.isSome then s.toSync st
    else (s.logCore st.ctx 0x24 0x0E st.core st.va st.ch).launch (.chainStoreCompletion st)
  | some l =>
    if seenBefore e l st then (if logged e l st || acked s st then s else s.toMember st)
    else if l.1 ≠ s.pkg.num ∧ refuses s l.1 then (s.refuseStore st l.1).toMember st
    else
      let s := s.takeStore l st
      let st := { st with after := lineImage s l st }
      if st.hop + 1 < e.links.length then
        (s.onChainAt st.pkg st.ctx st.ch fun e => { e with log := e.log ++ [(l, st)] }).toLink { st with hop := st.hop + 1 }
      else (s.toSync st).toMember st

/-- An acknowledgement reaches the member before the link of its hop, which removes the store from its log and passes it on;
or it is the head's own, and the store completes (R103, R104, R107). One for a store that has left the log ends there. -/
def State.chainAck (s : State) (st : ChainStore) : State :=
  let e := chainAt s st.pkg st.ctx st.ch
  match st.hop with
  | 0 =>
    let s := match e.links with
      | [] => s
      | h :: _ => s.fireChain h st
    s.launch (.chainStoreCompletion st)
  | h + 1 =>
    let l := e.links.getD h (0, 0)
    if logged e l st then
      (s.onChainAt st.pkg st.ctx st.ch fun e => { e with log := e.log.filter fun x => !(x.1 == l && sameId x.2 st) }).toMember
        { st with hop := h }
    else s

/-- The stores applied at a chain's head and not yet completed (Table 5.3): those in its log, and those whose completion it
is sending, by their ids. -/
def chainPend (s : State) (ctx ch : Nat) : Nat :=
  let e := chainOf s ctx ch
  let id := fun (st : ChainStore) => (st.pkg, st.core, st.seq)
  let logged := (e.log.filter fun x => some x.1 == e.links.head?).map fun x => id x.2
  min 4095 (distinct (logged ++ s.flight.filterMap fun i => match i with
    | .chainAcknowledgement st =>
      if st.pkg == s.pkg.num && st.ctx == ctx && st.ch == ch && st.hop == 0 then some (id st) else none
    | _ => none)).length

/-- The in-flight log of a link's die over all chains (R103). -/
def dieLog (s : State) (l : Nat × Nat) : Nat :=
  let mine := fun (e : Chain) => (e.log.filter fun g => g.1 == l).length
  (s.ctxs.map fun x => (x.2.chains.map fun e => mine e.2).sum).sum + (s.pkg.foreign.map fun f => mine f.e).sum

/-- A member that is not the tail finds its die's log of 4,096 stores full (R103). -/
def logFull (s : State) (e : Chain) (hop : Nat) : Bool :=
  decide (hop + 1 < e.links.length) && (e.links[hop]?).any fun l => decide (4096 ≤ dieLog s l)

/-- A store at the head that carries what an operation has left there is still on its way to the head: it was sent again after the
loss of another head, or waits at the head's input (R103, R104, R112). -/
def homeQueued (s : State) (ctx ch line : Nat) : Bool :=
  s.flight.any fun i => match i with
    | .chainStoreAtLink st => st.home && st.hop == 0 && st.pkg == s.pkg.num && st.ctx == ctx && st.ch == ch && touches st line
    | _ => false

/-- The head of an own chain takes no operation on a line now: it is being reconfigured, its die's log is full, or an earlier
operation's bytes are still to reach it (R103, R108, R112). -/
def headHeld (s : State) (ctx ch line : Nat) : Bool :=
  let e := chainOf s ctx ch
  e.reconf || logFull s e 0 || homeQueued s ctx ch line

/-- The bytes at a physical address as the operations have left them that have reached the heads of chains, or are in their turn there:
an earlier one's bytes may still wait at a head's input (R103, R104). -/
def headBytes (s : State) (pa n : Nat) : List Byte :=
  s.flight.foldl (fun bs i => match i with
    | .chainStoreAtLink st =>
      if st.home && st.hop == 0 && st.pkg == s.pkg.num then
        let head := (chainOf s st.ctx st.ch).links.headD (0, 0)
        bs.mapIdx fun k x => ((st.data.find? fun b => linkPa head b.1 == pa + k).map Prod.snd).getD x
      else bs
    | _ => bs) (s.readPa pa n)

/-- The group and the key of an ordered trigger (R299). -/
def orderKey (m : Msg) : Option (Nat × Nat × Nat) := if m.ord then m.key.map fun k => (m.grp, k) else none

/-- A chain store as a core's die keeps it: the next id of the core, the generation of the table copy that routes it, and
what a UALink hop carries (R102, R103, R113). -/
def chainStoreOf (s : State) (c ctx ch va : Nat) (data : List (Nat × Byte)) (ans : Option (AtomReq × Word)) : ChainStore :=
  let y := s.ctxAt ctx
  { pkg := s.pkg.num, core := c, seq := (s.holder c ctx).chainSeq % 2 ^ 32, ctx := ctx, ch := ch, data := data,
    gen := (chainOf s ctx ch).gen, va := va, tenant := y.tenant, key := Tbl.getD s.pkg.keys y.tenant 0,
    share := fld y.shcls 4 0, answer := ans, okey := orderKey (s.holder c ctx).trig }

/-- A request leaves for another package with the context's tenant, key and share class (R376, R378). -/
def ualOf (s : State) (ctx : Nat) (b : UalBody) : UalReq :=
  let x := s.ctxAt ctx
  { pkg := s.pkg.num, tenant := x.tenant, key := Tbl.getD s.pkg.keys x.tenant 0, share := fld x.shcls 4 0, body := b }

/-- An access to the memory of another package leaves as a request (R376). -/
def State.askRemote (s : State) (ctx pa : Nat) (b : UalBody) : State :=
  if paPkg pa = s.pkg.num then s else { s with outs := s.outs ++ [.ual (paPkg pa) (ualOf s ctx b)] }

/-- A write to the memory of another package leaves as a request (R376). -/
def State.askWrite (s : State) (c ctx pa va : Nat) (bs : List Byte) : State :=
  s.askRemote ctx pa (.mem { core := c, pkg := s.pkg.num, ctx := ctx, va := va, pa := pa, data := bs, acc := .write })

/-- An atomic whose serialisation point lies in another package leaves as a request, for the head where it is on a chain line (R113,
R376). -/
def State.askAtomic (s : State) (c ctx : Nat) (pl : Place) (fn width : Nat) (operand cmp : Word) (va : Nat) : State :=
  let q : AtomReq := { core := c, pkg := s.pkg.num, ctx := ctx, fn := fn, width := width, va := va, operand := operand, cmp := cmp }
  match pl with
  | .mem pa => s.askRemote ctx pa (.atomic { q with pa := pa })
  | .chain x ch off =>
    let pa := linkPa ((chainOf s x ch).links.headD (s.pkg.num, 0)) off
    s.askRemote ctx pa (.chainAtomic { q with pa := pa, chain := some (ch, off), gen := (chainOf s x ch).gen })

/-- An atomic that was sent back, for the head of its chain as the table has it now (R102). -/
def State.askHead (s : State) (r : AtomReq) : State :=
  match r.chain with
  | none => s
  | some (ch, off) =>
    let pa := linkPa ((chainOf s r.ctx ch).links.headD (s.pkg.num, 0)) off
    s.askRemote r.ctx pa (.chainAtomic { r with pa := pa, gen := (chainOf s r.ctx ch).gen })

/-- A core's die keeps a chain store until its completion (R105). -/
def Core.keepStore (x : Core) (st : ChainStore) : Core := { x with chainSeq := x.chainSeq + 1, chainOut := x.chainOut ++ [st] }

/-- A chain store leaves its requester for the head (R103, R105). -/
def State.chainIssue (s : State) (c ctx ch va : Nat) (data : List (Nat × Byte)) (bad : Bool := false) : State :=
  let st := { chainStoreOf s c ctx ch va data none with bad := bad }
  ((s.onHolder c ctx fun x => x.keepStore st).overUal ((chainOf s ctx ch).links.headD (s.pkg.num, 0)) st).launch (.chainStoreAtLink st)

/-- A store of the device for a context goes along one of its chains, under an id of the device's own: its number lies above those
of the cores (R103, R320). -/
def State.deviceStore (s : State) (ctx ch : Nat) (data : List (Nat × Byte)) : State :=
  let y := s.ctxAt ctx
  let st := { chainStoreOf s 0xFFF ctx ch 0 data none with seq := 2 ^ 31 + y.dseq % 2 ^ 31, okey := none }
  ((s.onCtx ctx fun y => { y with dseq := y.dseq + 1 }).overUal ((chainOf s ctx ch).links.headD (s.pkg.num, 0)) st).launch
    (.chainStoreAtLink st)

/-- A read of a line of a chain that leaves the package: for its serving link, or as the query of a serving link here for the tail
(R106, R113). -/
def State.askChain (s : State) (c : Nat) (q : MemReq) : State :=
  match q.chain with
  | none => s
  | some (ch, off) =>
    let e := chainOf s q.ctx ch
    let l := servingLink s c e
    let q := { q with gen := e.gen }
    if l.1 = s.pkg.num then s.askRemote q.ctx (linkPa (readLink s c e off) off) (.tailQuery q)
    else s.askRemote q.ctx (linkPa l off) (.chainRead { q with pa := linkPa l off })

/-- The bytes of a doubleword or word by in-die offset. -/
def atOffsets (off : Nat) (bs : List Byte) : List (Nat × Byte) := bs.mapIdx fun i b => (off + i, b)

/-! ## Stores to physical memory -/

/-- A store that a core has released reaches its place: the own package's memory, host memory, another package, or a
chain. A port that refuses drops it with class 0x2C (R377); a lost die takes it without effect with class 0x21
(R367); a write to device space sets its registers (Table 17.4). -/
def State.storeAt (s : State) (c ctx : Nat) (pl : Place) (va : Nat) (bs : List Byte) : State :=
  match pl with
  | .chain x ch off => s.chainIssue c x ch va (atOffsets off bs)
  | .mem pa =>
    if refuses s (paPkg pa) then s.logRefusal ctx c va (paPkg pa)
    else if ownHbm s pa && (s.dieAt (hbmDieOf pa)).lost then s.logCore ctx 0x21 0 c va 0
    else if rowOf pa = .device then
      let off := paLocal pa - 0x18000000000
      s.onPkg fun p => { p with weights := (bs.mapIdx fun i b => (off + i, b)).foldl (fun t e =>
        if 0x10000 ≤ e.1 ∧ e.1 < 0x10000 + 32 * 24 then Tbl.put t (e.1 - 0x10000) e.2 else t) p.weights }
    else (s.askWrite c ctx pa va bs).perform ctx (some c) (lsRedirect s ctx pa) bs

/-- The bytes of a line entry, by offset in the line, take effect at one instant (R275). -/
def State.storeBytes (s : State) (c ctx : Nat) (pl : Place) (va : Nat) (bs : List (Nat × Byte)) : State :=
  match pl with
  | .chain x ch off => if bs = [] then s else s.chainIssue c x ch va (bs.map fun b => (off + b.1, b.2))
  | .mem pa =>
    if refuses s (paPkg pa) || (ownHbm s pa && (s.dieAt (hbmDieOf pa)).lost) then
      s.storeAt c ctx pl (va + (bs.headD (0, 0)).1) (bs.map Prod.snd)
    else if rowOf pa = .device then bs.foldl (fun s b => s.storeAt c ctx (.mem (pa + b.1)) (va + b.1) [b.2]) s
    else
      let q := lsRedirect s ctx pa
      let s := bs.foldl (fun s b => s.askWrite c ctx (pa + b.1) (va + b.1) [b.2]) s
      s.performLine ctx (some c) (lineOf q) (bs.map fun b => (q + b.1, b.2))

/-! ## Atomics at their serialisation point (R256) -/

/-- The physical address at which a place is serialised: memory, the image of a local store, or the head's copy. -/
def homePa (s : State) (ctx : Nat) (pl : Place) : Nat :=
  match pl with
  | .mem pa => lsRedirect s ctx pa
  | .chain x ch off => linkPa ((chainOf s x ch).links.headD (0, 0)) off

/-- The package that refuses an operation on a place at its serialisation point (R377). -/
def refusedBy (s : State) (pl : Place) : Option Nat :=
  let pkg := match pl with
    | .mem pa => paPkg pa
    | .chain x ch _ => ((chainOf s x ch).links.headD (s.pkg.num, 0)).1
  if refuses s pkg then some pkg else none

/-- An access to a place is held (R365, R386). -/
def placeHeld (s : State) (pl : Place) : Bool :=
  match pl with
  | .mem pa => accessHeld s pa
  | .chain x ch off => ((chainOf s x ch).links.head?).any fun l => accessHeld s (linkPa l off)

/-- A request waits at the home slice of a line of memory: a store takes effect behind it (R128). -/
def placeAwaited (s : State) (ctx : Nat) (pl : Place) : Bool :=
  match pl with
  | .mem pa => lineAwaited s (lsRedirect s ctx pa)
  | .chain _ _ _ => false

/-- A core's own L1 copies of an atomic's line are gone: where the core reads it, and at its serialisation point (R124). -/
def State.dropOwn (s : State) (c ctx : Nat) (pl : Place) : State :=
  let served := match pl with
    | .mem pa => pa
    | .chain x ch off => linkPa (servingLink s c (chainOf s x ch)) off
  s.onCore c fun y => (y.dropLine (lineOf served)).dropLine (lineOf (homePa s ctx pl))

/-- The value of an atomic's location as the destination receives it (R256). -/
def oldValue (width x : Nat) : Word := if width = 8 then word x else (BitVec.ofNat 32 x).signExtend 64

/-- The data of an operation at its serialisation point is uncorrectable: the line of the own package's HBM fails a check of
Table 3.7 or its die is lost, another line is poisoned, or the chain is lost (R353, R367, R112). -/
def homeFails (s : State) (ctx : Nat) (pl : Place) : Option Nat :=
  if (chainLost s pl).isSome then some 0x24
  else
    let pa := homePa s ctx pl
    if ownHbm s pa then hbmError s ctx pa else if poisoned s pa then some (poisonClass s pa) else none

/-- Bytes written by an operation at its serialisation point: on a chain line they then travel down the chain as a store, whose
completion returns the value of a combined request (R104). One that the device makes itself while the head takes none waits at the
head's input (R103, R112). -/
def State.writeHome (s : State) (c ctx : Nat) (pl : Place) (va : Nat) (bs : List Byte) (ans : Option (AtomReq × Word) := none) :
    State :=
  match pl with
  | .mem pa => if rowOf pa = .device then s.storeAt c ctx pl va bs else s.perform ctx (some c) (lsRedirect s ctx pa) bs
  | .chain x ch off =>
    let st := { chainStoreOf s c x ch va (atOffsets off bs) ans with home := true }
    let t := s.onHolder c x fun y => y.keepStore st
    if headHeld s x ch (lineOf off) then t.launch (.chainStoreAtLink st) else t.chainArrive st

/-- An atomic in one step at its serialisation point: the old value, and the machine after it (R128, R256). A core's
own atomic invalidates its L1 copy (R124). -/
def State.atomicAt (s : State) (c ctx : Nat) (pl : Place) (fn width : Nat) (operand cmp : Word) (va : Nat := 0)
    (req : Option AtomReq := none) : Word × State :=
  let w := 8 * width
  let x := ofBytes (s.bytesAt (homePa s ctx pl) width)
  let s := (s.dropOwn c ctx pl).askAtomic c ctx pl fn width operand cmp va
  let old := oldValue width x
  match atomicFn fn w x (operand.toNat % 2 ^ w) (cmp.toNat % 2 ^ w) with
  | some y => (old, s.writeHome c ctx pl va (toBytes width y) (req.map fun r => (r, old)))
  | none => (old, s.count ctx (dieOf c) (homePa s ctx pl) true)

/-- A request of a core that reaches its line's home slice and changes nothing there is counted with the atomics (R67). -/
def State.asked (s : State) (c ctx : Nat) (pl : Place) : State := s.count ctx (dieOf c) (homePa s ctx pl) true

/-- A non-returning atomic at its serialisation point; on uncorrectable data it changes nothing and is logged
(R353), and a refusing port drops it (R377). -/
def State.atomicHome (s : State) (c ctx : Nat) (pl : Place) (r : AtomReq) : State :=
  match homeFails s ctx pl, refusedBy s pl with
  | some cls, _ => s.logCore ctx cls 0x0E c r.va (failDetail cls pl)
  | none, some pkg => s.logRefusal ctx c r.va pkg
  | none, none => (s.atomicAt c ctx pl r.fn r.width r.operand r.cmp r.va).2

/-! ## Watches (R258) -/

/-- The number of monitors that a location's table holds, those of Ethernet ports on their transmit rings included (R258, R380). -/
def monsAt (s : State) (pa : Nat) : Nat :=
  let here := fun (a : Nat) => paPkg a == paPkg pa && homeSlice a == homeSlice pa && hbmDieOf a == hbmDieOf pa
  if rowOf pa = .localStore && paPkg pa == s.pkg.num then (s.coreAt (lsCore pa)).lmon.length
  else (s.mons.filter fun w => here w.pa).length + (s.pkg.qps.filter fun q => here q.2.tx).length

/-- The address at which a watch of a place arms: memory or a local store, or the head's copy of a chain line. -/
def watchPa (s : State) (pl : Place) : Nat :=
  match pl with
  | .mem pa => pa
  | .chain x ch off => linkPa ((chainOf s x ch).links.headD (0, 0)) off

/-- A watch at its serialisation point: an immediate wake-up, or an armed monitor. -/
def State.watchAt (s : State) (r : WatchReq) : State :=
  let v := watchValue s r
  let s := (if r.origin.isSome then s else s.count r.ctx (dieOf r.core) r.pa true).askRemote r.ctx r.pa (.watch r)
  if watchDiffers r v then s.sendWake r v 1
  else if 256 ≤ monsAt s r.pa then s.sendWake r v 2
  else if rowOf r.pa = .localStore && paPkg r.pa == s.pkg.num then
    s.onCore (lsCore r.pa) fun x => { x with lmon := x.lmon ++ [r] }
  else { s with mons := s.mons ++ [r] }

/-! ## Rings (R263 to R268) -/

/-- A ring's control block as read. -/
structure Ring where
  head : Nat
  cmt : Nat
  tail : Nat
  cmap : Nat
  w4 : Nat
  w5 : Nat
  rest : Nat
  deriving DecidableEq, Repr

/-- A control block from its 64 bytes (Table 12.9). -/
def ringOf (bs : List Byte) : Ring :=
  let f := fun i => ofBytes ((bs.drop (8 * i)).take 8)
  ⟨f 0, f 1, f 2, f 3, f 4, f 5, f 6 + f 7⟩

/-- The control block at a physical address. -/
def ringAt (s : State) (pa : Nat) : Ring := ringOf (s.bytesAt pa 64)

/-- log2 of the number of slots. -/
def Ring.lgn (r : Ring) : Nat := bits r.w4 4 0
/-- The number of slots. -/
def Ring.n (r : Ring) : Nat := 2 ^ r.lgn
/-- The bytes of a slot. -/
def Ring.z (r : Ring) : Nat := (bits r.w4 13 8 + 1) * 64
/-- A malformed block (R263). -/
def Ring.bad (r : Ring) : Bool :=
  bits r.w4 63 14 != 0 || bits r.w4 7 5 != 0 || bits r.w5 63 19 != 0 || r.rest != 0 || r.lgn == 0 || 16 < r.lgn

/-- The address of slot k mod n of the ring whose block lies at an address. -/
def Ring.slot (r : Ring) (cb k : Nat) : Nat := cb + 64 + k % r.n * r.z

/-- No sequence number can be reserved (R265). -/
def Ring.full (r : Ring) : Bool := decide (r.head - r.tail = r.n) || decide (r.head - r.cmt = 64)

/-- A ring operation on another package's memory leaves as a request (R376). -/
def State.askRing (s : State) (op c ctx : Nat) (pl : Place) (cb slot : Nat) : State :=
  let pa := watchPa s pl
  s.askRemote ctx pa (.ring { op := op, core := c, ctx := ctx, cb := cb, pa := pa, slot := slot })

/-- rg.acq at the control block: the slot's address or 0 (R265). -/
def State.ringAcq (s : State) (c ctx : Nat) (pl : Place) (cb : Nat) : Word × State :=
  let r := ringAt s (homePa s ctx pl)
  let s := s.askRing 0 c ctx pl cb 0
  if r.bad then (0, (s.asked c ctx pl).logCore ctx 0x29 0 c cb 0)
  else if r.full then (0, s.asked c ctx pl)
  else (word (r.slot cb r.head), s.writeHome c ctx pl cb (toBytes 8 (r.head + 1)))

/-- cmap and cmt after every leading set bit has been shifted out; at most 64 (R266). -/
def ringShift : Nat → Nat → Nat → Nat × Nat
  | 0, m, c => (m, c)
  | n + 1, m, c => if m % 2 = 1 then ringShift n (m / 2) (c + 1) else (m, c)

/-- The sequence number of the open slot at an offset behind the control block; none where the offset is no slot's, or no sequence
number of it is open (R266). -/
def Ring.named (r : Ring) (d : Nat) : Option Nat :=
  if d % r.z ≠ 0 ∨ r.n ≤ d / r.z then none
  else ((List.range 64).map (r.cmt + ·)).find? fun q => decide (q < r.head) && q % r.n == d / r.z && !bit r.cmap (q - r.cmt)

/-- The first four doublewords of the control block once a sequence number is committed, and the new cmt where a notify is due
(R266). -/
def Ring.commits (r : Ring) (q : Nat) : List Byte × Option Nat :=
  let (m, t) := ringShift 64 (r.cmap + 2 ^ (q - r.cmt)) r.cmt
  (toBytes 8 r.head ++ toBytes 8 t ++ toBytes 8 r.tail ++ toBytes 8 m,
   if r.cmt < t && r.cmt == r.tail && bit r.w5 18 then some t else none)

/-- The notify of a ring: to the core and the tag of its control block (R266). -/
def ringNotify (s : State) (r : Ring) (ctx cb t : Nat) : Msg := unitMsg s ctx (bits r.w5 11 0) (bits r.w5 17 12) [word cb, word t]

/-- rg.cmt at the control block (R266): notify context, and the slot's address. -/
def State.ringCmt (s : State) (c ctx : Nat) (pl : Place) (cb slot : Nat) : State :=
  let s := s.askRing 1 c ctx pl cb slot
  match homeFails s ctx pl with
  | some cls => s.logCore ctx cls 0x0E c cb (failDetail cls pl)
  | none =>
    let r := ringAt s (homePa s ctx pl)
    let misuse := (s.asked c ctx pl).logCore ctx 0x29 0 c cb 0
    if r.bad then misuse
    else
      match r.named (slot - cb - 64) with
      | none => misuse
      | some q =>
        let (bs, t) := r.commits q
        let s := s.writeHome c ctx pl cb bs
        t.elim s fun t => s.send (ringNotify s r ctx cb t)

/-- rg.rel at the control block (R267). -/
def State.ringRel (s : State) (c ctx : Nat) (pl : Place) (cb : Nat) : State :=
  let s := s.askRing 2 c ctx pl cb 0
  match homeFails s ctx pl with
  | some cls => s.logCore ctx cls 0x0E c cb (failDetail cls pl)
  | none =>
    let r := ringAt s (homePa s ctx pl)
    if r.bad || r.cmt ≤ r.tail then (s.asked c ctx pl).logCore ctx 0x29 0 c cb 0
    else s.writeHome c ctx (pl.plus 16) cb (toBytes 8 (r.tail + 1))

end Sys2Proof.Machine
end

