-- ==== Sys2Proof/Machine/Units.lean ====
section
/-!
DEFINITION. The units that instructions command and that also act by themselves: tags, tasks and barriers (chapter 14),
launch entries and gates (chapter 15), run-out units and posts (chapter 11), invalidations, pins and replay (chapter
04), and chain commands (chapter 05).
-/
namespace Sys2Proof.Machine

/-! ## Route tags (R290, R291, R314) -/

/-- The tags of a context on a core. -/
def tagsOf (s : State) (c ctx : Nat) : TagSet := Tbl.getD (s.coreAt c).tags ctx {}

/-- A tag operation on a tag set: 0 en, 1 dis, 2 pend, 3 clr (Table 14.15). Tags without a default handler stay as
they are. -/
def TagSet.op (t : TagSet) (op : Nat) (mask arg : Word) : TagSet :=
  { t with tags := Tbl.mapv t.tags fun i x =>
      if x.dflt.isSome && bit mask.toNat i then
        match op with
        | 0 => { x with en := true, prio := if bit arg.toNat 2 then fld arg 1 0 else x.prio }
        | 1 => { x with en := false }
        | 2 => if x.spnd then x else { x with spnd := true, sage := 0 }
        | _ => { x with spnd := false, sage := 0 }
      else x }

/-- A tag operation takes effect on a core. -/
def State.tagOp (s : State) (c ctx op : Nat) (mask arg : Word) : State :=
  s.onCore c fun x => { x with tags := Tbl.put x.tags ctx ((Tbl.getD x.tags ctx {}).op op mask arg) }

/-- The messages of one tag in an inbox. -/
def ofTag (ctx tag : Nat) (ms : List Msg) : List Msg := ms.filter fun m => m.ctx == ctx && m.tag == tag

/-- The effective priority of an age (R291). -/
def eprio (prio age : Nat) : Nat := min 3 (prio + age / 65536)

/-! ## Launch entries (R317 to R322) -/

/-- A launch entry of a context. -/
def launchOf (s : State) (ctx e : Nat) : Launch := Tbl.getD (s.ctxAt ctx).launches e {}
/-- A launch entry changed. -/
def State.onLaunch (s : State) (ctx e : Nat) (f : Launch → Launch) : State :=
  s.onCtx ctx fun x => { x with launches := Tbl.put x.launches e (f (Tbl.getD x.launches e {})) }
/-- The trigger tag of a configuration. -/
def Launch.trig (l : Launch) : Nat := fld l.w1 37 32
/-- The group of a configuration. -/
def Launch.grp (l : Launch) : Nat := fld l.w1 15 8
/-- The indices of a firing. -/
def Launch.count (l : Launch) : Nat := fld l.w0 48 0
/-- A configuration's rearm bit set or cleared. -/
def withRearm (w1 : Word) (b : Bool) : Word := if b then w1 ||| 0x100000000000#64 else w1 &&& ~~~ 0x100000000000#64

/-- The physical address of a launch block's copy at a link, if lcbase's page is present (R320): its place. -/
def blockPlace (s : State) (ctx e : Nat) : Option Place :=
  let va := fld (s.ctxAt ctx).lcbase 51 12 * 4096 + 64 * e
  match walk s ctx va with
  | .leaf l _ => some (leafPlace s l va)
  | _ => none

/-- The launch block of an entry is rewritten (Table 15.4). -/
def State.writeBlock (s : State) (ctx e : Nat) : State :=
  let l := launchOf s ctx e
  let acks := (List.range 256).map fun b =>
    let i := l.low + 64 * b
    decide (i < l.next) && !(l.batches.any fun x => x.1 == i)
  let bitsOf := fun k => ((List.range 64).map fun j => flag (acks.getD (64 * k + j) false) j).sum
  let bs := toBytes 8 l.next ++ toBytes 8 l.low ++ toBytes 8 (l.leader * 2 ^ 56) ++ toBytes 8 l.pay.toNat ++
    (List.range 4).flatMap fun k => toBytes 8 (bitsOf k)
  match blockPlace s ctx e with
  | some (.mem pa) => s.perform ctx none pa bs
  | some (.chain x ch off) => s.deviceStore x ch (atOffsets off bs)
  | none => s

/-- The chain of a context's launch blocks is lost (Table 15.5). -/
def blocksLost (s : State) (ctx e : Nat) : Bool :=
  match blockPlace s ctx e with
  | some (.chain x ch _) => (chainOf s x ch).cst == 3
  | _ => false

/-- A firing whose launch blocks are lost stops, and its entry becomes idle (Table 15.5). -/
def State.stopFiring (s : State) (ctx e : Nat) : State :=
  (s.log ctx 0x2E 0 0xFFF (launchOf s ctx e).leader false 0 e).onLaunch ctx e fun l => { l with st := .idle, batches := [] }

/-- The firings whose launch blocks are lost stop (Table 15.5). -/
def State.stopLost (s : State) : State :=
  (s.ctxs.flatMap fun y => y.2.launches.map fun l => (y.1, l.1)).foldl (fun s k =>
    if (launchOf s k.1 k.2).st = .firing && blocksLost s k.1 k.2 then s.stopFiring k.1 k.2 else s) s

/-- The live dies of a group. -/
def liveDies (s : State) (ctx g : Nat) : List Nat :=
  (List.range 8).filter fun d => !(s.dieAt d).lost && (readyMembers s ctx g).any fun c => dieOf c == d

/-- The die that the device chooses for a firing's next batch, among the live ones (R321, log 15 DESIGN CHOICE). -/
def batchDie (s : State) (ctx g : Nat) : Option Nat :=
  match liveDies s ctx g with
  | [] => none
  | ds => ds[Config.freeChoice s.tick ds.length % ds.length]?

/-- An armed entry fires (R321): the lowest live die of its group leads; with no live die it waits, and class 0x2E is
logged. -/
def State.fire (s : State) (ctx e : Nat) (pay : Word) : State :=
  let d := liveDie s ctx (launchOf s ctx e).grp
  let s := s.onLaunch ctx e fun l => { l with
    st := .firing, fires := (l.fires + 1) % 256, pay := pay, next := 0, low := 0, batches := [], relead := false,
    led := d.isSome, leader := d.getD l.leader, fired := true, kept := none }
  let s := s.writeBlock ctx e
  match batchDie s ctx (launchOf s ctx e).grp with
  | some d => s.launch (.launchBatch ctx e d)
  | none => s.log ctx 0x2E 0 0xFFF (launchOf s ctx e).leader false 0 e

/-- An entry whose firing or arming is done: armed entries with missed triggers fire at once (Table 15.1). -/
def State.fireMissed (s : State) (ctx e : Nat) : State :=
  let l := launchOf s ctx e
  if l.st = .armed ∧ 0 < l.missed then
    (s.onLaunch ctx e fun l => { l with missed := l.missed - 1 }).fire ctx e l.saved
  else s

/-- The entry that holds a trigger tag. -/
def entryOf (s : State) (ctx tag : Nat) : Option Nat :=
  (List.range 64).find? fun e => (launchOf s ctx e).st != .empty && (launchOf s ctx e).trig == tag

/-- A non-empty entry holds a trigger tag: in its configuration, or in the one that a gl.arm left for the end of its firing
(R318). -/
def Launch.holdsTag (l : Launch) (tag : Nat) : Bool := l.st != .empty && (l.trig == tag || l.kept.any fun k => fld k.2 37 32 == tag)

/-- gl.arm takes effect (R317, R318). -/
def State.armEntry (s : State) (ctx e : Nat) (w0 w1 : Word) : State :=
  if (List.range 64).any fun k => k != e && (launchOf s ctx k).holdsTag (fld w1 37 32) then
    s.log ctx 0x2D 0 0xFFF 0 false 0 (fld w1 37 32)
  else if (launchOf s ctx e).st = .firing then s.onLaunch ctx e fun l => { l with kept := some (w0, w1) }
  else (s.onLaunch ctx e fun l => { l with st := .armed, w0 := w0, w1 := w1 }).fireMissed ctx e

/-- gl.disarm takes effect (R317). -/
def State.disarmEntry (s : State) (ctx e : Nat) : State :=
  s.onLaunch ctx e fun l =>
    match l.st with
    | .armed => { l with st := .idle }
    | .firing => { l with w1 := withRearm l.w1 false, kept := l.kept.map fun k => (k.1, withRearm k.2 false) }
    | _ => l

/-- A trigger reaches a launch entry (Table 15.1). -/
def State.trigger (s : State) (t : Trig) : State :=
  if (s.ctxAt t.ctx).state = 3 ∨ !(s.ctxAt t.ctx).live then s
  else
    let e := if t.byTag then entryOf s t.ctx t.n else some t.n
    match e with
    | none => s.log t.ctx 0x2D 0 0xFFF 0 false 0 t.n
    | some e =>
      let s := s.onLaunch t.ctx e fun l => if l.st = .empty then l else { l with hit := some s.pkg.cyc.toNat }
      match (launchOf s t.ctx e).st with
      | .empty => s.log t.ctx 0x2D 0 0xFFF 0 false 0 (launchOf s t.ctx e).trig
      | .armed => s.fire t.ctx e t.pay
      | _ => s.onLaunch t.ctx e fun l => { l with missed := min 0xFFFF (l.missed + 1), saved := t.pay }

/-- Every index of a firing is acknowledged: the completion notify, and the entry's next state, by the rearm bit of the
configuration that a gl.arm during the firing left, if any (R322, R317). -/
def State.firingDone (s : State) (ctx e : Nat) : State :=
  let l := launchOf s ctx e
  let s := if bit l.w1.toNat 45 then
      s.send (unitMsg s ctx (fld l.w1 63 52) (fld l.w1 51 46) [l.pay, word l.count, word e])
    else s
  let s := s.onLaunch ctx e fun l =>
    let l := match l.kept with
      | some (a, b) => { l with w0 := a, w1 := b, kept := none }
      | none => l
    { l with st := if bit l.w1.toNat 44 then .armed else .idle }
  s.fireMissed ctx e

/-- Indices below low are acknowledged: low moves past every batch handed out and acknowledged (R322). -/
def advanceLow (l : Launch) : Nat :=
  match (l.batches.map Prod.fst) with
  | [] => l.next
  | b :: rest => rest.foldl min b

/-- The batches without an acknowledged index; a batch with none left is done. -/
def dropIndex (i : Nat) (bs : List (Nat × Nat × List Nat)) : List (Nat × Nat × List Nat) :=
  match bs with
  | [] => []
  | b :: rest =>
    let xs := b.2.2.filter (· != i)
    if xs = [] then dropIndex i rest else (b.1, b.2.1, xs) :: dropIndex i rest

/-- An index is acknowledged (R322). -/
def State.ackIndex (s : State) (ctx e i : Nat) : State :=
  let s := s.onLaunch ctx e fun l =>
    let l := { l with batches := dropIndex i l.batches }
    { l with low := advanceLow l }
  let l := launchOf s ctx e
  if l.st ≠ .firing then s
  else if blocksLost s ctx e then s.stopFiring ctx e
  else
    let s := s.writeBlock ctx e
    if l.low = l.count ∧ l.count ≠ 0 then s.firingDone ctx e
    else match batchDie s ctx l.grp with
      | some d => if l.next < l.count then s.launch (.launchBatch ctx e d) else s
      | none => s

/-! ## Run-out (R243 to R246) -/

/-- A run-out unit. -/
def runOf (s : State) (ctx g : Nat) : RunOut := Tbl.getD (s.ctxAt ctx).runouts g {}
/-- A run-out unit changed. -/
def State.onRun (s : State) (ctx g : Nat) (f : RunOut → RunOut) : State :=
  s.onCtx ctx fun x => { x with runouts := Tbl.put x.runouts g (f (Tbl.getD x.runouts g {})) }

/-- The magnitude of a reported change: a NaN counts as +infinity (R244). -/
def reportOf (x : Lane) : Lane := if (f32 x).isNan then 0x7F800000 else x &&& 0x7FFFFFFF

/-- The windowed maximum of a member (R245). -/
def RunOut.windowMax (u : RunOut) (c : Nat) : Lane :=
  (u.reports.filter fun r => r.1 == c && decide (r.2.2 < 4096)).foldl (fun m r => if m.toNat < r.2.1.toNat then r.2.1 else m) 0

/-- The quiet condition (R245): magnitudes of FP32 order as their bits, and a NaN or negative threshold holds none. -/
def quietNow (s : State) (ctx g : Nat) (u : RunOut) : Bool :=
  u.arm && u.seen && (groupMembers s ctx g).all fun c => (f32 (u.windowMax c)).lt (f32 u.thr)

/-- The condition as seen at a cycle, with the cycles for which it has held, and whether an interval has been complete while
the unit is armed: the count has then reached the quiet time (R245). -/
def RunOut.judged (u : RunOut) (holds : Bool) (count : Nat) : RunOut :=
  { u with cond := holds, count := if holds then count else 0,
           done := u.done || (u.arm && holds && decide (max 1 u.quiet.toNat ≤ count)) }

/-- A unit fires when a quiet interval has been complete while it is armed. -/
def RunOut.due (u : RunOut) : Bool := u.arm && u.done

/-- The quiet condition is seen afresh in the present cycle. -/
def State.judge (s : State) (ctx g : Nat) : State :=
  s.onRun ctx g fun u => u.judged (quietNow s ctx g u) (max 1 u.count)

/-- A report takes effect (R244, R245): a report at or above the threshold ends the quiet interval. -/
def State.report (s : State) (c ctx g : Nat) (x : Lane) : State :=
  (s.onRun ctx g fun u => { u with
    reports := if inGroup s ctx g c then u.reports ++ [(c, reportOf x, 0)] else u.reports, seen := u.seen || u.arm }).judge ctx g

/-- The reports of cores that are members no longer leave a unit: one that joins again starts with none (R245). -/
def RunOut.kept (u : RunOut) (member : Nat → Bool) : RunOut := { u with reports := u.reports.filter fun r => member r.1 }

/-! ## Tasks and barriers (R307 to R313) -/

/-- A task record as read (Table 14.12). -/
structure Task where
  w0 : Nat
  w1 : Nat
  w2 : Nat
  w3 : Nat
  dl : Nat
  args : List Word
  deriving DecidableEq, Repr

/-- The record at a physical address, with what the device has written to it (R104). -/
def taskAt (s : State) (pa : Nat) : Task :=
  let bs := headBytes s pa 64
  let f := fun i => ofBytes ((bs.drop (8 * i)).take 8)
  ⟨f 0, f 1, f 2, f 3, f 4, [word (f 5), word (f 6), word (f 7)]⟩

/-- The state field. -/
def Task.st (t : Task) : Nat := bits t.w0 63 60
/-- The generation. -/
def Task.gen (t : Task) : Nat := bits t.w0 55 32
/-- The arrivals still awaited. -/
def Task.count (t : Task) : Nat := bits t.w0 31 0
/-- A barrier record. -/
def Task.bar (t : Task) : Bool := bit t.w1 63
/-- A malformed record (R307). -/
def Task.bad (t : Task) : Bool :=
  bits t.w0 59 56 != 0 || 4 < t.st || bits t.w1 61 40 != 0 || bits t.w1 15 6 != 0 || bits t.w2 63 52 != 0 ||
    bits t.w3 31 17 != 0

/-- Word 0 of a record. -/
def taskWord0 (st gen count : Nat) : List Byte := toBytes 8 (st * 2 ^ 60 + gen % 2 ^ 24 * 2 ^ 32 + count)

/-- The message that a record's dispatch delivers (R308). -/
def taskMsg (s : State) (ctx va status : Nat) (t : Task) : Msg :=
  { scid := 0xFFF, spkg := s.pkg.num, ctx := ctx, tag := bits t.w1 5 0, hoff := BitVec.ofNat 16 (bits t.w1 31 16),
    grp := bits t.w1 39 32, kind := 2, pay := [word va, word status] ++ t.args ++ [0, 0, 0],
    fp := bits t.w2 51 0, fplen := bits t.w3 16 0 }

/-- A task placed in a ready queue by age: behind every task that became queued no later (R309). -/
def insertTask (r : Ready) (qs : List Ready) : List Ready :=
  match qs with
  | [] => [r]
  | q :: rest => if r.since < q.since then r :: q :: rest else q :: insertTask r rest

/-- A task is queued in a cluster's ready queue; past its 512 places it is spilled to the context's ring as a trigger of kind 2, and
keeps its queue time and its place in the order of age (R309). A killed context queues none (R369). -/
def State.enqueueTask (s : State) (k : Nat) (r : Ready) : State :=
  if (s.ctxAt r.m.ctx).state = 3 then s else
  let full := decide (readyCap s k ≤ ((s.clusterAt k).ready.filter fun q => q.m.rslot.isNone).length)
  let m := { r.m with queue := some (k, r.since, r.mig) }
  let (m, s) := if full then (s.intoRing m).getD (m, s) else (m, s)
  s.onCluster k fun x => { x with ready := insertTask { r with m := m } x.ready }

/-- The chain of a context whose head's copy holds a physical address, and the in-die offset (R101). -/
def chainHolding (s : State) (ctx pa : Nat) : Option (Nat × Nat) :=
  let off := paLocal pa % hbmDie
  if rowOf pa = .hbm then
    ((s.ctxAt ctx).chains.find? fun e => e.2.links.head? == some (paPkg pa, hbmDieOf pa) &&
      decide (e.2.base * 65536 ≤ off) && decide (off < (e.2.base + e.2.npg + 1) * 65536)).map fun e => (e.1, off)
  else none

/-- Bytes of a task record written at its home slice; on a chain line they travel down the chain (R104, R307). -/
def State.writeRecord (s : State) (c ctx pa : Nat) (bs : List Byte) : State :=
  match chainHolding s ctx pa with
  | some (ch, off) => s.writeHome c ctx (.chain ctx ch off) 0 bs
  | none => s.perform ctx (some c) pa bs

/-- The record of a trigger of kind 2: its physical address, if its page is present. -/
def recordPa (s : State) (ctx va : Nat) : Option Nat :=
  match walk s ctx va with
  | .leaf l _ => some (homePa s ctx (leafPlace s l va))
  | _ => none

/-- The core that armed a record. -/
def armedBy (s : State) (ctx va : Nat) : Nat := Tbl.getD (s.ctxAt ctx).armed va 0

/-- A record becomes queued with a status (R308). -/
def State.queueTask (s : State) (c ctx va pa status : Nat) (count : Nat) : State :=
  let t := taskAt s pa
  let s := s.writeRecord c ctx pa (taskWord0 2 t.gen count)
  s.enqueueTask (clusterOf c) { m := taskMsg s ctx va status t, since := s.pkg.cyc.toNat, mig := bit t.w1 62 }

/-- A core no longer fetches the footprint of a queued task that has been taken out (R156, Table 14.13). -/
def Core.unfetch (x : Core) (ctx va : Nat) : Core :=
  { x with fetching := x.fetching.filter fun f => !(f.1.ctx == ctx && f.1.pay.headD 0 == BitVec.ofNat 64 va) }

/-- A task leaves every ready queue, and the prefetch that its queue has begun for it ends (Table 14.13, R156). -/
def State.unqueue (s : State) (ctx va : Nat) : State :=
  { s with
    cores := Tbl.mapv s.cores fun _ x => x.unfetch ctx va,
    clusters := Tbl.mapv s.clusters fun n k => { k with ready := refillTasks (readyCap s n) (k.ready.filter fun q =>
      !(q.m.ctx == ctx && q.m.pay.headD 0 == word va)) } }

/-- A task is lost: it leaves its queue, its record's state becomes 4, and class 0x30 is logged (R362). -/
def State.loseTask (s : State) (c ctx va pa : Nat) : State :=
  let t := taskAt s pa
  let s := (s.unqueue ctx va).writeRecord c ctx pa (taskWord0 4 t.gen t.count)
  s.logCore ctx 0x30 0 c va 0

/-- An arrival at a barrier that brings its count to 0: a release to every member of the record's group (R313). -/
def State.releaseBarrier (s : State) (c ctx va pa : Nat) (t : Task) : State :=
  let s := s.writeRecord c ctx pa (taskWord0 1 (t.gen + 1) (bits t.w3 63 32))
  (groupMembers s ctx (bits t.w1 39 32)).foldl (fun s k => s.launch (.barrierRelease k ctx va t.gen)) s

/-- n arrivals at a record as one step (R308, R311). -/
def State.arrive (s : State) (r : TaskReq) (n : Nat) : State :=
  let t := taskAt s r.pa
  let misuse := s.logCore r.ctx 0x2B 0 r.core r.va 0
  if n = 0 then s
  else if t.st = 0 ∨ t.st = 4 then misuse
  else
    let left := t.count - n
    let s := if t.count < n ∨ t.count = 0 then misuse else s
    let s := if r.op = 5 then s.launch (.barrierAcknowledgement r.core r.ctx r.va ⟨t.gen, r.ent⟩) else s
    if t.st = 1 ∧ left = 0 ∧ (t.count ≠ 0 ∨ r.op = 2) then
      if t.bar then s.releaseBarrier r.core r.ctx r.va r.pa t
      else s.queueTask r.core r.ctx r.va r.pa 0 0
    else s.writeRecord r.core r.ctx r.pa (taskWord0 t.st t.gen left)

/-- What reading a record finds wrong with it (R74, R353). -/
def recordError (s : State) (ctx pa : Nat) : Option Nat :=
  if ownHbm s pa then hbmError s ctx pa else if poisoned s pa then some (poisonClass s pa) else none

/-- A tk operation at the record's home slice (Table 14.13, R311). A media error in the record loses the task (R362); an
integrity violation is met after the instruction has retired, so that nothing changes and it is logged (R353). An operation
on another package's memory leaves as a request (R376). -/
def State.taskHome (s : State) (r : TaskReq) : State :=
  let s := s.askRemote r.ctx r.pa (.task r)
  let t := taskAt s r.pa
  let misuse := s.logCore r.ctx 0x2B 0 r.core r.va 0
  let err := recordError s r.ctx r.pa
  if err = some 0x22 then s.logCore r.ctx 0x22 0x0E r.core r.va 0
  else if err.isSome && t.st != 4 then s.loseTask r.core r.ctx r.va r.pa
  else if t.bad then misuse
  else match r.op with
  | 0 =>
    let n := r.arg.toNat % 2 ^ 32
    if t.st ≠ 0 ∨ (t.bar ∧ n = 0) then misuse
    else
      let s := s.onCtx r.ctx fun x => { x with armed := Tbl.put x.armed r.va r.core }
      if n = 0 then s.queueTask r.core r.ctx r.va r.pa 0 0
      else s.writeRecord r.core r.ctx r.pa (taskWord0 1 t.gen n)
  | 1 => s.arrive r 1
  | 2 => s.arrive r (r.arg.toNat % 2 ^ 32)
  | 3 => if t.bar then misuse else s.writeRecord r.core r.ctx (r.pa + 32) (toBytes 8 r.arg.toNat)
  | 4 =>
    if t.st = 1 ∨ t.st = 2 then
      (s.unqueue r.ctx r.va).writeRecord r.core r.ctx r.pa (taskWord0 0 t.gen t.count)
    else s
  | _ => s.arrive r 1

/-! ## Posts (R241) -/

/-- The bytes of a slot that a post writes below egen: eta and lam (Table 11.3). -/
def slotHead (p : Post) : List Byte := p.eta.flatMap (fun l => toBytes 4 l.toNat) ++ p.lam.flatMap (fun l => toBytes 4 l.toNat)

/-- The bytes of a slot that a post writes above egen: seq, res and sst (Table 11.3). -/
def slotTail (s : State) (pa : Nat) (p : Post) : List Byte :=
  let seq := (ofBytes (s.readPa (pa + 180) 4) + 1) % 2 ^ 32
  toBytes 4 seq ++ toBytes 4 p.res.toNat ++ toBytes 4 (p.dim + 16)

/-- Header word 0 of a node object is malformed for an object at an offset (R239, check 2). -/
def badObject (off w0 : Nat) : Bool :=
  let e := bits w0 15 12
  let d := bits w0 11 8
  d == 0 || 8 < d || e == 0 || 8 < e || lsSize < off + 128 + 192 * e

/-- Where a post finds its object: in the local store of its core, which still holds that of a context that has been killed until
another one takes the core; else as any access of the context does (R251, Table 11.10). -/
def postPa (s : State) (p : Post) : Nat :=
  let x := s.coreAt p.ncore
  if x.ctx.isNone && x.last == some p.ctx then lsPa s p.ncore p.noff else lsRedirect s p.ctx (lsPa s p.ncore p.noff)

/-- A post is applied to its slot, or discarded (R241). egen is not written, so that the slot's last line keeps its poison (R138). -/
def State.applyPost (s : State) (p : Post) : State :=
  let pa := postPa s p
  let w0 := (s.read64 pa).toNat
  let slot := pa + 128 + 192 * p.nslot
  if badObject p.noff w0 || bits w0 15 12 ≤ p.nslot then s.log p.ctx 0x28 0 p.ncore (logPlace p.ncore) false p.noff p.poster
  else if !bit w0 p.nslot || ofBytes (s.readPa (slot + 176) 2) != p.fgen then
    let d := min 0xFFFF (bits w0 31 16 + 1)
    s.perform p.ctx none pa (toBytes 8 (w0 - bits w0 31 16 * 65536 + d * 65536))
  else
    let s := (s.perform p.ctx none slot (slotHead p)).perform p.ctx none (slot + 180) (slotTail s slot p)
    s.send { unitMsg s p.ctx p.ncore p.tag
      [word (0xF000000000000 + p.ncore * 2 ^ 36 + p.noff), word p.nslot, word p.res.toNat, word p.poster] with scid := p.poster }

/-! ## Invalidation, pins and replay (R96, R97, R99) -/

/-- An address lies in the range of an invalidation. -/
def vaInRange (r : InvalReq) (va : Nat) : Bool :=
  decide (window va < 0xE) && (r.all || (decide (r.first * 65536 ≤ va) && decide (va < (r.first + r.count) * 65536)))

/-- A leaf has a byte in a range of pages; pieces of a range above the last paged address are ignored (R96). -/
def inRange (r : InvalReq) (l : Leaf) : Bool :=
  l.ctx == r.ctx && (r.all || (decide (window l.base < 0xE) && decide (l.base < (r.first + r.count) * 65536) &&
      decide (r.first * 65536 < l.base + 2 ^ l.lg)))

/-- Every TLB and cache of the package loses a range, and with it, for pg.inval, every lock in it (R96, R69). -/
def State.shootdown (s : State) (r : InvalReq) (locks : Bool) : State :=
  { s with
    cores := Tbl.mapv s.cores fun _ x => { x with l1tlb := x.l1tlb.filter fun l => !inRange r l },
    xl := Tbl.mapv s.xl fun _ x => { x with
      tlb := x.tlb.filter fun l => !inRange r l, ptc := x.ptc.filter fun e => e.1 != r.ctx,
      locks := if locks then x.locks.filter fun l => !inRange r l else x.locks } }

/-- A status written to the mailbox of an issuing context as a release store (R94). -/
def State.mailbox (s : State) (ctx : Nat) (mpa : Option Nat) (status : Nat) : State :=
  match mpa with
  | some pa => s.perform ctx none (lsRedirect s ctx pa) (toBytes 8 status)
  | none => s

/-- The entry of a chain becomes free, with every store on it completed: each ch.clean that waits there has its status (R116, R119). -/
def State.freeEntry (s : State) (ctx ch : Nat) : State :=
  let cs := (chainOf s ctx ch).clean
  cs.foldl (fun s q => s.mailbox ctx q.1 1) (s.onCtx ctx fun x => { x with chains := Tbl.del x.chains ch })

/-- The steps of a sync that has ended leave the device's steps in progress. -/
def syncStep (ctx ch : Nat) (i : Instr) : Bool :=
  match i with
  | .chainPageCopy x c => x == ctx && c == ch
  | .chainPromotionMarker x c => x == ctx && c == ch
  | _ => false

/-- Frames are freed by the placement engine. -/
def State.giveFrames (s : State) (fs : List Nat) : State := { s with freed := s.freed ++ fs }

/-- A placement operation is abandoned (R70, Table 3.6): a promotion keeps the members that its chain has, or frees the
chain while it has one; the frame of a die that was joining is freed. -/
def State.abandon (s : State) (g : Migration) : State :=
  let s := { s with migs := s.migs.filter (· != g) }
  match g.chain with
  | none => s
  | some ch =>
    if g.demote then s
    else
      let e := chainOf s g.ctx ch
      let s := { s with flight := s.flight.filter fun i => !syncStep g.ctx ch i }
      let s := s.giveFrames (e.sync.toList.map fun y => linkPa y (e.base * 65536) / 65536)
      if e.links.length ≤ 1 then s.freeEntry g.ctx ch
      else s.onChain g.ctx ch fun e => { e with sync := none, done := 0 }

/-- The walks of a range's pending misses begin again (Table 4.9): their stamp is the replay count of now (R92). -/
def State.rewalk (s : State) (r : InvalReq) : State :=
  let again := fun (m : Miss) =>
    if m.ctx == r.ctx && vaInRange r (m.vpage * 65536) then { m with stamp := (s.ctxAt r.ctx).replay } else m
  { s with xl := Tbl.mapv s.xl fun _ x => { x with misses := x.misses.map again } }

/-- pg.inval takes effect: every TLB, cache and lock of the package loses the range (R96); a migration of a page of the
range is abandoned (Table 3.6). Completion is a step to come. -/
def State.inval (s : State) (r : InvalReq) : State :=
  let s := s.rewalk r
  let hit := fun (g : Migration) => g.ctx == r.ctx && (r.all || (decide (r.first ≤ g.vpage) && decide (g.vpage < r.first + r.count)))
  let s := (s.migs.filter hit).foldl State.abandon (s.shootdown r true)
  s.launch (.pgInvalCompletion r)

/-- A task trigger goes back to its ready queue, and its record is queued again (Table 14.13), unless the record has been lost
meanwhile (R362); one that waits for a replay is not taken until then (R87). -/
def State.requeueTask (s : State) (m : Msg) (waits : Bool) : State :=
  let va := (m.pay.headD 0).toNat
  let (k, since, mig) := m.queue.getD (clusterOf m.dcore, s.pkg.cyc.toNat, false)
  let r := { m := { m with slot := none, fpfail := none, rslot := none }, since := since, mig := mig, waits := waits : Ready }
  match recordPa s m.ctx va with
  | some pa =>
    let t := taskAt s pa
    if t.st = 2 then s.enqueueTask k r
    else if t.st = 3 then (s.writeRecord m.dcore m.ctx pa (taskWord0 2 t.gen t.count)).enqueueTask k r
    else s
  | none => s.enqueueTask k r

/-- A message that can never run is gone: a notification of a context's error log is undispatched no longer (R351), and an ordered
message leaves its domain. -/
def State.forgetKey (s : State) (m : Msg) : State :=
  let s := if m.note then s.onCtx m.ctx fun x => { x with enote := false } else s
  match m.key with
  | some k => s.onCtx m.ctx fun x =>
      let d := Tbl.getD x.domains m.grp {}
      { x with domains := Tbl.put x.domains m.grp { d with keys := d.keys.erase k } }
  | none => s

/-- A core is lost: its die or its cluster has been declared so (R367). -/
def coreLost (s : State) (c : Nat) : Bool := (s.dieAt (dieOf c)).lost || (s.clusterAt (clusterOf c)).lost

/-- The die that an object's place names for a sender (R72); none for a place that lies in no compute die of the package, so
that the whole group is eligible (log 82 DESIGN CHOICE). -/
def objDie (s : State) (scid : Nat) (pl : Place) : Option Nat :=
  match pl with
  | .mem pa => if ownHbm s pa then some (hbmDieOf pa) else none
  | .chain x ch _ =>
    let e := chainOf s x ch
    if e.links.contains (s.pkg.num, dieOf scid) then some (dieOf scid) else some (e.links.headD (0, 0)).2

/-- The die that a message's object names: as its sender found it, or, for a trigger that is sent again, afresh (R72, R88). -/
def dieFor (s : State) (m : Msg) (va : Nat) : Option Nat :=
  if m.sent then m.odie
  else match walk s m.ctx va with
    | .leaf l _ => objDie s m.scid (leafPlace s l va)
    | _ => none

/-- The receiving core of an object-addressed message, or of one addressed to a core (R72); none where no member is
eligible yet. -/
def route (s : State) (m : Msg) : Option Nat :=
  match m.obj with
  | none => some m.dcore
  | some va =>
    if window va = 0xE then some m.scid
    else if window va = 0xF then some (bits va 47 36)
    else
      let die := dieFor s m va
      let all := readyMembers s m.ctx m.grp
      let near := all.filter fun c => some (dieOf c) == die
      let cs := if near = [] then all else near
      if cs = [] then none else some (cs.getD (Config.freeChoice s.tick cs.length % cs.length) (cs.headD 0))

/-- A message to the own package leaves its sender: to its core, or held until that core, or a member of its group, is
ready. One whose core, or whose whole group, is lost is lost with it (R72, R386). -/
def State.dispatchMsg (s : State) (m : Msg) : State :=
  match route s m with
  | some c =>
    if coreLost s c then s.forgetKey m
    else if (s.coreAt c).ready then s.send { m with dcore := c }
    else { s with heldMsgs := s.heldMsgs ++ [{ m with dcore := c }] }
  | none =>
    if (groupMembers s m.ctx m.grp).all (coreLost s) then s.forgetKey m else { s with heldMsgs := s.heldMsgs ++ [m] }

/-- A parked trigger is sent again (R88): an ordered message keeps its timestamp and its key, and a task that was parked
returns to its queue. A launch index, for which chapter 15 names no queue, goes to the core on which it ran (log 97 DESIGN CHOICE). -/
def State.redeliver (s : State) (m : Msg) : State :=
  let m := { m with rslot := none, resume := false, sent := false }
  match m.kind with
  | 2 => s.requeueTask m false
  | _ => s.dispatchMsg m

/-- The steps of a core's engines start again: the lines that its matrix commands have not fetched, its first matrix
command, and its copy channels (R148, R226); so does the commit of an ordered activation that waits on it (R300). -/
def State.restartEngines (s : State) (c : Nat) : State :=
  let x := s.coreAt c
  let fetches := (x.mx.queue.map fun k => (k.lines.filter fun l => window l.1 < 0xE).length - k.got.length).sum
  let s := { s with flight := s.flight ++ List.replicate fetches (.tileFetchLine c) }
  let s := if x.mx.queue = [] then s else s.launch (.matrixCommandExecute c)
  let s := if x.word.isSome then s.launch (.activationCommit c) else s
  (List.range 4).foldl (fun s ch =>
    if (x.cp.chans.toList.getD ch {}).cur.isSome || x.cp.queue.any fun k => k.ch == ch then s.launch (.copyBeat c ch) else s) s

/-- What a replay does to a core of the context: its activation and its engines translate again. -/
def Core.replayed (x : Core) : Core :=
  { x with
    held := none, stalled := x.stalled && x.held.isNone,
    cp := { x.cp with chans := x.cp.chans.map fun h => { h with held := false } },
    mx := { x.mx with queue := x.mx.queue.map fun k => { k with waits := false } } }

/-- A core whose engine waits for a replay. -/
def Core.engineHeld (x : Core) : Bool := x.cp.chans.toList.any Chan.held || x.mx.queue.any MxCmd.waits

/-- The tasks of a context that wait in their queues for a replay may be taken again (R87). -/
def State.wakeTasks (s : State) (ctx : Nat) : State :=
  { s with clusters := Tbl.mapv s.clusters fun _ k => { k with ready := k.ready.map fun q =>
      if q.m.ctx = ctx then { q with waits := false } else q } }

/-- pg.replay takes effect (R97, R92): the replay count advances, parked triggers are redelivered in order, and held
activations and engines translate again. For a pre-empted context it waits for the resume (Table 4.9). -/
def State.replay (s : State) (ctx : Nat) : State :=
  if !(s.ctxAt ctx).live then s
  else if (s.ctxAt ctx).state = 2 then s.onCtx ctx fun x => { x with replay := x.replay + 1, replayDue := true }
  else
    let ms := (s.ctxAt ctx).parked
    let s := s.onCtx ctx fun x => { x with replay := x.replay + 1, parked := [] }
    let s := ms.foldl State.redeliver (s.wakeTasks ctx)
    let waiting := s.cores.filterMap fun e => if e.2.ctx = some ctx && e.2.engineHeld then some e.1 else none
    let s := { s with cores := Tbl.mapv s.cores fun _ x => if x.ctx = some ctx then x.replayed else x }
    waiting.foldl State.restartEngines s

/-- The slices that lock a page: one of each die (R99). -/
def lockKeys (ctx va : Nat) : List Nat := (List.range 8).map fun d => xlKey d ctx va

/-- pg.pin: the status and the machine after it (R99). An address of window 0xE or 0xF walks the tables like any other, and a
walk that meets an uncorrectable entry gives status 2 (log 69 DESIGN CHOICE). -/
def State.pinPage (s : State) (r : PinReq) : Nat × State :=
  if !(s.ctxAt r.ctx).live then (2, s)
  else if r.unpin then
    (1, { s with xl := (lockKeys r.ctx r.va).foldl (fun t k =>
      let x := Tbl.getD t k {}
      Tbl.put t k { x with locks := x.locks.filter fun l => !covers r.ctx r.va l }) s.xl })
  else match walk s r.ctx r.va with
  | .leaf l _ =>
    let held := fun k => (Tbl.getD s.xl k {}).locks
    if !bit l.w0.toNat 6 then (3, s)
    else if (lockKeys r.ctx r.va).any fun k => !(held k).contains l && 128 ≤ (held k).length then (4, s)
    else (1, { s with xl := (lockKeys r.ctx r.va).foldl (fun t k =>
      let x := Tbl.getD t k {}
      Tbl.put t k (if x.locks.contains l then x else { x with locks := x.locks ++ [l] })) s.xl })
  | _ => (2, s)

end Sys2Proof.Machine
end

