-- ==== Sys2Proof/Machine/Gate.lean ====
section
/-!
DEFINITION. The commit buffer (R296 to R298) and the release of what it holds (R280): each gated item is performed by
one operation, at commit, at issue, or when the activation becomes irrevocable.
-/
namespace Sys2Proof.Machine

/-! ## Changing the links of a chain (R109 to R116) -/

/-- Two ranges of in-die pages overlap. -/
def overlap (b1 n1 b2 n2 : Nat) : Bool := decide (b1 ≤ b2 + n2) && decide (b2 ≤ b1 + n1)

/-- A link may be given a range: its die is ready, no other chain of the package has the range there, and a remote
die's range is reserved for the tenant (R113, status 5). A range of an own die that is reserved for another package's chain is taken
(log 98 DEDUCED). -/
def linkFree (s : State) (ctx ch : Nat) (l : Nat × Nat) (base npg : Nat) : Bool :=
  let clash := s.ctxs.any fun x => x.2.chains.any fun e =>
    !(x.1 == ctx && e.1 == ch) && e.2.cst != 0 && e.2.cst != 3 && (e.2.links.contains l || e.2.sync == some l) &&
      overlap e.2.base e.2.npg base npg
  let taken := s.pkg.reserved.any fun r => r.1 == l.2 && overlap r.2.1 (r.2.2.1 - 1) base npg
  !clash &&
    (if l.1 = s.pkg.num then (s.dieAt l.2).ready && !(s.dieAt l.2).lost && !taken
     else Config.freeReserved s.tick (l.1 * 8 + l.2))

/-- gen rises by one and wraps from 0xFFFF to 1 (R102). -/
def nextGen (g : Nat) : Nat := if g = 0xFFFF then 1 else g + 1

/-- A step in flight after the i-th member of a chain has left. What that member had sent goes on: its stores to its
successor, and its acknowledgements. What was on its way to it is lost, but for acknowledgements, which reach the member
before it. Steps beyond it follow the shorter list; the last member of all leaves what waits for it in place. -/
def afterLeave (st0 : ChainStore) (i n : Nat) (x : Instr) : Option Instr :=
  match x with
  | .chainStoreAtLink st =>
    if !sameChain st st0 || st.hop < i || n = 1 then some x
    else if st.hop = i then none
    else some (.chainStoreAtLink { st with hop := st.hop - 1 })
  | .chainAcknowledgement st =>
    if !sameChain st st0 || st.hop ≤ i then some x else some (.chainAcknowledgement { st with hop := st.hop - 1 })
  | _ => some x

/-- The stores on their way to the head of a chain, in order. -/
def toHeadStores (s : State) (st0 : ChainStore) : List ChainStore :=
  s.flight.filterMap fun i => match i with
    | .chainStoreAtLink st => if sameChain st st0 && st.hop == 0 then some st else none
    | _ => none

/-- The state of a chain with so many members (Table 5.1). -/
def cstOf (n : Nat) : Nat :=
  match n with
  | 0 => 3
  | 1 => 2
  | _ => 1

/-- A change of a chain is told to the packages of its remote links, whose foreign records follow it (R114). -/
def State.announce (s : State) (ctx ch : Nat) (told : List (Nat × Nat)) : State :=
  let e := chainOf s ctx ch
  s.tell (told ++ e.links ++ e.sync.toList) (recordFor s ctx ch e)

/-- A core's read signatures with their lines at other addresses. -/
def Core.sigMoved (f : Nat → Nat) (x : Core) : Core :=
  { x with rsig := x.rsig.map f, word := x.word.map fun w => { w with rsig := w.rsig.map f } }

/-- What was read keeps its place in the read signatures where the device moves it: a later write of it finds the readers at its new
address, as R301's order of the domain needs. -/
def State.sigFollow (s : State) (f : Nat → Nat) : State :=
  { s with
    cores := Tbl.mapv s.cores fun _ x => x.sigMoved f,
    ctxs := Tbl.mapv s.ctxs fun _ y => { y with saves := Tbl.mapv y.saves fun _ x => x.sigMoved f } }

/-- A line of a frame, at the same offset of another frame. -/
def movedLine (old new l : Nat) : Nat := if l / 65536 = old / 65536 then l - old + new else l

/-- A line of a link's copy of a chain, as the line of another link's copy. -/
def lineAtLink (e : Chain) (a b : Nat × Nat) (l : Nat) : Nat :=
  let first := linkPa a (e.base * 65536)
  if first ≤ l ∧ l < first + (e.npg + 1) * 65536 then l - first + linkPa b (e.base * 65536) else l

/-- A member leaves a chain, and the survivors do as Table 5.8 gives; a ch.unlink of it that was draining it is then done. A new
head's requesters send their stores without a completion again, in order: those in the old head's log, then those that were on their
way to it. The member before a middle one sends its logged stores again, and the member before a tail, now the tail itself,
acknowledges its own. One member left is degraded (class 0x23), none is lost (class 0x24). Where the member that leaves was being
replaced by a ch.relink, its sync goes on as that of a plain link, and the relink has its status at the promotion (log 83 DESIGN
CHOICE). -/
def State.removeLink (s : State) (owner ctx ch : Nat) (l : Nat × Nat) : State :=
  let e := chainAt s owner ctx ch
  let st0 : ChainStore := { pkg := owner, ctx := ctx, ch := ch }
  let i := e.links.idxOf l
  let n := e.links.length
  if i = n then s
  else
    let links := e.links.filter (· != l)
    let pred := e.links.getD (i - 1) (0, 0)
    let isTail := i + 1 == n
    let drains := owner == s.pkg.num && i == 0 && e.reconf
    let own := fun (m : Nat × Nat) => (e.log.filter fun x => x.1 == m).map Prod.snd
    let waiting := toHeadStores s st0
    let s := { s with flight := s.flight.filterMap (afterLeave st0 i n) }
    let s := s.onChainAt owner ctx ch fun e => { e with
      links := links, gen := nextGen e.gen, cst := cstOf links.length,
      log := e.log.filter fun x => x.1 != l && !(isTail && x.1 == pred && i != 0), seen := e.seen.filter fun x => x.1 != l,
      leaving := if e.leaving = some l then none else e.leaving,
      reconf := e.reconf && !drains, handoff := if drains then none else e.handoff, freeing := e.freeing && !drains }
    let s := if drains then s.mailbox ctx e.handoff 1 else s
    let s := if owner ≠ s.pkg.num then s
      else if links = [] then s.log ctx 0x24 0 0xFFF 0 false 0 ch
      else if links.length = 1 then s.log ctx 0x23 0 0xFFF (links.headD (0, 0)).2 false 0 ch else s
    let s := if owner = s.pkg.num then s.announce ctx ch [l] else s
    let s := match links with
      | [] => s
      | k :: _ => s.sigFollow (lineAtLink e l k)
    if n = 1 then s
    else if i = 0 then (own l ++ waiting).foldl (fun s st => s.toLink { st with hop := 0 }) s
    else if isTail then (own pred).foldl (fun s st => s.toMember { st with hop := i - 1 }) s
    else (own pred).foldl (fun s st => s.toLink { st with hop := i }) s

/-- The sync of a chain is abandoned with status 8 (R111, R112). A promotion that it belonged to ends with it: the
remaining dies that qualified do not join (log 71 DESIGN CHOICE). The copy of the syncing link keeps the bytes that have reached it
(log 99 DESIGN CHOICE). -/
def State.dropSync (s : State) (ctx ch : Nat) : State :=
  let e := chainOf s ctx ch
  match e.sync with
  | none => s
  | some y =>
    let s := { s with flight := s.flight.filter fun i => !syncStep ctx ch i }
    let s := (s.onChain ctx ch fun e => { e with
      sync := none, leaving := none, done := 0, mbox := none, seen := e.seen.filter fun x => x.1 != y }).mailbox ctx e.mbox 8
    let s := s.announce ctx ch [y]
    let mine := fun (g : Migration) => g.ctx == ctx && g.chain == some ch
    if s.migs.any mine then
      let s := { s with migs := s.migs.filter fun g => !mine g }
      if e.links.length = 1 then s.freeEntry ctx ch else s
    else s

/-- A link field as a pair: pkg in [12:3], die in [2:0] (Table 5.4). -/
def linkOf (n : Nat) : Nat × Nat := (bits n 12 3, bits n 2 0)

/-- The record of a frozen chain whose survivors all lie in other packages, as these keep it; none where there is no such chain of
the context's tenant (R114, log 14 DESIGN CHOICE). It decides only for an identity of which this package keeps no record. -/
def frozenElsewhere (s : State) : Option Chain :=
  let v := Config.freeRecord s.tick
  let ls := distinct ((List.range (v 0 % 5)).map fun i => (v (2 * i + 1) % 1024, v (2 * i + 2) % 8))
  let ls := ls.filter fun l => l.1 != s.pkg.num
  let base := v 9 % 0x180000
  if ls = [] then none
  else some { gen := v 11 % 0xFFFF + 1, cst := cstOf ls.length, base := base, npg := v 10 % min 65536 (0x180000 - base), links := ls }

/-- The adopt form of ch.link (R114, R116): a frozen chain gets a new owner, with its survivors as members in their order; the packages
of its survivors are told under which identity it was frozen. -/
def State.adopt (s : State) (ctx : Nat) (ra rb : Word) (mpa : Option Nat) : State :=
  let ch := fld ra 7 0
  let tenant := (s.ctxAt ctx).tenant
  let id := (fld rb 41 32, fld rb 47 42, fld rb 55 48)
  let named := fun (f : Foreign) => f.owner == id.1 && f.ctx == id.2.1 && f.ch == id.2.2
  let frozen := match s.pkg.foreign.find? named with
    | some f => if f.e.reconf && f.tenant == tenant then some f.e else none
    | none => if id.1 = s.pkg.num then none else frozenElsewhere s
  if ch = 0 ∨ (chainOf s ctx ch).cst ≠ 0 then s.mailbox ctx mpa 2
  else match frozen with
  | none => s.mailbox ctx mpa 7
  | some e =>
    let s := s.onChain ctx ch fun _ =>
      { gen := nextGen e.gen, cst := cstOf e.links.length, base := e.base, npg := e.npg, links := e.links }
    let s := s.onPkg fun p => { p with foreign := p.foreign.filter fun g => !named g }
    (s.tell e.links (adoptedRecord s ctx ch (chainOf s ctx ch) id)).mailbox ctx mpa 1

/-- The stores of a chain with one member that are on their way are performed there, and their completions leave (R116). -/
def State.landChain (s : State) (ctx ch : Nat) : State :=
  let mine := fun (st : ChainStore) => st.pkg == s.pkg.num && st.ctx == ctx && st.ch == ch
  let store := fun (i : Instr) => match i with
    | .chainStoreAtLink st => if mine st then some st else none
    | _ => none
  let ack := fun (i : Instr) => match i with
    | .chainAcknowledgement st => if mine st then some st else none
    | _ => none
  let t := (s.flight.filterMap store).foldl State.chainArrive { s with flight := s.flight.filter fun i => (store i).isNone }
  (t.flight.filterMap ack).foldl State.chainAck { t with flight := t.flight.filter fun i => (ack i).isNone }

/-- A chain's only member is unlinked and its entry becomes free: what was on its way to it is performed first, and its data stays
(R111, R116). -/
def State.unlinkLast (s : State) (ctx ch : Nat) (l : Nat × Nat) (mpa : Option Nat) : State :=
  let s := (((s.dropSync ctx ch).landChain ctx ch).freeEntry ctx ch).announce ctx ch [l]
  s.mailbox ctx mpa 1

/-- The stores of a chain that its head has applied and that have not completed, by id. -/
def openStores (s : State) (ctx ch : Nat) : List (Nat × Nat × Nat) :=
  let id := fun (st : ChainStore) => (st.pkg, st.core, st.seq)
  ((chainOf s ctx ch).log.map fun x => id x.2) ++ s.flight.filterMap fun i => match i with
    | .chainStoreAtLink st => if st.pkg == s.pkg.num && st.ctx == ctx && st.ch == ch then some (id st) else none
    | .chainAcknowledgement st => if st.pkg == s.pkg.num && st.ctx == ctx && st.ch == ch then some (id st) else none
    | _ => none

/-- A ch command takes effect (R116): 0 link, 1 unlink, 2 relink, 5 clean. Where several statuses of Table 5.10 apply, 4 for
a link that is syncing comes first, then 3 before 4 before 5 for ch.link, and 2 before 4 for ch.relink (log 71 DESIGN
CHOICE). An entry that ch.unlink frees reads as zero from then on (log 71 DESIGN CHOICE). -/
def State.chainCmd (s : State) (ctx fn : Nat) (ra rb : Word) (mpa : Option Nat) : State :=
  let ch := fld ra 7 0
  let e := chainOf s ctx ch
  let l := linkOf rb.toNat
  let st := fun n => s.mailbox ctx mpa n
  match fn with
  | 0 =>
    if bit ra.toNat 9 then s.adopt ctx ra rb mpa
    else if ch = 0 ∨ e.cst = 3 then st 2
    else if e.cst = 0 then
      if !linkFree s ctx ch l (fld ra 41 16) (fld ra 63 48) then st 5
      else ((s.onChain ctx ch fun _ => { gen := 1, cst := 2, base := fld ra 41 16, npg := fld ra 63 48, links := [l] }).announce
        ctx ch []).mailbox ctx mpa 1
    else if e.sync = some l then st 4
    else if e.links.length = 4 ∨ e.sync.isSome then st 3
    else if e.links.contains l then st 4
    else if !linkFree s ctx ch l e.base e.npg then st 5
    else ((s.onChain ctx ch fun e => { e with sync := some l, done := 0, mbox := mpa }).announce ctx ch []).launch
      (.chainPageCopy ctx ch)
  | 1 =>
    if ch = 0 ∨ e.cst = 0 ∨ e.cst = 3 ∨ e.reconf then st 2
    else if e.sync = some l then (s.dropSync ctx ch).mailbox ctx mpa 1
    else if !e.links.contains l then st 4
    else if e.links.length = 1 then
      if bit ra.toNat 8 then s.unlinkLast ctx ch l mpa else st 6
    else if e.links.headD (0, 0) = l then
      (s.onChain ctx ch fun e => { e with reconf := true, handoff := mpa, freeing := bit ra.toNat 8 }).launch (.chainHeadHandoff ctx ch)
    else
      let s := if tailOf e.links = l then s.dropSync ctx ch else s
      (s.removeLink s.pkg.num ctx ch l).mailbox ctx mpa 1
  | 2 =>
    let n := linkOf (fld rb 28 16)
    if ch = 0 ∨ e.cst = 0 ∨ e.cst = 3 then st 2
    else if e.sync = some n then st 4
    else if e.sync.isSome || e.reconf then st 2
    else if !e.links.contains l || e.links.contains n then st 4
    else if !linkFree s ctx ch n e.base e.npg then st 5
    else ((s.onChain ctx ch fun e => { e with leaving := some l, sync := some n, done := 0, mbox := mpa }).announce ctx ch []).launch
      (.chainPageCopy ctx ch)
  | _ =>
    if ch = 0 ∨ e.cst = 0 ∨ e.cst = 3 then st 2
    else
      let waiting := (toHeadStores s { pkg := s.pkg.num, ctx := ctx, ch := ch }).map fun st => (st.pkg, st.core, st.seq)
      let again := fun (id : Nat × Nat × Nat) => e.seen.any fun x => x.2 == id
      let ids := (openStores s ctx ch).filter fun id => !waiting.contains id || again id
      (s.onChain ctx ch fun e => { e with clean := e.clean ++ [(mpa, ids)] }).launch (.chainCleanDone ctx ch)

/-! ## Performing one gated item (R280) -/

/-- Where a matrix command of a core reads a line: the place found at issue, or, of a command that refetches after a pre-emption, where
the line's address leads now; none where it leads nowhere (R210, Table 10.6). -/
def engineLine (s : State) (c : Nat) (k : MxCmd) (l : Nat × Place) : Option Place :=
  if k.refetch && decide (window l.1 < 0xE) then
    match (checkPaged s c ((s.coreAt c).ctx.getD 0) l.1 .engRead true).1 with
    | .ok pl => some pl
    | _ => none
  else some l.2

/-- A queued matrix command of a core covers the line of a place and has not read it (R210). -/
def mxUnread (s : State) (c : Nat) (pl : Place) : Bool :=
  (s.coreAt c).mx.queue.any fun k => k.lines.any fun l => !(k.got.any fun g => g.1 == l.1) && engineLine s c k l == some pl.line

/-- A store of a core to bytes of its own local store that a put or a queued matrix command has not yet read waits
(R146, R210). -/
def storeWaits (s : State) (c : Nat) (pl : Place) (bytes : List Nat) : Bool :=
  let x := s.coreAt c
  match pl with
  | .mem pa =>
    let own := fun (a n : Nat) => bytes.any fun b => decide (lsPa s c a ≤ pa + b) && decide (pa + b < lsPa s c a + n)
    let puts := (x.cp.queue ++ (x.cp.chans.toList.filterMap Chan.cur)).filter fun k => k.op == 1 || k.op == 3
    (puts.any fun k => (List.range k.rows).any fun j =>
      let row := ((k.own : Int) + j * k.ostr).toNat
      let read := if k.done < j * k.len then 0 else min k.len (k.done - j * k.len)
      own (row + read) (k.len - read)) ||
    mxUnread s c pl
  | .chain _ _ _ => mxUnread s c pl

/-- The scope of a chain store: 0 its requester's die, 1 the package, 2 the pod (R274, R283). -/
def chainScope (s : State) (st : ChainStore) : Nat :=
  let ls := (chainOf s st.ctx st.ch).links
  if ls.all fun l => l.1 == s.pkg.num then (if ls.all fun l => l.2 == dieOf st.core then 0 else 1) else 2

/-- A core awaits the completion of a chain store whose scope lies within a fence's (R286). -/
def chainPending (s : State) (c scope : Nat) : Bool := (s.coreAt c).chainOut.any fun st => decide (chainScope s st ≤ scope)

/-- The rows of a copy command on its own side, or of the far side: first address and length. -/
def rowStart (a : Nat) (stride : Int) (j : Nat) : Nat := ((a : Int) + j * stride).toNat

/-- The source bytes of a put as they stand, row by row, and the lines of them that are poisoned (R146). -/
def putSource (s : State) (c : Nat) (k : CopyCmd) : List Byte × List Nat :=
  let rows := (List.range k.rows).map fun j => lsPa s c (rowStart k.own k.ostr j)
  (rows.flatMap fun a => s.readPa a k.len,
   (distinct (rows.flatMap fun a => (List.range k.len).map fun i => lineOf (a + i))).filter (poisoned s))


/-- A core awaits the completion of a chain store of die scope, which a later store or atomic to another chain or to plain
memory may not overtake there (R276, R283). The stores of one instruction have no order among themselves (R262). -/
def dieStorePending (s : State) (c : Nat) (pl : Place) : Bool :=
  ((s.coreAt c).chainOut.take ((s.coreAt c).group.getD (s.coreAt c).chainOut.length)).any fun st =>
  chainScope s st == 0 && match pl with
    | .mem _ => true
    | .chain x ch _ => !(st.ctx == x && st.ch == ch)

/-- Every earlier store and atomic of a core is performed (R280). -/
def Core.calm (x : Core) : Bool := x.chainOut = [] && x.outst = []

/-- A copy command is kicked: it enters the queue, and its length is issued; on a stopped channel it ends at once with
status 2 (R141, R143, R148). -/
def State.kick (s : State) (c : Nat) (k : CopyCmd) : Option State :=
  let x := s.coreAt c
  let h := x.cp.chans.toList.getD k.ch {}
  if h.err then some (s.copyStatus c k 2)
  else if 2 ≤ x.cp.queue.length then none
  else
    let (src, bad) := if k.op = 1 ∨ k.op = 3 then putSource s c k else ([], [])
    let k := { k with snap := src, snapBad := bad }
    let s := s.onCore c fun x =>
      let x := x.onChan k.ch fun h => { h with icnt := h.icnt + word (k.len * k.rows) }
      { x with cp := { x.cp with queue := x.cp.queue ++ [k] } }
    some (s.launch (.copyBeat c k.ch))

/-- The posts of a gate leave its coordinator (R340). A port that refuses one drops it with class 0x2C in the context's log; the
address is then the gate id, since a post has no destination word (R377; log 78 DESIGN CHOICE). -/
def State.postGate (s : State) (c ctx : Nat) (p : GatePost) (ncore ntag : Nat) (pkgs : List Nat) : State :=
  let tenant := (s.ctxAt ctx).tenant
  let p := { p with coord := s.pkg.num, tenant := tenant, key := Tbl.getD s.pkg.keys tenant 0 }
  let s := s.onPkg fun k => { k with coords := k.coords ++ [⟨p, ctx, ncore, ntag, pkgs, [], false, false⟩] }
  pkgs.foldl (fun s n => if n = s.pkg.num then s.launch (.gatePost p) else if refuses s n then s.logRefusal ctx c p.id n
    else { s with outs := s.outs ++ [.gate n (.gatePost p)] }) s

/-- A request to another package; a port that refuses drops it with class 0x2C (R377). -/
def State.remote (s : State) (c ctx pkg : Nat) (dest : Word) (b : UalBody) : State :=
  if pkg = s.pkg.num then s.launch (.ualinkRequest { ualOf s ctx b with src := some (ctx, c, dest.toNat) })
  else if refuses s pkg then s.logRefusal ctx c dest.toNat pkg
  else { s with outs := s.outs ++ [.ual pkg (ualOf s ctx b)] }

/-- Messages of one tag of a core: their order is kept wherever they lie (R294, R295). -/
def sameTag (a b : Msg) : Bool := a.ctx == b.ctx && a.tag == b.tag && a.dcore == b.dcore

/-- A message placed before the first of its tag in a list, or at the end. -/
def insertOld (m : Msg) (ms : List Msg) : List Msg :=
  match ms with
  | [] => [m]
  | x :: rest => if sameTag m x then m :: x :: rest else x :: insertOld m rest

/-- The tag of a message is enabled on a core. -/
def tagOn (s : State) (c : Nat) (m : Msg) : Bool := (Tbl.getD (tagsOf s c m.ctx).tags m.tag {}).en

/-- A message of a core's inbox moves to its cluster's inbox (R294). -/
def State.evict (s : State) (c : Nat) (m : Msg) : State :=
  (s.onCore c fun x => { x with inbox := (x.inbox.reverse.erase m).reverse }).onCluster (clusterOf c) fun k =>
    { k with inbox := insertOld m k.inbox }

/-- The youngest message of a disabled tag in a core's inbox (R294). -/
def evictable (s : State) (c : Nat) : Option Msg := (s.coreAt c).inbox.reverse.find? fun m => !tagOn s c m

/-- A step is the arrival of a message of the same sender, receiver and tag (R295). -/
def sameStream (m : Msg) (i : Instr) : Bool :=
  match i with
  | .messageArrival k => k.scid == m.scid && k.spkg == m.spkg && sameTag k m
  | _ => false

/-- A step is the arrival of a message that a resume delivers to the context of another one (R337). -/
def resumedBefore (m : Msg) (i : Instr) : Bool :=
  match i with
  | .messageArrival k => k.first && k.ctx == m.ctx
  | _ => false

/-- A message waits in the fabric, ahead of later messages of its stream (R294, R295). -/
def State.hold (s : State) (m : Msg) : State :=
  { s with flight := placeBefore (fun i => sameStream m i || (m.first && resumedBefore m i)) (.messageArrival m) s.flight }

/-- A message of a core's inbox leaves it for the next place that has room: the cluster inbox, the ring, or the fabric
(R294). -/
def State.spillOut (s : State) (c : Nat) (m : Msg) : State :=
  if clusterRoom s (clusterOf c) then s.evict c m
  else
    let s := s.onCore c fun x => { x with inbox := (x.inbox.reverse.erase m).reverse }
    match s.intoRing m with
    | some (m, s) => s.onCtx m.ctx fun y => { y with ring := insertOld m y.ring }
    | none => s.hold m

/-- A message placed at the head of its tag's FIFO on a core (R306). A full inbox gives up its youngest message, of a
disabled tag where there is one. -/
def State.toHead (s : State) (c : Nat) (m : Msg) : State :=
  if (Tbl.getD (tagsOf s c m.ctx).tags m.tag {}).dflt.isSome then
    let s := s.onCore c fun x => { x with inbox := m :: x.inbox }
    if (s.coreAt c).inbox.length ≤ coreCap s c then s
    else match (evictable s c).or (s.coreAt c).inbox.getLast? with
      | some y => s.spillOut c y
      | none => s
  else s.log m.ctx 0x35 0 c (logPlace c) false 0 (m.tag + m.scid * 2 ^ 16 + m.spkg * 2 ^ 28)

/-- A copy of a message to every member of a group of the own package (R304). -/
def State.bcastTo (s : State) (g : Nat) (m : Msg) : State :=
  (groupMembers s m.ctx g).foldl (fun s c => s.dispatchMsg { m with dcore := c, obj := none }) s

/-! ## Barrier entries (R312, R313) -/

/-- The continuation of tk.bwait: a message of kind 4 to the own core with the control word's tag, offset and group,
and the barrier record's address (R292, R312, Table 14.11). -/
def contMsg (s : State) (c : Nat) (r : TaskReq) : Msg :=
  { scid := c, spkg := s.pkg.num, ctx := r.ctx, tag := fld r.arg 5 0, hoff := BitVec.ofNat 16 (fld r.arg 31 16),
    grp := fld r.arg 15 8, kind := 4, dcore := c, pay := word r.va :: List.replicate 7 0 }

/-- An entry is both registered and released: its continuation is queued, and it closes (R313). -/
def BarEntry.ripe (b : BarEntry) : Bool := b.released && b.cont.isSome

/-- Barrier entries whose continuation is due are closed, and the continuations are sent to their core. -/
def State.settleBars (s : State) (c : Nat) : State :=
  let due := (s.coreAt c).bars.filter BarEntry.ripe
  let s := s.onCore c fun x => { x with bars := x.bars.filter fun b => !b.ripe }
  (due.filterMap BarEntry.cont).foldl State.send s

/-- An arrival leaves its core and opens its barrier entry, with the continuation that is registered with it (R312). -/
def State.arriveBar (s : State) (c : Nat) (cont : Option Msg) (r : TaskReq) : State :=
  let k := (s.coreAt c).nextBar
  (s.onCore c fun x => { x with
    bars := x.bars ++ [{ ctx := r.ctx, va := r.va, id := k, cont := cont }], nextBar := k + 1 }).taskHome { r with ent := k }

/-- A task operation leaves its core: an arrival of tk.barr or tk.bwait opens its barrier entry, and 6 registers the
continuation of tk.bwait in it (R310, R312). -/
def State.taskItem (s : State) (c : Nat) (r : TaskReq) : State :=
  match r.op with
  | 5 => s.arriveBar c none { r with arg := 0 }
  | 7 => s.arriveBar c (some (contMsg s c r)) { r with op := 5, arg := 0 }
  | 6 =>
    let m := contMsg s c r
    (s.onCore c fun x => { x with bars := x.bars.map fun b =>
      if b.ctx == r.ctx && b.va == r.va then { b with cont := some m } else b }).settleBars c
  | _ => s.taskHome r

/-- The item is a message, a report, a pg or ch command or another item that waits until the activation's accesses are
performed (R280, step 3, R93, R115). -/
def Gated.last : Gated → Bool
  | .store .. => false
  | .atomic .. => false
  | .watch .. => false
  | .rgCmt .. => false
  | .rgRel .. => false
  | .copy .. => false
  | .fenceRel .. => false
  | _ => true

/-- A combinable add takes the combining path on a turn that has it meet others: addcb to HBM or to a chain line (R104,
R130). -/
def combines (s : State) (fn : Nat) (pl : Place) : Bool :=
  s.comb && fn == 1 && match pl with
    | .mem pa => rowOf pa == .hbm
    | .chain _ _ _ => true

/-- A combinable request leaves a core for its cluster's router; its reply is awaited, and the core's own L1 copies of the
line are gone (R124, R130, R135). -/
def State.sendCombinable (s : State) (c : Nat) (pl : Place) (r : AtomReq) : State :=
  let pa := homePa s r.ctx pl
  let s := s.dropOwn c r.ctx pl
  let r := { r with pa := pa, since := s.pkg.cyc.toNat, chain := match pl with
    | .mem _ => none
    | .chain _ ch off => some (ch, off) }
  let s := s.onCore c fun x => { x with outst := x.outst ++ [r] }
  { s.launch (.combineRequest (clusterOf c) 0 r) with comb := false }

/-- A non-returning atomic leaves its core: on the combining path, or to its home in one step (R130, R256). -/
def State.postAtomic (s : State) (c ctx : Nat) (pl : Place) (r : AtomReq) : State :=
  if combines s r.fn pl && (refusedBy s pl).isNone && (homeFails s ctx pl).isNone then s.sendCombinable c pl r
  else s.atomicHome c ctx pl r

/-- An operation of a core on a place leaves for its serialisation point; a port that refuses drops it with class 0x2C (R377). -/
def State.orRefused (s : State) (c ctx va : Nat) (pl : Place) (t : State) : State :=
  match refusedBy s pl with
  | some pkg => s.logRefusal ctx c va pkg
  | none => t

/-- What a discarded activation that had ended leaves behind is undone: its tiles get back what its shadows hold, a shadow that the
running activation took of such a tile is that content too, and the gets that it kicked are cancelled (R145, R202, R298). -/
def State.undoWaiting (s : State) (c : Nat) (w : Waiting) : State :=
  ((s.onCore c fun x => { x with word := none, mx := (x.mx.restoreFrom w.shadows).reshadow w.shadows }).cancelGetsOf c w.seq)

/-- The waiting ordered activation of a core is discarded, and its message returns to its domain (R301). -/
def State.dropWaiting (s : State) (c : Nat) : State :=
  match (s.coreAt c).word with
  | some w => (s.undoWaiting c w).dispatchMsg { w.trig with redl := true, dcore := c }
  | none => s

/-- The address through which a held item was translated. -/
def heldVa (g : Gated) : Option Nat :=
  match g with
  | .store _ va _ _ _ => some va
  | .atomic _ r => some r.va
  | .watch _ r => some r.va
  | .rgCmt _ va _ => some va
  | .rgRel _ va => some va
  | .tk _ r => some r.va
  | _ => none

/-- A buffer holds an item translated through a removed entry. -/
def holdsRange (r : InvalReq) (buf : List Gated) : Bool := buf.any fun g => (heldVa g).any (vaInRange r)

/-- A core's revocable activations that hold a store translated through a removed entry are discarded, and their
triggers redelivered (R96). One whose commit has begun is not revocable any more. -/
def State.dropHolders (s : State) (r : InvalReq) (c : Nat) : State :=
  let s := match (s.coreAt c).word with
    | some w => if (s.coreAt c).ctx = some r.ctx && !w.releasing && !w.firm && holdsRange r w.cbuf then s.dropWaiting c else s
    | none => s
  let x := s.coreAt c
  if x.ctx = some r.ctx && x.phase == .running && x.rev && holdsRange r x.cbuf then
    let m := s.trigAt c
    let s := s.drop c
    if m.ord then s.dispatchMsg m else s.send m
  else s

/-- pg.inval takes effect (R96): what the package holds of the range goes, and with it the revocable activations that were translated
through it. -/
def State.invalNow (s : State) (r : InvalReq) : State := (s.cores.map Prod.fst).foldl (fun s c => s.dropHolders r c) (s.inval r)

/-- A pg.pin of a core has not found its page yet: a pg command behind it waits (R93). -/
def pinGoing (s : State) (c : Nat) : Bool :=
  s.flight.any fun i => match i with
    | .pgPinCompletion r => r.core == c
    | _ => false

/-- An item is performed by a core for its context; none where it must wait (R280, R145, R276, R283). A store or an atomic waits
for the combinable adds before it (R276). A send, a report, a kick, a release or a command waits until every earlier store and
atomic of the core is performed. A gl.disarm of a cycle in
which a trigger has reached the entry reaches it in a later one, so that of two in one cycle the disarm is the first (R317). -/
def performGated (s : State) (c : Nat) (g : Gated) : Option State :=
  let x := s.coreAt c
  let ctx := x.ctx.getD 0
  let after := fun (t : State) => if x.calm then some t else none
  match g with
  | .store pl va bs rel _ =>
    if storeWaits s c pl (bs.map Prod.fst) || placeHeld s pl || placeAwaited s ctx pl || dieStorePending s c pl || x.outst != [] ||
        (rel && !x.calm) then none
    else some (s.storeBytes c ctx pl va bs)
  | .atomic pl r => if dieStorePending s c pl || placeHeld s pl || x.outst != [] then none else some (s.postAtomic c ctx pl r)
  | .watch pl r => if x.outst != [] || dirtyHead s pl then none else some (s.orRefused c ctx r.va pl (s.watchAt { r with pa := watchPa s pl }))
  | .rgCmt pl va slot => after (s.orRefused c ctx va pl (s.ringCmt c ctx pl va slot))
  | .rgRel pl va => after (s.orRefused c ctx va pl (s.ringRel c ctx pl va))
  | .send m => after (s.dispatchMsg m)
  | .sendRemote pkg m dest => if portAwaited s pkg then none else after (s.remote c ctx pkg dest (.msg m))
  | .sendt m => after (s.launch (.sequencerArrival m))
  | .bcast g m => after (s.bcastTo g m)
  | .endc m => after (s.toHead c m)
  | .tk pl r => after (if r.op = 6 then s.taskItem c r else s.orRefused c ctx r.va pl (s.taskItem c r))
  | .tg op mask arg => some (s.tagOp c ctx op mask arg)
  | .conv g v => after (s.report c ctx g v)
  | .fenceRel k => if chainPending s c k || x.outst != [] then none else some s
  | .copy k => if x.calm then s.kick c k else none
  | .inval r => if pinGoing s c then none else after (s.invalNow r)
  | .replay k => if pinGoing s c then none else after (s.replay k)
  | .pin r => if pinGoing s c then none else after (s.launch (.pgPinCompletion r))
  | .ch fn ra rb mpa => after (s.chainCmd ctx fn ra rb mpa)
  | .post p => after (s.launch (.postArrival p))
  | .arm e w0 w1 => after (s.armEntry ctx e w0 w1)
  | .disarm e => if (launchOf s ctx e).hit = some s.pkg.cyc.toNat then none else after (s.disarmEntry ctx e)
  | .trig t => after (s.launch (.launchTrigger t))
  | .trigRemote pkg t dest => if portAwaited s pkg then none else after (s.remote c ctx pkg dest (.trig t))
  | .gate p ncore ntag pkgs => if pkgs.any (portAwaited s) then none else after (s.postGate c ctx p ncore ntag pkgs)

/-! ## Ordered conflicts (R299, R301) -/

/-- The keys of an ordered domain in order: T, then n (R299). -/
def keyLt (a b : Nat × Nat) : Bool := decide (a.1 < b.1) || (a.1 == b.1 && decide (a.2 < b.2))

/-- A trigger that stands for the ordered activation of a group and key in a test for conflicts (R301). -/
def orderedBy (ctx : Nat) (k : Option (Nat × Nat × Nat)) : Msg :=
  match k with
  | some (g, key) => { ctx := ctx, grp := g, ord := true, key := some key }
  | none => {}

/-- The ordered domain of a group. -/
def domainOf (s : State) (ctx g : Nat) : Domain := Tbl.getD (s.ctxAt ctx).domains g {}

/-- A trigger belongs to the same ordered domain as another and has a higher key. -/
def higherKey (m t : Msg) : Bool :=
  t.ord && t.ctx == m.ctx && t.grp == m.grp &&
    match m.key, t.key with
    | some a, some b => keyLt a b
    | _, _ => false

/-- The lines that a write to a place changes. -/
def writtenLines (s : State) (pl : Place) : List Nat :=
  match pl with
  | .mem pa => [lineOf pa]
  | .chain x ch off => (chainOf s x ch).links.map fun l => lineOf (linkPa l off)

/-- The lines that an item writes; none for a copy command, whose lines are tested as if they hit (R301, log 23 DEDUCED). -/
def itemLines (s : State) (g : Gated) : Option (List Nat) :=
  match g with
  | .store pl _ _ _ _ => some (writtenLines s pl)
  | .atomic pl _ => some (writtenLines s pl)
  | .rgCmt pl _ _ => some (writtenLines s pl)
  | .rgRel pl _ => some (writtenLines s pl)
  | .tk pl _ => some (writtenLines s pl)
  | .copy _ => none
  | _ => some []

/-- Lines written hit a read signature. -/
def sigHit (ls : Option (List Nat)) (sig : List Nat) : Bool :=
  match ls with
  | some ls => sig.any ls.contains
  | none => true

/-- The running ordered activation of a core is discarded, and its message returns to its domain (R301). -/
def State.dropOrdered (s : State) (c : Nat) : State :=
  let m := s.trigAt c
  (s.drop c).dispatchMsg m

/-- Writes by the activation of a trigger discard every activation of its domain with a higher key whose read signature
they hit (R301). -/
def State.conflict (s : State) (m : Msg) (ls : Option (List Nat)) : State :=
  if !m.ord || ls == some [] then s
  else
    let waits := s.cores.filterMap fun e => match e.2.word with
      | some w => if !w.releasing && !w.firm && higherKey m w.trig && sigHit ls w.rsig then some e.1 else none
      | none => none
    let runs := s.cores.filterMap fun e =>
      if e.2.phase != .idle && e.2.rev && higherKey m e.2.trig && sigHit ls e.2.rsig then some e.1 else none
    runs.foldl State.dropOrdered (waits.foldl State.dropWaiting s)

/-- An operation at a serialisation point waits: its line is being invalidated, an earlier request for it waits there, or its owner is
being remapped; at the head of a chain, the head takes no operation now, or a store of the core has not reached it (R103, R112,
R123, R128, R251). -/
def headWaits (s : State) (c : Nat) (pl : Place) (here : Bool := false) : Bool :=
  match pl with
  | .mem pa => lineHeld s pa here || placeHeld s pl
  | .chain x ch off =>
    headHeld s x ch (lineOf off) || lineHeld s (homePa s x pl) here || placeHeld s pl || s.flight.any fun i => match i with
      | .chainStoreAtLink st => st.core == c && st.pkg == s.pkg.num && st.ctx == x && st.ch == ch && st.hop == 0
      | _ => false

/-- The place whose head an item is performed at. -/
def headPlace (g : Gated) : Option Place :=
  match g with
  | .atomic pl _ => some pl
  | .rgCmt pl _ _ => some pl
  | .rgRel pl _ => some pl
  | .tk pl _ => some pl
  | .watch pl _ => some pl
  | _ => none

/-- An item is performed for an activation that has ended: what leaves the core is that activation's (R301). -/
def performFor (s : State) (c : Nat) (m : Msg) (g : Gated) : Option State :=
  let own := (s.coreAt c).trig
  if own = m then performGated s c g
  else (performGated (s.onCore c fun x => { x with trig := m }) c g).map fun t => t.onCore c fun x => { x with trig := own }

/-- An item of an activation is performed, with the conflicts that follow; none where it must wait. -/
def performItem (s : State) (c : Nat) (m : Msg) (g : Gated) : Option State :=
  let ls := itemLines s g
  if ((headPlace g).map (headWaits s c)).getD false then none
  else (performFor s c m g).map fun t => t.conflict m ls

/-! ## Releasing a buffer (R280) -/

/-- The owner of a local store that an item accesses as a lane of a vector instruction, and the instructions (R262). -/
def laneOf (g : Gated) : Option (Nat × List Nat) :=
  let at' := fun (pl : Place) (k : List Nat) => match pl with
    | .mem pa => if k ≠ [] ∧ rowOf pa = .localStore then some (pa / lsSize, k) else none
    | .chain _ _ _ => none
  match g with
  | .store pl _ _ _ k => at' pl k
  | .atomic pl r => at' pl r.grp
  | _ => none

/-- A store of a later instruction has merged into a lane's entry (R296). -/
def mergedLane (g : Gated) : Bool :=
  match g with
  | .store _ _ _ _ k => decide (1 < k.length)
  | _ => false

/-- The items behind a lane that belong to its group, in order, and the others: the lanes of one instruction to one owner (R262). The
others come in two parts: those ahead of the last entry of the group into which a later store has merged, which program order puts
before that store (R249), and the rest. -/
def groupOf (own : Nat) (ks : List Nat) (gs : List Gated) : List Gated × List Gated × List Gated :=
  match gs with
  | [] => ([], [], [])
  | g :: rest =>
    let k := match laneOf g with
      | some (o, k) => if o = own ∧ (k.any fun j => j != 0 && ks.contains j) then k else []
      | none => []
    let (a, b, c) := groupOf own (ks ++ k) rest
    if k ≠ [] then (g :: a, b, c) else if a.any mergedLane then (a, g :: b, c) else (a, b, g :: c)

/-- Items are performed one after another in one step; none where one of them must wait. -/
def performAll (s : State) (c : Nat) (m : Msg) (gs : List Gated) : Option State :=
  match gs with
  | [] => some s
  | g :: rest => (performItem s c m g).bind fun t => performAll t c m rest

/-- Items are performed in order until one must wait; the rest stay. The lanes of one vector instruction to one owner's local store
are performed in one step, ahead of its lanes to others, or, where a later store has merged into one of them, behind these (R249,
R262). At most n rounds. -/
def releaseRounds (n : Nat) (s : State) (c : Nat) (m : Msg) (gs : List Gated) : State × List Gated :=
  match n, gs with
  | _, [] => (s, [])
  | 0, _ => (s, gs)
  | n + 1, g :: rest =>
    let (mine, before, others) := match laneOf g with
      | some (o, k) => groupOf o k rest
      | none => ([], [], rest)
    match releaseRounds n s c m before with
    | (s, []) =>
      match performAll s c m (g :: mine) with
      | some t => releaseRounds n t c m others
      | none => (s, g :: (mine ++ others))
    | (s, left) => (s, left ++ g :: (mine ++ others))

/-- Items are performed in order until one must wait; the rest stay (R280, R262). -/
def releaseAll (s : State) (c : Nat) (m : Msg) (gs : List Gated) : State × List Gated := releaseRounds gs.length s c m gs

/-- The items of an activation are released: accesses first, then, when every store is performed, the messages (R280).
What must still wait is left. -/
def releaseList (s : State) (c : Nat) (m : Msg) (buf : List Gated) : State × List Gated :=
  let (s, left) := releaseAll s c m (buf.filter fun g => !g.last)
  let msgs := buf.filter Gated.last
  if left ≠ [] then (s, left ++ msgs)
  else if !(s.coreAt c).calm then (s, msgs)
  else releaseAll s c m msgs

/-- A core's buffer is released; the result says whether nothing is left. -/
def State.releaseBuffer (s : State) (c : Nat) : State × Bool :=
  let (s, left) := releaseList s c (s.coreAt c).trig (s.coreAt c).cbuf
  (s.onCore c fun x => { x with cbuf := left }, left = [] && (s.coreAt c).calm)

/-! ## Becoming irrevocable (R297, R302) -/

/-- A key is the lowest one of its domain not yet committed (R300). -/
def isHead (s : State) (m : Msg) : Bool :=
  match m.key with
  | none => true
  | some k => (domainOf s m.ctx m.grp).keys.all fun j => !keyLt j k

/-- The buffered items of an irrevocable activation are released before it goes on; it waits while one must wait. -/
def drain : M Unit := do
  let s ← get
  if s.core.cbuf = [] then pure ()
  else
    let (t, done) := s.releaseBuffer s.cur
    set t
    if done then pure () else stall

/-- The activation becomes irrevocable: an ordered one waits until it is the head of its domain; the buffered prefix is
released in order, and the shadows are released (R297, R302, R202). -/
def becomeIrrevocable : M Unit := do
  let s ← get
  if s.core.rev then
    if isHead s s.core.trig then
      modCore fun x => { x with rev := false, mx := { x.mx with shadows := [] } }
      drain
    else stall
  else drain

/-! ## Gating (R249, R296) -/

/-- The entries that an item occupies (Table 14.6). -/
def entriesOf (g : Gated) : Nat :=
  match g with
  | .post _ => 3
  | _ => 1

/-- The entries held by a core: its own activation's, and a waiting ordered activation's (R296). -/
def Core.held64 (x : Core) : Nat :=
  (x.cbuf.map entriesOf).sum + match x.word with
    | some w => (w.cbuf.map entriesOf).sum
    | none => 0

/-- Bytes of a line with others written over them. -/
def mergeBytes (old new : List (Nat × Byte)) : List (Nat × Byte) :=
  (List.range 64).filterMap fun i =>
    match new.find? fun b => b.1 == i with
    | some b => some b
    | none => old.find? fun b => b.1 == i

/-- The instructions of which a merged entry holds a lane; 0 stands for a later store that is no lane (R262, R296). -/
def mergeKeys (old new : List Nat) : List Nat := if old = [] then new else distinct (old ++ if new = [] then [0] else new)

/-- A store merges into the youngest entry when that entry holds the same line (R296). -/
def mergeStore (buf : List Gated) (g : Gated) : Option (List Gated) :=
  match g, buf.getLast? with
  | .store pl _ bs rel k, some (.store pl' va' bs' rel' k') =>
    if pl = pl' then some (buf.dropLast ++ [.store pl' va' (mergeBytes bs' bs) (rel || rel') (mergeKeys k' k)]) else none
  | _, _ => none

/-- An item is performed at issue in an irrevocable activation. -/
def performNow (g : Gated) : M Unit := do
  drain
  let s ← get
  match performItem s s.cur s.core.trig g with
  | some t => set t
  | none => stall

/-- A store to a line that a queued matrix command has not read waits at issue (R210). -/
def mustWait (s : State) (g : Gated) : Bool :=
  match g with
  | .store pl _ _ _ _ => mxUnread s s.cur pl
  | _ => false

/-- An atomic that issues, held or not, invalidates the core's own L1 copy of its line: where the core reads it, and at its
serialisation point (R124). -/
def dropAtomicLine (g : Gated) : M Unit :=
  match g with
  | .atomic pl _ => modify fun s => s.dropOwn s.cur s.ctxNo pl
  | _ => pure ()

/-- An item of an instruction that performs several belongs to its group (R262). -/
def Gated.grouped (g : Gated) (x : Core) : Gated :=
  match x.group, g with
  | some _, .store pl va bs rel _ => .store pl va bs rel [x.icount + 1]
  | some _, .atomic pl r => .atomic pl { r with grp := [x.icount + 1] }
  | _, g => g

/-- An item is gated: held in a revocable activation, performed at issue in an irrevocable one. An item that finds no
free entry makes the activation irrevocable (Table 14.7). -/
def gate (item : Gated) : M Unit := do
  dropAtomicLine item
  let s ← get
  let g := item.grouped s.core
  if mustWait s g then stall
  else if s.core.rev then
    match mergeStore s.core.cbuf g with
    | some buf => modCore fun x => { x with cbuf := buf }
    | none =>
      if s.core.held64 + entriesOf g ≤ 64 then modCore fun x => { x with cbuf := x.cbuf ++ [g] }
      else do
        becomeIrrevocable
        performNow g
  else performNow g

/-! ## Instructions that gate several items (R240, R254, R262) -/

/-- A part of a step left its core's instruction waiting, to be tried again. -/
def waits (t : State) : Bool := t.core.stalled && t.core.held.isNone && t.core.phase == .running

/-- A step of the translation hardware: a miss at a slice, or a walk. -/
def missStep (i : Instr) : Bool :=
  match i with
  | .tlbMissAtSlice _ _ _ _ => true
  | .pageWalkComplete _ _ _ => true
  | _ => false

/-- What a part of a step has asked of the slices stays: its misses have joined, walk, or keep their turns at the input (R85). -/
def State.keepMisses (s t : State) : State :=
  { s with xl := t.xl, flight := s.flight ++ t.flight.filter fun i => missStep i && !s.flight.contains i }

/-- The items of one instruction, held or performed in one step or, where one of them must wait, not at all but for its requests to the
slices. -/
def allAtOnce (m : M Unit) : M Unit := fun s =>
  match m (s.setCore { s.core with group := some s.core.chainOut.length }) with
  | .ok (_, t) => .ok ((), t.setCore { t.core with group := s.core.group })
  | .error t =>
    if waits t then .error ((s.keepMisses t).setCore { s.core with stalled := true }) else .error (t.setCore { t.core with group := s.core.group })

/-- The items of one instruction as a group: held in a revocable activation, and performed at once in an irrevocable one. Items
that find no free entry make the activation irrevocable before the first of them (R262, Table 14.7). -/
def asGroup (m : M Unit) : M Unit := do
  let s ← get
  let overflows := match m s with
    | .ok (_, t) => !t.core.rev
    | .error t => !t.core.rev
  onlyIf (!s.core.rev || overflows) becomeIrrevocable
  allAtOnce m

end Sys2Proof.Machine
end

