-- ==== Sys2Proof/Machine/Operands.lean ====
section
/-!
DEFINITION. Operand forms (Tables 1.2, 1.4 and 1.8) and neighbour queue ports (R14, R269 to R271): what an instruction
reads, what a port named by it does, and how its result is written when it retires.
-/
namespace Sys2Proof.Machine

/-! ## Neighbour queues (R269 to R271) -/

/-- The opposite port. -/
def opposite (k : Nat) : Nat := (k + 2) % 4

/-- The neighbour of a core on a port (R269, Table 0.2). -/
def neighbour (c k : Nat) : Option Nat :=
  match k with
  | 0 => if c / 4 % 4 = 0 then none else some (c - 4)
  | 1 => if c % 4 = 3 then none else some (c + 1)
  | 2 => if c / 4 % 4 = 3 then none else some (c + 4)
  | _ => if c % 4 = 0 then none else some (c - 1)

/-- The input FIFO of a port. -/
def Core.fifo (c : Core) (k : Nat) : List (BitVec 65) := c.qin.toList.getD k []

/-- The core with the input FIFO of a port set. -/
def Core.setFifo (c : Core) (k : Nat) (q : List (BitVec 65)) : Core :=
  { c with qin := Vector.ofFn fun i => if i.val = k then q else c.qin[i] }

/-- A context's FIFO of a core's port: with the saved core state of a pre-empted context, else on the core while it is
resident (R273, R336). -/
def fifoOf (s : State) (ctx c k : Nat) : List (BitVec 65) :=
  if Tbl.has (s.ctxAt ctx).saves c then (Tbl.getD (s.ctxAt ctx).saves c {}).fifo k
  else if (s.coreAt c).ctx = some ctx then (s.coreAt c).fifo k else []

/-- A step is the arrival of a context's word at a core's port. -/
def wordFor (ctx c k : Nat) (i : Instr) : Bool :=
  match i with
  | .queueWordArrival c' k' w => c' == c && k' == k && w.ctx == ctx
  | _ => false

/-- The words of a context on their way to a core's port. -/
def wordsInFlight (s : State) (ctx c k : Nat) : Nat := (s.flight.filter (wordFor ctx c k)).length

/-- The free places in the neighbour's FIFO for a port (Table 12.12). -/
def credit (s : State) (c k : Nat) : Nat :=
  let ctx := (s.coreAt c).ctx.getD 0
  match neighbour c k with
  | some n => 16 - (fifoOf s ctx n (opposite k)).length - wordsInFlight s ctx n (opposite k)
  | none => 0

/-- A word is written to a port of the current core (R269). -/
def State.enqueue (s : State) (k : Nat) (w : BitVec 65) : State :=
  match neighbour s.cur k with
  | some n => s.launch (.queueWordArrival n (opposite k) ⟨s.ctxNo, w⟩)
  | none => s

/-- A word reaches a core's port: it enters its context's FIFO there, and waits on the link while the context has none on the
core (R269, R273). -/
def State.wordArrives (s : State) (c k : Nat) (w : QueueWord) : State :=
  let q := fifoOf s w.ctx c k ++ [w.w]
  if Tbl.has (s.ctxAt w.ctx).saves c then
    s.onCtx w.ctx fun y => { y with saves := Tbl.put y.saves c ((Tbl.getD y.saves c {}).setFifo k q) }
  else if (s.coreAt c).ctx = some w.ctx then s.onCore c fun x => x.setFifo k q
  else { s with flight := placeBefore (wordFor w.ctx c k) (.queueWordArrival c k w) s.flight }

/-- The head of a FIFO is a control word (R271). -/
def isControl (q : List (BitVec 65)) : Bool :=
  match q with
  | w :: _ => w.getLsbD 64
  | [] => false

/-- A catch (R271): the control word is removed, s47 and lr are written, and control passes to the catch address. -/
def catchWord (k : Nat) : M Unit := do
  let c ← core
  let w := ((c.fifo k).headD 0).setWidth 64
  let dst := c.qcatch.toList.getD k 0
  modCore fun c => c.setFifo k ((c.fifo k).drop 1)
  if dst = 0 then trap 0x05 w
  else endWith fun s => s.setCore (
    let c := s.core
    let c := (c.setS 47 w).setS 61 (c.pc.setWidth 64)
    { c with
      pc := dst.setWidth 52, stalled := false, portAt := none, lp := if c.lp.act then
          { c.lp with depth := min 255 (c.lp.depth + 1) } else c.lp,
      trail := if c.inTrail && c.trail.left.isNone then { c.trail with left := some c.pc.toNat, level := c.tlv.toNat } else c.trail,
      chk := if c.chk.catches.length < 4 then
          { c.chk with catches := (c.pc.toNat, { c.chk.cur with addr := c.pc.toNat }) :: c.chk.catches, cur := { how := 3 } }
        else { c.chk with cur := { how := 9 } } })

/-- The ports among scalar registers, in order. -/
def portsOf (ns : List SReg) : List Nat := ns.filterMap portOf

/-- A port is named to be read more often than it has words. -/
def shortOf (c : Core) (ks : List Nat) : Bool := ks.any fun k => decide ((c.fifo k).length < ks.count k)

/-- The ports that an instruction names, before it takes a word: the connections, the activation's becoming
irrevocable, the control words in field order, and the words and the place that it needs (R269 to R271, log 10 DEDUCED, log
12). An atomic performed at the head of a chain has passed all this. A sprinkle handler that names a port fails (R224, log 77
DEDUCED). -/
def openPorts (dest : Option SReg) (srcs : List SReg) : M Unit := do
  let out := portsOf dest.toList
  let ins := portsOf srcs
  let s ← get
  if out ++ ins = [] || s.core.ret.isSome then pure ()
  else if s.core.trig.kind = 1 then endWith fun s => s.sprinkleFail s.cur
  else
    match (out ++ ins).find? fun k => (neighbour s.cur k).isNone with
    | some k => trap 0x05 (word k)
    | none =>
      becomeIrrevocable
      let s ← get
      match (out ++ ins).find? fun k => isControl (s.core.fifo k) with
      | some k => catchWord k
      | none => if shortOf s.core ins || out.any (fun k => credit s s.cur k == 0) then stallAtPort else pure ()

/-! ## Reading (R10, R13, R14, R176) -/

/-- A scalar register read, and the core with a port's word taken. -/
def Core.takeS (c : Core) (n : SReg) : Word × Core :=
  match portOf n with
  | none => (c.getS n, c)
  | some k => (((c.fifo k).headD 0).setWidth 64, c.setFifo k ((c.fifo k).drop 1))

/-- The core with a word taken for each naming of a port. -/
def Core.dequeue (c : Core) (ns : List SReg) : Core := ns.foldl (fun c n => (c.takeS n).2) c

/-- The scalar register that a source names. -/
def srcNames : Src → List SReg
  | .reg n => [n]
  | _ => []

/-- The scalar register that a source of a vector group names. -/
def vsrcNames : VSrc → List SReg
  | .reg n => [n]
  | _ => []

/-- A scalar source: a literal is sign-extended (R10). -/
def Core.takeSrc (c : Core) (x : Src) : Word × Core :=
  match x with
  | .reg n => c.takeS n
  | .const n => (c.getK n, c)
  | .lit v => (v.signExtend 64, c)

/-- A literal converted exactly to FP32 (R10). -/
def litF32 (v : BitVec 6) : Lane := BitVec.ofNat 32 (fp32.conv .rne (FVal.ofInt v.toInt)).1

/-- A literal converted exactly to binary64 (R10). -/
def litF64 (v : BitVec 6) : Word := BitVec.ofNat 64 (fp64.conv .rne (FVal.ofInt v.toInt)).1

/-- A source of a vector group as read: lanes, or one value to broadcast (R11). -/
inductive Opnd where
  | lanes (x : VWord)
  | word (w : Word)
  | lit (v : BitVec 6)
  deriving DecidableEq, Repr

/-- A source of a vector group. -/
def Core.takeV (c : Core) (x : VSrc) : Opnd × Core :=
  match x with
  | .reg n => let (w, c) := c.takeS n; (.word w, c)
  | .vec n => (.lanes (c.getV n), c)
  | .const n => (.word (c.getK n), c)
  | .lit v => (.lit v, c)

/-- Every lane the same. -/
def splat (x : Lane) : VWord := Vector.replicate 16 x

/-- The lanes of an integer operand (R10, R176). -/
def Opnd.ints : Opnd → VWord
  | .lanes x => x
  | .word w => splat (w.setWidth 32)
  | .lit v => splat (v.signExtend 32)

/-- The lanes of a floating-point operand (R10). -/
def Opnd.floats : Opnd → VWord
  | .lanes x => x
  | .word w => splat (w.setWidth 32)
  | .lit v => splat (litF32 v)

/-- A lane's number, read from its four low bits. -/
def laneNo (w : Lane) : Fin 16 := ⟨w.toNat % 16, Nat.mod_lt _ (by decide)⟩

/-- The index or control value of vx: bits [3:0] of a scalar, or of lane 0 of a vector (R196, R197). -/
def Opnd.index (x : Opnd) : Fin 16 := laneNo (x.ints[0])

/-- A predicate source (R190). -/
def Core.readP (c : Core) (x : PSrc) : PWord :=
  match x with
  | .pred n => c.getP n
  | .lit v => v.signExtend 16

/-- The source of pr.set (R190). -/
def Core.readK (c : Core) (x : KSrc) : PWord :=
  match x with
  | .pred n => c.getP n
  | .const n => (c.getK n).setWidth 16
  | .lit v => v.signExtend 16

/-! ## Writing at retirement (R175) -/

/-- A scalar result written: to a register, or enqueued on a port. -/
def State.putS (s : State) (n : SReg) (w : Word) : State :=
  match portOf n with
  | none => s.setCore (s.core.setS n w)
  | some k => s.enqueue k (w.setWidth 65)

/-- The instruction takes its words from the ports it read, and retires. -/
def finish (srcs : List SReg) : M Unit := do
  modCore fun c => c.dequeue srcs
  retire

/-- The instruction takes its words, writes a scalar result and retires. -/
def finishS (rd : SReg) (srcs : List SReg) (w : Word) : M Unit := do
  modCore fun c => c.dequeue srcs
  modify fun s => s.putS rd w
  retire

/-- The instruction takes its words, writes a vector result and retires. -/
def finishV (rd : VReg) (srcs : List SReg) (x : VWord) : M Unit := do
  modCore fun c => (c.dequeue srcs).setV rd x
  retire

/-- The instruction takes its words, writes a predicate and retires. -/
def finishP (rd : PReg) (srcs : List SReg) (x : PWord) : M Unit := do
  modCore fun c => (c.dequeue srcs).setP rd x
  retire

/-- An L- or M-format instruction takes its words and retires with a scalar result under its lookahead field; a port
takes the result at once (R19, R20). -/
def finishL (rd : SReg) (la : BitVec 4) (srcs : List SReg) (w : Word) : M Unit := do
  modCore fun c => c.dequeue srcs
  match portOf rd with
  | none => if rd = 0 then retire else retireWith (.s rd w) la
  | some k => do
    modify fun s => s.enqueue k (w.setWidth 65)
    retire

/-- An L- or M-format instruction takes its words and retires with a vector or block result. -/
def finishR (r : RegVal) (la : BitVec 4) (srcs : List SReg) : M Unit := do
  modCore fun c => c.dequeue srcs
  retireWith r la

/-! ## The plain forms of the register groups -/

/-- Two scalar sources, a computation that may end the instruction, and a scalar result. -/
def scalar2 (rd : SReg) (sa sb : Src) (f : Word → Word → M Word) : M Unit := do
  let srcs := srcNames sa ++ srcNames sb
  openPorts (some rd) srcs
  let c ← core
  let (a, c) := c.takeSrc sa
  let (b, _) := c.takeSrc sb
  let r ← f a b
  finishS rd srcs r

/-- One scalar source and a scalar result. -/
def scalar1 (rd : SReg) (sa : Src) (f : Word → Word) : M Unit := do
  let srcs := srcNames sa
  openPorts (some rd) srcs
  let c ← core
  let (a, _) := c.takeSrc sa
  finishS rd srcs (f a)

/-- A scalar register and an immediate (R181). -/
def scalarI (rd rs : SReg) (f : Word → Word) : M Unit := scalar1 rd (.reg rs) f

/-- Two predicate sources and a predicate result (R190). -/
def pred2 (rd : PReg) (sa sb : PSrc) (f : PWord → PWord → PWord) : M Unit := do
  let c ← core
  finishP rd [] (f (c.readP sa) (c.readP sb))

/-- A predicate source and a scalar result (R190). -/
def predS (rd : SReg) (sa : PSrc) (f : PWord → Word) : M Unit := do
  openPorts (some rd) []
  let c ← core
  finishS rd [] (f (c.readP sa))

/-- The values of the scalar registers that an L- or M-format instruction reads, in order. -/
def Core.takeAll (c : Core) (ns : List SReg) : List Word :=
  match ns with
  | [] => []
  | n :: rest => let (w, c) := c.takeS n; w :: Core.takeAll c rest

end Sys2Proof.Machine
end

