-- ==== Sys2Proof/Machine/Flags.lean ====
section
/-!
DEFINITION. Floating-point flags (R167, R168) and the forms of the vector groups that raise them.
-/
namespace Sys2Proof.Machine

/-- The enabled flags: frm[9:5] (Table 8.7). -/
def Core.enabled (c : Core) : FFlags := c.frm.extractLsb' 5 5

/-- The rounding mode of the core. -/
def Core.rm (c : Core) : Rm := rmOf c.frm

/-- The flags that an instruction raised: they are set, and an enabled one traps with no register changed (R168). -/
def raise (fl : FFlags) : M Unit := do
  let c ← core
  if fl &&& c.enabled = 0 then modCore fun c => { c with fflags := c.fflags ||| fl }
  else endWith fun s =>
    let s := s.setCore { s.core with fflags := s.core.fflags ||| fl }
    s.takeTrap s.cur 0x09 s.core.pc (fl.setWidth 64)

/-- The union of flags (R167). -/
def unionFlags (fs : List FFlags) : FFlags := fs.foldl (· ||| ·) 0

/-- Lane results with their flags as a vector and the union of the flags. -/
def gather (f : Fin 16 → Lane × FFlags) : VWord × FFlags :=
  (Vector.ofFn fun i => (f i).1, unionFlags ((List.finRange 16).map fun i => (f i).2))

/-- Two floating-point vector sources and the old destination, lane by lane (R191, R192). -/
def fvec2 (rd : VReg) (sa sb : VSrc) (f : Rm → Lane → Lane → Lane → Lane × FFlags) : M Unit := do
  let srcs := vsrcNames sa ++ vsrcNames sb
  openPorts none srcs
  let c ← core
  let (a, c1) := c.takeV sa
  let (b, _) := c1.takeV sb
  let old := c.getV rd
  let (x, fl) := gather fun i => f c.rm a.floats[i] b.floats[i] old[i]
  raise fl
  finishV rd srcs x

/-- One floating-point vector source. -/
def fvec1 (rd : VReg) (sa : VSrc) (f : Rm → Lane → Lane × FFlags) : M Unit := do
  let srcs := vsrcNames sa
  openPorts none srcs
  let c ← core
  let (a, _) := c.takeV sa
  let (x, fl) := gather fun i => f c.rm a.floats[i]
  raise fl
  finishV rd srcs x

/-- Two integer vector sources, lane by lane (R194). -/
def ivec2 (rd : VReg) (sa sb : VSrc) (f : Lane → Lane → Lane) : M Unit := do
  let srcs := vsrcNames sa ++ vsrcNames sb
  openPorts none srcs
  let c ← core
  let (a, c1) := c.takeV sa
  let (b, _) := c1.takeV sb
  finishV rd srcs (Vector.ofFn fun i => f a.ints[i] b.ints[i])

/-- A predicate from the bits of lanes. -/
def predOf (f : Fin 16 → Bool) : PWord := BitVec.ofNat 16 (((List.finRange 16).map fun i => flag (f i) i.val).sum)

/-- A floating-point comparison (R195). -/
def fcmp (rd : PReg) (sa sb : VSrc) (f : Lane → Lane → Bool × FFlags) : M Unit := do
  let srcs := vsrcNames sa ++ vsrcNames sb
  openPorts none srcs
  let c ← core
  let (a, c1) := c.takeV sa
  let (b, _) := c1.takeV sb
  raise (unionFlags ((List.finRange 16).map fun i => (f a.floats[i] b.floats[i]).2))
  finishP rd srcs (predOf fun i => (f a.floats[i] b.floats[i]).1)

/-- An integer comparison (R195). -/
def icmp (rd : PReg) (sa sb : VSrc) (f : Lane → Lane → Bool) : M Unit := do
  let srcs := vsrcNames sa ++ vsrcNames sb
  openPorts none srcs
  let c ← core
  let (a, c1) := c.takeV sa
  let (b, _) := c1.takeV sb
  finishP rd srcs (predOf fun i => f a.ints[i] b.ints[i])

end Sys2Proof.Machine
end

