-- ==== Sys2Proof/Machine/Access.lean ====
section
/-!
DEFINITION. Reading a place (R106, R122, R251, R353, R375, R385), loads with their forwarding (R249, R250), stores,
returning atomics (R257), and the descriptors that instructions read in the own local store.
-/
namespace Sys2Proof.Machine

/-! ## Reading a place -/

/-- What a read finds. -/
inductive Got where
  | ok (bs : List Byte)
  /-- The line serves no read yet. -/
  | wait
  /-- Uncorrectable data: the class of the error log. -/
  | bad (cls : Nat)
  /-- A port refuses (R377). -/
  | refused
  /-- Host memory: the read leaves the package (R375). -/
  | host (pa : Nat)
  deriving DecidableEq, Repr

/-- A read of physical memory by a core, or by an engine of it, for a context. -/
def readMem (s : State) (ctx pa n : Nat) : Got :=
  match rowOf pa with
  | .device => .ok (deviceRead s pa n)
  | .host => .host pa
  | .reserved => .ok (s.readPa pa n)
  | .localStore =>
    if accessHeld s pa then .wait
    else if paPkg pa != s.pkg.num then
      if refuses s (paPkg pa) then .refused
      else if poisoned s pa then .bad (poisonClass s pa) else .ok (s.readPa pa n)
    else
      let pa := lsRedirect s ctx pa
      if ownHbm s pa then
        match hbmError s ctx pa with
        | some cls => .bad cls
        | none => .ok (s.readPa pa n)
      else if poisoned s pa then .bad (poisonClass s pa) else .ok (s.readPa pa n)
  | .hbm =>
    if paPkg pa != s.pkg.num then
      if accessHeld s pa then .wait
      else if refuses s (paPkg pa) then .refused
      else if poisoned s pa then .bad (poisonClass s pa) else .ok (s.readPa pa n)
    else if (s.dieAt (hbmDieOf pa)).lost then .bad 0x21
    else if lineHeld s pa || accessHeld s pa then .wait
    else match hbmError s ctx pa with
      | some cls => .bad cls
      | none => .ok (s.readPa pa n)

/-- The physical address that a place's bytes are read at by a core (R106). -/
def servedPa (s : State) (c : Nat) (pl : Place) : Nat :=
  match pl with
  | .mem pa => pa
  | .chain x ch off => linkPa (readLink s c (chainOf s x ch) off) off

/-- A read of a place within one line, for a core or an engine of it. A chain read waits for the core's own released
stores to the line (R283) and, where it must ask the tail, for a reconfiguration to end (R112). -/
def readPlace (s : State) (c ctx : Nat) (pl : Place) (n : Nat) : Got :=
  match pl with
  | .mem pa => readMem s ctx pa n
  | .chain x ch off =>
    let e := chainOf s x ch
    if (s.coreAt c).chainOut.any fun st => st.ctx == x && st.ch == ch && touches st (lineOf off) then .wait
    else if e.cst = 3 then .bad 0x24
    else if e.reconf && dirtyAt e (servingLink s c e) (lineOf off) then .wait
    else readMem s ctx (servedPa s c pl) n

/-- A read of a place enters the read signature of an ordered activation (R301). -/
def State.noteSig (s : State) (c : Nat) (pl : Place) : State :=
  let pa := servedPa s c pl
  if (s.coreAt c).trig.ord && !(s.coreAt c).rsig.contains (lineOf pa) then
    s.onCore c fun x => { x with rsig := x.rsig ++ [lineOf pa] }
  else s

/-- What a read leaves behind: the access count of a request that reaches the slice, the line in L1 where a load allocates it, the
read signature of an ordered activation, and the request to another package (R67, R122, R106, R301, R376). A load of a core hits its
L1 data cache. -/
def State.noteRead (s : State) (c ctx : Nat) (pl : Place) (fill : Bool) (n : Nat := 64) : State :=
  let pa := servedPa s c pl
  let q : MemReq := { core := c, pkg := s.pkg.num, ctx := ctx, pa := pa, len := n }
  let s := match pl with
    | .mem _ => s.askRemote ctx pa (.mem q)
    | .chain x ch off => s.askChain c { q with ctx := x, chain := some (ch, off) }
  let clean := match pl with
    | .mem _ => true
    | .chain x ch off => !dirtyAt (chainOf s x ch) (servingLink s c (chainOf s x ch)) (lineOf off)
  let s := if fill && (s.coreAt c).l1.contains (lineOf pa) then s
    else
      let s := s.count ctx (dieOf c) (homePa s ctx pl) false
      if fill && clean then s.fillL1 c pa false else s.fillL2 pa
  s.noteSig c pl

/-! ## Loads (R249, R250) -/

/-- The byte that the own activation's held stores give a place, youngest first. -/
def heldByte (buf : List Gated) (pl : Place) : Option Byte :=
  buf.reverse.findSome? fun g => match g with
    | .store l _ bs _ _ => if l = pl.line then (bs.find? fun b => b.1 == pl.inLine).map Prod.snd else none
    | _ => none

/-- A gated atomic is held on the line of a place (R250). -/
def heldAtomic (buf : List Gated) (pl : Place) : Bool :=
  buf.any fun g => match g with
    | .atomic p _ => p.line == pl.line
    | .rgCmt p _ _ => p.line == pl.line
    | .rgRel p _ => p.line == pl.line
    | _ => false

/-- A read of host memory leaves a core; a completion that was on its way for an earlier load is dropped (R375). -/
def State.askHost (s : State) (c pa n : Nat) : State :=
  let old := fun (i : Instr) => match i with
    | .hostCompletion k _ _ => k == c
    | _ => false
  { s with flight := s.flight.filter fun i => !old i }.launch (.hostCompletion c true (s.readPa pa n))

/-- A load of host memory: it waits for its completion, and a failed one raises protection (R375). What one part of a load
receives stays with the core until the load retires. -/
def hostLoad (va pa n : Nat) : M (List Byte) := do
  let c ← core
  match c.hostGot.find? fun g => g.1 == va with
  | some g => pure (g.2 ++ List.replicate (n - g.2.length) 0)
  | none =>
    match c.hostRd with
    | some (true, bs) => do
      modCore fun c => { c with hostRd := none, hostWait := false, hostGot := (va, bs) :: c.hostGot }
      pure (bs ++ List.replicate (n - bs.length) 0)
    | some (false, _) => do
      modCore fun c => { c with hostRd := none, hostWait := false }
      trap 0x05 (word va)
    | none => do
      onlyIf (!c.hostWait) (modify fun s => s.askHost s.cur pa n)
      modCore fun c => { c with hostWait := true }
      stall

/-- Bytes of memory for a load of the current core, or the way the load ends. -/
def memBytes (va : Nat) (pl : Place) (n : Nat) : M (List Byte) := do
  let s ← get
  match readPlace s s.cur s.ctxNo pl n with
  | .ok bs => do
    set (s.noteRead s.cur s.ctxNo pl true n)
    pure bs
  | .wait => stall
  | .bad cls => endWith fun s => s.consume s.cur cls va (word va) (failDetail cls pl)
  | .refused => trap 0x05 (word va)
  | .host pa => hostLoad va pa n

/-- A load of bytes within one line: the youngest held value of each byte, and memory for the others. -/
def loadLine (va : Nat) (pl : Place) (n : Nat) : M (List Byte) := do
  let s ← get
  onlyIf (heldAtomic s.core.cbuf pl) becomeIrrevocable
  let s ← get
  let held := (List.range n).map fun i => heldByte s.core.cbuf (pl.plus i)
  if held.all Option.isSome then pure (held.map fun b => b.getD 0)
  else do
    let bs ← memBytes va pl n
    pure (held.zipWith (fun h b => h.getD b) bs)

/-- A load of bytes that may reach over lines: the offsets and lengths of its parts. -/
def lineParts (pl : Place) (n : Nat) : List (Nat × Nat) :=
  let first := min n (64 - pl.inLine)
  (0, first) :: ((List.range ((n - first + 63) / 64)).map fun k => (first + 64 * k, min 64 (n - first - 64 * k)))

/-- The parts of a load, in order. -/
def loadParts (va : Nat) (pl : Place) (ps : List (Nat × Nat)) : M (List Byte) :=
  match ps with
  | [] => pure []
  | p :: rest => do
    let a ← loadLine (va + p.1) (pl.plus p.1) p.2
    let b ← loadParts va pl rest
    pure (a ++ b)

/-- A load of bytes. -/
def loadBytes (va : Nat) (pl : Place) (n : Nat) : M (List Byte) := loadParts va pl (lineParts pl n)

/-! ## Stores (R249) -/

/-- A store of bytes by offset from a place, gated line by line. -/
def storeGated (va : Nat) (pl : Place) (bs : List (Nat × Byte)) (rel : Bool) : M Unit :=
  let lines := distinct (bs.map fun b => (pl.inLine + b.1) / 64)
  each lines fun l =>
    let mine := (bs.filter fun b => (pl.inLine + b.1) / 64 == l).map fun b => ((pl.inLine + b.1) % 64, b.2)
    gate (.store ((pl.plus (64 * l)).line) ((va + 64 * l) / 64 * 64) mine rel)

/-- Bytes by their offsets from 0. -/
def numbered (bs : List Byte) : List (Nat × Byte) := bs.mapIdx fun i b => (i, b)

/-! ## Addresses (R247) -/

/-- rb[51:0]. -/
def addrOf (w : Word) : Nat := fld w 51 0

/-- The address of an L-format access: a sum outside 52 bits overflows (R247). -/
def addrL (rb : Word) (off : BitVec 6) (size : Nat) : M Nat :=
  let a : Int := (addrOf rb : Int) + off.toInt * size
  if a < 0 ∨ 2 ^ 52 ≤ a then trap 0x07 rb else pure a.toNat

/-! ## Operations of core state (R257) -/

/-- An operation is performed at its serialisation point in one step, once every earlier store and atomic of the core is. On a
chain line its value is kept until the store that carries it has completed (R104); one that stores nothing waits until the head's line
is clean, so that the value it returns has taken effect (R108). -/
def atHome (va : Nat) (pl : Place) (f : State → Word × State) : M Word := do
  let s ← get
  if !s.core.calm || headWaits s s.cur pl then stall
  else match homeFails s s.ctxNo pl with
  | some cls => endWith fun s => s.consume s.cur cls va (word va) (failDetail cls pl)
  | none => do
    let (w, t) := f s
    if t.core.chainOut = [] && dirtyHead s pl then stall else
    set ((t.noteSig t.cur pl).conflict t.core.trig (some (writtenLines t pl)))
    if t.core.chainOut = [] then pure w
    else do
      modCore fun c => { c with ret := some w }
      stall

/-- An access of the current core whose result returns from its serialisation point: every check has passed. The
activation becomes irrevocable, every earlier store is performed, and the operation is done there (R257). -/
def returning (va : Nat) (pl : Place) (f : State → Word × State) : M Word := do
  let s ← get
  match s.core.ret with
  | some w =>
    if s.core.chainOut = [] then do
      modCore fun c => { c with ret := none }
      pure w
    else stall
  | none => do
    waitWhile fun s => placeHeld s pl
    trapIf (refusedBy s pl).isSome 0x05 (word va)
    becomeIrrevocable
    atHome va pl f

/-! ## The own local store (R59) -/

/-- The offset of an address in the own local store: window 0xE, or window 0xF naming the own core. -/
def ownOff (s : State) (va : Nat) : Option Nat :=
  if window va = 0xE ∧ bits va 47 18 = 0 then some (bits va 17 0)
  else if window va = 0xF ∧ bits va 35 18 = 0 ∧ bits va 47 36 = s.cur then some (bits va 17 0)
  else none

/-- The place of an offset of the own local store. -/
def ownPlace (s : State) (off : Nat) : Place := .mem (lsPa s s.cur off)

/-- Bytes of the own local store, read at issue with forwarding. -/
def ownBytes (va off n : Nat) : M (List Byte) := do
  let s ← get
  loadBytes va (ownPlace s off) n

/-- A descriptor of n bytes in the own local store, aligned to a power of two; any other address raises a trap with the
address (R258, R303, R332). -/
def ownDescriptor (w : Word) (n align cause : Nat) : M (List Word) := do
  let s ← get
  let va := addrOf w
  match ownOff s va with
  | some off =>
    if va % align ≠ 0 ∨ lsSize < off + n then trap cause w
    else do
      let bs ← ownBytes va off n
      pure ((List.range (n / 8)).map fun i => word (ofBytes ((bs.drop (8 * i)).take 8)))
  | none => trap cause w

end Sys2Proof.Machine
end

