-- ==== Sys2Proof/Machine/Scalar.lean ====
section
/-!
DEFINITION. The scalar, control-flow and predicate instructions (chapter 09): sa, sb, sw, si, li, br, jmp, call, jx, lp
and pr.
-/
namespace Sys2Proof.Machine

/-! ## Integer arithmetic (R177 to R180) -/

/-- The upper half of a signed product. -/
def mulHigh (a b : Word) : Word := BitVec.ofInt 64 (a.toInt * b.toInt / 2 ^ 64)

/-- The upper half of an unsigned product. -/
def mulHighN (a b : Word) : Word := BitVec.ofNat 64 (a.toNat * b.toNat / 2 ^ 64)

/-- A signed quotient, truncated toward zero. -/
def quotient {w : Nat} (a b : BitVec w) : BitVec w := a.sdiv b

/-- A signed remainder with the sign of the dividend. -/
def remainder {w : Nat} (a b : BitVec w) : BitVec w := a.srem b

/-- The lesser of two signed numbers. -/
def minS {w : Nat} (a b : BitVec w) : BitVec w := if a.slt b then a else b
/-- The greater of two signed numbers. -/
def maxS {w : Nat} (a b : BitVec w) : BitVec w := if a.slt b then b else a
/-- The lesser of two unsigned numbers. -/
def minU {w : Nat} (a b : BitVec w) : BitVec w := if a.ult b then a else b
/-- The greater of two unsigned numbers. -/
def maxU {w : Nat} (a b : BitVec w) : BitVec w := if a.ult b then b else a

/-- A division: a divisor of zero traps with the dividend (R178). -/
def divide (f : Word → Word → Word) (a b : Word) : M Word := if b = 0 then trap 0x08 a else pure (f a b)

/-- An operation on the low words, its result sign-extended (R180). -/
def onWords (f : Lane → Lane → Lane) (a b : Word) : Word := (f (a.setWidth 32) (b.setWidth 32)).signExtend 64

/-- A division of the low words; tval holds the dividend's low word, sign-extended (R178). -/
def divideWords (f : Lane → Lane → Lane) (a b : Word) : M Word :=
  if b.setWidth 32 = 0#32 then trap 0x08 ((a.setWidth 32).signExtend 64) else pure (onWords f a b)

/-- An offset added to a fat pointer, its tag kept (R64). -/
def pointerAdd (p d : Word) : M Word :=
  let sum : Int := (fld p 51 0 : Int) + d.toInt
  if sum < 0 ∨ 2 ^ 52 ≤ sum then trap 0x07 p
  else pure (word (fld p 63 52 * 2 ^ 52 + sum.toNat))

/-- A shift amount: B[5:0] (R179). -/
def amount (b : Word) : Nat := b.toNat % 64

/-- A rotation to the right. -/
def rotate (a : Word) (n : Nat) : Word := a.rotateRight n

/-- The number of leading zeros. -/
def leadingZeros (a : Word) : Nat := if a = 0 then 64 else 63 - Nat.log2 a.toNat

/-- The number of trailing zeros below a bound. -/
def trailingFrom (x : Nat) : Nat → Nat → Nat
  | 0, k => k
  | n + 1, k => if bit x k then k else trailingFrom x n (k + 1)

/-- The number of one bits. -/
def ones {w : Nat} (a : BitVec w) : Nat := ((List.range w).map fun i => flag (a.getLsbD i) 0).sum

/-- One for true. -/
def truth (b : Bool) : Word := if b then 1 else 0

/-- sa.add (R177). -/
def execSaAdd (rd : SReg) (sa sb : Src) (s : State) : Host.Outcome State Fault Refusal :=
  run (scalar2 rd sa sb fun a b => pure (a + b)) s

/-- sa.sub (R177). -/
def execSaSub (rd : SReg) (sa sb : Src) (s : State) : Host.Outcome State Fault Refusal :=
  run (scalar2 rd sa sb fun a b => pure (a - b)) s

/-- sa.mul: the low half of the product (R177). -/
def execSaMul (rd : SReg) (sa sb : Src) (s : State) : Host.Outcome State Fault Refusal :=
  run (scalar2 rd sa sb fun a b => pure (a * b)) s

/-- sa.mulh: the high half, signed (R177). -/
def execSaMulh (rd : SReg) (sa sb : Src) (s : State) : Host.Outcome State Fault Refusal :=
  run (scalar2 rd sa sb fun a b => pure (mulHigh a b)) s

/-- sa.mulhn: the high half, unsigned (R177). -/
def execSaMulhn (rd : SReg) (sa sb : Src) (s : State) : Host.Outcome State Fault Refusal :=
  run (scalar2 rd sa sb fun a b => pure (mulHighN a b)) s

/-- sa.div: signed, truncated toward zero; zero traps (R177, R178). -/
def execSaDiv (rd : SReg) (sa sb : Src) (s : State) : Host.Outcome State Fault Refusal :=
  run (scalar2 rd sa sb (divide quotient)) s

/-- sa.divn: unsigned (R177, R178). -/
def execSaDivn (rd : SReg) (sa sb : Src) (s : State) : Host.Outcome State Fault Refusal :=
  run (scalar2 rd sa sb (divide (· / ·))) s

/-- sa.rem: the sign of the dividend (R177, R178). -/
def execSaRem (rd : SReg) (sa sb : Src) (s : State) : Host.Outcome State Fault Refusal :=
  run (scalar2 rd sa sb (divide remainder)) s

/-- sa.remn: unsigned (R177, R178). -/
def execSaRemn (rd : SReg) (sa sb : Src) (s : State) : Host.Outcome State Fault Refusal :=
  run (scalar2 rd sa sb (divide (· % ·))) s

/-- sa.min, signed (R177). -/
def execSaMin (rd : SReg) (sa sb : Src) (s : State) : Host.Outcome State Fault Refusal :=
  run (scalar2 rd sa sb fun a b => pure (minS a b)) s

/-- sa.max, signed (R177). -/
def execSaMax (rd : SReg) (sa sb : Src) (s : State) : Host.Outcome State Fault Refusal :=
  run (scalar2 rd sa sb fun a b => pure (maxS a b)) s

/-- sa.minn, unsigned (R177). -/
def execSaMinn (rd : SReg) (sa sb : Src) (s : State) : Host.Outcome State Fault Refusal :=
  run (scalar2 rd sa sb fun a b => pure (minU a b)) s

/-- sa.maxn, unsigned (R177). -/
def execSaMaxn (rd : SReg) (sa sb : Src) (s : State) : Host.Outcome State Fault Refusal :=
  run (scalar2 rd sa sb fun a b => pure (maxU a b)) s

/-- sa.padd: an offset added to a fat pointer (R64). -/
def execSaPadd (rd : SReg) (sa sb : Src) (s : State) : Host.Outcome State Fault Refusal :=
  run (scalar2 rd sa sb pointerAdd) s

/-- sa.abs: the magnitude; the most negative value is its own (R177). -/
def execSaAbs (rd : SReg) (sa : Src) (s : State) : Host.Outcome State Fault Refusal :=
  run (scalar1 rd sa fun a => if a.msb then -a else a) s

/-- sa.neg (R177). -/
def execSaNeg (rd : SReg) (sa : Src) (s : State) : Host.Outcome State Fault Refusal :=
  run (scalar1 rd sa fun a => -a) s

/-- sb.and (R179). -/
def execSbAnd (rd : SReg) (sa sb : Src) (s : State) : Host.Outcome State Fault Refusal :=
  run (scalar2 rd sa sb fun a b => pure (a &&& b)) s

/-- sb.or (R179). -/
def execSbOr (rd : SReg) (sa sb : Src) (s : State) : Host.Outcome State Fault Refusal :=
  run (scalar2 rd sa sb fun a b => pure (a ||| b)) s

/-- sb.xor (R179). -/
def execSbXor (rd : SReg) (sa sb : Src) (s : State) : Host.Outcome State Fault Refusal :=
  run (scalar2 rd sa sb fun a b => pure (a ^^^ b)) s

/-- sb.andn: A AND NOT B (R179). -/
def execSbAndn (rd : SReg) (sa sb : Src) (s : State) : Host.Outcome State Fault Refusal :=
  run (scalar2 rd sa sb fun a b => pure (a &&& ~~~b)) s

/-- sb.shl by B[5:0] (R179). -/
def execSbShl (rd : SReg) (sa sb : Src) (s : State) : Host.Outcome State Fault Refusal :=
  run (scalar2 rd sa sb fun a b => pure (a <<< amount b)) s

/-- sb.shr, zeros shifted in (R179). -/
def execSbShr (rd : SReg) (sa sb : Src) (s : State) : Host.Outcome State Fault Refusal :=
  run (scalar2 rd sa sb fun a b => pure (a >>> amount b)) s

/-- sb.sra, copies of bit 63 shifted in (R179). -/
def execSbSra (rd : SReg) (sa sb : Src) (s : State) : Host.Outcome State Fault Refusal :=
  run (scalar2 rd sa sb fun a b => pure (a.sshiftRight (amount b))) s

/-- sb.rot: a rotation to the right (R179). -/
def execSbRot (rd : SReg) (sa sb : Src) (s : State) : Host.Outcome State Fault Refusal :=
  run (scalar2 rd sa sb fun a b => pure (rotate a (amount b))) s

/-- sb.clz: leading zeros, 0 to 64 (R179). -/
def execSbClz (rd : SReg) (sa : Src) (s : State) : Host.Outcome State Fault Refusal :=
  run (scalar1 rd sa fun a => word (leadingZeros a)) s

/-- sb.ctz: trailing zeros, 0 to 64 (R179). -/
def execSbCtz (rd : SReg) (sa : Src) (s : State) : Host.Outcome State Fault Refusal :=
  run (scalar1 rd sa fun a => word (trailingFrom a.toNat 64 0)) s

/-- sb.pop: one bits (R179). -/
def execSbPop (rd : SReg) (sa : Src) (s : State) : Host.Outcome State Fault Refusal :=
  run (scalar1 rd sa fun a => word (ones a)) s

/-- sb.seq: 1 if A = B (R179). -/
def execSbSeq (rd : SReg) (sa sb : Src) (s : State) : Host.Outcome State Fault Refusal :=
  run (scalar2 rd sa sb fun a b => pure (truth (a == b))) s

/-- sb.sne: 1 if A differs from B (R179). -/
def execSbSne (rd : SReg) (sa sb : Src) (s : State) : Host.Outcome State Fault Refusal :=
  run (scalar2 rd sa sb fun a b => pure (truth (a != b))) s

/-- sb.slt: 1 if A < B, signed (R179). -/
def execSbSlt (rd : SReg) (sa sb : Src) (s : State) : Host.Outcome State Fault Refusal :=
  run (scalar2 rd sa sb fun a b => pure (truth (a.slt b))) s

/-- sb.sltn: 1 if A < B, unsigned (R179). -/
def execSbSltn (rd : SReg) (sa sb : Src) (s : State) : Host.Outcome State Fault Refusal :=
  run (scalar2 rd sa sb fun a b => pure (truth (a.ult b))) s

/-- sb.sel: the old rd chooses A, or B where it is zero; it reads its destination as a third source (R179, R14). -/
def execSbSel (rd : SReg) (sa sb : Src) (s : State) : Host.Outcome State Fault Refusal :=
  run (do
    let srcs := srcNames sa ++ srcNames sb ++ [rd]
    openPorts (some rd) srcs
    let c ← core
    let (a, c) := c.takeSrc sa
    let (b, c) := c.takeSrc sb
    let (d, _) := c.takeS rd
    finishS rd srcs (if d ≠ 0 then a else b)) s

/-- sw.add in 32 bits (R180). -/
def execSwAdd (rd : SReg) (sa sb : Src) (s : State) : Host.Outcome State Fault Refusal :=
  run (scalar2 rd sa sb fun a b => pure (onWords (fun a b => a + b) a b)) s

/-- sw.sub in 32 bits (R180). -/
def execSwSub (rd : SReg) (sa sb : Src) (s : State) : Host.Outcome State Fault Refusal :=
  run (scalar2 rd sa sb fun a b => pure (onWords (fun a b => a - b) a b)) s

/-- sw.mul in 32 bits (R180). -/
def execSwMul (rd : SReg) (sa sb : Src) (s : State) : Host.Outcome State Fault Refusal :=
  run (scalar2 rd sa sb fun a b => pure (onWords (fun a b => a * b) a b)) s

/-- sw.div in 32 bits, signed (R180, R178). -/
def execSwDiv (rd : SReg) (sa sb : Src) (s : State) : Host.Outcome State Fault Refusal :=
  run (scalar2 rd sa sb (divideWords quotient)) s

/-- sw.divn in 32 bits, unsigned (R180, R178). -/
def execSwDivn (rd : SReg) (sa sb : Src) (s : State) : Host.Outcome State Fault Refusal :=
  run (scalar2 rd sa sb (divideWords (· / ·))) s

/-- sw.rem in 32 bits, signed (R180, R178). -/
def execSwRem (rd : SReg) (sa sb : Src) (s : State) : Host.Outcome State Fault Refusal :=
  run (scalar2 rd sa sb (divideWords remainder)) s

/-- sw.remn in 32 bits, unsigned (R180, R178). -/
def execSwRemn (rd : SReg) (sa sb : Src) (s : State) : Host.Outcome State Fault Refusal :=
  run (scalar2 rd sa sb (divideWords (· % ·))) s

/-- sw.shl by B[4:0] (R180). -/
def execSwShl (rd : SReg) (sa sb : Src) (s : State) : Host.Outcome State Fault Refusal :=
  run (scalar2 rd sa sb fun a b => pure (onWords (fun a b => a <<< (b.toNat % 32)) a b)) s

/-- sw.shr by B[4:0] (R180). -/
def execSwShr (rd : SReg) (sa sb : Src) (s : State) : Host.Outcome State Fault Refusal :=
  run (scalar2 rd sa sb fun a b => pure (onWords (fun a b => a >>> (b.toNat % 32)) a b)) s

/-- sw.sra by B[4:0] (R180). -/
def execSwSra (rd : SReg) (sa sb : Src) (s : State) : Host.Outcome State Fault Refusal :=
  run (scalar2 rd sa sb fun a b => pure (onWords (fun a b => a.sshiftRight (b.toNat % 32)) a b)) s

/-- sw.min, signed (R180). -/
def execSwMin (rd : SReg) (sa sb : Src) (s : State) : Host.Outcome State Fault Refusal :=
  run (scalar2 rd sa sb fun a b => pure (onWords (fun a b => minS a b) a b)) s

/-- sw.max, signed (R180). -/
def execSwMax (rd : SReg) (sa sb : Src) (s : State) : Host.Outcome State Fault Refusal :=
  run (scalar2 rd sa sb fun a b => pure (onWords (fun a b => maxS a b) a b)) s

/-- si.add (R181). -/
def execSiAdd (rd rs : SReg) (imm : BitVec 14) (s : State) : Host.Outcome State Fault Refusal :=
  run (scalarI rd rs fun a => a + imm.signExtend 64) s

/-- si.and (R181). -/
def execSiAnd (rd rs : SReg) (imm : BitVec 14) (s : State) : Host.Outcome State Fault Refusal :=
  run (scalarI rd rs fun a => a &&& imm.signExtend 64) s

/-- si.or (R181). -/
def execSiOr (rd rs : SReg) (imm : BitVec 14) (s : State) : Host.Outcome State Fault Refusal :=
  run (scalarI rd rs fun a => a ||| imm.signExtend 64) s

/-- si.xor (R181). -/
def execSiXor (rd rs : SReg) (imm : BitVec 14) (s : State) : Host.Outcome State Fault Refusal :=
  run (scalarI rd rs fun a => a ^^^ imm.signExtend 64) s

/-- si.shl (R181). -/
def execSiShl (rd rs : SReg) (amt : BitVec 6) (s : State) : Host.Outcome State Fault Refusal :=
  run (scalarI rd rs fun a => a <<< amt.toNat) s

/-- si.shr (R181). -/
def execSiShr (rd rs : SReg) (amt : BitVec 6) (s : State) : Host.Outcome State Fault Refusal :=
  run (scalarI rd rs fun a => a >>> amt.toNat) s

/-- si.sra (R181). -/
def execSiSra (rd rs : SReg) (amt : BitVec 6) (s : State) : Host.Outcome State Fault Refusal :=
  run (scalarI rd rs fun a => a.sshiftRight amt.toNat) s

/-- si.rot (R181). -/
def execSiRot (rd rs : SReg) (amt : BitVec 6) (s : State) : Host.Outcome State Fault Refusal :=
  run (scalarI rd rs fun a => rotate a amt.toNat) s

/-- si.slt: 1 if rs is below the immediate, signed (R181). -/
def execSiSlt (rd rs : SReg) (imm : BitVec 14) (s : State) : Host.Outcome State Fault Refusal :=
  run (scalarI rd rs fun a => truth (a.slt (imm.signExtend 64))) s

/-- li.hi: the immediate, sign-extended, times 2^14 (R182). -/
def execLiHi (rd : SReg) (imm : BitVec 20) (s : State) : Host.Outcome State Fault Refusal :=
  run (do
    openPorts (some rd) []
    finishS rd [] (imm.signExtend 64 <<< 14)) s

/-- li.top: bits [63:44] set, the others kept; the old value of a port is a word taken from it (R182, R14). -/
def execLiTop (rd : SReg) (imm : BitVec 20) (s : State) : Host.Outcome State Fault Refusal :=
  run (do
    openPorts (some rd) [rd]
    let c ← core
    let (d, _) := c.takeS rd
    finishS rd [rd] (imm ++ d.extractLsb' 0 44)) s

/-! ## Control flow (R183 to R188) -/

/-- The leaving rule: a transfer at the loop's level to a target outside the body ends the loop (R188). -/
def Core.leaving (c : Core) (target : BitVec 52) : Core :=
  if c.atLoop && (decide (target.toNat < c.lp.ls) || decide (c.lp.le < target.toNat)) then
    { c with lp := { c.lp with act := false, lc := 0, pnd := false } }
  else c

/-- A taken br, jmp or jx.jr (R183, R184, R188). -/
def goTo (srcs : List SReg) (target : BitVec 52) : M Unit :=
  modCore fun c => ((c.dequeue srcs).leaving target).jumped target

/-- The target of an offset in words (R25). -/
def relative (c : Core) (off : BitVec 52) : BitVec 52 := c.pc + off * 4

/-- A br of a condition (R183). -/
def branch (srcs : List SReg) (off : BitVec 14) (test : Core → Bool) : M Unit := do
  openPorts none srcs
  let c ← core
  if test c then goTo srcs (relative c (off.signExtend 52)) else finish srcs

/-- A br that compares a register with zero. -/
def branchZero (sa : SReg) (off : BitVec 14) (test : Word → Bool) : M Unit := branch [sa] off fun c => test (c.takeS sa).1

/-- The call depth after a call (R188). -/
def Core.deeper (c : Core) : Core := if c.lp.act then { c with lp := { c.lp with depth := min 255 (c.lp.depth + 1) } } else c

/-- The call depth after a return (R188). -/
def Core.shallower (c : Core) : Core := if c.lp.act then { c with lp := { c.lp with depth := c.lp.depth - 1 } } else c

/-- A jx target: bits [1:0] that are not zero trap with the target (R25). Bits [63:52] are ignored (log 89 DEDUCED). -/
def jxTarget (w : Word) : M (BitVec 52) := if w.toNat % 4 ≠ 0 then trap 0x03 w else pure (w.setWidth 52)

/-- br.eq: the register compared with zero as INT64 (R183). -/
def execBrEq (sa : SReg) (off : BitVec 14) (s : State) : Host.Outcome State Fault Refusal :=
  run (branchZero sa off fun a => a == 0) s

/-- br.ne: the register compared with zero as INT64 (R183). -/
def execBrNe (sa : SReg) (off : BitVec 14) (s : State) : Host.Outcome State Fault Refusal :=
  run (branchZero sa off fun a => a != 0) s

/-- br.lt: the register compared with zero as INT64 (R183). -/
def execBrLt (sa : SReg) (off : BitVec 14) (s : State) : Host.Outcome State Fault Refusal :=
  run (branchZero sa off fun a => a.slt 0) s

/-- br.ge: the register compared with zero as INT64 (R183). -/
def execBrGe (sa : SReg) (off : BitVec 14) (s : State) : Host.Outcome State Fault Refusal :=
  run (branchZero sa off fun a => !a.slt 0) s

/-- br.gt: the register compared with zero as INT64 (R183). -/
def execBrGt (sa : SReg) (off : BitVec 14) (s : State) : Host.Outcome State Fault Refusal :=
  run (branchZero sa off fun a => (0#64).slt a) s

/-- br.le: the register compared with zero as INT64 (R183). -/
def execBrLe (sa : SReg) (off : BitVec 14) (s : State) : Host.Outcome State Fault Refusal :=
  run (branchZero sa off fun a => !(0#64).slt a) s

/-- br.any: the predicate is not 0 (R183). -/
def execBrAny (sa : PReg) (off : BitVec 14) (s : State) : Host.Outcome State Fault Refusal :=
  run (branch [] off fun c => c.getP sa != 0) s

/-- br.none: the predicate is 0 (R183). -/
def execBrNone (sa : PReg) (off : BitVec 14) (s : State) : Host.Outcome State Fault Refusal :=
  run (branch [] off fun c => c.getP sa == 0) s

/-- br.always (R183). -/
def execBrAlways (off : BitVec 14) (s : State) : Host.Outcome State Fault Refusal :=
  run (branch [] off fun _ => true) s

/-- jmp (R184, R25). -/
def execJmp (off : BitVec 26) (s : State) : Host.Outcome State Fault Refusal :=
  run (do
    let c ← core
    goTo [] (relative c (off.signExtend 52))) s

/-- call: lr receives the address that follows (R184, R25). -/
def execCall (off : BitVec 26) (s : State) : Host.Outcome State Fault Refusal :=
  run (modCore fun c =>
    ((c.setS 61 ((c.pc + 4).setWidth 64)).deeper).jumped (relative c (off.signExtend 52))) s

/-- jx.jr (R184). -/
def execJxJr (sa : Src) (s : State) : Host.Outcome State Fault Refusal :=
  run (do
    let srcs := srcNames sa
    openPorts none srcs
    let c ← core
    let t ← jxTarget (c.takeSrc sa).1
    goTo srcs t) s

/-- jx.callr: the target is read before rd is written (R184). -/
def execJxCallr (rd : SReg) (sa : Src) (s : State) : Host.Outcome State Fault Refusal :=
  run (do
    let srcs := srcNames sa
    openPorts (some rd) srcs
    let c ← core
    let t ← jxTarget (c.takeSrc sa).1
    modCore fun c => c.dequeue srcs
    modify fun s => s.putS rd ((c.pc + 4).setWidth 64)
    modCore fun c => c.deeper.jumped t) s

/-- jx.ret: control goes to lr (R184). -/
def execJxRet  (s : State) : Host.Outcome State Fault Refusal :=
  run (do
    let c ← core
    let t ← jxTarget (c.getS 61)
    modCore fun c => c.shallower.jumped t) s

/-- lp.do (R187). Where its source is a queue port, the port is entered first, and trap 0x0A comes behind (log 101 DEDUCED). -/
def execLpDo (rs : SReg) (imm : BitVec 14) (s : State) : Host.Outcome State Fault Refusal :=
  run (do
    openPorts none [rs]
    let c ← core
    let (n, _) := c.takeS rs
    if c.lp.act || decide (imm.toInt ≤ 0) then trap 0x0A (c.pc.setWidth 64)
    else modCore fun c =>
      let c := c.dequeue [rs]
      let start := c.pc + 4
      let last := relative c (imm.signExtend 52)
      let go := n != 0
      let c := { c with lp := ⟨n, start.toNat / 4 * 4, last.toNat / 4 * 4, go, false, c.lp.pending, 0, c.tlv.toNat⟩ }
      c.jumped (if go then start else last + 4)) s

/-! ## Predicates (R190) -/

/-- pr.and (R190). -/
def execPrAnd (rd : PReg) (sa sb : PSrc) (s : State) : Host.Outcome State Fault Refusal :=
  run (pred2 rd sa sb fun a b => a &&& b) s

/-- pr.or (R190). -/
def execPrOr (rd : PReg) (sa sb : PSrc) (s : State) : Host.Outcome State Fault Refusal :=
  run (pred2 rd sa sb fun a b => a ||| b) s

/-- pr.xor (R190). -/
def execPrXor (rd : PReg) (sa sb : PSrc) (s : State) : Host.Outcome State Fault Refusal :=
  run (pred2 rd sa sb fun a b => a ^^^ b) s

/-- pr.not (R190). -/
def execPrNot (rd : PReg) (sa : PSrc) (s : State) : Host.Outcome State Fault Refusal :=
  run (do
    let c ← core
    finishP rd [] (~~~ c.readP sa)) s

/-- pr.set (R190). -/
def execPrSet (rd : PReg) (sa : KSrc) (s : State) : Host.Outcome State Fault Refusal :=
  run (do
    let c ← core
    finishP rd [] (c.readK sa)) s

/-- pr.get: zero-extended (R190). -/
def execPrGet (rd : SReg) (sa : PSrc) (s : State) : Host.Outcome State Fault Refusal :=
  run (predS rd sa fun a => a.setWidth 64) s

/-- pr.cnt: one bits (R190). -/
def execPrCnt (rd : SReg) (sa : PSrc) (s : State) : Host.Outcome State Fault Refusal :=
  run (predS rd sa fun a => word (ones a)) s

/-- pr.first: the lowest one bit, or 16 (R190). -/
def execPrFirst (rd : SReg) (sa : PSrc) (s : State) : Host.Outcome State Fault Refusal :=
  run (predS rd sa fun a => word (trailingFrom a.toNat 16 0)) s

end Sys2Proof.Machine
end

