-- ==== Sys2Proof/Machine/Vector.lean ====
section
/-!
DEFINITION. The vector instructions (chapter 09): va, vi, vc, vx and vr.
-/
namespace Sys2Proof.Machine

/-- va.fadd: a + b (R192). -/
def execVaFadd (rd : VReg) (sa sb : VSrc) (s : State) : Host.Outcome State Fault Refusal :=
  run (fvec2 rd sa sb fun rm a b _ => fadd32 rm a b) s

/-- va.fsub: a - b (R192). -/
def execVaFsub (rd : VReg) (sa sb : VSrc) (s : State) : Host.Outcome State Fault Refusal :=
  run (fvec2 rd sa sb fun rm a b _ => fsub32 rm a b) s

/-- va.fmul: a times b (R192). -/
def execVaFmul (rd : VReg) (sa sb : VSrc) (s : State) : Host.Outcome State Fault Refusal :=
  run (fvec2 rd sa sb fun rm a b _ => fmul32 rm a b) s

/-- va.fma: a times b plus the old rd, fused (R192). -/
def execVaFma (rd : VReg) (sa sb : VSrc) (s : State) : Host.Outcome State Fault Refusal :=
  run (fvec2 rd sa sb fma32) s

/-- va.fms: a times b minus the old rd, fused (R192). -/
def execVaFms (rd : VReg) (sa sb : VSrc) (s : State) : Host.Outcome State Fault Refusal :=
  run (fvec2 rd sa sb fms32) s

/-- va.fmin (R193). -/
def execVaFmin (rd : VReg) (sa sb : VSrc) (s : State) : Host.Outcome State Fault Refusal :=
  run (fvec2 rd sa sb fun _ a b _ => fmin32 a b) s

/-- va.fmax (R193). -/
def execVaFmax (rd : VReg) (sa sb : VSrc) (s : State) : Host.Outcome State Fault Refusal :=
  run (fvec2 rd sa sb fun _ a b _ => fmax32 a b) s

/-- va.fabs: no flag (R192). -/
def execVaFabs (rd : VReg) (sa : VSrc) (s : State) : Host.Outcome State Fault Refusal :=
  run (fvec1 rd sa fun _ a => (fabs32 a, 0)) s

/-- va.fneg: no flag (R192). -/
def execVaFneg (rd : VReg) (sa : VSrc) (s : State) : Host.Outcome State Fault Refusal :=
  run (fvec1 rd sa fun _ a => (fneg32 a, 0)) s

/-- va.frcp, correctly rounded (R192). -/
def execVaFrcp (rd : VReg) (sa : VSrc) (s : State) : Host.Outcome State Fault Refusal :=
  run (fvec1 rd sa frcp32) s

/-- va.frsq, correctly rounded (R192). -/
def execVaFrsq (rd : VReg) (sa : VSrc) (s : State) : Host.Outcome State Fault Refusal :=
  run (fvec1 rd sa frsq32) s

/-- va.fsqrt, correctly rounded (R192). -/
def execVaFsqrt (rd : VReg) (sa : VSrc) (s : State) : Host.Outcome State Fault Refusal :=
  run (fvec1 rd sa fsqrt32) s

/-- va.fdiv, correctly rounded (R192). -/
def execVaFdiv (rd : VReg) (sa sb : VSrc) (s : State) : Host.Outcome State Fault Refusal :=
  run (fvec2 rd sa sb fun rm a b _ => fdiv32 rm a b) s

/-- vi.add on INT32 lanes (R194). -/
def execViAdd (rd : VReg) (sa sb : VSrc) (s : State) : Host.Outcome State Fault Refusal :=
  run (ivec2 rd sa sb fun a b => a + b) s

/-- vi.sub on INT32 lanes (R194). -/
def execViSub (rd : VReg) (sa sb : VSrc) (s : State) : Host.Outcome State Fault Refusal :=
  run (ivec2 rd sa sb fun a b => a - b) s

/-- vi.mul on INT32 lanes (R194). -/
def execViMul (rd : VReg) (sa sb : VSrc) (s : State) : Host.Outcome State Fault Refusal :=
  run (ivec2 rd sa sb fun a b => a * b) s

/-- vi.mulh on INT32 lanes (R194). -/
def execViMulh (rd : VReg) (sa sb : VSrc) (s : State) : Host.Outcome State Fault Refusal :=
  run (ivec2 rd sa sb fun a b => BitVec.ofInt 32 (a.toInt * b.toInt / 2 ^ 32)) s

/-- vi.and on INT32 lanes (R194). -/
def execViAnd (rd : VReg) (sa sb : VSrc) (s : State) : Host.Outcome State Fault Refusal :=
  run (ivec2 rd sa sb fun a b => a &&& b) s

/-- vi.or on INT32 lanes (R194). -/
def execViOr (rd : VReg) (sa sb : VSrc) (s : State) : Host.Outcome State Fault Refusal :=
  run (ivec2 rd sa sb fun a b => a ||| b) s

/-- vi.xor on INT32 lanes (R194). -/
def execViXor (rd : VReg) (sa sb : VSrc) (s : State) : Host.Outcome State Fault Refusal :=
  run (ivec2 rd sa sb fun a b => a ^^^ b) s

/-- vi.shl on INT32 lanes (R194). -/
def execViShl (rd : VReg) (sa sb : VSrc) (s : State) : Host.Outcome State Fault Refusal :=
  run (ivec2 rd sa sb fun a b => a <<< (b.toNat % 32)) s

/-- vi.shr on INT32 lanes (R194). -/
def execViShr (rd : VReg) (sa sb : VSrc) (s : State) : Host.Outcome State Fault Refusal :=
  run (ivec2 rd sa sb fun a b => a >>> (b.toNat % 32)) s

/-- vi.sra on INT32 lanes (R194). -/
def execViSra (rd : VReg) (sa sb : VSrc) (s : State) : Host.Outcome State Fault Refusal :=
  run (ivec2 rd sa sb fun a b => a.sshiftRight (b.toNat % 32)) s

/-- vi.min on INT32 lanes (R194). -/
def execViMin (rd : VReg) (sa sb : VSrc) (s : State) : Host.Outcome State Fault Refusal :=
  run (ivec2 rd sa sb fun a b => minS a b) s

/-- vi.max on INT32 lanes (R194). -/
def execViMax (rd : VReg) (sa sb : VSrc) (s : State) : Host.Outcome State Fault Refusal :=
  run (ivec2 rd sa sb fun a b => maxS a b) s

/-- vi.minn on INT32 lanes (R194). -/
def execViMinn (rd : VReg) (sa sb : VSrc) (s : State) : Host.Outcome State Fault Refusal :=
  run (ivec2 rd sa sb fun a b => minU a b) s

/-- vi.maxn on INT32 lanes (R194). -/
def execViMaxn (rd : VReg) (sa sb : VSrc) (s : State) : Host.Outcome State Fault Refusal :=
  run (ivec2 rd sa sb fun a b => maxU a b) s

/-- A comparison that a signalling NaN alone makes invalid (R195). -/
def quietCmp (f : FVal → FVal → Bool) (a b : Lane) : Bool × FFlags :=
  (f (f32 a) (f32 b), FFlags.when ((f32 a).isSig || (f32 b).isSig) fNv)

/-- A comparison that any NaN makes invalid (R195). -/
def orderCmp (f : FVal → FVal → Bool) (a b : Lane) : Bool × FFlags :=
  (f (f32 a) (f32 b), FFlags.when ((f32 a).isNan || (f32 b).isNan) fNv)

/-- vc.feq (R195). -/
def execVcFeq (rd : PReg) (sa sb : VSrc) (s : State) : Host.Outcome State Fault Refusal :=
  run (fcmp rd sa sb (quietCmp FVal.eq)) s

/-- vc.fne: 1 with a NaN (R195). -/
def execVcFne (rd : PReg) (sa sb : VSrc) (s : State) : Host.Outcome State Fault Refusal :=
  run (fcmp rd sa sb (quietCmp fun a b => !a.eq b)) s

/-- vc.flt (R195). -/
def execVcFlt (rd : PReg) (sa sb : VSrc) (s : State) : Host.Outcome State Fault Refusal :=
  run (fcmp rd sa sb (orderCmp FVal.lt)) s

/-- vc.fle (R195). -/
def execVcFle (rd : PReg) (sa sb : VSrc) (s : State) : Host.Outcome State Fault Refusal :=
  run (fcmp rd sa sb (orderCmp fun a b => a.lt b || a.eq b)) s

/-- vc.fun: an operand is NaN (R195). -/
def execVcFun (rd : PReg) (sa sb : VSrc) (s : State) : Host.Outcome State Fault Refusal :=
  run (fcmp rd sa sb (quietCmp fun a b => a.isNan || b.isNan)) s

/-- vc.ieq (R195). -/
def execVcIeq (rd : PReg) (sa sb : VSrc) (s : State) : Host.Outcome State Fault Refusal :=
  run (icmp rd sa sb fun a b => a == b) s

/-- vc.ilt, signed (R195). -/
def execVcIlt (rd : PReg) (sa sb : VSrc) (s : State) : Host.Outcome State Fault Refusal :=
  run (icmp rd sa sb fun a b => a.slt b) s

/-- vc.iltn, unsigned (R195). -/
def execVcIltn (rd : PReg) (sa sb : VSrc) (s : State) : Host.Outcome State Fault Refusal :=
  run (icmp rd sa sb fun a b => a.ult b) s

/-! ## Data movement (R196) -/

/-- A data movement: the lanes of sa, the operand sb, the old destination and p0. -/
def move (rd : VReg) (sa sb : VSrc) (f : VWord → Opnd → VWord → PWord → VWord) : M Unit := do
  let srcs := vsrcNames sa ++ vsrcNames sb
  openPorts none srcs
  let c ← core
  let (a, c1) := c.takeV sa
  let (b, _) := c1.takeV sb
  finishV rd srcs (f a.ints b (c.getV rd) (c.getP 0))

/-- vx.bcast: every lane becomes lane n (R196). -/
def execVxBcast (rd : VReg) (sa sb : VSrc) (s : State) : Host.Outcome State Fault Refusal :=
  run (move rd sa sb (fun a b _ _ => splat a[b.index])) s

/-- vx.extr: lane 0 becomes lane n, the others 0 (R196). -/
def execVxExtr (rd : VReg) (sa sb : VSrc) (s : State) : Host.Outcome State Fault Refusal :=
  run (move rd sa sb (fun a b _ _ => (splat 0).set 0 a[b.index])) s

/-- vx.ins: lane n becomes lane n of sa (R196). -/
def execVxIns (rd : VReg) (sa sb : VSrc) (s : State) : Host.Outcome State Fault Refusal :=
  run (move rd sa sb (fun a b old _ => old.set b.index.val a[b.index] b.index.isLt)) s

/-- vx.perm: lane i becomes the lane that lane i of sb names (R196). -/
def execVxPerm (rd : VReg) (sa sb : VSrc) (s : State) : Host.Outcome State Fault Refusal :=
  run (move rd sa sb (fun a b _ _ => Vector.ofFn fun i => a[laneNo b.ints[i]])) s

/-- vx.sel: lane i from sa where p0 has bit i, else from sb (R196). -/
def execVxSel (rd : VReg) (sa sb : VSrc) (s : State) : Host.Outcome State Fault Refusal :=
  run (move rd sa sb (fun a b _ p => Vector.ofFn fun i => if p.getLsbD i.val then a[i] else b.ints[i])) s

/-- vx.iota: lane i becomes a plus i times b (R196). -/
def execVxIota (rd : VReg) (sa sb : VSrc) (s : State) : Host.Outcome State Fault Refusal :=
  run (move rd sa sb (fun a b _ _ => Vector.ofFn fun i => a[i] + BitVec.ofNat 32 i.val * b.ints[i])) s

/-! ## Conversions (R197) -/

/-- A conversion between floating-point formats (R170). -/
def fconv (src dst : Fmt) (rm : Rm) (x : Nat) : Nat × FFlags := dst.conv rm (src.val x)

/-- An integer converted to a format. -/
def intToF (dst : Fmt) (rm : Rm) (n : Int) : Nat × FFlags := dst.conv rm (FVal.ofInt n)

/-- Element j of a width in bits, from the lowest byte up (R191). -/
def element (w : Nat) (x : VWord) (j : Nat) : Nat :=
  let n := ofBytes (vecBytes x)
  n / 2 ^ (w * j) % 2 ^ w

/-- The vector with the 16 elements of a width from element j on replaced (R197). -/
def putElements (w : Nat) (x : VWord) (j : Nat) (es : List Nat) : VWord :=
  let n := ofBytes (vecBytes x)
  let low := n % 2 ^ (w * j)
  let high := n / 2 ^ (w * (j + es.length))
  let mid := es.foldr (fun e acc => e % 2 ^ w + 2 ^ w * acc) 0
  vecOfBytes (toBytes 64 (low + 2 ^ (w * j) * (mid + 2 ^ (w * es.length) * high)))

/-- A conversion with its control value c = sb[3:0]: the source, its old destination and the flags (R197). -/
def convert (rd : VReg) (sa sb : VSrc) (f : Rm → Nat → Opnd → VWord → VWord × FFlags) : M Unit := do
  let srcs := vsrcNames sa ++ vsrcNames sb
  openPorts none srcs
  let c ← core
  let (a, c1) := c.takeV sa
  let (b, _) := c1.takeV sb
  let (x, fl) := f c.rm b.index.val a (c.getV rd)
  raise fl
  finishV rd srcs x

/-- A literal converted exactly to a narrow format; where the format cannot represent it, its bits are a free value (R10,
log 26 DESIGN CHOICE). -/
def litNarrow (src : Fmt) (v : BitVec 6) : Nat :=
  let (x, fl) := src.conv .rne (FVal.ofInt v.toInt)
  if fl = 0 then x else Config.freeLiteral src.mw v % 2 ^ (1 + src.ew + src.mw)

/-- A widening conversion of a floating-point format: elements from element 16 times q on become lanes. A literal is
converted to the format, and each element has its value (R10, R11). -/
def widenF (src : Fmt) (q : Nat) (a : Opnd) (rm : Rm) : VWord × FFlags :=
  gather fun i => lane (fconv src fp32 rm (match a with
    | .lit v => litNarrow src v
    | a => element (1 + src.ew + src.mw) a.ints (16 * q + i.val)))

/-- A widening conversion of bytes read as integers, signed or natural; a literal is sign-extended to them (R10). -/
def widenI (sgn : Bool) (q : Nat) (a : Opnd) (rm : Rm) : VWord × FFlags :=
  gather fun i => lane (let x := element 8 a.ints (match a with
    | .lit _ => 0
    | _ => 16 * q + i.val)
  intToF fp32 rm (if sgn then signed 8 x else (x : Int)))

/-- A narrowing conversion: lanes become elements w bits wide from element 16 times q on. -/
def narrow (w q : Nat) (a : Opnd) (old : VWord) (f : Nat → Nat × FFlags) : VWord × FFlags :=
  let rs := (List.finRange 16).map fun i => f (a.floats[i]).toNat
  (putElements w old (16 * q) (rs.map Prod.fst), unionFlags (rs.map Prod.snd))

/-- The eight 64-bit values of an operand: a non-vector source fills every pair whole (R10, R197). -/
def Opnd.pairs (a : Opnd) (float : Bool) : List Nat :=
  match a with
  | .lanes x => (List.range 8).map fun j => element 64 x j
  | .word w => List.replicate 8 w.toNat
  | .lit v => List.replicate 8 (if float then (litF64 v).toNat else (v.signExtend 64).toNat)

/-- A conversion of the eight lane pairs (R197). -/
def onPairs (a : Opnd) (float : Bool) (f : Nat → Nat × FFlags) : VWord × FFlags :=
  let rs := (a.pairs float).map f
  (vecOfBytes (rs.flatMap fun r => toBytes 8 r.1), unionFlags (rs.map Prod.snd))

/-- A number read as signed or natural. -/
def asInt (w : Nat) (sgn : Bool) (x : Nat) : Int := if sgn then signed w x else (x : Int)

/-- vx.cvtif: integers to floating point (R197). -/
def execVxCvtif (rd : VReg) (sa sb : VSrc) (s : State) : Host.Outcome State Fault Refusal :=
  run (convert rd sa sb fun rm c a _ =>
    if c % 4 < 2 then gather fun i => lane (intToF fp32 rm (asInt 32 (c % 2 == 0) (a.ints[i]).toNat))
    else onPairs a false fun x => intToF fp64 rm (asInt 64 (c % 2 == 0) x)) s

/-- vx.cvtfi: floating point to integers (R197). -/
def execVxCvtfi (rd : VReg) (sa sb : VSrc) (s : State) : Host.Outcome State Fault Refusal :=
  run (convert rd sa sb fun rm c a _ =>
    if c % 4 < 2 then gather fun i => lane (convInt 32 (c % 2 == 0) rm (f32 a.floats[i]))
    else onPairs a true fun x => convInt 64 (c % 2 == 0) rm (fp64.val x)) s

/-- vx.cvtbh: FP32 to BF16 (R197). -/
def execVxCvtbh (rd : VReg) (sa sb : VSrc) (s : State) : Host.Outcome State Fault Refusal :=
  run (convert rd sa sb fun rm c a old => narrow 16 (c % 2) a old (fconv fp32 bf16 rm)) s

/-- vx.cvthb: BF16 to FP32 (R197). -/
def execVxCvthb (rd : VReg) (sa sb : VSrc) (s : State) : Host.Outcome State Fault Refusal :=
  run (convert rd sa sb fun rm c a _ => widenF bf16 (c % 2) a rm) s

/-- vx.cvtfh: FP32 to FP16 (R197). -/
def execVxCvtfh (rd : VReg) (sa sb : VSrc) (s : State) : Host.Outcome State Fault Refusal :=
  run (convert rd sa sb fun rm c a old => narrow 16 (c % 2) a old (fconv fp32 fp16 rm)) s

/-- vx.cvthf: FP16 to FP32 (R197). -/
def execVxCvthf (rd : VReg) (sa sb : VSrc) (s : State) : Host.Outcome State Fault Refusal :=
  run (convert rd sa sb fun rm c a _ => widenF fp16 (c % 2) a rm) s

/-- The conversion of bytes to FP32 by their format code (Table 9.9). -/
def fromBytes (rm : Rm) (f q : Nat) (a : Opnd) : VWord × FFlags :=
  match f with
  | 0 => widenF e4m3 q a rm
  | 1 => widenF e5m2 q a rm
  | 2 => widenI true q a rm
  | _ => widenI false q a rm

/-- The conversion of FP32 to a byte by its format code (Table 9.9). -/
def toByte (rm : Rm) (f x : Nat) : Nat × FFlags :=
  match f with
  | 0 => fconv fp32 e4m3 rm x
  | 1 => fconv fp32 e5m2 rm x
  | 2 => convInt 8 true rm (fp32.val x)
  | _ => convInt 8 false rm (fp32.val x)

/-- vx.cvt8: bytes to FP32 (R197). -/
def execVxCvt8 (rd : VReg) (sa sb : VSrc) (s : State) : Host.Outcome State Fault Refusal :=
  run (convert rd sa sb fun rm c a _ => fromBytes rm (c / 4) (c % 4) a) s

/-- vx.cvtq8: FP32 to bytes (R197). -/
def execVxCvtq8 (rd : VReg) (sa sb : VSrc) (s : State) : Host.Outcome State Fault Refusal :=
  run (convert rd sa sb fun rm c a old => narrow 8 (c % 4) a old (toByte rm (c / 4))) s

/-- vx.cvt4: E2M1 to FP32 (R197). -/
def execVxCvt4 (rd : VReg) (sa sb : VSrc) (s : State) : Host.Outcome State Fault Refusal :=
  run (convert rd sa sb fun rm c a _ => widenF e2m1 (c % 8) a rm) s

/-- vx.cvtq4: FP32 to E2M1 (R197). -/
def execVxCvtq4 (rd : VReg) (sa sb : VSrc) (s : State) : Host.Outcome State Fault Refusal :=
  run (convert rd sa sb fun rm c a old => narrow 4 (c % 8) a old (fconv fp32 e2m1 rm)) s

/-! ## Reductions (R198) -/

/-- The bits [31:0] of a reduction's initial value, an FP32 value for a literal of a floating-point one. -/
def Opnd.first32 (x : Opnd) (float : Bool) : Lane := if float then x.floats[0] else x.ints[0]

/-- The initial value of an integer reduction: sb as INT64, or lane 0 sign-extended. -/
def Opnd.first64 (x : Opnd) : Word :=
  match x with
  | .lanes v => (v[0]).signExtend 64
  | .word w => w
  | .lit v => v.signExtend 64

/-- A reduction over the lanes in ascending order. -/
def reduce (rd : SReg) (sa sb : VSrc) (f : Rm → Opnd → Opnd → Word × FFlags) : M Unit := do
  let srcs := vsrcNames sa ++ vsrcNames sb
  openPorts (some rd) srcs
  let c ← core
  let (a, c1) := c.takeV sa
  let (b, _) := c1.takeV sb
  let (w, fl) := f c.rm a b
  raise fl
  finishS rd srcs w

/-- The steps of a floating-point reduction with the union of their flags. -/
def foldF (f : Lane → Lane → Lane × FFlags) (x : Lane) (a : VWord) : Word × FFlags :=
  let r := a.toList.foldl (fun acc y => let z := f acc.1 y; (z.1, acc.2 ||| z.2)) (x, 0)
  (r.1.setWidth 64, r.2)

/-- The steps of an integer reduction. -/
def foldI (f : Word → Word → Word) (x : Word) (a : VWord) : Word × FFlags :=
  (a.toList.foldl (fun acc y => f acc (y.signExtend 64)) x, 0)

/-- The steps of a bitwise reduction. -/
def foldB (f : Lane → Lane → Lane) (x : Lane) (a : VWord) : Word × FFlags := ((a.toList.foldl f x).setWidth 64, 0)

/-- vr.fsum: a sum in lane order, each step rounded (R198). -/
def execVrFsum (rd : SReg) (sa sb : VSrc) (s : State) : Host.Outcome State Fault Refusal :=
  run (reduce rd sa sb fun rm a b => foldF (fadd32 rm) (b.first32 true) a.floats) s

/-- vr.fmax (R198). -/
def execVrFmax (rd : SReg) (sa sb : VSrc) (s : State) : Host.Outcome State Fault Refusal :=
  run (reduce rd sa sb fun _ a b => foldF fmax32 (b.first32 true) a.floats) s

/-- vr.fmin (R198). -/
def execVrFmin (rd : SReg) (sa sb : VSrc) (s : State) : Host.Outcome State Fault Refusal :=
  run (reduce rd sa sb fun _ a b => foldF fmin32 (b.first32 true) a.floats) s

/-- vr.isum (R198). -/
def execVrIsum (rd : SReg) (sa sb : VSrc) (s : State) : Host.Outcome State Fault Refusal :=
  run (reduce rd sa sb fun _ a b => foldI (· + ·) b.first64 a.ints) s

/-- vr.imax (R198). -/
def execVrImax (rd : SReg) (sa sb : VSrc) (s : State) : Host.Outcome State Fault Refusal :=
  run (reduce rd sa sb fun _ a b => foldI maxS b.first64 a.ints) s

/-- vr.imin (R198). -/
def execVrImin (rd : SReg) (sa sb : VSrc) (s : State) : Host.Outcome State Fault Refusal :=
  run (reduce rd sa sb fun _ a b => foldI minS b.first64 a.ints) s

/-- vr.and (R198). -/
def execVrAnd (rd : SReg) (sa sb : VSrc) (s : State) : Host.Outcome State Fault Refusal :=
  run (reduce rd sa sb fun _ a b => foldB (· &&& ·) (b.first32 false) a.ints) s

/-- vr.or (R198). -/
def execVrOr (rd : SReg) (sa sb : VSrc) (s : State) : Host.Outcome State Fault Refusal :=
  run (reduce rd sa sb fun _ a b => foldB (· ||| ·) (b.first32 false) a.ints) s

end Sys2Proof.Machine
end

