-- ==== Sys2Proof/Machine/Memory.lean ====
section
/-!
DEFINITION. Loads, stores, scalar and vector atomics, rings and neighbour queues (chapter 12): ld, st, at, atw, vg, rg
and qp.
-/
namespace Sys2Proof.Machine

/-! ## Loads and stores (R252) -/

/-- A load into a scalar register. -/
def loadS (la : BitVec 4) (rv rb : SReg) (off : BitVec 6) (size : Nat) (ext : Nat → Word) : M Unit := do
  openPorts (some rv) [rb]
  let c ← core
  let va ← addrL (c.takeS rb).1 off size
  let pl ← resolve va size .read
  let bs ← loadBytes va pl size
  finishL rv la [rb] (ext (ofBytes bs))

/-- A store of the low bytes of a scalar register; rel: a release. -/
def storeS (rv rb : SReg) (off : BitVec 6) (size : Nat) (rel : Bool) : M Unit := do
  openPorts none [rv, rb]
  let c ← core
  let (w, c) := c.takeS rv
  let va ← addrL (c.takeS rb).1 off size
  let pl ← resolve va size .write
  storeGated va pl (numbered (toBytes size w.toNat)) rel
  finish [rv, rb]

/-- A store of bytes of a vector register's line. -/
def storeV (rb : SReg) (off : BitVec 6) (bytes : Core → List (Nat × Byte)) : M Unit := do
  openPorts none [rb]
  let c ← core
  let va ← addrL (c.takeS rb).1 off 64
  let pl ← resolve va 64 .write
  storeGated va pl (bytes c) false
  finish [rb]

/-- A number of a width in bits, sign-extended. -/
def sext64 (w n : Nat) : Word := BitVec.ofInt 64 (signed w n)

/-- The bytes of the lanes whose bit is set in p0 (Table 12.1). -/
def maskedBytes (x : VWord) (p : PWord) : List (Nat × Byte) :=
  (numbered (vecBytes x)).filter fun b => p.getLsbD (b.1 / 4)

/-- ld.b: a byte, sign-extended (R252). -/
def execLdB (la : BitVec 4) (rv : SReg) (rb : SReg) (off : BitVec 6) (s : State) : Host.Outcome State Fault Refusal :=
  run (loadS la rv rb off 1 (sext64 8)) s

/-- ld.bn: a byte, zero-extended (R252). -/
def execLdBn (la : BitVec 4) (rv : SReg) (rb : SReg) (off : BitVec 6) (s : State) : Host.Outcome State Fault Refusal :=
  run (loadS la rv rb off 1 word) s

/-- ld.h: two bytes, sign-extended (R252). -/
def execLdH (la : BitVec 4) (rv : SReg) (rb : SReg) (off : BitVec 6) (s : State) : Host.Outcome State Fault Refusal :=
  run (loadS la rv rb off 2 (sext64 16)) s

/-- ld.hn: two bytes, zero-extended (R252). -/
def execLdHn (la : BitVec 4) (rv : SReg) (rb : SReg) (off : BitVec 6) (s : State) : Host.Outcome State Fault Refusal :=
  run (loadS la rv rb off 2 word) s

/-- ld.w: four bytes, sign-extended (R252). -/
def execLdW (la : BitVec 4) (rv : SReg) (rb : SReg) (off : BitVec 6) (s : State) : Host.Outcome State Fault Refusal :=
  run (loadS la rv rb off 4 (sext64 32)) s

/-- ld.wn: four bytes, zero-extended (R252). -/
def execLdWn (la : BitVec 4) (rv : SReg) (rb : SReg) (off : BitVec 6) (s : State) : Host.Outcome State Fault Refusal :=
  run (loadS la rv rb off 4 word) s

/-- ld.d: eight bytes (R252). -/
def execLdD (la : BitVec 4) (rv : SReg) (rb : SReg) (off : BitVec 6) (s : State) : Host.Outcome State Fault Refusal :=
  run (loadS la rv rb off 8 word) s

/-- ld.v: a line into the lanes of a vector register (R252). -/
def execLdV (la : BitVec 4) (rv : VReg) (rb : SReg) (off : BitVec 6) (s : State) : Host.Outcome State Fault Refusal :=
  run (do
    openPorts none [rb]
    let c ← core
    let va ← addrL (c.takeS rb).1 off 64
    let pl ← resolve va 64 .read
    let bs ← loadBytes va pl 64
    finishR (.v rv (vecOfBytes bs)) la [rb]) s

/-! ## Typed accesses (R63, R253, R254, Table 12.3) -/

/-- The span of a format in bytes, and none for a reserved code. -/
def spanOf (fmt : Nat) : Option Nat :=
  match fmt with
  | 0x00 => some 64
  | 0x01 => some 64
  | 0x02 => some 32
  | 0x03 => some 32
  | 0x04 => some 64
  | 0x05 => some 16
  | 0x06 => some 16
  | 0x07 => some 8
  | 0x08 => some 0
  | 0x09 => some 16
  | 0x0A => some 64
  | 0x0B => some 64
  | 0x0C => some 16
  | 0x10 => some 176
  | _ => none

/-- The format code of a fat pointer (Table 3.3). -/
def fmtOf (p : Word) : Nat := fld p 63 58

/-- A pointer that a typed access refuses: a reserved format or a nonzero bit [53:52] (R63). -/
def badPtr (p : Word) : Bool := (spanOf (fmtOf p)).isNone || fld p 53 52 != 0

/-- The checks of a typed access on its pointer and register (R63, Table 12.3). -/
def typedSpan (p : Word) (rv : VReg) (store : Bool) : M Nat :=
  let f := fmtOf p
  if badPtr p || f == 0x08 || (store && f == 0x0C) || (f == 0x10 && rv.toNat % 8 != 0) then trap 0x05 p
  else pure ((spanOf f).getD 64)

/-- A typed element of a format as FP32, by its code (Table 12.3). -/
def typedIn (rm : Rm) (fmt x : Nat) : Lane × FFlags :=
  match fmt with
  | 0x02 => lane (fconv fp16 fp32 rm x)
  | 0x03 => lane (fconv bf16 fp32 rm x)
  | 0x05 => lane (fconv e4m3 fp32 rm x)
  | 0x06 => lane (fconv e5m2 fp32 rm x)
  | 0x07 => lane (fconv e2m1 fp32 rm x)
  | 0x09 => (BitVec.ofInt 32 (signed 8 x), 0)
  | _ => if x = 0xFF then (0x7FC00000, 0) else lane (fp32.conv rm (.fin false 1 ((x : Int) - 127)))

/-- A lane as a typed element of a format (Table 12.3); INT8 saturates with no flag. -/
def typedOut (rm : Rm) (fmt : Nat) (x : Lane) : Nat × FFlags :=
  match fmt with
  | 0x02 => fconv fp32 fp16 rm x.toNat
  | 0x03 => fconv fp32 bf16 rm x.toNat
  | 0x05 => fconv fp32 e4m3 rm x.toNat
  | 0x06 => fconv fp32 e5m2 rm x.toNat
  | 0x07 => fconv fp32 e2m1 rm x.toNat
  | _ => (wrapTo 8 (satTo 8 x.toInt), 0)

/-- The width in bits of an element whose 16 fill a span. -/
def elementBits (span : Nat) : Nat := span / 2

/-- The lanes that bytes of a format give, with their flags. -/
def lanesIn (rm : Rm) (fmt span : Nat) (bs : List Byte) : VWord × FFlags :=
  if span = 64 then (vecOfBytes bs, 0)
  else
    let n := ofBytes bs
    let w := elementBits span
    gather fun i => typedIn rm fmt (n / 2 ^ (w * i.val) % 2 ^ w)

/-- The bytes of a format that lanes give, with their flags. -/
def bytesOut (rm : Rm) (fmt span : Nat) (x : VWord) : List Byte × FFlags :=
  if span = 64 then (vecBytes x, 0)
  else
    let rs := x.toList.map (typedOut rm fmt)
    let w := elementBits span
    (toBytes span (rs.foldr (fun r acc => r.1 % 2 ^ w + 2 ^ w * acc) 0), unionFlags (rs.map Prod.snd))

/-- The packed index of an element of the information matrix, i at most j (R230). -/
def packedIndex (i j : Nat) : Nat := 8 * i - i * (i - 1) / 2 + (j - i)

/-- Lane x of register q of a list. -/
def laneAt (xs : List VWord) (q x : Nat) : Lane := ((xs.getD q (splat 0)).toList).getD x 0

/-- Element (i, j) of a block's information matrix as it stands in its registers (R227). -/
def lamAt (xs : List VWord) (i j : Nat) : Lane := laneAt xs (1 + (8 * i + j) / 16) ((8 * i + j) % 16)

/-- The five registers of a block from the 176 bytes of a slot (Table 12.3). -/
def slotIn (bs : List Byte) : List VWord :=
  let f := fun k => BitVec.ofNat 32 (ofBytes ((bs.drop (4 * k)).take 4))
  let eta : VWord := Vector.ofFn fun i => if i.val < 8 then f i.val else 0
  eta :: (List.range 4).map fun q => Vector.ofFn fun x =>
    let i := (16 * q + x.val) / 8
    let j := (16 * q + x.val) % 8
    f (8 + packedIndex (min i j) (max i j))

/-- The upper triangle of an 8 by 8 matrix in packed order (R230). -/
def triangle : List (Nat × Nat) :=
  (List.range 8).flatMap fun i => ((List.range 8).filter fun j => decide (i ≤ j)).map fun j => (i, j)

/-- The 176 bytes of a slot from a block (Table 12.3). -/
def slotOut (xs : List VWord) : List Byte :=
  ((List.range 8).flatMap fun i => toBytes 4 (laneAt xs 0 i).toNat) ++
    triangle.flatMap fun e => toBytes 4 (lamAt xs e.1 e.2).toNat

/-- The parts of a typed access, line by line: offset and length. -/
def typedParts (span : Nat) : List (Nat × Nat) :=
  if span = 176 then [(0, 64), (64, 64), (128, 48)] else [(0, span)]

/-- The alignment of a typed access (R248). -/
def typedAlign (span : Nat) : Nat := if span = 176 then 64 else span

/-- The places of the parts of a typed access, each checked; a slot that runs past the last address overflows. -/
def typedPlaces (p : Word) (va align : Nat) (acc : Acc) (ps : List (Nat × Nat)) : M (List (Nat × Nat × Place)) :=
  match ps with
  | [] => pure []
  | q :: rest => do
    if 2 ^ 52 < va + q.1 + q.2 then trap 0x07 p else pure ()
    let pl ← resolve (va + q.1) align acc
    let more ← typedPlaces p va align acc rest
    pure ((q.1, q.2, pl) :: more)

/-- The bytes of the parts of a typed load. -/
def typedBytes (va : Nat) (ps : List (Nat × Nat × Place)) : M (List Byte) :=
  match ps with
  | [] => pure []
  | q :: rest => do
    let a ← loadBytes (va + q.1) q.2.2 q.2.1
    let b ← typedBytes va rest
    pure (a ++ b)

/-- ld.vt: a typed load, converted and unscaled (R253). -/
def execLdVt (la : BitVec 4) (rv : VReg) (rb : SReg) (off : BitVec 6) (s : State) : Host.Outcome State Fault Refusal :=
  run (do
    openPorts none [rb]
    let c ← core
    let p := (c.takeS rb).1
    let va ← addrL p off 64
    let span ← typedSpan p rv false
    let ps ← typedPlaces p va (typedAlign span) .read (typedParts span)
    let bs ← typedBytes va ps
    if span = 176 then finishR (.g (rv.extractLsb' 3 3) (slotIn bs)) la [rb]
    else do
      let (x, fl) := lanesIn c.rm (fmtOf p) span bs
      raise fl
      finishR (.v rv x) la [rb]) s

/-- ld.acq: as ld.d, an acquire at the scope of its location (R252, log 6 DESIGN CHOICE). -/
def execLdAcq (la : BitVec 4) (rv : SReg) (rb : SReg) (off : BitVec 6) (s : State) : Host.Outcome State Fault Refusal :=
  run (loadS la rv rb off 8 word) s

/-- ld.dev: as ld.d, device-strong (R252, log 6 DESIGN CHOICE). -/
def execLdDev (la : BitVec 4) (rv : SReg) (rb : SReg) (off : BitVec 6) (s : State) : Host.Outcome State Fault Refusal :=
  run (loadS la rv rb off 8 word) s

/-- st.b: the low 1 byte of rv (R252). -/
def execStB (rv : SReg) (rb : SReg) (off : BitVec 6) (s : State) : Host.Outcome State Fault Refusal :=
  run (storeS rv rb off 1 false) s

/-- st.h: the low 2 bytes of rv (R252). -/
def execStH (rv : SReg) (rb : SReg) (off : BitVec 6) (s : State) : Host.Outcome State Fault Refusal :=
  run (storeS rv rb off 2 false) s

/-- st.w: the low 4 bytes of rv (R252). -/
def execStW (rv : SReg) (rb : SReg) (off : BitVec 6) (s : State) : Host.Outcome State Fault Refusal :=
  run (storeS rv rb off 4 false) s

/-- st.d: the low 8 bytes of rv (R252). -/
def execStD (rv : SReg) (rb : SReg) (off : BitVec 6) (s : State) : Host.Outcome State Fault Refusal :=
  run (storeS rv rb off 8 false) s

/-- st.v: a line from a vector register (R252). -/
def execStV (rv : VReg) (rb : SReg) (off : BitVec 6) (s : State) : Host.Outcome State Fault Refusal :=
  run (storeV rb off fun c => numbered (vecBytes (c.getV rv))) s

/-- st.vm: the lanes that p0 selects (R252). -/
def execStVm (rv : VReg) (rb : SReg) (off : BitVec 6) (s : State) : Host.Outcome State Fault Refusal :=
  run (storeV rb off fun c => maskedBytes (c.getV rv) (c.getP 0)) s

/-- st.vt: a typed store (R254). -/
def execStVt (rv : VReg) (rb : SReg) (off : BitVec 6) (s : State) : Host.Outcome State Fault Refusal :=
  run (do
    openPorts none [rb]
    let c ← core
    let p := (c.takeS rb).1
    let va ← addrL p off 64
    let span ← typedSpan p rv true
    let ps ← typedPlaces p va (typedAlign span) .write (typedParts span)
    let (bs, fl) := if span = 176 then (slotOut (c.getG (rv.extractLsb' 3 3)), 0) else bytesOut c.rm (fmtOf p) span (c.getV rv)
    raise fl
    asGroup (each ps fun q => storeGated (va + q.1) q.2.2 (numbered ((bs.drop q.1).take q.2.1)) false)
    finish [rb]) s

/-- st.rel: as st.d, a release at the scope of its location (R252, R278). -/
def execStRel (rv : SReg) (rb : SReg) (off : BitVec 6) (s : State) : Host.Outcome State Fault Refusal :=
  run (storeS rv rb off 8 true) s

/-- st.dev: as st.d, device-strong (R252, log 6 DESIGN CHOICE). -/
def execStDev (rv : SReg) (rb : SReg) (off : BitVec 6) (s : State) : Host.Outcome State Fault Refusal :=
  run (storeS rv rb off 8 false) s

/-! ## Scalar atomics (R255 to R258) -/

/-- The request of a scalar atomic. -/
def atomReq (s : State) (fn width va : Nat) (pl : Place) (b c : Word) (dest la : Nat) : AtomReq :=
  { core := s.cur, pkg := s.pkg.num, ctx := s.ctxNo, fn := fn, width := width, va := va, pa := homePa s s.ctxNo pl,
    operand := b, cmp := c, dest := dest, la := la, rtag := s.tick, okey := orderKey s.core.trig }

/-- A returning add takes the combining path, once every earlier store and atomic of the core is performed (R130, R257). -/
def issueCombinable (va : Nat) (pl : Place) (r : AtomReq) : M Unit := do
  let s ← get
  trapIf (refusedBy s pl).isSome 0x05 (word va)
  becomeIrrevocable
  waitWhile fun s => !s.core.calm
  modify fun s => s.sendCombinable s.cur pl r

/-- A scalar atomic of a function and a width in bytes (R255 to R257). -/
def atomicOp (fn width : Nat) (la : BitVec 4) (ra rb rc : SReg) : M Unit := do
  let srcs := if fn = 10 then [rb, rc, ra] else [rb, rc]
  openPorts (some ra) srcs
  let c ← core
  let (p, c) := c.takeS rb
  let (b, c) := c.takeS rc
  let old := if fn = 10 then (c.takeS ra).1 else 0
  let va := addrOf p
  let pl ← resolveAtomic va width .atomic
  let s ← get
  let r := atomReq s fn width va pl b old ra.toNat la.toNat
  if ra = 0 then do
    gate (.atomic pl r)
    finish srcs
  else if combines s fn pl && (portOf ra).isNone && s.core.ret.isNone then do
    issueCombinable va pl r
    modCore fun c => (c.dequeue srcs).awaits ra la r.rtag
    retire
  else do
    let w ← returning va pl fun s => s.atomicAt s.cur s.ctxNo pl fn width b old
    finishL ra la srcs w

/-- at.watch and atw.watch (R258). -/
def watchOp (width : Nat) (la : BitVec 4) (ra rb rc : SReg) : M Unit := do
  openPorts (some ra) [rb, rc]
  let c ← core
  let (p, c) := c.takeS rb
  let (q, _) := c.takeS rc
  let va := addrOf p
  let pl ← resolveAtomic va width .read
  let d ← ownDescriptor q 16 16 0x05
  let s ← get
  let e := d.getD 0 0
  let w := d.getD 1 0
  if fld w 63 18 ≠ 0 ∨ !inAnyGroup s s.ctxNo (fld w 11 0) then trap 0x05 q
  else do
    let r : WatchReq :=
      { ctx := s.ctxNo, core := fld w 11 0, tag := fld w 17 12, width := width, va := va, pa := watchPa s pl, exp := e }
    if ra = 0 then do
      gate (.watch pl r)
      finish [rb, rc]
    else do
      let v ← returning va pl fun s => (watchValue s r, s.watchAt r)
      finishL ra la [rb, rc] v

/-- at.add (R256). -/
def execAtAdd (la : BitVec 4) (ra : SReg) (rb : SReg) (rc : SReg) (s : State) : Host.Outcome State Fault Refusal :=
  run (atomicOp 0 8 la ra rb rc) s

/-- at.addcb (R256). -/
def execAtAddcb (la : BitVec 4) (ra : SReg) (rb : SReg) (rc : SReg) (s : State) : Host.Outcome State Fault Refusal :=
  run (atomicOp 1 8 la ra rb rc) s

/-- at.and (R256). -/
def execAtAnd (la : BitVec 4) (ra : SReg) (rb : SReg) (rc : SReg) (s : State) : Host.Outcome State Fault Refusal :=
  run (atomicOp 2 8 la ra rb rc) s

/-- at.or (R256). -/
def execAtOr (la : BitVec 4) (ra : SReg) (rb : SReg) (rc : SReg) (s : State) : Host.Outcome State Fault Refusal :=
  run (atomicOp 3 8 la ra rb rc) s

/-- at.xor (R256). -/
def execAtXor (la : BitVec 4) (ra : SReg) (rb : SReg) (rc : SReg) (s : State) : Host.Outcome State Fault Refusal :=
  run (atomicOp 4 8 la ra rb rc) s

/-- at.min (R256). -/
def execAtMin (la : BitVec 4) (ra : SReg) (rb : SReg) (rc : SReg) (s : State) : Host.Outcome State Fault Refusal :=
  run (atomicOp 5 8 la ra rb rc) s

/-- at.max (R256). -/
def execAtMax (la : BitVec 4) (ra : SReg) (rb : SReg) (rc : SReg) (s : State) : Host.Outcome State Fault Refusal :=
  run (atomicOp 6 8 la ra rb rc) s

/-- at.minn (R256). -/
def execAtMinn (la : BitVec 4) (ra : SReg) (rb : SReg) (rc : SReg) (s : State) : Host.Outcome State Fault Refusal :=
  run (atomicOp 7 8 la ra rb rc) s

/-- at.maxn (R256). -/
def execAtMaxn (la : BitVec 4) (ra : SReg) (rb : SReg) (rc : SReg) (s : State) : Host.Outcome State Fault Refusal :=
  run (atomicOp 8 8 la ra rb rc) s

/-- at.swp (R256). -/
def execAtSwp (la : BitVec 4) (ra : SReg) (rb : SReg) (rc : SReg) (s : State) : Host.Outcome State Fault Refusal :=
  run (atomicOp 9 8 la ra rb rc) s

/-- at.cas (R256). -/
def execAtCas (la : BitVec 4) (ra : SReg) (rb : SReg) (rc : SReg) (s : State) : Host.Outcome State Fault Refusal :=
  run (atomicOp 10 8 la ra rb rc) s

/-- at.fadd (R256). -/
def execAtFadd (la : BitVec 4) (ra : SReg) (rb : SReg) (rc : SReg) (s : State) : Host.Outcome State Fault Refusal :=
  run (atomicOp 11 8 la ra rb rc) s

/-- at.red (R256). -/
def execAtRed (la : BitVec 4) (ra : SReg) (rb : SReg) (rc : SReg) (s : State) : Host.Outcome State Fault Refusal :=
  run (atomicOp 12 8 la ra rb rc) s

/-- at.watch arms a monitor (R258). -/
def execAtWatch (la : BitVec 4) (ra : SReg) (rb : SReg) (rc : SReg) (s : State) : Host.Outcome State Fault Refusal :=
  run (watchOp 8 la ra rb rc) s

/-- atw.add (R256). -/
def execAtwAdd (la : BitVec 4) (ra : SReg) (rb : SReg) (rc : SReg) (s : State) : Host.Outcome State Fault Refusal :=
  run (atomicOp 0 4 la ra rb rc) s

/-- atw.addcb (R256). -/
def execAtwAddcb (la : BitVec 4) (ra : SReg) (rb : SReg) (rc : SReg) (s : State) : Host.Outcome State Fault Refusal :=
  run (atomicOp 1 4 la ra rb rc) s

/-- atw.and (R256). -/
def execAtwAnd (la : BitVec 4) (ra : SReg) (rb : SReg) (rc : SReg) (s : State) : Host.Outcome State Fault Refusal :=
  run (atomicOp 2 4 la ra rb rc) s

/-- atw.or (R256). -/
def execAtwOr (la : BitVec 4) (ra : SReg) (rb : SReg) (rc : SReg) (s : State) : Host.Outcome State Fault Refusal :=
  run (atomicOp 3 4 la ra rb rc) s

/-- atw.xor (R256). -/
def execAtwXor (la : BitVec 4) (ra : SReg) (rb : SReg) (rc : SReg) (s : State) : Host.Outcome State Fault Refusal :=
  run (atomicOp 4 4 la ra rb rc) s

/-- atw.min (R256). -/
def execAtwMin (la : BitVec 4) (ra : SReg) (rb : SReg) (rc : SReg) (s : State) : Host.Outcome State Fault Refusal :=
  run (atomicOp 5 4 la ra rb rc) s

/-- atw.max (R256). -/
def execAtwMax (la : BitVec 4) (ra : SReg) (rb : SReg) (rc : SReg) (s : State) : Host.Outcome State Fault Refusal :=
  run (atomicOp 6 4 la ra rb rc) s

/-- atw.minn (R256). -/
def execAtwMinn (la : BitVec 4) (ra : SReg) (rb : SReg) (rc : SReg) (s : State) : Host.Outcome State Fault Refusal :=
  run (atomicOp 7 4 la ra rb rc) s

/-- atw.maxn (R256). -/
def execAtwMaxn (la : BitVec 4) (ra : SReg) (rb : SReg) (rc : SReg) (s : State) : Host.Outcome State Fault Refusal :=
  run (atomicOp 8 4 la ra rb rc) s

/-- atw.swp (R256). -/
def execAtwSwp (la : BitVec 4) (ra : SReg) (rb : SReg) (rc : SReg) (s : State) : Host.Outcome State Fault Refusal :=
  run (atomicOp 9 4 la ra rb rc) s

/-- atw.cas (R256). -/
def execAtwCas (la : BitVec 4) (ra : SReg) (rb : SReg) (rc : SReg) (s : State) : Host.Outcome State Fault Refusal :=
  run (atomicOp 10 4 la ra rb rc) s

/-- atw.fadd (R256). -/
def execAtwFadd (la : BitVec 4) (ra : SReg) (rb : SReg) (rc : SReg) (s : State) : Host.Outcome State Fault Refusal :=
  run (atomicOp 11 4 la ra rb rc) s

/-- atw.red (R256). -/
def execAtwRed (la : BitVec 4) (ra : SReg) (rb : SReg) (rc : SReg) (s : State) : Host.Outcome State Fault Refusal :=
  run (atomicOp 12 4 la ra rb rc) s

/-- atw.watch arms a monitor (R258). -/
def execAtwWatch (la : BitVec 4) (ra : SReg) (rb : SReg) (rc : SReg) (s : State) : Host.Outcome State Fault Refusal :=
  run (watchOp 4 la ra rb rc) s

/-! ## Vector memory instructions (R259 to R262) -/

/-- Lane numbers from one on, in ascending order. -/
def lanesFrom (k : Nat) : List (Fin 16) := (List.finRange 16).filter fun i => decide (k ≤ i.val)

/-- One active lane: vprog names it, its address is formed and checked, and it is done (R260, R261). -/
def vgLane (acc : Acc) (p : Word) (idx : VWord) (f : Fin 16 → Nat → Place → M Unit) (i : Fin 16) : M Unit := do
  modCore fun c => { c with vprog := BitVec.ofNat 11 i.val }
  let a : Int := (addrOf p : Int) + (idx[i]).toInt * 4
  if a < 0 ∨ 2 ^ 52 ≤ a then trap 0x07 p
  else do
    let va := a.toNat
    let pl ← if acc = .atomic then resolveAtomic va 4 acc else resolve va 4 acc
    f i va pl

/-- The active lanes in ascending order, from vprog on; vprog is 0 when they are done (R261). Lanes that write are performed as
a group, with no access of another core between them (R262). -/
def vgLanes (acc : Acc) (rb : SReg) (rc : VReg) (f : Fin 16 → Nat → Place → M Unit) : M Unit := do
  let c ← core
  let p := (c.takeS rb).1
  let lanes := each ((lanesFrom (c.vprog.toNat % 16)).filter fun i => (c.getP 0).getLsbD i.val) (vgLane acc p (c.getV rc) f)
  if acc = .read then lanes else asGroup lanes
  modCore fun c => { c with vprog := 0 }

/-- A part of a step whose waiting leaves no mark on vprog or a vector register: only a failed check does. -/
def unlessStalled (rv : VReg) (m : M Unit) : M Unit := fun s =>
  match m s with
  | .ok r => .ok r
  | .error t =>
    if waits t then
      .error (t.setCore { t.core.setV rv (s.core.getV rv) with vprog := s.core.vprog })
    else .error t

/-- A vector atomic or a scatter (Table 12.7). -/
def vgStore (acc : Acc) (rb : SReg) (rc : VReg) (f : Fin 16 → Nat → Place → M Unit) : M Unit := do
  openPorts none [rb]
  vgLanes acc rb rc f
  finish [rb]

/-- The lanes of a vector atomic, each gated as one atomic. -/
def vgAtomic (fn : Nat) (ra : VReg) (rb : SReg) (rc : VReg) : M Unit :=
  vgStore .atomic rb rc fun i va pl => do
    let s ← get
    gate (.atomic pl (atomReq s fn 4 va pl (((s.core.getV ra)[i]).setWidth 64) 0 0 0))

/-- vg.gat: the active lanes are loaded in ascending order; a failed check leaves the lanes below it written (R260, R261). The result is
the whole register, its inactive lanes as they stood at issue, also where an instruction of its window writes the register (R19, log 94
DEDUCED). -/
def execVgGat (la : BitVec 4) (ra : VReg) (rb : SReg) (rc : VReg) (s : State) : Host.Outcome State Fault Refusal :=
  run (do
    openPorts none [rb]
    let c ← core
    let old := c.getV ra
    unlessStalled ra (vgLanes .read rb rc fun i va pl => do
      let bs ← loadBytes va pl 4
      modCore fun c => c.setV ra ((c.getV ra).set i.val (BitVec.ofNat 32 (ofBytes bs)) i.isLt))
    let c ← core
    let new := c.getV ra
    modCore fun c => c.setV ra old
    finishR (.v ra new) la [rb]) s

/-- vg.sca: the active lanes are stored in ascending order (R260, R261). -/
def execVgSca (ra : VReg) (rb : SReg) (rc : VReg) (s : State) : Host.Outcome State Fault Refusal :=
  run (vgStore .write rb rc fun i va pl => do
    let c ← core
    storeGated va pl (numbered (toBytes 4 ((c.getV ra)[i]).toNat)) false) s

/-- vg.atadd (R260, R261). -/
def execVgAtadd (ra : VReg) (rb : SReg) (rc : VReg) (s : State) : Host.Outcome State Fault Refusal :=
  run (vgAtomic 0 ra rb rc) s

/-- vg.atfadd (R260, R261). -/
def execVgAtfadd (ra : VReg) (rb : SReg) (rc : VReg) (s : State) : Host.Outcome State Fault Refusal :=
  run (vgAtomic 11 ra rb rc) s

/-- vg.atmin (R260, R261). -/
def execVgAtmin (ra : VReg) (rb : SReg) (rc : VReg) (s : State) : Host.Outcome State Fault Refusal :=
  run (vgAtomic 5 ra rb rc) s

/-- vg.atmax (R260, R261). -/
def execVgAtmax (ra : VReg) (rb : SReg) (rc : VReg) (s : State) : Host.Outcome State Fault Refusal :=
  run (vgAtomic 6 ra rb rc) s

/-- vg.ator (R260, R261). -/
def execVgAtor (ra : VReg) (rb : SReg) (rc : VReg) (s : State) : Host.Outcome State Fault Refusal :=
  run (vgAtomic 3 ra rb rc) s

/-! ## Rings (R263 to R268) -/

/-- The control block of a ring operation: 64-byte alignment names the register, then the checks of R248 (R264). -/
def ringPlace (rb : Word) : M Place :=
  if rb.toNat % 64 ≠ 0 then trap 0x03 rb else resolveAtomic (addrOf rb) 64 .atomic

/-- rg.acq: the next slot is reserved, or 0 (R265). -/
def execRgAcq (la : BitVec 4) (ra : SReg) (rb : SReg) (s : State) : Host.Outcome State Fault Refusal :=
  run (do
    openPorts (some ra) [rb]
    let c ← core
    let p := (c.takeS rb).1
    let pl ← ringPlace p
    let w ← returning (addrOf p) pl fun s => s.ringAcq s.cur s.ctxNo pl (addrOf p)
    finishL ra la [rb] w) s

/-- rg.cmt: a slot is committed (R266). Of rb and rc bits [51:0] are the addresses, as with any untyped access (R63, log 89
DEDUCED). -/
def execRgCmt (rb : SReg) (rc : SReg) (s : State) : Host.Outcome State Fault Refusal :=
  run (do
    openPorts none [rb, rc]
    let c ← core
    let (p, c) := c.takeS rb
    let (q, _) := c.takeS rc
    let pl ← ringPlace p
    let cb := addrOf p
    let slot := addrOf q
    if slot < cb + 64 ∨ (slot - cb) % 64 ≠ 0 then trap 0x05 q
    else do
      gate (.rgCmt pl cb slot)
      finish [rb, rc]) s

/-- rg.peek: the oldest committed slot, or 0 (R267). -/
def execRgPeek (la : BitVec 4) (ra : SReg) (rb : SReg) (s : State) : Host.Outcome State Fault Refusal :=
  run (do
    openPorts (some ra) [rb]
    let c ← core
    let p := (c.takeS rb).1
    let pl ← ringPlace p
    let cb := addrOf p
    let bs ← loadBytes cb pl 64
    let r := ringOf bs
    onlyIf r.bad (modify fun s => s.logCore s.ctxNo 0x29 0 s.cur cb 0)
    finishL ra la [rb] (if !r.bad && decide (r.tail < r.cmt) then word (r.slot cb r.tail) else 0)) s

/-- rg.rel: the oldest slot is released (R267). -/
def execRgRel (rb : SReg) (s : State) : Host.Outcome State Fault Refusal :=
  run (do
    openPorts none [rb]
    let c ← core
    let p := (c.takeS rb).1
    let pl ← ringPlace p
    gate (.rgRel pl (addrOf p))
    finish [rb]) s

/-! ## Neighbour queues (R272) -/

/-- A port operand: 0 to 3 (R272). -/
def portArg (w : Word) : M Nat := if 3 < w.toNat then trap 0x05 w else pure w.toNat

/-- The status of a port (Table 12.12). -/
def portStatus (s : State) (k : Nat) : Word :=
  let q := s.core.fifo k
  word (flag (neighbour s.cur k).isSome 17 + flag (isControl q) 16 + credit s s.cur k * 2 ^ 8 + q.length)

/-- qp.ctl: a control word is enqueued (R272, R270). -/
def execQpCtl (sa sb : Src) (s : State) : Host.Outcome State Fault Refusal :=
  run (do
    let srcs := srcNames sa ++ srcNames sb
    openPorts none srcs
    let c ← core
    let (a, c) := c.takeSrc sa
    let (b, _) := c.takeSrc sb
    let k ← portArg a
    let s ← get
    if (neighbour s.cur k).isNone then trap 0x05 a
    else do
      becomeIrrevocable
      let s ← get
      if credit s s.cur k = 0 then stallAtPort
      else do
        modify fun s => s.enqueue k (1#1 ++ b)
        finish srcs) s

/-- qp.stat: the status of a port (R272). -/
def execQpStat (rd : SReg) (sa : Src) (s : State) : Host.Outcome State Fault Refusal :=
  run (do
    let srcs := srcNames sa
    openPorts (some rd) srcs
    let c ← core
    let k ← portArg (c.takeSrc sa).1
    let s ← get
    finishS rd srcs (portStatus s k)) s

/-- qp.catch: a catch address is set or cleared (R272). -/
def execQpCatch (sa sb : Src) (s : State) : Host.Outcome State Fault Refusal :=
  run (do
    let srcs := srcNames sa ++ srcNames sb
    openPorts none srcs
    let c ← core
    let (a, c) := c.takeSrc sa
    let (b, _) := c.takeSrc sb
    let k ← portArg a
    if b.toNat % 4 ≠ 0 then trap 0x03 b
    else do
      modCore fun c => { c with qcatch := Vector.ofFn fun i => if i.val = k then b else c.qcatch[i] }
      finish srcs) s

end Sys2Proof.Machine
end

