-- ==== Sys2Proof/Machine/Context.lean ====
section
/-!
DEFINITION. Contexts on cores (R334 to R338): the pre-emption of a context, the halt of each of its cores, the exchange
of local stores, and the resume.
-/
namespace Sys2Proof.Machine

/-! ## Pre-emption (R336) -/

/-- The cores that hold a context. -/
def residents (s : State) (ctx : Nat) : List Nat := s.cores.filterMap fun e => if e.2.ctx = some ctx then some e.1 else none

/-- The core's place in its context while it is pre-empted: halted where an irrevocable activation was running. A held one
translates again when it resumes, and a load of host memory is performed again (Table 4.9, R336). -/
def Core.record (x : Core) : Core :=
  { x with
    phase := if x.phase = .running then .halted else x.phase, stalled := false, held := none, hostWait := false, hostRd := none,
    hostGot := [], inbox := [],
    mx := { x.mx with queue := x.mx.queue.map fun k => { k with refetch := true, got := [], pinned := [], waits := false } },
    l1tlb := [], l1 := [], l1i := [], lmon := [] }

/-- What stays on the core when its context's state has been saved; its tiles are those of a core after reset (log 88 DESIGN
CHOICE). -/
def Core.vacated (x : Core) (ctx : Nat) : Core :=
  { x with
    phase := .idle, stalled := false, hostWait := false, hostRd := none, hostGot := [], ret := none, pend := [], cbuf := [],
    held := none, rsig := [], word := none, due := none, chainOut := [], bars := [], arrived := [], fetching := none, posts := [], sprTiles := [],
    trail := {}, qin := Vector.replicate 4 [], qcatch := Vector.replicate 4 0, mx := {}, cp := {}, outst := [], tlv := 0,
    chk := { count := x.chk.count, last := x.chk.last }, tags := Tbl.del x.tags ctx,
    inbox := x.inbox.filter fun m => m.ctx != ctx }

/-- Every member of the context's groups that is resident for it has been saved. -/
def allHalted (s : State) (ctx : Nat) : Bool := (residents s ctx).all fun c => Tbl.has (s.ctxAt ctx).saves c

/-- The entry of a context's proofing store that the next message takes is written; one beyond the last is not (R335, R336). -/
def State.proofEntry (s : State) (ctx : Nat) (m : Msg) : State :=
  let y := s.ctxAt ctx
  let k := y.store1.length + y.store2.length
  if k < storeCap (fld y.proof 4 0) then s.writeEntry ctx y.proof k m else s

/-- Messages of the inboxes move to the proofing store (R336). A task keeps the slot that holds its footprint (R156). -/
def State.proofed (s : State) (ctx : Nat) (ms : List Msg) : State :=
  ms.foldl (fun s m => (s.proofEntry ctx m).onCtx ctx fun y => { y with store1 := y.store1 ++ [m] }) s

/-- The context is pre-empted: its messages in the inboxes move to the proofing store, each tag in order (R336). -/
def State.preempted (s : State) (ctx : Nat) : State :=
  let boxed := s.clusters.flatMap fun e => e.2.inbox.filter fun m => m.ctx == ctx
  let s := { s with clusters := Tbl.mapv s.clusters fun _ k => { k with inbox := k.inbox.filter fun m => m.ctx != ctx } }
  (s.proofed ctx boxed).onCtx ctx fun x => { x with state := 2 }

/-- A pre-emption request: dispatch of the context stops, and each of its cores is to halt. -/
def State.preempt (s : State) (ctx : Nat) : State :=
  if !(s.ctxAt ctx).live ∨ (s.ctxAt ctx).state ≠ 0 then s
  else
    let s := s.onCtx ctx fun x => { x with state := 1 }
    let cs := residents s ctx
    if cs = [] then s.preempted ctx else cs.foldl (fun s c => s.launch (.preemptionHalt c)) s

/-- A trailing core has executed all the stream that it has received (R325). -/
def Core.starved (x : Core) : Bool := x.trail.role == .trailing && x.trail.left.isNone && x.trail.stream.isEmpty

/-- A core of a row runs no further instruction of a context for now: it runs no activation of the context, it is saved, or it waits at
a queue port or on a page. -/
def stands (s : State) (ctx i : Nat) : Bool :=
  let x := s.coreAt i
  x.ctx != some ctx || Tbl.has (s.ctxAt ctx).saves i || x.phase != .running || x.blocked

/-- The trailing cores behind which a leader's stream is eight instructions ahead (R324). -/
def slowest (s : State) (ctx c : Nat) : List Nat :=
  (others c).filter fun i =>
    let t := (s.holder i ctx).trail
    t.role == .trailing && decide (8 ≤ t.stream.length)

/-- A core waits in trl.lead for a core of its row that stands and has not executed trl.join (R323). -/
def leadsNone (s : State) (ctx i : Nat) : Bool :=
  (s.coreAt i).trail.role == .waiting && (others i).any fun j => stands s ctx j && (s.coreAt j).trail.role != .waiting

/-- What a core of a row waits for in trl.lead, trl.join or trail mode does not come while the cores of its row stand as they do: a
leader waits for trl.join or behind the slowest core, another core for its leader's trl.lead or stream (R323, R324). -/
def rowStands (s : State) (ctx c : Nat) : Bool :=
  let behind := fun i => (slowest s ctx i).any (stands s ctx)
  match (s.coreAt c).trail.role with
  | .none => false
  | .waiting => let l := c / 4 * 4; if c = l then leadsNone s ctx c else stands s ctx l || leadsNone s ctx l
  | .leader => (s.coreAt c).trail.left.isNone && behind c
  | .trailing => (s.coreAt c).starved && (others c).any fun i => (s.holder i ctx).trail.role == .leader && (stands s ctx i || behind i)

/-- A window that is open does not reach its end: its next instruction waits at a queue port, is held on a page, or waits for cores of
its row that stand (R270, Table 4.9, R323, R324, log 81 DEDUCED). -/
def windowStands (s : State) (ctx c : Nat) : Bool := (s.coreAt c).blocked || rowStands s ctx c

/-- A core cannot halt yet: a sprinkle handler runs, a window is open, a buffer or a commit is being released, or a copy channel is
inside a beat. A window that does not reach its end closes at the halt (Table 1.6, log 81 DEDUCED). -/
def cannotHalt (s : State) (ctx c : Nat) : Bool :=
  let x := s.coreAt c
  (match x.phase with
  | .running => (x.trig.kind == 1) || (!x.rev && ((x.windowOpen && !windowStands s ctx c) || x.cbuf != []))
  | .ending _ => true
  | .idle => x.mx.queue != []
  | .halted => false) || x.word.any Waiting.releasing || x.cp.chans.toList.any fun h => h.cur.any fun k => k.sent != 0

/-- A trigger is parked by a pre-emption, to be replayed at the resume (Table 14.8). -/
def State.parkForResume (s : State) (m : Msg) : State := s.park { m with resume := true }

/-- An ordered activation that waits to commit is discarded, and its message parked with its key (Table 14.17); one that had become
irrevocable is saved with its core (R298). -/
def State.parkWaiting (s : State) (c : Nat) : State :=
  match (s.coreAt c).word with
  | some w => if w.firm then s else (s.undoWaiting c w).parkForResume { w.trig with redl := true, dcore := c }
  | none => s

/-- A task whose footprint was being fetched gives up its slot: one that had been delivered goes with its inbox, and one of a ready
queue goes back there (Table 14.13, R156). -/
def State.parkFetching (s : State) (c : Nat) : State :=
  match (s.coreAt c).fetching with
  | some (m, _) =>
    let s := s.onCore c fun x => { x with fetching := none }
    if m.boxed then s else s.requeueTask m false
  | none => s

/-- A core of a context being pre-empted halts: a revocable activation is discarded and its trigger parked, an
irrevocable one is saved, and the core's state with it (R336). -/
def State.halt (s : State) (c : Nat) : State :=
  match (s.coreAt c).ctx with
  | none => s
  | some ctx =>
    if (s.ctxAt ctx).state ≠ 1 ∨ Tbl.has (s.ctxAt ctx).saves c then s
    else if cannotHalt s ctx c then s.launch (.preemptionHalt c)
    else
      let x := s.coreAt c
      let s := if x.phase = .running ∧ x.rev then
          let m := s.trigAt c
          (s.drop c).parkForResume m
        else s.onCore c Core.closeWindows
      let s := (s.parkWaiting c).parkFetching c
      let x := s.coreAt c
      let s := (s.unpin (x.mx.queue.flatMap MxCmd.pins)).leavePins c
      let s := s.onCtx ctx fun y => { y with saves := Tbl.put y.saves c x.record }
      let s := s.proofed ctx (x.inbox.filter fun m => m.ctx == ctx)
      let s := s.onCore c fun x => x.vacated ctx
      if allHalted s ctx then s.preempted ctx else s

/-! ## Local stores (R338) -/

/-- A core's saved state comes back: what it was doing goes on (R337). -/
def Core.restored (x saved : Core) (ctx : Nat) : Core :=
  { saved with
    phase := if saved.phase = .halted then .running else saved.phase, ctx := some ctx, last := some ctx, inbox := x.inbox,
    l1tlb := x.l1tlb, l1 := x.l1, l1i := x.l1i, lmon := x.lmon, seq := x.seq, ready := x.ready, remap := x.remap,
    tags := Tbl.put x.tags ctx (Tbl.getD saved.tags ctx {}), chk := { saved.chk with count := x.chk.count, last := x.chk.last } }

/-- The tags of a context as loading its image left them (R290). -/
def loadedTags (x : Ctx) : TagSet :=
  { tags := x.handlers.map fun h => (h.1, { dflt := some h.2.1, en := true, prio := h.2.2.1, kbank := h.2.2.2 }) }

/-- A region of memory copied for a tenant, with what its lines have wrong; sectors of HBM are checked and tagged (R73, R74, R138,
R338). -/
def State.moveBytes (s : State) (tenant src dst n : Nat) : State :=
  let bad := (badLines s tenant src n).map fun e => (e.1 - src + dst, e.2)
  let s := s.writePa dst (s.readPa src n)
  let s := { s with poison := s.poison ++ bad }
  if ownHbm s dst then s.stampAll tenant dst n else s

/-- A core becomes resident for a context: the outgoing context's image is written, then the incoming one's is read,
and a saved state is restored, unless its record was altered, which kills the context (R335, R338). A core whose context was
killed keeps nothing of it. -/
def State.swap (s : State) (c ctx : Nat) : State :=
  let x := s.coreAt c
  let s := match x.ctx with
    | some old => if (s.ctxAt old).state = 3 then s else s.moveBytes (s.ctxAt old).tenant (lsPa s c 0) (imagePa s old c 0) lsSize
    | none => s
  let s := s.moveBytes (s.ctxAt ctx).tenant (imagePa s ctx c 0) (lsPa s c 0) lsSize
  let s := { s with ctxs := Tbl.mapv s.ctxs fun _ y => { y with scrub := y.scrub.filter (· != c) } }
  match Tbl.getD ((s.ctxAt ctx).saves.map fun e => (e.1, some e.2)) c none with
  | some saved =>
    if (s.ctxAt ctx).altered.contains c then (s.log ctx 0x2E 0 0xFFF 0 false 0 0).kill ctx 7 0
    else
    let s := s.onCore c fun x => x.restored saved ctx
    (s.onCtx ctx fun y => { y with saves := Tbl.del y.saves c }).restartEngines c
  | none => s.onCore c fun x => { x with ctx := some ctx, last := some ctx, tags := Tbl.put x.tags ctx (loadedTags (s.ctxAt ctx)) }

/-- A core may take in a context: it holds none, or one that is pre-empted, and is neither lost nor being moved. -/
def canSwap (s : State) (c ctx : Nat) : Bool :=
  let x := s.coreAt c
  (s.ctxAt ctx).live && (s.ctxAt ctx).state == 0 && inAnyGroup s ctx c && !x.remap && !coreLost s c &&
    match x.ctx with
    | some old => old != ctx && (s.ctxAt old).state == 2
    | none => true

/-! ## Resume (R337) -/

/-- An arrival that comes ahead of the context's later traffic (R337). -/
def asFirst (i : Instr) : Instr :=
  match i with
  | .messageArrival m => .messageArrival { m with first := true }
  | _ => i

/-- The steps that an operation launches, and then the arrivals of messages, come before all that is in flight, and the arrivals
among them keep before what comes later to their context (R337). -/
def State.inFront (s : State) (f : State → State) (ms : List Msg) : State :=
  let t := f { s with flight := [] }
  { t with flight := (t.flight ++ ms.map Instr.messageArrival).map asFirst ++ s.flight }

/-- What a replay that came while the context was pre-empted does to its saved cores and its waiting tasks (Table 4.9). -/
def State.replaySaved (s : State) (ctx : Nat) : State :=
  (s.onCtx ctx fun x => { x with saves := Tbl.mapv x.saves fun _ k => k.replayed, replayDue := false }).wakeTasks ctx

/-- A resume: an altered save record kills the context (R335); else its cores take back their states, and its traffic is
delivered in order, ahead of what is in flight: the triggers that the pre-emption parked, the inbox messages, the ring, and the
arrivals (R337, Table 14.8). A replay that came while the context was pre-empted takes effect first, for every parked trigger
(Table 4.9). -/
def State.resume (s : State) (ctx : Nat) : State :=
  let y := s.ctxAt ctx
  if !y.live ∨ y.state ≠ 2 then s
  else if y.altered ≠ [] then (s.log ctx 0x2E 0 0xFFF 0 false 0 0).kill ctx 7 0
  else
    let s := if y.replayDue then s.replaySaved ctx else s
    let (go, stay) := if y.replayDue then (y.parked, []) else y.parked.partition Msg.resume
    let s := s.onCtx ctx fun x => { x with state := 0, store1 := [], store2 := [], ring := [], parked := stay }
    let s := s.inFront (go.foldl State.redeliver) ((y.store1 ++ y.ring ++ y.store2).map fun m => { m with rslot := none })
    (s.ctxAt ctx).saves.foldl (fun s e =>
      if (s.coreAt e.1).ctx = some ctx then
        let s := s.onCore e.1 fun x => x.restored e.2 ctx
        (s.onCtx ctx fun x => { x with saves := Tbl.del x.saves e.1 }).restartEngines e.1
      else s.launch (.localStoreSwap e.1 ctx)) s

end Sys2Proof.Machine
end

