-- ==== Sys2Proof/Machine/System.lean ====
section
/-!
DEFINITION. System registers (R6, R346, R347), the sys group (R343 to R349), and the fences (R285, R286).
-/
namespace Sys2Proof.Machine

/-! ## The numbers (R9, R346, R347) -/

/-- The registers of which each context has one, reached through csel (R347). -/
def perContext (n : Nat) : Bool := [0x120, 0x121, 0x122].contains n || (decide (0x125 ≤ n) && decide (n ≤ 0x130))

/-- A chapter assigns the number. -/
def assigned (n : Nat) : Bool :=
  decide (n ≤ 0x011) && (decide (n ≤ 0x009) || decide (0x010 ≤ n)) || (decide (0x020 ≤ n) && decide (n ≤ 0x022)) ||
    (decide (0x030 ≤ n) && decide (n ≤ 0x032)) || n == 0x038 || (decide (0x040 ≤ n) && decide (n ≤ 0x04A)) ||
    (decide (0x060 ≤ n) && decide (n ≤ 0x062)) || n == 0x100 || (decide (0x120 ≤ n) && decide (n ≤ 0x130))

/-- The numbers of ls and le, whose writes are illegal while a loop is active (R189). -/
def loopBound (n : Nat) : Bool := n == 0x031 || n == 0x032

/-- The checks of a register number at issue (R346, R347). -/
def checkNumber (n : Nat) : M Unit := do
  let s ← get
  if 0x100 ≤ n ∧ !(s.ctxAt s.ctxNo).privileged then trap 0x05 (irWord s)
  else if !assigned n then illegal
  else if perContext n && !(s.ctxAt s.core.csel.toNat).live then trap 0x05 (irWord s)
  else pure ()

/-! ## Reading -/

/-- rostat as read (Table 11.14). -/
def rostatWord (s : State) : Word :=
  let g := s.core.rgrp.toNat
  let u := runOf s s.ctxNo g
  word (flag u.fired 18 + flag u.cond 17 + flag u.seen 16 + flag u.arm 14 + u.lent.toNat * 256 + g)

/-- The register of context x that a number reaches (R347). -/
def ctxRead (s : State) (x : Ctx) (n : Nat) : Word :=
  match n with
  | 0x120 => x.pmctl
  | 0x121 => x.ptbase
  | 0x122 => x.sigctl
  | 0x125 => x.fparea
  | 0x126 => x.ovring
  | 0x127 => x.lcbase
  | 0x128 => x.psave
  | 0x129 => x.proof
  | 0x12A => word (x.state * 2 + flag s.pkg.clkdeg 0)
  | 0x12B => x.wdctl
  | 0x12C => x.ctvec
  | 0x12D => x.ctsave
  | 0x12E => x.elog
  | 0x12F => x.sigtext
  | _ => x.shcls

/-- A system register as sys.get reads it. -/
def sysRead (s : State) (n : Nat) : Word :=
  let c := s.core
  match n with
  | 0x000 => word (s.cur * 2 ^ 52 + c.seq.toNat)
  | 0x001 => word (s.cur % 4096)
  | 0x002 => word (clusterOf s.cur % 256)
  | 0x003 => word (dieOf s.cur % 8)
  | 0x004 => word (s.pkg.num % 1024)
  | 0x005 => word (s.ctxNo % 64)
  | 0x006 => word ((s.ctxAt s.ctxNo).tenant % 4096)
  | 0x007 => c.tsn.setWidth 64
  | 0x008 => c.rtag
  | 0x009 => c.fpa
  | 0x010 => s.pkg.now
  | 0x011 => s.pkg.cyc
  | 0x020 => c.frm
  | 0x021 => c.fflags.setWidth 64
  | 0x022 => c.gdim.setWidth 64
  | 0x030 => c.lp.lc
  | 0x031 => word c.lp.ls
  | 0x032 => word (c.lp.le + flag c.lp.pnd 1 + flag c.lp.act 0)
  | 0x038 => c.vprog.setWidth 64
  | 0x040 => c.tlv.setWidth 64
  | 0x041 => c.tvec
  | 0x042 => c.t1.cause
  | 0x043 => c.t1.pc
  | 0x044 => c.t1.val
  | 0x045 => c.t2.cause
  | 0x046 => c.t2.pc
  | 0x047 => c.t2.val
  | 0x048 => c.tsave
  | 0x049 => c.t1.scr
  | 0x04A => c.t2.scr
  | 0x060 => (runOf s s.ctxNo c.rgrp.toNat).thr.setWidth 64
  | 0x061 => (runOf s s.ctxNo c.rgrp.toNat).quiet.setWidth 64
  | 0x062 => rostatWord s
  | 0x100 => c.csel.setWidth 64
  | 0x123 => s.pkg.fbnote
  | 0x124 => s.pkg.cbctl
  | _ => ctxRead s (s.ctxAt c.csel.toNat) n

/-- The old value that sys.set and sys.clr start from: W1C and WO fields are taken as zero (R346). -/
def sysOld (s : State) (n : Nat) : Word :=
  if n = 0x062 then rostatWord s &&& ~~~ 0x40000#64 else sysRead s n

/-! ## Writing (R6, R68, R189, R243, R334) -/

/-- A value with only the bits of a mask. -/
def keep (m v : Word) : Word := v &&& m

/-- rostat: a write always names the group (R243). -/
def State.rostatSelectTo (s : State) (v : Word) : State := s.setCore { s.core with rgrp := v.setWidth 8 }

/-- rostat with upd and arm: the unit is armed afresh, and every earlier report is disregarded (R243). -/
def State.rostatArmTo (s : State) (v : Word) : State :=
  let s := s.rostatSelectTo v
  s.onRun s.ctxNo s.core.rgrp.toNat fun u => { u with
    arm := true, lent := (v >>> 8).setWidth 6, fired := u.fired &&
        !bit v.toNat 18, seen := false, count := 0, cond := false, done := false,
    reports := [] }

/-- rostat with upd and without arm: the unit is disarmed (R243). -/
def State.rostatDisarmTo (s : State) (v : Word) : State :=
  let s := s.rostatSelectTo v
  s.onRun s.ctxNo s.core.rgrp.toNat fun u => { u with
    arm := false, lent := (v >>> 8).setWidth 6, fired := u.fired && !bit v.toNat 18, cond := false, count := 0, done := false }

/-- A write of rostat (R243). -/
def State.rostatTo (s : State) (v : Word) : State :=
  if !bit v.toNat 15 then s.rostatSelectTo v
  else if bit v.toNat 14 then s.rostatArmTo v
  else s.rostatDisarmTo v

/-- The register of a context that a number reaches, written under its access codes. -/
def ctxWrite (x : Ctx) (n : Nat) (v : Word) : Ctx :=
  match n with
  | 0x120 => { x with pmctl := keep 0x0000FFFF00F00007 v }
  | 0x121 => { x with ptbase := keep 0x000FFFFFFFFFC001 v }
  | 0x122 => { x with sigctl := keep 0x9FFFFFFFFFFFFFFF v }
  | 0x125 => { x with fparea := keep 0x0000000000F3FFC0 v }
  | 0x126 => { x with ovring := keep 0x000FFFFFFFFF001F v }
  | 0x127 => { x with lcbase := keep 0x000FFFFFFFFFF000 v }
  | 0x128 => { x with psave := keep 0x000FFFFFF8000000 v }
  | 0x129 => { x with proof := keep 0x000FFFFFFFFF001F v }
  | 0x12B => { x with wdctl := keep 0x0000FFFFFFFFFFFF v }
  | 0x12C => { x with ctvec := keep 0x000FFFFFFFFFFF00 v }
  | 0x12D => { x with ctsave := v }
  | 0x12E => { x with elog := v }
  | 0x12F => { x with sigtext := keep 0x0000000FFFFFFFFF v }
  | 0x130 => { x with shcls := keep 0x000000000000001F v }
  | _ => x

/-- lc: at once, or at the end of the iteration while a loop is active (R189). -/
def Loop.writeCount (l : Loop) (v : Word) : Loop :=
  if l.act then { l with pending := v, pnd := true } else { l with lc := v }

/-- A register of the activation written under its access codes; RO registers and fields keep their values (R6). -/
def Core.writeReg (c : Core) (n : Nat) (v : Word) : Core :=
  match n with
  | 0x020 => { c with frm := keep 0x3E3 v }
  | 0x021 => { c with fflags := v.setWidth 5 }
  | 0x022 => { c with gdim := v.setWidth 4 }
  | 0x030 => { c with lp := c.lp.writeCount v }
  | 0x031 => { c with lp := { c.lp with ls := fld v 51 2 * 4 } }
  | 0x032 => { c with lp := { c.lp with le := fld v 51 2 * 4 } }
  | 0x038 => { c with vprog := v.setWidth 11 }
  | 0x041 => { c with tvec := keep 0x000FFFFFFFFFFF00 v }
  | 0x042 => { c with t1 := { c.t1 with cause := keep 0x100 c.t1.cause ||| keep 0xFF v } }
  | 0x043 => { c with t1 := { c.t1 with pc := keep 0x000FFFFFFFFFFFFC v } }
  | 0x044 => { c with t1 := { c.t1 with val := v } }
  | 0x045 => { c with t2 := { c.t2 with cause := keep 0x100 c.t2.cause ||| keep 0xFF v } }
  | 0x046 => { c with t2 := { c.t2 with pc := keep 0x000FFFFFFFFFFFFC v } }
  | 0x047 => { c with t2 := { c.t2 with val := v } }
  | 0x048 => { c with tsave := v }
  | 0x049 => { c with t1 := { c.t1 with scr := v } }
  | 0x04A => { c with t2 := { c.t2 with scr := v } }
  | 0x100 => { c with csel := v.setWidth 6 }
  | _ => c

/-- A system register written by the current core under the access codes of its fields. A write of ctxctl is a request
apart (State.ctxctl). -/
def State.writeReg (s : State) (n : Nat) (v : Word) : State :=
  match n with
  | 0x060 => s.onRun s.ctxNo s.core.rgrp.toNat fun u => { u with thr := v.setWidth 32 }
  | 0x061 => s.onRun s.ctxNo s.core.rgrp.toNat fun u => RunOut.judged { u with quiet := v.setWidth 32 } u.cond u.count
  | 0x062 => s.rostatTo v
  | 0x123 => s.onPkg fun p => { p with fbnote := keep 0x1FFFFFF v }
  | 0x124 => s.onPkg fun p => { p with cbctl := keep 0xFFF1 v }
  | _ => if perContext n then s.onCtx s.core.csel.toNat fun x => ctxWrite x n v else s.setCore (s.core.writeReg n v)

/-- A write of ctxctl asks for a pre-emption, a resume or a kill of a context (R334). -/
def State.ctxctl (s : State) (ctx : Nat) (v : Word) : State :=
  match fld v 5 4 with
  | 1 => s.preempt ctx
  | 2 => s.resume ctx
  | 3 => s.kill ctx 6 0
  | _ => s

/-- sys.put, sys.set and sys.clr: f makes the new value from the old one and the operand. A request of ctxctl is made
once the instruction has retired (R334). -/
def putReg (r : SReg) (n : BitVec 10) (f : Word → Word → Word) : M Unit := do
  checkNumber n.toNat
  let c ← core
  if c.lp.act && loopBound n.toNat then do
    let s ← get
    trap 0x0A (irWord s)
  openPorts none [r]
  let s ← get
  let v := f (sysOld s n.toNat) (s.core.takeS r).1
  let ctx := s.core.csel.toNat
  modify fun s => s.writeReg n.toNat v
  finish [r]
  onlyIf (n.toNat == 0x12A) (modify fun s => s.ctxctl ctx v)

/-! ## The sys group (Table 16.7) -/

/-- sys.inv: illegal instruction (R26, R346). -/
def execSysInv (s : State) : Host.Outcome State Fault Refusal := run illegal s

/-- sys.nop: no effect (R346). -/
def execSysNop (s : State) : Host.Outcome State Fault Refusal := run retire s

/-- sys.brk: trap 0x12 with the immediate (R346, Table 16.6). -/
def execSysBrk (imm : BitVec 16) (s : State) : Host.Outcome State Fault Refusal := run (trap 0x12 (imm.setWidth 64)) s

/-- sys.trap: trap 0x13 with the immediate; tpc names the next instruction (R346, Table 16.6). -/
def execSysTrap (imm : BitVec 16) (s : State) : Host.Outcome State Fault Refusal :=
  run (endWith fun s => s.takeTrap s.cur 0x13 (s.core.pc + 4) (imm.setWidth 64)) s

/-- sys.eret: the return from a trap; illegal at level 0 (R348). -/
def execSysEret (s : State) : Host.Outcome State Fault Refusal :=
  run (do
    let c ← core
    if c.tlv = 0 then illegal else endWith fun s => s.trapReturn s.cur) s

/-- sys.get: a system register read (R346). -/
def execSysGet (r : SReg) (n : BitVec 10) (s : State) : Host.Outcome State Fault Refusal :=
  run (do
    checkNumber n.toNat
    openPorts (some r) []
    let s ← get
    finishS r [] (sysRead s n.toNat)) s

/-- sys.put: a system register written (R346). -/
def execSysPut (r : SReg) (n : BitVec 10) (s : State) : Host.Outcome State Fault Refusal :=
  run (putReg r n fun _ x => x) s

/-- sys.set: bits of a system register set (R346). -/
def execSysSet (r : SReg) (n : BitVec 10) (s : State) : Host.Outcome State Fault Refusal :=
  run (putReg r n fun old x => old ||| x) s

/-- sys.clr: bits of a system register cleared (R346). -/
def execSysClr (r : SReg) (n : BitVec 10) (s : State) : Host.Outcome State Fault Refusal :=
  run (putReg r n fun old x => old &&& ~~~ x) s

/-- sys.kill: the issuing context is killed with reason 5 (R349). -/
def execSysKill (imm : BitVec 16) (s : State) : Host.Outcome State Fault Refusal :=
  run (endWith fun s => s.kill s.ctxNo 5 imm.toNat) s

/-! ## The fences (R286) -/

/-- fence.full: the activation becomes irrevocable, and every earlier access is performed at the scope (R286). -/
def execFenceFull (scope : BitVec 2) (s : State) : Host.Outcome State Fault Refusal :=
  run (do
    becomeIrrevocable
    waitWhile fun s => s.core.outst != [] || chainPending s s.cur scope.toNat
    retire) s

/-- fence.acq: every earlier load, and the read of every earlier atomic, is performed (R286). -/
def execFenceAcq (_scope : BitVec 2) (s : State) : Host.Outcome State Fault Refusal :=
  run (do
    waitWhile fun s => s.core.outst != []
    retire) s

/-- fence.rel: a marker of the commit buffer, or a wait for every earlier access at the scope (R286). -/
def execFenceRel (scope : BitVec 2) (s : State) : Host.Outcome State Fault Refusal :=
  run (do
    waitWhile fun s => s.core.outst != []
    gate (.fenceRel scope.toNat)
    retire) s

/-- A copy or matrix command of a core has not ended; a channel stopped with err counts its commands as ended (R286). -/
def enginesBusy (x : Core) : Bool :=
  x.mx.queue != [] || x.cp.chans.toList.any (fun h => !h.err && h.cur.isSome) ||
    x.cp.queue.any fun k => !(x.cp.chans.toList.getD k.ch {}).err

/-- fence.eng: the activation becomes irrevocable, and every copy and matrix command that the core has kicked has ended,
with its writes performed at the scope (R286). -/
def execFenceEng (scope : BitVec 2) (s : State) : Host.Outcome State Fault Refusal :=
  run (do
    becomeIrrevocable
    waitWhile fun s => enginesBusy s.core || chainPending s s.cur scope.toNat
    retire) s

/-! ## Words that are no instruction (R26) -/

/-- UNDEFINED_ENCODING: the word traps with reserved opcode (0x02) or illegal instruction (0x01), and is the trap's value
(Table 1.9, R345). -/
def execUndefinedEncoding (w : BitVec 32) (s : State) : Host.Outcome State Fault Refusal :=
  run (do
    modCore fun c => { c with ir := w }
    trap (if reservedWord w then 0x02 else 0x01) (w.setWidth 64)) s

/-! ## The steps of register writes -/

/-- REGISTER_WRITE: a register without behaviour of its own takes its value under its access codes (R6, R346). -/
def execRegisterWrite (n : BitVec 10) (v : Word) (s : State) : Host.Outcome State Fault Refusal :=
  .next (if n = 0x062 ∨ n = 0x12A ∨ (loopBound n.toNat && s.core.lp.act) then s else s.writeReg n.toNat v)

/-- ROSTAT_SELECT: a rostat write with upd = 0 names the group (R243). -/
def execRostatSelect (v : Word) (s : State) : Host.Outcome State Fault Refusal := .next (s.rostatSelectTo v)

/-- ROSTAT_ARM: a rostat write with upd = 1 and arm = 1 arms the unit afresh (R243). -/
def execRostatArm (v : Word) (s : State) : Host.Outcome State Fault Refusal := .next (s.rostatArmTo v)

/-- ROSTAT_DISARM: a rostat write with upd = 1 and arm = 0 disarms the unit (R243). -/
def execRostatDisarm (v : Word) (s : State) : Host.Outcome State Fault Refusal := .next (s.rostatDisarmTo v)

/-- CTXCTL_PREEMPT: pre-emption of a running context (R336). -/
def execCtxctlPreempt (ctx : Nat) (s : State) : Host.Outcome State Fault Refusal := .next (s.preempt ctx)

/-- CTXCTL_RESUME: a pre-empted context resumes (R337). -/
def execCtxctlResume (ctx : Nat) (s : State) : Host.Outcome State Fault Refusal := .next (s.resume ctx)

/-- CTXCTL_KILL: a context is killed with reason 6 (R369). -/
def execCtxctlKill (ctx : Nat) (s : State) : Host.Outcome State Fault Refusal := .next (s.kill ctx 6 0)

end Sys2Proof.Machine
end

