-- ==== Sys2Proof/Machine/Matrix.lean ====
section
/-!
DEFINITION. The matrix engine (chapter 10): its arithmetic (R171 to R173), its operands and their checks, the mx group,
and the engine's own steps.
-/
namespace Sys2Proof.Machine

/-! ## Group sums (R171) -/

/-- floor(log2) of a nonzero finite product. -/
def FVal.topExp : FVal → Int
  | .fin _ m e => e + (Nat.log2 m : Int)
  | _ => 0

/-- The product truncated toward zero to a multiple of 2^k, in units of 2^k, and whether something was lost. -/
def truncTo (k : Int) (p : FVal) : Int × Bool :=
  match p with
  | .fin n m e =>
    if k ≤ e then (scaled n m e k, false)
    else
      let d := (k - e).toNat
      let q := m >>> d
      (if n then -(q : Int) else (q : Int), q <<< d != m)
  | _ => (0, false)

/-- The value is an infinity of a sign. -/
def FVal.isInf (p : FVal) (neg : Bool) : Bool := p == .inf neg

/-- A zero of a sign. -/
def zeroLane (neg : Bool) : Lane := if neg then 0x80000000 else 0

/-- The largest of a list of exponents, of which the first is given. -/
def maxExp (e : Int) (es : List Int) : Int := es.foldl max e

/-- The sum of a group's formed products with one rounding, and the flags it raises (R171); none for an empty group. -/
def groupSum (ps : List FVal) : Option (Lane × FFlags) :=
  if ps = [] then none
  else if ps.any FVal.isNan then some (0x7FC00000, 0)
  else
    let up := ps.any (FVal.isInf · false)
    let down := ps.any (FVal.isInf · true)
    if up && down then some (0x7FC00000, fNv)
    else if up then some (0x7F800000, 0)
    else if down then some (0xFF800000, 0)
    else
      let neg := ps.all FVal.neg
      match ps.filter fun p => !p.isZero with
      | [] => some (zeroLane neg, 0)
      | p :: rest =>
        let k := maxExp p.topExp (rest.map FVal.topExp) - 27
        let ts := (p :: rest).map (truncTo k)
        let t := (ts.map Prod.fst).sum
        let lost := FFlags.when (ts.any Prod.snd) fNx
        if t = 0 then some (zeroLane neg, lost)
        else
          let (w, fl) := fp32.round .rne (t < 0) t.natAbs k
          some (BitVec.ofNat 32 w, fl ||| lost)

/-- An accumulator element after one group; old where nothing is formed (R172, R173). An element to which an
uncorrectable byte contributed takes a free value (R226). The last part says so. -/
def accumulate (old free freeFlags : Lane) (ps : List (Option FVal × Option FVal)) : Lane × FFlags × Bool :=
  if ps.any fun p => p.1.isNone || p.2.isNone then (free, freeFlags.setWidth 5, true)
  else
    let prods := ps.map fun p => (p.1.getD (.nan false)).mul (p.2.getD (.nan false))
    let fl := unionFlags (prods.map Prod.snd)
    match groupSum (prods.map Prod.fst) with
    | none => (old, fl, false)
    | some (g, f2) =>
      let (x, f3) := fadd32 .rne old g
      (x, fl ||| f2 ||| f3, false)

/-- A tile after a multiplication: the products of each element by row and column, under a column mask (R214, R221). -/
def multiply (mask : BitVec 32) (old : Tile) (tick : Nat) (ps : Nat → Nat → List (Option FVal × Option FVal)) :
    Tile × FFlags × Bool :=
  let cells := Vector.ofFn fun (i : Fin 32) => Vector.ofFn fun (j : Fin 32) =>
    if mask.getLsbD j.val then
      accumulate old[i][j] (Config.freeLane tick (32 * i.val + j.val)) (Config.freeLane tick (1024 + 32 * i.val + j.val))
        (ps i.val j.val)
    else (old[i][j], (0 : FFlags), false)
  let all := cells.toList.flatMap Vector.toList
  (cells.map fun r => r.map Prod.fst, unionFlags (all.map fun x => x.2.1), all.any fun x => x.2.2)

/-! ## Operands (R204 to R208) -/

/-- The class of a format: bits of an element (Table 10.3). -/
def mxClass (fmt : Nat) : Option Nat :=
  match fmt with
  | 5 => some 8
  | 6 => some 8
  | 8 => some 8
  | 7 => some 4
  | 2 => some 16
  | 3 => some 16
  | _ => none

/-- Bits of an element. -/
def elemBits (fmt : Nat) : Nat := (mxClass fmt).getD 8

/-- The arithmetic format of an element. -/
def elemFmt (fmt : Nat) : Fmt :=
  match fmt with
  | 2 => fp16
  | 3 => bf16
  | 6 => e5m2
  | 7 => e2m1
  | _ => e4m3

/-- A blocked format other than LF8. -/
def blocked (fmt : Nat) : Bool := fmt == 5 || fmt == 6 || fmt == 7

/-- An item written to the configuration (Table 10.1). -/
def MxCfg.put (c : MxCfg) (item : Nat) (v : Word) : MxCfg :=
  match item with
  | 0 => { c with mfmt := v }
  | 1 => { c with apit := v.toNat }
  | 2 => { c with bpit := v.toNat }
  | 3 => { c with ascl := v }
  | 4 => { c with bscl := v }
  | _ => { c with kofs := v.toNat }

/-- The configuration that a command entering the queue meets (R222). -/
def Matrix.cfgAhead (m : Matrix) : MxCfg := m.queue.foldl (fun c k => match k.op with
  | .cfg i v => c.put i v
  | _ => c) m.cfg

/-- The column mask that a command entering the queue meets (R221). -/
def Matrix.maskAhead (m : Matrix) : BitVec 32 := m.queue.foldl (fun c k => match k.op with
  | .mask x => x
  | _ => c) m.mask

/-- An operand as its pointer and the configuration give it; isB: the B operand (R204). -/
def operandOf (c : MxCfg) (p : Word) (isB : Bool) : MxOperand :=
  let raw := fmtOf p == 0
  let pit := if isB then c.bpit else c.apit
  { fmt := if !raw then fmtOf p else if isB then fld c.mfmt 13 8 else fld c.mfmt 5 0,
    va := fld p 51 0,
    n := 2 ^ ((if !raw then fld p 57 54 else if isB then fld c.mfmt 23 20 else fld c.mfmt 19 16) + 4),
    p := if pit = 0 then 32 else pit,
    scl := fld (if isB then c.bscl else c.ascl) 51 0,
    kofs := c.kofs }

/-- The bytes of an operand, and of its scales, from element k0 to k1 of some rows or columns (R206, R207). -/
def operandRanges (o : MxOperand) (rows : List Nat) (k0 k1 : Nat) : List (Nat × Nat) :=
  rows.flatMap fun r =>
    let b := elemBits o.fmt
    let x := r * o.p + k0
    let first := x * b / 8
    let last := ((x + (k1 - k0 + 1)) * b + 7) / 8
    let s := (o.kofs + k0) / o.n
    (o.va + first, last - first) ::
      (if blocked o.fmt && o.scl != 0 then [(o.scl + r * (o.p / o.n) + s, (o.kofs + k1) / o.n - s + 1)] else [])

/-- The lines of byte ranges. -/
def rangeLines (rs : List (Nat × Nat)) : List Nat :=
  distinct (rs.flatMap fun r => (List.range ((r.1 % 64 + r.2 + 63) / 64)).map fun i => r.1 / 64 * 64 + 64 * i)

/-! ## Elements -/

/-- A value under its block's scale (R162). -/
def FVal.scale (v : FVal) (s : Nat) : FVal :=
  match v with
  | .nan g => .nan g
  | .inf n => if s = 255 then .nan false else .inf n
  | .fin n m e => if s = 255 then .nan false else .fin n m (e + s - 127)

/-- The bits of element x of an array at an address (R159, R206). -/
def rawElem (rd : Nat → Option Byte) (fmt va x : Nat) : Option Nat :=
  match elemBits fmt with
  | 4 => (rd (va + x / 2)).map fun b => (b.toNat >>> (4 * (x % 2))) % 16
  | 16 => (rd (va + 2 * x)).bind fun lo => (rd (va + 2 * x + 1)).map fun hi => lo.toNat + 256 * hi.toNat
  | _ => (rd (va + x)).map BitVec.toNat

/-- The scale of element k of row or column r (R207). -/
def scaleOf (rd : Nat → Option Byte) (o : MxOperand) (r k : Nat) : Option Nat :=
  if blocked o.fmt && o.scl != 0 then (rd (o.scl + r * (o.p / o.n) + (o.kofs + k) / o.n)).map BitVec.toNat else some 127

/-- The ones at a position of a stream of len bits, of at most n. -/
def leadingOnes (len : Nat) (get : Nat → Bool) : Nat → Nat → Nat
  | _, 0 => 0
  | pos, n + 1 => if decide (pos < len) && get pos then leadingOnes len get (pos + 1) n + 1 else 0

/-- One token of an LF8 stream of len bits: the exponent field, none where the token is malformed or does not end, and the
position behind what has been read (Table 8.5, R165). -/
def tokenAt (e0 len : Nat) (get : Nat → Bool) (pos : Nat) : Option Nat × Nat :=
  let k := leadingOnes len get pos 4
  let last := if k = 4 then pos + 8 else pos + k + 1
  let e := match k with
    | 0 => some e0
    | 1 => if e0 + 1 < 16 then some (e0 + 1) else none
    | 2 => if 1 ≤ e0 then some (e0 - 1) else none
    | 3 => if e0 + 2 < 16 then some (e0 + 2) else none
    | _ => some (flag (get (pos + 4)) 3 + flag (get (pos + 5)) 2 + flag (get (pos + 6)) 1 + flag (get (pos + 7)) 0)
  (if last ≤ len then e else none, min last len)

/-- The exponent fields of n elements, none for a malformed block, and the position behind what has been read (R165). -/
def tokensOf (e0 len : Nat) (get : Nat → Bool) : Nat → Nat → Option (List Nat) × Nat
  | 0, pos => (some [], pos)
  | n + 1, pos =>
    match tokenAt e0 len get pos with
    | (none, p) => (none, p)
    | (some e, p) => let (es, q) := tokensOf e0 len get n p; (es.map (e :: ·), q)

/-- The address behind the last byte that an LF8 operand at an address may cover (R208). -/
def lf8Limit (va : Nat) : Nat := if 0xE ≤ window va then va / lsSize * lsSize + lsSize else 2 ^ 52

/-- The bytes that an LF8 block of n elements covers with its padding, by its header (R163). -/
def lf8Used (n hdr : Nat) : Nat := (4 + n / 2 + bits hdr 31 12 + 3) / 4 * 4

/-- Element k of a row or column of an LF8 operand; none where a byte that is read for it is uncorrectable: its header, its nibble, or
the stream up to the last token (R163 to R165, R208). The header is the one in the operand buffer, at the place found at issue
(R125, log 93 DEDUCED). -/
def lf8Row (rd : Nat → Option Byte) (o : MxOperand) (h : Head) (k : Nat) : Option FVal :=
  match h with
  | .malformed => some (.nan false)
  | .unread => none
  | .at va =>
    let hb := (List.range 4).map fun j => rd (va + j)
    let hdr := ofBytes (hb.map fun b => b.getD 0)
    let len := bits hdr 31 12
    let stream := va + 4 + o.n / 2
    let byte := fun j => ((rd (stream + j)).getD 0).toNat
    let (es, last) := tokensOf (bits hdr 11 8) (8 * len) (fun j => bit (byte (j / 8)) (j % 8)) o.n 0
    if hb.any Option.isNone then none
    else if lf8Limit o.va < va + lf8Used o.n hdr then some (.nan false)
    else if (List.range ((last + 7) / 8)).any fun j => (rd (stream + j)).isNone then none
    else match es with
      | none => some (.nan false)
      | some es =>
        let x := o.kofs + k
        (rd (va + 4 + x / 2)).map fun b =>
          let nib := b.toNat >>> (4 * (x % 2)) % 16
          (e4m3.val (nib / 8 * 128 + es.getD x 0 * 8 + nib % 8)).scale (hdr % 256)

/-- Element k of row or column r of an operand, with its scale; none where a byte of it is uncorrectable. -/
def elemOf (rd : Nat → Option Byte) (o : MxOperand) (r k : Nat) : Option FVal :=
  if o.fmt = 8 then lf8Row rd o (o.heads.getD r .malformed) k
  else (rawElem rd o.fmt o.va (r * o.p + k)).bind fun x => (scaleOf rd o r k).map fun s => ((elemFmt o.fmt).val x).scale s

/-- Element (i, k) of a sparse record: the next packed value of its bitmap (R216). -/
def sparseElem (rd : Nat → Option Byte) (o : MxOperand) (bm vals i k : Nat) : Option FVal :=
  let rank := ((List.range (32 * i + k)).filter (bit bm)).length
  (rawElem rd o.fmt vals rank).bind fun x => (scaleOf rd o i k).map fun s => ((elemFmt o.fmt).val x).scale s

/-! ## The checks at issue (Table 10.4) -/

/-- The tile that an mx instruction of a sprinkle handler names (R225). -/
def nameTile (t : TReg) : M Unit := modCore fun c =>
  if c.trig.kind = 1 && !c.sprTiles.contains t then { c with sprTiles := c.sprTiles ++ [t] } else c

/-- The first pointer of a condition traps. -/
def firstFails (xs : List (Word × MxOperand)) (f : MxOperand → Bool) : M Unit :=
  match xs.find? fun x => f x.2 with
  | some x => trap 0x05 x.1
  | none => pure ()

/-- Check 1: the pointers (R63). -/
def checkPointers (ps : List Word) : M Unit :=
  match ps.find? badPtr with
  | some p => trap 0x05 p
  | none => pure ()

/-- Check 2: formats, classes, pitches and LF8 blocks; other: the class that the last operand must have, if one is
given. -/
def checkFormats (xs : List (Word × MxOperand)) (sparse : Bool) (other : Option Nat) : M Unit := do
  firstFails xs fun o => (mxClass o.fmt).isNone || (sparse && o.fmt == 8)
  firstFails (xs.drop (xs.length - 1)) fun o => other.isSome && mxClass o.fmt != other
  firstFails xs fun o => blocked o.fmt && o.p % o.n != 0
  firstFails xs fun o => o.fmt == 8 && o.n == 16
  firstFails xs fun o => o.fmt == 8 && decide (o.n < o.kofs + 32)

/-- Check 3: alignment (R206, R208). -/
def checkAlign (o : MxOperand) : M Unit :=
  let al := if o.fmt = 8 then 4 else 32 * elemBits o.fmt / 8
  trapIf (o.va % al != 0) 0x03 (word o.va)

/-- An address of a window must lie in the own local store, and any address in the address space (check 4). -/
def ownWindow (va : Nat) : M Unit := do
  let s ← get
  trapIf (decide (2 ^ 52 ≤ va) || (decide (0xE ≤ window va) && (ownOff s va).isNone)) 0x05 (word va)

/-- Check 5 for a line: its translation with rd permission, in HBM of a package or in the own local store. -/
def operandLine (va : Nat) : M (Nat × Place) := do
  let pl ← resolveFor true false va 64 .read
  match pl with
  | .mem pa => if window va < 0xE && rowOf pa != .hbm then trap 0x05 (word va) else pure (va, pl)
  | .chain _ _ _ => pure (va, pl)

/-- Check 5 for lines, in order. -/
def operandLines (vas : List Nat) : M (List (Nat × Place)) :=
  match vas with
  | [] => pure []
  | va :: rest => do
    let l ← operandLine va
    let ls ← operandLines rest
    pure (l :: ls)

/-- Checks 4 and 5 for the lines of byte ranges. -/
def checkLines (rs : List (Nat × Nat)) : M (List (Nat × Place)) := do
  let vas := rangeLines rs
  each vas ownWindow
  operandLines vas

/-- A byte of checked lines as the core sees it: its own held stores, then memory; none where it is uncorrectable. -/
def issueByte (s : State) (ls : List (Nat × Place)) (va : Nat) : Option Byte :=
  match ls.find? fun l => l.1 == va / 64 * 64 with
  | none => none
  | some (_, pl) =>
    match heldByte s.core.cbuf (pl.plus (va % 64)) with
    | some b => some b
    | none => match readPlace s s.cur s.ctxNo pl 64 with
      | .ok bs => bs[va % 64]?
      | _ => none

/-- Lines to be read at issue: a line that serves no read waits, and a refusing port raises protection (R377). What is read enters
the read signature of an ordered activation (R301). -/
def readable (ls : List (Nat × Place)) : M Unit := each ls fun l => do
  let s ← get
  match readPlace s s.cur s.ctxNo l.2 64 with
  | .wait => stall
  | .refused => trap 0x05 (word l.1)
  | _ => set (s.noteRead s.cur s.ctxNo l.2 false)

/-- The headers of the blocks of an LF8 operand from an address on, read in order, and the bytes that each of them covers
(R208); lim: the operand's limit. -/
def lf8Heads (n lim : Nat) : Nat → Nat → M (List Head × List (Nat × Nat))
  | 0, _ => pure ([], [])
  | r + 1, pos => do
    if lim < pos + 4 then pure (List.replicate (r + 1) .malformed, [])
    else do
      let ls ← checkLines [(pos, 4)]
      readable ls
      let s ← get
      let hb := (List.range 4).map fun i => issueByte s ls (pos + i)
      if hb.any Option.isNone then pure (List.replicate (r + 1) .unread, [(pos, 4)])
      else
        let hdr := ofBytes (hb.map fun b => b.getD 0)
        let used := lf8Used n hdr
        if lim < pos + used then pure (List.replicate (r + 1) .malformed, [(pos, 4)])
        else do
          let (hs, rs) ← lf8Heads n lim r (pos + used)
          pure (.at pos :: hs, (pos, used) :: rs)

/-- The bytes that an operand covers, with its headers read; then those of some of its rows or columns, which are the ones that
are fetched (R209, R214). -/
def operandBytes (o : MxOperand) (rows : List Nat) (k0 k1 : Nat) : M (MxOperand × List (Nat × Nat) × List (Nat × Nat)) := do
  if o.fmt = 8 then do
    let (hs, rs) ← lf8Heads o.n (lf8Limit o.va) 32 o.va
    pure ({ o with heads := hs }, rs, rows.filterMap fun r => rs[r]?)
  else pure (o, operandRanges o (List.range 32) k0 k1, operandRanges o rows k0 k1)

/-- The bytes that an operand is known to cover before any header is read. -/
def knownRanges (o : MxOperand) : List (Nat × Nat) := if o.fmt = 8 then [(o.va, 4)] else operandRanges o (List.range 32) 0 31

/-- Check 4 for the lines of byte ranges, which stands before check 5 of every operand (Table 10.4). -/
def checkWindows (rs : List (Nat × Nat)) : M Unit := each (rangeLines rs) ownWindow

/-- Checks 4 and 5 for every line that some byte ranges cover; the result is the lines of those that are fetched. -/
def checkFetched (all fetched : List (Nat × Nat)) : M (List (Nat × Place)) := do
  let ls ← checkLines all
  pure (ls.filter fun l => (rangeLines fetched).contains l.1)

/-! ## Entering the queue (R210) -/

/-- The commands of a queue that have not completed. -/
def mxWaiting (q : List MxCmd) : Nat := (q.filter fun k => match k.op with
  | .publish _ => false
  | .mark _ _ => false
  | _ => true).length

/-- The checks of an instruction that enters a command, made in the step in which it enters: where it must wait, in them or for room in
the queue, it makes them all again, and nothing of them stays but its requests to the slices. -/
def issued {α : Type} (m : M α) : M α := fun s =>
  match m s with
  | .ok (a, t) => if 2 ≤ mxWaiting t.core.mx.queue then .error (s.setCore { s.core with stalled := true }) else .ok (a, t)
  | .error t => .error (if waits t then (s.keepMisses t).setCore { s.core with stalled := true } else t)

/-- A command enters the queue, and the instruction retires; a full queue makes it wait. Its entry is a release of the
core's held stores to its lines: an atomic held there makes the activation irrevocable (R250). -/
def enterQueue (op : MxOp) (mask : BitVec 32) (lines : List (Nat × Place)) (dest : Option TReg) (la : BitVec 4)
    (srcs : List SReg) : M Unit := do
  let c ← core
  onlyIf (lines.any fun l => heldAtomic c.cbuf l.2) becomeIrrevocable
  let c ← core
  if 2 ≤ mxWaiting c.mx.queue then stall
  else do
    let id := c.mx.next
    let k : MxCmd := { id := id, op := op, la := la.toNat, mask := mask, lines := lines }
    modCore fun c => { c with mx := { c.mx with queue := c.mx.queue ++ [k], next := id + 1 } }
    let paged := (lines.filter fun l => window l.1 < 0xE).length
    modify fun s => { s with flight := s.flight ++ List.replicate paged (.tileFetchLine s.cur) ++ [.matrixCommandExecute s.cur] }
    modCore fun c => c.dequeue srcs
    match dest with
    | none => retire
    | some t => if la = 0 then retire else retireWith (.t t id) la

/-- The columns that a mask leaves. -/
def columnsOf (mask : BitVec 32) : List Nat := (List.range 32).filter mask.getLsbD

/-- The instruction waits until every earlier matrix command of the core has completed. -/
def mxDrained : M Unit := waitWhile fun s => s.core.mx.queue != []

/-- A tile's poison mark is delivered (R203). The mark holds no class and no address: a data mark is logged as class 0x21 with address 0
(log 95 DESIGN CHOICE). -/
def deliverMark (t : TReg) : M Unit := do
  let c ← core
  match (c.mx.tile t).mark with
  | .clean => pure ()
  | .data => endWith fun s => s.consume s.cur 0x21 0 (t.setWidth 64)
  | .access va => trap 0x05 (word va)
  | .sprinkle => trap 0x11 (t.setWidth 64)

/-! ## The mx group (Table 10.6a) -/

/-- The checks of mx.mma at issue, in order: its operands and the lines that they cover (Table 10.4). -/
def mmaChecks (wa wb : Word) : M (MxOperand × MxOperand × List (Nat × Place)) := do
  let c ← core
  checkPointers [wa, wb]
  let a := operandOf c.mx.cfgAhead wa false
  let b := operandOf c.mx.cfgAhead wb true
  checkFormats [(wa, a), (wb, b)] false (mxClass a.fmt)
  checkAlign a
  checkAlign b
  checkWindows (knownRanges a ++ knownRanges b)
  let (a, ba, _) ← operandBytes a (List.range 32) 0 31
  let (b, bb, fb) ← operandBytes b (columnsOf c.mx.maskAhead) 0 31
  let lines ← checkFetched (ba ++ bb) (ba ++ fb)
  pure (a, b, lines)

/-- mx.mma: A times B into a tile (R214). -/
def execMxMma (la : BitVec 4) (ra : TReg) (rb : SReg) (rc : SReg) (s : State) : Host.Outcome State Fault Refusal :=
  run (do
    nameTile ra
    openPorts none [rb, rc]
    let c ← core
    let (wa, c1) := c.takeS rb
    let (wb, _) := c1.takeS rc
    let (a, b, lines) ← issued (mmaChecks wa wb)
    enterQueue (.mma ra a b) c.mx.maskAhead lines (some ra) la [rb, rc]) s

/-- The runs of a sparse record's scale bytes, by row of the bitmap (R216). -/
def sparseScales (o : MxOperand) (bm : Nat) : List (Nat × Nat) :=
  (List.range 32).flatMap fun i =>
    match (List.range 32).filter fun k => bit bm (32 * i + k) with
    | [] => []
    | k :: ks => (operandRanges o [i] k (ks.getLastD k)).drop 1

/-- The checks of mx.mmas in the record form, A from a sparse record (R216): its command and lines. With an uncorrectable
byte in the bitmap or the length, every element of A is undefined, and the command marks its tile (R226). -/
def mmasRecord (ra : TReg) (wa wb : Word) : M (MxOp × List (Nat × Place)) := do
  let c ← core
  let cfg := c.mx.cfgAhead
  let mask := c.mx.maskAhead
  checkPointers [wa]
  let a := operandOf cfg wa false
  checkFormats [(wa, a)] true none
  trapIf (a.va % 64 != 0) 0x03 wa
  let heads ← checkLines [(a.va, 136)]
  readable heads
  let s ← get
  let bytes := (List.range 136).map fun i => issueByte s heads (a.va + i)
  let unread := bytes.any Option.isNone
  let bs := bytes.map fun b => b.getD 0
  let bm := ofBytes (bs.take 128)
  let n := ofBytes (bs.drop 128)
  let pop := ((List.range 1024).filter (bit bm)).length
  trapIf (!unread && n / 2 ^ 11 != 0) 0x05 wa
  trapIf (!unread && n != pop) 0x0B (word (n * 2 ^ 32 + pop))
  checkPointers [wb]
  let b := operandOf cfg wb true
  checkFormats [(wb, b)] false (mxClass a.fmt)
  checkAlign b
  let vals := a.va + 136
  let va := (vals, (n * elemBits a.fmt + 7) / 8) :: sparseScales a bm
  onlyIf (!unread) (checkWindows (va ++ knownRanges b))
  let (b, bb, fb) ← operandBytes b (columnsOf mask) 0 31
  if unread then do
    let lines ← checkFetched bb fb
    pure (.mma ra { a with fmt := 8, heads := List.replicate 32 .unread } b, lines)
  else do
    let lines ← checkFetched (va ++ bb) (va ++ fb)
    pure (.mmas ra bm vals a b, lines)

/-- The checks of mx.mmas in the element form, one element of A (R217): its command and lines. -/
def mmasElement (ra : TReg) (wa wb : Word) : M (MxOp × List (Nat × Place)) := do
  let c ← core
  let mask := c.mx.maskAhead
  trapIf (fld wa 62 42 != 0) 0x05 wa
  checkPointers [wb]
  let b := operandOf c.mx.cfgAhead wb true
  checkFormats [(wb, b)] false none
  checkAlign b
  let k := fld wa 36 32
  let (b, bb, fb) ← operandBytes b (columnsOf mask) k k
  let lines ← checkFetched bb fb
  pure (.elem ra (fld wa 41 37) k (wa.setWidth 32) b, lines)

/-- The checks of mx.mmas: the element form where bit 63 of rb is 1, else the record form. -/
def mmasChecks (ra : TReg) (wa wb : Word) : M (MxOp × List (Nat × Place)) :=
  if bit wa.toNat 63 then mmasElement ra wa wb else mmasRecord ra wa wb

/-- mx.mmas: the record form, or the element form where bit 63 of rb is 1 (R216, R217). -/
def execMxMmas (la : BitVec 4) (ra : TReg) (rb : SReg) (rc : SReg) (s : State) : Host.Outcome State Fault Refusal :=
  run (do
    nameTile ra
    openPorts none [rb, rc]
    let c ← core
    let (wa, c1) := c.takeS rb
    let (wb, _) := c1.takeS rc
    let (op, lines) ← issued (mmasChecks ra wa wb)
    enterQueue op c.mx.maskAhead lines (some ra) la [rb, rc]) s

/-- mx.zero: +0 into every element of a tile, and its mark cleared (R218). -/
def execMxZero (la : BitVec 4) (ra : TReg) (s : State) : Host.Outcome State Fault Refusal :=
  run (do
    nameTile ra
    enterQueue (.zero ra) 0 [] (some ra) la []) s

/-- mx.ldacc: a tile from 4,096 bytes of the own local store (R218). -/
def execMxLdacc (la : BitVec 4) (ra : TReg) (rb : SReg) (s : State) : Host.Outcome State Fault Refusal :=
  run (do
    nameTile ra
    openPorts none [rb]
    let c ← core
    let w := (c.takeS rb).1
    let s ← get
    trapIf (addrOf w % 64 != 0) 0x03 w
    match ownOff s (addrOf w) with
    | none => trap 0x05 w
    | some off => do
      trapIf (decide (lsSize < off + 4096)) 0x05 w
      let lines ← checkLines [(addrOf w, 4096)]
      enterQueue (.ldacc ra off) 0 lines (some ra) la [rb]) s

/-- The size in bytes and the format of a stored element (R219); FP32 has none, and is copied. -/
def staccFmt (n : Nat) : Option (Nat × Option Fmt) :=
  match n with
  | 0 => some (4, none)
  | 1 => some (4, none)
  | 2 => some (2, some fp16)
  | 3 => some (2, some bf16)
  | 5 => some (1, some e4m3)
  | 6 => some (1, some e5m2)
  | _ => none

/-- An element of a tile in a storage format, with the flags of the conversion (R219). FP32 is exact: the bits of a NaN are stored
as the tile holds them, and no flag is raised (log 100 DEDUCED). -/
def staccElem (size : Nat) (f : Option Fmt) (x : Lane) : List Byte × FFlags :=
  match f with
  | none => (toBytes size x.toNat, 0)
  | some f => let (w, fl) := f.conv .rne (f32 x); (toBytes size w, fl)

/-- The elements of a tile in row-major order. -/
def tileElems (t : Tile) : List Lane := t.toList.flatMap Vector.toList

/-- A destination line or part of one: the own local store or paged memory with w permission (R219). -/
def destPart (va size : Nat) : M Place := do
  ownWindow va
  resolve va size .write

/-- Destination parts in order: an address, its place, and the bytes to store. -/
def destParts (va size : Nat) (bs : List Byte) (ps : List (Nat × Nat)) : M (List (Nat × Place × List Byte)) :=
  match ps with
  | [] => pure []
  | p :: rest => do
    let pl ← destPart (va + p.1) size
    let more ← destParts va size bs rest
    pure ((va + p.1, pl, (bs.drop p.1).take p.2) :: more)

/-- A checked list of stores is gated as one group, each in ascending address. -/
def storeParts (xs : List (Nat × Place × List Byte)) : M Unit :=
  asGroup (each xs fun x => storeGated x.1 x.2.1 (numbered x.2.2) false)

/-- The parts of a range of bytes within lines: offset and length. -/
def partsOf (va n : Nat) : List (Nat × Nat) := if n = 0 then [] else lineParts (.mem va) n

/-- mx.stacc: a tile stored in a format (R219). -/
def execMxStacc (ra : TReg) (rb : SReg) (rc : SReg) (s : State) : Host.Outcome State Fault Refusal :=
  run (do
    nameTile ra
    openPorts none [rb, rc]
    let c ← core
    let (w, c1) := c.takeS rb
    let (f, _) := c1.takeS rc
    match (if f.toNat < 64 then staccFmt f.toNat else none) with
    | none => trap 0x05 f
    | some (size, fmt) => do
      let va := addrOf w
      let outs := (tileElems (c.mx.tile ra).t).map (staccElem size fmt)
      trapIf (va % 64 != 0) 0x03 (word va)
      let parts ← destParts va 64 (outs.flatMap Prod.fst) (partsOf va (1024 * size))
      mxDrained
      deliverMark ra
      storeParts parts
      modCore fun c => { c with fflags := c.fflags ||| unionFlags (outs.map Prod.snd) }
      finish [rb, rc]) s

/-- The bitmap bytes of a tile from byte b0 to b1: the bits of nonzero elements below e (R220). -/
def bitmapBytes (xs : List Lane) (b0 b1 e : Nat) : List Byte :=
  (List.range (b1 + 1 - b0)).map fun k => BitVec.ofNat 8 (((List.range 8).map fun j =>
    let i := 8 * (b0 + k) + j
    flag (decide (i < e) && (xs.getD i 0).setWidth 31 != 0) j).sum)

/-- mx.stsp: a tile stored as a bitmap and its packed nonzero elements, from vprog on (R220). -/
def execMxStsp (ra : TReg) (rb : SReg) (rc : SReg) (s : State) : Host.Outcome State Fault Refusal :=
  run (do
    nameTile ra
    openPorts none [rb, rc]
    let c ← core
    let (wb, c1) := c.takeS rb
    let (cur, _) := c1.takeS rc
    let bm := addrOf wb
    let va := addrOf cur
    let cap := min (fld cur 63 52) 1024
    trapIf (bm % 64 != 0) 0x03 (word bm)
    trapIf (va % 4 != 0) 0x03 (word va)
    let _ ← destParts bm 64 [] (partsOf bm 128)
    mxDrained
    deliverMark ra
    let xs := tileElems (c.mx.tile ra).t
    let e0 := c.vprog.toNat
    let nz := (List.range 1024).filter fun e => decide (e0 ≤ e) && (xs.getD e 0).setWidth 31 != 0
    let vals := nz.take cap
    let stop := (nz[cap]?).getD 1024
    let vparts ← destParts va 4 (vals.flatMap fun e => toBytes 4 (xs.getD e 0).toNat) (partsOf va (4 * vals.length))
    let b0 := e0 / 8
    let b1 := min (stop / 8) 127
    let bbytes := bitmapBytes xs b0 b1 stop
    let bparts ← destParts (bm + b0) 1 bbytes (partsOf (bm + b0) bbytes.length)
    storeParts (vparts ++ bparts)
    if stop < 1024 then do
      modCore fun c => { c with vprog := BitVec.ofNat 11 stop }
      trap 0x0C (word (va + 4 * vals.length))
    else do
      modCore fun c => { c with vprog := 0 }
      finish [rb, rc]) s

/-- The gang commands of a core's queue. -/
def gangsOf (x : Core) : List MxCmd := x.mx.queue.filter MxCmd.isGang

/-- The class of the leader's A operand for the next gang of a trailing core. -/
def gangClass (s : State) (c : Nat) : Option Nat :=
  let mine := (gangsOf (s.coreAt c)).length
  match (rowCores c).find? fun i => (s.coreAt i).trail.role == .leader with
  | none => none
  | some l => ((gangsOf (s.coreAt l))[mine]?).bind fun k => match k.op with
    | .gang _ (some a) _ => mxClass a.fmt
    | _ => none

/-- The checks of mx.gang at issue: its operands and lines. Only the leader has an A operand (R215). -/
def gangChecks (leads : Bool) (wa wb : Word) : M (Option MxOperand × MxOperand × List (Nat × Place)) := do
  let c ← core
  checkPointers (if leads then [wa, wb] else [wb])
  let a := operandOf c.mx.cfgAhead wa false
  let b := operandOf c.mx.cfgAhead wb true
  let s ← get
  checkFormats (if leads then [(wa, a), (wb, b)] else [(wb, b)]) false (if leads then mxClass a.fmt else gangClass s s.cur)
  onlyIf leads (checkAlign a)
  checkAlign b
  checkWindows ((if leads then knownRanges a else []) ++ knownRanges b)
  let (a, ba, _) ← if leads then operandBytes a (List.range 32) 0 31 else pure (a, [], [])
  let (b, bb, fb) ← operandBytes b (columnsOf c.mx.maskAhead) 0 31
  let lines ← checkFetched (ba ++ bb) (ba ++ fb)
  pure (if leads then some a else none, b, lines)

/-- mx.gang: the row's four engines as one array; A is the leader's (R215). -/
def execMxGang (la : BitVec 4) (ra : TReg) (rb : SReg) (rc : SReg) (s : State) : Host.Outcome State Fault Refusal :=
  run (do
    nameTile ra
    let c ← core
    if !c.inTrail then illegal
    else do
      let leads := c.trail.role == .leader
      let srcs := if leads then [rb, rc] else [rc]
      openPorts none srcs
      let c ← core
      let (wa, c1) := if leads then c.takeS rb else (0, c)
      let (wb, _) := c1.takeS rc
      let (a, b, lines) ← issued (gangChecks leads wa wb)
      enterQueue (.gang ra a b) c.mx.maskAhead lines (some ra) la srcs) s

/-- A value that an item of the configuration does not take (R222). -/
def badItem (item : Nat) (v : Word) : Bool :=
  match item with
  | 0 => v &&& ~~~ 0xFF3F3F#64 != 0
  | 3 => false
  | 4 => false
  | _ => decide (2 ^ 20 ≤ v.toNat) || v.toNat % 32 != 0

/-- mx.cfg: a configuration item, in queue order (R222). -/
def execMxCfg (ra : SReg) (rb : SReg) (s : State) : Host.Outcome State Fault Refusal :=
  run (do
    openPorts none [ra, rb]
    let c ← core
    let (item, c1) := c.takeS ra
    let (v, _) := c1.takeS rb
    trapIf (decide (5 < item.toNat)) 0x05 item
    trapIf (badItem item.toNat v) 0x05 v
    enterQueue (.cfg item.toNat v) 0 [] none 0 [ra, rb]) s

/-- A queued command writes a tile. -/
def writesTile (t : TReg) (k : MxCmd) : Bool :=
  match k.op with
  | .mma u _ _ => u == t
  | .mmas u _ _ _ _ => u == t
  | .elem u _ _ _ _ => u == t
  | .gang u _ _ => u == t
  | .zero u => u == t
  | .ldacc u _ => u == t
  | .publish _ => true
  | .mark ts _ => ts.contains t
  | _ => false

/-- The predicted mask: a column with some element above the threshold (R221). -/
def predictMask (t : Tile) (thr : Lane) : BitVec 32 :=
  BitVec.ofNat 32 (((List.finRange 32).map fun j =>
    flag ((List.finRange 32).any fun i => (f32 thr).lt (f32 t[i][j])) j.val).sum)

/-- mx.mask: the column mask, in queue order (R221). -/
def execMxMask (ra : TReg) (rb : SReg) (rc : SReg) (s : State) : Host.Outcome State Fault Refusal :=
  run (do
    nameTile ra
    openPorts none [rb, rc]
    let c ← core
    let (v, c1) := c.takeS rb
    let (mode, _) := c1.takeS rc
    match mode.toNat with
    | 0 => enterQueue (.mask 0xFFFFFFFF) 0 [] none 0 [rb, rc]
    | 1 => do
      waitWhile fun s => s.core.mx.queue.any (writesTile ra)
      deliverMark ra
      enterQueue (.mask (predictMask (c.mx.tile ra).t (v.setWidth 32))) 0 [] none 0 [rb, rc]
    | 2 => enterQueue (.mask (v.setWidth 32)) 0 [] none 0 [rb, rc]
    | _ => trap 0x05 mode) s

/-- mx.drain: every earlier matrix command of the core has completed (R223). -/
def execMxDrain (s : State) : Host.Outcome State Fault Refusal :=
  run (do
    mxDrained
    retire) s

/-! ## The engine's own steps -/

/-- The line of least address. -/
def leastLine (ls : List (Nat × Place)) : Option (Nat × Place) :=
  match ls with
  | [] => none
  | l :: rest => some (rest.foldl (fun m x => if x.1 < m.1 then x else m) l)

/-- A queued command changed, by its number. -/
def Core.onCmd (x : Core) (id : Nat) (f : MxCmd → MxCmd) : Core :=
  { x with mx := { x.mx with queue := x.mx.queue.map fun k => if k.id = id ∧ k.lines ≠ [] then f k else k } }

/-- The tile that a command writes. -/
def MxOp.tile : MxOp → Option TReg
  | .mma t _ _ => some t
  | .mmas t _ _ _ _ => some t
  | .elem t _ _ _ _ => some t
  | .gang t _ _ => some t
  | .zero t => some t
  | .ldacc t _ => some t
  | _ => none

/-- A command whose line fails at resume is dropped, and in its turn its tile takes the access mark; a gang command goes on to meet
those of the other cores of the row, which are dropped with it (Table 10.6, R215). -/
def State.dropCmd (s : State) (c : Nat) (k : MxCmd) (va : Nat) : State :=
  (((s.unpin k.pins).onCore c fun x => x.onCmd k.id fun q =>
    { q with op := if q.isGang then q.op else .mark q.op.tile.toList (.access va),
             failed := if q.isGang then some va else none, lines := [], got := [], pinned := [] }).leavePins c).launch
    (.matrixCommandExecute c)

/-- The line that a fetch of a place by a core pins: in the own package's HBM, a chain line at the link that serves it (R106,
R127). -/
def pinLine (s : State) (c : Nat) (pl : Place) : Option Nat :=
  let pa := servedPa s c pl
  if ownHbm s pa then some (lineOf pa) else none

/-- A line's slice has no room for one more pin: its count is 255, or it has no entry and the table of 128 is full, or eleven of
the twelve ways of its set are pinned (R127). -/
def pinFull (s : State) (l : Nat) : Bool :=
  let mine := s.tpins.filter fun e => hbmDieOf e.1 == hbmDieOf l && homeSlice e.1 == homeSlice l
  if Tbl.has s.tpins l then decide (255 ≤ Tbl.getD s.tpins l 0)
  else decide (128 ≤ mine.length) || decide (11 ≤ (mine.filter fun e => sameL2Set e.1 l).length)

/-- The line that the tile fetch unit of a core reads next: its command, its address and its place. -/
def nextFetch (s : State) (c : Nat) : Option (MxCmd × Nat × Place) :=
  ((s.coreAt c).mx.queue.find? fun k => unfetched k != [] && !k.waits).bind fun k => (leastLine (unfetched k)).map fun l => (k, l)

/-- A line with one more pin. -/
def State.pin (s : State) (l : Nat) : State := { s with tpins := Tbl.put s.tpins l (Tbl.getD s.tpins l 0 + 1) }

/-- A fetch still waits for its pin: the core's next line is the one for which it came. -/
def stillQueued (s : State) (w : Nat × Nat) : Bool := (nextFetch s w.1).any fun f => pinLine s w.1 f.2.2 == some w.2

/-- A core's fetch of a line has no room for its pin while those that wait before it are served first (R127). -/
def pinWaits (s : State) (c l : Nat) : Bool :=
  let before := (s.pinq.takeWhile (· != (c, l))).filter fun w => w.1 != c && stillQueued s w
  pinFull (before.foldl (fun s w => if pinFull s w.2 then s else s.pin w.2) s) l

/-- A line is read whole at its slice, with the core's held stores over it, and pinned; a line that serves no read waits, and one
for which the slice has no room for a pin waits in its turn (R125, R127). -/
def State.fetchAt (s : State) (c : Nat) (k : MxCmd) (va : Nat) (pl : Place) : State :=
  let ctx := (s.coreAt c).ctx.getD 0
  let pin := pinLine s c pl
  let others := s.pinq.filter fun w => w.1 != c
  let keep := s.pinq.filter fun w => w.1 != c || some w.2 == pin
  if pin.any (pinWaits s c) then
    { s with pinq := pin.elim keep fun l => if keep.contains (c, l) then keep else keep ++ [(c, l)] }.launch (.tileFetchLine c)
  else match readPlace s c ctx pl 64 with
  | .wait => s.launch (.tileFetchLine c)
  | g =>
    let s := { s with pinq := others }
    let bs := match g with
      | .ok bs => bs.mapIdx fun i b => (heldByte (s.coreAt c).cbuf (pl.plus i)).getD b
      | _ => []
    let s := s.noteRead c ctx pl false
    let s := pin.elim s s.pin
    s.onCore c fun x => x.onCmd k.id fun k => { k with got := k.got ++ [(va, bs)], pinned := k.pinned ++ pin.toList }

/-- The tile fetch unit of a core reads the next line of its first command with lines to read. A command that refetches
after a pre-emption translates the line afresh: a not-present page holds it, and any other failure drops it (R226,
Table 10.6). -/
def State.fetchTileLine (s : State) (c : Nat) : State :=
  match nextFetch s c with
  | none => s
  | some (k, va, pl) =>
    let ctx := (s.coreAt c).ctx.getD 0
    if !k.refetch then s.fetchAt c k va pl
    else if missWaits s c ctx va then (s.enterMiss c ctx va .engRead).launch (.tileFetchLine c)
    else match checkPaged s c ctx va .engRead true with
    | (.ok pl, s) =>
      (s.onCore c fun x => x.onCmd k.id fun q => { q with lines := q.lines.map fun l => if l.1 = va then (va, pl) else l }).fetchAt c k va pl
    | (.absent, s) =>
      ((s.faultRecord c ctx va .engRead false).leavePins c).onCore c fun x => x.onCmd k.id fun k => { k with waits := true }
    | (.poisoned cls, s) => (s.logCore ctx cls 0 c va 0).dropCmd c k va
    | (_, s) => s.dropCmd c k va

/-- A byte of a command's operands: from the own local store with the core's held stores, or from a fetched line. -/
def mxByte (s : State) (c : Nat) (k : MxCmd) (va : Nat) : Option Byte :=
  if 0xE ≤ window va then
    let pa := lsPa s c (va % lsSize)
    match heldByte (s.coreAt c).cbuf (.mem pa) with
    | some b => some b
    | none => if poisoned s pa then none else some (s.mem.read pa)
  else match k.got.find? fun g => g.1 == va / 64 * 64 with
    | some g => g.2[va % 64]?
    | none => none

/-- The engine of a core before a tile is written: a revocable activation takes its shadow first (R202, R224). -/
def Core.shadowed (x : Core) (t : TReg) : Matrix :=
  let m := x.mx
  if x.rev && x.trig.kind != 1 && !m.shadows.any (fun e => e.1 == t) then { m with shadows := m.shadows ++ [(t, m.tile t)] } else m

/-- A tile result: it takes effect at once, or when its window has ended (R202, R210). Its flags are set at completion (R212). -/
def Core.tileResult (x : Core) (k : MxCmd) (t : TReg) (v : MTile) (fl : FFlags) : Core :=
  let m := x.shadowed t
  let m := if k.la = 0 then m.setTile t v else { m with held := m.held ++ [(k.id, t, v)] }
  { x with mx := m, fflags := x.fflags ||| fl }

/-- Some element of an operand that a command reads has an uncorrectable byte (R203). -/
def unreadIn (e : Nat → Nat → Option FVal) (rows ks : List Nat) : Bool := rows.any fun r => ks.any fun k => (e r k).isNone

/-- A multiplication completes: the mark stays, or becomes data where a byte that was read is uncorrectable (R203). -/
def State.product (s : State) (c : Nat) (k : MxCmd) (t : TReg) (bad : Bool) (ps : Nat → Nat → List (Option FVal × Option FVal)) :
    State :=
  let old := (s.coreAt c).mx.tile t
  let (x, fl, undef) := multiply k.mask old.t s.tick ps
  s.onCore c fun y => y.tileResult k t ⟨x, if bad || undef then .data else old.mark⟩ fl

/-- A dense multiplication reads an uncorrectable byte: in A, or in a column of B that the mask leaves. -/
def denseBad (mask : BitVec 32) (a b : Nat → Nat → Option FVal) : Bool :=
  unreadIn a (List.range 32) (List.range 32) || unreadIn b (columnsOf mask) (List.range 32)

/-- The 32 products of an element of a dense multiplication. -/
def densePairs (a b : Nat → Nat → Option FVal) (i j : Nat) : List (Option FVal × Option FVal) :=
  (List.range 32).map fun k => (a i k, b j k)

/-- The lines of the own local store that a command reads enter the read signature of an ordered activation (R209, R301). -/
def State.noteOwn (s : State) (c : Nat) (k : MxCmd) : State :=
  (k.lines.filter fun l => decide (0xE ≤ window l.1)).foldl (fun s l => s.noteSig c l.2) s

/-- A command of one core completes (R214 to R222). -/
def State.mxRun (s : State) (c : Nat) (k : MxCmd) : State :=
  let rd := mxByte s c k
  let s := s.noteOwn c k
  match k.op with
  | .mma t a b => s.product c k t (denseBad k.mask (elemOf rd a) (elemOf rd b)) (densePairs (elemOf rd a) (elemOf rd b))
  | .mmas t bm vals a b =>
    let set := fun i => (List.range 32).filter fun q => bit bm (32 * i + q)
    let bad := ((List.range 32).any fun i => unreadIn (sparseElem rd a bm vals) [i] (set i)) ||
      unreadIn (elemOf rd b) (columnsOf k.mask) (List.range 32)
    s.product c k t bad fun i j => (set i).map fun q => (sparseElem rd a bm vals i q, elemOf rd b j q)
  | .elem t i q v b => s.product c k t (unreadIn (elemOf rd b) (columnsOf k.mask) [q]) fun i' j =>
      if i' = i then [(some (f32 v), elemOf rd b j q)] else []
  | .gang _ _ _ => s
  | .zero t => s.onCore c fun x => x.tileResult k t {} 0
  | .ldacc t off =>
    let byte := fun a => rd (0xE * 2 ^ 48 + off + a)
    let elems : Tile := Vector.ofFn fun i => Vector.ofFn fun j =>
      let bs := (List.range 4).map fun q => byte (128 * i.val + 4 * j.val + q)
      if bs.any Option.isNone then Config.freeLane s.tick (32 * i.val + j.val)
      else BitVec.ofNat 32 (ofBytes (bs.map fun b => b.getD 0))
    let bad := (List.range 4096).any fun a => (byte a).isNone
    s.onCore c fun x => x.tileResult k t ⟨elems, if bad then .data else .clean⟩ 0
  | .cfg i v => s.onCore c fun x => { x with mx := { x.mx with cfg := x.mx.cfg.put i v } }
  | .mask m => s.onCore c fun x => { x with mx := { x.mx with mask := m } }
  | .publish id => s.onCore c fun x => { x with mx := x.mx.publish id }
  | .mark ts m => s.onCore c fun x =>
      let y := ts.foldl (fun y t => { x with mx := y }.shadowed t) x.mx
      { x with mx := ts.foldl (fun y t => y.setMark t m) y }

/-- The queue after its first command has completed: results whose windows have ended follow at once. -/
def Matrix.after (m : Matrix) (q : List MxCmd) : Matrix :=
  match q with
  | [] => { m with queue := [] }
  | k :: rest => match k.op with
    | .publish id => Matrix.after (m.publish id) rest
    | _ => { m with queue := k :: rest }

/-- The engine goes on with its queue. -/
def State.mxKick (s : State) (c : Nat) : State :=
  if (s.coreAt c).mx.queue = [] then s else s.launch (.matrixCommandExecute c)

/-- The first command of a core's queue has completed: its pins are released (R127). -/
def State.mxDone (s : State) (c : Nat) (k : MxCmd) : State :=
  ((s.unpin k.pins).onCore c fun x => { x with mx := x.mx.after (x.mx.queue.drop 1) }).mxKick c

/-- The first command of a core's queue is a gang command with its lines read. -/
def gangHead (x : Core) : Option MxCmd :=
  match x.mx.queue with
  | k :: _ => match k.op with
    | .gang _ _ _ => if unfetched k = [] then some k else none
    | _ => none
  | [] => none

/-- The four gang commands of a row stand first in their queues. -/
def gangReady (s : State) (c : Nat) : Bool := (rowCores c).all fun i => (gangHead (s.coreAt i)).isSome

/-- The leader's A operand of the row's gang, read by the leader. -/
def gangA (s : State) (c : Nat) : Nat → Nat → Option FVal := fun i k =>
  (rowCores c).findSome? (fun n => (gangHead (s.coreAt n)).bind fun q => match q.op with
    | .gang _ (some a) _ => some (elemOf (mxByte s n q) a i k)
    | _ => none) |>.getD none

/-- A refetch of one of the row's gang commands has failed: the operation is dropped (Table 10.6). -/
def gangFailed (s : State) (c : Nat) : Bool := (rowCores c).any fun i => (gangHead (s.coreAt i)).any fun k => k.failed.isSome

/-- The gang operation of a row: each core's tile receives its own product (R215). Where a core's refetch has failed, its tile takes the
access mark, and the operation is dropped in every core (Table 10.6). -/
def State.gang (s : State) (c : Nat) : State :=
  if gangReady s c then
    let a := gangA s c
    let dropped := gangFailed s c
    (rowCores c).foldl (fun s n => match gangHead (s.coreAt n) with
      | some k => match k.op with
        | .gang t _ b =>
          let b := elemOf (mxByte s n k) b
          let s := match dropped, k.failed with
            | false, _ => s.product n k t (denseBad k.mask a b) (densePairs a b)
            | true, some va => s.mxRun n { k with op := .mark [t] (.access va) }
            | true, none => s
          s.mxDone n k
        | _ => s
      | none => s) s
  else s

/-- The engine of a core completes the first command of its queue, once its lines are read; a gang starts when the row's
four commands stand first (R210, R215). -/
def State.mxStep (s : State) (c : Nat) : State :=
  match (s.coreAt c).mx.queue with
  | [] => s
  | k :: _ =>
    if unfetched k ≠ [] then (if k.waits then s else s.launch (.matrixCommandExecute c))
    else match k.op with
    | .gang _ _ _ => if gangReady s c then s.launch (.gangStart c) else s
    | _ => (s.mxRun c k).mxDone c k

/-- TILE_FETCH_LINE: the tile fetch unit of a core reads one line (R125). -/
def execTileFetchLine (c : Nat) (s : State) : Host.Outcome State Fault Refusal := .next (s.fetchTileLine c)

/-- MATRIX_COMMAND_EXECUTE: the engine of a core completes a command (R210). -/
def execMatrixCommandExecute (c : Nat) (s : State) : Host.Outcome State Fault Refusal := .next (s.mxStep c)

/-- GANG_START: the row of a core performs its gang operation (R215). -/
def execGangStart (c : Nat) (s : State) : Host.Outcome State Fault Refusal := .next (s.gang c)

end Sys2Proof.Machine
end

