-- ==== Sys2Proof/Machine/Copy.lean ====
section
/-!
DEFINITION. The copy engine (R141 to R154): the checks at issue, the cp group, and the beats of a channel.
-/
namespace Sys2Proof.Machine

/-! ## The control word and its checks (R144, R149) -/

/-- A copy command from its control word (Table 7.1). -/
def commandOf (op : Nat) (w : Word) : CopyCmd :=
  { op := op, ch := fld w 31 30, len := fld w 23 0, mbe := bit w.toNat 36, ntf := bit w.toNat 35,
    mcore := fld w 63 52, moff := fld w 51 37, ntag := fld w 29 24 }

/-- A control word that the issue checks refuse: a reserved bit, ntf without mbe, or a mailbox core in no group. -/
def badControl (s : State) (w : Word) : Bool :=
  fld w 34 32 != 0 || (bit w.toNat 35 && !bit w.toNat 36) || (bit w.toNat 36 && !inAnyGroup s s.ctxNo (fld w 63 52))

/-- Every own-side row of a command lies within the local store (R149, R150), a row of no bytes too (log 33 DEDUCED). -/
def rowsFit (k : CopyCmd) : Bool :=
  (List.range k.rows).all fun j =>
    let a := (k.own : Int) + j * k.ostr
    decide (0 ≤ a) && decide (a + k.len ≤ lsSize)

/-- The own-side offset of an address (R59). -/
def ownSide (va : Nat) : M Nat := do
  let s ← get
  match ownOff s va with
  | some off => pure off
  | none => trap 0x05 (word va)

/-- The bytes of a core's held stores, youngest first, with their places: what a get kicked at issue reads of them (R145). A held
atomic that returns nothing is no store: the get does not see it (log 87 DEDUCED). -/
def heldStores (x : Core) : List (Place × Nat × Byte) := x.cbuf.reverse.flatMap fun g => match g with
  | .store pl _ bs _ _ => bs.map fun b => (pl, b.1, b.2)
  | _ => []

/-- A command leaves its instruction: a get is kicked at issue, every other command is gated (Table 7.2). -/
def issueCopy (k : CopyCmd) (srcs : List SReg) : M Unit := do
  let s ← get
  let k := { k with ctx := s.ctxNo, act := s.core.seq.toNat }
  if (k.op == 0 || k.op == 2) && s.core.rev then do
    match s.kick s.cur { k with fwd := heldStores s.core } with
    | some t => set t
    | none => stall
  else gate (.copy k)
  finish srcs

/-- cp.get, cp.put and cp.nzpk: the checks that they share, and the command with its own side (R149). The low 18 bits and the length are
checked before the window (log 33 DEDUCED). -/
def plainCopy (op align : Nat) (ra rb rc : SReg) (far : Word → M Word) : M Unit := do
  openPorts none [ra, rb, rc]
  let c ← core
  let (a, c1) := c.takeS ra
  let (b, c2) := c1.takeS rb
  let (w, _) := c2.takeS rc
  let s ← get
  trapIf (badControl s w) 0x05 w
  let k := commandOf op w
  trapIf (decide (lsSize < addrOf a % lsSize + k.len)) 0x05 w
  let own ← ownSide (addrOf a)
  trapIf (addrOf a % align != 0 || k.len % align != 0) 0x03 (word (addrOf a))
  let f ← far b
  issueCopy { k with own := own, far := f.toNat } [ra, rb, rc]

/-- cp.get2d and cp.put2d: the descriptor, then the checks of its control word (R150). The window is checked before the rows (log 33
DEDUCED). -/
def copy2d (op : Nat) (ra rb rc : SReg) : M Unit := do
  openPorts none [ra, rb, rc]
  let c ← core
  let (a, c1) := c.takeS ra
  let (b, c2) := c1.takeS rb
  let (d, _) := c2.takeS rc
  let doff ← ownSide (addrOf d)
  trapIf (addrOf d % 32 != 0) 0x03 (word (addrOf d))
  let bs ← ownBytes (addrOf d) doff 32
  let f := fun i => word (ofBytes ((bs.drop (8 * i)).take 8))
  trapIf (decide (2 ^ 16 ≤ (f 1).toNat)) 0x05 (word (addrOf d))
  let s ← get
  trapIf (badControl s (f 0)) 0x05 (f 0)
  let own ← ownSide (addrOf a)
  let k := { commandOf op (f 0) with own := own, far := addrOf b, rows := (f 1).toNat, ostr := (f 2).toInt, fstr := (f 3).toInt }
  trapIf (!rowsFit k) 0x05 (f 0)
  issueCopy k [ra, rb, rc]

/-! ## The cp group (Table 7.5) -/

/-- cp.get: bytes copied into the own local store (R150). -/
def execCpGet (ra : SReg) (rb : SReg) (rc : SReg) (s : State) : Host.Outcome State Fault Refusal :=
  run (plainCopy 0 1 ra rb rc fun b => pure (word (addrOf b))) s

/-- cp.put: bytes copied from the own local store (R150). -/
def execCpPut (ra : SReg) (rb : SReg) (rc : SReg) (s : State) : Host.Outcome State Fault Refusal :=
  run (plainCopy 1 1 ra rb rc fun b => pure (word (addrOf b))) s

/-- cp.get2d: rows copied into the own local store (R150). -/
def execCpGet2d (ra : SReg) (rb : SReg) (rc : SReg) (s : State) : Host.Outcome State Fault Refusal := run (copy2d 2 ra rb rc) s

/-- cp.put2d: rows copied from the own local store (R150). -/
def execCpPut2d (ra : SReg) (rb : SReg) (rc : SReg) (s : State) : Host.Outcome State Fault Refusal := run (copy2d 3 ra rb rc) s

/-- cp.fill: a pattern written over a range (R151). -/
def execCpFill (ra : SReg) (rb : SReg) (rc : SReg) (s : State) : Host.Outcome State Fault Refusal :=
  run (do
    openPorts none [ra, rb, rc]
    let c ← core
    let (a, c1) := c.takeS ra
    let (b, c2) := c1.takeS rb
    let (w, _) := c2.takeS rc
    let s ← get
    trapIf (badControl s w) 0x05 w
    let k := commandOf 4 w
    trapIf (addrOf a % 8 != 0 || k.len % 8 != 0) 0x03 (word (addrOf a))
    issueCopy { k with far := addrOf a, pat := b } [ra, rb, rc]) s

/-- cp.nzpk: a sprinkle for each nonzero lane of a range (R152). -/
def execCpNzpk (ra : SReg) (rb : SReg) (rc : SReg) (s : State) : Host.Outcome State Fault Refusal :=
  run (plainCopy 5 64 ra rb rc fun b => do
    let s ← get
    trapIf (fld b 63 34 != 0 || !inAnyGroup s s.ctxNo (fld b 11 0)) 0x05 b
    pure b) s

/-- The status word of a channel (Table 7.4). -/
def chanStatus (x : Core) (ch : Nat) : Word :=
  let h := x.cp.chans.toList.getD ch {}
  word (flag h.err 63 + flag h.cur.isSome 62 + min 3 (x.cp.queue.filter fun k => k.ch == ch).length * 2 ^ 60 + h.last % 256)

/-- cp.wptr: one item of a channel (R153). -/
def execCpWptr (la : BitVec 4) (ra : SReg) (rb : SReg) (s : State) : Host.Outcome State Fault Refusal :=
  run (do
    openPorts (some ra) [rb]
    let c ← core
    let w := (c.takeS rb).1
    let h := c.cp.chans.toList.getD (fld w 1 0) {}
    let v := match fld w 3 2 with
      | 0 => h.wptr
      | 1 => h.icnt
      | 2 => chanStatus c (fld w 1 0)
      | _ => h.fva
    finishL ra la [rb] v) s

/-! ## The beats (R141 to R148) -/

/-- The commands at the head of the queue whose channels are free start (R141). -/
def admitted (q : List CopyCmd) (e : CopyEngine) : CopyEngine × List Nat :=
  match q with
  | [] => ({ e with queue := [] }, [])
  | k :: rest =>
    if (e.chans.toList.getD k.ch {}).cur.isSome then ({ e with queue := k :: rest }, [])
    else
      let e := { e with chans := Vector.ofFn fun i =>
        if i.val = k.ch then { e.chans[i] with cur := some k, ctx := k.ctx } else e.chans[i] }
      let (e, cs) := admitted rest e
      (e, k.ch :: cs)

/-- The engine of a core takes commands from its queue. -/
def State.startNext (s : State) (c : Nat) : State :=
  let (e, cs) := admitted (s.coreAt c).cp.queue (s.coreAt c).cp
  let s := s.onCore c fun x => { x with cp := e }
  cs.foldl (fun s ch => s.launch (.copyBeat c ch)) s

/-- The running command of a channel ends with a status, and the engine goes on (R147). -/
def State.endCopy (s : State) (c : Nat) (k : CopyCmd) (status : Nat) : State :=
  let s := s.onCore c fun x => x.onChan k.ch fun h => { h with cur := none, held := false }
  (s.copyStatus c k status).startNext c

/-- The queued commands of a channel end with status 2, in order. -/
def State.endQueued (s : State) (c ch : Nat) : State :=
  let ks := (s.coreAt c).cp.queue.filter fun k => k.ch == ch
  let s := s.onCore c fun x => { x with cp := { x.cp with queue := x.cp.queue.filter fun k => k.ch != ch } }
  ks.foldl (fun s k => s.copyStatus c k 2) s

/-- A channel stops on an access fault: status 3, the address, and status 2 for its later commands (R148). -/
def State.faultCopy (s : State) (c : Nat) (k : CopyCmd) (va : Nat) : State :=
  let s := s.onCore c fun x => x.onChan k.ch fun h => { h with cur := none, held := false, err := true, fva := word va }
  ((s.copyStatus c k 3).endQueued c k.ch).startNext c

/-- A command of a channel is cancelled. -/
def CopyCmd.stop (k : CopyCmd) (ch : Nat) : CopyCmd := if k.ch = ch then { k with cancelled := true } else k

/-- The running and queued commands of a channel end with status 2 from its next beat boundary on (R154). -/
def Core.stopChan (x : Core) (ch : Nat) : Core :=
  let x := x.onChan ch fun h => { h with cur := h.cur.map fun k => k.stop ch }
  { x with cp := { x.cp with queue := x.cp.queue.map fun k => k.stop ch } }

/-- A beat of a channel is on its way. -/
def midBeat (x : Core) (ch : Nat) : Bool := ((x.cp.chans.toList.getD ch {}).cur.map CopyCmd.sent).getD 0 != 0

/-- cp.cancel on one channel (R154). -/
def State.cancelChan (s : State) (c ch : Nat) : State :=
  let s := match ((s.coreAt c).cp.chans.toList.getD ch {}).cur with
    | some k => (s.onCore c fun x => x.onChan ch fun h => { h with cur := none }).copyStatus c k 2
    | none => s
  let s := s.endQueued c ch
  (s.onCore c fun x => x.onChan ch fun h => { h with icnt := h.wptr, err := false, fva := 0, held := false }).startNext c

/-- What the translation of an engine's access finds. -/
inductive Reach where
  | ok (pl : Place)
  | absent
  | fault
  /-- A page-table entry whose reading fails, with the class. -/
  | table (cls : Nat)
  /-- The translation is a miss that waits at its slice (R85). -/
  | miss
  deriving DecidableEq, Repr

/-- The place of an address for a channel's beat, under the core's cid (R148). -/
def reach (s : State) (c ctx : Nat) (va : Int) (acc : Acc) : Reach × State :=
  if va < 0 ∨ 2 ^ 52 ≤ va then (.fault, s)
  else
    let va := va.toNat
    if 0xE ≤ window va then
      match checkWindow s c ctx va with
      | .ok pl => (.ok pl, s)
      | _ => (.fault, s)
    else if missWaits s c ctx va then (.miss, s.enterMiss c ctx va acc)
    else match checkPaged s c ctx va acc true with
      | (.ok pl, s) => (.ok pl, s)
      | (.absent, s) => (.absent, s)
      | (.poisoned cls, s) => (.table cls, s)
      | (_, s) => (.fault, s)

/-- A port that refuses requests stands before a place (R377); a chain store is refused at its link. -/
def refusedAt (s : State) (pl : Place) : Bool :=
  match pl with
  | .mem pa => refuses s (paPkg pa)
  | .chain _ _ _ => false

/-- A beat needs a chain that is lost: it consumes uncorrectable data, with class 0x24 (R101, Table 5.8). -/
def State.lostBeat (s : State) (c ctx : Nat) (va : Nat) (pl : Place) : State :=
  (chainLost s pl).elim s fun ch => s.logCore ctx 0x24 0 c va ch

/-- The line of a written place takes poison (R138). -/
def State.spoil (s : State) (ctx : Nat) (pl : Place) : State :=
  match pl with
  | .mem pa => { s with poison := s.poison ++ [(lineOf (lsRedirect s ctx pa), false)] }
  | .chain _ _ _ => s

/-- Source bytes of a beat: the bytes, with the class and the address of the first that were uncorrectable; a line that serves
no read yet; or a fault. -/
inductive Source where
  | ok (bs : List Byte) (bad : Option (Nat × Nat))
  | wait
  | absent (va : Nat)
  | fault (va : Nat)
  /-- A page-table entry whose reading fails, with the class. -/
  | table (va cls : Nat)
  deriving DecidableEq, Repr

/-- What the activation of a number still holds in a core's commit buffer, running or waiting to commit (R296). -/
def heldBy (x : Core) (act : Nat) : List Gated :=
  if x.seq.toNat = act then x.cbuf
  else match x.word with
    | some w => if w.seq = act then w.cbuf else []
    | none => []

/-- The bytes of the command's activation that are still held, over a line read for it (R145). -/
def overlay (x : Core) (k : CopyCmd) (pl : Place) (bs : List Byte) : List Byte :=
  bs.mapIdx fun i b =>
    let p := pl.plus i
    let live := (heldBy x k.act).any fun g => match g with
      | .store l _ _ _ _ => l == p.line
      | _ => false
    match (if live then k.fwd.find? fun f => f.1 == p.line && f.2.1 == p.inLine else none) with
    | some f => f.2.2
    | none => b

/-- A read of an engine for an activation that waits to commit enters its read signature (R301). -/
def State.noteWaiting (s : State) (c act : Nat) (pl : Place) : State :=
  let line := lineOf (servedPa s c pl)
  s.onCore c fun x => { x with word := x.word.map fun w =>
    if w.seq = act && w.trig.ord && !w.rsig.contains line then { w with rsig := w.rsig ++ [line] } else w }

/-- The chain of a virtual address of a context, or 0 (Table 16.11). -/
def chainAtVa (s : State) (ctx va : Nat) : Nat :=
  match walk s ctx va with
  | .leaf l _ => match leafPlace s l va with
    | .chain _ ch _ => ch
    | .mem _ => 0
  | _ => 0

/-- Far bytes read for a beat, line by line (R142, R143). A read of host memory that fails ends the command as an access fault
does (R375). -/
def readFar (s : State) (c : Nat) (k : CopyCmd) (va : Int) (ps : List (Nat × Nat)) : Source × State :=
  match ps with
  | [] => (.ok [] none, s)
  | p :: rest =>
    let a := va + p.1
    match reach s c k.ctx a .engRead with
    | (.absent, s) => (.absent a.toNat, s)
    | (.fault, s) => (.fault a.toNat, s)
    | (.table cls, s) => (.table a.toNat cls, s)
    | (.miss, s) => (.wait, s)
    | (.ok pl, s) =>
      let got : Source := match readPlace s c k.ctx pl p.2 with
        | .ok bs => .ok bs none
        | .host pa => if Config.freeHostError s.tick pa then .fault a.toNat else .ok (s.readPa pa p.2) none
        | .bad cls => .ok (s.readPa (homePa s k.ctx pl) p.2) (some (cls, a.toNat))
        | .refused => .fault a.toNat
        | .wait => .wait
      match got with
      | .ok bs bad =>
        match readFar ((s.noteRead c k.ctx pl false p.2).noteWaiting c k.act pl) c k va rest with
        | (.ok more bad', s) => (.ok (overlay (s.coreAt c) k pl bs ++ more) (bad.or bad'), s)
        | r => r
      | e => (e, s)

/-- The bytes of a beat are complete: wptr passes them, and the command ends with the last of them, or where it was cancelled
(R143, R147, R154). -/
def State.passBeat (s : State) (c : Nat) (k : CopyCmd) (n : Nat) (bad : Bool) : State :=
  let k := { k with done := k.done + n, sent := 0, turned := false, poisoned := k.poisoned || bad }
  let s := s.onCore c fun x => x.onChan k.ch fun h => { h with wptr := h.wptr + word n, cur := some k }
  if k.cancelled then s.endCopy c k 2
  else if k.done = k.len * k.rows then s.endCopy c k (if k.poisoned then 4 else 1) else s.launch (.copyBeat c k.ch)

/-- A channel stops before a beat whose page is not present (R148). -/
def State.holdBeat (s : State) (c : Nat) (k : CopyCmd) (va : Nat) (acc : Acc) : State :=
  (s.faultRecord c k.ctx va acc false).onCore c fun x => x.onChan k.ch fun h => { h with held := true }

/-- A page-table entry that a beat's translation read is uncorrectable (R148). -/
def State.tableBeat (s : State) (c : Nat) (k : CopyCmd) (va cls : Nat) : State :=
  (s.logCore k.ctx cls 0 c va 0).faultCopy c k va

/-- What a command forwards from the stores held at its issue, after a beat of its own has written bytes of them: a later beat reads
what was written (R145, R150). -/
def CopyCmd.rewritten (k : CopyCmd) (pl : Place) (bs : List Byte) : CopyCmd :=
  { k with fwd := k.fwd.map fun f =>
      if f.1 = pl.line ∧ pl.inLine ≤ f.2.1 ∧ f.2.1 < pl.inLine + bs.length then (f.1, f.2.1, bs.getD (f.2.1 - pl.inLine) f.2.2) else f }

/-- A beat of a get: far bytes are read, then written to the own local store (R142). -/
def State.getBeat (s : State) (c : Nat) (k : CopyCmd) : State :=
  let j := k.done / max k.len 1
  let off := k.done % max k.len 1
  let dst := rowStart k.own k.ostr j + off
  let src : Int := (k.far : Int) + j * k.fstr + off
  let n := min (k.len - off) (64 - dst % 64)
  match readFar s c k src (partsOf (src.toNat % 64) n) with
  | (.ok bs bad, s) =>
    let pl := Place.mem (lsPa s c dst)
    let s := match bad with
      | some (0x24, a) => s.logCore k.ctx 0x24 0 c a (chainAtVa s k.ctx a)
      | _ => s
    let s := s.perform k.ctx (some c) (lsPa s c dst) bs
    (if bad.isSome then s.spoil k.ctx pl else s).passBeat c (k.rewritten pl bs) n bad.isSome
  | (.wait, s) => s.launch (.copyBeat c k.ch)
  | (.absent va, s) => s.holdBeat c k va .engRead
  | (.fault va, s) => s.faultCopy c k va
  | (.table va cls, s) => s.tableBeat c k va cls

/-- The source of a put after a beat has written n bytes at a place: bytes of it that lie in the own local store, and that the
beats to come read, have changed, so that the copy behaves as a forward copy (R150). -/
def CopyCmd.overwritten (s : State) (c : Nat) (k : CopyCmd) (pl : Place) (bs : List Byte) (bad : Bool) : CopyCmd :=
  match pl with
  | .chain _ _ _ => k
  | .mem pa =>
    if k.snap = [] || !(rowOf pa == .localStore && paPkg pa == s.pkg.num && lsCore pa == c) then k
    else
      let at' := fun q => lsPa s c (rowStart k.own k.ostr (q / max k.len 1) + q % max k.len 1)
      { k with
        snap := k.snap.mapIdx fun q b =>
          if pa ≤ at' q ∧ at' q < pa + bs.length ∧ k.done + bs.length ≤ q then bs.getD (at' q - pa) b else b,
        snapBad := if bad then k.snapBad ++ [lineOf pa]
          else if pa % 64 = 0 ∧ 64 ≤ bs.length then k.snapBad.filter (· != pa) else k.snapBad }

/-- The far address of a command's next beat (R142). -/
def CopyCmd.dst (k : CopyCmd) : Int := (k.far : Int) + (k.done / max k.len 1 : Nat) * k.fstr + (k.done % max k.len 1 : Nat)

/-- A beat of a put or a fill: its bytes are written to the far side (R142). A chain store is waited for before wptr
passes it (R143), and a beat to a local store that is being moved is held (R251). -/
def State.putBeat (s : State) (c : Nat) (k : CopyCmd) (bytes : Nat → List Byte) (bad : Nat → Bool) : State :=
  let dst := k.dst
  let n := min (k.len - k.done % max k.len 1) (64 - dst.toNat % 64)
  match reach s c k.ctx dst .engWrite with
  | (.absent, s) => s.holdBeat c k dst.toNat .engWrite
  | (.fault, s) => s.faultCopy c k dst.toNat
  | (.table cls, s) => s.tableBeat c k dst.toNat cls
  | (.miss, s) => s.launch (.copyBeat c k.ch)
  | (.ok pl, s) =>
    if (chainLost s pl).isSome then (s.lostBeat c k.ctx dst.toNat pl).passBeat c k n true
    else if refusedAt s pl then s.faultCopy c k dst.toNat
    else if placeHeld s pl || placeAwaited s k.ctx pl then s.launch (.copyBeat c k.ch)
    else
      let id := (s.coreAt c).chainSeq % 2 ^ 32
      match pl with
      | .mem _ =>
        let s := s.storeAt c k.ctx pl dst.toNat (bytes n)
        let s := if bad n then s.spoil k.ctx pl else s
        s.passBeat c (k.overwritten s c pl (bytes n) (bad n)) n (bad n)
      | .chain x ch off =>
        let s := s.chainIssue c x ch dst.toNat (atOffsets off (bytes n)) (bad n)
        let k := { k with sent := n, sentId := id, sentCh := ch, poisoned := k.poisoned || bad n }
        (s.onCore c fun x => x.onChan k.ch fun h => { h with cur := some k }).launch (.copyBeat c k.ch)

/-- A sprinkle that cp.nzpk sends for a lane (R152). -/
def nzSprinkle (s : State) (c : Nat) (k : CopyCmd) (i : Nat) (x : Lane) : Msg :=
  { scid := c, spkg := s.pkg.num, ctx := k.ctx, tag := bits k.far 17 12, kind := 1, dcore := bits k.far 11 0,
    pay := [word ((bits k.far 33 18 + i) % 65536), x.setWidth 64, 0, 0, 0, 0, 0, 0] }

/-- A beat of cp.nzpk: a line of the own local store, and its sprinkles in ascending order (R152). Uncorrectable data
gives free values, and the command ends with status 4 (R148). -/
def State.nzBeat (s : State) (c : Nat) (k : CopyCmd) : State :=
  let pa := lsPa s c (k.own + k.done)
  let x : VWord := if poisoned s pa then Vector.ofFn fun i => Config.freeLane s.tick i.val else vecOfBytes (s.readPa pa 64)
  let s := (List.finRange 16).foldl (fun s i =>
    if x[i].setWidth 31 = 0 then s else s.dispatchMsg (nzSprinkle s c k (k.done / 4 + i.val) x[i])) s
  s.passBeat c k 64 (poisoned s pa)

/-- The chain store of a beat has not completed. -/
def beatOnWay (s : State) (c : Nat) (k : CopyCmd) : Bool := (s.coreAt c).chainOut.any fun st => st.seq == k.sentId

/-- A channel moves one beat, or takes the next command (R141, R142). -/
def State.copyStep (s : State) (c ch : Nat) : State :=
  let h := (s.coreAt c).cp.chans.toList.getD ch {}
  match h.cur with
  | none => s.startNext c
  | some k =>
    if h.held then s
    else if k.sent = 0 ∧ k.cancelled then s.endCopy c k 2
    else if k.len * k.rows = 0 then s.endCopy c k 1
    else if k.sent ≠ 0 then
      if beatOnWay s c k then s.launch (.copyBeat c ch)
      else if k.turned then s.faultCopy c { k with sent := 0, turned := false } k.dst.toNat
      else s.passBeat c k k.sent ((chainOf s k.ctx k.sentCh).cst == 3)
    else match k.op with
    | 0 => s.getBeat c k
    | 2 => s.getBeat c k
    | 4 => s.putBeat c k (fun n => (List.range n).map fun i => ((toBytes 8 k.pat.toNat).getD ((k.done + i) % 8) 0)) fun _ => false
    | 5 => s.nzBeat c k
    | _ => s.putBeat c k (fun n => (k.snap.drop k.done).take n) fun n =>
        let a := lsPa s c (rowStart k.own k.ostr (k.done / max k.len 1) + k.done % max k.len 1)
        (List.range n).any fun i => k.snapBad.contains (lineOf (a + i))

/-- cp.cancel: a channel, or all four. A channel with a beat on its way stops at the end of that beat, for which the instruction
waits (R154). -/
def execCpCancel (ra : SReg) (s : State) : Host.Outcome State Fault Refusal :=
  run (do
    openPorts none [ra]
    let c ← core
    let w := (c.takeS ra).1
    let chs := if bit w.toNat 2 then List.range 4 else [fld w 1 0]
    onlyIf (chs.any (midBeat c)) (do
      modCore fun c => chs.foldl Core.stopChan c
      stall)
    modify fun s => chs.foldl (fun s ch => s.cancelChan s.cur ch) s
    finish [ra]) s

/-- COPY_BEAT: a channel of a core moves one beat (R142). -/
def execCopyBeat (c : Nat) (ch : Nat) (s : State) : Host.Outcome State Fault Refusal := .next (s.copyStep c ch)

end Sys2Proof.Machine
end

