-- ==== Sys2Proof/Machine/Messages.lean ====
section
/-!
DEFINITION. The ms, tk and tg instructions (R303 to R306, R310 to R314), and the end of an activation as its core sees
it.
-/
namespace Sys2Proof.Machine

/-! ## The words of a message (R303, Tables 14.10 and 14.11) -/

/-- The payload in a vector register: doubleword k is lanes 2k and 2k+1. -/
def vecPay (x : VWord) : List Word :=
  (List.range 8).map fun k => word ((x.toList.getD (2 * k) 0).toNat + 2 ^ 32 * (x.toList.getD (2 * k + 1) 0).toNat)

/-- A reserved field of a destination word is nonzero. -/
def destReserved (w : Word) : Bool :=
  if bit w.toNat 63 then fld w 62 52 != 0
  else fld w 61 58 != 0 || fld w 41 12 != 0 || (!bit w.toNat 62 && fld w 47 42 != 0)

/-- A reserved field of a control word is nonzero; ts is reserved but for ms.sendt. -/
def ctlReserved (w : Word) (ts : Bool) : Bool := fld w 7 6 != 0 || (!ts && fld w 63 32 != 0)

/-- A message of the current core with the header of a control word. -/
def messageOf (s : State) (ctl : Word) (pay : List Word) : Msg :=
  { scid := s.cur, spkg := s.pkg.num, ctx := s.ctxNo, tag := fld ctl 5 0, hoff := BitVec.ofNat 16 (fld ctl 31 16),
    grp := fld ctl 15 8, dcore := s.cur, pay := pay }

/-- The group of a control word is one of the context's; else protection with the word (R303). -/
def checkGroup (ctl : Word) : M Unit := do
  let s ← get
  trapIf (!groupExists s s.ctxNo (fld ctl 15 8)) 0x05 ctl

/-- A message addressed by a destination word, after its checks: the other package that it leaves for, if any (R303,
R72). -/
def addressed (w ctl : Word) (m : Msg) : M (Option Nat × Msg) := do
  if bit w.toNat 63 then do
    checkGroup ctl
    let pl ← resolveFor false false (addrOf w) 1 .read
    let s ← get
    pure (none, { m with obj := some (addrOf w), sent := true, odie := objDie s s.cur pl })
  else if bit w.toNat 62 then pure (some (fld w 57 48), { m with ctx := fld w 47 42, dcore := fld w 11 0 })
  else do
    checkGroup ctl
    let s ← get
    trapIf (!inGroup s s.ctxNo (fld ctl 15 8) (fld w 11 0)) 0x05 w
    pure (none, { m with dcore := fld w 11 0 })

/-! ## Ending an activation (R306, Table 1.6, R201) -/

/-- The activation ends: its outstanding instructions complete, its matrix commands run, and then its windows close; then it
waits for its commit with some more items held. Its own sources are read before its windows close (log 76 DEDUCED). In the handler
of a core that has left its row's stream, trail mode ends for the row (R326, log 50 DEDUCED). 0 end, 1 endc, 2 defer, 3 bwait. -/
def endActivation (how : Nat) (srcs : List SReg) (more : List Gated) : M Unit := do
  waitWhile fun s => s.core.outst != [] || s.core.mx.queue != []
  let s ← get
  onlyIf (s.core.rev && decide (64 < s.core.held64 + (more.map entriesOf).sum)) becomeIrrevocable
  let s ← get
  onlyIf (s.core.inTrail && s.core.trail.left.isSome) (modify fun s => s.endTrail s.cur)
  modCore fun c =>
    let c := c.closeWindows.dequeue srcs
    { c with cbuf := c.cbuf ++ more, phase := .ending how, icount := c.icount + 1, stalled := false, trail := {} }

/-! ## The ms instructions (Table 14.9) -/

/-- ms.send: one message to its destination (R304). -/
def execMsSend (ra : SReg) (rb : VReg) (rc : SReg) (s : State) : Host.Outcome State Fault Refusal :=
  run (do
    openPorts none [ra, rc]
    let c ← core
    let (w, c1) := c.takeS ra
    let (ctl, _) := c1.takeS rc
    trapIf (destReserved w) 0x05 w
    trapIf (ctlReserved ctl false) 0x05 ctl
    let s ← get
    let (pkg, m) ← addressed w ctl (messageOf s ctl (vecPay (c.getV rb)))
    match pkg with
    | some n => gate (.sendRemote n m w)
    | none => gate (.send m)
    finish [ra, rc]) s

/-- ms.sendt: a message to the ordered domain of its group; a destination word of 0 gives no placement hint (R304). -/
def execMsSendt (ra : SReg) (rb : VReg) (rc : SReg) (s : State) : Host.Outcome State Fault Refusal :=
  run (do
    openPorts none [ra, rc]
    let c ← core
    let (w, c1) := c.takeS ra
    let (ctl, _) := c1.takeS rc
    trapIf (destReserved w) 0x05 w
    trapIf (ctlReserved ctl true) 0x05 ctl
    trapIf (c.trig.ord && decide (fld ctl 63 32 ≤ c.tsn.toNat)) 0x05 ctl
    let s ← get
    let m := { messageOf s ctl (vecPay (c.getV rb)) with ord := true, ts := fld ctl 63 32 }
    if w = 0 then do
      checkGroup ctl
      gate (.sendt m)
    else do
      let (pkg, m) ← addressed w ctl m
      match pkg with
      | some n => gate (.sendRemote n m w)
      | none => gate (.sendt m)
    finish [ra, rc]) s

/-- ms.spr: one sprinkle to a core of the own package (R305). -/
def execMsSpr (ra : SReg) (rb : SReg) (rc : SReg) (s : State) : Host.Outcome State Fault Refusal :=
  run (do
    openPorts none [ra, rb, rc]
    let c ← core
    let (a, c) := c.takeS ra
    let (b, c) := c.takeS rb
    let (v, _) := c.takeS rc
    trapIf (fld a 63 18 != 0) 0x05 a
    trapIf (fld b 63 16 != 0) 0x05 b
    trapIf (fld v 63 32 != 0) 0x05 v
    let s ← get
    trapIf (!inAnyGroup s s.ctxNo (fld a 11 0)) 0x05 a
    gate (.send { scid := s.cur, spkg := s.pkg.num, ctx := s.ctxNo, tag := fld a 17 12, kind := 1, dcore := fld a 11 0,
                  pay := b :: v :: List.replicate 6 0 })
    finish [ra, rb, rc]) s

/-- ms.bcast: one copy to every member of a group of the own package (R304). -/
def execMsBcast (ra : SReg) (rb : VReg) (rc : SReg) (s : State) : Host.Outcome State Fault Refusal :=
  run (do
    openPorts none [ra, rc]
    let c ← core
    let (a, c1) := c.takeS ra
    let (ctl, _) := c1.takeS rc
    trapIf (fld a 63 8 != 0) 0x05 a
    trapIf (ctlReserved ctl false) 0x05 ctl
    checkGroup ctl
    let s ← get
    trapIf (!groupExists s s.ctxNo (fld a 7 0)) 0x05 a
    gate (.bcast (fld a 7 0) (messageOf s ctl (vecPay (c.getV rb))))
    finish [ra, rc]) s

/-- ms.end: the activation ends (R306). -/
def execMsEnd (s : State) : Host.Outcome State Fault Refusal := run (endActivation 0 [] []) s

/-- ms.endc: the activation ends, with a message for the head of its tag's FIFO on the own core (R306). -/
def execMsEndc (rb : VReg) (rc : SReg) (s : State) : Host.Outcome State Fault Refusal :=
  run (do
    openPorts none [rc]
    let c ← core
    let ctl := (c.takeS rc).1
    trapIf (ctlReserved ctl false) 0x05 ctl
    checkGroup ctl
    let s ← get
    endActivation 1 [rc] [.endc (messageOf s ctl (vecPay (c.getV rb)))]) s

/-- ms.defer: the activation ends, and its trigger goes back to the head of its tag's FIFO, or of tag ra[5:0] when
ra[6] = 1 (R306). -/
def execMsDefer (ra : SReg) (s : State) : Host.Outcome State Fault Refusal :=
  run (do
    openPorts none [ra]
    let c ← core
    let a := (c.takeS ra).1
    trapIf c.trig.ord 0x05 a
    endActivation 2 [ra] []
    modCore fun c => if bit a.toNat 6 then { c with trig := { c.trig with tag := fld a 5 0 } } else c) s

/-! ## The tk instructions (Table 14.14) -/

/-- The record that a register names, and its place: aligned, with rd and w (R310). -/
def recordOf (p : Word) : M (Nat × Place) := do
  let va := addrOf p
  trapIf (va % 64 != 0) 0x03 p
  let pl ← resolveAtomic va 64 .atomic
  pure (va, pl)

/-- A task operation of the current core. -/
def taskReq (s : State) (op va : Nat) (pl : Place) (arg : Word) : Gated :=
  .tk pl { op := op, core := s.cur, ctx := s.ctxNo, va := va, pa := homePa s s.ctxNo pl, arg := arg }

/-- A tk operation that only acts on the record. -/
def taskOp (op : Nat) (rb : SReg) (rc : Option SReg) : M Unit := do
  let srcs := rb :: rc.toList
  openPorts none srcs
  let c ← core
  let (p, c) := c.takeS rb
  let arg := match rc with
    | some r => (c.takeS r).1
    | none => 0
  let (va, pl) ← recordOf p
  let s ← get
  gate (taskReq s op va pl arg)
  finish srcs

/-- tk.new: arms a record and writes the task id (R311). -/
def execTkNew (la : BitVec 4) (ra : SReg) (rb : SReg) (rc : SReg) (s : State) : Host.Outcome State Fault Refusal :=
  run (do
    openPorts (some ra) [rb, rc]
    let c ← core
    let (p, c) := c.takeS rb
    let (n, _) := c.takeS rc
    let (va, pl) ← recordOf p
    let s ← get
    gate (taskReq s 0 va pl n)
    finishL ra la [rb, rc] (word (va / 64))) s

/-- tk.arr: one arrival (R311). -/
def execTkArr (rb : SReg) (s : State) : Host.Outcome State Fault Refusal := run (taskOp 1 rb none) s

/-- tk.arrd: rc[31:0] arrivals as one step (R311). -/
def execTkArrd (rb : SReg) (rc : SReg) (s : State) : Host.Outcome State Fault Refusal := run (taskOp 2 rb (some rc)) s

/-- tk.dl: a deadline (R311). -/
def execTkDl (rb : SReg) (rc : SReg) (s : State) : Host.Outcome State Fault Refusal := run (taskOp 3 rb (some rc)) s

/-- tk.kill: a task is taken out of its queue (R311, Table 14.13). -/
def execTkKill (rb : SReg) (s : State) : Host.Outcome State Fault Refusal := run (taskOp 4 rb none) s

/-- The barriers for which a core holds an entry, or will at the commit of its activation (R312). -/
def barKeys (c : Core) (ctx : Nat) : List (Nat × Nat) :=
  let waits := match c.word with
    | some w => w.arrived.map fun va => (w.trig.ctx, va)
    | none => []
  distinct ((c.bars.map fun b => (b.ctx, b.va)) ++ waits ++ c.arrived.map fun va => (ctx, va))

/-- The limits of R312 on an arrival at a barrier. -/
def barrierLimits (p : Word) (va : Nat) : M Unit := do
  let s ← get
  let ks := barKeys s.core s.ctxNo
  trapIf (ks.contains (s.ctxNo, va) || decide (4 ≤ ks.length)) 0x05 p

/-- An arrival at a barrier, within the limits of R312. -/
def arriveAt (p : Word) (va : Nat) (pl : Place) : M Unit := do
  barrierLimits p va
  let s ← get
  gate (taskReq s 5 va pl 0)
  modCore fun c => { c with arrived := c.arrived ++ [va] }

/-- tk.barr: an arrival at a barrier (R312). -/
def execTkBarr (rb : SReg) (s : State) : Host.Outcome State Fault Refusal :=
  run (do
    openPorts none [rb]
    let c ← core
    let p := (c.takeS rb).1
    let (va, pl) ← recordOf p
    arriveAt p va pl
    finish [rb]) s

/-- tk.bwait: the activation ends and registers its continuation, after arriving at the barrier if it has not (R312). -/
def execTkBwait (rb : SReg) (rc : SReg) (s : State) : Host.Outcome State Fault Refusal :=
  run (do
    openPorts none [rb, rc]
    let c ← core
    let (p, c1) := c.takeS rb
    let (ctl, _) := c1.takeS rc
    let (va, pl) ← recordOf p
    trapIf (ctlReserved ctl false) 0x05 ctl
    checkGroup ctl
    let there := c.arrived.contains va
    onlyIf (!there) (barrierLimits p va)
    let s ← get
    endActivation 3 [rb, rc] [taskReq s (if there then 6 else 7) va pl ctl]
    modCore fun c => if there then c else { c with arrived := c.arrived ++ [va] }) s

/-! ## The tg instructions (R314, Table 14.15) -/

/-- A tg operation on the tags of a mask. -/
def tagsOp (op : Nat) (sa : Src) (sb : Option Src) : M Unit := do
  let srcs := srcNames sa ++ (sb.map srcNames).getD []
  openPorts none srcs
  let c ← core
  let (mask, c) := c.takeSrc sa
  let arg := match sb with
    | some x => (c.takeSrc x).1
    | none => 0
  gate (.tg op mask arg)
  finish srcs

/-- tg.en: the named tags are enabled, with a priority when sb[2] = 1. -/
def execTgEn (sa : Src) (sb : Src) (s : State) : Host.Outcome State Fault Refusal := run (tagsOp 0 sa (some sb)) s

/-- tg.dis: the named tags are disabled. -/
def execTgDis (sa : Src) (s : State) : Host.Outcome State Fault Refusal := run (tagsOp 1 sa none) s

/-- tg.pend: the soft-pending bits of the named tags are set. -/
def execTgPend (sa : Src) (s : State) : Host.Outcome State Fault Refusal := run (tagsOp 2 sa none) s

/-- tg.clr: the soft-pending bits of the named tags are cleared. -/
def execTgClr (sa : Src) (s : State) : Host.Outcome State Fault Refusal := run (tagsOp 3 sa none) s

/-- The tags of the current core with the activation's own held operations applied in order. -/
def tagView (s : State) : TagSet :=
  s.core.cbuf.foldl (fun t g => match g with
    | .tg op mask arg => t.op op mask arg
    | _ => t) (tagsOf s s.cur s.ctxNo)

/-- The messages of a tag for a core that lie in its cluster's inbox and in the context's ring. -/
def spilledOf (s : State) (c ctx tag : Nat) : List Msg :=
  (ofTag ctx tag ((s.clusterAt (clusterOf c)).inbox ++ (s.ctxAt ctx).ring)).filter fun m => m.dcore == c

/-- The age of a tag: of the message at the head of its FIFO, or of its soft-pending bit (R291). -/
def tagAge (t : TagState) (fifo : List Msg) : Nat :=
  match fifo with
  | m :: _ => m.age
  | [] => t.sage

/-- A tag is pending (R290). -/
def tagPending (s : State) (c ctx tag : Nat) (t : TagState) : Bool :=
  t.spnd || ofTag ctx tag (s.coreAt c).inbox != [] || spilledOf s c ctx tag != []

/-- The status of a tag (Table 14.16). -/
def tagStatus (s : State) (tag : Nat) (t : TagState) : Word :=
  let fifo := ofTag s.ctxNo tag s.core.inbox
  let spl := min (spilledOf s s.cur s.ctxNo tag).length 0xFFFF
  word (fifo.length * 2 ^ 32 + spl * 2 ^ 16 + flag t.dflt.isSome 10 + flag t.spnd 9 +
    flag (tagPending s s.cur s.ctxNo tag t) 8 + flag t.en 7 + eprio t.prio (tagAge t fifo) * 16 + t.prio % 4)

/-- tg.get: the status of a tag, or the mask of enabled or of pending tags. -/
def execTgGet (rd : SReg) (sa : Src) (s : State) : Host.Outcome State Fault Refusal :=
  run (do
    let srcs := srcNames sa
    openPorts (some rd) srcs
    let c ← core
    let a := (c.takeSrc sa).1
    let s ← get
    let t := tagView s
    let at' := fun i => Tbl.getD t.tags i {}
    match fld a 7 6 with
    | 0 => finishS rd srcs (tagStatus s (fld a 5 0) (at' (fld a 5 0)))
    | 1 => finishS rd srcs (word (maskOf 64 fun i => (at' i).en))
    | 2 => finishS rd srcs (word (maskOf 64 fun i => tagPending s s.cur s.ctxNo i (at' i)))
    | _ => trap 0x05 a) s

end Sys2Proof.Machine
end

