-- ==== Sys2Proof/Machine/Activations.lean ====
section
/-!
DEFINITION. The device's own steps of chapter 14 (R287 to R313): arrival and inboxes, dispatch, footprints, commit,
ordered domains, task records at home, stealing, barriers, and neighbour queue words.
-/
namespace Sys2Proof.Machine

/-! ## Arrival (R290, R294, R336) -/

/-- The tags of a context for a core, resident or not. -/
def tagsKnown (s : State) (c ctx : Nat) : TagSet :=
  if Tbl.has (s.coreAt c).tags ctx then tagsOf s c ctx
  else if Tbl.has (s.ctxAt ctx).saves c then Tbl.getD (Tbl.getD (s.ctxAt ctx).saves c {}).tags ctx {}
  else loadedTags (s.ctxAt ctx)

/-- A message for a tag without a default handler is discarded on arrival, with class 0x35 (R290, R352). -/
def State.discardMsg (s : State) (m : Msg) : State :=
  (s.log m.ctx 0x35 0 m.dcore (logPlace m.dcore) false 0 (m.tag + m.scid * 2 ^ 16 + m.spkg * 2 ^ 28)).forgetKey m

/-- A message finds its place: the core inbox, the cluster inbox, the ring, or none yet (R294). -/
def State.place (s : State) (m : Msg) : State :=
  let c := m.dcore
  let box := (s.coreAt c).inbox
  let inRing := (s.ctxAt m.ctx).ring.any (sameTag m)
  let inCluster := (s.clusterAt (clusterOf c)).inbox.any (sameTag m)
  let room := clusterRoom s (clusterOf c)
  let k := { m with first := false }
  let enter := fun (s : State) => s.onCore c fun x => { x with inbox := x.inbox ++ [k] }
  match !inRing && !inCluster, decide (box.length < coreCap s c), (if tagOn s c m && room then evictable s c else none) with
  | true, true, _ => enter s
  | true, false, some v => enter (s.evict c v)
  | _, _, _ =>
    if !inRing && room then s.onCluster (clusterOf c) fun x => { x with inbox := x.inbox ++ [k] }
    else match s.intoRing k with
      | some (m, s) => s.onCtx m.ctx fun y => { y with ring := y.ring ++ [m] }
      | none => s.hold m

/-- A message arrives at its core (R294). For a pre-empted context it goes to the proofing store (R336), and for a core
being moved it waits (R365). -/
def State.deliver (s : State) (m : Msg) : State :=
  let k := { m with first := false }
  let y := s.ctxAt m.ctx
  let c := m.dcore
  let x := s.coreAt c
  if !y.live ∨ y.state = 3 then s
  else if y.state = 2 ∨ (y.state = 1 ∧ Tbl.has y.saves c) then
    if y.store1.length + y.store2.length < storeCap (fld y.proof 4 0) then
      (s.proofEntry m.ctx k).onCtx m.ctx fun y => { y with store2 := y.store2 ++ [k] }
    else s.hold m
  else if coreLost s c then s.forgetKey m
  else if !x.ready then { s with heldMsgs := s.heldMsgs ++ [k] }
  else if copying s c then s.hold m
  else if (Tbl.getD (tagsKnown s c m.ctx).tags m.tag {}).dflt.isNone then s.discardMsg m
  else s.place m

/-- The oldest message for a core in its cluster's inbox, of an enabled tag where there is one (R294). -/
def nextForCore (s : State) (c : Nat) : Option Msg :=
  let mine := (s.clusterAt (clusterOf c)).inbox.filter fun m => m.dcore == c
  (mine.find? fun m => tagOn s c m).or mine.head?

/-- Free places of a core inbox are refilled from the cluster inbox. -/
def State.refillCore (s : State) (c : Nat) : Nat → State
  | 0 => s
  | n + 1 =>
    if coreCap s c ≤ (s.coreAt c).inbox.length then s
    else match nextForCore s c with
      | none => s
      | some m =>
        State.refillCore ((s.onCluster (clusterOf c) fun k => { k with inbox := k.inbox.erase m }).onCore c fun x =>
          { x with inbox := x.inbox ++ [m] }) c n

/-- The oldest message for a cluster in the rings, of an enabled tag where there is one. -/
def nextForCluster (s : State) (k : Nat) : Option Msg :=
  let mine := (s.ctxs.flatMap fun e => e.2.ring).filter fun m => clusterOf m.dcore == k
  (mine.find? fun m => tagOn s m.dcore m).or mine.head?

/-- Free places of a cluster inbox are refilled from the rings. -/
def State.refillCluster (s : State) (k : Nat) : Nat → State
  | 0 => s
  | n + 1 =>
    if !clusterRoom s k then s
    else match nextForCluster s k with
      | none => s
      | some m =>
        State.refillCluster ((s.onCtx m.ctx fun y => { y with ring := y.ring.erase m }).onCluster k fun x =>
          { x with inbox := x.inbox ++ [{ m with rslot := none }] }) k n

/-- Freed places are refilled (R294). -/
def State.refill (s : State) (c : Nat) : State :=
  ((s.refillCore c 64).refillCluster (clusterOf c) 1024).refillCore c 64

/-- MESSAGE_ARRIVAL (R294): an arriving message or sprinkle finds its place. -/
def execMessageArrival (m : Msg) (s : State) : Host.Outcome State Fault Refusal := .next (s.deliver m)

/-! ## Footprint slots (R155, R156) -/

/-- The size of a slot. -/
def slotSize (fparea : Word) : Nat := 0x4000 * 2 ^ (if fld fparea 21 20 = 3 then 0 else fld fparea 21 20)

/-- The offset of a slot. -/
def slotOff (fparea : Word) (k : Nat) : Nat := fld fparea 17 6 * 64 + k * slotSize fparea

/-- A task's footprint is to be fetched before its dispatch. -/
def wantsSlot (s : State) (m : Msg) : Bool :=
  let f := (s.ctxAt m.ctx).fparea
  m.kind == 2 && m.slot.isNone && fld f 23 22 != 0 && decide (1 ≤ m.fplen) && decide (m.fplen ≤ slotSize f)

/-- The slots of a core for a context that tasks hold which wait for dispatch outside its inbox: in its cluster's inbox, in the
context's ring, in the fabric, or in its proofing store (R156, R294). -/
def pinnedAway (s : State) (c ctx : Nat) : List Nat :=
  let y := s.ctxAt ctx
  let away := (s.clusterAt (clusterOf c)).inbox ++ y.ring ++ y.store1 ++ y.store2 ++ s.flight.filterMap fun i => match i with
    | .messageArrival m => some m
    | _ => none
  (away.filter fun m => m.dcore == c && m.ctx == ctx).filterMap Msg.slot

/-- The slots of a core that are pinned for a context (R156). -/
def pinned (s : State) (c ctx : Nat) : List Nat :=
  let x := s.coreAt c
  ((x.inbox.filter fun m => m.ctx == ctx).filterMap Msg.slot) ++ pinnedAway s c ctx ++
    (if x.phase = .idle then [] else x.trig.slot.toList) ++
    (match x.word with
     | some w => w.trig.slot.toList
     | none => []) ++
    (match x.fetching with
     | some (_, k) => [k]
     | none => [])

/-- A free slot of a core for a context. -/
def freeSlot (s : State) (c ctx : Nat) : Option Nat :=
  (List.range (fld (s.ctxAt ctx).fparea 23 22)).find? fun k => !(pinned s c ctx).contains k

/-- A task of a core's inbox waits for its footprint: no slot is free for it, or another footprint is being fetched (R156). -/
def slotWaits (s : State) (c ctx : Nat) (m : Msg) : Bool :=
  wantsSlot s m && ((s.coreAt c).fetching.isSome || (freeSlot s c ctx).isNone)

/-! ## Dispatch (R13, R166, R186, R201, R228, R259, R291, R292, R343) -/

/-- The tags that may be dispatched, with their effective priorities. An ordered message waits while the core holds an
ended ordered activation (R300), and a task whose footprint is to be fetched afresh for its slot (R156). -/
def candidates (s : State) (c ctx : Nat) : List (Nat × Nat) :=
  let x := s.coreAt c
  (tagsOf s c ctx).tags.filterMap fun e =>
    let fifo := ofTag ctx e.1 x.inbox
    let blocked := match fifo with
      | m :: _ => (m.ord && x.word.isSome) || slotWaits s c ctx m
      | [] => !e.2.spnd
    if e.2.en && !blocked then some (e.1, eprio e.2.prio (tagAge e.2 fifo)) else none

/-- The tag that is chosen: the first above its level's round-robin pointer, of the highest effective priority (R291). -/
def chooseTag (cands : List (Nat × Nat)) (rr : List Nat) : Option (Nat × Nat) :=
  let best := (cands.map Prod.snd).foldl max 0
  let start := rr.getD best 63 + 1
  (((List.range 64).map fun i => (start + i) % 64).find? fun t => cands.contains (t, best)).map fun t => (t, best)

/-- A vector register file whose contents are open (R13, log 3 DESIGN CHOICE). -/
def openVectors (tick : Nat) : Vector VWord 64 := Vector.ofFn fun i => Config.freeVector tick i

/-- Predicates whose contents are open. -/
def openPreds (tick : Nat) : Vector PWord 8 := Vector.ofFn fun i => Config.freePred tick i

/-- The scalar registers at dispatch: m0 to m7 from the payload, ta, and open contents for the others (R13, R292). -/
def openScalars (tick : Nat) (pay : List Word) (ta : Word) : Vector Word 64 :=
  Vector.ofFn fun i =>
    if i.val = 0 then 0
    else if 48 ≤ i.val ∧ i.val < 56 then pay.getD (i.val - 48) 0
    else if i.val = 60 then ta
    else Config.freeScalar tick i

/-- rtag of a trigger (Table 14.4). -/
def rtagOf (m : Msg) : Word := word (m.grp % 256 * 2 ^ 16 + flag m.ord 15 + flag m.redl 14 + m.kind % 8 * 256 + m.tag % 64)

/-- The effective timestamp of a trigger: T of its key (R292, R299). -/
def tsOf (m : Msg) : Nat :=
  match m.ord, m.key with
  | true, some k => k.1
  | true, none => m.ts
  | false, _ => 0

/-- The entry of the activation that a trigger starts: fpa (R156). -/
def fpaOf (fparea : Word) (m : Msg) : Word :=
  match m.slot with
  | some k => word (0xE000000000000 + slotOff fparea k)
  | none => 0

/-- The trap that waits for the first instruction of a task whose footprint could not be read (R156). -/
def failOf (m : Msg) : Option (Nat × Word) := m.fpfail.map fun f => (f.1, word f.2.2.1)

/-- The class under which uncorrectable data of the footprint is logged (R355). -/
def failClass (m : Msg) : Nat := (m.fpfail.map fun f => f.2.1).getD 0x21

/-- A channel whose commands were last another context's begins anew (R143). -/
def Chan.forContext (h : Chan) (ctx : Nat) : Chan := if h.ctx = ctx then h else { h with icnt := 0, wptr := 0, ctx := ctx }

/-- A core at the start of an activation: what dispatch sets, and open contents for the rest. -/
def Core.begin (x : Core) (tick ctx : Nat) (y : Ctx) (ts : TagState) (m : Msg) : Core :=
  { x with
    s := openScalars tick m.pay (if m.kind = 2 then m.pay.headD 0 else 0), v := openVectors tick, p := openPreds tick,
    k := Vector.ofFn fun i => ts.kbank.getD i 0,
    pc := BitVec.ofNat 52 (handlerEntry ts m.hoff), pend := [], frm := 0, fflags := 0, gdim := 1, lp := {}, vprog := 0,
    tlv := 0, tvec := y.ctvec, tsave := y.ctsave, t1 := {}, t2 := {}, csel := BitVec.ofNat 6 ctx, fpa := fpaOf y.fparea m,
    seq := x.seq + 1, tsn := BitVec.ofNat 32 (tsOf m), rtag := rtagOf m, rgrp := 0, phase := .running, last := some ctx,
    rev := m.kind != 1, trig := m, cbuf := [], icount := 0, portAt := none, wcount := 0, held := none, rsig := [], arrived := [],
    sprTiles := [], trail := {}, chk := { x.chk with cur := { how := 0 }, lv1 := {}, lv2 := {}, catches := [] },
    qcatch := Vector.replicate 4 0, mx := { x.mx with cfg := {}, mask := 0xFFFFFFFF, shadows := [] },
    cp := { x.cp with chans := x.cp.chans.map fun h => h.forContext ctx },
    due := failOf m, dueCls := failClass m, dueDetail := (m.fpfail.map fun f => f.2.2.2).getD 0, hostRd := none, hostWait := false,
    hostGot := [], ret := none, stalled := false }

/-- An activation starts on a core (R292). -/
def State.start (s : State) (c ctx : Nat) (m : Msg) : State :=
  let ts := Tbl.getD (tagsOf s c ctx).tags m.tag {}
  let s := if m.note then s.onCtx ctx fun y => { y with enote := false } else s
  (s.onCore c fun x => { x.begin s.tick ctx (s.ctxAt ctx) ts m with started := s.pkg.cyc.toNat }).refill c

/-- A core's tags changed for its context. -/
def State.onTags (s : State) (c ctx : Nat) (f : TagSet → TagSet) : State :=
  s.onCore c fun x => { x with tags := Tbl.put x.tags ctx (f (Tbl.getD x.tags ctx {})) }

/-- A tag of a core changed. -/
def State.onTag (s : State) (c ctx tag : Nat) (f : TagState → TagState) : State :=
  s.onTags c ctx fun t => { t with tags := Tbl.put t.tags tag (f (Tbl.getD t.tags tag {})) }

/-- A channel still runs or holds commands of another context (R143). -/
def foreignCopies (x : Core) (ctx : Nat) : Bool :=
  x.cp.queue.any (fun k => k.ctx != ctx) || x.cp.chans.toList.any fun h => match h.cur with
    | some k => k.ctx != ctx
    | none => false

/-- A step is the arrival of a post that a core has sent to itself: it is applied at the end of the posting activation, before
another one starts (Table 11.10). -/
def ownPost (c : Nat) (i : Instr) : Bool :=
  match i with
  | .postArrival p => p.poster == c && p.ncore == c
  | _ => false

/-- A core may start an activation: it is idle, ready, in place, and resident for a running context, with no buffered
post, no post of its own on its way and no copy of another context. -/
def canStart (s : State) (c : Nat) : Option Nat :=
  let x := s.coreAt c
  match x.ctx with
  | none => none
  | some ctx =>
    if x.phase = .idle && x.mx.queue = [] && x.ready && !x.remap && !(s.clusterAt (clusterOf c)).remap && (s.ctxAt ctx).live &&
        (s.ctxAt ctx).state == 0 && x.posts = [] && !s.flight.any (ownPost c) && !foreignCopies x ctx then some ctx
    else none

/-- The trigger of a soft-pending activation (R291, R292). -/
def softMsg (s : State) (c ctx tag age : Nat) : Msg :=
  { scid := c, spkg := s.pkg.num, ctx := ctx, tag := tag, kind := 5, dcore := c, pay := List.replicate 8 0, age := age }

/-- A core begins to fetch the footprint of a task into a free slot, if it has one. -/
def State.fetchFor (s : State) (c ctx : Nat) (m : Msg) : State :=
  match freeSlot s c ctx with
  | none => s
  | some k => (s.onCore c fun x => { x with fetching := some (m, k) }).launch (.footprintPrefetch c)

/-- The chosen tag's head message is taken: it starts, or, a task that was delivered to the core again, its footprint is fetched
first while it keeps its place (R156). -/
def State.take (s : State) (c ctx tag best : Nat) (m : Msg) : State :=
  if wantsSlot s m then s.fetchFor c ctx { m with boxed := true }
  else ((s.onCore c fun x => { x with inbox := x.inbox.erase m }).onTags c ctx fun t => { t with rr := t.rr.set best tag }).start c ctx m

/-- An idle core dispatches (R291). -/
def State.dispatch (s : State) (c : Nat) : State :=
  match canStart s c with
  | none => s
  | some ctx =>
    let s := s.refill c
    match chooseTag (candidates s c ctx) (tagsOf s c ctx).rr with
    | none => s
    | some (tag, best) =>
      match ofTag ctx tag (s.coreAt c).inbox with
      | m :: _ => s.take c ctx tag best m
      | [] =>
        let m := softMsg s c ctx tag (Tbl.getD (tagsOf s c ctx).tags tag {}).sage
        let s := s.onTag c ctx tag fun t => { t with spnd := false, sage := 0 }
        (s.onTags c ctx fun t => { t with rr := t.rr.set best tag }).start c ctx m

/-- DISPATCH (R291). -/
def execDispatch (c : Nat) (s : State) : Host.Outcome State Fault Refusal := .next (s.dispatch c)

/-! ## Footprint prefetch (R156) -/

/-- The footprint's bytes enter the slot; those beyond the end of the local store have no place. -/
def State.fillSlot (s : State) (c ctx off : Nat) (bs : List Byte) : State :=
  let n := lsSize - off
  if n = 0 ∨ bs = [] then s else s.perform ctx (some c) (lsPa s c off) (bs.take n)

/-- A queued task is delivered to a core, and its record is dispatched (R308, Table 14.13). -/
def State.deliverTask (s : State) (c : Nat) (m : Msg) : State :=
  let s := match recordPa s m.ctx (m.pay.headD 0).toNat with
    | some pa => s.writeRecord c m.ctx pa (taskWord0 3 (taskAt s pa).gen (taskAt s pa).count)
    | none => s
  s.deliver m

/-- Two triggers are that of one task: a record has one (R308). -/
def sameTask (a b : Msg) : Bool := a.kind == 2 && b.kind == 2 && a.ctx == b.ctx && a.pay.headD 0 == b.pay.headD 0

/-- A footprint has been fetched: the task that waited in the core's inbox for it has its slot, or gives it up where it has left the
inbox meanwhile; a queued one is delivered (R156, Table 14.13). -/
def State.fetched (s : State) (c : Nat) (m : Msg) : State :=
  let s := s.onCore c fun x => { x with fetching := none }
  if m.boxed then
    s.onCore c fun x => { x with inbox := x.inbox.map fun n =>
      (if sameTask n m then { n with slot := m.slot, fpfail := m.fpfail } else n) }
  else s.deliverTask c m

/-- The page of a footprint is not present: its task goes back to its queue, unless it has left the inbox in which it had its place, and
waits there until replay (R87, R156). -/
def State.footprintAbsent (s : State) (c va : Nat) (m : Msg) : State :=
  let x := s.coreAt c
  let s := (s.faultRecord c m.ctx va .engRead false).onCore c fun x =>
    { x with fetching := none, inbox := x.inbox.filter fun n => !sameTask n m }
  if m.boxed && !x.inbox.any (sameTask m) then s else s.requeueTask { m with boxed := false } true

/-- The prefetch of a footprint reads it part by part: the first failure ends it. -/
def State.prefetch (s : State) (c : Nat) (m0 : Msg) (k : Nat) : State :=
  let ready := fun (s : State) (m : Msg) => s.fetched c m
  let m := { m0 with slot := some k }
  match readFar s c { ctx := m.ctx, act := 2 ^ 52 } m.fp (partsOf (m.fp % 64) m.fplen) with
  | (.ok bs none, s) => ready (s.fillSlot c m.ctx (slotOff (s.ctxAt m.ctx).fparea k) bs) m
  | (.ok _ (some f), s) =>
    ready s { m with fpfail := some (0x0E, f.1, f.2, if f.1 = 0x24 then chainAtVa s m.ctx f.2 else 0) }
  | (.wait, s) => s.launch (.footprintPrefetch c)
  | (.absent va, s) => s.footprintAbsent c va m
  | (.fault va, s) =>
    let cause := match checkPaged s c m.ctx va .read true with
      | (.cset, _) => 0x06
      | _ => 0x05
    ready s { m with fpfail := some (cause, 0, va, 0) }
  | (.table va cls, s) => ready s { m with fpfail := some (0x0E, cls, va, 0) }

/-- FOOTPRINT_PREFETCH (R156): the read of a task's footprint completes, and the task may be dispatched. -/
def execFootprintPrefetch (c : Nat) (s : State) : Host.Outcome State Fault Refusal :=
  .next (match (s.coreAt c).fetching with
    | some (m, k) => s.prefetch c m k
    | none => s)

/-! ## Commit (R280, R300 to R302, R306, R308, R312, R322) -/

/-- A deferred trigger returns to the head of its tag's FIFO; a soft-pending one sets the bit again (R306). -/
def State.deferTrigger (s : State) (c : Nat) (m : Msg) : State :=
  if m.kind = 5 then
    s.onTag c m.ctx m.tag fun t => if t.dflt.isSome && !t.spnd then { t with spnd := true, sage := m.age } else t
  else s.toHead c { m with dcore := c, slot := none, fpfail := none }

/-- The record of a committed task becomes free (Table 14.13). -/
def State.freeTask (s : State) (c : Nat) (m : Msg) : State :=
  match recordPa s m.ctx (m.pay.headD 0).toNat with
  | some pa =>
    let t := taskAt s pa
    if t.st = 3 then s.writeRecord c m.ctx pa (taskWord0 0 t.gen t.count) else s
  | none => s

/-- The trigger of a committed activation is done with, by how it ended. -/
def State.settleTrigger (s : State) (c : Nat) (m : Msg) (how : Nat) : State :=
  if how = 2 then s.deferTrigger c m
  else if m.kind = 2 then s.freeTask c m
  else if m.kind = 3 then
    s.launch (.indexAcknowledgement m.ctx (m.pay.getD 2 0).toNat (m.pay.getD 1 0).toNat)
  else s

/-- A commit moves its domain's frontier, and the next head may commit (R299, R300). -/
def State.settleDomain (s : State) (m : Msg) : State :=
  match m.ord, m.key with
  | true, some k =>
    let s := s.onCtx m.ctx fun x =>
      let d := Tbl.getD x.domains m.grp {}
      { x with domains := Tbl.put x.domains m.grp { d with keys := d.keys.erase k, front := k.1 } }
    let next := s.cores.filterMap fun e => match e.2.word with
      | some w => if w.trig.ctx == m.ctx && w.trig.grp == m.grp && isHead s w.trig then some e.1 else none
      | none => none
    next.foldl (fun s c => s.launch (.activationCommit c)) s
  | _, _ => s

/-- Entries of barriers at which a committed activation arrived without waiting are closed (R312). -/
def State.closeBars (s : State) (c ctx : Nat) (arrived : List Nat) : State :=
  s.onCore c fun x => { x with bars := x.bars.filter fun b => !(b.ctx == ctx && arrived.contains b.va && b.cont.isNone) }

/-- What follows when nothing of an activation waits any more. -/
def State.committed (s : State) (c : Nat) (m : Msg) (how : Nat) (arrived : List Nat) : State :=
  ((s.closeBars c m.ctx arrived).settleTrigger c m how).settleDomain m

/-- The waiting ordered activation of a core, now the head of its domain, commits. -/
def State.commitWaiting (s : State) (c : Nat) (w : Waiting) : State :=
  let (s, left) := releaseList s c w.trig w.cbuf
  if left ≠ [] || !(s.coreAt c).calm then
    (s.onCore c fun x => { x with word := some { w with cbuf := left, releasing := true } }).launch (.activationCommit c)
  else (s.onCore c fun x => { x with word := none }).committed c w.trig w.how w.arrived

/-- A core after its activation. -/
def Core.ended (x : Core) : Core :=
  { x with phase := .idle, rev := true, trig := {}, cbuf := [], rsig := [], arrived := [], trail := {}, stalled := false,
           mx := { x.mx with shadows := [] } }

/-- The ended activation of a core commits; an ordered one that is not the head waits, in the core's one place for it
(R300). -/
def State.commitEnded (s : State) (c how : Nat) : State :=
  let x := s.coreAt c
  if isHead s x.trig then
    let (s, done) := s.releaseBuffer c
    if done then (s.onCore c Core.ended).committed c x.trig how x.arrived else s
  else if x.word.isSome then s
  else s.onCore c fun x => { x.ended with word := some { trig := x.trig, cbuf := x.cbuf, rsig := x.rsig, how := how,
                                                         arrived := x.arrived, seq := x.seq.toNat, shadows := x.mx.shadows,
                                                         firm := !x.rev, posts := x.posts != [] } }

/-- The commit of a core's activations, as far as it can go. -/
def State.commit (s : State) (c : Nat) : State :=
  let s := match (s.coreAt c).word with
    | some w => if isHead s w.trig then s.commitWaiting c w else s
    | none => s
  match (s.coreAt c).phase with
  | .ending how => s.commitEnded c how
  | _ => s

/-- ACTIVATION_COMMIT (R280). -/
def execActivationCommit (c : Nat) (s : State) : Host.Outcome State Fault Refusal := .next (s.commit c)

/-! ## The sequencer of an ordered domain (R299) -/

/-- A message has its key: its timestamp, or the frontier if it lies below it, and the count of arrivals. -/
def State.keyed (s : State) (m : Msg) : (Nat × Nat) × State :=
  match m.key with
  | some k => (k, s)
  | none =>
    let d := domainOf s m.ctx m.grp
    let k := (max m.ts d.front, d.next)
    (k, s.onCtx m.ctx fun x => { x with
      domains := Tbl.put x.domains m.grp { d with next := d.next + 1, keys := d.keys ++ [k] } })

/-- A message receives its key at the sequencer, and goes to a ready member. While none is ready it is held, and with all lost it is
lost (R72, R299, R300, R386). -/
def State.sequence (s : State) (m : Msg) : State :=
  let (k, s) := s.keyed m
  if readyMembers s m.ctx m.grp = [] then
    if (groupMembers s m.ctx m.grp).all (coreLost s) then s.forgetKey { m with key := some k }
    else s.launch (.sequencerArrival { m with key := some k })
  else
  let ms := readyMembers s m.ctx m.grp
  let c := if m.obj.isNone && ms.contains m.dcore then m.dcore
    else ms.getD (Config.freeChoice s.tick ms.length % max ms.length 1) m.dcore
  let hint := match m.obj with
    | some _ => (route s m).getD c
    | none => c
  s.dispatchMsg { m with key := some k, dcore := if ms.contains hint then hint else c, obj := none }

/-- SEQUENCER_ARRIVAL (R299). -/
def execSequencerArrival (m : Msg) (s : State) : Host.Outcome State Fault Refusal :=
  .next (if (s.ctxAt m.ctx).live && (s.ctxAt m.ctx).state != 3 then s.sequence m else s)

/-! ## Task records at home (R308, R309) -/

/-- TASK_AT_HOME (R308): a tk operation at the record's home slice. -/
def execTaskAtHome (r : TaskReq) (s : State) : Host.Outcome State Fault Refusal := .next (s.taskHome r)

/-- A task waits, and its deadline has passed. -/
def overdue (s : State) (t : Task) : Bool := t.st == 1 && !t.bad && !t.bar && t.dl != 0 && decide (t.dl ≤ s.pkg.now.toNat)

/-- The task of a record is overdue. -/
def deadlinePassed (s : State) (ctx va : Nat) : Bool :=
  match recordPa s ctx va with
  | some pa => overdue s (taskAt s pa)
  | none => false

/-- The deadline of a waiting task has passed: it is queued with status 1 (Table 14.13). -/
def State.deadline (s : State) (ctx va : Nat) : State :=
  match recordPa s ctx va with
  | some pa => if overdue s (taskAt s pa) then s.queueTask (armedBy s ctx va) ctx va pa 1 (taskAt s pa).count else s
  | none => s

/-- TASK_DEADLINE (R308). -/
def execTaskDeadline (ctx va : Nat) (s : State) : Host.Outcome State Fault Refusal := .next (s.deadline ctx va)

/-- The level at which a core may take tasks of a cluster: 1 its own, 2 its die's, 3 another die's (R309). -/
def stealLevel (c k : Nat) : Nat := if clusterOf c = k then 1 else if dieOf c = k / 32 then 2 else 3

/-- A core may take a task that lies in a cluster's ready queue; one that waits for a replay, or is spilled to the ring, is not
taken (R87, R309). -/
def mayTake (s : State) (c ctx k : Nat) (r : Ready) : Bool :=
  let waited := s.pkg.cyc.toNat - r.since
  r.m.ctx == ctx && !r.waits && r.m.rslot.isNone && inGroup s ctx r.m.grp c && match stealLevel c k with
    | 1 => true
    | 2 => decide (1024 ≤ waited)
    | _ => decide (8192 ≤ waited) && r.mig

/-- The older of two tasks. -/
def older (a b : Nat × Ready) : Nat × Ready := if b.2.since < a.2.since then b else a

/-- The oldest task that a core may take, at the lowest level that has one. -/
def taskFor (s : State) (c ctx : Nat) : Option (Nat × Ready) :=
  let all := s.clusters.flatMap fun e => (e.2.ready.filter fun r => mayTake s c ctx e.1 r).map fun r => (e.1, r)
  let level := fun n => match all.filter fun e => stealLevel c e.1 == n with
    | [] => none
    | e :: rest => some (rest.foldl older e)
  ((level 1).or (level 2)).or (level 3)

/-- An idle member core without a pending enabled tag takes a task, which is delivered to it (R309). One with a footprint stays queued
while it waits for a free slot, and until its footprint has been fetched (R156, Table 14.13). -/
def State.takeTask (s : State) (c : Nat) : State :=
  match canStart s c with
  | none => s
  | some ctx =>
    if (s.coreAt c).fetching.isSome || (tagsOf s c ctx).tags.any fun e => e.2.en && tagPending s c ctx e.1 e.2 then s
    else match taskFor s c ctx with
      | none => s
      | some (k, r) =>
        let m := { r.m with dcore := c }
        let left := s.onCluster k fun x => { x with ready := refillTasks (readyCap s k) (x.ready.erase r) }
        if wantsSlot s m then
          if (freeSlot s c ctx).isNone then s else left.fetchFor c ctx m
        else left.deliverTask c m

/-- TASK_TAKE (R309). -/
def execTaskTake (c : Nat) (s : State) : Host.Outcome State Fault Refusal := .next (s.takeTask c)

/-! ## Barriers (R313) -/

/-- A core's barrier entries whose continuation is due are closed, wherever the core's state lies. -/
def State.settleHeldBars (s : State) (c ctx : Nat) : State :=
  if Tbl.has (s.ctxAt ctx).saves c then
    let x := Tbl.getD (s.ctxAt ctx).saves c {}
    let due := x.bars.filter BarEntry.ripe
    let s := s.onHolder c ctx fun x => { x with bars := x.bars.filter fun b => !b.ripe }
    (due.filterMap BarEntry.cont).foldl State.send s
  else s.settleBars c

/-- BARRIER_ACKNOWLEDGEMENT (R313): the arrival's generation is written into its entry at the core, if that is still open. -/
def execBarrierAcknowledgement (c ctx va : Nat) (a : BarAck) (s : State) : Host.Outcome State Fault Refusal :=
  .next (s.onHolder c ctx fun x => { x with bars := x.bars.map fun b =>
    if b.ctx == ctx && b.va == va && b.id == a.ent && b.gen.isNone then { b with gen := some a.gen } else b })

/-- BARRIER_RELEASE (R313): entries of the generation are released, and registered continuations are queued. -/
def execBarrierRelease (c ctx va gen : Nat) (s : State) : Host.Outcome State Fault Refusal :=
  .next ((s.onHolder c ctx fun x => { x with bars := x.bars.map fun b =>
    if b.ctx == ctx && b.va == va && b.gen == some gen then { b with released := true } else b }).settleHeldBars c ctx)

/-! ## Neighbour queues (R269, R273, R365) -/

/-- QUEUE_WORD_ARRIVAL (R269): a word arrives in its context's input FIFO of the core. A word to or from a core being moved is held
(R365). -/
def execQueueWordArrival (c port : Nat) (w : QueueWord) (s : State) : Host.Outcome State Fault Refusal :=
  .next (if moving s c || moving s ((neighbour c port).getD c) then
      { s with flight := placeBefore (wordFor w.ctx c port) (.queueWordArrival c port w) s.flight }
    else s.wordArrives c port w)

end Sys2Proof.Machine
end

