-- ==== Sys2Proof/Machine/Checker.lean ====
section
/-!
DEFINITION. Instruction fetch (R59, R79, R86, R87, R185), and the signature checker of a core (R50, R51, R357 to R361).
-/
namespace Sys2Proof.Machine

/-! ## Fetch -/

/-- The place of an instruction word or of a record of .sig: the checks of R86, and a failing one ends the instruction
with the address (R185, R357). Either counts as an instruction fetch where its page is not present (R90). -/
def resolveFetch (va : Nat) (acc : Acc) : M Place := do
  let s ← get
  let ctx := s.ctxNo
  if va % 4 ≠ 0 then trap 0x03 (word va)
  else if 0xE ≤ window va then
    match checkWindow s s.cur ctx va with
    | .ok pl => pure pl
    | _ => trap 0x05 (word va)
  else if missWaits s s.cur ctx va then
    set (s.enterMiss s.cur ctx va .fetch)
    stall
  else
    let (r, t) := checkPaged s s.cur ctx va acc (acc != .fetch)
    set t
    match r with
    | .ok pl => match chainLost t pl with
      | some ch => endWith fun s => s.consume s.cur 0x24 va (word va) ch
      | none => pure pl
    | .absent => endWith fun s => s.notPresent s.cur va .fetch
    | .cset => trap 0x06 (word va)
    | .poisoned cls => endWith fun s => s.consume s.cur cls va (word va)
    | .pull l => endWith fun s => s.pull s.cur l
    | .prot => trap 0x05 (word va)

/-- Bytes at a place that the core fetches from. -/
def fetchBytes (va : Nat) (pl : Place) (n : Nat) : M (List Byte) := do
  let s ← get
  match readPlace s s.cur s.ctxNo pl n with
  | .ok bs => pure bs
  | .wait => stall
  | .bad cls => endWith fun s => s.consume s.cur cls va (word va) (failDetail cls pl)
  | .refused => trap 0x05 (word va)
  | .host pa => pure (s.readPa pa n)

/-- A fetch hits the core's L1 instruction cache, or is a request to the line's home slice that fills it with a clean line (R67,
R106, R122). -/
def State.noteFetch (s : State) (c ctx : Nat) (pl : Place) : State :=
  let pa := servedPa s c pl
  let clean := match pl with
    | .mem _ => true
    | .chain x ch off => !dirtyAt (chainOf s x ch) (servingLink s c (chainOf s x ch)) (lineOf off)
  if (s.coreAt c).l1i.contains (lineOf pa) then s
  else
    let s := s.count ctx (dieOf c) (homePa s ctx pl) false
    let s := s.askRemote ctx pa (.mem { core := c, pkg := s.pkg.num, ctx := ctx, pa := pa, acc := .fetch })
    if clean then s.fillL1 c pa true else s.fillL2 pa

/-- The instruction word at the program counter (R5). -/
def fetchWord : M (BitVec 32) := do
  let c ← core
  let va := c.pc.toNat
  let pl ← resolveFetch va .fetch
  let bs ← fetchBytes va pl 4
  modify fun s => s.noteFetch s.cur s.ctxNo pl
  pure (BitVec.ofNat 32 (ofBytes bs))

/-! ## CRC-32C (R50) -/

/-- One bit of the reflected polynomial 0x1EDC6F41. -/
def crcBit (c : Nat) : Nat := if c % 2 = 1 then (c / 2) ^^^ 0x82F63B78 else c / 2

/-- A number of bits. -/
def crcBits : Nat → Nat → Nat
  | 0, c => c
  | n + 1, c => crcBits n (crcBit c)

/-- A word fed as four little-endian bytes. -/
def crcWord (crc : Nat) (w : BitVec 32) : Nat := crcBits 32 (crc ^^^ w.toNat)

/-! ## Block records (R51, R356) -/

/-- A block record. -/
structure SigRec where
  start : Nat
  len : Nat
  flags : Nat
  sig : Nat
  next : Nat
  deriving DecidableEq, Repr

/-- A record from its 16 bytes. -/
def sigRec (bs : List Byte) : SigRec :=
  let f := fun i n => ofBytes ((bs.drop i).take n)
  ⟨f 0 4, f 4 2, f 6 2, f 8 4, f 12 4⟩

/-- The address of .sig and the number of its records (Table 16.13). -/
def sigBase (x : Ctx) : Nat := fld x.sigctl 35 0 * 65536
/-- The number of records. -/
def sigCount (x : Ctx) : Nat := fld x.sigctl 60 36
/-- The address of .text (Table 16.14). -/
def textBase (x : Ctx) : Nat := fld x.sigtext 35 0 * 65536

/-- A record read with rd permission. -/
def readRec (va : Nat) : M SigRec := do
  let pl ← resolveFetch va .read
  let bs ← fetchBytes va pl 16
  pure (sigRec bs)

/-- The record of a start, among those sorted by start (R51, R357, log 21 DEDUCED). -/
def findRec (base off : Nat) : Nat → M (Option SigRec)
  | 0 => pure none
  | n + 1 => do
    let r ← readRec base
    if r.start = off then pure (some r)
    else if off < r.start then pure none
    else findRec (base + 16) off n

/-- The successors from an entry of the list to its end mark. -/
def readSucc (va : Nat) : Nat → M (List Nat)
  | 0 => pure []
  | n + 1 => do
    let pl ← resolveFetch va .read
    let bs ← fetchBytes va pl 4
    let x := ofBytes bs
    if x = 0xFFFFFFFF then pure []
    else do
      let more ← readSucc (va + 4) n
      pure (x :: more)

/-! ## Checking (R357, R358) -/

/-- A mismatch at the current instruction, which does not retire (R360, R361). -/
def mismatchAt {α : Type} (start addr : Nat) : M α := endWith fun s => s.mismatch s.cur start addr

/-- A block may be entered as it is (R357). -/
def accepted (b : Block) (r : SigRec) : Bool :=
  match b.how with
  | 0 => bit r.flags 0
  | 1 => b.succ.contains r.start
  | 2 => bit r.flags 1
  | 9 => false
  | _ => true

/-- A block entered, with its record. -/
def Block.enter (b : Block) (r : SigRec) : Block :=
  { b with on := true, start := r.start, len := r.len, flags := r.flags, sig := r.sig, next := r.next, pos := 0, crc := 0xFFFFFFFF }

/-- The block that the current instruction belongs to; at an entry its record is looked up. An instruction that does not follow the
one before it in an open block was reached by a transfer that is not accepted (R357, R358, log 21 DEDUCED). -/
def checkedBlock (x : Ctx) : M Block := do
  let c ← core
  let b := c.chk.cur
  let pc := c.pc.toNat
  let off := (pc - textBase x) / 4
  if b.on then
    if pc = textBase x + 4 * (b.start + b.pos) then pure b else mismatchAt off pc
  else if pc < textBase x then mismatchAt off pc
  else do
    match ← findRec (sigBase x) off (sigCount x) with
    | some r => if accepted b r then pure (b.enter r) else mismatchAt off pc
    | none => mismatchAt off pc

/-- The checker's look at an instruction word: the block's state once the instruction has retired; none while checking
is off. -/
def checkWord (w : BitVec 32) : M (Option Block) := do
  let s ← get
  let x := s.ctxAt s.ctxNo
  if !bit x.sigctl.toNat 63 then pure none
  else do
    let b ← checkedBlock x
    let crc := crcWord b.crc w
    if b.pos + 1 = b.len then
      if crc ^^^ 0xFFFFFFFF ≠ b.sig then mismatchAt b.start (textBase x + 4 * b.start)
      else do
        let succ ← readSucc (sigBase x + 16 * sigCount x + 4 * b.next) 65536
        pure (some { how := if bit b.flags 3 then 4 else 1, succ := succ })
    else pure (some { b with pos := b.pos + 1, crc := crc })

end Sys2Proof.Machine
end

