-- ==== Sys2Proof/Machine/Gauss.lean ====
section
/-!
DEFINITION. Gaussian messages, factors and run-out (chapter 11): gm, fg, posts on their way, and the firing of a run-out
unit.
-/
namespace Sys2Proof.Machine

/-! ## Arithmetic with its flags (R229) -/

/-- A computation that gathers the flags it raises. -/
abbrev Ar := StateM FFlags

/-- One rounded operation. -/
def ar (r : Lane × FFlags) : Ar Lane := fun f => (r.1, f ||| r.2)

/-- Add. -/
def arAdd (rm : Rm) (a b : Lane) : Ar Lane := ar (fadd32 rm a b)
/-- Sub. -/
def arSub (rm : Rm) (a b : Lane) : Ar Lane := ar (fsub32 rm a b)
/-- Mul. -/
def arMul (rm : Rm) (a b : Lane) : Ar Lane := ar (fmul32 rm a b)
/-- Div. -/
def arDiv (rm : Rm) (a b : Lane) : Ar Lane := ar (fdiv32 rm a b)
/-- Fma. -/
def arFma (rm : Rm) (a b c : Lane) : Ar Lane := ar (fma32 rm a b c)

/-- FP32 1.0. -/
def one32 : Lane := 0x3F800000
/-- The canonical NaN of FP32. -/
def nan32 : Lane := 0x7FC00000

/-! ## Blocks (R227 to R229) -/

/-- A block as an instruction computes on it: the vector at i, the matrix at 8i + j. -/
structure Gauss where
  eta : List Lane := List.replicate 8 0
  lam : List Lane := List.replicate 64 0
  deriving DecidableEq, Repr

/-- The vector's entry i. -/
def Gauss.h (g : Gauss) (i : Nat) : Lane := g.eta.getD i 0
/-- The matrix entry (i, j) as stored. -/
def Gauss.at (g : Gauss) (i j : Nat) : Lane := g.lam.getD (8 * i + j) 0
/-- The matrix entry (i, j), below the diagonal by its mirror (R234). -/
def Gauss.sym (g : Gauss) (i j : Nat) : Lane := g.at (min i j) (max i j)
/-- The vector's entry i set. -/
def Gauss.setH (g : Gauss) (i : Nat) (x : Lane) : Gauss := { g with eta := g.eta.set i x }
/-- The matrix entry (i, j) set. -/
def Gauss.setAt (g : Gauss) (i j : Nat) (x : Lane) : Gauss := { g with lam := g.lam.set (8 * i + j) x }

/-- The entries of a block's registers. -/
def readBlock (xs : List VWord) : Gauss :=
  ⟨(List.range 8).map (laneAt xs 0), (List.range 64).map fun k => lamAt xs (k / 8) (k % 8)⟩

/-- The five registers of a block (R227): every lane is written. -/
def Gauss.regs (g : Gauss) : List VWord :=
  (Vector.ofFn fun i => g.h i.val) :: (List.range 4).map fun q => Vector.ofFn fun i => g.lam.getD (16 * q + i.val) 0

/-- The entries below the diagonal are copies of those above it (R229). -/
def Gauss.mirrored (g : Gauss) : Gauss := { g with lam := (List.range 64).map fun k => g.sym (k / 8) (k % 8) }

/-- The index pairs on and above the diagonal, in order (R229). -/
def upper (d : Nat) : List (Nat × Nat) :=
  (List.range d).flatMap fun i => ((List.range d).filter fun j => decide (i ≤ j)).map fun j => (i, j)

/-- The dimension; an invalid one makes the instruction illegal (R228). -/
def blockDim : M Nat := do
  let c ← core
  let d := c.gdim.toNat
  if d = 0 ∨ 8 < d then illegal else pure d

/-- An FP32 scalar operand: bits [31:0], or a literal converted exactly (R232). -/
def Core.srcF32 (c : Core) (x : Src) : Lane :=
  match x with
  | .lit v => litF32 v
  | .reg n => (c.takeS n).1.setWidth 32
  | .const n => (c.getK n).setWidth 32

/-- A block result: its flags may trap, and then every lane of the destination is written (R229). -/
def finishBlock (rd : GReg) (srcs : List SReg) (r : Gauss × FFlags) : M Unit := do
  raise r.2
  modCore fun c => (c.dequeue srcs).setG rd r.1.regs
  retire

/-! ## Element-wise functions (R233, R236) -/

/-- A function of the entries of the vector and of the matrix on and above the diagonal. -/
def eachEntry (d : Nat) (fh : Nat → Ar Lane) (fl : Nat → Nat → Ar Lane) : Ar Gauss := do
  let g ← (List.range d).foldlM (fun (g : Gauss) i => do
    let x ← fh i
    pure (g.setH i x)) {}
  let g ← (upper d).foldlM (fun (g : Gauss) e => do
    let x ← fl e.1 e.2
    pure (g.setAt e.1 e.2 x)) g
  pure g.mirrored

/-- The entries of two blocks combined. -/
def eachPair (d : Nat) (a b : Gauss) (f : Lane → Lane → Ar Lane) : Ar Gauss :=
  eachEntry d (fun i => f (a.h i) (b.h i)) (fun i j => f (a.at i j) (b.at i j))

/-- gm.damp: Fma(beta, old, Mul(c, new)) (R233). -/
def dampBlock (rm : Rm) (d : Nat) (beta : Lane) (a n : Gauss) : Ar Gauss := do
  let c ← arSub rm one32 beta
  eachPair d a n fun x y => do
    let m ← arMul rm c y
    arFma rm beta x m

/-- A function of two blocks. -/
def gauss2 (rd sa sb : GReg) (f : Rm → Lane → Lane → Ar Lane) : M Unit := do
  let d ← blockDim
  let c ← core
  finishBlock rd [] (eachPair d (readBlock (c.getG sa)) (readBlock (c.getG sb)) (f c.rm) 0)

/-- gm.add (R233). -/
def execGmAdd (rd sa sb : GReg) (s : State) : Host.Outcome State Fault Refusal := run (gauss2 rd sa sb arAdd) s

/-- gm.sub (R233). -/
def execGmSub (rd sa sb : GReg) (s : State) : Host.Outcome State Fault Refusal := run (gauss2 rd sa sb arSub) s

/-- gm.damp (R233). -/
def execGmDamp (rd sa : GReg) (sb : Src) (s : State) : Host.Outcome State Fault Refusal :=
  run (do
    let d ← blockDim
    openPorts none (srcNames sb)
    let c ← core
    finishBlock rd (srcNames sb) (dampBlock c.rm d (c.srcF32 sb) (readBlock (c.getG sa)) (readBlock (c.getG rd)) 0)) s

/-- The band of a residual (R236). -/
def bandOf (x : Lane) : Nat :=
  if (f32 x).isNan || 0x3F800000 ≤ x.toNat then 3 else if 0x3B800000 ≤ x.toNat then 2 else if 0x37800000 ≤ x.toNat then 1 else 0

/-- The largest magnitude of the differences; a NaN among them is the result (R236). -/
def residual (xs : List Lane) : Lane :=
  if xs.any fun x => (f32 x).isNan then nan32
  else xs.foldl (fun m x => if m.toNat < (x &&& 0x7FFFFFFF).toNat then x &&& 0x7FFFFFFF else m) 0

/-- gm.res (R236). -/
def execGmRes (rd : SReg) (sa sb : GReg) (s : State) : Host.Outcome State Fault Refusal :=
  run (do
    let d ← blockDim
    openPorts (some rd) []
    let c ← core
    let (g, fl) := eachPair d (readBlock (c.getG sa)) (readBlock (c.getG sb)) (arSub c.rm) 0
    let x := residual ((List.range d).map g.h ++ (upper d).map fun e => g.at e.1 e.2)
    raise fl
    finishS rd [] (Machine.word (bandOf x * 2 ^ 32 + x.toNat))) s

/-! ## Elimination (R234) -/

/-- What elimination keeps: M and h, and the factors L and D as a matrix. -/
structure Elim where
  g : Gauss
  ld : Gauss := {}
  deriving DecidableEq, Repr

/-- The pivot is above zero. -/
def goodPivot (p : Lane) : Bool := (f32 0).lt (f32 p)

/-- One index eliminated from those that remain. -/
def elimStep (rm : Rm) (useH : Bool) (p : Nat) (left : List Nat) (e : Elim) : Ar Elim := do
  let piv := e.g.sym p p
  let e ← left.foldlM (fun (e : Elim) i => do
    let f ← arDiv rm (e.g.sym i p) piv
    pure { e with ld := e.ld.setAt i p f }) { e with ld := e.ld.setAt p p piv }
  let pairs := left.flatMap fun i => (left.filter fun j => decide (i ≤ j)).map fun j => (i, j)
  let e ← pairs.foldlM (fun (e : Elim) ij => do
    let x ← arFma rm (fneg32 (e.ld.at ij.1 p)) (e.g.sym p ij.2) (e.g.at ij.1 ij.2)
    pure { e with g := e.g.setAt ij.1 ij.2 x }) e
  if useH then
    left.foldlM (fun (e : Elim) i => do
      let x ← arFma rm (fneg32 (e.ld.at i p)) (e.g.h p) (e.g.h i)
      pure { e with g := e.g.setH i x }) e
  else pure e

/-- The indices of a list eliminated, in ascending order, from those present; none on a bad pivot. -/
def eliminate (rm : Rm) (useH : Bool) (ps left : List Nat) (e : Elim) : Ar (Option Elim) :=
  match ps with
  | [] => pure (some e)
  | p :: rest =>
    let left := left.filter (· != p)
    if goodPivot (e.g.sym p p) then do
      let e ← elimStep rm useH p left e
      eliminate rm useH rest left e
    else pure none

/-- The back substitution: x from h and the factors (R234). -/
def back (rm : Rm) (d : Nat) (ld h : Gauss) : Ar Gauss :=
  (List.range d).reverse.foldlM (fun (x : Gauss) p => do
    let v ← arDiv rm (h.h p) (ld.at p p)
    let v ← ((List.range d).filter fun i => decide (p < i)).foldlM (fun v i => arFma rm (fneg32 (ld.at i p)) (x.h i) v) v
    pure (x.setH p v)) {}

/-- The result of an elimination that failed: the canonical NaN within the dimension (R234). -/
def failBlock (d : Nat) : Gauss :=
  ⟨(List.range 8).map fun i => if i < d then nan32 else 0,
   (List.range 64).map fun k => if k / 8 < d ∧ k % 8 < d then nan32 else 0⟩

/-- A failed elimination raises nv. -/
def failed (d : Nat) : Ar Gauss := fun f => (failBlock d, f ||| fNv)

/-- gm.marg's result: the dropped variables eliminated, the kept ones packed (R234). -/
def margBlock (rm : Rm) (d keep : Nat) (a : Gauss) : Ar Gauss := do
  let kept := (List.range d).filter fun i => bit keep i
  let dropped := (List.range d).filter fun i => !bit keep i
  let r ← eliminate rm true dropped (List.range d) { g := a }
  match r with
  | none => failed d
  | some e =>
    let n := kept.length
    let g := (List.range n).foldl (fun (g : Gauss) i => g.setH i (e.g.h (kept.getD i 0))) {}
    let g := (upper n).foldl (fun (g : Gauss) ij => g.setAt ij.1 ij.2 (e.g.at (kept.getD ij.1 0) (kept.getD ij.2 0))) g
    pure g.mirrored

/-- gm.sol's result: the mean and the factors (R234). -/
def solBlock (rm : Rm) (d : Nat) (a : Gauss) : Ar Gauss := do
  let r ← eliminate rm true (List.range d) (List.range d) { g := a }
  match r with
  | none => failed d
  | some e => do
    let x ← back rm d e.ld e.g
    pure { eta := x.eta, lam := e.ld.lam }

/-- A column of the inverse: forward and back substitution of a unit vector (R234). -/
def covColumn (rm : Rm) (d : Nat) (ld : Gauss) (j : Nat) : Ar Gauss := do
  let h ← (List.range d).foldlM (fun (h : Gauss) p =>
    ((List.range d).filter fun i => decide (p < i)).foldlM (fun (h : Gauss) i => do
      let x ← arFma rm (fneg32 (ld.at i p)) (h.h p) (h.h i)
      pure (h.setH i x)) h) (({} : Gauss).setH j one32)
  back rm d ld h

/-- gm.cov's result: the covariance and its diagonal (R234). -/
def covBlock (rm : Rm) (d : Nat) (a : Gauss) : Ar Gauss := do
  let r ← eliminate rm false (List.range d) (List.range d) { g := a }
  match r with
  | none => failed d
  | some e => do
    let g ← (List.range d).foldlM (fun (g : Gauss) j => do
      let x ← covColumn rm d e.ld j
      pure ((List.range (j + 1)).foldl (fun (g : Gauss) i => g.setAt i j (x.h i)) g)) {}
    pure ((List.range d).foldl (fun (g : Gauss) i => g.setH i (g.at i i)) g).mirrored

/-- A function of one block. -/
def gauss1 (rd sa : GReg) (f : Rm → Nat → Gauss → Ar Gauss) : M Unit := do
  let d ← blockDim
  let c ← core
  finishBlock rd [] (f c.rm d (readBlock (c.getG sa)) 0)

/-- gm.marg (R234). -/
def execGmMarg (rd sa : GReg) (sb : Src) (s : State) : Host.Outcome State Fault Refusal :=
  run (do
    let d ← blockDim
    openPorts none (srcNames sb)
    let c ← core
    finishBlock rd (srcNames sb) (margBlock c.rm d (fld (c.takeSrc sb).1 7 0) (readBlock (c.getG sa)) 0)) s

/-- gm.sol (R234). -/
def execGmSol (rd sa : GReg) (s : State) : Host.Outcome State Fault Refusal := run (gauss1 rd sa solBlock) s

/-- gm.cov (R234). -/
def execGmCov (rd sa : GReg) (s : State) : Host.Outcome State Fault Refusal := run (gauss1 rd sa covBlock) s

/-! ## Linear factors (R235) -/

/-- The sum over rows of Fma(Mul(w, J(k, i)), t, acc). -/
def rowSum (rm : Rm) (m i : Nat) (j w : Nat → Nat → Lane) (t : Nat → Lane) : Ar Lane :=
  (List.range m).foldlM (fun acc k => do
    let x ← arMul rm (w k 0) (j k i)
    arFma rm x (t k) acc) 0

/-- gm.lin's result: the matrix first, then the vector. -/
def linBlock (rm : Rm) (d m : Nat) (xs : List VWord) : Ar Gauss := do
  let jac := lamAt xs
  let w := fun k (_ : Nat) => laneAt xs 0 (8 + k)
  let g ← (upper d).foldlM (fun (g : Gauss) e => do
    let x ← rowSum rm m e.1 jac w fun k => jac k e.2
    pure (g.setAt e.1 e.2 x)) {}
  let g ← (List.range d).foldlM (fun (g : Gauss) i => do
    let x ← rowSum rm m i jac w fun k => laneAt xs 0 k
    pure (g.setH i x)) g
  pure g.mirrored

/-- The row count of gm.lin: at most 8, and none for 0 or below (R235). -/
def rowCount (w : Word) : Nat := (min w.toInt 8).toNat

/-- gm.lin (R235). -/
def execGmLin (rd sa : GReg) (sb : Src) (s : State) : Host.Outcome State Fault Refusal :=
  run (do
    let d ← blockDim
    openPorts none (srcNames sb)
    let c ← core
    finishBlock rd (srcNames sb) (linBlock c.rm d (rowCount (c.takeSrc sb).1) (c.getG sa) 0)) s

/-! ## Run-out (R244 to R246) -/

/-- gm.conv: a report for a group of which the core is a member (R244). -/
def execGmConv (sa sb : Src) (s : State) : Host.Outcome State Fault Refusal :=
  run (do
    let srcs := srcNames sa ++ srcNames sb
    openPorts none srcs
    let s ← get
    let x := s.core.srcF32 sa
    let (_, c1) := s.core.takeSrc sa
    let w := (c1.takeSrc sb).1
    trapIf (!inGroup s s.ctxNo (fld w 7 0) s.cur) 0x05 w
    gate (.conv (fld w 7 0) x)
    finish srcs) s

/-- The word of gm.rdro: the quiet count and the largest member's maximum; a group with no members reads 0 (R246). -/
def rdroWord (s : State) (ctx g : Nat) : Word :=
  let u := runOf s ctx g
  match groupMembers s ctx g with
  | [] => 0
  | cs =>
    let w := (u.reports.filter fun r => cs.contains r.1 && decide (r.2.2 < 4096)).foldl (fun m r => max m r.2.1.toNat) 0
    Machine.word (min u.count 0xFFFFFFFF * 2 ^ 32 + w)

/-- gm.rdro (R246). -/
def execGmRdro (rd : SReg) (sa : Src) (s : State) : Host.Outcome State Fault Refusal :=
  run (do
    openPorts (some rd) (srcNames sa)
    let s ← get
    finishS rd (srcNames sa) (rdroWord s s.ctxNo (fld (s.core.takeSrc sa).1 7 0))) s

/-- REPORT_WINDOW_EXPIRY (R245): the reports of a member of a group that have left their window are dropped, and the
quiet condition is seen afresh. -/
def execReportWindowExpiry (ctx g c : Nat) (s : State) : Host.Outcome State Fault Refusal :=
  .next ((s.onRun ctx g fun u => { u with
    reports := u.reports.filter fun r => r.1 != c || decide (r.2.2 < 4096) }).judge ctx g)

/-- RUN_OUT_FIRE (R245): a unit for which a quiet interval has been complete fires its launch entry. -/
def execRunOutFire (ctx g : Nat) (s : State) : Host.Outcome State Fault Refusal :=
  let u := runOf s ctx g
  .next (if (s.ctxAt ctx).state < 2 && u.due then
      (s.onRun ctx g fun u => { u with fired := true, arm := false, cond := false, count := 0, done := false }).launch
        (.launchTrigger ⟨ctx, false, u.lent.toNat, Machine.word g⟩)
    else s)

/-! ## Node objects (R239, R240) -/

/-- The object of an fg instruction: its address and header word 0, after checks 1 and 2 of R239. tval is the
whole register (log 89 DEDUCED). -/
def nodeObject (w : Word) : M (Nat × Nat) := do
  let s ← get
  let va := addrOf w
  if va % 64 ≠ 0 then trap 0x03 w
  else match ownOff s va with
    | none => trap 0x05 w
    | some off => do
      let bs ← ownBytes va off 8
      if badObject off (ofBytes bs) then trap 0x05 w else pure (off, ofBytes bs)

/-- The edges of an object. -/
def edgesOf (w0 : Nat) : Nat := bits w0 15 12

/-- Check 3 of R239: an edge index of edges or more, or a nonzero bit that must be 0, traps with the register. -/
def edgeIndex (w0 : Nat) (reg : Word) (hi lo : Nat) : M Nat :=
  if fld reg hi lo ≠ 0 ∨ edgesOf w0 ≤ fld reg 2 0 then trap 0x05 reg else pure (fld reg 2 0)

/-- The generation after another: 0xFFFF wraps to 1 (R240). -/
def nextEgen (g : Nat) : Nat := if g % 2 ^ 16 = 0xFFFF then 1 else g % 2 ^ 16 + 1

/-- Header word 0 with its live bits set and its generation advanced (Table 11.4). -/
def editHeader (w0 live : Nat) : Nat := (bits w0 63 32 + 1) % 2 ^ 32 * 2 ^ 32 + bits w0 31 8 * 256 + live

/-- A store of bytes at an offset of the own local store. -/
def storeOwn (va off : Nat) (bs : List Byte) : M Unit := do
  let s ← get
  storeGated va (ownPlace s off) (numbered bs) false

/-- fg.attach's edits of the lowest free edge, which are made together, and its result (R240). -/
def attachEdge (va off w0 i : Nat) (entry : Word) : M Word := do
  let slot := 128 + 192 * i
  let old ← ownBytes (va + slot + 176) (off + slot + 176) 4
  let g := nextEgen (ofBytes old)
  asGroup do
    storeOwn (va + 64 + 8 * i) (off + 64 + 8 * i) (toBytes 8 entry.toNat)
    storeOwn (va + slot) (off + slot) (List.replicate 176 0 ++ toBytes 4 g ++ List.replicate 12 0)
    storeOwn va off (toBytes 8 (editHeader w0 (bits w0 7 0 + 2 ^ i)))
  pure (Machine.word (g * 2 ^ 16 + i))

/-- fg.attach (R240). -/
def execFgAttach (la : BitVec 4) (ra rb rc : SReg) (s : State) : Host.Outcome State Fault Refusal :=
  run (do
    openPorts (some ra) [rb, rc]
    let s ← get
    let (b, c1) := s.core.takeS rb
    let e := (c1.takeS rc).1
    let (off, w0) ← nodeObject b
    trapIf (fld e 24 16 != 0 || fld e 39 34 != 0 || !inAnyGroup s s.ctxNo (fld e 63 52)) 0x05 e
    match (List.range (edgesOf w0)).find? fun i => !bit w0 i with
    | none => finishL ra la [rb, rc] 0xFFFFFFFFFFFFFFFF
    | some i => do
      let r ← attachEdge (addrOf b) off w0 i e
      finishL ra la [rb, rc] r) s

/-- fg.detach's edits of a live edge, which are made together (R240). -/
def detachEdge (va off w0 i : Nat) : M Unit := do
  let slot := 128 + 192 * i
  let tail ← ownBytes (va + slot + 176) (off + slot + 176) 16
  let g := nextEgen (ofBytes (tail.take 4))
  let sst := ofBytes (tail.drop 12)
  asGroup do
    storeOwn (va + slot + 176) (off + slot + 176) (toBytes 4 g)
    storeOwn (va + slot + 188) (off + slot + 188) (toBytes 4 (if bit sst 4 then sst - 16 else sst))
    storeOwn va off (toBytes 8 (editHeader w0 (bits w0 7 0 - 2 ^ i)))

/-- fg.detach (R240). -/
def execFgDetach (ra rb : SReg) (s : State) : Host.Outcome State Fault Refusal :=
  run (do
    openPorts none [ra, rb]
    let c ← core
    let (a, c1) := c.takeS ra
    let b := (c1.takeS rb).1
    let (off, w0) ← nodeObject b
    let i ← edgeIndex w0 a 63 3
    if bit w0 i then detachEdge (addrOf b) off w0 i else pure ()
    finish [ra, rb]) s

/-- fg.slot (R240). -/
def execFgSlot (la : BitVec 4) (ra rb rc : SReg) (s : State) : Host.Outcome State Fault Refusal :=
  run (do
    openPorts (some ra) [rb, rc]
    let c ← core
    let (b, c1) := c.takeS rb
    let e := (c1.takeS rc).1
    let (_, w0) ← nodeObject b
    let i ← edgeIndex w0 e 63 3
    finishL ra la [rb, rc] (b + Machine.word (128 + 192 * i))) s

/-- fg.gen (R240). -/
def execFgGen (la : BitVec 4) (ra rb rc : SReg) (s : State) : Host.Outcome State Fault Refusal :=
  run (do
    openPorts (some ra) [rb, rc]
    let c ← core
    let (b, c1) := c.takeS rb
    let e := (c1.takeS rc).1
    let (off, w0) ← nodeObject b
    let i := fld e 3 0
    if fld e 63 4 ≠ 0 ∨ 8 < i ∨ (i < 8 ∧ edgesOf w0 ≤ i) then trap 0x05 e
    else if i = 8 then finishL ra la [rb, rc] (Machine.word (bits w0 63 32))
    else do
      let g ← ownBytes (addrOf b + 304 + 192 * i) (off + 304 + 192 * i) 2
      finishL ra la [rb, rc] (Machine.word (ofBytes g))) s

/-! ## Posts (R241) -/

/-- The message of a block, packed for a dimension (R230): entries outside it are +0. -/
def packEta (d : Nat) (xs : List VWord) : List Lane := (List.range 8).map fun i => if i < d then laneAt xs 0 i else 0
/-- The packed matrix of a block for a dimension. -/
def packLam (d : Nat) (xs : List VWord) : List Lane := triangle.map fun e => if e.2 < d then lamAt xs e.1 e.2 else 0

/-- The post that an edge entry and a block give (R241). -/
def postOf (s : State) (d : Nat) (xs : List VWord) (res : Lane) (entry : Nat) : Post :=
  { poster := s.cur, ctx := s.ctxNo, ncore := bits entry 63 52, noff := bits entry 51 34, nslot := bits entry 33 31,
    fgen := bits entry 15 0, tag := bits entry 30 25, dim := d, res := res, eta := packEta d xs, lam := packLam d xs }

/-- fg.post (R241). -/
def execFgPost (ra : GReg) (rb rc : SReg) (s : State) : Host.Outcome State Fault Refusal :=
  run (do
    let d ← blockDim
    openPorts none [rb, rc]
    let c ← core
    let (b, c1) := c.takeS rb
    let e := (c1.takeS rc).1
    let (off, w0) ← nodeObject b
    let i ← edgeIndex w0 e 31 3
    trapIf (!bit w0 i) 0x05 e
    let bs ← ownBytes (addrOf b + 64 + 8 * i) (off + 64 + 8 * i) 8
    let s ← get
    gate (.post (postOf s d (s.core.getG ra) (BitVec.ofNat 32 (fld e 63 32)) (ofBytes bs)))
    finish [rb, rc]) s

/-- A step is the arrival of a post of the same sender at the same core. -/
def samePosts (p : Post) (i : Instr) : Bool :=
  match i with
  | .postArrival q => q.poster == p.poster && q.ncore == p.ncore
  | _ => false

/-- A post arrives at its core: up to 16 are buffered, further ones wait in the fabric; an idle core applies it at once.
While its context is pre-empted it is buffered in the saved state of the core (R241, Table 11.10). -/
def State.postArrive (s : State) (p : Post) : State :=
  let c := p.ncore
  let x := s.holder c p.ctx
  if 16 ≤ x.posts.length || copying s c then
    { s with flight := placeBefore (samePosts p) (.postArrival p) s.flight }
  else if Tbl.has (s.ctxAt p.ctx).saves c || x.phase != .idle || x.posts != [] then
    s.onHolder c p.ctx fun x => { x with posts := x.posts ++ [p] }
  else s.applyPost p

/-- POST_ARRIVAL (R241). -/
def execPostArrival (p : Post) (s : State) : Host.Outcome State Fault Refusal := .next (s.postArrive p)

/-- The buffered posts of a core wait for the commit of the ordered activation in whose run they arrived (R241, log 92 DEDUCED). -/
def Core.holdsPosts (x : Core) : Bool := x.word.any Waiting.posts

/-- The oldest buffered post of a core at an activation boundary is applied (R241). -/
def State.postApply (s : State) (c : Nat) : State :=
  let x := s.coreAt c
  match x.posts with
  | p :: rest => if x.phase = .idle ∧ !x.holdsPosts then (s.onCore c fun x => { x with posts := rest }).applyPost p else s
  | [] => s

/-- POST_APPLY (R241). -/
def execPostApply (c : Nat) (s : State) : Host.Outcome State Fault Refusal := .next (s.postApply c)

end Sys2Proof.Machine
end

