-- ==== Sys2Proof/Machine/Launch.lean ====
section
/-!
DEFINITION. Launch entries, groups, trail mode, pre-emption and start gates (chapter 15): the trl and gl instructions,
and the steps of launches, pre-emption and gates.
-/
namespace Sys2Proof.Machine

/-! ## Trail mode (R323, R326, R328) -/

/-- A trl.lead or trl.join on the wrong column, or in trail mode, is illegal; else the activation becomes irrevocable
(R323). -/
def enterTrail (column : Nat → Bool) : M Unit := do
  let s ← get
  if !column (s.cur % 4) || s.core.inTrail then illegal else becomeIrrevocable

/-- Another core of the row has executed trl.join and waits, for the same context. -/
def hasJoined (x lead : Core) : Bool := x.trail.role == .waiting && x.phase == .running && x.ctx == lead.ctx

/-- A joined core enters trail mode: its trl.join retires, and it follows the stream from the leader's next
instruction (R19, R323). -/
def Core.joined (x : Core) (pc : BitVec 52) : Core :=
  ({ x with trail := { role := .trailing }, pc := pc, icount := x.icount + 1, stalled := false }).tickWindows

/-- trl.lead (R323). -/
def execTrlLead (s : State) : Host.Outcome State Fault Refusal :=
  run (do
    enterTrail (· == 0)
    let s ← get
    if (others s.cur).all fun i => hasJoined (s.coreAt i) s.core then do
      modCore fun x => { x with trail := { role := .leader } }
      retire
      modify fun s => (others s.cur).foldl (fun t i => t.onCore i fun x => x.joined s.core.pc) s
    else do
      modCore fun x => { x with trail := { role := .waiting } }
      stall) s

/-- trl.join (R323): the core waits, and goes on in the leader's stream. -/
def execTrlJoin (s : State) : Host.Outcome State Fault Refusal :=
  run (do
    enterTrail (· != 0)
    modCore fun x => { x with trail := { role := .waiting } }
    stall) s

/-- trl.quit (R326): in the stream the core goes on by itself; in the handler of a core that has left the stream, trail
mode ends for the row (R325). -/
def execTrlQuit (s : State) : Host.Outcome State Fault Refusal :=
  run (do
    let s ← get
    if s.core.inTrail && s.core.trail.left.isSome then modify fun s => s.endTrail s.cur
    else modCore fun x => { x with trail := {} }
    retire) s

/-! ## The gl instructions (R329 to R333) -/

/-- An entry operand with bits above [5:0] set traps (R330). -/
def entryOperand (w : Word) : M Nat := if fld w 63 6 ≠ 0 then trap 0x05 w else pure (fld w 5 0)

/-- A descriptor of 32 bytes: misaligned or outside the own local store traps with its address (R330). -/
def glDescriptor (w : Word) : M (List Word) := do
  let s ← get
  let va := addrOf w
  if va % 32 ≠ 0 then trap 0x03 (Machine.word va)
  else match ownOff s va with
  | none => trap 0x05 (Machine.word va)
  | some off => do
    let bs ← ownBytes va off 32
    pure ((List.range 4).map fun i => Machine.word (ofBytes ((bs.drop (8 * i)).take 8)))

/-- Word i of a descriptor. -/
def wordOf (ws : List Word) (i : Nat) : Word := ws.getD i 0

/-- A launch descriptor that gl.arm refuses (R318, R330). -/
def badLaunch (s : State) (ws : List Word) : Bool :=
  let w0 := wordOf ws 0
  let w1 := wordOf ws 1
  let n := fld w0 48 0
  fld w0 63 49 != 0 || fld w1 43 38 != 0 || fld w1 7 6 != 0 || wordOf ws 2 != 0 || wordOf ws 3 != 0 ||
    n == 0 || 2 ^ 48 < n || !groupExists s s.ctxNo (fld w1 15 8)

/-- gl.arm (R318). -/
def execGlArm (ra rb : SReg) (s : State) : Host.Outcome State Fault Refusal :=
  run (do
    openPorts none [ra, rb]
    let c ← core
    let (a, c1) := c.takeS ra
    let b := (c1.takeS rb).1
    let e ← entryOperand a
    let ws ← glDescriptor b
    let s ← get
    trapIf (badLaunch s ws) 0x05 (Machine.word (addrOf b))
    gate (.arm e (wordOf ws 0) (wordOf ws 1))
    finish [ra, rb]) s

/-- gl.disarm (R317). -/
def execGlDisarm (ra : SReg) (s : State) : Host.Outcome State Fault Refusal :=
  run (do
    openPorts none [ra]
    let c ← core
    let e ← entryOperand (c.takeS ra).1
    gate (.disarm e)
    finish [ra]) s

/-- A trigger word with a nonzero reserved bit (R331). -/
def badTrigger (w : Word) : Bool := fld w 63 24 != 0 || bit w.toNat 7 || (!bit w.toNat 6 && fld w 23 8 != 0)

/-- gl.trig (R319, R331). -/
def execGlTrig (ra rb : SReg) (s : State) : Host.Outcome State Fault Refusal :=
  run (do
    openPorts none [ra, rb]
    let s ← get
    let (a, c1) := s.core.takeS ra
    let b := (c1.takeS rb).1
    trapIf (badTrigger a) 0x05 a
    if bit a.toNat 6 then gate (.trigRemote (fld a 17 8) ⟨fld a 23 18, true, fld a 5 0, b⟩ a)
    else gate (.trig ⟨s.ctxNo, true, fld a 5 0, b⟩)
    finish [ra, rb]) s

/-- The package numbers of a gate's list, each read under the checks of a read (R340). -/
def readParties (va : Nat) : Nat → M (List Nat)
  | 0 => pure []
  | n + 1 => do
    let pl ← resolve va 2 .read
    let bs ← loadBytes va pl 2
    let rest ← readParties (va + 2) n
    pure (ofBytes bs :: rest)

/-- A gate descriptor that gl.gate refuses (R340). -/
def badGate (ws : List Word) : Bool :=
  let w0 := wordOf ws 0
  let n := fld w0 10 0
  fld w0 31 30 != 0 || bit w0.toNat 11 || fld (wordOf ws 2) 63 52 != 0 || n == 0 || 1024 < n ||
    2 ^ 52 < fld (wordOf ws 2) 51 0 + 2 * n

/-- The installed entry of a gate for a context. -/
def gateFor (s : State) (id ctx : Nat) : Option GateEntry := s.pkg.gates.find? fun g => g.id == id && g.ctx == ctx

/-- gl.gate (R340). -/
def execGlGate (ra : SReg) (s : State) : Host.Outcome State Fault Refusal :=
  run (do
    openPorts none [ra]
    let c ← core
    let a := (c.takeS ra).1
    let ws ← glDescriptor a
    let s ← get
    let w0 := wordOf ws 0
    match gateFor s (fld w0 63 32) s.ctxNo with
    | none => trap 0x05 a
    | some g => do
      trapIf (badGate ws) 0x05 (Machine.word (addrOf a))
      let ps ← readParties (fld (wordOf ws 2) 51 0) (fld w0 10 0)
      trapIf (ps.any (fun p => decide (1024 ≤ p)) || !decide ps.Nodup) 0x05 (Machine.word (addrOf a))
      gate (.gate { id := fld w0 63 32, time := (wordOf ws 1).toNat, action := g.action, partly := g.partly, guard := g.guard,
                    pay := wordOf ws 3 } (fld w0 23 12) (fld w0 29 24) ps)
      finish [ra]) s

/-- The tail's copy of a place, as ch.tail reads it (R118): the own held bytes first, and a chain line's other bytes from
the tail. -/
def readTail (s : State) (c ctx : Nat) (pl : Place) (n : Nat) : Got :=
  match pl with
  | .mem pa => readMem s ctx pa n
  | .chain x ch off =>
    let e := chainOf s x ch
    if (s.coreAt c).chainOut.any fun st => st.ctx == x && st.ch == ch && touches st (lineOf off) then .wait
    else if e.cst = 3 then .bad 0x24
    else if e.reconf then .wait
    else readMem s ctx (linkPa (tailOf e.links) off) n

/-- A doubleword at the tail (R118); for any other address, as ld.d. -/
def tailBytes (va : Nat) (pl : Place) : M (List Byte) :=
  match pl with
  | .mem _ => loadBytes va pl 8
  | .chain _ _ _ => do
    let s ← get
    onlyIf (heldAtomic s.core.cbuf pl) becomeIrrevocable
    let s ← get
    let held := (List.range 8).map fun i => heldByte s.core.cbuf (pl.plus i)
    if held.all Option.isSome then pure (held.map fun b => b.getD 0)
    else match readTail s s.cur s.ctxNo pl 8 with
    | .ok bs => do
      set (s.noteRead s.cur s.ctxNo pl false)
      pure (held.zipWith (fun h b => h.getD b) bs)
    | .wait => stall
    | .bad cls => endWith fun s => s.consume s.cur cls va (Machine.word va) (failDetail cls pl)
    | .refused => trap 0x05 (Machine.word va)
    | .host pa => hostLoad va pa 8

/-- The state code of a launch entry (Table 15.7). -/
def LaunchState.code : LaunchState → Nat
  | .empty => 0
  | .idle => 1
  | .armed => 2
  | .firing => 3

/-- The entry status word (Table 15.7). -/
def statusWord (l : Launch) : Word :=
  Machine.word (l.st.code * 2 ^ 62 + flag (bit l.w1.toNat 44) 61 + flag l.relead 60 + l.missed * 2 ^ 32 + l.leader * 2 ^ 26 +
    l.fires * 2 ^ 16 + l.grp * 2 ^ 8 + l.trig)

/-- gl.idx (R332). -/
def execGlIdx (la : BitVec 4) (ra rb : SReg) (s : State) : Host.Outcome State Fault Refusal :=
  run (do
    openPorts (some ra) [rb]
    let s ← get
    let b := (s.core.takeS rb).1
    trapIf (fld b 63 8 != 0) 0x05 b
    let e := fld b 5 0
    let l := launchOf s s.ctxNo e
    match fld b 7 6 with
    | 0 => finishL ra la [rb] (statusWord l)
    | 1 => finishL ra la [rb] l.saved
    | k =>
      if !l.fired then finishL ra la [rb] 0
      else do
        let va := fld (s.ctxAt s.ctxNo).lcbase 51 12 * 4096 + 64 * e + 8 * (k - 2)
        let pl ← resolve va 8 .read
        let bs ← tailBytes va pl
        finishL ra la [rb] (Machine.word (ofBytes bs))) s

/-- The items of gl.grp (R333). -/
def groupItem (s : State) (g item : Nat) : Word :=
  let ones : Word := 0xFFFFFFFFFFFFFFFF
  let ms := groupMembers s s.ctxNo g
  match item with
  | 0 => Machine.word ms.length
  | 1 => Machine.word (readyMembers s s.ctxNo g).length
  | 2 => if ms.contains s.cur then Machine.word (ms.idxOf s.cur) else ones
  | _ => ((liveDie s s.ctxNo g).map Machine.word).getD ones

/-- gl.grp (R333). -/
def execGlGrp (la : BitVec 4) (ra rb : SReg) (s : State) : Host.Outcome State Fault Refusal :=
  run (do
    openPorts (some ra) [rb]
    let s ← get
    let b := (s.core.takeS rb).1
    trapIf (fld b 63 10 != 0 || (fld b 9 8 == 3 && !groupExists s s.ctxNo (fld b 7 0))) 0x05 b
    finishL ra la [rb] (groupItem s (fld b 7 0) (fld b 9 8))) s

/-! ## Firings (R317, R321, R322) -/

/-- LAUNCH_TRIGGER (R317). -/
def execLaunchTrigger (t : Trig) (s : State) : Host.Outcome State Fault Refusal := .next (s.trigger t)

/-- The index message of a firing (R321). -/
def indexMsg (s : State) (ctx e : Nat) (l : Launch) (c i : Nat) : Msg :=
  { scid := 0xFFF, spkg := s.pkg.num, ctx := ctx, tag := fld l.w1 5 0, hoff := BitVec.ofNat 16 (fld l.w1 31 16), grp := l.grp,
    kind := 3, dcore := c, pay := [l.pay, Machine.word i, Machine.word e, 0, 0, 0, 0, 0] }

/-- Indices are dealt in ascending order to ready members of the group on a die. -/
def State.deal (s : State) (ctx e : Nat) (l : Launch) (cs : List Nat) (first n : Nat) : State :=
  (List.range n).foldl (fun s j => s.send (indexMsg s ctx e l (cs.getD (j % cs.length) 0) (first + j))) s

/-- The leader may hand out another batch: indices are left, and at most 256 batches are outstanding (R321). -/
def Launch.mayHand (l : Launch) : Bool :=
  l.st == .firing && decide (l.next < l.count) && decide (l.batches.length < 256) && decide (l.next < l.low + 16384)

/-- A batch is handed to a die, or to the leader's where that die is not live for the group (R321). -/
def State.batch (s : State) (ctx e die : Nat) : State :=
  let l := launchOf s ctx e
  if l.st ≠ .firing then s
  else if blocksLost s ctx e then s.stopFiring ctx e
  else if !l.mayHand then s
  else
    let near := (readyMembers s ctx l.grp).filter fun c => dieOf c == die && !(s.dieAt die).lost
    let (d, cs) := if near = [] then
        match liveDie s ctx l.grp with
        | some d => (d, (readyMembers s ctx l.grp).filter fun c => dieOf c == d)
        | none => (die, [])
      else (die, near)
    if cs = [] then s
    else
      let n := min 64 (l.count - l.next)
      let first := l.next
      let s := s.deal ctx e l cs first n
      let s := s.onLaunch ctx e fun l => { l with
        next := first + n, batches := l.batches ++ [(first, d, (List.range n).map (first + ·))] }
      let s := s.writeBlock ctx e
      if (launchOf s ctx e).mayHand then
        match batchDie s ctx l.grp with
        | some d => s.launch (.launchBatch ctx e d)
        | none => s
      else s

/-- LAUNCH_BATCH (R321). -/
def execLaunchBatch (ctx e die : Nat) (s : State) : Host.Outcome State Fault Refusal := .next (s.batch ctx e die)

/-- INDEX_ACKNOWLEDGEMENT (R322). -/
def execIndexAcknowledgement (ctx e i : Nat) (s : State) : Host.Outcome State Fault Refusal := .next (s.ackIndex ctx e i)

/-! ## Pre-emption and local stores (R336, R338) -/

/-- PREEMPTION_HALT (R336). -/
def execPreemptionHalt (c : Nat) (s : State) : Host.Outcome State Fault Refusal := .next (s.halt c)

/-- LOCAL_STORE_SWAP (R338): a resumed context whose core still holds another one waits for it. -/
def execLocalStoreSwap (c ctx : Nat) (s : State) : Host.Outcome State Fault Refusal :=
  .next (if canSwap s c ctx then s.swap c ctx
    else if (s.ctxAt ctx).live && (s.ctxAt ctx).state == 0 && Tbl.has (s.ctxAt ctx).saves c then s.launch (.localStoreSwap c ctx)
    else s)

/-! ## Start gates: a participant (R339, R341, R342) -/

/-- A step that reaches another package's gate table, or the own one. -/
def State.toGate (s : State) (pkg : Nat) (i : Instr) : State :=
  if pkg = s.pkg.num then s.launch i else { s with outs := s.outs ++ [.gate pkg i] }

/-- The installed entry that a post matches: its id, tenant and action. -/
def matching (s : State) (p : GatePost) : Option GateEntry :=
  s.pkg.gates.find? fun g => g.id == p.id && (s.ctxAt g.ctx).tenant == p.tenant && g.action == p.action

/-- The name of a gate: the steps of a gate carry its 32-bit id and, above it, its tenant, since two tenants may use one id
(Tables 15.10 and 15.11). -/
def gateName (id tenant : Nat) : Nat := id % 2 ^ 32 + 2 ^ 32 * tenant

/-- The name of the gate that a post is for. -/
def postName (p : GatePost) : Nat := gateName p.id p.tenant

/-- The part of a gate that a package plays. -/
def partOf (s : State) (g : Nat) : Option (GatePost × GateState) := s.pkg.parts.find? fun x => postName x.1 == g

/-- A part of a gate set, or removed. -/
def State.setPart (s : State) (g : Nat) (v : Option (GatePost × GateState)) : State :=
  s.onPkg fun p => { p with parts := p.parts.filter (fun x => postName x.1 != g) ++ v.toList }

/-- The package arms itself for a post. -/
def State.armPart (s : State) (p : GatePost) : State :=
  (s.setPart (postName p) (some (p, .armed))).toGate p.coord (.gateArmed (postName p) s.pkg.num s.pkg.clkdeg)

/-- The waiting posts that newly installed entries match arm themselves, before T - guard (R341). -/
def State.armWaiting (s : State) : State :=
  s.pkg.parts.foldl (fun s x =>
    if x.2 = .waiting && (matching s x.1).isSome && decide (s.pkg.now.toNat + x.1.guard < x.1.time) then s.armPart x.1 else s) s

/-- A gate fault is logged in a context (Table 16.11). -/
def State.gateFault (s : State) (ctx id : Nat) : State := s.log ctx 0x2F 0 0xFFF 0 true 0 id

/-- The installed action is carried out (R342). -/
def State.actGate (s : State) (p : GatePost) : State :=
  match matching s p with
  | none => s
  | some g =>
    match g.action with
    | 0 => s.launch (.launchTrigger ⟨g.ctx, false, g.entry, p.pay⟩)
    | 1 => s.preempt g.ctx
    | 2 => s.resume g.ctx
    | _ => s.kill g.ctx 6 0

/-- The context that a participant's fault is logged in. -/
def State.partFault (s : State) (p : GatePost) : State :=
  match matching s p with
  | some g => s.gateFault g.ctx p.id
  | none => s

/-- What the participant's clock decides by itself (Table 15.11): at T - guard a waiting post is discarded; at T the action of a GO
is carried out; at T + 1 ms a package that is still armed drops it, and logs. A message that comes later finds it decided. -/
def State.partClock (s : State) (id : Nat) : State :=
  match partOf s id with
  | some (p, .waiting) => if p.time ≤ s.pkg.now.toNat + p.guard then s.setPart id none else s
  | some (p, .go) => if p.time ≤ s.pkg.now.toNat then (s.setPart id none).actGate p else s
  | some (p, .armed) => if p.time + 1000000 ≤ s.pkg.now.toNat then (s.setPart id none).partFault p else s
  | none => s

/-- The port takes a post: it comes from the package itself, or carries the key of its tenant (R340, R376; log 78 DESIGN CHOICE). -/
def postFits (s : State) (p : GatePost) : Bool :=
  p.coord == s.pkg.num || (p.key != 0 && Tbl.getD s.pkg.keys p.tenant 0 == p.key)

/-- A post is refused: the health log notes the sending package and the tenant, and the sender is told (R377). -/
def State.refusePost (s : State) (p : GatePost) : State :=
  let s := s.note 2 (p.coord * 4096 + p.tenant) 0
  { s with outs := s.outs ++ [.postRefused p.coord p] }

/-- GATE_POST (R340, R341). -/
def execGatePost (p : GatePost) (s : State) : Host.Outcome State Fault Refusal :=
  let s := s.partClock (postName p)
  .next (if !postFits s p then s.refusePost p
    else if (partOf s (postName p)).isSome then s
    else match matching s p with
    | some _ => s.armPart p
    | none => (s.setPart (postName p) (some (p, .waiting))).note 4 p.id p.tenant)

/-- GATE_GO (R341): a GO with a time waits for T; one that comes after T is acted on at once and logged; GO marked now is
acted on at receipt. -/
def execGateGo (id : Nat) (atOnce : Bool) (s : State) : Host.Outcome State Fault Refusal :=
  let s := s.partClock id
  .next (match partOf s id with
    | some (p, .armed) =>
      if atOnce then (s.setPart id none).actGate p
      else if p.time < s.pkg.now.toNat then ((s.setPart id none).partFault p).actGate p
      else s.setPart id (some (p, .go))
    | _ => s)

/-- GATE_ABORT (R341). -/
def execGateAbort (id : Nat) (s : State) : Host.Outcome State Fault Refusal :=
  let s := s.partClock id
  .next (match partOf s id with
    | some (_, .waiting) => s
    | some _ => s.setPart id none
    | none => s)

/-- GATE_ACTION_TIME (R342). -/
def execGateActionTime (id : Nat) (s : State) : Host.Outcome State Fault Refusal :=
  .next (match partOf s id with
    | some (p, .go) => if p.time ≤ s.pkg.now.toNat then (s.setPart id none).actGate p else s
    | _ => s)

/-- GATE_ARMED_TIMEOUT (R341). -/
def execGateArmedTimeout (id : Nat) (s : State) : Host.Outcome State Fault Refusal :=
  .next (match partOf s id with
    | some (p, .armed) => if p.time + 1000000 ≤ s.pkg.now.toNat then (s.setPart id none).partFault p else s
    | _ => s)

/-! ## Start gates: the coordinator (R340, R341) -/

/-- The gate that a package coordinates under an id, decided or not. -/
def coordOf (s : State) (g : Nat) : Option Coord := s.pkg.coords.reverse.find? fun x => postName x.p == g

/-- A coordinated gate changed. -/
def State.setCoord (s : State) (k k' : Coord) : State :=
  s.onPkg fun p => { p with coords := p.coords.map fun x => if x = k then k' else x }

/-- The coordinator decides: GO to the armed packages, ABORT to the others (to all, with outcome 2), and the notify
(R341). With a degraded clock the GO is marked now, and is sent at T. -/
def State.settleGate (s : State) (k : Coord) (outcome : Nat) (straggler : Bool) : State :=
  let late := outcome != 2 && (s.pkg.clkdeg || k.armed.any fun a => a.2)
  let s := s.setCoord k { k with decided := true, late := late }
  let go := if outcome = 2 then [] else k.armed.map Prod.fst
  let s := k.pkgs.foldl (fun s n =>
    if go.contains n then (if late then s else s.toGate n (.gateGo (postName k.p) false)) else s.toGate n (.gateAbort (postName k.p))) s
  let s := if straggler then s.gateFault k.ctx k.p.id else s
  s.send (unitMsg s k.ctx k.ncore k.ntag [Machine.word k.p.id, Machine.word outcome, Machine.word k.armed.length,
    Machine.word (flag late 0 + flag straggler 1)])

/-- What the coordinator's clock decides by itself (Table 15.12): at T - guard with some ARMED missing, a straggler fault. -/
def State.coordClock (s : State) (id : Nat) : State :=
  match coordOf s id with
  | some k =>
    if k.decided || !decide (k.p.time ≤ s.pkg.now.toNat + k.p.guard) then s
    else if k.p.partly && k.armed != [] then s.settleGate k 1 true
    else s.settleGate k 2 true
  | none => s

/-- GATE_ARMED (R341): one that comes after the decision is answered with ABORT. -/
def execGateArmed (id pkg : Nat) (deg : Bool) (s : State) : Host.Outcome State Fault Refusal :=
  let s := s.coordClock id
  .next (match coordOf s id with
    | none => s
    | some k =>
      if k.decided then s.toGate pkg (.gateAbort id)
      else if !k.pkgs.contains pkg || k.armed.any fun a => a.1 == pkg then s
      else
        let k' := { k with armed := k.armed ++ [(pkg, deg)] }
        let s := s.setCoord k k'
        if k'.armed.length = k'.pkgs.length then s.settleGate k' 0 false else s)

/-- GATE_GUARD_DEADLINE (R341): a waiting participant discards its post, and the coordinator decides on stragglers. -/
def execGateGuardDeadline (id : Nat) (s : State) : Host.Outcome State Fault Refusal :=
  let s' := match partOf s id with
    | some (p, .waiting) => if p.time ≤ s.pkg.now.toNat + p.guard then s.setPart id none else s
    | _ => s
  .next (s'.coordClock id)

/-- GO_MARKED_NOW (R341): at T the coordinator sends GO marked now to the armed packages. -/
def execGoMarkedNow (id : Nat) (s : State) : Host.Outcome State Fault Refusal :=
  .next (match coordOf s id with
    | some k =>
      if k.late && decide (k.p.time ≤ s.pkg.now.toNat) then
        k.armed.foldl (fun s a => s.toGate a.1 (.gateGo id true)) (s.setCoord k { k with late := false })
      else s
    | none => s)

end Sys2Proof.Machine
end

