-- ==== Sys2Proof/Machine/Paging.lean ====
section
/-!
DEFINITION. The pg instructions (R93 to R100), the slices' walks (R85, R87, R92), and the placement engine (R67 to R71).
-/
namespace Sys2Proof.Machine

/-! ## Operands shared by pg and ch (R93, R94) -/

/-- An instruction for privileged contexts only (R93). -/
def needPrivilege : M Unit := do
  let s ← get
  trapIf (!(s.ctxAt s.ctxNo).privileged) 0x05 (irWord s)

/-- A mailbox operand: none for s0, else a doubleword of a window, by its physical address (R94). -/
def mailboxOf (n : SReg) (w : Word) : M (Option Nat) := do
  let s ← get
  let va := addrOf w
  if n = 0 then pure none
  else if va % 8 ≠ 0 then trap 0x03 (Machine.word va)
  else if window va < 0xE then trap 0x05 (Machine.word va)
  else match checkWindow s s.cur s.ctxNo va with
    | .ok (.mem pa) => pure (some pa)
    | _ => trap 0x05 (Machine.word va)

/-! ## The pg instructions -/

/-- pg.inval (R96). -/
def execPgInval (ra rb rc : SReg) (s : State) : Host.Outcome State Fault Refusal :=
  run (do
    needPrivilege
    openPorts none [ra, rb, rc]
    let c ← core
    let ws := c.takeAll [ra, rb, rc]
    let a := ws.getD 0 0
    let b := ws.getD 1 0
    let m ← mailboxOf rc (ws.getD 2 0)
    let s ← get
    gate (.inval { ctx := fld a 5 0, first := fld b 51 16, count := fld b 15 0 + 1, all := bit a.toNat 6, iss := s.ctxNo, mpa := m })
    finish [ra, rb, rc]) s

/-- pg.replay (R97). -/
def execPgReplay (ra : SReg) (s : State) : Host.Outcome State Fault Refusal :=
  run (do
    needPrivilege
    openPorts none [ra]
    let c ← core
    gate (.replay (fld (c.takeS ra).1 5 0))
    finish [ra]) s

/-- The word of pg.fbrd: the record, if any, and the dropped flag (Table 4.7). -/
def recordWord (r : Option FaultRec) (dropped : Bool) : Word :=
  Machine.word (flag dropped 62 + match r with
    | none => 0
    | some r => 2 ^ 63 + r.count * 2 ^ 58 + r.ctx * 2 ^ 52 + r.vpage * 2 ^ 16 + r.kind * 2 ^ 14 + flag r.held 13 + r.cid)

/-- pg.fbrd (R98). -/
def execPgFbrd (la : BitVec 4) (ra rb : SReg) (s : State) : Host.Outcome State Fault Refusal :=
  run (do
    needPrivilege
    openPorts (some ra) [rb]
    becomeIrrevocable
    let s ← get
    let d := fld (s.core.takeS rb).1 2 0
    let x := s.dieAt d
    modify fun s => s.onDie d fun x => { x with fbuf := x.fbuf.drop 1, dropped := false }
    finishL ra la [rb] (recordWord x.fbuf.head? x.dropped)) s

/-- pg.pin (R99). -/
def execPgPin (ra rb rc : SReg) (s : State) : Host.Outcome State Fault Refusal :=
  run (do
    needPrivilege
    openPorts none [ra, rb, rc]
    let c ← core
    let ws := c.takeAll [ra, rb, rc]
    let a := ws.getD 0 0
    let m ← mailboxOf rc (ws.getD 2 0)
    let s ← get
    gate (.pin { ctx := fld a 5 0, unpin := bit a.toNat 6, va := addrOf (ws.getD 1 0), core := s.cur, iss := s.ctxNo, mpa := m })
    finish [ra, rb, rc]) s

/-- pg.hint's effect on the device: a leaf that a read may use enters the core's TLB, or a move request is kept for
the page's frame; a hint whose walk would have to wait is dropped (R100). -/
def State.hint (s : State) (a va d : Nat) : State :=
  if 0xE ≤ window va || missWaits s s.cur s.ctxNo va then s
  else match checkPaged s s.cur s.ctxNo va .read true with
  | (.ok (.mem pa), t) =>
    match a with
    | 0 => t
    | 1 => if ownHbm s pa then { s with hints := s.hints ++ [(pageKey s.ctxNo (va / 65536), d)] } else s
    | _ => s
  | (.ok (.chain _ _ _), t) => if a = 0 then t else s
  | _ => s

/-- pg.hint (R100). -/
def execPgHint (ra rb rc : SReg) (s : State) : Host.Outcome State Fault Refusal :=
  run (do
    openPorts none [ra, rb, rc]
    let c ← core
    let ws := c.takeAll [ra, rb, rc]
    modify fun s => s.hint (ws.getD 0 0).toNat (addrOf (ws.getD 1 0)) (fld (ws.getD 2 0) 2 0)
    finish [ra, rb, rc]) s

/-! ## Completion of pg.inval and pg.pin (R96, R99) -/

/-- A core's state has accesses of a context on their way that were translated through a removed entry: chain stores, and atomics
whose reply is outstanding. -/
def onTheWay (r : InvalReq) (x : Core) : Bool :=
  x.chainOut.any (fun st => st.ctx == r.ctx) || x.outst.any fun a => a.ctx == r.ctx && vaInRange r a.va

/-- A core has accesses of a context that were translated through a removed entry and are not performed: those on their way, the
items that an irrevocable activation or one that commits has still to release, and lines that its matrix engine has not
read. -/
def unperformed (r : InvalReq) (x : Core) : Bool :=
  onTheWay r x ||
    (x.ctx == some r.ctx &&
      ((!(x.rev && x.phase == .running) && holdsRange r x.cbuf) || x.word.any (fun w => (w.releasing || w.firm) &&
          holdsRange r w.cbuf) ||
        x.mx.queue.any fun k => !k.waits && k.lines.any fun l => vaInRange r l.1 && !(k.got.any fun g => g.1 == l.1)))

/-- An invalidation of a context is complete: no core, and no saved core, has an access left to perform (R96). -/
def invalDone (s : State) (r : InvalReq) : Bool :=
  !(s.cores.any fun e => unperformed r e.2) && !((s.ctxAt r.ctx).saves.any fun e => onTheWay r e.2)

/-- PG_INVAL_COMPLETION (R96): the status goes to the mailbox of the issuing context (R94). -/
def execPgInvalCompletion (r : InvalReq) (s : State) : Host.Outcome State Fault Refusal :=
  .next (if invalDone s r then s.mailbox r.iss r.mpa 1 else s.launch (.pgInvalCompletion r))

/-- PG_PIN_COMPLETION (R99). -/
def execPgPinCompletion (r : PinReq) (s : State) : Host.Outcome State Fault Refusal :=
  let (st, t) := s.pinPage r
  .next (t.mailbox r.iss r.mpa st)

/-! ## Misses and walks at a slice (R85, R87, R92) -/

/-- TLB_MISS_AT_SLICE (R85). -/
def execTlbMissAtSlice (c ctx va : Nat) (acc : Acc) (s : State) : Host.Outcome State Fault Refusal :=
  .next (s.missAtSlice c ctx va acc)

/-- The activation that a waiter belongs to still waits at the same instruction. -/
def stillWaits (s : State) (ctx : Nat) (w : Waiter) : Bool :=
  let x := s.coreAt w.core
  !w.engine && x.ctx == some ctx && x.phase == .running && x.seq.toNat == w.seq && x.pc.toNat == w.pc && x.due.isNone

/-- A waiter goes on: it translates again. -/
def State.wake (s : State) (c : Nat) : State := s.onCore c fun x => { x with stalled := false }

/-- A not-present result of a walk with an older stamp than the replay count (R92): the trigger that it would park is released at
once, and the activation that it would hold translates again at once. -/
def State.staleFault (s : State) (c va : Nat) (acc : Acc) : State :=
  let x := s.coreAt c
  let ctx := x.ctx.getD 0
  if x.trig.kind = 1 ∨ x.tlv ≠ 0 then s.notPresent c va acc
  else if x.rev then
    let m := s.trigAt c
    ((s.faultRecord c ctx va acc false).drop c).redeliver m
  else s.faultRecord c ctx va acc false

/-- A walk's result reaches one of its joined requests. Where an entry is uncorrectable the first of them consumes it, and the
others walk again (Table 4.9). -/
def State.answer (s : State) (ctx stamp : Nat) (r : Walk) (first : Bool) (w : Waiter) : State :=
  if !stillWaits s ctx w then s
  else
    let s := s.wake w.core
    match r with
    | .leaf l _ => s.fillTlb w.core l
    | .absent => if stamp < (s.ctxAt ctx).replay then s.staleFault w.core w.va w.acc else s.notPresent w.core w.va w.acc
    | .bad => s
    | .poisoned cls => if first then s.consume w.core cls w.va (Machine.word w.va) else s

/-- The joined requests of a walk, in the order in which they joined. -/
def State.answerAll (s : State) (ctx stamp : Nat) (r : Walk) (first : Bool) (ws : List Waiter) : State :=
  match ws with
  | [] => s
  | w :: rest => State.answerAll (s.answer ctx stamp r first w) ctx stamp r false rest

/-- What a slice finds for a page whose walk ends: the leaf that it has locked or holds by now, or the result of the walk, whose
table pointers it keeps (R85, R99). -/
def sliceWalk (s : State) (die ctx va : Nat) : Walk × State :=
  match sliceHit s die ctx va with
  | some l => if pagingOn s ctx then (.leaf l 0, s) else (.absent, s)
  | none => walkAt s (xlKey die ctx va) ctx va

/-- A walk completes: the miss leaves the table, and with a large leaf every miss that it covers; the next miss walks. -/
def State.walkDone (s : State) (die ctx vpage : Nat) : State :=
  let va := vpage * 65536
  let k := xlKey die ctx va
  let (r, s) := sliceWalk s die ctx va
  let mine := fun (m : Miss) => m.ctx == ctx && (m.vpage == vpage || match r with
    | .leaf l _ => covers ctx (m.vpage * 65536) l
    | _ => false)
  let ms := (Tbl.getD s.xl k {}).misses.filter mine
  let s := s.onSlice k fun x => { x with misses := x.misses.filter fun m => !mine m }
  let s := match r, ms with
    | _, [] => s
    | .leaf l _, _ => s.fillSlice die va l
    | _, _ => s
  ms.foldl (fun s m => s.answerAll ctx m.stamp r true m.waiters) (s.startWalk die k)

/-- The walk of a page is in flight at its slice. -/
def walking (s : State) (die ctx vpage : Nat) : Bool :=
  (Tbl.getD s.xl (xlKey die ctx (vpage * 65536)) {}).misses.any fun m => m.ctx == ctx && m.vpage == vpage && m.walking

/-- PAGE_WALK_COMPLETE (R85, R87, R92, R123). -/
def execPageWalkComplete (die ctx vpage : Nat) (s : State) : Host.Outcome State Fault Refusal :=
  let va := vpage * 65536
  .next (if !walking s die ctx vpage then s
    else if (sliceHit s die ctx va).isNone && walkHeld s die ctx va then s.launch (.pageWalkComplete die ctx vpage)
    else s.walkDone die ctx vpage)

/-! ## Frames (R69, R70, log 27 DESIGN CHOICE) -/

/-- Some leaf below a node satisfies a test of its level and its first word. -/
def anyLeaf (s : State) (p : Nat → Nat → Bool) : Nat → Nat → Bool
  | 0, node => (usedEntries s node 32).any fun i => let w0 := (s.read64 (node + 16 * i)).toNat; w0 % 4 == 2 && p 0 w0
  | lvl + 1, node =>
    let n := match lvl with
      | 0 => 512
      | 1 => 4096
      | _ => 1024
    (usedEntries s node n).any fun i =>
      let w0 := (s.read64 (node + 16 * i)).toNat
      if w0 % 4 = 1 then anyLeaf s p lvl (bits w0 51 9 * 512) else w0 % 4 == 2 && p (lvl + 1) w0

/-- A leaf of a context maps a part of a 64 KiB frame of the own package (R65): a local page that reaches into it, a striped page
with a piece there, or a chain page with a copy there. -/
def leafMaps (s : State) (ctx frame level w0 : Nat) : Bool :=
  match leafClass w0 with
  | 0 => decide (leafFrame w0 < frame + 65536) && decide (frame < leafFrame w0 + 2 ^ leafLg level)
  | 1 => ownHbm s frame && paLocal (leafFrame w0) / 65536 == inDie frame / 65536
  | _ =>
    let e := Tbl.getD (s.ctxAt ctx).chains (bits w0 63 56) {}
    (e.links ++ e.sync.toList).any fun l => l.1 == s.pkg.num && linkPa l (paLocal (leafFrame w0)) / 65536 == frame / 65536

/-- A context maps a frame. -/
def mapsFrame (s : State) (ctx frame : Nat) : Bool :=
  let r := (s.ctxAt ctx).ptbase
  bit r.toNat 0 && anyLeaf s (leafMaps s ctx frame) 3 (fld r 51 14 * 2 ^ 14)

/-- A chain's range at one of its links covers a frame. -/
def chainCovers (frame : Nat) (e : Chain) : Bool :=
  (e.links ++ e.sync.toList).any fun l =>
    decide (linkPa l (e.base * 65536) ≤ frame) && decide (frame < linkPa l ((e.base + e.npg + 1) * 65536))

/-- A frame of the own package, by its number, is free: nothing lies in it but what was there when the engine freed it, it has no
owner, no context maps it, no chain or reserved range covers it, and no move is on its way to it (log 27 DESIGN CHOICE). -/
def frameFree (s : State) (f : Nat) : Bool :=
  let pa := f * 65536
  (s.freed.contains f || !(s.mem.any fun c => c.1 / 65536 == f)) && !(Tbl.has s.pkg.owners f) &&
      !(s.ctxs.any fun y => mapsFrame s y.1 pa) &&
    !(s.ctxs.any fun y => y.2.chains.any fun e => chainCovers pa e.2) && !(s.pkg.foreign.any fun g => chainCovers pa g.e) &&
    !(s.pkg.reserved.any fun r => decide (diePa s r.1 (r.2.1 * 65536) ≤ pa) && decide (pa < diePa s r.1 ((r.2.1 + r.2.2.1) * 65536))) &&
    !(s.migs.any fun g => g.frame == pa)

/-- The first free frame of n from a frame upward. -/
def firstFree (s : State) : Nat → Nat → Option Nat
  | _, 0 => none
  | f, n + 1 => if frameFree s f then some f else firstFree s (f + 1) n

/-- A free frame of a die, if it has one: the first from a place of the device's choice (log 15 DESIGN CHOICE, log 27 DESIGN
CHOICE). -/
def freeFrame (s : State) (d : Nat) : Option Nat :=
  let base := diePa s d 0 / 65536
  let n := hbmDie / 65536
  let i := Config.freeChoice s.tick n % n
  (firstFree s (base + i) (n - i)).or (firstFree s base i)

/-- The bytes of a frame copied to another, with their marks (R69, R73, R109). -/
def State.copyFrame (s : State) (old new : Nat) : State :=
  let cells := s.mem.filter fun c => decide (old ≤ c.1) && decide (c.1 < old + 65536)
  let kept := s.mem.filter fun c => !(decide (new ≤ c.1) && decide (c.1 < new + 65536))
  let bad := (s.poison.filter fun e => decide (old ≤ e.1) && decide (e.1 < old + 65536)).map fun e => (e.1 - old + new, e.2)
  let tags := (s.pkg.sectag.filter fun e => decide (old ≤ e.1) && decide (e.1 < old + 65536)).map fun e => (e.1 - old + new, e.2)
  let s := { s with
    mem := cells.foldl (fun (m : Mem) (c : Host.Cell) => Mem.write m (c.1 - old + new) c.2) kept,
    poison := (s.poison.filter fun (e : Nat × Bool) => !(decide (new ≤ e.1) && decide (e.1 < new + 65536))) ++ bad,
    freed := s.freed.filter (· != new / 65536) }
  s.onPkg fun p => { p with sectag := tags ++ p.sectag.filter fun (e : Nat × KeySlot) => !(decide (new ≤ e.1) && decide (e.1 < new + 65536)) }

/-! ## Requests follow their page (Table 3.6) -/

/-- A held item at another place. -/
def Gated.moved (f : Place → Place) (g : Gated) : Gated :=
  match g with
  | .store pl va bs rel k => .store (f pl) va bs rel k
  | .atomic pl r => .atomic (f pl) r
  | .watch pl r => .watch (f pl) (match f pl with
      | .mem pa => { r with pa := pa }
      | _ => r)
  | .rgCmt pl va k => .rgCmt (f pl) va k
  | .rgRel pl va => .rgRel (f pl) va
  | .tk pl r => .tk (f pl) (match f pl with
      | .mem pa => { r with pa := pa }
      | _ => r)
  | g => g

/-- A core whose held items and engines follow a page. -/
def Core.moved (f : Place → Place) (x : Core) : Core :=
  { x with
    cbuf := x.cbuf.map (Gated.moved f),
    word := x.word.map fun w => { w with cbuf := w.cbuf.map (Gated.moved f) },
    mx := { x.mx with queue := x.mx.queue.map fun k => { k with lines := k.lines.map fun l => (l.1, f l.2) } },
    cp := { queue := x.cp.queue.map fun k => { k with fwd := k.fwd.map fun e => (f e.1, e.2.1, e.2.2) },
            chans := x.cp.chans.map fun h => { h with cur := h.cur.map fun k => { k with fwd := k.fwd.map fun e => (f e.1, e.2.1, e.2.2) } } } }

/-- A place in a frame, at the same offset of another frame. -/
def toFrame (old new : Nat) (pl : Place) : Place :=
  match pl with
  | .mem pa => if old ≤ pa ∧ pa < old + 65536 then .mem (pa - old + new) else pl
  | _ => pl

/-- A place in a frame, as an in-die offset of a chain. -/
def toChain (old ctx ch : Nat) (pl : Place) : Place :=
  match pl with
  | .mem pa => if old ≤ pa ∧ pa < old + 65536 then .chain ctx ch (paLocal pa % hbmDie) else pl
  | _ => pl

/-- A place of a chain, as memory at its head's copy. -/
def fromChain (ctx ch : Nat) (head : Nat × Nat) (pl : Place) : Place :=
  match pl with
  | .chain x c off => if x = ctx ∧ c = ch then .mem (linkPa head off) else pl
  | _ => pl

/-- Every held item and engine of the package follows a page. -/
def State.follow (s : State) (f : Place → Place) : State :=
  { s with
    cores := Tbl.mapv s.cores fun _ x => x.moved f,
    ctxs := Tbl.mapv s.ctxs fun _ y => { y with saves := Tbl.mapv y.saves fun _ x => x.moved f } }

/-- A page's leaf is rewritten, and every TLB copy of it is invalidated (R69). -/
def State.relink (s : State) (ctx vpage epa w0 : Nat) : State :=
  ((s.writePa epa (toBytes 8 w0)).stamp ctx epa false).shootdown { ctx := ctx, first := vpage, count := 1 } false

/-! ## Decisions at an epoch's end (R68 to R70) -/

/-- The counts of a page at a frame, with the move requests of pg.hint for it (R67, R100). -/
def countsOf (s : State) (mthr key frame : Nat) : List Nat :=
  (s.hints.filter fun h => h.1 == key).foldl (fun cs h => cs.set h.2 mthr) ((countsAt s key frame).getD (List.replicate 9 0))

/-- The dies of a list in descending count, and among equal counts the lower number first. -/
def byCount (cs : List Nat) (ds : List Nat) : List Nat :=
  ds.mergeSort fun a b => decide (cs.getD b 0 < cs.getD a 0) || (cs.getD a 0 == cs.getD b 0 && decide (a ≤ b))

/-- A line of a page is pinned by a tile fetch, or a footprint of it is being read (R69). -/
def pagePinned (s : State) (ctx vpage frame : Nat) : Bool :=
  (s.tpins.any fun e => e.1 / 65536 == frame) ||
    s.cores.any fun e => match e.2.fetching with
      | some (m, _) => m.ctx == ctx && decide (m.fp < (vpage + 1) * 65536) && decide (vpage * 65536 < m.fp + m.fplen)
      | none => false

/-- A die takes part in placement. -/
def dieUp (s : State) (d : Nat) : Bool := (s.dieAt d).ready && !(s.dieAt d).lost

/-- The lowest free chain number of a context. -/
def freeChain (s : State) (ctx : Nat) : Option Nat := ((List.range 256).drop 1).find? fun ch => (chainOf s ctx ch).cst == 0

/-- A page of a region created with promotion allowed (R70). -/
def promotable (y : Ctx) (vpage : Nat) : Bool :=
  y.promo.any fun r => decide (r.1 ≤ vpage * 65536) && decide (vpage * 65536 < r.1 + r.2)

/-- A placement operation begins. -/
def State.addMig (s : State) (g : Migration) : State := { s with migs := s.migs ++ [g] }
/-- A placement operation is over. -/
def State.endMig (s : State) (g : Migration) : State := { s with migs := s.migs.filter (· != g) }

/-- A promotion starts: the chain over the one page, and the dies that are to join; none where no chain number is free, or no
die has the frame free (R70). -/
def State.promote (s : State) (ctx vpage epa h frame : Nat) (ds : List Nat) : Option State :=
  let off := inDie frame
  match freeChain s ctx, ds.filter fun d => frameFree s (diePa s d off / 65536) with
  | some ch, d :: rest =>
    let s := s.onChain ctx ch fun _ => { gen := 1, cst := 1, base := off / 65536, npg := 0, links := [(s.pkg.num, h)] }
    let s := s.addMig ⟨ctx, vpage, h, frame, epa, some ch, false, rest, false⟩
    some ((s.onChain ctx ch fun e => { e with sync := some (s.pkg.num, d), done := 0 }).launch (.chainPageCopy ctx ch))
  | _, _ => none

/-- A page migrates to the die of the highest count that has a free frame (R69). -/
def State.migrate (s : State) (ctx vpage epa : Nat) (ds : List Nat) : State :=
  match ds.findSome? fun d => (freeFrame s d).map fun f => (d, f) with
  | some (d, f) => (s.addMig ⟨ctx, vpage, d, f * 65536, epa, none, false, [], false⟩).launch (.migrationSwitch ctx vpage)
  | none => s

/-- The decision for one page (R69, R70). A page that meets the conditions of both is promoted, and migrates where the promotion
cannot start: the spec gives no order between the two (log 71 DESIGN CHOICE). -/
def State.placePage (s : State) (ctx vpage w0 epa : Nat) : State :=
  let y := s.ctxAt ctx
  let p := y.pmEff
  let mthr := fld p 47 32
  let h := bits w0 12 10
  let frame := leafFrame w0
  let busy := s.migs.any fun g => g.ctx == ctx && g.vpage == vpage
  let held := bit w0 6 || bit w0 7 || pagePinned s ctx vpage (frame / 65536)
  let cs := countsOf s mthr (pageKey ctx vpage) (frame / 65536)
  if busy then s
  else if leafClass w0 = 0 && ownHbm s frame then
    let others := (List.range 8).filter fun d => d != h && dieUp s d
    let joins := others.filter fun d => decide (mthr ≤ 4 * cs.getD d 0)
    let moves := others.filter fun d => decide (mthr ≤ cs.getD d 0) && decide (2 * cs.getD h 0 ≤ cs.getD d 0)
    if !bit p.toNat 1 || held then s
    else
      let promoted := if bit p.toNat 2 && promotable y vpage && decide (cs.getD 8 0 * 64 ≤ total cs) && decide (2 ≤ joins.length) then
          s.promote ctx vpage epa h frame (byCount cs joins)
        else none
      promoted.getD (s.migrate ctx vpage epa (byCount cs moves))
  else if leafClass w0 = 2 && bit w0 5 then
    let ch := bits w0 63 56
    let e := chainOf s ctx ch
    let cs := countsOf s mthr (pageKey ctx vpage) (linkPa (e.links.headD (0, 0)) (paLocal frame) / 65536)
    if decide (total cs < cs.getD 8 0 * 16) then
      (s.addMig ⟨ctx, vpage, (e.links.headD (0, 0)).2, 0, epa, some ch, true, [], false⟩).launch (.migrationSwitch ctx vpage)
    else s
  else s

/-- A name of the count tables is of a page of a context. -/
def keyOf (ctx key : Nat) : Bool := key / 2 ^ 36 == ctx

/-- The cycles of an epoch (Table 3.5). -/
def epochLen (p : Word) : Nat := 2 ^ (16 + min 8 (fld p 23 20))

/-- A placement operation of a context whose switch waits for a pin (Table 3.6). -/
def waitsToSwitch (s : State) (ctx : Nat) (g : Migration) : Bool :=
  g.ctx == ctx && match g.chain with
    | none => pagePinned s ctx g.vpage (leafFrame (s.read64 g.epa).toNat / 65536)
    | some ch =>
      let e := chainOf s ctx ch
      (g.demote || e.links.length == 1) &&
        pagePinned s ctx g.vpage (linkPa (e.links.headD (0, 0)) (e.base * 65536) / 65536)

/-- An epoch of a context ends: moves that still wait for a pin are abandoned, each page is decided on, its counts are cleared, and
a written pmctl takes effect (R67 to R71). -/
def State.epochEnd (s : State) (ctx : Nat) : State :=
  let y := s.ctxAt ctx
  if !y.live || s.pkg.cyc.toNat < y.epochAt + epochLen y.pmEff then s
  else
    let s := (s.migs.filter (waitsToSwitch s ctx)).foldl State.abandon s
    let s := if bit y.pmEff.toNat 0 then (pagesOf s ctx).foldl (fun s p => s.placePage ctx p.1 p.2.1 p.2.2) s else s
    { s with counts := s.counts.filter (fun e => !keyOf ctx e.1), hints := s.hints.filter fun h => !keyOf ctx h.1 }.onCtx ctx fun y =>
      { y with pmEff := y.pmctl, epochAt := s.pkg.cyc.toNat }

/-- EPOCH_END (R68 to R70). -/
def execEpochEnd (ctx : Nat) (s : State) : Host.Outcome State Fault Refusal := .next (s.epochEnd ctx)

/-! ## The switch of a page (R69, R70, R71) -/

/-- Monitors move with their lines. -/
def movedMon (old new : Nat) (w : WatchReq) : WatchReq :=
  if old ≤ w.pa ∧ w.pa < old + 65536 then { w with pa := w.pa - old + new } else w

/-- The owner of a frame passes to another frame (R376). -/
def passOwner (t : Tbl Nat) (old new : Nat) : Tbl Nat :=
  if Tbl.has t old then Tbl.put (Tbl.del t old) new (Tbl.getD t old 0) else t

/-- A core's L1 copies of the lines of a frame leave it. -/
def Core.dropFrame (x : Core) (f : Nat) : Core :=
  { x with l1 := x.l1.filter fun l => l / 65536 != f / 65536, l1i := x.l1i.filter fun l => l / 65536 != f / 65536 }

/-- A page is copied to its new frame, its leaf is updated, and what was on its way to it goes to the new home. -/
def State.movePage (s : State) (g : Migration) (w0 : Nat) : State :=
  let old := leafFrame w0
  let new := g.frame
  let s := s.copyFrame old new
  let s := { s with
    mons := s.mons.map (movedMon old new), dir := s.dir.filter fun e => e.1 / 65536 != old / 65536,
    l2 := s.l2.filter fun l => l / 65536 != old / 65536, cores := Tbl.mapv s.cores fun _ x => x.dropFrame old }
  let s := s.onPkg fun p => { p with owners := passOwner p.owners (old / 65536) (new / 65536) }
  let s := s.relink g.ctx g.vpage g.epa (w0 - bits w0 51 10 * 2 ^ 10 + new + g.die * 2 ^ 10)
  ((s.follow (toFrame old new)).sigFollow (movedLine old new)).giveFrames [old / 65536]

/-- A line of a frame that cannot be read for a context, or fails its tag, ends a move of the frame (Table 3.6, R74). -/
def framePoisoned (s : State) (ctx f : Nat) : Bool := badLines s (s.ctxAt ctx).tenant (f / 65536 * 65536) 65536 != []

/-- The physical address that a request on its way names. -/
def requestPa (i : Instr) : Option Nat :=
  match i with
  | .homeSliceAccess r => some r.pa
  | .atomicAtHome r => some r.pa
  | .watchArmAtHome r => some r.pa
  | .combineRequest _ _ r => some r.pa
  | .taskAtHome r => some r.pa
  | _ => none

/-- A request to a frame is on its way, or held in a combining unit: it completes at the old home (Table 3.6). -/
def frameAwaited (s : State) (f : Nat) : Bool :=
  (s.flight.any fun i => (requestPa i).any fun a => a / 65536 == f / 65536) ||
    s.units.any fun u => u.2.entries.any fun e => e.members.any fun m => m.2.pa / 65536 == f / 65536

/-- A chain with no store in progress: none is logged, and no core, or saved core, awaits a completion. -/
def chainQuiet (s : State) (ctx ch : Nat) : Bool :=
  let awaits := fun (x : Core) => x.chainOut.any fun st => st.ctx == ctx && st.ch == ch
  (chainOf s ctx ch).log == [] && !(s.cores.any fun e => awaits e.2) && !((s.ctxAt ctx).saves.any fun e => awaits e.2)

/-- A promoted page becomes local on its head die, and its chain number is freed (R70). -/
def State.demotePage (s : State) (g : Migration) (ch w0 : Nat) : State :=
  let e := chainOf s g.ctx ch
  let l := e.links.headD (0, 0)
  let frame := linkPa l (paLocal (leafFrame w0))
  let s := s.relink g.ctx g.vpage g.epa (bits w0 4 2 * 4 + 2 + flag (bit w0 6) 6 + flag (bit w0 7) 7 + frame + l.2 * 2 ^ 10)
  let s := (e.links.drop 1).foldl (fun s k => s.sigFollow (lineAtLink e k l)) s
  ((s.follow (fromChain g.ctx ch l)).freeEntry g.ctx ch).giveFrames ((e.links.drop 1).map fun k =>
    linkPa k (paLocal (leafFrame w0)) / 65536)

/-- A switch waits: a line of the page is pinned, or a request to the old home is on its way (Table 3.6). -/
def switchWaits (s : State) (ctx vpage frame : Nat) : Bool := pagePinned s ctx vpage (frame / 65536) || frameAwaited s frame

/-- The switch at the end of a placement operation (R69): it waits for pins, for requests on their way, and for a demotion's
stores; a page that has changed, or a die that was lost, abandons it. -/
def State.switchPage (s : State) (ctx vpage : Nat) : State :=
  match s.migs.find? fun g => g.ctx == ctx && g.vpage == vpage with
  | none => s
  | some g =>
    let w0 := (s.read64 g.epa).toNat
    match g.chain with
    | none =>
      if g.absent || w0 % 4 ≠ 2 || leafClass w0 != 0 || (s.dieAt g.die).lost || framePoisoned s ctx (leafFrame w0) then s.abandon g
      else if switchWaits s ctx vpage (leafFrame w0) then s.launch (.migrationSwitch ctx vpage)
      else (s.endMig g).movePage g w0
    | some ch =>
      if !g.demote then s
      else if g.absent || w0 % 4 ≠ 2 || leafClass w0 != 2 || bits w0 63 56 != ch then s.abandon g
      else if !chainQuiet s ctx ch || switchWaits s ctx vpage (linkPa ((chainOf s ctx ch).links.headD (0, 0)) (paLocal (leafFrame w0))) then
        s.launch (.migrationSwitch ctx vpage)
      else (s.endMig g).demotePage g ch w0

/-- MIGRATION_SWITCH (R69). -/
def execMigrationSwitch (ctx vpage : Nat) (s : State) : Host.Outcome State Fault Refusal := .next (s.switchPage ctx vpage)

end Sys2Proof.Machine
end

