-- ==== Sys2Proof/Machine/Chains.lean ====
section
/-!
DEFINITION. The ch instructions (R115 to R119) and the steps of chains: stores on their way, reads, sync and promotion,
hand-off, clean, and the loss of a link (R103 to R114).
-/
namespace Sys2Proof.Machine

/-! ## The ch instructions -/

/-- A gated chain command; the words of ra and rb, and its mailbox. -/
def chainOp (fn : Nat) (ra rb rc : SReg) : M Unit := do
  openPorts none [ra, rb, rc]
  let c ← core
  let ws := c.takeAll [ra, rb, rc]
  let m ← mailboxOf rc (ws.getD 2 0)
  gate (.ch fn (ws.getD 0 0) (ws.getD 1 0) m)
  finish [ra, rb, rc]

/-- ch.link (R116). -/
def execChLink (ra rb rc : SReg) (s : State) : Host.Outcome State Fault Refusal :=
  run (do
    needPrivilege
    chainOp 0 ra rb rc) s

/-- ch.unlink (R116). -/
def execChUnlink (ra rb rc : SReg) (s : State) : Host.Outcome State Fault Refusal :=
  run (do
    needPrivilege
    chainOp 1 ra rb rc) s

/-- ch.relink (R116). -/
def execChRelink (ra rb rc : SReg) (s : State) : Host.Outcome State Fault Refusal :=
  run (do
    needPrivilege
    chainOp 2 ra rb rc) s

/-- ch.clean (R119). -/
def execChClean (ra rc : SReg) (s : State) : Host.Outcome State Fault Refusal :=
  run (do
    openPorts none [ra, rc]
    let c ← core
    let ws := c.takeAll [ra, rc]
    let m ← mailboxOf rc (ws.getD 1 0)
    gate (.ch 5 (ws.getD 0 0) 0 m)
    finish [ra, rc]) s

/-- A link field (Table 5.4). -/
def linkField (lst : Nat) (l : Nat × Nat) : Nat := lst * 2 ^ 14 + l.1 * 8 + l.2

/-- The words of a chain entry, with the count of stores in progress (Tables 5.1 to 5.3). -/
def chainWord (e : Chain) (pend k : Nat) : Word :=
  match k with
  | 0 => Machine.word (e.gen * 2 ^ 48 + e.cst * 2 ^ 46 + e.base * 2 ^ 16 + e.npg)
  | 1 => Machine.word ((e.links.mapIdx fun i l => linkField (if e.leaving = some l then 2 else 1) l * 2 ^ (16 * i)).sum)
  | 2 => Machine.word ((e.sync.map fun l => linkField 1 l * 2 ^ 48).getD 0 + e.done * 2 ^ 15 + pend)
  | _ => 0

/-- ch.stat (R117). -/
def execChStat (la : BitVec 4) (ra rb rc : SReg) (s : State) : Host.Outcome State Fault Refusal :=
  run (do
    openPorts (some ra) [rb, rc]
    let s ← get
    let (b, c1) := s.core.takeS rb
    let k := fld (c1.takeS rc).1 1 0
    let ch := fld b 7 0
    finishL ra la [rb, rc] (if ch = 0 then 0 else chainWord (chainOf s s.ctxNo ch) (chainPend s s.ctxNo ch) k)) s

/-- ch.tail (R118). -/
def execChTail (la : BitVec 4) (ra rb : SReg) (s : State) : Host.Outcome State Fault Refusal :=
  run (do
    openPorts (some ra) [rb]
    let c ← core
    let va := addrOf (c.takeS rb).1
    let pl ← resolve va 8 .read
    let bs ← tailBytes va pl
    finishL ra la [rb] (Machine.word (ofBytes bs))) s

/-! ## Replies of atomics (R132, R134, R135, R257) -/

/-- The answer to a read leaves for its requester; a core of the own package takes its bytes in its own step (log 5 DESIGN CHOICE). -/
def State.reply (s : State) (pkg rtag : Nat) (v : Word) : State :=
  if pkg = s.pkg.num then s else { s with outs := s.outs ++ [.reply pkg rtag v] }

/-- A core that receives the value of its outstanding atomic: the pending result has its value, and takes effect under the window
that the instruction gave (R19). -/
def Core.receive (x : Core) (r : AtomReq) (v : Word) : Core :=
  let given := fun (p : Pend) => if p.wait = some r.rtag then { p with val := .s (BitVec.ofNat 6 r.dest) v, wait := none } else p
  let y := { x with outst := x.outst.filter fun q => q.rtag != r.rtag }
  y.settle (x.pend.map given)

/-- An atomic's reply or completion reaches its requester, on its core or in its saved state (R135). -/
def State.replyAtomic (s : State) (r : AtomReq) (v : Word) : State :=
  if r.pkg ≠ s.pkg.num then s.reply r.pkg r.rtag v
  else s.onHolder r.core r.ctx fun x => if x.outst.any fun q => q.rtag == r.rtag then x.receive r v else x

/-- A reply goes to the unit that combined its request, or to its requester. -/
def State.answerAtomic (s : State) (r : AtomReq) (v : Word) : State :=
  match r.crumb with
  | some (u, id) => s.launch (.decombine u id v)
  | none => s.replyAtomic r v

/-! ## Stores on their way (R102, R103, R105, R112, R113) -/

/-- A step is the arrival of a store of the same chain at the same link. -/
def sameHop (st : ChainStore) (i : Instr) : Bool :=
  match i with
  | .chainStoreAtLink t => sameChain t st && t.hop == st.hop
  | _ => false

/-- A store that has not reached its link goes on waiting there, ahead of later ones. -/
def State.waitAtLink (s : State) (st : ChainStore) : State :=
  { s with flight := placeBefore (sameHop st) (.chainStoreAtLink st) s.flight }

/-- A store waits at a link: the chain is being reconfigured and the store is at its head, a foreign chain is frozen, the log of a
member's die is full, its line's slice is being moved or is not ready, or what it sends on waits for a UALink port (R103, R112, R114,
R365, R386). -/
def storeHeld (s : State) (st : ChainStore) : Bool :=
  let e := chainAt s st.pkg st.ctx st.ch
  e.reconf && (st.hop == 0 || st.pkg != s.pkg.num) || logFull s e st.hop ||
    (((e.links ++ e.sync.toList)[st.hop]?).any fun l => st.data.any fun b => accessHeld s (linkPa l b.1)) ||
    (((e.links ++ e.sync.toList)[st.hop + 1]?).any fun l => portAwaited s l.1)

/-- The link of a hop: a member, or behind the last of them the syncing link (R103). -/
def linkAt (e : Chain) (hop : Nat) : Option (Nat × Nat) := (e.links ++ e.sync.toList)[hop]?

/-- A store of another package's chain that the port does not let in: its key is not its tenant's, or the record names no link of
this package at its hop (R113, R376). -/
def chainBarred (s : State) (st : ChainStore) : Bool :=
  st.pkg != s.pkg.num &&
    (st.key == 0 || Tbl.getD s.pkg.keys st.tenant 0 != st.key ||
      !(linkAt (chainAt s st.pkg st.ctx st.ch) st.hop).any fun l => l.1 == s.pkg.num)

/-- A generation is older than another one: generations follow one another from 1 to 0xFFFF and from there to 1 (R102). -/
def olderGen (a b : Nat) : Bool := a != b && decide ((b + 65535 - a) % 65535 < 32768)

/-- A store reaches a link that was routed by an older table copy: it goes back to its sender, which routes it again by the new
one (R102). The sender is the requester, or the member before the link; one in another package is reached over UALink. -/
def State.routeAgain (s : State) (st : ChainStore) (e : Chain) : State :=
  let st' := { st with gen := e.gen }
  let sender := st.sender.getD (if st.hop = 0 then st.pkg else s.pkg.num)
  if st.pkg = s.pkg.num ∨ sender = s.pkg.num then s.waitAtLink st'
  else { s with outs := s.outs ++ [.ual sender (ualChain s st (.chainStore { st' with sender := none }))] }

/-- The share class of a chain: its own context's, or the one that its foreign record names (R113). -/
def chainShare (s : State) (k : Nat × Nat × Nat) : Nat :=
  if k.1 = s.pkg.num then fld (s.ctxAt k.2.1).shcls 4 0
  else ((s.pkg.foreign.find? fun f => f.owner == k.1 && f.ctx == k.2.1 && f.ch == k.2.2).map Foreign.share).getD 0

/-- The tenant of a chain: its own context's, or the one that its foreign record names (R114). -/
def chainTenant (s : State) (k : Nat × Nat × Nat) : Nat :=
  if k.1 = s.pkg.num then (s.ctxAt k.2.1).tenant
  else ((s.pkg.foreign.find? fun f => f.owner == k.1 && f.ctx == k.2.1 && f.ch == k.2.2).map Foreign.tenant).getD 0

/-- A request on a chain leaves for another package, with the key and the class of the owning context (R113). -/
def State.sendChain (s : State) (k : Nat × Nat × Nat) (pkg : Nat) (b : UalBody) : State :=
  let tenant := chainTenant s k
  { s with outs := s.outs ++ [.ual pkg
    { pkg := s.pkg.num, tenant := tenant, key := Tbl.getD s.pkg.keys tenant 0, share := chainShare s k, body := b }] }

/-- A read of another package, routed by an older table copy than the link's: it goes back to its sender (R102). -/
def staleRead (s : State) (r : MemReq) (e : Chain) : Bool := r.pkg != s.pkg.num && olderGen r.gen e.gen

/-- A store that reaches its link and is taken there; where it belongs to an ordered activation, those of a higher key that have read
its line are discarded (R301). -/
def State.storeArrives (s : State) (st : ChainStore) : State :=
  (s.chainArrive st).conflict (orderedBy st.ctx st.okey)
    (some (st.data.flatMap fun b => (chainAt s st.pkg st.ctx st.ch).links.map fun l => lineOf (linkPa l b.1)))

/-- CHAIN_STORE_AT_LINK (R102, R103, R113): one that the port bars is refused, as any request is (R377). -/
def execChainStoreAtLink (st : ChainStore) (s : State) : Host.Outcome State Fault Refusal :=
  let e := chainAt s st.pkg st.ctx st.ch
  .next (if chainBarred s st then
      let t := s.note 2 (st.pkg * 4096 + st.tenant) 0
      { t with outs := t.outs ++ [.refused st.pkg (ualChain s st (.chainStore st))] }
    else if storeHeld s st then s.waitAtLink st
    else if e.cst ≠ 3 ∧ olderGen st.gen e.gen then s.routeAgain st e
    else s.storeArrives st)

/-- CHAIN_ACKNOWLEDGEMENT (R103, R107). -/
def execChainAcknowledgement (st : ChainStore) (s : State) : Host.Outcome State Fault Refusal := .next (s.chainAck st)

/-- A core without the store that has completed (R105). -/
def Core.completed (x : Core) (st : ChainStore) : Core := { x with chainOut := x.chainOut.filter fun t => !sameId t st }

/-- CHAIN_STORE_COMPLETION (R104, R105): the requester's die gives the store up, and an atomic that the store carries returns its
value. -/
def execChainStoreCompletion (st : ChainStore) (s : State) : Host.Outcome State Fault Refusal :=
  .next (if st.pkg = s.pkg.num then
      let s := s.onHolder st.core st.ctx fun x => x.completed st
      match st.answer with
      | some (r, v) => s.answerAtomic r v
      | none => s
    else match st.answer with
      | some (r, v) => s.answerAtomic r v
      | none => { s with outs := s.outs ++ [.chain st.pkg st] })

/-! ## Reads (R106) -/

/-- The chain and the in-die offset that a read names, the chain by its owner, context and number: that of its address in an own
context, or the one that a request of another package carries (R113). -/
def chainAddress (s : State) (r : MemReq) : Option ((Nat × Nat × Nat) × Nat) :=
  if r.pkg ≠ s.pkg.num then r.chain.map fun c => ((r.pkg, r.ctx, c.1), c.2)
  else match walk s r.ctx r.va with
    | .leaf l _ => match leafPlace s l r.va with
      | .chain x ch off => some ((s.pkg.num, x, ch), off)
      | .mem _ => none
    | _ => none

/-- The link that serves a read: for a core of the package as R106 gives, and for another package's reader the link at which its
request has arrived. -/
def linkFor (s : State) (r : MemReq) (e : Chain) : Nat × Nat :=
  if r.pkg = s.pkg.num then servingLink s r.core e
  else (e.links.find? fun l => l.1 == s.pkg.num).getD (e.links.headD (0, 0))

/-- A link's copy answers a read; failing data is not delivered (R74). A core of the own package takes its bytes in its own step
(log 5 DESIGN CHOICE). -/
def State.serveCopy (s : State) (r : MemReq) (tenant pa : Nat) : State :=
  if r.pkg = s.pkg.num ∨ (sectorError s tenant pa).isSome then s
  else s.reply r.pkg r.core (Machine.word (ofBytes (s.readPa pa (min 8 r.len))))

/-- A copy of a chain line serves no read now: its line is being invalidated, or an access to it is held (R123, R365, R386). -/
def copyHeld (s : State) (pa : Nat) : Bool := lineBusy s pa || accessHeld s pa

/-- CHAIN_READ (R102, R106): the serving link answers from a clean copy, which the reader's L1 takes; for a dirty line it asks
the tail. While the copy's line is being invalidated the read waits (R123). A frozen chain serves no reads (R114). -/
def execChainRead (r : MemReq) (s : State) : Host.Outcome State Fault Refusal :=
  .next (match chainAddress s r with
    | none => s
    | some (k, off) =>
      let e := chainAt s k.1 k.2.1 k.2.2
      let l := linkFor s r e
      if e.cst = 0 ∨ e.cst = 3 ∨ k.1 ≠ s.pkg.num ∧ e.reconf = true then s
      else if staleRead s r e then s.sendChain k (r.sender.getD r.pkg) (.chainRead { r with gen := e.gen, sender := none })
      else if dirtyAt e l (lineOf off) then s.launch (.chainTailQuery r)
      else if copyHeld s (linkPa l off) then s.launch (.chainRead r)
      else
        let s := if r.pkg = s.pkg.num then s.fillL1 r.core (linkPa l off) (r.acc == .fetch) else s
        s.serveCopy r (chainTenant s k) (linkPa l off))

/-- CHAIN_TAIL_QUERY (R102, R106): the tail answers with its copy, once no reconfiguration is in progress and no invalidation of the
line is pending (R112, R123). The tail of another package's chain that lies in a third package is asked over UALink (R113). -/
def execChainTailQuery (r : MemReq) (s : State) : Host.Outcome State Fault Refusal :=
  .next (match chainAddress s r with
    | none => s
    | some (k, off) =>
      let e := chainAt s k.1 k.2.1 k.2.2
      let l := tailOf e.links
      if e.cst = 0 ∨ e.cst = 3 then s
      else if staleRead s r e then s.sendChain k (r.sender.getD r.pkg) (.tailQuery { r with gen := e.gen, sender := none })
      else if e.reconf then s.launch (.chainTailQuery r)
      else if k.1 ≠ s.pkg.num ∧ l.1 ≠ s.pkg.num then s.sendChain k l.1 (.tailQuery { r with sender := none })
      else if copyHeld s (linkPa l off) then s.launch (.chainTailQuery r)
      else s.serveCopy r (chainTenant s k) (linkPa l off))

/-! ## Sync and promotion (R109, R110, R70) -/

/-- The promotion that a chain's sync belongs to (R70). -/
def promotionOf (s : State) (ctx ch : Nat) : Option Migration :=
  s.migs.find? fun g => g.ctx == ctx && g.chain == some ch && !g.demote

/-- The bytes of a page of a chain at a link, by in-die offset. -/
def pageData (s : State) (l : Nat × Nat) (page : Nat) : List (Nat × Byte) :=
  let a := linkPa l (page * 65536)
  (s.mem.filter fun c => decide (a ≤ c.1) && decide (c.1 < a + 65536)).map fun c => (page * 65536 + (c.1 - a), c.2)

/-- A page of an own chain, or the promotion marker behind the last one, leaves for a syncing link in another package, where the tail
lies in this one (R109, R113). -/
def State.sendSync (s : State) (ctx ch : Nat) (b : UalBody) : State :=
  let e := chainOf s ctx ch
  match e.sync with
  | some y => if (tailOf e.links).1 = s.pkg.num ∧ y.1 ≠ s.pkg.num then s.sendChain (s.pkg.num, ctx, ch) y.1 b else s
  | none => s

/-- CHAIN_PAGE_COPY (R109): the next page of the range goes to the syncing link, and the marker after the last. A promotion that
meets an uncorrectable line in the frame that it reads is abandoned (Table 3.6). -/
def execChainPageCopy (ctx ch : Nat) (s : State) : Host.Outcome State Fault Refusal :=
  let e := chainOf s ctx ch
  .next (match e.sync with
    | none => s
    | some y =>
      let old := linkPa (tailOf e.links) ((e.base + e.done) * 65536)
      match decide (e.done ≤ e.npg), (promotionOf s ctx ch).filter fun _ => framePoisoned s ctx old with
      | false, _ => s
      | true, some g => s.abandon g
      | true, none =>
        let s := s.sendSync ctx ch (.chainPage s.pkg.num ctx ch (e.base + e.done) (pageData s (tailOf e.links) (e.base + e.done)))
        let s := if e.done = e.npg then s.sendSync ctx ch (.chainMark s.pkg.num ctx ch) else s
        let s := s.copyFrame old (linkPa y ((e.base + e.done) * 65536))
        let s := s.onChain ctx ch fun e => { e with done := e.done + 1 }
        s.launch (if e.done = e.npg then .chainPromotionMarker ctx ch else .chainPageCopy ctx ch))

/-- The syncing link becomes a member and the tail. With the tail's pages it has the tail's list of the stores that have reached it:
none of them is applied a second time (R109, R112). -/
def Chain.promoted (e : Chain) (y : Nat × Nat) : Chain :=
  let given := (e.seen.filter fun x => x.1 == tailOf e.links).map fun x => (y, x.2)
  { e with links := e.links ++ [y], gen := nextGen e.gen, cst := 1, sync := none, done := 0,
           seen := given ++ e.seen.filter fun x => x.1 != y }

/-- The first joining link of a promotion: the page's leaf becomes chain class (R70). -/
def State.chainLeaf (s : State) (g : Migration) (ch : Nat) : State :=
  let w0 := (s.read64 g.epa).toNat
  let frame := leafFrame w0
  let s := s.relink g.ctx g.vpage g.epa (bits w0 4 2 * 4 + 2 + 2 ^ 5 + 2 * 2 ^ 8 + g.die * 2 ^ 10 + paLocal frame % hbmDie + ch * 2 ^ 56)
  s.follow (toChain frame g.ctx ch)

/-- The next die of a promotion joins, or the promotion is over. A die whose frame is not free is skipped (R70). -/
def State.nextJoin (s : State) (g : Migration) (ch : Nat) : State :=
  let e := chainOf s g.ctx ch
  let off := e.base * 65536
  match g.join.filter fun d => dieUp s d && frameFree s (diePa s d off / 65536) with
  | [] => s.endMig g
  | d :: rest =>
    if 4 ≤ e.links.length then s.endMig g
    else
      let s := (s.endMig g).addMig { g with join := rest }
      (s.onChain g.ctx ch fun e => { e with sync := some (s.pkg.num, d), done := 0 }).launch (.chainPageCopy g.ctx ch)

/-- The marker of a promotion's join. The first one switches the page to chain class: it waits for pins and for requests on their
way, an uncorrectable line abandons it, and so does a page that is no longer present or no longer of its class, and the page's
stores until then are in the copy that the new link takes (Table 3.6, R70). -/
def State.joinMarker (s : State) (g : Migration) (ch : Nat) (y : Nat × Nat) : State :=
  let e := chainOf s g.ctx ch
  let w0 := (s.read64 g.epa).toNat
  if g.absent || w0 % 4 ≠ 2 || leafClass w0 != (if e.links.length = 1 then 0 else 2) then s.abandon g
  else if e.links.length ≠ 1 then (s.onChain g.ctx ch fun e => e.promoted y).nextJoin g ch
  else
    let old := linkPa (tailOf e.links) (e.base * 65536)
    if framePoisoned s g.ctx old then s.abandon g
    else if switchWaits s g.ctx g.vpage old then s.launch (.chainPromotionMarker g.ctx ch)
    else
      let s := s.copyFrame old (linkPa y (e.base * 65536))
      ((s.onChain g.ctx ch fun e => e.promoted y).chainLeaf g ch).nextJoin g ch

/-- The marker of a ch.link or a ch.relink, which then removes the leaving link and writes its status (R109, R110). -/
def State.linkMarker (s : State) (ctx ch : Nat) (y : Nat × Nat) : State :=
  let e := chainOf s ctx ch
  let s := (s.onChain ctx ch fun e => e.promoted y).announce ctx ch []
  let s := match e.leaving with
    | some l =>
      let s := if e.links.head? = some l then s.moveMons ctx ch l ((e.links ++ [y]).getD 1 y) else s
      s.removeLink s.pkg.num ctx ch l
    | none => s
  (s.onChain ctx ch fun e => { e with leaving := none, mbox := none }).mailbox ctx e.mbox 1

/-- The promotion marker reaches the syncing link behind every page of the range (R109). -/
def State.marker (s : State) (ctx ch : Nat) : State :=
  let e := chainOf s ctx ch
  match e.sync with
  | none => s
  | some y =>
    if e.done ≠ e.npg + 1 then s
    else match promotionOf s ctx ch with
      | some g => s.joinMarker g ch y
      | none => s.linkMarker ctx ch y

/-- CHAIN_PROMOTION_MARKER (R109). -/
def execChainPromotionMarker (ctx ch : Nat) (s : State) : Host.Outcome State Fault Refusal := .next (s.marker ctx ch)

/-- The head of a chain leaves after its path has drained: the next member is the head (R111). -/
def Chain.behead (e : Chain) : Chain :=
  let rest := e.links.drop 1
  { e with links := rest, gen := nextGen e.gen, cst := cstOf rest.length, reconf := false, handoff := none,
           freeing := false, seen := e.seen.filter fun x => some x.1 != e.links.head? }

/-- The forwarding path of a chain's head is drained: every store that it has taken has completed (R111). -/
def chainDrained (s : State) (ctx ch : Nat) : Bool :=
  let e := chainOf s ctx ch
  e.log == [] && !(s.flight.any fun i => match i with
    | .chainStoreAtLink st => st.pkg == s.pkg.num && st.ctx == ctx && st.ch == ch && st.hop != 0
    | .chainAcknowledgement st => st.pkg == s.pkg.num && st.ctx == ctx && st.ch == ch
    | _ => false)

/-- CHAIN_HEAD_HANDOFF (R111): the head drains its forwarding path, passes its role on, and the status is written. A head that has
become the only member meanwhile is removed only by a command that frees the chain (status 6). -/
def execChainHeadHandoff (ctx ch : Nat) (s : State) : Host.Outcome State Fault Refusal :=
  let e := chainOf s ctx ch
  .next (if !e.reconf then s
    else if !chainDrained s ctx ch then s.launch (.chainHeadHandoff ctx ch)
    else if e.links.length ≤ 1 then
      let s := s.onChain ctx ch fun e => { e with reconf := false, handoff := none, freeing := false }
      if e.freeing then s.unlinkLast ctx ch (e.links.headD (0, 0)) e.handoff else s.mailbox ctx e.handoff 6
    else
      let h := e.links.headD (0, 0)
      let s := s.moveMons ctx ch h (e.links.getD 1 (0, 0))
      let s := ((s.onChain ctx ch Chain.behead).announce ctx ch [h]).mailbox ctx e.handoff 1
      let ls := (chainOf s ctx ch).links
      if ls.length = 1 then s.log ctx 0x23 0 0xFFF (ls.headD (0, 0)).2 false 0 ch else s)

/-- CHAIN_CLEAN_DONE (R119): the stores that the head had applied have completed; for a lost chain the status is 2. -/
def execChainCleanDone (ctx ch : Nat) (s : State) : Host.Outcome State Fault Refusal :=
  let e := chainOf s ctx ch
  let open' := fun (q : Option Nat × List (Nat × Nat × Nat)) => e.cst != 3 && q.2.any (openStores s ctx ch).contains
  let done := e.clean.filter fun q => !open' q
  let left := e.clean.filter open'
  let s := s.onChain ctx ch fun e => { e with clean := left }
  let s := done.foldl (fun s q => s.mailbox ctx q.1 (if e.cst = 3 then 2 else 1)) s
  .next (if left = [] then s else s.launch (.chainCleanDone ctx ch))

/-! ## The loss of a link (R112, R114) -/

/-- A chain of an own context loses a link, as Table 5.8 gives. -/
def State.loseLinkOf (s : State) (l : Nat × Nat) (ctx ch : Nat) : State :=
  let e := chainOf s ctx ch
  let s := if e.sync = some l || (e.sync.isSome && e.links.getLast? == some l) then s.dropSync ctx ch else s
  if e.links.contains l then s.removeLink s.pkg.num ctx ch l else s

/-- A foreign record loses a link: the survivors reconfigure among themselves (R112, R114). -/
def State.loseForeign (s : State) (l : Nat × Nat) (f : Foreign) : State :=
  let s := s.onChainAt f.owner f.ctx f.ch fun e =>
    if e.sync = some l || (e.sync.isSome && e.links.getLast? == some l) then { e with sync := none, done := 0 } else e
  if f.e.links.contains l then s.removeLink f.owner f.ctx f.ch l else s

/-- A package is lost when none of its dies can be reached. -/
def pkgLost (s : State) (p : Nat) : Bool := (List.range 8).all fun d => s.pkg.lostLinks.contains (p, d)

/-- A step of a store belongs to a chain of a package. -/
def storeOf (owner ctx ch : Nat) (i : Instr) : Bool :=
  match i with
  | .chainStoreAtLink st => st.pkg == owner && st.ctx == ctx && st.ch == ch
  | .chainAcknowledgement st => st.pkg == owner && st.ctx == ctx && st.ch == ch
  | _ => false

/-- A store of another package's chain reaches the members from a hop on that have not yet taken it, over UALink where they lie in other
packages (R112). -/
def State.carryStore (s : State) (f : Foreign) (hop : Nat) (st : ChainStore) : State :=
  let ls := (chainAt s f.owner f.ctx f.ch).links
  (ls.drop hop).foldl (fun s l =>
    if l.1 ≠ s.pkg.num then s.overUal l { st with hop := ls.idxOf l, sender := none }
    else if seenBefore (chainAt s f.owner f.ctx f.ch) l st then s
    else (s.applyStore l st none).onChainAt f.owner f.ctx f.ch fun e => { e with seen := remember l st e.seen }) s

/-- What the members of another package's chain have logged, and what is on its way to one, reaches the last survivor (R112, R114). -/
def State.carryStores (s : State) (f : Foreign) : State :=
  let e := chainAt s f.owner f.ctx f.ch
  let logs := e.links.flatMap fun l => (e.log.filter fun x => x.1 == l).map fun x => (e.links.idxOf l + 1, x.2)
  let way := s.flight.filterMap fun i => match i with
    | .chainStoreAtLink st => if storeOf f.owner f.ctx f.ch i then some (st.hop, st) else none
    | _ => none
  (logs ++ way).foldl (fun s x => s.carryStore f x.1 x.2) s

/-- The chains of a lost package's contexts freeze: the stores in progress go on to the last survivor, which is the tail, and every line
is clean (R114). A record that no survivor is left for goes. -/
def State.freeze (s : State) (owner : Nat) : State :=
  let fs := s.pkg.foreign.filter fun f => f.owner == owner
  let s := fs.foldl State.carryStores s
  let s := { s with flight := s.flight.filter fun i => !fs.any fun f => storeOf f.owner f.ctx f.ch i }
  s.onPkg fun p => { p with foreign := (p.foreign.map fun f =>
    if f.owner = owner then { f with e := { f.e with log := [], sync := none, done := 0, reconf := true } } else f).filter fun f =>
      f.owner != owner || f.e.links != [] }

/-- Every chain of the package, and every foreign record, loses a link (R112, R114); firings whose launch blocks are lost with
it stop (Table 15.5). -/
def State.loseLink (s : State) (l : Nat × Nat) : State :=
  let cs := s.ctxs.flatMap fun x => x.2.chains.map fun e => (x.1, e.1)
  let s := cs.foldl (fun s k => s.loseLinkOf l k.1 k.2) s
  let s := s.pkg.foreign.foldl (fun s f => s.loseForeign l f) s
  (if pkgLost s l.1 then s.freeze l.1 else s).stopLost

/-- LINK_UNREACHABLE (R112). -/
def execLinkUnreachable (pkg die : Nat) (s : State) : Host.Outcome State Fault Refusal :=
  .next (if pkg = s.pkg.num ∨ s.pkg.lostLinks.contains (pkg, die) then s
    else (s.onPkg fun p => { p with lostLinks := p.lostLinks ++ [(pkg, die)] }).loseLink (pkg, die))

end Sys2Proof.Machine
end

