-- ==== Sys2Proof/Machine/Slices.lean ====
section
/-!
DEFINITION. Requests at home slices, in combining units and at remote ports (chapters 06 and 12): the steps of the
device that serve what another agent, or a combinable atomic, has on its way.
-/
namespace Sys2Proof.Machine

/-! ## Loads and stores at a home slice (R123, R128) -/

/-- A step is a request for a line at its home slice. -/
def sameLine (pa : Nat) (i : Instr) : Bool :=
  match i with
  | .homeSliceAccess r => lineOf r.pa == lineOf pa
  | .atomicAtHome r => lineOf r.pa == lineOf pa
  | .watchArmAtHome r => lineOf r.pa == lineOf pa
  | _ => false

/-- A request that cannot be served waits at its home slice: ahead of those for its line that have not yet reached the slice, and, where
it had waited there before, of all (R128). -/
def State.waitAtSlice (s : State) (pa : Nat) (here : Bool) (i : Instr) : State :=
  { s with flight := placeBefore (fun x => sameLine pa x && (here || !atSlice pa x)) i s.flight }

/-- A read at its home slice: it waits while the line is being invalidated, and behind what waits there; the core's L1 takes the line
(R122, R123, R128). Failing data is not delivered (R74). -/
def State.serveRead (s : State) (r : MemReq) : State :=
  if lineHeld s r.pa r.here then s.waitAtSlice r.pa r.here (.homeSliceAccess { r with here := true })
  else if (hbmError s r.ctx r.pa).isSome then s
  else
    let own := r.pkg == s.pkg.num
    let s := if own then s.count r.ctx (dieOf r.core) r.pa false else s
    let s := if own && (r.acc == .read || r.acc == .fetch) then s.fillL1 r.core r.pa (r.acc == .fetch) else s.fillL2 r.pa
    s.reply r.pkg r.core (Machine.word (ofBytes (s.readPa r.pa (min 8 r.len))))

/-- A write at its home slice: the bytes are applied, and an invalidation goes to every sharer bit; no read of the line is
served until all are acknowledged (R123). It waits behind the requests that wait there (R128). While the invalidations of another
core's write are pending no copy is spared. -/
def State.serveWrite (s : State) (r : MemReq) : State :=
  if (s.dieAt (hbmDieOf r.pa)).lost then s.logCore r.ctx 0x21 0 r.core r.va 0
  else if !r.here && lineAwaited s r.pa then s.waitAtSlice r.pa false (.homeSliceAccess { r with here := true })
  else
    let own := r.pkg == s.pkg.num
    let line := lineOf r.pa
    let s := (s.writePa r.pa r.data).fillL2 r.pa
    let d := Tbl.getD s.dir line {}
    let keep := if own && (d.busy == [] || d.keep == some r.core) then some r.core else none
    let s := { s with dir := Tbl.put s.dir line { d with busy := d.busy ++ d.targets, keep := keep } }
    let s := d.targets.foldl (fun s t => s.launch (.invalidation line t)) s
    let s := if own then s.count r.ctx (dieOf r.core) r.pa true else s
    ((s.stamp r.ctx r.pa (decide (r.pa % 64 = 0 ∧ 64 ≤ r.data.length))).tamper r.pa).fireMonitors r.pa

/-- HOME_SLICE_ACCESS (R123, R128): for a line of the own package's HBM. A request to a slice that is being moved is held (R365). -/
def execHomeSliceAccess (r : MemReq) (s : State) : Host.Outcome State Fault Refusal :=
  .next (if !ownHbm s r.pa then s
    else if accessHeld s r.pa then s.waitAtSlice r.pa r.here (.homeSliceAccess { r with here := true })
    else if r.data = [] then s.serveRead r else s.serveWrite r)

/-- INVALIDATION (R123). -/
def execInvalidation (line target : Nat) (s : State) : Host.Outcome State Fault Refusal :=
  .next ((s.dropL1 line target (Tbl.getD s.dir line {}).keep).launch (.invalidationAck line target))

/-- A sharer bit is cleared, but for the one over a copy that was updated in place. -/
def Sharers.acked (d : Sharers) (line target : Nat) : Sharers :=
  let kept := d.keep.any (underTarget line target)
  let busy := d.busy.erase target
  { clusters := if kept then d.clusters else d.clusters.filter (· != target),
    dies := if kept then d.dies else d.dies.filter fun x => 32 + x != target,
    busy := busy, keep := if busy = [] then none else d.keep }

/-- INVALIDATION_ACK (R123). -/
def execInvalidationAck (line target : Nat) (s : State) : Host.Outcome State Fault Refusal :=
  let d := Tbl.getD s.dir line {}
  .next (if d.busy.contains target then { s with dir := Tbl.put s.dir line (d.acked line target) } else s)

/-! ## Atomics at their home (R128, R135, R257) -/

/-- The members that a crumb lists: from either copy that can be read (R132, R135). -/
def Crumb.members (k : Crumb) : List (Nat × AtomReq) := (k.first.or k.second).getD []

/-- The members of a request that lie under a crumb. -/
def membersUnder (s : State) : Nat → AtomReq → List AtomReq
  | 0, r => [r]
  | n + 1, r => match r.crumb with
    | none => [r]
    | some (u, id) => (Tbl.getD (Tbl.getD s.units u {}).crumbs id {}).members.flatMap fun m => membersUnder s n m.2

/-- A core whose returning atomic met uncorrectable data: its activation, resident or saved, consumes it before its next
instruction (R135, R355). -/
def Core.owes (x : Core) (cls detail : Nat) (r : AtomReq) : Core :=
  { x.forgets r.rtag with due := some (0x0E, Machine.word r.va), dueCls := cls, dueDetail := detail }

/-- The place of a request: memory, or the line of a chain (R104). -/
def atomPlace (r : AtomReq) : Place :=
  match r.chain with
  | some (ch, off) => .chain r.ctx ch off
  | none => .mem r.pa

/-- A request at its home that meets uncorrectable data: a returning one consumes it for its activation, a non-returning
one changes nothing and is logged (R353). -/
def State.failAtomic (s : State) (cls : Nat) (pl : Place) (r : AtomReq) : State :=
  if r.pkg ≠ s.pkg.num then s
  else if r.dest = 0 then (s.logCore r.ctx cls 0x0E r.core r.va (failDetail cls pl)).replyAtomic r 0
  else if (s.holder r.core r.ctx).outst.any fun q => q.rtag == r.rtag then
      s.onHolder r.core r.ctx fun x => x.owes cls (failDetail cls pl) r
  else s

/-- An atomic of another package on a line of its own chain, or of its foreign record, whose head is a die of this package: it runs on
the head's copy, the value that it writes goes down the chain as a store, and the answer comes with the store's completion, or,
where nothing is written, once the line is clean (R104, R108, R113). One that an older table copy routed goes back (R102). -/
def State.foreignAtomic (s : State) (r : AtomReq) (ch off : Nat) : State :=
  let e := chainAt s r.pkg r.ctx ch
  let l := e.links.headD (0, 0)
  let pa := linkPa l off
  let tenant := chainTenant s (r.pkg, r.ctx, ch)
  let again := s.waitAtSlice r.pa r.here (.atomicAtHome { r with here := true })
  if e.links = [] then s
  else if olderGen r.gen e.gen then s.sendChain (r.pkg, r.ctx, ch) r.pkg (.chainAtomic { r with gen := e.gen, here := false })
  else if l.1 ≠ s.pkg.num then s
  else if e.reconf || logFull s e 0 || lineHeld s pa r.here || accessHeld s pa then again
  else if (sectorError s tenant pa).isSome then s
  else
    let w := 8 * r.width
    let x := ofBytes (s.readPa pa r.width)
    let old := oldValue r.width x
    match atomicFn r.fn w x (r.operand.toNat % 2 ^ w) (r.cmp.toNat % 2 ^ w) with
    | some y => s.chainArrive { pkg := r.pkg, core := r.core, seq := 2 ^ 31 + r.rtag % 2 ^ 31, ctx := r.ctx, ch := ch,
                                data := atOffsets off (toBytes r.width y), gen := e.gen, va := r.va, tenant := tenant,
                                key := Tbl.getD s.pkg.keys tenant 0, share := chainShare s (r.pkg, r.ctx, ch), answer := some (r, old),
                                home := true }
    | none => if dirtyAt e l (lineOf off) then again else s.answerAtomic r old

/-- ATOMIC_AT_HOME (R128, R256): one step at the serialisation point, and the reply, which on a chain line is the completion of the
store that carries the value (R104). It waits with its line. -/
def execAtomicAtHome (r : AtomReq) (s : State) : Host.Outcome State Fault Refusal :=
  let pl := atomPlace r
  .next (match if r.pkg = s.pkg.num then none else r.chain with
    | some (ch, off) => s.foreignAtomic r ch off
    | none =>
    if headWaits s r.core pl r.here then s.waitAtSlice r.pa r.here (.atomicAtHome { r with here := true })
    else match homeFails s r.ctx pl with
    | some cls => (membersUnder s 32 r).foldl (fun s m => s.failAtomic cls pl m) s
    | none =>
      let (v, t) := s.atomicAt r.core r.ctx pl r.fn r.width r.operand r.cmp r.va (some r)
      let t := (membersUnder s 32 r).foldl (fun t m => t.conflict (orderedBy m.ctx m.okey) (some (writtenLines s pl))) t
      if r.chain.isSome then t else t.answerAtomic r v)

/-- WATCH_ARM_AT_HOME (R258): it waits with its line (R123, R128); the value that one of another package
found goes back there (R376). -/
def execWatchArmAtHome (r : WatchReq) (s : State) : Host.Outcome State Fault Refusal :=
  .next (if lineHeld s r.pa r.here || accessHeld s r.pa then s.waitAtSlice r.pa r.here (.watchArmAtHome { r with here := true })
    else r.origin.elim (s.watchAt r) fun o => (s.watchAt r).reply o.1 r.core (watchValue s r))

/-! ## Combining (R130 to R134) -/

/-- The hub die's fabric switch among the combining units; a mesh router is numbered as its cluster. -/
def hubUnit : Nat := 256

/-- The router of a line's home slice. -/
def homeUnit (pa : Nat) : Nat := hbmDieOf pa * 32 + homeSlice pa

/-- The column of a router in its die's mesh of 8 by 4 (log 73 DESIGN CHOICE). -/
def colOf (r : Nat) : Nat := r % 32 % 8
/-- The row of a router. -/
def rowIn (r : Nat) : Nat := r % 32 / 8

/-- The neighbours of a router, each with the port by which it leaves and the port at which the neighbour is entered (Table 6.1). -/
def routerNext (u : Nat) : List (Nat × Nat × Nat) :=
  (if colOf u < 7 then [(u + 1, 2, 4)] else []) ++ (if 0 < colOf u then [(u - 1, 4, 2)] else []) ++
    (if rowIn u < 3 then [(u + 8, 3, 1)] else []) ++ (if 0 < rowIn u then [(u - 8, 1, 3)] else [])

/-- A combining unit. -/
def unitOf (s : State) (u : Nat) : CombUnit := Tbl.getD s.units u {}

/-- The neighbours of a router that work, over links that have not been removed at either end. -/
def liveNext (s : State) (u : Nat) : List (Nat × Nat × Nat) :=
  let gone := s.pkg.removedParts
  (routerNext u).filter fun n => !(unitOf s n.1).removed && !gone.contains (.mesh (u / 32) (u % 32) n.2.1) &&
    !gone.contains (.mesh (u / 32) (n.1 % 32) n.2.2)

/-- The routers within n links of a router. -/
def within (s : State) : Nat → Nat → List Nat
  | 0, h => [h]
  | n + 1, h => let rs := within s n h; distinct (rs ++ rs.flatMap fun r => (liveNext s r).map Prod.fst)

/-- A die has lost a mesh link or a router. -/
def meshBroken (s : State) (die : Nat) : Bool :=
  (s.pkg.removedParts.any fun p => match p with
    | .mesh d _ _ => d == die
    | _ => false) || s.units.any fun u => u.1 / 32 == die && u.2.removed

/-- The dimension-order step of a request from a router toward another of its die: along the row, then along the column. -/
def straight (u h : Nat) : Nat :=
  if colOf u < colOf h then u + 1 else if colOf h < colOf u then u - 1 else if rowIn u < rowIn h then u + 8 else u - 8

/-- The next router of a request's path within a die, with the port by which it is entered: the dimension-order step, or, in a die
that has lost a link or a router, the first step of a shortest path; with no path left the request is carried past the mesh
(R130, R136, log 73 DESIGN CHOICE). -/
def meshStep (s : State) (u h : Nat) : Nat × Nat :=
  let hop := if meshBroken s (u / 32) then
      (List.range 32).findSome? fun n => ((liveNext s u).find? fun x => (within s n h).contains x.1).map Prod.fst
    else some (straight u h)
  match hop with
  | some v => (v, (((routerNext u).find? fun n => n.1 == v).map fun n => n.2.2).getD 0)
  | none => (h, 0)

/-- The router of a die at which the bridges enter (log 73 DESIGN CHOICE). -/
def bridgeUnit (die : Nat) : Nat := die * 32

/-- The next unit on a request's fixed path, with the port it enters by (R130, Table 6.1): through its die's mesh to the home slice
or to the bridges, through the hub switch, and through the home die's mesh. A request for another package's HBM leaves at the
hub switch (R129). -/
def nextUnit (s : State) (u : Nat) (r : AtomReq) : Option (Nat × Nat) :=
  let h := homeUnit r.pa
  let away := paPkg r.pa != s.pkg.num
  if u = hubUnit then (if away then none else some (bridgeUnit (h / 32), 5))
  else if !away && u / 32 == h / 32 then (if u = h then none else some (meshStep s u h))
  else if u = bridgeUnit (u / 32) then some (hubUnit, u / 32)
  else some (meshStep s u (bridgeUnit (u / 32)))

/-- A request leaves a unit. -/
def State.forward (s : State) (u : Nat) (r : AtomReq) : State :=
  let r := { r with passed := r.passed ++ [u] }
  match nextUnit s u r with
  | some (v, p) => s.launch (.combineRequest v p r)
  | none => s.launch (.atomicAtHome r)

/-- A combining unit changed. -/
def State.onUnit (s : State) (u : Nat) (f : CombUnit → CombUnit) : State := { s with units := Tbl.put s.units u (f (unitOf s u)) }

/-- Two requests match (R130). -/
def combinesWith (a b : AtomReq) : Bool := a.pa == b.pa && a.width == b.width && a.ctx == b.ctx && a.pkg == b.pkg

/-- An open entry that a request may join. -/
def CombEntry.admits (e : CombEntry) (r : AtomReq) : Bool :=
  decide (e.members.length < 8) && e.members.all fun m => combinesWith m.2 r

/-- The window of a unit (Table 6.2). -/
def windowOf (s : State) (u : Nat) : Nat := if u = hubUnit then fld s.pkg.cbctl 15 8 else fld s.pkg.cbctl 7 4

/-- COMBINE_REQUEST (R131): a request joins an entry, opens one, or passes uncombined, as one does at a unit that it has already
passed (Table 6.3). -/
def execCombineRequest (u port : Nat) (r : AtomReq) (s : State) : Host.Outcome State Fault Refusal :=
  let x := unitOf s u
  .next (if r.passed.contains u then s.forward u r
    else match x.entries.find? fun e => e.admits r with
    | some e => s.onUnit u fun x => { x with entries := x.entries.map fun f =>
        if f.id = e.id then { f with members := f.members ++ [(port, r)] } else f }
    | none =>
      if !bit s.pkg.cbctl.toNat 0 || x.removed || 32 ≤ x.entries.length then s.forward u r
      else (s.onUnit u fun x => { x with
        next := x.next + 1, entries := x.entries ++ [⟨x.next, s.pkg.cyc.toNat, windowOf s u, [(port, r)]⟩] }).launch
          (.combineWindowExpiry u x.next))

/-- The members of an entry in the order of R133, with their ports: by ascending port, then by arrival. -/
def CombEntry.inOrder (e : CombEntry) : List (Nat × AtomReq) := (List.range 34).flatMap fun p => e.members.filter fun m => m.1 == p

/-- The sum of operands, modulo the width (R132). -/
def operandSum (width : Nat) (ms : List AtomReq) : Word :=
  Machine.word ((ms.map fun m => m.operand.toNat % 2 ^ (8 * width)).sum % 2 ^ (8 * width))

/-- The one request that an entry becomes; it has passed the units that its members have (R136). -/
def combined (u id : Nat) (ms : List AtomReq) : AtomReq :=
  match ms with
  | [] => {}
  | m :: _ => { m with
      operand := operandSum m.width ms, dest := 0, la := 0, crumb := some (u, id), passed := distinct (ms.flatMap AtomReq.passed) }

/-- An entry is due: its window has ended, or it holds eight members (R131). -/
def entryDue (s : State) (e : CombEntry) : Bool := decide (8 ≤ e.members.length) || decide (e.since + e.window ≤ s.pkg.cyc.toNat)

/-- COMBINE_WINDOW_EXPIRY (R131, R132): the crumb is written and one request leaves; with a full crumb store the members
leave uncombined, in the order of R133. -/
def execCombineWindowExpiry (u id : Nat) (s : State) : Host.Outcome State Fault Refusal :=
  let x := unitOf s u
  .next (match x.entries.find? fun e => e.id == id with
    | none => s
    | some e =>
      if !entryDue s e then s.launch (.combineWindowExpiry u id)
      else
        let ms := e.inOrder
        let s := s.onUnit u fun x => { x with entries := x.entries.filter fun f => f.id != id }
        if 256 ≤ x.crumbs.length + x.retired then ms.foldl (fun s m => s.forward u m.2) s
        else (s.onUnit u fun x => { x with crumbs := Tbl.put x.crumbs id ⟨some ms, some ms⟩ }).forward u (combined u id (ms.map Prod.snd)))

/-- The members of a crumb answered in order, each with the sum of what precedes it (R134). -/
def State.split (s : State) (base : Word) (ms : List AtomReq) : State :=
  match ms with
  | [] => s
  | m :: rest =>
    let v := oldValue m.width (base.toNat % 2 ^ (8 * m.width))
    State.split (s.answerAtomic m v) (base + m.operand) rest

/-- DECOMBINE (R134): a crumb that was lost answers nothing (R135). -/
def execDecombine (u id : Nat) (v : Word) (s : State) : Host.Outcome State Fault Refusal :=
  let x := unitOf s u
  .next (if Tbl.has x.crumbs id then
      (s.onUnit u fun x => { x with crumbs := Tbl.del x.crumbs id }).split v ((Tbl.getD x.crumbs id {}).members.map Prod.snd)
    else s)

/-- The requests on their way whose replies will come: in units and at homes, replies that are being split, and those that the
completion of a chain store will answer. -/
def liveRequests (s : State) : List AtomReq :=
  (s.flight.flatMap fun i => match i with
    | .combineRequest _ _ r => [r]
    | .atomicAtHome r => [r]
    | .decombine u id _ => [{ crumb := some (u, id) }]
    | .chainStoreAtLink st => (st.answer.map Prod.fst).toList
    | .chainAcknowledgement st => (st.answer.map Prod.fst).toList
    | .chainStoreCompletion st => (st.answer.map Prod.fst).toList
    | _ => []) ++
  (s.units.flatMap fun u => u.2.entries.flatMap fun e => e.members.map Prod.snd) ++
  s.ctxs.flatMap fun y => y.2.chains.flatMap fun e => e.2.log.filterMap fun x => x.2.answer.map Prod.fst

/-- A request of a core will be answered: it is on its way, or listed under a request that is, each crumb above it being whole. -/
def requestLives (s : State) (core rtag : Nat) : Bool :=
  (liveRequests s).any fun r => (membersUnder s 32 r).any fun m => m.crumb.isNone && m.pkg == s.pkg.num && m.core == core &&
      m.rtag == rtag

/-- The timer of an outstanding atomic expires, its reply having been lost: class 0x25 where the add was applied, else
0x26; a returning one takes atomic outcome lost at its core's next instruction (R135, R136). -/
def State.replyLost (s : State) (c : Nat) (applied : Bool) (r : AtomReq) : State :=
  let s := s.logCore r.ctx (if applied then 0x25 else 0x26) (if r.dest = 0 then 0 else 0x0F) c r.va 0
  s.onHolder c r.ctx fun x => { x.forgets r.rtag with due := if r.dest = 0 then x.due else some (0x0F, Machine.word r.va) }

/-- The outstanding atomics of a core, on it or in a saved state. -/
def outstandingOf (s : State) (c : Nat) : List AtomReq :=
  (s.coreAt c).outst ++ s.ctxs.flatMap fun y => (Tbl.getD y.2.saves c {}).outst

/-- ATOMIC_REPLY_TIMEOUT (R135): the timer of an outstanding atomic, 200,000 cycles after its issue. A request that is still on its
way replies before that. -/
def execAtomicReplyTimeout (c rtag : Nat) (applied : Bool) (s : State) : Host.Outcome State Fault Refusal :=
  .next (match (outstandingOf s c).find? fun r => r.rtag == rtag with
    | some r =>
      if requestLives s c rtag then s
      else if s.pkg.cyc.toNat < r.since + 200000 then s.launch (.atomicReplyTimeout c rtag applied)
      else s.replyLost c applied r
    | none => s)

/-- Members whose reply is lost: their timers expire (R135, R136). -/
def State.loseReplies (s : State) (applied : Bool) (ms : List AtomReq) : State :=
  (ms.filter fun m => m.pkg == s.pkg.num).foldl (fun s m => s.launch (.atomicReplyTimeout m.core m.rtag applied)) s

/-! ## Remote ports (R251) -/

/-- REMOTE_PORT_ACCESS (R251): the owning core performs an access on its local store, or on the image that stands for it;
traffic to a core that is being moved is held (R365). -/
def execRemotePortAccess (r : MemReq) (s : State) : Host.Outcome State Fault Refusal :=
  .next (if rowOf r.pa != .localStore || paPkg r.pa != s.pkg.num then s
    else if placeHeld s (.mem r.pa) then s.launch (.remotePortAccess r)
    else
      let pa := lsRedirect s r.ctx r.pa
      if r.data = [] then
        if poisoned s pa then s else s.reply r.pkg r.core (Machine.word (ofBytes (s.readPa pa (min 8 r.len))))
      else s.perform r.ctx (if r.pkg = s.pkg.num then some r.core else none) pa r.data)

end Sys2Proof.Machine
end

