-- ==== Sys2Proof/Machine/Repair.lean ====
section
/-!
DEFINITION. Errors and their repair (R350 to R367), the watchdog (R368): the steps of the device that detect a lasting
error, replace a unit by a spare, remove a link, or declare a die lost.
-/
namespace Sys2Proof.Machine

/-! ## Firings after a loss (Table 15.5) -/

/-- A batch of a firing is handed out again, all its indices, to a die that is live for the group. -/
def State.rehandBatch (s : State) (ctx e : Nat) (b : Nat × Nat × List Nat) : State :=
  let l := launchOf s ctx e
  match batchDie s ctx l.grp with
  | none => s
  | some d =>
    let n := min 64 (l.count - b.1)
    let s := s.deal ctx e l ((readyMembers s ctx l.grp).filter fun c => dieOf c == d) b.1 n
    s.onLaunch ctx e fun l => { l with
      batches := l.batches.map fun x => if x.1 = b.1 then (b.1, d, (List.range n).map (b.1 + ·)) else x }

/-- The batches of a firing that satisfy a test are handed out again. -/
def State.rehand (s : State) (ctx e : Nat) (hit : Nat × Nat × List Nat → Bool) : State :=
  ((launchOf s ctx e).batches.filter hit).foldl (fun s b => s.rehandBatch ctx e b) s

/-- A firing after the loss of cores of a die: a lost leader is followed by the next live die, which hands out every
batch that is not acknowledged; else the batches given to that die are handed out again. With no live die the firing
waits, and class 0x2E is logged; one whose launch blocks are lost stops. -/
def State.recoverFiring (s : State) (d ctx e : Nat) : State :=
  let l := launchOf s ctx e
  if l.st ≠ .firing then s
  else if blocksLost s ctx e then s.stopFiring ctx e
  else match liveDie s ctx l.grp with
    | none => s.log ctx 0x2E 0 0xFFF l.leader false 0 e
    | some d' =>
      let lost := l.leader == d && !(liveDies s ctx l.grp).contains d
      let s := s.onLaunch ctx e fun l => if lost then { l with leader := d', led := true, relead := l.relead || l.led } else l
      (s.rehand ctx e fun b => lost || b.2.1 == d).writeBlock ctx e

/-- Every firing of the package after a loss on a die. -/
def State.recoverFirings (s : State) (d : Nat) : State :=
  (s.ctxs.flatMap fun y => y.2.launches.map fun l => (y.1, l.1)).foldl (fun s k => s.recoverFiring d k.1 k.2) s

/-- A batch of a firing is being handed out. -/
def handingOut (s : State) (ctx e : Nat) : Bool :=
  s.flight.any fun i => match i with
    | .launchBatch x k _ => x == ctx && k == e
    | _ => false

/-- A firing that waited for a live die goes on (R321, R386): the die of its block leads where it is live, and else the lowest live die,
which writes its number into word 2; one that follows a lost leader hands out again every batch that is not acknowledged (Table
15.5). -/
def State.restartFiring (s : State) (ctx e : Nat) : State :=
  let l := launchOf s ctx e
  if l.st ≠ .firing then s
  else if blocksLost s ctx e then s.stopFiring ctx e
  else match liveDie s ctx l.grp with
    | none => s
    | some d' =>
      let live := fun d => (liveDies s ctx l.grp).contains d
      let lost := l.led && (s.dieAt l.leader).lost
      let s := s.onLaunch ctx e fun l => if live l.leader then { l with led := true }
        else { l with leader := d', led := true, relead := l.relead || lost }
      let s := s.rehand ctx e fun b => !live b.2.1 || (lost && !live l.leader)
      let s := if live l.leader then s else s.writeBlock ctx e
      match batchDie s ctx l.grp with
      | some d => if l.mayHand && !handingOut s ctx e then s.launch (.launchBatch ctx e d) else s
      | none => s

/-- Every firing that waited goes on. -/
def State.restartFirings (s : State) : State :=
  (s.ctxs.flatMap fun y => y.2.launches.map fun l => (y.1, l.1)).foldl (fun s k => s.restartFiring k.1 k.2) s

/-! ## Loss of a die or of a cluster (R367) -/

/-- A core lies in a range of ids. -/
def inIds (lo n c : Nat) : Bool := decide (lo ≤ c) && decide (c < lo + n)

/-- The messages and triggers that lie on a range of cores and in their clusters. -/
def heldThere (s : State) (lo n : Nat) : List Msg :=
  (s.cores.flatMap fun e => if inIds lo n e.1 then
    e.2.inbox ++ (if e.2.phase = .idle then [] else [e.2.trig]) ++ (e.2.word.map Waiting.trig).toList else []) ++
  (s.clusters.flatMap fun e => if inIds lo n (e.1 * 16) then e.2.inbox ++ e.2.ready.map Ready.m else []) ++
  s.ctxs.flatMap fun e => e.2.parked.filter fun m => inIds lo n m.dcore

/-- A message that is held for a core of a range, or for a group of which no member is left (R72, R386). -/
def lostWith (s : State) (lo n : Nat) (m : Msg) : Bool :=
  match m.obj with
  | some va => if 0xE ≤ window va then inIds lo n m.dcore
      else (groupMembers s m.ctx m.grp).all fun c => inIds lo n c || coreLost s c
  | none => inIds lo n m.dcore

/-- A context has a group member in a range of cores. -/
def memberIn (y : Ctx) (lo n : Nat) : Bool :=
  y.groups.any fun g => g.2.any fun r => decide (r.1 < lo + n) && decide (lo ≤ r.2)

/-- What a range of cores holds is gone: the cores report not ready, with their activations, saved ones too, messages, queued
tasks and parked triggers. Ordered messages among them leave their domains. -/
def State.loseCores (s : State) (lo n : Nat) : State :=
  let s := (heldThere s lo n ++ s.heldMsgs.filter (lostWith s lo n)).foldl State.forgetKey s
  let s := s.unpin (s.cores.flatMap fun e => if inIds lo n e.1 then e.2.mx.queue.flatMap MxCmd.pins else [])
  let s := { s with
    pinq := s.pinq.filter fun w => !inIds lo n w.1,
    cores := Tbl.mapv s.cores fun c x => if inIds lo n c then {} else x,
    clusters := Tbl.mapv s.clusters fun k x => if inIds lo n (k * 16) then {} else x,
    ctxs := Tbl.mapv s.ctxs fun _ y => { y with
      parked := y.parked.filter fun m => !inIds lo n m.dcore, saves := y.saves.filter fun e => !inIds lo n e.1 },
    heldMsgs := s.heldMsgs.filter fun m => !lostWith s lo n m,
    xl := Tbl.mapv s.xl fun k x => if inIds lo n (k * 16) then {} else x,
    mons := s.mons.filter fun w => !(ownHbm s w.pa && inIds lo n ((hbmDieOf w.pa * 32 + homeSlice w.pa) * 16)) }
  s.ctxs.foldl (fun s y => if y.2.state = 1 && allHalted s y.1 then s.preempted y.1 else s) s

/-- Class 0x32 in every context that has a group member in a range of cores (R367). -/
def State.logLoss (s : State) (lo n detail : Nat) : State :=
  (s.ctxs.filter fun y => y.2.live && y.2.state != 3 && memberIn y.2 lo n).foldl (fun s y =>
    s.log y.1 0x32 0 0xFFF 0 true 0 detail) s

/-- A router or the fabric switch is removed: the members of its entries and crumbs lose their replies (Table 6.3). -/
def State.removeUnit (s : State) (u : Nat) : State :=
  let x := unitOf s u
  let held := (x.entries.flatMap fun e => e.members) ++ x.crumbs.flatMap fun k => k.2.members
  let ms := held.flatMap fun m => membersUnder s 32 m.2
  (s.onUnit u fun x => { x with entries := [], crumbs := [], removed := true }).loseReplies false ms

/-- The units of a range are removed. -/
def State.removeUnits (s : State) (lo n : Nat) : State :=
  ((s.units.map Prod.fst).filter fun u => inIds lo n (u * 16)).foldl State.removeUnit s

/-- A die is declared lost (R367). -/
def State.loseDie (s : State) (d : Nat) : State :=
  if 8 ≤ d ∨ (s.dieAt d).lost then s
  else
    let s := s.onDie d fun _ => { lost := true, spare := false }
    let s := (s.removeUnits (512 * d) 512).loseCores (512 * d) 512
    let s := (s.loseLink (s.pkg.num, d)).recoverFirings d
    s.logLoss (512 * d) 512 (d + 256)

/-- A cluster that no path reaches is lost (R367). -/
def State.loseCluster (s : State) (k : Nat) : State :=
  let s := ((s.removeUnit k).loseCores (16 * k) 16).onCluster k fun x => { x with lost := true }
  let s := s.onDie (k / 32) fun d => { d with slices := d.slices.filter (· != k % 32) }
  (s.recoverFirings (k / 32)).logLoss (16 * k) 16 (k / 32 % 8 + k % 32 * 8)

/-! ## Repair (R363, R365) -/

/-- A repair that has been made, by a unit of a die or of the hub die, is logged, and the repair map changes (R363, R364, R387). -/
def State.repaired (s : State) (detail addr : Nat) (die : Option Nat) : State :=
  (s.note 1 detail addr die).onPkg fun p => { p with repairs := p.repairs + 1 }

/-- A logical cluster moves to its die's spare; with none left the die is lost. -/
def State.repairCluster (s : State) (k : Nat) : State :=
  if (s.dieAt (k / 32)).spare && !(s.dieAt (k / 32)).lost then
    let s := (s.onDie (k / 32) fun d => { d with spare := false }).onCluster k fun x => { x with remap := true, spare := true }
    let s := s.onPkg fun p => { p with ways := p.ways.filter fun w => w.1 != k }
    (s.repaired 0 k (some (k / 32))).launch (.remapComplete (16 * k) true)
  else s.loseDie (k / 32)

/-- A logical core moves to its cluster's spare; with none left its cluster moves. -/
def State.repairCore (s : State) (c : Nat) : State :=
  if (s.clusterAt (clusterOf c)).spare then
    let s := (s.onCluster (clusterOf c) fun x => { x with spare := false }).onCore c fun x => { x with remap := true }
    (s.repaired 0 c (some (dieOf c))).launch (.remapComplete c false)
  else s.repairCluster (clusterOf c)

/-- REMAP_COMPLETE (R365): once no affected core holds an activation, the copy completes, and what was held goes on. The
caches that are not copied are empty: the cores' own, and of a slice its TLB but for the locks. -/
def execRemapComplete (c : Nat) (whole : Bool) (s : State) : Host.Outcome State Fault Refusal :=
  let cs := movedCores c whole
  let moving := if whole then (s.clusterAt (clusterOf c)).remap else (s.coreAt c).remap
  .next (if !moving then s
    else if cs.any fun i => holdsActivation (s.coreAt i) then s.launch (.remapComplete c whole)
    else
      let s := cs.foldl (fun s i => s.onCore i fun x => { x with remap := false, l1 := [], l1i := [], l1tlb := [] }) s
      let s := s.freshRows cs
      if whole then
        let k := clusterOf c
        let s := s.freshRows [4096 + k, 8192 + k]
        let s := (s.onCluster k fun x => { x with remap := false }).onUnit k fun u => { u with removed := false }
        s.onSlice k fun x => { x with tlb := [], ptc := [] }
      else s)

/-! ## Links and routers (R366) -/

/-- The ends of a bridge link; 8 is the hub die. The ten boundaries of the array come first: the upper row, the lower
row, between the rows; then the hub die beside CD0 and CD4 (log 28 DEDUCED). -/
def bridgeEnds (l : Nat) : Nat × Nat :=
  match l with
  | 0 => (0, 1)
  | 1 => (1, 2)
  | 2 => (2, 3)
  | 3 => (4, 5)
  | 4 => (5, 6)
  | 5 => (6, 7)
  | 6 => (0, 4)
  | 7 => (1, 5)
  | 8 => (2, 6)
  | 9 => (3, 7)
  | 10 => (8, 0)
  | _ => (8, 4)

/-- The dies that bridge paths reach from the hub die. -/
def bridgeReach (gone : List NetPart) : Nat → List Nat → List Nat
  | 0, ds => ds
  | n + 1, ds =>
    let ls := (List.range 12).filter fun l => !gone.contains (.bridge l)
    bridgeReach gone n (ls.foldl (fun ds l =>
      let e := bridgeEnds l
      if ds.contains e.1 && !ds.contains e.2 then ds ++ [e.2] else if ds.contains e.2 && !ds.contains e.1 then ds ++ [e.1] else ds) ds)

/-- The clusters of a die that no path reaches any more, and that are not lost yet: their routers work, and no links lead to them
from where the bridges enter, or, where that router is gone, from the first that works (R367, log 73 DESIGN CHOICE). -/
def cutOff (s : State) (d : Nat) : List Nat :=
  let live := ((List.range 32).map (32 * d + ·)).filter fun k => !(unitOf s k).removed && !(s.clusterAt k).lost
  let root := if live.contains (bridgeUnit d) then bridgeUnit d else live.headD (bridgeUnit d)
  let seen := within s 32 root
  live.filter fun k => !seen.contains k

/-- A link or a router is removed (R366): its packets are replayed or resent, so none is lost. A router's combining state
is (Table 6.3), and its cluster moves to a spare; what no path reaches any more is lost (R367). -/
def State.removePart (s : State) (p : NetPart) : State :=
  if s.pkg.removedParts.contains p then s
  else
    let s := s.onPkg fun q => { q with removedParts := q.removedParts ++ [p] }
    match p with
    | .mesh d _ _ => (cutOff s d).foldl State.loseCluster s
    | .router u =>
      if u < hubUnit then
        let s := (s.removeUnit u).onPkg fun q => { q with removedParts := q.removedParts.erase p }
        (cutOff s (u / 32)).foldl State.loseCluster (s.repairCluster u)
      else s.removeUnit u
    | .bridge _ =>
      let seen := bridgeReach s.pkg.removedParts 9 [8]
      ((List.range 8).filter fun d => !seen.contains d).foldl State.loseDie s
    | .ualink port => s.onPkg fun q => { q with ual := q.ual.filter (· != port) }

/-- LINK_REMOVAL (R366). -/
def execLinkRemoval (l : NetPart) (s : State) : Host.Outcome State Fault Refusal := .next (s.removePart l)

/-- PACKET_RESEND_TIMEOUT (R366): the packets are resent end to end; nothing was lost, and nothing a program sees
changes. -/
def execPacketResendTimeout (_r : NetPart) (s : State) : Host.Outcome State Fault Refusal := .next s

/-- BRIDGE_LANE_SWAP_DONE (R363). -/
def execBridgeLaneSwapDone (link : Nat) (s : State) : Host.Outcome State Fault Refusal :=
  .next (if Tbl.getD s.pkg.lostLanes link 0 = 0 then s else s.repaired 0 link none)

/-- HEARTBEAT_TIMEOUT (R367). -/
def execHeartbeatTimeout (die : Nat) (s : State) : Host.Outcome State Fault Refusal := .next (s.loseDie die)

/-! ## Detected errors (R350 to R363) -/

/-- Lines are written poisoned (R353). -/
def State.poisonLines (s : State) (ls : List Nat) (integ : Bool) : State :=
  { s with poison := s.poison ++ (ls.filter fun l => !poisoned s l).map fun l => (l, integ) }

/-- A frame is retired: its lines are poisoned, it is used no more, and class 0x33 is logged in each context that maps it;
the health log shows the repair (R363). -/
def State.retireFrame (s : State) (frame : Nat) : State :=
  let cs := (s.ctxs.filter fun y => y.2.live && y.2.state != 3 && mapsFrame s y.1 frame).map Prod.fst
  let s := s.poisonLines ((List.range 1024).map fun i => frame + 64 * i) false
  let s := s.onPkg fun p => { p with owners := Tbl.put p.owners (frame / 65536) 0x1000 }
  let s := s.repaired 0 frame (some (hbmDieOf frame))
  cs.foldl (fun s x => s.log x 0x33 0 0xFFF (hbmDieOf frame) false frame 0) s

/-- A spare is left: the device's own knowledge (log 15 DESIGN CHOICE). -/
def spareLeft (s : State) : Bool := Config.freeChoice s.tick 2 % 2 == 0

/-- A lasting error in a line: its data is poisoned; a row of HBM is replaced, or the frame is retired. -/
def State.badLine (s : State) (pa : Nat) (integ : Bool) : State :=
  let s := s.poisonLines [lineOf pa] integ
  if !ownHbm s pa then s
  else if spareLeft s then s.repaired 0 (lineOf pa) (some (hbmDieOf pa))
  else s.retireFrame (pa / 65536 * 65536)

/-- A lasting error in a row of a core's inbox, or behind its places of its cluster's: the row is retired, and its message is
lost (R362). -/
def State.badInbox (s : State) (c k : Nat) : State :=
  let n := (s.coreAt c).inbox.length
  let g := clusterOf c
  match (s.coreAt c).inbox[k]?, (s.clusterAt g).inbox[k - n]? with
  | some m, _ =>
    let s := (s.onCore c fun x => { x with inbox := x.inbox.eraseIdx k }).loseRow c
    ((s.forgetKey m).logCore m.ctx 0x30 0 c 0 0).repaired 0 c (some (dieOf c))
  | none, some m =>
    let s := (s.onCluster g fun x => { x with inbox := x.inbox.eraseIdx (k - n) }).loseRow (4096 + g)
    ((s.forgetKey m).logCore m.ctx 0x30 0 c 0 0).repaired 0 c (some (dieOf c))
  | none, none => s

/-- A lasting error in a task's queue entry, or in word 0 of its record: the task is lost, and the row that held it is retired
(R362). -/
def State.badTask (s : State) (ctx va pa : Nat) : State :=
  let held := s.clusters.filter fun e => e.2.ready.any fun q => q.m.ctx == ctx && q.m.pay.headD 0 == word va && q.m.rslot.isNone
  let s := held.foldl (fun s e => s.loseRow (8192 + e.1)) s
  (s.loseTask (armedBy s ctx va) ctx va pa).repaired 0 va (some (hbmDieOf pa))

/-- A crumb whose failed copy is rewritten from the other one (R135). -/
def Crumb.rewritten (k : Crumb) : Crumb := ⟨k.first.or k.second, k.second.or k.first⟩

/-- The compute die of a combining unit; none for the hub switch. -/
def unitDie (u : Nat) : Option Nat := if u = hubUnit then none else some (u / 32)

/-- A crumb with an uncorrectable copy is read from the other, which the failed one is rewritten from; with both copies lost its
members meet their timers, and a recurring error in one retires the row (R135, Table 6.3). -/
def State.badCrumb (s : State) (u id : Nat) (both recurs : Bool) : State :=
  if both then
    let ms := (Tbl.getD (unitOf s u).crumbs id {}).members.flatMap fun m => membersUnder s 32 m.2
    (s.onUnit u fun x => { x with crumbs := Tbl.del x.crumbs id }).loseReplies true ms
  else
    let s := s.onUnit u fun x => { x with crumbs := x.crumbs.map fun k => if k.1 = id then (k.1, k.2.rewritten) else k }
    if recurs then (s.onUnit u fun x => { x with retired := x.retired + 1 }).repaired 0 u (unitDie u) else s.note 0 0 u (unitDie u)

/-- A lasting error in a bridge lane: a spare lane takes its place, or the link is removed (log 15 DESIGN CHOICE). -/
def State.badLane (s : State) (link : Nat) : State :=
  let n := Tbl.getD s.pkg.lostLanes link 0
  if n < 2 || spareLeft s then
    (s.onPkg fun p => { p with lostLanes := Tbl.put p.lostLanes link (n + 1) }).launch (.bridgeLaneSwapDone link)
  else s.launch (.linkRemoval (.bridge link))

/-- A lasting error in a way of a set of a slice's L2: the set's spare takes its place, or, with the spare in use, the slice has
failed (Table 16.15). -/
def State.badWay (s : State) (k set : Nat) : State :=
  if s.pkg.ways.contains (k, set) then s.repairCluster k
  else (s.onPkg fun p => { p with ways := p.ways ++ [(k, set)] }).repaired 0 k (some (k / 32))

/-- What a lasting error does (Table 16.15); a link on which the replay of a flit fails again is removed (R366). -/
def State.lasting (s : State) (e : ErrSite) : State :=
  match e with
  | .line pa integ => s.badLine pa integ
  | .task ctx va pa => s.badTask ctx va pa
  | .inbox c k => s.badInbox c k
  | .crumb u id both => s.badCrumb u id both true
  | .way die slice set => s.badWay (die * 32 + slice) set
  | .core c => s.repairCore c
  | .lane link => s.badLane link
  | .flit l => s.launch (.linkRemoval l)

/-- The address that the health log gives for an error that its retry cleared. -/
def errAddr (e : ErrSite) : Nat :=
  match e with
  | .line pa _ => pa
  | .task _ va _ => va
  | .inbox c _ => c
  | .crumb u _ _ => u
  | .way die slice _ => die * 32 + slice
  | .core c => c
  | .lane link => link
  | .flit (.mesh die router _) => die * 32 + router
  | .flit (.router u) => u
  | .flit (.bridge link) => link
  | .flit (.ualink port) => port

/-- The compute die of the unit that detects an error (Table 16.10): the home slice of a line, the unit of a queue or a crumb; the
hub die for bridges and UALink ports. -/
def errDie (e : ErrSite) : Option Nat :=
  match e with
  | .line pa _ => some (if rowOf pa = .localStore then dieOf (lsCore pa) else hbmDieOf pa)
  | .task _ _ pa => some (hbmDieOf pa)
  | .inbox c _ => some (dieOf c)
  | .crumb u _ _ => unitDie u
  | .way die _ _ => some die
  | .core c => some (dieOf c)
  | .lane _ => none
  | .flit (.mesh die _ _) => some die
  | .flit (.router u) => some (u / 32)
  | .flit (.bridge _) => none
  | .flit (.ualink _) => none

/-- ERROR_RETRY (R350): an error that does not recur is transient, and only the health log shows it. An error of core
logic is lasting at once, and so is a crumb of which no copy can be read (Table 16.8). -/
def execErrorRetry (e : ErrSite) (recurs : Bool) (s : State) : Host.Outcome State Fault Refusal :=
  .next (match e, recurs with
    | .core c, _ => s.lasting (.core c)
    | .crumb u id both, r => s.badCrumb u id both r
    | e, true => s.lasting e
    | e, false => s.note 0 0 (errAddr e) (errDie e))

/-- LOST_RESPONSE_TIMEOUT (R350): lasting at once, which starts repair. -/
def execLostResponseTimeout (c : Nat) (s : State) : Host.Outcome State Fault Refusal := .next (s.lasting (.core c))

/-! ## The watchdog (R368) -/

/-- BUDGET_EXPIRY (R368): the count has reached the budget; the trap is taken at the next instruction boundary. -/
def execBudgetExpiry (c : Nat) (s : State) : Host.Outcome State Fault Refusal :=
  let x := s.coreAt c
  let budget := fld (s.ctxAt (x.ctx.getD 0)).wdctl 47 0
  .next (if x.phase = .running ∧ x.trig.kind ≠ 1 ∧ budget ≠ 0 ∧ budget ≤ x.wcount ∧ x.due = none then
      s.onCore c fun x => { x with due := some (0x10, Machine.word (s.pkg.cyc.toNat - x.started)) }
    else s)

end Sys2Proof.Machine
end

