-- ==== Sys2Proof/Machine/Image.lean ====
section
/-!
DEFINITION. Loading an AOF image (R42 to R54, R65, R316, R317, R339): what mailbox command 0x03 does. The spec says what grl
rejects; which files the firmware refuses besides is the model's choice (log 24 DESIGN CHOICE).
-/
namespace Sys2Proof.Machine

/-! ## The file (R43 to R45) -/

/-- A number of n bytes at an offset of a file. -/
def fileNat (bs : List Byte) (off n : Nat) : Nat := ofBytes ((bs.drop off).take n)

/-- A section of an image (Table 2.8). -/
structure Sec where
  typ : Nat
  flags : Nat
  addr : Nat
  size : Nat
  data : List Byte
  deriving DecidableEq, Repr

/-- The sections of a file, entry 0 among them. -/
def sections (bs : List Byte) : List Sec :=
  let off := fileNat bs 24 8
  (List.range (fileNat bs 10 2)).map fun i =>
    let e := off + 48 * i
    ⟨fileNat bs (e + 4) 2, fileNat bs (e + 6) 2, fileNat bs (e + 24) 8, fileNat bs (e + 16) 8,
      (bs.drop (fileNat bs (e + 8) 8)).take (fileNat bs (e + 16) 8)⟩

/-- The header of a linked image (Table 2.7). An image is refused for another magic, version, kind, machine or section size, a
reserved byte or an unlisted flag that is not zero, or sections that reach beyond the file (log 24 DESIGN CHOICE). -/
def goodHeader (bs : List Byte) : Bool :=
  bs.take 4 == [0x41, 0x4F, 0x46, 0x39] && fileNat bs 4 2 == 1 && fileNat bs 6 2 == 2 && fileNat bs 8 2 == 0x5309 &&
    fileNat bs 12 2 == 48 && fileNat bs 18 6 == 0 && fileNat bs 32 4 < 4 && fileNat bs 36 28 == 0 &&
    decide (fileNat bs 24 8 + 48 * fileNat bs 10 2 ≤ bs.length) &&
    (sections bs).all fun x => x.typ == 0 || x.data.length == x.size

/-- The contents of the sections of a type. -/
def ofType (ss : List Sec) (t : Nat) : List Byte := (ss.filter fun x => x.typ == t).flatMap Sec.data

/-- A list cut into records of n bytes. -/
def records (n : Nat) (bs : List Byte) : List (List Byte) := (List.range (bs.length / n)).map fun i => (bs.drop (n * i)).take n

/-- A symbol (Table 2.10). -/
structure Sym where
  kind : Nat
  value : Nat
  size : Nat
  attr : Nat
  deriving DecidableEq, Repr

/-- The symbols of an image. -/
def symbolsOf (ss : List Sec) : List Sym :=
  (records 32 (ofType ss 12)).map fun b => ⟨fileNat b 4 1, fileNat b 8 8, fileNat b 16 8, fileNat b 24 8⟩

/-- A symbol by its index. -/
def symAt (ys : List Sym) (i : Nat) : Sym := ys.getD i ⟨0, 0, 0, 0⟩

/-- The words of a constant block (R40), by its symbol's address. -/
def constants (ss : List Sec) (y : Sym) : List Word :=
  match ss.find? fun x => x.typ == 5 with
  | some x => (List.range (min 64 (y.size / 8))).map fun i => word (fileNat x.data (y.value - x.addr + 8 * i) 8)
  | none => []

/-- The default handlers: tag, entry, priority and constant block (R42, R45). -/
def handlersOf (ss : List Sec) : List (Nat × Nat × Nat × List Word) :=
  let ys := symbolsOf ss
  (ys.filter fun y => y.kind == 3).map fun y =>
    (bits y.attr 5 0, y.value, bits y.attr 7 6, if bits y.attr 31 16 = 0 then [] else constants ss (symAt ys (bits y.attr 31 16)))

/-- The group records, which vary in length (Table 2.14). In a linked image the index byte is the group's index, whatever flags
bit 0 says (log 24 DESIGN CHOICE). -/
def groupRecs : Nat → List Byte → List (Nat × List (Nat × Nat))
  | 0, _ => []
  | n + 1, bs =>
    if bs.length < 8 then []
    else
      let k := fileNat bs 5 1
      (fileNat bs 4 1, (List.range k).map fun j => (fileNat bs (8 + 4 * j) 2, fileNat bs (10 + 4 * j) 2)) ::
        groupRecs n (bs.drop (8 + 4 * k))

/-- The groups of an image. -/
def groupsOf (ss : List Sec) : List (Nat × List (Nat × Nat)) := let b := ofType ss 8; groupRecs b.length b

/-- A group table that firmware accepts: no index twice, well-formed ranges, and no core in more than four groups (R316, R48). -/
def goodGroups (gs : List (Nat × List (Nat × Nat))) : Bool :=
  decide (gs.map Prod.fst).Nodup &&
  (gs.all fun g => g.2 != [] && decide (g.2.length ≤ 32) && g.2.all fun r => decide (r.1 ≤ r.2) && decide (r.2 ≤ 0xFFF)) &&
  (List.range 4096).all fun c => decide ((gs.filter fun g => g.2.any fun r => decide (r.1 ≤ c) && decide (c ≤ r.2)).length ≤ 4)

/-- A launch record (Table 2.13). -/
structure LaunchRec where
  slot : Nat
  trigger : Nat
  group : Nat
  flags : Nat
  count : Nat
  handler : Nat
  deriving DecidableEq, Repr

/-- The launch records of an image. -/
def launchRecs (ss : List Sec) : List LaunchRec :=
  (records 32 (ofType ss 7)).map fun b =>
    ⟨fileNat b 4 1, fileNat b 5 1, fileNat b 6 1, fileNat b 7 1, fileNat b 8 8, fileNat b 16 4⟩

/-- The launch entry of each record: its slot, or the lowest that no record has (log 29 DESIGN CHOICE). -/
def slotsOf (taken : List Nat) : List LaunchRec → List Nat
  | [] => []
  | r :: rest =>
    if r.slot = 0xFF then
      let k := ((List.range 64).find? fun k => !taken.contains k).getD 63
      k :: slotsOf (k :: taken) rest
    else r.slot :: slotsOf taken rest

/-- The launch entries of an image, in the order of its records. -/
def imageSlots (ss : List Sec) : List Nat :=
  let rs := launchRecs ss
  slotsOf ((rs.filter fun r => r.slot != 0xFF).map LaunchRec.slot) rs

/-- The gate entries of an image for a context (R339, Table 2.16). The value of a launch symbol counts the bytes of the records
before its own, as .launch occupies no addresses (log 24 DESIGN CHOICE). -/
def gatesOf (ss : List Sec) (ctx : Nat) : List GateEntry :=
  let ys := symbolsOf ss
  (records 32 (ofType ss 10)).map fun b =>
    ⟨fileNat b 4 4, ctx, fileNat b 8 1, fileNat b 9 1, bit (fileNat b 10 1) 0, fileNat b 16 8,
      (imageSlots ss).getD ((symAt ys (fileNat b 24 4)).value / 32) 0⟩

/-- A region record (Table 2.15). -/
structure Region where
  cls : Nat
  links : Nat
  home : Nat
  promo : Bool
  pull : Bool
  size : Nat
  addr : Nat
  deriving DecidableEq, Repr

/-- The region records of an image. -/
def regionsOf (ss : List Sec) : List Region :=
  (records 32 (ofType ss 9)).map fun b =>
    ⟨fileNat b 4 1, fileNat b 5 1, fileNat b 6 1, bit (fileNat b 7 1) 0, bit (fileNat b 7 1) 1, fileNat b 8 8, fileNat b 20 8⟩

/-- The regions created with promotion allowed: address and size (R70). -/
def promoOf (ss : List Sec) : List (Nat × Nat) := ((regionsOf ss).filter Region.promo).map fun r => (r.addr, r.size)

/-! ## Mapping its pages (R76 to R79) -/

/-- Frames pass to an owner. -/
def State.ownFrames (s : State) (owner : Nat) (fs : List Nat) : State :=
  { s with freed := s.freed.filter fun f => !fs.contains f }.onPkg fun p =>
    { p with owners := fs.foldl (fun t f => Tbl.put t f owner) p.owners }

/-- A free frame of one of some dies is taken, for an owner: firmware's choice (log 27 DESIGN CHOICE, log 29 DESIGN CHOICE). -/
def State.grabOn (s : State) (ds : List Nat) (owner : Nat) : Option (Nat × State) :=
  (((ds.filter fun d => dieUp s d).findSome? fun d => freeFrame s d)).map fun f => (f * 65536, s.ownFrames owner [f])

/-- A free frame of a live die is taken. -/
def State.grabFrame (s : State) (owner : Nat) : Option (Nat × State) := s.grabOn (List.range 8) owner

/-- A range of whole lines of memory is zero-filled (R138). -/
def State.zero (s : State) (a n : Nat) : State :=
  { s with mem := s.mem.filter fun (c : Host.Cell) => !(decide (a ≤ c.1) && decide (c.1 < a + n)),
           poison := s.poison.filter fun e => !(decide (a ≤ e.1) && decide (e.1 < a + n)) }

/-- A range of whole lines of memory is zero-filled for a tenant; sectors of HBM are tagged (R73). -/
def State.clear (s : State) (tenant a n : Nat) : State :=
  let s := s.zero a n
  if ownHbm s a then s.stampAll tenant a n else s

/-- A frame for a node of a context's tables, with every entry absent. -/
def State.grabNode (s : State) (tenant : Nat) : Option (Nat × State) :=
  (s.grabFrame 0x1000).map fun g => (g.1, g.2.clear tenant g.1 65536)

/-- A doubleword of a context's tables is written. -/
def State.writeNode (s : State) (tenant a : Nat) (v : Word) : State := (s.write64 a v).stampFor tenant a false

/-- The node below an entry, made where there is none. -/
def State.nodeBelow (s : State) (tenant epa : Nat) : Option (Nat × State) :=
  let w0 := (s.read64 epa).toNat
  match w0 % 4 with
  | 0 => (s.grabNode tenant).map fun g => (g.1, g.2.writeNode tenant epa (word (g.1 + 1)))
  | 1 => some (bits w0 51 9 * 512, s)
  | _ => none

/-- The root of a context's tables, made where there is none. -/
def State.rootOf (s : State) (ctx : Nat) : Option (Nat × State) :=
  let r := (s.ctxAt ctx).ptbase
  if bit r.toNat 0 then some (fld r 51 14 * 2 ^ 14, s)
  else (s.grabNode (s.ctxAt ctx).tenant).map fun g => (g.1, g.2.onCtx ctx fun y => { y with ptbase := word (g.1 + 1) })

/-- The leaf of a 64 KiB page of a context is written, with every cluster admitted; nodes are made where there are none. -/
def State.setLeaf (s : State) (ctx va w0 : Nat) : Option State := do
  let (n3, s) ← s.rootOf ctx
  let t := (s.ctxAt ctx).tenant
  let (n2, s) ← s.nodeBelow t (n3 + 16 * bits va 51 42)
  let (n1, s) ← s.nodeBelow t (n2 + 16 * bits va 41 30)
  let (n0, s) ← s.nodeBelow t (n1 + 16 * bits va 29 21)
  let epa := n0 + 16 * bits va 20 16
  pure ((s.writeNode t epa (word w0)).writeNode t (epa + 8) (word (2 ^ 64 - 1)))

/-- A 64 KiB page is mapped to a new frame of one of some dies, with its leaf's flags; a page that is present stays as it is. -/
def State.mapPage (s : State) (ctx va : Nat) (ds : List Nat) (flags : Nat) : Option State :=
  match walk s ctx va with
  | .leaf _ _ => some s
  | .absent => do
    let (f, s) ← s.grabOn ds (s.ctxAt ctx).tenant
    s.setLeaf ctx va (f + hbmDieOf f * 2 ^ 10 + flags + 2)
  | _ => none

/-! ## Creating its regions (R65, log 29 DESIGN CHOICE) -/

/-- The flags of a region's leaves: rd and w, and pull-work where the record sets it (Table 4.2). -/
def Region.flags (r : Region) : Nat := 12 + flag r.pull 7

/-- The addresses of a region's pages. -/
def Region.pages (r : Region) : List Nat := (List.range ((r.size + 65535) / 65536)).map fun i => r.addr + 65536 * i

/-- A range of in-die pages is free on every die of a list. -/
def rangeFree (s : State) (ds : List Nat) (base n : Nat) : Bool :=
  decide (base + n ≤ hbmDie / 65536) && ds.all fun d => (List.range n).all fun i => frameFree s (diePa s d 0 / 65536 + base + i)

/-- The first range of n in-die pages from a page upward, within so many, that is free on every die of a list. -/
def firstRange (s : State) (ds : List Nat) (n : Nat) : Nat → Nat → Option Nat
  | _, 0 => none
  | base, k + 1 => if rangeFree s ds base n then some base else firstRange s ds n (base + 1) k

/-- A range of in-die pages is taken on every die of a list, for an owner. -/
def State.grabRange (s : State) (ds : List Nat) (n owner : Nat) : Option (Nat × State) :=
  (firstRange s ds n 0 (hbmDie / 65536)).map fun b =>
    (b, s.ownFrames owner (ds.flatMap fun d => (List.range n).map fun i => diePa s d 0 / 65536 + b + i))

/-- A page of a striped region: one offset that is free on every die. -/
def State.mapStriped (s : State) (ctx va flags : Nat) : Option State := do
  let (b, s) ← s.grabRange (List.range 8) 1 (s.ctxAt ctx).tenant
  s.setLeaf ctx va (s.pkg.num * 2 ^ 42 + b * 65536 + 2 ^ 8 + flags + 2)

/-- The dies of a chain region's links, in order: live dies from one of the device's choice onward. -/
def chainDies (s : State) (n : Nat) : List Nat :=
  let ds := (List.range 8).filter fun d => dieUp s d
  let i := Config.freeChoice s.tick ds.length % max 1 ds.length
  (ds.drop i ++ ds.take i).take n

/-- The chain of a chain region: the lowest free number, over one range of in-die pages, with as many links as the record gives. -/
def State.makeChain (s : State) (ctx n pages : Nat) : Option (Nat × Nat × State) := do
  let ch ← freeChain s ctx
  let ds := chainDies s n
  if ds.length < n ∨ n < 2 ∨ 4 < n ∨ pages = 0 ∨ 65536 < pages then none
  else
    let (b, s) ← s.grabRange ds pages (s.ctxAt ctx).tenant
    pure (ch, b, s.onChain ctx ch fun _ =>
      { gen := 1, cst := cstOf n, base := b, npg := pages - 1, links := ds.map fun d => (s.pkg.num, d) })

/-- A region is created at its address. -/
def State.makeRegion (s : State) (ctx : Nat) (r : Region) : Option State :=
  match r.cls with
  | 0 => r.pages.foldlM (fun s va => s.mapPage ctx va (if r.home < 8 then [r.home] else List.range 8) r.flags) s
  | 1 => r.pages.foldlM (fun s va => s.mapStriped ctx va r.flags) s
  | _ => do
    let (ch, b, s) ← s.makeChain ctx r.links r.pages.length
    let head := ((Tbl.getD (s.ctxAt ctx).chains ch {}).links.headD (0, 0)).2
    ((List.range r.pages.length).zip r.pages).foldlM (fun s p =>
      s.setLeaf ctx p.2 (ch * 2 ^ 56 + (b + p.1) * 65536 + head * 2 ^ 10 + 2 ^ 9 + r.flags + 2)) s

/-- The permissions of a section's pages: rd, and w or x by its flags. -/
def permOf (x : Sec) : Nat := 4 + flag (bit x.flags 1) 3 + flag (bit x.flags 2) 4

/-- A page of a section is written at its frame, zero beyond its bytes. -/
def State.fillPage (s : State) (ctx va : Nat) (bs : List Byte) : State :=
  match walk s ctx va with
  | .leaf l _ =>
    let pa := homePa s ctx (leafPlace s l va)
    (s.clear (s.ctxAt ctx).tenant pa 65536).perform ctx none pa bs
  | _ => s

/-- A section's pages are mapped and filled. -/
def State.loadSec (s : State) (ctx : Nat) (x : Sec) : Option State :=
  (List.range ((x.size + 65535) / 65536)).foldlM (fun s i => do
    let s ← s.mapPage ctx (x.addr + 65536 * i) (List.range 8) (permOf x)
    pure (s.fillPage ctx (x.addr + 65536 * i) ((x.data.drop (65536 * i)).take 65536))) s

/-- A section of a type that Table 2.9 lists with contents for the context; one of another type is ignored (log 24 DESIGN CHOICE). -/
def hasContents (x : Sec) : Bool := decide (1 ≤ x.typ) && decide (x.typ ≤ 6) || x.typ == 14

/-- A section that is loaded into memory. -/
def inMemory (x : Sec) : Bool := hasContents x && bit x.flags 0 && !bit x.flags 3

/-- A section that is loaded into every local store. -/
def inLocal (x : Sec) : Bool := hasContents x && bit x.flags 3

/-! ## Loading -/

/-- The local-store image of a core of the groups: zero-filled when the core joins them, then the .lstore image (R53, R54,
R338). -/
def State.loadLocal (s : State) (ctx : Nat) (ss : List Sec) (c : Nat) : State :=
  let at' := fun off => lsRedirect s ctx (lsPa s c off)
  let s := s.clear (s.ctxAt ctx).tenant (at' 0) lsSize
  (ss.filter inLocal).foldl (fun s x => s.writePa (at' (x.addr % lsSize)) x.data) s

/-- The entry of each launch record with arm = 1 is armed (R317). -/
def State.armImage (s : State) (ctx : Nat) (ss : List Sec) : State :=
  let ys := symbolsOf ss
  ((launchRecs ss).zip (imageSlots ss)).foldl (fun s r =>
    if bit r.1.flags 0 then
      let tag := bits (symAt ys r.1.handler).attr 5 0
      s.armEntry ctx r.2 (word r.1.count) (word (r.1.trigger * 2 ^ 32 + r.1.group * 2 ^ 8 + tag))
    else s) s

/-- A core without a context that belongs to a group of the context becomes resident for it (R338). -/
def State.settle (s : State) (ctx : Nat) (cs : List Nat) : State :=
  (cs.filter fun c => (s.coreAt c).ctx == none).foldl (fun s c => s.launch (.localStoreSwap c ctx)) s

/-- The cores that a context holds take the tags of its image (R42). -/
def State.retag (s : State) (ctx : Nat) : State :=
  let ts := loadedTags (s.ctxAt ctx)
  { s with cores := Tbl.mapv s.cores fun _ x => if x.ctx = some ctx then { x with tags := Tbl.put x.tags ctx ts } else x }

/-- An image is loaded into a context that has none (R48): its sections, group table, handlers, regions, local-store images, launch
entries and gates. Run-out units and ordered domains of its groups are new (R243, R299). -/
def State.loadImage (s : State) (ctx : Nat) (bs : List Byte) : Option State :=
  let ss := sections bs
  let gs := groupsOf ss
  let gates := gatesOf ss ctx
  if (s.ctxAt ctx).image || !goodHeader bs || !goodGroups gs || !decide (imageSlots ss).Nodup ||
      decide (256 < s.pkg.gates.length + gates.length) then none
  else do
    let s ← (ss.filter inMemory).foldlM (fun s x => s.loadSec ctx x) s
    let s ← (regionsOf ss).foldlM (fun s r => s.makeRegion ctx r) s
    let cs := (List.range 4096).filter fun c => gs.any fun g => g.2.any fun r => decide (r.1 ≤ c) && decide (c ≤ r.2)
    let s := s.onCtx ctx fun y => { y with
      image := true, groups := gs, handlers := handlersOf ss, promo := promoOf ss, runouts := [], domains := [] }
    let s := cs.foldl (fun s c => s.loadLocal ctx ss c) s
    let s := s.retag ctx
    let s := s.armImage ctx ss
    let s := (s.onPkg fun p => { p with gates := p.gates ++ gates }).armWaiting
    pure (s.settle ctx cs)

end Sys2Proof.Machine
end

