-- ==== Sys2Proof/Machine/Package.lean ====
section
/-!
DEFINITION. The package's connections to the outside world (chapter 17): the host port and its mailboxes, UALink,
Ethernet, time, boot and readiness, power.
-/
namespace Sys2Proof.Machine

/-! ## The message window (R372, R373) -/

/-- A context exists and has not been killed. -/
def running (s : State) (ctx : Nat) : Bool := (s.ctxAt ctx).live && (s.ctxAt ctx).state != 3

/-- HOST_TRIGGER_RECORD (R372): an aligned write of 16 bytes to an open page fires an entry; any other host write is
dropped, and the health log counts it (R373). Nothing comes from the host before its link is up (R386). -/
def execHostTriggerRecord (page off : Nat) (bs : List Byte) (s : State) : Host.Outcome State Fault Refusal :=
  let w := ofBytes (bs.take 8)
  .next (if !s.pkg.pcie then s
    else if decide (page < 64) && (s.ctxAt page).live && s.pkg.windows.contains page && bs.length == 16 && off % 16 == 0 &&
      decide (w < 64) then
    s.trigger { ctx := page, byTag := true, n := w, pay := Machine.word (ofBytes (bs.drop 8)) }
    else s.note 3 page 0)

/-! ## Mailboxes (R374) -/

/-- A doorbell is taken: the mailbox exists, its status is Idle or Done, the image that serves it runs, and the host's link is up
(R374, R386). -/
def takes (s : State) (m : Nat) : Bool :=
  let st := (Tbl.getD s.pkg.mbx m {}).status
  decide (m < 16) && (st == 0 || st == 2) && s.pkg.femos && s.pkg.pcie

/-- A command has been carried out: the mailbox is busy until its completion. -/
def State.respond (s : State) (m : Nat) (resp : List Byte) (result : Nat) : State :=
  (s.onPkg fun p => { p with mbx := Tbl.put p.mbx m { Tbl.getD p.mbx m {} with status := 1, resp := resp, result := result } }).launch
    (.mailboxCompletion m)

/-- Bytes over the first ones of a mailbox's page. -/
def Mailbox.write (b : Mailbox) (bs : List Byte) : Mailbox := { b with page := bs ++ b.page.drop bs.length }

/-- The host writes a mailbox's request, and then its doorbell: the command and the request's length in bytes (R374). -/
def State.ring (s : State) (m code : Nat) (req : List Byte) : State :=
  let door := Machine.word (code % 65536 + req.length % 4096 * 65536)
  s.onPkg fun p => { p with mbx := Tbl.put p.mbx m { ((Tbl.getD p.mbx m {}).write req) with door := door } }

/-- The parameters of a command as its request's bytes, one doubleword each (log 79 DESIGN CHOICE). -/
def requestOf (ws : List Nat) : List Byte := ws.flatMap (toBytes 8)

/-- A request whose bytes after its first doublewords are the host's, n of them: free values (log 79 DESIGN CHOICE). -/
def freeRequest (s : State) (ws : List Nat) (n : Nat) : List Byte := requestOf ws ++ (List.range n).map (Config.freeByte s.tick)

/-- A mailbox command that the host sends with its request: an effect with its response, or Refused. A doorbell at any other time is
ignored. -/
def mailboxCmd (m code : Nat) (req : List Byte) (s : State) (f : State → Option (List Byte × State)) :
    Host.Outcome State Fault Refusal :=
  .next (if !takes s m then s
    else
    let s := s.ring m code req
    match f s with
      | some (bs, t) => t.respond m bs 2
      | none => s.respond m [] 3)

/-- The readiness block (R386). -/
def readinessBlock (s : State) : List Byte := (List.range 0x900).map (deviceByte s)

/-- The attestation report over a nonce (R384): the layout is the model's, and the signature is open (log 18 DESIGN CHOICE). -/
def report (s : State) (nonce : List Byte) : List Byte :=
  nonce.take 64 ++ toBytes 64 s.pkg.measure ++ toBytes 8 s.pkg.imgVer ++ toBytes 8 s.pkg.repairs ++ readinessBlock s ++
    ((List.range 512).map fun i => BitVec.ofNat 8 (((List.range 8).map fun j => flag (Tbl.getD s.pkg.enc (8 * i + j) {}).en j).sum)) ++
    (List.range 132).map (Config.freeSign s.tick)

/-- MBX_ATTEST (R384). -/
def execMbxAttest (m : Nat) (nonce : List Byte) (s : State) : Host.Outcome State Fault Refusal :=
  mailboxCmd m 0x01 nonce s fun s => some (report s nonce, s)

/-- The numbers that no context has. -/
def freeContexts (s : State) : List Nat := (List.range 64).filter fun x => !(s.ctxAt x).live

/-- A context of a number as it is created; firmware grants it a window page or not (R372, log 29 DESIGN CHOICE). -/
def State.create (s : State) (x tenant : Nat) (privileged : Bool) : State :=
  let scrub := (s.ctxAt x).scrub
  let s := s.onCtx x fun _ => { live := true, tenant := tenant, privileged := privileged, epochAt := s.pkg.cyc.toNat, scrub := scrub }
  s.onPkg fun p => { p with created := true, windows := (p.windows.filter (· != x)) ++ if Config.freeChoice s.tick 2 % 2 = 0 then [x] else [] }

/-- MBX_CREATE_CONTEXT (R374): a free number, of firmware's choice. -/
def execMbxCreateContext (m tenant : Nat) (privileged : Bool) (s : State) : Host.Outcome State Fault Refusal :=
  mailboxCmd m 0x02 (requestOf [tenant, flag privileged 0]) s fun s =>
    let xs := freeContexts s
    if 4096 ≤ tenant then none
    else (xs[Config.freeChoice s.tick xs.length % max 1 xs.length]?).map fun x => (toBytes 8 x, s.create x tenant privileged)

/-- The physical address of a byte of host memory (Table 3.1). -/
def hostPa (s : State) (a : Nat) : Nat := s.pkg.num * 2 ^ 42 + 0x20000000000 + a

/-- The queue pairs that firmware binds to a context when it has loaded its image: at most one of each port, whose number, VLAN, MAC
address and rings, in the context's HBM, are firmware's choice (R380, log 54 DESIGN CHOICE). -/
def boundPairs (s : State) (ctx : Nat) (t : Tbl QueuePair) : Tbl QueuePair :=
  let frames := (pagesOf s ctx).filterMap fun p => if leafClass p.2.1 = 0 && ownHbm s (leafFrame p.2.1) then
      some (leafFrame p.2.1) else none
  let v := Config.freeRecord s.tick
  let ring := fun (i : Nat) => frames.getD (v i % max 1 frames.length) 0 + v (i + 1) % 1024 * 64
  (List.range 2).foldl (fun t port =>
    let b := 16 * port + 16
    let k := port * 64 + v b % 64
    if frames = [] ∨ v (b + 1) % 2 = 0 ∨ Tbl.has t k then t
    else Tbl.put t k { ctx := ctx, vlan := v (b + 2) % 4096, mac := v (b + 3) % 2 ^ 48, tx := ring (b + 4), rx := ring (b + 6) }) t

/-- MBX_LOAD_IMAGE (R54, R316, R339, R380). -/
def execMbxLoadImage (m ctx addr len : Nat) (s : State) : Host.Outcome State Fault Refusal :=
  mailboxCmd m 0x03 (requestOf [ctx, addr, len]) s fun s =>
    if !running s ctx || decide (2 ^ 41 < addr + len) then none
    else (s.loadImage ctx (s.readPa (hostPa s addr) len)).map fun t =>
      ([], t.onPkg fun p => { p with qps := boundPairs t ctx p.qps })

/-- MBX_DESTROY_CONTEXT (R374): a kill with reason 6, and the number is free. -/
def execMbxDestroyContext (m ctx : Nat) (s : State) : Host.Outcome State Fault Refusal :=
  mailboxCmd m 0x04 (requestOf [ctx]) s fun s =>
    if !(s.ctxAt ctx).live then none
    else
      let s := if (s.ctxAt ctx).state = 3 then s else s.kill ctx 6 0
      some ([], (s.onCtx ctx fun y => { y with live := false }).onPkg fun p => { p with windows := p.windows.filter (· != ctx), qps := p.qps.filter fun q => q.2.ctx != ctx })

/-- MBX_TENANT_KEY (R73, R376): the wrapped keys of a slot, its UALink key, the two keys of AES-256-XTS and the tag key; ok says
whether they unwrap (log 18 DESIGN CHOICE). Sectors written under the keys of before fail their check (R75). -/
def execMbxTenantKey (m tenant : Nat) (k : TenantKeys) (ok : Bool) (s : State) : Host.Outcome State Fault Refusal :=
  mailboxCmd m 0x05 (freeRequest s [tenant] 104) s fun s =>
    if !ok || decide (4096 ≤ tenant) then none
    else some ([], s.onPkg fun p => { p with
      keys := Tbl.put p.keys tenant k.ual, enc := Tbl.put p.enc tenant ⟨true, k.k1, k.k2, k.tagKey⟩ })

/-- A range may be reserved on a die: it lies in the die's HBM and meets no chain and no other range (R113). -/
def reservable (s : State) (die base npg : Nat) : Bool :=
  decide (die < 8) && (s.dieAt die).ready && !(s.dieAt die).lost && decide (0 < npg) && decide ((base + npg) * 65536 ≤ hbmDie) &&
  !(s.pkg.reserved.any fun r => r.1 == die && overlap r.2.1 (r.2.2.1 - 1) base (npg - 1)) &&
  !(s.ctxs.any fun x => x.2.chains.any fun e => e.2.cst != 0 && e.2.cst != 3 && e.2.links.contains (s.pkg.num, die) &&
    overlap e.2.base e.2.npg base (npg - 1))

/-- MBX_RESERVE_RANGE (R113): npg pages from page base of a die, whose frames the tenant then owns. -/
def execMbxReserveRange (m tenant die base npg : Nat) (s : State) : Host.Outcome State Fault Refusal :=
  mailboxCmd m 0x06 (requestOf [tenant, die, base, npg]) s fun s =>
    if decide (4096 ≤ tenant) || !reservable s die base npg then none
    else some ([], s.onPkg fun p => { p with
      reserved := p.reserved ++ [(die, base, npg, tenant)],
      owners := (List.range npg).foldl (fun t i => Tbl.put t (diePa s die 0 / 65536 + base + i) tenant) p.owners })

/-- A health log entry in the layout of Table 16.10, its cid that of a device unit (log 74 DEDUCED). -/
def healthBytes (k : Nat) (h : Health) : List Byte :=
  let place := match h.die with
    | some d => d % 8 * 2 ^ 33
    | none => 2 ^ 32
  toBytes 8 (h.cls * 2 ^ 56 + 0xFFF * 2 ^ 36 + place + k) ++ toBytes 8 h.addr ++ toBytes 8 h.time ++ toBytes 8 h.detail ++ toBytes 32 0

/-- MBX_HEALTH_LOG (R387): the entries from a sequence number onward, as many as the response holds. -/
def execMbxHealthLog (m seq : Nat) (s : State) : Host.Outcome State Fault Refusal :=
  mailboxCmd m 0x07 (requestOf [seq]) s fun s =>
    some (((s.pkg.health.mapIdx healthBytes).drop seq |>.take 63).flatten, s)

/-- MBX_UNLISTED_COMMAND (R374). -/
def execMbxUnlistedCommand (m code : Nat) (s : State) : Host.Outcome State Fault Refusal :=
  mailboxCmd m code (freeRequest s [] (Config.freeChoice s.tick 0xFC0 % 0xFC0)) s fun _ => none

/-- MAILBOX_COMPLETION (R374): the response, then the status, then MSI-X vector m. -/
def execMailboxCompletion (m : Nat) (s : State) : Host.Outcome State Fault Refusal :=
  let b := Tbl.getD s.pkg.mbx m {}
  .next (if b.status = 1 then
      let s := s.onPkg fun p => { p with mbx := Tbl.put p.mbx m { (b.write b.resp) with status := b.result } }
      { s with outs := s.outs ++ [.msix m] }
    else s)

/-- The byte of a mailbox page that the host reads: the request, which a complete response replaces, the doorbell, and the status.
Before the first request it reads as zero (log 79 DESIGN CHOICE); the spec gives the rest no contents: none. -/
def mailboxByte (b : Mailbox) (off : Nat) : Option Byte :=
  if off < 0xFC0 then some (b.page.getD off 0)
  else if off < 0xFC8 then some ((toBytes 8 b.door.toNat).getD (off - 0xFC0) 0)
  else if off < 0xFD0 then some ((toBytes 8 b.status).getD (off - 0xFC8) 0)
  else none

/-- The byte that the host reads of a BAR, which changes nothing: BAR0 reads as zero, and BAR2 holds the mailboxes and a copy of
the readiness block, with zeros in its reserved part (Table 17.1, R373, R374). There is no other BAR, and none shows HBM or a
local store (R371). -/
def hostRead (s : State) (bar off : Nat) : Option Byte :=
  if bar = 0 then (if off < 0x40000 then some 0 else none)
  else if bar ≠ 2 ∨ 0x20000 ≤ off then none
  else if off < 0x10000 then mailboxByte (Tbl.getD s.pkg.mbx (off / 4096) {}) (off % 4096)
  else if off < 0x11000 then some (if off < 0x10900 then deviceByte s (off - 0x10000) else 0)
  else some 0

/-! ## Host memory (R375) -/

/-- The core waits for a completion of host memory. -/
def awaitsHost (x : Core) : Bool := x.hostWait && x.hostRd.isNone

/-- A core whose completion has come. -/
def Core.hostDone (x : Core) (ok : Bool) (data : List Byte) : Core := { x with hostRd := some (ok, data), stalled := false }

/-- HOST_COMPLETION (R375): data, or an error. -/
def execHostCompletion (c : Nat) (ok : Bool) (data : List Byte) (s : State) : Host.Outcome State Fault Refusal :=
  .next (if awaitsHost (s.coreAt c) then s.onCore c fun x => x.hostDone ok data else s)

/-- A step is the completion of a core's host read. -/
def completes (c : Nat) (i : Instr) : Bool :=
  match i with
  | .hostCompletion d _ _ => d == c
  | _ => false

/-- HOST_COMPLETION_TIMEOUT (R375): no completion will come any more, and the load raises protection. -/
def execHostCompletionTimeout (c : Nat) (s : State) : Host.Outcome State Fault Refusal :=
  .next (if awaitsHost (s.coreAt c) then
      { s with flight := s.flight.filter fun i => !completes c i }.onCore c fun x => x.hostDone false []
    else s)

/-! ## UALink (R376, R377) -/

/-- A context of the package belongs to a tenant. -/
def tenantCtx (s : State) (tenant ctx : Nat) : Bool := running s ctx && (s.ctxAt ctx).tenant == tenant

/-- The contexts of a tenant of which a core is a member. -/
def ctxsWith (s : State) (tenant c : Nat) : List Nat :=
  (List.range 64).filter fun x => tenantCtx s tenant x && inAnyGroup s x c

/-- A target address that a port accepts for a tenant, and the context for which the package serves it (R376). -/
def portTarget (s : State) (tenant pa : Nat) : Option Nat :=
  if paPkg pa ≠ s.pkg.num then none
  else match rowOf pa with
    | .hbm =>
      if Tbl.has s.pkg.owners (pa / 65536) && Tbl.getD s.pkg.owners (pa / 65536) 0 == tenant then
        some (((List.range 64).find? (tenantCtx s tenant)).getD 64)
      else none
    | .localStore => (ctxsWith s tenant (lsCore pa)).head?
    | _ => none

/-- The key that a request carries is the one of its tenant, and that one is not zero. -/
def keyFits (s : State) (r : UalReq) : Bool := r.key != 0 && Tbl.getD s.pkg.keys r.tenant 0 == r.key

/-- A message or a trigger is for a context of the tenant, and the group it names exists. -/
def groupFits (s : State) (tenant ctx g : Nat) : Bool := tenantCtx s tenant ctx && groupExists s ctx g

/-- The foreign record of a chain is the one that an announcement names. -/
def recNames (r : ChainRec) (f : Foreign) : Bool := f.owner == r.owner && f.ctx == r.ctx && f.ch == r.ch

/-- The links of an announcement that lie in this package. -/
def recHere (r : ChainRec) (pkg : Nat) : List Nat := ((r.links ++ r.sync.toList).filter fun l => l.1 == pkg).map Prod.snd

/-- The in-die range of a chain has been reserved on a die for a tenant (R113). -/
def rangeReserved (s : State) (tenant base npg die : Nat) : Bool :=
  s.pkg.reserved.any fun r => r.1 == die && r.2.2.2 == tenant && decide (r.2.1 ≤ base) && decide (base + npg + 1 ≤ r.2.1 + r.2.2.1)

/-- A reserved range of a tenant holds the in-die range of a chain (R113). -/
def reservedFor (tenant : Nat) (c : ChainRec) (r : Nat × Nat × Nat × Nat) : Bool :=
  r.2.2.2 == tenant && decide (r.2.1 ≤ c.base) && decide (c.base + c.npg + 1 ≤ r.2.1 + r.2.2.1)

/-- A frame of the package lies in a reserved range. -/
def inReserved (s : State) (f : Nat) (r : Nat × Nat × Nat × Nat) : Bool :=
  decide (diePa s r.1 0 / 65536 + r.2.1 ≤ f) && decide (f < diePa s r.1 0 / 65536 + r.2.1 + r.2.2.1)

/-- The ranges that system software reserved on some dies for a chain are released, and their frames have no owner any more
(R369). -/
def State.releaseRanges (s : State) (tenant : Nat) (c : ChainRec) (dies : List Nat) : State :=
  let gone := s.pkg.reserved.filter fun r => dies.contains r.1 && reservedFor tenant c r
  s.onPkg fun p => { p with
    reserved := p.reserved.filter fun r => !gone.contains r,
    owners := p.owners.filter fun e => !(gone.any (inReserved s e.1)) }

/-- A killed owner's chain: its foreign record goes, and the ranges reserved for it on the dies of this package (R369). -/
def State.dropForeign (s : State) (tenant : Nat) (c : ChainRec) : State :=
  let held := s.pkg.foreign.filter (recNames c)
  let here := held.flatMap fun f => ((f.e.links ++ f.e.sync.toList).filter fun l => l.1 == s.pkg.num).map Prod.snd
  (s.releaseRanges tenant c here).onPkg fun p => { p with foreign := p.foreign.filter fun f => !recNames c f }

/-- A page of a chain reaches its syncing link (R109). -/
def State.takePage (s : State) (y : Nat × Nat) (tenant page : Nat) (data : List (Nat × Byte)) : State :=
  let a := linkPa y (page * 65536)
  let s := { s with mem := s.mem.filter fun c => !(decide (a ≤ c.1) && decide (c.1 < a + 65536)) }
  (linesFrom a 65536).foldl (fun s p => s.stampFor tenant p true) (s.writeCells (data.map fun b => (linkPa y b.1, b.2)))

/-- The promotion marker of another package's chain reaches its syncing link: that is a member and the tail, and the owner is told
(R109, R114). -/
def State.takeMark (s : State) (f : Foreign) : State :=
  match f.e.sync with
  | none => s
  | some y =>
    let s := s.onChainAt f.owner f.ctx f.ch fun e => e.promoted y
    if y.1 = s.pkg.num then s.sendChain (f.owner, f.ctx, f.ch) f.owner (.chainMark f.owner f.ctx f.ch) else s

/-- The tail of another package's chain, where it lies here, sends every page of the range to the syncing link, in ascending order,
and the marker behind them (R109, R113). -/
def State.sendPages (s : State) (f : Foreign) : State :=
  let t := tailOf f.e.links
  let pages := (List.range (f.e.npg + 1)).map (f.e.base + ·)
  match f.e.sync with
  | none => s
  | some y =>
    if t.1 ≠ s.pkg.num then s
    else if y.1 = s.pkg.num then
      (pages.foldl (fun s p => s.copyFrame (linkPa t (p * 65536)) (linkPa y (p * 65536))) s).takeMark f
    else
      let send := fun (s : State) b => s.sendChain (f.owner, f.ctx, f.ch) y.1 b
      (send (pages.foldl (fun s p => send s (.chainPage f.owner f.ctx f.ch p (pageData s t p))) s)
        (.chainMark f.owner f.ctx f.ch)).takeMark f

/-- The owner of a chain announces its record (R114): a member that has left is removed from the record that is kept, as any
member that leaves; a record without a link in this package goes. A frozen record keeps what its survivors made of it, until the
owner that has adopted the chain announces it. A syncing link that is new gets its pages from the tail. -/
def State.foreignRec (s : State) (tenant share : Nat) (r : ChainRec) : State :=
  let adopted := fun (f : Foreign) => r.old == some (f.owner, f.ctx, f.ch) && f.tenant == tenant
  let s := s.onPkg fun p => { p with foreign := p.foreign.filter fun f => !adopted f }
  let old := (s.pkg.foreign.find? (recNames r)).getD { owner := r.owner, ctx := r.ctx, ch := r.ch, tenant := tenant }
  if r.freed then s.dropForeign tenant r
  else if old.e.reconf then s
  else if recHere r s.pkg.num = [] then s.onPkg fun p => { p with foreign := p.foreign.filter fun f => !recNames r f }
  else
    let s := (old.e.links.filter fun l => !r.links.contains l).foldl (fun s l => s.removeLink r.owner r.ctx r.ch l) s
    let kept := (s.pkg.foreign.find? (recNames r)).getD old
    let f := { kept with share := share, e := { kept.e with
      gen := r.gen, base := r.base, npg := r.npg, links := r.links, sync := r.sync, cst := cstOf r.links.length } }
    let s := s.onPkg fun p => { p with foreign := (p.foreign.filter fun g => !recNames r g) ++ [f] }
    if f.e.sync = old.e.sync then s else s.sendPages f

/-- An atomic of another package enters the hub switch at a port of its link, where a combinable one meets others (Table 6.1,
R130); the port is the device's choice (log 15 DESIGN CHOICE). -/
def State.enterHub (s : State) (q : AtomReq) : State :=
  if q.fn = 1 ∧ rowOf q.pa = .hbm then s.launch (.combineRequest hubUnit (9 + Config.freeChoice s.tick 24 % 24) q)
  else s.launch (.atomicAtHome q)

/-- The foreign record of a chain of a tenant, by its owner, context and number (R114). -/
def recordAt (s : State) (tenant owner ctx : Nat) (ch : Option (Nat × Nat)) : Option Foreign :=
  s.pkg.foreign.find? fun f => f.tenant == tenant && f.owner == owner && f.ctx == ctx && some f.ch == ch.map Prod.fst

/-- The lines that another package's store writes at its link here lie in frames of its tenant (R376). -/
def ownsLink (s : State) (st : ChainStore) : Bool :=
  st.pkg == s.pkg.num || ((linkAt (chainAt s st.pkg st.ctx st.ch) st.hop).filter fun l => l.1 == s.pkg.num).all fun l =>
    st.data.all fun b => Tbl.has s.pkg.owners (linkPa l b.1 / 65536) && Tbl.getD s.pkg.owners (linkPa l b.1 / 65536) 0 == st.tenant

/-- A frozen chain has a copy at an address: it serves no reads and takes no stores (R114). -/
def frozenAt (s : State) (pa : Nat) : Bool := s.pkg.foreign.any fun f => f.e.reconf && chainCovers pa f.e

/-- A ring operation of another package at its control block, for the context that serves it: the slot's address goes back, or 1 for
what has been done and 0 for misuse, and a notify is sent to the operation's context (R265 to R267, log 14 DESIGN CHOICE). -/
def State.ringFor (s : State) (pkg x : Nat) (q : RingReq) : State :=
  let pl := Place.mem q.pa
  let r := ringAt s (homePa s x pl)
  let answer := fun (s : State) (v : Nat) => s.reply pkg q.core (word v)
  let write := fun (off : Nat) (bs : List Byte) => s.perform x none (lsRedirect s x (q.pa + off)) bs
  if (homeFails s x pl).isSome || r.bad then answer s 0
  else match q.op with
  | 0 => if r.full then answer s 0 else answer (write 0 (toBytes 8 (r.head + 1))) (r.slot q.cb r.head)
  | 1 => match r.named (q.slot - q.cb - 64) with
    | none => answer s 0
    | some k =>
      let (bs, t) := r.commits k
      let s := answer (write 0 bs) 1
      t.elim s fun t => { s with outs := s.outs ++ [.ual pkg (ualOf s x (.msg (ringNotify s r q.ctx q.cb t)))] }
  | _ => if r.cmt ≤ r.tail then answer s 0 else answer (write 16 (toBytes 8 (r.tail + 1))) 1

/-- A task operation of another package at its record, for the context that serves it. Back go the generation that it met, and what its
package has still to do: 1 queue the task, 2 release the barrier, 4 log misuse (R308, R311, R313, log 14 DESIGN CHOICE). -/
def State.taskFor (s : State) (pkg x : Nat) (r : TaskReq) : State :=
  let t := taskAt s r.pa
  let answer := fun (s : State) (v : Nat) => s.reply pkg r.core (word (v + 2 ^ 8 * t.gen))
  let put := fun (st gen n : Nat) => s.perform x none r.pa (taskWord0 st gen n)
  let arrive := fun (n : Nat) =>
    if n = 0 then s
    else if t.st = 0 ∨ t.st = 4 then answer s 4
    else
      let left := t.count - n
      let excess := if t.count < n ∨ t.count = 0 then 4 else 0
      if t.st = 1 ∧ left = 0 ∧ (t.count ≠ 0 ∨ r.op = 2) then
        if t.bar then answer (put 1 (t.gen + 1) (bits t.w3 63 32)) (2 + excess) else answer (put 2 t.gen 0) (1 + excess)
      else answer (put t.st t.gen left) excess
  if (recordError s x r.pa).isSome || t.bad then answer s 4
  else match r.op with
  | 0 =>
    let n := r.arg.toNat % 2 ^ 32
    if t.st ≠ 0 ∨ (t.bar ∧ n = 0) then answer s 4 else answer (put (if n = 0 then 2 else 1) t.gen n) (if n = 0 then 1 else 0)
  | 2 => arrive (r.arg.toNat % 2 ^ 32)
  | 3 => if t.bar then answer s 4 else answer (s.perform x none (r.pa + 32) (toBytes 8 r.arg.toNat)) 0
  | 4 => if t.st = 1 ∨ t.st = 2 then answer (put 0 t.gen t.count) 0 else s
  | _ => arrive 1

/-- What an accepted request does; none where the port refuses it. An ordered message goes to the sequencer of its group
(R299, R304). -/
def State.acceptReq (s : State) (r : UalReq) : Option State :=
  if !keyFits s r then none
  else match r.body with
    | .mem q => if frozenAt s q.pa then none else (portTarget s r.tenant q.pa).map fun x =>
        let q := { q with pkg := r.pkg, ctx := x }
        s.launch (if rowOf q.pa = .localStore then .remotePortAccess q else .homeSliceAccess q)
    | .atomic q => if frozenAt s q.pa then none else (portTarget s r.tenant q.pa).map fun x => s.enterHub { q with pkg := r.pkg, ctx := x }
    | .msg m =>
      if groupFits s r.tenant m.ctx m.grp then
        let m := { m with spkg := r.pkg }
        some (if m.ord then s.launch (.sequencerArrival m) else s.dispatchMsg m)
      else none
    | .trig t => if tenantCtx s r.tenant t.ctx then some (s.launch (.launchTrigger t)) else none
    | .ring q => if frozenAt s q.pa then none else (portTarget s r.tenant q.pa).map fun x =>
        if headWaits s q.core (.mem q.pa) then s.launch (.ualinkRequest r) else s.ringFor r.pkg x q
    | .watch w => if frozenAt s w.pa then none else (portTarget s r.tenant w.pa).map fun x =>
        s.launch (.watchArmAtHome { w with ctx := x, origin := some (r.pkg, w.ctx) })
    | .task q => if frozenAt s q.pa then none else (portTarget s r.tenant q.pa).map fun x =>
        if headWaits s q.core (.mem q.pa) then s.launch (.ualinkRequest r) else s.taskFor r.pkg x q
    | .chainRec c =>
      if c.owner = r.pkg ∧ (recHere c s.pkg.num).all (rangeReserved s r.tenant c.base c.npg) then
          some (s.foreignRec r.tenant r.share c) else none
    | .chainStore st =>
      if st.tenant = r.tenant ∧ ownsLink s st then some (s.launch (.chainStoreAtLink { st with sender := some r.pkg })) else none
    | .chainRead q =>
      if q.pkg = s.pkg.num then some (s.askChain q.core q)
      else if (recordAt s r.tenant q.pkg q.ctx q.chain).any fun f => !f.e.reconf then
        some (s.launch (.chainRead { q with sender := some r.pkg }))
      else none
    | .tailQuery q =>
      if q.pkg = s.pkg.num then some (s.askChain q.core q)
      else if (recordAt s r.tenant q.pkg q.ctx q.chain).isSome then some (s.launch (.chainTailQuery { q with sender := some r.pkg }))
      else none
    | .chainAtomic q =>
      if q.pkg = s.pkg.num then some (s.askHead q)
      else if (recordAt s r.tenant q.pkg q.ctx q.chain).any fun f =>
          !f.e.reconf && ((f.e.links.headD (0, 0)).1 == s.pkg.num || olderGen q.gen f.e.gen) then
        some (s.launch (.atomicAtHome q))
      else none
    | .chainPage owner x ch page data =>
      (recordAt s r.tenant owner x (some (ch, 0))).bind fun f => (f.e.sync.filter fun y => y.1 == s.pkg.num).map fun y =>
        s.takePage y r.tenant page data
    | .chainMark owner x ch =>
      if owner = s.pkg.num then some s
      else (recordAt s r.tenant owner x (some (ch, 0))).map fun f => s.takeMark f
    | .chainAck st => if st.tenant = r.tenant then some (s.launch (.chainAcknowledgement st)) else none

/-- A request is refused: the receiving package's health log notes the sending package and the tenant, and a sender in this
package has it in its context's error log, with the destination as its address (R377, R304). -/
def State.refuse (s : State) (r : UalReq) : State :=
  let s := s.note 2 (r.pkg * 4096 + r.tenant) 0
  match r.src with
  | some (ctx, c, dest) => s.logRefusal ctx c dest r.pkg
  | none => { s with outs := s.outs ++ [.refused r.pkg r] }

/-- UALINK_REQUEST (R376, R377). Before a port is ready nothing comes from outside, and what the package sends to itself waits
(R386). -/
def execUalinkRequest (r : UalReq) (s : State) : Host.Outcome State Fault Refusal :=
  .next (if s.pkg.ual = [] then (if r.src.isSome then s.launch (.ualinkRequest r) else s) else (s.acceptReq r).getD (s.refuse r))

/-! ## Ethernet (R380) -/

/-- The table index of a queue pair of a port. -/
def qpKey (port qp : Nat) : Nat := port * 64 + qp

/-- A queue pair changed. -/
def State.onQp (s : State) (k : Nat) (f : QueuePair → QueuePair) : State :=
  s.onPkg fun p => { p with qps := Tbl.put p.qps k (f (Tbl.getD p.qps k {})) }

/-- A received frame is for a queue pair: its destination address and its VLAN tag are those of the binding (R380); their bytes stand in
a frame as IEEE 802.3 and 802.1Q have them (log 84 PRESUMED). -/
def frameFor (q : QueuePair) (frame : List Byte) : Bool :=
  let be := fun (bs : List Byte) => ofBytes bs.reverse
  be (frame.take 6) == q.mac && be ((frame.drop 12).take 2) == 0x8100 && be ((frame.drop 14).take 2) % 4096 == q.vlan

/-- A line of a ring's control block or slots fails a read of the port (R74, R123): its data is not used. -/
def ringFails (s : State) (ctx pa n : Nat) : Bool := (linesFrom pa n).any fun l => ownHbm s l && (hbmError s ctx l).isSome

/-- A control block's line serves no read yet (R123, R365). -/
def ringWaits (s : State) (pa : Nat) : Bool := lineBusy s pa || accessHeld s pa

/-- A legal frame length for a ring (R380). -/
def goodLength (r : Ring) (l : Nat) : Bool := decide (60 ≤ l) && decide (l ≤ r.z - 8)

/-- ETHERNET_TRANSMIT (R380): the oldest committed slot's frame leaves, and the slot is released; one with an illegal
length, or whose data cannot be read, is released unsent and counted. A port that is not ready sends and receives nothing (R386). -/
def execEthernetTransmit (port qp : Nat) (s : State) : Host.Outcome State Fault Refusal :=
  let k := qpKey port qp
  let q := Tbl.getD s.pkg.qps k {}
  let r := ringAt s q.tx
  let slot := r.slot q.tx r.tail
  let w := ofBytes (s.readPa slot 8)
  .next (if !s.pkg.eth.contains port || !Tbl.has s.pkg.qps k || !running s q.ctx || ringFails s q.ctx q.tx 64 || r.bad ||
      decide (r.cmt ≤ r.tail) then s
    else if ringWaits s q.tx || (linesFrom slot (if goodLength r w then w + 8 else 8)).any (ringWaits s) then
      s.launch (.ethernetTransmit port qp)
    else
      let s := s.onQp k fun q => if goodLength r w && !ringFails s q.ctx slot (w + 8) then
          { q with sent := q.sent ++ [s.readPa (slot + 8) w] }
        else { q with unsent := q.unsent + 1 }
      s.perform q.ctx none (q.tx + 16) (toBytes 8 (r.tail + 1)))

/-- A ring after its next slot has been acquired and committed (R265, R266). -/
def Ring.produced (r : Ring) : List Byte :=
  let (m, t) := ringShift 64 (r.cmap + 2 ^ (r.head - r.cmt)) r.cmt
  toBytes 8 (r.head + 1) ++ toBytes 8 t ++ toBytes 8 r.tail ++ toBytes 8 m

/-- ETHERNET_RECEIVE (R380): the frame is placed in the receive ring and committed, with the ring's notify (R266); one
that does not fit, or meets a full ring, is dropped and counted. -/
def execEthernetReceive (port qp : Nat) (frame : List Byte) (s : State) : Host.Outcome State Fault Refusal :=
  let k := qpKey port qp
  let q := Tbl.getD s.pkg.qps k {}
  let r := ringAt s q.rx
  .next (if !s.pkg.eth.contains port || !Tbl.has s.pkg.qps k || !running s q.ctx || !frameFor q frame then s
    else if ringWaits s q.rx then s.launch (.ethernetReceive port qp frame)
    else if ringFails s q.ctx q.rx 64 || r.bad || !goodLength r frame.length || r.head - r.tail == r.n || r.head - r.cmt == 64 then
      s.onQp k fun q => { q with dropped := q.dropped + 1 }
    else
      let s := s.perform q.ctx none (r.slot q.rx r.head) (toBytes 8 frame.length ++ frame)
      let s := s.perform q.ctx none q.rx r.produced
      let t := (ringAt s q.rx).cmt
      if r.cmt < t && r.cmt == r.tail && bit r.w5 18 then
        s.send (unitMsg s q.ctx (bits r.w5 11 0) (bits r.w5 17 12) [Machine.word q.rx, Machine.word t])
      else s)

/-! ## Time (R381, R382) -/

/-- The slew that the servo sets toward a time, of at most 200 ppm: its size is the device's (log 15 DESIGN CHOICE). -/
def slewFor (s : State) (tai : Nat) : Int :=
  let k : Int := Config.freeChoice s.tick 201 % 201
  if s.pkg.now.toNat < tai then k else if tai < s.pkg.now.toNat then -k else 0

/-- PTP_MESSAGE (R381): the servo locks; its first lock may step now, forward and before any context exists; after that it
slews. The estimate of the time error is the servo's (R382). Before an Ethernet port is ready no message comes (R386). -/
def execPtpMessage (tai err : Nat) (s : State) : Host.Outcome State Fault Refusal :=
  if s.pkg.eth = [] then .next s else
  let first := !s.pkg.everLocked && !s.pkg.created
  let k := slewFor s tai
  let s := s.onPkg fun p => { p with
    now := if first then Machine.word (max p.now.toNat tai) else p.now, slew := if first then 0 else k,
    locked := true, everLocked := true, terr := err, calm := if err < 500 then p.calm else 0 }
  .next (if 1000 < err && !s.pkg.clkdeg then s.launch (.clockDegradedEntry err) else s)

/-- CLOCK_DEGRADED_ENTRY (R382): the estimate has risen above 1 us; the health log shows the state (log 30 DEDUCED). -/
def execClockDegradedEntry (err : Nat) (s : State) : Host.Outcome State Fault Refusal :=
  .next (if 1000 < err && !s.pkg.clkdeg then
      (s.onPkg fun p => { p with clkdeg := true, terr := err, calm := 0 }).note 0 err 0
    else s)

/-- CLOCK_DEGRADED_EXIT (R382): the estimate has stayed below 500 ns for 1 s. -/
def execClockDegradedExit (s : State) : Host.Outcome State Fault Refusal :=
  .next (if s.pkg.clkdeg && s.pkg.terr < 500 && 1000000000 ≤ s.pkg.calm then
      (s.onPkg fun p => { p with clkdeg := false }).note 0 s.pkg.terr 0
    else s)

/-! ## Boot and readiness (R383, R386) -/

/-- The mask ROM accepts an image. -/
def accepts (s : State) (i : BootImage) : Bool := i.rootOk && i.sigOk && decide (s.pkg.fused ≤ i.version)

/-- An accepted image starts, and raises the fused counter. -/
def State.startImage (s : State) (i : BootImage) : State :=
  s.onPkg fun p => { p with femos := true, recovery := false, imgVer := i.version, measure := i.measure, fused := i.version }

/-- The package in recovery reports nothing ready. -/
def State.recover (s : State) : State :=
  { s with
    cores := Tbl.mapv s.cores fun _ x => { x with ready := false },
    dies := Tbl.mapv s.dies fun _ d => { d with ready := false, tested := false, slices := [] } }.onPkg fun p => { p with
    recovery := true, hub := false, hbm := [], ual := [], eth := [], pcie := false }

/-- BOOT (R383): the image from the management port, else the last good one from flash, else recovery. -/
def execBoot (net flash : BootImage) (s : State) : Host.Outcome State Fault Refusal :=
  .next (if s.pkg.femos then s
    else if accepts s net then s.startImage net
    else if accepts s flash then s.startImage flash
    else s.recover)

/-- A list of numbers with one more. -/
def withNum (xs : List Nat) (n : Nat) : List Nat := if xs.contains n then xs else xs ++ [n]

/-- A function has reported ready. -/
def State.setReady (s : State) (u : ReadyUnit) : State :=
  match u with
  | .core c => if (s.dieAt (dieOf c)).lost then s else s.onCore c fun x => { x with ready := true }
  | .slice d k => if (s.dieAt d).lost then s else s.onDie d fun x => { x with slices := withNum x.slices k }
  | .die d => if (s.dieAt d).lost then s else s.onDie d fun x => { x with ready := true, tested := true }
  | .hub => s.onPkg fun p => { p with hub := true }
  | .hbm k => s.onPkg fun p => { p with hbm := withNum p.hbm k }
  | .ualink k => s.onPkg fun p => { p with ual := withNum p.ual k }
  | .ether k => s.onPkg fun p => { p with eth := withNum p.eth k }
  | .pcie => s.onPkg fun p => { p with pcie := true }
  | .mgmt => s.onPkg fun p => { p with mgmt := true }

/-- SELF_TEST_READY (R386): the function may be used from now on; messages held for it are delivered, and firings that
waited for a live die go on. In recovery nothing but the management port reports. -/
def execSelfTestReady (u : ReadyUnit) (s : State) : Host.Outcome State Fault Refusal :=
  .next (if s.pkg.recovery && u != .mgmt then s
    else
      let s := s.setReady u
      let ms := s.heldMsgs
      (ms.foldl State.dispatchMsg { s with heldMsgs := [] }).restartFirings)

/-! ## Power and cooling (R388, R389) -/

/-- THERMAL_SHUTDOWN (R388): every context is killed with reason 6, and the module shuts down. -/
def execThermalShutdown (s : State) : Host.Outcome State Fault Refusal :=
  let xs := (s.ctxs.filter fun y => y.2.live && y.2.state != 3).map Prod.fst
  .next ((xs.foldl (fun s x => s.kill x 6 0) s).onPkg fun p => { p with down := true })

/-- POWER_CAPPING (R389): issue slots are withheld; nothing but time changes. -/
def execPowerCapping (slots : Nat) (s : State) : Host.Outcome State Fault Refusal :=
  .next (s.onPkg fun p => { p with withheld := slots })

end Sys2Proof.Machine
end

