-- ==== Sys2Proof/Machine/Dispatch.lean ====
section
/-!
DEFINITION. What each instruction does: one arm for each constructor of Instr, and each arm one call of its meaning.
-/
namespace Sys2Proof.Machine

def exec (i : Instr) (s : State) : Host.Outcome State Fault Refusal :=
  match i with
  | .undefinedEncoding w => Sys2Proof.Machine.execUndefinedEncoding w s
  | .registerWrite n v => Sys2Proof.Machine.execRegisterWrite n v s
  | .rostatSelect v => Sys2Proof.Machine.execRostatSelect v s
  | .rostatArm v => Sys2Proof.Machine.execRostatArm v s
  | .rostatDisarm v => Sys2Proof.Machine.execRostatDisarm v s
  | .ctxctlPreempt ctx => Sys2Proof.Machine.execCtxctlPreempt ctx s
  | .ctxctlResume ctx => Sys2Proof.Machine.execCtxctlResume ctx s
  | .ctxctlKill ctx => Sys2Proof.Machine.execCtxctlKill ctx s
  | .messageArrival m => Sys2Proof.Machine.execMessageArrival m s
  | .dispatch c => Sys2Proof.Machine.execDispatch c s
  | .activationCommit c => Sys2Proof.Machine.execActivationCommit c s
  | .sequencerArrival m => Sys2Proof.Machine.execSequencerArrival m s
  | .tlbMissAtSlice c ctx va acc => Sys2Proof.Machine.execTlbMissAtSlice c ctx va acc s
  | .pageWalkComplete die ctx vpage => Sys2Proof.Machine.execPageWalkComplete die ctx vpage s
  | .pgInvalCompletion r => Sys2Proof.Machine.execPgInvalCompletion r s
  | .pgPinCompletion r => Sys2Proof.Machine.execPgPinCompletion r s
  | .epochEnd ctx => Sys2Proof.Machine.execEpochEnd ctx s
  | .migrationSwitch ctx vpage => Sys2Proof.Machine.execMigrationSwitch ctx vpage s
  | .homeSliceAccess r => Sys2Proof.Machine.execHomeSliceAccess r s
  | .invalidation line target => Sys2Proof.Machine.execInvalidation line target s
  | .invalidationAck line target => Sys2Proof.Machine.execInvalidationAck line target s
  | .atomicAtHome r => Sys2Proof.Machine.execAtomicAtHome r s
  | .watchArmAtHome r => Sys2Proof.Machine.execWatchArmAtHome r s
  | .combineRequest u port r => Sys2Proof.Machine.execCombineRequest u port r s
  | .combineWindowExpiry u id => Sys2Proof.Machine.execCombineWindowExpiry u id s
  | .decombine u id v => Sys2Proof.Machine.execDecombine u id v s
  | .atomicReplyTimeout c rtag applied => Sys2Proof.Machine.execAtomicReplyTimeout c rtag applied s
  | .tileFetchLine c => Sys2Proof.Machine.execTileFetchLine c s
  | .matrixCommandExecute c => Sys2Proof.Machine.execMatrixCommandExecute c s
  | .gangStart c => Sys2Proof.Machine.execGangStart c s
  | .copyBeat c ch => Sys2Proof.Machine.execCopyBeat c ch s
  | .footprintPrefetch c => Sys2Proof.Machine.execFootprintPrefetch c s
  | .remotePortAccess r => Sys2Proof.Machine.execRemotePortAccess r s
  | .queueWordArrival c port w => Sys2Proof.Machine.execQueueWordArrival c port w s
  | .chainStoreAtLink st => Sys2Proof.Machine.execChainStoreAtLink st s
  | .chainAcknowledgement st => Sys2Proof.Machine.execChainAcknowledgement st s
  | .chainStoreCompletion st => Sys2Proof.Machine.execChainStoreCompletion st s
  | .chainRead r => Sys2Proof.Machine.execChainRead r s
  | .chainTailQuery r => Sys2Proof.Machine.execChainTailQuery r s
  | .chainPageCopy ctx ch => Sys2Proof.Machine.execChainPageCopy ctx ch s
  | .chainPromotionMarker ctx ch => Sys2Proof.Machine.execChainPromotionMarker ctx ch s
  | .chainHeadHandoff ctx ch => Sys2Proof.Machine.execChainHeadHandoff ctx ch s
  | .chainCleanDone ctx ch => Sys2Proof.Machine.execChainCleanDone ctx ch s
  | .linkUnreachable pkg die => Sys2Proof.Machine.execLinkUnreachable pkg die s
  | .postArrival p => Sys2Proof.Machine.execPostArrival p s
  | .postApply c => Sys2Proof.Machine.execPostApply c s
  | .reportWindowExpiry ctx g c => Sys2Proof.Machine.execReportWindowExpiry ctx g c s
  | .runOutFire ctx g => Sys2Proof.Machine.execRunOutFire ctx g s
  | .taskAtHome r => Sys2Proof.Machine.execTaskAtHome r s
  | .taskDeadline ctx va => Sys2Proof.Machine.execTaskDeadline ctx va s
  | .taskTake c => Sys2Proof.Machine.execTaskTake c s
  | .barrierAcknowledgement c ctx va ack => Sys2Proof.Machine.execBarrierAcknowledgement c ctx va ack s
  | .barrierRelease c ctx va gen => Sys2Proof.Machine.execBarrierRelease c ctx va gen s
  | .launchTrigger t => Sys2Proof.Machine.execLaunchTrigger t s
  | .launchBatch ctx e die => Sys2Proof.Machine.execLaunchBatch ctx e die s
  | .indexAcknowledgement ctx e k => Sys2Proof.Machine.execIndexAcknowledgement ctx e k s
  | .preemptionHalt c => Sys2Proof.Machine.execPreemptionHalt c s
  | .localStoreSwap c ctx => Sys2Proof.Machine.execLocalStoreSwap c ctx s
  | .gatePost p => Sys2Proof.Machine.execGatePost p s
  | .gateArmed id pkg deg => Sys2Proof.Machine.execGateArmed id pkg deg s
  | .gateGuardDeadline id => Sys2Proof.Machine.execGateGuardDeadline id s
  | .gateGo id atOnce => Sys2Proof.Machine.execGateGo id atOnce s
  | .gateAbort id => Sys2Proof.Machine.execGateAbort id s
  | .gateActionTime id => Sys2Proof.Machine.execGateActionTime id s
  | .gateArmedTimeout id => Sys2Proof.Machine.execGateArmedTimeout id s
  | .errorRetry e recurs => Sys2Proof.Machine.execErrorRetry e recurs s
  | .remapComplete c whole => Sys2Proof.Machine.execRemapComplete c whole s
  | .linkRemoval l => Sys2Proof.Machine.execLinkRemoval l s
  | .packetResendTimeout r => Sys2Proof.Machine.execPacketResendTimeout r s
  | .heartbeatTimeout die => Sys2Proof.Machine.execHeartbeatTimeout die s
  | .budgetExpiry c => Sys2Proof.Machine.execBudgetExpiry c s
  | .hostTriggerRecord page off bs => Sys2Proof.Machine.execHostTriggerRecord page off bs s
  | .mbxAttest m nonce => Sys2Proof.Machine.execMbxAttest m nonce s
  | .mbxCreateContext m tenant privileged => Sys2Proof.Machine.execMbxCreateContext m tenant privileged s
  | .mbxLoadImage m ctx addr len => Sys2Proof.Machine.execMbxLoadImage m ctx addr len s
  | .mbxDestroyContext m ctx => Sys2Proof.Machine.execMbxDestroyContext m ctx s
  | .mbxTenantKey m tenant keys ok => Sys2Proof.Machine.execMbxTenantKey m tenant keys ok s
  | .mbxReserveRange m tenant die base npg => Sys2Proof.Machine.execMbxReserveRange m tenant die base npg s
  | .mbxHealthLog m seq => Sys2Proof.Machine.execMbxHealthLog m seq s
  | .mbxUnlistedCommand m code => Sys2Proof.Machine.execMbxUnlistedCommand m code s
  | .mailboxCompletion m => Sys2Proof.Machine.execMailboxCompletion m s
  | .ualinkRequest r => Sys2Proof.Machine.execUalinkRequest r s
  | .hostCompletion c ok data => Sys2Proof.Machine.execHostCompletion c ok data s
  | .hostCompletionTimeout c => Sys2Proof.Machine.execHostCompletionTimeout c s
  | .ethernetTransmit port qp => Sys2Proof.Machine.execEthernetTransmit port qp s
  | .ethernetReceive port qp frame => Sys2Proof.Machine.execEthernetReceive port qp frame s
  | .ptpMessage tai err => Sys2Proof.Machine.execPtpMessage tai err s
  | .clockDegradedExit => Sys2Proof.Machine.execClockDegradedExit s
  | .boot net flash => Sys2Proof.Machine.execBoot net flash s
  | .selfTestReady u => Sys2Proof.Machine.execSelfTestReady u s
  | .thermalShutdown => Sys2Proof.Machine.execThermalShutdown s
  | .clockDegradedEntry err => Sys2Proof.Machine.execClockDegradedEntry err s
  | .goMarkedNow id => Sys2Proof.Machine.execGoMarkedNow id s
  | .bridgeLaneSwapDone link => Sys2Proof.Machine.execBridgeLaneSwapDone link s
  | .lostResponseTimeout c => Sys2Proof.Machine.execLostResponseTimeout c s
  | .powerCapping slots => Sys2Proof.Machine.execPowerCapping slots s
  | .sysInv => Sys2Proof.Machine.execSysInv s
  | .sysNop => Sys2Proof.Machine.execSysNop s
  | .sysBrk imm => Sys2Proof.Machine.execSysBrk imm s
  | .sysTrap imm => Sys2Proof.Machine.execSysTrap imm s
  | .sysEret => Sys2Proof.Machine.execSysEret s
  | .sysGet r n => Sys2Proof.Machine.execSysGet r n s
  | .sysPut r n => Sys2Proof.Machine.execSysPut r n s
  | .sysSet r n => Sys2Proof.Machine.execSysSet r n s
  | .sysClr r n => Sys2Proof.Machine.execSysClr r n s
  | .sysKill imm => Sys2Proof.Machine.execSysKill imm s
  | .fenceFull scope => Sys2Proof.Machine.execFenceFull scope s
  | .fenceAcq scope => Sys2Proof.Machine.execFenceAcq scope s
  | .fenceRel scope => Sys2Proof.Machine.execFenceRel scope s
  | .fenceEng scope => Sys2Proof.Machine.execFenceEng scope s
  | .saAdd rd sa sb => Sys2Proof.Machine.execSaAdd rd sa sb s
  | .saSub rd sa sb => Sys2Proof.Machine.execSaSub rd sa sb s
  | .saMul rd sa sb => Sys2Proof.Machine.execSaMul rd sa sb s
  | .saMulh rd sa sb => Sys2Proof.Machine.execSaMulh rd sa sb s
  | .saMulhn rd sa sb => Sys2Proof.Machine.execSaMulhn rd sa sb s
  | .saDiv rd sa sb => Sys2Proof.Machine.execSaDiv rd sa sb s
  | .saDivn rd sa sb => Sys2Proof.Machine.execSaDivn rd sa sb s
  | .saRem rd sa sb => Sys2Proof.Machine.execSaRem rd sa sb s
  | .saRemn rd sa sb => Sys2Proof.Machine.execSaRemn rd sa sb s
  | .saMin rd sa sb => Sys2Proof.Machine.execSaMin rd sa sb s
  | .saMax rd sa sb => Sys2Proof.Machine.execSaMax rd sa sb s
  | .saMinn rd sa sb => Sys2Proof.Machine.execSaMinn rd sa sb s
  | .saMaxn rd sa sb => Sys2Proof.Machine.execSaMaxn rd sa sb s
  | .saPadd rd sa sb => Sys2Proof.Machine.execSaPadd rd sa sb s
  | .saAbs rd sa => Sys2Proof.Machine.execSaAbs rd sa s
  | .saNeg rd sa => Sys2Proof.Machine.execSaNeg rd sa s
  | .sbAnd rd sa sb => Sys2Proof.Machine.execSbAnd rd sa sb s
  | .sbOr rd sa sb => Sys2Proof.Machine.execSbOr rd sa sb s
  | .sbXor rd sa sb => Sys2Proof.Machine.execSbXor rd sa sb s
  | .sbAndn rd sa sb => Sys2Proof.Machine.execSbAndn rd sa sb s
  | .sbShl rd sa sb => Sys2Proof.Machine.execSbShl rd sa sb s
  | .sbShr rd sa sb => Sys2Proof.Machine.execSbShr rd sa sb s
  | .sbSra rd sa sb => Sys2Proof.Machine.execSbSra rd sa sb s
  | .sbRot rd sa sb => Sys2Proof.Machine.execSbRot rd sa sb s
  | .sbClz rd sa => Sys2Proof.Machine.execSbClz rd sa s
  | .sbCtz rd sa => Sys2Proof.Machine.execSbCtz rd sa s
  | .sbPop rd sa => Sys2Proof.Machine.execSbPop rd sa s
  | .sbSeq rd sa sb => Sys2Proof.Machine.execSbSeq rd sa sb s
  | .sbSne rd sa sb => Sys2Proof.Machine.execSbSne rd sa sb s
  | .sbSlt rd sa sb => Sys2Proof.Machine.execSbSlt rd sa sb s
  | .sbSltn rd sa sb => Sys2Proof.Machine.execSbSltn rd sa sb s
  | .sbSel rd sa sb => Sys2Proof.Machine.execSbSel rd sa sb s
  | .swAdd rd sa sb => Sys2Proof.Machine.execSwAdd rd sa sb s
  | .swSub rd sa sb => Sys2Proof.Machine.execSwSub rd sa sb s
  | .swMul rd sa sb => Sys2Proof.Machine.execSwMul rd sa sb s
  | .swDiv rd sa sb => Sys2Proof.Machine.execSwDiv rd sa sb s
  | .swDivn rd sa sb => Sys2Proof.Machine.execSwDivn rd sa sb s
  | .swRem rd sa sb => Sys2Proof.Machine.execSwRem rd sa sb s
  | .swRemn rd sa sb => Sys2Proof.Machine.execSwRemn rd sa sb s
  | .swShl rd sa sb => Sys2Proof.Machine.execSwShl rd sa sb s
  | .swShr rd sa sb => Sys2Proof.Machine.execSwShr rd sa sb s
  | .swSra rd sa sb => Sys2Proof.Machine.execSwSra rd sa sb s
  | .swMin rd sa sb => Sys2Proof.Machine.execSwMin rd sa sb s
  | .swMax rd sa sb => Sys2Proof.Machine.execSwMax rd sa sb s
  | .siAdd rd rs imm => Sys2Proof.Machine.execSiAdd rd rs imm s
  | .siAnd rd rs imm => Sys2Proof.Machine.execSiAnd rd rs imm s
  | .siOr rd rs imm => Sys2Proof.Machine.execSiOr rd rs imm s
  | .siXor rd rs imm => Sys2Proof.Machine.execSiXor rd rs imm s
  | .siShl rd rs amt => Sys2Proof.Machine.execSiShl rd rs amt s
  | .siShr rd rs amt => Sys2Proof.Machine.execSiShr rd rs amt s
  | .siSra rd rs amt => Sys2Proof.Machine.execSiSra rd rs amt s
  | .siRot rd rs amt => Sys2Proof.Machine.execSiRot rd rs amt s
  | .siSlt rd rs imm => Sys2Proof.Machine.execSiSlt rd rs imm s
  | .liHi rd imm => Sys2Proof.Machine.execLiHi rd imm s
  | .liTop rd imm => Sys2Proof.Machine.execLiTop rd imm s
  | .brEq sa off => Sys2Proof.Machine.execBrEq sa off s
  | .brNe sa off => Sys2Proof.Machine.execBrNe sa off s
  | .brLt sa off => Sys2Proof.Machine.execBrLt sa off s
  | .brGe sa off => Sys2Proof.Machine.execBrGe sa off s
  | .brGt sa off => Sys2Proof.Machine.execBrGt sa off s
  | .brLe sa off => Sys2Proof.Machine.execBrLe sa off s
  | .brAny sa off => Sys2Proof.Machine.execBrAny sa off s
  | .brNone sa off => Sys2Proof.Machine.execBrNone sa off s
  | .brAlways off => Sys2Proof.Machine.execBrAlways off s
  | .jmp off => Sys2Proof.Machine.execJmp off s
  | .call off => Sys2Proof.Machine.execCall off s
  | .jxJr sa => Sys2Proof.Machine.execJxJr sa s
  | .jxCallr rd sa => Sys2Proof.Machine.execJxCallr rd sa s
  | .jxRet => Sys2Proof.Machine.execJxRet s
  | .lpDo rs imm => Sys2Proof.Machine.execLpDo rs imm s
  | .prAnd rd sa sb => Sys2Proof.Machine.execPrAnd rd sa sb s
  | .prOr rd sa sb => Sys2Proof.Machine.execPrOr rd sa sb s
  | .prXor rd sa sb => Sys2Proof.Machine.execPrXor rd sa sb s
  | .prNot rd sa => Sys2Proof.Machine.execPrNot rd sa s
  | .prSet rd sa => Sys2Proof.Machine.execPrSet rd sa s
  | .prGet rd sa => Sys2Proof.Machine.execPrGet rd sa s
  | .prCnt rd sa => Sys2Proof.Machine.execPrCnt rd sa s
  | .prFirst rd sa => Sys2Proof.Machine.execPrFirst rd sa s
  | .ldB la rv rb off => Sys2Proof.Machine.execLdB la rv rb off s
  | .ldBn la rv rb off => Sys2Proof.Machine.execLdBn la rv rb off s
  | .ldH la rv rb off => Sys2Proof.Machine.execLdH la rv rb off s
  | .ldHn la rv rb off => Sys2Proof.Machine.execLdHn la rv rb off s
  | .ldW la rv rb off => Sys2Proof.Machine.execLdW la rv rb off s
  | .ldWn la rv rb off => Sys2Proof.Machine.execLdWn la rv rb off s
  | .ldD la rv rb off => Sys2Proof.Machine.execLdD la rv rb off s
  | .ldV la rv rb off => Sys2Proof.Machine.execLdV la rv rb off s
  | .ldVt la rv rb off => Sys2Proof.Machine.execLdVt la rv rb off s
  | .ldAcq la rv rb off => Sys2Proof.Machine.execLdAcq la rv rb off s
  | .ldDev la rv rb off => Sys2Proof.Machine.execLdDev la rv rb off s
  | .stB rv rb off => Sys2Proof.Machine.execStB rv rb off s
  | .stH rv rb off => Sys2Proof.Machine.execStH rv rb off s
  | .stW rv rb off => Sys2Proof.Machine.execStW rv rb off s
  | .stD rv rb off => Sys2Proof.Machine.execStD rv rb off s
  | .stV rv rb off => Sys2Proof.Machine.execStV rv rb off s
  | .stVm rv rb off => Sys2Proof.Machine.execStVm rv rb off s
  | .stVt rv rb off => Sys2Proof.Machine.execStVt rv rb off s
  | .stRel rv rb off => Sys2Proof.Machine.execStRel rv rb off s
  | .stDev rv rb off => Sys2Proof.Machine.execStDev rv rb off s
  | .atAdd la ra rb rc => Sys2Proof.Machine.execAtAdd la ra rb rc s
  | .atAddcb la ra rb rc => Sys2Proof.Machine.execAtAddcb la ra rb rc s
  | .atAnd la ra rb rc => Sys2Proof.Machine.execAtAnd la ra rb rc s
  | .atOr la ra rb rc => Sys2Proof.Machine.execAtOr la ra rb rc s
  | .atXor la ra rb rc => Sys2Proof.Machine.execAtXor la ra rb rc s
  | .atMin la ra rb rc => Sys2Proof.Machine.execAtMin la ra rb rc s
  | .atMax la ra rb rc => Sys2Proof.Machine.execAtMax la ra rb rc s
  | .atMinn la ra rb rc => Sys2Proof.Machine.execAtMinn la ra rb rc s
  | .atMaxn la ra rb rc => Sys2Proof.Machine.execAtMaxn la ra rb rc s
  | .atSwp la ra rb rc => Sys2Proof.Machine.execAtSwp la ra rb rc s
  | .atCas la ra rb rc => Sys2Proof.Machine.execAtCas la ra rb rc s
  | .atFadd la ra rb rc => Sys2Proof.Machine.execAtFadd la ra rb rc s
  | .atRed la ra rb rc => Sys2Proof.Machine.execAtRed la ra rb rc s
  | .atWatch la ra rb rc => Sys2Proof.Machine.execAtWatch la ra rb rc s
  | .atwAdd la ra rb rc => Sys2Proof.Machine.execAtwAdd la ra rb rc s
  | .atwAddcb la ra rb rc => Sys2Proof.Machine.execAtwAddcb la ra rb rc s
  | .atwAnd la ra rb rc => Sys2Proof.Machine.execAtwAnd la ra rb rc s
  | .atwOr la ra rb rc => Sys2Proof.Machine.execAtwOr la ra rb rc s
  | .atwXor la ra rb rc => Sys2Proof.Machine.execAtwXor la ra rb rc s
  | .atwMin la ra rb rc => Sys2Proof.Machine.execAtwMin la ra rb rc s
  | .atwMax la ra rb rc => Sys2Proof.Machine.execAtwMax la ra rb rc s
  | .atwMinn la ra rb rc => Sys2Proof.Machine.execAtwMinn la ra rb rc s
  | .atwMaxn la ra rb rc => Sys2Proof.Machine.execAtwMaxn la ra rb rc s
  | .atwSwp la ra rb rc => Sys2Proof.Machine.execAtwSwp la ra rb rc s
  | .atwCas la ra rb rc => Sys2Proof.Machine.execAtwCas la ra rb rc s
  | .atwFadd la ra rb rc => Sys2Proof.Machine.execAtwFadd la ra rb rc s
  | .atwRed la ra rb rc => Sys2Proof.Machine.execAtwRed la ra rb rc s
  | .atwWatch la ra rb rc => Sys2Proof.Machine.execAtwWatch la ra rb rc s
  | .vaFadd rd sa sb => Sys2Proof.Machine.execVaFadd rd sa sb s
  | .vaFsub rd sa sb => Sys2Proof.Machine.execVaFsub rd sa sb s
  | .vaFmul rd sa sb => Sys2Proof.Machine.execVaFmul rd sa sb s
  | .vaFma rd sa sb => Sys2Proof.Machine.execVaFma rd sa sb s
  | .vaFms rd sa sb => Sys2Proof.Machine.execVaFms rd sa sb s
  | .vaFmin rd sa sb => Sys2Proof.Machine.execVaFmin rd sa sb s
  | .vaFmax rd sa sb => Sys2Proof.Machine.execVaFmax rd sa sb s
  | .vaFabs rd sa => Sys2Proof.Machine.execVaFabs rd sa s
  | .vaFneg rd sa => Sys2Proof.Machine.execVaFneg rd sa s
  | .vaFrcp rd sa => Sys2Proof.Machine.execVaFrcp rd sa s
  | .vaFrsq rd sa => Sys2Proof.Machine.execVaFrsq rd sa s
  | .vaFsqrt rd sa => Sys2Proof.Machine.execVaFsqrt rd sa s
  | .vaFdiv rd sa sb => Sys2Proof.Machine.execVaFdiv rd sa sb s
  | .viAdd rd sa sb => Sys2Proof.Machine.execViAdd rd sa sb s
  | .viSub rd sa sb => Sys2Proof.Machine.execViSub rd sa sb s
  | .viMul rd sa sb => Sys2Proof.Machine.execViMul rd sa sb s
  | .viMulh rd sa sb => Sys2Proof.Machine.execViMulh rd sa sb s
  | .viAnd rd sa sb => Sys2Proof.Machine.execViAnd rd sa sb s
  | .viOr rd sa sb => Sys2Proof.Machine.execViOr rd sa sb s
  | .viXor rd sa sb => Sys2Proof.Machine.execViXor rd sa sb s
  | .viShl rd sa sb => Sys2Proof.Machine.execViShl rd sa sb s
  | .viShr rd sa sb => Sys2Proof.Machine.execViShr rd sa sb s
  | .viSra rd sa sb => Sys2Proof.Machine.execViSra rd sa sb s
  | .viMin rd sa sb => Sys2Proof.Machine.execViMin rd sa sb s
  | .viMax rd sa sb => Sys2Proof.Machine.execViMax rd sa sb s
  | .viMinn rd sa sb => Sys2Proof.Machine.execViMinn rd sa sb s
  | .viMaxn rd sa sb => Sys2Proof.Machine.execViMaxn rd sa sb s
  | .vcFeq rd sa sb => Sys2Proof.Machine.execVcFeq rd sa sb s
  | .vcFne rd sa sb => Sys2Proof.Machine.execVcFne rd sa sb s
  | .vcFlt rd sa sb => Sys2Proof.Machine.execVcFlt rd sa sb s
  | .vcFle rd sa sb => Sys2Proof.Machine.execVcFle rd sa sb s
  | .vcFun rd sa sb => Sys2Proof.Machine.execVcFun rd sa sb s
  | .vcIeq rd sa sb => Sys2Proof.Machine.execVcIeq rd sa sb s
  | .vcIlt rd sa sb => Sys2Proof.Machine.execVcIlt rd sa sb s
  | .vcIltn rd sa sb => Sys2Proof.Machine.execVcIltn rd sa sb s
  | .vxBcast rd sa sb => Sys2Proof.Machine.execVxBcast rd sa sb s
  | .vxExtr rd sa sb => Sys2Proof.Machine.execVxExtr rd sa sb s
  | .vxIns rd sa sb => Sys2Proof.Machine.execVxIns rd sa sb s
  | .vxPerm rd sa sb => Sys2Proof.Machine.execVxPerm rd sa sb s
  | .vxSel rd sa sb => Sys2Proof.Machine.execVxSel rd sa sb s
  | .vxIota rd sa sb => Sys2Proof.Machine.execVxIota rd sa sb s
  | .vxCvtif rd sa sb => Sys2Proof.Machine.execVxCvtif rd sa sb s
  | .vxCvtfi rd sa sb => Sys2Proof.Machine.execVxCvtfi rd sa sb s
  | .vxCvtbh rd sa sb => Sys2Proof.Machine.execVxCvtbh rd sa sb s
  | .vxCvthb rd sa sb => Sys2Proof.Machine.execVxCvthb rd sa sb s
  | .vxCvtfh rd sa sb => Sys2Proof.Machine.execVxCvtfh rd sa sb s
  | .vxCvthf rd sa sb => Sys2Proof.Machine.execVxCvthf rd sa sb s
  | .vxCvt8 rd sa sb => Sys2Proof.Machine.execVxCvt8 rd sa sb s
  | .vxCvtq8 rd sa sb => Sys2Proof.Machine.execVxCvtq8 rd sa sb s
  | .vxCvt4 rd sa sb => Sys2Proof.Machine.execVxCvt4 rd sa sb s
  | .vxCvtq4 rd sa sb => Sys2Proof.Machine.execVxCvtq4 rd sa sb s
  | .vrFsum rd sa sb => Sys2Proof.Machine.execVrFsum rd sa sb s
  | .vrFmax rd sa sb => Sys2Proof.Machine.execVrFmax rd sa sb s
  | .vrFmin rd sa sb => Sys2Proof.Machine.execVrFmin rd sa sb s
  | .vrIsum rd sa sb => Sys2Proof.Machine.execVrIsum rd sa sb s
  | .vrImax rd sa sb => Sys2Proof.Machine.execVrImax rd sa sb s
  | .vrImin rd sa sb => Sys2Proof.Machine.execVrImin rd sa sb s
  | .vrAnd rd sa sb => Sys2Proof.Machine.execVrAnd rd sa sb s
  | .vrOr rd sa sb => Sys2Proof.Machine.execVrOr rd sa sb s
  | .vgGat la ra rb rc => Sys2Proof.Machine.execVgGat la ra rb rc s
  | .vgSca ra rb rc => Sys2Proof.Machine.execVgSca ra rb rc s
  | .vgAtadd ra rb rc => Sys2Proof.Machine.execVgAtadd ra rb rc s
  | .vgAtfadd ra rb rc => Sys2Proof.Machine.execVgAtfadd ra rb rc s
  | .vgAtmin ra rb rc => Sys2Proof.Machine.execVgAtmin ra rb rc s
  | .vgAtmax ra rb rc => Sys2Proof.Machine.execVgAtmax ra rb rc s
  | .vgAtor ra rb rc => Sys2Proof.Machine.execVgAtor ra rb rc s
  | .mxMma la ra rb rc => Sys2Proof.Machine.execMxMma la ra rb rc s
  | .mxMmas la ra rb rc => Sys2Proof.Machine.execMxMmas la ra rb rc s
  | .mxZero la ra => Sys2Proof.Machine.execMxZero la ra s
  | .mxLdacc la ra rb => Sys2Proof.Machine.execMxLdacc la ra rb s
  | .mxStacc ra rb rc => Sys2Proof.Machine.execMxStacc ra rb rc s
  | .mxStsp ra rb rc => Sys2Proof.Machine.execMxStsp ra rb rc s
  | .mxGang la ra rb rc => Sys2Proof.Machine.execMxGang la ra rb rc s
  | .mxCfg ra rb => Sys2Proof.Machine.execMxCfg ra rb s
  | .mxMask ra rb rc => Sys2Proof.Machine.execMxMask ra rb rc s
  | .mxDrain => Sys2Proof.Machine.execMxDrain s
  | .cpGet ra rb rc => Sys2Proof.Machine.execCpGet ra rb rc s
  | .cpPut ra rb rc => Sys2Proof.Machine.execCpPut ra rb rc s
  | .cpGet2d ra rb rc => Sys2Proof.Machine.execCpGet2d ra rb rc s
  | .cpPut2d ra rb rc => Sys2Proof.Machine.execCpPut2d ra rb rc s
  | .cpFill ra rb rc => Sys2Proof.Machine.execCpFill ra rb rc s
  | .cpNzpk ra rb rc => Sys2Proof.Machine.execCpNzpk ra rb rc s
  | .cpWptr la ra rb => Sys2Proof.Machine.execCpWptr la ra rb s
  | .cpCancel ra => Sys2Proof.Machine.execCpCancel ra s
  | .msSend ra rb rc => Sys2Proof.Machine.execMsSend ra rb rc s
  | .msSendt ra rb rc => Sys2Proof.Machine.execMsSendt ra rb rc s
  | .msSpr ra rb rc => Sys2Proof.Machine.execMsSpr ra rb rc s
  | .msBcast ra rb rc => Sys2Proof.Machine.execMsBcast ra rb rc s
  | .msEnd => Sys2Proof.Machine.execMsEnd s
  | .msEndc rb rc => Sys2Proof.Machine.execMsEndc rb rc s
  | .msDefer ra => Sys2Proof.Machine.execMsDefer ra s
  | .tkNew la ra rb rc => Sys2Proof.Machine.execTkNew la ra rb rc s
  | .tkArr rb => Sys2Proof.Machine.execTkArr rb s
  | .tkArrd rb rc => Sys2Proof.Machine.execTkArrd rb rc s
  | .tkDl rb rc => Sys2Proof.Machine.execTkDl rb rc s
  | .tkKill rb => Sys2Proof.Machine.execTkKill rb s
  | .tkBarr rb => Sys2Proof.Machine.execTkBarr rb s
  | .tkBwait rb rc => Sys2Proof.Machine.execTkBwait rb rc s
  | .tgEn sa sb => Sys2Proof.Machine.execTgEn sa sb s
  | .tgDis sa => Sys2Proof.Machine.execTgDis sa s
  | .tgPend sa => Sys2Proof.Machine.execTgPend sa s
  | .tgClr sa => Sys2Proof.Machine.execTgClr sa s
  | .tgGet rd sa => Sys2Proof.Machine.execTgGet rd sa s
  | .gmAdd rd sa sb => Sys2Proof.Machine.execGmAdd rd sa sb s
  | .gmSub rd sa sb => Sys2Proof.Machine.execGmSub rd sa sb s
  | .gmDamp rd sa sb => Sys2Proof.Machine.execGmDamp rd sa sb s
  | .gmMarg rd sa sb => Sys2Proof.Machine.execGmMarg rd sa sb s
  | .gmSol rd sa => Sys2Proof.Machine.execGmSol rd sa s
  | .gmCov rd sa => Sys2Proof.Machine.execGmCov rd sa s
  | .gmLin rd sa sb => Sys2Proof.Machine.execGmLin rd sa sb s
  | .gmRes rd sa sb => Sys2Proof.Machine.execGmRes rd sa sb s
  | .gmConv sa sb => Sys2Proof.Machine.execGmConv sa sb s
  | .gmRdro rd sa => Sys2Proof.Machine.execGmRdro rd sa s
  | .fgAttach la ra rb rc => Sys2Proof.Machine.execFgAttach la ra rb rc s
  | .fgDetach ra rb => Sys2Proof.Machine.execFgDetach ra rb s
  | .fgSlot la ra rb rc => Sys2Proof.Machine.execFgSlot la ra rb rc s
  | .fgPost ra rb rc => Sys2Proof.Machine.execFgPost ra rb rc s
  | .fgGen la ra rb rc => Sys2Proof.Machine.execFgGen la ra rb rc s
  | .chLink ra rb rc => Sys2Proof.Machine.execChLink ra rb rc s
  | .chUnlink ra rb rc => Sys2Proof.Machine.execChUnlink ra rb rc s
  | .chRelink ra rb rc => Sys2Proof.Machine.execChRelink ra rb rc s
  | .chStat la ra rb rc => Sys2Proof.Machine.execChStat la ra rb rc s
  | .chTail la ra rb => Sys2Proof.Machine.execChTail la ra rb s
  | .chClean ra rc => Sys2Proof.Machine.execChClean ra rc s
  | .rgAcq la ra rb => Sys2Proof.Machine.execRgAcq la ra rb s
  | .rgCmt rb rc => Sys2Proof.Machine.execRgCmt rb rc s
  | .rgPeek la ra rb => Sys2Proof.Machine.execRgPeek la ra rb s
  | .rgRel rb => Sys2Proof.Machine.execRgRel rb s
  | .qpCtl sa sb => Sys2Proof.Machine.execQpCtl sa sb s
  | .qpStat rd sa => Sys2Proof.Machine.execQpStat rd sa s
  | .qpCatch sa sb => Sys2Proof.Machine.execQpCatch sa sb s
  | .glArm ra rb => Sys2Proof.Machine.execGlArm ra rb s
  | .glDisarm ra => Sys2Proof.Machine.execGlDisarm ra s
  | .glTrig ra rb => Sys2Proof.Machine.execGlTrig ra rb s
  | .glGate ra => Sys2Proof.Machine.execGlGate ra s
  | .glIdx la ra rb => Sys2Proof.Machine.execGlIdx la ra rb s
  | .glGrp la ra rb => Sys2Proof.Machine.execGlGrp la ra rb s
  | .pgInval ra rb rc => Sys2Proof.Machine.execPgInval ra rb rc s
  | .pgReplay ra => Sys2Proof.Machine.execPgReplay ra s
  | .pgFbrd la ra rb => Sys2Proof.Machine.execPgFbrd la ra rb s
  | .pgPin ra rb rc => Sys2Proof.Machine.execPgPin ra rb rc s
  | .pgHint ra rb rc => Sys2Proof.Machine.execPgHint ra rb rc s
  | .trlLead => Sys2Proof.Machine.execTrlLead s
  | .trlJoin => Sys2Proof.Machine.execTrlJoin s
  | .trlQuit => Sys2Proof.Machine.execTrlQuit s

end Sys2Proof.Machine
end

