-- ==== Sys2Proof/Machine/Turn.lean ====
section
/-!
DEFINITION. One turn of the machine: time passes, and a core runs its next instruction, or a step of the device or of the
outside world happens (log 5 DESIGN CHOICE). What surrounds an instruction stands here: fetch, the signature checker, the limits of
sprinkle handlers (R224, R225), and trail mode (R323 to R327).
-/
namespace Sys2Proof.Machine

/-! ## Time (R245, R291, R293, R368) -/

/-- A message ages: its tag is enabled on its core, where its context is resident (R291). -/
def ages (s : State) (m : Msg) : Bool :=
  let x := s.coreAt m.dcore
  x.ctx == some m.ctx && (s.ctxAt m.ctx).state == 0 && (Tbl.getD (Tbl.getD x.tags m.ctx {}).tags m.tag {}).en

/-- Messages after some cycles: each counts those for which it has waited since it arrived (R291, Table 14.18). -/
def agedMsgs (s : State) (dt : Nat) (ms : List Msg) : List Msg := ms.map fun m => if ages s m then { m with age := m.age + dt } else m

/-- The messages that wait at cores, at clusters and in rings, after some cycles. -/
def State.ageMsgs (s : State) (dt : Nat) : State :=
  { s with
    cores := Tbl.mapv s.cores fun _ x => if x.inbox = [] then x else { x with inbox := agedMsgs s dt x.inbox },
    clusters := Tbl.mapv s.clusters fun _ k => if k.inbox = [] then k else { k with inbox := agedMsgs s dt k.inbox },
    ctxs := Tbl.mapv s.ctxs fun _ y => if y.ring = [] then y else { y with ring := agedMsgs s dt y.ring } }

/-- A core after some cycles: the ages of its resident context's soft-pending bits, and the count of its activation (R291,
R368). -/
def Core.aged (x : Core) (y : Ctx) (cyc dt : Nat) : Core :=
  let ctx := x.ctx.getD 0
  let t := Tbl.getD x.tags ctx {}
  let x := if x.ctx.isSome && y.state == 0 && t.tags.any fun e => e.2.spnd && e.2.en then
      { x with tags := Tbl.put x.tags ctx { t with
          tags := Tbl.mapv t.tags fun _ g => if g.spnd && g.en then { g with sage := g.sage + dt } else g } }
    else x
  let budget := fld y.wdctl 47 0
  if x.phase = .running ∧ x.trig.kind ≠ 1 ∧ y.state < 2 then
    let n := x.wcount + dt
    let due := decide (budget ≠ 0) && decide (budget ≤ n) && x.due.isNone
    { x with wcount := n, due := if due then some (0x10, Machine.word (cyc + dt - x.started)) else x.due }
  else x

/-- The cycles until no report at or above the threshold is left in its window. -/
def RunOut.wait (u : RunOut) (member : Nat → Bool) : Nat :=
  (u.reports.filter fun r => member r.1 && !(f32 r.2.1).lt (f32 u.thr)).foldl (fun n r => max n (4096 - r.2.2)) 0

/-- A run-out unit after some cycles: its windows move on, and consecutive quiet cycles are counted (R245). -/
def RunOut.aged (u : RunOut) (member : Nat → Bool) (dt : Nat) : RunOut :=
  let u := u.kept member
  let w := u.wait member
  let holds := u.arm && u.seen && (f32 0).lt (f32 u.thr) && decide (w ≤ dt)
  let moved : RunOut := { u with reports := (u.reports.map fun r => (r.1, r.2.1, r.2.2 + dt)).filter fun r => decide (r.2.2 < 4096) }
  moved.judged holds (if w = 0 then u.count + dt else dt - w + 1)

/-- The run-out units of the contexts after some cycles; those that are due fire next. -/
def State.ageUnits (s : State) (dt : Nat) : State :=
  let s' := { s with ctxs := Tbl.mapv s.ctxs fun x y =>
    if y.state < 2 then { y with runouts := Tbl.mapv y.runouts fun g u => u.aged (inGroup s x g) dt } else y }
  let due := s'.ctxs.flatMap fun e => if e.2.state < 2 then (e.2.runouts.filter fun u => u.2.due).map fun u => (e.1, u.1) else []
  due.foldl (fun s d => if s.flight.any fun i => match i with
    | .runOutFire x g => x == d.1 && g == d.2
    | _ => false then s else s.launch (.runOutFire d.1 d.2)) s'

/-- The timebase after some cycles: a nanosecond is four cycles, corrected by the servo's slew, of which whole nanoseconds take effect
(R293, R381). -/
def Pkg.aged (p : Pkg) (dt : Nat) : Pkg :=
  let ns : Int := ((p.cyc.toNat + dt) / 4 : Nat) - (p.cyc.toNat / 4 : Nat)
  let due := p.slewAcc + ns * p.slew
  { p with cyc := p.cyc + word dt, now := p.now + BitVec.ofInt 64 (ns + due.tdiv 1000000), slewAcc := due.tmod 1000000,
           calm := if p.terr < 500 then p.calm + ns.toNat else 0 }

/-- The time receiver may lose its lock while time passes; now then runs free (R382, log 30 DEDUCED). -/
def Pkg.listened (p : Pkg) (lost : Bool) : Pkg := if p.locked && lost then { p with locked := false, slew := 0 } else p

/-- The steps of gates for which the time has come (Tables 15.11 and 15.12). -/
def gatesDue (s : State) : List Instr :=
  let now := s.pkg.now.toNat
  (s.pkg.parts.filterMap fun x => match x.2 with
    | .go => if x.1.time ≤ now then some (.gateActionTime (postName x.1)) else none
    | .armed => if x.1.time + 1000000 ≤ now then some (.gateArmedTimeout (postName x.1)) else none
    | .waiting => if x.1.time ≤ now + x.1.guard then some (.gateGuardDeadline (postName x.1)) else none) ++
  s.pkg.coords.filterMap fun k =>
    if !k.decided && decide (k.p.time ≤ now + k.p.guard) then some (.gateGuardDeadline (postName k.p))
    else if k.late && decide (k.p.time ≤ now) then some (.goMarkedNow (postName k.p)) else none

/-- The steps of contexts for which the time has come: epochs, and deadlines of tasks (R68, R308). -/
def ctxsDue (s : State) : List Instr :=
  s.ctxs.flatMap fun y =>
    if y.2.live && y.2.state != 3 then
      (if y.2.epochAt + epochLen y.2.pmEff ≤ s.pkg.cyc.toNat then [.epochEnd y.1] else []) ++
        (y.2.armed.filter fun a => deadlinePassed s y.1 a.1).map fun a => .taskDeadline y.1 a.1
    else []

/-- A core that holds no context, or one that is pre-empted, becomes resident for a running one of which it is a member (R334,
R338). -/
def swapsDue (s : State) : List Instr :=
  s.cores.filterMap fun x =>
    (s.ctxs.find? fun y => canSwap s x.1 y.1).map fun y => .localStoreSwap x.1 y.1

/-- The transmit rings that hold a frame (R380). -/
def framesDue (s : State) : List Instr :=
  s.pkg.qps.filterMap fun q =>
    let r := ringAt s q.2.tx
    if !r.bad && decide (r.tail < r.cmt) then some (.ethernetTransmit (q.1 / 64) (q.1 % 64)) else none

/-- The clock is no longer degraded (R382). -/
def clockDue (s : State) : List Instr :=
  if s.pkg.clkdeg && decide (1000000000 ≤ s.pkg.calm) then [.clockDegradedExit] else []

/-- Steps for which the time has come are put in progress, each once. -/
def State.launchDue (s : State) : State :=
  (gatesDue s ++ ctxsDue s ++ swapsDue s ++ framesDue s ++ clockDue s).foldl (fun s i =>
    if s.flight.contains i then s else s.launch i) s

/-- Cycles pass. -/
def State.advance (s : State) (dt : Nat) : State :=
  if dt = 0 then s
  else
    let s := s.ageMsgs dt
    let s := { s with cores := Tbl.mapv s.cores fun _ x => x.aged (s.ctxAt (x.ctx.getD 0)) s.pkg.cyc.toNat dt }
    ((s.ageUnits dt).onPkg fun p => (p.aged dt).listened (Config.freeUnlock s.tick)).launchDue

/-! ## Steps in progress -/

/-- Two steps in progress keep their order: messages and words of one stream, and what a resume delivers before what comes later to
its context; a barrier's acknowledgements and releases to a core, posts of one sender, stores and acknowledgements at one link,
misses at the input of one slice, requests that wait at a home slice before what is for their line, and one core's combinable
requests on their path (R85, R103, R128, R130, R241, R269, R295, R313, R337). -/
def sameOrder (a b : Instr) : Bool :=
  match a with
  | .messageArrival m => sameStream m b || resumedBefore m b
  | .barrierRelease c x va _ => match b with
    | .barrierAcknowledgement c' x' va' _ => c == c' && x == x' && va == va'
    | .barrierRelease c' x' va' _ => c == c' && x == x' && va == va'
    | _ => false
  | .queueWordArrival c p w => wordFor w.ctx c p b
  | .postArrival p => match b with
    | .postArrival q => p.poster == q.poster && p.ncore == q.ncore
    | _ => false
  | .sequencerArrival m => match b with
    | .sequencerArrival n => m.scid == n.scid && m.ctx == n.ctx && m.grp == n.grp
    | _ => false
  | .chainStoreAtLink st => sameHop st b
  | .chainAcknowledgement st => match b with
    | .chainAcknowledgement t => sameChain st t && st.hop == t.hop
    | _ => false
  | .tlbMissAtSlice c ctx va _ => sameInput (xlKey (dieOf c) ctx va) b
  | .combineRequest u p r => match b with
    | .combineRequest u' p' q => u == u' && p == p' && r.core == q.core && r.pkg == q.pkg
    | _ => false
  | .homeSliceAccess r => atSlice r.pa b
  | .watchArmAtHome r => atSlice r.pa b
  | .atomicAtHome r => atSlice r.pa b || match b with
    | .atomicAtHome q => r.core == q.core && r.pkg == q.pkg && lineOf r.pa == lineOf q.pa
    | _ => false
  | _ => false

/-- The step that happens when the k-th in progress is asked for: it, or an earlier one that it must not overtake. -/
def nextInFlight (fl : List Instr) (k : Nat) : Nat :=
  match fl[k]? with
  | some i => min k ((fl.findIdx? (sameOrder i)).getD k)
  | none => k

/-- A step in progress happens. -/
def State.runFlight (s : State) (k : Nat) : Host.Outcome State Fault Refusal :=
  let j := nextInFlight s.flight k
  match s.flight[j]? with
  | some i => exec i { s with flight := s.flight.eraseIdx j }
  | none => .next s

/-! ## Sprinkle handlers (R224, R225) -/

/-- The instruction is one that a sprinkle handler may execute; mode is the mode of mx.mask (R224). -/
def sprinkleMay (w : BitVec 32) (mode : Nat) : Bool :=
  let op := (wOp w).toNat
  let fn := (wFn w).toNat
  (decide (2 ≤ op) && decide (op ≤ 16)) || op == 18 || op == 19 || (decide (23 ≤ op) && decide (op ≤ 27)) ||
    (op == 29 && ([0, 1, 2, 7, 9].contains fn || (fn == 8 && mode % 2 == 0))) || (op == 31 && (fn == 2 || fn == 4))

/-- The tile that an mx word names (Table 10.6a). -/
def tileNamed (w : BitVec 32) : Option TReg :=
  if (wOp w).toNat = 29 ∧ ((wFn w).toNat ≤ 6 ∨ (wFn w).toNat = 8) ∧ (wRa w).toNat < 4 then some ((wRa w).setWidth 2) else none

/-- The tile that an instruction of a sprinkle handler names takes the handler's mark if it fails, at this instruction too (R225). -/
def markNamed (w : BitVec 32) : M Unit := do
  let c ← core
  match tileNamed w with
  | some t => if c.trig.kind = 1 ∧ !c.sprTiles.contains t then modCore fun c => { c with sprTiles := c.sprTiles ++ [t] } else pure ()
  | none => pure ()

/-- A sprinkle handler fails at an instruction outside its list, or at the 33rd (R225). -/
def sprinkleCheck (w : BitVec 32) : M Unit := do
  let c ← core
  if c.trig.kind = 1 ∧ (32 ≤ c.icount ∨ !sprinkleMay w (c.getS (wRc w)).toNat) then endWith fun s => s.sprinkleFail s.cur
  else pure ()

/-! ## Trail mode (R323 to R325) -/

/-- The core follows its row's stream. -/
def Core.trails (x : Core) : Bool := x.trail.role == .trailing && x.trail.left.isNone
/-- The core leads its row's stream. -/
def Core.leads (x : Core) : Bool := x.trail.role == .leader && x.trail.left.isNone

/-- The trailing cores of a core's row, those included whose state is saved (R327). -/
def trailers (s : State) (c : Nat) : List Nat := (others c).filter fun i => (s.holder i s.ctxNo).trail.role == .trailing

/-- The leader is eight instructions ahead of the slowest trailing core (R324). -/
def tooFarAhead (s : State) (c : Nat) : Bool := !(slowest s s.ctxNo c).isEmpty

/-- A row goes on in trail mode only when all its cores have resumed (R327). -/
def rowAway (s : State) (c : Nat) : Bool :=
  (s.coreAt c).inTrail && (s.coreAt c).trail.left.isNone && (s.ctxAt s.ctxNo).state == 0 &&
    (rowCores c).any fun i => Tbl.has (s.ctxAt s.ctxNo).saves i

/-- The scalar registers that a control instruction reads; none for another instruction. -/
def controlReads (i : Instr) : Option (List SReg) :=
  match i with
  | .brEq sa _ => some [sa]
  | .brNe sa _ => some [sa]
  | .brLt sa _ => some [sa]
  | .brGe sa _ => some [sa]
  | .brGt sa _ => some [sa]
  | .brLe sa _ => some [sa]
  | .brAny _ _ => some []
  | .brNone _ _ => some []
  | .brAlways _ => some []
  | .jmp _ => some []
  | .call _ => some []
  | .jxJr sa => some (srcNames sa)
  | .jxCallr _ sa => some (srcNames sa)
  | .jxRet => some []
  | .lpDo rs _ => some [rs]
  | _ => none

/-- The register that a control instruction writes. -/
def controlWrites (i : Instr) : Option SReg :=
  match i with
  | .call _ => some 61
  | .jxCallr rd _ => some rd
  | _ => none

/-- A control instruction on a trailing core: the leader's decision, with the leader's values written (R324). -/
def followLeader (i : Instr) (srcs : List SReg) (r : TrailRec) : M Unit := do
  openPorts (controlWrites i) srcs
  modCore fun c => c.dequeue srcs
  modify fun s => r.wr.foldl (fun s e => s.putS e.1 e.2) s
  modCore fun c => c.jumped (BitVec.ofNat 52 r.npc)

/-- The stream record of an instruction that the leader has retired: x before it, y after it. -/
def recordOfTurn (x y : Core) (i : Instr) (w : BitVec 32) : TrailRec :=
  { pc := x.pc.toNat, w := w, npc := y.pc.toNat, lp := y.lp,
    wr := (controlWrites i).toList.map fun n => (n, (x.pc + 4).setWidth 64) }

/-- A trailing core receives an instruction of the stream; it skips the one behind which it has returned (R325). -/
def Core.received (x : Core) (r : TrailRec) : Core :=
  if x.trail.skip then
    let y := { x with trail := { x.trail with skip := false } }
    if x.trail.left.isNone then y.behind r else y
  else { x with trail := { x.trail with stream := x.trail.stream ++ [r] } }

/-- A trailing core stands at the next instruction of the stream that it has received. -/
def Core.atStream (x : Core) : Core :=
  match x.trails, x.trail.stream with
  | true, r :: _ => x.streamTo r.pc
  | _, _ => x

/-- A trailing core after a stream instruction: the leader's loop registers and next address. -/
def Core.followed (y : Core) (r : TrailRec) : Core :=
  if y.trail.role = .trailing then
    { y with trail := { y.trail with stream := y.trail.stream.drop 1 }, pc := BitVec.ofNat 52 r.npc, lp := r.lp }.behind r
  else y

/-! ## An instruction with what surrounds it -/

/-- The word of the next instruction, and the checker's block after it. -/
def fetchStage : M (BitVec 32 × Option Block) := do
  let c ← core
  let w ← match c.trails, c.trail.stream with
    | true, r :: _ => pure r.w
    | _, _ => fetchWord
  markNamed w
  let b ← checkWord w
  modCore fun c => { c with ir := w }
  sprinkleCheck w
  pure (w, b)

/-- The checker after an instruction that has retired (R357). -/
def Checker.after (k : Checker) (i : Instr) (b : Block) (pc : Nat) : Checker :=
  match i with
  | .sysEret => k
  | .jxRet =>
    match k.catches.find? fun e => e.1 == pc with
    | some e => { k with cur := e.2, catches := k.catches.erase e }
    | none => { k with cur := if b.on then b else { b with how := 2 } }
  | _ => { k with cur := b }

/-- A jx.ret that goes back to the address at which a core left its row's stream for a catch rejoins it (R271, R325). -/
def State.rejoinCatch (s : State) (c : Nat) (i : Instr) : State :=
  match i with
  | .jxRet => if (s.coreAt c).trail.left = some (s.coreAt c).pc.toNat then s.rejoin c (s.coreAt c).pc.toNat else s
  | _ => s

/-- At the start of trail mode the trailing cores check the leader's stream from where it stands: the block is the leader's (R323,
R357, log 21 DEDUCED). -/
def State.shareBlock (s : State) (c : Nat) (x : Core) : State :=
  let y := s.coreAt c
  if y.leads && !x.leads then
    (trailers s c).foldl (fun s k => s.onHolder k (y.ctx.getD 0) fun z => { z with chk := { z.chk with cur := y.chk.cur } }) s
  else s

/-- What follows an instruction of a core: x is the core before it. Nothing follows one that has not retired. -/
def State.afterInstr (s : State) (c : Nat) (x : Core) (i : Instr) (w : BitVec 32) (b : Option Block) : State :=
  let y := s.coreAt c
  if y.icount ≠ x.icount + 1 ∨ y.seq ≠ x.seq then s
  else
    let s := match b with
      | some b => (s.onCore c fun y => { y with chk := y.chk.after i b y.pc.toNat }).shareBlock c x
      | none => s
    let s := match x.trails, x.trail.stream with
      | true, r :: _ => s.onCore c fun y => y.followed r
      | _, _ => s
    let s := if x.leads then
        let r := recordOfTurn x y i w
        (trailers s c).foldl (fun s k => s.onHolder k (x.ctx.getD 0) fun z => z.received r) s
      else s
    s.rejoinCatch c i

/-- A software trap saves the checker's block as it stands after it (R357). -/
def Core.beforeInstr (x : Core) (i : Instr) (b : Option Block) : Core :=
  match i, b with
  | .sysTrap _, some b => { x with chk := { x.chk with cur := if b.on then b else { b with how := 4 } } }
  | _, _ => x

/-- An instruction of the current core, with what surrounds it. -/
def State.runInstr (s : State) (i : Instr) (w : BitVec 32) (b : Option Block) : Host.Outcome State Fault Refusal :=
  let x := s.core
  let out := match x.trails, x.trail.stream, controlReads i with
    | true, r :: _, some srcs => run (followLeader i srcs r) s
    | _, _, _ => exec i (s.setCore (x.beforeInstr i b))
  match out with
  | .next t => .next (t.afterInstr s.cur x i w b)
  | o => o

/-- The instruction of a word; a word that is none has the meaning of Table 1.9. -/
noncomputable def instrOf (w : BitVec 32) : Instr :=
  match decodeWord w with
  | .ok i => i
  | .error _ => .undefinedEncoding w

/-- The current core fetches and runs its next instruction. -/
noncomputable def State.fetchAndRun (s : State) : Host.Outcome State Fault Refusal :=
  match fetchStage s with
  | .ok ((w, b), t) => t.runInstr (instrOf w) w b
  | .error t => .next t

/-- The block that the checker has reached with an instruction that has passed it. -/
def blockAfter (s : State) (w : BitVec 32) : Option Block :=
  match checkWord w s with
  | .ok (b, _) => b
  | .error _ => none

/-- The current core's atomic, performed at the head of a chain, looks whether its store has completed: the instruction is the one
that was fetched and checked before (R104). -/
noncomputable def State.runAgain (s : State) : Host.Outcome State Fault Refusal :=
  let w := s.core.ir
  s.runInstr (instrOf w) w (blockAfter s w)

/-! ## The turn of a core -/

/-- A trap that waits is taken at an instruction boundary: a lost atomic, an exhausted budget, or a footprint that could
not be read (Table 1.6, R156, R327, R368). -/
def State.takeDue (s : State) (c code : Nat) (val : Word) : State :=
  let s := s.onCore c fun x => { x with due := none }
  let x := s.coreAt c
  match code with
  | 0x0E => s.consume c x.dueCls val.toNat val x.dueDetail
  | 0x10 =>
    let s := if x.inTrail then s.endTrail c else s
    let s := s.onCore c fun x => { x with wcount := 0, held := none, stalled := false }
    let s := if x.tlv.toNat = 2 then s.logCore (x.ctx.getD 0) 0x34 0x10 c 0 val.toNat else s
    s.takeTrap c 0x10 (s.coreAt c).pc val
  | _ => s.takeTrap c code x.pc val

/-- The current core waits: a step in progress happens, and the core looks again at its next turn. -/
def State.waitTurn (s : State) : Host.Outcome State Fault Refusal :=
  match s.runFlight 0 with
  | .next t => .next (t.onCore s.cur fun x => { x with stalled := false })
  | o => o

/-- A core that runs an activation. An instruction waits for the reply of a returning atomic before it (R257), and an atomic that has
been performed retires before a trap is taken. -/
noncomputable def State.runningTurn (s : State) : Host.Outcome State Fault Refusal :=
  let s := s.setCore s.core.atStream
  let x := s.core
  match x.due.filter fun _ => x.ret.isNone with
  | some (code, val) => .next (s.takeDue s.cur code val)
  | none =>
    if x.held.isSome || x.stalled || x.outst.any (fun r => r.dest != 0) then s.waitTurn
    else if x.ret.isSome then s.runAgain
    else if (x.trails && x.trail.stream.isEmpty) || (x.leads && tooFarAhead s s.cur) || rowAway s s.cur then s.waitTurn
    else s.fetchAndRun

/-- A core that has ended its activation: its commit, or a step in progress that the commit waits for. -/
def State.endingTurn (s : State) : Host.Outcome State Fault Refusal :=
  if s.core.stalled then s.waitTurn
  else match exec (.activationCommit s.cur) s with
    | .next t => .next (match (t.coreAt s.cur).phase with
      | .ending _ => t.onCore s.cur fun x => { x with stalled := true }
      | _ => t)
    | o => o

/-- An idle core: buffered posts, then a post of its own on its way (Table 11.10), then its next activation, then a task; else a
step in progress. -/
def State.idleTurn (s : State) : Host.Outcome State Fault Refusal :=
  let c := s.cur
  if s.core.posts ≠ [] ∧ !s.core.holdsPosts then exec (.postApply c) s
  else match s.flight.findIdx? (ownPost c) with
  | some k => s.runFlight k
  | none => match exec (.dispatch c) s with
    | .next t =>
      if (t.coreAt c).phase ≠ .idle || (t.coreAt c).fetching.isSome && s.core.fetching.isNone then .next t
      else match exec (.taskTake c) s with
        | .next t => if (t.coreAt c).inbox.length ≠ s.core.inbox.length then .next t else s.runFlight 0
        | o => o
    | o => o

/-- The turn of the current core. -/
noncomputable def State.coreTurn (s : State) : Host.Outcome State Fault Refusal :=
  match s.core.phase with
  | .running => s.runningTurn
  | .ending _ => s.endingTurn
  | .idle => s.idleTurn
  | .halted => s.runFlight 0

/-! ## The turn of the machine -/

/-- A turn happens. -/
noncomputable def State.act (s : State) (t : Turn) : Host.Outcome State Fault Refusal :=
  let s := { s with tick := s.tick + 1 }
  match t with
  | .core dt c comb => State.coreTurn { s.advance dt with cur := c, comb := comb }
  | .event dt i => exec i { s.advance dt with comb := false }
  | .pending dt k => { s.advance dt with comb := false }.runFlight k

/-- The next turn: the agenda's first, or the current core's after a time that nothing gives (log 4 DESIGN CHOICE, log 5 DESIGN
CHOICE). After the module has shut down nothing runs (R388). -/
noncomputable def State.turn (s : State) : Host.Outcome State Fault Refusal :=
  if s.pkg.down then .fault .shutDown
  else match s.agenda with
    | t :: rest => State.act { s with agenda := rest } t
    | [] => s.act (.core (Config.freeCycles s.tick) s.cur false)

/-! ## Placing an instruction (log 7 DESIGN CHOICE) -/

/-- The own package's first frame: where a placed instruction lies. -/
def placeFrame (s : State) : Nat := diePa s 0 0

/-- A leaf that maps the page of an address to the frame of a placed instruction, with every permission. -/
def placeLeaf (s : State) (ctx va : Nat) : Leaf :=
  ⟨ctx, va / 65536 * 65536, 16, word (placeFrame s + 30), word (2 ^ 64 - 1)⟩

/-- The current core as it stands before a placed instruction. -/
def Core.placed (x : Core) (l : Leaf) : Core :=
  { x with
    phase := .running, ctx := some l.ctx, stalled := false, held := none, due := none, trail := {}, outst := [], ret := none,
    trig := if x.trig.kind = 1 then { x.trig with kind := 0 } else x.trig, l1tlb := l :: x.l1tlb,
    pc := BitVec.ofNat 52 (x.pc.toNat % 2 ^ 51 / 4 * 4) }

/-- The state with an instruction word placed where the current core fetches next: its page mapped, its context live,
its line readable, its slice and stack ready, and the core's turn next. -/
def State.placeWord (s : State) (w : BitVec 32) : State :=
  let ctx := s.ctxNo
  let pc := s.core.pc.toNat % 2 ^ 51 / 4 * 4
  let pa := placeFrame s + pc % 65536
  let s := (s.setCore (s.core.placed (placeLeaf s ctx pc))).onCtx ctx fun y =>
    { y with live := true, state := 0, sigctl := 0, wdctl := 0, ptbase := y.ptbase ||| 1 }
  let s := { s with
    agenda := [.core 0 s.cur false], poison := s.poison.filter fun e => e.1 != lineOf pa, dir := Tbl.del s.dir (lineOf pa) }
  let s := (s.onDie 0 fun d => { d with lost := false, slices := homeSlice pa :: d.slices }).onPkg fun p =>
    { p with down := false, hbm := hbmStack pa :: p.hbm }
  let s := if tagPasses s ctx pa then s
    else s.onPkg fun p => { p with sectag := Tbl.put p.sectag (lineOf pa) (slotOf s (s.ctxAt ctx).tenant) }
  { s with mem := s.mem.writeN pa (wordBytes w) }

end Sys2Proof.Machine
end

