-- ==== Sys2Proof/Machine/Step.lean ====
section
/-!
DEFINITION. The step of the machine, and the placing of an instruction where it fetches next.
-/
namespace Sys2Proof.Machine

/-- One step: the next turn (Machine/Turn.lean). -/
noncomputable def step (s : State) : Host.Outcome State Fault Refusal := s.turn

/-- The state with an instruction of nbits bits stored where the step fetches its next instruction (log 7 DESIGN CHOICE). -/
def State.withFetchWord (s : State) (_nbits w : Nat) : State := s.placeWord (BitVec.ofNat 32 w)

end Sys2Proof.Machine
end

