-- ==== Sys2Proof/Safety.lean ====
section
/-!
DEFINITION. What counts as a safe run, and the terms in which claims are stated: when a part of an instruction passes its
checks, the states that a completed instruction leaves, and what a step leaves unchanged.
-/
namespace Sys2Proof.Machine

/-! ## Safe runs -/

/-- A run of n steps is safe: no step of it ends in a fault or a refusal. -/
def SafeRun (n : Nat) (s : State) : Prop := ∃ t, Host.Core.run Sys2Proof.core n s = .next t

/-- Memory is in canonical form: its addresses rise strictly, and it lists no byte that an unlisted address reads as
(log 2 DESIGN CHOICE). -/
def Canonical (s : State) : Prop := s.mem.wf = true

/-! ## Passing -/

/-- A part of an instruction passes in state s: it traps, stalls and ends nothing, yields a and leaves state t. -/
def Gives {α : Type} (m : M α) (s : State) (a : α) (t : State) : Prop := m s = .ok (a, t)

/-- An instruction completes in a state. -/
def Ends (i : Instr) (s t : State) : Prop := exec i s = .next t

/-! ## The states that a completed instruction leaves (R18, R19, R175) -/

/-- The instruction took its words from the ports it read, and retired. -/
def State.done (s : State) (srcs : List SReg) : State :=
  let s := s.setCore (s.core.dequeue srcs)
  s.setCore s.core.retired

/-- The same, with a scalar result: in a register, or enqueued on a port. -/
def State.withS (s : State) (rd : SReg) (srcs : List SReg) (w : Word) : State :=
  let s := (s.setCore (s.core.dequeue srcs)).putS rd w
  s.setCore s.core.retired

/-- The same, with a vector result. -/
def State.withV (s : State) (rd : VReg) (srcs : List SReg) (x : VWord) : State :=
  let s := s.setCore ((s.core.dequeue srcs).setV rd x)
  s.setCore s.core.retired

/-- The same, with a predicate. -/
def State.withP (s : State) (rd : PReg) (srcs : List SReg) (x : PWord) : State :=
  let s := s.setCore ((s.core.dequeue srcs).setP rd x)
  s.setCore s.core.retired

/-- The same, with a block. -/
def State.withG (s : State) (rd : GReg) (srcs : List SReg) (xs : List VWord) : State :=
  let s := s.setCore ((s.core.dequeue srcs).setG rd xs)
  s.setCore s.core.retired

/-- The same, with a result under a lookahead field (R19). -/
def State.withR (s : State) (r : RegVal) (la : BitVec 4) (srcs : List SReg) : State :=
  let s := s.setCore (s.core.dequeue srcs)
  s.setCore (s.core.result r la).retired

/-- The same, with a scalar result under a lookahead field: s0 takes none, and a port takes it at once (R13, R20). -/
def State.withL (s : State) (rd : SReg) (la : BitVec 4) (srcs : List SReg) (w : Word) : State :=
  match portOf rd with
  | none => if rd = 0 then s.done srcs else s.withR (.s rd w) la srcs
  | some _ => s.withS rd srcs w

/-- The sticky flags with more set (R167). -/
def State.flagged (s : State) (fl : FFlags) : State := s.setCore { s.core with fflags := s.core.fflags ||| fl }

/-- Control went to an address, behind the words taken from ports: a br, jmp or jx.jr that is taken (R183, R184). -/
def State.wentTo (s : State) (srcs : List SReg) (target : BitVec 52) : State :=
  s.setCore (((s.core.dequeue srcs).leaving target).jumped target)

/-- The core waits at its instruction (log 5 DESIGN CHOICE). -/
def State.waits (s : State) : State := s.setCore { s.core with stalled := true }

/-- A matrix command entered its core's queue, and its instruction retired: the fetch of each paged line and the command's
execution are in progress, and a tile result under a lookahead field is pending (R210). -/
def State.queued (s : State) (op : MxOp) (mask : BitVec 32) (lines : List (Nat × Place)) (dest : Option TReg) (la : BitVec 4)
    (srcs : List SReg) : State :=
  let id := s.core.mx.next
  let k : MxCmd := { id := id, op := op, la := la.toNat, mask := mask, lines := lines }
  let paged := (lines.filter fun l => window l.1 < 0xE).length
  let c := { s.core with mx := { s.core.mx with queue := s.core.mx.queue ++ [k], next := id + 1 } }.dequeue srcs
  let c := match dest with
    | none => c
    | some t => if la = 0 then c else c.result (.t t id) la
  let s := { s with flight := s.flight ++ List.replicate paged (Instr.tileFetchLine s.cur) ++ [Instr.matrixCommandExecute s.cur] }
  s.setCore c.retired

/-- A matrix command whose checks have passed enters the queue; a full queue makes it wait. An atomic held to one of its lines
makes the activation irrevocable first (R210, R250). -/
def entersQueue (i : Instr) (s u : State) (op : MxOp) (mask : BitVec 32) (lines : List (Nat × Place)) (dest : Option TReg)
    (la : BitVec 4) (srcs : List SReg) : Prop :=
  ∀ v, (if lines.any (fun l => heldAtomic u.core.cbuf l.2) then Gives becomeIrrevocable u () v else v = u) →
    (mxWaiting v.core.mx.queue < 2 → Ends i s (v.queued op mask lines dest la srcs)) ∧
    (2 ≤ mxWaiting v.core.mx.queue → Ends i s v.waits)

/-- A copy command whose checks have passed: a get of a revocable activation is kicked at once with the held stores, every
other command is gated; the instruction retires (Table 7.2, R145). -/
def issuesCopy (i : Instr) (s t : State) (k : CopyCmd) (srcs : List SReg) : Prop :=
  let k := { k with ctx := t.ctxNo, act := t.core.seq.toNat }
  let atOnce := (k.op = 0 ∨ k.op = 2) ∧ t.core.rev = true
  (atOnce → ∀ v, t.kick t.cur { k with fwd := heldStores t.core } = some v → Ends i s (v.done srcs)) ∧
  (¬atOnce → ∀ v, Gives (gate (.copy k)) t () v → Ends i s (v.done srcs))

/-- The end of a vector instruction: with no raised flag enabled, the flags are set, the result is written and the
instruction retires; with one enabled, the flags are set, no register changes and trap 0x09 is taken with the raised
flags (R168). -/
def flagEnd (i : Instr) (s t : State) (fl : FFlags) (done : State → State) : Prop :=
  (fl &&& t.core.enabled = 0 → Ends i s (done (t.flagged fl))) ∧
  (fl &&& t.core.enabled ≠ 0 →
    Ends i s ((t.flagged fl).takeTrap t.cur 0x09 t.core.pc (fl.setWidth 64)))

/-! ## Operands as read (R10, R14) -/

/-- The first scalar source. -/
def State.a (s : State) (sa : Src) : Word := (s.core.takeSrc sa).1
/-- The second scalar source, after the first has taken its word. -/
def State.b (s : State) (sa sb : Src) : Word := ((s.core.takeSrc sa).2.takeSrc sb).1
/-- The first source of a vector group. -/
def State.va (s : State) (sa : VSrc) : Opnd := (s.core.takeV sa).1
/-- The second source of a vector group. -/
def State.vb (s : State) (sa sb : VSrc) : Opnd := ((s.core.takeV sa).2.takeV sb).1
/-- A scalar register as an instruction reads it. -/
def State.r1 (s : State) (n : SReg) : Word := (s.core.takeS n).1
/-- A second scalar register. -/
def State.r2 (s : State) (n m : SReg) : Word := ((s.core.takeS n).2.takeS m).1
/-- A third scalar register. -/
def State.r3 (s : State) (n m k : SReg) : Word := (((s.core.takeS n).2.takeS m).2.takeS k).1

/-- The address of an L-format access: rb[51:0] plus the offset times the size of the access (R247). -/
def lAddr (p : Word) (off : BitVec 6) (size : Nat) : Int := (p.toNat % 2 ^ 52 : Nat) + off.toInt * size

/-- An address of 52 bits. -/
def inSpace (a : Int) : Prop := 0 ≤ a ∧ a < 2 ^ 52

/-- The bytes of an L-format load, behind every check of it. -/
def loadAccess (d : Option SReg) (rb : SReg) (off : BitVec 6) (size : Nat) : M (List Byte) := do
  openPorts d [rb]
  let c ← core
  let va ← addrL (c.takeS rb).1 off size
  let pl ← resolve va size .read
  loadBytes va pl size

/-! ## What stays (frames) -/

/-- Every byte of memory outside n bytes from an address reads as before. -/
def SameOutside (s t : State) (a n : Nat) : Prop := ∀ b, b < a ∨ a + n ≤ b → t.mem.read b = s.mem.read b

/-- Every byte of memory reads as before. -/
def SameMemory (s t : State) : Prop := ∀ b, t.mem.read b = s.mem.read b

/-- A register is named by no open window: no earlier result is about to reach it (R19). -/
def Unnamed (s : State) (cls n : Nat) : Prop := ∀ p ∈ s.core.pend, (cls, n) ∉ p.val.regs

/-- The system registers that every retirement may change: lc, ls and le, by the end of an iteration (R188). -/
def loopRegs : List Nat := [0x030, 0x031, 0x032]

/-- The registers that stay: the scalar, vector and predicate registers other than those listed and those whose window
closes, the constant bank, and the system registers other than those listed and the loop registers. -/
structure Keeps (s t : State) (sd : List SReg) (vd : List VReg) (pd : List PReg) (sys : List Nat) : Prop where
  scalars : ∀ n, n ∉ sd → Unnamed s 0 n.toNat → t.core.getS n = s.core.getS n
  vectors : ∀ n, n ∉ vd → Unnamed s 1 n.toNat → Unnamed s 2 (n.toNat / 8) → t.core.getV n = s.core.getV n
  preds : ∀ n, n ∉ pd → t.core.getP n = s.core.getP n
  consts : ∀ n, t.core.getK n = s.core.getK n
  system : ∀ n, n ∉ sys → n ∉ loopRegs → sysRead t n = sysRead s n

/-- A core is another one but for its registers, sticky flags and loop registers, its pc and its count of instructions, the results
pending in windows, the matrix engine, and the marks of an instruction that waits: so its commit buffer, its queue FIFOs, its inbox,
its outstanding atomics and chain stores, its copy engine, its trap registers and its trigger are the same. -/
def SameRest (c d : Core) : Prop :=
  d = { c with s := d.s, v := d.v, p := d.p, fflags := d.fflags, lp := d.lp, pc := d.pc, icount := d.icount, pend := d.pend,
               mx := d.mx, stalled := false, hostGot := [] }

/-- What an instruction on registers leaves unchanged: the registers that it does not write, every byte of memory, everything but
the current core, and of that core all that SameRest names; its tiles and matrix commands too, where no tile result is pending. -/
structure Frame (s t : State) (sd : List SReg) (vd : List VReg) (pd : List PReg) (sys : List Nat) : Prop where
  registers : Keeps s t sd vd pd sys
  memory : SameMemory s t
  others : ∃ x, t = s.setCore x
  rest : SameRest s.core t.core
  tiles : (∀ n, Unnamed s 3 n) → t.core.mx = s.core.mx

/-! ## The lanes of a vector memory instruction (R260 to R262) -/

/-- The active lanes from vprog on, in ascending order. -/
def activeLanes (c : Core) : List (Fin 16) :=
  (List.finRange 16).filter fun i => decide (c.vprog.toNat % 16 ≤ i.val) && (c.getP 0).getLsbD i.val

/-- The address of a lane: rb[51:0] plus four times the index of the lane. -/
def laneAddr (p : Word) (idx : VWord) (i : Fin 16) : Int := (p.toNat % 2 ^ 52 : Nat) + (idx[i]).toInt * 4

/-- One lane: vprog names it, its address lies in 52 bits and passes its checks, and it is done. -/
def laneStep (acc : Acc) (p : Word) (idx : VWord) (f : Fin 16 → Nat → Place → State → State → Prop) (i : Fin 16) (s u : State) :
    Prop :=
  let a := laneAddr p idx i
  let s := s.setCore { s.core with vprog := BitVec.ofNat 11 i.val }
  inSpace a ∧ ∃ pl w, Gives (if acc = .atomic then resolveAtomic a.toNat 4 acc else resolve a.toNat 4 acc) s pl w ∧ f i a.toNat pl w u

/-- Lanes one after another. -/
def lanesRun (step : Fin 16 → State → State → Prop) (is : List (Fin 16)) (s u : State) : Prop :=
  match is with
  | [] => u = s
  | i :: rest => ∃ w, step i s w ∧ lanesRun step rest w u

/-- A lane of vg.gat: the word at its place enters the lane. -/
def gatherLane (ra : VReg) (i : Fin 16) (va : Nat) (pl : Place) (w u : State) : Prop :=
  ∃ bs z, Gives (loadBytes va pl 4) w bs z ∧
    u = z.setCore (z.core.setV ra ((z.core.getV ra).set i.val (BitVec.ofNat 32 (ofBytes bs)) i.isLt))

/-- A lane of vg.sca: the word of the lane goes to the gate. -/
def scatterLane (ra : VReg) (i : Fin 16) (va : Nat) (pl : Place) (w u : State) : Prop :=
  Gives (storeGated va pl (numbered (toBytes 4 ((w.core.getV ra)[i]).toNat)) false) w () u

/-- A lane of a vector atomic: its request, of a function on a word and without a destination, goes to the gate. -/
def atomicLane (fn : Nat) (ra : VReg) (i : Fin 16) (va : Nat) (pl : Place) (w u : State) : Prop :=
  Gives (gate (.atomic pl (atomReq w fn 4 va pl (((w.core.getV ra)[i]).setWidth 64) 0 0 0))) w () u

/-- A core that performs or holds the stores of one instruction as a group (R262). -/
def State.inGroup (s : State) : State := s.setCore { s.core with group := some s.core.chainOut.length }

/-- The items of a core's buffer with one more: merged into the youngest where that is possible, else behind it (R296). -/
def heldWith (buf : List Gated) (g : Gated) : List Gated := (mergeStore buf g).getD (buf ++ [g])

/-- The active lanes of an instruction of a core lie in its own local store by window 0xE, aligned, and nothing of the core stands in
the way of an access there: it runs an activation of a context that is no sprinkle, no atomic is outstanding, and its store is not
being moved. -/
def lanesLocal (s : State) (p : Word) (idx : VWord) : Prop :=
  s.core.ctx.isSome = true ∧ s.core.trig.kind ≠ 1 ∧ s.core.outst = [] ∧ s.core.ret = none ∧ s.cur < 4096 ∧
  moving s s.cur = false ∧
  ∀ i ∈ activeLanes s.core, inSpace (laneAddr p idx i) ∧ (laneAddr p idx i).toNat / 2 ^ 18 = 0xE * 2 ^ 30 ∧
    (laneAddr p idx i).toNat % 4 = 0

/-- The place of a lane in the own local store. -/
def lanePlace (s : State) (p : Word) (idx : VWord) (i : Fin 16) : Place := .mem (lsPa s s.cur ((laneAddr p idx i).toNat % 2 ^ 18))

/-! ## The forms of the register groups -/

/-- The scalar register that a scalar instruction writes, and the scalar registers that it reads: sa, sb, sw, si, li and
pr to a scalar. -/
def scalarForm (i : Instr) : Option (SReg × List SReg) :=
  match i with
  | .saAdd rd sa sb => some (rd, srcNames sa ++ srcNames sb)
  | .saSub rd sa sb => some (rd, srcNames sa ++ srcNames sb)
  | .saMul rd sa sb => some (rd, srcNames sa ++ srcNames sb)
  | .saMulh rd sa sb => some (rd, srcNames sa ++ srcNames sb)
  | .saMulhn rd sa sb => some (rd, srcNames sa ++ srcNames sb)
  | .saDiv rd sa sb => some (rd, srcNames sa ++ srcNames sb)
  | .saDivn rd sa sb => some (rd, srcNames sa ++ srcNames sb)
  | .saRem rd sa sb => some (rd, srcNames sa ++ srcNames sb)
  | .saRemn rd sa sb => some (rd, srcNames sa ++ srcNames sb)
  | .saMin rd sa sb => some (rd, srcNames sa ++ srcNames sb)
  | .saMax rd sa sb => some (rd, srcNames sa ++ srcNames sb)
  | .saMinn rd sa sb => some (rd, srcNames sa ++ srcNames sb)
  | .saMaxn rd sa sb => some (rd, srcNames sa ++ srcNames sb)
  | .saPadd rd sa sb => some (rd, srcNames sa ++ srcNames sb)
  | .saAbs rd sa => some (rd, srcNames sa)
  | .saNeg rd sa => some (rd, srcNames sa)
  | .sbAnd rd sa sb => some (rd, srcNames sa ++ srcNames sb)
  | .sbOr rd sa sb => some (rd, srcNames sa ++ srcNames sb)
  | .sbXor rd sa sb => some (rd, srcNames sa ++ srcNames sb)
  | .sbAndn rd sa sb => some (rd, srcNames sa ++ srcNames sb)
  | .sbShl rd sa sb => some (rd, srcNames sa ++ srcNames sb)
  | .sbShr rd sa sb => some (rd, srcNames sa ++ srcNames sb)
  | .sbSra rd sa sb => some (rd, srcNames sa ++ srcNames sb)
  | .sbRot rd sa sb => some (rd, srcNames sa ++ srcNames sb)
  | .sbClz rd sa => some (rd, srcNames sa)
  | .sbCtz rd sa => some (rd, srcNames sa)
  | .sbPop rd sa => some (rd, srcNames sa)
  | .sbSeq rd sa sb => some (rd, srcNames sa ++ srcNames sb)
  | .sbSne rd sa sb => some (rd, srcNames sa ++ srcNames sb)
  | .sbSlt rd sa sb => some (rd, srcNames sa ++ srcNames sb)
  | .sbSltn rd sa sb => some (rd, srcNames sa ++ srcNames sb)
  | .sbSel rd sa sb => some (rd, srcNames sa ++ srcNames sb ++ [rd])
  | .swAdd rd sa sb => some (rd, srcNames sa ++ srcNames sb)
  | .swSub rd sa sb => some (rd, srcNames sa ++ srcNames sb)
  | .swMul rd sa sb => some (rd, srcNames sa ++ srcNames sb)
  | .swDiv rd sa sb => some (rd, srcNames sa ++ srcNames sb)
  | .swDivn rd sa sb => some (rd, srcNames sa ++ srcNames sb)
  | .swRem rd sa sb => some (rd, srcNames sa ++ srcNames sb)
  | .swRemn rd sa sb => some (rd, srcNames sa ++ srcNames sb)
  | .swShl rd sa sb => some (rd, srcNames sa ++ srcNames sb)
  | .swShr rd sa sb => some (rd, srcNames sa ++ srcNames sb)
  | .swSra rd sa sb => some (rd, srcNames sa ++ srcNames sb)
  | .swMin rd sa sb => some (rd, srcNames sa ++ srcNames sb)
  | .swMax rd sa sb => some (rd, srcNames sa ++ srcNames sb)
  | .siAdd rd rs _ => some (rd, [rs])
  | .siAnd rd rs _ => some (rd, [rs])
  | .siOr rd rs _ => some (rd, [rs])
  | .siXor rd rs _ => some (rd, [rs])
  | .siShl rd rs _ => some (rd, [rs])
  | .siShr rd rs _ => some (rd, [rs])
  | .siSra rd rs _ => some (rd, [rs])
  | .siRot rd rs _ => some (rd, [rs])
  | .siSlt rd rs _ => some (rd, [rs])
  | .liHi rd _ => some (rd, [])
  | .liTop rd _ => some (rd, [rd])
  | .prGet rd _ => some (rd, [])
  | .prCnt rd _ => some (rd, [])
  | .prFirst rd _ => some (rd, [])
  | _ => none

/-- What a vector instruction writes and reads: the scalar, vector and predicate destinations, and the scalar registers
among its sources (va, vi, vc, vx, vr). -/
def vectorForm (i : Instr) : Option (List SReg × List VReg × List PReg × List SReg) :=
  match i with
  | .vaFadd rd sa sb => some ([], [rd], [], vsrcNames sa ++ vsrcNames sb)
  | .vaFsub rd sa sb => some ([], [rd], [], vsrcNames sa ++ vsrcNames sb)
  | .vaFmul rd sa sb => some ([], [rd], [], vsrcNames sa ++ vsrcNames sb)
  | .vaFma rd sa sb => some ([], [rd], [], vsrcNames sa ++ vsrcNames sb)
  | .vaFms rd sa sb => some ([], [rd], [], vsrcNames sa ++ vsrcNames sb)
  | .vaFmin rd sa sb => some ([], [rd], [], vsrcNames sa ++ vsrcNames sb)
  | .vaFmax rd sa sb => some ([], [rd], [], vsrcNames sa ++ vsrcNames sb)
  | .vaFabs rd sa => some ([], [rd], [], vsrcNames sa)
  | .vaFneg rd sa => some ([], [rd], [], vsrcNames sa)
  | .vaFrcp rd sa => some ([], [rd], [], vsrcNames sa)
  | .vaFrsq rd sa => some ([], [rd], [], vsrcNames sa)
  | .vaFsqrt rd sa => some ([], [rd], [], vsrcNames sa)
  | .vaFdiv rd sa sb => some ([], [rd], [], vsrcNames sa ++ vsrcNames sb)
  | .viAdd rd sa sb => some ([], [rd], [], vsrcNames sa ++ vsrcNames sb)
  | .viSub rd sa sb => some ([], [rd], [], vsrcNames sa ++ vsrcNames sb)
  | .viMul rd sa sb => some ([], [rd], [], vsrcNames sa ++ vsrcNames sb)
  | .viMulh rd sa sb => some ([], [rd], [], vsrcNames sa ++ vsrcNames sb)
  | .viAnd rd sa sb => some ([], [rd], [], vsrcNames sa ++ vsrcNames sb)
  | .viOr rd sa sb => some ([], [rd], [], vsrcNames sa ++ vsrcNames sb)
  | .viXor rd sa sb => some ([], [rd], [], vsrcNames sa ++ vsrcNames sb)
  | .viShl rd sa sb => some ([], [rd], [], vsrcNames sa ++ vsrcNames sb)
  | .viShr rd sa sb => some ([], [rd], [], vsrcNames sa ++ vsrcNames sb)
  | .viSra rd sa sb => some ([], [rd], [], vsrcNames sa ++ vsrcNames sb)
  | .viMin rd sa sb => some ([], [rd], [], vsrcNames sa ++ vsrcNames sb)
  | .viMax rd sa sb => some ([], [rd], [], vsrcNames sa ++ vsrcNames sb)
  | .viMinn rd sa sb => some ([], [rd], [], vsrcNames sa ++ vsrcNames sb)
  | .viMaxn rd sa sb => some ([], [rd], [], vsrcNames sa ++ vsrcNames sb)
  | .vcFeq rd sa sb => some ([], [], [rd], vsrcNames sa ++ vsrcNames sb)
  | .vcFne rd sa sb => some ([], [], [rd], vsrcNames sa ++ vsrcNames sb)
  | .vcFlt rd sa sb => some ([], [], [rd], vsrcNames sa ++ vsrcNames sb)
  | .vcFle rd sa sb => some ([], [], [rd], vsrcNames sa ++ vsrcNames sb)
  | .vcFun rd sa sb => some ([], [], [rd], vsrcNames sa ++ vsrcNames sb)
  | .vcIeq rd sa sb => some ([], [], [rd], vsrcNames sa ++ vsrcNames sb)
  | .vcIlt rd sa sb => some ([], [], [rd], vsrcNames sa ++ vsrcNames sb)
  | .vcIltn rd sa sb => some ([], [], [rd], vsrcNames sa ++ vsrcNames sb)
  | .vxBcast rd sa sb => some ([], [rd], [], vsrcNames sa ++ vsrcNames sb)
  | .vxExtr rd sa sb => some ([], [rd], [], vsrcNames sa ++ vsrcNames sb)
  | .vxIns rd sa sb => some ([], [rd], [], vsrcNames sa ++ vsrcNames sb)
  | .vxPerm rd sa sb => some ([], [rd], [], vsrcNames sa ++ vsrcNames sb)
  | .vxSel rd sa sb => some ([], [rd], [], vsrcNames sa ++ vsrcNames sb)
  | .vxIota rd sa sb => some ([], [rd], [], vsrcNames sa ++ vsrcNames sb)
  | .vxCvtif rd sa sb => some ([], [rd], [], vsrcNames sa ++ vsrcNames sb)
  | .vxCvtfi rd sa sb => some ([], [rd], [], vsrcNames sa ++ vsrcNames sb)
  | .vxCvtbh rd sa sb => some ([], [rd], [], vsrcNames sa ++ vsrcNames sb)
  | .vxCvthb rd sa sb => some ([], [rd], [], vsrcNames sa ++ vsrcNames sb)
  | .vxCvtfh rd sa sb => some ([], [rd], [], vsrcNames sa ++ vsrcNames sb)
  | .vxCvthf rd sa sb => some ([], [rd], [], vsrcNames sa ++ vsrcNames sb)
  | .vxCvt8 rd sa sb => some ([], [rd], [], vsrcNames sa ++ vsrcNames sb)
  | .vxCvtq8 rd sa sb => some ([], [rd], [], vsrcNames sa ++ vsrcNames sb)
  | .vxCvt4 rd sa sb => some ([], [rd], [], vsrcNames sa ++ vsrcNames sb)
  | .vxCvtq4 rd sa sb => some ([], [rd], [], vsrcNames sa ++ vsrcNames sb)
  | .vrFsum rd sa sb => some ([rd], [], [], vsrcNames sa ++ vsrcNames sb)
  | .vrFmax rd sa sb => some ([rd], [], [], vsrcNames sa ++ vsrcNames sb)
  | .vrFmin rd sa sb => some ([rd], [], [], vsrcNames sa ++ vsrcNames sb)
  | .vrIsum rd sa sb => some ([rd], [], [], vsrcNames sa ++ vsrcNames sb)
  | .vrImax rd sa sb => some ([rd], [], [], vsrcNames sa ++ vsrcNames sb)
  | .vrImin rd sa sb => some ([rd], [], [], vsrcNames sa ++ vsrcNames sb)
  | .vrAnd rd sa sb => some ([rd], [], [], vsrcNames sa ++ vsrcNames sb)
  | .vrOr rd sa sb => some ([rd], [], [], vsrcNames sa ++ vsrcNames sb)
  | _ => none

/-! ## Scalar atomics (Table 12.4) -/

/-- The function, the width in bytes and the operands of a scalar atomic. -/
def atomicForm (i : Instr) : Option (Nat × Nat × BitVec 4 × SReg × SReg × SReg) :=
  match i with
  | .atAdd la ra rb rc => some (0, 8, la, ra, rb, rc)
  | .atAddcb la ra rb rc => some (1, 8, la, ra, rb, rc)
  | .atAnd la ra rb rc => some (2, 8, la, ra, rb, rc)
  | .atOr la ra rb rc => some (3, 8, la, ra, rb, rc)
  | .atXor la ra rb rc => some (4, 8, la, ra, rb, rc)
  | .atMin la ra rb rc => some (5, 8, la, ra, rb, rc)
  | .atMax la ra rb rc => some (6, 8, la, ra, rb, rc)
  | .atMinn la ra rb rc => some (7, 8, la, ra, rb, rc)
  | .atMaxn la ra rb rc => some (8, 8, la, ra, rb, rc)
  | .atSwp la ra rb rc => some (9, 8, la, ra, rb, rc)
  | .atCas la ra rb rc => some (10, 8, la, ra, rb, rc)
  | .atFadd la ra rb rc => some (11, 8, la, ra, rb, rc)
  | .atRed la ra rb rc => some (12, 8, la, ra, rb, rc)
  | .atwAdd la ra rb rc => some (0, 4, la, ra, rb, rc)
  | .atwAddcb la ra rb rc => some (1, 4, la, ra, rb, rc)
  | .atwAnd la ra rb rc => some (2, 4, la, ra, rb, rc)
  | .atwOr la ra rb rc => some (3, 4, la, ra, rb, rc)
  | .atwXor la ra rb rc => some (4, 4, la, ra, rb, rc)
  | .atwMin la ra rb rc => some (5, 4, la, ra, rb, rc)
  | .atwMax la ra rb rc => some (6, 4, la, ra, rb, rc)
  | .atwMinn la ra rb rc => some (7, 4, la, ra, rb, rc)
  | .atwMaxn la ra rb rc => some (8, 4, la, ra, rb, rc)
  | .atwSwp la ra rb rc => some (9, 4, la, ra, rb, rc)
  | .atwCas la ra rb rc => some (10, 4, la, ra, rb, rc)
  | .atwFadd la ra rb rc => some (11, 4, la, ra, rb, rc)
  | .atwRed la ra rb rc => some (12, 4, la, ra, rb, rc)
  | _ => none

end Sys2Proof.Machine
end

