-- ==== Sys2Proof/Certificates/Slice0/Obligations.lean ====
section
/-!
DEFINITION. The statements for the provers: what the spec's numbered rules say of instructions, of exceptions, of steps of
the device, and of the machine. Gives says that a part of an instruction passes its checks, Ends that an instruction
answers a next state (Safety.lean).
-/
open Sys2Proof Sys2Proof.Machine

/-! ## Scalar instructions (chapter 09) -/

/-- R177: sa on two sources, at INT64 and modulo 2^64; mulh and mulhn are the high halves of the products, and abs of the
most negative value is that value. -/
def Obligations.ScalarArithmetic : Prop :=
  ∀ (s t : State) (rd : SReg) (sa sb : Src),
    (Gives (openPorts (some rd) (srcNames sa ++ srcNames sb)) s () t →
      let srcs := srcNames sa ++ srcNames sb
      let a := t.a sa
      let b := t.b sa sb
      Ends (.saAdd rd sa sb) s (t.withS rd srcs (a + b)) ∧
      Ends (.saSub rd sa sb) s (t.withS rd srcs (a - b)) ∧
      Ends (.saMul rd sa sb) s (t.withS rd srcs (a * b)) ∧
      Ends (.saMulh rd sa sb) s (t.withS rd srcs (BitVec.ofInt 64 (a.toInt * b.toInt / 2 ^ 64))) ∧
      Ends (.saMulhn rd sa sb) s (t.withS rd srcs (BitVec.ofNat 64 (a.toNat * b.toNat / 2 ^ 64))) ∧
      Ends (.saMin rd sa sb) s (t.withS rd srcs (if a.toInt < b.toInt then a else b)) ∧
      Ends (.saMax rd sa sb) s (t.withS rd srcs (if a.toInt < b.toInt then b else a)) ∧
      Ends (.saMinn rd sa sb) s (t.withS rd srcs (if a.toNat < b.toNat then a else b)) ∧
      Ends (.saMaxn rd sa sb) s (t.withS rd srcs (if a.toNat < b.toNat then b else a))) ∧
    (Gives (openPorts (some rd) (srcNames sa)) s () t →
      Ends (.saAbs rd sa) s (t.withS rd (srcNames sa) (BitVec.ofInt 64 |(t.a sa).toInt|)) ∧
      Ends (.saNeg rd sa) s (t.withS rd (srcNames sa) (0 - t.a sa)))

/-- R178: signed division truncates toward zero and the remainder has the sign of the dividend; a divisor of zero takes trap
0x08 with the dividend, sign-extended from its low word for sw. -/
def Obligations.ScalarDivision : Prop :=
  ∀ (s t : State) (rd : SReg) (sa sb : Src), Gives (openPorts (some rd) (srcNames sa ++ srcNames sb)) s () t →
    let srcs := srcNames sa ++ srcNames sb
    let a := t.a sa
    let b := t.b sa sb
    let x := a.setWidth 32
    let y := b.setWidth 32
    (b ≠ 0 →
      Ends (.saDiv rd sa sb) s (t.withS rd srcs (BitVec.ofInt 64 (a.toInt.tdiv b.toInt))) ∧
      Ends (.saRem rd sa sb) s (t.withS rd srcs (BitVec.ofInt 64 (a.toInt.tmod b.toInt))) ∧
      Ends (.saDivn rd sa sb) s (t.withS rd srcs (BitVec.ofNat 64 (a.toNat / b.toNat))) ∧
      Ends (.saRemn rd sa sb) s (t.withS rd srcs (BitVec.ofNat 64 (a.toNat % b.toNat)))) ∧
    (y ≠ 0 →
      Ends (.swDiv rd sa sb) s (t.withS rd srcs ((BitVec.ofInt 32 (x.toInt.tdiv y.toInt)).signExtend 64)) ∧
      Ends (.swRem rd sa sb) s (t.withS rd srcs ((BitVec.ofInt 32 (x.toInt.tmod y.toInt)).signExtend 64)) ∧
      Ends (.swDivn rd sa sb) s (t.withS rd srcs ((BitVec.ofNat 32 (x.toNat / y.toNat)).signExtend 64)) ∧
      Ends (.swRemn rd sa sb) s (t.withS rd srcs ((BitVec.ofNat 32 (x.toNat % y.toNat)).signExtend 64))) ∧
    (b = 0 → ∀ i ∈ [Instr.saDiv rd sa sb, .saRem rd sa sb, .saDivn rd sa sb, .saRemn rd sa sb],
      Ends i s (t.takeTrap t.cur 0x08 t.core.pc a)) ∧
    (y = 0 → ∀ i ∈ [Instr.swDiv rd sa sb, .swRem rd sa sb, .swDivn rd sa sb, .swRemn rd sa sb],
      Ends i s (t.takeTrap t.cur 0x08 t.core.pc (x.signExtend 64)))

/-- R179 and R64: sb on two sources with shifts by B[5:0], the counts of clz, ctz and pop, and the choice of sb.sel by the
old destination; sa.padd adds an offset to the address of a fat pointer, keeps bits [63:52], and takes trap 0x07 with the
pointer where the sum leaves 52 bits. -/
def Obligations.ScalarLogic : Prop :=
  ∀ (s t : State) (rd : SReg) (sa sb : Src),
    (Gives (openPorts (some rd) (srcNames sa ++ srcNames sb)) s () t →
      let srcs := srcNames sa ++ srcNames sb
      let a := t.a sa
      let b := t.b sa sb
      let k := b.toNat % 64
      let sum : Int := (a.toNat % 2 ^ 52 : Nat) + b.toInt
      Ends (.sbAnd rd sa sb) s (t.withS rd srcs (a &&& b)) ∧
      Ends (.sbOr rd sa sb) s (t.withS rd srcs (a ||| b)) ∧
      Ends (.sbXor rd sa sb) s (t.withS rd srcs (a ^^^ b)) ∧
      Ends (.sbAndn rd sa sb) s (t.withS rd srcs (a &&& ~~~b)) ∧
      Ends (.sbShl rd sa sb) s (t.withS rd srcs (BitVec.ofNat 64 (a.toNat * 2 ^ k))) ∧
      Ends (.sbShr rd sa sb) s (t.withS rd srcs (BitVec.ofNat 64 (a.toNat / 2 ^ k))) ∧
      Ends (.sbSra rd sa sb) s (t.withS rd srcs (BitVec.ofInt 64 (a.toInt / 2 ^ k))) ∧
      Ends (.sbRot rd sa sb) s (t.withS rd srcs (a >>> k ||| a <<< (64 - k))) ∧
      Ends (.sbSeq rd sa sb) s (t.withS rd srcs (if a = b then 1 else 0)) ∧
      Ends (.sbSne rd sa sb) s (t.withS rd srcs (if a = b then 0 else 1)) ∧
      Ends (.sbSlt rd sa sb) s (t.withS rd srcs (if a.toInt < b.toInt then 1 else 0)) ∧
      Ends (.sbSltn rd sa sb) s (t.withS rd srcs (if a.toNat < b.toNat then 1 else 0)) ∧
      (0 ≤ sum → sum < 2 ^ 52 →
        Ends (.saPadd rd sa sb) s (t.withS rd srcs (BitVec.ofNat 64 (a.toNat / 2 ^ 52 * 2 ^ 52 + sum.toNat)))) ∧
      (sum < 0 ∨ 2 ^ 52 ≤ sum → Ends (.saPadd rd sa sb) s (t.takeTrap t.cur 0x07 t.core.pc a))) ∧
    (Gives (openPorts (some rd) (srcNames sa)) s () t →
      let a := t.a sa
      (∀ k ≤ 64, a.toNat < 2 ^ (64 - k) → (k < 64 → 2 ^ (63 - k) ≤ a.toNat) →
        Ends (.sbClz rd sa) s (t.withS rd (srcNames sa) (BitVec.ofNat 64 k))) ∧
      (∀ k ≤ 64, (∀ j < k, a.getLsbD j = false) → (k < 64 → a.getLsbD k = true) →
        Ends (.sbCtz rd sa) s (t.withS rd (srcNames sa) (BitVec.ofNat 64 k))) ∧
      Ends (.sbPop rd sa) s (t.withS rd (srcNames sa) (BitVec.ofNat 64 ((List.range 64).countP a.getLsbD)))) ∧
    (Gives (openPorts (some rd) (srcNames sa ++ srcNames sb ++ [rd])) s () t →
      let old := ((((t.core.takeSrc sa).2.takeSrc sb).2.takeS rd)).1
      Ends (.sbSel rd sa sb) s
        (t.withS rd (srcNames sa ++ srcNames sb ++ [rd]) (if old = 0 then t.b sa sb else t.a sa)))

/-- R180: sw computes on the low words, with shifts by B[4:0], and sign-extends its result. R181 and R182: si on a register
and a sign-extended immediate or an amount, and li. -/
def Obligations.ScalarWordsAndImmediates : Prop :=
  (∀ (s t : State) (rd : SReg) (sa sb : Src), Gives (openPorts (some rd) (srcNames sa ++ srcNames sb)) s () t →
     let x := (t.a sa).setWidth 32
     let y := (t.b sa sb).setWidth 32
     let k := y.toNat % 32
     let done := fun (r : Lane) => t.withS rd (srcNames sa ++ srcNames sb) (r.signExtend 64)
     Ends (.swAdd rd sa sb) s (done (x + y)) ∧
     Ends (.swSub rd sa sb) s (done (x - y)) ∧
     Ends (.swMul rd sa sb) s (done (x * y)) ∧
     Ends (.swShl rd sa sb) s (done (BitVec.ofNat 32 (x.toNat * 2 ^ k))) ∧
     Ends (.swShr rd sa sb) s (done (BitVec.ofNat 32 (x.toNat / 2 ^ k))) ∧
     Ends (.swSra rd sa sb) s (done (BitVec.ofInt 32 (x.toInt / 2 ^ k))) ∧
     Ends (.swMin rd sa sb) s (done (if x.toInt < y.toInt then x else y)) ∧
     Ends (.swMax rd sa sb) s (done (if x.toInt < y.toInt then y else x))) ∧
  (∀ (s t : State) (rd rs : SReg) (imm : BitVec 14) (amt : BitVec 6) (top : BitVec 20),
     (Gives (openPorts (some rd) [rs]) s () t →
       let a := t.r1 rs
       let i := imm.signExtend 64
       Ends (.siAdd rd rs imm) s (t.withS rd [rs] (a + i)) ∧
       Ends (.siAnd rd rs imm) s (t.withS rd [rs] (a &&& i)) ∧
       Ends (.siOr rd rs imm) s (t.withS rd [rs] (a ||| i)) ∧
       Ends (.siXor rd rs imm) s (t.withS rd [rs] (a ^^^ i)) ∧
       Ends (.siShl rd rs amt) s (t.withS rd [rs] (BitVec.ofNat 64 (a.toNat * 2 ^ amt.toNat))) ∧
       Ends (.siShr rd rs amt) s (t.withS rd [rs] (BitVec.ofNat 64 (a.toNat / 2 ^ amt.toNat))) ∧
       Ends (.siSra rd rs amt) s (t.withS rd [rs] (BitVec.ofInt 64 (a.toInt / 2 ^ amt.toNat))) ∧
       Ends (.siRot rd rs amt) s (t.withS rd [rs] (a >>> amt.toNat ||| a <<< (64 - amt.toNat))) ∧
       Ends (.siSlt rd rs imm) s (t.withS rd [rs] (if a.toInt < imm.toInt then 1 else 0))) ∧
     (Gives (openPorts (some rd) []) s () t → Ends (.liHi rd top) s (t.withS rd [] (top.signExtend 64 * 0x4000))) ∧
     (Gives (openPorts (some rd) [rd]) s () t →
       Ends (.liTop rd top) s (t.withS rd [rd] (top ++ (t.r1 rd).extractLsb' 0 44))))

/-- A scalar instruction that names no port and retires changes its destination register and nothing else: no other
register, flag or system register but the loop registers of R188, no byte of memory, nothing outside its core, and of its core
neither commit buffer, queue FIFO, inbox, outstanding atomic nor tile. A write to s0 is discarded (R13). -/
def Obligations.ScalarFrame : Prop :=
  ∀ (i : Instr) (rd : SReg) (srcs : List SReg) (s t : State), scalarForm i = some (rd, srcs) → portsOf (rd :: srcs) = [] →
    exec i s = .next t → t.core.icount = s.core.icount + 1 → Frame s t (if rd = 0 then [] else [rd]) [] [] []

/-- A vector instruction that names no port and retires changes its destination register and the sticky flags, and nothing
else: no other register, no byte of memory, nothing outside its core, and of its core neither commit buffer, queue FIFO, inbox,
outstanding atomic nor tile. -/
def Obligations.VectorFrame : Prop :=
  ∀ (i : Instr) (sd : List SReg) (vd : List VReg) (pd : List PReg) (srcs : List SReg) (s t : State),
    vectorForm i = some (sd, vd, pd, srcs) → portsOf (sd ++ srcs) = [] → exec i s = .next t →
    t.core.icount = s.core.icount + 1 → Frame s t sd vd pd [0x021]

/-! ## Control flow (R183 to R188) -/

/-- R183: a br whose test holds goes to the address off words on from its own; one whose test fails goes on behind itself.
The register is compared with zero as INT64, the predicate as a whole. R184: jmp and call go to their offset, call and
jx.callr leave the address that follows in lr or rd, and jx goes to the address that its register held before; an address
with bits [1:0] set traps with cause 0x03 (R25). -/
def Obligations.BranchesAndJumps : Prop :=
  (∀ (s t : State) (n : SReg) (p : PReg) (off : BitVec 14),
     let target := fun (t : State) => t.core.pc + off.signExtend 52 * 4
     let go := fun (srcs : List SReg) (i : Instr) (test : Prop) =>
       (test → Ends i s (t.wentTo srcs (target t))) ∧ (¬test → Ends i s (t.done srcs))
     (Gives (openPorts none [n]) s () t →
       let x := (t.r1 n).toInt
       go [n] (.brEq n off) (x = 0) ∧ go [n] (.brNe n off) (x ≠ 0) ∧ go [n] (.brLt n off) (x < 0) ∧
       go [n] (.brGe n off) (0 ≤ x) ∧ go [n] (.brGt n off) (0 < x) ∧ go [n] (.brLe n off) (x ≤ 0)) ∧
     (t = s → go [] (.brAny p off) (s.core.getP p ≠ 0) ∧ go [] (.brNone p off) (s.core.getP p = 0) ∧
       Ends (.brAlways off) s (s.wentTo [] (target s)))) ∧
  (∀ (s t : State) (off : BitVec 26) (sa : Src) (rd : SReg),
     let here := s.core.pc + off.signExtend 52 * 4
     Ends (.jmp off) s (s.wentTo [] here) ∧
     Ends (.call off) s (s.setCore (((s.core.setS 61 ((s.core.pc + 4).setWidth 64)).deeper).jumped here)) ∧
     (Gives (openPorts none (srcNames sa)) s () t → (t.a sa).toNat % 4 = 0 →
       Ends (.jxJr sa) s (t.wentTo (srcNames sa) ((t.a sa).setWidth 52))) ∧
     (Gives (openPorts none (srcNames sa)) s () t → (t.a sa).toNat % 4 ≠ 0 →
       Ends (.jxJr sa) s (t.takeTrap t.cur 0x03 t.core.pc (t.a sa))) ∧
     (Gives (openPorts (some rd) (srcNames sa)) s () t → (t.a sa).toNat % 4 = 0 →
       let u := (t.setCore (t.core.dequeue (srcNames sa))).putS rd ((t.core.pc + 4).setWidth 64)
       Ends (.jxCallr rd sa) s (u.setCore (u.core.deeper.jumped ((t.a sa).setWidth 52)))) ∧
     ((s.core.getS 61).toNat % 4 = 0 →
       Ends .jxRet s (s.setCore (s.core.shallower.jumped ((s.core.getS 61).setWidth 52)))) ∧
     ((s.core.getS 61).toNat % 4 ≠ 0 → Ends .jxRet s (s.takeTrap s.cur 0x03 s.core.pc (s.core.getS 61))))

/-- R187: lp.do with no loop active and an end behind it starts a loop at the next instruction, with lc the count, the end
off words on, depth 0 and the level of the activation; a count of zero goes behind the end with no loop active. A nested
loop, or an end that is not behind, traps with cause 0x0A and the address of lp.do. R188: the instruction at le that retires
at the loop's level ends an iteration. With more than one left, lc falls by one and control goes to ls; with at most one, lc
is 0, the loop ends and control goes on. A pending count is taken first. At any other instruction lc and act stay and
control goes on. Shown of sys.nop. -/
def Obligations.HardwareLoops : Prop :=
  (∀ (s t : State) (n : SReg) (imm : BitVec 14), Gives (openPorts none [n]) s () t →
     let c := t.core.dequeue [n]
     let last := t.core.pc + imm.signExtend 52 * 4
     (t.core.lp.act = false → 0 < imm.toInt →
       ∃ u, Ends (.lpDo n imm) s u ∧ u = t.setCore u.core ∧
         u.core.lp.lc = t.r1 n ∧ u.core.lp.ls = (t.core.pc + 4).toNat / 4 * 4 ∧ u.core.lp.le = last.toNat / 4 * 4 ∧
         u.core.lp.act = (t.r1 n != 0) ∧ u.core.lp.pnd = false ∧ u.core.lp.depth = 0 ∧ u.core.lp.level = t.core.tlv.toNat ∧
         u.core.pc = (if t.r1 n = 0 then last + 4 else t.core.pc + 4) ∧ u.core.icount = t.core.icount + 1 ∧
         u.core.qin = c.qin) ∧
     (t.core.lp.act = true ∨ imm.toInt ≤ 0 → Ends (.lpDo n imm) s (t.takeTrap t.cur 0x0A t.core.pc (t.core.pc.setWidth 64)))) ∧
  (∀ s : State,
     let l := s.core.lp
     let n := if l.pnd then l.pending else l.lc
     let atEnd := l.act = true ∧ s.core.tlv.toNat = l.level ∧ l.depth = 0 ∧ s.core.pc.toNat = l.le
     ∃ t, Ends .sysNop s t ∧ t.core.icount = s.core.icount + 1 ∧
       (atEnd → 1 < n.toNat → t.core.pc = BitVec.ofNat 52 l.ls ∧ t.core.lp.lc = n - 1 ∧ t.core.lp.act = true) ∧
       (atEnd → n.toNat ≤ 1 → t.core.pc = s.core.pc + 4 ∧ t.core.lp.lc = 0 ∧ t.core.lp.act = false) ∧
       (¬atEnd → t.core.pc = s.core.pc + 4 ∧ t.core.lp = l))

/-! ## Predicates (R190) -/

/-- R190: pr on predicates and literals, to a predicate or to a scalar register. A literal is sign-extended to 16 bits, and of a
constant bits [15:0] are used. -/
def Obligations.Predicates : Prop :=
  ∀ (s t : State) (p : PReg) (rd : SReg) (x y : PSrc) (z : KSrc),
    let a := s.core.readP x
    let b := s.core.readP y
    (∀ v n k, s.core.readP (.lit v) = v.signExtend 16 ∧ s.core.readP (.pred n) = s.core.getP n ∧
      s.core.readK (.lit v) = v.signExtend 16 ∧ s.core.readK (.pred n) = s.core.getP n ∧
      s.core.readK (.const k) = (s.core.getK k).setWidth 16) ∧
    Ends (.prAnd p x y) s (s.withP p [] (a &&& b)) ∧ Ends (.prOr p x y) s (s.withP p [] (a ||| b)) ∧
    Ends (.prXor p x y) s (s.withP p [] (a ^^^ b)) ∧ Ends (.prNot p x) s (s.withP p [] (~~~a)) ∧
    Ends (.prSet p z) s (s.withP p [] (s.core.readK z)) ∧
    (Gives (openPorts (some rd) []) s () t →
      let a := t.core.readP x
      Ends (.prGet rd x) s (t.withS rd [] (a.setWidth 64)) ∧
      Ends (.prCnt rd x) s (t.withS rd [] (BitVec.ofNat 64 ((List.range 16).countP a.getLsbD))) ∧
      (∀ k < 16, a.getLsbD k = true → (∀ j < k, a.getLsbD j = false) → Ends (.prFirst rd x) s (t.withS rd [] (BitVec.ofNat 64 k))) ∧
      (a = 0 → Ends (.prFirst rd x) s (t.withS rd [] 16)))

/-! ## Vector instructions (R191 to R198) -/

/-- R192, R193, R168: the va group lane by lane, with literals as FP32 (R10); the flags are the union over the lanes, and an
enabled one traps with no register changed. -/
def Obligations.VectorFloat : Prop :=
  ∀ (s t : State) (rd : VReg) (sa sb : VSrc),
    (Gives (openPorts none (vsrcNames sa ++ vsrcNames sb)) s () t →
      let two := fun (i : Instr) (f : Lane → Lane → Lane → Lane × FFlags) =>
        let r := gather fun j => f ((t.va sa).floats[j]) ((t.vb sa sb).floats[j]) ((t.core.getV rd)[j])
        flagEnd i s t r.2 fun u => u.withV rd (vsrcNames sa ++ vsrcNames sb) r.1
      let rm := t.core.rm
      two (.vaFadd rd sa sb) (fun a b _ => fadd32 rm a b) ∧ two (.vaFsub rd sa sb) (fun a b _ => fsub32 rm a b) ∧
      two (.vaFmul rd sa sb) (fun a b _ => fmul32 rm a b) ∧ two (.vaFma rd sa sb) (fma32 rm) ∧
      two (.vaFms rd sa sb) (fms32 rm) ∧ two (.vaFmin rd sa sb) (fun a b _ => fmin32 a b) ∧
      two (.vaFmax rd sa sb) (fun a b _ => fmax32 a b) ∧ two (.vaFdiv rd sa sb) (fun a b _ => fdiv32 rm a b)) ∧
    (Gives (openPorts none (vsrcNames sa)) s () t →
      let one := fun (i : Instr) (f : Lane → Lane × FFlags) =>
        let r := gather fun j => f ((t.va sa).floats[j])
        flagEnd i s t r.2 fun u => u.withV rd (vsrcNames sa) r.1
      one (.vaFabs rd sa) (fun a => (if (f32 a).isNan then 0x7FC00000 else a &&& 0x7FFFFFFF, 0)) ∧
      one (.vaFneg rd sa) (fun a => (if (f32 a).isNan then 0x7FC00000 else a ^^^ 0x80000000, 0)) ∧
      one (.vaFrcp rd sa) (frcp32 t.core.rm) ∧ one (.vaFrsq rd sa) (frsq32 t.core.rm) ∧
      one (.vaFsqrt rd sa) (fsqrt32 t.core.rm))

/-- R194: the vi group lane by lane on INT32 lanes, modulo 2^32, with shifts by b[4:0]. -/
def Obligations.VectorInteger : Prop :=
  ∀ (s t : State) (rd : VReg) (sa sb : VSrc), Gives (openPorts none (vsrcNames sa ++ vsrcNames sb)) s () t →
    let ends := fun (i : Instr) (f : Lane → Lane → Lane) =>
      Ends i s (t.withV rd (vsrcNames sa ++ vsrcNames sb) (Vector.ofFn fun j => f ((t.va sa).ints[j]) ((t.vb sa sb).ints[j])))
    ends (.viAdd rd sa sb) (· + ·) ∧ ends (.viSub rd sa sb) (· - ·) ∧ ends (.viMul rd sa sb) (· * ·) ∧
    ends (.viMulh rd sa sb) (fun a b => BitVec.ofInt 32 (a.toInt * b.toInt / 2 ^ 32)) ∧
    ends (.viAnd rd sa sb) (· &&& ·) ∧ ends (.viOr rd sa sb) (· ||| ·) ∧ ends (.viXor rd sa sb) (· ^^^ ·) ∧
    ends (.viShl rd sa sb) (fun a b => BitVec.ofNat 32 (a.toNat * 2 ^ (b.toNat % 32))) ∧
    ends (.viShr rd sa sb) (fun a b => BitVec.ofNat 32 (a.toNat / 2 ^ (b.toNat % 32))) ∧
    ends (.viSra rd sa sb) (fun a b => BitVec.ofInt 32 (a.toInt / 2 ^ (b.toNat % 32))) ∧
    ends (.viMin rd sa sb) (fun a b => if a.toInt < b.toInt then a else b) ∧
    ends (.viMax rd sa sb) (fun a b => if a.toInt < b.toInt then b else a) ∧
    ends (.viMinn rd sa sb) (fun a b => if a.toNat < b.toNat then a else b) ∧
    ends (.viMaxn rd sa sb) (fun a b => if a.toNat < b.toNat then b else a)

/-- R195: the vc group writes bit j of a predicate from lane j. vc.flt and vc.fle are invalid with any NaN, the other
floating-point comparisons with a signalling one alone. A source of kind 0b00, where Table 1.2 names predicates, is read as a broadcast
scalar register: that is the model's choice (log 31 DEDUCED). -/
def Obligations.VectorCompare : Prop :=
  ∀ (s t : State) (rd : PReg) (sa sb : VSrc), Gives (openPorts none (vsrcNames sa ++ vsrcNames sb)) s () t →
    let srcs := vsrcNames sa ++ vsrcNames sb
    let x := fun (j : Fin 16) => f32 ((t.va sa).floats[j])
    let y := fun (j : Fin 16) => f32 ((t.vb sa sb).floats[j])
    let invalid := fun (p : FVal → Bool) => unionFlags ((List.finRange 16).map fun j => FFlags.when (p (x j) || p (y j)) fNv)
    let float := fun (i : Instr) (nan : FVal → Bool) (f : FVal → FVal → Bool) =>
      flagEnd i s t (invalid nan) fun u => u.withP rd srcs (predOf fun j => f (x j) (y j))
    let int := fun (i : Instr) (f : Lane → Lane → Bool) =>
      Ends i s (t.withP rd srcs (predOf fun j => f ((t.va sa).ints[j]) ((t.vb sa sb).ints[j])))
    float (.vcFeq rd sa sb) FVal.isSig FVal.eq ∧ float (.vcFne rd sa sb) FVal.isSig (fun a b => !a.eq b) ∧
    float (.vcFlt rd sa sb) FVal.isNan FVal.lt ∧ float (.vcFle rd sa sb) FVal.isNan (fun a b => a.lt b || a.eq b) ∧
    float (.vcFun rd sa sb) FVal.isSig (fun a b => a.isNan || b.isNan) ∧
    int (.vcIeq rd sa sb) (fun a b => a == b) ∧ int (.vcIlt rd sa sb) (fun a b => decide (a.toInt < b.toInt)) ∧
    int (.vcIltn rd sa sb) (fun a b => decide (a.toNat < b.toNat))

/-- R196: the data movements of the vx group. R197: the conversions of the vx group by their control value, sb[3:0]. -/
def Obligations.VectorMovesAndConversions : Prop :=
  (∀ (s t : State) (rd : VReg) (sa sb : VSrc), Gives (openPorts none (vsrcNames sa ++ vsrcNames sb)) s () t →
     let a := (t.va sa).ints
     let b := (t.vb sa sb).ints
     let n : Fin 16 := laneNo b[0]
     let ends := fun (i : Instr) (f : Fin 16 → Lane) =>
       Ends i s (t.withV rd (vsrcNames sa ++ vsrcNames sb) (Vector.ofFn f))
     ends (.vxBcast rd sa sb) (fun _ => a[n]) ∧
     ends (.vxExtr rd sa sb) (fun j => if j = 0 then a[n] else 0) ∧
     ends (.vxIns rd sa sb) (fun j => if j = n then a[n] else (t.core.getV rd)[j]) ∧
     ends (.vxPerm rd sa sb) (fun j => a[laneNo b[j]]) ∧
     ends (.vxSel rd sa sb) (fun j => if (t.core.getP 0).getLsbD j.val then a[j] else b[j]) ∧
     ends (.vxIota rd sa sb) (fun j => a[j] + BitVec.ofNat 32 j.val * b[j])) ∧
  (∀ (s t : State) (rd : VReg) (sa sb : VSrc), Gives (openPorts none (vsrcNames sa ++ vsrcNames sb)) s () t →
     let a := t.va sa
     let old := t.core.getV rd
     let rm := t.core.rm
     let c := (laneNo ((t.vb sa sb).ints[0])).val
     let ends := fun (i : Instr) (r : VWord × FFlags) =>
       flagEnd i s t r.2 fun u => u.withV rd (vsrcNames sa ++ vsrcNames sb) r.1
     ends (.vxCvtif rd sa sb) (if c % 4 < 2 then gather fun j => lane (intToF fp32 rm (asInt 32 (c % 2 == 0) (a.ints[j]).toNat))
       else onPairs a false fun x => intToF fp64 rm (asInt 64 (c % 2 == 0) x)) ∧
     ends (.vxCvtfi rd sa sb) (if c % 4 < 2 then gather fun j => lane (convInt 32 (c % 2 == 0) rm (f32 a.floats[j]))
       else onPairs a true fun x => convInt 64 (c % 2 == 0) rm (fp64.val x)) ∧
     ends (.vxCvtbh rd sa sb) (narrow 16 (c % 2) a old (fconv fp32 bf16 rm)) ∧
     ends (.vxCvthb rd sa sb) (widenF bf16 (c % 2) a rm) ∧
     ends (.vxCvtfh rd sa sb) (narrow 16 (c % 2) a old (fconv fp32 fp16 rm)) ∧
     ends (.vxCvthf rd sa sb) (widenF fp16 (c % 2) a rm) ∧
     ends (.vxCvt8 rd sa sb) (fromBytes rm (c / 4) (c % 4) a) ∧
     ends (.vxCvtq8 rd sa sb) (narrow 8 (c % 4) a old (toByte rm (c / 4))) ∧
     ends (.vxCvt4 rd sa sb) (widenF e2m1 (c % 8) a rm) ∧
     ends (.vxCvtq4 rd sa sb) (narrow 4 (c % 8) a old (fconv fp32 e2m1 rm)))

/-- R198: the vr group folds the lanes of sa in ascending order onto sb, each floating-point step rounded. -/
def Obligations.Reductions : Prop :=
  ∀ (s t : State) (rd : SReg) (sa sb : VSrc), Gives (openPorts (some rd) (vsrcNames sa ++ vsrcNames sb)) s () t →
    let a := t.va sa
    let b := t.vb sa sb
    let ends := fun (i : Instr) (r : Word × FFlags) =>
      flagEnd i s t r.2 fun u => u.withS rd (vsrcNames sa ++ vsrcNames sb) r.1
    ends (.vrFsum rd sa sb) (foldF (fadd32 t.core.rm) (b.floats[0]) a.floats) ∧
    ends (.vrFmax rd sa sb) (foldF fmax32 (b.floats[0]) a.floats) ∧ ends (.vrFmin rd sa sb) (foldF fmin32 (b.floats[0]) a.floats) ∧
    ends (.vrIsum rd sa sb) (a.ints.toList.foldl (fun r x => r + x.signExtend 64) b.first64, 0) ∧
    ends (.vrImax rd sa sb) (a.ints.toList.foldl (fun r x => if r.toInt < x.toInt then x.signExtend 64 else r) b.first64, 0) ∧
    ends (.vrImin rd sa sb) (a.ints.toList.foldl (fun r x => if r.toInt < x.toInt then r else x.signExtend 64) b.first64, 0) ∧
    ends (.vrAnd rd sa sb) ((a.ints.toList.foldl (· &&& ·) (b.ints[0])).setWidth 64, 0) ∧
    ends (.vrOr rd sa sb) ((a.ints.toList.foldl (· ||| ·) (b.ints[0])).setWidth 64, 0)

/-! ## Loads and stores (R247 to R254) -/

/-- R252, R253: a load whose access passes gives its register the bytes read, the lowest address least significant, sign- or
zero-extended, under its lookahead field; ld.v fills the lanes of a vector register, and ld.vt converts by the format of its
pointer with an enabled flag trapping, or fills a block from a slot. -/
def Obligations.Loads : Prop :=
  ∀ (s t : State) (la : BitVec 4) (rv rb : SReg) (v : VReg) (off : BitVec 6) (bs : List Byte),
    let load := fun (size : Nat) (i : Instr) (w : Word) =>
      Gives (loadAccess (some rv) rb off size) s bs t → Ends i s (t.withL rv la [rb] w)
    let n := ofBytes bs
    load 1 (.ldB la rv rb off) ((BitVec.ofNat 8 n).signExtend 64) ∧ load 1 (.ldBn la rv rb off) (BitVec.ofNat 64 n) ∧
    load 2 (.ldH la rv rb off) ((BitVec.ofNat 16 n).signExtend 64) ∧ load 2 (.ldHn la rv rb off) (BitVec.ofNat 64 n) ∧
    load 4 (.ldW la rv rb off) ((BitVec.ofNat 32 n).signExtend 64) ∧ load 4 (.ldWn la rv rb off) (BitVec.ofNat 64 n) ∧
    load 8 (.ldD la rv rb off) (BitVec.ofNat 64 n) ∧ load 8 (.ldAcq la rv rb off) (BitVec.ofNat 64 n) ∧
    load 8 (.ldDev la rv rb off) (BitVec.ofNat 64 n) ∧
    (Gives (loadAccess none rb off 64) s bs t → Ends (.ldV la v rb off) s (t.withR (.v v (vecOfBytes bs)) la [rb])) ∧
    (Gives (openPorts none [rb]) s () t →
      let p := t.r1 rb
      let a := lAddr p off 64
      ∀ (span : Nat) (ps : List (Nat × Nat × Place)) (t1 t2 : State), inSpace a → Gives (typedSpan p v false) t span t →
        Gives (typedPlaces p a.toNat (typedAlign span) .read (typedParts span)) t ps t1 →
        Gives (typedBytes a.toNat ps) t1 bs t2 →
        (span = 176 → Ends (.ldVt la v rb off) s (t2.withR (.g (v.extractLsb' 3 3) (slotIn bs)) la [rb])) ∧
        (span ≠ 176 →
          let r := lanesIn t.core.rm (fmtOf p) span bs
          flagEnd (.ldVt la v rb off) s t2 r.2 fun u => u.withR (.v v r.1) la [rb]))

/-- R252, R254: a store whose checks pass hands the low bytes of its register, the least significant at the lowest address,
to the gate for the place of its address, and retires; st.v hands over a line, st.vm the bytes of the lanes that p0 selects,
st.vt the converted lanes, or the slot of a block. -/
def Obligations.Stores : Prop :=
  ∀ (s t u v : State) (rv rb : SReg) (vr : VReg) (off : BitVec 6) (pl : Place),
    (Gives (openPorts none [rv, rb]) s () t →
      let store := fun (size : Nat) (rel : Bool) (i : Instr) =>
        let a := lAddr (t.r2 rv rb) off size
        inSpace a → Gives (resolve a.toNat size .write) t pl u →
        Gives (storeGated a.toNat pl (numbered (toBytes size (t.r1 rv).toNat)) rel) u () v → Ends i s (v.done [rv, rb])
      store 1 false (.stB rv rb off) ∧ store 2 false (.stH rv rb off) ∧ store 4 false (.stW rv rb off) ∧
      store 8 false (.stD rv rb off) ∧ store 8 true (.stRel rv rb off) ∧ store 8 false (.stDev rv rb off)) ∧
    (Gives (openPorts none [rb]) s () t →
      let p := t.r1 rb
      let a := lAddr p off 64
      let x := t.core.getV vr
      (inSpace a → Gives (resolve a.toNat 64 .write) t pl u →
        (Gives (storeGated a.toNat pl (numbered (vecBytes x)) false) u () v → Ends (.stV vr rb off) s (v.done [rb])) ∧
        (Gives (storeGated a.toNat pl ((numbered (vecBytes x)).filter fun b => (t.core.getP 0).getLsbD (b.1 / 4)) false) u () v →
          Ends (.stVm vr rb off) s (v.done [rb]))) ∧
      (∀ (span : Nat) (ps : List (Nat × Nat × Place)), inSpace a → Gives (typedSpan p vr true) t span t →
        Gives (typedPlaces p a.toNat (typedAlign span) .write (typedParts span)) t ps u →
        let r := if span = 176 then (slotOut (t.core.getG (vr.extractLsb' 3 3)), 0)
          else bytesOut t.core.rm (fmtOf p) span (t.core.getV vr)
        r.2 &&& u.core.enabled = 0 →
        Gives (asGroup (each ps fun q => storeGated (a.toNat + q.1) q.2.2 (numbered ((r.1.drop q.1).take q.2.1)) false))
          (u.flagged r.2) () v →
        Ends (.stVt vr rb off) s (v.done [rb])))

/-- R249, R250: a load within one line gives each byte the youngest value that the activation's own held stores give it, and
the memory's byte where none does; it changes no byte of memory and no register. R249, R296: in a revocable activation with
room, the bytes that a store hands to the gate are held in the commit buffer under the line of its place, merged into the
youngest entry where that holds the same line; no byte of memory and nothing else changes. -/
def Obligations.CommitBuffer : Prop :=
  (∀ (s : State) (va n : Nat) (pl : Place) (bs : List Byte), 0 < n → pl.inLine + n ≤ 64 → bs.length = n →
     heldAtomic s.core.cbuf pl = false → readPlace s s.cur s.ctxNo pl n = .ok bs →
     ∃ t, Gives (loadBytes va pl n) s ((List.range n).map fun i => (heldByte s.core.cbuf (pl.plus i)).getD (bs.getD i 0)) t ∧
       SameMemory s t ∧ t.core.s = s.core.s ∧ t.core.v = s.core.v ∧ t.core.p = s.core.p ∧ t.core.pc = s.core.pc ∧
       t.core.cbuf = s.core.cbuf) ∧
  (∀ (s : State) (va : Nat) (pl : Place) (bs : List (Nat × Byte)) (rel : Bool), bs ≠ [] →
     (∀ b ∈ bs, pl.inLine + b.1 < 64) → s.core.rev = true → mxUnread s s.cur pl.line = false → s.core.held64 + 1 ≤ 64 →
     let mine := bs.map fun b => (pl.inLine + b.1, b.2)
     let item := (Gated.store pl.line (va / 64 * 64) mine rel).grouped s.core
     Gives (storeGated va pl bs rel) s () (s.setCore { s.core with cbuf := heldWith s.core.cbuf item }))

/-- A store of an irrevocable activation to memory of the own package changes, of all memory, the bytes at the places of its
address alone: byte i of the register, or of the line of st.v, at the place that lsRedirect gives pa + i; st.vm changes the bytes of
the lanes that p0 selects. st.vt changes the bytes of its span, part by part, and gives them the converted lanes or the slot of a
block, where no two of its parts lie at one place. -/
def Obligations.StoreFrame : Prop :=
  ∀ (s t u : State) (rv rb : SReg) (vr : VReg) (off : BitVec 6) (i : Instr),
    portOf rb = none → s.core.rev = false → s.core.cbuf = [] → s.core.trig.ord = false →
    exec i s = .next t → t.core.icount = s.core.icount + 1 →
    let p := s.core.getS rb
    let plain := fun (pa : Nat) => paPkg pa = s.pkg.num ∧ (s.dieAt (hbmDieOf pa)).lost = false ∧ rowOf pa ≠ .device
    let spot := fun (pa k : Nat) => lsRedirect s s.ctxNo (pa + k)
    (∀ (size pa : Nat),
      (size, i) ∈ [(1, Instr.stB rv rb off), (2, .stH rv rb off), (4, .stW rv rb off), (8, .stD rv rb off), (8, .stDev rv rb off),
        (8, .stRel rv rb off)] →
      portOf rv = none → Gives (resolve (lAddr p off size).toNat size .write) s (.mem pa) u → plain pa →
      (∀ k < size, t.mem.read (spot pa k) = (toBytes size (s.core.getS rv).toNat).getD k 0) ∧
      (∀ b, (∀ k < size, b ≠ spot pa k) → t.mem.read b = s.mem.read b)) ∧
    (∀ pa : Nat, i = .stV vr rb off ∨ i = .stVm vr rb off → Gives (resolve (lAddr p off 64).toNat 64 .write) s (.mem pa) u →
      plain pa →
      let on := fun (k : Nat) => i = .stV vr rb off ∨ (s.core.getP 0).getLsbD (k / 4) = true
      (∀ k < 64, on k → t.mem.read (spot pa k) = (vecBytes (s.core.getV vr)).getD k 0) ∧
      (∀ b, (∀ k < 64, on k → b ≠ spot pa k) → t.mem.read b = s.mem.read b)) ∧
    (∀ (span : Nat) (ps : List (Nat × Nat × Place)) (pa : Nat → Nat), i = .stVt vr rb off → Gives (typedSpan p vr true) s span s →
      Gives (typedPlaces p (lAddr p off 64).toNat (typedAlign span) .write (typedParts span)) s ps u →
      (∀ q ∈ ps, q.2.2 = .mem (pa q.1) ∧ plain (pa q.1)) → (ps.map fun q => spot (pa q.1) 0).Nodup →
      let bs := if span = 176 then slotOut (s.core.getG (vr.extractLsb' 3 3))
        else (bytesOut s.core.rm (fmtOf p) span (s.core.getV vr)).1
      (∀ q ∈ ps, ∀ k < q.2.1, t.mem.read (spot (pa q.1) k) = bs.getD (q.1 + k) 0) ∧
      (∀ b, (∀ q ∈ ps, ∀ k < q.2.1, b ≠ spot (pa q.1) k) → t.mem.read b = s.mem.read b))

/-- R247, R248: an L-format address that leaves 52 bits takes trap 0x07 with the register; a misaligned one takes trap 0x03
with the address. -/
def Obligations.AddressTraps : Prop :=
  ∀ (s t : State) (la : BitVec 4) (rv rb : SReg) (v : VReg) (off : BitVec 6),
    let bad := fun (srcs : SReg → List SReg) (d : Option SReg) (p : State → Word) (size : Nat) (i : Instr) =>
      Gives (openPorts d (srcs rb)) s () t →
      (¬inSpace (lAddr (p t) off size) → Ends i s (t.takeTrap t.cur 0x07 t.core.pc (p t))) ∧
      (inSpace (lAddr (p t) off size) → t.core.ret = none → t.core.outst = [] → t.core.trig.kind ≠ 1 →
        (lAddr (p t) off size).toNat % size ≠ 0 →
        Ends i s (t.takeTrap t.cur 0x03 t.core.pc (BitVec.ofNat 64 (lAddr (p t) off size).toNat)))
    let load := bad (fun r => [r]) (some rv) fun t => t.r1 rb
    let store := bad (fun r => [rv, r]) none fun t => t.r2 rv rb
    let vec := bad (fun r => [r]) none fun t => t.r1 rb
    load 1 (.ldB la rv rb off) ∧ load 1 (.ldBn la rv rb off) ∧ load 2 (.ldH la rv rb off) ∧ load 2 (.ldHn la rv rb off) ∧
    load 4 (.ldW la rv rb off) ∧ load 4 (.ldWn la rv rb off) ∧ load 8 (.ldD la rv rb off) ∧ load 8 (.ldAcq la rv rb off) ∧
    load 8 (.ldDev la rv rb off) ∧ vec 64 (.ldV la v rb off) ∧ store 1 (.stB rv rb off) ∧ store 2 (.stH rv rb off) ∧
    store 4 (.stW rv rb off) ∧ store 8 (.stD rv rb off) ∧ store 8 (.stRel rv rb off) ∧ store 8 (.stDev rv rb off) ∧
    vec 64 (.stV v rb off) ∧ vec 64 (.stVm v rb off)

/-! ## Atomics (R255 to R258) -/

/-- R255, R257: a scalar atomic that names s0 as its destination is gated and does not return; any other becomes
irrevocable, is done at its serialisation point, and gives its register the old value under the lookahead field. at.addcb
that meets others takes the combining path: its request leaves for its router and its reply is awaited (R130). R258: a watch
whose descriptor lies in the own local store is gated without a destination, and with one returns the watched value. -/
def Obligations.ScalarAtomics : Prop :=
  (∀ (i : Instr) (fn width : Nat) (la : BitVec 4) (ra rb rc : SReg) (s t u v : State) (pl : Place) (w : Word),
     atomicForm i = some (fn, width, la, ra, rb, rc) →
     let srcs := if fn = 10 then [rb, rc, ra] else [rb, rc]
     Gives (openPorts (some ra) srcs) s () t →
     let va := (t.r1 rb).toNat % 2 ^ 52
     let b := t.r2 rb rc
     let old := if fn = 10 then t.r3 rb rc ra else 0
     Gives (resolveAtomic va width .atomic) t pl u →
     let r := atomReq u fn width va pl b old ra.toNat la.toNat
     (ra = 0 → Gives (gate (.atomic pl r)) u () v → Ends i s (v.done srcs)) ∧
     (ra ≠ 0 → (combines u fn pl && (portOf ra).isNone && u.core.ret.isNone) = false →
       Gives (returning va pl fun s => s.atomicAt s.cur s.ctxNo pl fn width b old) u w v → Ends i s (v.withL ra la srcs w)) ∧
     (ra ≠ 0 → combines u fn pl = true → portOf ra = none → u.core.ret = none → refusedBy u pl = none →
       Gives becomeIrrevocable u () v → v.core.calm = true →
       let z := v.sendCombinable v.cur pl r
       Ends i s (z.setCore (((z.core.dequeue srcs).awaits ra la r.rtag).retired)) ∧ ∃ q, z.core.outst = v.core.outst ++ [q] ∧
         z.flight = v.flight ++ [.combineRequest (clusterOf v.cur) 0 q] ∧ q.rtag = r.rtag ∧ q.operand = b ∧ q.dest = ra.toNat)) ∧
  (∀ (s t u v z : State) (la : BitVec 4) (ra rb rc : SReg) (pl : Place) (d : List Word) (x : Word) (width : Nat) (i : Instr),
     (width, i) ∈ [(8, Instr.atWatch la ra rb rc), (4, .atwWatch la ra rb rc)] → Gives (openPorts (some ra) [rb, rc]) s () t →
     let va := (t.r1 rb).toNat % 2 ^ 52
     Gives (resolveAtomic va width .read) t pl u → Gives (ownDescriptor (t.r2 rb rc) 16 16 0x05) u d v →
     let e := d.getD 0 0
     let w := d.getD 1 0
     let r : WatchReq :=
       { ctx := v.ctxNo, core := fld w 11 0, tag := fld w 17 12, width := width, va := va, pa := watchPa v pl, exp := e }
     fld w 63 18 = 0 → inAnyGroup v v.ctxNo (fld w 11 0) = true →
     (ra = 0 → Gives (gate (.watch pl r)) v () z → Ends i s (z.done [rb, rc])) ∧
     (ra ≠ 0 → Gives (returning va pl fun s => (watchValue s r, s.watchAt r)) v x z → Ends i s (z.withL ra la [rb, rc] x)))

/-- R256, R128: an atomic at its serialisation point in memory reads the old value and writes the new one in one step, and
changes no other byte of memory: add, and, or, xor, signed and unsigned min and max, swap, compare-and-swap, the floating-point
sum rounded to nearest even, and the saturating add. -/
def Obligations.AtomicEffect : Prop :=
  ∀ (s : State) (c ctx pa fn width : Nat) (b cmp : Word), width = 8 ∨ width = 4 →
    let w := 8 * width
    let a := lsRedirect s ctx pa
    let x := ofBytes (s.readPa a width)
    let y := b.toNat % 2 ^ w
    let sx := (BitVec.ofNat w x).toInt
    let sy := (BitVec.ofNat w y).toInt
    rowOf pa ≠ .device → rowOf a ≠ .device →
    let r := s.atomicAt c ctx (.mem pa) fn width b cmp
    let now := ofBytes (r.2.readPa a width)
    r.1 = (if width = 8 then BitVec.ofNat 64 x else (BitVec.ofNat 32 x).signExtend 64) ∧ SameOutside s r.2 a width ∧
    (fn = 0 ∨ fn = 1 → now = (x + y) % 2 ^ w) ∧ (fn = 2 → now = x &&& y) ∧ (fn = 3 → now = x ||| y) ∧ (fn = 4 → now = x ^^^ y) ∧
    (fn = 5 → now = if sy < sx then y else x) ∧ (fn = 6 → now = if sx < sy then y else x) ∧
    (fn = 7 → now = min x y) ∧ (fn = 8 → now = max x y) ∧ (fn = 9 → now = y) ∧
    (fn = 10 → now = if x = cmp.toNat % 2 ^ w then y else x) ∧
    (fn = 11 → let f := if width = 8 then fp64 else fp32
      now = (f.fin .rne ((f.val x).add .rne (f.val y))).1) ∧
    (fn = 12 → now = (BitVec.ofInt w (max (-(2 ^ (w - 1))) (min (sx + sy) (2 ^ (w - 1) - 1)))).toNat)

/-! ## Vector memory, rings and queues (R260 to R272) -/

/-- R260, R261: a vector memory instruction whose active lanes, those from vprog on that p0 selects, pass one after another in
ascending order completes with vprog 0. Lane i is at rb[51:0] + 4 · idx, with idx lane i of rc, signed. vg.gat gives its register the
lanes loaded under its lookahead field; vg.sca gates the word of each lane, and a vector atomic its request, as a group (R262). With
p0 zero no lane is active: nothing is accessed. Where the lanes lie in the own local store, aligned, and nothing of the core stands
in the way, each completes: vg.gat with the bytes that the own held stores give each lane, and memory's where none does; the others
with one item for each lane, in order, in the buffer of a revocable activation that has room. -/
def Obligations.VectorMemory : Prop :=
  ∀ (s t u v : State) (la : BitVec 4) (ra rc : VReg) (rb : SReg),
    let atomics := [(0, Instr.vgAtadd ra rb rc), (11, .vgAtfadd ra rb rc), (5, .vgAtmin ra rb rc), (6, .vgAtmax ra rb rc),
      (3, .vgAtor ra rb rc)]
    (Gives (openPorts none [rb]) s () t →
      let p := t.r1 rb
      let idx := t.core.getV rc
      let lanes := activeLanes t.core
      let stores := fun (acc : Acc) (f : Fin 16 → Nat → Place → State → State → Prop) (i : Instr) =>
        let run := lanesRun (laneStep acc p idx f) lanes
        let done := (u.setCore { u.core with vprog := 0, group := t.core.group }).done [rb]
        (t.core.rev = false → t.core.cbuf = [] → run t.inGroup u → Ends i s done) ∧
        (t.core.rev = true → run t v → v.core.rev = true → run t.inGroup u → Ends i s done)
      stores .write (scatterLane ra) (.vgSca ra rb rc) ∧ (∀ x ∈ atomics, stores .atomic (atomicLane x.1 ra) x.2) ∧
      (lanesRun (laneStep .read p idx (gatherLane ra)) lanes t u →
        Ends (.vgGat la ra rb rc) s
          ((u.setCore { u.core.setV ra (t.core.getV ra) with vprog := 0 }).withR (.v ra (u.core.getV ra)) la [rb])) ∧
      (t.core.getP 0 = 0 → (t.core.rev = true ∨ t.core.cbuf = []) → ∀ i ∈ Instr.vgSca ra rb rc :: atomics.map Prod.snd,
        Ends i s ((t.setCore { t.core with vprog := 0 }).done [rb]))) ∧
    (portOf rb = none →
      let p := s.core.getS rb
      let idx := s.core.getV rc
      let lanes := activeLanes s.core
      lanesLocal s p idx →
      let va := fun (i : Fin 16) => (laneAddr p idx i).toNat
      let pl := lanePlace s p idx
      let x := s.core.getV ra
      let holds := fun (item : Fin 16 → Gated) (i : Instr) =>
        ∃ z, Ends i s (z.done [rb]) ∧ z.core.vprog = 0 ∧ z.core.cbuf = lanes.foldl (fun b i => heldWith b (item i)) s.core.cbuf ∧
          SameMemory s z ∧ z.core.s = s.core.s ∧ z.core.v = s.core.v ∧ z.core.p = s.core.p ∧ z.core.pc = s.core.pc
      (s.core.rev = true → s.core.mx.queue = [] → s.core.held64 + lanes.length ≤ 64 →
        holds (fun i => .store (pl i).line (va i / 64 * 64)
          ((numbered (toBytes 4 (x[i]).toNat)).map fun b => ((pl i).inLine + b.1, b.2)) false [s.core.icount + 1])
          (.vgSca ra rb rc) ∧
        (∀ a ∈ atomics, holds (fun i => .atomic (pl i)
          { atomReq s a.1 4 (va i) (pl i) ((x[i]).setWidth 64) 0 0 0 with grp := [s.core.icount + 1] }) a.2)) ∧
      ((∀ i ∈ lanes, heldAtomic s.core.cbuf (pl i) = false ∧ poisoned s (watchPa s (pl i)) = false) →
        let byte := fun (i : Fin 16) (k : Nat) =>
          (heldByte s.core.cbuf ((pl i).plus k)).getD (s.mem.read (watchPa s (pl i) + k))
        let new : VWord := Vector.ofFn fun i =>
          if i ∈ lanes then BitVec.ofNat 32 (ofBytes ((List.range 4).map (byte i))) else x[i]
        ∃ z, Ends (.vgGat la ra rb rc) s (z.withR (.v ra new) la [rb]) ∧ z.core.vprog = 0 ∧ z.core.cbuf = s.core.cbuf ∧
          SameMemory s z ∧ z.core.s = s.core.s ∧ z.core.v = s.core.v ∧ z.core.p = s.core.p ∧ z.core.pc = s.core.pc))

/-- R265 to R267, R272: the ring instructions on a control block that passes its checks, and the neighbour-queue
instructions. At the control block in memory, rg.acq gives the address of slot head mod n and adds 1 to head, or gives 0 and changes
nothing where the ring is full or 64 slots are uncommitted; rg.cmt sets the bit of the slot's count in cmap, shifts the set bits that
lead out of it, and adds their number to cmt; rg.rel adds 1 to tail; no other byte of memory changes. What qp.stat and qp.catch do at a
port without a neighbour (log 49 DEDUCED), and that rg.cmt compares rc[51:0] with rb[51:0] (log 89 DEDUCED), are the model's choices. -/
def Obligations.RingsAndQueues : Prop :=
  ∀ (s t u v : State) (la : BitVec 4) (ra rb rc rd : SReg) (sa sb : Src) (pl : Place) (w : Word) (bs : List Byte),
    (Gives (openPorts (some ra) [rb]) s () t → Gives (ringPlace (t.r1 rb)) t pl u →
      let cb := (t.r1 rb).toNat % 2 ^ 52
      (Gives (returning cb pl fun s => s.ringAcq s.cur s.ctxNo pl cb) u w v →
        Ends (.rgAcq la ra rb) s (v.withL ra la [rb] w)) ∧
      (Gives (loadBytes cb pl 64) u bs v →
        let r := ringOf bs
        (r.bad = false → Ends (.rgPeek la ra rb) s
          (v.withL ra la [rb] (if r.tail < r.cmt then BitVec.ofNat 64 (cb + 64 + r.tail % r.n * r.z) else 0))) ∧
        (r.bad = true → Ends (.rgPeek la ra rb) s ((v.logCore v.ctxNo 0x29 0 v.cur cb 0).withL ra la [rb] 0)))) ∧
    (Gives (openPorts none [rb, rc]) s () t → Gives (ringPlace (t.r1 rb)) t pl u →
      let cb := (t.r1 rb).toNat % 2 ^ 52
      let slot := (t.r2 rb rc).toNat % 2 ^ 52
      cb + 64 ≤ slot → (slot - cb) % 64 = 0 → Gives (gate (.rgCmt pl cb slot)) u () v →
      Ends (.rgCmt rb rc) s (v.done [rb, rc])) ∧
    (Gives (openPorts none [rb]) s () t → Gives (ringPlace (t.r1 rb)) t pl u →
      Gives (gate (.rgRel pl ((t.r1 rb).toNat % 2 ^ 52))) u () v → Ends (.rgRel rb) s (v.done [rb])) ∧
    (Gives (openPorts none (srcNames sa ++ srcNames sb)) s () t → (t.a sa).toNat ≤ 3 →
      let k := (t.a sa).toNat
      let srcs := srcNames sa ++ srcNames sb
      ((neighbour t.cur k).isSome = true → Gives becomeIrrevocable t () u → credit u u.cur k ≠ 0 →
        Ends (.qpCtl sa sb) s ((u.enqueue k (1#1 ++ t.b sa sb)).done srcs)) ∧
      ((t.b sa sb).toNat % 4 = 0 → ∃ z, Ends (.qpCatch sa sb) s (z.done srcs) ∧ z = t.setCore z.core ∧
        ∀ j : Fin 4, z.core.qcatch[j] = if j.val = k then t.b sa sb else t.core.qcatch[j])) ∧
    (Gives (openPorts (some rd) (srcNames sa)) s () t → (t.a sa).toNat ≤ 3 →
      Ends (.qpStat rd sa) s (t.withS rd (srcNames sa) (portStatus t (t.a sa).toNat))) ∧
    (∀ c ctx pa cb slot : Nat,
      let a := lsRedirect s ctx pa
      let r := ringOf (s.readPa a 64)
      let at8 := fun (t : State) (k : Nat) => ofBytes (t.readPa (a + k) 8)
      let full := r.head - r.tail = r.n ∨ r.head - r.cmt = 64
      rowOf pa ≠ .device → rowOf a ≠ .device →
      (let got := s.ringAcq c ctx (.mem pa) cb
       (r.bad = true → got.1 = 0) ∧ (r.bad = false → full → got.1 = 0 ∧ SameMemory s got.2) ∧
       (r.bad = false → ¬full → got.1 = BitVec.ofNat 64 (cb + 64 + r.head % r.n * r.z) ∧ at8 got.2 0 = (r.head + 1) % 2 ^ 64 ∧
         SameOutside s got.2 a 8)) ∧
      (homeFails s ctx (.mem pa) = none → r.bad = false →
        (∀ q j, (slot - cb - 64) % r.z = 0 → (slot - cb - 64) / r.z < r.n →
          let free := fun (q : Nat) => r.cmt ≤ q ∧ q < r.cmt + 64 ∧ q < r.head ∧ q % r.n = (slot - cb - 64) / r.z ∧
            bit r.cmap (q - r.cmt) = false
          free q → (∀ q' < q, ¬free q') →
          let m := r.cmap + 2 ^ (q - r.cmt)
          (∀ i < j, bit m i = true) → bit m j = false →
          let got := s.ringCmt c ctx (.mem pa) cb slot
          at8 got 0 = r.head ∧ at8 got 8 = (r.cmt + j) % 2 ^ 64 ∧ at8 got 16 = r.tail ∧ at8 got 24 = m / 2 ^ j ∧
          SameOutside s got a 32 ∧
          (0 < j → r.cmt = r.tail → bit r.w5 18 = true → ∃ v : State,
            got = v.send (unitMsg v ctx (bits r.w5 11 0) (bits r.w5 17 12) [BitVec.ofNat 64 cb, BitVec.ofNat 64 (r.cmt + j)]))) ∧
        (r.tail < r.cmt → rowOf (pa + 16) ≠ .device →
          let got := s.ringRel c ctx (.mem pa) cb
          let b := lsRedirect s ctx (pa + 16)
          ofBytes (got.readPa b 8) = (r.tail + 1) % 2 ^ 64 ∧ SameOutside s got b 8)))

/-! ## System registers and exceptions (chapter 16) -/

/-- R346, R347: a system register whose number passes its checks is read into a register, or written with a register, or
with the register's bits set or cleared in it; a request of ctxctl is made after the instruction has retired (R334). R346,
R347, R189: a register number of 0x100 or above is illegal in an unprivileged context, and so is a context that csel names
and that is not there: protection (0x05); an unassigned number is an illegal instruction (0x01); a write of ls or le while a
loop is active traps with 0x0A. Each trap's value is the instruction's word. -/
def Obligations.SystemRegisters : Prop :=
  (∀ (s t : State) (r : SReg) (n : BitVec 10), Gives (checkNumber n.toNat) s () s →
     (Gives (openPorts (some r) []) s () t → Ends (.sysGet r n) s (t.withS r [] (sysRead t n.toNat))) ∧
     ((s.core.lp.act && loopBound n.toNat) = false → Gives (openPorts none [r]) s () t →
       let x := t.r1 r
       let old := sysOld t n.toNat
       let done := fun (v : Word) =>
         let u := (t.writeReg n.toNat v).done [r]
         if n.toNat = 0x12A then u.ctxctl t.core.csel.toNat v else u
       Ends (.sysPut r n) s (done x) ∧ Ends (.sysSet r n) s (done (old ||| x)) ∧ Ends (.sysClr r n) s (done (old &&& ~~~x)))) ∧
  (∀ (s : State) (r : SReg) (n : BitVec 10),
     let writes := [Instr.sysPut r n, .sysSet r n, .sysClr r n]
     let traps := fun (is : List Instr) (code : Nat) => ∀ i ∈ is, Ends i s (s.takeTrap s.cur code s.core.pc (irWord s))
     let lawful := n.toNat < 0x100 ∨ (s.ctxAt s.ctxNo).privileged = true
     (0x100 ≤ n.toNat → (s.ctxAt s.ctxNo).privileged = false → traps (.sysGet r n :: writes) 0x05) ∧
     (lawful → assigned n.toNat = false → traps (.sysGet r n :: writes) 0x01) ∧
     (lawful → assigned n.toNat = true → perContext n.toNat = true → (s.ctxAt s.core.csel.toNat).live = false →
       traps (.sysGet r n :: writes) 0x05) ∧
     (n = 0x031 ∨ n = 0x032 → s.core.lp.act = true → traps writes 0x0A))

/-- R6: a system register that is written reads back the bits that its fields hold, and 0 in the others; a read-only
register keeps its value, as bit 8 of a cause does; a write of one register changes no other, no numbered register and no
byte of memory, where the write does not choose what other numbers reach (csel, rostat) or wait for an iteration (lc). -/
def Obligations.RegisterMasks : Prop :=
  ∀ (s : State) (v : Word),
    (∀ p ∈ [(0x020, 0x3E3#64), (0x021, 0x1F#64), (0x022, 0xF#64), (0x031, 0xFFFFFFFFFFFFC#64), (0x038, 0x7FF#64),
        (0x041, 0xFFFFFFFFFFF00#64), (0x043, 0xFFFFFFFFFFFFC#64), (0x044, 0xFFFFFFFFFFFFFFFF#64),
        (0x046, 0xFFFFFFFFFFFFC#64), (0x047, 0xFFFFFFFFFFFFFFFF#64), (0x048, 0xFFFFFFFFFFFFFFFF#64),
        (0x049, 0xFFFFFFFFFFFFFFFF#64), (0x04A, 0xFFFFFFFFFFFFFFFF#64), (0x060, 0xFFFFFFFF#64), (0x061, 0xFFFFFFFF#64),
        (0x100, 0x3F#64), (0x123, 0x1FFFFFF#64), (0x124, 0xFFF1#64), (0x12D, 0xFFFFFFFFFFFFFFFF#64), (0x130, 0x1F#64)],
      sysRead (s.writeReg p.1 v) p.1 = v &&& p.2) ∧
    (∀ n ∈ [0, 1, 2, 3, 4, 5, 6, 7, 8, 9, 0x010, 0x011], sysRead (s.writeReg n v) n = sysRead s n) ∧
    (∀ n ∈ [0x042, 0x045], sysRead (s.writeReg n v) n = sysRead s n &&& 0x100 ||| v &&& 0xFF) ∧
    (∀ n m, assigned n = true → assigned m = true → m ≠ n → n ∉ [0x030, 0x062, 0x100] →
      sysRead (s.writeReg n v) m = sysRead s m) ∧
    (∀ n, SameMemory s (s.writeReg n v) ∧ (s.writeReg n v).core.s = s.core.s ∧ (s.writeReg n v).core.v = s.core.v ∧
      (s.writeReg n v).core.p = s.core.p)

/-- R344: a trap outside a sprinkle handler saves its cause, with rev in bit 8, its return address and its value at the next level,
raises the level, and goes to the handler's address, 256 bytes on at level 2; it closes the windows, so that no result stays pending
but one whose reply has not come, and changes no other register of the core and nothing outside it. At level 2, or without a handler
base, the context is killed. Shown of sys.brk, whose tpc names it, and of sys.trap, whose tpc names the next instruction. -/
def Obligations.TrapEntry : Prop :=
  ∀ (s : State) (imm : BitVec 16) (i : Instr) (code : Nat) (ret : BitVec 52),
    (i, code, ret) ∈ [(Instr.sysBrk imm, 0x12, s.core.pc), (.sysTrap imm, 0x13, s.core.pc + 4)] → s.core.trig.kind ≠ 1 →
    let base := fld s.core.tvec 51 8 * 256
    let closed := fun (x : Core) => (∀ q ∈ x.pend, q.left = 0) ∧ ((∀ q ∈ s.core.pend, q.wait = none) → x.pend = [])
    let saved := fun (old r : TrapRegs) =>
      r = { old with cause := word (code + flag s.core.rev 8), pc := word (ret.toNat / 4 * 4), val := imm.setWidth 64 }
    ∃ t, Ends i s t ∧
      (s.core.tlv = 0 → base ≠ 0 → ∃ x, t = s.setCore x ∧ saved s.core.t1 x.t1 ∧ x.t2 = s.core.t2 ∧ x.tlv = 1 ∧
        x.pc = BitVec.ofNat 52 base ∧ closed x ∧ x.icount = s.core.icount ∧ x.fflags = s.core.fflags ∧ x.lp = s.core.lp ∧
        (s.core.pend = [] → x.s = s.core.s ∧ x.v = s.core.v ∧ x.p = s.core.p)) ∧
      (s.core.tlv = 1 → base ≠ 0 → ∃ x, t = s.setCore x ∧ saved s.core.t2 x.t2 ∧ x.t1 = s.core.t1 ∧ x.tlv = 2 ∧
        x.pc = BitVec.ofNat 52 (base + 256) ∧ closed x ∧ x.icount = s.core.icount ∧ x.fflags = s.core.fflags ∧
        x.lp = s.core.lp ∧ (s.core.pend = [] → x.s = s.core.s ∧ x.v = s.core.v ∧ x.p = s.core.p)) ∧
      (s.core.tlv = 2 → t = s.kill s.ctxNo 1 0) ∧
      (s.core.tlv.toNat < 2 → base = 0 → t = s.kill s.ctxNo 2 0)

/-- R348: sys.eret goes to the address saved at the current level, which falls by one; it changes no saved register, and is
an illegal instruction at level 0. Shown of a core that does not return to a stream that it left (R325). -/
def Obligations.TrapReturn : Prop :=
  ∀ s : State,
    (s.core.tlv = 0 → Ends .sysEret s (s.takeTrap s.cur 0x01 s.core.pc (irWord s))) ∧
    (s.core.tlv = 1 → s.core.trail.left = none ∨ s.core.trail.level ≠ 0 → ∃ x, Ends .sysEret s (s.setCore x) ∧ x.tlv = 0 ∧
      x.pc = BitVec.ofNat 52 (fld s.core.t1.pc 51 2 * 4) ∧ x.t1 = s.core.t1 ∧ x.t2 = s.core.t2 ∧
      x.icount = s.core.icount + 1 ∧ x.p = s.core.p ∧ (s.core.pend = [] → x.s = s.core.s ∧ x.v = s.core.v)) ∧
    (s.core.tlv = 2 → s.core.trail.left = none ∨ s.core.trail.level ≠ 1 → ∃ x, Ends .sysEret s (s.setCore x) ∧ x.tlv = 1 ∧
      x.pc = BitVec.ofNat 52 (fld s.core.t2.pc 51 2 * 4) ∧ x.t1 = s.core.t1 ∧ x.t2 = s.core.t2 ∧
      x.icount = s.core.icount + 1 ∧ x.p = s.core.p ∧ (s.core.pend = [] → x.s = s.core.s ∧ x.v = s.core.v))

/-- R349, R369: a kill by sys.kill, with reason 5 and its immediate, or by a request of ctxctl, with reason 6, stops the
context: its state is killed, no core holds it, nothing of it waits in a core's or a cluster's inbox, a ready queue, a gate, a
launch entry, a chain, a monitor or a parking place. Where it was not killed before and nothing that it has released is on its way,
one entry of class 0x31 is logged, whose detail is the reason and the immediate; that its cid is 0xFFF and its hub 1 is the model's
choice (log 74 DEDUCED). A core of another context keeps its phase, its registers and its buffer. With no error log, and no released
store or atomic of the context on its way, memory stays as it is. -/
def Obligations.ContextKill : Prop :=
  ∀ (s : State) (i : Instr) (ctx reason imm : Nat) (w : BitVec 16),
    (i, ctx, reason, imm) ∈ [(Instr.sysKill w, s.ctxNo, 5, w.toNat), (.ctxctlKill ctx, ctx, 6, 0)] →
    let quiet := (∀ st, Instr.chainStoreAtLink st ∈ s.flight → st.ctx ≠ ctx) ∧ atomicsOnWay s ctx = []
    ∃ t, Ends i s t ∧ (t.ctxAt ctx).state = 3 ∧ (∀ c, (t.coreAt c).ctx ≠ some ctx) ∧
      (∀ c, ∀ m ∈ (t.coreAt c).inbox, m.ctx ≠ ctx) ∧ (∀ k, ∀ m ∈ (t.clusterAt k).inbox, m.ctx ≠ ctx) ∧
      (∀ k, ∀ q ∈ (t.clusterAt k).ready, q.m.ctx ≠ ctx) ∧ (∀ w ∈ t.mons, w.ctx ≠ ctx) ∧ (∀ g ∈ t.pkg.gates, g.ctx ≠ ctx) ∧
      (t.ctxAt ctx).launches = [] ∧ (t.ctxAt ctx).chains = [] ∧ (t.ctxAt ctx).parked = [] ∧
      (quiet → (s.ctxAt ctx).state ≠ 3 → (t.ctxAt ctx).eseq = (s.ctxAt ctx).eseq + 1) ∧
      (quiet → (s.ctxAt ctx).state = 3 → (t.ctxAt ctx).eseq = (s.ctxAt ctx).eseq) ∧
      (let e := (s.ctxAt ctx).elog
       let sq := (s.ctxAt ctx).eseq % 2 ^ 32
       let pa := fld e 51 12 * 4096 + 64 * (sq % 2 ^ fld e 4 0)
       quiet → (s.ctxAt ctx).state ≠ 3 → fld e 4 0 ≠ 0 → t.read64 pa = BitVec.ofNat 64 (0x31 * 2 ^ 56 + 0xFFF * 2 ^ 36 + 2 ^ 32 + sq) ∧
         t.read64 (pa + 24) = BitVec.ofNat 64 (reason + imm * 2 ^ 16)) ∧
      (∀ c, (s.coreAt c).ctx ≠ some ctx → (t.coreAt c).phase = (s.coreAt c).phase ∧ (t.coreAt c).s = (s.coreAt c).s ∧
        (t.coreAt c).v = (s.coreAt c).v ∧ (t.coreAt c).p = (s.coreAt c).p ∧ (t.coreAt c).cbuf = (s.coreAt c).cbuf) ∧
      (fld (s.ctxAt ctx).elog 4 0 = 0 → quiet → SameMemory s t)

/-- R285, R286: each fence completes when what it waits for has been performed, and waits until then: fence.full and
fence.eng for an irrevocable activation, fence.acq for outstanding atomics, fence.rel by a marker of the commit buffer.
sys.nop has no effect. -/
def Obligations.Fences : Prop :=
  ∀ (s t : State) (scope : BitVec 2),
    let waits := fun (i : Instr) (u : State) => Ends i s (u.setCore { u.core with stalled := true })
    (Gives becomeIrrevocable s () t →
      let open' := t.core.outst ≠ [] ∨ chainPending t t.cur scope.toNat = true
      let busy := enginesBusy t.core = true ∨ chainPending t t.cur scope.toNat = true
      (¬open' → Ends (.fenceFull scope) s (t.done [])) ∧ (open' → waits (.fenceFull scope) t) ∧
      (¬busy → Ends (.fenceEng scope) s (t.done [])) ∧ (busy → waits (.fenceEng scope) t)) ∧
    (s.core.outst = [] → Ends (.fenceAcq scope) s (s.done [])) ∧
    (s.core.outst ≠ [] → waits (.fenceAcq scope) s ∧ waits (.fenceRel scope) s) ∧
    (s.core.outst = [] → Gives (gate (.fenceRel scope.toNat)) s () t → Ends (.fenceRel scope) s (t.done [])) ∧
    Ends .sysNop s (s.done [])

/-- R26, R346: a word that is no instruction traps with its word as the value: reserved opcode (0x02) where Table 1.9 names
the word reserved, as for every opcode of 42 to 63, and illegal instruction (0x01) otherwise; sys.inv is an illegal
instruction. -/
def Obligations.UndefinedWords : Prop :=
  ∀ (s : State) (w : BitVec 32),
    let u := s.setCore { s.core with ir := w }
    (decodeWord w = .error .reserved ↔ reservedWord w = true) ∧ (42 ≤ w.toNat / 2 ^ 26 → reservedWord w = true) ∧
    (reservedWord w = true → Ends (.undefinedEncoding w) s (u.takeTrap s.cur 0x02 s.core.pc (w.setWidth 64))) ∧
    (reservedWord w = false → Ends (.undefinedEncoding w) s (u.takeTrap s.cur 0x01 s.core.pc (w.setWidth 64))) ∧
    Ends .sysInv s (s.takeTrap s.cur 0x01 s.core.pc (irWord s))

/-! ## Trail mode (R323 to R326) -/

/-- R323, R325, R326: trl.lead belongs to column 0 and trl.join to the others, outside trail mode; elsewhere they are
illegal. trl.join waits. trl.lead, once the other three cores of the row have joined for its context, retires on all four:
the leader leads, and the others go on in its stream at its next instruction. trl.quit ends trail mode for its core, and in
the handler of a core that has left the stream for its row; that it has no other effect outside trail mode, and that it ends trail
mode for the row in the leader's handler too, is the model's choice (log 50 DEDUCED). -/
def Obligations.TrailMode : Prop :=
  ∀ (s t : State),
    let here := s.cur % 4 = 0
    let illegal := fun (i : Instr) => Ends i s (s.takeTrap s.cur 0x01 s.core.pc (irWord s))
    (¬here ∨ s.core.inTrail = true → illegal .trlLead) ∧ (here ∨ s.core.inTrail = true → illegal .trlJoin) ∧
    (s.core.inTrail = false → Gives becomeIrrevocable s () t →
      (¬here → Ends .trlJoin s (t.setCore { t.core with trail := { role := .waiting }, stalled := true })) ∧
      (here → ((others t.cur).all fun i => hasJoined (t.coreAt i) t.core) = true → ∃ u, Ends .trlLead s u ∧
        u.core.trail = { role := .leader } ∧ u.core.pc = t.core.fallThrough.2 ∧ u.core.icount = t.core.icount + 1 ∧
        ∀ i ∈ others t.cur, (u.coreAt i).trail = { role := .trailing } ∧ (u.coreAt i).pc = u.core.pc ∧
          (u.coreAt i).icount = (t.coreAt i).icount + 1) ∧
      (here → ((others t.cur).all fun i => hasJoined (t.coreAt i) t.core) = false →
        Ends .trlLead s (t.setCore { t.core with trail := { role := .waiting }, stalled := true }))) ∧
    ((s.core.inTrail && s.core.trail.left.isSome) = false → Ends .trlQuit s ((s.setCore { s.core with trail := {} }).done [])) ∧
    ((s.core.inTrail && s.core.trail.left.isSome) = true → Ends .trlQuit s ((s.endTrail s.cur).done []))

/-! ## Messages and activations (chapter 14) -/

/-- R303, R304: ms.send and ms.sendt on words whose reserved fields are 0 send one message with the header of the control
word and the payload of a vector register: to a core of a group, to another package, or to an object's core; ms.sendt to the
ordered domain of its group, with its timestamp, and with a destination word of 0 to no core in particular. R304, R305:
ms.bcast sends one copy to every member of a group, and ms.spr a sprinkle with its two words to a core of some group of the
context. -/
def Obligations.MessageSends : Prop :=
  (∀ (s t u v : State) (ra rc : SReg) (rb : VReg) (pl : Place), Gives (openPorts none [ra, rc]) s () t →
     let w := t.r1 ra
     let ctl := t.r2 ra rc
     let m : Msg := { scid := t.cur, spkg := t.pkg.num, ctx := t.ctxNo, tag := fld ctl 5 0, grp := fld ctl 15 8,
                      hoff := BitVec.ofNat 16 (fld ctl 31 16), dcore := t.cur, pay := vecPay (t.core.getV rb) }
     let mt : Msg := { m with ord := true, ts := fld ctl 63 32 }
     let mine := groupExists t t.ctxNo (fld ctl 15 8) = true
     let near := fun (i : Instr) (g : Gated) =>
       bit w.toNat 63 = false → bit w.toNat 62 = false → mine → inGroup t t.ctxNo (fld ctl 15 8) (fld w 11 0) = true →
       Gives (gate g) t () v → Ends i s (v.done [ra, rc])
     let far := fun (i : Instr) (g : Gated) =>
       bit w.toNat 63 = false → bit w.toNat 62 = true → Gives (gate g) t () v → Ends i s (v.done [ra, rc])
     let object := fun (i : Instr) (g : Gated) =>
       bit w.toNat 63 = true → mine → Gives (resolveFor false false (addrOf w) 1 .read) t pl u → Gives (gate g) u () v →
       Ends i s (v.done [ra, rc])
     let toOwner := fun (m : Msg) => { m with obj := some (addrOf w), sent := true, odie := objDie u u.cur pl }
     (destReserved w = false → ctlReserved ctl false = false →
       near (.msSend ra rb rc) (.send { m with dcore := fld w 11 0 }) ∧
       far (.msSend ra rb rc) (.sendRemote (fld w 57 48) { m with ctx := fld w 47 42, dcore := fld w 11 0 } w) ∧
       object (.msSend ra rb rc) (.send (toOwner m))) ∧
     (destReserved w = false → ctlReserved ctl true = false → (t.core.trig.ord = true → t.core.tsn.toNat < fld ctl 63 32) →
       (w = 0 → mine → Gives (gate (.sendt mt)) t () v → Ends (.msSendt ra rb rc) s (v.done [ra, rc])) ∧
       (w ≠ 0 → near (.msSendt ra rb rc) (.sendt { mt with dcore := fld w 11 0 }) ∧
         far (.msSendt ra rb rc) (.sendRemote (fld w 57 48) { mt with ctx := fld w 47 42, dcore := fld w 11 0 } w) ∧
         object (.msSendt ra rb rc) (.sendt (toOwner mt))))) ∧
  (∀ (s t v : State) (ra rb rc : SReg) (x : VReg),
     (Gives (openPorts none [ra, rc]) s () t →
       let a := t.r1 ra
       let ctl := t.r2 ra rc
       fld a 63 8 = 0 → ctlReserved ctl false = false → groupExists t t.ctxNo (fld ctl 15 8) = true →
       groupExists t t.ctxNo (fld a 7 0) = true →
       Gives (gate (.bcast (fld a 7 0)
         { scid := t.cur, spkg := t.pkg.num, ctx := t.ctxNo, tag := fld ctl 5 0, grp := fld ctl 15 8,
           hoff := BitVec.ofNat 16 (fld ctl 31 16), dcore := t.cur, pay := vecPay (t.core.getV x) })) t () v →
       Ends (.msBcast ra x rc) s (v.done [ra, rc])) ∧
     (Gives (openPorts none [ra, rb, rc]) s () t →
       let a := t.r1 ra
       let b := t.r2 ra rb
       let w := t.r3 ra rb rc
       fld a 63 18 = 0 → fld b 63 16 = 0 → fld w 63 32 = 0 → inAnyGroup t t.ctxNo (fld a 11 0) = true →
       Gives (gate (.send { scid := t.cur, spkg := t.pkg.num, ctx := t.ctxNo, tag := fld a 17 12, kind := 1, dcore := fld a 11 0,
                            pay := [b, w, 0, 0, 0, 0, 0, 0] })) t () v →
       Ends (.msSpr ra rb rc) s (v.done [ra, rb, rc])))

/-- R306, Table 1.6: with nothing outstanding and no matrix command unfinished, ms.end, ms.endc and ms.defer close every
window, end the activation and retire; ms.endc holds its message behind the buffer, and ms.defer names the tag to which the
trigger goes back. That the instruction reads its own sources before the windows close is the model's choice (log 76 DEDUCED), and
so is that trail mode ends for the row in the handler of a core that has left its stream (log 50 DEDUCED). -/
def Obligations.ActivationEnds : Prop :=
  ∀ (s t : State) (ra rc : SReg) (x : VReg),
    let ended := fun (t : State) (how : Nat) (srcs : List SReg) (more : List Gated) =>
      let t := if t.core.inTrail = true ∧ t.core.trail.left.isSome = true then t.endTrail t.cur else t
      let c := t.core.closeWindows.dequeue srcs
      t.setCore { c with cbuf := c.cbuf ++ more, phase := .ending how, icount := c.icount + 1, stalled := false, trail := {} }
    let ready := fun (t : State) (n : Nat) =>
      t.core.outst = [] ∧ t.core.mx.queue = [] ∧ (t.core.rev = true → t.core.held64 + n ≤ 64)
    (ready s 0 → Ends .msEnd s (ended s 0 [] [])) ∧
    (Gives (openPorts none [rc]) s () t →
      let ctl := t.r1 rc
      ctlReserved ctl false = false → groupExists t t.ctxNo (fld ctl 15 8) = true → ready t 1 →
      Ends (.msEndc x rc) s (ended t 1 [rc]
        [.endc { scid := t.cur, spkg := t.pkg.num, ctx := t.ctxNo, tag := fld ctl 5 0, grp := fld ctl 15 8,
                 hoff := BitVec.ofNat 16 (fld ctl 31 16), dcore := t.cur, pay := vecPay (t.core.getV x) }])) ∧
    (Gives (openPorts none [ra]) s () t → t.core.trig.ord = false → ready t 0 →
      let a := t.r1 ra
      let u := ended t 2 [ra] []
      Ends (.msDefer ra) s (if bit a.toNat 6 = true then
        u.setCore { u.core with trig := { u.core.trig with tag := fld a 5 0 } } else u.setCore u.core))

/-- R307, R310 to R312: a tk instruction on a record that its activation may reach hands its operation to the gate, with the
record's address and place and its argument; tk.new gives its register the task id, the address over 64. tk.barr and
tk.bwait arrive once for each barrier, at most at four; tk.bwait ends the activation and registers its continuation, with its arrival
where the activation has not arrived. That it reads its sources before the windows close (log 76 DEDUCED), and ends trail mode for the
row in a handler that has left the stream (log 50 DEDUCED), are the model's choices. -/
def Obligations.TaskOperations : Prop :=
  ∀ (s t u v : State) (la : BitVec 4) (ra rb rc : SReg) (va : Nat) (pl : Place),
    let req := fun (u : State) (op : Nat) (arg : Word) => Gated.tk pl ⟨op, u.cur, u.ctxNo, va, homePa u u.ctxNo pl, arg, 0⟩
    let arrives := fun (u v : State) => ∃ w, Gives (gate (req u 5 0)) u () w ∧
      v = w.setCore { w.core with arrived := w.core.arrived ++ [va] }
    let free := fun (u : State) => ¬(u.ctxNo, va) ∈ barKeys u.core u.ctxNo ∧ (barKeys u.core u.ctxNo).length < 4
    (Gives (openPorts none [rb]) s () t → Gives (recordOf (t.r1 rb)) t (va, pl) u →
      (Gives (gate (req u 1 0)) u () v → Ends (.tkArr rb) s (v.done [rb])) ∧
      (Gives (gate (req u 4 0)) u () v → Ends (.tkKill rb) s (v.done [rb])) ∧
      (free u → arrives u v → Ends (.tkBarr rb) s (v.done [rb])) ∧
      (¬free u → Ends (.tkBarr rb) s (u.takeTrap u.cur 0x05 u.core.pc (t.r1 rb)))) ∧
    (Gives (openPorts none [rb, rc]) s () t → Gives (recordOf (t.r1 rb)) t (va, pl) u →
      (Gives (gate (req u 2 (t.r2 rb rc))) u () v → Ends (.tkArrd rb rc) s (v.done [rb, rc])) ∧
      (Gives (gate (req u 3 (t.r2 rb rc))) u () v → Ends (.tkDl rb rc) s (v.done [rb, rc])) ∧
      (let ctl := t.r2 rb rc
       ctlReserved ctl false = false → groupExists u u.ctxNo (fld ctl 15 8) = true →
       let there := va ∈ t.core.arrived
       (there ∨ free u) → u.core.outst = [] → u.core.mx.queue = [] → (u.core.rev = true → u.core.held64 < 64) →
       let w := if u.core.inTrail = true ∧ u.core.trail.left.isSome = true then u.endTrail u.cur else u
       let c := w.core.closeWindows.dequeue [rb, rc]
       Ends (.tkBwait rb rc) s (w.setCore { c with
         cbuf := c.cbuf ++ [req u (if there then 6 else 7) ctl], phase := .ending 3, icount := c.icount + 1, stalled := false,
         trail := {}, arrived := c.arrived ++ (if there then [] else [va]) }))) ∧
    (Gives (openPorts (some ra) [rb, rc]) s () t → Gives (recordOf (t.r1 rb)) t (va, pl) u →
      Gives (gate (req u 0 (t.r2 rb rc))) u () v →
      Ends (.tkNew la ra rb rc) s (v.withL ra la [rb, rc] (BitVec.ofNat 64 (va / 64))))

/-- R314, Table 14.15: the tg operations are gated with their mask; where they take effect, each named tag that has a
handler is enabled (with a priority when sb[2] = 1), disabled, made pending or cleared, and every other tag stays; tg.get
gives a tag's status, or the enabled or the pending tags as a mask. -/
def Obligations.TagOperations : Prop :=
  ∀ (s t v : State) (rd : SReg) (sa sb : Src),
    (Gives (openPorts none (srcNames sa ++ srcNames sb)) s () t →
      Gives (gate (.tg 0 (t.a sa) (t.b sa sb))) t () v → Ends (.tgEn sa sb) s (v.done (srcNames sa ++ srcNames sb))) ∧
    (Gives (openPorts none (srcNames sa)) s () t →
      ∀ p ∈ [(1, Instr.tgDis sa), (2, .tgPend sa), (3, .tgClr sa)],
        Gives (gate (.tg p.1 (t.a sa) 0)) t () v → Ends p.2 s (v.done (srcNames sa))) ∧
    (Gives (openPorts (some rd) (srcNames sa)) s () t →
      let a := t.a sa
      let tag := fun i => Tbl.getD (tagView t).tags i {}
      let mask := fun (f : Nat → Bool) (w : Word) => ∀ i < 64, w.getLsbD i = f i
      (fld a 7 6 = 0 → Ends (.tgGet rd sa) s (t.withS rd (srcNames sa) (tagStatus t (fld a 5 0) (tag (fld a 5 0))))) ∧
      (fld a 7 6 = 1 → ∃ w, Ends (.tgGet rd sa) s (t.withS rd (srcNames sa) w) ∧ mask (fun i => (tag i).en) w) ∧
      (fld a 7 6 = 2 → ∃ w, Ends (.tgGet rd sa) s (t.withS rd (srcNames sa) w) ∧
        mask (fun i => tagPending t t.cur t.ctxNo i (tag i)) w) ∧
      (fld a 7 6 = 3 → Ends (.tgGet rd sa) s (t.takeTrap t.cur 0x05 t.core.pc a))) ∧
    (∀ (x : TagSet) (op : Nat) (m arg : Word) (i : Nat),
      let old := Tbl.getD x.tags i {}
      let new := Tbl.getD (x.op op m arg).tags i {}
      (m.getLsbD i = false ∨ old.dflt = none → new = old) ∧
      (m.getLsbD i = true → old.dflt ≠ none → new.dflt = old.dflt ∧
        (op = 0 → new.en = true ∧ new.spnd = old.spnd ∧ new.prio = if arg.getLsbD 2 then fld arg 1 0 else old.prio) ∧
        (op = 1 → new.en = false ∧ new.spnd = old.spnd ∧ new.prio = old.prio) ∧
        (op = 2 → new.spnd = true ∧ new.en = old.en ∧ new.prio = old.prio) ∧
        (op = 3 → new.spnd = false ∧ new.en = old.en ∧ new.prio = old.prio)))

/-! ## Gaussian messages and factors (chapter 11) -/

/-- R229, R233 to R236: the gm operations on blocks, for a dimension of 1 to 8: each writes every lane of its destination
block, and an enabled flag traps with no register changed; gm.res gives the residual and its band. Another dimension is
illegal (R228). R229, R233: the entries of gm.add and gm.sub within the dimension are the rounded sums and differences of
the entries on and above the diagonal, mirrored below it; every entry outside the dimension is +0. -/
def Obligations.GaussianBlocks : Prop :=
  (∀ (s t : State) (rd sa sb : GReg) (x : Src) (n : SReg),
     let d := s.core.gdim.toNat
     let block := fun (i : Instr) (t : State) (srcs : List SReg) (r : Gauss × FFlags) =>
       flagEnd i s t r.2 fun u => u.withG rd srcs r.1.regs
     (1 ≤ d ∧ d ≤ 8 →
       let rm := s.core.rm
       let a := readBlock (s.core.getG sa)
       let b := readBlock (s.core.getG sb)
       block (.gmAdd rd sa sb) s [] (eachPair d a b (arAdd rm) 0) ∧ block (.gmSub rd sa sb) s [] (eachPair d a b (arSub rm) 0) ∧
       block (.gmSol rd sa) s [] (solBlock rm d a 0) ∧ block (.gmCov rd sa) s [] (covBlock rm d a 0) ∧
       (Gives (openPorts none (srcNames x)) s () t →
         let a := readBlock (t.core.getG sa)
         block (.gmDamp rd sa x) t (srcNames x) (dampBlock t.core.rm d (t.core.srcF32 x) a (readBlock (t.core.getG rd)) 0) ∧
         block (.gmMarg rd sa x) t (srcNames x) (margBlock t.core.rm d (fld (t.a x) 7 0) a 0) ∧
         block (.gmLin rd sa x) t (srcNames x) (linBlock t.core.rm d (min (t.a x).toInt 8).toNat (t.core.getG sa) 0)) ∧
       (Gives (openPorts (some n) []) s () t →
         let r := eachPair d (readBlock (t.core.getG sa)) (readBlock (t.core.getG sb)) (arSub t.core.rm) 0
         let w := residual ((List.range d).map r.1.h ++ (upper d).map fun e => r.1.at e.1 e.2)
         flagEnd (.gmRes n sa sb) s t r.2 fun u => u.withS n [] (BitVec.ofNat 64 (bandOf w * 2 ^ 32 + w.toNat)))) ∧
     (¬(1 ≤ d ∧ d ≤ 8) → ∀ i ∈ [Instr.gmAdd rd sa sb, .gmSub rd sa sb, .gmSol rd sa, .gmCov rd sa, .gmDamp rd sa x,
         .gmMarg rd sa x, .gmLin rd sa x, .gmRes n sa sb], Ends i s (s.takeTrap s.cur 0x01 s.core.pc (irWord s)))) ∧
  (∀ (d : Nat) (rm : Rm) (xs ys : List VWord) (i j : Nat), d ≤ 8 → i < 8 → j < 8 →
     let a := readBlock xs
     let b := readBlock ys
     let entries := fun (f : Rm → Lane → Lane → Ar Lane) (op : Rm → Lane → Lane → Lane × FFlags) =>
       let r := (eachPair d a b (f rm) 0).1
       r.h i = (if i < d then (op rm (a.h i) (b.h i)).1 else 0) ∧
       r.at i j = (if i < d ∧ j < d then (op rm (a.at (min i j) (max i j)) (b.at (min i j) (max i j))).1 else 0)
     entries arAdd fadd32 ∧ entries arSub fsub32)

/-- R239 to R241: fg.attach, fg.detach, fg.slot, fg.gen and fg.post on a node object that passes its checks. R244, R246:
gm.conv of a member is a gated report, and of another core traps; gm.rdro reads the group's run-out unit. That the object stands at
rb[51:0] whatever rb[63:52] holds is the model's choice (log 89 DEDUCED). -/
def Obligations.FactorGraph : Prop :=
  (∀ (s t u v : State) (la : BitVec 4) (ra rb rc : SReg) (g : GReg) (off w0 : Nat) (w : Word) (bs : List Byte),
     (Gives (openPorts (some ra) [rb, rc]) s () t → Gives (nodeObject (t.r1 rb)) t (off, w0) u →
       let b := t.r1 rb
       let e := t.r2 rb rc
       let va := b.toNat % 2 ^ 52
       (fld e 24 16 = 0 → fld e 39 34 = 0 → inAnyGroup t t.ctxNo (fld e 63 52) = true →
         ((∀ i < edgesOf w0, bit w0 i = true) → Ends (.fgAttach la ra rb rc) s (u.withL ra la [rb, rc] 0xFFFFFFFFFFFFFFFF)) ∧
         (∀ i < edgesOf w0, bit w0 i = false → (∀ j < i, bit w0 j = true) → Gives (attachEdge va off w0 i e) u w v →
           Ends (.fgAttach la ra rb rc) s (v.withL ra la [rb, rc] w))) ∧
       (fld e 63 3 = 0 → fld e 2 0 < edgesOf w0 →
         Ends (.fgSlot la ra rb rc) s (u.withL ra la [rb, rc] (b + BitVec.ofNat 64 (128 + 192 * fld e 2 0)))) ∧
       (e = 8 → Ends (.fgGen la ra rb rc) s (u.withL ra la [rb, rc] (BitVec.ofNat 64 (bits w0 63 32)))) ∧
       (∀ i < 8, e = BitVec.ofNat 64 i → i < edgesOf w0 → Gives (ownBytes (va + 304 + 192 * i) (off + 304 + 192 * i) 2) u bs v →
         Ends (.fgGen la ra rb rc) s (v.withL ra la [rb, rc] (BitVec.ofNat 64 (ofBytes bs))))) ∧
     (Gives (openPorts none [ra, rb]) s () t → Gives (nodeObject (t.r2 ra rb)) t (off, w0) u →
       let i := fld (t.r1 ra) 2 0
       fld (t.r1 ra) 63 3 = 0 → i < edgesOf w0 →
       (bit w0 i = false → Ends (.fgDetach ra rb) s (u.done [ra, rb])) ∧
       (bit w0 i = true → Gives (detachEdge ((t.r2 ra rb).toNat % 2 ^ 52) off w0 i) u () v →
         Ends (.fgDetach ra rb) s (v.done [ra, rb]))) ∧
     (1 ≤ s.core.gdim.toNat → s.core.gdim.toNat ≤ 8 → Gives (openPorts none [rb, rc]) s () t →
       Gives (nodeObject (t.r1 rb)) t (off, w0) u →
       let e := t.r2 rb rc
       let i := fld e 2 0
       let va := (t.r1 rb).toNat % 2 ^ 52
       fld e 31 3 = 0 → i < edgesOf w0 → bit w0 i = true → Gives (ownBytes (va + 64 + 8 * i) (off + 64 + 8 * i) 8) u bs v →
       ∀ z, Gives (gate (.post (postOf v s.core.gdim.toNat (v.core.getG g) (BitVec.ofNat 32 (fld e 63 32)) (ofBytes bs)))) v () z →
         Ends (.fgPost g rb rc) s (z.done [rb, rc]))) ∧
  (∀ (s t v : State) (rd : SReg) (sa sb : Src),
     (Gives (openPorts none (srcNames sa ++ srcNames sb)) s () t →
       let w := t.b sa sb
       let g := fld w 7 0
       (inGroup t t.ctxNo g t.cur = true → Gives (gate (.conv g (t.core.srcF32 sa))) t () v →
         Ends (.gmConv sa sb) s (v.done (srcNames sa ++ srcNames sb))) ∧
       (inGroup t t.ctxNo g t.cur = false → Ends (.gmConv sa sb) s (t.takeTrap t.cur 0x05 t.core.pc w))) ∧
     (Gives (openPorts (some rd) (srcNames sa)) s () t →
       Ends (.gmRdro rd sa) s (t.withS rd (srcNames sa) (rdroWord t t.ctxNo (fld (t.a sa) 7 0)))))

/-! ## The matrix engine (chapter 10) -/

/-- R204 to R218, R221, R222: a matrix command whose checks pass enters its core's queue and retires: mx.mma, mx.mmas,
mx.gang, mx.zero and mx.ldacc with their tile under the lookahead field, mx.cfg, and mx.mask with all columns, the columns
of rb, or the columns predicted from a tile. -/
def Obligations.MatrixCommands : Prop :=
  ∀ (s n t u : State) (la : BitVec 4) (ra : TReg) (rb rc rd : SReg) (a b : MxOperand) (x : Option MxOperand) (op : MxOp)
    (lines : List (Nat × Place)), Gives (nameTile ra) s () n →
    (Gives (openPorts none [rb, rc]) n () t →
      let mask := t.core.mx.maskAhead
      (Gives (mmaChecks (t.r1 rb) (t.r2 rb rc)) t (a, b, lines) u →
        entersQueue (.mxMma la ra rb rc) s u (.mma ra a b) mask lines (some ra) la [rb, rc]) ∧
      (Gives (mmasChecks ra (t.r1 rb) (t.r2 rb rc)) t (op, lines) u →
        entersQueue (.mxMmas la ra rb rc) s u op mask lines (some ra) la [rb, rc]) ∧
      (t.r2 rb rc = 0 → entersQueue (.mxMask ra rb rc) s t (.mask 0xFFFFFFFF) 0 [] none 0 [rb, rc]) ∧
      (t.r2 rb rc = 1 → (t.core.mx.queue.any (writesTile ra)) = false → (t.core.mx.tile ra).mark = .clean →
        entersQueue (.mxMask ra rb rc) s t (.mask (predictMask (t.core.mx.tile ra).t ((t.r1 rb).setWidth 32))) 0 [] none 0
          [rb, rc]) ∧
      (t.r2 rb rc = 2 → entersQueue (.mxMask ra rb rc) s t (.mask ((t.r1 rb).setWidth 32)) 0 [] none 0 [rb, rc])) ∧
    (n.core.inTrail = true → n.core.trail.role = .leader → Gives (openPorts none [rb, rc]) n () t →
      Gives (gangChecks true (t.r1 rb) (t.r2 rb rc)) t (x, b, lines) u →
      entersQueue (.mxGang la ra rb rc) s u (.gang ra x b) t.core.mx.maskAhead lines (some ra) la [rb, rc]) ∧
    (n.core.inTrail = true → n.core.trail.role ≠ .leader → Gives (openPorts none [rc]) n () t →
      Gives (gangChecks false 0 (t.r1 rc)) t (x, b, lines) u →
      entersQueue (.mxGang la ra rb rc) s u (.gang ra x b) t.core.mx.maskAhead lines (some ra) la [rc]) ∧
    (n.core.inTrail = false → Ends (.mxGang la ra rb rc) s (n.takeTrap n.cur 0x01 n.core.pc (irWord n))) ∧
    entersQueue (.mxZero la ra) s n (.zero ra) 0 [] (some ra) la [] ∧
    (Gives (openPorts none [rb]) n () t →
      let w := t.r1 rb
      ∀ off, w.toNat % 64 = 0 → ownOff t (addrOf w) = some off → off + 4096 ≤ 0x40000 →
        Gives (checkLines [(addrOf w, 4096)]) t lines u →
        entersQueue (.mxLdacc la ra rb) s u (.ldacc ra off) 0 lines (some ra) la [rb]) ∧
    (Gives (openPorts none [rc, rd]) s () t →
      let item := t.r1 rc
      let v := t.r2 rc rd
      item.toNat ≤ 5 → badItem item.toNat v = false →
        entersQueue (.mxCfg rc rd) s t (.cfg item.toNat v) 0 [] none 0 [rc, rd])

/-- R203, R219, R220, R223: mx.stacc and mx.stsp, behind every earlier command of their core and with a clean tile, store
the tile whole in a format, or its bitmap and its nonzero elements up to the capacity; a full destination traps with 0x0C
and the element in vprog. mx.drain waits for the earlier commands. -/
def Obligations.MatrixStores : Prop :=
  ∀ (s n t t1 t2 u v : State) (ra : TReg) (rb rc : SReg) (size : Nat) (f : Option Fmt) (xs ys zs : List (Nat × Place × List Byte)),
    Gives (nameTile ra) s () n → Gives (openPorts none [rb, rc]) n () t →
    let tile := t.core.mx.tile ra
    let elems := tileElems tile.t
    let clean := fun (u : State) => u.core.mx.queue = [] ∧ (u.core.mx.tile ra).mark = .clean
    ((t.r2 rb rc).toNat < 64 → staccFmt (t.r2 rb rc).toNat = some (size, f) →
      let va := addrOf (t.r1 rb)
      let outs := elems.map (staccElem size f)
      va % 64 = 0 → Gives (destParts va 64 (outs.flatMap Prod.fst) (partsOf va (1024 * size))) t xs u → clean u →
      Gives (storeParts xs) u () v →
      Ends (.mxStacc ra rb rc) s ((v.flagged (unionFlags (outs.map Prod.snd))).done [rb, rc])) ∧
    (let bm := addrOf (t.r1 rb)
     let va := addrOf (t.r2 rb rc)
     let cap := min (fld (t.r2 rb rc) 63 52) 1024
     let e0 := t.core.vprog.toNat
     let nz := (List.range 1024).filter fun e => decide (e0 ≤ e) && (elems.getD e 0).setWidth 31 != 0
     let stop := (nz[cap]?).getD 1024
     let vals := (nz.take cap).flatMap fun e => toBytes 4 (elems.getD e 0).toNat
     let bytes := bitmapBytes elems (e0 / 8) (min (stop / 8) 127) stop
     let at' := bm + e0 / 8
     bm % 64 = 0 → va % 4 = 0 → Gives (destParts bm 64 [] (partsOf bm 128)) t zs t1 → clean t1 →
     Gives (destParts va 4 vals (partsOf va (4 * (nz.take cap).length))) t1 xs t2 →
     Gives (destParts at' 1 bytes (partsOf at' bytes.length)) t2 ys u → Gives (storeParts (xs ++ ys)) u () v →
     (stop = 1024 → Ends (.mxStsp ra rb rc) s ((v.setCore { v.core with vprog := 0 }).done [rb, rc])) ∧
     (stop < 1024 →
       let w := v.setCore { v.core with vprog := BitVec.ofNat 11 stop }
       Ends (.mxStsp ra rb rc) s (w.takeTrap w.cur 0x0C w.core.pc (BitVec.ofNat 64 (va + 4 * (nz.take cap).length))))) ∧
    (s.core.mx.queue = [] → Ends .mxDrain s (s.done [])) ∧ (s.core.mx.queue ≠ [] → Ends .mxDrain s s.waits)

/-! ## The copy engine (chapter 07) -/

/-- R144, R149 to R153: the copy instructions on control words, descriptors and ranges that pass their checks issue their
command; cp.wptr reads an item of a channel, and cp.cancel cancels one channel's commands, or every channel's. -/
def Obligations.CopyCommands : Prop :=
  ∀ (s t : State) (la : BitVec 4) (ra rb rc : SReg),
    (Gives (openPorts none [ra, rb, rc]) s () t →
      let a := t.r1 ra
      let b := t.r2 ra rb
      let w := t.r3 ra rb rc
      (badControl t w = false →
        (∀ p ∈ [(0, Instr.cpGet ra rb rc), (1, .cpPut ra rb rc)], ∀ own, addrOf a % lsSize + (commandOf p.1 w).len ≤ lsSize →
          ownOff t (addrOf a) = some own →
          issuesCopy p.2 s t { commandOf p.1 w with own := own, far := addrOf b } [ra, rb, rc]) ∧
        (∀ own, addrOf a % lsSize + (commandOf 5 w).len ≤ lsSize → ownOff t (addrOf a) = some own → addrOf a % 64 = 0 →
          (commandOf 5 w).len % 64 = 0 → fld b 63 34 = 0 → inAnyGroup t t.ctxNo (fld b 11 0) = true →
          issuesCopy (.cpNzpk ra rb rc) s t { commandOf 5 w with own := own, far := b.toNat } [ra, rb, rc]) ∧
        (addrOf a % 8 = 0 → (commandOf 4 w).len % 8 = 0 →
          issuesCopy (.cpFill ra rb rc) s t { commandOf 4 w with far := addrOf a, pat := b } [ra, rb, rc])) ∧
      (∀ (bs : List Byte) (u : State) (doff own : Nat), ownOff t (addrOf w) = some doff → addrOf w % 32 = 0 →
        Gives (ownBytes (addrOf w) doff 32) t bs u →
        let f := fun i => BitVec.ofNat 64 (ofBytes ((bs.drop (8 * i)).take 8))
        (f 1).toNat < 2 ^ 16 → badControl u (f 0) = false → ownOff u (addrOf a) = some own →
        ∀ p ∈ [(2, Instr.cpGet2d ra rb rc), (3, .cpPut2d ra rb rc)],
          let k : CopyCmd := { commandOf p.1 (f 0) with
            own := own, far := addrOf b, rows := (f 1).toNat, ostr := (f 2).toInt, fstr := (f 3).toInt }
          rowsFit k = true → issuesCopy p.2 s u k [ra, rb, rc])) ∧
    (Gives (openPorts (some ra) [rb]) s () t →
      let w := t.r1 rb
      let h := t.core.cp.chans.toList.getD (fld w 1 0) {}
      ∀ p ∈ [(0, h.wptr), (1, h.icnt), (2, chanStatus t.core (fld w 1 0)), (3, h.fva)], fld w 3 2 = p.1 →
        Ends (.cpWptr la ra rb) s (t.withL ra la [rb] p.2)) ∧
    (Gives (openPorts none [ra]) s () t →
      let w := t.r1 ra
      let chs := if bit w.toNat 2 then [0, 1, 2, 3] else [fld w 1 0]
      ((chs.any (midBeat t.core)) = false →
        Ends (.cpCancel ra) s ((chs.foldl (fun s ch => s.cancelChan s.cur ch) t).done [ra])) ∧
      ((chs.any (midBeat t.core)) = true →
        Ends (.cpCancel ra) s (t.setCore { chs.foldl Core.stopChan t.core with stalled := true })))

/-! ## Paging and chains (chapters 04 and 05) -/

/-- R93 to R100: the pg instructions in a privileged context, on operands that pass their checks; pg.fbrd takes the oldest
record of a die's buffer and its dropped flag. In an unprivileged context all but pg.hint trap with 0x05 and their word. -/
def Obligations.PagingInstructions : Prop :=
  ∀ (s t u : State) (la : BitVec 4) (ra rb rc : SReg) (m : Option Nat),
    ((s.ctxAt s.ctxNo).privileged = true →
      (Gives (openPorts none [ra, rb, rc]) s () t →
        let a := t.r1 ra
        let b := t.r2 ra rb
        Gives (mailboxOf rc (t.r3 ra rb rc)) t m t →
        (Gives (gate (.inval { ctx := fld a 5 0, first := fld b 51 16, count := fld b 15 0 + 1, all := bit a.toNat 6, iss := t.ctxNo, mpa := m }))
            t () u → Ends (.pgInval ra rb rc) s (u.done [ra, rb, rc])) ∧
        (Gives (gate (.pin ⟨fld a 5 0, bit a.toNat 6, addrOf b, t.cur, t.ctxNo, m⟩)) t () u → Ends (.pgPin ra rb rc) s (u.done [ra, rb, rc]))) ∧
      (Gives (openPorts none [ra]) s () t → Gives (gate (.replay (fld (t.r1 ra) 5 0))) t () u →
        Ends (.pgReplay ra) s (u.done [ra])) ∧
      (Gives (openPorts (some ra) [rb]) s () t → Gives becomeIrrevocable t () u →
        let d := fld (u.r1 rb) 2 0
        let x := u.dieAt d
        Ends (.pgFbrd la ra rb) s ((u.onDie d fun x => { x with fbuf := x.fbuf.drop 1, dropped := false }).withL ra la [rb]
          (recordWord x.fbuf.head? x.dropped)))) ∧
    ((s.ctxAt s.ctxNo).privileged = false →
      ∀ i ∈ [Instr.pgInval ra rb rc, .pgPin ra rb rc, .pgReplay ra, .pgFbrd la ra rb, .chLink ra rb rc, .chUnlink ra rb rc,
        .chRelink ra rb rc], Ends i s (s.takeTrap s.cur 0x05 s.core.pc (irWord s))) ∧
    (Gives (openPorts none [ra, rb, rc]) s () t →
      Ends (.pgHint ra rb rc) s
        ((t.hint (t.r1 ra).toNat (addrOf (t.r2 ra rb)) (fld (t.r3 ra rb rc) 2 0)).done [ra, rb, rc]))

/-- R115 to R119: the ch instructions: the reconfigurations in a privileged context and ch.clean are gated, ch.stat reads a
word of a chain's entry, and ch.tail eight bytes at the tail. -/
def Obligations.ChainInstructions : Prop :=
  ∀ (s t u v : State) (la : BitVec 4) (ra rb rc : SReg) (m : Option Nat) (pl : Place) (bs : List Byte),
    ((s.ctxAt s.ctxNo).privileged = true → Gives (openPorts none [ra, rb, rc]) s () t →
      Gives (mailboxOf rc (t.r3 ra rb rc)) t m t →
      ∀ p ∈ [(0, Instr.chLink ra rb rc), (1, .chUnlink ra rb rc), (2, .chRelink ra rb rc)],
        Gives (gate (.ch p.1 (t.r1 ra) (t.r2 ra rb) m)) t () u → Ends p.2 s (u.done [ra, rb, rc])) ∧
    (Gives (openPorts none [ra, rc]) s () t → Gives (mailboxOf rc (t.r2 ra rc)) t m t →
      Gives (gate (.ch 5 (t.r1 ra) 0 m)) t () u → Ends (.chClean ra rc) s (u.done [ra, rc])) ∧
    (Gives (openPorts (some ra) [rb, rc]) s () t →
      let ch := fld (t.r1 rb) 7 0
      let e := chainOf t t.ctxNo ch
      (ch = 0 → Ends (.chStat la ra rb rc) s (t.withL ra la [rb, rc] 0)) ∧
      (ch ≠ 0 → Ends (.chStat la ra rb rc) s (t.withL ra la [rb, rc] (chainWord e (chainPend t t.ctxNo ch) (fld (t.r2 rb rc) 1 0))))) ∧
    (Gives (openPorts (some ra) [rb]) s () t →
      let va := addrOf (t.r1 rb)
      Gives (resolve va 8 .read) t pl u → Gives (tailBytes va pl) u bs v →
      Ends (.chTail la ra rb) s (v.withL ra la [rb] (BitVec.ofNat 64 (ofBytes bs))))

/-! ## Launches (chapter 15) -/

/-- R318, R330 to R333, R340: the gl instructions on operands and descriptors that pass their checks. -/
def Obligations.LaunchInstructions : Prop :=
  ∀ (s t u v w : State) (la : BitVec 4) (ra rb : SReg) (ws : List Word) (pl : Place) (bs : List Byte) (g : GateEntry) (ps : List Nat),
    (Gives (openPorts none [ra, rb]) s () t →
      let a := t.r1 ra
      let b := t.r2 ra rb
      (fld a 63 6 = 0 → Gives (glDescriptor b) t ws u → badLaunch u ws = false →
        Gives (gate (.arm (fld a 5 0) (wordOf ws 0) (wordOf ws 1))) u () v → Ends (.glArm ra rb) s (v.done [ra, rb])) ∧
      (badTrigger a = false →
        (bit a.toNat 6 = false → Gives (gate (.trig ⟨t.ctxNo, true, fld a 5 0, b⟩)) t () v →
          Ends (.glTrig ra rb) s (v.done [ra, rb])) ∧
        (bit a.toNat 6 = true → Gives (gate (.trigRemote (fld a 17 8) ⟨fld a 23 18, true, fld a 5 0, b⟩ a)) t () v →
          Ends (.glTrig ra rb) s (v.done [ra, rb])))) ∧
    (Gives (openPorts none [ra]) s () t →
      let a := t.r1 ra
      (fld a 63 6 = 0 → Gives (gate (.disarm (fld a 5 0))) t () v → Ends (.glDisarm ra) s (v.done [ra])) ∧
      (Gives (glDescriptor a) t ws u →
        let w0 := wordOf ws 0
        gateFor u (fld w0 63 32) u.ctxNo = some g → badGate ws = false →
        Gives (readParties (fld (wordOf ws 2) 51 0) (fld w0 10 0)) u ps v → (∀ p ∈ ps, p < 1024) → ps.Nodup →
        Gives (gate (.gate { id := fld w0 63 32, time := (wordOf ws 1).toNat, action := g.action, partly := g.partly,
                             guard := g.guard, pay := wordOf ws 3 } (fld w0 23 12) (fld w0 29 24) ps)) v () w →
        Ends (.glGate ra) s (w.done [ra]))) ∧
    (Gives (openPorts (some ra) [rb]) s () t →
      let b := t.r1 rb
      let l := launchOf t t.ctxNo (fld b 5 0)
      let va := fld (t.ctxAt t.ctxNo).lcbase 51 12 * 4096 + 64 * fld b 5 0
      (fld b 63 8 = 0 →
        (fld b 7 6 = 0 → Ends (.glIdx la ra rb) s (t.withL ra la [rb] (statusWord l))) ∧
        (fld b 7 6 = 1 → Ends (.glIdx la ra rb) s (t.withL ra la [rb] l.saved)) ∧
        (2 ≤ fld b 7 6 → l.fired = false → Ends (.glIdx la ra rb) s (t.withL ra la [rb] 0)) ∧
        (∀ k < 2, fld b 7 6 = k + 2 → l.fired = true → Gives (resolve (va + 8 * k) 8 .read) t pl u →
          Gives (tailBytes (va + 8 * k) pl) u bs v →
          Ends (.glIdx la ra rb) s (v.withL ra la [rb] (BitVec.ofNat 64 (ofBytes bs))))) ∧
      (fld b 63 10 = 0 → (fld b 9 8 = 3 → groupExists t t.ctxNo (fld b 7 0) = true) →
        Ends (.glGrp la ra rb) s (t.withL ra la [rb] (groupItem t (fld b 7 0) (fld b 9 8)))))

/-! ## Steps of the device -/

/-- R6, R243, R334, R336, R337: a register write by the device's step leaves what the write by an instruction leaves; rostat
selects a unit, arms it afresh, or disarms it; a pre-emption of a running context stops it, and halts each core that holds
it, or is done where none does; a resume of a context with an unaltered save record lets it run again, and with an altered
one kills it. -/
def Obligations.RegisterSteps : Prop :=
  ∀ (s : State) (n : BitVec 10) (v : Word) (ctx : Nat),
    (n ≠ 0x062 → n ≠ 0x12A → (loopBound n.toNat && s.core.lp.act) = false → Ends (.registerWrite n v) s (s.writeReg n.toNat v)) ∧
    Ends (.rostatSelect v) s (s.setCore { s.core with rgrp := v.setWidth 8 }) ∧
    (let old := runOf s s.ctxNo (v.toNat % 256)
     let fired := old.fired && !v.getLsbD 18
     (∃ t, Ends (.rostatArm v) s t ∧ t.core.rgrp = v.setWidth 8 ∧ runOf t s.ctxNo (v.toNat % 256) =
       { old with
           arm := true, lent := (v >>> 8).setWidth 6, fired := fired, seen := false, count := 0, cond := false, done := false,
           reports := [] }) ∧
     (∃ t, Ends (.rostatDisarm v) s t ∧ t.core.rgrp = v.setWidth 8 ∧ runOf t s.ctxNo (v.toNat % 256) =
       { old with arm := false, lent := (v >>> 8).setWidth 6, fired := fired, cond := false, count := 0, done := false })) ∧
    ((s.ctxAt ctx).live = true → (s.ctxAt ctx).state = 0 → ∃ t, Ends (.ctxctlPreempt ctx) s t ∧
      (residents s ctx = [] → (t.ctxAt ctx).state = 2) ∧
      (residents s ctx ≠ [] → (t.ctxAt ctx).state = 1 ∧ t.flight = s.flight ++ (residents s ctx).map Instr.preemptionHalt)) ∧
    ((s.ctxAt ctx).live = true → (s.ctxAt ctx).state = 2 → (s.ctxAt ctx).parked = [] → ∃ t, Ends (.ctxctlResume ctx) s t ∧
      ((s.ctxAt ctx).altered ≠ [] → (t.ctxAt ctx).state = 3) ∧ ((s.ctxAt ctx).altered = [] → (t.ctxAt ctx).state = 0))

/-- R290, R294, R299, R269: a message that arrives for a running context at a ready core enters the core's inbox behind the
earlier ones, where its tag has a handler and its core has room; for a pre-empted context it goes to the proofing store, and
for a killed one it is dropped. A message of an ordered domain takes the key of its timestamp, or of the frontier where that
is later, and of its arrival. A word of a neighbour enters its FIFO last. R241, R245: a post reaches its core, where an idle
core without buffered posts applies it and a busy one buffers it, up to 16; the oldest buffered post is applied at a
boundary. The reports of a member leave their window, and a unit whose count has reached its quiet time fires its launch
entry and is disarmed. -/
def Obligations.ArrivalSteps : Prop :=
  (∀ (s : State) (m : Msg) (c port ctx : Nat) (w : BitVec 65),
     let y := s.ctxAt m.ctx
     let k := s.clusterAt (clusterOf m.dcore)
     let m' := { m with first := false }
     ((y.live = false ∨ y.state = 3) → Ends (.messageArrival m) s s) ∧
     (y.live = true → y.state = 2 → y.store1.length + y.store2.length < storeCap (fld y.proof 4 0) →
       Ends (.messageArrival m) s ((s.proofEntry m.ctx m').onCtx m.ctx fun y => { y with store2 := y.store2 ++ [m'] })) ∧
     (y.live = true → y.state = 0 → coreLost s m.dcore = false → (s.coreAt m.dcore).ready = true →
       (s.coreAt m.dcore).remap = false → k.remap = false → (Tbl.getD (tagsKnown s m.dcore m.ctx).tags m.tag {}).dflt ≠ none →
       (y.ring.any (sameTag m)) = false → (k.inbox.any (sameTag m)) = false → (s.coreAt m.dcore).inbox.length < coreCap s m.dcore →
       Ends (.messageArrival m) s (s.onCore m.dcore fun x => { x with inbox := x.inbox ++ [m'] })) ∧
     (y.live = true → y.state ≠ 3 → m.key = none → ∃ t, Ends (.sequencerArrival m) s t ∧
       let d := domainOf s m.ctx m.grp
       (domainOf t m.ctx m.grp).next = d.next + 1 ∧ (domainOf t m.ctx m.grp).front = d.front ∧
       ((∀ c, coreLost s c = false) → groupMembers s m.ctx m.grp ≠ [] → (domainOf t m.ctx m.grp).keys = d.keys ++ [(max m.ts d.front, d.next)])) ∧
     (moving s c = false → moving s ((neighbour c port).getD c) = false → port < 4 →
       (s.coreAt c).ctx = some ctx → Tbl.has (s.ctxAt ctx).saves c = false →
       ∃ t, Ends (.queueWordArrival c port ⟨ctx, w⟩) s t ∧ (t.coreAt c).fifo port = (s.coreAt c).fifo port ++ [w] ∧
         ∀ q < 4, q ≠ port → (t.coreAt c).fifo q = (s.coreAt c).fifo q)) ∧
  (∀ (s : State) (p : Post) (rest : List Post) (ctx g c : Nat),
     let x := s.coreAt p.ncore
     (Tbl.has (s.ctxAt p.ctx).saves p.ncore = false → x.posts.length < 16 → x.remap = false →
       (s.clusterAt (clusterOf p.ncore)).remap = false →
       (x.phase = .idle → x.posts = [] → Ends (.postArrival p) s (s.applyPost p)) ∧
       (x.phase ≠ .idle → Ends (.postArrival p) s (s.onCore p.ncore fun x => { x with posts := x.posts ++ [p] }))) ∧
     ((s.coreAt c).posts = p :: rest → (s.coreAt c).phase = .idle → (s.coreAt c).holdsPosts = false →
       Ends (.postApply c) s ((s.onCore c fun x => { x with posts := rest }).applyPost p)) ∧
     (∃ t, Ends (.reportWindowExpiry ctx g c) s t ∧
       (runOf t ctx g).reports = (runOf s ctx g).reports.filter fun r => r.1 != c || decide (r.2.2 < 4096)) ∧
     ((s.ctxAt ctx).state < 2 → (runOf s ctx g).due = true → ∃ t, Ends (.runOutFire ctx g) s t ∧
       (runOf t ctx g).fired = true ∧ (runOf t ctx g).arm = false ∧
       t.flight = s.flight ++ [.launchTrigger ⟨ctx, false, (runOf s ctx g).lent.toNat, BitVec.ofNat 64 g⟩]))

/-- R13, R166, R186, R291, R292: a dispatch starts the oldest message of the chosen tag on an idle core: at its handler's
entry, with its payload in m0 to m7, and with flags, loop, trap level, counts and windows cleared; s0 reads 0. The open
registers hold free values (log 3). R280, R300, R306, R336, R338: an ended activation that holds nothing commits, and its
core is idle; a core of a context that is being pre-empted halts, with its state in the context's save record; an idle core
takes in a context, with the context's image in its local store. -/
def Obligations.ActivationSteps : Prop :=
  (∀ (s : State) (c ctx tag best : Nat) (m : Msg) (rest : List Msg), canStart s c = some ctx →
     let s1 := s.refill c
     chooseTag (candidates s1 c ctx) (tagsOf s1 c ctx).rr = some (tag, best) → ofTag ctx tag (s1.coreAt c).inbox = m :: rest →
     wantsSlot s1 m = false → m.kind ≠ 1 →
     ∃ t, Ends (.dispatch c) s t ∧
       let x := t.coreAt c
       x.phase = .running ∧ x.trig = m ∧ x.rev = true ∧ x.ctx = some ctx ∧ (∀ i : Fin 8, x.getS (BitVec.ofNat 6 (48 + i)) = m.pay.getD i 0) ∧
       x.getS 0 = 0 ∧ x.pc = BitVec.ofNat 52 (handlerEntry (Tbl.getD (tagsOf s1 c ctx).tags m.tag {}) m.hoff) ∧
       x.frm = 0 ∧ x.fflags = 0 ∧ x.gdim = 1 ∧ x.lp = {} ∧ x.vprog = 0 ∧ x.tlv = 0 ∧ x.icount = 0 ∧ x.pend = [] ∧ x.cbuf = [] ∧
       x.seq = (s.coreAt c).seq + 1 ∧ x.rtag = rtagOf m ∧ x.tvec = (s1.ctxAt ctx).ctvec ∧ x.csel = BitVec.ofNat 6 ctx) ∧
  (∀ (s : State) (c ctx : Nat),
     let x := s.coreAt c
     (x.phase = .ending 0 → x.word = none → x.cbuf = [] → x.calm = true → x.trig.key = none → x.trig.ord = false → x.trig.kind = 0 →
       ∃ t, Ends (.activationCommit c) s t ∧ (t.coreAt c).phase = .idle ∧ (t.coreAt c).rev = true ∧ (t.coreAt c).cbuf = [] ∧
         (t.coreAt c).s = x.s ∧ (t.coreAt c).mx.tiles = x.mx.tiles ∧ SameMemory s t) ∧
     (x.ctx = some ctx → (s.ctxAt ctx).state = 1 → Tbl.has (s.ctxAt ctx).saves c = false → x.phase = .idle → x.word = none →
       x.fetching = none → x.pend = [] → cannotHalt s ctx c = false → ∃ t, Ends (.preemptionHalt c) s t ∧ Tbl.has (t.ctxAt ctx).saves c = true ∧
         (Tbl.getD (t.ctxAt ctx).saves c {}).s = x.s ∧ (Tbl.getD (t.ctxAt ctx).saves c {}).v = x.v ∧
         (t.coreAt c).phase = .idle ∧ (t.coreAt c).tlv = 0) ∧
     (canSwap s c ctx = true → Tbl.has (s.ctxAt ctx).saves c = false → x.ctx = none →
       ∃ t, Ends (.localStoreSwap c ctx) s t ∧ (t.coreAt c).ctx = some ctx ∧
         ∀ k < 0x40000, t.mem.read (lsPa s c k) = s.mem.read (imagePa s ctx c k)))

/-- R308, R309, R311 to R313, R322, R156: the steps of tasks and barriers. At a record that reads well, tk.new on a free one makes
it wait for its arrivals, or queues it at once where it asks for none; an arrival, or several as one step, lowers the count of a
waiting record; the last one queues a task with status 0, and releases a barrier, whose generation advances, whose count is again
its number of parties, and whose release goes to every member of its group; tk.dl writes the deadline, and tk.kill frees a waiting
or queued record and takes it out of its queue. A record is written in its own bytes alone. A task that is queued stands in the
ready queue of its core's cluster. An operation on a record of another package also leaves as a request (log 14 DESIGN CHOICE). An
overdue task is queued with status 1; a task is taken by an idle core that may take it, and its record runs, at once or when its
footprint has been fetched; a barrier's acknowledgement and release reach the core's entry; an index that is acknowledged leaves its
batch; and a footprint that has been read makes its task ready. -/
def Obligations.TaskSteps : Prop :=
  ∀ (s : State) (r : TaskReq) (c ctx va gen ent e i k : Nat) (m : Msg) (q : Ready) (pa : Nat),
    let t := taskAt s r.pa
    (recordError s r.ctx r.pa = none → t.bad = false →
      let becomes := fun (u : State) (st gen n : Nat) =>
        Ends (.taskAtHome r) s (u.writeRecord r.core r.ctx r.pa (taskWord0 st gen n))
      let queues := fun (u : State) => Ends (.taskAtHome r) s (u.queueTask r.core r.ctx r.va r.pa 0 0)
      let n := r.arg.toNat % 2 ^ 32
      let asked := s.askRemote r.ctx r.pa (.task r)
      let armed := asked.onCtx r.ctx fun x => { x with armed := Tbl.put x.armed r.va r.core }
      let acked := asked.launch (.barrierAcknowledgement r.core r.ctx r.va ⟨t.gen, r.ent⟩)
      (r.op = 0 → t.st = 0 → (n ≠ 0 → becomes armed 1 t.gen n) ∧ (n = 0 → t.bar = false → queues armed)) ∧
      (r.op = 1 → t.st = 1 → (1 < t.count → becomes asked 1 t.gen (t.count - 1)) ∧ (t.count = 1 → t.bar = false → queues asked)) ∧
      (r.op = 2 → t.st = 1 → n ≠ 0 → (n < t.count → becomes asked 1 t.gen (t.count - n)) ∧
        (n = t.count → t.bar = false → queues asked)) ∧
      (r.op = 1 → t.st = 0 ∨ t.st = 4 → Ends (.taskAtHome r) s (asked.logCore r.ctx 0x2B 0 r.core r.va 0)) ∧
      (r.op = 3 → t.bar = false → Ends (.taskAtHome r) s (asked.writeRecord r.core r.ctx (r.pa + 32) (toBytes 8 r.arg.toNat))) ∧
      (r.op = 4 → (t.st = 1 ∨ t.st = 2 → becomes (asked.unqueue r.ctx r.va) 0 t.gen t.count) ∧
        (t.st ≠ 1 → t.st ≠ 2 → Ends (.taskAtHome r) s asked)) ∧
      (r.op = 5 → t.bar = true → t.st = 1 → (1 < t.count → becomes acked 1 t.gen (t.count - 1)) ∧
        (t.count = 1 →
          let v := acked.writeRecord r.core r.ctx r.pa (taskWord0 1 (t.gen + 1) (bits t.w3 63 32))
          Ends (.taskAtHome r) s { v with
            flight := v.flight ++ (groupMembers v r.ctx (bits t.w1 39 32)).map fun k => .barrierRelease k r.ctx r.va t.gen }))) ∧
    (chainHolding s ctx pa = none → ∀ bs, let u := s.writeRecord c ctx pa bs
      u.readPa pa bs.length = bs ∧ SameOutside s u pa bs.length) ∧
    ((s.ctxAt ctx).state ≠ 3 → ∃ q ∈ ((s.queueTask c ctx va pa e i).clusterAt (clusterOf c)).ready,
      q.m.ctx = ctx ∧ q.m.kind = 2 ∧ q.m.pay.take 2 = [BitVec.ofNat 64 va, BitVec.ofNat 64 e]) ∧
    (recordPa s ctx va = some pa → overdue s (taskAt s pa) = true →
      Ends (.taskDeadline ctx va) s (s.queueTask (armedBy s ctx va) ctx va pa 1 (taskAt s pa).count)) ∧
    (canStart s c = some ctx → ((tagsOf s c ctx).tags.any fun e => e.2.en && tagPending s c ctx e.1 e.2) = false →
      (s.coreAt c).fetching = none → taskFor s c ctx = some (k, q) →
      let u := s.onCluster k fun x => { x with ready := refillTasks (readyCap s k) (x.ready.erase q) }
      (∀ j, wantsSlot s { q.m with dcore := c } = true → freeSlot s c ctx = some j → freeSlot u c ctx = some j → Ends (.taskTake c) s
        ((u.onCore c fun x => { x with fetching := some ({ q.m with dcore := c }, j) }).launch (.footprintPrefetch c))) ∧
      (wantsSlot s { q.m with dcore := c } = true → freeSlot s c ctx = none → Ends (.taskTake c) s s) ∧
      (wantsSlot s { q.m with dcore := c } = false →
      (recordPa u ctx (q.m.pay.headD 0).toNat = some pa → Ends (.taskTake c) s
        ((u.writeRecord c ctx pa (taskWord0 3 (taskAt u pa).gen (taskAt u pa).count)).deliver { q.m with dcore := c })) ∧
      (recordPa u ctx (q.m.pay.headD 0).toNat = none → Ends (.taskTake c) s (u.deliver { q.m with dcore := c })))) ∧
    (Tbl.has (s.ctxAt ctx).saves c = false →
      ∃ t, Ends (.barrierAcknowledgement c ctx va ⟨gen, ent⟩) s t ∧
        (t.coreAt c).bars = (s.coreAt c).bars.map fun b =>
          if b.ctx = ctx ∧ b.va = va ∧ b.id = ent ∧ b.gen = none then { b with gen := some gen } else b) ∧
    (Tbl.has (s.ctxAt ctx).saves c = false →
      ∃ t, Ends (.barrierRelease c ctx va gen) s t ∧
        (t.coreAt c).bars = ((s.coreAt c).bars.map fun b =>
          if b.ctx = ctx ∧ b.va = va ∧ b.gen = some gen then { b with released := true } else b).filter fun b =>
            !(b.released && b.cont.isSome)) ∧
    (let u := s.onLaunch ctx e fun l =>
       let l := { l with batches := dropIndex i l.batches }
       { l with low := advanceLow l }
     let l := launchOf u ctx e
     l.st ≠ .firing ∨ (blocksLost u ctx e = false ∧ l.low ≠ l.count) →
       ∃ t, Ends (.indexAcknowledgement ctx e i) s t ∧ (launchOf t ctx e).batches = dropIndex i (launchOf s ctx e).batches) ∧
    (∀ (n : Nat) (bs : List Byte) (s1 : State), (s.coreAt c).fetching = some (m, n) →
      readFar s c { ctx := m.ctx, act := 2 ^ 52 } m.fp (partsOf (m.fp % 64) m.fplen) = (.ok bs none, s1) →
      let s2 := (s1.fillSlot c m.ctx (slotOff (s1.ctxAt m.ctx).fparea n) bs).onCore c fun x => { x with fetching := none }
      let m' := { m with slot := some n }
      (m.boxed = true → Ends (.footprintPrefetch c) s
        (s2.onCore c fun x => { x with inbox := x.inbox.map fun k =>
          (if sameTask k m then { k with slot := some n, fpfail := m.fpfail } else k) })) ∧
      (m.boxed = false → Ends (.footprintPrefetch c) s (s2.deliverTask c m')))

/-- R85, R96, R99, R68, R71: the steps of translation and placement. A miss that the slice answers fills the core's TLB; one
that nothing answers starts a walk where a walker is free, and changes no memory. A walk that finds a leaf takes its miss out of
the table, and one whose miss is gone does nothing. An invalidation takes every translation in its range out of the cores' TLBs, and
discards a revocable activation that holds a store through one; its completion writes status 1 where nothing is left to wait for, and
goes on waiting where something is; a pin writes its status. The end of an epoch puts pmctl into effect and begins the next one; with
placement off and no move waiting it does no more than clear the context's counts and hints. A migration whose leaf is as it was moves
the page where nothing is in its way, and waits where something is. That the page moves at its switch is the model's choice (log 40
DEDUCED), and so is that the step of a walk without a miss, and that of an epoch before its time, change nothing (log 8 DESIGN
CHOICE). -/
def Obligations.TranslationSteps : Prop :=
  ∀ (s : State) (c ctx va die vpage : Nat) (acc : Acc) (l : Leaf) (n : Nat) (r : InvalReq) (p : PinReq) (g : Migration),
    (sliceHit s (dieOf c) ctx va = some l → Ends (.tlbMissAtSlice c ctx va acc) s (s.fillTlb c l)) ∧
    (sliceHit s (dieOf c) ctx va = none →
      let x := Tbl.getD s.xl (xlKey (dieOf c) ctx va) {}
      (x.misses.any fun m => m.ctx == ctx && m.vpage == va / 65536) = false → x.misses.all Miss.walking = true → walksOf x < 8 →
      ∃ t, Ends (.tlbMissAtSlice c ctx va acc) s t ∧ t.flight = s.flight ++ [.pageWalkComplete (dieOf c) ctx (va / 65536)] ∧
        SameMemory s t) ∧
    (walking s die ctx vpage = true →
      (sliceHit s die ctx (vpage * 65536)).isSome = true ∨ walkHeld s die ctx (vpage * 65536) = false → (sliceWalk s die ctx (vpage * 65536)).1 = .leaf l n →
      ∃ t, Ends (.pageWalkComplete die ctx vpage) s t ∧
        ((Tbl.getD t.xl (xlKey die ctx (vpage * 65536)) {}).misses.any fun m => m.ctx == ctx && m.vpage == vpage) = false) ∧
    (walking s die ctx vpage = false → Ends (.pageWalkComplete die ctx vpage) s s) ∧
    (∀ k, (∀ l ∈ ((s.inval r).coreAt k).l1tlb, inRange r l = false) ∧
      (let x := (s.dropHolders r k).coreAt k
       x.ctx = some r.ctx → x.phase = .running → x.rev = true → holdsRange r x.cbuf = false)) ∧
    (invalDone s r = true → Ends (.pgInvalCompletion r) s (s.mailbox r.iss r.mpa 1)) ∧
    (invalDone s r = false → Ends (.pgInvalCompletion r) s (s.launch (.pgInvalCompletion r))) ∧
    Ends (.pgPinCompletion p) s ((s.pinPage p).2.mailbox p.iss p.mpa (s.pinPage p).1) ∧
    (let y := s.ctxAt ctx
     y.live = true → y.epochAt + epochLen y.pmEff ≤ s.pkg.cyc.toNat → ∃ t, Ends (.epochEnd ctx) s t ∧
       (t.ctxAt ctx).pmEff = y.pmctl ∧ (t.ctxAt ctx).epochAt = s.pkg.cyc.toNat) ∧
    (let y := s.ctxAt ctx
     y.live = true → y.epochAt + epochLen y.pmEff ≤ s.pkg.cyc.toNat → y.pmEff.getLsbD 0 = false →
       s.migs.filter (waitsToSwitch s ctx) = [] →
       Ends (.epochEnd ctx) s ({ s with counts := s.counts.filter (fun e => !keyOf ctx e.1),
                                        hints := s.hints.filter fun h => !keyOf ctx h.1 }.onCtx ctx fun y =>
         { y with pmEff := y.pmctl, epochAt := s.pkg.cyc.toNat })) ∧
    (s.pkg.cyc.toNat < (s.ctxAt ctx).epochAt + epochLen (s.ctxAt ctx).pmEff → Ends (.epochEnd ctx) s s) ∧
    ((s.migs.find? fun g => g.ctx == ctx && g.vpage == vpage) = some g → g.chain = none → g.absent = false →
      let w0 := (s.read64 g.epa).toNat
      w0 % 4 = 2 → leafClass w0 = 0 → (s.dieAt g.die).lost = false → framePoisoned s ctx (leafFrame w0) = false →
      (switchWaits s ctx vpage (leafFrame w0) = false → Ends (.migrationSwitch ctx vpage) s ((s.endMig g).movePage g w0)) ∧
      (switchWaits s ctx vpage (leafFrame w0) = true → Ends (.migrationSwitch ctx vpage) s (s.launch (.migrationSwitch ctx vpage))))

/-- R123, R128, R131 to R135, R251, R256, R258: the steps of the home slices. A write reaches memory, and a read of another
package is answered with the line's bytes, once no invalidation of the line is pending; an invalidation is acknowledged, and the
acknowledgement clears it. An atomic whose line has no invalidation pending is done in one step (AtomicEffect says what it does),
and its answer leaves, at once or with the store that it makes on a chain. A watch on a changed value wakes at once, and one on an
unchanged value is kept; a remote port writes the owner's local store. A combining unit joins a request to an entry, opens one,
or passes it; an entry whose window has ended becomes one request, whose members the crumb keeps twice; the reply is split over
the crumb's members; and a reply whose time has run out with no crumb left for it is declared lost. A request waits at its slice behind
those that wait there, and while the slice is being moved or is not ready. That a request joins an open entry whatever cbctl.en is (log
25 DEDUCED), and that an acknowledgement of a target that is not busy, and a reply without a crumb, change nothing (log 8 DESIGN
CHOICE), are the model's choices. -/
def Obligations.HomeSteps : Prop :=
  ∀ (s : State) (r : MemReq) (a : AtomReq) (w : WatchReq) (line target u port id c rtag : Nat) (v : Word) (lost : Bool)
    (e : CombEntry),
    (let waits := s.waitAtSlice r.pa r.here (.homeSliceAccess { r with here := true })
     ownHbm s r.pa = true →
      (accessHeld s r.pa = true → Ends (.homeSliceAccess r) s waits) ∧ (accessHeld s r.pa = false →
      (r.data ≠ [] → (s.dieAt (hbmDieOf r.pa)).lost = false → (r.here = true ∨ lineAwaited s r.pa = false) →
        ∃ t, Ends (.homeSliceAccess r) s t ∧
        (∀ k < r.data.length, t.mem.read (r.pa + k) = r.data.getD k 0) ∧ SameOutside s t r.pa r.data.length) ∧
      (r.data ≠ [] → (s.dieAt (hbmDieOf r.pa)).lost = false → r.here = false → lineAwaited s r.pa = true →
        Ends (.homeSliceAccess r) s waits) ∧
      (r.data = [] → lineHeld s r.pa r.here = true → Ends (.homeSliceAccess r) s waits) ∧
      (r.data = [] → lineHeld s r.pa r.here = false → hbmError s r.ctx r.pa = none → r.pkg ≠ s.pkg.num →
        ∃ t, Ends (.homeSliceAccess r) s t ∧ SameMemory s t ∧
          t.outs = s.outs ++ [.reply r.pkg r.core (BitVec.ofNat 64 (ofBytes (s.readPa r.pa (min 8 r.len))))]))) ∧
    (∃ t, Ends (.invalidation line target) s t ∧ t.flight = s.flight ++ [.invalidationAck line target] ∧ SameMemory s t) ∧
    (let d := Tbl.getD s.dir line {}
     (target ∈ d.busy → Ends (.invalidationAck line target) s { s with dir := Tbl.put s.dir line (d.acked line target) }) ∧
     (target ∉ d.busy → Ends (.invalidationAck line target) s s)) ∧
    (let pl := atomPlace a
     a.pkg = s.pkg.num ∨ a.chain = none →
     (headWaits s a.core pl a.here = true → Ends (.atomicAtHome a) s
       (s.waitAtSlice a.pa a.here (.atomicAtHome { a with here := true }))) ∧
     (headWaits s a.core pl a.here = false → homeFails s a.ctx pl = none → (∀ m ∈ membersUnder s 32 a, m.okey = none) →
       let r := s.atomicAt a.core a.ctx pl a.fn a.width a.operand a.cmp a.va (some a)
       (a.chain = none → Ends (.atomicAtHome a) s (r.2.answerAtomic a r.1)) ∧
       (a.chain ≠ none → Ends (.atomicAtHome a) s r.2))) ∧
    (lineHeld s w.pa w.here = true ∨ accessHeld s w.pa = true →
      Ends (.watchArmAtHome w) s (s.waitAtSlice w.pa w.here (.watchArmAtHome { w with here := true }))) ∧
    (lineHeld s w.pa w.here = false → accessHeld s w.pa = false → w.origin = none →
     let z := (s.count w.ctx (dieOf w.core) w.pa true).askRemote w.ctx w.pa (.watch w)
     (watchDiffers w (watchValue s w) = true → Ends (.watchArmAtHome w) s (z.send (watchWake z w (watchValue s w) 1))) ∧
     (watchDiffers w (watchValue s w) = false → monsAt z w.pa < 256 → rowOf w.pa ≠ .localStore →
       Ends (.watchArmAtHome w) s { z with mons := z.mons ++ [w] })) ∧
    (rowOf r.pa = .localStore → paPkg r.pa = s.pkg.num → placeHeld s (.mem r.pa) = false → r.data ≠ [] →
      Ends (.remotePortAccess r) s
        (s.perform r.ctx (if r.pkg = s.pkg.num then some r.core else none) (lsRedirect s r.ctx r.pa) r.data)) ∧
    (let x := unitOf s u
     (a.passed.contains u = true → Ends (.combineRequest u port a) s (s.forward u a)) ∧
     (a.passed.contains u = false → (x.entries.find? fun f => f.admits a) = some e →
       Ends (.combineRequest u port a) s (s.onUnit u fun x => { x with entries := x.entries.map fun f =>
         if f.id = e.id then { f with members := f.members ++ [(port, a)] } else f })) ∧
     (a.passed.contains u = false → (x.entries.find? fun f => f.admits a) = none →
       (s.pkg.cbctl.getLsbD 0 = false ∨ x.removed = true ∨ 32 ≤ x.entries.length) →
       Ends (.combineRequest u port a) s (s.forward u a)) ∧
     (a.passed.contains u = false → (x.entries.find? fun f => f.admits a) = none → s.pkg.cbctl.getLsbD 0 = true →
       x.removed = false → x.entries.length < 32 →
       ∃ t, Ends (.combineRequest u port a) s t ∧
         (unitOf t u).entries = x.entries ++ [⟨x.next, s.pkg.cyc.toNat, windowOf s u, [(port, a)]⟩] ∧
         t.flight = s.flight ++ [.combineWindowExpiry u x.next]) ∧
     ((x.entries.find? fun f => f.id == id) = some e → entryDue s e = true → x.crumbs.length + x.retired < 256 →
       Ends (.combineWindowExpiry u id) s
         ((s.onUnit u fun x => { x with
            entries := x.entries.filter (fun f => f.id != id), crumbs := Tbl.put x.crumbs id ⟨some e.inOrder, some e.inOrder⟩ }).forward
           u (combined u id (e.inOrder.map Prod.snd)))) ∧
     (Tbl.has x.crumbs id = false → Ends (.decombine u id v) s s) ∧
     (Tbl.has x.crumbs id = true → Ends (.decombine u id v) s
       ((s.onUnit u fun x => { x with crumbs := Tbl.del x.crumbs id }).split v ((Tbl.getD x.crumbs id {}).members.map Prod.snd)))) ∧
    ((outstandingOf s c).find? (fun q => q.rtag == rtag) = some a → requestLives s c rtag = false →
      a.since + 200000 ≤ s.pkg.cyc.toNat → Ends (.atomicReplyTimeout c rtag lost) s (s.replyLost c lost a))

/-- R125, R127, R141, R142, R210, R214, R215, R218: the steps of the engines. The fetch unit reads the least line that the first
command with lines to read lacks, and pins it. The matrix engine completes the first command of its queue, once its lines are read:
mx.zero writes +0 into every element and clears the mark; mx.ldacc reads element (i, j) little-endian from the 4 bytes at 128 i + 4
j of its block and makes the mark clean; a product adds, for each element of an unmasked column, one rounded sum of its group, and
keeps the others: mx.mmas over the positions whose bit its record sets, and a gang with the A of its leader and each core's own B. A
gang runs when the row's four commands stand first. A channel with nothing in progress admits the next command; a command of no
bytes ends with status 1, and a cancelled one with status 2; a beat of a get or of a fill writes its bytes, and wptr passes them. That
a gang which is not ready changes nothing is the model's choice (log 8 DESIGN CHOICE). -/
def Obligations.EngineSteps : Prop :=
  ∀ (s : State) (c ch : Nat) (k : MxCmd) (va : Nat) (pl : Place) (t : TReg) (a b : MxOperand),
    let x := s.coreAt c
    ((x.mx.queue.find? fun k => unfetched k != [] && !k.waits) = some k → leastLine (unfetched k) = some (va, pl) → k.refetch = false →
      Ends (.tileFetchLine c) s (s.fetchAt c k va pl)) ∧
    (x.mx.queue = [k] → unfetched k = [] → k.la = 0 →
      (k.op = .zero t → ∃ u, Ends (.matrixCommandExecute c) s u ∧ (u.coreAt c).mx.tile t = {} ∧
        ∀ n, n ≠ t → (u.coreAt c).mx.tile n = x.mx.tile n) ∧
      (k.op = .mma t a b → ∃ u, Ends (.matrixCommandExecute c) s u ∧
        ∀ i j : Fin 32, ((u.coreAt c).mx.tile t).t[i][j] =
          if k.mask.getLsbD j.val then
            (accumulate ((x.mx.tile t).t[i][j]) (Config.freeLane s.tick (32 * i.val + j.val))
              (Config.freeLane s.tick (1024 + 32 * i.val + j.val))
              ((List.range 32).map fun q => (elemOf (mxByte s c k) a i.val q, elemOf (mxByte s c k) b j.val q))).1
          else (x.mx.tile t).t[i][j]) ∧
      (∀ bm vals, k.op = .mmas t bm vals a b → ∃ u, Ends (.matrixCommandExecute c) s u ∧
        ∀ i j : Fin 32, ((u.coreAt c).mx.tile t).t[i][j] =
          if k.mask.getLsbD j.val then
            (accumulate ((x.mx.tile t).t[i][j]) (Config.freeLane s.tick (32 * i.val + j.val))
              (Config.freeLane s.tick (1024 + 32 * i.val + j.val))
              (((List.range 32).filter fun q => bit bm (32 * i.val + q)).map fun q =>
                (sparseElem (mxByte s c k) a bm vals i.val q, elemOf (mxByte s c k) b j.val q))).1
          else (x.mx.tile t).t[i][j]) ∧
      (∀ start, k.op = .ldacc t start →
        let byte := fun n => mxByte s c k (0xE * 2 ^ 48 + start + n)
        ∃ u, Ends (.matrixCommandExecute c) s u ∧ (∀ n, n ≠ t → (u.coreAt c).mx.tile n = x.mx.tile n) ∧
          ((∀ n < 4096, (byte n).isSome = true) → ((u.coreAt c).mx.tile t).mark = .clean) ∧
          ∀ (i j : Fin 32) (b0 b1 b2 b3 : Byte), byte (128 * i.val + 4 * j.val) = some b0 →
            byte (128 * i.val + 4 * j.val + 1) = some b1 → byte (128 * i.val + 4 * j.val + 2) = some b2 →
            byte (128 * i.val + 4 * j.val + 3) = some b3 → ((u.coreAt c).mx.tile t).t[i][j] = wordOfBytes b0 b1 b2 b3)) ∧
    (gangReady s c = true → gangFailed s c = false → ∃ u, Ends (.gangStart c) s u ∧
      ∀ n k t o b, n ∈ rowCores c → (s.coreAt n).mx.queue = [k] → k.op = .gang t o b → k.la = 0 →
        ∀ i j : Fin 32, ((u.coreAt n).mx.tile t).t[i][j] =
          if k.mask.getLsbD j.val then
            (accumulate (((s.coreAt n).mx.tile t).t[i][j]) (Config.freeLane s.tick (32 * i.val + j.val))
              (Config.freeLane s.tick (1024 + 32 * i.val + j.val))
              ((List.range 32).map fun q => (gangA s c i.val q, elemOf (mxByte s n k) b j.val q))).1
          else ((s.coreAt n).mx.tile t).t[i][j]) ∧
    (gangReady s c = true → Ends (.gangStart c) s (s.gang c)) ∧
    (gangReady s c = false → Ends (.gangStart c) s s) ∧
    (let h := x.cp.chans.toList.getD ch {}
     (h.cur = none → Ends (.copyBeat c ch) s (s.startNext c)) ∧
     (∀ q, h.cur = some q → h.held = false → q.sent = 0 →
       (q.cancelled = true → Ends (.copyBeat c ch) s (s.endCopy c q 2)) ∧
       (q.cancelled = false → q.len * q.rows = 0 → Ends (.copyBeat c ch) s (s.endCopy c q 1)) ∧
       (q.cancelled = false → q.rows = 1 → q.done < q.len →
         (∀ bs s1, q.op = 0 →
           let n := min (q.len - q.done) (64 - (q.own + q.done) % 64)
           readFar s c q ((q.far + q.done : Nat) : Int) (partsOf ((q.far + q.done) % 64) n) = (.ok bs none, s1) →
           Ends (.copyBeat c ch) s ((s1.perform q.ctx (some c) (lsPa s1 c (q.own + q.done)) bs).passBeat c
             (q.rewritten (.mem (lsPa s1 c (q.own + q.done))) bs) n false)) ∧
         (∀ pa s1, q.op = 4 → q.snap = [] →
           let n := min (q.len - q.done) (64 - (q.far + q.done) % 64)
           reach s c q.ctx ((q.far + q.done : Nat) : Int) .engWrite = (.ok (.mem pa), s1) → refusedAt s1 (.mem pa) = false →
           placeHeld s1 (.mem pa) = false → placeAwaited s1 q.ctx (.mem pa) = false →
           Ends (.copyBeat c ch) s ((s1.storeAt c q.ctx (.mem pa) (q.far + q.done)
             ((List.range n).map fun i => (toBytes 8 q.pat.toNat).getD ((q.done + i) % 8) 0)).passBeat c q n false)))))

/-- R102, R103, R105 to R113, R119: the steps of chains. A store that arrives at a link is applied to its copy and goes on, or is
acknowledged by the tail; it waits where the chain is being reconfigured, goes back where an older table copy routed it, and is
refused where the port bars it. An acknowledgement clears the log of the member before; the head's own completes the store at its
requester. A read comes from the serving link, or from the tail where the line is dirty, which a frozen chain of another package
does not answer, and failing data is not delivered; a core of the own package takes its bytes in its own step (log 5 DESIGN CHOICE).
A sync copies page after page (Table 3.6 for a promotion's poisoned frame) and then promotes its link to the tail. A head that has
drained hands its role on; a clean with nothing left in progress writes its status; and a lost link of another package leaves every
chain. That a marker without a finished sync, an acknowledgement of a store that is not logged, and the loss of a link of the own
package or of one already lost change nothing is the model's choice (log 8 DESIGN CHOICE). -/
def Obligations.ChainSteps : Prop :=
  ∀ (s : State) (st : ChainStore) (r : MemReq) (q : AtomReq) (v : Word) (ctx ch off pkg die h : Nat) (y l : Nat × Nat),
    let e := chainOf s ctx ch
    let k := chainAt s st.pkg st.ctx st.ch
    (chainBarred s st = true → ∃ t, Ends (.chainStoreAtLink st) s t ∧ SameMemory s t ∧
      t.pkg.health.length = s.pkg.health.length + 1 ∧ t.outs = s.outs ++ [.refused st.pkg (ualChain s st (.chainStore st))]) ∧
    (chainBarred s st = false →
      (storeHeld s st = true → Ends (.chainStoreAtLink st) s (s.waitAtLink st)) ∧
      (storeHeld s st = false →
        (k.cst ≠ 3 → olderGen st.gen k.gen = true → Ends (.chainStoreAtLink st) s (s.routeAgain st k)) ∧
        ((k.cst = 3 ∨ olderGen st.gen k.gen = false) → Ends (.chainStoreAtLink st) s (s.storeArrives st)) ∧
        ((k.cst = 3 ∨ olderGen st.gen k.gen = false) → st.okey = none → k.links[st.hop]? = some l → seenBefore k l st = false → k.sync = none →
          (l.1 = s.pkg.num ∨ refuses s l.1 = false) → (st.data.map Prod.fst).Nodup →
          ∃ t, Ends (.chainStoreAtLink st) s t ∧ ∀ d ∈ st.data, t.mem.read (linkPa l d.1) = d.2))) ∧
    (st.hop = 0 → ∃ t, Ends (.chainAcknowledgement st) s (t.launch (.chainStoreCompletion st)) ∧ SameMemory s t ∧
      (k.links = [] → t = s) ∧ (∀ x ls, k.links = x :: ls → t = s.fireChain x st)) ∧
    (st.hop = h + 1 → let m := k.links.getD h (0, 0)
      (logged k m st = true → ∃ t, Ends (.chainAcknowledgement st) s t ∧ logged (chainAt t st.pkg st.ctx st.ch) m st = false ∧
        SameMemory s t) ∧
      (logged k m st = false → Ends (.chainAcknowledgement st) s s)) ∧
    (st.pkg = s.pkg.num →
      let t := s.onHolder st.core st.ctx fun x => x.completed st
      (t.holder st.core st.ctx).chainOut = (s.holder st.core st.ctx).chainOut.filter (fun x => !sameId x st) ∧
      (st.answer = none → Ends (.chainStoreCompletion st) s t) ∧
      (st.answer = some (q, v) → Ends (.chainStoreCompletion st) s (t.answerAtomic q v))) ∧
    (st.pkg ≠ s.pkg.num →
      (st.answer = none → Ends (.chainStoreCompletion st) s { s with outs := s.outs ++ [.chain st.pkg st] }) ∧
      (st.answer = some (q, v) → Ends (.chainStoreCompletion st) s (s.answerAtomic q v))) ∧
    (chainAddress s r = some ((pkg, ctx, ch), off) →
      let e := chainAt s pkg ctx ch
      let own := linkFor s r e
      let tail := tailOf e.links
      let served := fun (l : Nat × Nat) => { s with outs := s.outs ++
        [.reply r.pkg r.core (BitVec.ofNat 64 (ofBytes (s.readPa (linkPa l off) (min 8 r.len))))] }
      (e.cst = 0 ∨ e.cst = 3 ∨ (pkg ≠ s.pkg.num ∧ e.reconf = true) → Ends (.chainRead r) s s) ∧
      (e.cst = 0 ∨ e.cst = 3 → Ends (.chainTailQuery r) s s) ∧
      (e.cst ≠ 0 → e.cst ≠ 3 → staleRead s r e = true →
        let back := fun (b : MemReq → UalBody) =>
          s.sendChain (pkg, ctx, ch) (r.sender.getD r.pkg) (b { r with gen := e.gen, sender := none })
        (pkg = s.pkg.num ∨ e.reconf = false → Ends (.chainRead r) s (back .chainRead)) ∧
        Ends (.chainTailQuery r) s (back .tailQuery)) ∧
      (e.cst ≠ 0 → e.cst ≠ 3 → staleRead s r e = false → (pkg = s.pkg.num ∨ e.reconf = false) →
        (dirtyAt e own (lineOf off) = true → Ends (.chainRead r) s (s.launch (.chainTailQuery r))) ∧
        (dirtyAt e own (lineOf off) = false → copyHeld s (linkPa own off) = true → Ends (.chainRead r) s (s.launch (.chainRead r))) ∧
        (dirtyAt e own (lineOf off) = false → copyHeld s (linkPa own off) = false →
          (r.pkg = s.pkg.num → ∃ t, Ends (.chainRead r) s t ∧ SameMemory s t ∧ t.outs = s.outs) ∧
          (r.pkg ≠ s.pkg.num → sectorError s (chainTenant s (pkg, ctx, ch)) (linkPa own off) = none →
            Ends (.chainRead r) s (served own)))) ∧
      (e.cst ≠ 0 → e.cst ≠ 3 → staleRead s r e = false → e.reconf = true →
        Ends (.chainTailQuery r) s (s.launch (.chainTailQuery r))) ∧
      (e.cst ≠ 0 → e.cst ≠ 3 → staleRead s r e = false → e.reconf = false →
        (pkg ≠ s.pkg.num → tail.1 ≠ s.pkg.num → ∃ q, Ends (.chainTailQuery r) s { s with outs := s.outs ++ [.ual tail.1 q] } ∧
          q.body = .tailQuery { r with sender := none }) ∧
        (pkg = s.pkg.num ∨ tail.1 = s.pkg.num → copyHeld s (linkPa tail off) = false →
          (r.pkg = s.pkg.num → Ends (.chainTailQuery r) s s) ∧
          (r.pkg ≠ s.pkg.num → sectorError s (chainTenant s (pkg, ctx, ch)) (linkPa tail off) = none →
            Ends (.chainTailQuery r) s (served tail))))) ∧
    (e.sync = some y → e.done ≤ e.npg →
      let at' := (e.base + e.done) * 65536
      (promotionOf s ctx ch = none ∨ framePoisoned s ctx (linkPa (tailOf e.links) at') = false) →
      ∃ t, Ends (.chainPageCopy ctx ch) s t ∧ (chainOf t ctx ch).done = e.done + 1 ∧
        t.flight = s.flight ++ [if e.done = e.npg then .chainPromotionMarker ctx ch else .chainPageCopy ctx ch] ∧
        (Canonical s → ∀ k < 65536, t.mem.read (linkPa y at' + k) = s.mem.read (linkPa (tailOf e.links) at' + k))) ∧
    (e.sync = some y → e.done = e.npg + 1 → promotionOf s ctx ch = none → e.leaving = none →
      ∃ t, Ends (.chainPromotionMarker ctx ch) s t ∧ (chainOf t ctx ch).links = e.links ++ [y] ∧ (chainOf t ctx ch).sync = none) ∧
    (e.sync = none ∨ e.done ≠ e.npg + 1 → Ends (.chainPromotionMarker ctx ch) s s) ∧
    (e.reconf = true → chainDrained s ctx ch = false → Ends (.chainHeadHandoff ctx ch) s (s.launch (.chainHeadHandoff ctx ch))) ∧
    (e.reconf = true → chainDrained s ctx ch = true →
      (1 < e.links.length → ∃ t, Ends (.chainHeadHandoff ctx ch) s t ∧
        (chainOf t ctx ch).links = e.links.drop 1 ∧ (chainOf t ctx ch).reconf = false) ∧
      (e.links.length ≤ 1 → e.freeing = false → ∃ t, Ends (.chainHeadHandoff ctx ch) s t ∧
        (chainOf t ctx ch).links = e.links ∧ (chainOf t ctx ch).reconf = false)) ∧
    ((∀ x ∈ e.clean, e.cst = 3 ∨ ∀ i ∈ x.2, i ∉ openStores s ctx ch) →
      ∃ t, Ends (.chainCleanDone ctx ch) s t ∧ (chainOf t ctx ch).clean = []) ∧
    (e.cst ≠ 3 → e.clean ≠ [] → (∀ x ∈ e.clean, ∃ i ∈ x.2, i ∈ openStores s ctx ch) →
      ∃ t, Ends (.chainCleanDone ctx ch) s t ∧ (chainOf t ctx ch).clean = e.clean ∧ t.flight = s.flight ++ [.chainCleanDone ctx ch]) ∧
    (pkg = s.pkg.num ∨ (pkg, die) ∈ s.pkg.lostLinks → Ends (.linkUnreachable pkg die) s s) ∧
    (pkg ≠ s.pkg.num → (pkg, die) ∉ s.pkg.lostLinks →
      Ends (.linkUnreachable pkg die) s
        ((s.onPkg fun p => { p with lostLinks := p.lostLinks ++ [(pkg, die)] }).loseLink (pkg, die)))

/-- R317, R321, R339 to R342: the steps of launches and start gates. A trigger fires an armed entry, is counted as missed by an idle
or a firing one, is logged where the entry is empty or no entry holds its tag, and is dropped where the context is killed or does
not exist. A batch of at most 64 indices is handed out while any are left. A post arms a participant that an installed entry
matches, makes another wait, and a second one of its id and tenant is ignored; one without its tenant's key is refused (log 78
DESIGN CHOICE); a GO before T waits for T, one after it is logged and acts at once, one marked now acts at once; ABORT ends a part
that is armed or has its GO, and the deadlines end one that waits for its entry or for its GO; what a participant's clock has
decided stands before a message that comes later. The coordinator notes each armed package, decides when every package is armed, and
at the guard deadline on stragglers, and aborts one that comes after its decision; a GO marked now leaves at T. That the second post is
ignored (log 38 DEDUCED), that a timeout or an abort before its time changes nothing (log 8 DESIGN CHOICE), and that the note of a
refused post holds the package above the tenant (log 48 DEDUCED), are the model's choices too. -/
def Obligations.LaunchSteps : Prop :=
  ∀ (s : State) (x : Trig) (ctx e die id pkg : Nat) (p : GatePost) (g : GateEntry) (k : Coord) (st : GateState) (deg : Bool),
    ((s.ctxAt x.ctx).live = true → (s.ctxAt x.ctx).state ≠ 3 → (if x.byTag then entryOf s x.ctx x.n else some x.n) = some e →
      ((launchOf s x.ctx e).st = .empty → ∃ t, Ends (.launchTrigger x) s (t.log x.ctx 0x2D 0 0xFFF 0 false 0 (launchOf s x.ctx e).trig) ∧
        launchOf t x.ctx e = launchOf s x.ctx e ∧ SameMemory s t) ∧
      ((launchOf s x.ctx e).st = .armed → ∃ t, Ends (.launchTrigger x) s t ∧ (launchOf t x.ctx e).st = .firing ∧
        (launchOf t x.ctx e).pay = x.pay ∧ (launchOf t x.ctx e).fires = ((launchOf s x.ctx e).fires + 1) % 256 ∧
        (launchOf t x.ctx e).next = 0 ∧ (launchOf t x.ctx e).batches = []) ∧
      ((launchOf s x.ctx e).st = .idle ∨ (launchOf s x.ctx e).st = .firing → ∃ t, Ends (.launchTrigger x) s t ∧
        (launchOf t x.ctx e).missed = min 0xFFFF ((launchOf s x.ctx e).missed + 1) ∧ (launchOf t x.ctx e).saved = x.pay)) ∧
    ((s.ctxAt x.ctx).live = false ∨ (s.ctxAt x.ctx).state = 3 → Ends (.launchTrigger x) s s) ∧
    ((s.ctxAt x.ctx).live = true → (s.ctxAt x.ctx).state ≠ 3 → x.byTag = true → entryOf s x.ctx x.n = none →
      Ends (.launchTrigger x) s (s.log x.ctx 0x2D 0 0xFFF 0 false 0 x.n)) ∧
    (let l := launchOf s ctx e
     l.mayHand = true → blocksLost s ctx e = false → (s.dieAt die).lost = false →
     ((readyMembers s ctx l.grp).any fun c => dieOf c == die) = true →
     ∃ t, Ends (.launchBatch ctx e die) s t ∧ (launchOf t ctx e).next = l.next + min 64 (l.count - l.next) ∧
       (launchOf t ctx e).batches = l.batches ++ [(l.next, die, (List.range (min 64 (l.count - l.next))).map (l.next + ·))]) ∧
    (let n := postName p
     (postFits s p = true → partOf s n = none →
       (matching s p = some g → Ends (.gatePost p) s
         ((s.setPart n (some (p, .armed))).toGate p.coord (.gateArmed n s.pkg.num s.pkg.clkdeg))) ∧
       (matching s p = none → Ends (.gatePost p) s ((s.setPart n (some (p, .waiting))).note 4 p.id p.tenant))) ∧
     (postFits s p = true → (partOf s n).isSome = true → s.partClock n = s → Ends (.gatePost p) s s) ∧
     (postFits s p = false → s.partClock n = s → Ends (.gatePost p) s
       (let t := s.note 2 (p.coord * 4096 + p.tenant) 0
        { t with outs := t.outs ++ [.postRefused p.coord p] }))) ∧
    (partOf s id = some (p, .armed) →
      (s.pkg.now.toNat < p.time + 1000000 → Ends (.gateGo id true) s ((s.setPart id none).actGate p)) ∧
      (s.pkg.now.toNat ≤ p.time → Ends (.gateGo id false) s (s.setPart id (some (p, .go)))) ∧
      (p.time < s.pkg.now.toNat → s.pkg.now.toNat < p.time + 1000000 → Ends (.gateGo id false) s (((s.setPart id none).partFault p).actGate p)) ∧
      (p.time + 1000000 ≤ s.pkg.now.toNat → Ends (.gateArmedTimeout id) s ((s.setPart id none).partFault p)) ∧
      (s.pkg.now.toNat < p.time + 1000000 → Ends (.gateArmedTimeout id) s s)) ∧
    (partOf s id = some (p, .go) → p.time ≤ s.pkg.now.toNat → Ends (.gateActionTime id) s ((s.setPart id none).actGate p)) ∧
    (partOf s id = some (p, .go) → p.time ≤ s.pkg.now.toNat → s.partClock id = (s.setPart id none).actGate p) ∧
    (partOf s id = some (p, .armed) → p.time + 1000000 ≤ s.pkg.now.toNat → s.partClock id = (s.setPart id none).partFault p) ∧
    (partOf s id = some (p, st) → st ≠ .waiting → s.partClock id = s → Ends (.gateAbort id) s (s.setPart id none)) ∧
    (partOf s id = some (p, .waiting) → (s.pkg.now.toNat + p.guard < p.time → Ends (.gateAbort id) s s) ∧
      (coordOf s id = none → p.time ≤ s.pkg.now.toNat + p.guard → Ends (.gateGuardDeadline id) s (s.setPart id none))) ∧
    (coordOf s id = some k →
      (k.decided = true → Ends (.gateArmed id pkg deg) s (s.toGate pkg (.gateAbort id))) ∧
      (k.decided = false → s.pkg.now.toNat + k.p.guard < k.p.time → pkg ∈ k.pkgs → (k.armed.any fun a => a.1 == pkg) = false →
        let k' := { k with armed := k.armed ++ [(pkg, deg)] }
        let t := s.setCoord k k'
        Ends (.gateArmed id pkg deg) s (if k'.armed.length = k'.pkgs.length then t.settleGate k' 0 false else t)) ∧
      (k.late = true → k.p.time ≤ s.pkg.now.toNat → Ends (.goMarkedNow id) s
        (k.armed.foldl (fun s a => s.toGate a.1 (.gateGo id true)) (s.setCoord k { k with late := false }))) ∧
      (partOf s id = none → k.decided = false → k.p.time ≤ s.pkg.now.toNat + k.p.guard →
        Ends (.gateGuardDeadline id) s
          (if k.p.partly && k.armed != [] then s.settleGate k 1 true else s.settleGate k 2 true)))

/-- R350, R363, R365 to R368: the steps of repair. An error that its retry clears is noted in the health log alone, and one that
recurs is lasting; an error of core logic, or a lost response, starts repair at once; a repair waits for the activations of its
cores, and when it is complete the cores go on with their registers and with empty caches; a link is removed once, and the clusters
that no link reaches any more are lost; resent packets change nothing; a swapped lane is counted as a repair; a die whose heartbeat
is missed is lost, with the readiness and the inboxes of its cores; a budget that is used up leaves a trap due. That the end of a repair
with none in progress, and a swap with no lost lane, change nothing is the model's choice (log 8 DESIGN CHOICE). -/
def Obligations.RepairSteps : Prop :=
  ∀ (s : State) (e : ErrSite) (p : NetPart) (c die link : Nat),
    ((∀ x, e ≠ .core x) → (∀ u i b, e ≠ .crumb u i b) → Ends (.errorRetry e false) s (s.note 0 0 (errAddr e) (errDie e)) ∧
      Ends (.errorRetry e true) s (s.lasting e)) ∧
    (∀ u id both r, Ends (.errorRetry (.crumb u id both) r) s (s.badCrumb u id both r)) ∧
    Ends (.errorRetry (.core c) true) s (s.repairCore c) ∧
    Ends (.errorRetry (.core c) false) s (s.repairCore c) ∧ Ends (.lostResponseTimeout c) s (s.repairCore c) ∧
    ((s.coreAt c).remap = true → holdsActivation (s.coreAt c) = false → ∃ t, Ends (.remapComplete c false) s t ∧
      (t.coreAt c).remap = false ∧ (t.coreAt c).l1 = [] ∧ (t.coreAt c).l1i = [] ∧ (t.coreAt c).l1tlb = [] ∧
      (t.coreAt c).s = (s.coreAt c).s) ∧
    ((s.coreAt c).remap = true → holdsActivation (s.coreAt c) = true →
      Ends (.remapComplete c false) s (s.launch (.remapComplete c false))) ∧
    ((s.coreAt c).remap = false → Ends (.remapComplete c false) s s) ∧
    ((s.clusterAt (clusterOf c)).remap = true → (∀ i ∈ movedCores c true, holdsActivation (s.coreAt i) = false) →
      ∃ t, Ends (.remapComplete c true) s t ∧ (t.clusterAt (clusterOf c)).remap = false ∧
        ∀ i ∈ movedCores c true, (t.coreAt i).remap = false ∧ (t.coreAt i).l1 = [] ∧ (t.coreAt i).l1i = [] ∧ (t.coreAt i).l1tlb = [] ∧
          (t.coreAt i).s = (s.coreAt i).s) ∧
    (p ∈ s.pkg.removedParts → Ends (.linkRemoval p) s s) ∧
    (p ∉ s.pkg.removedParts → ∀ port, p = .ualink port → Ends (.linkRemoval p) s
      (s.onPkg fun q => { q with removedParts := q.removedParts ++ [p], ual := q.ual.filter (· != port) })) ∧
    (p ∉ s.pkg.removedParts → ∀ d n port, p = .mesh d n port →
      let t := s.onPkg fun q => { q with removedParts := q.removedParts ++ [p] }
      Ends (.linkRemoval p) s ((cutOff t d).foldl State.loseCluster t)) ∧
    Ends (.packetResendTimeout p) s s ∧
    (Tbl.getD s.pkg.lostLanes link 0 = 0 → Ends (.bridgeLaneSwapDone link) s s) ∧
    (Tbl.getD s.pkg.lostLanes link 0 ≠ 0 → ∃ t, Ends (.bridgeLaneSwapDone link) s t ∧ t.pkg.repairs = s.pkg.repairs + 1) ∧
    Ends (.heartbeatTimeout die) s (s.loseDie die) ∧ ((s.dieAt die).lost = true → s.loseDie die = s) ∧
    (∀ c, dieOf c = die → ((s.loseCores (512 * die) 512).coreAt c).ready = false ∧
      ((s.loseCores (512 * die) 512).coreAt c).inbox = []) ∧
    (let x := s.coreAt c
     let budget := fld (s.ctxAt (x.ctx.getD 0)).wdctl 47 0
     x.phase = .running → x.trig.kind ≠ 1 → budget ≠ 0 → budget ≤ x.wcount → x.due = none →
       Ends (.budgetExpiry c) s (s.onCore c fun x => { x with due := some (0x10, BitVec.ofNat 64 (s.pkg.cyc.toNat - x.started)) }))

/-- R372 to R375, R377, R380: the steps of the host port, of UALink and of Ethernet. An aligned record of 16 bytes on an open page,
with a tag below 64, is a trigger by tag with its payload; any other host write is noted. A mailbox whose status admits a command
carries it out or refuses it and is busy until its completion, which leaves the result and raises MSI-X vector m; a doorbell at
another time is ignored. The health log's response holds the entries from the asked number on, at most 63, in the layout of Table
16.10, with cid 0xFFF (log 74 DEDUCED). Nothing acts on a port that is not ready. A completion of host memory, or its timeout,
reaches the core that waits. A request that the port accepts has its effect; one that it does not accept is noted and sent back, as
one without its tenant's key is. A queue pair sends the frame of its next committed slot and releases the slot; it puts a frame that
fits into the next free slot behind its length, drops and counts one that does not fit, and takes none for another address or VLAN
tag (log 84 PRESUMED). R381 to R383, R386, R388, R389: the steps of time, boot and power. A PTP message locks the servo, with the
estimate of its error; now does not go back; an estimate above 1 us degrades the clock, and one below 500 ns for 1 s ends that. The
mask ROM starts an image that it accepts, raising the fused counter, else recovers with nothing ready. A function that reports is
ready, and what was held for it goes on; in recovery only the management port reports. A thermal shutdown kills every running
context and takes the module down; capping withholds slots. The model's choices too: log 18 DESIGN CHOICE (attestation), log 79
DESIGN CHOICE (request bytes), log 43 DEDUCED (ignored doorbells), log 44 DEDUCED (first lock), log 45 DEDUCED (flash image), log 30
DEDUCED (health entry), log 8 DESIGN CHOICE (steps that change nothing). -/
def Obligations.PackageSteps : Prop :=
  (∀ (s : State) (m page off tenant ctx addr len die base npg seq code port qp c : Nat) (bs : List Byte) (key : TenantKeys)
     (ok priv : Bool)
     (r : UalReq),
     (let open' := s.pkg.pcie = true ∧ page < 64 ∧ (s.ctxAt page).live = true ∧ page ∈ s.pkg.windows ∧ bs.length = 16 ∧ off % 16 = 0 ∧
        ofBytes (bs.take 8) < 64
      (open' → Ends (.hostTriggerRecord page off bs) s
        (s.trigger { ctx := page, byTag := true, n := ofBytes (bs.take 8), pay := BitVec.ofNat 64 (ofBytes (bs.drop 8)) })) ∧
      (s.pkg.pcie = true → ¬open' → Ends (.hostTriggerRecord page off bs) s (s.note 3 page 0)) ∧
      (s.pkg.pcie = false → Ends (.hostTriggerRecord page off bs) s s)) ∧
     (let commands := [Instr.mbxAttest m bs, .mbxCreateContext m tenant priv, .mbxLoadImage m ctx addr len, .mbxDestroyContext m ctx,
        .mbxTenantKey m tenant key ok, .mbxReserveRange m tenant die base npg, .mbxHealthLog m seq, .mbxUnlistedCommand m code]
      (takes s m = false → ∀ i ∈ commands, Ends i s s) ∧
      (takes s m = true →
        (∀ i ∈ commands, ∃ t, Ends i s t ∧ (Tbl.getD t.pkg.mbx m {}).status = 1) ∧
        Ends (.mbxAttest m bs) s ((s.ring m 1 bs).respond m (report (s.ring m 1 bs) bs) 2) ∧
        (∃ req, Ends (.mbxUnlistedCommand m code) s ((s.ring m code req).respond m [] 3)) ∧
        (4096 ≤ tenant ∨ (∀ x < 64, (s.ctxAt x).live = true) → Ends (.mbxCreateContext m tenant priv) s ((s.ring m 2 (requestOf [tenant, flag priv 0])).respond m [] 3)) ∧
        (tenant < 4096 → (∃ x < 64, (s.ctxAt x).live = false) → ∃ x t, x < 64 ∧ (s.ctxAt x).live = false ∧
          Ends (.mbxCreateContext m tenant priv) s t ∧
          (t.ctxAt x).live = true ∧ (t.ctxAt x).tenant = tenant ∧ (t.ctxAt x).privileged = priv ∧ (t.ctxAt x).state = 0) ∧
        (running s ctx = false → Ends (.mbxLoadImage m ctx addr len) s ((s.ring m 3 (requestOf [ctx, addr, len])).respond m [] 3)) ∧
        (running s ctx = true → addr + len ≤ 2 ^ 41 → ∀ t, (s.ring m 3 (requestOf [ctx, addr, len])).loadImage ctx (s.readPa (hostPa s addr) len) = some t →
          ∃ qs, Ends (.mbxLoadImage m ctx addr len) s ((t.onPkg fun p => { p with qps := qs }).respond m [] 2)) ∧
        ((s.ctxAt ctx).live = true → ∃ t, Ends (.mbxDestroyContext m ctx) s t ∧ (t.ctxAt ctx).live = false ∧ ctx ∉ t.pkg.windows) ∧
        (ok = true → tenant < 4096 → ∃ t, Ends (.mbxTenantKey m tenant key ok) s t ∧ Tbl.getD t.pkg.keys tenant 0 = key.ual ∧
          Tbl.getD t.pkg.enc tenant {} = ⟨true, key.k1, key.k2, key.tagKey⟩) ∧
        (ok = false → ∃ req, Ends (.mbxTenantKey m tenant key ok) s ((s.ring m 5 req).respond m [] 3)) ∧
        (tenant < 4096 → reservable s die base npg = true → ∃ t, Ends (.mbxReserveRange m tenant die base npg) s t ∧
          (die, base, npg, tenant) ∈ t.pkg.reserved) ∧
        (reservable s die base npg = false → Ends (.mbxReserveRange m tenant die base npg) s ((s.ring m 6 (requestOf [tenant, die, base, npg])).respond m [] 3)) ∧
        (∃ xs, Ends (.mbxHealthLog m seq) s ((s.ring m 7 (requestOf [seq])).respond m xs 2) ∧
          xs.length = 64 * min 63 (s.pkg.health.length - seq) ∧
          ∀ i h, i < 63 → s.pkg.health[seq + i]? = some h → (xs.drop (64 * i)).take 64 =
            toBytes 8 (h.cls * 2 ^ 56 + 0xFFF * 2 ^ 36 + h.die.elim (2 ^ 32) (fun d => d % 8 * 2 ^ 33) + (seq + i)) ++
              toBytes 8 h.addr ++ toBytes 8 h.time ++ toBytes 8 h.detail ++ List.replicate 32 0))) ∧
     ((Tbl.getD s.pkg.mbx m {}).status = 1 → ∃ t, Ends (.mailboxCompletion m) s t ∧
       (Tbl.getD t.pkg.mbx m {}).status = (Tbl.getD s.pkg.mbx m {}).result ∧ t.outs = s.outs ++ [.msix m]) ∧
     (awaitsHost (s.coreAt c) = true →
       Ends (.hostCompletion c ok bs) s (s.onCore c fun x => { x with hostRd := some (ok, bs), stalled := false }) ∧
       ∃ t, Ends (.hostCompletionTimeout c) s t ∧ (t.coreAt c).hostRd = some (false, []) ∧ ∀ i ∈ t.flight, completes c i = false) ∧
     (s.pkg.ual = [] → Ends (.ualinkRequest r) s (if r.src.isSome then s.launch (.ualinkRequest r) else s)) ∧
     (s.pkg.ual ≠ [] → s.acceptReq r = none → ∃ t, Ends (.ualinkRequest r) s t ∧ (r.src = none → t.outs = s.outs ++ [.refused r.pkg r]) ∧
       (r.src = none → t.pkg.health.length = s.pkg.health.length + 1)) ∧
     (keyFits s r = false → s.acceptReq r = none) ∧
     (s.pkg.ual ≠ [] → ∀ t, s.acceptReq r = some t → Ends (.ualinkRequest r) s t) ∧
     (let k := qpKey port qp
      let q := Tbl.getD s.pkg.qps k {}
      (port ∉ s.pkg.eth → Ends (.ethernetTransmit port qp) s s ∧ Ends (.ethernetReceive port qp bs) s s) ∧
      (frameFor q bs = false → Ends (.ethernetReceive port qp bs) s s) ∧
      (port ∈ s.pkg.eth → Tbl.has s.pkg.qps k = true → running s q.ctx = true →
      (let tx := ringAt s q.tx
       let n := ofBytes (s.readPa (tx.slot q.tx tx.tail) 8)
       ringFails s q.ctx q.tx 64 = false → ringWaits s q.tx = false → ringFails s q.ctx (tx.slot q.tx tx.tail) (n + 8) = false →
       tx.bad = false → tx.tail < tx.cmt → goodLength tx n = true → ∃ t, Ends (.ethernetTransmit port qp) s t ∧
         (Tbl.getD t.pkg.qps k {}).sent = q.sent ++ [s.readPa (tx.slot q.tx tx.tail + 8) n] ∧
         t.read64 (q.tx + 16) = BitVec.ofNat 64 (tx.tail + 1)) ∧
      (let rx := ringAt s q.rx
       frameFor q bs = true → ringWaits s q.rx = false →
       (rx.bad = true ∨ goodLength rx bs.length = false → Ends (.ethernetReceive port qp bs) s
         (s.onQp k fun q => { q with dropped := q.dropped + 1 })) ∧
       (ringFails s q.ctx q.rx 64 = false → rx.bad = false → goodLength rx bs.length = true → rx.head - rx.tail ≠ rx.n → rx.head - rx.cmt ≠ 64 →
         ∃ t, Ends (.ethernetReceive port qp bs) s t ∧ t.read64 (rx.slot q.rx rx.head) = BitVec.ofNat 64 bs.length ∧
           (∀ i < bs.length, t.mem.read (rx.slot q.rx rx.head + 8 + i) = bs.getD i 0) ∧
           ∀ i < 32, t.mem.read (q.rx + i) = rx.produced.getD i 0))))) ∧
  (∀ (s : State) (tai err slots c : Nat) (net flash : BootImage) (u : ReadyUnit),
     (s.pkg.eth = [] → Ends (.ptpMessage tai err) s s) ∧
     (s.pkg.eth ≠ [] → tai < 2 ^ 64 → ∃ t, Ends (.ptpMessage tai err) s t ∧ t.pkg.locked = true ∧ t.pkg.terr = err ∧
       (s.pkg.everLocked = true → t.pkg.now = s.pkg.now) ∧ s.pkg.now.toNat ≤ t.pkg.now.toNat) ∧
     (1000 < err → s.pkg.clkdeg = false → ∃ t, Ends (.clockDegradedEntry err) s t ∧ t.pkg.clkdeg = true ∧
       t.pkg.health.length = s.pkg.health.length + 1) ∧
     (s.pkg.clkdeg = true → s.pkg.terr < 500 → 1000000000 ≤ s.pkg.calm → ∃ t, Ends .clockDegradedExit s t ∧ t.pkg.clkdeg = false) ∧
     (s.pkg.femos = false →
       (accepts s net = true → ∃ t, Ends (.boot net flash) s t ∧ t.pkg.femos = true ∧ t.pkg.fused = net.version) ∧
       (accepts s net = false → accepts s flash = true → ∃ t, Ends (.boot net flash) s t ∧ t.pkg.femos = true ∧
         t.pkg.fused = flash.version) ∧
       (accepts s net = false → accepts s flash = false → ∃ t, Ends (.boot net flash) s t ∧ t.pkg.recovery = true ∧
         t.pkg.hub = false ∧ t.pkg.hbm = [] ∧ ∀ c, (t.coreAt c).ready = false)) ∧
     (s.pkg.recovery = false ∨ u = .mgmt → Ends (.selfTestReady u) s
       (s.heldMsgs.foldl State.dispatchMsg { s.setReady u with heldMsgs := [] }).restartFirings) ∧
     (s.pkg.recovery = true → u ≠ .mgmt → Ends (.selfTestReady u) s s) ∧
     (s.pkg.clkdeg = true → Ends (.clockDegradedEntry err) s s) ∧
     (s.pkg.clkdeg = false ∨ 500 ≤ s.pkg.terr → Ends .clockDegradedExit s s) ∧
     (s.pkg.femos = true → Ends (.boot net flash) s s) ∧
     ((s.dieAt (dieOf c)).lost = false → ((s.setReady (.core c)).coreAt c).ready = true) ∧
     (∃ t, Ends .thermalShutdown s t ∧ t.pkg.down = true ∧ ∀ x, running s x = true → (t.ctxAt x).state = 3) ∧
     Ends (.powerCapping slots) s (s.onPkg fun p => { p with withheld := slots }))

/-! ## Words, steps and reset -/

/-- The worked encodings of Table 1.10, and of the words that are traced below it. -/
def Obligations.WorkedEncodings : Prop :=
  (∀ p ∈ [(0x083F01E0#32, Instr.saAdd 63 (.reg 1) (.lit (-32))), (0x60007F2F#32, .viAdd 0 (.vec 63) (.reg 47)),
      (0x648741C0#32, .vcFlt 7 (.vec 1) (.lit 0)), (0x88387848#32, .gmAdd 7 7 1), (0x1410A000#32, .siAdd 1 2 (-8192)),
      (0x17FFDFFF#32, .siAdd 63 63 8191), (0x2441103F#32, .siShr 4 4 63), (0x309FFFFF#32, .liTop 9 0xFFFFF),
      (0x4DBC7FA0#32, .ldD 15 7 62 (-32)), (0x5103F05F#32, .stV 63 1 31), (0x3540E000#32, .brLe 3 (-8192)),
      (0x36000001#32, .brAlways 1), (0x3A000000#32, .jmp (-0x2000000)), (0x3DFFFFFF#32, .call 0x1FFFFFF),
      (0x54485187#32, .atAddcb 2 5 6 7), (0x04090000#32, .fenceRel 1), (0x04030000#32, .fenceFull 3), (0x00010000#32, .sysNop),
      (0x00051443#32, .sysGet 5 0x043), (0x00000000#32, .sysInv)], decodeWord p.1 = .ok p.2) ∧
  decodeWord 0xA8000000 = .error .reserved ∧ decodeWord 0x13000000 = .error .reserved ∧
  (∃ e, e ≠ .reserved ∧ decodeWord 0x88387849 = .error e)

/-- Decoding gives back every instruction that has a word, with every operand at every value, and leaves the bytes behind it
(Tables 1.1 and 1.7, R5). -/
def Obligations.DecodeEncode : Prop :=
  ∀ (i : Instr) (w : BitVec 32) (rest : List Byte), wellFormed i = true → encode i = some w →
    decode (wordBytes w ++ rest) = .ok (i, rest)

/-- A core's step runs the instruction that its word decodes to. The turn's core has nothing that must come first: no trap is due,
it does not wait, no atomic of it is awaited, and it follows no row. The fetch gives the word and the checker's view of it; without
a checked image and outside a sprinkle handler it reads the four bytes at the program counter, as a request that the L1 instruction
cache answers or takes (R122), keeps the word, and nothing follows the instruction. With a checked image the checker follows it
(R357). -/
def Obligations.StepRunsDecoded : Prop :=
  ∀ (s u v : State) (dt c : Nat) (comb : Bool) (rest : List Turn) (i : Instr), s.pkg.down = false →
    s.agenda = .core dt c comb :: rest →
    (let t : State := { ({ s with agenda := rest, tick := s.tick + 1 } : State).advance dt with cur := c, comb := comb }
     u = t.setCore t.core) →
    u.core.phase = .running → u.core.due = none → u.core.ret = none → u.core.held = none → u.core.stalled = false →
    (∀ r ∈ u.core.outst, r.dest = 0) → u.core.trail.role = .none → v.core.trail = u.core.trail →
    (∀ (w : BitVec 32) (b : Option Block) (t : State), Gives fetchStage u (w, b) v → decodeWord w = .ok i →
      exec i (v.setCore (v.core.beforeInstr i b)) = .next t → step s = .next (t.afterInstr v.cur v.core i w b)) ∧
    (∀ (pl : Place) (r t : State) (b0 b1 b2 b3 : Byte) (w : BitVec 32), w = wordOfBytes b0 b1 b2 b3 →
      Gives (resolveFetch u.core.pc.toNat .fetch) u pl r → readPlace r r.cur r.ctxNo pl 4 = .ok [b0, b1, b2, b3] →
      t = r.noteFetch r.cur r.ctxNo pl →
      bit (t.ctxAt t.ctxNo).sigctl.toNat 63 = false → t.core.trig.kind ≠ 1 → v = t.setCore { t.core with ir := w } →
      decode [b0, b1, b2, b3] = .ok (i, []) → i ≠ .jxRet → step s = exec i v)

/-- The machine right after reset: memory lists nothing and is in canonical form, no context is live, no core is ready, has
a context or runs anything, no register holds a bit but gdim, which is 1 and femOS does not run (R386; the registers' values
are log 1, memory's is log 2). -/
def Obligations.ResetState : Prop :=
  let s := State.reset
  s.mem = [] ∧ Canonical s ∧ (∀ x, (s.ctxAt x).live = false) ∧ s.pkg.femos = false ∧ s.pkg.down = false ∧ s.agenda = [] ∧
  s.flight = [] ∧
  ∀ c, (s.coreAt c).ready = false ∧ (s.coreAt c).phase = .idle ∧ (s.coreAt c).ctx = none ∧ (s.coreAt c).pc = 0 ∧
    (∀ n, (s.coreAt c).getS n = 0) ∧ (∀ n, (s.coreAt c).getV n = Vector.replicate 16 0) ∧ (∀ n, (s.coreAt c).getP n = 0) ∧
    (s.coreAt c).tlv = 0 ∧ (s.coreAt c).fflags = 0 ∧ (s.coreAt c).gdim = 1 ∧ (s.coreAt c).inbox = [] ∧ (s.coreAt c).cbuf = []

/-- Every step keeps memory in canonical form: its addresses rise strictly, and it lists no byte that an unlisted address
reads as (log 2). -/
def Obligations.StepKeepsCanonical : Prop :=
 ∀ s t : State, Canonical s → step s = .next t → Canonical t

/-- Nothing stops the machine but a shutdown of the module: every instruction answers a next state in every state, every
step does until the shutdown, and none does after it (R388). -/
def Obligations.NothingStops : Prop :=
  (∀ (i : Instr) (s : State), ∃ t, Ends i s t) ∧
  (∀ s : State, s.pkg.down = false → ∃ t, step s = .next t) ∧
  (∀ s : State, s.pkg.down = true → step s = .fault .shutDown)
end

