-- ==== Sys2Proof/Laws/State.lean ====
section
/-!
SUPPORT. One lemma per field and update of the state: an update of one part leaves every other field as it is. Later
proofs cite these and unfold no record update.
-/
namespace Sys2Proof.Machine

/-! ## Updates of the machine -/

section Machine
variable (s : State) (c k : Nat) (x : Core) (fc : Core → Core) (fx : Ctx → Ctx) (fd : Die → Die) (fk : Cluster → Cluster)
variable (fp : Pkg → Pkg) (i : Instr)

@[simp] theorem setCoreAt_cur : (s.setCoreAt c x).cur = s.cur := rfl
@[simp] theorem setCoreAt_ctxs : (s.setCoreAt c x).ctxs = s.ctxs := rfl
@[simp] theorem setCoreAt_mem : (s.setCoreAt c x).mem = s.mem := rfl
@[simp] theorem setCoreAt_poison : (s.setCoreAt c x).poison = s.poison := rfl
@[simp] theorem setCoreAt_dies : (s.setCoreAt c x).dies = s.dies := rfl
@[simp] theorem setCoreAt_clusters : (s.setCoreAt c x).clusters = s.clusters := rfl
@[simp] theorem setCoreAt_xl : (s.setCoreAt c x).xl = s.xl := rfl
@[simp] theorem setCoreAt_dir : (s.setCoreAt c x).dir = s.dir := rfl
@[simp] theorem setCoreAt_mons : (s.setCoreAt c x).mons = s.mons := rfl
@[simp] theorem setCoreAt_l2 : (s.setCoreAt c x).l2 = s.l2 := rfl
@[simp] theorem setCoreAt_tpins : (s.setCoreAt c x).tpins = s.tpins := rfl
@[simp] theorem setCoreAt_pinq : (s.setCoreAt c x).pinq = s.pinq := rfl
@[simp] theorem setCoreAt_counts : (s.setCoreAt c x).counts = s.counts := rfl
@[simp] theorem setCoreAt_migs : (s.setCoreAt c x).migs = s.migs := rfl
@[simp] theorem setCoreAt_freed : (s.setCoreAt c x).freed = s.freed := rfl
@[simp] theorem setCoreAt_hints : (s.setCoreAt c x).hints = s.hints := rfl
@[simp] theorem setCoreAt_units : (s.setCoreAt c x).units = s.units := rfl
@[simp] theorem setCoreAt_pkg : (s.setCoreAt c x).pkg = s.pkg := rfl
@[simp] theorem setCoreAt_heldMsgs : (s.setCoreAt c x).heldMsgs = s.heldMsgs := rfl
@[simp] theorem setCoreAt_flight : (s.setCoreAt c x).flight = s.flight := rfl
@[simp] theorem setCoreAt_outs : (s.setCoreAt c x).outs = s.outs := rfl
@[simp] theorem setCoreAt_agenda : (s.setCoreAt c x).agenda = s.agenda := rfl
@[simp] theorem setCoreAt_comb : (s.setCoreAt c x).comb = s.comb := rfl
@[simp] theorem setCoreAt_tick : (s.setCoreAt c x).tick = s.tick := rfl
@[simp] theorem setCore_cur : (s.setCore x).cur = s.cur := rfl
@[simp] theorem setCore_ctxs : (s.setCore x).ctxs = s.ctxs := rfl
@[simp] theorem setCore_mem : (s.setCore x).mem = s.mem := rfl
@[simp] theorem setCore_poison : (s.setCore x).poison = s.poison := rfl
@[simp] theorem setCore_dies : (s.setCore x).dies = s.dies := rfl
@[simp] theorem setCore_clusters : (s.setCore x).clusters = s.clusters := rfl
@[simp] theorem setCore_xl : (s.setCore x).xl = s.xl := rfl
@[simp] theorem setCore_dir : (s.setCore x).dir = s.dir := rfl
@[simp] theorem setCore_mons : (s.setCore x).mons = s.mons := rfl
@[simp] theorem setCore_l2 : (s.setCore x).l2 = s.l2 := rfl
@[simp] theorem setCore_tpins : (s.setCore x).tpins = s.tpins := rfl
@[simp] theorem setCore_pinq : (s.setCore x).pinq = s.pinq := rfl
@[simp] theorem setCore_counts : (s.setCore x).counts = s.counts := rfl
@[simp] theorem setCore_migs : (s.setCore x).migs = s.migs := rfl
@[simp] theorem setCore_freed : (s.setCore x).freed = s.freed := rfl
@[simp] theorem setCore_hints : (s.setCore x).hints = s.hints := rfl
@[simp] theorem setCore_units : (s.setCore x).units = s.units := rfl
@[simp] theorem setCore_pkg : (s.setCore x).pkg = s.pkg := rfl
@[simp] theorem setCore_heldMsgs : (s.setCore x).heldMsgs = s.heldMsgs := rfl
@[simp] theorem setCore_flight : (s.setCore x).flight = s.flight := rfl
@[simp] theorem setCore_outs : (s.setCore x).outs = s.outs := rfl
@[simp] theorem setCore_agenda : (s.setCore x).agenda = s.agenda := rfl
@[simp] theorem setCore_comb : (s.setCore x).comb = s.comb := rfl
@[simp] theorem setCore_tick : (s.setCore x).tick = s.tick := rfl
@[simp] theorem onCore_cur : (s.onCore c fc).cur = s.cur := rfl
@[simp] theorem onCore_ctxs : (s.onCore c fc).ctxs = s.ctxs := rfl
@[simp] theorem onCore_mem : (s.onCore c fc).mem = s.mem := rfl
@[simp] theorem onCore_poison : (s.onCore c fc).poison = s.poison := rfl
@[simp] theorem onCore_dies : (s.onCore c fc).dies = s.dies := rfl
@[simp] theorem onCore_clusters : (s.onCore c fc).clusters = s.clusters := rfl
@[simp] theorem onCore_xl : (s.onCore c fc).xl = s.xl := rfl
@[simp] theorem onCore_dir : (s.onCore c fc).dir = s.dir := rfl
@[simp] theorem onCore_mons : (s.onCore c fc).mons = s.mons := rfl
@[simp] theorem onCore_l2 : (s.onCore c fc).l2 = s.l2 := rfl
@[simp] theorem onCore_tpins : (s.onCore c fc).tpins = s.tpins := rfl
@[simp] theorem onCore_pinq : (s.onCore c fc).pinq = s.pinq := rfl
@[simp] theorem onCore_counts : (s.onCore c fc).counts = s.counts := rfl
@[simp] theorem onCore_migs : (s.onCore c fc).migs = s.migs := rfl
@[simp] theorem onCore_freed : (s.onCore c fc).freed = s.freed := rfl
@[simp] theorem onCore_hints : (s.onCore c fc).hints = s.hints := rfl
@[simp] theorem onCore_units : (s.onCore c fc).units = s.units := rfl
@[simp] theorem onCore_pkg : (s.onCore c fc).pkg = s.pkg := rfl
@[simp] theorem onCore_heldMsgs : (s.onCore c fc).heldMsgs = s.heldMsgs := rfl
@[simp] theorem onCore_flight : (s.onCore c fc).flight = s.flight := rfl
@[simp] theorem onCore_outs : (s.onCore c fc).outs = s.outs := rfl
@[simp] theorem onCore_agenda : (s.onCore c fc).agenda = s.agenda := rfl
@[simp] theorem onCore_comb : (s.onCore c fc).comb = s.comb := rfl
@[simp] theorem onCore_tick : (s.onCore c fc).tick = s.tick := rfl
@[simp] theorem onCtx_cores : (s.onCtx k fx).cores = s.cores := rfl
@[simp] theorem onCtx_cur : (s.onCtx k fx).cur = s.cur := rfl
@[simp] theorem onCtx_mem : (s.onCtx k fx).mem = s.mem := rfl
@[simp] theorem onCtx_poison : (s.onCtx k fx).poison = s.poison := rfl
@[simp] theorem onCtx_dies : (s.onCtx k fx).dies = s.dies := rfl
@[simp] theorem onCtx_clusters : (s.onCtx k fx).clusters = s.clusters := rfl
@[simp] theorem onCtx_xl : (s.onCtx k fx).xl = s.xl := rfl
@[simp] theorem onCtx_dir : (s.onCtx k fx).dir = s.dir := rfl
@[simp] theorem onCtx_mons : (s.onCtx k fx).mons = s.mons := rfl
@[simp] theorem onCtx_l2 : (s.onCtx k fx).l2 = s.l2 := rfl
@[simp] theorem onCtx_tpins : (s.onCtx k fx).tpins = s.tpins := rfl
@[simp] theorem onCtx_pinq : (s.onCtx k fx).pinq = s.pinq := rfl
@[simp] theorem onCtx_counts : (s.onCtx k fx).counts = s.counts := rfl
@[simp] theorem onCtx_migs : (s.onCtx k fx).migs = s.migs := rfl
@[simp] theorem onCtx_freed : (s.onCtx k fx).freed = s.freed := rfl
@[simp] theorem onCtx_hints : (s.onCtx k fx).hints = s.hints := rfl
@[simp] theorem onCtx_units : (s.onCtx k fx).units = s.units := rfl
@[simp] theorem onCtx_pkg : (s.onCtx k fx).pkg = s.pkg := rfl
@[simp] theorem onCtx_heldMsgs : (s.onCtx k fx).heldMsgs = s.heldMsgs := rfl
@[simp] theorem onCtx_flight : (s.onCtx k fx).flight = s.flight := rfl
@[simp] theorem onCtx_outs : (s.onCtx k fx).outs = s.outs := rfl
@[simp] theorem onCtx_agenda : (s.onCtx k fx).agenda = s.agenda := rfl
@[simp] theorem onCtx_comb : (s.onCtx k fx).comb = s.comb := rfl
@[simp] theorem onCtx_tick : (s.onCtx k fx).tick = s.tick := rfl
@[simp] theorem onDie_cores : (s.onDie k fd).cores = s.cores := rfl
@[simp] theorem onDie_cur : (s.onDie k fd).cur = s.cur := rfl
@[simp] theorem onDie_ctxs : (s.onDie k fd).ctxs = s.ctxs := rfl
@[simp] theorem onDie_mem : (s.onDie k fd).mem = s.mem := rfl
@[simp] theorem onDie_poison : (s.onDie k fd).poison = s.poison := rfl
@[simp] theorem onDie_clusters : (s.onDie k fd).clusters = s.clusters := rfl
@[simp] theorem onDie_xl : (s.onDie k fd).xl = s.xl := rfl
@[simp] theorem onDie_dir : (s.onDie k fd).dir = s.dir := rfl
@[simp] theorem onDie_mons : (s.onDie k fd).mons = s.mons := rfl
@[simp] theorem onDie_l2 : (s.onDie k fd).l2 = s.l2 := rfl
@[simp] theorem onDie_tpins : (s.onDie k fd).tpins = s.tpins := rfl
@[simp] theorem onDie_pinq : (s.onDie k fd).pinq = s.pinq := rfl
@[simp] theorem onDie_counts : (s.onDie k fd).counts = s.counts := rfl
@[simp] theorem onDie_migs : (s.onDie k fd).migs = s.migs := rfl
@[simp] theorem onDie_freed : (s.onDie k fd).freed = s.freed := rfl
@[simp] theorem onDie_hints : (s.onDie k fd).hints = s.hints := rfl
@[simp] theorem onDie_units : (s.onDie k fd).units = s.units := rfl
@[simp] theorem onDie_pkg : (s.onDie k fd).pkg = s.pkg := rfl
@[simp] theorem onDie_heldMsgs : (s.onDie k fd).heldMsgs = s.heldMsgs := rfl
@[simp] theorem onDie_flight : (s.onDie k fd).flight = s.flight := rfl
@[simp] theorem onDie_outs : (s.onDie k fd).outs = s.outs := rfl
@[simp] theorem onDie_agenda : (s.onDie k fd).agenda = s.agenda := rfl
@[simp] theorem onDie_comb : (s.onDie k fd).comb = s.comb := rfl
@[simp] theorem onDie_tick : (s.onDie k fd).tick = s.tick := rfl
@[simp] theorem onCluster_cores : (s.onCluster k fk).cores = s.cores := rfl
@[simp] theorem onCluster_cur : (s.onCluster k fk).cur = s.cur := rfl
@[simp] theorem onCluster_ctxs : (s.onCluster k fk).ctxs = s.ctxs := rfl
@[simp] theorem onCluster_mem : (s.onCluster k fk).mem = s.mem := rfl
@[simp] theorem onCluster_poison : (s.onCluster k fk).poison = s.poison := rfl
@[simp] theorem onCluster_dies : (s.onCluster k fk).dies = s.dies := rfl
@[simp] theorem onCluster_xl : (s.onCluster k fk).xl = s.xl := rfl
@[simp] theorem onCluster_dir : (s.onCluster k fk).dir = s.dir := rfl
@[simp] theorem onCluster_mons : (s.onCluster k fk).mons = s.mons := rfl
@[simp] theorem onCluster_l2 : (s.onCluster k fk).l2 = s.l2 := rfl
@[simp] theorem onCluster_tpins : (s.onCluster k fk).tpins = s.tpins := rfl
@[simp] theorem onCluster_pinq : (s.onCluster k fk).pinq = s.pinq := rfl
@[simp] theorem onCluster_counts : (s.onCluster k fk).counts = s.counts := rfl
@[simp] theorem onCluster_migs : (s.onCluster k fk).migs = s.migs := rfl
@[simp] theorem onCluster_freed : (s.onCluster k fk).freed = s.freed := rfl
@[simp] theorem onCluster_hints : (s.onCluster k fk).hints = s.hints := rfl
@[simp] theorem onCluster_units : (s.onCluster k fk).units = s.units := rfl
@[simp] theorem onCluster_pkg : (s.onCluster k fk).pkg = s.pkg := rfl
@[simp] theorem onCluster_heldMsgs : (s.onCluster k fk).heldMsgs = s.heldMsgs := rfl
@[simp] theorem onCluster_flight : (s.onCluster k fk).flight = s.flight := rfl
@[simp] theorem onCluster_outs : (s.onCluster k fk).outs = s.outs := rfl
@[simp] theorem onCluster_agenda : (s.onCluster k fk).agenda = s.agenda := rfl
@[simp] theorem onCluster_comb : (s.onCluster k fk).comb = s.comb := rfl
@[simp] theorem onCluster_tick : (s.onCluster k fk).tick = s.tick := rfl
@[simp] theorem onPkg_cores : (s.onPkg fp).cores = s.cores := rfl
@[simp] theorem onPkg_cur : (s.onPkg fp).cur = s.cur := rfl
@[simp] theorem onPkg_ctxs : (s.onPkg fp).ctxs = s.ctxs := rfl
@[simp] theorem onPkg_mem : (s.onPkg fp).mem = s.mem := rfl
@[simp] theorem onPkg_poison : (s.onPkg fp).poison = s.poison := rfl
@[simp] theorem onPkg_dies : (s.onPkg fp).dies = s.dies := rfl
@[simp] theorem onPkg_clusters : (s.onPkg fp).clusters = s.clusters := rfl
@[simp] theorem onPkg_xl : (s.onPkg fp).xl = s.xl := rfl
@[simp] theorem onPkg_dir : (s.onPkg fp).dir = s.dir := rfl
@[simp] theorem onPkg_mons : (s.onPkg fp).mons = s.mons := rfl
@[simp] theorem onPkg_l2 : (s.onPkg fp).l2 = s.l2 := rfl
@[simp] theorem onPkg_tpins : (s.onPkg fp).tpins = s.tpins := rfl
@[simp] theorem onPkg_pinq : (s.onPkg fp).pinq = s.pinq := rfl
@[simp] theorem onPkg_counts : (s.onPkg fp).counts = s.counts := rfl
@[simp] theorem onPkg_migs : (s.onPkg fp).migs = s.migs := rfl
@[simp] theorem onPkg_freed : (s.onPkg fp).freed = s.freed := rfl
@[simp] theorem onPkg_hints : (s.onPkg fp).hints = s.hints := rfl
@[simp] theorem onPkg_units : (s.onPkg fp).units = s.units := rfl
@[simp] theorem onPkg_heldMsgs : (s.onPkg fp).heldMsgs = s.heldMsgs := rfl
@[simp] theorem onPkg_flight : (s.onPkg fp).flight = s.flight := rfl
@[simp] theorem onPkg_outs : (s.onPkg fp).outs = s.outs := rfl
@[simp] theorem onPkg_agenda : (s.onPkg fp).agenda = s.agenda := rfl
@[simp] theorem onPkg_comb : (s.onPkg fp).comb = s.comb := rfl
@[simp] theorem onPkg_tick : (s.onPkg fp).tick = s.tick := rfl
@[simp] theorem launch_cores : (s.launch i).cores = s.cores := rfl
@[simp] theorem launch_cur : (s.launch i).cur = s.cur := rfl
@[simp] theorem launch_ctxs : (s.launch i).ctxs = s.ctxs := rfl
@[simp] theorem launch_mem : (s.launch i).mem = s.mem := rfl
@[simp] theorem launch_poison : (s.launch i).poison = s.poison := rfl
@[simp] theorem launch_dies : (s.launch i).dies = s.dies := rfl
@[simp] theorem launch_clusters : (s.launch i).clusters = s.clusters := rfl
@[simp] theorem launch_xl : (s.launch i).xl = s.xl := rfl
@[simp] theorem launch_dir : (s.launch i).dir = s.dir := rfl
@[simp] theorem launch_mons : (s.launch i).mons = s.mons := rfl
@[simp] theorem launch_l2 : (s.launch i).l2 = s.l2 := rfl
@[simp] theorem launch_tpins : (s.launch i).tpins = s.tpins := rfl
@[simp] theorem launch_pinq : (s.launch i).pinq = s.pinq := rfl
@[simp] theorem launch_counts : (s.launch i).counts = s.counts := rfl
@[simp] theorem launch_migs : (s.launch i).migs = s.migs := rfl
@[simp] theorem launch_freed : (s.launch i).freed = s.freed := rfl
@[simp] theorem launch_hints : (s.launch i).hints = s.hints := rfl
@[simp] theorem launch_units : (s.launch i).units = s.units := rfl
@[simp] theorem launch_pkg : (s.launch i).pkg = s.pkg := rfl
@[simp] theorem launch_heldMsgs : (s.launch i).heldMsgs = s.heldMsgs := rfl
@[simp] theorem launch_outs : (s.launch i).outs = s.outs := rfl
@[simp] theorem launch_agenda : (s.launch i).agenda = s.agenda := rfl
@[simp] theorem launch_comb : (s.launch i).comb = s.comb := rfl
@[simp] theorem launch_tick : (s.launch i).tick = s.tick := rfl
@[simp] theorem onPkg_pkg : (s.onPkg fp).pkg = fp s.pkg := rfl
@[simp] theorem launch_flight : (s.launch i).flight = s.flight ++ [i] := rfl

end Machine

/-! ## Updates of a core -/

section OneCore
variable (c : Core) (n : SReg) (w : Word) (m : VReg) (y : VWord) (p : PReg) (z : PWord) (k : Nat) (q : List (BitVec 65))

@[simp] theorem setS_v : (c.setS n w).v = c.v := by unfold Core.setS; split <;> rfl
@[simp] theorem setS_p : (c.setS n w).p = c.p := by unfold Core.setS; split <;> rfl
@[simp] theorem setS_k : (c.setS n w).k = c.k := by unfold Core.setS; split <;> rfl
@[simp] theorem setS_pc : (c.setS n w).pc = c.pc := by unfold Core.setS; split <;> rfl
@[simp] theorem setS_ir : (c.setS n w).ir = c.ir := by unfold Core.setS; split <;> rfl
@[simp] theorem setS_pend : (c.setS n w).pend = c.pend := by unfold Core.setS; split <;> rfl
@[simp] theorem setS_frm : (c.setS n w).frm = c.frm := by unfold Core.setS; split <;> rfl
@[simp] theorem setS_fflags : (c.setS n w).fflags = c.fflags := by unfold Core.setS; split <;> rfl
@[simp] theorem setS_gdim : (c.setS n w).gdim = c.gdim := by unfold Core.setS; split <;> rfl
@[simp] theorem setS_lp : (c.setS n w).lp = c.lp := by unfold Core.setS; split <;> rfl
@[simp] theorem setS_vprog : (c.setS n w).vprog = c.vprog := by unfold Core.setS; split <;> rfl
@[simp] theorem setS_tlv : (c.setS n w).tlv = c.tlv := by unfold Core.setS; split <;> rfl
@[simp] theorem setS_tvec : (c.setS n w).tvec = c.tvec := by unfold Core.setS; split <;> rfl
@[simp] theorem setS_t1 : (c.setS n w).t1 = c.t1 := by unfold Core.setS; split <;> rfl
@[simp] theorem setS_t2 : (c.setS n w).t2 = c.t2 := by unfold Core.setS; split <;> rfl
@[simp] theorem setS_tsave : (c.setS n w).tsave = c.tsave := by unfold Core.setS; split <;> rfl
@[simp] theorem setS_csel : (c.setS n w).csel = c.csel := by unfold Core.setS; split <;> rfl
@[simp] theorem setS_fpa : (c.setS n w).fpa = c.fpa := by unfold Core.setS; split <;> rfl
@[simp] theorem setS_seq : (c.setS n w).seq = c.seq := by unfold Core.setS; split <;> rfl
@[simp] theorem setS_tsn : (c.setS n w).tsn = c.tsn := by unfold Core.setS; split <;> rfl
@[simp] theorem setS_rtag : (c.setS n w).rtag = c.rtag := by unfold Core.setS; split <;> rfl
@[simp] theorem setS_rgrp : (c.setS n w).rgrp = c.rgrp := by unfold Core.setS; split <;> rfl
@[simp] theorem setS_phase : (c.setS n w).phase = c.phase := by unfold Core.setS; split <;> rfl
@[simp] theorem setS_ctx : (c.setS n w).ctx = c.ctx := by unfold Core.setS; split <;> rfl
@[simp] theorem setS_last : (c.setS n w).last = c.last := by unfold Core.setS; split <;> rfl
@[simp] theorem setS_rev : (c.setS n w).rev = c.rev := by unfold Core.setS; split <;> rfl
@[simp] theorem setS_trig : (c.setS n w).trig = c.trig := by unfold Core.setS; split <;> rfl
@[simp] theorem setS_cbuf : (c.setS n w).cbuf = c.cbuf := by unfold Core.setS; split <;> rfl
@[simp] theorem setS_icount : (c.setS n w).icount = c.icount := by unfold Core.setS; split <;> rfl
@[simp] theorem setS_wcount : (c.setS n w).wcount = c.wcount := by unfold Core.setS; split <;> rfl
@[simp] theorem setS_portAt : (c.setS n w).portAt = c.portAt := by unfold Core.setS; split <;> rfl
@[simp] theorem setS_started : (c.setS n w).started = c.started := by unfold Core.setS; split <;> rfl
@[simp] theorem setS_held : (c.setS n w).held = c.held := by unfold Core.setS; split <;> rfl
@[simp] theorem setS_rsig : (c.setS n w).rsig = c.rsig := by unfold Core.setS; split <;> rfl
@[simp] theorem setS_word : (c.setS n w).word = c.word := by unfold Core.setS; split <;> rfl
@[simp] theorem setS_bars : (c.setS n w).bars = c.bars := by unfold Core.setS; split <;> rfl
@[simp] theorem setS_nextBar : (c.setS n w).nextBar = c.nextBar := by unfold Core.setS; split <;> rfl
@[simp] theorem setS_arrived : (c.setS n w).arrived = c.arrived := by unfold Core.setS; split <;> rfl
@[simp] theorem setS_fetching : (c.setS n w).fetching = c.fetching := by unfold Core.setS; split <;> rfl
@[simp] theorem setS_posts : (c.setS n w).posts = c.posts := by unfold Core.setS; split <;> rfl
@[simp] theorem setS_sprTiles : (c.setS n w).sprTiles = c.sprTiles := by unfold Core.setS; split <;> rfl
@[simp] theorem setS_trail : (c.setS n w).trail = c.trail := by unfold Core.setS; split <;> rfl
@[simp] theorem setS_chk : (c.setS n w).chk = c.chk := by unfold Core.setS; split <;> rfl
@[simp] theorem setS_tags : (c.setS n w).tags = c.tags := by unfold Core.setS; split <;> rfl
@[simp] theorem setS_inbox : (c.setS n w).inbox = c.inbox := by unfold Core.setS; split <;> rfl
@[simp] theorem setS_l1tlb : (c.setS n w).l1tlb = c.l1tlb := by unfold Core.setS; split <;> rfl
@[simp] theorem setS_l1 : (c.setS n w).l1 = c.l1 := by unfold Core.setS; split <;> rfl
@[simp] theorem setS_l1i : (c.setS n w).l1i = c.l1i := by unfold Core.setS; split <;> rfl
@[simp] theorem setS_lmon : (c.setS n w).lmon = c.lmon := by unfold Core.setS; split <;> rfl
@[simp] theorem setS_qin : (c.setS n w).qin = c.qin := by unfold Core.setS; split <;> rfl
@[simp] theorem setS_qcatch : (c.setS n w).qcatch = c.qcatch := by unfold Core.setS; split <;> rfl
@[simp] theorem setS_mx : (c.setS n w).mx = c.mx := by unfold Core.setS; split <;> rfl
@[simp] theorem setS_cp : (c.setS n w).cp = c.cp := by unfold Core.setS; split <;> rfl
@[simp] theorem setS_outst : (c.setS n w).outst = c.outst := by unfold Core.setS; split <;> rfl
@[simp] theorem setS_due : (c.setS n w).due = c.due := by unfold Core.setS; split <;> rfl
@[simp] theorem setS_dueCls : (c.setS n w).dueCls = c.dueCls := by unfold Core.setS; split <;> rfl
@[simp] theorem setS_dueDetail : (c.setS n w).dueDetail = c.dueDetail := by unfold Core.setS; split <;> rfl
@[simp] theorem setS_hostRd : (c.setS n w).hostRd = c.hostRd := by unfold Core.setS; split <;> rfl
@[simp] theorem setS_hostWait : (c.setS n w).hostWait = c.hostWait := by unfold Core.setS; split <;> rfl
@[simp] theorem setS_hostGot : (c.setS n w).hostGot = c.hostGot := by unfold Core.setS; split <;> rfl
@[simp] theorem setS_ready : (c.setS n w).ready = c.ready := by unfold Core.setS; split <;> rfl
@[simp] theorem setS_remap : (c.setS n w).remap = c.remap := by unfold Core.setS; split <;> rfl
@[simp] theorem setS_stalled : (c.setS n w).stalled = c.stalled := by unfold Core.setS; split <;> rfl
@[simp] theorem setS_chainOut : (c.setS n w).chainOut = c.chainOut := by unfold Core.setS; split <;> rfl
@[simp] theorem setS_chainSeq : (c.setS n w).chainSeq = c.chainSeq := by unfold Core.setS; split <;> rfl
@[simp] theorem setS_group : (c.setS n w).group = c.group := by unfold Core.setS; split <;> rfl
@[simp] theorem setS_ret : (c.setS n w).ret = c.ret := by unfold Core.setS; split <;> rfl
@[simp] theorem setV_s : (c.setV m y).s = c.s := rfl
@[simp] theorem setV_p : (c.setV m y).p = c.p := rfl
@[simp] theorem setV_k : (c.setV m y).k = c.k := rfl
@[simp] theorem setV_pc : (c.setV m y).pc = c.pc := rfl
@[simp] theorem setV_ir : (c.setV m y).ir = c.ir := rfl
@[simp] theorem setV_pend : (c.setV m y).pend = c.pend := rfl
@[simp] theorem setV_frm : (c.setV m y).frm = c.frm := rfl
@[simp] theorem setV_fflags : (c.setV m y).fflags = c.fflags := rfl
@[simp] theorem setV_gdim : (c.setV m y).gdim = c.gdim := rfl
@[simp] theorem setV_lp : (c.setV m y).lp = c.lp := rfl
@[simp] theorem setV_vprog : (c.setV m y).vprog = c.vprog := rfl
@[simp] theorem setV_tlv : (c.setV m y).tlv = c.tlv := rfl
@[simp] theorem setV_tvec : (c.setV m y).tvec = c.tvec := rfl
@[simp] theorem setV_t1 : (c.setV m y).t1 = c.t1 := rfl
@[simp] theorem setV_t2 : (c.setV m y).t2 = c.t2 := rfl
@[simp] theorem setV_tsave : (c.setV m y).tsave = c.tsave := rfl
@[simp] theorem setV_csel : (c.setV m y).csel = c.csel := rfl
@[simp] theorem setV_fpa : (c.setV m y).fpa = c.fpa := rfl
@[simp] theorem setV_seq : (c.setV m y).seq = c.seq := rfl
@[simp] theorem setV_tsn : (c.setV m y).tsn = c.tsn := rfl
@[simp] theorem setV_rtag : (c.setV m y).rtag = c.rtag := rfl
@[simp] theorem setV_rgrp : (c.setV m y).rgrp = c.rgrp := rfl
@[simp] theorem setV_phase : (c.setV m y).phase = c.phase := rfl
@[simp] theorem setV_ctx : (c.setV m y).ctx = c.ctx := rfl
@[simp] theorem setV_last : (c.setV m y).last = c.last := rfl
@[simp] theorem setV_rev : (c.setV m y).rev = c.rev := rfl
@[simp] theorem setV_trig : (c.setV m y).trig = c.trig := rfl
@[simp] theorem setV_cbuf : (c.setV m y).cbuf = c.cbuf := rfl
@[simp] theorem setV_icount : (c.setV m y).icount = c.icount := rfl
@[simp] theorem setV_wcount : (c.setV m y).wcount = c.wcount := rfl
@[simp] theorem setV_portAt : (c.setV m y).portAt = c.portAt := rfl
@[simp] theorem setV_started : (c.setV m y).started = c.started := rfl
@[simp] theorem setV_held : (c.setV m y).held = c.held := rfl
@[simp] theorem setV_rsig : (c.setV m y).rsig = c.rsig := rfl
@[simp] theorem setV_word : (c.setV m y).word = c.word := rfl
@[simp] theorem setV_bars : (c.setV m y).bars = c.bars := rfl
@[simp] theorem setV_nextBar : (c.setV m y).nextBar = c.nextBar := rfl
@[simp] theorem setV_arrived : (c.setV m y).arrived = c.arrived := rfl
@[simp] theorem setV_fetching : (c.setV m y).fetching = c.fetching := rfl
@[simp] theorem setV_posts : (c.setV m y).posts = c.posts := rfl
@[simp] theorem setV_sprTiles : (c.setV m y).sprTiles = c.sprTiles := rfl
@[simp] theorem setV_trail : (c.setV m y).trail = c.trail := rfl
@[simp] theorem setV_chk : (c.setV m y).chk = c.chk := rfl
@[simp] theorem setV_tags : (c.setV m y).tags = c.tags := rfl
@[simp] theorem setV_inbox : (c.setV m y).inbox = c.inbox := rfl
@[simp] theorem setV_l1tlb : (c.setV m y).l1tlb = c.l1tlb := rfl
@[simp] theorem setV_l1 : (c.setV m y).l1 = c.l1 := rfl
@[simp] theorem setV_l1i : (c.setV m y).l1i = c.l1i := rfl
@[simp] theorem setV_lmon : (c.setV m y).lmon = c.lmon := rfl
@[simp] theorem setV_qin : (c.setV m y).qin = c.qin := rfl
@[simp] theorem setV_qcatch : (c.setV m y).qcatch = c.qcatch := rfl
@[simp] theorem setV_mx : (c.setV m y).mx = c.mx := rfl
@[simp] theorem setV_cp : (c.setV m y).cp = c.cp := rfl
@[simp] theorem setV_outst : (c.setV m y).outst = c.outst := rfl
@[simp] theorem setV_due : (c.setV m y).due = c.due := rfl
@[simp] theorem setV_dueCls : (c.setV m y).dueCls = c.dueCls := rfl
@[simp] theorem setV_dueDetail : (c.setV m y).dueDetail = c.dueDetail := rfl
@[simp] theorem setV_hostRd : (c.setV m y).hostRd = c.hostRd := rfl
@[simp] theorem setV_hostWait : (c.setV m y).hostWait = c.hostWait := rfl
@[simp] theorem setV_hostGot : (c.setV m y).hostGot = c.hostGot := rfl
@[simp] theorem setV_ready : (c.setV m y).ready = c.ready := rfl
@[simp] theorem setV_remap : (c.setV m y).remap = c.remap := rfl
@[simp] theorem setV_stalled : (c.setV m y).stalled = c.stalled := rfl
@[simp] theorem setV_chainOut : (c.setV m y).chainOut = c.chainOut := rfl
@[simp] theorem setV_chainSeq : (c.setV m y).chainSeq = c.chainSeq := rfl
@[simp] theorem setV_group : (c.setV m y).group = c.group := rfl
@[simp] theorem setV_ret : (c.setV m y).ret = c.ret := rfl
@[simp] theorem setP_s : (c.setP p z).s = c.s := rfl
@[simp] theorem setP_v : (c.setP p z).v = c.v := rfl
@[simp] theorem setP_k : (c.setP p z).k = c.k := rfl
@[simp] theorem setP_pc : (c.setP p z).pc = c.pc := rfl
@[simp] theorem setP_ir : (c.setP p z).ir = c.ir := rfl
@[simp] theorem setP_pend : (c.setP p z).pend = c.pend := rfl
@[simp] theorem setP_frm : (c.setP p z).frm = c.frm := rfl
@[simp] theorem setP_fflags : (c.setP p z).fflags = c.fflags := rfl
@[simp] theorem setP_gdim : (c.setP p z).gdim = c.gdim := rfl
@[simp] theorem setP_lp : (c.setP p z).lp = c.lp := rfl
@[simp] theorem setP_vprog : (c.setP p z).vprog = c.vprog := rfl
@[simp] theorem setP_tlv : (c.setP p z).tlv = c.tlv := rfl
@[simp] theorem setP_tvec : (c.setP p z).tvec = c.tvec := rfl
@[simp] theorem setP_t1 : (c.setP p z).t1 = c.t1 := rfl
@[simp] theorem setP_t2 : (c.setP p z).t2 = c.t2 := rfl
@[simp] theorem setP_tsave : (c.setP p z).tsave = c.tsave := rfl
@[simp] theorem setP_csel : (c.setP p z).csel = c.csel := rfl
@[simp] theorem setP_fpa : (c.setP p z).fpa = c.fpa := rfl
@[simp] theorem setP_seq : (c.setP p z).seq = c.seq := rfl
@[simp] theorem setP_tsn : (c.setP p z).tsn = c.tsn := rfl
@[simp] theorem setP_rtag : (c.setP p z).rtag = c.rtag := rfl
@[simp] theorem setP_rgrp : (c.setP p z).rgrp = c.rgrp := rfl
@[simp] theorem setP_phase : (c.setP p z).phase = c.phase := rfl
@[simp] theorem setP_ctx : (c.setP p z).ctx = c.ctx := rfl
@[simp] theorem setP_last : (c.setP p z).last = c.last := rfl
@[simp] theorem setP_rev : (c.setP p z).rev = c.rev := rfl
@[simp] theorem setP_trig : (c.setP p z).trig = c.trig := rfl
@[simp] theorem setP_cbuf : (c.setP p z).cbuf = c.cbuf := rfl
@[simp] theorem setP_icount : (c.setP p z).icount = c.icount := rfl
@[simp] theorem setP_wcount : (c.setP p z).wcount = c.wcount := rfl
@[simp] theorem setP_portAt : (c.setP p z).portAt = c.portAt := rfl
@[simp] theorem setP_started : (c.setP p z).started = c.started := rfl
@[simp] theorem setP_held : (c.setP p z).held = c.held := rfl
@[simp] theorem setP_rsig : (c.setP p z).rsig = c.rsig := rfl
@[simp] theorem setP_word : (c.setP p z).word = c.word := rfl
@[simp] theorem setP_bars : (c.setP p z).bars = c.bars := rfl
@[simp] theorem setP_nextBar : (c.setP p z).nextBar = c.nextBar := rfl
@[simp] theorem setP_arrived : (c.setP p z).arrived = c.arrived := rfl
@[simp] theorem setP_fetching : (c.setP p z).fetching = c.fetching := rfl
@[simp] theorem setP_posts : (c.setP p z).posts = c.posts := rfl
@[simp] theorem setP_sprTiles : (c.setP p z).sprTiles = c.sprTiles := rfl
@[simp] theorem setP_trail : (c.setP p z).trail = c.trail := rfl
@[simp] theorem setP_chk : (c.setP p z).chk = c.chk := rfl
@[simp] theorem setP_tags : (c.setP p z).tags = c.tags := rfl
@[simp] theorem setP_inbox : (c.setP p z).inbox = c.inbox := rfl
@[simp] theorem setP_l1tlb : (c.setP p z).l1tlb = c.l1tlb := rfl
@[simp] theorem setP_l1 : (c.setP p z).l1 = c.l1 := rfl
@[simp] theorem setP_l1i : (c.setP p z).l1i = c.l1i := rfl
@[simp] theorem setP_lmon : (c.setP p z).lmon = c.lmon := rfl
@[simp] theorem setP_qin : (c.setP p z).qin = c.qin := rfl
@[simp] theorem setP_qcatch : (c.setP p z).qcatch = c.qcatch := rfl
@[simp] theorem setP_mx : (c.setP p z).mx = c.mx := rfl
@[simp] theorem setP_cp : (c.setP p z).cp = c.cp := rfl
@[simp] theorem setP_outst : (c.setP p z).outst = c.outst := rfl
@[simp] theorem setP_due : (c.setP p z).due = c.due := rfl
@[simp] theorem setP_dueCls : (c.setP p z).dueCls = c.dueCls := rfl
@[simp] theorem setP_dueDetail : (c.setP p z).dueDetail = c.dueDetail := rfl
@[simp] theorem setP_hostRd : (c.setP p z).hostRd = c.hostRd := rfl
@[simp] theorem setP_hostWait : (c.setP p z).hostWait = c.hostWait := rfl
@[simp] theorem setP_hostGot : (c.setP p z).hostGot = c.hostGot := rfl
@[simp] theorem setP_ready : (c.setP p z).ready = c.ready := rfl
@[simp] theorem setP_remap : (c.setP p z).remap = c.remap := rfl
@[simp] theorem setP_stalled : (c.setP p z).stalled = c.stalled := rfl
@[simp] theorem setP_chainOut : (c.setP p z).chainOut = c.chainOut := rfl
@[simp] theorem setP_chainSeq : (c.setP p z).chainSeq = c.chainSeq := rfl
@[simp] theorem setP_group : (c.setP p z).group = c.group := rfl
@[simp] theorem setP_ret : (c.setP p z).ret = c.ret := rfl
@[simp] theorem setFifo_s : (c.setFifo k q).s = c.s := rfl
@[simp] theorem setFifo_v : (c.setFifo k q).v = c.v := rfl
@[simp] theorem setFifo_p : (c.setFifo k q).p = c.p := rfl
@[simp] theorem setFifo_k : (c.setFifo k q).k = c.k := rfl
@[simp] theorem setFifo_pc : (c.setFifo k q).pc = c.pc := rfl
@[simp] theorem setFifo_ir : (c.setFifo k q).ir = c.ir := rfl
@[simp] theorem setFifo_pend : (c.setFifo k q).pend = c.pend := rfl
@[simp] theorem setFifo_frm : (c.setFifo k q).frm = c.frm := rfl
@[simp] theorem setFifo_fflags : (c.setFifo k q).fflags = c.fflags := rfl
@[simp] theorem setFifo_gdim : (c.setFifo k q).gdim = c.gdim := rfl
@[simp] theorem setFifo_lp : (c.setFifo k q).lp = c.lp := rfl
@[simp] theorem setFifo_vprog : (c.setFifo k q).vprog = c.vprog := rfl
@[simp] theorem setFifo_tlv : (c.setFifo k q).tlv = c.tlv := rfl
@[simp] theorem setFifo_tvec : (c.setFifo k q).tvec = c.tvec := rfl
@[simp] theorem setFifo_t1 : (c.setFifo k q).t1 = c.t1 := rfl
@[simp] theorem setFifo_t2 : (c.setFifo k q).t2 = c.t2 := rfl
@[simp] theorem setFifo_tsave : (c.setFifo k q).tsave = c.tsave := rfl
@[simp] theorem setFifo_csel : (c.setFifo k q).csel = c.csel := rfl
@[simp] theorem setFifo_fpa : (c.setFifo k q).fpa = c.fpa := rfl
@[simp] theorem setFifo_seq : (c.setFifo k q).seq = c.seq := rfl
@[simp] theorem setFifo_tsn : (c.setFifo k q).tsn = c.tsn := rfl
@[simp] theorem setFifo_rtag : (c.setFifo k q).rtag = c.rtag := rfl
@[simp] theorem setFifo_rgrp : (c.setFifo k q).rgrp = c.rgrp := rfl
@[simp] theorem setFifo_phase : (c.setFifo k q).phase = c.phase := rfl
@[simp] theorem setFifo_ctx : (c.setFifo k q).ctx = c.ctx := rfl
@[simp] theorem setFifo_last : (c.setFifo k q).last = c.last := rfl
@[simp] theorem setFifo_rev : (c.setFifo k q).rev = c.rev := rfl
@[simp] theorem setFifo_trig : (c.setFifo k q).trig = c.trig := rfl
@[simp] theorem setFifo_cbuf : (c.setFifo k q).cbuf = c.cbuf := rfl
@[simp] theorem setFifo_icount : (c.setFifo k q).icount = c.icount := rfl
@[simp] theorem setFifo_wcount : (c.setFifo k q).wcount = c.wcount := rfl
@[simp] theorem setFifo_portAt : (c.setFifo k q).portAt = c.portAt := rfl
@[simp] theorem setFifo_started : (c.setFifo k q).started = c.started := rfl
@[simp] theorem setFifo_held : (c.setFifo k q).held = c.held := rfl
@[simp] theorem setFifo_rsig : (c.setFifo k q).rsig = c.rsig := rfl
@[simp] theorem setFifo_word : (c.setFifo k q).word = c.word := rfl
@[simp] theorem setFifo_bars : (c.setFifo k q).bars = c.bars := rfl
@[simp] theorem setFifo_nextBar : (c.setFifo k q).nextBar = c.nextBar := rfl
@[simp] theorem setFifo_arrived : (c.setFifo k q).arrived = c.arrived := rfl
@[simp] theorem setFifo_fetching : (c.setFifo k q).fetching = c.fetching := rfl
@[simp] theorem setFifo_posts : (c.setFifo k q).posts = c.posts := rfl
@[simp] theorem setFifo_sprTiles : (c.setFifo k q).sprTiles = c.sprTiles := rfl
@[simp] theorem setFifo_trail : (c.setFifo k q).trail = c.trail := rfl
@[simp] theorem setFifo_chk : (c.setFifo k q).chk = c.chk := rfl
@[simp] theorem setFifo_tags : (c.setFifo k q).tags = c.tags := rfl
@[simp] theorem setFifo_inbox : (c.setFifo k q).inbox = c.inbox := rfl
@[simp] theorem setFifo_l1tlb : (c.setFifo k q).l1tlb = c.l1tlb := rfl
@[simp] theorem setFifo_l1 : (c.setFifo k q).l1 = c.l1 := rfl
@[simp] theorem setFifo_l1i : (c.setFifo k q).l1i = c.l1i := rfl
@[simp] theorem setFifo_lmon : (c.setFifo k q).lmon = c.lmon := rfl
@[simp] theorem setFifo_qcatch : (c.setFifo k q).qcatch = c.qcatch := rfl
@[simp] theorem setFifo_mx : (c.setFifo k q).mx = c.mx := rfl
@[simp] theorem setFifo_cp : (c.setFifo k q).cp = c.cp := rfl
@[simp] theorem setFifo_outst : (c.setFifo k q).outst = c.outst := rfl
@[simp] theorem setFifo_due : (c.setFifo k q).due = c.due := rfl
@[simp] theorem setFifo_dueCls : (c.setFifo k q).dueCls = c.dueCls := rfl
@[simp] theorem setFifo_dueDetail : (c.setFifo k q).dueDetail = c.dueDetail := rfl
@[simp] theorem setFifo_hostRd : (c.setFifo k q).hostRd = c.hostRd := rfl
@[simp] theorem setFifo_hostWait : (c.setFifo k q).hostWait = c.hostWait := rfl
@[simp] theorem setFifo_hostGot : (c.setFifo k q).hostGot = c.hostGot := rfl
@[simp] theorem setFifo_ready : (c.setFifo k q).ready = c.ready := rfl
@[simp] theorem setFifo_remap : (c.setFifo k q).remap = c.remap := rfl
@[simp] theorem setFifo_stalled : (c.setFifo k q).stalled = c.stalled := rfl
@[simp] theorem setFifo_chainOut : (c.setFifo k q).chainOut = c.chainOut := rfl
@[simp] theorem setFifo_chainSeq : (c.setFifo k q).chainSeq = c.chainSeq := rfl
@[simp] theorem setFifo_group : (c.setFifo k q).group = c.group := rfl
@[simp] theorem setFifo_ret : (c.setFifo k q).ret = c.ret := rfl

end OneCore

/-! ## Windows that close touch registers and the matrix engine alone (R19, R210) -/

section Windows
variable (c : Core) (r : RegVal)

/-- A block written from a register onward changes vector registers alone. -/
theorem setGFrom_only (g : GReg) : ∀ (xs : List VWord) (q : Nat) (c : Core), ∃ v, Core.setGFrom c g q xs = { c with v := v }
  | [], _, c => ⟨c.v, rfl⟩
  | x :: rest, q, c => by
    obtain ⟨v, h⟩ := setGFrom_only g rest (q + 1) (c.setV (blockReg g q) x)
    exact ⟨v, h⟩

/-- A result that takes effect changes registers and the matrix engine alone. -/
theorem apply_only : ∃ s v mx, c.apply r = { c with s := s, v := v, mx := mx } := by
  cases r with
  | s n w =>
    change ∃ s v mx, c.setS n w = _
    unfold Core.setS
    split
    · exact ⟨c.s, c.v, c.mx, rfl⟩
    · exact ⟨_, c.v, c.mx, rfl⟩
  | v n x => exact ⟨_, _, _, rfl⟩
  | g n x => obtain ⟨v, h⟩ := setGFrom_only n x 0 c; exact ⟨c.s, v, c.mx, h⟩
  | t n id => exact ⟨_, _, _, rfl⟩

/-- Results that take effect one after another change registers and the matrix engine alone. -/
theorem applyAll_only (rs : List RegVal) (c : Core) :
    ∃ s v mx, rs.foldl Core.apply c = { c with s := s, v := v, mx := mx } := by
  induction rs generalizing c with
  | nil => exact ⟨_, _, _, rfl⟩
  | cons r rest ih =>
    obtain ⟨s, v, mx, h⟩ := apply_only c r
    obtain ⟨s', v', mx', h'⟩ := ih (c.apply r)
    exact ⟨s', v', mx', by rw [List.foldl_cons, h', h]⟩

/-- A retirement's windows change registers, the matrix engine and the windows alone. -/
theorem tickWindows_only : ∃ s v mx p, c.tickWindows = { c with s := s, v := v, mx := mx, pend := p } := by
  obtain ⟨s, v, mx, h⟩ := applyAll_only (duePends (c.pend.map fun p => { p with left := p.left - 1 })).1
    { c with pend := (duePends (c.pend.map fun p => { p with left := p.left - 1 })).2 }
  exact ⟨s, v, mx, _, h⟩

@[simp] theorem tickWindows_p : c.tickWindows.p = c.p := by obtain ⟨_, _, _, _, h⟩ := tickWindows_only c; rw [h]
@[simp] theorem tickWindows_k : c.tickWindows.k = c.k := by obtain ⟨_, _, _, _, h⟩ := tickWindows_only c; rw [h]
@[simp] theorem tickWindows_pc : c.tickWindows.pc = c.pc := by obtain ⟨_, _, _, _, h⟩ := tickWindows_only c; rw [h]
@[simp] theorem tickWindows_ir : c.tickWindows.ir = c.ir := by obtain ⟨_, _, _, _, h⟩ := tickWindows_only c; rw [h]
@[simp] theorem tickWindows_frm : c.tickWindows.frm = c.frm := by obtain ⟨_, _, _, _, h⟩ := tickWindows_only c; rw [h]
@[simp] theorem tickWindows_fflags : c.tickWindows.fflags = c.fflags := by obtain ⟨_, _, _, _, h⟩ := tickWindows_only c; rw [h]
@[simp] theorem tickWindows_gdim : c.tickWindows.gdim = c.gdim := by obtain ⟨_, _, _, _, h⟩ := tickWindows_only c; rw [h]
@[simp] theorem tickWindows_lp : c.tickWindows.lp = c.lp := by obtain ⟨_, _, _, _, h⟩ := tickWindows_only c; rw [h]
@[simp] theorem tickWindows_vprog : c.tickWindows.vprog = c.vprog := by obtain ⟨_, _, _, _, h⟩ := tickWindows_only c; rw [h]
@[simp] theorem tickWindows_tlv : c.tickWindows.tlv = c.tlv := by obtain ⟨_, _, _, _, h⟩ := tickWindows_only c; rw [h]
@[simp] theorem tickWindows_tvec : c.tickWindows.tvec = c.tvec := by obtain ⟨_, _, _, _, h⟩ := tickWindows_only c; rw [h]
@[simp] theorem tickWindows_t1 : c.tickWindows.t1 = c.t1 := by obtain ⟨_, _, _, _, h⟩ := tickWindows_only c; rw [h]
@[simp] theorem tickWindows_t2 : c.tickWindows.t2 = c.t2 := by obtain ⟨_, _, _, _, h⟩ := tickWindows_only c; rw [h]
@[simp] theorem tickWindows_tsave : c.tickWindows.tsave = c.tsave := by obtain ⟨_, _, _, _, h⟩ := tickWindows_only c; rw [h]
@[simp] theorem tickWindows_csel : c.tickWindows.csel = c.csel := by obtain ⟨_, _, _, _, h⟩ := tickWindows_only c; rw [h]
@[simp] theorem tickWindows_fpa : c.tickWindows.fpa = c.fpa := by obtain ⟨_, _, _, _, h⟩ := tickWindows_only c; rw [h]
@[simp] theorem tickWindows_seq : c.tickWindows.seq = c.seq := by obtain ⟨_, _, _, _, h⟩ := tickWindows_only c; rw [h]
@[simp] theorem tickWindows_tsn : c.tickWindows.tsn = c.tsn := by obtain ⟨_, _, _, _, h⟩ := tickWindows_only c; rw [h]
@[simp] theorem tickWindows_rtag : c.tickWindows.rtag = c.rtag := by obtain ⟨_, _, _, _, h⟩ := tickWindows_only c; rw [h]
@[simp] theorem tickWindows_rgrp : c.tickWindows.rgrp = c.rgrp := by obtain ⟨_, _, _, _, h⟩ := tickWindows_only c; rw [h]
@[simp] theorem tickWindows_phase : c.tickWindows.phase = c.phase := by obtain ⟨_, _, _, _, h⟩ := tickWindows_only c; rw [h]
@[simp] theorem tickWindows_ctx : c.tickWindows.ctx = c.ctx := by obtain ⟨_, _, _, _, h⟩ := tickWindows_only c; rw [h]
@[simp] theorem tickWindows_last : c.tickWindows.last = c.last := by obtain ⟨_, _, _, _, h⟩ := tickWindows_only c; rw [h]
@[simp] theorem tickWindows_rev : c.tickWindows.rev = c.rev := by obtain ⟨_, _, _, _, h⟩ := tickWindows_only c; rw [h]
@[simp] theorem tickWindows_trig : c.tickWindows.trig = c.trig := by obtain ⟨_, _, _, _, h⟩ := tickWindows_only c; rw [h]
@[simp] theorem tickWindows_cbuf : c.tickWindows.cbuf = c.cbuf := by obtain ⟨_, _, _, _, h⟩ := tickWindows_only c; rw [h]
@[simp] theorem tickWindows_icount : c.tickWindows.icount = c.icount := by obtain ⟨_, _, _, _, h⟩ := tickWindows_only c; rw [h]
@[simp] theorem tickWindows_wcount : c.tickWindows.wcount = c.wcount := by obtain ⟨_, _, _, _, h⟩ := tickWindows_only c; rw [h]
@[simp] theorem tickWindows_portAt : c.tickWindows.portAt = c.portAt := by obtain ⟨_, _, _, _, h⟩ := tickWindows_only c; rw [h]
@[simp] theorem tickWindows_started : c.tickWindows.started = c.started := by obtain ⟨_, _, _, _, h⟩ := tickWindows_only c; rw [h]
@[simp] theorem tickWindows_held : c.tickWindows.held = c.held := by obtain ⟨_, _, _, _, h⟩ := tickWindows_only c; rw [h]
@[simp] theorem tickWindows_rsig : c.tickWindows.rsig = c.rsig := by obtain ⟨_, _, _, _, h⟩ := tickWindows_only c; rw [h]
@[simp] theorem tickWindows_word : c.tickWindows.word = c.word := by obtain ⟨_, _, _, _, h⟩ := tickWindows_only c; rw [h]
@[simp] theorem tickWindows_bars : c.tickWindows.bars = c.bars := by obtain ⟨_, _, _, _, h⟩ := tickWindows_only c; rw [h]
@[simp] theorem tickWindows_nextBar : c.tickWindows.nextBar = c.nextBar := by obtain ⟨_, _, _, _, h⟩ := tickWindows_only c; rw [h]
@[simp] theorem tickWindows_arrived : c.tickWindows.arrived = c.arrived := by obtain ⟨_, _, _, _, h⟩ := tickWindows_only c; rw [h]
@[simp] theorem tickWindows_fetching : c.tickWindows.fetching = c.fetching := by obtain ⟨_, _, _, _, h⟩ := tickWindows_only c; rw [h]
@[simp] theorem tickWindows_posts : c.tickWindows.posts = c.posts := by obtain ⟨_, _, _, _, h⟩ := tickWindows_only c; rw [h]
@[simp] theorem tickWindows_sprTiles : c.tickWindows.sprTiles = c.sprTiles := by obtain ⟨_, _, _, _, h⟩ := tickWindows_only c; rw [h]
@[simp] theorem tickWindows_trail : c.tickWindows.trail = c.trail := by obtain ⟨_, _, _, _, h⟩ := tickWindows_only c; rw [h]
@[simp] theorem tickWindows_chk : c.tickWindows.chk = c.chk := by obtain ⟨_, _, _, _, h⟩ := tickWindows_only c; rw [h]
@[simp] theorem tickWindows_tags : c.tickWindows.tags = c.tags := by obtain ⟨_, _, _, _, h⟩ := tickWindows_only c; rw [h]
@[simp] theorem tickWindows_inbox : c.tickWindows.inbox = c.inbox := by obtain ⟨_, _, _, _, h⟩ := tickWindows_only c; rw [h]
@[simp] theorem tickWindows_l1tlb : c.tickWindows.l1tlb = c.l1tlb := by obtain ⟨_, _, _, _, h⟩ := tickWindows_only c; rw [h]
@[simp] theorem tickWindows_l1 : c.tickWindows.l1 = c.l1 := by obtain ⟨_, _, _, _, h⟩ := tickWindows_only c; rw [h]
@[simp] theorem tickWindows_l1i : c.tickWindows.l1i = c.l1i := by obtain ⟨_, _, _, _, h⟩ := tickWindows_only c; rw [h]
@[simp] theorem tickWindows_lmon : c.tickWindows.lmon = c.lmon := by obtain ⟨_, _, _, _, h⟩ := tickWindows_only c; rw [h]
@[simp] theorem tickWindows_qin : c.tickWindows.qin = c.qin := by obtain ⟨_, _, _, _, h⟩ := tickWindows_only c; rw [h]
@[simp] theorem tickWindows_qcatch : c.tickWindows.qcatch = c.qcatch := by obtain ⟨_, _, _, _, h⟩ := tickWindows_only c; rw [h]
@[simp] theorem tickWindows_cp : c.tickWindows.cp = c.cp := by obtain ⟨_, _, _, _, h⟩ := tickWindows_only c; rw [h]
@[simp] theorem tickWindows_outst : c.tickWindows.outst = c.outst := by obtain ⟨_, _, _, _, h⟩ := tickWindows_only c; rw [h]
@[simp] theorem tickWindows_due : c.tickWindows.due = c.due := by obtain ⟨_, _, _, _, h⟩ := tickWindows_only c; rw [h]
@[simp] theorem tickWindows_dueCls : c.tickWindows.dueCls = c.dueCls := by obtain ⟨_, _, _, _, h⟩ := tickWindows_only c; rw [h]
@[simp] theorem tickWindows_dueDetail : c.tickWindows.dueDetail = c.dueDetail := by obtain ⟨_, _, _, _, h⟩ := tickWindows_only c; rw [h]
@[simp] theorem tickWindows_hostRd : c.tickWindows.hostRd = c.hostRd := by obtain ⟨_, _, _, _, h⟩ := tickWindows_only c; rw [h]
@[simp] theorem tickWindows_hostWait : c.tickWindows.hostWait = c.hostWait := by obtain ⟨_, _, _, _, h⟩ := tickWindows_only c; rw [h]
@[simp] theorem tickWindows_hostGot : c.tickWindows.hostGot = c.hostGot := by obtain ⟨_, _, _, _, h⟩ := tickWindows_only c; rw [h]
@[simp] theorem tickWindows_ready : c.tickWindows.ready = c.ready := by obtain ⟨_, _, _, _, h⟩ := tickWindows_only c; rw [h]
@[simp] theorem tickWindows_remap : c.tickWindows.remap = c.remap := by obtain ⟨_, _, _, _, h⟩ := tickWindows_only c; rw [h]
@[simp] theorem tickWindows_stalled : c.tickWindows.stalled = c.stalled := by obtain ⟨_, _, _, _, h⟩ := tickWindows_only c; rw [h]
@[simp] theorem tickWindows_chainOut : c.tickWindows.chainOut = c.chainOut := by obtain ⟨_, _, _, _, h⟩ := tickWindows_only c; rw [h]
@[simp] theorem tickWindows_chainSeq : c.tickWindows.chainSeq = c.chainSeq := by obtain ⟨_, _, _, _, h⟩ := tickWindows_only c; rw [h]
@[simp] theorem tickWindows_group : c.tickWindows.group = c.group := by obtain ⟨_, _, _, _, h⟩ := tickWindows_only c; rw [h]
@[simp] theorem tickWindows_ret : c.tickWindows.ret = c.ret := by obtain ⟨_, _, _, _, h⟩ := tickWindows_only c; rw [h]
@[simp] theorem retired_p : c.retired.p = c.p := by simp [Core.retired]
@[simp] theorem retired_k : c.retired.k = c.k := by simp [Core.retired]
@[simp] theorem retired_ir : c.retired.ir = c.ir := by simp [Core.retired]
@[simp] theorem retired_frm : c.retired.frm = c.frm := by simp [Core.retired]
@[simp] theorem retired_fflags : c.retired.fflags = c.fflags := by simp [Core.retired]
@[simp] theorem retired_gdim : c.retired.gdim = c.gdim := by simp [Core.retired]
@[simp] theorem retired_vprog : c.retired.vprog = c.vprog := by simp [Core.retired]
@[simp] theorem retired_tlv : c.retired.tlv = c.tlv := by simp [Core.retired]
@[simp] theorem retired_tvec : c.retired.tvec = c.tvec := by simp [Core.retired]
@[simp] theorem retired_t1 : c.retired.t1 = c.t1 := by simp [Core.retired]
@[simp] theorem retired_t2 : c.retired.t2 = c.t2 := by simp [Core.retired]
@[simp] theorem retired_tsave : c.retired.tsave = c.tsave := by simp [Core.retired]
@[simp] theorem retired_csel : c.retired.csel = c.csel := by simp [Core.retired]
@[simp] theorem retired_fpa : c.retired.fpa = c.fpa := by simp [Core.retired]
@[simp] theorem retired_seq : c.retired.seq = c.seq := by simp [Core.retired]
@[simp] theorem retired_tsn : c.retired.tsn = c.tsn := by simp [Core.retired]
@[simp] theorem retired_rtag : c.retired.rtag = c.rtag := by simp [Core.retired]
@[simp] theorem retired_rgrp : c.retired.rgrp = c.rgrp := by simp [Core.retired]
@[simp] theorem retired_phase : c.retired.phase = c.phase := by simp [Core.retired]
@[simp] theorem retired_ctx : c.retired.ctx = c.ctx := by simp [Core.retired]
@[simp] theorem retired_last : c.retired.last = c.last := by simp [Core.retired]
@[simp] theorem retired_rev : c.retired.rev = c.rev := by simp [Core.retired]
@[simp] theorem retired_trig : c.retired.trig = c.trig := by simp [Core.retired]
@[simp] theorem retired_cbuf : c.retired.cbuf = c.cbuf := by simp [Core.retired]
@[simp] theorem retired_wcount : c.retired.wcount = c.wcount := by simp [Core.retired]
@[simp] theorem retired_portAt : c.retired.portAt = c.portAt := by simp [Core.retired]
@[simp] theorem retired_started : c.retired.started = c.started := by simp [Core.retired]
@[simp] theorem retired_held : c.retired.held = c.held := by simp [Core.retired]
@[simp] theorem retired_rsig : c.retired.rsig = c.rsig := by simp [Core.retired]
@[simp] theorem retired_word : c.retired.word = c.word := by simp [Core.retired]
@[simp] theorem retired_bars : c.retired.bars = c.bars := by simp [Core.retired]
@[simp] theorem retired_nextBar : c.retired.nextBar = c.nextBar := by simp [Core.retired]
@[simp] theorem retired_arrived : c.retired.arrived = c.arrived := by simp [Core.retired]
@[simp] theorem retired_fetching : c.retired.fetching = c.fetching := by simp [Core.retired]
@[simp] theorem retired_posts : c.retired.posts = c.posts := by simp [Core.retired]
@[simp] theorem retired_sprTiles : c.retired.sprTiles = c.sprTiles := by simp [Core.retired]
@[simp] theorem retired_trail : c.retired.trail = c.trail := by simp [Core.retired]
@[simp] theorem retired_chk : c.retired.chk = c.chk := by simp [Core.retired]
@[simp] theorem retired_tags : c.retired.tags = c.tags := by simp [Core.retired]
@[simp] theorem retired_inbox : c.retired.inbox = c.inbox := by simp [Core.retired]
@[simp] theorem retired_l1tlb : c.retired.l1tlb = c.l1tlb := by simp [Core.retired]
@[simp] theorem retired_l1 : c.retired.l1 = c.l1 := by simp [Core.retired]
@[simp] theorem retired_l1i : c.retired.l1i = c.l1i := by simp [Core.retired]
@[simp] theorem retired_lmon : c.retired.lmon = c.lmon := by simp [Core.retired]
@[simp] theorem retired_qin : c.retired.qin = c.qin := by simp [Core.retired]
@[simp] theorem retired_qcatch : c.retired.qcatch = c.qcatch := by simp [Core.retired]
@[simp] theorem retired_cp : c.retired.cp = c.cp := by simp [Core.retired]
@[simp] theorem retired_outst : c.retired.outst = c.outst := by simp [Core.retired]
@[simp] theorem retired_due : c.retired.due = c.due := by simp [Core.retired]
@[simp] theorem retired_dueCls : c.retired.dueCls = c.dueCls := by simp [Core.retired]
@[simp] theorem retired_dueDetail : c.retired.dueDetail = c.dueDetail := by simp [Core.retired]
@[simp] theorem retired_hostRd : c.retired.hostRd = none := by simp [Core.retired]
@[simp] theorem retired_hostWait : c.retired.hostWait = false := by simp [Core.retired]
@[simp] theorem retired_ready : c.retired.ready = c.ready := by simp [Core.retired]
@[simp] theorem retired_remap : c.retired.remap = c.remap := by simp [Core.retired]
@[simp] theorem retired_chainOut : c.retired.chainOut = c.chainOut := by simp [Core.retired]
@[simp] theorem retired_chainSeq : c.retired.chainSeq = c.chainSeq := by simp [Core.retired]
@[simp] theorem retired_group : c.retired.group = c.group := by simp [Core.retired]
@[simp] theorem retired_ret : c.retired.ret = c.ret := by simp [Core.retired]
@[simp] theorem retired_lp : c.retired.lp = c.fallThrough.1 := by simp [Core.retired]
@[simp] theorem retired_pc : c.retired.pc = c.fallThrough.2 := by simp [Core.retired]
@[simp] theorem retired_icount : c.retired.icount = c.icount + 1 := by simp [Core.retired]
@[simp] theorem retired_stalled : c.retired.stalled = false := by simp [Core.retired]
@[simp] theorem retired_hostGot : c.retired.hostGot = [] := by simp [Core.retired]
@[simp] theorem jumped_p (t : BitVec 52) : (c.jumped t).p = c.p := by simp [Core.jumped]
@[simp] theorem jumped_k (t : BitVec 52) : (c.jumped t).k = c.k := by simp [Core.jumped]
@[simp] theorem jumped_ir (t : BitVec 52) : (c.jumped t).ir = c.ir := by simp [Core.jumped]
@[simp] theorem jumped_frm (t : BitVec 52) : (c.jumped t).frm = c.frm := by simp [Core.jumped]
@[simp] theorem jumped_fflags (t : BitVec 52) : (c.jumped t).fflags = c.fflags := by simp [Core.jumped]
@[simp] theorem jumped_gdim (t : BitVec 52) : (c.jumped t).gdim = c.gdim := by simp [Core.jumped]
@[simp] theorem jumped_lp (t : BitVec 52) : (c.jumped t).lp = c.lp := by simp [Core.jumped]
@[simp] theorem jumped_vprog (t : BitVec 52) : (c.jumped t).vprog = c.vprog := by simp [Core.jumped]
@[simp] theorem jumped_tlv (t : BitVec 52) : (c.jumped t).tlv = c.tlv := by simp [Core.jumped]
@[simp] theorem jumped_tvec (t : BitVec 52) : (c.jumped t).tvec = c.tvec := by simp [Core.jumped]
@[simp] theorem jumped_t1 (t : BitVec 52) : (c.jumped t).t1 = c.t1 := by simp [Core.jumped]
@[simp] theorem jumped_t2 (t : BitVec 52) : (c.jumped t).t2 = c.t2 := by simp [Core.jumped]
@[simp] theorem jumped_tsave (t : BitVec 52) : (c.jumped t).tsave = c.tsave := by simp [Core.jumped]
@[simp] theorem jumped_csel (t : BitVec 52) : (c.jumped t).csel = c.csel := by simp [Core.jumped]
@[simp] theorem jumped_fpa (t : BitVec 52) : (c.jumped t).fpa = c.fpa := by simp [Core.jumped]
@[simp] theorem jumped_seq (t : BitVec 52) : (c.jumped t).seq = c.seq := by simp [Core.jumped]
@[simp] theorem jumped_tsn (t : BitVec 52) : (c.jumped t).tsn = c.tsn := by simp [Core.jumped]
@[simp] theorem jumped_rtag (t : BitVec 52) : (c.jumped t).rtag = c.rtag := by simp [Core.jumped]
@[simp] theorem jumped_rgrp (t : BitVec 52) : (c.jumped t).rgrp = c.rgrp := by simp [Core.jumped]
@[simp] theorem jumped_phase (t : BitVec 52) : (c.jumped t).phase = c.phase := by simp [Core.jumped]
@[simp] theorem jumped_ctx (t : BitVec 52) : (c.jumped t).ctx = c.ctx := by simp [Core.jumped]
@[simp] theorem jumped_last (t : BitVec 52) : (c.jumped t).last = c.last := by simp [Core.jumped]
@[simp] theorem jumped_rev (t : BitVec 52) : (c.jumped t).rev = c.rev := by simp [Core.jumped]
@[simp] theorem jumped_trig (t : BitVec 52) : (c.jumped t).trig = c.trig := by simp [Core.jumped]
@[simp] theorem jumped_cbuf (t : BitVec 52) : (c.jumped t).cbuf = c.cbuf := by simp [Core.jumped]
@[simp] theorem jumped_wcount (t : BitVec 52) : (c.jumped t).wcount = c.wcount := by simp [Core.jumped]
@[simp] theorem jumped_portAt (t : BitVec 52) : (c.jumped t).portAt = c.portAt := by simp [Core.jumped]
@[simp] theorem jumped_started (t : BitVec 52) : (c.jumped t).started = c.started := by simp [Core.jumped]
@[simp] theorem jumped_held (t : BitVec 52) : (c.jumped t).held = c.held := by simp [Core.jumped]
@[simp] theorem jumped_rsig (t : BitVec 52) : (c.jumped t).rsig = c.rsig := by simp [Core.jumped]
@[simp] theorem jumped_word (t : BitVec 52) : (c.jumped t).word = c.word := by simp [Core.jumped]
@[simp] theorem jumped_bars (t : BitVec 52) : (c.jumped t).bars = c.bars := by simp [Core.jumped]
@[simp] theorem jumped_nextBar (t : BitVec 52) : (c.jumped t).nextBar = c.nextBar := by simp [Core.jumped]
@[simp] theorem jumped_arrived (t : BitVec 52) : (c.jumped t).arrived = c.arrived := by simp [Core.jumped]
@[simp] theorem jumped_fetching (t : BitVec 52) : (c.jumped t).fetching = c.fetching := by simp [Core.jumped]
@[simp] theorem jumped_posts (t : BitVec 52) : (c.jumped t).posts = c.posts := by simp [Core.jumped]
@[simp] theorem jumped_sprTiles (t : BitVec 52) : (c.jumped t).sprTiles = c.sprTiles := by simp [Core.jumped]
@[simp] theorem jumped_trail (t : BitVec 52) : (c.jumped t).trail = c.trail := by simp [Core.jumped]
@[simp] theorem jumped_chk (t : BitVec 52) : (c.jumped t).chk = c.chk := by simp [Core.jumped]
@[simp] theorem jumped_tags (t : BitVec 52) : (c.jumped t).tags = c.tags := by simp [Core.jumped]
@[simp] theorem jumped_inbox (t : BitVec 52) : (c.jumped t).inbox = c.inbox := by simp [Core.jumped]
@[simp] theorem jumped_l1tlb (t : BitVec 52) : (c.jumped t).l1tlb = c.l1tlb := by simp [Core.jumped]
@[simp] theorem jumped_l1 (t : BitVec 52) : (c.jumped t).l1 = c.l1 := by simp [Core.jumped]
@[simp] theorem jumped_l1i (t : BitVec 52) : (c.jumped t).l1i = c.l1i := by simp [Core.jumped]
@[simp] theorem jumped_lmon (t : BitVec 52) : (c.jumped t).lmon = c.lmon := by simp [Core.jumped]
@[simp] theorem jumped_qin (t : BitVec 52) : (c.jumped t).qin = c.qin := by simp [Core.jumped]
@[simp] theorem jumped_qcatch (t : BitVec 52) : (c.jumped t).qcatch = c.qcatch := by simp [Core.jumped]
@[simp] theorem jumped_cp (t : BitVec 52) : (c.jumped t).cp = c.cp := by simp [Core.jumped]
@[simp] theorem jumped_outst (t : BitVec 52) : (c.jumped t).outst = c.outst := by simp [Core.jumped]
@[simp] theorem jumped_due (t : BitVec 52) : (c.jumped t).due = c.due := by simp [Core.jumped]
@[simp] theorem jumped_dueCls (t : BitVec 52) : (c.jumped t).dueCls = c.dueCls := by simp [Core.jumped]
@[simp] theorem jumped_dueDetail (t : BitVec 52) : (c.jumped t).dueDetail = c.dueDetail := by simp [Core.jumped]
@[simp] theorem jumped_hostRd (t : BitVec 52) : (c.jumped t).hostRd = c.hostRd := by simp [Core.jumped]
@[simp] theorem jumped_hostWait (t : BitVec 52) : (c.jumped t).hostWait = c.hostWait := by simp [Core.jumped]
@[simp] theorem jumped_hostGot (t : BitVec 52) : (c.jumped t).hostGot = c.hostGot := by simp [Core.jumped]
@[simp] theorem jumped_ready (t : BitVec 52) : (c.jumped t).ready = c.ready := by simp [Core.jumped]
@[simp] theorem jumped_remap (t : BitVec 52) : (c.jumped t).remap = c.remap := by simp [Core.jumped]
@[simp] theorem jumped_chainOut (t : BitVec 52) : (c.jumped t).chainOut = c.chainOut := by simp [Core.jumped]
@[simp] theorem jumped_chainSeq (t : BitVec 52) : (c.jumped t).chainSeq = c.chainSeq := by simp [Core.jumped]
@[simp] theorem jumped_group (t : BitVec 52) : (c.jumped t).group = c.group := by simp [Core.jumped]
@[simp] theorem jumped_ret (t : BitVec 52) : (c.jumped t).ret = c.ret := by simp [Core.jumped]
@[simp] theorem jumped_pc (t : BitVec 52) : (c.jumped t).pc = t := by simp [Core.jumped]
@[simp] theorem jumped_icount (t : BitVec 52) : (c.jumped t).icount = c.icount + 1 := by simp [Core.jumped]
@[simp] theorem jumped_stalled (t : BitVec 52) : (c.jumped t).stalled = false := by simp [Core.jumped]

end Windows

end Sys2Proof.Machine
end

