-- ==== Sys2Proof/Laws/Base.lean ====
section
/-!
SUPPORT. The laws of tables, of memory and of the step monad: what is written is read back, everything else stays, and
memory keeps its canonical form.
-/
namespace Sys2Proof.Machine

/-! ## Tables -/

section Tables
variable {α : Type}

@[simp] theorem Tbl.getD_put_same (t : Tbl α) (k : Nat) (v d : α) : Tbl.getD (Tbl.put t k v) k d = v := by
  induction t with
  | nil => simp [Tbl.put, Tbl.getD]
  | cons e rest ih =>
    unfold Tbl.put
    split
    · simp [Tbl.getD]
    · rename_i h; simp only [Tbl.getD, if_neg h, ih]

theorem Tbl.getD_put_ne (t : Tbl α) {k j : Nat} (v d : α) (h : k ≠ j) : Tbl.getD (Tbl.put t k v) j d = Tbl.getD t j d := by
  induction t with
  | nil => simp [Tbl.put, Tbl.getD, h]
  | cons e rest ih =>
    unfold Tbl.put
    split
    · rename_i he; simp [Tbl.getD, h, he]
    · simp only [Tbl.getD, ih]

@[simp] theorem Tbl.put_put (t : Tbl α) (k : Nat) (v w : α) : Tbl.put (Tbl.put t k v) k w = Tbl.put t k w := by
  induction t with
  | nil => simp [Tbl.put]
  | cons e rest ih =>
    obtain ⟨j, u⟩ := e
    by_cases h : j = k
    · simp [Tbl.put, h]
    · simp [Tbl.put, h, ih]

end Tables

/-! ## The cores of a state -/

section Cores
variable (s : State) (c : Nat) (x y : Core)

@[simp] theorem coreAt_setCoreAt_same : (s.setCoreAt c x).coreAt c = x := by simp [State.setCoreAt, State.coreAt]
theorem coreAt_setCoreAt_ne {d : Nat} (h : c ≠ d) : (s.setCoreAt c x).coreAt d = s.coreAt d := by
  simp [State.setCoreAt, State.coreAt, Tbl.getD_put_ne _ _ _ h]
@[simp] theorem core_setCore : (s.setCore x).core = x := by simp [State.setCore, State.core, State.setCoreAt, State.coreAt]
@[simp] theorem setCore_setCore : (s.setCore x).setCore y = s.setCore y := by simp [State.setCore, State.setCoreAt]
theorem coreAt_setCore_ne {d : Nat} (h : s.cur ≠ d) : (s.setCore x).coreAt d = s.coreAt d := coreAt_setCoreAt_ne s _ x h
@[simp] theorem launch_core (i : Instr) : (s.launch i).core = s.core := rfl
@[simp] theorem launch_coreAt (i : Instr) : (s.launch i).coreAt c = s.coreAt c := rfl
@[simp] theorem setCore_ctxAt (k : Nat) : (s.setCore x).ctxAt k = s.ctxAt k := rfl
@[simp] theorem launch_ctxAt (i : Instr) (k : Nat) : (s.launch i).ctxAt k = s.ctxAt k := rfl

end Cores

/-! ## Register files (R13, R269) -/

section Registers
variable (c : Core)

/-- s0 reads as zero (R13). -/
@[simp] theorem getS_zero : c.getS 0 = 0 := by simp [Core.getS]
/-- A write to s0 is discarded (R13). -/
@[simp] theorem setS_zero (w : Word) : c.setS 0 w = c := by simp [Core.setS]
@[simp] theorem getS_setS_same {n : SReg} (w : Word) (h : n ≠ 0) : (c.setS n w).getS n = w := by
  have h' : ¬n = 0#6 := h
  simp [Core.getS, Core.setS, h']
theorem getS_setS_ne {n m : SReg} (w : Word) (h : n ≠ m) : (c.setS n w).getS m = c.getS m := by
  unfold Core.getS Core.setS
  split
  · rfl
  · have : n.toNat ≠ m.toNat := fun e => h (BitVec.eq_of_toNat_eq e)
    split
    · rfl
    · simp only [Vector.getElem_set, if_neg this]
@[simp] theorem getV_setV_same (n : VReg) (x : VWord) : (c.setV n x).getV n = x := by simp [Core.getV, Core.setV]
theorem getV_setV_ne {n m : VReg} (x : VWord) (h : n ≠ m) : (c.setV n x).getV m = c.getV m := by
  have : n.toNat ≠ m.toNat := fun e => h (BitVec.eq_of_toNat_eq e)
  simp only [Core.getV, Core.setV, Vector.getElem_set, if_neg this]
@[simp] theorem getP_setP_same (n : PReg) (x : PWord) : (c.setP n x).getP n = x := by simp [Core.getP, Core.setP]
theorem getP_setP_ne {n m : PReg} (x : PWord) (h : n ≠ m) : (c.setP n x).getP m = c.getP m := by
  have : n.toNat ≠ m.toNat := fun e => h (BitVec.eq_of_toNat_eq e)
  simp only [Core.getP, Core.setP, Vector.getElem_set, if_neg this]
@[simp] theorem getV_setS (n : SReg) (w : Word) (m : VReg) : (c.setS n w).getV m = c.getV m := by simp [Core.getV]
@[simp] theorem getP_setS (n : SReg) (w : Word) (m : PReg) : (c.setS n w).getP m = c.getP m := by simp [Core.getP]
@[simp] theorem getS_setV (n : VReg) (x : VWord) (m : SReg) : (c.setV n x).getS m = c.getS m := by simp [Core.getS]
@[simp] theorem getP_setV (n : VReg) (x : VWord) (m : PReg) : (c.setV n x).getP m = c.getP m := by simp [Core.getP]
@[simp] theorem getS_setP (n : PReg) (x : PWord) (m : SReg) : (c.setP n x).getS m = c.getS m := by simp [Core.getS]
@[simp] theorem getV_setP (n : PReg) (x : PWord) (m : VReg) : (c.setP n x).getV m = c.getV m := by simp [Core.getV]

end Registers

/-! ## Memory (R5, log 2 DESIGN CHOICE) -/

theorem Mem.risesFrom_mono {lo hi : Nat} {m : Mem} (h : lo ≤ hi) (w : Mem.risesFrom hi m = true) : Mem.risesFrom lo m = true := by
  cases m with
  | nil => rfl
  | cons c rest =>
    simp only [Mem.risesFrom, Bool.and_eq_true, decide_eq_true_eq] at w ⊢
    exact ⟨⟨by omega, w.1.2⟩, w.2⟩

theorem Mem.erase_rises {lo : Nat} {m : Mem} (a : Nat) (w : Mem.risesFrom lo m = true) : Mem.risesFrom lo (m.erase a) = true := by
  induction m generalizing lo with
  | nil => rfl
  | cons c rest ih =>
    simp only [Mem.risesFrom, Bool.and_eq_true, decide_eq_true_eq] at w
    unfold Mem.erase
    by_cases h : c.1 = a
    · simp only [List.filter_cons, h, bne_self_eq_false, Bool.false_eq_true, if_false]
      exact Mem.risesFrom_mono (by omega) (ih w.2)
    · simp only [List.filter_cons, bne_iff_ne, ne_eq, h, not_false_eq_true, if_true, Mem.risesFrom, Bool.and_eq_true,
        decide_eq_true_eq]
      exact ⟨⟨w.1.1, by simpa using w.1.2⟩, ih w.2⟩

theorem Mem.insert_rises {lo : Nat} {m : Mem} {a : Nat} {x : Byte} (hx : x ≠ emptyByte) (hl : lo ≤ a)
    (hn : ∀ c ∈ m, c.1 ≠ a) (w : Mem.risesFrom lo m = true) : Mem.risesFrom lo (m.insert a x) = true := by
  induction m generalizing lo with
  | nil => simp [Mem.insert, Mem.risesFrom, hl, hx]
  | cons c rest ih =>
    have hc : c.1 ≠ a := hn c (by simp)
    simp only [Mem.risesFrom, Bool.and_eq_true, decide_eq_true_eq] at w
    unfold Mem.insert
    split
    · simp only [Mem.risesFrom, Bool.and_eq_true, decide_eq_true_eq]
      exact ⟨⟨hl, by simp [hx]⟩, ⟨by omega, w.1.2⟩, w.2⟩
    · simp only [Mem.risesFrom, Bool.and_eq_true, decide_eq_true_eq]
      exact ⟨w.1, ih (by omega) (fun d hd => hn d (by simp [hd])) w.2⟩

/-- A write keeps memory in canonical form. -/
theorem Mem.write_wf {m : Mem} (a : Nat) (x : Byte) (w : m.wf = true) : (m.write a x).wf = true := by
  unfold Mem.wf Mem.write at *
  split
  · exact Mem.erase_rises a w
  · rename_i h
    refine Mem.insert_rises h (Nat.zero_le a) ?_ (Mem.erase_rises a w)
    intro c hc
    simpa [Mem.erase] using (List.mem_filter.mp hc).2

/-- A write of bytes keeps memory in canonical form. -/
theorem Mem.writeN_wf {m : Mem} (a : Nat) (bs : List Byte) (w : m.wf = true) : (m.writeN a bs).wf = true := by
  induction bs generalizing m a with
  | nil => exact w
  | cons b rest ih => exact ih _ (Mem.write_wf a b w)

theorem Mem.read_erase_same (m : Mem) (a : Nat) : (m.erase a).read a = emptyByte := by
  induction m with
  | nil => rfl
  | cons c rest ih =>
    by_cases h : c.1 = a
    · simpa [Mem.erase, h] using ih
    · simpa [Mem.erase, h, Mem.read] using ih

theorem Mem.read_erase_ne (m : Mem) {a b : Nat} (h : a ≠ b) : (m.erase a).read b = m.read b := by
  induction m with
  | nil => rfl
  | cons c rest ih =>
    unfold Mem.erase at ih
    by_cases hc : c.1 = a
    · have hb : c.1 ≠ b := by omega
      simp [Mem.erase, Mem.read, hc, h, ih]
    · simp [Mem.erase, Mem.read, hc, ih]

theorem Mem.read_insert_same (m : Mem) (a : Nat) (x : Byte) (hn : ∀ c ∈ m, c.1 ≠ a) : (m.insert a x).read a = x := by
  induction m with
  | nil => simp [Mem.insert, Mem.read]
  | cons c rest ih =>
    have hc : c.1 ≠ a := hn c (by simp)
    unfold Mem.insert
    split
    · simp [Mem.read]
    · simp only [Mem.read, if_neg hc]; exact ih fun d hd => hn d (by simp [hd])

theorem Mem.read_insert_ne (m : Mem) {a b : Nat} (x : Byte) (h : a ≠ b) : (m.insert a x).read b = m.read b := by
  induction m with
  | nil => simp [Mem.insert, Mem.read, h]
  | cons c rest ih =>
    unfold Mem.insert
    split
    · simp [Mem.read, h]
    · simp only [Mem.read, ih]

/-- A read after a write to the same address gives the byte written. -/
@[simp] theorem Mem.read_write_same (m : Mem) (a : Nat) (x : Byte) : (m.write a x).read a = x := by
  unfold Mem.write
  split
  · rename_i h; rw [Mem.read_erase_same, h]
  · exact Mem.read_insert_same _ a x fun c hc => by simpa [Mem.erase] using (List.mem_filter.mp hc).2

/-- A write leaves every other address alone. -/
theorem Mem.read_write_ne (m : Mem) {a b : Nat} (x : Byte) (h : a ≠ b) : (m.write a x).read b = m.read b := by
  unfold Mem.write
  split
  · exact Mem.read_erase_ne m h
  · rw [Mem.read_insert_ne _ x h, Mem.read_erase_ne m h]

/-- A write of bytes leaves every address outside them alone. -/
theorem Mem.read_writeN_out (m : Mem) (a b : Nat) (bs : List Byte) (h : b < a ∨ a + bs.length ≤ b) :
    (m.writeN a bs).read b = m.read b := by
  induction bs generalizing m a with
  | nil => rfl
  | cons x rest ih =>
    simp only [List.length_cons] at h
    rw [Mem.writeN, ih _ _ (by omega), Mem.read_write_ne _ _ (by omega)]

/-- A byte of those written reads as it was written. -/
theorem Mem.read_writeN_in (m : Mem) (a : Nat) (bs : List Byte) (i : Nat) (h : i < bs.length) :
    (m.writeN a bs).read (a + i) = bs[i] := by
  induction bs generalizing m a i with
  | nil => simp at h
  | cons x rest ih =>
    rw [Mem.writeN]
    cases i with
    | zero => rw [Mem.read_writeN_out _ _ _ _ (by omega)]; simp
    | succ j =>
      have := ih (m.write a x) (a + 1) j (by simpa using h)
      rw [show a + (j + 1) = a + 1 + j by omega, this]; simp

/-! ## The step monad -/

section Monad
variable {α β : Type} {s : State}

@[simp] theorem pure_at (a : α) : (pure a : M α) s = .ok (a, s) := rfl
theorem bind_at (m : M α) (f : α → M β) : (m >>= f) s = match m s with
    | .ok (a, t) => f a t
    | .error t => .error t := by
  change StateT.bind m f s = _
  unfold StateT.bind
  cases h : m s <;> simp [bind, Except.bind]
@[simp] theorem bind_ok {m : M α} {f : α → M β} {a : α} {t : State} (h : m s = .ok (a, t)) : (m >>= f) s = f a t := by
  rw [bind_at, h]
@[simp] theorem bind_error {m : M α} {f : α → M β} {t : State} (h : m s = .error t) : (m >>= f) s = .error t := by
  rw [bind_at, h]
@[simp] theorem get_at (s : State) : (get : M State) s = .ok (s, s) := rfl
@[simp] theorem set_at (t : State) : (set t : M PUnit) s = .ok ((), t) := rfl
@[simp] theorem modify_at (f : State → State) : (modify f : M PUnit) s = .ok ((), f s) := rfl
@[simp] theorem modCore_at (f : Core → Core) : modCore f s = .ok ((), s.setCore (f s.core)) := rfl
@[simp] theorem core_at (s : State) : core s = .ok (s.core, s) := rfl
@[simp] theorem endWith_at (f : State → State) : (endWith f : M α) s = .error (f s) := rfl
@[simp] theorem trap_at (code : Nat) (v : Word) : (trap code v : M α) s = .error (s.takeTrap s.cur code s.core.pc v) := rfl
@[simp] theorem stall_at : (stall : M α) s = .error (s.setCore { s.core with stalled := true }) := rfl
@[simp] theorem retire_at : retire s = .ok ((), s.setCore s.core.retired) := rfl

/-- A meaning that goes through ends in the state it leaves. -/
theorem run_ok {m : M Unit} {t : State} (h : m s = .ok ((), t)) : run m s = .next t := by simp [run, h]
/-- A meaning that ends early ends in the state it ends with. -/
theorem run_error {m : M Unit} {t : State} (h : m s = .error t) : run m s = .next t := by simp [run, h]

end Monad

end Sys2Proof.Machine
end

