-- ==== Sys2Proof/Laws/Encoding.lean ====
section
/-!
SUPPORT. The small lemmas of the encodings: every field of a packed word is the field packed (Table 1.1), and every
operand field decodes to the operand it was made from (Tables 1.2 and 1.8).
-/
namespace Sys2Proof

/-! ## Fields of packed words -/

section Packed
variable (op : BitVec 6) (fn la cond : BitVec 4) (rd rs ra rb rc off : BitVec 6) (sa sb : BitVec 8)
variable (i14 : BitVec 14) (i20 : BitVec 20) (i26 : BitVec 26) (f10 : BitVec 10) (i16 : BitVec 16) (k s2 : BitVec 2)

@[simp] theorem wOp_packA : wOp (packA op fn rd sa sb) = op := by
  unfold wOp packA; ext i hi; simp only [BitVec.getElem_extractLsb', BitVec.getLsbD_append]; grind
@[simp] theorem wFn_packA : wFn (packA op fn rd sa sb) = fn := by
  unfold wFn packA; ext i hi; simp only [BitVec.getElem_extractLsb', BitVec.getLsbD_append]; grind
@[simp] theorem wRd_packA : wRd (packA op fn rd sa sb) = rd := by
  unfold wRd packA; ext i hi; simp only [BitVec.getElem_extractLsb', BitVec.getLsbD_append]; grind
@[simp] theorem wSa_packA : wSa (packA op fn rd sa sb) = sa := by
  unfold wSa packA; ext i hi; simp only [BitVec.getElem_extractLsb', BitVec.getLsbD_append]; grind
@[simp] theorem wSb_packA : wSb (packA op fn rd sa sb) = sb := by
  unfold wSb packA; ext i hi; simp only [BitVec.getElem_extractLsb', BitVec.getLsbD_append]; grind
@[simp] theorem wOp_packI : wOp (packI op rd rs i14) = op := by
  unfold wOp packI; ext i hi; simp only [BitVec.getElem_extractLsb', BitVec.getLsbD_append]; grind
@[simp] theorem iRd_packI : iRd (packI op rd rs i14) = rd := by
  unfold iRd packI; ext i hi; simp only [BitVec.getElem_extractLsb', BitVec.getLsbD_append]; grind
@[simp] theorem iRs_packI : iRs (packI op rd rs i14) = rs := by
  unfold iRs packI; ext i hi; simp only [BitVec.getElem_extractLsb', BitVec.getLsbD_append]; grind
@[simp] theorem iImm_packI : iImm (packI op rd rs i14) = i14 := by
  unfold iImm packI; ext i hi; simp only [BitVec.getElem_extractLsb', BitVec.getLsbD_append]; grind
@[simp] theorem wOp_packU : wOp (packU op rd i20) = op := by
  unfold wOp packU; ext i hi; simp only [BitVec.getElem_extractLsb', BitVec.getLsbD_append]; grind
@[simp] theorem iRd_packU : iRd (packU op rd i20) = rd := by
  unfold iRd packU; ext i hi; simp only [BitVec.getElem_extractLsb', BitVec.getLsbD_append]; grind
@[simp] theorem uImm_packU : uImm (packU op rd i20) = i20 := by
  unfold uImm packU; ext i hi; simp only [BitVec.getElem_extractLsb', BitVec.getLsbD_append]; grind
@[simp] theorem wOp_packL : wOp (packL op fn la ra rb off) = op := by
  unfold wOp packL; ext i hi; simp only [BitVec.getElem_extractLsb', BitVec.getLsbD_append]; grind
@[simp] theorem wFn_packL : wFn (packL op fn la ra rb off) = fn := by
  unfold wFn packL; ext i hi; simp only [BitVec.getElem_extractLsb', BitVec.getLsbD_append]; grind
@[simp] theorem wLa_packL : wLa (packL op fn la ra rb off) = la := by
  unfold wLa packL; ext i hi; simp only [BitVec.getElem_extractLsb', BitVec.getLsbD_append]; grind
@[simp] theorem wRa_packL : wRa (packL op fn la ra rb off) = ra := by
  unfold wRa packL; ext i hi; simp only [BitVec.getElem_extractLsb', BitVec.getLsbD_append]; grind
@[simp] theorem wRb_packL : wRb (packL op fn la ra rb off) = rb := by
  unfold wRb packL; ext i hi; simp only [BitVec.getElem_extractLsb', BitVec.getLsbD_append]; grind
@[simp] theorem lOff_packL : lOff (packL op fn la ra rb off) = off := by
  unfold lOff packL; ext i hi; simp only [BitVec.getElem_extractLsb', BitVec.getLsbD_append]; grind
@[simp] theorem wOp_packB : wOp (packB cond sa i14) = 0x0D := by
  unfold wOp packB; ext i hi; simp only [BitVec.getElem_extractLsb', BitVec.getLsbD_append]; grind
@[simp] theorem wFn_packB : wFn (packB cond sa i14) = cond := by
  unfold wFn packB; ext i hi; simp only [BitVec.getElem_extractLsb', BitVec.getLsbD_append]; grind
@[simp] theorem bSa_packB : bSa (packB cond sa i14) = sa := by
  unfold bSa packB; ext i hi; simp only [BitVec.getElem_extractLsb', BitVec.getLsbD_append]; grind
@[simp] theorem bOff_packB : bOff (packB cond sa i14) = i14 := by
  unfold bOff packB; ext i hi; simp only [BitVec.getElem_extractLsb', BitVec.getLsbD_append]; grind
@[simp] theorem wOp_packJ : wOp (packJ op i26) = op := by
  unfold wOp packJ; ext i hi; simp only [BitVec.getElem_extractLsb', BitVec.getLsbD_append]; grind
@[simp] theorem jOff_packJ : jOff (packJ op i26) = i26 := by
  unfold jOff packJ; ext i hi; simp only [BitVec.getElem_extractLsb', BitVec.getLsbD_append]; grind
@[simp] theorem wOp_packM : wOp (packM op fn la ra rb rc) = op := by
  unfold wOp packM; ext i hi; simp only [BitVec.getElem_extractLsb', BitVec.getLsbD_append]; grind
@[simp] theorem wFn_packM : wFn (packM op fn la ra rb rc) = fn := by
  unfold wFn packM; ext i hi; simp only [BitVec.getElem_extractLsb', BitVec.getLsbD_append]; grind
@[simp] theorem wLa_packM : wLa (packM op fn la ra rb rc) = la := by
  unfold wLa packM; ext i hi; simp only [BitVec.getElem_extractLsb', BitVec.getLsbD_append]; grind
@[simp] theorem wRa_packM : wRa (packM op fn la ra rb rc) = ra := by
  unfold wRa packM; ext i hi; simp only [BitVec.getElem_extractLsb', BitVec.getLsbD_append]; grind
@[simp] theorem wRb_packM : wRb (packM op fn la ra rb rc) = rb := by
  unfold wRb packM; ext i hi; simp only [BitVec.getElem_extractLsb', BitVec.getLsbD_append]; grind
@[simp] theorem wRc_packM : wRc (packM op fn la ra rb rc) = rc := by
  unfold wRc packM; ext i hi; simp only [BitVec.getElem_extractLsb', BitVec.getLsbD_append]; grind
@[simp] theorem wOp_packX : wOp (packX f10 i16) = 0 := by
  unfold wOp packX; ext i hi; simp only [BitVec.getElem_extractLsb', BitVec.getLsbD_append]; grind
@[simp] theorem xFn_packX : xFn (packX f10 i16) = f10 := by
  unfold xFn packX; ext i hi; simp only [BitVec.getElem_extractLsb', BitVec.getLsbD_append]; grind
@[simp] theorem xImm_packX : xImm (packX f10 i16) = i16 := by
  unfold xImm packX; ext i hi; simp only [BitVec.getElem_extractLsb', BitVec.getLsbD_append]; grind
@[simp] theorem wOp_packF : wOp (packF k s2) = 1 := by
  unfold wOp packF; ext i hi; simp only [BitVec.getElem_extractLsb', BitVec.getLsbD_append]; grind
@[simp] theorem fKind_packF : fKind (packF k s2) = k := by
  unfold fKind packF; ext i hi; simp only [BitVec.getElem_extractLsb', BitVec.getLsbD_append]; grind
@[simp] theorem fScope_packF : fScope (packF k s2) = s2 := by
  unfold fScope packF; ext i hi; simp only [BitVec.getElem_extractLsb', BitVec.getLsbD_append]; grind

/-- The function and the amount of si.sh (Table 1.7): imm14[13:12] and imm14[5:0], with zeros between them. -/
@[simp] theorem shFn_packI (c : BitVec 8) : shFn (packI op rd rs (c ++ off)) = c.extractLsb' 6 2 := by
  unfold shFn packI; ext i hi; simp only [BitVec.getElem_extractLsb', BitVec.getLsbD_append]; grind
@[simp] theorem shAmt_packI (c : BitVec 8) : shAmt (packI op rd rs (c ++ off)) = off := by
  unfold shAmt packI; ext i hi; simp only [BitVec.getElem_extractLsb', BitVec.getLsbD_append]; grind
@[simp] theorem shGap_append (c : BitVec 8) : (c ++ off).extractLsb' 6 6 = c.extractLsb' 0 6 := by
  ext i hi; simp only [BitVec.getElem_extractLsb', BitVec.getLsbD_append]; grind

/-- The two immediates of sys.get and sys.put. -/
@[simp] theorem xReg_packX (r : BitVec 6) (n : BitVec 10) : xReg (packX f10 (r ++ n)) = r := by
  unfold xReg packX; ext i hi; simp only [BitVec.getElem_extractLsb', BitVec.getLsbD_append]; grind
@[simp] theorem xNum_packX (r : BitVec 6) (n : BitVec 10) : xNum (packX f10 (r ++ n)) = n := by
  unfold xNum packX; ext i hi; simp only [BitVec.getElem_extractLsb', BitVec.getLsbD_append]; grind
/-- A fence's function number is at most 15: fn10[9:4] is 0. -/
theorem xFn_packF : xFn (packF k s2) = 0#6 ++ k ++ s2 := by
  unfold xFn packF; ext i hi; simp only [BitVec.getElem_extractLsb', BitVec.getLsbD_append]; grind

@[simp] theorem xFn_packF_le : (xFn (packF k s2)).toNat ≤ 15 := by
  rw [xFn_packF]; revert k s2; decide

end Packed

/-! ## Operand fields -/

@[simp] theorem kindOf_append (k : BitVec 2) (n : BitVec 6) : kindOf (k ++ n) = k := by
  unfold kindOf; ext i hi; simp only [BitVec.getElem_extractLsb', BitVec.getLsbD_append]; grind
@[simp] theorem numOf_append (k : BitVec 2) (n : BitVec 6) : numOf (k ++ n) = n := by
  unfold numOf; ext i hi; simp only [BitVec.getElem_extractLsb', BitVec.getLsbD_append]; grind

@[simp] theorem asPred_predField (p : PReg) : asPred (predField p) = some p := by revert p; decide
@[simp] theorem asTile_tileField (t : TReg) : asTile (tileField t) = some t := by revert t; decide
@[simp] theorem asBlock_blockField (g : GReg) : asBlock (blockField g) = some g := by revert g; decide
@[simp] theorem asBlockSrc_blockByte (g : GReg) : asBlockSrc (blockByte g) = some g := by revert g; decide

@[simp] theorem asSrc_srcByte (x : Src) : asSrc (srcByte x) = some x := by
  cases x <;> simp [asSrc, srcByte]
@[simp] theorem asVSrc_vsrcByte (x : VSrc) : asVSrc (vsrcByte x) = x := by
  cases x <;> simp [asVSrc, vsrcByte]
@[simp] theorem asPSrc_psrcByte (x : PSrc) : asPSrc (psrcByte x) = some x := by
  cases x with
  | pred n => revert n; decide
  | lit v => simp [asPSrc, psrcByte]
@[simp] theorem asKSrc_ksrcByte (x : KSrc) : asKSrc (ksrcByte x) = some x := by
  cases x with
  | pred n => revert n; decide
  | const n => simp [asKSrc, ksrcByte]
  | lit v => simp [asKSrc, ksrcByte]

/-! ## The bytes of a word -/

@[simp] theorem wordOfBytes_wordBytes (w : BitVec 32) :
    wordOfBytes (w.extractLsb' 0 8) (w.extractLsb' 8 8) (w.extractLsb' 16 8) (w.extractLsb' 24 8) = w := by
  unfold wordOfBytes; ext i hi
  simp only [BitVec.getElem_eq_testBit_toNat]
  grind

end Sys2Proof
end

