-- ==== Sys2Proof/Laws/Forms.lean ====
section
/-!
SUPPORT. What the shared operand forms can do, said once: the instructions of a form are instances of these lemmas.
-/
namespace Sys2Proof.Machine

/-! ## Endings -/

theorem finish_at (srcs : List SReg) (s : State) : finish srcs s = .ok ((), s.done srcs) := by
  simp [finish, bind_at, State.done]
theorem finishS_at (rd : SReg) (srcs : List SReg) (w : Word) (s : State) : finishS rd srcs w s = .ok ((), s.withS rd srcs w) := rfl
theorem finishV_at (rd : VReg) (srcs : List SReg) (x : VWord) (s : State) : finishV rd srcs x s = .ok ((), s.withV rd srcs x) := rfl
theorem finishP_at (rd : PReg) (srcs : List SReg) (x : PWord) (s : State) : finishP rd srcs x s = .ok ((), s.withP rd srcs x) := rfl
theorem finishR_at (r : RegVal) (la : BitVec 4) (srcs : List SReg) (s : State) :
    finishR r la srcs s = .ok ((), s.withR r la srcs) := rfl
theorem finishL_at (rd : SReg) (la : BitVec 4) (srcs : List SReg) (w : Word) (s : State) :
    finishL rd la srcs w s = .ok ((), s.withL rd la srcs w) := by
  unfold finishL
  rw [bind_ok (modCore_at _)]
  cases h : portOf rd with
  | none =>
    simp only [State.withL, h]
    split <;> rfl
  | some k => simp [bind_at, State.withL, State.withS, State.putS, h]

/-! ## Flags (R167, R168) -/

theorem raise_quiet {t : State} {fl : FFlags} (h : fl &&& t.core.enabled = 0) : raise fl t = .ok ((), t.flagged fl) := by
  simp [raise, bind_at, h, State.flagged]
theorem raise_enabled {t : State} {fl : FFlags} (h : fl &&& t.core.enabled ≠ 0) :
    raise fl t = .error ((t.flagged fl).takeTrap t.cur 0x09 t.core.pc (fl.setWidth 64)) := by
  have h' : ¬fl &&& t.core.enabled = 0#5 := h
  simp [raise, bind_at, h', State.flagged]

/-- A meaning that raises flags and then goes through ends as flagEnd says. -/
theorem flagEnd_of {i : Instr} {s t : State} {fl : FFlags} {done : State → State} {m rest : M Unit}
    (hi : exec i s = run m s) (hm : m s = (raise fl >>= fun _ => rest) t) (hr : ∀ u, rest u = .ok ((), done u)) :
    flagEnd i s t fl done := by
  constructor
  · intro hf
    exact hi.trans (run_ok (by rw [hm, bind_ok (raise_quiet hf), hr]))
  · intro hf
    exact hi.trans (run_error (by rw [hm, bind_error (raise_enabled hf)]))

/-! ## Scalar forms -/

section Scalar
variable {s t : State} {rd : SReg} {sa sb : Src} {f : Word → Word → M Word} {g : Word → Word}

theorem scalar2_done {r : Word} (h : Gives (openPorts (some rd) (srcNames sa ++ srcNames sb)) s () t)
    (hf : f (t.a sa) (t.b sa sb) t = .ok (r, t)) :
    run (scalar2 rd sa sb f) s = .next (t.withS rd (srcNames sa ++ srcNames sb) r) := by
  refine run_ok ?_
  unfold scalar2
  rw [bind_ok h, bind_ok (core_at t)]
  exact bind_ok hf

theorem scalar2_ends {u : State} (h : Gives (openPorts (some rd) (srcNames sa ++ srcNames sb)) s () t)
    (hf : f (t.a sa) (t.b sa sb) t = .error u) : run (scalar2 rd sa sb f) s = .next u := by
  refine run_error ?_
  unfold scalar2
  rw [bind_ok h, bind_ok (core_at t)]
  exact bind_error hf

theorem scalar1_done (h : Gives (openPorts (some rd) (srcNames sa)) s () t) :
    run (scalar1 rd sa g) s = .next (t.withS rd (srcNames sa) (g (t.a sa))) := by
  refine run_ok ?_
  unfold scalar1
  rw [bind_ok h, bind_ok (core_at t)]
  exact finishS_at ..

theorem predS_done {sa : PSrc} {k : PWord → Word} (h : Gives (openPorts (some rd) []) s () t) :
    run (predS rd sa k) s = .next (t.withS rd [] (k (t.core.readP sa))) := by
  refine run_ok ?_
  unfold predS
  rw [bind_ok h, bind_ok (core_at t)]
  exact finishS_at ..

end Scalar

/-! ## Vector forms -/

section Vector
variable {i : Instr} {s t : State} {rd : VReg} {sa sb : VSrc}

theorem fvec2_ends {f : Rm → Lane → Lane → Lane → Lane × FFlags} (hi : exec i s = run (fvec2 rd sa sb f) s)
    (h : Gives (openPorts none (vsrcNames sa ++ vsrcNames sb)) s () t) :
    flagEnd i s t (gather fun j => f t.core.rm (t.va sa).floats[j] (t.vb sa sb).floats[j] (t.core.getV rd)[j]).2 fun u =>
      u.withV rd (vsrcNames sa ++ vsrcNames sb)
        (gather fun j => f t.core.rm (t.va sa).floats[j] (t.vb sa sb).floats[j] (t.core.getV rd)[j]).1 :=
  flagEnd_of hi (by unfold fvec2; rw [bind_ok h, bind_ok (core_at t)]; rfl) fun _ => finishV_at ..

theorem fvec1_ends {f : Rm → Lane → Lane × FFlags} (hi : exec i s = run (fvec1 rd sa f) s)
    (h : Gives (openPorts none (vsrcNames sa)) s () t) :
    flagEnd i s t (gather fun j => f t.core.rm (t.va sa).floats[j]).2 fun u =>
      u.withV rd (vsrcNames sa) (gather fun j => f t.core.rm (t.va sa).floats[j]).1 :=
  flagEnd_of hi (by unfold fvec1; rw [bind_ok h, bind_ok (core_at t)]; rfl) fun _ => finishV_at ..

theorem convert_ends {f : Rm → Nat → Opnd → VWord → VWord × FFlags} (hi : exec i s = run (convert rd sa sb f) s)
    (h : Gives (openPorts none (vsrcNames sa ++ vsrcNames sb)) s () t) :
    flagEnd i s t (f t.core.rm (t.vb sa sb).index.val (t.va sa) (t.core.getV rd)).2 fun u =>
      u.withV rd (vsrcNames sa ++ vsrcNames sb) (f t.core.rm (t.vb sa sb).index.val (t.va sa) (t.core.getV rd)).1 :=
  flagEnd_of hi (by unfold convert; rw [bind_ok h, bind_ok (core_at t)]; rfl) fun _ => finishV_at ..

theorem fcmp_ends {rd : PReg} {f : Lane → Lane → Bool × FFlags} (hi : exec i s = run (fcmp rd sa sb f) s)
    (h : Gives (openPorts none (vsrcNames sa ++ vsrcNames sb)) s () t) :
    flagEnd i s t (unionFlags ((List.finRange 16).map fun j => (f (t.va sa).floats[j] (t.vb sa sb).floats[j]).2)) fun u =>
      u.withP rd (vsrcNames sa ++ vsrcNames sb) (predOf fun j => (f (t.va sa).floats[j] (t.vb sa sb).floats[j]).1) :=
  flagEnd_of hi (by unfold fcmp; rw [bind_ok h, bind_ok (core_at t)]; rfl) fun _ => finishP_at ..

theorem reduce_ends {rd : SReg} {f : Rm → Opnd → Opnd → Word × FFlags} (hi : exec i s = run (reduce rd sa sb f) s)
    (h : Gives (openPorts (some rd) (vsrcNames sa ++ vsrcNames sb)) s () t) :
    flagEnd i s t (f t.core.rm (t.va sa) (t.vb sa sb)).2 fun u =>
      u.withS rd (vsrcNames sa ++ vsrcNames sb) (f t.core.rm (t.va sa) (t.vb sa sb)).1 :=
  flagEnd_of hi (by unfold reduce; rw [bind_ok h, bind_ok (core_at t)]; rfl) fun _ => finishS_at ..

theorem ivec2_done {f : Lane → Lane → Lane} (h : Gives (openPorts none (vsrcNames sa ++ vsrcNames sb)) s () t) :
    run (ivec2 rd sa sb f) s = .next (t.withV rd (vsrcNames sa ++ vsrcNames sb)
      (Vector.ofFn fun j => f (t.va sa).ints[j] (t.vb sa sb).ints[j])) :=
  run_ok (by unfold ivec2; rw [bind_ok h, bind_ok (core_at t)]; rfl)

theorem icmp_done {rd : PReg} {f : Lane → Lane → Bool} (h : Gives (openPorts none (vsrcNames sa ++ vsrcNames sb)) s () t) :
    run (icmp rd sa sb f) s = .next (t.withP rd (vsrcNames sa ++ vsrcNames sb)
      (predOf fun j => f (t.va sa).ints[j] (t.vb sa sb).ints[j])) :=
  run_ok (by unfold icmp; rw [bind_ok h, bind_ok (core_at t)]; rfl)

theorem move_done {f : VWord → Opnd → VWord → PWord → VWord}
    (h : Gives (openPorts none (vsrcNames sa ++ vsrcNames sb)) s () t) :
    run (move rd sa sb f) s = .next (t.withV rd (vsrcNames sa ++ vsrcNames sb)
      (f (t.va sa).ints (t.vb sa sb) (t.core.getV rd) (t.core.getP 0))) :=
  run_ok (by unfold move; rw [bind_ok h, bind_ok (core_at t)]; rfl)

end Vector

/-! ## Ports (R269 to R271) -/

/-- An instruction that names no port passes their checks unchanged. -/
@[simp] theorem openPorts_none {d : Option SReg} {srcs : List SReg} (s : State) (h : portsOf d.toList ++ portsOf srcs = []) :
    openPorts d srcs s = .ok ((), s) := by
  unfold openPorts
  simp only [h]
  rfl

end Sys2Proof.Machine
end

