-- ==== Sys2Proof/Laws/Memory.lean ====
section
/-!
SUPPORT. What each operation that changes memory does to it, said once: which bytes it writes, that it leaves the others, and
that it keeps the canonical form (log 2 DESIGN CHOICE). The operations that leave memory alone say so.
-/
namespace Sys2Proof.Machine

/-! ## Folds -/

section Folds
variable {α : Type} {f : State → α → State}

theorem foldl_mem (h : ∀ s x, (f s x).mem = s.mem) (xs : List α) (s : State) : (xs.foldl f s).mem = s.mem := by
  induction xs generalizing s with
  | nil => rfl
  | cons x rest ih => rw [List.foldl_cons, ih, h]

theorem foldl_canonical (h : ∀ s x, Canonical s → Canonical (f s x)) (xs : List α) (s : State) (hs : Canonical s) :
    Canonical (xs.foldl f s) := by
  induction xs generalizing s with
  | nil => exact hs
  | cons x rest ih => exact ih _ (h s x hs)

end Folds

theorem canonical_of_mem {s t : State} (h : t.mem = s.mem) (hs : Canonical s) : Canonical t := by
  unfold Canonical at *
  rw [h, hs]

/-! ## Lists of cells -/

/-- A part of a memory in canonical form is in canonical form. -/
theorem Mem.filter_rises {lo : Nat} {m : Mem} (p : Host.Cell → Bool) (w : Mem.risesFrom lo m = true) :
    Mem.risesFrom lo (m.filter p) = true := by
  induction m generalizing lo with
  | nil => rfl
  | cons c rest ih =>
    simp only [Mem.risesFrom, Bool.and_eq_true, decide_eq_true_eq] at w
    by_cases h : p c = true
    · simp only [List.filter_cons, h, if_true, Mem.risesFrom, Bool.and_eq_true, decide_eq_true_eq]
      exact ⟨w.1, ih w.2⟩
    · simp only [List.filter_cons, h]
      exact Mem.risesFrom_mono (by omega) (ih w.2)

theorem Mem.filter_wf {m : Mem} (p : Host.Cell → Bool) (w : m.wf = true) : Mem.wf (m.filter p) = true := Mem.filter_rises p w

/-- Writes of a list of cells keep memory in canonical form. -/
theorem Mem.foldl_write_wf {α : Type} (a : α → Nat) (b : α → Byte) (xs : List α) {m : Mem} (w : m.wf = true) :
    Mem.wf (xs.foldl (fun m x => Mem.write m (a x) (b x)) m) = true := by
  induction xs generalizing m with
  | nil => exact w
  | cons x rest ih => exact ih (Mem.write_wf _ _ w)

/-! ## Physical memory -/

/-- A write of bytes to physical memory writes exactly them. -/
@[simp] theorem writePa_mem (s : State) (pa : Nat) (bs : List Byte) : (s.writePa pa bs).mem = s.mem.writeN pa bs := rfl

theorem writePa_canonical {s : State} (pa : Nat) (bs : List Byte) (h : Canonical s) : Canonical (s.writePa pa bs) :=
  Mem.writeN_wf pa bs h

theorem writePa_same (s : State) (pa : Nat) (bs : List Byte) : SameOutside s (s.writePa pa bs) pa bs.length := by
  intro b hb
  rw [writePa_mem, Mem.read_writeN_out _ _ _ _ hb]

/-- A write of cells keeps memory in canonical form. -/
theorem writeCells_canonical {s : State} (cs : List (Nat × Byte)) (h : Canonical s) : Canonical (s.writeCells cs) :=
  Mem.foldl_write_wf Prod.fst Prod.snd cs h

@[simp] theorem dropL1_mem (s : State) (l t : Nat) (w : Option Nat) : (s.dropL1 l t w).mem = s.mem := rfl
@[simp] theorem invalidate_mem (s : State) (l : Nat) (w : Option Nat) : (s.invalidate l w).mem = s.mem := by
  exact foldl_mem (f := fun s t => s.dropL1 l t w) (fun _ _ => rfl) _ s
@[simp] theorem evictLine_mem (s : State) (l : Nat) : (s.evictLine l).mem = s.mem := by
  exact foldl_mem (f := fun s t => s.dropL1 l t none) (fun _ _ => rfl) _ s
@[simp] theorem fillL2_mem (s : State) (pa : Nat) : (s.fillL2 pa).mem = s.mem := by
  unfold State.fillL2
  dsimp only
  split
  · rfl
  · split
    · rfl
    · exact evictLine_mem ..
    · rfl
@[simp] theorem count_mem (s : State) (ctx die pa : Nat) (w : Bool) : (s.count ctx die pa w).mem = s.mem := by
  unfold State.count
  split
  · rfl
  · dsimp only
    split <;> rfl
@[simp] theorem stampFor_mem (s : State) (tenant pa : Nat) (whole : Bool) : (s.stampFor tenant pa whole).mem = s.mem := by
  unfold State.stampFor
  dsimp only
  split <;> split <;> rfl
@[simp] theorem stampAll_mem (s : State) (tenant a n : Nat) : (s.stampAll tenant a n).mem = s.mem := by
  unfold State.stampAll
  split
  · rfl
  · exact foldl_mem (f := fun s i => s.stampFor tenant (a + 64 * i) true) (fun s i => stampFor_mem s ..) _ s
@[simp] theorem stamp_mem (s : State) (ctx pa : Nat) (whole : Bool) : (s.stamp ctx pa whole).mem = s.mem := stampFor_mem ..
@[simp] theorem tamper_mem (s : State) (pa : Nat) : (s.tamper pa).mem = s.mem := by
  unfold State.tamper
  split <;> rfl
@[simp] theorem send_mem (s : State) (m : Msg) : (s.send m).mem = s.mem := rfl
@[simp] theorem sendWake_mem (s : State) (w : WatchReq) (v : Word) (k : Nat) : (s.sendWake w v k).mem = s.mem := by
  unfold State.sendWake
  split <;> rfl
@[simp] theorem fireOwn_mem (s : State) (l c : Nat) : (s.fireOwn l c).mem = s.mem := by
  unfold State.fireOwn
  dsimp only
  split
  · rfl
  · rw [foldl_mem (f := fun s (w : WatchReq × Word) => s.sendWake w.1 w.2 0) (fun s w => sendWake_mem s w.1 w.2 0), onCore_mem]
@[simp] theorem fireMonitors_mem (s : State) (pa : Nat) : (s.fireMonitors pa).mem = s.mem := by
  unfold State.fireMonitors
  dsimp only
  rw [foldl_mem (f := fun s c => s.fireOwn (lineOf pa) c) (fun s c => fireOwn_mem s _ c),
    foldl_mem (f := fun s (w : WatchReq × Word) => s.sendWake w.1 w.2 0) (fun s w => sendWake_mem s w.1 w.2 0)]

/-- What follows from a change of a line leaves memory as the change has left it. -/
@[simp] theorem lineChanged_mem (s : State) (ctx : Nat) (w : Option Nat) (l : Nat) (whole : Bool) :
    (s.lineChanged ctx w l whole).mem = s.mem := by
  unfold State.lineChanged
  dsimp only
  rw [fireMonitors_mem]
  split
  · rw [tamper_mem, stamp_mem]
    cases w with
    | none => exact (invalidate_mem ..).trans (fillL2_mem ..)
    | some c => exact (count_mem ..).trans ((invalidate_mem ..).trans (fillL2_mem ..))
  · rfl

/-- A change of bytes at its serialisation point changes exactly them, of all memory. -/
theorem perform_mem (s : State) (ctx : Nat) (w : Option Nat) (pa : Nat) (bs : List Byte) :
    (s.perform ctx w pa bs).mem = s.mem.writeN pa bs :=
  (foldl_mem (f := fun s l => s.lineChanged ctx w l (decide (pa ≤ l) && decide (l + 64 ≤ pa + bs.length)))
    (fun s l => lineChanged_mem s ctx w l _) _ _).trans (writePa_mem ..)

theorem perform_canonical {s : State} (ctx : Nat) (w : Option Nat) (pa : Nat) (bs : List Byte) (h : Canonical s) :
    Canonical (s.perform ctx w pa bs) := by
  unfold Canonical at *
  rw [perform_mem]
  exact Mem.writeN_wf pa bs h

/-- A chain store applied at a link keeps memory in canonical form. -/
theorem applyAt_canonical {s : State} (l : Nat × Nat) (st : ChainStore) (w : Option Nat) (h : Canonical s) :
    Canonical (s.applyAt l st w) := by
  unfold State.applyAt
  dsimp only
  split
  · refine canonical_of_mem (foldl_mem (fun s p => ?_) _ _) (writeCells_canonical _ h)
    rw [tamper_mem, stampFor_mem, invalidate_mem, fillL2_mem]
  · exact writeCells_canonical _ h

/-- A range that is zero-filled lists nothing any more, and memory stays in canonical form. -/
theorem zero_canonical {s : State} (a n : Nat) (h : Canonical s) : Canonical (s.zero a n) := Mem.filter_wf _ h

/-- A frame copied to another keeps memory in canonical form. -/
theorem copyFrame_canonical {s : State} (old new : Nat) (h : Canonical s) : Canonical (s.copyFrame old new) :=
  Mem.foldl_write_wf (fun c : Host.Cell => c.1 - old + new) (fun c => c.2) _ (Mem.filter_wf _ h)


end Sys2Proof.Machine
end

