-- ==== Sys2Proof/Laws/PerInstr.lean ====
section
/-!
SUPPORT. Per-instruction statements. Family Encoding: the word of an instruction decodes to that instruction, with
every operand at every value (Tables 1.1, 1.2, 1.7 and 1.8).
-/
namespace Sys2Proof.Laws.Encoding

/-- The decoder reads an instruction's own word as that instruction. -/
def Statement (i : Instr) : Prop := ∀ w, encode i = some w → decodeWord w = .ok i

theorem sysInv : Statement .sysInv := by rintro w ⟨⟩; simp [decodeWord, decSys]
theorem sysNop : Statement .sysNop := by rintro w ⟨⟩; simp [decodeWord, decSys]
theorem sysBrk (x0) : Statement (.sysBrk x0) := by rintro w ⟨⟩; simp [decodeWord, decSys, ok1]
theorem sysTrap (x0) : Statement (.sysTrap x0) := by rintro w ⟨⟩; simp [decodeWord, decSys, ok1]
theorem sysEret : Statement .sysEret := by rintro w ⟨⟩; simp [decodeWord, decSys]
theorem sysGet (x0 x1) : Statement (.sysGet x0 x1) := by rintro w ⟨⟩; simp [decodeWord, decSys, ok2]
theorem sysPut (x0 x1) : Statement (.sysPut x0 x1) := by rintro w ⟨⟩; simp [decodeWord, decSys, ok2]
theorem sysSet (x0 x1) : Statement (.sysSet x0 x1) := by rintro w ⟨⟩; simp [decodeWord, decSys, ok2]
theorem sysClr (x0 x1) : Statement (.sysClr x0 x1) := by rintro w ⟨⟩; simp [decodeWord, decSys, ok2]
theorem sysKill (x0) : Statement (.sysKill x0) := by rintro w ⟨⟩; simp [decodeWord, decSys, ok1]
theorem fenceFull (x0) : Statement (.fenceFull x0) := by rintro w ⟨⟩; simp [decodeWord, decFence, ok1]
theorem fenceAcq (x0) : Statement (.fenceAcq x0) := by rintro w ⟨⟩; simp [decodeWord, decFence, ok1]
theorem fenceRel (x0) : Statement (.fenceRel x0) := by rintro w ⟨⟩; simp [decodeWord, decFence, ok1]
theorem fenceEng (x0) : Statement (.fenceEng x0) := by rintro w ⟨⟩; simp [decodeWord, decFence, ok1]
theorem saAdd (x0 x1 x2) : Statement (.saAdd x0 x1 x2) := by rintro w ⟨⟩; simp [decodeWord, decSa, ok3]
theorem saSub (x0 x1 x2) : Statement (.saSub x0 x1 x2) := by rintro w ⟨⟩; simp [decodeWord, decSa, ok3]
theorem saMul (x0 x1 x2) : Statement (.saMul x0 x1 x2) := by rintro w ⟨⟩; simp [decodeWord, decSa, ok3]
theorem saMulh (x0 x1 x2) : Statement (.saMulh x0 x1 x2) := by rintro w ⟨⟩; simp [decodeWord, decSa, ok3]
theorem saMulhn (x0 x1 x2) : Statement (.saMulhn x0 x1 x2) := by rintro w ⟨⟩; simp [decodeWord, decSa, ok3]
theorem saDiv (x0 x1 x2) : Statement (.saDiv x0 x1 x2) := by rintro w ⟨⟩; simp [decodeWord, decSa, ok3]
theorem saDivn (x0 x1 x2) : Statement (.saDivn x0 x1 x2) := by rintro w ⟨⟩; simp [decodeWord, decSa, ok3]
theorem saRem (x0 x1 x2) : Statement (.saRem x0 x1 x2) := by rintro w ⟨⟩; simp [decodeWord, decSa, ok3]
theorem saRemn (x0 x1 x2) : Statement (.saRemn x0 x1 x2) := by rintro w ⟨⟩; simp [decodeWord, decSa, ok3]
theorem saMin (x0 x1 x2) : Statement (.saMin x0 x1 x2) := by rintro w ⟨⟩; simp [decodeWord, decSa, ok3]
theorem saMax (x0 x1 x2) : Statement (.saMax x0 x1 x2) := by rintro w ⟨⟩; simp [decodeWord, decSa, ok3]
theorem saMinn (x0 x1 x2) : Statement (.saMinn x0 x1 x2) := by rintro w ⟨⟩; simp [decodeWord, decSa, ok3]
theorem saMaxn (x0 x1 x2) : Statement (.saMaxn x0 x1 x2) := by rintro w ⟨⟩; simp [decodeWord, decSa, ok3]
theorem saPadd (x0 x1 x2) : Statement (.saPadd x0 x1 x2) := by rintro w ⟨⟩; simp [decodeWord, decSa, ok3]
theorem saAbs (x0 x1) : Statement (.saAbs x0 x1) := by rintro w ⟨⟩; simp [decodeWord, decSa, ok2]
theorem saNeg (x0 x1) : Statement (.saNeg x0 x1) := by rintro w ⟨⟩; simp [decodeWord, decSa, ok2]
theorem sbAnd (x0 x1 x2) : Statement (.sbAnd x0 x1 x2) := by rintro w ⟨⟩; simp [decodeWord, decSb, ok3]
theorem sbOr (x0 x1 x2) : Statement (.sbOr x0 x1 x2) := by rintro w ⟨⟩; simp [decodeWord, decSb, ok3]
theorem sbXor (x0 x1 x2) : Statement (.sbXor x0 x1 x2) := by rintro w ⟨⟩; simp [decodeWord, decSb, ok3]
theorem sbAndn (x0 x1 x2) : Statement (.sbAndn x0 x1 x2) := by rintro w ⟨⟩; simp [decodeWord, decSb, ok3]
theorem sbShl (x0 x1 x2) : Statement (.sbShl x0 x1 x2) := by rintro w ⟨⟩; simp [decodeWord, decSb, ok3]
theorem sbShr (x0 x1 x2) : Statement (.sbShr x0 x1 x2) := by rintro w ⟨⟩; simp [decodeWord, decSb, ok3]
theorem sbSra (x0 x1 x2) : Statement (.sbSra x0 x1 x2) := by rintro w ⟨⟩; simp [decodeWord, decSb, ok3]
theorem sbRot (x0 x1 x2) : Statement (.sbRot x0 x1 x2) := by rintro w ⟨⟩; simp [decodeWord, decSb, ok3]
theorem sbClz (x0 x1) : Statement (.sbClz x0 x1) := by rintro w ⟨⟩; simp [decodeWord, decSb, ok2]
theorem sbCtz (x0 x1) : Statement (.sbCtz x0 x1) := by rintro w ⟨⟩; simp [decodeWord, decSb, ok2]
theorem sbPop (x0 x1) : Statement (.sbPop x0 x1) := by rintro w ⟨⟩; simp [decodeWord, decSb, ok2]
theorem sbSeq (x0 x1 x2) : Statement (.sbSeq x0 x1 x2) := by rintro w ⟨⟩; simp [decodeWord, decSb, ok3]
theorem sbSne (x0 x1 x2) : Statement (.sbSne x0 x1 x2) := by rintro w ⟨⟩; simp [decodeWord, decSb, ok3]
theorem sbSlt (x0 x1 x2) : Statement (.sbSlt x0 x1 x2) := by rintro w ⟨⟩; simp [decodeWord, decSb, ok3]
theorem sbSltn (x0 x1 x2) : Statement (.sbSltn x0 x1 x2) := by rintro w ⟨⟩; simp [decodeWord, decSb, ok3]
theorem sbSel (x0 x1 x2) : Statement (.sbSel x0 x1 x2) := by rintro w ⟨⟩; simp [decodeWord, decSb, ok3]
theorem swAdd (x0 x1 x2) : Statement (.swAdd x0 x1 x2) := by rintro w ⟨⟩; simp [decodeWord, decSw, ok3]
theorem swSub (x0 x1 x2) : Statement (.swSub x0 x1 x2) := by rintro w ⟨⟩; simp [decodeWord, decSw, ok3]
theorem swMul (x0 x1 x2) : Statement (.swMul x0 x1 x2) := by rintro w ⟨⟩; simp [decodeWord, decSw, ok3]
theorem swDiv (x0 x1 x2) : Statement (.swDiv x0 x1 x2) := by rintro w ⟨⟩; simp [decodeWord, decSw, ok3]
theorem swDivn (x0 x1 x2) : Statement (.swDivn x0 x1 x2) := by rintro w ⟨⟩; simp [decodeWord, decSw, ok3]
theorem swRem (x0 x1 x2) : Statement (.swRem x0 x1 x2) := by rintro w ⟨⟩; simp [decodeWord, decSw, ok3]
theorem swRemn (x0 x1 x2) : Statement (.swRemn x0 x1 x2) := by rintro w ⟨⟩; simp [decodeWord, decSw, ok3]
theorem swShl (x0 x1 x2) : Statement (.swShl x0 x1 x2) := by rintro w ⟨⟩; simp [decodeWord, decSw, ok3]
theorem swShr (x0 x1 x2) : Statement (.swShr x0 x1 x2) := by rintro w ⟨⟩; simp [decodeWord, decSw, ok3]
theorem swSra (x0 x1 x2) : Statement (.swSra x0 x1 x2) := by rintro w ⟨⟩; simp [decodeWord, decSw, ok3]
theorem swMin (x0 x1 x2) : Statement (.swMin x0 x1 x2) := by rintro w ⟨⟩; simp [decodeWord, decSw, ok3]
theorem swMax (x0 x1 x2) : Statement (.swMax x0 x1 x2) := by rintro w ⟨⟩; simp [decodeWord, decSw, ok3]
theorem siAdd (x0 x1 x2) : Statement (.siAdd x0 x1 x2) := by rintro w ⟨⟩; simp [decodeWord, ok3]
theorem siAnd (x0 x1 x2) : Statement (.siAnd x0 x1 x2) := by rintro w ⟨⟩; simp [decodeWord, ok3]
theorem siOr (x0 x1 x2) : Statement (.siOr x0 x1 x2) := by rintro w ⟨⟩; simp [decodeWord, ok3]
theorem siXor (x0 x1 x2) : Statement (.siXor x0 x1 x2) := by rintro w ⟨⟩; simp [decodeWord, ok3]
theorem siShl (x0 x1 x2) : Statement (.siShl x0 x1 x2) := by rintro w ⟨⟩; simp [decodeWord, decSiSh, ok3]
theorem siShr (x0 x1 x2) : Statement (.siShr x0 x1 x2) := by rintro w ⟨⟩; simp [decodeWord, decSiSh, ok3]
theorem siSra (x0 x1 x2) : Statement (.siSra x0 x1 x2) := by rintro w ⟨⟩; simp [decodeWord, decSiSh, ok3]
theorem siRot (x0 x1 x2) : Statement (.siRot x0 x1 x2) := by rintro w ⟨⟩; simp [decodeWord, decSiSh, ok3]
theorem siSlt (x0 x1 x2) : Statement (.siSlt x0 x1 x2) := by rintro w ⟨⟩; simp [decodeWord, ok3]
theorem liHi (x0 x1) : Statement (.liHi x0 x1) := by rintro w ⟨⟩; simp [decodeWord, ok2]
theorem liTop (x0 x1) : Statement (.liTop x0 x1) := by rintro w ⟨⟩; simp [decodeWord, ok2]
theorem brEq (x0 x1) : Statement (.brEq x0 x1) := by rintro w ⟨⟩; simp [decodeWord, decBr, ok2, asBrReg]
theorem brNe (x0 x1) : Statement (.brNe x0 x1) := by rintro w ⟨⟩; simp [decodeWord, decBr, ok2, asBrReg]
theorem brLt (x0 x1) : Statement (.brLt x0 x1) := by rintro w ⟨⟩; simp [decodeWord, decBr, ok2, asBrReg]
theorem brGe (x0 x1) : Statement (.brGe x0 x1) := by rintro w ⟨⟩; simp [decodeWord, decBr, ok2, asBrReg]
theorem brGt (x0 x1) : Statement (.brGt x0 x1) := by rintro w ⟨⟩; simp [decodeWord, decBr, ok2, asBrReg]
theorem brLe (x0 x1) : Statement (.brLe x0 x1) := by rintro w ⟨⟩; simp [decodeWord, decBr, ok2, asBrReg]
theorem brAny (x0 x1) : Statement (.brAny x0 x1) := by rintro w ⟨⟩; simp [decodeWord, decBr, ok2, asBrPred]
theorem brNone (x0 x1) : Statement (.brNone x0 x1) := by rintro w ⟨⟩; simp [decodeWord, decBr, ok2, asBrPred]
theorem brAlways (x0) : Statement (.brAlways x0) := by rintro w ⟨⟩; simp [decodeWord, decBr, ok1]
theorem jmp (x0) : Statement (.jmp x0) := by rintro w ⟨⟩; simp [decodeWord, ok1]
theorem call (x0) : Statement (.call x0) := by rintro w ⟨⟩; simp [decodeWord, ok1]
theorem jxJr (x0) : Statement (.jxJr x0) := by rintro w ⟨⟩; simp [decodeWord, decJx, ok1]
theorem jxCallr (x0 x1) : Statement (.jxCallr x0 x1) := by rintro w ⟨⟩; simp [decodeWord, decJx, ok2]
theorem jxRet : Statement .jxRet := by rintro w ⟨⟩; simp [decodeWord, decJx]
theorem lpDo (x0 x1) : Statement (.lpDo x0 x1) := by rintro w ⟨⟩; simp [decodeWord, ok2]
theorem prAnd (x0 x1 x2) : Statement (.prAnd x0 x1 x2) := by rintro w ⟨⟩; simp [decodeWord, decPr, ok3]
theorem prOr (x0 x1 x2) : Statement (.prOr x0 x1 x2) := by rintro w ⟨⟩; simp [decodeWord, decPr, ok3]
theorem prXor (x0 x1 x2) : Statement (.prXor x0 x1 x2) := by rintro w ⟨⟩; simp [decodeWord, decPr, ok3]
theorem prNot (x0 x1) : Statement (.prNot x0 x1) := by rintro w ⟨⟩; simp [decodeWord, decPr, ok2]
theorem prSet (x0 x1) : Statement (.prSet x0 x1) := by rintro w ⟨⟩; simp [decodeWord, decPr, ok2]
theorem prGet (x0 x1) : Statement (.prGet x0 x1) := by rintro w ⟨⟩; simp [decodeWord, decPr, ok2]
theorem prCnt (x0 x1) : Statement (.prCnt x0 x1) := by rintro w ⟨⟩; simp [decodeWord, decPr, ok2]
theorem prFirst (x0 x1) : Statement (.prFirst x0 x1) := by rintro w ⟨⟩; simp [decodeWord, decPr, ok2]
theorem ldB (x0 x1 x2 x3) : Statement (.ldB x0 x1 x2 x3) := by rintro w ⟨⟩; simp [decodeWord, decLd, ok4]
theorem ldBn (x0 x1 x2 x3) : Statement (.ldBn x0 x1 x2 x3) := by rintro w ⟨⟩; simp [decodeWord, decLd, ok4]
theorem ldH (x0 x1 x2 x3) : Statement (.ldH x0 x1 x2 x3) := by rintro w ⟨⟩; simp [decodeWord, decLd, ok4]
theorem ldHn (x0 x1 x2 x3) : Statement (.ldHn x0 x1 x2 x3) := by rintro w ⟨⟩; simp [decodeWord, decLd, ok4]
theorem ldW (x0 x1 x2 x3) : Statement (.ldW x0 x1 x2 x3) := by rintro w ⟨⟩; simp [decodeWord, decLd, ok4]
theorem ldWn (x0 x1 x2 x3) : Statement (.ldWn x0 x1 x2 x3) := by rintro w ⟨⟩; simp [decodeWord, decLd, ok4]
theorem ldD (x0 x1 x2 x3) : Statement (.ldD x0 x1 x2 x3) := by rintro w ⟨⟩; simp [decodeWord, decLd, ok4]
theorem ldV (x0 x1 x2 x3) : Statement (.ldV x0 x1 x2 x3) := by rintro w ⟨⟩; simp [decodeWord, decLd, ok4]
theorem ldVt (x0 x1 x2 x3) : Statement (.ldVt x0 x1 x2 x3) := by rintro w ⟨⟩; simp [decodeWord, decLd, ok4]
theorem ldAcq (x0 x1 x2 x3) : Statement (.ldAcq x0 x1 x2 x3) := by rintro w ⟨⟩; simp [decodeWord, decLd, ok4]
theorem ldDev (x0 x1 x2 x3) : Statement (.ldDev x0 x1 x2 x3) := by rintro w ⟨⟩; simp [decodeWord, decLd, ok4]
theorem stB (x0 x1 x2) : Statement (.stB x0 x1 x2) := by rintro w ⟨⟩; simp [decodeWord, decSt, ok3]
theorem stH (x0 x1 x2) : Statement (.stH x0 x1 x2) := by rintro w ⟨⟩; simp [decodeWord, decSt, ok3]
theorem stW (x0 x1 x2) : Statement (.stW x0 x1 x2) := by rintro w ⟨⟩; simp [decodeWord, decSt, ok3]
theorem stD (x0 x1 x2) : Statement (.stD x0 x1 x2) := by rintro w ⟨⟩; simp [decodeWord, decSt, ok3]
theorem stV (x0 x1 x2) : Statement (.stV x0 x1 x2) := by rintro w ⟨⟩; simp [decodeWord, decSt, ok3]
theorem stVm (x0 x1 x2) : Statement (.stVm x0 x1 x2) := by rintro w ⟨⟩; simp [decodeWord, decSt, ok3]
theorem stVt (x0 x1 x2) : Statement (.stVt x0 x1 x2) := by rintro w ⟨⟩; simp [decodeWord, decSt, ok3]
theorem stRel (x0 x1 x2) : Statement (.stRel x0 x1 x2) := by rintro w ⟨⟩; simp [decodeWord, decSt, ok3]
theorem stDev (x0 x1 x2) : Statement (.stDev x0 x1 x2) := by rintro w ⟨⟩; simp [decodeWord, decSt, ok3]
theorem atAdd (x0 x1 x2 x3) : Statement (.atAdd x0 x1 x2 x3) := by rintro w ⟨⟩; simp [decodeWord, decAt, ok4]
theorem atAddcb (x0 x1 x2 x3) : Statement (.atAddcb x0 x1 x2 x3) := by rintro w ⟨⟩; simp [decodeWord, decAt, ok4]
theorem atAnd (x0 x1 x2 x3) : Statement (.atAnd x0 x1 x2 x3) := by rintro w ⟨⟩; simp [decodeWord, decAt, ok4]
theorem atOr (x0 x1 x2 x3) : Statement (.atOr x0 x1 x2 x3) := by rintro w ⟨⟩; simp [decodeWord, decAt, ok4]
theorem atXor (x0 x1 x2 x3) : Statement (.atXor x0 x1 x2 x3) := by rintro w ⟨⟩; simp [decodeWord, decAt, ok4]
theorem atMin (x0 x1 x2 x3) : Statement (.atMin x0 x1 x2 x3) := by rintro w ⟨⟩; simp [decodeWord, decAt, ok4]
theorem atMax (x0 x1 x2 x3) : Statement (.atMax x0 x1 x2 x3) := by rintro w ⟨⟩; simp [decodeWord, decAt, ok4]
theorem atMinn (x0 x1 x2 x3) : Statement (.atMinn x0 x1 x2 x3) := by rintro w ⟨⟩; simp [decodeWord, decAt, ok4]
theorem atMaxn (x0 x1 x2 x3) : Statement (.atMaxn x0 x1 x2 x3) := by rintro w ⟨⟩; simp [decodeWord, decAt, ok4]
theorem atSwp (x0 x1 x2 x3) : Statement (.atSwp x0 x1 x2 x3) := by rintro w ⟨⟩; simp [decodeWord, decAt, ok4]
theorem atCas (x0 x1 x2 x3) : Statement (.atCas x0 x1 x2 x3) := by rintro w ⟨⟩; simp [decodeWord, decAt, ok4]
theorem atFadd (x0 x1 x2 x3) : Statement (.atFadd x0 x1 x2 x3) := by rintro w ⟨⟩; simp [decodeWord, decAt, ok4]
theorem atRed (x0 x1 x2 x3) : Statement (.atRed x0 x1 x2 x3) := by rintro w ⟨⟩; simp [decodeWord, decAt, ok4]
theorem atWatch (x0 x1 x2 x3) : Statement (.atWatch x0 x1 x2 x3) := by rintro w ⟨⟩; simp [decodeWord, decAt, ok4]
theorem atwAdd (x0 x1 x2 x3) : Statement (.atwAdd x0 x1 x2 x3) := by rintro w ⟨⟩; simp [decodeWord, decAtw, ok4]
theorem atwAddcb (x0 x1 x2 x3) : Statement (.atwAddcb x0 x1 x2 x3) := by rintro w ⟨⟩; simp [decodeWord, decAtw, ok4]
theorem atwAnd (x0 x1 x2 x3) : Statement (.atwAnd x0 x1 x2 x3) := by rintro w ⟨⟩; simp [decodeWord, decAtw, ok4]
theorem atwOr (x0 x1 x2 x3) : Statement (.atwOr x0 x1 x2 x3) := by rintro w ⟨⟩; simp [decodeWord, decAtw, ok4]
theorem atwXor (x0 x1 x2 x3) : Statement (.atwXor x0 x1 x2 x3) := by rintro w ⟨⟩; simp [decodeWord, decAtw, ok4]
theorem atwMin (x0 x1 x2 x3) : Statement (.atwMin x0 x1 x2 x3) := by rintro w ⟨⟩; simp [decodeWord, decAtw, ok4]
theorem atwMax (x0 x1 x2 x3) : Statement (.atwMax x0 x1 x2 x3) := by rintro w ⟨⟩; simp [decodeWord, decAtw, ok4]
theorem atwMinn (x0 x1 x2 x3) : Statement (.atwMinn x0 x1 x2 x3) := by rintro w ⟨⟩; simp [decodeWord, decAtw, ok4]
theorem atwMaxn (x0 x1 x2 x3) : Statement (.atwMaxn x0 x1 x2 x3) := by rintro w ⟨⟩; simp [decodeWord, decAtw, ok4]
theorem atwSwp (x0 x1 x2 x3) : Statement (.atwSwp x0 x1 x2 x3) := by rintro w ⟨⟩; simp [decodeWord, decAtw, ok4]
theorem atwCas (x0 x1 x2 x3) : Statement (.atwCas x0 x1 x2 x3) := by rintro w ⟨⟩; simp [decodeWord, decAtw, ok4]
theorem atwFadd (x0 x1 x2 x3) : Statement (.atwFadd x0 x1 x2 x3) := by rintro w ⟨⟩; simp [decodeWord, decAtw, ok4]
theorem atwRed (x0 x1 x2 x3) : Statement (.atwRed x0 x1 x2 x3) := by rintro w ⟨⟩; simp [decodeWord, decAtw, ok4]
theorem atwWatch (x0 x1 x2 x3) : Statement (.atwWatch x0 x1 x2 x3) := by rintro w ⟨⟩; simp [decodeWord, decAtw, ok4]
theorem vaFadd (x0 x1 x2) : Statement (.vaFadd x0 x1 x2) := by rintro w ⟨⟩; simp [decodeWord, decVa, ok3]
theorem vaFsub (x0 x1 x2) : Statement (.vaFsub x0 x1 x2) := by rintro w ⟨⟩; simp [decodeWord, decVa, ok3]
theorem vaFmul (x0 x1 x2) : Statement (.vaFmul x0 x1 x2) := by rintro w ⟨⟩; simp [decodeWord, decVa, ok3]
theorem vaFma (x0 x1 x2) : Statement (.vaFma x0 x1 x2) := by rintro w ⟨⟩; simp [decodeWord, decVa, ok3]
theorem vaFms (x0 x1 x2) : Statement (.vaFms x0 x1 x2) := by rintro w ⟨⟩; simp [decodeWord, decVa, ok3]
theorem vaFmin (x0 x1 x2) : Statement (.vaFmin x0 x1 x2) := by rintro w ⟨⟩; simp [decodeWord, decVa, ok3]
theorem vaFmax (x0 x1 x2) : Statement (.vaFmax x0 x1 x2) := by rintro w ⟨⟩; simp [decodeWord, decVa, ok3]
theorem vaFabs (x0 x1) : Statement (.vaFabs x0 x1) := by rintro w ⟨⟩; simp [decodeWord, decVa, ok2]
theorem vaFneg (x0 x1) : Statement (.vaFneg x0 x1) := by rintro w ⟨⟩; simp [decodeWord, decVa, ok2]
theorem vaFrcp (x0 x1) : Statement (.vaFrcp x0 x1) := by rintro w ⟨⟩; simp [decodeWord, decVa, ok2]
theorem vaFrsq (x0 x1) : Statement (.vaFrsq x0 x1) := by rintro w ⟨⟩; simp [decodeWord, decVa, ok2]
theorem vaFsqrt (x0 x1) : Statement (.vaFsqrt x0 x1) := by rintro w ⟨⟩; simp [decodeWord, decVa, ok2]
theorem vaFdiv (x0 x1 x2) : Statement (.vaFdiv x0 x1 x2) := by rintro w ⟨⟩; simp [decodeWord, decVa, ok3]
theorem viAdd (x0 x1 x2) : Statement (.viAdd x0 x1 x2) := by rintro w ⟨⟩; simp [decodeWord, decVi, ok3]
theorem viSub (x0 x1 x2) : Statement (.viSub x0 x1 x2) := by rintro w ⟨⟩; simp [decodeWord, decVi, ok3]
theorem viMul (x0 x1 x2) : Statement (.viMul x0 x1 x2) := by rintro w ⟨⟩; simp [decodeWord, decVi, ok3]
theorem viMulh (x0 x1 x2) : Statement (.viMulh x0 x1 x2) := by rintro w ⟨⟩; simp [decodeWord, decVi, ok3]
theorem viAnd (x0 x1 x2) : Statement (.viAnd x0 x1 x2) := by rintro w ⟨⟩; simp [decodeWord, decVi, ok3]
theorem viOr (x0 x1 x2) : Statement (.viOr x0 x1 x2) := by rintro w ⟨⟩; simp [decodeWord, decVi, ok3]
theorem viXor (x0 x1 x2) : Statement (.viXor x0 x1 x2) := by rintro w ⟨⟩; simp [decodeWord, decVi, ok3]
theorem viShl (x0 x1 x2) : Statement (.viShl x0 x1 x2) := by rintro w ⟨⟩; simp [decodeWord, decVi, ok3]
theorem viShr (x0 x1 x2) : Statement (.viShr x0 x1 x2) := by rintro w ⟨⟩; simp [decodeWord, decVi, ok3]
theorem viSra (x0 x1 x2) : Statement (.viSra x0 x1 x2) := by rintro w ⟨⟩; simp [decodeWord, decVi, ok3]
theorem viMin (x0 x1 x2) : Statement (.viMin x0 x1 x2) := by rintro w ⟨⟩; simp [decodeWord, decVi, ok3]
theorem viMax (x0 x1 x2) : Statement (.viMax x0 x1 x2) := by rintro w ⟨⟩; simp [decodeWord, decVi, ok3]
theorem viMinn (x0 x1 x2) : Statement (.viMinn x0 x1 x2) := by rintro w ⟨⟩; simp [decodeWord, decVi, ok3]
theorem viMaxn (x0 x1 x2) : Statement (.viMaxn x0 x1 x2) := by rintro w ⟨⟩; simp [decodeWord, decVi, ok3]
theorem vcFeq (x0 x1 x2) : Statement (.vcFeq x0 x1 x2) := by rintro w ⟨⟩; simp [decodeWord, decVc, ok3]
theorem vcFne (x0 x1 x2) : Statement (.vcFne x0 x1 x2) := by rintro w ⟨⟩; simp [decodeWord, decVc, ok3]
theorem vcFlt (x0 x1 x2) : Statement (.vcFlt x0 x1 x2) := by rintro w ⟨⟩; simp [decodeWord, decVc, ok3]
theorem vcFle (x0 x1 x2) : Statement (.vcFle x0 x1 x2) := by rintro w ⟨⟩; simp [decodeWord, decVc, ok3]
theorem vcFun (x0 x1 x2) : Statement (.vcFun x0 x1 x2) := by rintro w ⟨⟩; simp [decodeWord, decVc, ok3]
theorem vcIeq (x0 x1 x2) : Statement (.vcIeq x0 x1 x2) := by rintro w ⟨⟩; simp [decodeWord, decVc, ok3]
theorem vcIlt (x0 x1 x2) : Statement (.vcIlt x0 x1 x2) := by rintro w ⟨⟩; simp [decodeWord, decVc, ok3]
theorem vcIltn (x0 x1 x2) : Statement (.vcIltn x0 x1 x2) := by rintro w ⟨⟩; simp [decodeWord, decVc, ok3]
theorem vxBcast (x0 x1 x2) : Statement (.vxBcast x0 x1 x2) := by rintro w ⟨⟩; simp [decodeWord, decVx, ok3]
theorem vxExtr (x0 x1 x2) : Statement (.vxExtr x0 x1 x2) := by rintro w ⟨⟩; simp [decodeWord, decVx, ok3]
theorem vxIns (x0 x1 x2) : Statement (.vxIns x0 x1 x2) := by rintro w ⟨⟩; simp [decodeWord, decVx, ok3]
theorem vxPerm (x0 x1 x2) : Statement (.vxPerm x0 x1 x2) := by rintro w ⟨⟩; simp [decodeWord, decVx, ok3]
theorem vxSel (x0 x1 x2) : Statement (.vxSel x0 x1 x2) := by rintro w ⟨⟩; simp [decodeWord, decVx, ok3]
theorem vxIota (x0 x1 x2) : Statement (.vxIota x0 x1 x2) := by rintro w ⟨⟩; simp [decodeWord, decVx, ok3]
theorem vxCvtif (x0 x1 x2) : Statement (.vxCvtif x0 x1 x2) := by rintro w ⟨⟩; simp [decodeWord, decVx, ok3]
theorem vxCvtfi (x0 x1 x2) : Statement (.vxCvtfi x0 x1 x2) := by rintro w ⟨⟩; simp [decodeWord, decVx, ok3]
theorem vxCvtbh (x0 x1 x2) : Statement (.vxCvtbh x0 x1 x2) := by rintro w ⟨⟩; simp [decodeWord, decVx, ok3]
theorem vxCvthb (x0 x1 x2) : Statement (.vxCvthb x0 x1 x2) := by rintro w ⟨⟩; simp [decodeWord, decVx, ok3]
theorem vxCvtfh (x0 x1 x2) : Statement (.vxCvtfh x0 x1 x2) := by rintro w ⟨⟩; simp [decodeWord, decVx, ok3]
theorem vxCvthf (x0 x1 x2) : Statement (.vxCvthf x0 x1 x2) := by rintro w ⟨⟩; simp [decodeWord, decVx, ok3]
theorem vxCvt8 (x0 x1 x2) : Statement (.vxCvt8 x0 x1 x2) := by rintro w ⟨⟩; simp [decodeWord, decVx, ok3]
theorem vxCvtq8 (x0 x1 x2) : Statement (.vxCvtq8 x0 x1 x2) := by rintro w ⟨⟩; simp [decodeWord, decVx, ok3]
theorem vxCvt4 (x0 x1 x2) : Statement (.vxCvt4 x0 x1 x2) := by rintro w ⟨⟩; simp [decodeWord, decVx, ok3]
theorem vxCvtq4 (x0 x1 x2) : Statement (.vxCvtq4 x0 x1 x2) := by rintro w ⟨⟩; simp [decodeWord, decVx, ok3]
theorem vrFsum (x0 x1 x2) : Statement (.vrFsum x0 x1 x2) := by rintro w ⟨⟩; simp [decodeWord, decVr, ok3]
theorem vrFmax (x0 x1 x2) : Statement (.vrFmax x0 x1 x2) := by rintro w ⟨⟩; simp [decodeWord, decVr, ok3]
theorem vrFmin (x0 x1 x2) : Statement (.vrFmin x0 x1 x2) := by rintro w ⟨⟩; simp [decodeWord, decVr, ok3]
theorem vrIsum (x0 x1 x2) : Statement (.vrIsum x0 x1 x2) := by rintro w ⟨⟩; simp [decodeWord, decVr, ok3]
theorem vrImax (x0 x1 x2) : Statement (.vrImax x0 x1 x2) := by rintro w ⟨⟩; simp [decodeWord, decVr, ok3]
theorem vrImin (x0 x1 x2) : Statement (.vrImin x0 x1 x2) := by rintro w ⟨⟩; simp [decodeWord, decVr, ok3]
theorem vrAnd (x0 x1 x2) : Statement (.vrAnd x0 x1 x2) := by rintro w ⟨⟩; simp [decodeWord, decVr, ok3]
theorem vrOr (x0 x1 x2) : Statement (.vrOr x0 x1 x2) := by rintro w ⟨⟩; simp [decodeWord, decVr, ok3]
theorem vgGat (x0 x1 x2 x3) : Statement (.vgGat x0 x1 x2 x3) := by rintro w ⟨⟩; simp [decodeWord, decVg, ok4]
theorem vgSca (x0 x1 x2) : Statement (.vgSca x0 x1 x2) := by rintro w ⟨⟩; simp [decodeWord, decVg, ok3]
theorem vgAtadd (x0 x1 x2) : Statement (.vgAtadd x0 x1 x2) := by rintro w ⟨⟩; simp [decodeWord, decVg, ok3]
theorem vgAtfadd (x0 x1 x2) : Statement (.vgAtfadd x0 x1 x2) := by rintro w ⟨⟩; simp [decodeWord, decVg, ok3]
theorem vgAtmin (x0 x1 x2) : Statement (.vgAtmin x0 x1 x2) := by rintro w ⟨⟩; simp [decodeWord, decVg, ok3]
theorem vgAtmax (x0 x1 x2) : Statement (.vgAtmax x0 x1 x2) := by rintro w ⟨⟩; simp [decodeWord, decVg, ok3]
theorem vgAtor (x0 x1 x2) : Statement (.vgAtor x0 x1 x2) := by rintro w ⟨⟩; simp [decodeWord, decVg, ok3]
theorem mxMma (x0 x1 x2 x3) : Statement (.mxMma x0 x1 x2 x3) := by rintro w ⟨⟩; simp [decodeWord, decMx, ok4]
theorem mxMmas (x0 x1 x2 x3) : Statement (.mxMmas x0 x1 x2 x3) := by rintro w ⟨⟩; simp [decodeWord, decMx, ok4]
theorem mxZero (x0 x1) : Statement (.mxZero x0 x1) := by rintro w ⟨⟩; simp [decodeWord, decMx, ok2]
theorem mxLdacc (x0 x1 x2) : Statement (.mxLdacc x0 x1 x2) := by rintro w ⟨⟩; simp [decodeWord, decMx, ok3]
theorem mxStacc (x0 x1 x2) : Statement (.mxStacc x0 x1 x2) := by rintro w ⟨⟩; simp [decodeWord, decMx, ok3]
theorem mxStsp (x0 x1 x2) : Statement (.mxStsp x0 x1 x2) := by rintro w ⟨⟩; simp [decodeWord, decMx, ok3]
theorem mxGang (x0 x1 x2 x3) : Statement (.mxGang x0 x1 x2 x3) := by rintro w ⟨⟩; simp [decodeWord, decMx, ok4]
theorem mxCfg (x0 x1) : Statement (.mxCfg x0 x1) := by rintro w ⟨⟩; simp [decodeWord, decMx, ok2]
theorem mxMask (x0 x1 x2) : Statement (.mxMask x0 x1 x2) := by rintro w ⟨⟩; simp [decodeWord, decMx, ok3]
theorem mxDrain : Statement .mxDrain := by rintro w ⟨⟩; simp [decodeWord, decMx]
theorem cpGet (x0 x1 x2) : Statement (.cpGet x0 x1 x2) := by rintro w ⟨⟩; simp [decodeWord, decCp, ok3]
theorem cpPut (x0 x1 x2) : Statement (.cpPut x0 x1 x2) := by rintro w ⟨⟩; simp [decodeWord, decCp, ok3]
theorem cpGet2d (x0 x1 x2) : Statement (.cpGet2d x0 x1 x2) := by rintro w ⟨⟩; simp [decodeWord, decCp, ok3]
theorem cpPut2d (x0 x1 x2) : Statement (.cpPut2d x0 x1 x2) := by rintro w ⟨⟩; simp [decodeWord, decCp, ok3]
theorem cpFill (x0 x1 x2) : Statement (.cpFill x0 x1 x2) := by rintro w ⟨⟩; simp [decodeWord, decCp, ok3]
theorem cpNzpk (x0 x1 x2) : Statement (.cpNzpk x0 x1 x2) := by rintro w ⟨⟩; simp [decodeWord, decCp, ok3]
theorem cpWptr (x0 x1 x2) : Statement (.cpWptr x0 x1 x2) := by rintro w ⟨⟩; simp [decodeWord, decCp, ok3]
theorem cpCancel (x0) : Statement (.cpCancel x0) := by rintro w ⟨⟩; simp [decodeWord, decCp, ok1]
theorem msSend (x0 x1 x2) : Statement (.msSend x0 x1 x2) := by rintro w ⟨⟩; simp [decodeWord, decMs, ok3]
theorem msSendt (x0 x1 x2) : Statement (.msSendt x0 x1 x2) := by rintro w ⟨⟩; simp [decodeWord, decMs, ok3]
theorem msSpr (x0 x1 x2) : Statement (.msSpr x0 x1 x2) := by rintro w ⟨⟩; simp [decodeWord, decMs, ok3]
theorem msBcast (x0 x1 x2) : Statement (.msBcast x0 x1 x2) := by rintro w ⟨⟩; simp [decodeWord, decMs, ok3]
theorem msEnd : Statement .msEnd := by rintro w ⟨⟩; simp [decodeWord, decMs]
theorem msEndc (x0 x1) : Statement (.msEndc x0 x1) := by rintro w ⟨⟩; simp [decodeWord, decMs, ok2]
theorem msDefer (x0) : Statement (.msDefer x0) := by rintro w ⟨⟩; simp [decodeWord, decMs, ok1]
theorem tkNew (x0 x1 x2 x3) : Statement (.tkNew x0 x1 x2 x3) := by rintro w ⟨⟩; simp [decodeWord, decTk, ok4]
theorem tkArr (x0) : Statement (.tkArr x0) := by rintro w ⟨⟩; simp [decodeWord, decTk, ok1]
theorem tkArrd (x0 x1) : Statement (.tkArrd x0 x1) := by rintro w ⟨⟩; simp [decodeWord, decTk, ok2]
theorem tkDl (x0 x1) : Statement (.tkDl x0 x1) := by rintro w ⟨⟩; simp [decodeWord, decTk, ok2]
theorem tkKill (x0) : Statement (.tkKill x0) := by rintro w ⟨⟩; simp [decodeWord, decTk, ok1]
theorem tkBarr (x0) : Statement (.tkBarr x0) := by rintro w ⟨⟩; simp [decodeWord, decTk, ok1]
theorem tkBwait (x0 x1) : Statement (.tkBwait x0 x1) := by rintro w ⟨⟩; simp [decodeWord, decTk, ok2]
theorem tgEn (x0 x1) : Statement (.tgEn x0 x1) := by rintro w ⟨⟩; simp [decodeWord, decTg, ok2]
theorem tgDis (x0) : Statement (.tgDis x0) := by rintro w ⟨⟩; simp [decodeWord, decTg, ok1]
theorem tgPend (x0) : Statement (.tgPend x0) := by rintro w ⟨⟩; simp [decodeWord, decTg, ok1]
theorem tgClr (x0) : Statement (.tgClr x0) := by rintro w ⟨⟩; simp [decodeWord, decTg, ok1]
theorem tgGet (x0 x1) : Statement (.tgGet x0 x1) := by rintro w ⟨⟩; simp [decodeWord, decTg, ok2]
theorem gmAdd (x0 x1 x2) : Statement (.gmAdd x0 x1 x2) := by rintro w ⟨⟩; simp [decodeWord, decGm, ok3]
theorem gmSub (x0 x1 x2) : Statement (.gmSub x0 x1 x2) := by rintro w ⟨⟩; simp [decodeWord, decGm, ok3]
theorem gmDamp (x0 x1 x2) : Statement (.gmDamp x0 x1 x2) := by rintro w ⟨⟩; simp [decodeWord, decGm, ok3]
theorem gmMarg (x0 x1 x2) : Statement (.gmMarg x0 x1 x2) := by rintro w ⟨⟩; simp [decodeWord, decGm, ok3]
theorem gmSol (x0 x1) : Statement (.gmSol x0 x1) := by rintro w ⟨⟩; simp [decodeWord, decGm, ok2]
theorem gmCov (x0 x1) : Statement (.gmCov x0 x1) := by rintro w ⟨⟩; simp [decodeWord, decGm, ok2]
theorem gmLin (x0 x1 x2) : Statement (.gmLin x0 x1 x2) := by rintro w ⟨⟩; simp [decodeWord, decGm, ok3]
theorem gmRes (x0 x1 x2) : Statement (.gmRes x0 x1 x2) := by rintro w ⟨⟩; simp [decodeWord, decGm, ok3]
theorem gmConv (x0 x1) : Statement (.gmConv x0 x1) := by rintro w ⟨⟩; simp [decodeWord, decGm, ok2]
theorem gmRdro (x0 x1) : Statement (.gmRdro x0 x1) := by rintro w ⟨⟩; simp [decodeWord, decGm, ok2]
theorem fgAttach (x0 x1 x2 x3) : Statement (.fgAttach x0 x1 x2 x3) := by rintro w ⟨⟩; simp [decodeWord, decFg, ok4]
theorem fgDetach (x0 x1) : Statement (.fgDetach x0 x1) := by rintro w ⟨⟩; simp [decodeWord, decFg, ok2]
theorem fgSlot (x0 x1 x2 x3) : Statement (.fgSlot x0 x1 x2 x3) := by rintro w ⟨⟩; simp [decodeWord, decFg, ok4]
theorem fgPost (x0 x1 x2) : Statement (.fgPost x0 x1 x2) := by rintro w ⟨⟩; simp [decodeWord, decFg, ok3]
theorem fgGen (x0 x1 x2 x3) : Statement (.fgGen x0 x1 x2 x3) := by rintro w ⟨⟩; simp [decodeWord, decFg, ok4]
theorem chLink (x0 x1 x2) : Statement (.chLink x0 x1 x2) := by rintro w ⟨⟩; simp [decodeWord, decCh, ok3]
theorem chUnlink (x0 x1 x2) : Statement (.chUnlink x0 x1 x2) := by rintro w ⟨⟩; simp [decodeWord, decCh, ok3]
theorem chRelink (x0 x1 x2) : Statement (.chRelink x0 x1 x2) := by rintro w ⟨⟩; simp [decodeWord, decCh, ok3]
theorem chStat (x0 x1 x2 x3) : Statement (.chStat x0 x1 x2 x3) := by rintro w ⟨⟩; simp [decodeWord, decCh, ok4]
theorem chTail (x0 x1 x2) : Statement (.chTail x0 x1 x2) := by rintro w ⟨⟩; simp [decodeWord, decCh, ok3]
theorem chClean (x0 x1) : Statement (.chClean x0 x1) := by rintro w ⟨⟩; simp [decodeWord, decCh, ok2]
theorem rgAcq (x0 x1 x2) : Statement (.rgAcq x0 x1 x2) := by rintro w ⟨⟩; simp [decodeWord, decRg, ok3]
theorem rgCmt (x0 x1) : Statement (.rgCmt x0 x1) := by rintro w ⟨⟩; simp [decodeWord, decRg, ok2]
theorem rgPeek (x0 x1 x2) : Statement (.rgPeek x0 x1 x2) := by rintro w ⟨⟩; simp [decodeWord, decRg, ok3]
theorem rgRel (x0) : Statement (.rgRel x0) := by rintro w ⟨⟩; simp [decodeWord, decRg, ok1]
theorem qpCtl (x0 x1) : Statement (.qpCtl x0 x1) := by rintro w ⟨⟩; simp [decodeWord, decQp, ok2]
theorem qpStat (x0 x1) : Statement (.qpStat x0 x1) := by rintro w ⟨⟩; simp [decodeWord, decQp, ok2]
theorem qpCatch (x0 x1) : Statement (.qpCatch x0 x1) := by rintro w ⟨⟩; simp [decodeWord, decQp, ok2]
theorem glArm (x0 x1) : Statement (.glArm x0 x1) := by rintro w ⟨⟩; simp [decodeWord, decGl, ok2]
theorem glDisarm (x0) : Statement (.glDisarm x0) := by rintro w ⟨⟩; simp [decodeWord, decGl, ok1]
theorem glTrig (x0 x1) : Statement (.glTrig x0 x1) := by rintro w ⟨⟩; simp [decodeWord, decGl, ok2]
theorem glGate (x0) : Statement (.glGate x0) := by rintro w ⟨⟩; simp [decodeWord, decGl, ok1]
theorem glIdx (x0 x1 x2) : Statement (.glIdx x0 x1 x2) := by rintro w ⟨⟩; simp [decodeWord, decGl, ok3]
theorem glGrp (x0 x1 x2) : Statement (.glGrp x0 x1 x2) := by rintro w ⟨⟩; simp [decodeWord, decGl, ok3]
theorem pgInval (x0 x1 x2) : Statement (.pgInval x0 x1 x2) := by rintro w ⟨⟩; simp [decodeWord, decPg, ok3]
theorem pgReplay (x0) : Statement (.pgReplay x0) := by rintro w ⟨⟩; simp [decodeWord, decPg, ok1]
theorem pgFbrd (x0 x1 x2) : Statement (.pgFbrd x0 x1 x2) := by rintro w ⟨⟩; simp [decodeWord, decPg, ok3]
theorem pgPin (x0 x1 x2) : Statement (.pgPin x0 x1 x2) := by rintro w ⟨⟩; simp [decodeWord, decPg, ok3]
theorem pgHint (x0 x1 x2) : Statement (.pgHint x0 x1 x2) := by rintro w ⟨⟩; simp [decodeWord, decPg, ok3]
theorem trlLead : Statement .trlLead := by rintro w ⟨⟩; simp [decodeWord, decTrl]
theorem trlJoin : Statement .trlJoin := by rintro w ⟨⟩; simp [decodeWord, decTrl]
theorem trlQuit : Statement .trlQuit := by rintro w ⟨⟩; simp [decodeWord, decTrl]
theorem undefinedEncoding (x0) : Statement (.undefinedEncoding x0) := by rintro w ⟨⟩
theorem registerWrite (x0 x1) : Statement (.registerWrite x0 x1) := by rintro w ⟨⟩
theorem rostatSelect (x0) : Statement (.rostatSelect x0) := by rintro w ⟨⟩
theorem rostatArm (x0) : Statement (.rostatArm x0) := by rintro w ⟨⟩
theorem rostatDisarm (x0) : Statement (.rostatDisarm x0) := by rintro w ⟨⟩
theorem ctxctlPreempt (x0) : Statement (.ctxctlPreempt x0) := by rintro w ⟨⟩
theorem ctxctlResume (x0) : Statement (.ctxctlResume x0) := by rintro w ⟨⟩
theorem ctxctlKill (x0) : Statement (.ctxctlKill x0) := by rintro w ⟨⟩
theorem messageArrival (x0) : Statement (.messageArrival x0) := by rintro w ⟨⟩
theorem dispatch (x0) : Statement (.dispatch x0) := by rintro w ⟨⟩
theorem activationCommit (x0) : Statement (.activationCommit x0) := by rintro w ⟨⟩
theorem sequencerArrival (x0) : Statement (.sequencerArrival x0) := by rintro w ⟨⟩
theorem tlbMissAtSlice (x0 x1 x2 x3) : Statement (.tlbMissAtSlice x0 x1 x2 x3) := by rintro w ⟨⟩
theorem pageWalkComplete (x0 x1 x2) : Statement (.pageWalkComplete x0 x1 x2) := by rintro w ⟨⟩
theorem pgInvalCompletion (x0) : Statement (.pgInvalCompletion x0) := by rintro w ⟨⟩
theorem pgPinCompletion (x0) : Statement (.pgPinCompletion x0) := by rintro w ⟨⟩
theorem epochEnd (x0) : Statement (.epochEnd x0) := by rintro w ⟨⟩
theorem migrationSwitch (x0 x1) : Statement (.migrationSwitch x0 x1) := by rintro w ⟨⟩
theorem homeSliceAccess (x0) : Statement (.homeSliceAccess x0) := by rintro w ⟨⟩
theorem invalidation (x0 x1) : Statement (.invalidation x0 x1) := by rintro w ⟨⟩
theorem invalidationAck (x0 x1) : Statement (.invalidationAck x0 x1) := by rintro w ⟨⟩
theorem atomicAtHome (x0) : Statement (.atomicAtHome x0) := by rintro w ⟨⟩
theorem watchArmAtHome (x0) : Statement (.watchArmAtHome x0) := by rintro w ⟨⟩
theorem combineRequest (x0 x1 x2) : Statement (.combineRequest x0 x1 x2) := by rintro w ⟨⟩
theorem combineWindowExpiry (x0 x1) : Statement (.combineWindowExpiry x0 x1) := by rintro w ⟨⟩
theorem decombine (x0 x1 x2) : Statement (.decombine x0 x1 x2) := by rintro w ⟨⟩
theorem atomicReplyTimeout (x0 x1 x2) : Statement (.atomicReplyTimeout x0 x1 x2) := by rintro w ⟨⟩
theorem tileFetchLine (x0) : Statement (.tileFetchLine x0) := by rintro w ⟨⟩
theorem matrixCommandExecute (x0) : Statement (.matrixCommandExecute x0) := by rintro w ⟨⟩
theorem gangStart (x0) : Statement (.gangStart x0) := by rintro w ⟨⟩
theorem copyBeat (x0 x1) : Statement (.copyBeat x0 x1) := by rintro w ⟨⟩
theorem footprintPrefetch (x0) : Statement (.footprintPrefetch x0) := by rintro w ⟨⟩
theorem remotePortAccess (x0) : Statement (.remotePortAccess x0) := by rintro w ⟨⟩
theorem queueWordArrival (x0 x1 x2) : Statement (.queueWordArrival x0 x1 x2) := by rintro w ⟨⟩
theorem chainStoreAtLink (x0) : Statement (.chainStoreAtLink x0) := by rintro w ⟨⟩
theorem chainAcknowledgement (x0) : Statement (.chainAcknowledgement x0) := by rintro w ⟨⟩
theorem chainStoreCompletion (x0) : Statement (.chainStoreCompletion x0) := by rintro w ⟨⟩
theorem chainRead (x0) : Statement (.chainRead x0) := by rintro w ⟨⟩
theorem chainTailQuery (x0) : Statement (.chainTailQuery x0) := by rintro w ⟨⟩
theorem chainPageCopy (x0 x1) : Statement (.chainPageCopy x0 x1) := by rintro w ⟨⟩
theorem chainPromotionMarker (x0 x1) : Statement (.chainPromotionMarker x0 x1) := by rintro w ⟨⟩
theorem chainHeadHandoff (x0 x1) : Statement (.chainHeadHandoff x0 x1) := by rintro w ⟨⟩
theorem chainCleanDone (x0 x1) : Statement (.chainCleanDone x0 x1) := by rintro w ⟨⟩
theorem linkUnreachable (x0 x1) : Statement (.linkUnreachable x0 x1) := by rintro w ⟨⟩
theorem postArrival (x0) : Statement (.postArrival x0) := by rintro w ⟨⟩
theorem postApply (x0) : Statement (.postApply x0) := by rintro w ⟨⟩
theorem reportWindowExpiry (x0 x1 x2) : Statement (.reportWindowExpiry x0 x1 x2) := by rintro w ⟨⟩
theorem runOutFire (x0 x1) : Statement (.runOutFire x0 x1) := by rintro w ⟨⟩
theorem taskAtHome (x0) : Statement (.taskAtHome x0) := by rintro w ⟨⟩
theorem taskDeadline (x0 x1) : Statement (.taskDeadline x0 x1) := by rintro w ⟨⟩
theorem taskTake (x0) : Statement (.taskTake x0) := by rintro w ⟨⟩
theorem barrierAcknowledgement (x0 x1 x2 x3) : Statement (.barrierAcknowledgement x0 x1 x2 x3) := by rintro w ⟨⟩
theorem barrierRelease (x0 x1 x2 x3) : Statement (.barrierRelease x0 x1 x2 x3) := by rintro w ⟨⟩
theorem launchTrigger (x0) : Statement (.launchTrigger x0) := by rintro w ⟨⟩
theorem launchBatch (x0 x1 x2) : Statement (.launchBatch x0 x1 x2) := by rintro w ⟨⟩
theorem indexAcknowledgement (x0 x1 x2) : Statement (.indexAcknowledgement x0 x1 x2) := by rintro w ⟨⟩
theorem preemptionHalt (x0) : Statement (.preemptionHalt x0) := by rintro w ⟨⟩
theorem localStoreSwap (x0 x1) : Statement (.localStoreSwap x0 x1) := by rintro w ⟨⟩
theorem gatePost (x0) : Statement (.gatePost x0) := by rintro w ⟨⟩
theorem gateArmed (x0 x1 x2) : Statement (.gateArmed x0 x1 x2) := by rintro w ⟨⟩
theorem gateGuardDeadline (x0) : Statement (.gateGuardDeadline x0) := by rintro w ⟨⟩
theorem gateGo (x0 x1) : Statement (.gateGo x0 x1) := by rintro w ⟨⟩
theorem gateAbort (x0) : Statement (.gateAbort x0) := by rintro w ⟨⟩
theorem gateActionTime (x0) : Statement (.gateActionTime x0) := by rintro w ⟨⟩
theorem gateArmedTimeout (x0) : Statement (.gateArmedTimeout x0) := by rintro w ⟨⟩
theorem errorRetry (x0 x1) : Statement (.errorRetry x0 x1) := by rintro w ⟨⟩
theorem remapComplete (x0 x1) : Statement (.remapComplete x0 x1) := by rintro w ⟨⟩
theorem linkRemoval (x0) : Statement (.linkRemoval x0) := by rintro w ⟨⟩
theorem packetResendTimeout (x0) : Statement (.packetResendTimeout x0) := by rintro w ⟨⟩
theorem heartbeatTimeout (x0) : Statement (.heartbeatTimeout x0) := by rintro w ⟨⟩
theorem budgetExpiry (x0) : Statement (.budgetExpiry x0) := by rintro w ⟨⟩
theorem hostTriggerRecord (x0 x1 x2) : Statement (.hostTriggerRecord x0 x1 x2) := by rintro w ⟨⟩
theorem mbxAttest (x0 x1) : Statement (.mbxAttest x0 x1) := by rintro w ⟨⟩
theorem mbxCreateContext (x0 x1 x2) : Statement (.mbxCreateContext x0 x1 x2) := by rintro w ⟨⟩
theorem mbxLoadImage (x0 x1 x2 x3) : Statement (.mbxLoadImage x0 x1 x2 x3) := by rintro w ⟨⟩
theorem mbxDestroyContext (x0 x1) : Statement (.mbxDestroyContext x0 x1) := by rintro w ⟨⟩
theorem mbxTenantKey (x0 x1 x2 x3) : Statement (.mbxTenantKey x0 x1 x2 x3) := by rintro w ⟨⟩
theorem mbxReserveRange (x0 x1 x2 x3 x4) : Statement (.mbxReserveRange x0 x1 x2 x3 x4) := by rintro w ⟨⟩
theorem mbxHealthLog (x0 x1) : Statement (.mbxHealthLog x0 x1) := by rintro w ⟨⟩
theorem mbxUnlistedCommand (x0 x1) : Statement (.mbxUnlistedCommand x0 x1) := by rintro w ⟨⟩
theorem mailboxCompletion (x0) : Statement (.mailboxCompletion x0) := by rintro w ⟨⟩
theorem ualinkRequest (x0) : Statement (.ualinkRequest x0) := by rintro w ⟨⟩
theorem hostCompletion (x0 x1 x2) : Statement (.hostCompletion x0 x1 x2) := by rintro w ⟨⟩
theorem hostCompletionTimeout (x0) : Statement (.hostCompletionTimeout x0) := by rintro w ⟨⟩
theorem ethernetTransmit (x0 x1) : Statement (.ethernetTransmit x0 x1) := by rintro w ⟨⟩
theorem ethernetReceive (x0 x1 x2) : Statement (.ethernetReceive x0 x1 x2) := by rintro w ⟨⟩
theorem ptpMessage (x0 x1) : Statement (.ptpMessage x0 x1) := by rintro w ⟨⟩
theorem clockDegradedExit : Statement .clockDegradedExit := by rintro w ⟨⟩
theorem boot (x0 x1) : Statement (.boot x0 x1) := by rintro w ⟨⟩
theorem selfTestReady (x0) : Statement (.selfTestReady x0) := by rintro w ⟨⟩
theorem thermalShutdown : Statement .thermalShutdown := by rintro w ⟨⟩
theorem clockDegradedEntry (x0) : Statement (.clockDegradedEntry x0) := by rintro w ⟨⟩
theorem goMarkedNow (x0) : Statement (.goMarkedNow x0) := by rintro w ⟨⟩
theorem bridgeLaneSwapDone (x0) : Statement (.bridgeLaneSwapDone x0) := by rintro w ⟨⟩
theorem lostResponseTimeout (x0) : Statement (.lostResponseTimeout x0) := by rintro w ⟨⟩
theorem powerCapping (x0) : Statement (.powerCapping x0) := by rintro w ⟨⟩

end Sys2Proof.Laws.Encoding
end

