-- ==== Sys2Proof/Laws/Traps.lean ====
section
/-!
SUPPORT. Taking a trap, said once (R344): what it leaves at each level, and where it kills the context.
-/
namespace Sys2Proof.Machine

/-! ## What a result that takes effect leaves alone -/

section Apply
variable (c : Core)

theorem setGFrom_eq (g : GReg) (q : Nat) (xs : List VWord) : ∃ v, c.setGFrom g q xs = { c with v := v } := by
  induction xs generalizing c q with
  | nil => exact ⟨c.v, rfl⟩
  | cons x rest ih =>
    obtain ⟨v, h⟩ := ih (c.setV (blockReg g q) x) (q + 1)
    exact ⟨v, h.trans rfl⟩

/-- A pending result changes the scalar and vector registers and the matrix engine alone. -/
theorem apply_eq (r : RegVal) : ∃ s v m, c.apply r = { c with s := s, v := v, mx := m } := by
  cases r with
  | s n w =>
    by_cases h : n = 0
    · exact ⟨c.s, c.v, c.mx, by simp [Core.apply, Core.setS, h]⟩
    · refine ⟨c.s.set n.toNat w n.isLt, c.v, c.mx, ?_⟩
      simp only [Core.apply, Core.setS, if_neg h]
  | v n x => exact ⟨c.s, _, c.mx, rfl⟩
  | g n xs =>
    obtain ⟨v, h⟩ := setGFrom_eq c n 0 xs
    exact ⟨c.s, v, c.mx, h⟩
  | t n id => exact ⟨c.s, c.v, _, rfl⟩

theorem foldl_apply_eq (rs : List RegVal) : ∃ s v m, rs.foldl Core.apply c = { c with s := s, v := v, mx := m } := by
  induction rs generalizing c with
  | nil => exact ⟨c.s, c.v, c.mx, rfl⟩
  | cons r rest ih =>
    obtain ⟨s, v, m, h⟩ := apply_eq c r
    obtain ⟨s', v', m', h'⟩ := ih (c.apply r)
    exact ⟨s', v', m', by rw [List.foldl_cons, h', h]⟩

/-- Closing the windows changes the scalar and vector registers, the matrix engine and the pending results alone. -/
theorem closeWindows_eq : ∃ s v m ps, c.closeWindows = { c with s := s, v := v, mx := m, pend := ps } := by
  obtain ⟨s, v, m, h⟩ := foldl_apply_eq { c with pend := (duePends (c.pend.map fun p => { p with left := 0 })).2 }
    (duePends (c.pend.map fun p => { p with left := 0 })).1
  exact ⟨s, v, m, _, h⟩

end Apply

section Traps
variable {s : State} {c code : Nat} {pcv : BitVec 52} {val : Word}

/-- A trap at level 2 kills the context with reason 1. -/
theorem takeTrap_level2 (hk : (s.coreAt c).trig.kind ≠ 1) (hl : (s.coreAt c).tlv = 2) :
    s.takeTrap c code pcv val = s.kill ((s.coreAt c).ctx.getD 0) 1 0 := by
  simp [State.takeTrap, hk, hl]

/-- A trap without a handler base kills the context with reason 2. -/
theorem takeTrap_no_handler (hk : (s.coreAt c).trig.kind ≠ 1) (hl : (s.coreAt c).tlv.toNat ≠ 2)
    (hb : fld (s.coreAt c).tvec 51 8 = 0) : s.takeTrap c code pcv val = s.kill ((s.coreAt c).ctx.getD 0) 2 0 := by
  simp [State.takeTrap, hk, hl, hb]

/-- A trap in a sprinkle handler makes it fail (R225). -/
theorem takeTrap_sprinkle (hk : (s.coreAt c).trig.kind = 1) : s.takeTrap c code pcv val = s.sprinkleFail c := by
  simp [State.takeTrap, hk]

/-- A trap at level 0 saves into the registers of level 1 and goes to the handler's base; nothing but the core changes. -/
theorem takeTrap_level0 (hk : (s.coreAt c).trig.kind ≠ 1) (hl : (s.coreAt c).tlv = 0) (hb : fld (s.coreAt c).tvec 51 8 ≠ 0) :
    ∃ x, s.takeTrap c code pcv val = s.setCoreAt c x ∧ x.tlv = 1 ∧ x.pc = BitVec.ofNat 52 (fld (s.coreAt c).tvec 51 8 * 256) ∧
      x.t1 = { (s.coreAt c).t1 with cause := word (flag (s.coreAt c).rev 8 + code), pc := word (pcv.toNat / 4 * 4), val := val } ∧
      x.t2 = (s.coreAt c).t2 := by
  obtain ⟨r, v, m, ps, h⟩ := closeWindows_eq (s.coreAt c)
  refine ⟨(s.takeTrap c code pcv val).coreAt c, ?_, ?_, ?_, ?_, ?_⟩ <;> simp [State.takeTrap, hk, hl, hb, h]

end Traps

end Sys2Proof.Machine
end

