-- ==== Sys2Proof/Tests/Slice0.lean ====
section
/-!
SUPPORT. Tests of the model: the checks of WellFormed, words written out from the encoding tables of the spec, single steps on
small states with results computed by hand from the spec, and for each statement a state that meets its hypotheses.
-/
set_option maxRecDepth 100000

namespace Sys2Proof.Machine.Tests

/-! ## Small states -/

/-- A part passes: Gives holds of it, for the answer and the state that it has. -/
def passes {α : Type} (m : M α) (s : State) : Bool :=
  match m s with
  | .ok _ => true
  | .error _ => false

/-- The state that a part leaves. -/
def after {α : Type} (m : M α) (s : State) : State :=
  match m s with
  | .ok (_, t) => t
  | .error t => t

/-- The answer of a part that passes. -/
def value {α : Type} (m : M α) (d : α) (s : State) : α :=
  match m s with
  | .ok (a, _) => a
  | .error _ => d

theorem gives_of_passes {α : Type} {m : M α} {s : State} (d : α) (h : passes m s = true) : Gives m s (value m d s) (after m s) := by
  unfold passes at h
  unfold Gives value after
  split at h
  · rename_i p e; rw [e]
  · cases h

/-- The state that an instruction leaves. -/
def next (i : Instr) (s : State) : State :=
  match exec i s with
  | .next t => t
  | _ => s

/-- The scalar registers of the small states: addresses in the own local store in s1 to s4, and numbers. -/
def regs : Vector Word 64 :=
  (((((((((((Vector.replicate 64 0).set 1 0x000E000000001000).set 2 0x000E000000002000).set 3 0x000E000000003000).set 4
    0x000E000000004000).set 5 7).set 6 (-9)).set 7 0x100000005).set 8 1).set 9 2).set 10 8).set 61 0x40

/-- A core that runs an activation of context 0. -/
def core0 : Core := { s := regs, phase := .running, ctx := some 0, ready := true, tvec := 0x10000 }

/-- A machine of one core and one privileged context, which has groups 0 and 1; its HBM is ready. -/
def small : State :=
  { cores := [(0, core0)],
    dies := (List.range 8).map (fun d => (d, { slices := List.range 32 })), pkg := { hbm := List.range 16 },
    ctxs := [(0, { live := true, privileged := true, groups := [(0, [(0, 15)]), (1, [(0, 3)])] })] }

/-- The small machine with another core. -/
def on (f : Core → Core) : State := small.setCore (f core0)

/-- The small machine with bytes in the own local store. -/
def stored (off : Nat) (bs : List Byte) : State := small.writePa (lsPa small 0 off) bs

/-- Doublewords as bytes. -/
def words (ws : List Nat) : List Byte := ws.flatMap fun w => toBytes 8 w

/-- The small machine whose page 0 is mapped to 0x50000 on die 0 with rd, w and x, by tables from 0x4000 on. -/
def paged : State :=
  ((((({ small with ctxs := [(0, { small.ctxAt 0 with ptbase := 0x4001 })] } : State).write64 0x4000 0x10001).write64 0x10000 0x20001).write64
    0x20000 0x30001).write64 0x30000 0x5001E).write64 0x30008 1

/-- The same machine with its core changed. -/
def pagedOn (f : Core → Core) : State := paged.setCore (f core0)

/-! ## Well-formed instructions -/

/-- Each check of WellFormed refuses an ill-formed instruction: a number one past its range, and the wrong length. -/
theorem test_ill_formed : ∀ i ∈ [
    Instr.dispatch 4096, .ctxctlKill 64, .pageWalkComplete 8 0 0, .pageWalkComplete 0 0 (2 ^ 36), .taskDeadline 0 (2 ^ 52),
    .invalidation 1 0, .invalidation (2 ^ 52) 0, .invalidation 0 40, .chainPageCopy 0 256, .launchBatch 0 64 0,
    .linkUnreachable 1024 0, .mbxTenantKey 0 4096 {} true, .mbxHealthLog 16 0, .messageArrival { pay := [] },
    .messageArrival { pay := List.replicate 8 0, tag := 64 }, .messageArrival { pay := List.replicate 8 0, kind := 6 },
    .messageArrival { pay := List.replicate 8 0, fplen := 65537 },
    .homeSliceAccess { pa := 60, len := 8 }, .homeSliceAccess { pa := 63, len := 0, data := [0, 0] },
    .atomicAtHome { fn := 13 }, .atomicAtHome { width := 2 }, .atomicAtHome { pa := 4 }, .atomicAtHome { dest := 64 },
    .atomicAtHome { la := 16 }, .watchArmAtHome { tag := 64 }, .watchArmAtHome { width := 16 }, .chainAcknowledgement { hop := 5 },
    .postArrival { nslot := 8 }, .postArrival { noff := 0x40000 }, .postArrival { dim := 0 }, .postArrival { dim := 9 },
    .postArrival { eta := [] }, .taskAtHome { op := 8 }, .launchTrigger { n := 64 }, .gatePost { id := 2 ^ 32 },
    .gatePost { action := 4 }, .gatePost { guard := 1000000001 }, .pgInvalCompletion { first := 2 ^ 36 },
    .pgPinCompletion { va := 2 ^ 52 }, .ualinkRequest { share := 32, body := .mem {} }, .ualinkRequest { body := .trig { n := 64 } },
    .errorRetry (.inbox 0 64) false, .errorRetry (.crumb 257 0 true) false, .errorRetry (.way 0 32 0) false,
    .errorRetry (.lane 12) false, .linkRemoval (.mesh 0 0 0), .linkRemoval (.mesh 0 0 6), .linkRemoval (.router 257),
    .linkRemoval (.bridge 12), .linkRemoval (.ualink 24), .selfTestReady (.slice 0 32), .selfTestReady (.hbm 16),
    .selfTestReady (.ualink 24), .selfTestReady (.ether 2), .combineRequest 257 0 {}, .combineRequest 0 34 {}, .copyBeat 0 4,
    .queueWordArrival 0 4 {}, .queueWordArrival 0 0 { ctx := 64 }, .barrierRelease 0 0 0 (2 ^ 24), .indexAcknowledgement 0 0 (2 ^ 48), .gateGo (2 ^ 44) false,
    .hostTriggerRecord 0 4095 [0, 0], .mbxAttest 0 [], .mbxReserveRange 0 0 0 0x180000 1, .mbxUnlistedCommand 0 7,
    .ethernetTransmit 2 0, .ethernetReceive 0 64 [], .bridgeLaneSwapDone 12], wellFormed i = false := by decide

/-- The greatest number of each range is well-formed. -/
theorem test_well_formed : ∀ i ∈ [
    Instr.dispatch 4095, .ctxctlKill 63, .pageWalkComplete 7 63 (2 ^ 36 - 1), .invalidation (2 ^ 52 - 64) 39, .launchBatch 63 63 7,
    .messageArrival { pay := List.replicate 8 0, tag := 63, kind := 5 }, .homeSliceAccess { pa := 56, len := 8 },
    .atomicAtHome { fn := 12, width := 4, pa := 4, dest := 63, la := 15 }, .gatePost { id := 2 ^ 32 - 1, action := 3 },
    .mbxReserveRange 15 4095 7 0x17FFFF 1, .saAdd 63 (.lit (-32)) (.const 63)], wellFormed i = true := by decide

/-! ## Words (Tables 1.1, 1.7 and 1.10) -/

/-- The worked encodings of Table 1.10. -/
theorem test_worked_encodings : ∀ p ∈ ([(0x083F01E0, .saAdd 63 (.reg 1) (.lit (-32))), (0x648741C0, .vcFlt 7 (.vec 1) (.lit 0)),
    (0x88387848, .gmAdd 7 7 1), (0x2441103F, .siShr 4 4 63), (0x4DBC7FA0, .ldD 15 7 62 (-32)), (0x3540E000, .brLe 3 (-8192)),
    (0x3A000000, .jmp (-0x2000000)), (0x54485187, .atAddcb 2 5 6 7), (0x04090000, .fenceRel 1), (0x00051443, .sysGet 5 0x043)] :
    List (BitVec 32 × Instr)), decodeWord p.1 = .ok p.2 := by decide

/-- The words of the first example program of chapter 18. -/
theorem test_program_words : ∀ p ∈ ([(0x14600000, .siAdd 6 0 0), (0x203C4001, .siXor 3 49 1), (0x8C804C03, .fgSlot 0 4 48 3),
    (0x0C440480, .sbOr 4 (.reg 4) (.const 0)), (0x0C423080, .sbOr 2 (.reg 48) (.const 0)), (0x4E008082, .ldVt 0 8 2 2),
    (0x4E018100, .ldVt 0 24 4 0), (0x88204850, .gmAdd 4 1 2), (0x5C814180, .vaFmul 1 (.vec 1) (.const 0)), (0x7D000000, .msEnd)] :
    List (BitVec 32 × Instr)), decodeWord p.1 = .ok p.2 := by decide

/-- Words that are no instruction: a reserved major, an unlisted function, and a block operand that names no block. -/
theorem test_undefined_words : decodeWord 0xA8000000 = .error .reserved ∧ decodeWord 0x13000000 = .error .reserved ∧
    decodeWord 0x88387849 = .error .illegal ∧ decodeWord 0x2441107F = .error .illegal := by decide

/-- The trl words read no field, and functions 3 to 15 are reserved (R26, R27, R328). -/
theorem test_decode_trl_fields : decodeWord 0xA43FFFFF = .ok .trlLead ∧ decodeWord 0xA47FFFFF = .ok .trlJoin ∧
    decodeWord 0xA4BFFFFF = .ok .trlQuit ∧ ∀ fn < 16, 3 ≤ fn → decodeWord (0xA4000000 + BitVec.ofNat 32 (fn * 2 ^ 22)) = .error .reserved := by
  decide

/-- The words of sys: the fields of Table 1.1 at the places that opcode_table.json gives them. -/
theorem test_decode_sys : ∀ p ∈ ([
    (0x00000000, .sysInv),
    (0x00010000, .sysNop),
    (0x000217A5, .sysBrk 6053),
    (0x00038BD3, .sysTrap 35795),
    (0x00040000, .sysEret),
    (0x00054E93, .sysGet 19 659),
    (0x00062749, .sysPut 9 841),
    (0x000797A5, .sysSet 37 933),
    (0x00084FD3, .sysClr 19 979),
    (0x0009C5E9, .sysKill 50665)] : List (BitVec 32 × Instr)), decodeWord p.1 = .ok p.2 := by decide

/-- The words of fence: the fields of Table 1.1 at the places that opcode_table.json gives them. -/
theorem test_decode_fence : ∀ p ∈ ([
    (0x04030000, .fenceFull 3),
    (0x04050000, .fenceAcq 1),
    (0x04090000, .fenceRel 1),
    (0x040F0000, .fenceEng 3)] : List (BitVec 32 × Instr)), decodeWord p.1 = .ok p.2 := by decide

/-- The words of sa: the fields of Table 1.1 at the places that opcode_table.json gives them. -/
theorem test_decode_sa : ∀ p ∈ ([
    (0x08099CE7, .saAdd 9 (.const 28) (.lit 39)),
    (0x084EE12C, .saSub 14 (.lit 33) (.reg 44)),
    (0x089326B1, .saMul 19 (.reg 38) (.const 49)),
    (0x08D8ABF6, .saMulh 24 (.const 43) (.lit 54)),
    (0x091DF03B, .saMulhn 29 (.lit 48) (.reg 59)),
    (0x09623580, .saDiv 34 (.reg 53) (.const 0)),
    (0x09A7BAC5, .saDivn 39 (.const 58) (.lit 5)),
    (0x09ECFF0A, .saRem 44 (.lit 63) (.reg 10)),
    (0x0A31048F, .saRemn 49 (.reg 4) (.const 15)),
    (0x0A7689D4, .saMin 54 (.const 9) (.lit 20)),
    (0x0ABBCE19, .saMax 59 (.lit 14) (.reg 25)),
    (0x0AC0139E, .saMinn 0 (.reg 19) (.const 30)),
    (0x0B0598E3, .saMaxn 5 (.const 24) (.lit 35)),
    (0x0B4ADD28, .saPadd 10 (.lit 29) (.reg 40)),
    (0x0B8F2200, .saAbs 15 (.reg 34)),
    (0x0BD4A700, .saNeg 20 (.const 39))] : List (BitVec 32 × Instr)), decodeWord p.1 = .ok p.2 := by decide

/-- The words of sb: the fields of Table 1.1 at the places that opcode_table.json gives them. -/
theorem test_decode_sb : ∀ p ∈ ([
    (0x0C099CE7, .sbAnd 9 (.const 28) (.lit 39)),
    (0x0C4EE12C, .sbOr 14 (.lit 33) (.reg 44)),
    (0x0C9326B1, .sbXor 19 (.reg 38) (.const 49)),
    (0x0CD8ABF6, .sbAndn 24 (.const 43) (.lit 54)),
    (0x0D1DF03B, .sbShl 29 (.lit 48) (.reg 59)),
    (0x0D623580, .sbShr 34 (.reg 53) (.const 0)),
    (0x0DA7BAC5, .sbSra 39 (.const 58) (.lit 5)),
    (0x0DECFF0A, .sbRot 44 (.lit 63) (.reg 10)),
    (0x0E310400, .sbClz 49 (.reg 4)),
    (0x0E768900, .sbCtz 54 (.const 9)),
    (0x0EBBCE00, .sbPop 59 (.lit 14)),
    (0x0EC0139E, .sbSeq 0 (.reg 19) (.const 30)),
    (0x0F0598E3, .sbSne 5 (.const 24) (.lit 35)),
    (0x0F4ADD28, .sbSlt 10 (.lit 29) (.reg 40)),
    (0x0F8F22AD, .sbSltn 15 (.reg 34) (.const 45)),
    (0x0FD4A7F2, .sbSel 20 (.const 39) (.lit 50))] : List (BitVec 32 × Instr)), decodeWord p.1 = .ok p.2 := by decide

/-- The words of sw: the fields of Table 1.1 at the places that opcode_table.json gives them. -/
theorem test_decode_sw : ∀ p ∈ ([
    (0x10099CE7, .swAdd 9 (.const 28) (.lit 39)),
    (0x104EE12C, .swSub 14 (.lit 33) (.reg 44)),
    (0x109326B1, .swMul 19 (.reg 38) (.const 49)),
    (0x10D8ABF6, .swDiv 24 (.const 43) (.lit 54)),
    (0x111DF03B, .swDivn 29 (.lit 48) (.reg 59)),
    (0x11623580, .swRem 34 (.reg 53) (.const 0)),
    (0x11A7BAC5, .swRemn 39 (.const 58) (.lit 5)),
    (0x11ECFF0A, .swShl 44 (.lit 63) (.reg 10)),
    (0x1231048F, .swShr 49 (.reg 4) (.const 15)),
    (0x127689D4, .swSra 54 (.const 9) (.lit 20)),
    (0x12BBCE19, .swMin 59 (.lit 14) (.reg 25)),
    (0x12C0139E, .swMax 0 (.reg 19) (.const 30))] : List (BitVec 32 × Instr)), decodeWord p.1 = .ok p.2 := by decide

/-- The words of si: the fields of Table 1.1 at the places that opcode_table.json gives them. -/
theorem test_decode_si : ∀ p ∈ ([
    (0x14951E93, .siAdd 9 20 7827),
    (0x18E66F49, .siAnd 14 25 12105),
    (0x1D3797A5, .siOr 19 30 6053),
    (0x2188CBD3, .siXor 24 35 3027),
    (0x25DA0029, .siShl 29 40 41),
    (0x262B5013, .siShr 34 45 19),
    (0x267CA009, .siSra 39 50 9),
    (0x26CDF025, .siRot 44 55 37),
    (0x2B1F0BD3, .siSlt 49 60 3027)] : List (BitVec 32 × Instr)), decodeWord p.1 = .ok p.2 := by decide

/-- The words of li: the fields of Table 1.1 at the places that opcode_table.json gives them. -/
theorem test_decode_li : ∀ p ∈ ([
    (0x2C9C5E93, .liHi 9 810643),
    (0x30E62F49, .liTop 14 405321)] : List (BitVec 32 × Instr)), decodeWord p.1 = .ok p.2 := by decide

/-- The words of br: the fields of Table 1.1 at the places that opcode_table.json gives them. -/
theorem test_decode_br : ∀ p ∈ ([
    (0x34025E93, .brEq 9 7827),
    (0x3443AF49, .brNe 14 12105),
    (0x3484D7A5, .brLt 19 6053),
    (0x34C60BD3, .brGe 24 3027),
    (0x350745E9, .brGt 29 1513),
    (0x35489E93, .brLe 34 7827),
    (0x35806F49, .brAny 1 12105),
    (0x35C197A5, .brNone 6 6053),
    (0x36000BD3, .brAlways 3027)] : List (BitVec 32 × Instr)), decodeWord p.1 = .ok p.2 := by decide

/-- The words of jx: the fields of Table 1.1 at the places that opcode_table.json gives them. -/
theorem test_decode_jx : ∀ p ∈ ([
    (0x3AAC5E93, .jmp 44850835),
    (0x3D562F49, .call 22425417),
    (0x4000DB00, .jxJr (.lit 27)),
    (0x4058AB00, .jxCallr 24 (.const 43)),
    (0x40800000, .jxRet)] : List (BitVec 32 × Instr)), decodeWord p.1 = .ok p.2 := by decide

/-- The words of lp: the fields of Table 1.1 at the places that opcode_table.json gives them. -/
theorem test_decode_lp : ∀ p ∈ ([
    (0x44025E93, .lpDo 9 7827)] : List (BitVec 32 × Instr)), decodeWord p.1 = .ok p.2 := by decide

/-- The words of pr: the fields of Table 1.1 at the places that opcode_table.json gives them. -/
theorem test_decode_pr : ∀ p ∈ ([
    (0x4803E003, .prAnd 3 (.lit 32) (.pred 3)),
    (0x484005E0, .prOr 0 (.pred 5) (.lit 32)),
    (0x4885E205, .prXor 5 (.lit 34) (.pred 5)),
    (0x48C20700, .prNot 2 (.pred 7)),
    (0x4907A500, .prSet 7 (.const 37)),
    (0x49620100, .prGet 34 (.pred 1)),
    (0x49A7E600, .prCnt 39 (.lit 38)),
    (0x49EC0300, .prFirst 44 (.pred 3))] : List (BitVec 32 × Instr)), decodeWord p.1 = .ok p.2 := by decide

/-- The words of ld: the fields of Table 1.1 at the places that opcode_table.json gives them. -/
theorem test_decode_ld : ∀ p ∈ ([
    (0x4C0D47D3, .ldB 3 20 31 19),
    (0x4C659909, .ldBn 9 25 36 9),
    (0x4C95EA65, .ldH 5 30 41 37),
    (0x4CCE3B93, .ldHn 3 35 46 19),
    (0x4D268CE9, .ldW 9 40 51 41),
    (0x4D4EDE13, .ldWn 3 45 56 19),
    (0x4DA72F49, .ldD 9 50 61 9),
    (0x4DD770A5, .ldV 5 55 2 37),
    (0x4E0FC1D3, .ldVt 3 60 7 19),
    (0x4E641329, .ldAcq 9 1 12 41),
    (0x4E8C6453, .ldDev 3 6 17 19)] : List (BitVec 32 × Instr)), decodeWord p.1 = .ok p.2 := by decide

/-- The words of st: the fields of Table 1.1 at the places that opcode_table.json gives them. -/
theorem test_decode_st : ∀ p ∈ ([
    (0x50009513, .stB 9 20 19),
    (0x5040E649, .stH 14 25 9),
    (0x508137A5, .stW 19 30 37),
    (0x50C188D3, .stD 24 35 19),
    (0x5101DA29, .stV 29 40 41),
    (0x51422B53, .stVm 34 45 19),
    (0x51827C89, .stVt 39 50 9),
    (0x51C2CDE5, .stRel 44 55 37),
    (0x52031F13, .stDev 49 60 19)] : List (BitVec 32 × Instr)), decodeWord p.1 = .ok p.2 := by decide

/-- The words of at: the fields of Table 1.1 at the places that opcode_table.json gives them. -/
theorem test_decode_at : ∀ p ∈ ([
    (0x540D47EA, .atAdd 3 20 31 42),
    (0x5465992F, .atAddcb 9 25 36 47),
    (0x5495EA74, .atAnd 5 30 41 52),
    (0x54CE3BB9, .atOr 3 35 46 57),
    (0x55268CFE, .atXor 9 40 51 62),
    (0x554EDE03, .atMin 3 45 56 3),
    (0x55A72F48, .atMax 9 50 61 8),
    (0x55D7708D, .atMinn 5 55 2 13),
    (0x560FC1D2, .atMaxn 3 60 7 18),
    (0x56641317, .atSwp 9 1 12 23),
    (0x568C645C, .atCas 3 6 17 28),
    (0x56E4B5A1, .atFadd 9 11 22 33),
    (0x571506E6, .atRed 5 16 27 38),
    (0x574D582B, .atWatch 3 21 32 43)] : List (BitVec 32 × Instr)), decodeWord p.1 = .ok p.2 := by decide

/-- The words of atw: the fields of Table 1.1 at the places that opcode_table.json gives them. -/
theorem test_decode_atw : ∀ p ∈ ([
    (0x580D47EA, .atwAdd 3 20 31 42),
    (0x5865992F, .atwAddcb 9 25 36 47),
    (0x5895EA74, .atwAnd 5 30 41 52),
    (0x58CE3BB9, .atwOr 3 35 46 57),
    (0x59268CFE, .atwXor 9 40 51 62),
    (0x594EDE03, .atwMin 3 45 56 3),
    (0x59A72F48, .atwMax 9 50 61 8),
    (0x59D7708D, .atwMinn 5 55 2 13),
    (0x5A0FC1D2, .atwMaxn 3 60 7 18),
    (0x5A641317, .atwSwp 9 1 12 23),
    (0x5A8C645C, .atwCas 3 6 17 28),
    (0x5AE4B5A1, .atwFadd 9 11 22 33),
    (0x5B1506E6, .atwRed 5 16 27 38),
    (0x5B4D582B, .atwWatch 3 21 32 43)] : List (BitVec 32 × Instr)), decodeWord p.1 = .ok p.2 := by decide

/-- The words of va: the fields of Table 1.1 at the places that opcode_table.json gives them. -/
theorem test_decode_va : ∀ p ∈ ([
    (0x5C095CA7, .vaFadd 9 (.vec 28) (.const 39)),
    (0x5C4EA1EC, .vaFsub 14 (.const 33) (.lit 44)),
    (0x5C93E631, .vaFmul 19 (.lit 38) (.reg 49)),
    (0x5CD82B76, .vaFma 24 (.reg 43) (.vec 54)),
    (0x5D1D70BB, .vaFms 29 (.vec 48) (.const 59)),
    (0x5D62B5C0, .vaFmin 34 (.const 53) (.lit 0)),
    (0x5DA7FA05, .vaFmax 39 (.lit 58) (.reg 5)),
    (0x5DEC3F00, .vaFabs 44 (.reg 63)),
    (0x5E314400, .vaFneg 49 (.vec 4)),
    (0x5E768900, .vaFrcp 54 (.const 9)),
    (0x5EBBCE00, .vaFrsq 59 (.lit 14)),
    (0x5EC01300, .vaFsqrt 0 (.reg 19)),
    (0x5F0558A3, .vaFdiv 5 (.vec 24) (.const 35))] : List (BitVec 32 × Instr)), decodeWord p.1 = .ok p.2 := by decide

/-- The words of vi: the fields of Table 1.1 at the places that opcode_table.json gives them. -/
theorem test_decode_vi : ∀ p ∈ ([
    (0x60095CA7, .viAdd 9 (.vec 28) (.const 39)),
    (0x604EA1EC, .viSub 14 (.const 33) (.lit 44)),
    (0x6093E631, .viMul 19 (.lit 38) (.reg 49)),
    (0x60D82B76, .viMulh 24 (.reg 43) (.vec 54)),
    (0x611D70BB, .viAnd 29 (.vec 48) (.const 59)),
    (0x6162B5C0, .viOr 34 (.const 53) (.lit 0)),
    (0x61A7FA05, .viXor 39 (.lit 58) (.reg 5)),
    (0x61EC3F4A, .viShl 44 (.reg 63) (.vec 10)),
    (0x6231448F, .viShr 49 (.vec 4) (.const 15)),
    (0x627689D4, .viSra 54 (.const 9) (.lit 20)),
    (0x62BBCE19, .viMin 59 (.lit 14) (.reg 25)),
    (0x62C0135E, .viMax 0 (.reg 19) (.vec 30)),
    (0x630558A3, .viMinn 5 (.vec 24) (.const 35)),
    (0x634A9DE8, .viMaxn 10 (.const 29) (.lit 40))] : List (BitVec 32 × Instr)), decodeWord p.1 = .ok p.2 := by decide

/-- The words of vc: the fields of Table 1.1 at the places that opcode_table.json gives them. -/
theorem test_decode_vc : ∀ p ∈ ([
    (0x64035CA7, .vcFeq 3 (.vec 28) (.const 39)),
    (0x6440A1EC, .vcFne 0 (.const 33) (.lit 44)),
    (0x6485E631, .vcFlt 5 (.lit 38) (.reg 49)),
    (0x64C22B76, .vcFle 2 (.reg 43) (.vec 54)),
    (0x650770BB, .vcFun 7 (.vec 48) (.const 59)),
    (0x6544B5C0, .vcIeq 4 (.const 53) (.lit 0)),
    (0x6581FA05, .vcIlt 1 (.lit 58) (.reg 5)),
    (0x65C63F4A, .vcIltn 6 (.reg 63) (.vec 10))] : List (BitVec 32 × Instr)), decodeWord p.1 = .ok p.2 := by decide

/-- The words of vx: the fields of Table 1.1 at the places that opcode_table.json gives them. -/
theorem test_decode_vx : ∀ p ∈ ([
    (0x68095CA7, .vxBcast 9 (.vec 28) (.const 39)),
    (0x684EA1EC, .vxExtr 14 (.const 33) (.lit 44)),
    (0x6893E631, .vxIns 19 (.lit 38) (.reg 49)),
    (0x68D82B76, .vxPerm 24 (.reg 43) (.vec 54)),
    (0x691D70BB, .vxSel 29 (.vec 48) (.const 59)),
    (0x6962B5C0, .vxIota 34 (.const 53) (.lit 0)),
    (0x69A7FA05, .vxCvtif 39 (.lit 58) (.reg 5)),
    (0x69EC3F4A, .vxCvtfi 44 (.reg 63) (.vec 10)),
    (0x6A31448F, .vxCvtbh 49 (.vec 4) (.const 15)),
    (0x6A7689D4, .vxCvthb 54 (.const 9) (.lit 20)),
    (0x6ABBCE19, .vxCvtfh 59 (.lit 14) (.reg 25)),
    (0x6AC0135E, .vxCvthf 0 (.reg 19) (.vec 30)),
    (0x6B0558A3, .vxCvt8 5 (.vec 24) (.const 35)),
    (0x6B4A9DE8, .vxCvtq8 10 (.const 29) (.lit 40)),
    (0x6B8FE22D, .vxCvt4 15 (.lit 34) (.reg 45)),
    (0x6BD42772, .vxCvtq4 20 (.reg 39) (.vec 50))] : List (BitVec 32 × Instr)), decodeWord p.1 = .ok p.2 := by decide

/-- The words of vr: the fields of Table 1.1 at the places that opcode_table.json gives them. -/
theorem test_decode_vr : ∀ p ∈ ([
    (0x6C095CA7, .vrFsum 9 (.vec 28) (.const 39)),
    (0x6C4EA1EC, .vrFmax 14 (.const 33) (.lit 44)),
    (0x6C93E631, .vrFmin 19 (.lit 38) (.reg 49)),
    (0x6CD82B76, .vrIsum 24 (.reg 43) (.vec 54)),
    (0x6D1D70BB, .vrImax 29 (.vec 48) (.const 59)),
    (0x6D62B5C0, .vrImin 34 (.const 53) (.lit 0)),
    (0x6DA7FA05, .vrAnd 39 (.lit 58) (.reg 5)),
    (0x6DEC3F4A, .vrOr 44 (.reg 63) (.vec 10))] : List (BitVec 32 × Instr)), decodeWord p.1 = .ok p.2 := by decide

/-- The words of vg: the fields of Table 1.1 at the places that opcode_table.json gives them. -/
theorem test_decode_vg : ∀ p ∈ ([
    (0x700D47EA, .vgGat 3 20 31 42),
    (0x7040E664, .vgSca 14 25 36),
    (0x708137A9, .vgAtadd 19 30 41),
    (0x70C188EE, .vgAtfadd 24 35 46),
    (0x7101DA33, .vgAtmin 29 40 51),
    (0x71422B78, .vgAtmax 34 45 56),
    (0x71827CBD, .vgAtor 39 50 61)] : List (BitVec 32 × Instr)), decodeWord p.1 = .ok p.2 := by decide

/-- The words of mx: the fields of Table 1.1 at the places that opcode_table.json gives them. -/
theorem test_decode_mx : ∀ p ∈ ([
    (0x740C07EA, .mxMma 3 0 31 42),
    (0x7464192F, .mxMmas 9 1 36 47),
    (0x74942000, .mxZero 5 2),
    (0x74CC3B80, .mxLdacc 3 3 46),
    (0x75001A33, .mxStacc 1 40 51),
    (0x75402B78, .mxStsp 2 45 56),
    (0x75A42F48, .mxGang 9 2 61 8),
    (0x75C2CDC0, .mxCfg 44 55),
    (0x76001F07, .mxMask 1 60 7),
    (0x76400000, .mxDrain)] : List (BitVec 32 × Instr)), decodeWord p.1 = .ok p.2 := by decide

/-- The words of cp: the fields of Table 1.1 at the places that opcode_table.json gives them. -/
theorem test_decode_cp : ∀ p ∈ ([
    (0x7800951F, .cpGet 9 20 31),
    (0x7840E664, .cpPut 14 25 36),
    (0x788137A9, .cpGet2d 19 30 41),
    (0x78C188EE, .cpPut2d 24 35 46),
    (0x7901DA33, .cpFill 29 40 51),
    (0x79422B78, .cpNzpk 34 45 56),
    (0x79A72F40, .cpWptr 9 50 61),
    (0x79C2C000, .cpCancel 44)] : List (BitVec 32 × Instr)), decodeWord p.1 = .ok p.2 := by decide

/-- The words of ms: the fields of Table 1.1 at the places that opcode_table.json gives them. -/
theorem test_decode_ms : ∀ p ∈ ([
    (0x7C00951F, .msSend 9 20 31),
    (0x7C40E664, .msSendt 14 25 36),
    (0x7C8137A9, .msSpr 19 30 41),
    (0x7CC188EE, .msBcast 24 35 46),
    (0x7D000000, .msEnd),
    (0x7D4008AD, .msEndc 34 45),
    (0x7D827000, .msDefer 39)] : List (BitVec 32 × Instr)), decodeWord p.1 = .ok p.2 := by decide

/-- The words of tk: the fields of Table 1.1 at the places that opcode_table.json gives them. -/
theorem test_decode_tk : ∀ p ∈ ([
    (0x800D47EA, .tkNew 3 20 31 42),
    (0x80400380, .tkArr 14),
    (0x808004DE, .tkArrd 19 30),
    (0x80C00623, .tkDl 24 35),
    (0x81000740, .tkKill 29),
    (0x81400880, .tkBarr 34),
    (0x818009F2, .tkBwait 39 50)] : List (BitVec 32 × Instr)), decodeWord p.1 = .ok p.2 := by decide

/-- The words of tg: the fields of Table 1.1 at the places that opcode_table.json gives them. -/
theorem test_decode_tg : ∀ p ∈ ([
    (0x8400119C, .tgEn (.reg 17) (.const 28)),
    (0x84409600, .tgDis (.const 22)),
    (0x8480DB00, .tgPend (.lit 27)),
    (0x84C02000, .tgClr (.reg 32)),
    (0x851DF000, .tgGet 29 (.lit 48))] : List (BitVec 32 × Instr)), decodeWord p.1 = .ok p.2 := by decide

/-- The words of gm: the fields of Table 1.1 at the places that opcode_table.json gives them. -/
theorem test_decode_gm : ∀ p ∈ ([
    (0x88106840, .gmAdd 2 5 0),
    (0x88785068, .gmSub 7 2 5),
    (0x88A078B1, .gmDamp 4 7 (.const 49)),
    (0x88C860F6, .gmMarg 1 4 (.lit 54)),
    (0x89304800, .gmSol 6 1),
    (0x89587000, .gmCov 3 6),
    (0x898058C5, .gmLin 0 3 (.lit 5)),
    (0x89EC4058, .gmRes 44 0 3),
    (0x8A00F904, .gmConv (.lit 57) (.reg 4)),
    (0x8A768900, .gmRdro 54 (.const 9))] : List (BitVec 32 × Instr)), decodeWord p.1 = .ok p.2 := by decide

/-- The words of fg: the fields of Table 1.1 at the places that opcode_table.json gives them. -/
theorem test_decode_fg : ∀ p ∈ ([
    (0x8C0D47EA, .fgAttach 3 20 31 42),
    (0x8C40E640, .fgDetach 14 25),
    (0x8C95EA74, .fgSlot 5 30 41 52),
    (0x8CC088EE, .fgPost 1 35 46),
    (0x8D268CFE, .fgGen 9 40 51 62)] : List (BitVec 32 × Instr)), decodeWord p.1 = .ok p.2 := by decide

/-- The words of ch: the fields of Table 1.1 at the places that opcode_table.json gives them. -/
theorem test_decode_ch : ∀ p ∈ ([
    (0x9000951F, .chLink 9 20 31),
    (0x9040E664, .chUnlink 14 25 36),
    (0x908137A9, .chRelink 19 30 41),
    (0x90CE3BB9, .chStat 3 35 46 57),
    (0x91268CC0, .chTail 9 40 51),
    (0x9142202D, .chClean 34 45)] : List (BitVec 32 × Instr)), decodeWord p.1 = .ok p.2 := by decide

/-- The words of rg: the fields of Table 1.1 at the places that opcode_table.json gives them. -/
theorem test_decode_rg : ∀ p ∈ ([
    (0x940D47C0, .rgAcq 3 20 31),
    (0x94400399, .rgCmt 14 25),
    (0x9495EA40, .rgPeek 5 30 41),
    (0x94C00600, .rgRel 24)] : List (BitVec 32 × Instr)), decodeWord p.1 = .ok p.2 := by decide

/-- The words of qp: the fields of Table 1.1 at the places that opcode_table.json gives them. -/
theorem test_decode_qp : ∀ p ∈ ([
    (0x9800119C, .qpCtl (.reg 17) (.const 28)),
    (0x984EE100, .qpStat 14 (.lit 33)),
    (0x9880DB26, .qpCatch (.lit 27) (.reg 38))] : List (BitVec 32 × Instr)), decodeWord p.1 = .ok p.2 := by decide

/-- The words of gl: the fields of Table 1.1 at the places that opcode_table.json gives them. -/
theorem test_decode_gl : ∀ p ∈ ([
    (0x9C009500, .glArm 9 20),
    (0x9C40E000, .glDisarm 14),
    (0x9C813780, .glTrig 19 30),
    (0x9CC18000, .glGate 24),
    (0x9D268CC0, .glIdx 9 40 51),
    (0x9D4EDE00, .glGrp 3 45 56)] : List (BitVec 32 × Instr)), decodeWord p.1 = .ok p.2 := by decide

/-- The words of pg: the fields of Table 1.1 at the places that opcode_table.json gives them. -/
theorem test_decode_pg : ∀ p ∈ ([
    (0xA000951F, .pgInval 9 20 31),
    (0xA040E000, .pgReplay 14),
    (0xA095EA40, .pgFbrd 5 30 41),
    (0xA0C188EE, .pgPin 24 35 46),
    (0xA101DA33, .pgHint 29 40 51)] : List (BitVec 32 × Instr)), decodeWord p.1 = .ok p.2 := by decide

/-- The words of trl: the fields of Table 1.1 at the places that opcode_table.json gives them. -/
theorem test_decode_trl : ∀ p ∈ ([
    (0xA4000000, .trlLead),
    (0xA4400000, .trlJoin),
    (0xA4800000, .trlQuit)] : List (BitVec 32 × Instr)), decodeWord p.1 = .ok p.2 := by decide

/-! ## Scalar instructions -/

/-- Hand calculation from R177 to R182, and the examples of R64. -/
theorem test_scalar_results :
    (next (.saAdd 20 (.reg 6) (.lit 10)) small).core.getS 20 = 1 ∧ (next (.saSub 20 (.lit 3) (.lit 5)) small).core.getS 20 = -2 ∧
    (next (.saMulh 20 (.lit (-1)) (.lit 1)) small).core.getS 20 = -1 ∧ (next (.saMulhn 20 (.lit (-1)) (.lit 2)) small).core.getS 20 = 1 ∧
    (next (.saDiv 20 (.reg 6) (.lit 2)) small).core.getS 20 = -4 ∧ (next (.saRem 20 (.reg 6) (.lit 2)) small).core.getS 20 = -1 ∧
    (next (.saDivn 20 (.reg 6) (.lit 2)) small).core.getS 20 = 0x7FFFFFFFFFFFFFFB ∧
    (next (.saMin 20 (.lit (-1)) (.lit 1)) small).core.getS 20 = -1 ∧ (next (.saMinn 20 (.lit (-1)) (.lit 1)) small).core.getS 20 = 1 ∧
    (next (.saAbs 20 (.reg 6)) small).core.getS 20 = 9 ∧ (next (.sbSra 20 (.reg 6) (.lit 1)) small).core.getS 20 = -5 ∧
    (next (.sbShr 20 (.lit (-1)) (.lit (-4))) small).core.getS 20 = 0xF ∧ (next (.sbRot 20 (.lit 1) (.lit 1)) small).core.getS 20 = 0x8000000000000000 ∧
    (next (.sbClz 20 (.lit 0)) small).core.getS 20 = 64 ∧ (next (.sbClz 20 (.lit 1)) small).core.getS 20 = 63 ∧
    (next (.sbCtz 20 (.lit 0)) small).core.getS 20 = 64 ∧ (next (.sbCtz 20 (.lit 12)) small).core.getS 20 = 2 ∧
    (next (.sbPop 20 (.lit (-1))) small).core.getS 20 = 64 ∧ (next (.sbSel 5 (.lit 1) (.lit 2)) small).core.getS 5 = 1 ∧
    (next (.sbSel 20 (.lit 1) (.lit 2)) small).core.getS 20 = 2 ∧ (next (.swAdd 20 (.reg 7) (.lit (-6))) small).core.getS 20 = -1 ∧
    (next (.swShr 20 (.lit (-1)) (.lit 0)) small).core.getS 20 = -1 ∧ (next (.siAdd 20 5 (-8)) small).core.getS 20 = -1 ∧
    (next (.siSlt 20 6 (-8)) small).core.getS 20 = 1 ∧ (next (.liHi 20 0xFFFFF) small).core.getS 20 = 0xFFFFFFFFFFFFC000 ∧
    (next (.liTop 5 0xE) small).core.getS 5 = 0x0000E00000000007 ∧ (next (.saAdd 0 (.lit 1) (.lit 1)) small).core.getS 0 = 0 := by decide

/-- The pointer of R64's example: an offset of -0x40 keeps the tag, and one of 0x40 leaves 52 bits and traps with it. -/
theorem test_padd :
    let s := on fun c => c.setS 20 0x150FFFFFFFFFFFC0
    (next (.siAdd 21 0 (-64)) s).core.getS 21 = -64 ∧
    (next (.saPadd 22 (.reg 20) (.reg 21)) (next (.siAdd 21 0 (-64)) s)).core.getS 22 = 0x150FFFFFFFFFFF80 ∧
    (next (.saPadd 22 (.reg 20) (.reg 21)) (next (.siAdd 21 0 64) s)).core.t1.cause = 0x107 ∧
    (next (.saPadd 22 (.reg 20) (.reg 21)) (next (.siAdd 21 0 64) s)).core.t1.val = 0x150FFFFFFFFFFFC0 := by decide

/-- The most negative value by -1: no trap, the quotient is the most negative value and the remainder 0 (R178). -/
theorem test_division_corner :
    let s := on fun c => c.setS 20 0x8000000000000000
    (next (.saDiv 21 (.reg 20) (.lit (-1))) s).core.getS 21 = 0x8000000000000000 ∧
    (next (.saRem 5 (.reg 20) (.lit (-1))) s).core.getS 5 = 0 := by decide

/-- A word taken from a queue port twice (R14), and a result to one. -/
theorem test_ports :
    let s := on fun c => { c with rev := false, trig := { c.trig with dcore := 0 } }.setFifo 1 [5#65, 3#65]
    (next (.saSub 20 (.reg 57) (.reg 57)) s).core.getS 20 = 2 ∧ ((next (.saSub 20 (.reg 57) (.reg 57)) s).core.fifo 1) = [] := by decide

theorem witness_scalar :
    passes (openPorts (some 3) (srcNames (.reg 1) ++ srcNames (.reg 2))) small = true ∧
    passes (openPorts (some 3) (srcNames (.reg 1))) small = true ∧ passes (openPorts (some 3) [1]) small = true ∧
    passes (openPorts (some 3) []) small = true ∧ passes (openPorts (some 3) [3]) small = true ∧
    passes (openPorts (some 3) (srcNames (.reg 1) ++ srcNames (.reg 2) ++ [3])) small = true ∧
    passes (openPorts (some 3) (srcNames (.reg 57) ++ srcNames (.reg 57))) (on fun c => c.setFifo 1 [5#65, 3#65]) = true := by decide

/-- The divisors of ScalarDivision: a nonzero one of each width, and zero of each. -/
theorem witness_division : small.b (.reg 1) (.reg 5) ≠ 0 ∧ (small.b (.reg 1) (.reg 5)).setWidth 32 ≠ (0 : Lane) ∧
    small.b (.reg 1) (.reg 0) = 0 ∧ (small.b (.reg 1) (.reg 0)).setWidth 32 = (0 : Lane) ∧
    (on fun c => c.setS 5 0x100000000).b (.reg 1) (.reg 5) ≠ 0 ∧ ((on fun c => c.setS 5 0x100000000).b (.reg 1) (.reg 5)).setWidth 32 = (0 : Lane) := by
  decide

/-- The bounds of ScalarLogic: a sum at both ends of 52 bits and past them, and counts of zeros at both ends. -/
theorem witness_logic :
    (let sum := fun (a b : Word) => ((a.toNat % 2 ^ 52 : Nat) : Int) + b.toInt
     sum 0 0 = 0 ∧ sum 0xFFFFFFFFFFFFF 0 < 2 ^ 52 ∧ sum 0 (-1) < 0 ∧ 2 ^ 52 ≤ sum 0xFFFFFFFFFFFFF 1) ∧
    (small.a (.reg 0)).toNat < 2 ^ (64 - 64) ∧ 2 ^ (63 - 0) ≤ (small.a (.reg 6)).toNat ∧
    (∀ j < 64, (small.a (.reg 0)).getLsbD j = false) ∧ (small.a (.reg 6)).getLsbD 0 = true := by decide

/-- An instruction of ScalarFrame that retires, with a destination and with s0. -/
theorem witness_scalar_frame : scalarForm (.saAdd 3 (.reg 1) (.reg 2)) = some (3, [1, 2]) ∧ portsOf ([3, 1, 2] : List SReg) = [] ∧
    exec (.saAdd 3 (.reg 1) (.reg 2)) small = .next (next (.saAdd 3 (.reg 1) (.reg 2)) small) ∧
    (next (.saAdd 3 (.reg 1) (.reg 2)) small).core.icount = small.core.icount + 1 ∧
    (next (.saAdd 0 (.reg 1) (.reg 2)) small).core.icount = small.core.icount + 1 :=
  ⟨by decide, by decide, rfl, by decide, by decide⟩

theorem witness_vector_frame : vectorForm (.vaFadd 3 (.vec 1) (.reg 2)) = some ([], [3], [], [2]) ∧ portsOf ([2] : List SReg) = [] ∧
    exec (.vaFadd 3 (.vec 1) (.reg 2)) small = .next (next (.vaFadd 3 (.vec 1) (.reg 2)) small) ∧
    (next (.vaFadd 3 (.vec 1) (.reg 2)) small).core.icount = small.core.icount + 1 := ⟨by decide, by decide, rfl, by decide⟩

/-! ## Control flow and predicates -/

/-- The ends of the offsets of R25, a call and its return, and a misaligned target. -/
theorem test_branches :
    (next (.brEq 0 (-8192)) (on fun c => { c with pc := 0x10000 })).core.pc = 0x8000 ∧ (next (.brEq 5 1) small).core.pc = 4 ∧
    (next (.brLt 6 8191) small).core.pc = 32764 ∧ (next (.jmp 0) (on fun c => { c with pc := 8 })).core.pc = 8 ∧
    (next (.call 2) small).core.getS 61 = 4 ∧ (next (.call 2) small).core.pc = 8 ∧ (next .jxRet small).core.pc = 0x40 ∧
    (next (.jxCallr 61 (.reg 61)) small).core.pc = 0x40 ∧ (next (.jxCallr 61 (.reg 61)) small).core.getS 61 = 4 ∧
    (next (.jxJr (.lit 2)) small).core.t1.cause = 0x103 ∧ (next (.jxJr (.lit 2)) small).core.t1.val = 2 := by decide

theorem witness_branches : passes (openPorts none [5]) small = true ∧ (small.r1 0).toInt = 0 ∧ (small.r1 5).toInt ≠ 0 ∧
    (small.r1 6).toInt < 0 ∧ 0 < (small.r1 5).toInt ∧ small.core.getP 0 = 0 ∧ (on fun c => c.setP 0 1).core.getP 0 ≠ 0 ∧
    (small.a (.lit 4)).toNat % 4 = 0 ∧ (small.a (.lit 3)).toNat % 4 ≠ 0 ∧ (small.core.getS 61).toNat % 4 = 0 ∧
    ((on fun c => c.setS 61 2).core.getS 61).toNat % 4 ≠ 0 := by decide

/-- A loop of one instruction that runs twice, and one whose count is 0 (R187, R188). -/
theorem test_loop :
    let s := next (.lpDo 9 1) small
    s.core.pc = 4 ∧ (next .sysNop s).core.pc = 4 ∧ (next .sysNop s).core.lp.lc = 1 ∧ (next .sysNop (next .sysNop s)).core.pc = 8 ∧
    (next .sysNop (next .sysNop s)).core.lp.act = false ∧ (next (.lpDo 0 3) small).core.pc = 16 ∧
    (next (.lpDo 9 1) s).core.t1.cause = 0x10A := by decide

theorem witness_loops : passes (openPorts none [9]) small = true ∧ small.core.lp.act = false ∧ (0 : Int) < (1 : BitVec 14).toInt ∧
    (0 : BitVec 14).toInt ≤ 0 ∧ (next (.lpDo 9 1) small).core.lp.act = true ∧
    (let c := (next (.lpDo 9 1) small).core
     let l := c.lp
     l.act = true ∧ c.tlv.toNat = l.level ∧ l.depth = 0 ∧ c.pc.toNat = l.le ∧ 1 < l.lc.toNat) ∧
    (let c := (next .sysNop (next (.lpDo 9 1) small)).core
     c.lp.act = true ∧ c.pc.toNat = c.lp.le ∧ c.lp.lc.toNat ≤ 1) := by decide

theorem test_predicates :
    (next (.prNot 3 (.lit 0)) small).core.getP 3 = 0xFFFF ∧ (next (.prAnd 3 (.lit (-1)) (.lit 5)) small).core.getP 3 = 5 ∧
    (next (.prFirst 20 (.lit 4)) small).core.getS 20 = 2 ∧ (next (.prFirst 20 (.lit 0)) small).core.getS 20 = 16 ∧
    (next (.prCnt 20 (.lit (-1))) small).core.getS 20 = 16 ∧ (next (.prGet 20 (.lit (-1))) small).core.getS 20 = 0xFFFF := by decide

theorem witness_predicates : (small.core.readP (.lit 1)).getLsbD 0 = true ∧ (small.core.readP (.lit (-32))).getLsbD 15 = true ∧
    (small.core.readP (.lit (-32))).getLsbD 4 = false ∧ small.core.readP (.lit 0) = 0 := by decide

/-! ## Vector instructions -/

/-- FP32 1.0 + 1.0 = 2.0; a NaN's magnitude is the canonical NaN; the greatest of two zeros is +0; 1 / 0 raises dz. -/
theorem test_float_lanes :
    let s := on fun c => (c.setV 1 (splat 0x3F800000)).setV 2 (splat 0xFFC00001)
    ((next (.vaFadd 3 (.vec 1) (.vec 1)) s).core.getV 3)[15] = 0x40000000 ∧ ((next (.vaFabs 3 (.vec 2)) s).core.getV 3)[0] = 0x7FC00000 ∧
    ((next (.vaFneg 3 (.vec 1)) s).core.getV 3)[7] = 0xBF800000 ∧ ((next (.vaFma 1 (.vec 1) (.lit 2)) s).core.getV 1)[0] = 0x40400000 ∧
    ((next (.vaFrcp 3 (.vec 4)) s).core.getV 3)[0] = 0x7F800000 ∧ (next (.vaFrcp 3 (.vec 4)) s).core.fflags = 0x08 ∧
    ((next (.vaFsqrt 3 (.lit 4)) s).core.getV 3)[0] = 0x40000000 ∧ ((next (.vaFmin 3 (.vec 1) (.vec 2)) s).core.getV 3)[0] = 0x3F800000 := by
  decide

theorem test_int_lanes :
    let s := on fun c => c.setV 1 (splat 0xFFFFFFFF)
    ((next (.viMul 3 (.vec 1) (.lit 3)) s).core.getV 3)[9] = 0xFFFFFFFD ∧ ((next (.viMulh 3 (.vec 1) (.lit 3)) s).core.getV 3)[9] = 0xFFFFFFFF ∧
    ((next (.viShr 3 (.vec 1) (.lit 31)) s).core.getV 3)[0] = 1 ∧ ((next (.viMaxn 3 (.vec 1) (.lit 3)) s).core.getV 3)[0] = 0xFFFFFFFF ∧
    ((next (.vxIota 3 (.lit 5) (.lit 2)) s).core.getV 3)[15] = 35 ∧ ((next (.vxExtr 3 (.vec 1) (.lit 2)) s).core.getV 3)[1] = 0 ∧
    (next (.vrIsum 20 (.vec 1) (.lit 1)) s).core.getS 20 = -15 ∧ (next (.vcIltn 3 (.lit 3) (.vec 1)) s).core.getP 3 = 0xFFFF ∧
    (next (.vcIlt 3 (.lit 3) (.vec 1)) s).core.getP 3 = 0 := by decide

/-- The conversions at a glance: -1 to FP32, FP32 2.0 to BF16 in the odd halves, and an infinity to INT32. -/
theorem test_conversions :
    let s := on fun c => (c.setV 1 (splat 0x40000000)).setV 2 (splat 0x7F800000)
    ((next (.vxCvtif 3 (.lit (-1)) (.lit 0)) s).core.getV 3)[0] = 0xBF800000 ∧
    ((next (.vxCvtbh 3 (.vec 1) (.lit 1)) s).core.getV 3)[8] = 0x40004000 ∧ ((next (.vxCvtbh 3 (.vec 1) (.lit 1)) s).core.getV 3)[0] = 0 ∧
    ((next (.vxCvtfi 3 (.vec 2) (.lit 0)) s).core.getV 3)[0] = 0x7FFFFFFF := by decide +kernel

theorem witness_vectors :
    passes (openPorts none (vsrcNames (.vec 1) ++ vsrcNames (.reg 2))) small = true ∧ passes (openPorts none (vsrcNames (.vec 1))) small = true ∧
    passes (openPorts (some 3) (vsrcNames (.vec 1) ++ vsrcNames (.lit 2))) small = true ∧ (0x08#5 &&& small.core.enabled) = 0 ∧
    (0x08#5 &&& (on fun c => { c with frm := 0x3E0 }).core.enabled) ≠ 0 := by decide

/-- With dz enabled a reciprocal of 0 traps, and its destination keeps its value (R168). -/
theorem test_flag_trap :
    let s := on fun c => { c with frm := 0x3E0 }.setV 3 (splat 9)
    (next (.vaFrcp 3 (.vec 4)) s).core.t1.cause = 0x109 ∧ (next (.vaFrcp 3 (.vec 4)) s).core.t1.val = 0x08 ∧
    ((next (.vaFrcp 3 (.vec 4)) s).core.getV 3)[0] = 9 := by decide


/-! ## Loads and stores -/

/-- Sign and zero extension, the least significant byte first (R252), and the lanes of a line. -/
theorem test_loads :
    let s := stored 0x1000 [0x80, 0xFF, 0, 0x80, 0, 0, 0, 0x70]
    (next (.ldB 0 20 1 0) s).core.getS 20 = -128 ∧ (next (.ldBn 0 20 1 0) s).core.getS 20 = 0x80 ∧
    (next (.ldH 0 20 1 0) s).core.getS 20 = -128 ∧ (next (.ldHn 0 20 1 1) s).core.getS 20 = 0x8000 ∧
    (next (.ldW 0 20 1 0) s).core.getS 20 = 0xFFFFFFFF8000FF80 ∧ (next (.ldWn 0 20 1 0) s).core.getS 20 = 0x8000FF80 ∧
    (next (.ldD 0 20 1 0) s).core.getS 20 = 0x700000008000FF80 ∧ ((next (.ldV 0 20 1 0) s).core.getV 20)[1] = 0x70000000 := by decide

/-- A lookahead of 2 holds the result for two more instructions (R19). -/
theorem test_lookahead :
    let s := next (.ldBn 2 20 1 0) (stored 0x1000 [0x80])
    s.core.getS 20 = 0 ∧ (next .sysNop s).core.getS 20 = 0 ∧ (next .sysNop (next .sysNop s)).core.getS 20 = 0x80 := by decide

/-- BF16 1.0 in typed spans of 32 bytes becomes FP32 1.0 (R253), and a store converts back (R254). -/
theorem test_typed :
    let s := (stored 0x1000 [0x80, 0x3F]).setCore ((core0.setS 20 0x0C0E000000001000).setV 5 (splat 0xBF800000))
    ((next (.ldVt 0 9 20 0) s).core.getV 9)[0] = 0x3F800000 ∧ ((next (.ldVt 0 9 20 0) s).core.getV 9)[1] = 0 ∧
    (next (.stVt 5 20 0) (s.setCore { s.core with rev := false })).mem.read (lsPa small 0 0x101F) = 0xBF := by decide

/-- A store of a revocable activation is held and forwarded; one of an irrevocable activation is in memory at once. -/
theorem test_stores :
    let s := next (.stH 6 1 1) small
    s.mem.read (lsPa small 0 0x1002) = 0 ∧ (next (.ldH 0 20 1 1) s).core.getS 20 = -9 ∧ s.core.cbuf.length = 1 ∧
    (next (.stH 6 1 1) (on fun c => { c with rev := false })).mem.read (lsPa small 0 0x1002) = 0xF7 ∧
    (next (.stH 6 1 1) (on fun c => { c with rev := false })).mem.read (lsPa small 0 0x1004) = 0 := by decide

/-- Through the page tables: page 0 stands at 0x50000 (R76, R79). -/
theorem test_paged :
    let s := pagedOn fun c => { c with rev := false }.setS 20 0x18
    (next (.stW 6 20 0) s).mem.read 0x50018 = 0xF7 ∧ (next (.stW 6 20 0) s).mem.read 0x5001C = 0 ∧
    (next (.ldW 0 21 20 0) (next (.stW 6 20 0) s)).core.getS 21 = -9 := by decide

theorem witness_loads :
    passes (loadAccess (some 3) 1 (-32) 1) small = true ∧ passes (loadAccess (some 3) 1 31 2) small = true ∧
    passes (loadAccess (some 3) 1 31 4) small = true ∧ passes (loadAccess (some 3) 1 (-32) 8) small = true ∧
    passes (loadAccess none 1 31 64) small = true ∧
    passes (loadAccess (some 21) 20 (-32) 8) (pagedOn fun c => c.setS 20 0x100) = true ∧
    (∀ p ∈ [((9 : VReg), 0x0C0E000000001000#64, 32), (8, 0x400E000000001000, 176), (63, 0x000E000000001000, 64)],
      let s := on fun c => c.setS 20 p.2.1
      passes (openPorts none [20]) s = true ∧ 0 ≤ lAddr p.2.1 (-1) 64 ∧ lAddr p.2.1 (-1) 64 < 2 ^ 52 ∧
      passes (typedSpan p.2.1 p.1 false) s = true ∧ value (typedSpan p.2.1 p.1 false) 0 s = p.2.2 ∧
      (let m := typedPlaces p.2.1 (lAddr p.2.1 (-1) 64).toNat (typedAlign p.2.2) .read (typedParts p.2.2)
       passes m s = true ∧ passes (typedBytes (lAddr p.2.1 (-1) 64).toNat (value m [] s)) (after m s) = true)) := by decide

theorem witness_stores :
    (∀ p ∈ [(1, (31 : BitVec 6), false), (2, 31, false), (4, -32, false), (8, -32, false), (8, 31, true), (64, 31, false)],
      let a := lAddr (small.core.getS 1) p.2.1 p.1
      let m := resolve a.toNat p.1 .write
      0 ≤ a ∧ a < 2 ^ 52 ∧ passes (openPorts none [3, 1]) small = true ∧ passes m small = true ∧
      passes (storeGated a.toNat (value m (.mem 0) small) (numbered (List.replicate p.1 7)) p.2.2) (after m small) = true) ∧
    (∀ p ∈ [((9 : VReg), 0x0C0E000000001000#64, 32), (8, 0x400E000000001000, 176)],
      let s := on fun c => c.setS 20 p.2.1
      passes (typedSpan p.2.1 p.1 true) s = true ∧
      (let a := (lAddr p.2.1 0 64).toNat
       let m := typedPlaces p.2.1 a (typedAlign p.2.2) .write (typedParts p.2.2)
       passes m s = true ∧
       passes (each (value m [] s) fun q => storeGated (a + q.1) q.2.2 (numbered (List.replicate q.2.1 1)) false) (after m s) = true)) := by
  decide

theorem witness_commit_buffer :
    let pl := Place.mem (lsPa small 0 0x1000)
    0 < 64 ∧ (pl.plus 56).inLine + 8 ≤ 64 ∧ heldAtomic small.core.cbuf pl = false ∧
    readPlace small small.cur small.ctxNo pl 64 = .ok (List.replicate 64 0) ∧ small.core.rev = true ∧
    mxUnread small small.cur pl.line = false ∧ small.core.held64 + 1 ≤ 64 := by decide

/-- A place in the own package's memory, on a die that is not lost. -/
def plainPlace (s : State) (pl : Place) : Bool :=
  match pl with
  | .mem pa => paPkg pa == s.pkg.num && !(s.dieAt (hbmDieOf pa)).lost && rowOf pa != .device
  | _ => false

theorem witness_store_frame :
    (∀ s ∈ [on fun c => { c with rev := false }, pagedOn fun c => { c with rev := false }.setS 1 0x1000],
      portOf 1 = none ∧ portOf 3 = none ∧ s.core.rev = false ∧ s.core.cbuf = [] ∧ s.core.trig.ord = false ∧
      ∀ p ∈ [(1, Instr.stB 3 1 (-32)), (2, .stH 3 1 (-32)), (4, .stW 3 1 (-32)), (8, .stD 3 1 (-32)), (8, .stDev 3 1 (-32)),
          (8, .stRel 3 1 (-32)), (64, .stV 3 1 (-32)), (64, .stVm 3 1 (-32))],
        let m := resolve (lAddr (s.core.getS 1) (-32) p.1).toNat p.1 .write
        passes m s = true ∧ plainPlace s (value m (.chain 0 0 0) s) = true ∧ (next p.2 s).core.icount = s.core.icount + 1) := by decide

/-- The spans of st.vt: lanes of a format, and the slot of a block; their parts lie at different places. -/
theorem witness_typed_store_frame :
    ∀ p ∈ [((9 : VReg), 0x0C0E000000001000#64, 32), (8, 0x400E000000001000, 176)],
      let s := on fun c => { c with rev := false }.setS 20 p.2.1
      let m := typedPlaces p.2.1 (lAddr p.2.1 0 64).toNat (typedAlign p.2.2) .write (typedParts p.2.2)
      let at' := fun (pl : Place) => match pl with
        | .mem pa => lsRedirect s s.ctxNo pa
        | _ => 0
      portOf 20 = none ∧ typedSpan p.2.1 p.1 true s = .ok (p.2.2, s) ∧ passes m s = true ∧
      ((value m [] s).all fun q => plainPlace s q.2.2) = true ∧ ((value m [] s).map fun q => at' q.2.2).Nodup ∧
      (next (.stVt p.1 20 0) s).core.icount = s.core.icount + 1 := by
  intro p hp
  simp only [List.mem_cons, List.not_mem_nil, or_false] at hp
  rcases hp with rfl | rfl <;> exact ⟨by decide, rfl, by decide, by decide, by decide, by decide⟩

theorem witness_address_traps :
    let s := on fun c => (c.setS 20 0x1400000000000000).setS 21 0x1F
    passes (openPorts (some 3) [20]) s = true ∧ passes (openPorts none [3, 20]) s = true ∧ passes (openPorts none [20]) s = true ∧
    (∀ n ∈ [1, 2, 4, 8, 64], ¬(0 ≤ lAddr (s.r1 20) (-1) n)) ∧ s.core.outst = [] ∧ s.core.trig.kind ≠ 1 ∧
    (∀ n ∈ [2, 4, 8, 64], 0 ≤ lAddr (s.r1 21) 0 n ∧ (lAddr (s.r1 21) 0 n).toNat % n ≠ 0) ∧
    (next (.ldD 0 3 20 (-1)) s).core.t1.cause = 0x107 ∧ (next (.ldD 0 3 20 (-1)) s).core.t1.val = 0x1400000000000000 ∧
    (next (.stV 3 21 1) s).core.t1.cause = 0x103 ∧ (next (.stV 3 21 1) s).core.t1.val = 0x5F := by decide

/-! ## Atomics, vector memory, rings and queues -/

/-- Hand calculation from R256: old values, wrap, swap and compare-and-swap, and a saturating word add. -/
theorem test_atomics :
    let s := (stored 0x1000 (words [0x7FFFFFFF])).setCore { core0 with rev := false }
    let at1 := fun (i : Instr) => ((next i s).core.getS 20, ofBytes ((next i s).readPa (lsPa small 0 0x1000) 8))
    at1 (.atAdd 0 20 1 6) = (0x7FFFFFFF, 0x7FFFFFF6) ∧ at1 (.atSwp 0 20 1 5) = (0x7FFFFFFF, 7) ∧
    at1 (.atMinn 0 20 1 6) = (0x7FFFFFFF, 0x7FFFFFFF) ∧ at1 (.atMin 0 20 1 6) = (0x7FFFFFFF, 0xFFFFFFFFFFFFFFF7) ∧
    at1 (.atwRed 0 20 1 5) = (0x7FFFFFFF, 0x7FFFFFFF) ∧ at1 (.atwAdd 0 20 1 8) = (0x7FFFFFFF, 0x80000000) ∧
    (next (.atCas 0 5 1 6) s).core.getS 5 = 0x7FFFFFFF ∧
    at1 (.atCas 0 5 1 6) = (0, 0x7FFFFFFF) := by decide

theorem witness_atomics :
    (∀ p ∈ [(0, 8, (3 : SReg)), (10, 4, 3), (12, 8, 3), (1, 4, 3), (11, 8, 0)],
      atomicForm (if p.2.1 = 8 then .atAdd 0 p.2.2 1 5 else .atwCas 0 p.2.2 1 5) ≠ none ∧
      passes (openPorts (some p.2.2) [1, 5, p.2.2]) small = true ∧
      (let va := (small.r1 1).toNat % 2 ^ 52
       let m := resolveAtomic va p.2.1 .atomic
       let pl := value m (.mem 0) small
       let u := after m small
       passes m small = true ∧ combines u p.1 pl = false ∧
       passes (gate (.atomic pl (atomReq u p.1 p.2.1 va pl 7 0 0 0))) u = true ∧
       passes (returning va pl fun s => s.atomicAt s.cur s.ctxNo pl p.1 p.2.1 7 0) u = true)) ∧
    (let t := { pagedOn fun c => c.setS 20 0x1000 with comb := true }
     let m := resolveAtomic 0x1000 8 .atomic
     let pl := value m (.mem 0) t
     let v := after becomeIrrevocable (after m t)
     passes m t = true ∧ combines (after m t) 1 pl = true ∧ portOf 3 = none ∧ (after m t).core.ret = none ∧
     pl = .mem 0x51000 ∧ refusedBy (after m t) pl = none ∧ rowOf 0x51000 ≠ .device ∧ passes becomeIrrevocable (after m t) = true ∧
     v.core.calm = true ∧
     (let r := atomReq (after m t) 1 8 0x1000 pl 7 0 3 2
      let z := v.sendCombinable v.cur pl r
      z.core.outst.length = v.core.outst.length + 1 ∧ z.flight.length = v.flight.length + 1)) := by decide

theorem witness_watches :
    let t := (stored 0x2000 (words [5, 0x1000])).setCore core0
    let va := (t.r1 1).toNat % 2 ^ 52
    ∀ width ∈ [8, 4],
      let m := resolveAtomic va width .read
      let k := ownDescriptor (t.r2 1 2) 16 16 0x05
      let d := value k [] (after m t)
      let v := after k (after m t)
      passes (openPorts (some 3) [1, 2]) t = true ∧ passes m t = true ∧ passes k (after m t) = true ∧ fld (d.getD 1 0) 63 18 = 0 ∧
      inAnyGroup v v.ctxNo (fld (d.getD 1 0) 11 0) = true ∧
      (let r : WatchReq := { tag := 1, width := width, va := va, pa := homePa v v.ctxNo (value m (.mem 0) t), exp := 5 }
       passes (gate (.watch (value m (.mem 0) t) r)) v = true ∧
       passes (returning va (value m (.mem 0) t) fun s => (watchValue s r, s.watchAt r)) v = true) := by decide

/-- The lanes that p0 selects, lane 0 and lane 15, reach the words that their indices name (R260). -/
theorem test_scatter :
    let s := on fun c => (({ c with rev := false }.setV 4 (Vector.ofFn fun i => BitVec.ofNat 32 (i.val + 1))).setV 9 (splat 0x55)).setP 0 0x8001
    (next (.vgSca 9 1 4) s).mem.read (lsPa small 0 0x1004) = 0x55 ∧ (next (.vgSca 9 1 4) s).mem.read (lsPa small 0 0x1008) = 0 ∧
    (next (.vgSca 9 1 4) s).mem.read (lsPa small 0 0x1040) = 0x55 ∧ (next (.vgSca 9 1 4) s).core.vprog = 0 ∧
    ((next (.vgGat 0 20 1 4) (next (.vgSca 9 1 4) s)).core.getV 20)[15] = 0x55 ∧
    ((next (.vgGat 0 20 1 4) (next (.vgSca 9 1 4) s)).core.getV 20)[1] = 0 := by decide

/-- The small machine with lane indices in v4, of which p0 selects lanes 0 and 15. -/
def laned : State := on fun c => (c.setV 4 (Vector.ofFn fun i => BitVec.ofNat 32 i.val)).setP 0 0x8001

/-- Its irrevocable counterpart. -/
def lanedNow : State := laned.setCore { laned.core with rev := false }

theorem active_laned : activeLanes laned.core = [0, 15] ∧ activeLanes lanedNow.core = [0, 15] := by decide

theorem witness_vector_memory :
    passes (openPorts none [1]) laned = true ∧ laned.core.rev = true ∧ lanedNow.core.rev = false ∧ lanedNow.core.cbuf = [] ∧
    small.core.getP 0 = 0 ∧ portOf 1 = none ∧ lanesLocal laned (laned.core.getS 1) (laned.core.getV 4) ∧ laned.core.mx.queue = [] ∧
    laned.core.held64 + 2 ≤ 64 ∧
    (∀ i ∈ activeLanes laned.core, heldAtomic laned.core.cbuf (lanePlace laned (laned.core.getS 1) (laned.core.getV 4) i) = false ∧
      poisoned laned (watchPa laned (lanePlace laned (laned.core.getS 1) (laned.core.getV 4) i)) = false) :=
  ⟨by decide, rfl, rfl, rfl, by decide, by decide, by unfold lanesLocal inSpace; decide, rfl, by decide, by decide⟩

/-- Lanes one after another, each addressed, resolved and done, as far as they pass. -/
def laneGo (acc : Acc) (p : Word) (idx : VWord) (f : Fin 16 → Nat → Place → M Unit) : List (Fin 16) → State → Option State
  | [], s => some s
  | i :: rest, s =>
    let a := laneAddr p idx i
    if 0 ≤ a ∧ a < 2 ^ 52 then
      match (if acc = .atomic then resolveAtomic a.toNat 4 acc else resolve a.toNat 4 acc) (s.setCore { s.core with vprog := BitVec.ofNat 11 i.val }) with
      | .ok (pl, w) => match f i a.toNat pl w with
        | .ok (_, u) => laneGo acc p idx f rest u
        | .error _ => none
      | .error _ => none
    else none

theorem laneGo_runs {acc : Acc} {p : Word} {idx : VWord} {f : Fin 16 → Nat → Place → M Unit}
    {F : Fin 16 → Nat → Place → State → State → Prop} (hf : ∀ i va pl w u, Gives (f i va pl) w () u → F i va pl w u)
    (is : List (Fin 16)) (s u : State) (h : laneGo acc p idx f is s = some u) : lanesRun (laneStep acc p idx F) is s u := by
  induction is generalizing s with
  | nil => exact (Option.some.inj h).symm
  | cons i rest ih =>
    simp only [laneGo] at h
    split at h
    · rename_i ha
      split at h
      · rename_i pl w e
        split at h
        · rename_i x v e'
          exact ⟨v, ⟨ha, pl, w, e, hf _ _ _ _ _ e'⟩, ih v h⟩
        · cases h
      · cases h
    · cases h

theorem lanes_exist {acc : Acc} {p : Word} {idx : VWord} {f : Fin 16 → Nat → Place → M Unit}
    {F : Fin 16 → Nat → Place → State → State → Prop} (hf : ∀ i va pl w u, Gives (f i va pl) w () u → F i va pl w u)
    {is : List (Fin 16)} {s : State} (h : ((laneGo acc p idx f is s).any fun u => u.core.rev == s.core.rev) = true) :
    ∃ u, lanesRun (laneStep acc p idx F) is s u ∧ u.core.rev = s.core.rev := by
  match e : laneGo acc p idx f is s with
  | some u => exact ⟨u, laneGo_runs hf is s u e, by simpa [e] using h⟩
  | none => rw [e] at h; cases h

theorem witness_lanes : ∀ s ∈ [laned, laned.inGroup, lanedNow.inGroup],
    (∃ u, lanesRun (laneStep .write (s.r1 1) (s.core.getV 4) (scatterLane 9)) [0, 15] s u ∧ u.core.rev = s.core.rev) ∧
    (∀ fn ∈ [0, 3, 5, 6, 11],
      ∃ u, lanesRun (laneStep .atomic (s.r1 1) (s.core.getV 4) (atomicLane fn 9)) [0, 15] s u ∧ u.core.rev = s.core.rev) ∧
    ∃ u, lanesRun (laneStep .read (s.r1 1) (s.core.getV 4) (gatherLane 9)) [0, 15] s u ∧ u.core.rev = s.core.rev := by
  have scatter : ∀ s ∈ [laned, laned.inGroup, lanedNow.inGroup], ((laneGo .write (s.r1 1) (s.core.getV 4) (fun i va pl w =>
      storeGated va pl (numbered (toBytes 4 ((w.core.getV 9)[i]).toNat)) false w) [0, 15] s).any fun u => u.core.rev == s.core.rev) = true := by decide
  have atomic : ∀ s ∈ [laned, laned.inGroup, lanedNow.inGroup], ∀ fn ∈ [0, 3, 5, 6, 11],
      ((laneGo .atomic (s.r1 1) (s.core.getV 4) (fun i va pl w =>
        gate (.atomic pl (atomReq w fn 4 va pl (((w.core.getV 9)[i]).setWidth 64) 0 0 0)) w) [0, 15] s).any fun u =>
          u.core.rev == s.core.rev) = true := by decide
  have gather : ∀ s ∈ [laned, laned.inGroup, lanedNow.inGroup], ((laneGo .read (s.r1 1) (s.core.getV 4) (fun i va pl => do
      let bs ← loadBytes va pl 4
      modCore fun c => c.setV 9 ((c.getV 9).set i.val (BitVec.ofNat 32 (ofBytes bs)) i.isLt)) [0, 15] s).any fun u =>
        u.core.rev == s.core.rev) = true := by decide
  intro s hs
  refine ⟨lanes_exist (fun _ _ _ _ _ h => h) (scatter s hs), fun fn hfn => lanes_exist (fun _ _ _ _ _ h => h) (atomic s hs fn hfn),
    lanes_exist (fun i va pl w u h => ?_) (gather s hs)⟩
  have hb : ∀ k : List Byte → M Unit, (loadBytes va pl 4 >>= k) w = match loadBytes va pl 4 w with
      | .ok x => k x.1 x.2
      | .error t => .error t := fun k => by
    show Except.bind (loadBytes va pl 4 w) _ = _
    cases loadBytes va pl 4 w <;> rfl
  unfold Gives at h
  rw [hb] at h
  match e : loadBytes va pl 4 w with
  | .ok (bs, z) => rw [e] at h; exact ⟨bs, z, e, (congrArg Prod.snd (Except.ok.inj h)).symm⟩
  | .error z => rw [e] at h; cases h

/-- A ring of two slots of 64 bytes: acquire, commit, peek and release (R265 to R267). -/
theorem test_ring :
    let s := (stored 0x1000 (words [0, 0, 0, 0, 1])).setCore { core0 with rev := false }
    let a := next (.rgAcq 0 20 1) s
    let c := next (.rgCmt 1 20) (next (.rgAcq 0 21 1) a)
    a.core.getS 20 = 0x000E000000001040 ∧ (next (.rgAcq 0 21 1) a).core.getS 21 = 0x000E000000001080 ∧
    (next (.rgPeek 0 22 1) a).core.getS 22 = 0 ∧ (next (.rgPeek 0 22 1) c).core.getS 22 = 0x000E000000001040 ∧
    (next (.rgPeek 0 22 1) (next (.rgRel 1) c)).core.getS 22 = 0 ∧
    (next (.rgAcq 0 23 1) (next (.rgAcq 0 21 1) a)).core.getS 23 = 0 := by decide

theorem witness_rings_and_queues :
    (∀ ws ∈ [[0, 0, 0, 0, 1], [0, 0, 0, 0, 0]],
      let t := (stored 0x1000 (words ws)).setCore core0
      let m := ringPlace (t.r1 1)
      let pl := value m (.mem 0) t
      let u := after m t
      let cb := (t.r1 1).toNat % 2 ^ 52
      passes (openPorts (some 3) [1]) t = true ∧ passes m t = true ∧
      passes (returning cb pl fun s => s.ringAcq s.cur s.ctxNo pl cb) u = true ∧ passes (loadBytes cb pl 64) u = true ∧
      (ringOf (value (loadBytes cb pl 64) [] u)).bad = (ws.getD 4 0 == 0) ∧
      passes (gate (.rgCmt pl cb (cb + 64))) u = true ∧ passes (gate (.rgRel pl cb)) u = true) ∧
    passes (openPorts none (srcNames (.lit 1) ++ srcNames (.lit 7))) small = true ∧ (small.a (.lit 1)).toNat ≤ 3 ∧
    (neighbour small.cur 1).isSome = true ∧ passes becomeIrrevocable small = true ∧ credit (after becomeIrrevocable small) 0 1 ≠ 0 ∧
    (small.b (.lit 3) (.lit 8)).toNat % 4 = 0 ∧ (small.a (.lit 3)).toNat ≤ 3 := by decide

/-- The control blocks of RingsAndQueues: an empty ring of two slots, a full one, one that is not well-formed, and one with a slot
whose commit leads on by one, in the own local store. -/
theorem witness_control_blocks :
    let block := fun (ws : List Nat) => stored 0x1000 (words ws)
    let pa := lsPa small 0 0x1000
    let ring := fun (s : State) => ringOf (s.readPa (lsRedirect s 0 pa) 64)
    let empty := block [0, 0, 0, 0, 1]
    let two := block [2, 0, 0, 0, 1]
    rowOf pa ≠ .device ∧ rowOf (lsRedirect empty 0 pa) ≠ .device ∧ rowOf (pa + 16) ≠ .device ∧
    (ring empty).bad = false ∧ (ring empty).head - (ring empty).tail ≠ (ring empty).n ∧ (ring empty).head - (ring empty).cmt ≠ 64 ∧
    (ring two).head - (ring two).tail = (ring two).n ∧ (ring (block [0])).bad = true ∧ homeFails two 0 (.mem pa) = none ∧
    (0x10C0 - 0x1000 - 64) % (ring two).z = 0 ∧ (0x10C0 - 0x1000 - 64) / (ring two).z = 2 ∧ (0x1080 - 0x1000 - 64) / (ring two).z < (ring two).n ∧
    ((ring two).cmt ≤ 0 ∧ 0 < (ring two).cmt + 64 ∧ 0 < (ring two).head ∧ 0 % (ring two).n = (0x1040 - 0x1000 - 64) / (ring two).z ∧
      bit (ring two).cmap (0 - (ring two).cmt) = false) ∧
    (∀ i < 1, bit ((ring two).cmap + 2 ^ 0) i = true) ∧ bit ((ring two).cmap + 2 ^ 0) 1 = false ∧ (ring two).cmt = (ring two).tail ∧
    bit (ring (block [2, 0, 0, 0, 1, 2 ^ 18])).w5 18 = true ∧ (ring (block [2, 1, 0, 0, 1])).tail < (ring (block [2, 1, 0, 0, 1])).cmt := by
  decide

/-! ## System registers and exceptions -/

/-- What the fields of a register hold reads back (R6); a set and a clear act on single bits (R346). -/
theorem test_registers :
    let s := on fun c => c.setS 20 (-1)
    (next (.sysGet 21 0x020) (next (.sysPut 20 0x020) s)).core.getS 21 = 0x3E3 ∧
    (next (.sysGet 21 0x041) (next (.sysPut 20 0x041) s)).core.getS 21 = 0xFFFFFFFFFFF00 ∧
    (next (.sysGet 21 0x020) (next (.sysClr 9 0x020) (next (.sysSet 20 0x020) s))).core.getS 21 = 0x3E1 ∧
    (next (.sysGet 21 0x001) (next (.sysPut 20 0x001) s)).core.getS 21 = 0 ∧
    (next (.sysGet 21 0x120) small).core.getS 21 = 0x0000100000400003 ∧ (next (.sysGet 21 0x124) small).core.getS 21 = 0x1041 := by
  decide

theorem witness_registers :
    (∀ n ∈ [0x000, 0x009, 0x010, 0x020, 0x032, 0x038, 0x04A, 0x062, 0x100, 0x120, 0x130], passes (checkNumber n) small = true) ∧
    checkNumber 0x130 small = .ok ((), small) ∧ passes (openPorts (some 3) []) small = true ∧ passes (openPorts none [5]) small = true ∧
    (small.core.lp.act && loopBound 0x031) = false :=
  ⟨by decide, rfl, by decide, by decide, by decide⟩

theorem witness_register_traps :
    (small.ctxAt small.ctxNo).privileged = true ∧ assigned 0x00A = false ∧ assigned 0x3FF = false ∧ assigned 0x120 = true ∧
    perContext 0x120 = true ∧ ((on fun c => { c with csel := 1 }).ctxAt 1).live = false ∧
    (({ small with ctxs := [(0, { live := true })] } : State).ctxAt 0).privileged = false ∧
    ((on fun c => { c with lp := { c.lp with act := true } }).core.lp.act) = true ∧
    (next (.sysPut 5 0x100) { small with ctxs := [(0, { live := true })] }).core.t1.cause = 0x105 ∧
    (next (.sysGet 5 0x00A) small).core.t1.cause = 0x101 ∧
    (next (.sysPut 5 0x031) (on fun c => { c with lp := { c.lp with act := true } })).core.t1.cause = 0x10A := by decide

theorem witness_masks : assigned 0x020 = true ∧ assigned 0x021 = true ∧ (0x021 : Nat) ≠ 0x020 ∧ 0x020 ∉ [0x030, 0x062, 0x100] ∧
    assigned 0x130 = true ∧ assigned 0x000 = true := by decide

/-- sys.brk and sys.trap: cause, return address, value and target (R344, Table 16.6); sys.eret comes back. -/
theorem test_traps :
    let s := on fun c => { c with pc := 0x10 }
    let t := next (.sysTrap 0x1234) s
    let u := next (.sysBrk 7) t
    t.core.t1.cause = 0x113 ∧ t.core.t1.pc = 0x14 ∧ t.core.t1.val = 0x1234 ∧ t.core.tlv = 1 ∧ t.core.pc = 0x10000 ∧
    u.core.t2.cause = 0x112 ∧ u.core.t2.pc = 0x10000 ∧ u.core.t2.val = 7 ∧ u.core.tlv = 2 ∧ u.core.pc = 0x10100 ∧
    (next .sysEret u).core.pc = 0x10000 ∧ (next .sysEret u).core.tlv = 1 ∧ (next .sysEret t).core.pc = 0x14 ∧
    (next .sysEret t).core.tlv = 0 ∧ (next .sysEret small).core.t1.cause = 0x101 := by decide

/-- At level 2, and without a handler, a trap kills the context (R344). -/
theorem test_double_trap :
    ((next (.sysBrk 7) (on fun c => { c with tlv := 2 })).ctxAt 0).state = 3 ∧
    ((next (.sysBrk 7) (on fun c => { c with tvec := 0 })).ctxAt 0).state = 3 := by decide

/-- The levels of TrapEntry and TrapReturn. -/
theorem witness_traps :
    small.core.trig.kind ≠ 1 ∧ small.core.tlv = 0 ∧ fld small.core.tvec 51 8 * 256 ≠ 0 ∧ small.core.pend = [] ∧
    (on fun c => { c with tlv := 1 }).core.tlv = 1 ∧ (on fun c => { c with tlv := 2 }).core.tlv = 2 ∧
    fld (on fun c => { c with tvec := 0 }).core.tvec 51 8 * 256 = 0 ∧ small.core.trail.left = none ∧
    (∀ q ∈ small.core.pend, q.wait = none) ∧ (on fun c => { c with trail := { left := some 8, level := 1 } }).core.trail.level ≠ 0 := by
  decide

theorem witness_kill :
    (Instr.sysKill 9, 0, 5, 9) ∈ [(Instr.sysKill 9, small.ctxNo, 5, (9 : BitVec 16).toNat), (.ctxctlKill 0, 0, 6, 0)] ∧
    (small.coreAt 1).ctx ≠ some 0 ∧ fld (small.ctxAt 0).elog 4 0 = 0 ∧ small.flight = [] ∧ atomicsOnWay small 0 = [] ∧
    (small.ctxAt 0).state ≠ 3 ∧ (({ small with ctxs := [(0, { small.ctxAt 0 with state := 3 })] } : State).ctxAt 0).state = 3 ∧
    fld ({ small.ctxAt 0 with elog := 0x51008 } : Ctx).elog 4 0 ≠ 0 := by decide

theorem witness_fences :
    let b := on fun c => c.onChan 0 fun h => { h with cur := some {} }
    let o := on fun c => { c with outst := [{}] }
    let k := on fun c => { c with rev := false, chainOut := [{}] }
    passes becomeIrrevocable small = true ∧ small.core.outst = [] ∧ chainPending small small.cur 0 = false ∧
    enginesBusy small.core = false ∧ enginesBusy (after becomeIrrevocable b).core = true ∧ passes becomeIrrevocable b = true ∧
    o.core.outst ≠ [] ∧ (after becomeIrrevocable o).core.outst ≠ [] ∧ chainPending k k.cur 3 = true ∧
    passes (gate (.fenceRel 0)) small = true := by decide

/-- A word of opcode 42 is reserved, sys.inv is illegal, and the word is the value (R26, R345). -/
theorem test_undefined :
    (next (.undefinedEncoding 0xA8000000) small).core.t1.cause = 0x102 ∧
    (next (.undefinedEncoding 0xA8000000) small).core.t1.val = 0xA8000000 ∧
    (next (.undefinedEncoding 0x88387849) small).core.t1.cause = 0x101 ∧ (next .sysInv small).core.t1.cause = 0x101 := by decide

theorem witness_undefined : 42 ≤ (0xA8000000 : BitVec 32).toNat / 2 ^ 26 ∧ reservedWord 0xA8000000 = true ∧
    reservedWord 0x88387849 = false := by decide

/-- A row of four cores of one context, of which the others have joined. -/
def row : State := (([1, 2, 3] : List Nat)).foldl (fun s i => s.setCoreAt i { core0 with trail := { role := .waiting } }) small

/-- trl.lead starts trail mode for a row that has joined, and trl.quit ends it (R323, R326). -/
theorem test_trail :
    let s := next .trlLead row
    s.core.trail.role = .leader ∧ (s.coreAt 3).trail.role = .trailing ∧ (s.coreAt 3).pc = 4 ∧ (s.coreAt 3).icount = 1 ∧
    (next .trlQuit s).core.trail.role = .none ∧ (next .trlJoin small).core.t1.cause = 0x101 ∧
    (next .trlJoin { small with cur := 1, cores := [(1, core0)] }).core.trail.role = .waiting := by decide

theorem witness_trail :
    (small.cur % 4 = 0) ∧ small.core.inTrail = false ∧ passes becomeIrrevocable small = true ∧
    ((others 0).all fun i => hasJoined ((after becomeIrrevocable small).coreAt i) (after becomeIrrevocable small).core) = false ∧
    passes becomeIrrevocable row = true ∧
    ((others 0).all fun i => hasJoined ((after becomeIrrevocable row).coreAt i) (after becomeIrrevocable row).core) = true ∧
    (on fun c => { c with trail := { role := .trailing } }).core.inTrail = true ∧
    (let s : State := { small with cur := 3, cores := [(3, core0)] }
     ¬(s.cur % 4 = 0) ∧ s.core.inTrail = false ∧ passes becomeIrrevocable s = true) ∧
    (small.core.inTrail && small.core.trail.left.isSome) = false ∧
    (let c := { core0 with trail := { role := .trailing, left := some 8 } }
     (c.inTrail && c.trail.left.isSome) = true) := by decide

/-! ## Messages, activations, tasks and tags -/

/-- A message of an irrevocable activation leaves at once, with its header from the control word (R303, Table 14.11); one
of a revocable activation is held. -/
theorem test_send :
    let s := on fun c => { c with rev := false }.setS 20 0x0003012A
    (next (.msSend 0 2 20) s).flight.map (fun i => match i with
      | .messageArrival m => [m.dcore, m.grp, m.tag, m.hoff.toNat, m.kind]
      | _ => []) = [[0, 1, 42, 3, 0]] ∧
    (next (.msSend 0 2 20) (on fun c => c.setS 20 0x0003012A)).flight = [] ∧ (next (.msSend 10 2 20) s).core.t1.cause = 5 ∧
    (next (.msSend 10 2 20) s).core.t1.val = 8 := by decide

/-- ms.end is an end; what it named is held behind the buffer. -/
theorem test_end :
    (next .msEnd small).core.phase = .ending 0 ∧ (next (.msEndc 2 0) small).core.phase = .ending 1 ∧
    (next (.msEndc 2 0) small).core.cbuf.length = 1 ∧ (next (.msDefer 0) small).core.phase = .ending 2 ∧
    (next (.msDefer 21) (on fun c => c.setS 21 0x45)).core.trig.tag = 5 := by decide

theorem witness_messages :
    (∀ n ∈ [15, 0x4000000000000000, 0x800E000000001000, 0],
      let w := BitVec.ofNat 64 n
      let t := on fun c => (c.setS 20 0).setS 21 w
      passes (openPorts none [21, 20]) t = true ∧ destReserved w = false ∧ ctlReserved 0 false = false ∧ ctlReserved 0 true = false ∧
      groupExists t t.ctxNo 0 = true ∧ t.core.trig.ord = false ∧
      ∀ g ∈ [Gated.send {}, .sendt {}, .sendRemote 0 {} w], passes (gate g) t = true) ∧
    inGroup small 0 0 15 = true ∧ bit (0x4000000000000000 : Word).toNat 62 = true ∧ bit (0x4000000000000000 : Word).toNat 63 = false ∧
    bit (0x800E000000001000 : Word).toNat 63 = true ∧ passes (resolveFor false false (addrOf 0x800E000000001000) 1 .read) small = true ∧
    (on fun c => { c with trig := { c.trig with ord := true } }).core.tsn.toNat < fld 0x100000000 63 32 := by decide

theorem witness_broadcast :
    passes (openPorts none [8, 0]) small = true ∧ fld (small.r1 8) 63 8 = 0 ∧ groupExists small 0 (fld (small.r1 8) 7 0) = true ∧
    passes (gate (.bcast 1 {})) small = true ∧ passes (openPorts none [8, 5, 7]) (on fun c => c.setS 7 0xFFFFFFFF) = true ∧
    fld 0xFFFF 63 16 = 0 ∧ fld 0xFFFFFFFF 63 32 = 0 ∧ inAnyGroup small 0 1 = true ∧ passes (gate (.send {})) small = true := by decide

theorem witness_ends :
    small.core.outst = [] ∧ small.core.mx.queue = [] ∧ small.core.held64 + 1 ≤ 64 ∧ small.core.inTrail = false ∧ passes (openPorts none [0]) small = true ∧
    groupExists small 0 0 = true ∧ small.core.trig.ord = false ∧ bit (0x45 : Word).toNat 6 = true ∧ bit (0x05 : Word).toNat 6 = false := by
  decide

/-- tk.new answers the task id, the address over 64 (R310); a barrier is met once (R312). -/
theorem test_tasks :
    (next (.tkNew 0 20 1 9) small).core.getS 20 = 0x0000380000000040 ∧ (next (.tkBarr 1) small).core.arrived = [0x000E000000001000] ∧
    (next (.tkBarr 1) (next (.tkBarr 1) small)).core.t1.cause = 0x105 ∧ (next (.tkBwait 1 0) small).core.phase = .ending 3 ∧
    (next (.tkArr 1) (on fun c => c.setS 1 0x000E000000001020)).core.t1.cause = 0x103 := by decide

theorem witness_tasks :
    let m := recordOf (small.r1 1)
    let u := after m small
    let x := value m (0, .mem 0) small
    passes (openPorts none [1]) small = true ∧ passes (openPorts none [1, 0]) small = true ∧ passes (openPorts (some 3) [1, 9]) small = true ∧
    passes m small = true ∧
    (∀ op ∈ [0, 1, 2, 3, 4, 5], passes (gate (.tk x.2 ⟨op, 0, 0, x.1, 0, 0, 0⟩)) u = true) ∧
    barKeys u.core u.ctxNo = [] ∧ (barKeys (next (.tkBarr 1) small).core 0).contains (0, x.1) = true ∧
    ctlReserved 0 false = false ∧ groupExists u u.ctxNo 0 = true ∧ u.core.outst = [] ∧ u.core.mx.queue = [] ∧ u.core.inTrail = false ∧
    u.core.held64 + 1 ≤ 64 ∧ x.1 ∈ (next (.tkBarr 1) small).core.arrived := by decide

/-- The small machine whose core knows tags 0 and 63. -/
def tagged : State := on fun c => { c with tags := [(0, { tags := [(0, { dflt := some 0x20000 }), (63, { dflt := some 0x20000, en := true })] })] }

/-- tg.en and tg.pend change the tags of the mask that have a handler (R314); the status is that of Table 14.16. -/
theorem test_tags :
    let s := tagged.setCore { tagged.core.setS 20 (-1) with rev := false }
    (next (.tgGet 21 (.lit 0)) (next (.tgEn (.reg 20) (.lit 7)) s)).core.getS 21 = 0x4B3 ∧
    (next (.tgGet 21 (.reg 20)) (next (.tgPend (.lit 1)) (s.setCore (s.core.setS 20 0x80)))).core.getS 21 = 1 ∧
    (next (.tgGet 21 (.reg 20)) (s.setCore (s.core.setS 20 0x40))).core.getS 21 = 0x8000000000000000 := by decide

theorem witness_tags :
    passes (openPorts none (srcNames (.reg 5) ++ srcNames (.lit 7))) tagged = true ∧ passes (openPorts (some 3) (srcNames (.reg 5))) tagged = true ∧
    (∀ op ∈ [0, 1, 2, 3], passes (gate (.tg op (-1) 7)) tagged = true) ∧ fld 63 7 6 = 0 ∧ fld 0x40 7 6 = 1 ∧ fld 0x80 7 6 = 2 ∧
    fld 0xC0 7 6 = 3 ∧ (1 : Word).getLsbD 0 = true ∧ (1 : Word).getLsbD 63 = false ∧
    (Tbl.getD (tagsOf tagged 0 0).tags 0 {}).dflt ≠ none ∧ (Tbl.getD (tagsOf tagged 0 0).tags 1 {}).dflt = none := by decide

/-! ## Gaussian messages and factors -/

/-- Two blocks of dimension 2 with every entry 1.0: the sum is 2.0 within the dimension and +0 outside it (R229). -/
theorem test_block :
    let s := on fun c => { c with v := Vector.replicate 64 (splat 0x3F800000), gdim := 2 }
    let t := next (.gmAdd 2 0 1) s
    (t.core.getV 16)[0] = 0x40000000 ∧ (t.core.getV 16)[2] = 0 ∧ (t.core.getV 17)[0] = 0x40000000 ∧ (t.core.getV 17)[8] = 0x40000000 ∧
    (t.core.getV 17)[2] = 0 ∧ (t.core.getV 20)[15] = 0 ∧ (next (.gmRes 20 0 1) s).core.getS 20 = 0 := by decide

theorem witness_blocks :
    1 ≤ small.core.gdim.toNat ∧ small.core.gdim.toNat ≤ 8 ∧ (on fun c => { c with gdim := 8 }).core.gdim.toNat ≤ 8 ∧
    ¬(1 ≤ (on fun c => { c with gdim := 0 }).core.gdim.toNat) ∧ ¬((on fun c => { c with gdim := 9 }).core.gdim.toNat ≤ 8) ∧
    passes (openPorts none (srcNames (.lit 1))) small = true ∧ passes (openPorts (some 3) []) small = true ∧ (7 : Nat) < 8 := by decide

/-- A node object of two edges at 0x1000, of which edge 0 is attached. -/
def node (live : Nat) : State :=
  let s := (stored 0x1000 (words [0x2200 + live])).setCore (((core0.setS 20 0x0010000000000000).setS 21 8).setS 22 2)
  s.writePa (lsPa s 0 0x1130) [5, 0]

theorem test_factor :
    (next (.fgAttach 0 23 1 20) (node 1)).core.getS 23 = 0x10001 ∧ (next (.fgAttach 0 23 1 20) (node 3)).core.getS 23 = -1 ∧
    (next (.fgSlot 0 23 1 8) (node 1)).core.getS 23 = 0x000E000000001140 ∧ (next (.fgGen 0 23 1 0) (node 1)).core.getS 23 = 5 ∧
    (next (.fgGen 0 23 1 21) (node 1)).core.getS 23 = 0 ∧ (next (.fgSlot 0 23 1 22) (node 1)).core.t1.cause = 0x105 := by decide +kernel

theorem witness_factor :
    (∀ live ∈ [0, 1, 3],
      let t := node live
      let m := nodeObject (t.r1 1)
      let x := value m (0, 0) t
      let u := after m t
      let va := (t.r1 1).toNat % 2 ^ 52
      passes (openPorts (some 3) [1, 20]) t = true ∧ passes (openPorts none [8, 1]) t = true ∧ passes (openPorts none [1, 8]) t = true ∧
      passes m t = true ∧ edgesOf x.2 = 2 ∧ x.2 % 256 = live ∧ inAnyGroup t 0 (fld (t.r2 1 20) 63 52) = true ∧
      fld (t.r2 1 20) 24 16 = 0 ∧ fld (t.r2 1 20) 39 34 = 0 ∧ passes (attachEdge va x.1 x.2 (if live = 0 then 0 else 1) 7) u = true ∧
      passes (detachEdge va x.1 x.2 0) u = true ∧ passes (ownBytes (va + 304) (x.1 + 304) 2) u = true ∧
      passes (ownBytes (va + 64) (x.1 + 64) 8) u = true ∧ passes (gate (.post {})) u = true) ∧
    (small.core.gdim.toNat = 1) ∧ fld 1 63 3 = 0 ∧ fld 1 2 0 < 2 := by decide +kernel

theorem witness_run_out :
    passes (openPorts none (srcNames (.lit 1) ++ srcNames (.lit 1))) small = true ∧ inGroup small 0 1 0 = true ∧
    passes (gate (.conv 1 0)) small = true ∧ inGroup small 0 2 0 = false ∧ passes (openPorts (some 3) (srcNames (.lit 1))) small = true := by
  decide

/-! ## The matrix engine -/

theorem test_matrix_entry :
    (next (.mxZero 0 1) small).core.mx.queue.length = 1 ∧ (next (.mxZero 0 1) (next (.mxZero 0 1) small)).core.mx.queue.length = 2 ∧
    (next (.mxZero 0 1) (next (.mxZero 0 1) (next (.mxZero 0 1) small))).core.stalled = true ∧
    (next (.mxMma 0 1 10 10) (on fun c => c.setS 10 0x000E000000001008)).core.t1.cause = 0x103 ∧
    (next (.mxCfg 6 0) small).core.t1.cause = 0x105 ∧ (next .mxDrain (next (.mxZero 0 1) small)).core.stalled = true := by decide

theorem witness_matrix_commands :
    passes (nameTile 1) small = true ∧ passes (openPorts none [1, 2]) small = true ∧
    passes (mmaChecks (small.r1 1) (small.r2 1 2)) small = true ∧ passes (mmasChecks 1 (small.r1 1) (small.r2 1 2)) small = true ∧
    passes (mmasChecks 1 0x8000000000000000 (small.r2 1 2)) small = true ∧
    (small.core.mx.queue.any (writesTile 1)) = false ∧ (small.core.mx.tile 1).mark = .clean ∧
    mxWaiting small.core.mx.queue < 2 ∧ 2 ≤ mxWaiting (next (.mxZero 0 1) (next (.mxZero 0 1) small)).core.mx.queue ∧
    (addrOf (small.r1 1)) % 64 = 0 ∧ ownOff small (addrOf (small.r1 1)) = some 0x1000 ∧
    passes (checkLines [(addrOf (small.r1 1), 4096)]) small = true ∧ (5 : Word).toNat ≤ 5 ∧ badItem 5 0 = false ∧ badItem 1 64 = false ∧
    small.core.inTrail = false := by decide

theorem witness_gang :
    let lead := on fun c => { c with trail := { role := .leader } }
    let trail := ({ (next (.mxGang 0 1 1 2) lead) with cur := 1 } : State).setCore { core0 with trail := { role := .trailing } }
    lead.core.inTrail = true ∧ lead.core.trail.role = .leader ∧ passes (gangChecks true (lead.r1 1) (lead.r2 1 2)) lead = true ∧
    trail.core.inTrail = true ∧ trail.core.trail.role ≠ .leader ∧ passes (gangChecks false 0 (trail.r1 2)) trail = true := by decide

theorem witness_matrix_stores :
    let t := on fun c => (c.setS 21 0x3FFE000000003000).setS 22 0x000E000000003000
    let tile := t.core.mx.tile 1
    let outs := (tileElems tile.t).map (staccElem 4 none)
    let m := destParts 0x000E000000001000 64 (outs.flatMap Prod.fst) (partsOf 0x000E000000001000 4096)
    let z := destParts 0x000E000000002000 64 [] (partsOf 0x000E000000002000 128)
    passes (openPorts none [1, 21]) t = true ∧ staccFmt 0 = some (4, none) ∧ addrOf (t.r1 1) = 0x000E000000001000 ∧ passes m t = true ∧
    (after m t).core.mx.queue = [] ∧ ((after m t).core.mx.tile 1).mark = .clean ∧ passes (storeParts (value m [] t)) (after m t) = true ∧
    passes z t = true ∧ ((t.core.mx.tile 1).mark = .clean) ∧ addrOf (t.r2 2 21) % 4 = 0 ∧ min (fld (t.r2 2 21) 63 52) 1024 = 1023 ∧
    t.core.mx.queue = [] ∧ (next (.mxZero 0 1) t).core.mx.queue ≠ [] := by decide +kernel

/-! ## The copy engine, paging, chains and launches -/

/-- A copy command of 8 bytes waits in its engine (R144), a fifth of a channel's items reads its status, and a put is held in a
revocable activation (Table 7.2). -/
theorem test_copy :
    let s := next (.cpGet 1 2 10) small
    s.core.cp.queue.length = 1 ∧ (next (.cpWptr 0 20 10) s).core.getS 20 = 0x1000000000000000 ∧
    (next (.cpWptr 0 20 21) (s.setCore (s.core.setS 21 4))).core.getS 20 = 8 ∧
    (next (.cpPut 1 2 10) small).core.cbuf.length = 1 ∧ (next (.cpPut 1 2 10) small).core.cp.queue.length = 0 ∧
    (next (.cpCancel 21) (s.setCore (s.core.setS 21 4))).core.cp.queue.length = 0 ∧
    (next (.cpFill 1 2 8) small).core.t1.cause = 0x103 := by decide

theorem witness_copies :
    let t := (stored 0x2000 (words [64, 2, 0x3E000, 64])).setCore ((core0.setS 20 64).setS 21 0x000E00000003FFC0)
    passes (openPorts none [21, 2, 20]) t = true ∧ passes (openPorts none [21, 3, 2]) t = true ∧ badControl t 64 = false ∧
    addrOf (t.r1 21) % lsSize + (commandOf 0 64).len ≤ lsSize ∧ ownOff t (addrOf (t.r1 21)) = some 0x3FFC0 ∧
    addrOf (t.r1 21) % 64 = 0 ∧ (commandOf 5 64).len % 64 = 0 ∧ (commandOf 4 64).len % 8 = 0 ∧ fld 0 63 34 = 0 ∧
    inAnyGroup t t.ctxNo 0 = true ∧ ownOff t (addrOf (t.r1 2)) = some 0x2000 ∧ addrOf (t.r1 2) % 32 = 0 ∧
    passes (ownBytes (addrOf (t.r1 2)) 0x2000 32) t = true ∧
    value (ownBytes (addrOf (t.r1 2)) 0x2000 32) [] t = words [64, 2, 0x3E000, 64] ∧
    rowsFit { commandOf 2 64 with own := 0x1000, far := 0, rows := 2, ostr := 0x3E000, fstr := 64 } = true ∧
    (t.kick t.cur { commandOf 0 64 with own := 0x3FFC0, far := 0x3000 }).isSome = true ∧
    (∀ op ∈ [1, 3, 4, 5], passes (gate (.copy { commandOf op 64 with own := 0x1000, far := 0x3000 })) t = true) ∧
    passes (openPorts (some 3) [8]) t = true ∧ fld 0xF 3 2 = 3 ∧ fld 0x0 3 2 = 0 ∧ passes (openPorts none [8]) t = true := by decide

/-- pg.fbrd takes the oldest record (R98, Table 4.7), and the pg instructions are privileged (R93). -/
theorem test_paging :
    let s := { small with dies := [(0, { fbuf := [⟨1, 2, 3, 1, true, 4⟩], dropped := true })] }
    (next (.pgFbrd 0 20 0) s).core.getS 20 = 0xC420000000036004 ∧
    (next (.pgFbrd 0 20 0) (next (.pgFbrd 0 20 0) s)).core.getS 20 = 0 ∧
    (next (.pgReplay 0) { small with ctxs := [(0, { live := true })] }).core.t1.cause = 0x105 := by decide

theorem witness_paging :
    (small.ctxAt small.ctxNo).privileged = true ∧ passes (openPorts none [5, 6, 1]) small = true ∧ passes (openPorts none [5, 6, 0]) small = true ∧
    mailboxOf 1 (small.r3 5 6 1) small = .ok (some (lsPa small 0 0x1000), small) ∧ mailboxOf 0 0 small = .ok (none, small) ∧
    passes (gate (.inval {})) small = true ∧ passes (gate (.pin {})) small = true ∧ passes (gate (.replay 0)) small = true ∧
    passes (openPorts (some 3) [5]) small = true ∧ passes becomeIrrevocable small = true ∧
    (({ small with ctxs := [(0, { live := true })] } : State).ctxAt 0).privileged = false :=
  ⟨by decide, by decide, by decide, rfl, rfl, by decide, by decide, by decide, by decide, by decide, by decide⟩

/-- The small machine with chain 5 of one link, on die 2. -/
def chained : State :=
  { small with ctxs := [(0, { small.ctxAt 0 with chains := [(5, { gen := 1, cst := 2, base := 4, npg := 1, links := [(0, 2)] })] })] }

/-- Word 0 of an entry that is free is 0 (R117); a command on a chain is held, and ch.tail reads as ld.d what is no chain's. -/
theorem test_chains :
    (next (.chStat 0 20 5 0) small).core.getS 20 = 0 ∧ (next (.chClean 5 0) chained).core.cbuf.length = 1 ∧
    (next (.chTail 0 20 1) (stored 0x1000 [7])).core.getS 20 = 7 ∧ (next (.chTail 0 20 5) small).core.t1.cause = 0x103 := by decide

theorem witness_chains :
    (chained.ctxAt chained.ctxNo).privileged = true ∧ passes (openPorts none [5, 6, 1]) chained = true ∧
    passes (openPorts none [5, 1]) chained = true ∧ mailboxOf 1 (chained.r3 5 6 1) chained = .ok (some (lsPa chained 0 0x1000), chained) ∧
    (∀ fn ∈ [0, 1, 2, 5], passes (gate (.ch fn 5 0 none)) chained = true) ∧ passes (openPorts (some 3) [5, 0]) chained = true ∧
    fld (0 : Word) 7 0 = 0 ∧ fld (255 : Word) 7 0 ≠ 0 ∧ passes (openPorts (some 3) [1]) chained = true ∧
    passes (resolve (addrOf (chained.r1 1)) 8 .read) chained = true ∧
    passes (tailBytes (addrOf (chained.r1 1)) (.mem (lsPa chained 0 0x1000))) chained = true ∧
    passes (tailBytes 0x40000 (.chain 0 5 0x40000)) chained = true :=
  ⟨by decide, by decide, by decide, rfl, by decide, by decide, by decide, by decide, by decide, by decide, by decide, by decide⟩

/-- The small machine with a gate of id 9 and its list at 0x2040, a launch entry that has fired, and launch blocks in page 0. -/
def launcher : State :=
  let s := stored 0x2000 (words [0x0000000900000002, 0, 0x000E000000002040, 0] ++ List.replicate 32 0 ++ [0, 0, 1, 0])
  { paged with
    mem := paged.mem ++ s.mem,
    ctxs := [(0, { paged.ctxAt 0 with launches := [(3, { st := .armed, fired := true, saved := 6 })] })],
    pkg := { paged.pkg with gates := [{ id := 9, ctx := 0, action := 1 }] } }

theorem test_launch :
    (next (.glIdx 0 20 21) (launcher.setCore (core0.setS 21 0x43))).core.getS 20 = 6 ∧
    (next (.glIdx 0 20 21) (launcher.setCore (core0.setS 21 0x03))).core.getS 20 = 0x8000000000000000 ∧
    (next (.glIdx 0 20 5) launcher).core.getS 20 = 0 ∧ (next (.glTrig 21 5) (launcher.setCore (core0.setS 21 0x80))).core.t1.cause = 0x105 ∧
    (next (.glArm 5 2) (stored 0x2000 (words [10, 0x100]))).core.cbuf.length = 1 ∧
    (next (.glArm 5 2) (stored 0x2000 (words [0, 0x100]))).core.t1.cause = 0x105 ∧
    (next (.glArm 5 2) (stored 0x2000 (words [0, 0x100]))).core.t1.val = 0x000E000000002000 := by decide

theorem witness_launch :
    (let t := stored 0x2000 (words [0x1000000000000, 0x100])
     let m := glDescriptor (t.r2 5 2)
     passes (openPorts none [5, 2]) t = true ∧ fld (t.r1 5) 63 6 = 0 ∧ passes m t = true ∧ badLaunch (after m t) (value m [] t) = false ∧
     passes (gate (.arm 7 1 0x100)) (after m t) = true ∧ badTrigger (t.r1 5) = false ∧ bit (t.r1 5).toNat 6 = false ∧
     passes (gate (.trig {})) t = true ∧ badTrigger 0xFFFF7F = false ∧ bit (0xFFFF7F : Word).toNat 6 = true ∧
     passes (gate (.trigRemote 0 {} 0)) t = true ∧ passes (gate (.disarm 63)) t = true) ∧
    (let t := launcher
     let m := glDescriptor (t.r1 2)
     let u := after m t
     let ws := value m [] t
     passes (openPorts none [2]) t = true ∧ passes m t = true ∧ gateFor u (fld (wordOf ws 0) 63 32) u.ctxNo = some { id := 9, ctx := 0, action := 1 } ∧
     badGate ws = false ∧
     (let r := readParties (fld (wordOf ws 2) 51 0) (fld (wordOf ws 0) 10 0)
      passes r u = true ∧ value r [] u = [0, 1] ∧ passes (gate (.gate {} 0 0 [0, 1])) (after r u) = true)) ∧
    (let t := launcher
     passes (openPorts (some 3) [5]) t = true ∧ fld (0xFF : Word) 63 8 = 0 ∧ fld (0xFF : Word) 7 6 = 3 ∧ fld (0x80 : Word) 7 6 = 2 ∧
     (launchOf t t.ctxNo 5).fired = false ∧ (launchOf t t.ctxNo 3).fired = true ∧
     (∀ k < 2, passes (resolve (64 * 3 + 8 * k) 8 .read) t = true ∧ passes (tailBytes (64 * 3 + 8 * k) (.mem (0x50000 + 64 * 3 + 8 * k))) t = true) ∧
     fld (0x3FF : Word) 63 10 = 0 ∧ fld (0x300 : Word) 9 8 = 3 ∧ groupExists t t.ctxNo 0 = true) := by decide

/-! ## Steps of the device -/

/-- The small machine with its context changed. -/
def inCtx (f : Ctx → Ctx) : State := { small with ctxs := [(0, f (small.ctxAt 0))] }

/-- A context that can start an activation: an idle core that knows tag 4, with two messages of it. -/
def idle : State := on fun c => { c with
  phase := .idle, tags := [(0, { tags := [(4, { dflt := some 0x20000, en := true })] })],
  inbox := [{ tag := 4, pay := [1, 2, 3, 4, 5, 6, 7, 8] }, { tag := 4 }] }

/-- A rostat write arms the unit afresh (R243), and a pre-emption of a context on no core is done at once (R336). -/
theorem test_register_steps :
    (runOf (next (.rostatArm 0x4A03) small) 0 3).arm = true ∧ (runOf (next (.rostatArm 0x4A03) small) 0 3).lent = 10 ∧
    (next (.rostatArm 0x4A03) small).core.rgrp = 3 ∧ ((next (.ctxctlPreempt 0) small).ctxAt 0).state = 1 ∧
    (next (.registerWrite 0x044 9) small).core.t1.scr = 0 ∧ (next (.registerWrite 0x048 9) small).core.tsave = 9 := by decide

theorem witness_register_steps :
    ((0x020 : BitVec 10) ≠ 0x062 ∧ (0x020 : BitVec 10) ≠ 0x12A ∧ (loopBound 0x020 && small.core.lp.act) = false) ∧
    (small.ctxAt 0).live = true ∧ (small.ctxAt 0).state = 0 ∧ residents small 0 ≠ [] ∧ residents { small with cores := [] } 0 = [] ∧
    (let s := inCtx fun x => { x with state := 2, altered := [5] }
     (s.ctxAt 0).state = 2 ∧ (s.ctxAt 0).parked = [] ∧ (s.ctxAt 0).altered ≠ []) := by decide

/-- A message reaches the inbox of an idle core with its tag's handler (R290), and a dispatch starts the oldest (R291, R292). -/
theorem test_arrival_and_dispatch :
    ((next (.messageArrival { tag := 4, ctx := 0 }) idle).coreAt 0).inbox.length = 3 ∧
    (next (.messageArrival { tag := 4, ctx := 9 }) idle).core.inbox.length = 2 ∧
    (next (.dispatch 0) idle).core.pc = 0x20000 ∧ (next (.dispatch 0) idle).core.getS 48 = 1 ∧ (next (.dispatch 0) idle).core.getS 55 = 8 ∧
    (next (.dispatch 0) idle).core.inbox.length = 1 ∧ (next (.dispatch 0) idle).core.phase = .running := by decide

theorem witness_arrivals :
    (idle.ctxAt 9).live = false ∧
    (let s := inCtx fun x => { x with state := 2, proof := 10 }
     (s.ctxAt 0).live = true ∧ (s.ctxAt 0).state = 2 ∧ (s.ctxAt 0).store1.length + (s.ctxAt 0).store2.length < storeCap (fld (s.ctxAt 0).proof 4 0)) ∧
    (let s := idle
     (s.ctxAt 0).live = true ∧ (s.ctxAt 0).state = 0 ∧ coreLost s 0 = false ∧ (s.coreAt 0).ready = true ∧ (s.coreAt 0).remap = false ∧
     (s.clusterAt (clusterOf 0)).remap = false ∧ (Tbl.getD (tagsKnown s 0 0).tags 4 {}).dflt ≠ none ∧
     (s.ctxAt 0).ring.any (sameTag { tag := 4 }) = false ∧ (s.clusterAt 0).inbox.any (sameTag { tag := 4 }) = false ∧
     (s.coreAt 0).inbox.length < coreCap s 0 ∧ (s.coreAt 0).ctx = some 0 ∧ Tbl.has (s.ctxAt 0).saves 0 = false ∧
     groupMembers s 0 0 ≠ [] ∧ ({ tag := 4 } : Msg).key = none ∧ (∀ c < 4, coreLost s c = false) ∧ moving s 0 = false ∧
     moving s ((neighbour 0 3).getD 0) = false) ∧ (3 : Nat) < 4 := by decide

theorem witness_posts :
    (let x := idle.coreAt 0
     x.posts.length < 16 ∧ x.remap = false ∧ x.holdsPosts = false ∧ x.phase = .idle ∧ x.posts = [] ∧ Tbl.has (idle.ctxAt 0).saves 0 = false) ∧
    (small.coreAt 0).phase ≠ .idle ∧ ((idle.setCore { idle.core with posts := [{}, {}] }).coreAt 0).posts = {} :: [{}] ∧
    (let s := inCtx fun x => { x with runouts := [(7, { arm := true, done := true })] }
     (s.ctxAt 0).state < 2 ∧ (runOf s 0 7).due = true) := by decide

theorem witness_activations :
    (let s1 := idle.refill 0
     canStart idle 0 = some 0 ∧ chooseTag (candidates s1 0 0) (tagsOf s1 0 0).rr = some (4, 0) ∧
     ofTag 0 4 (s1.coreAt 0).inbox = [{ tag := 4, pay := [1, 2, 3, 4, 5, 6, 7, 8] }, { tag := 4 }] ∧ wantsSlot s1 { tag := 4 } = false) ∧
    (let x := (next .msEnd small).coreAt 0
     x.phase = .ending 0 ∧ x.word = none ∧ x.cbuf = [] ∧ x.calm = true ∧ x.trig.key = none ∧ x.trig.ord = false ∧ x.trig.kind = 0) ∧
    (let s := { idle with ctxs := [(0, { idle.ctxAt 0 with state := 1 })] }
     (s.coreAt 0).ctx = some 0 ∧ (s.ctxAt 0).state = 1 ∧ Tbl.has (s.ctxAt 0).saves 0 = false ∧ (s.coreAt 0).phase = .idle ∧
     (s.coreAt 0).word = none ∧ (s.coreAt 0).fetching = none ∧ (s.coreAt 0).pend = [] ∧ cannotHalt s 0 0 = false) ∧
    (let s := { small with cores := [(0, {})] }
     canSwap s 0 0 = true ∧ Tbl.has (s.ctxAt 0).saves 0 = false ∧ (s.coreAt 0).ctx = none) := by decide

/-- An ended activation that holds nothing commits, and its core is idle (R300, R306). -/
theorem test_commit : (next (.activationCommit 0) (next .msEnd small)).core.phase = .idle ∧
    (next (.activationCommit 0) (next .msEnd small)).core.getS 5 = 7 := by decide

/-- A task record at 0x50000 that waits for two arrivals until its deadline, with one task queued in cluster 0. -/
def tasks : State :=
  let s := { paged with clusters := [(0, { ready := [{ m := { kind := 2, pay := [0xE000000000000, 0] } }] })],
                        cores := [(0, { core0 with phase := .idle, ready := true })],
                        pkg := { paged.pkg with now := 8 } }
  { s with mem := s.mem.writeN 0x50000 (words [0x1000000100000002, 0, 0, 0, 8]) }

theorem test_task_arrival :
    (next (.taskAtHome { op := 1, pa := 0x50000 }) tasks).mem.read 0x50000 = 1 ∧
    (next (.taskAtHome { op := 1, pa := 0x50000 }) tasks).mem.read 0x50004 = 1 := by decide

theorem witness_tasks_at_home :
    (let t := taskAt tasks 0x50000
     recordError tasks 0 0x50000 = none ∧ t.bad = false ∧ t.st = 1 ∧ 1 < t.count ∧ recordPa tasks 0 0 = some 0x50000 ∧ overdue tasks t = true) ∧
    canStart tasks 0 = some 0 ∧ ((tagsOf tasks 0 0).tags.any fun e => e.2.en && tagPending tasks 0 0 e.1 e.2) = false ∧
    taskFor tasks 0 0 = some (0, { m := { kind := 2, pay := [0xE000000000000, 0] } }) ∧ recordPa tasks 0 0xE000000000000 = none ∧
    Tbl.has (tasks.ctxAt 0).saves 0 = false ∧ (launchOf tasks 0 3).st ≠ .firing ∧ (tasks.coreAt 0).fetching = none ∧
    wantsSlot tasks { kind := 2, pay := [0xE000000000000, 0] } = false ∧ chainHolding tasks 0 0x50000 = none ∧ (tasks.ctxAt 0).state ≠ 3 := by
  decide

/-- Records in each state that TaskSteps names: free, waiting with one arrival to come, lost, queued, and a barrier of two. -/
theorem witness_records :
    let record := fun (ws : List Nat) => { tasks with mem := tasks.mem.writeN 0x50000 (words ws) }
    let t := fun ws => taskAt (record ws) 0x50000
    (∀ ws ∈ [[0], [0x1000000100000001], [0x4000000100000001], [0x2000000100000000], [0x1000000100000002, 2 ^ 63, 0, 2 * 2 ^ 32]],
      recordError (record ws) 0 0x50000 = none ∧ (t ws).bad = false) ∧
    ((t [0]).st = 0 ∧ (t [0]).bar = false) ∧ ((t [0x1000000100000001]).st = 1 ∧ (t [0x1000000100000001]).count = 1) ∧
    (t [0x4000000100000001]).st = 4 ∧ (t [0x2000000100000000]).st = 2 ∧
    (let b := t [0x1000000100000002, 2 ^ 63, 0, 2 * 2 ^ 32]
     b.bar = true ∧ b.st = 1 ∧ 1 < b.count) ∧
    (let b := t [0x1000000100000001, 2 ^ 63, 0, 2 * 2 ^ 32]
     b.bar = true ∧ b.st = 1 ∧ b.count = 1) := by decide

/-- A task with a footprint, with a slot free for it and without one. -/
theorem witness_slots :
    let m : Msg := { kind := 2, pay := [0xE000000000000, 0], fp := 0x40, fplen := 32 }
    let s := { tasks with ctxs := [(0, { tasks.ctxAt 0 with fparea := 0x400000 })], clusters := [(0, { ready := [{ m := m }] })] }
    wantsSlot s m = true ∧ taskFor s 0 0 = some (0, { m := m }) ∧ freeSlot s 0 0 = some 0 ∧ canStart s 0 = some 0 ∧
    freeSlot (s.onCluster 0 fun x => { x with ready := [] }) 0 0 = some 0 ∧
    (let f := s.setCore { s.core with inbox := [{ m with slot := some 0 }] }
     freeSlot f 0 0 = none ∧ wantsSlot f m = true) ∧ (s.coreAt 0).inbox.contains m = false ∧
    sameTask m m = true := by decide

theorem witness_footprint :
    let s := paged.setCore { core0 with fetching := some ({ fp := 0x40, fplen := 32 }, 0) }
    (s.coreAt 0).fetching = some ({ fp := 0x40, fplen := 32 }, 0) ∧
    (match readFar s 0 { ctx := 0, act := 2 ^ 52 } 0x40 (partsOf (0x40 % 64) 32) with
     | (.ok bs none, _) => bs == List.replicate 32 0
     | _ => false) = true ∧ ({ fp := 0x40, fplen := 32 } : Msg).boxed = false ∧ ({ boxed := true } : Msg).boxed = true :=
  ⟨by decide, by decide, rfl, rfl⟩

/-- The worked example of R56: on die 5 of package 3, offset 0x1234_5000 lies in stack 11 at byte 0x91A_2000. -/
theorem test_stack : hbmStack 0xC7812345000 = 11 ∧ hbmStackByte 0xC7812345000 = 0x91A2000 := by decide

/-- A miss of the core that hits in the slice fills the core's TLB (R85). -/
theorem witness_translation :
    let l : Leaf := ⟨0, 0, 16, 0x5001E, 1⟩
    let s := paged.fillSlice 0 0 l
    sliceHit s (dieOf 0) 0 0x40 = some l ∧ sliceHit paged (dieOf 0) 0 0x40 = none ∧
    (let x := Tbl.getD paged.xl (xlKey (dieOf 0) 0 0x40) {}
     (x.misses.any fun m => m.ctx == 0 && m.vpage == 0x40 / 65536) = false ∧ x.misses.all Miss.walking = true ∧ walksOf x < 8) ∧
    (let t := next (.tlbMissAtSlice 0 0 0x40 .read) paged
     walking t 0 0 0 = true ∧ (sliceWalk t 0 0 0).1 = .leaf l 0x30000) ∧ walking paged 0 0 0 = false ∧
    walkHeld paged 0 0 0 = false ∧ invalDone small {} = true ∧ invalDone (on fun c => { c with chainOut := [{ ctx := 0, ch := 3 }] }) {} = false ∧
    (let x := (small.dropHolders {} 0).coreAt 0
     x.ctx = some ({} : InvalReq).ctx ∧ x.phase = .running ∧ x.rev = true) ∧
    (let s := { (inCtx fun x => { x with pmEff := 0 }) with pkg := { small.pkg with cyc := 0x100000 } }
     (s.ctxAt 0).live = true ∧ (s.ctxAt 0).epochAt + epochLen (s.ctxAt 0).pmEff ≤ s.pkg.cyc.toNat ∧
     (s.ctxAt 0).pmEff.getLsbD 0 = false ∧ s.migs.filter (waitsToSwitch s 0) = []) ∧
    small.pkg.cyc.toNat < (small.ctxAt 0).epochAt + epochLen (small.ctxAt 0).pmEff ∧
    (let g : Migration := { ctx := 0, vpage := 0, die := 2, frame := 0x3000050000, epa := 0x30000 }
     let s := { paged with migs := [g] }
     (s.migs.find? fun g => g.ctx == 0 && g.vpage == 0) = some g ∧ g.absent = false ∧ (s.read64 g.epa).toNat % 4 = 2 ∧ leafClass (s.read64 g.epa).toNat = 0 ∧
     (s.dieAt g.die).lost = false ∧ framePoisoned s 0 0x50000 = false ∧ switchWaits s 0 0 0x50000 = false ∧
     switchWaits { s with flight := [.homeSliceAccess { pa := 0x50040, len := 8 }] } 0 0 0x50000 = true) := by
  decide

/-- A write at its home slice reaches memory (R251), and an atomic at its home answers with the old value (R256). -/
theorem test_home :
    (next (.homeSliceAccess { pa := 0x50008, data := [7, 0, 9], acc := .write }) paged).mem.read 0x5000A = 9 ∧
    (next (.homeSliceAccess { pa := 0x50008, data := [7, 0, 9], acc := .write }) paged).mem.read 0x50008 = 7 ∧
    (next (.remotePortAccess { pa := lsRow + 0x20, data := [3], acc := .write }) small).mem.read (lsRow + 0x20) = 3 ∧
    (next (.atomicAtHome { pa := 0x50000, fn := 9, operand := 5, dest := 3 }) paged).mem.read 0x50000 = 5 := by decide

theorem witness_home :
    ownHbm paged 0x50008 = true ∧ (paged.dieAt (hbmDieOf 0x50008)).lost = false ∧ lineBusy paged 0x50008 = false ∧
    lineBusy { paged with dir := [(0x50000, { busy := [8] })] } 0x50008 = true ∧ hbmError paged 0 0x50008 = none ∧ (1 : Nat) ≠ paged.pkg.num ∧
    headWaits paged 0 (atomPlace { pa := 0x50000 }) = false ∧
    headWaits { paged with dir := [(0x50000, { busy := [8] })] } 0 (atomPlace { pa := 0x50000 }) = true ∧
    lineHeld paged 0x50008 = false ∧ lineHeld { paged with dir := [(0x50000, { busy := [8] })] } 0x50008 true = true ∧
    lineAwaited paged 0x50008 = false ∧ lineAwaited (paged.launch (.homeSliceAccess { pa := 0x50000, here := true })) 0x50008 = true ∧
    accessHeld { paged with pkg := {} } 0x50008 = true ∧ ({} : WatchReq).origin = none ∧ ({} : MemReq).here = false ∧
    monsAt paged 0x50000 < 256 ∧ rowOf 0x50000 ≠ .localStore ∧ placeHeld paged (.mem (lsRow + 0x20)) = false ∧
    (8 ∈ ({ busy := [8] } : Sharers).busy ∧ 8 ∉ (Tbl.getD paged.dir 0x50000 {}).busy) ∧ homeFails paged 0 (.mem 0x50000) = none ∧
    (paged.coreAt 0).trig.ord = false ∧ watchDiffers { exp := 1 } (watchValue paged { exp := 1 }) = true ∧
    rowOf (lsRow + 0x20) = .localStore ∧ paPkg (lsRow + 0x20) = paged.pkg.num ∧ lsCore (lsRow + 0x20) = 0 ∧ (paged.coreAt 0).remap = false ∧
    (paged.clusterAt (clusterOf 0)).remap = false ∧ accessHeld paged 0x50008 = false ∧ ({ pa := 0x50000 } : AtomReq).pkg = paged.pkg.num ∧
    (∀ m ∈ membersUnder paged 32 { pa := 0x50000 }, m.okey = none) := by decide

theorem witness_combining :
    (let s := { small with pkg := { small.pkg with cbctl := 0x1041 } }
     ((unitOf s 3).entries.any fun f => f.admits { fn := 1 }) = false ∧ s.pkg.cbctl.getLsbD 0 = true ∧ (unitOf s 3).removed = false ∧
     (unitOf s 3).entries.length < 32) ∧
    ((unitOf { small with units := [(3, { removed := true })] } 3).removed = true) ∧ ({ passed := [3] } : AtomReq).passed.contains 3 = true ∧
    (let e : CombEntry := { id := 2, since := 0, window := 0, members := [(0, { fn := 1 }), (1, { fn := 1 })] }
     let s := { small with units := [(3, { entries := [e], crumbs := [(1, ⟨some [(0, { fn := 1 })], none⟩)] })] }
     ((unitOf s 3).entries.find? fun f => f.id == 2) = some e ∧ entryDue s e = true ∧ (unitOf s 3).crumbs.length + (unitOf s 3).retired < 256 ∧
     Tbl.has (unitOf s 3).crumbs 0 = false ∧ Tbl.has (unitOf s 3).crumbs 1 = true) ∧
    (let s := on fun c => { c with outst := [{ rtag := 6 }] }
     let t := { s with pkg := { s.pkg with cyc := 200000 } }
     (outstandingOf t 0).find? (fun q => q.rtag == 6) = some { rtag := 6 } ∧ requestLives t 0 6 = false ∧ 0 + 200000 ≤ t.pkg.cyc.toNat) := by
  decide

/-- mx.zero clears its tile when the engine reaches it (R218). -/
theorem test_engine :
    let s := next (.matrixCommandExecute 0) (next (.mxZero 0 1) (on fun c => { c with mx := c.mx.setTile 1 { mark := .data } }))
    (s.coreAt 0).mx.queue = [] ∧ ((s.coreAt 0).mx.tile 1).mark = .clean := by decide

theorem witness_engines :
    (let k : MxCmd := { op := .mma 1 {} {}, lines := [(0x80, .mem 0x50080), (0x40, .mem 0x50040)] }
     let x := ({ core0 with mx := { core0.mx with queue := [k] } } : Core)
     (x.mx.queue.find? fun k => unfetched k != [] && !k.waits) = some k ∧ leastLine (unfetched k) = some (0x40, .mem 0x50040) ∧ k.refetch = false) ∧
    (let k : MxCmd := { op := .mma 1 {} {} }
     ({ core0 with mx := { core0.mx with queue := [k] } } : Core).mx.queue = [k] ∧ unfetched k = [] ∧ k.la = 0) ∧
    (let s : State := { small with cores := ([0, 1, 2, 3] : List Nat).map fun c => (c, { core0 with mx := { core0.mx with
       queue := [{ op := .gang 1 none {} }] } }) }
     gangReady s 0 = true ∧ gangReady small 0 = false ∧ gangFailed s 0 = false ∧ 2 ∈ rowCores 0) ∧
    (let k : MxCmd := { op := .ldacc 1 0x1000 }
     let s := (stored 0x1000 [5, 6, 7, 8]).setCore { core0 with mx := { core0.mx with queue := [k] } }
     (s.coreAt 0).mx.queue = [k] ∧ unfetched k = [] ∧ k.la = 0 ∧ mxByte s 0 k (0xE * 2 ^ 48 + 0x1000) = some 5 ∧
     mxByte s 0 k (0xE * 2 ^ 48 + 0x1000 + 3) = some 8 ∧ mxByte s 0 k (0xE * 2 ^ 48 + 0x1000 + 4095) = some 0) ∧
    (small.core.cp.chans.toList.getD 3 {}).cur = none ∧
    (let h := (core0.onChan 3 fun h => { h with cur := some { len := 0, rows := 4 } }).cp.chans.toList.getD 3 {}
     h.cur = some { len := 0, rows := 4 } ∧ h.held = false ∧ 0 * 4 = 0) ∧ placeAwaited paged 0 (.mem 0x50000) = false := by decide

/-- A context with chain 5 of two links on dies 0 and 2 over page 4, mapped at page 0. -/
def chain2 : State :=
  let e : Chain := { gen := 1, cst := 1, base := 4, npg := 0, links := [(0, 0), (0, 2)] }
  let s := { paged with ctxs := [(0, { paged.ctxAt 0 with chains := [(5, e)] })] }
  s.write64 0x30000 0x050000000004021E

/-- A store at the head is applied to the head's copy and goes on to the next link (R103). -/
theorem test_chain_store :
    let t := next (.chainStoreAtLink { ctx := 0, ch := 5, gen := 1, data := [(0x40008, 7)] }) chain2
    t.mem.read 0x40008 = 7 ∧ t.mem.read (2 * hbmDie + 0x40008) = 0 ∧ t.flight.length = 1 ∧
    (next (.chainStoreAtLink { ctx := 0, ch := 5, gen := 1, hop := 1, data := [(0x40008, 7)] }) chain2).mem.read (2 * hbmDie + 0x40008) = 7 := by decide

theorem witness_chain_steps :
    (let st : ChainStore := { ctx := 0, ch := 5, gen := 1, hop := 1, data := [(0x40008, 7)] }
     chainBarred chain2 st = false ∧ storeHeld chain2 st = false ∧ olderGen st.gen (chainAt chain2 0 0 5).gen = false ∧
     (chainAt chain2 0 0 5).links[1]? = some (0, 2) ∧ seenBefore (chainAt chain2 0 0 5) (0, 2) st = false ∧
     (chainAt chain2 0 0 5).sync = none ∧ (st.data.map Prod.fst).Nodup ∧ st.pkg = chain2.pkg.num ∧ (0, 2).1 = chain2.pkg.num ∧
     chainBarred chain2 { st with pkg := 1 } = true ∧ olderGen { st with gen := 0 }.gen (chainAt chain2 0 0 5).gen = true ∧
     storeHeld (chain2.onChain 0 5 fun e => { e with reconf := true }) { st with hop := 0 } = true ∧
     logged { chainOf chain2 0 5 with log := [((0, 0), st)] } (0, 0) st = true ∧ logged (chainAt chain2 0 0 5) (0, 0) st = false) ∧
    chainAddress chain2 { va := 8 } = some ((0, 0, 5), 0x40008) ∧ (chainOf chain2 0 5).cst ≠ 0 ∧ (chainOf chain2 0 5).cst ≠ 3 ∧
    dirtyAt (chainOf chain2 0 5) (linkFor chain2 { va := 8 } (chainOf chain2 0 5)) (lineOf 0x40008) = false ∧ (1 : Nat) ≠ chain2.pkg.num ∧
    (chainOf chain2 0 5).reconf = false ∧ (chainOf chain2 0 5).clean = [] ∧
    (let e : Chain := { chainOf chain2 0 5 with log := [((0, 0), { data := [(0x40008, 7)] })] }
     dirtyAt e (servingLink chain2 0 e) (lineOf 0x40008) = true) ∧
    (let s := chain2.onChain 0 5 fun e => { e with sync := some (0, 3), reconf := true }
     (chainOf s 0 5).sync = some (0, 3) ∧ (chainOf s 0 5).done ≤ (chainOf s 0 5).npg ∧ (chainOf s 0 5).leaving = none ∧
     promotionOf s 0 5 = none ∧ (chainOf s 0 5).reconf = true ∧ 1 < (chainOf s 0 5).links.length ∧ chainDrained s 0 5 = true ∧
     chainDrained { s with flight := [.chainAcknowledgement { ctx := 0, ch := 5 }] } 0 5 = false) ∧
    (let s := { chain2.onChain 0 5 (fun e => { e with sync := some (0, 3), done := 1, clean := [(none, [(0, 0, 4)])] }) with
       flight := [.chainStoreAtLink { ctx := 0, ch := 5, seq := 4, hop := 1 }] }
     (chainOf s 0 5).done = (chainOf s 0 5).npg + 1 ∧ promotionOf s 0 5 = none ∧ (chainOf s 0 5).leaving = none ∧
     (0, 0, 4) ∈ openStores s 0 5) ∧
    ((0, 3) ∉ small.pkg.lostLinks ∧ (1, 3) ∈ ({ small.pkg with lostLinks := [(1, 3)] } : Pkg).lostLinks) := by decide +kernel

theorem witness_chain_reads :
    staleRead chain2 { va := 8 } (chainOf chain2 0 5) = false ∧ copyHeld chain2 0x40008 = false ∧
    copyHeld { chain2 with dir := [(0x40000, { busy := [8] })] } 0x40008 = true := by decide

/-- Chain 5 of context 0 of package 1, with its tail on die 0 here; the same frozen, and with its tail in a third package. -/
theorem witness_foreign_chain :
    let s (links : List (Nat × Nat)) (frozen : Bool) : State := { small with pkg := { small.pkg with
      foreign := [{ owner := 1, ctx := 0, ch := 5, tenant := 3, e := { gen := 1, cst := 1, base := 4, links := links, reconf := frozen } }] } }
    let r : MemReq := { pkg := 1, chain := some (5, 0x40008), gen := 1 }
    let e := fun t => chainAt t 1 0 5
    let here := s [(1, 2), (0, 0)] false
    (∀ t ∈ [here, s [(1, 2), (0, 0)] true, s [(0, 0), (2, 1)] false], chainAddress t r = some ((1, 0, 5), 0x40008) ∧ (e t).cst ≠ 0 ∧ (e t).cst ≠ 3) ∧
    r.pkg ≠ here.pkg.num ∧ staleRead here r (e here) = false ∧ staleRead here { r with gen := 0 } (e here) = true ∧
    copyHeld here (linkPa (tailOf (e here).links) 0x40008) = false ∧ (e here).reconf = false ∧ (e (s [(1, 2), (0, 0)] true)).reconf = true ∧
    dirtyAt (e here) (linkFor here r (e here)) (lineOf 0x40008) = false ∧ (tailOf (e here).links).1 = here.pkg.num ∧
    sectorError here (chainTenant here (1, 0, 5)) (linkPa (linkFor here r (e here)) 0x40008) = none ∧
    (tailOf (e (s [(0, 0), (2, 1)] false)).links).1 ≠ here.pkg.num ∧
    (let t := here.onPkg fun p => { p with foreign := p.foreign.map fun f => { f with e := { f.e with cst := 3 } } }
     (e t).cst = 3) ∧
    (let t := chain2.onChain 0 5 fun e => { e with links := [(0, 0)], reconf := true }
     (chainOf t 0 5).reconf = true ∧ chainDrained t 0 5 = true ∧ (chainOf t 0 5).links.length ≤ 1 ∧ (chainOf t 0 5).freeing = false) ∧
    ({ pkg := 1, answer := some ({}, 0) } : ChainStore).pkg ≠ small.pkg.num ∧ ({ ctx := 0, ch := 5 } : ChainStore).okey = none := by decide +kernel

/-- A trigger of an armed entry fires it, though no member is ready (R319), and one of an idle entry is counted as missed (R317). -/
theorem test_trigger :
    let s := inCtx fun x => { x with groups := [], launches := [(3, { st := .armed, w0 := 1, w1 := 0x100 }), (4, { st := .idle })] }
    (launchOf (next (.launchTrigger { ctx := 0, byTag := false, n := 3, pay := 9 }) s) 0 3).st = .firing ∧
    (launchOf (next (.launchTrigger { ctx := 0, byTag := false, n := 4, pay := 9 }) s) 0 4).missed = 1 ∧
    (launchOf (next (.launchTrigger { ctx := 0, byTag := false, n := 4, pay := 9 }) s) 0 4).saved = 9 := by decide +kernel

theorem witness_launch_steps :
    (let s := inCtx fun x => { x with launches := [(3, { st := .armed, w0 := 1, w1 := 0x100 }), (4, { st := .idle, w1 := 0x100000000000 }), (5, { st := .firing })] }
     (s.ctxAt 0).live = true ∧ (s.ctxAt 0).state ≠ 3 ∧ (launchOf s 0 3).st = .armed ∧ (launchOf s 0 4).st = .idle ∧ (launchOf s 0 5).st = .firing ∧
     entryOf s 0 60 = none) ∧
    (let s := inCtx fun x => { x with groups := [(1, [(0, 0)])], launches := [(3, { st := .firing, w0 := 65, w1 := 0x100, next := 64, low := 0 })] }
     (launchOf s 0 3).mayHand = true ∧ blocksLost s 0 3 = false ∧ (s.dieAt 0).lost = false) ∧
    (let p : GatePost := { id := 9, time := 50, guard := 10 }
     let s (now : Nat) (st : GateState) : State := { small with pkg := { small.pkg with
       now := word now, parts := [(p, st)], gates := [{ id := 9 }], coords := [{ p := p, pkgs := [0, 1], late := true }] } }
     postName p = 9 ∧ postFits small p = true ∧ postFits small { p with coord := 1 } = false ∧ small.partClock 9 = small ∧
     partOf small 9 = none ∧ matching (s 0 .go) p = some { id := 9 } ∧ matching small p = none ∧ partOf (s 50 .armed) 9 = some (p, .armed) ∧
     partOf (s 50 .go) 9 = some (p, .go) ∧ (s 50 .armed).pkg.now.toNat ≤ p.time ∧ p.time < (s 51 .armed).pkg.now.toNat ∧
     p.time + 1000000 ≤ (s 1000050 .armed).pkg.now.toNat ∧ GateState.go ≠ .waiting ∧
     coordOf (s 50 .go) 9 = some { p := p, pkgs := [0, 1], late := true } ∧ p.time ≤ (s 50 .go).pkg.now.toNat ∧
     p.time ≤ (s 40 .go).pkg.now.toNat + p.guard ∧ (s 50 .armed).pkg.now.toNat < p.time + 1000000 ∧
     (s 51 .armed).pkg.now.toNat < p.time + 1000000 ∧ (s 30 .waiting).pkg.now.toNat + p.guard < p.time ∧
     (s 50 .armed).partClock 9 = s 50 .armed ∧ (partOf (s 50 .armed) 9).isSome = true) := by decide

theorem witness_ready_members :
    ((readyMembers { small with ctxs := [(0, { small.ctxAt 0 with groups := [(1, [(0, 0)])] })] } 0 1).any fun c => dieOf c == 0) = true := by
  decide +kernel

/-- A core being moved goes on with empty caches (R365), and a lost die takes the readiness of its cores (R366). -/
theorem test_repair :
    let s := next (.errorRetry (.core 0) false) (on fun c => { c with phase := .idle, l1 := [64] })
    (s.coreAt 0).remap = true ∧ ((next (.remapComplete 0 false) s).coreAt 0).remap = false ∧
    ((next (.remapComplete 0 false) s).coreAt 0).l1 = [] ∧ ((next (.heartbeatTimeout 0) small).dieAt 0).lost = true := by decide +kernel

theorem witness_repair :
    (let s := on fun c => { c with remap := true, phase := .idle }
     (s.coreAt 0).remap = true ∧ holdsActivation (s.coreAt 0) = false) ∧
    (NetPart.ualink 3 ∉ small.pkg.removedParts ∧ NetPart.ualink 3 ∈ ({ small.pkg with removedParts := [.ualink 3] } : Pkg).removedParts) ∧
    (let s := { small with clusters := [(3, { remap := true })] }
     (s.clusterAt (clusterOf 48)).remap = true ∧ ∀ i ∈ movedCores 48 true, holdsActivation (s.coreAt i) = false) ∧
    holdsActivation (small.coreAt 0) = true ∧ NetPart.mesh 0 0 1 ∉ small.pkg.removedParts ∧ Tbl.getD ({ small.pkg with lostLanes := [(4, 2)] } : Pkg).lostLanes 4 0 ≠ 0 ∧
    (let s := (inCtx fun x => { x with wdctl := 100 }).setCore { core0 with wcount := 100 }
     (s.coreAt 0).phase = .running ∧ (s.coreAt 0).trig.kind ≠ 1 ∧ fld (s.ctxAt ((s.coreAt 0).ctx.getD 0)).wdctl 47 0 = 100 ∧ 100 ≤ (s.coreAt 0).wcount ∧
     (s.coreAt 0).due = none) := by decide

/-- The package with femOS and its ports ready, an open window of context 0, and mailbox 2 free. -/
def package : State := { small with pkg := { small.pkg with femos := true, windows := [0], pcie := true, ual := [0], eth := [0] } }

/-- A mailbox command that femOS takes is answered with an MSI-X (R374); an image that the ROM accepts starts (R383). -/
theorem test_package :
    let s := next (.mbxUnlistedCommand 2 99) package
    (Tbl.getD s.pkg.mbx 2 {}).status = 1 ∧ (Tbl.getD (next (.mailboxCompletion 2) s).pkg.mbx 2 {}).status = 3 ∧
    (next (.mailboxCompletion 2) s).outs = [.msix 2] ∧ (next (.mbxUnlistedCommand 2 99) small).pkg.mbx = [] ∧
    (next (.boot { rootOk := true, sigOk := true, version := 4 } {}) small).pkg.fused = 4 ∧ (next (.boot {} {}) small).pkg.recovery = true := by
  decide +kernel

theorem witness_package :
    ((package.ctxAt 0).live = true ∧ 0 ∈ package.pkg.windows ∧ (words [63, 7]).length = 16 ∧ ofBytes ((words [63, 7]).take 8) < 64) ∧
    takes package 2 = true ∧ takes small 2 = false ∧ package.pkg.ual ≠ [] ∧ small.pkg.ual = [] ∧ small.pkg.pcie = false ∧ package.pkg.eth ≠ [] ∧ small.pkg.eth = [] ∧ running package 5 = false ∧ running package 0 = true ∧
    reservable { package with dies := [(1, { ready := true })] } 1 0 0x180000 = true ∧ reservable package 1 0 1 = false ∧
    awaitsHost { core0 with hostWait := true } = true ∧ keyFits package { key := 5, body := .msg {} } = false ∧
    (({ package with pkg := { package.pkg with keys := [(0, 5)] } } : State).acceptReq { key := 5, body := .msg {} }).isSome = true ∧
    (let s := { (stored 0x1000 (words [1, 1, 0, 0, 0x101, 0, 0, 0, 60])) with pkg := { package.pkg with
       qps := [(qpKey 0 1, { vlan := 7, mac := 0x0A0B0C0D0E0F, tx := lsPa small 0 0x1000, rx := lsPa small 0 0x1000 })] } }
     let tx := ringAt s (lsPa small 0 0x1000)
     let frame : List Byte := [0x0A, 0x0B, 0x0C, 0x0D, 0x0E, 0x0F, 1, 2, 3, 4, 5, 6, 0x81, 0, 0, 7] ++ List.replicate 44 0
     frameFor (Tbl.getD s.pkg.qps (qpKey 0 1) {}) frame = true ∧ frameFor (Tbl.getD s.pkg.qps (qpKey 0 1) {}) [] = false ∧
     goodLength tx frame.length = true ∧ tx.head - tx.tail ≠ tx.n ∧ tx.head - tx.cmt ≠ 64 ∧ 0 ∈ s.pkg.eth ∧ 1 ∉ s.pkg.eth ∧ ringFails s 0 (lsPa small 0 0x1000) 64 = false ∧
     ringWaits s (lsPa small 0 0x1000) = false ∧ ringFails s 0 (tx.slot (lsPa small 0 0x1000) tx.tail) (60 + 8) = false ∧
     Tbl.has s.pkg.qps (qpKey 0 1) = true ∧ running s 0 = true ∧ tx.bad = false ∧ tx.tail < tx.cmt ∧ goodLength tx 60 = true ∧
     ofBytes (s.readPa (tx.slot (lsPa small 0 0x1000) tx.tail) 8) = 60 ∧ goodLength tx 59 = false) ∧
    accepts package {} = false ∧ accepts package { rootOk := true, sigOk := true } = true := by decide

theorem witness_boot_and_time :
    small.pkg.femos = false ∧ small.pkg.recovery = false ∧ small.pkg.clkdeg = false ∧ 1000 < 1001 ∧ (small.dieAt 0).lost = false ∧
    ({ small.pkg with clkdeg := true, terr := 499, calm := 1000000000 } : Pkg).terr < 500 ∧
    (∀ x < 64, (State.reset.ctxAt x).live = false) ∧
    ∀ x < 64, (({ small with ctxs := (List.range 64).map fun x => (x, { live := true }) } : State).ctxAt x).live = true := by decide

/-! ## Words, steps and reset -/

/-- A well-formed instruction with every operand at its greatest value. -/
theorem witness_decode_encode : wellFormed (.atAddcb 15 63 63 63) = true ∧ encode (.atAddcb 15 63 63 63) = some 0x547FFFFF := by decide

/-- A core of which nothing must come first, whose next word is sys.nop. -/
theorem witness_step :
    let s := { pagedOn (fun c => { c with pc := 0x40 }) with agenda := [.core 0 0 false], mem := paged.mem.writeN 0x50040 (wordBytes 0x00010000) }
    let u := { ({ s with agenda := [], tick := s.tick + 1 } : State).advance 0 with cur := 0, comb := false }
    let m := resolveFetch u.core.pc.toNat .fetch
    s.pkg.down = false ∧ u.core.phase = .running ∧ u.core.due = none ∧ u.core.held = none ∧ u.core.stalled = false ∧
    (∀ r ∈ u.core.outst, r.dest = 0) ∧ u.core.trail.role = .none ∧ passes fetchStage u = true ∧
    (value fetchStage (0, none) u).1 = 0x00010000 ∧ (after fetchStage u).core.trail = u.core.trail ∧ decodeWord 0x00010000 = .ok .sysNop ∧
    passes m u = true ∧ readPlace (after m u) 0 0 (value m (.mem 0) u) 4 = .ok [0, 0, 1, 0] ∧
    bit ((after m u).ctxAt 0).sigctl.toNat 63 = false ∧ (after m u).core.trig.kind ≠ 1 ∧
    (match step s with
     | .next t => t.core.pc == 0x44 && t.core.icount == 1
     | _ => false) = true :=
  ⟨by decide, by decide, by decide, by decide, by decide, by decide, by decide, by decide, by decide, by decide, rfl, by decide, by decide,
   by decide, by decide, by decide⟩

/-- A machine with a canonical memory that makes a step. -/
theorem witness_canonical : Canonical paged ∧ ∃ t, step { paged with agenda := [.core 0 0 false] } = .next t :=
  ⟨by unfold Canonical; decide, _, rfl⟩

theorem witness_shut_down : small.pkg.down = false ∧ (next .thermalShutdown small).pkg.down = true ∧
    (match step (next .thermalShutdown small) with
     | .fault f => f == .shutDown
     | _ => false) = true := ⟨by decide, by decide, by decide⟩

end Sys2Proof.Machine.Tests
end

section
/-!
PROOFS. Words and steps: every instruction that has a word is decoded from it.
-/

namespace Sys2Proof.Laws.Encoding

/-- One lemma per constructor, in the order of Instr. -/
theorem decodeWord_encode (i : Instr) : Statement i := by
  cases i
  exacts [undefinedEncoding _, registerWrite _ _, rostatSelect _, rostatArm _, rostatDisarm _, ctxctlPreempt _, ctxctlResume _,
    ctxctlKill _, messageArrival _, dispatch _, activationCommit _, sequencerArrival _, tlbMissAtSlice _ _ _ _,
    pageWalkComplete _ _ _, pgInvalCompletion _, pgPinCompletion _, epochEnd _, migrationSwitch _ _, homeSliceAccess _,
    invalidation _ _, invalidationAck _ _, atomicAtHome _, watchArmAtHome _, combineRequest _ _ _, combineWindowExpiry _ _,
    decombine _ _ _, atomicReplyTimeout _ _ _, tileFetchLine _, matrixCommandExecute _, gangStart _, copyBeat _ _,
    footprintPrefetch _, remotePortAccess _, queueWordArrival _ _ _, chainStoreAtLink _, chainAcknowledgement _,
    chainStoreCompletion _, chainRead _, chainTailQuery _, chainPageCopy _ _, chainPromotionMarker _ _, chainHeadHandoff _ _,
    chainCleanDone _ _, linkUnreachable _ _, postArrival _, postApply _, reportWindowExpiry _ _ _, runOutFire _ _, taskAtHome _,
    taskDeadline _ _, taskTake _, barrierAcknowledgement _ _ _ _, barrierRelease _ _ _ _, launchTrigger _, launchBatch _ _ _,
    indexAcknowledgement _ _ _, preemptionHalt _, localStoreSwap _ _, gatePost _, gateArmed _ _ _, gateGuardDeadline _,
    gateGo _ _, gateAbort _, gateActionTime _, gateArmedTimeout _, errorRetry _ _, remapComplete _ _, linkRemoval _,
    packetResendTimeout _, heartbeatTimeout _, budgetExpiry _, hostTriggerRecord _ _ _, mbxAttest _ _, mbxCreateContext _ _ _,
    mbxLoadImage _ _ _ _, mbxDestroyContext _ _, mbxTenantKey _ _ _ _, mbxReserveRange _ _ _ _ _, mbxHealthLog _ _,
    mbxUnlistedCommand _ _, mailboxCompletion _, ualinkRequest _, hostCompletion _ _ _, hostCompletionTimeout _,
    ethernetTransmit _ _, ethernetReceive _ _ _, ptpMessage _ _, clockDegradedExit, boot _ _, selfTestReady _, thermalShutdown,
    clockDegradedEntry _, goMarkedNow _, bridgeLaneSwapDone _, lostResponseTimeout _, powerCapping _, sysInv, sysNop, sysBrk _,
    sysTrap _, sysEret, sysGet _ _, sysPut _ _, sysSet _ _, sysClr _ _, sysKill _, fenceFull _, fenceAcq _, fenceRel _,
    fenceEng _, saAdd _ _ _, saSub _ _ _, saMul _ _ _, saMulh _ _ _, saMulhn _ _ _, saDiv _ _ _, saDivn _ _ _, saRem _ _ _,
    saRemn _ _ _, saMin _ _ _, saMax _ _ _, saMinn _ _ _, saMaxn _ _ _, saPadd _ _ _, saAbs _ _, saNeg _ _, sbAnd _ _ _,
    sbOr _ _ _, sbXor _ _ _, sbAndn _ _ _, sbShl _ _ _, sbShr _ _ _, sbSra _ _ _, sbRot _ _ _, sbClz _ _, sbCtz _ _, sbPop _ _,
    sbSeq _ _ _, sbSne _ _ _, sbSlt _ _ _, sbSltn _ _ _, sbSel _ _ _, swAdd _ _ _, swSub _ _ _, swMul _ _ _, swDiv _ _ _,
    swDivn _ _ _, swRem _ _ _, swRemn _ _ _, swShl _ _ _, swShr _ _ _, swSra _ _ _, swMin _ _ _, swMax _ _ _, siAdd _ _ _,
    siAnd _ _ _, siOr _ _ _, siXor _ _ _, siShl _ _ _, siShr _ _ _, siSra _ _ _, siRot _ _ _, siSlt _ _ _, liHi _ _, liTop _ _,
    brEq _ _, brNe _ _, brLt _ _, brGe _ _, brGt _ _, brLe _ _, brAny _ _, brNone _ _, brAlways _, jmp _, call _, jxJr _,
    jxCallr _ _, jxRet, lpDo _ _, prAnd _ _ _, prOr _ _ _, prXor _ _ _, prNot _ _, prSet _ _, prGet _ _, prCnt _ _, prFirst _ _,
    ldB _ _ _ _, ldBn _ _ _ _, ldH _ _ _ _, ldHn _ _ _ _, ldW _ _ _ _, ldWn _ _ _ _, ldD _ _ _ _, ldV _ _ _ _, ldVt _ _ _ _,
    ldAcq _ _ _ _, ldDev _ _ _ _, stB _ _ _, stH _ _ _, stW _ _ _, stD _ _ _, stV _ _ _, stVm _ _ _, stVt _ _ _, stRel _ _ _,
    stDev _ _ _, atAdd _ _ _ _, atAddcb _ _ _ _, atAnd _ _ _ _, atOr _ _ _ _, atXor _ _ _ _, atMin _ _ _ _, atMax _ _ _ _,
    atMinn _ _ _ _, atMaxn _ _ _ _, atSwp _ _ _ _, atCas _ _ _ _, atFadd _ _ _ _, atRed _ _ _ _, atWatch _ _ _ _, atwAdd _ _ _ _,
    atwAddcb _ _ _ _, atwAnd _ _ _ _, atwOr _ _ _ _, atwXor _ _ _ _, atwMin _ _ _ _, atwMax _ _ _ _, atwMinn _ _ _ _,
    atwMaxn _ _ _ _, atwSwp _ _ _ _, atwCas _ _ _ _, atwFadd _ _ _ _, atwRed _ _ _ _, atwWatch _ _ _ _, vaFadd _ _ _,
    vaFsub _ _ _, vaFmul _ _ _, vaFma _ _ _, vaFms _ _ _, vaFmin _ _ _, vaFmax _ _ _, vaFabs _ _, vaFneg _ _, vaFrcp _ _,
    vaFrsq _ _, vaFsqrt _ _, vaFdiv _ _ _, viAdd _ _ _, viSub _ _ _, viMul _ _ _, viMulh _ _ _, viAnd _ _ _, viOr _ _ _,
    viXor _ _ _, viShl _ _ _, viShr _ _ _, viSra _ _ _, viMin _ _ _, viMax _ _ _, viMinn _ _ _, viMaxn _ _ _, vcFeq _ _ _,
    vcFne _ _ _, vcFlt _ _ _, vcFle _ _ _, vcFun _ _ _, vcIeq _ _ _, vcIlt _ _ _, vcIltn _ _ _, vxBcast _ _ _, vxExtr _ _ _,
    vxIns _ _ _, vxPerm _ _ _, vxSel _ _ _, vxIota _ _ _, vxCvtif _ _ _, vxCvtfi _ _ _, vxCvtbh _ _ _, vxCvthb _ _ _,
    vxCvtfh _ _ _, vxCvthf _ _ _, vxCvt8 _ _ _, vxCvtq8 _ _ _, vxCvt4 _ _ _, vxCvtq4 _ _ _, vrFsum _ _ _, vrFmax _ _ _,
    vrFmin _ _ _, vrIsum _ _ _, vrImax _ _ _, vrImin _ _ _, vrAnd _ _ _, vrOr _ _ _, vgGat _ _ _ _, vgSca _ _ _, vgAtadd _ _ _,
    vgAtfadd _ _ _, vgAtmin _ _ _, vgAtmax _ _ _, vgAtor _ _ _, mxMma _ _ _ _, mxMmas _ _ _ _, mxZero _ _, mxLdacc _ _ _,
    mxStacc _ _ _, mxStsp _ _ _, mxGang _ _ _ _, mxCfg _ _, mxMask _ _ _, mxDrain, cpGet _ _ _, cpPut _ _ _, cpGet2d _ _ _,
    cpPut2d _ _ _, cpFill _ _ _, cpNzpk _ _ _, cpWptr _ _ _, cpCancel _, msSend _ _ _, msSendt _ _ _, msSpr _ _ _, msBcast _ _ _,
    msEnd, msEndc _ _, msDefer _, tkNew _ _ _ _, tkArr _, tkArrd _ _, tkDl _ _, tkKill _, tkBarr _, tkBwait _ _, tgEn _ _,
    tgDis _, tgPend _, tgClr _, tgGet _ _, gmAdd _ _ _, gmSub _ _ _, gmDamp _ _ _, gmMarg _ _ _, gmSol _ _, gmCov _ _,
    gmLin _ _ _, gmRes _ _ _, gmConv _ _, gmRdro _ _, fgAttach _ _ _ _, fgDetach _ _, fgSlot _ _ _ _, fgPost _ _ _, fgGen _ _ _ _,
    chLink _ _ _, chUnlink _ _ _, chRelink _ _ _, chStat _ _ _ _, chTail _ _ _, chClean _ _, rgAcq _ _ _, rgCmt _ _, rgPeek _ _ _,
    rgRel _, qpCtl _ _, qpStat _ _, qpCatch _ _, glArm _ _, glDisarm _, glTrig _ _, glGate _, glIdx _ _ _, glGrp _ _ _,
    pgInval _ _ _, pgReplay _, pgFbrd _ _ _, pgPin _ _ _, pgHint _ _ _, trlLead, trlJoin, trlQuit]

end Sys2Proof.Laws.Encoding

namespace Sys2Proof

/-- Decoding reads a word from its four bytes and leaves what follows them (R5). -/
theorem decode_wordBytes {w : BitVec 32} {i : Instr} (rest : List Byte) (h : decodeWord w = .ok i) :
    decode (wordBytes w ++ rest) = .ok (i, rest) := by
  simp [decode, wordBytes, h]

end Sys2Proof

/-- Settles O56: the word of an instruction decodes to it, and its bytes make up the word. -/
theorem decodeEncode : Obligations.DecodeEncode :=
  fun i w rest _ h => Sys2Proof.decode_wordBytes rest (Sys2Proof.Laws.Encoding.decodeWord_encode i w h)

end

section
/-!
PROOFS. The turn of a core that nothing holds up: it fetches a word and runs the instruction that the word decodes to.
-/

namespace Sys2Proof.Machine

/-! ## A core that follows no row -/

section NoTrail
variable {x : Core} (h : x.trail.role = .none)
include h

theorem trails_of_role_none : x.trails = false := by simp [Core.trails, h]
theorem leads_of_role_none : x.leads = false := by simp [Core.leads, h]
theorem inTrail_of_role_none : x.inTrail = false := by simp [Core.inTrail, h]
theorem atStream_of_role_none : x.atStream = x := by simp [Core.atStream, trails_of_role_none h]

end NoTrail

/-! ## The turn (R5) -/

/-- A step without a shutdown is the turn at the head of the agenda. -/
theorem step_core_turn {s : State} {dt c : Nat} {comb : Bool} {rest : List Turn} (hd : s.pkg.down = false)
    (ha : s.agenda = .core dt c comb :: rest) :
    step s = State.coreTurn
      { ({ s with agenda := rest, tick := s.tick + 1 } : State).advance dt with cur := c, comb := comb } := by
  simp [step, State.turn, State.act, hd, ha]

/-- A running core that nothing must come first of, and that follows no row, fetches. -/
theorem coreTurn_fetches {t u : State} (hu : u = t.setCore t.core) (hp : u.core.phase = .running) (hd : u.core.due = none)
    (hr : u.core.ret = none) (hh : u.core.held = none) (hs : u.core.stalled = false) (ho : ∀ r ∈ u.core.outst, r.dest = 0)
    (ht : u.core.trail.role = .none) : t.coreTurn = u.fetchAndRun := by
  have hc : u.core = t.core := by rw [hu, core_setCore]
  have hw : (u.core.outst.any fun r => r.dest != 0) = false := by simpa using ho
  have hrow : rowAway u u.cur = false := by
    have : (u.coreAt u.cur).inTrail = false := inTrail_of_role_none ht
    simp [rowAway, this]
  have hrun : t.coreTurn = t.runningTurn := by simp [State.coreTurn, ← hc, hp]
  rw [hrun, State.runningTurn]
  simp only [← hc, atStream_of_role_none ht]
  rw [hc, ← hu]
  simp [hd, hh, hs, hw, hr, hrow, trails_of_role_none ht, leads_of_role_none ht]

/-! ## An instruction with what surrounds it -/

/-- An instruction of a core that follows no row runs, and what follows it comes after. -/
theorem runInstr_of_next {s t : State} {i : Instr} {w : BitVec 32} {b : Option Block} (ht : s.core.trail.role = .none)
    (h : exec i (s.setCore (s.core.beforeInstr i b)) = .next t) :
    s.runInstr i w b = .next (t.afterInstr s.cur s.core i w b) := by
  simp [State.runInstr, trails_of_role_none ht, h]

/-- Nothing follows an instruction without a checked image on a core that follows no row, but for a jx.ret. -/
theorem afterInstr_unchecked {s : State} {c : Nat} {x : Core} {i : Instr} {w : BitVec 32} (ht : x.trail.role = .none)
    (hi : i ≠ .jxRet) : s.afterInstr c x i w none = s := by
  have hrej : s.rejoinCatch c i = s := by
    unfold State.rejoinCatch
    split
    · contradiction
    · rfl
  simp [State.afterInstr, trails_of_role_none ht, leads_of_role_none ht, hrej]

theorem beforeInstr_unchecked (x : Core) (i : Instr) : x.beforeInstr i none = x := by
  unfold Core.beforeInstr
  split
  · contradiction
  · rfl

/-- An instruction without a checked image, on a core that follows no row, does what it means and no more. -/
theorem runInstr_unchecked {s : State} {i : Instr} {w : BitVec 32} (ht : s.core.trail.role = .none) (hs : s.setCore s.core = s)
    (hi : i ≠ .jxRet) : s.runInstr i w none = exec i s := by
  simp only [State.runInstr, trails_of_role_none ht, beforeInstr_unchecked, hs]
  cases exec i s <;> simp [afterInstr_unchecked ht hi]

/-! ## The fetch (R5, R122) -/

/-- Four bytes as a number are the word that they make up (R5). -/
theorem ofBytes_word (b0 b1 b2 b3 : Byte) : BitVec.ofNat 32 (ofBytes [b0, b1, b2, b3]) = wordOfBytes b0 b1 b2 b3 := by
  apply BitVec.eq_of_toNat_eq
  have h0 := b0.isLt
  have h1 := b1.isLt
  have h2 := b2.isLt
  have h3 := b3.isLt
  rw [BitVec.toNat_ofNat, wordOfBytes, BitVec.toNat_append, BitVec.toNat_append, BitVec.toNat_append,
    ← Nat.shiftLeft_add_eq_or_of_lt h0, ← Nat.shiftLeft_add_eq_or_of_lt h1, ← Nat.shiftLeft_add_eq_or_of_lt h2]
  simp only [ofBytes, Nat.shiftLeft_eq]
  omega

/-- Outside a sprinkle handler no tile takes the mark of a failing one. -/
theorem markNamed_elsewhere {s : State} (w : BitVec 32) (hk : s.core.trig.kind ≠ 1) : markNamed w s = .ok ((), s) := by
  rw [markNamed, bind_ok (core_at s)]
  cases tileNamed w <;> simp [hk]

/-- Outside a sprinkle handler every instruction may run. -/
theorem sprinkleCheck_elsewhere {s : State} (w : BitVec 32) (hk : s.core.trig.kind ≠ 1) : sprinkleCheck w s = .ok ((), s) := by
  simp [sprinkleCheck, bind_ok (core_at s), hk]

/-- Without a checked image the checker follows nothing (R357). -/
theorem checkWord_unchecked {s : State} (w : BitVec 32) (h : bit (s.ctxAt s.ctxNo).sigctl.toNat 63 = false) :
    checkWord w s = .ok (none, s) := by
  simp [checkWord, bind_ok (get_at s), h]

/-- The word at the program counter is that of the four bytes there, and the fetch is noted. -/
theorem fetchWord_gives {u r : State} {pl : Place} {b0 b1 b2 b3 : Byte}
    (hp : Gives (resolveFetch u.core.pc.toNat .fetch) u pl r)
    (hb : readPlace r r.cur r.ctxNo pl 4 = .ok [b0, b1, b2, b3]) :
    fetchWord u = .ok (wordOfBytes b0 b1 b2 b3, r.noteFetch r.cur r.ctxNo pl) := by
  have hbytes : fetchBytes u.core.pc.toNat pl 4 r = .ok ([b0, b1, b2, b3], r) := by
    simp [fetchBytes, bind_ok (get_at r), hb]
  rw [fetchWord, bind_ok (core_at u), bind_ok hp, bind_ok hbytes, bind_ok (modify_at _), pure_at, ofBytes_word]

/-- A fetch without a checked image and outside a sprinkle handler keeps the word, and the checker follows nothing. -/
theorem fetchStage_unchecked {u t : State} {w : BitVec 32} (hf : fetchWord u = .ok (w, t)) (ht : u.core.trail.role = .none)
    (hk : t.core.trig.kind ≠ 1) (hc : bit (t.ctxAt t.ctxNo).sigctl.toNat 63 = false) :
    fetchStage u = .ok ((w, none), t.setCore { t.core with ir := w }) := by
  have hsprinkle : sprinkleCheck w (t.setCore { t.core with ir := w }) = .ok ((), t.setCore { t.core with ir := w }) :=
    sprinkleCheck_elsewhere w (by simpa using hk)
  rw [fetchStage, bind_ok (core_at u)]
  simp only [trails_of_role_none ht]
  rw [bind_ok hf, bind_ok (markNamed_elsewhere w hk), bind_ok (checkWord_unchecked w hc), bind_ok (modCore_at _),
    bind_ok hsprinkle, pure_at]

theorem instrOf_of_decodeWord {w : BitVec 32} {i : Instr} (h : decodeWord w = .ok i) : instrOf w = i := by simp [instrOf, h]

theorem decodeWord_of_decode {b0 b1 b2 b3 : Byte} {i : Instr} (h : decode [b0, b1, b2, b3] = .ok (i, [])) :
    decodeWord (wordOfBytes b0 b1 b2 b3) = .ok i := by
  unfold decode at h
  cases hw : decodeWord (wordOfBytes b0 b1 b2 b3) <;> simp_all

/-- A core that fetches a word runs the instruction that it decodes to. -/
theorem fetchAndRun_of_fetch {u v : State} {w : BitVec 32} {b : Option Block} {i : Instr}
    (hf : fetchStage u = .ok ((w, b), v)) (hw : decodeWord w = .ok i) : u.fetchAndRun = v.runInstr i w b := by
  simp [State.fetchAndRun, hf, instrOf_of_decodeWord hw]

/-! ## The obligation -/

/-- Settles O57: the turn of a core that nothing holds up is its fetch, and the word's instruction runs. -/
theorem stepRunsDecoded : Obligations.StepRunsDecoded := by
  intro s u v dt c comb rest i hdown hagenda hu hphase hdue hret hheld hstalled houtst hrole hv
  have hstep : step s = u.fetchAndRun :=
    (step_core_turn hdown hagenda).trans (coreTurn_fetches hu hphase hdue hret hheld hstalled houtst hrole)
  have hvrole : v.core.trail.role = .none := by rw [hv, hrole]
  refine ⟨fun w b t hf hw hx => ?_, fun pl r t b0 b1 b2 b3 w hw hp hb ht hc hk hvt hi hret => ?_⟩
  · rw [hstep, fetchAndRun_of_fetch hf hw, runInstr_of_next hvrole hx]
  · have hf : fetchWord u = .ok (w, t) := by rw [hw, ht]; exact fetchWord_gives hp hb
    have hs : fetchStage u = .ok ((w, none), v) := by rw [hvt]; exact fetchStage_unchecked hf hrole hk hc
    have hw' : decodeWord w = .ok i := by rw [hw]; exact decodeWord_of_decode hi
    have hsame : v.setCore v.core = v := by simp [hvt]
    rw [hstep, fetchAndRun_of_fetch hs hw', runInstr_unchecked hvrole hsame hret]

end Sys2Proof.Machine

end

section
/-!
PROOFS. Register writes with behaviour of their own: rostat, and the requests of ctxctl.
-/

namespace Sys2Proof.Machine

/-! ## The contexts of a state -/

section Contexts
variable (s : State) (x : Nat) (f : Ctx → Ctx)

@[simp] theorem ctxAt_onCtx_same : (s.onCtx x f).ctxAt x = f (s.ctxAt x) := by simp [State.onCtx, State.ctxAt]
theorem ctxAt_onCtx_ne {y : Nat} (h : x ≠ y) : (s.onCtx x f).ctxAt y = s.ctxAt y := by
  simp [State.onCtx, State.ctxAt, Tbl.getD_put_ne _ _ _ h]
@[simp] theorem onCtx_core : (s.onCtx x f).core = s.core := rfl
@[simp] theorem onCore_ctxAt (c : Nat) (g : Core → Core) : (s.onCore c g).ctxAt x = s.ctxAt x := rfl
@[simp] theorem setCore_ctxNo (y : Core) (h : y.ctx = s.core.ctx) : (s.setCore y).ctxNo = s.ctxNo := by simp [State.ctxNo, h]
@[simp] theorem onCtx_ctxNo : (s.onCtx x f).ctxNo = s.ctxNo := rfl
@[simp] theorem onCtx_residents (y : Nat) : residents (s.onCtx x f) y = residents s y := rfl

end Contexts

/-! ## Run-out units and rostat (R243) -/

section RunOuts
variable (s : State) (ctx g : Nat) (f : RunOut → RunOut)

@[simp] theorem onRun_core : (s.onRun ctx g f).core = s.core := rfl
@[simp] theorem onRun_ctxNo : (s.onRun ctx g f).ctxNo = s.ctxNo := rfl
@[simp] theorem onRun_cur : (s.onRun ctx g f).cur = s.cur := rfl
@[simp] theorem onRun_pkg : (s.onRun ctx g f).pkg = s.pkg := rfl
@[simp] theorem runOf_onRun_same : runOf (s.onRun ctx g f) ctx g = f (runOf s ctx g) := by simp [runOf, State.onRun]

@[simp] theorem rostatSelectTo_rgrp (v : Word) : (s.rostatSelectTo v).core.rgrp = v.setWidth 8 := by simp [State.rostatSelectTo]
@[simp] theorem rostatSelectTo_ctxNo (v : Word) : (s.rostatSelectTo v).ctxNo = s.ctxNo := by simp [State.rostatSelectTo]
@[simp] theorem rostatSelectTo_runOf (v : Word) : runOf (s.rostatSelectTo v) ctx g = runOf s ctx g := rfl

end RunOuts

theorem bit_toNat_eq_getLsbD {n : Nat} (v : BitVec n) (i : Nat) : bit v.toNat i = v.getLsbD i := by
  simp [bit, BitVec.getLsbD, Nat.testBit_eq_decide_div_mod_eq, Nat.shiftRight_eq_div_pow, beq_eq_decide]

/-- The group that a write of rostat names (R243). -/
theorem toNat_setWidth_8 (v : Word) : (v.setWidth 8).toNat = v.toNat % 256 := by simp

/-- The unit of the group named is armed afresh (R243). -/
theorem rostatArmTo_runOf (s : State) (v : Word) : runOf (s.rostatArmTo v) s.ctxNo (v.toNat % 256) =
    { runOf s s.ctxNo (v.toNat % 256) with
        arm := true, lent := (v >>> 8).setWidth 6, fired := (runOf s s.ctxNo (v.toNat % 256)).fired && !v.getLsbD 18,
        seen := false, count := 0, cond := false, done := false, reports := [] } := by
  rw [State.rostatArmTo, rostatSelectTo_ctxNo, rostatSelectTo_rgrp, toNat_setWidth_8, runOf_onRun_same, rostatSelectTo_runOf,
    bit_toNat_eq_getLsbD]

/-- The unit of the group named is disarmed (R243). -/
theorem rostatDisarmTo_runOf (s : State) (v : Word) : runOf (s.rostatDisarmTo v) s.ctxNo (v.toNat % 256) =
    { runOf s s.ctxNo (v.toNat % 256) with
        arm := false, lent := (v >>> 8).setWidth 6, fired := (runOf s s.ctxNo (v.toNat % 256)).fired && !v.getLsbD 18,
        cond := false, count := 0, done := false } := by
  rw [State.rostatDisarmTo, rostatSelectTo_ctxNo, rostatSelectTo_rgrp, toNat_setWidth_8, runOf_onRun_same, rostatSelectTo_runOf,
    bit_toNat_eq_getLsbD]

/-! ## Folds over steps of the device -/

/-- Requests put in progress leave the contexts as they are. -/
theorem foldl_launch_ctxAt {α : Type} (f : α → Instr) (xs : List α) (s : State) (x : Nat) :
    (xs.foldl (fun s a => s.launch (f a)) s).ctxAt x = s.ctxAt x := by
  induction xs generalizing s with
  | nil => rfl
  | cons a rest ih => exact (ih _).trans (launch_ctxAt s (f a) x)

/-- Requests put in progress stand behind what is in flight, in order. -/
theorem foldl_launch_flight {α : Type} (f : α → Instr) (xs : List α) (s : State) :
    (xs.foldl (fun s a => s.launch (f a)) s).flight = s.flight ++ xs.map f := by
  induction xs generalizing s with
  | nil => simp
  | cons a rest ih => simp [ih]

/-! ## Pre-emption (R336) -/

/-- A pre-emption that no core stands against is done: the context is pre-empted. -/
theorem preempted_state (s : State) (ctx : Nat) : ((s.preempted ctx).ctxAt ctx).state = 2 := by simp [State.preempted]

section Preempt
variable {s : State} {ctx : Nat} (hl : (s.ctxAt ctx).live = true) (hs : (s.ctxAt ctx).state = 0)
include hl hs

theorem preempt_without_residents (h : residents s ctx = []) : ((s.preempt ctx).ctxAt ctx).state = 2 := by
  simp [State.preempt, hl, hs, h, preempted_state]

/-- Each core that holds the context is to halt. -/
theorem preempt_with_residents (h : residents s ctx ≠ []) : ((s.preempt ctx).ctxAt ctx).state = 1 ∧
    (s.preempt ctx).flight = s.flight ++ (residents s ctx).map Instr.preemptionHalt := by
  simp [State.preempt, hl, hs, h, foldl_launch_ctxAt, foldl_launch_flight]

end Preempt

/-! ## Resume (R337) -/

/-- A kill leaves the context killed. -/
theorem kill_state (s : State) (ctx reason imm : Nat) : ((s.kill ctx reason imm).ctxAt ctx).state = 3 := by simp [State.kill]

/-- Engines that start again put steps in progress, and change no context. -/
@[simp] theorem restartEngines_ctxAt (s : State) (c x : Nat) : (s.restartEngines c).ctxAt x = s.ctxAt x := by
  unfold State.restartEngines
  refine List.foldlRecOn _ _ (motive := fun t : State => t.ctxAt x = s.ctxAt x) ?_ fun t ht ch _ => ?_
  · split <;> split <;> rfl
  · split
    · exact ht
    · exact ht

/-- Messages alone that are put in front of the traffic in flight change no context. -/
theorem inFront_messages_ctxAt (s : State) (ms : List Msg) (x : Nat) :
    (s.inFront (fun t => [].foldl State.redeliver t) ms).ctxAt x = s.ctxAt x := rfl

/-- A core that takes back its saved state leaves its context's state as it is. -/
theorem takeBack_state (s : State) (ctx c : Nat) (saved : Core) :
    (((((s.onCore c fun x => x.restored saved ctx)).onCtx ctx fun x => { x with saves := Tbl.del x.saves c }).restartEngines c).ctxAt
      ctx).state = (s.ctxAt ctx).state := by simp

/-- A context with an altered save record is killed by its resume (R335). -/
theorem resume_altered {s : State} {ctx : Nat} (hl : (s.ctxAt ctx).live = true) (hs : (s.ctxAt ctx).state = 2)
    (ha : (s.ctxAt ctx).altered ≠ []) : ((s.resume ctx).ctxAt ctx).state = 3 := by
  simp [State.resume, hl, hs, ha, kill_state]

/-- A context without an altered save record and without parked triggers runs again. -/
theorem resume_unaltered {s : State} {ctx : Nat} (hl : (s.ctxAt ctx).live = true) (hs : (s.ctxAt ctx).state = 2)
    (hp : (s.ctxAt ctx).parked = []) (ha : (s.ctxAt ctx).altered = []) : ((s.resume ctx).ctxAt ctx).state = 0 := by
  have hgo : ∀ b : Bool, (if b = true then (([] : List Msg), []) else List.partition Msg.resume []) = ([], []) := by
    intro b; cases b <;> rfl
  simp only [State.resume, hl, hs, hp, ha, hgo]
  refine List.foldlRecOn _ _ (motive := fun t : State => (t.ctxAt ctx).state = 0) ?_ fun t ht e _ => ?_
  · rw [inFront_messages_ctxAt, ctxAt_onCtx_same]
  · split
    · rw [takeBack_state, ht]
    · exact ht

/-! ## The obligation -/

/-- Settles O44: each step is one operation, whose own lemma says what it leaves. -/
theorem registerSteps : Obligations.RegisterSteps := by
  intro s n v ctx
  refine ⟨fun h62 h12A hloop => ?_, rfl, ⟨⟨_, rfl, ?_, ?_⟩, _, rfl, ?_, ?_⟩, fun hl hs => ⟨_, rfl, ?_, ?_⟩, fun hl hs hp => ⟨_, rfl, ?_, ?_⟩⟩
  · exact congrArg _ (if_neg (by simp only [h62, h12A, hloop, false_or, Bool.false_eq_true, not_false_eq_true]))
  · exact rostatSelectTo_rgrp s v
  · exact rostatArmTo_runOf s v
  · exact rostatSelectTo_rgrp s v
  · exact rostatDisarmTo_runOf s v
  · exact preempt_without_residents hl hs
  · exact preempt_with_residents hl hs
  · exact resume_altered hl hs
  · exact resume_unaltered hl hs hp

end Sys2Proof.Machine

end

section
/-!
PROOFS. System registers: what each register holds after a write of one, and so what it reads as (R6).
-/

-- Elaborated one after another: side by side, a proof that waits for a lemma it cites would hold a thread and its stack.
set_option Elab.async false

namespace Sys2Proof.Machine

/-! ## Bit fields of a value -/

/-- A field of k low bits, widened again, holds those bits of the value. -/
theorem setWidth_setWidth_eq_and (v : Word) {k : Nat} (h : k ≤ 64) :
    (v.setWidth k).setWidth 64 = v &&& BitVec.ofNat 64 (2 ^ k - 1) := by
  have hk : 2 ^ k ≤ 2 ^ 64 := Nat.pow_le_pow_right (by decide) h
  have hpos : 0 < 2 ^ k := Nat.two_pow_pos k
  apply BitVec.eq_of_toNat_eq
  rw [BitVec.toNat_and, BitVec.toNat_ofNat, Nat.mod_eq_of_lt (by omega : 2 ^ k - 1 < 2 ^ 64), Nat.and_two_pow_sub_one_eq_mod,
    BitVec.toNat_setWidth, BitVec.toNat_setWidth, Nat.mod_eq_of_lt (lt_of_lt_of_le (Nat.mod_lt _ hpos) hk)]

/-- An address of 4-byte units in bits [51:2] holds those bits of the value. -/
theorem word_fld_eq_and (v : Word) : word (fld v 51 2 * 4) = v &&& 0xFFFFFFFFFFFFC := by
  have hmask : (0xFFFFFFFFFFFFC : Nat) = (2 ^ 50 - 1) * 2 ^ 2 := by decide
  have hlt : fld v 51 2 * 4 < 2 ^ 64 := by unfold fld bits; omega
  apply BitVec.eq_of_toNat_eq
  rw [word, BitVec.toNat_ofNat, Nat.mod_eq_of_lt hlt, BitVec.toNat_and]
  change fld v 51 2 * 2 ^ 2 = v.toNat &&& 0xFFFFFFFFFFFFC
  apply Nat.eq_of_testBit_eq
  intro i
  simp only [fld, bits, hmask, Nat.testBit_and, Nat.testBit_mul_two_pow, Nat.testBit_mod_two_pow, Nat.testBit_two_pow_sub_one,
    Nat.testBit_shiftRight]
  by_cases h : 2 ≤ i
  · simp [h, Bool.and_comm]
  · simp [h]

/-! ## The current core's registers after a write -/

section Core
variable (c : Core) (n : Nat) (v : Word)

@[simp] theorem Core.writeReg_s : (c.writeReg n v).s = c.s := by unfold Core.writeReg; split <;> rfl
@[simp] theorem Core.writeReg_v : (c.writeReg n v).v = c.v := by unfold Core.writeReg; split <;> rfl
@[simp] theorem Core.writeReg_p : (c.writeReg n v).p = c.p := by unfold Core.writeReg; split <;> rfl
@[simp] theorem Core.writeReg_seq : (c.writeReg n v).seq = c.seq := by unfold Core.writeReg; split <;> rfl
@[simp] theorem Core.writeReg_tsn : (c.writeReg n v).tsn = c.tsn := by unfold Core.writeReg; split <;> rfl
@[simp] theorem Core.writeReg_rtag : (c.writeReg n v).rtag = c.rtag := by unfold Core.writeReg; split <;> rfl
@[simp] theorem Core.writeReg_fpa : (c.writeReg n v).fpa = c.fpa := by unfold Core.writeReg; split <;> rfl
@[simp] theorem Core.writeReg_tlv : (c.writeReg n v).tlv = c.tlv := by unfold Core.writeReg; split <;> rfl
@[simp] theorem Core.writeReg_rgrp : (c.writeReg n v).rgrp = c.rgrp := by unfold Core.writeReg; split <;> rfl
@[simp] theorem Core.writeReg_ctx : (c.writeReg n v).ctx = c.ctx := by unfold Core.writeReg; split <;> rfl
theorem Core.writeReg_frm : (c.writeReg n v).frm = if n = 0x020 then v &&& 0x3E3 else c.frm := by
  unfold Core.writeReg; split <;> simp_all [keep]
theorem Core.writeReg_fflags : (c.writeReg n v).fflags = if n = 0x021 then v.setWidth 5 else c.fflags := by
  unfold Core.writeReg; split <;> simp_all
theorem Core.writeReg_gdim : (c.writeReg n v).gdim = if n = 0x022 then v.setWidth 4 else c.gdim := by
  unfold Core.writeReg; split <;> simp_all
theorem Core.writeReg_lp (h : n ≠ 0x030) : (c.writeReg n v).lp =
    { c.lp with ls := if n = 0x031 then fld v 51 2 * 4 else c.lp.ls, le := if n = 0x032 then fld v 51 2 * 4 else c.lp.le } := by
  unfold Core.writeReg; split <;> simp_all
theorem Core.writeReg_vprog : (c.writeReg n v).vprog = if n = 0x038 then v.setWidth 11 else c.vprog := by
  unfold Core.writeReg; split <;> simp_all
theorem Core.writeReg_tvec : (c.writeReg n v).tvec = if n = 0x041 then v &&& 0xFFFFFFFFFFF00 else c.tvec := by
  unfold Core.writeReg; split <;> simp_all [keep]
theorem Core.writeReg_cause1 : (c.writeReg n v).t1.cause = if n = 0x042 then c.t1.cause &&& 0x100 ||| v &&& 0xFF else c.t1.cause := by
  unfold Core.writeReg; split <;> simp_all [keep]
theorem Core.writeReg_pc1 : (c.writeReg n v).t1.pc = if n = 0x043 then v &&& 0xFFFFFFFFFFFFC else c.t1.pc := by
  unfold Core.writeReg; split <;> simp_all [keep]
theorem Core.writeReg_val1 : (c.writeReg n v).t1.val = if n = 0x044 then v else c.t1.val := by
  unfold Core.writeReg; split <;> simp_all
theorem Core.writeReg_cause2 : (c.writeReg n v).t2.cause = if n = 0x045 then c.t2.cause &&& 0x100 ||| v &&& 0xFF else c.t2.cause := by
  unfold Core.writeReg; split <;> simp_all [keep]
theorem Core.writeReg_pc2 : (c.writeReg n v).t2.pc = if n = 0x046 then v &&& 0xFFFFFFFFFFFFC else c.t2.pc := by
  unfold Core.writeReg; split <;> simp_all [keep]
theorem Core.writeReg_val2 : (c.writeReg n v).t2.val = if n = 0x047 then v else c.t2.val := by
  unfold Core.writeReg; split <;> simp_all
theorem Core.writeReg_tsave : (c.writeReg n v).tsave = if n = 0x048 then v else c.tsave := by
  unfold Core.writeReg; split <;> simp_all
theorem Core.writeReg_scr1 : (c.writeReg n v).t1.scr = if n = 0x049 then v else c.t1.scr := by
  unfold Core.writeReg; split <;> simp_all
theorem Core.writeReg_scr2 : (c.writeReg n v).t2.scr = if n = 0x04A then v else c.t2.scr := by
  unfold Core.writeReg; split <;> simp_all
theorem Core.writeReg_csel : (c.writeReg n v).csel = if n = 0x100 then v.setWidth 6 else c.csel := by
  unfold Core.writeReg; split <;> simp_all

/-- The number names no register of the core. -/
theorem Core.writeReg_perContext (h : perContext n = true) : c.writeReg n v = c := by
  unfold Core.writeReg; split <;> simp_all [perContext]

end Core

/-! ## The registers of a context after a write (R347) -/

section Context
variable (s t : State) (x : Ctx) (n m : Nat) (v : Word)

@[simp] theorem ctxWrite_tenant : (ctxWrite x n v).tenant = x.tenant := by unfold ctxWrite; split <;> rfl
@[simp] theorem ctxWrite_runouts : (ctxWrite x n v).runouts = x.runouts := by unfold ctxWrite; split <;> rfl
@[simp] theorem ctxWrite_state : (ctxWrite x n v).state = x.state := by unfold ctxWrite; split <;> rfl
theorem ctxWrite_pmctl : (ctxWrite x n v).pmctl = if n = 0x120 then keep 0x0000FFFF00F00007 v else x.pmctl := by
  unfold ctxWrite; split <;> simp_all
theorem ctxWrite_ptbase : (ctxWrite x n v).ptbase = if n = 0x121 then keep 0x000FFFFFFFFFC001 v else x.ptbase := by
  unfold ctxWrite; split <;> simp_all
theorem ctxWrite_sigctl : (ctxWrite x n v).sigctl = if n = 0x122 then keep 0x9FFFFFFFFFFFFFFF v else x.sigctl := by
  unfold ctxWrite; split <;> simp_all
theorem ctxWrite_fparea : (ctxWrite x n v).fparea = if n = 0x125 then keep 0x0000000000F3FFC0 v else x.fparea := by
  unfold ctxWrite; split <;> simp_all
theorem ctxWrite_ovring : (ctxWrite x n v).ovring = if n = 0x126 then keep 0x000FFFFFFFFF001F v else x.ovring := by
  unfold ctxWrite; split <;> simp_all
theorem ctxWrite_lcbase : (ctxWrite x n v).lcbase = if n = 0x127 then keep 0x000FFFFFFFFFF000 v else x.lcbase := by
  unfold ctxWrite; split <;> simp_all
theorem ctxWrite_psave : (ctxWrite x n v).psave = if n = 0x128 then keep 0x000FFFFFF8000000 v else x.psave := by
  unfold ctxWrite; split <;> simp_all
theorem ctxWrite_proof : (ctxWrite x n v).proof = if n = 0x129 then keep 0x000FFFFFFFFF001F v else x.proof := by
  unfold ctxWrite; split <;> simp_all
theorem ctxWrite_wdctl : (ctxWrite x n v).wdctl = if n = 0x12B then keep 0x0000FFFFFFFFFFFF v else x.wdctl := by
  unfold ctxWrite; split <;> simp_all
theorem ctxWrite_ctvec : (ctxWrite x n v).ctvec = if n = 0x12C then keep 0x000FFFFFFFFFFF00 v else x.ctvec := by
  unfold ctxWrite; split <;> simp_all
theorem ctxWrite_ctsave : (ctxWrite x n v).ctsave = if n = 0x12D then v else x.ctsave := by
  unfold ctxWrite; split <;> simp_all
theorem ctxWrite_elog : (ctxWrite x n v).elog = if n = 0x12E then v else x.elog := by
  unfold ctxWrite; split <;> simp_all
theorem ctxWrite_sigtext : (ctxWrite x n v).sigtext = if n = 0x12F then keep 0x0000000FFFFFFFFF v else x.sigtext := by
  unfold ctxWrite; split <;> simp_all
theorem ctxWrite_shcls : (ctxWrite x n v).shcls = if n = 0x130 then keep 0x1F v else x.shcls := by
  unfold ctxWrite; split <;> simp_all

/-- A number that is none of a context's writes nothing of it. -/
theorem ctxWrite_elsewhere (h : perContext n = false) : ctxWrite x n v = x := by
  unfold ctxWrite; split <;> simp_all [perContext]

/-- The numbers of a context's registers, one by one. -/
theorem perContext_cases (h : perContext n = true) : n ∈ [0x120, 0x121, 0x122, 0x125, 0x126, 0x127, 0x128, 0x129, 0x12A, 0x12B, 0x12C,
    0x12D, 0x12E, 0x12F, 0x130] := by
  simp [perContext] at h ⊢
  omega

/-- A write of one register of a context leaves what the others read as. -/
theorem ctxRead_ctxWrite_ne (hm : perContext m = true) (h : m ≠ n) : ctxRead s (ctxWrite x n v) m = ctxRead s x m := by
  have h' : n ≠ m := h.symm
  have hcases := perContext_cases m hm
  fin_cases hcases <;>
    simp only [ctxRead, ctxWrite_pmctl, ctxWrite_ptbase, ctxWrite_sigctl, ctxWrite_fparea, ctxWrite_ovring, ctxWrite_lcbase,
      ctxWrite_psave, ctxWrite_proof, ctxWrite_state, ctxWrite_wdctl, ctxWrite_ctvec, ctxWrite_ctsave, ctxWrite_elog,
      ctxWrite_sigtext, ctxWrite_shcls, if_neg h']

/-- Of the machine outside the context only the clock's state is read. -/
theorem ctxRead_congr (h : t.pkg.clkdeg = s.pkg.clkdeg) : ctxRead t x m = ctxRead s x m := by unfold ctxRead; rw [h]

end Context

/-! ## The machine after a write -/

section Machine
variable (s : State) (n : Nat) (v : Word)

/-- The three registers of the run-out units (R243). -/
def runOutRegs : List Nat := [0x060, 0x061, 0x062]

@[simp] theorem rostatTo_core : (s.rostatTo v).core = { s.core with rgrp := v.setWidth 8 } := by
  unfold State.rostatTo
  split
  · exact core_setCore ..
  · split <;> exact core_setCore ..

/-- A write of rostat changes the current core and its context's run-out units, and no more of the machine. -/
theorem rostatTo_rest : (s.rostatTo v).cur = s.cur ∧ (s.rostatTo v).mem = s.mem ∧ (s.rostatTo v).pkg = s.pkg := by
  unfold State.rostatTo
  split
  · exact ⟨rfl, rfl, rfl⟩
  · split <;> exact ⟨rfl, rfl, rfl⟩

@[simp] theorem writeReg_cur : (s.writeReg n v).cur = s.cur := by
  unfold State.writeReg; split
  · rfl
  · rfl
  · exact (rostatTo_rest s v).1
  · rfl
  · rfl
  · split <;> rfl

@[simp] theorem writeReg_mem : (s.writeReg n v).mem = s.mem := by
  unfold State.writeReg; split
  · rfl
  · rfl
  · exact (rostatTo_rest s v).2.1
  · rfl
  · rfl
  · split <;> rfl

theorem writeReg_core (h : n ≠ 0x062) : (s.writeReg n v).core = s.core.writeReg n v := by
  unfold State.writeReg; split
  · rfl
  · rfl
  · contradiction
  · rfl
  · rfl
  · split
    · rename_i hp; rw [Core.writeReg_perContext _ _ _ hp]; rfl
    · exact core_setCore ..

theorem writeReg_pkg : (s.writeReg n v).pkg =
    { s.pkg with fbnote := if n = 0x123 then v &&& 0x1FFFFFF else s.pkg.fbnote
                 cbctl := if n = 0x124 then v &&& 0xFFF1 else s.pkg.cbctl } := by
  unfold State.writeReg; split
  · rfl
  · rfl
  · exact (rostatTo_rest s v).2.2
  · rfl
  · rfl
  · rename_i h3 h4
    rw [if_neg h3, if_neg h4]
    split <;> rfl

/-- A write that is not of a run-out unit changes the selected context alone, by the number's register there. -/
theorem writeReg_ctxAt (h : n ∉ runOutRegs) (x : Nat) :
    (s.writeReg n v).ctxAt x = if x = s.core.csel.toNat then ctxWrite (s.ctxAt x) n v else s.ctxAt x := by
  have hself : perContext n = false → s.ctxAt x = if x = s.core.csel.toNat then ctxWrite (s.ctxAt x) n v else s.ctxAt x :=
    fun hp => by rw [ctxWrite_elsewhere _ _ _ hp, ite_self]
  unfold State.writeReg; split
  · exact absurd (by decide) h
  · exact absurd (by decide) h
  · exact absurd (by decide) h
  · exact hself rfl
  · exact hself rfl
  · by_cases hp : perContext n = true
    · rw [if_pos hp]
      by_cases hx : x = s.core.csel.toNat
      · rw [if_pos hx, hx, ctxAt_onCtx_same]
      · rw [if_neg hx, ctxAt_onCtx_ne _ _ _ (Ne.symm hx)]
    · rw [if_neg hp]
      exact hself (by simpa using hp)

theorem writeReg_runOf (h : n ∉ runOutRegs) (x g : Nat) : runOf (s.writeReg n v) x g = runOf s x g := by
  rw [runOf, writeReg_ctxAt s n v h]
  split
  · rw [ctxWrite_runouts, runOf]
  · rfl

theorem writeReg_tenant (h : n ∉ runOutRegs) (x : Nat) : ((s.writeReg n v).ctxAt x).tenant = (s.ctxAt x).tenant := by
  rw [writeReg_ctxAt s n v h]
  split
  · rw [ctxWrite_tenant]
  · rfl

@[simp] theorem writeReg_ctxNo : (s.writeReg n v).ctxNo = s.ctxNo := by
  by_cases h : n = 0x062
  · rw [State.ctxNo, h, State.writeReg, rostatTo_core, State.ctxNo]
  · rw [State.ctxNo, writeReg_core s n v h, Core.writeReg_ctx, State.ctxNo]

end Machine

/-! ## What the registers read as after a write (R6) -/

section Reads
variable (s : State) {n m : Nat} (v : Word)

/-- A number that is assigned and names no register of the core, the package or a run-out unit names one of the context's. -/
theorem sysRead_perContext (h : perContext m = true) : sysRead s m = ctxRead s (s.ctxAt s.core.csel.toNat) m := by
  have hcases := perContext_cases m h
  fin_cases hcases <;> rfl

/-- The numbers that are not of a context, one by one. -/
theorem assigned_cases (h : assigned m = true) (hp : perContext m = false) : m ∈ [0x000, 0x001, 0x002, 0x003, 0x004, 0x005, 0x006,
    0x007, 0x008, 0x009, 0x010, 0x011, 0x020, 0x021, 0x022, 0x030, 0x031, 0x032, 0x038, 0x040, 0x041, 0x042, 0x043, 0x044, 0x045,
    0x046, 0x047, 0x048, 0x049, 0x04A, 0x060, 0x061, 0x062, 0x100, 0x123, 0x124] := by
  simp [assigned, perContext] at h hp ⊢
  omega

theorem sysRead_writeReg_ne (hm : assigned m = true) (h : m ≠ n) (hn : n ∉ [0x030, 0x060, 0x061, 0x062, 0x100]) :
    sysRead (s.writeReg n v) m = sysRead s m := by
  have hrun : n ∉ runOutRegs := by simp [runOutRegs] at hn ⊢; omega
  have hcore : (s.writeReg n v).core = s.core.writeReg n v := writeReg_core s n v (by simp at hn ⊢; omega)
  have hsel : (s.core.writeReg n v).csel = s.core.csel := by rw [Core.writeReg_csel, if_neg (by simp at hn; omega)]
  have h30 : n ≠ 0x030 := by simp at hn; omega
  have h' : n ≠ m := h.symm
  by_cases hp : perContext m = true
  · rw [sysRead_perContext _ hp, sysRead_perContext _ hp, hcore, hsel, writeReg_ctxAt s n v hrun, if_pos rfl,
      ctxRead_ctxWrite_ne _ _ _ _ _ hp h, ctxRead_congr]
    rw [writeReg_pkg]
  · have hcases := assigned_cases hm (by simpa using hp)
    fin_cases hcases <;>
      simp [sysRead, hcore, rostatWord, writeReg_pkg, writeReg_runOf s n v hrun, writeReg_tenant s n v hrun, h',
      Core.writeReg_frm, Core.writeReg_fflags, Core.writeReg_gdim, Core.writeReg_lp _ _ _ h30, Core.writeReg_vprog, Core.writeReg_tvec,
      Core.writeReg_cause1, Core.writeReg_pc1, Core.writeReg_val1, Core.writeReg_cause2, Core.writeReg_pc2, Core.writeReg_val2,
      Core.writeReg_tsave, Core.writeReg_scr1, Core.writeReg_scr2, hsel]

/-- A write of rothr or roquiet leaves what the registers of no run-out unit read as. -/
theorem sysRead_onRun (hm : assigned m = true) (h : m ∉ runOutRegs) (x g : Nat) (f : RunOut → RunOut) :
    sysRead (s.onRun x g f) m = sysRead s m := by
  have hctx : ∀ y, ∃ r, (s.onRun x g f).ctxAt y = { s.ctxAt y with runouts := r } := by
    intro y
    by_cases hy : x = y
    · exact ⟨_, by rw [State.onRun, ← hy, ctxAt_onCtx_same]⟩
    · exact ⟨_, by rw [State.onRun, ctxAt_onCtx_ne _ _ _ hy]⟩
  by_cases hp : perContext m = true
  · obtain ⟨r, hr⟩ := hctx s.core.csel.toNat
    rw [sysRead_perContext _ hp, sysRead_perContext _ hp, onRun_core, hr]
    rfl
  · obtain ⟨r, hr⟩ := hctx s.ctxNo
    have hcases := assigned_cases hm (by simpa using hp)
    fin_cases hcases <;>
      simp_all [sysRead, runOutRegs]

/-- A write of rothr leaves what the unit's other registers read as. -/
theorem sysRead_write_rothr (hm : m = 0x061 ∨ m = 0x062) : sysRead (s.writeReg 0x060 v) m = sysRead s m := by
  rcases hm with rfl | rfl <;> simp [sysRead, rostatWord, State.writeReg]

/-- A write of roquiet leaves what the unit's other registers read as. -/
theorem sysRead_write_roquiet (hm : m = 0x060 ∨ m = 0x062) : sysRead (s.writeReg 0x061 v) m = sysRead s m := by
  rcases hm with rfl | rfl <;> simp [sysRead, rostatWord, State.writeReg, RunOut.judged]

/-- A write of one register leaves what every other one reads as, where it does not choose what other numbers reach or wait for an
iteration. -/
theorem sysRead_writeReg_other (hm : assigned m = true) (h : m ≠ n) (hn : n ∉ [0x030, 0x062, 0x100]) :
    sysRead (s.writeReg n v) m = sysRead s m := by
  by_cases hu : n = 0x060 ∨ n = 0x061
  · by_cases hr : m ∈ runOutRegs
    · simp only [runOutRegs, List.mem_cons, List.not_mem_nil, or_false] at hr
      rcases hu with rfl | rfl
      · exact sysRead_write_rothr s v (by omega)
      · exact sysRead_write_roquiet s v (by omega)
    · rcases hu with rfl | rfl <;> exact sysRead_onRun s hm hr ..
  · exact sysRead_writeReg_ne s v hm h (by simp at hn ⊢; omega)

/-- The registers of the current core that read back the bits of a mask. -/
def coreMasks : List (Nat × Word) :=
  [(0x020, 0x3E3), (0x021, 0x1F), (0x022, 0xF), (0x031, 0xFFFFFFFFFFFFC), (0x038, 0x7FF), (0x041, 0xFFFFFFFFFFF00),
    (0x043, 0xFFFFFFFFFFFFC), (0x044, 0xFFFFFFFFFFFFFFFF), (0x046, 0xFFFFFFFFFFFFC), (0x047, 0xFFFFFFFFFFFFFFFF),
    (0x048, 0xFFFFFFFFFFFFFFFF), (0x049, 0xFFFFFFFFFFFFFFFF), (0x04A, 0xFFFFFFFFFFFFFFFF), (0x100, 0x3F)]

/-- The registers of the package that read back the bits of a mask. -/
def pkgMasks : List (Nat × Word) := [(0x123, 0x1FFFFFF), (0x124, 0xFFF1)]

/-- The registers of a run-out unit that read back the bits of a mask. -/
def runOutMasks : List (Nat × Word) := [(0x060, 0xFFFFFFFF), (0x061, 0xFFFFFFFF)]

/-- The registers of a context that read back the bits of a mask. -/
def ctxMasks : List (Nat × Word) := [(0x12D, 0xFFFFFFFFFFFFFFFF), (0x130, 0x1F)]

/-- A value with every bit kept. -/
theorem and_all (v : Word) : v &&& 0xFFFFFFFFFFFFFFFF#64 = v := BitVec.and_allOnes

theorem sysRead_core_masked {p : Nat × Word} (hp : p ∈ coreMasks) : sysRead (s.writeReg p.1 v) p.1 = v &&& p.2 := by
  have hcore : (s.writeReg p.1 v).core = s.core.writeReg p.1 v := writeReg_core _ _ _ (by revert p; decide)
  unfold coreMasks at hp
  fin_cases hp <;> simp only [sysRead] <;> rw [hcore] <;>
    simp [Core.writeReg_frm, Core.writeReg_fflags, Core.writeReg_gdim, Core.writeReg_lp, Core.writeReg_vprog, Core.writeReg_tvec,
      Core.writeReg_pc1, Core.writeReg_val1, Core.writeReg_pc2, Core.writeReg_val2, Core.writeReg_tsave, Core.writeReg_scr1,
      Core.writeReg_scr2, Core.writeReg_csel, setWidth_setWidth_eq_and, word_fld_eq_and, and_all]

theorem sysRead_pkg_masked {p : Nat × Word} (hp : p ∈ pkgMasks) : sysRead (s.writeReg p.1 v) p.1 = v &&& p.2 := by
  unfold pkgMasks at hp
  fin_cases hp <;> simp [sysRead, writeReg_pkg]

theorem sysRead_runOut_masked {p : Nat × Word} (hp : p ∈ runOutMasks) : sysRead (s.writeReg p.1 v) p.1 = v &&& p.2 := by
  unfold runOutMasks at hp
  fin_cases hp <;> simp [sysRead, State.writeReg, RunOut.judged, setWidth_setWidth_eq_and]

theorem sysRead_ctx_masked {p : Nat × Word} (hp : p ∈ ctxMasks) : sysRead (s.writeReg p.1 v) p.1 = v &&& p.2 := by
  have hctx : perContext p.1 = true := by revert p; decide
  have hrun : p.1 ∉ runOutRegs := by revert p; decide
  have hcore : (s.writeReg p.1 v).core = s.core := by
    rw [writeReg_core _ _ _ (by revert p; decide), Core.writeReg_perContext _ _ _ hctx]
  rw [sysRead_perContext _ hctx, hcore, writeReg_ctxAt _ _ _ hrun, if_pos rfl]
  unfold ctxMasks at hp
  fin_cases hp <;> simp [ctxRead, ctxWrite_ctsave, ctxWrite_shcls, keep, and_all]

/-- The cause registers take their low byte from the value and keep bit 8 (R6). -/
theorem sysRead_cause (hn : n ∈ [0x042, 0x045]) : sysRead (s.writeReg n v) n = sysRead s n &&& 0x100 ||| v &&& 0xFF := by
  fin_cases hn <;> simp [sysRead, writeReg_core, Core.writeReg_cause1, Core.writeReg_cause2]

/-- A read-only register keeps its value. -/
theorem sysRead_readOnly (hn : n ∈ [0, 1, 2, 3, 4, 5, 6, 7, 8, 9, 0x010, 0x011]) : sysRead (s.writeReg n v) n = sysRead s n := by
  have hrun : n ∉ runOutRegs := by revert n; decide
  have hcore : n ≠ 0x062 := by revert n; decide
  fin_cases hn <;> simp [sysRead, writeReg_core, writeReg_pkg, writeReg_tenant _ _ _ hrun]

/-- A write changes no scalar, vector or predicate register. -/
theorem writeReg_files : (s.writeReg n v).core.s = s.core.s ∧ (s.writeReg n v).core.v = s.core.v ∧
    (s.writeReg n v).core.p = s.core.p := by
  by_cases h : n = 0x062
  · rw [h, State.writeReg, rostatTo_core]
    exact ⟨rfl, rfl, rfl⟩
  · rw [writeReg_core _ _ _ h]
    exact ⟨Core.writeReg_s .., Core.writeReg_v .., Core.writeReg_p ..⟩

end Reads

/-! ## The obligation -/

/-- Settles O25: each register reads as its holder holds it after the write, and no other register's holder has changed. -/
theorem registerMasks : Obligations.RegisterMasks := by
  intro s v
  refine ⟨fun p hp => ?_, fun n hn => sysRead_readOnly s v hn, fun n hn => sysRead_cause s v hn,
    fun n m _ hm h hn => sysRead_writeReg_other s v hm h hn, fun n => ⟨fun b => by rw [writeReg_mem], writeReg_files s v⟩⟩
  have hlist : p ∈ coreMasks ∨ p ∈ pkgMasks ∨ p ∈ runOutMasks ∨ p ∈ ctxMasks := by revert p; decide
  obtain h | h | h | h := hlist
  · exact sysRead_core_masked s v h
  · exact sysRead_pkg_masked s v h
  · exact sysRead_runOut_masked s v h
  · exact sysRead_ctx_masked s v h

end Sys2Proof.Machine

end
section
/-!
PROOFS. Every step keeps memory in canonical form (obligation O59).

Memory changes only where bytes are written, a frame is copied or cleared, or a page of a chain is taken, and the lemmas
above say that each of these keeps `Canonical`. What remains is to follow a step through the model: for each function that
makes a state, one lemma says that it keeps `Canonical`, in the order of the model. Its proof unfolds that function and
cites the lemmas of those it calls; a function that leaves memory as it is needs no more than its hypothesis. The lemmas
end at `exec`, one case for each instruction, and at the turn of the machine.
-/

-- Elaborated one after another: side by side, a proof that waits for a lemma it cites would hold a thread and its stack.
set_option Elab.async false

namespace Sys2Proof.Machine

/-! ## Parts of a step, and their outcomes -/

/-- A part of a step keeps memory in canonical form, whether it goes on or ends there. -/
def KeepsCanonical {α : Type} (m : M α) : Prop :=
  ∀ s, Canonical s → match m s with
    | .ok (_, t) => Canonical t
    | .error t => Canonical t

/-- The next state of an outcome, if it has one, has memory in canonical form. -/
def NextCanonical (o : Host.Outcome State Fault Refusal) : Prop := ∀ t, o = .next t → Canonical t

theorem run_canonical {m : M Unit} {s : State} (hm : KeepsCanonical m) (h : Canonical s) : NextCanonical (run m s) := by
  intro t ht
  have := hm s h
  unfold run at ht
  grind

theorem next_canonical {s : State} (h : Canonical s) : NextCanonical (.next s) := fun _ e => by cases e; exact h

section Monad
variable {α β : Type}

theorem pure_canonical (a : α) : KeepsCanonical (pure a) := fun _ h => h

theorem bind_canonical {m : M α} {f : α → M β} (hm : KeepsCanonical m) (hf : ∀ a, KeepsCanonical (f a)) :
    KeepsCanonical (m >>= f) := by
  intro s h
  have := hm s h
  rw [bind_at]
  grind [KeepsCanonical]

/-- What is done with the present state may rest on its canonical form. -/
theorem get_bind_canonical {f : State → M β} (hf : ∀ s, Canonical s → KeepsCanonical (f s)) : KeepsCanonical (get >>= f) :=
  fun s h => hf s h s h
theorem set_canonical {t : State} (h : Canonical t) : KeepsCanonical (set t : M PUnit) := fun _ _ => h
theorem modify_canonical {f : State → State} (hf : ∀ s, Canonical s → Canonical (f s)) : KeepsCanonical (modify f : M PUnit) :=
  fun s h => hf s h
theorem endWith_canonical {f : State → State} (hf : ∀ s, Canonical s → Canonical (f s)) : KeepsCanonical (endWith f : M α) :=
  fun s h => hf s h
theorem endHere_canonical : KeepsCanonical (endHere : M α) := fun _ h => h
theorem modCore_canonical (f : Core → Core) : KeepsCanonical (modCore f) := fun _ h => h
theorem modCtx_canonical (x : Nat) (f : Ctx → Ctx) : KeepsCanonical (modCtx x f) := fun _ h => h
theorem core_canonical : KeepsCanonical core := fun _ h => h
theorem onlyIf_canonical (c : Bool) {m : M Unit} (hm : KeepsCanonical m) : KeepsCanonical (onlyIf c m) := by
  cases c
  · exact pure_canonical ()
  · exact hm
theorem each_canonical (xs : List α) {f : α → M Unit} (hf : ∀ a, KeepsCanonical (f a)) : KeepsCanonical (each xs f) := by
  induction xs with
  | nil => exact pure_canonical ()
  | cons x rest ih => exact bind_canonical (hf x) fun _ => ih

end Monad

/-! ## Choices between states -/

/-- A state in canonical form under a name of its own, which a proof's term does not unfold again. -/
theorem Canonical.named {s : State} (h : Canonical s) : ∃ t, Canonical t ∧ s = t := ⟨s, h, rfl⟩

theorem elim_canonical {α : Type} (o : Option α) {s : State} {f : α → State} (h : Canonical s) (hf : ∀ a, Canonical (f a)) :
    Canonical (o.elim s f) := by
  cases o with
  | none => exact h
  | some a => exact hf a

theorem getD_canonical {o : Option State} {s : State} (ho : ∀ t, o = some t → Canonical t) (h : Canonical s) :
    Canonical (o.getD s) := by
  cases o with
  | none => exact h
  | some t => exact ho t rfl

/-! ## Steps that may end without a state -/

section Option
variable {α β : Type} {P : α → Prop} {Q : β → Prop} {o : Option α}

theorem of_map_eq_some {f : α → β} (ho : ∀ a, o = some a → P a) (hf : ∀ a, P a → Q (f a)) : ∀ b, o.map f = some b → Q b := by
  intro b hb
  obtain ⟨a, ha, rfl⟩ := Option.map_eq_some_iff.mp hb
  exact hf a (ho a ha)

theorem of_bind_eq_some {f : α → Option β} (ho : ∀ a, o = some a → P a) (hf : ∀ a, P a → ∀ b, f a = some b → Q b) :
    ∀ b, o.bind f = some b → Q b := by
  intro b hb
  obtain ⟨a, ha, hb⟩ := Option.bind_eq_some_iff.mp hb
  exact hf a (ho a ha) b hb

theorem of_some_eq_some {a : α} (ha : P a) : ∀ b, some a = some b → P b := fun _ e => by cases e; exact ha

end Option

/-- A fold that may end without a state. -/
theorem foldlM_canonical {α : Type} {f : State → α → Option State}
    (hf : ∀ s a, Canonical s → ∀ t, f s a = some t → Canonical t) (xs : List α) {s : State} (h : Canonical s) :
    ∀ t, xs.foldlM f s = some t → Canonical t := by
  induction xs generalizing s with
  | nil => exact of_some_eq_some h
  | cons a rest ih =>
    rw [List.foldlM_cons]
    exact of_bind_eq_some (hf s a h) fun _ hu => ih hu

/-! ## Cores and contexts -/

theorem setCoreAt_canonical {s : State} (c : Nat) (x : Core) (h : Canonical s) : Canonical (s.setCoreAt c x) := h

theorem setCore_canonical {s : State} (x : Core) (h : Canonical s) : Canonical (s.setCore x) := h

theorem onCore_canonical {s : State} (c : Nat) (f : Core → Core) (h : Canonical s) : Canonical (s.onCore c f) := h

theorem onCtx_canonical {s : State} (x : Nat) (f : Ctx → Ctx) (h : Canonical s) : Canonical (s.onCtx x f) := h

theorem onHolder_canonical {s : State} (c ctx : Nat) (f : Core → Core) (h : Canonical s) :
    Canonical (s.onHolder c ctx f) := by
  unfold State.onHolder
  grind [onCore_canonical, onCtx_canonical]

theorem onDie_canonical {s : State} (d : Nat) (f : Die → Die) (h : Canonical s) : Canonical (s.onDie d f) := h

theorem onCluster_canonical {s : State} (k : Nat) (f : Cluster → Cluster) (h : Canonical s) :
    Canonical (s.onCluster k f) := h

theorem onPkg_canonical {s : State} (f : Pkg → Pkg) (h : Canonical s) : Canonical (s.onPkg f) := h

theorem launch_canonical {s : State} (i : Instr) (h : Canonical s) : Canonical (s.launch i) := h

theorem stall_canonical {α : Type} : KeepsCanonical (stall : M α) := fun _ h => h

theorem stallAtPort_canonical {α : Type} : KeepsCanonical (stallAtPort : M α) := fun _ h => h

theorem waitWhile_canonical (f : State → Bool) : KeepsCanonical (waitWhile f) := by
  unfold waitWhile
  grind [bind_canonical, get_bind_canonical, pure_canonical, stall_canonical]

/-! ## Retiring (R18, R188) -/

theorem retire_canonical : KeepsCanonical retire := fun _ h => h

theorem retireWith_canonical (r : RegVal) (la : BitVec 4) : KeepsCanonical (retireWith r la) := fun _ h => h

/-! ## Memory with its errors -/

theorem write64_canonical {s : State} (pa : Nat) (w : Word) (h : Canonical s) : Canonical (s.write64 pa w) := by
  unfold State.write64
  grind [writePa_canonical]

/-! ## Messages on their way (R287, R288) -/

theorem send_canonical {s : State} (m : Msg) (h : Canonical s) : Canonical (s.send m) := h

/-! ## Caches (R120, R122, R123) -/

theorem dropL1_canonical {s : State} (line target : Nat) (writer : Option Nat) (h : Canonical s) :
    Canonical (s.dropL1 line target writer) := h

theorem invalidate_canonical {s : State} (line : Nat) (writer : Option Nat) (h : Canonical s) :
    Canonical (s.invalidate line writer) := by
  unfold State.invalidate
  grind [Canonical, dropL1_canonical, foldl_canonical]

theorem evictLine_canonical {s : State} (line : Nat) (h : Canonical s) : Canonical (s.evictLine line) := by
  unfold State.evictLine
  grind [Canonical, dropL1_canonical, foldl_canonical]

theorem fillL2_canonical {s : State} (pa : Nat) (h : Canonical s) : Canonical (s.fillL2 pa) := by
  unfold State.fillL2
  grind [Canonical, evictLine_canonical]

theorem fillL1_canonical {s : State} (c pa : Nat) (code : Bool) (h : Canonical s) : Canonical (s.fillL1 c pa code) := by
  unfold State.fillL1
  grind [Canonical, fillL2_canonical, onCore_canonical]

/-! ## Access counts (R67) -/

theorem count_canonical {s : State} (ctx die pa : Nat) (wr : Bool) (h : Canonical s) :
    Canonical (s.count ctx die pa wr) := by
  unfold State.count
  grind [Canonical]

/-! ## Monitors (R258) -/

theorem sendWake_canonical {s : State} (w : WatchReq) (v : Word) (status : Nat) (h : Canonical s) :
    Canonical (s.sendWake w v status) := by
  unfold State.sendWake
  grind [Canonical, send_canonical]

theorem fireOwn_canonical {s : State} (line c : Nat) (h : Canonical s) : Canonical (s.fireOwn line c) := by
  unfold State.fireOwn
  grind [foldl_canonical, onCore_canonical, sendWake_canonical]

theorem fireMonitors_canonical {s : State} (pa : Nat) (h : Canonical s) : Canonical (s.fireMonitors pa) := by
  unfold State.fireMonitors
  grind [Canonical, fireOwn_canonical, foldl_canonical, sendWake_canonical]

theorem stampFor_canonical {s : State} (tenant pa : Nat) (whole : Bool) (h : Canonical s) :
    Canonical (s.stampFor tenant pa whole) := by
  unfold State.stampFor
  grind [onPkg_canonical]

theorem stampAll_canonical {s : State} (tenant a n : Nat) (h : Canonical s) : Canonical (s.stampAll tenant a n) := by
  unfold State.stampAll
  grind [foldl_canonical, stampFor_canonical]

theorem stamp_canonical {s : State} (ctx pa : Nat) (whole : Bool) (h : Canonical s) :
    Canonical (s.stamp ctx pa whole) := by
  unfold State.stamp
  grind [stampFor_canonical]

theorem tamper_canonical {s : State} (pa : Nat) (h : Canonical s) : Canonical (s.tamper pa) := by
  unfold State.tamper
  grind [Canonical]

theorem lineChanged_canonical {s : State} (ctx : Nat) (writer : Option Nat) (line : Nat) (whole : Bool)
    (h : Canonical s) : Canonical (s.lineChanged ctx writer line whole) := by
  unfold State.lineChanged
  grind [count_canonical, fillL2_canonical, fireMonitors_canonical, invalidate_canonical, stamp_canonical,
    tamper_canonical]

theorem performLine_canonical {s : State} (ctx : Nat) (writer : Option Nat) (line : Nat) (cs : List (Nat × Byte))
    (h : Canonical s) : Canonical (s.performLine ctx writer line cs) := by
  unfold State.performLine
  grind [lineChanged_canonical, writeCells_canonical]

/-! ## The context error log (R351, R352) -/

theorem log_canonical {s : State} (ctx cls code cid die : Nat) (hub : Bool) (addr detail : Nat) (h : Canonical s) :
    Canonical (s.log ctx cls code cid die hub addr detail) := by
  unfold State.log
  grind [onCtx_canonical, perform_canonical, send_canonical]

theorem logCore_canonical {s : State} (ctx cls code c addr detail : Nat) (h : Canonical s) :
    Canonical (s.logCore ctx cls code c addr detail) := by
  unfold State.logCore
  grind [log_canonical]

theorem logRefusal_canonical {s : State} (ctx c addr pkg : Nat) (h : Canonical s) :
    Canonical (s.logRefusal ctx c addr pkg) := by
  unfold State.logRefusal
  grind [log_canonical]

theorem note_canonical {s : State} (cls detail addr : Nat) (die : Option Nat) (h : Canonical s) :
    Canonical (s.note cls detail addr die) := h

/-! ## Messages stored in HBM (R288, R294, R336) -/

theorem writeEntry_canonical {s : State} (ctx : Nat) (reg : Word) (k : Nat) (m : Msg) (h : Canonical s) :
    Canonical (s.writeEntry ctx reg k m) := by
  unfold State.writeEntry
  grind [perform_canonical]

theorem intoRing_canonical {s : State} (m : Msg) (h : Canonical s) : ∀ p, s.intoRing m = some p → Canonical p.2 := by
  unfold State.intoRing
  grind [Option.map_eq_some_iff, writeEntry_canonical]

/-- With or without a free entry. -/
theorem intoRing_getD_canonical {s : State} (m : Msg) (h : Canonical s) : Canonical ((s.intoRing m).getD (m, s)).2 := by
  cases hr : s.intoRing m with
  | none => exact h
  | some p => exact intoRing_canonical m h p hr

theorem loseRow_canonical {s : State} (q : Nat) (h : Canonical s) : Canonical (s.loseRow q) := h

theorem freshRows_canonical {s : State} (qs : List Nat) (h : Canonical s) : Canonical (s.freshRows qs) := h

/-! ## Stores of a chain at a link (R103) -/

theorem applyStore_canonical {s : State} (l : Nat × Nat) (st : ChainStore) (writer : Option Nat) (h : Canonical s) :
    Canonical (s.applyStore l st writer) := by
  unfold State.applyStore
  grind [Canonical, applyAt_canonical]

/-! ## Copy commands that end (R147) -/

theorem copyStatus_canonical {s : State} (c : Nat) (cmd : CopyCmd) (status : Nat) (h : Canonical s) :
    Canonical (s.copyStatus c cmd status) := by
  unfold State.copyStatus
  grind [onCore_canonical, perform_canonical, send_canonical]

theorem mixGet_canonical {s : State} (c : Nat) (k : CopyCmd) (h : Canonical s) : Canonical (s.mixGet c k) := by
  unfold State.mixGet
  grind [foldl_canonical, writePa_canonical]

theorem cancelGetsOf_canonical {s : State} (c act : Nat) (h : Canonical s) : Canonical (s.cancelGetsOf c act) := by
  unfold State.cancelGetsOf
  grind [copyStatus_canonical, foldl_canonical, launch_canonical, mixGet_canonical, onCore_canonical]

theorem cancelGets_canonical {s : State} (c : Nat) (h : Canonical s) : Canonical (s.cancelGets c) := by
  unfold State.cancelGets
  grind [cancelGetsOf_canonical]

/-! ## Discard (R298) -/

theorem unpin_canonical {s : State} (ls : List Nat) (h : Canonical s) : Canonical (s.unpin ls) := h

theorem endTrail_canonical {s : State} (c : Nat) (h : Canonical s) : Canonical (s.endTrail c) := by
  unfold State.endTrail
  grind [foldl_canonical, onHolder_canonical]

theorem leavePins_canonical {s : State} (c : Nat) (h : Canonical s) : Canonical (s.leavePins c) := h

theorem dropGangs_canonical {s : State} (c : Nat) (h : Canonical s) : Canonical (s.dropGangs c) := by
  unfold State.dropGangs
  grind [foldl_canonical, launch_canonical, leavePins_canonical, onCore_canonical, unpin_canonical]

theorem drop_canonical {s : State} (c : Nat) (h : Canonical s) : Canonical (s.drop c) := by
  unfold State.drop
  grind [cancelGets_canonical, dropGangs_canonical, endTrail_canonical, leavePins_canonical, onCore_canonical,
    unpin_canonical]

theorem park_canonical {s : State} (m : Msg) (h : Canonical s) : Canonical (s.park m) := by
  unfold State.park
  grind [intoRing_getD_canonical, onCtx_canonical]

/-! ## Kill of a context (R369) -/

theorem landStores_canonical {s : State} (ctx : Nat) (h : Canonical s) : Canonical (s.landStores ctx) := by
  unfold State.landStores
  grind [applyStore_canonical, foldl_canonical]

theorem landAtomic_canonical {s : State} (r : AtomReq) (h : Canonical s) : Canonical (s.landAtomic r) := by
  unfold State.landAtomic
  grind [foldl_canonical, logCore_canonical, perform_canonical]

theorem landReleased_canonical {s : State} (ctx : Nat) (h : Canonical s) : Canonical (s.landReleased ctx) := by
  unfold State.landReleased
  grind [Canonical, foldl_canonical, landAtomic_canonical, landStores_canonical]

theorem tell_canonical {s : State} (told : List (Nat × Nat)) (r : UalReq) (h : Canonical s) :
    Canonical (s.tell told r) := by
  unfold State.tell
  grind [Canonical, foldl_canonical]

theorem freeChains_canonical {s : State} (ctx : Nat) (h : Canonical s) : Canonical (s.freeChains ctx) := by
  unfold State.freeChains
  grind [foldl_canonical, tell_canonical]

theorem keepPosts_canonical {s : State} (ctx : Nat) (h : Canonical s) : Canonical (s.keepPosts ctx) := by
  unfold State.keepPosts
  grind [foldl_canonical, onCore_canonical]

theorem kill_canonical {s : State} (ctx reason imm : Nat) (h : Canonical s) : Canonical (s.kill ctx reason imm) := by
  unfold State.kill
  grind [Canonical, dropGangs_canonical, endTrail_canonical, foldl_canonical, freeChains_canonical, keepPosts_canonical,
    landReleased_canonical, log_canonical, onCtx_canonical, onPkg_canonical, unpin_canonical]

/-! ## A failing sprinkle handler (R225) -/

theorem sprinkleFail_canonical {s : State} (c : Nat) (h : Canonical s) : Canonical (s.sprinkleFail c) := by
  unfold State.sprinkleFail
  grind [logCore_canonical, onCore_canonical]

/-! ## Taking an exception (R344) -/

theorem takeTrap_canonical {s : State} (c code : Nat) (pcv : BitVec 52) (val : Word) (h : Canonical s) :
    Canonical (s.takeTrap c code pcv val) := by
  unfold State.takeTrap
  grind [kill_canonical, setCoreAt_canonical, sprinkleFail_canonical]

theorem trap_canonical {α : Type} (code : Nat) (val : Word) : KeepsCanonical (trap code val : M α) := by
  unfold trap
  grind [endWith_canonical, takeTrap_canonical]

theorem illegal_canonical {α : Type} : KeepsCanonical (illegal : M α) :=
  fun s h => @trap_canonical α 0x01 (irWord s) s h

theorem trapIf_canonical (c : Bool) (code : Nat) (val : Word) : KeepsCanonical (trapIf c code val) := by
  unfold trapIf
  grind [pure_canonical, trap_canonical]

/-! ## Returning from an exception (R348, R357, R325) -/

theorem rejoin_canonical {s : State} (c target : Nat) (h : Canonical s) : Canonical (s.rejoin c target) := by
  unfold State.rejoin
  grind [endTrail_canonical, foldl_canonical, onCore_canonical, onHolder_canonical]

theorem trapReturn_canonical {s : State} (c : Nat) (h : Canonical s) : Canonical (s.trapReturn c) := by
  unfold State.trapReturn
  grind [onCore_canonical, rejoin_canonical]

/-! ## The cache of table pointers (R85) -/

theorem walkAt_canonical {s : State} (k ctx va : Nat) (h : Canonical s) : Canonical (walkAt s k ctx va).2 := by
  unfold walkAt
  grind [Canonical, foldl_canonical]

/-! ## The TLBs (R82 to R85) -/

theorem fillSlice_canonical {s : State} (die va : Nat) (l : Leaf) (h : Canonical s) :
    Canonical (s.fillSlice die va l) := h

theorem fillTlb_canonical {s : State} (c : Nat) (l : Leaf) (h : Canonical s) : Canonical (s.fillTlb c l) := h

theorem lookup_canonical {s : State} (c ctx va : Nat) (h : Canonical s) : Canonical (lookup s c ctx va).2 := by
  unfold lookup
  grind [fillSlice_canonical, fillTlb_canonical, walkAt_canonical]

/-! ## Fault records (R90, R91) -/

theorem faultNote_canonical {s : State} (die : Nat) (h : Canonical s) : Canonical (s.faultNote die) := by
  unfold State.faultNote
  grind [send_canonical]

theorem pageAbsent_canonical {s : State} (ctx va : Nat) (h : Canonical s) : Canonical (s.pageAbsent ctx va) := h

theorem faultRecord_canonical {s : State} (c ctx va : Nat) (acc : Acc) (held : Bool) (h : Canonical s) :
    Canonical (s.faultRecord c ctx va acc held) := by
  unfold State.faultRecord
  grind [faultNote_canonical, onDie_canonical, pageAbsent_canonical]

/-! ## Delivery (R87, R89, R355, R361) -/

theorem notPresent_canonical {s : State} (c va : Nat) (acc : Acc) (h : Canonical s) :
    Canonical (s.notPresent c va acc) := by
  unfold State.notPresent
  grind [drop_canonical, faultRecord_canonical, kill_canonical, onCore_canonical, pageAbsent_canonical, park_canonical,
    sprinkleFail_canonical, takeTrap_canonical]

theorem consume_canonical {s : State} (c cls addr : Nat) (val : Word) (detail : Nat) (h : Canonical s) :
    Canonical (s.consume c cls addr val detail) := by
  unfold State.consume
  grind [drop_canonical, kill_canonical, logCore_canonical, send_canonical, sprinkleFail_canonical, takeTrap_canonical]

theorem mismatch_canonical {s : State} (c start addr : Nat) (h : Canonical s) :
    Canonical (s.mismatch c start addr) := by
  unfold State.mismatch
  grind [drop_canonical, kill_canonical, launch_canonical, logCore_canonical, onCore_canonical, send_canonical,
    sprinkleFail_canonical, takeTrap_canonical]

theorem pull_canonical {s : State} (c : Nat) (l : Leaf) (h : Canonical s) : Canonical (s.pull c l) := by
  unfold State.pull
  grind [drop_canonical, send_canonical]

/-! ## The checks of an access (R59, R86, R248) -/

theorem checkPaged_canonical {s : State} (c ctx va : Nat) (acc : Acc) (engine : Bool) (h : Canonical s) :
    Canonical (checkPaged s c ctx va acc engine).2 := by
  unfold checkPaged
  grind [lookup_canonical]

/-! ## Misses at a slice (R85, R92) -/

theorem onSlice_canonical {s : State} (k : Nat) (f : Xlate → Xlate) (h : Canonical s) : Canonical (s.onSlice k f) := h

theorem startWalk_canonical {s : State} (die k : Nat) (h : Canonical s) : Canonical (s.startWalk die k) := by
  unfold State.startWalk
  grind [launch_canonical, onSlice_canonical]

theorem joinMiss_canonical {s : State} (c ctx va : Nat) (acc : Acc) (h : Canonical s) :
    Canonical (s.joinMiss c ctx va acc) := h

theorem missAtSlice_canonical {s : State} (c ctx va : Nat) (acc : Acc) (h : Canonical s) :
    Canonical (s.missAtSlice c ctx va acc) := by
  unfold State.missAtSlice
  grind [Canonical, fillTlb_canonical, joinMiss_canonical, onSlice_canonical, startWalk_canonical]

theorem enterMiss_canonical {s : State} (c ctx va : Nat) (acc : Acc) (h : Canonical s) :
    Canonical (s.enterMiss c ctx va acc) := by
  unfold State.enterMiss
  grind [launch_canonical, missAtSlice_canonical]

theorem resolveFor_canonical (access own : Bool) (va size : Nat) (acc : Acc) :
    KeepsCanonical (resolveFor access own va size acc) := by
  unfold resolveFor
  grind [bind_canonical, checkPaged_canonical, consume_canonical, endWith_canonical, enterMiss_canonical,
    get_bind_canonical, notPresent_canonical, pull_canonical, pure_canonical, set_canonical, sprinkleFail_canonical,
    stall_canonical, trap_canonical]

theorem resolve_canonical (va size : Nat) (acc : Acc) : KeepsCanonical (resolve va size acc) := by
  unfold resolve
  grind [resolveFor_canonical]

theorem resolveAtomic_canonical (va size : Nat) (acc : Acc) : KeepsCanonical (resolveAtomic va size acc) := by
  unfold resolveAtomic
  grind [bind_canonical, pure_canonical, resolve_canonical, trap_canonical]

/-! ## Places -/

theorem onChain_canonical {s : State} (ctx ch : Nat) (f : Chain → Chain) (h : Canonical s) :
    Canonical (s.onChain ctx ch f) := h

theorem onChainAt_canonical {s : State} (owner ctx ch : Nat) (f : Chain → Chain) (h : Canonical s) :
    Canonical (s.onChainAt owner ctx ch f) := by
  unfold State.onChainAt
  grind [onChain_canonical, onPkg_canonical]

/-! ## Stores along a chain (R103, R107, R112, R113) -/

theorem fireChain_canonical {s : State} (head : Nat × Nat) (st : ChainStore) (h : Canonical s) :
    Canonical (s.fireChain head st) := by
  unfold State.fireChain
  grind [Canonical, foldl_canonical, sendWake_canonical]

theorem moveMons_canonical {s : State} (ctx ch : Nat) (old new : Nat × Nat) (h : Canonical s) :
    Canonical (s.moveMons ctx ch old new) := h

theorem overUal_canonical {s : State} (l : Nat × Nat) (st : ChainStore) (h : Canonical s) :
    Canonical (s.overUal l st) := by
  unfold State.overUal
  grind [Canonical]

theorem toLink_canonical {s : State} (st : ChainStore) (h : Canonical s) : Canonical (s.toLink st) := by
  unfold State.toLink
  grind [launch_canonical, overUal_canonical]

theorem toMember_canonical {s : State} (st : ChainStore) (h : Canonical s) : Canonical (s.toMember st) := by
  unfold State.toMember
  grind [Canonical, launch_canonical]

theorem takeStore_canonical {s : State} (l : Nat × Nat) (st : ChainStore) (h : Canonical s) :
    Canonical (s.takeStore l st) := by
  unfold State.takeStore
  grind [applyStore_canonical, count_canonical, elim_canonical, onChainAt_canonical]

theorem toSync_canonical {s : State} (st : ChainStore) (h : Canonical s) : Canonical (s.toSync st) := by
  unfold State.toSync
  grind [applyStore_canonical, onChainAt_canonical, overUal_canonical]

theorem refuseStore_canonical {s : State} (st : ChainStore) (pkg : Nat) (h : Canonical s) :
    Canonical (s.refuseStore st pkg) := by
  unfold State.refuseStore
  grind [logRefusal_canonical, onHolder_canonical]

theorem chainArrive_canonical {s : State} (st : ChainStore) (h : Canonical s) : Canonical (s.chainArrive st) := by
  unfold State.chainArrive
  grind [launch_canonical, logCore_canonical, onChainAt_canonical, refuseStore_canonical, takeStore_canonical,
    toLink_canonical, toMember_canonical, toSync_canonical]

theorem chainAck_canonical {s : State} (st : ChainStore) (h : Canonical s) : Canonical (s.chainAck st) := by
  unfold State.chainAck
  grind [fireChain_canonical, launch_canonical, onChainAt_canonical, toMember_canonical]

theorem askRemote_canonical {s : State} (ctx pa : Nat) (b : UalBody) (h : Canonical s) :
    Canonical (s.askRemote ctx pa b) := by
  unfold State.askRemote
  grind [Canonical]

theorem askWrite_canonical {s : State} (c ctx pa va : Nat) (bs : List Byte) (h : Canonical s) :
    Canonical (s.askWrite c ctx pa va bs) := by
  unfold State.askWrite
  grind [askRemote_canonical]

theorem askAtomic_canonical {s : State} (c ctx : Nat) (pl : Place) (fn width : Nat) (operand cmp : Word) (va : Nat)
    (h : Canonical s) : Canonical (s.askAtomic c ctx pl fn width operand cmp va) := by
  unfold State.askAtomic
  grind [askRemote_canonical]

theorem askHead_canonical {s : State} (r : AtomReq) (h : Canonical s) : Canonical (s.askHead r) := by
  unfold State.askHead
  grind [askRemote_canonical]

theorem chainIssue_canonical {s : State} (c ctx ch va : Nat) (data : List (Nat × Byte)) (bad : Bool) (h : Canonical s) :
    Canonical (s.chainIssue c ctx ch va data bad) := by
  unfold State.chainIssue
  grind [launch_canonical, onHolder_canonical, overUal_canonical]

theorem deviceStore_canonical {s : State} (ctx ch : Nat) (data : List (Nat × Byte)) (h : Canonical s) :
    Canonical (s.deviceStore ctx ch data) := by
  unfold State.deviceStore
  grind [launch_canonical, onCtx_canonical, overUal_canonical]

theorem askChain_canonical {s : State} (c : Nat) (q : MemReq) (h : Canonical s) : Canonical (s.askChain c q) := by
  unfold State.askChain
  grind [askRemote_canonical]

/-! ## Stores to physical memory -/

theorem storeAt_canonical {s : State} (c ctx : Nat) (pl : Place) (va : Nat) (bs : List Byte) (h : Canonical s) :
    Canonical (s.storeAt c ctx pl va bs) := by
  unfold State.storeAt
  grind [askWrite_canonical, chainIssue_canonical, foldl_canonical, logCore_canonical, logRefusal_canonical,
    onPkg_canonical, perform_canonical]

theorem storeBytes_canonical {s : State} (c ctx : Nat) (pl : Place) (va : Nat) (bs : List (Nat × Byte))
    (h : Canonical s) : Canonical (s.storeBytes c ctx pl va bs) := by
  unfold State.storeBytes
  grind [askWrite_canonical, chainIssue_canonical, foldl_canonical, performLine_canonical, storeAt_canonical]

/-! ## Atomics at their serialisation point (R256) -/

theorem dropOwn_canonical {s : State} (c ctx : Nat) (pl : Place) (h : Canonical s) : Canonical (s.dropOwn c ctx pl) := h

theorem writeHome_canonical {s : State} (c ctx : Nat) (pl : Place) (va : Nat) (bs : List Byte)
    (ans : Option (AtomReq × Word)) (h : Canonical s) : Canonical (s.writeHome c ctx pl va bs ans) := by
  unfold State.writeHome
  grind [chainArrive_canonical, launch_canonical, onHolder_canonical, perform_canonical, storeAt_canonical]

theorem atomicAt_canonical {s : State} (c ctx : Nat) (pl : Place) (fn width : Nat) (operand cmp : Word) (va : Nat)
    (req : Option AtomReq) (h : Canonical s) : Canonical (s.atomicAt c ctx pl fn width operand cmp va req).2 := by
  unfold State.atomicAt
  grind [askAtomic_canonical, count_canonical, dropOwn_canonical, writeHome_canonical]

theorem asked_canonical {s : State} (c ctx : Nat) (pl : Place) (h : Canonical s) : Canonical (s.asked c ctx pl) := by
  unfold State.asked
  grind [count_canonical]

theorem atomicHome_canonical {s : State} (c ctx : Nat) (pl : Place) (r : AtomReq) (h : Canonical s) :
    Canonical (s.atomicHome c ctx pl r) := by
  unfold State.atomicHome
  grind [atomicAt_canonical, logCore_canonical, logRefusal_canonical]

/-! ## Watches (R258) -/

theorem watchAt_canonical {s : State} (r : WatchReq) (h : Canonical s) : Canonical (s.watchAt r) := by
  unfold State.watchAt
  grind [Canonical, askRemote_canonical, count_canonical, onCore_canonical, sendWake_canonical]

/-! ## Rings (R263 to R268) -/

theorem askRing_canonical {s : State} (op c ctx : Nat) (pl : Place) (cb slot : Nat) (h : Canonical s) :
    Canonical (s.askRing op c ctx pl cb slot) := by
  unfold State.askRing
  grind [askRemote_canonical]

theorem ringAcq_canonical {s : State} (c ctx : Nat) (pl : Place) (cb : Nat) (h : Canonical s) :
    Canonical (s.ringAcq c ctx pl cb).2 := by
  unfold State.ringAcq
  grind [askRing_canonical, asked_canonical, logCore_canonical, writeHome_canonical]

theorem ringCmt_canonical {s : State} (c ctx : Nat) (pl : Place) (cb slot : Nat) (h : Canonical s) :
    Canonical (s.ringCmt c ctx pl cb slot) := by
  unfold State.ringCmt
  grind [askRing_canonical, asked_canonical, elim_canonical, logCore_canonical, send_canonical, writeHome_canonical]

theorem ringRel_canonical {s : State} (c ctx : Nat) (pl : Place) (cb : Nat) (h : Canonical s) :
    Canonical (s.ringRel c ctx pl cb) := by
  unfold State.ringRel
  grind [askRing_canonical, asked_canonical, logCore_canonical, writeHome_canonical]

/-! ## Route tags (R290, R291, R314) -/

theorem tagOp_canonical {s : State} (c ctx op : Nat) (mask arg : Word) (h : Canonical s) :
    Canonical (s.tagOp c ctx op mask arg) := h

/-! ## Launch entries (R317 to R322) -/

theorem onLaunch_canonical {s : State} (ctx e : Nat) (f : Launch → Launch) (h : Canonical s) :
    Canonical (s.onLaunch ctx e f) := h

theorem writeBlock_canonical {s : State} (ctx e : Nat) (h : Canonical s) : Canonical (s.writeBlock ctx e) := by
  unfold State.writeBlock
  grind [deviceStore_canonical, perform_canonical]

theorem stopFiring_canonical {s : State} (ctx e : Nat) (h : Canonical s) : Canonical (s.stopFiring ctx e) := by
  unfold State.stopFiring
  grind [log_canonical, onLaunch_canonical]

theorem stopLost_canonical {s : State} (h : Canonical s) : Canonical s.stopLost := by
  unfold State.stopLost
  grind [foldl_canonical, stopFiring_canonical]

theorem fire_canonical {s : State} (ctx e : Nat) (pay : Word) (h : Canonical s) : Canonical (s.fire ctx e pay) := by
  unfold State.fire
  grind [launch_canonical, log_canonical, onLaunch_canonical, writeBlock_canonical]

theorem fireMissed_canonical {s : State} (ctx e : Nat) (h : Canonical s) : Canonical (s.fireMissed ctx e) := by
  unfold State.fireMissed
  grind [fire_canonical, onLaunch_canonical]

theorem armEntry_canonical {s : State} (ctx e : Nat) (w0 w1 : Word) (h : Canonical s) :
    Canonical (s.armEntry ctx e w0 w1) := by
  unfold State.armEntry
  grind [fireMissed_canonical, log_canonical, onLaunch_canonical]

theorem disarmEntry_canonical {s : State} (ctx e : Nat) (h : Canonical s) : Canonical (s.disarmEntry ctx e) := h

theorem trigger_canonical {s : State} (t : Trig) (h : Canonical s) : Canonical (s.trigger t) := by
  unfold State.trigger
  grind [fire_canonical, log_canonical, onLaunch_canonical]

theorem firingDone_canonical {s : State} (ctx e : Nat) (h : Canonical s) : Canonical (s.firingDone ctx e) := by
  unfold State.firingDone
  grind [fireMissed_canonical, onLaunch_canonical, send_canonical]

theorem ackIndex_canonical {s : State} (ctx e i : Nat) (h : Canonical s) : Canonical (s.ackIndex ctx e i) := by
  unfold State.ackIndex
  grind [firingDone_canonical, launch_canonical, onLaunch_canonical, stopFiring_canonical, writeBlock_canonical]

/-! ## Run-out (R243 to R246) -/

theorem onRun_canonical {s : State} (ctx g : Nat) (f : RunOut → RunOut) (h : Canonical s) :
    Canonical (s.onRun ctx g f) := h

theorem judge_canonical {s : State} (ctx g : Nat) (h : Canonical s) : Canonical (s.judge ctx g) := h

theorem report_canonical {s : State} (c ctx g : Nat) (x : Lane) (h : Canonical s) : Canonical (s.report c ctx g x) := h

/-! ## Tasks and barriers (R307 to R313) -/

theorem enqueueTask_canonical {s : State} (k : Nat) (r : Ready) (h : Canonical s) : Canonical (s.enqueueTask k r) := by
  unfold State.enqueueTask
  grind [intoRing_getD_canonical, onCluster_canonical]

theorem writeRecord_canonical {s : State} (c ctx pa : Nat) (bs : List Byte) (h : Canonical s) :
    Canonical (s.writeRecord c ctx pa bs) := by
  unfold State.writeRecord
  grind [perform_canonical, writeHome_canonical]

theorem queueTask_canonical {s : State} (c ctx va pa status count : Nat) (h : Canonical s) :
    Canonical (s.queueTask c ctx va pa status count) := by
  unfold State.queueTask
  grind [enqueueTask_canonical, writeRecord_canonical]

theorem unqueue_canonical {s : State} (ctx va : Nat) (h : Canonical s) : Canonical (s.unqueue ctx va) := h

theorem loseTask_canonical {s : State} (c ctx va pa : Nat) (h : Canonical s) : Canonical (s.loseTask c ctx va pa) := by
  unfold State.loseTask
  grind [logCore_canonical, unqueue_canonical, writeRecord_canonical]

theorem releaseBarrier_canonical {s : State} (c ctx va pa : Nat) (t : Task) (h : Canonical s) :
    Canonical (s.releaseBarrier c ctx va pa t) := by
  unfold State.releaseBarrier
  grind [foldl_canonical, launch_canonical, writeRecord_canonical]

theorem arrive_canonical {s : State} (r : TaskReq) (n : Nat) (h : Canonical s) : Canonical (s.arrive r n) := by
  unfold State.arrive
  grind [launch_canonical, logCore_canonical, queueTask_canonical, releaseBarrier_canonical, writeRecord_canonical]

theorem taskHome_canonical {s : State} (r : TaskReq) (h : Canonical s) : Canonical (s.taskHome r) := by
  unfold State.taskHome
  grind [arrive_canonical, askRemote_canonical, logCore_canonical, loseTask_canonical, onCtx_canonical,
    queueTask_canonical, unqueue_canonical, writeRecord_canonical]

/-! ## Posts (R241) -/

theorem applyPost_canonical {s : State} (p : Post) (h : Canonical s) : Canonical (s.applyPost p) := by
  unfold State.applyPost
  grind [log_canonical, perform_canonical, send_canonical]

/-! ## Invalidation, pins and replay (R96, R97, R99) -/

theorem shootdown_canonical {s : State} (r : InvalReq) (locks : Bool) (h : Canonical s) :
    Canonical (s.shootdown r locks) := h

theorem mailbox_canonical {s : State} (ctx : Nat) (mpa : Option Nat) (status : Nat) (h : Canonical s) :
    Canonical (s.mailbox ctx mpa status) := by
  unfold State.mailbox
  grind [perform_canonical]

theorem freeEntry_canonical {s : State} (ctx ch : Nat) (h : Canonical s) : Canonical (s.freeEntry ctx ch) := by
  unfold State.freeEntry
  grind [foldl_canonical, mailbox_canonical, onCtx_canonical]

theorem giveFrames_canonical {s : State} (fs : List Nat) (h : Canonical s) : Canonical (s.giveFrames fs) := h

theorem abandon_canonical {s : State} (g : Migration) (h : Canonical s) : Canonical (s.abandon g) := by
  unfold State.abandon
  grind [Canonical, freeEntry_canonical, giveFrames_canonical, onChain_canonical]

theorem rewalk_canonical {s : State} (r : InvalReq) (h : Canonical s) : Canonical (s.rewalk r) := h

theorem inval_canonical {s : State} (r : InvalReq) (h : Canonical s) : Canonical (s.inval r) := by
  unfold State.inval
  grind [abandon_canonical, foldl_canonical, launch_canonical, rewalk_canonical, shootdown_canonical]

theorem requeueTask_canonical {s : State} (m : Msg) (waits : Bool) (h : Canonical s) :
    Canonical (s.requeueTask m waits) := by
  unfold State.requeueTask
  grind [enqueueTask_canonical, writeRecord_canonical]

theorem forgetKey_canonical {s : State} (m : Msg) (h : Canonical s) : Canonical (s.forgetKey m) := by
  unfold State.forgetKey
  grind [onCtx_canonical]

theorem dispatchMsg_canonical {s : State} (m : Msg) (h : Canonical s) : Canonical (s.dispatchMsg m) := by
  unfold State.dispatchMsg
  grind [Canonical, forgetKey_canonical, send_canonical]

theorem redeliver_canonical {s : State} (m : Msg) (h : Canonical s) : Canonical (s.redeliver m) := by
  unfold State.redeliver
  grind [dispatchMsg_canonical, requeueTask_canonical]

theorem restartEngines_canonical {s : State} (c : Nat) (h : Canonical s) : Canonical (s.restartEngines c) := by
  unfold State.restartEngines
  grind [Canonical, foldl_canonical, launch_canonical]

theorem wakeTasks_canonical {s : State} (ctx : Nat) (h : Canonical s) : Canonical (s.wakeTasks ctx) := h

theorem replay_canonical {s : State} (ctx : Nat) (h : Canonical s) : Canonical (s.replay ctx) := by
  unfold State.replay
  grind [Canonical, foldl_canonical, onCtx_canonical, redeliver_canonical, restartEngines_canonical,
    wakeTasks_canonical]

theorem pinPage_canonical {s : State} (r : PinReq) (h : Canonical s) : Canonical (s.pinPage r).2 := by
  unfold State.pinPage
  grind [Canonical, foldl_canonical]

/-! ## Changing the links of a chain (R109 to R116) -/

theorem announce_canonical {s : State} (ctx ch : Nat) (told : List (Nat × Nat)) (h : Canonical s) :
    Canonical (s.announce ctx ch told) := by
  unfold State.announce
  grind [tell_canonical]

theorem sigFollow_canonical {s : State} (f : Nat → Nat) (h : Canonical s) : Canonical (s.sigFollow f) := h

theorem removeLink_canonical {s : State} (owner ctx ch : Nat) (l : Nat × Nat) (h : Canonical s) :
    Canonical (s.removeLink owner ctx ch l) := by
  unfold State.removeLink
  grind [Canonical, announce_canonical, foldl_canonical, log_canonical, mailbox_canonical, onChainAt_canonical,
    sigFollow_canonical, toLink_canonical, toMember_canonical]

theorem dropSync_canonical {s : State} (ctx ch : Nat) (h : Canonical s) : Canonical (s.dropSync ctx ch) := by
  unfold State.dropSync
  grind [Canonical, announce_canonical, freeEntry_canonical, mailbox_canonical, onChain_canonical]

theorem adopt_canonical {s : State} (ctx : Nat) (ra rb : Word) (mpa : Option Nat) (h : Canonical s) :
    Canonical (s.adopt ctx ra rb mpa) := by
  unfold State.adopt
  grind [mailbox_canonical, onChain_canonical, onPkg_canonical, tell_canonical]

theorem landChain_canonical {s : State} (ctx ch : Nat) (h : Canonical s) : Canonical (s.landChain ctx ch) := by
  unfold State.landChain
  grind [Canonical, chainAck_canonical, chainArrive_canonical, foldl_canonical]

theorem unlinkLast_canonical {s : State} (ctx ch : Nat) (l : Nat × Nat) (mpa : Option Nat) (h : Canonical s) :
    Canonical (s.unlinkLast ctx ch l mpa) := by
  unfold State.unlinkLast
  grind [announce_canonical, dropSync_canonical, freeEntry_canonical, landChain_canonical, mailbox_canonical]

theorem chainCmd_canonical {s : State} (ctx fn : Nat) (ra rb : Word) (mpa : Option Nat) (h : Canonical s) :
    Canonical (s.chainCmd ctx fn ra rb mpa) := by
  unfold State.chainCmd
  grind [adopt_canonical, announce_canonical, dropSync_canonical, launch_canonical, mailbox_canonical,
    onChain_canonical, removeLink_canonical, unlinkLast_canonical]

/-! ## Performing one gated item (R280) -/

theorem kick_canonical {s : State} (c : Nat) (k : CopyCmd) (h : Canonical s) :
    ∀ t, s.kick c k = some t → Canonical t := by
  unfold State.kick
  grind [copyStatus_canonical, launch_canonical, onCore_canonical]

theorem postGate_canonical {s : State} (c ctx : Nat) (p : GatePost) (ncore ntag : Nat) (pkgs : List Nat)
    (h : Canonical s) : Canonical (s.postGate c ctx p ncore ntag pkgs) := by
  unfold State.postGate
  grind [Canonical, foldl_canonical, launch_canonical, logRefusal_canonical, onPkg_canonical]

theorem remote_canonical {s : State} (c ctx pkg : Nat) (dest : Word) (b : UalBody) (h : Canonical s) :
    Canonical (s.remote c ctx pkg dest b) := by
  unfold State.remote
  grind [Canonical, launch_canonical, logRefusal_canonical]

theorem evict_canonical {s : State} (c : Nat) (m : Msg) (h : Canonical s) : Canonical (s.evict c m) := h

theorem hold_canonical {s : State} (m : Msg) (h : Canonical s) : Canonical (s.hold m) := h

theorem spillOut_canonical {s : State} (c : Nat) (m : Msg) (h : Canonical s) : Canonical (s.spillOut c m) := by
  unfold State.spillOut
  dsimp only
  split
  · exact evict_canonical _ _ h
  · split
    · rename_i hr
      exact onCtx_canonical _ _ (intoRing_canonical _ (onCore_canonical _ _ h) _ hr)
    · exact hold_canonical _ (onCore_canonical _ _ h)

theorem toHead_canonical {s : State} (c : Nat) (m : Msg) (h : Canonical s) : Canonical (s.toHead c m) := by
  unfold State.toHead
  grind [log_canonical, onCore_canonical, spillOut_canonical]

theorem bcastTo_canonical {s : State} (g : Nat) (m : Msg) (h : Canonical s) : Canonical (s.bcastTo g m) := by
  unfold State.bcastTo
  grind [dispatchMsg_canonical, foldl_canonical]

/-! ## Barrier entries (R312, R313) -/

theorem settleBars_canonical {s : State} (c : Nat) (h : Canonical s) : Canonical (s.settleBars c) := by
  unfold State.settleBars
  grind [foldl_canonical, onCore_canonical, send_canonical]

theorem arriveBar_canonical {s : State} (c : Nat) (cont : Option Msg) (r : TaskReq) (h : Canonical s) :
    Canonical (s.arriveBar c cont r) := by
  unfold State.arriveBar
  grind [onCore_canonical, taskHome_canonical]

theorem taskItem_canonical {s : State} (c : Nat) (r : TaskReq) (h : Canonical s) : Canonical (s.taskItem c r) := by
  unfold State.taskItem
  grind [arriveBar_canonical, onCore_canonical, settleBars_canonical, taskHome_canonical]

theorem sendCombinable_canonical {s : State} (c : Nat) (pl : Place) (r : AtomReq) (h : Canonical s) :
    Canonical (s.sendCombinable c pl r) := h

theorem postAtomic_canonical {s : State} (c ctx : Nat) (pl : Place) (r : AtomReq) (h : Canonical s) :
    Canonical (s.postAtomic c ctx pl r) := by
  unfold State.postAtomic
  grind [atomicHome_canonical, sendCombinable_canonical]

theorem orRefused_canonical {s : State} (c ctx va : Nat) (pl : Place) {t : State} (h : Canonical s) (ht : Canonical t) :
    Canonical (s.orRefused c ctx va pl t) := by
  unfold State.orRefused
  grind [logRefusal_canonical]

theorem undoWaiting_canonical {s : State} (c : Nat) (w : Waiting) (h : Canonical s) :
    Canonical (s.undoWaiting c w) := by
  unfold State.undoWaiting
  grind [cancelGetsOf_canonical, onCore_canonical]

theorem dropWaiting_canonical {s : State} (c : Nat) (h : Canonical s) : Canonical (s.dropWaiting c) := by
  unfold State.dropWaiting
  grind [dispatchMsg_canonical, undoWaiting_canonical]

theorem dropHolders_canonical {s : State} (r : InvalReq) (c : Nat) (h : Canonical s) :
    Canonical (s.dropHolders r c) := by
  unfold State.dropHolders
  grind [dispatchMsg_canonical, dropWaiting_canonical, drop_canonical, send_canonical]

theorem invalNow_canonical {s : State} (r : InvalReq) (h : Canonical s) : Canonical (s.invalNow r) := by
  unfold State.invalNow
  grind [dropHolders_canonical, foldl_canonical, inval_canonical]

theorem performGated_canonical {s : State} (c : Nat) (g : Gated) (h : Canonical s) :
    ∀ t, performGated s c g = some t → Canonical t := by
  unfold performGated
  grind [armEntry_canonical, bcastTo_canonical, chainCmd_canonical, disarmEntry_canonical, dispatchMsg_canonical,
    invalNow_canonical, kick_canonical, launch_canonical, orRefused_canonical, postAtomic_canonical, postGate_canonical,
    remote_canonical, replay_canonical, report_canonical, ringCmt_canonical, ringRel_canonical, storeBytes_canonical,
    tagOp_canonical, taskItem_canonical, toHead_canonical, watchAt_canonical]

/-! ## Ordered conflicts (R299, R301) -/

theorem dropOrdered_canonical {s : State} (c : Nat) (h : Canonical s) : Canonical (s.dropOrdered c) := by
  unfold State.dropOrdered
  grind [dispatchMsg_canonical, drop_canonical]

theorem conflict_canonical {s : State} (m : Msg) (ls : Option (List Nat)) (h : Canonical s) :
    Canonical (s.conflict m ls) := by
  unfold State.conflict
  grind [dropOrdered_canonical, dropWaiting_canonical, foldl_canonical]

theorem performFor_canonical {s : State} (c : Nat) (m : Msg) (g : Gated) (h : Canonical s) :
    ∀ t, performFor s c m g = some t → Canonical t := by
  unfold performFor
  grind [onCore_canonical, performGated_canonical, Option.map_eq_some_iff]

theorem performItem_canonical {s : State} (c : Nat) (m : Msg) (g : Gated) (h : Canonical s) :
    ∀ t, performItem s c m g = some t → Canonical t := by
  unfold performItem
  grind [conflict_canonical, performFor_canonical, Option.map_eq_some_iff, getD_canonical]

/-! ## Releasing a buffer (R280) -/

theorem performAll_canonical {s : State} (c : Nat) (m : Msg) (gs : List Gated) (h : Canonical s) :
    ∀ t, performAll s c m gs = some t → Canonical t := by
  induction gs generalizing s with
  | nil => grind [performAll]
  | cons g rest ih =>
    unfold performAll
    grind [Option.bind_eq_some_iff, performItem_canonical]

theorem releaseRounds_canonical (n : Nat) {s : State} (c : Nat) (m : Msg) (gs : List Gated) (h : Canonical s) :
    Canonical (releaseRounds n s c m gs).1 := by
  induction n generalizing s gs with
  | zero => cases gs <;> exact h
  | succ n ih =>
    cases gs with
    | nil => exact h
    | cons g rest =>
      unfold releaseRounds
      grind [performAll_canonical]

theorem releaseAll_canonical {s : State} (c : Nat) (m : Msg) (gs : List Gated) (h : Canonical s) :
    Canonical (releaseAll s c m gs).1 := by
  unfold releaseAll
  grind [releaseRounds_canonical]

theorem releaseList_canonical {s : State} (c : Nat) (m : Msg) (buf : List Gated) (h : Canonical s) :
    Canonical (releaseList s c m buf).1 := by
  unfold releaseList
  grind [releaseAll_canonical]

theorem releaseBuffer_canonical {s : State} (c : Nat) (h : Canonical s) : Canonical (s.releaseBuffer c).1 := by
  unfold State.releaseBuffer
  grind [onCore_canonical, releaseList_canonical]

/-! ## Becoming irrevocable (R297, R302) -/

theorem drain_canonical : KeepsCanonical drain := by
  unfold drain
  grind [bind_canonical, get_bind_canonical, pure_canonical, releaseBuffer_canonical, set_canonical, stall_canonical]

theorem becomeIrrevocable_canonical : KeepsCanonical becomeIrrevocable := by
  unfold becomeIrrevocable
  grind [bind_canonical, drain_canonical, get_bind_canonical, modCore_canonical, stall_canonical]

/-! ## Gating (R249, R296) -/

theorem performNow_canonical (g : Gated) : KeepsCanonical (performNow g) := by
  unfold performNow
  grind [bind_canonical, drain_canonical, get_bind_canonical, performItem_canonical, set_canonical, stall_canonical]

theorem dropAtomicLine_canonical (g : Gated) : KeepsCanonical (dropAtomicLine g) := by
  unfold dropAtomicLine
  grind [dropOwn_canonical, modify_canonical, pure_canonical]

theorem gate_canonical (item : Gated) : KeepsCanonical (gate item) := by
  unfold gate
  grind [becomeIrrevocable_canonical, bind_canonical, dropAtomicLine_canonical, get_bind_canonical, modCore_canonical,
    performNow_canonical, stall_canonical]

/-! ## Instructions that gate several items (R240, R254, R262) -/

theorem keepMisses_canonical {s : State} (t : State) (h : Canonical s) : Canonical (s.keepMisses t) := h

theorem allAtOnce_canonical {m : M Unit} (hm : KeepsCanonical m) : KeepsCanonical (allAtOnce m) := by
  intro s h
  have hk := hm (s.setCore { s.core with group := some s.core.chainOut.length }) (setCore_canonical _ h)
  unfold allAtOnce
  grind [keepMisses_canonical, setCore_canonical]

theorem asGroup_canonical {m : M Unit} (hm : KeepsCanonical m) : KeepsCanonical (asGroup m) := by
  unfold asGroup
  grind [allAtOnce_canonical, becomeIrrevocable_canonical, bind_canonical, get_bind_canonical, onlyIf_canonical]

/-! ## Neighbour queues (R269 to R271) -/

theorem enqueue_canonical {s : State} (k : Nat) (w : BitVec 65) (h : Canonical s) : Canonical (s.enqueue k w) := by
  unfold State.enqueue
  grind [launch_canonical]

theorem wordArrives_canonical {s : State} (c k : Nat) (w : QueueWord) (h : Canonical s) :
    Canonical (s.wordArrives c k w) := by
  unfold State.wordArrives
  grind [Canonical, onCore_canonical, onCtx_canonical]

theorem catchWord_canonical (k : Nat) : KeepsCanonical (catchWord k) := by
  unfold catchWord
  grind [bind_canonical, core_canonical, endWith_canonical, modCore_canonical, setCore_canonical, trap_canonical]

theorem openPorts_canonical (dest : Option SReg) (srcs : List SReg) : KeepsCanonical (openPorts dest srcs) := by
  unfold openPorts
  grind [becomeIrrevocable_canonical, bind_canonical, catchWord_canonical, endWith_canonical, get_bind_canonical,
    pure_canonical, sprinkleFail_canonical, stallAtPort_canonical, trap_canonical]

/-! ## Writing at retirement (R175) -/

theorem putS_canonical {s : State} (n : SReg) (w : Word) (h : Canonical s) : Canonical (s.putS n w) := by
  unfold State.putS
  grind [enqueue_canonical, setCore_canonical]

theorem finish_canonical (srcs : List SReg) : KeepsCanonical (finish srcs) := fun _ h => h

theorem finishS_canonical (rd : SReg) (srcs : List SReg) (w : Word) : KeepsCanonical (finishS rd srcs w) := by
  unfold finishS
  grind [bind_canonical, modCore_canonical, modify_canonical, putS_canonical, retire_canonical]

theorem finishV_canonical (rd : VReg) (srcs : List SReg) (x : VWord) : KeepsCanonical (finishV rd srcs x) :=
  fun _ h => h

theorem finishP_canonical (rd : PReg) (srcs : List SReg) (x : PWord) : KeepsCanonical (finishP rd srcs x) :=
  fun _ h => h

theorem finishL_canonical (rd : SReg) (la : BitVec 4) (srcs : List SReg) (w : Word) :
    KeepsCanonical (finishL rd la srcs w) := by
  unfold finishL
  grind [bind_canonical, enqueue_canonical, modCore_canonical, modify_canonical, retireWith_canonical, retire_canonical]

theorem finishR_canonical (r : RegVal) (la : BitVec 4) (srcs : List SReg) : KeepsCanonical (finishR r la srcs) :=
  fun _ h => h

/-! ## The plain forms of the register groups -/

theorem scalar2_canonical (rd : SReg) (sa sb : Src) {f : Word → Word → M Word}
    (hf : ∀ x0 x1, KeepsCanonical (f x0 x1)) : KeepsCanonical (scalar2 rd sa sb f) := by
  unfold scalar2
  grind [bind_canonical, core_canonical, finishS_canonical, openPorts_canonical]

theorem scalar1_canonical (rd : SReg) (sa : Src) (f : Word → Word) : KeepsCanonical (scalar1 rd sa f) := by
  unfold scalar1
  grind [bind_canonical, core_canonical, finishS_canonical, openPorts_canonical]

theorem scalarI_canonical (rd rs : SReg) (f : Word → Word) : KeepsCanonical (scalarI rd rs f) := by
  unfold scalarI
  grind [scalar1_canonical]

theorem pred2_canonical (rd : PReg) (sa sb : PSrc) (f : PWord → PWord → PWord) : KeepsCanonical (pred2 rd sa sb f) :=
  fun _ h => h

theorem predS_canonical (rd : SReg) (sa : PSrc) (f : PWord → Word) : KeepsCanonical (predS rd sa f) := by
  unfold predS
  grind [bind_canonical, core_canonical, finishS_canonical, openPorts_canonical]

theorem raise_canonical (fl : FFlags) : KeepsCanonical (raise fl) := by
  unfold raise
  grind [bind_canonical, core_canonical, endWith_canonical, modCore_canonical, setCore_canonical, takeTrap_canonical]

theorem fvec2_canonical (rd : VReg) (sa sb : VSrc) (f : Rm → Lane → Lane → Lane → Lane × FFlags) :
    KeepsCanonical (fvec2 rd sa sb f) := by
  unfold fvec2
  grind [bind_canonical, core_canonical, finishV_canonical, openPorts_canonical, raise_canonical]

theorem fvec1_canonical (rd : VReg) (sa : VSrc) (f : Rm → Lane → Lane × FFlags) : KeepsCanonical (fvec1 rd sa f) := by
  unfold fvec1
  grind [bind_canonical, core_canonical, finishV_canonical, openPorts_canonical, raise_canonical]

theorem ivec2_canonical (rd : VReg) (sa sb : VSrc) (f : Lane → Lane → Lane) : KeepsCanonical (ivec2 rd sa sb f) := by
  unfold ivec2
  grind [bind_canonical, core_canonical, finishV_canonical, openPorts_canonical]

theorem fcmp_canonical (rd : PReg) (sa sb : VSrc) (f : Lane → Lane → Bool × FFlags) :
    KeepsCanonical (fcmp rd sa sb f) := by
  unfold fcmp
  grind [bind_canonical, core_canonical, finishP_canonical, openPorts_canonical, raise_canonical]

theorem icmp_canonical (rd : PReg) (sa sb : VSrc) (f : Lane → Lane → Bool) : KeepsCanonical (icmp rd sa sb f) := by
  unfold icmp
  grind [bind_canonical, core_canonical, finishP_canonical, openPorts_canonical]

/-! ## Reading a place -/

theorem noteSig_canonical {s : State} (c : Nat) (pl : Place) (h : Canonical s) : Canonical (s.noteSig c pl) := by
  unfold State.noteSig
  grind [onCore_canonical]

theorem noteRead_canonical {s : State} (c ctx : Nat) (pl : Place) (fill : Bool) (n : Nat) (h : Canonical s) :
    Canonical (s.noteRead c ctx pl fill n) := by
  unfold State.noteRead
  grind [askChain_canonical, askRemote_canonical, count_canonical, fillL1_canonical, fillL2_canonical,
    noteSig_canonical]

/-! ## Loads (R249, R250) -/

theorem askHost_canonical {s : State} (c pa n : Nat) (h : Canonical s) : Canonical (s.askHost c pa n) := h

theorem hostLoad_canonical (va pa n : Nat) : KeepsCanonical (hostLoad va pa n) := by
  unfold hostLoad
  grind [askHost_canonical, bind_canonical, core_canonical, modCore_canonical, modify_canonical, onlyIf_canonical,
    pure_canonical, stall_canonical, trap_canonical]

theorem memBytes_canonical (va : Nat) (pl : Place) (n : Nat) : KeepsCanonical (memBytes va pl n) := by
  unfold memBytes
  grind [bind_canonical, consume_canonical, endWith_canonical, get_bind_canonical, hostLoad_canonical,
    noteRead_canonical, pure_canonical, set_canonical, stall_canonical, trap_canonical]

theorem loadLine_canonical (va : Nat) (pl : Place) (n : Nat) : KeepsCanonical (loadLine va pl n) := by
  unfold loadLine
  grind [becomeIrrevocable_canonical, bind_canonical, get_bind_canonical, memBytes_canonical, onlyIf_canonical,
    pure_canonical]

theorem loadParts_canonical (va : Nat) (pl : Place) (ps : List (Nat × Nat)) : KeepsCanonical (loadParts va pl ps) := by
  induction ps with
  | nil => exact pure_canonical _
  | cons p rest ih =>
    unfold loadParts
    grind [bind_canonical, loadLine_canonical, pure_canonical]

theorem loadBytes_canonical (va : Nat) (pl : Place) (n : Nat) : KeepsCanonical (loadBytes va pl n) := by
  unfold loadBytes
  grind [loadParts_canonical]

/-! ## Stores (R249) -/

theorem storeGated_canonical (va : Nat) (pl : Place) (bs : List (Nat × Byte)) (rel : Bool) :
    KeepsCanonical (storeGated va pl bs rel) := by
  unfold storeGated
  grind [each_canonical, gate_canonical]

/-! ## Addresses (R247) -/

theorem addrL_canonical (rb : Word) (off : BitVec 6) (size : Nat) : KeepsCanonical (addrL rb off size) := by
  unfold addrL
  grind [pure_canonical, trap_canonical]

/-! ## Operations of core state (R257) -/

theorem atHome_canonical (va : Nat) (pl : Place) {f : State → Word × State}
    (hf : ∀ t, Canonical t → Canonical (f t).2) : KeepsCanonical (atHome va pl f) := by
  unfold atHome
  refine get_bind_canonical fun s h => ?_
  have ht := hf s h
  grind [bind_canonical, conflict_canonical, consume_canonical, endWith_canonical, modCore_canonical, noteSig_canonical,
    pure_canonical, set_canonical, stall_canonical]

theorem returning_canonical (va : Nat) (pl : Place) {f : State → Word × State}
    (hf : ∀ t, Canonical t → Canonical (f t).2) : KeepsCanonical (returning va pl f) := by
  unfold returning
  grind [atHome_canonical, becomeIrrevocable_canonical, bind_canonical, get_bind_canonical, modCore_canonical,
    pure_canonical, stall_canonical, trapIf_canonical, waitWhile_canonical]

/-! ## The own local store (R59) -/

theorem ownBytes_canonical (va off n : Nat) : KeepsCanonical (ownBytes va off n) := by
  unfold ownBytes
  grind [bind_canonical, get_bind_canonical, loadBytes_canonical]

theorem ownDescriptor_canonical (w : Word) (n align cause : Nat) : KeepsCanonical (ownDescriptor w n align cause) := by
  unfold ownDescriptor
  grind [bind_canonical, get_bind_canonical, ownBytes_canonical, pure_canonical, trap_canonical]

/-! ## Integer arithmetic (R177 to R180) -/

theorem divide_canonical (f : Word → Word → Word) (a b : Word) : KeepsCanonical (divide f a b) := by
  unfold divide
  grind [pure_canonical, trap_canonical]

theorem divideWords_canonical (f : Lane → Lane → Lane) (a b : Word) : KeepsCanonical (divideWords f a b) := by
  unfold divideWords
  grind [pure_canonical, trap_canonical]

theorem pointerAdd_canonical (p d : Word) : KeepsCanonical (pointerAdd p d) := by
  unfold pointerAdd
  grind [pure_canonical, trap_canonical]

theorem execSbSel_canonical (rd : SReg) (sa sb : Src) {s : State} (h : Canonical s) :
    NextCanonical (execSbSel rd sa sb s) := by
  unfold execSbSel
  grind [bind_canonical, core_canonical, finishS_canonical, openPorts_canonical, run_canonical]

theorem execLiHi_canonical (rd : SReg) (imm : BitVec 20) {s : State} (h : Canonical s) :
    NextCanonical (execLiHi rd imm s) := by
  unfold execLiHi
  grind [bind_canonical, finishS_canonical, openPorts_canonical, run_canonical]

theorem execLiTop_canonical (rd : SReg) (imm : BitVec 20) {s : State} (h : Canonical s) :
    NextCanonical (execLiTop rd imm s) := by
  unfold execLiTop
  grind [bind_canonical, core_canonical, finishS_canonical, openPorts_canonical, run_canonical]

/-! ## Control flow (R183 to R188) -/

theorem goTo_canonical (srcs : List SReg) (target : BitVec 52) : KeepsCanonical (goTo srcs target) := fun _ h => h

theorem branch_canonical (srcs : List SReg) (off : BitVec 14) (test : Core → Bool) :
    KeepsCanonical (branch srcs off test) := by
  unfold branch
  grind [bind_canonical, core_canonical, finish_canonical, goTo_canonical, openPorts_canonical]

theorem branchZero_canonical (sa : SReg) (off : BitVec 14) (test : Word → Bool) :
    KeepsCanonical (branchZero sa off test) := by
  unfold branchZero
  grind [branch_canonical]

theorem jxTarget_canonical (w : Word) : KeepsCanonical (jxTarget w) := by
  unfold jxTarget
  grind [pure_canonical, trap_canonical]

theorem execJmp_canonical (off : BitVec 26) {s : State} (h : Canonical s) : NextCanonical (execJmp off s) := by
  unfold execJmp
  grind [bind_canonical, core_canonical, goTo_canonical, run_canonical]

theorem execCall_canonical (off : BitVec 26) {s : State} (h : Canonical s) : NextCanonical (execCall off s) := by
  unfold execCall
  grind [modCore_canonical, run_canonical]

theorem execJxJr_canonical (sa : Src) {s : State} (h : Canonical s) : NextCanonical (execJxJr sa s) := by
  unfold execJxJr
  grind [bind_canonical, core_canonical, goTo_canonical, jxTarget_canonical, openPorts_canonical, run_canonical]

theorem execJxCallr_canonical (rd : SReg) (sa : Src) {s : State} (h : Canonical s) :
    NextCanonical (execJxCallr rd sa s) := by
  unfold execJxCallr
  grind [bind_canonical, core_canonical, jxTarget_canonical, modCore_canonical, modify_canonical, openPorts_canonical,
    putS_canonical, run_canonical]

theorem execJxRet_canonical {s : State} (h : Canonical s) : NextCanonical (execJxRet s) := by
  unfold execJxRet
  grind [bind_canonical, core_canonical, jxTarget_canonical, modCore_canonical, run_canonical]

theorem execLpDo_canonical (rs : SReg) (imm : BitVec 14) {s : State} (h : Canonical s) :
    NextCanonical (execLpDo rs imm s) := by
  unfold execLpDo
  grind [bind_canonical, core_canonical, modCore_canonical, openPorts_canonical, run_canonical, trap_canonical]

/-! ## Predicates (R190) -/

theorem execPrNot_canonical (rd : PReg) (sa : PSrc) {s : State} (h : Canonical s) :
    NextCanonical (execPrNot rd sa s) := by
  unfold execPrNot
  grind [bind_canonical, core_canonical, finishP_canonical, run_canonical]

theorem execPrSet_canonical (rd : PReg) (sa : KSrc) {s : State} (h : Canonical s) :
    NextCanonical (execPrSet rd sa s) := by
  unfold execPrSet
  grind [bind_canonical, core_canonical, finishP_canonical, run_canonical]

/-! ## Data movement (R196) -/

theorem move_canonical (rd : VReg) (sa sb : VSrc) (f : VWord → Opnd → VWord → PWord → VWord) :
    KeepsCanonical (move rd sa sb f) := by
  unfold move
  grind [bind_canonical, core_canonical, finishV_canonical, openPorts_canonical]

/-! ## Conversions (R197) -/

theorem convert_canonical (rd : VReg) (sa sb : VSrc) (f : Rm → Nat → Opnd → VWord → VWord × FFlags) :
    KeepsCanonical (convert rd sa sb f) := by
  unfold convert
  grind [bind_canonical, core_canonical, finishV_canonical, openPorts_canonical, raise_canonical]

/-! ## Reductions (R198) -/

theorem reduce_canonical (rd : SReg) (sa sb : VSrc) (f : Rm → Opnd → Opnd → Word × FFlags) :
    KeepsCanonical (reduce rd sa sb f) := by
  unfold reduce
  grind [bind_canonical, core_canonical, finishS_canonical, openPorts_canonical, raise_canonical]

/-! ## Loads and stores (R252) -/

theorem loadS_canonical (la : BitVec 4) (rv rb : SReg) (off : BitVec 6) (size : Nat) (ext : Nat → Word) :
    KeepsCanonical (loadS la rv rb off size ext) := by
  unfold loadS
  grind [addrL_canonical, bind_canonical, core_canonical, finishL_canonical, loadBytes_canonical, openPorts_canonical,
    resolve_canonical]

theorem storeS_canonical (rv rb : SReg) (off : BitVec 6) (size : Nat) (rel : Bool) :
    KeepsCanonical (storeS rv rb off size rel) := by
  unfold storeS
  grind [addrL_canonical, bind_canonical, core_canonical, finish_canonical, openPorts_canonical, resolve_canonical,
    storeGated_canonical]

theorem storeV_canonical (rb : SReg) (off : BitVec 6) (bytes : Core → List (Nat × Byte)) :
    KeepsCanonical (storeV rb off bytes) := by
  unfold storeV
  grind [addrL_canonical, bind_canonical, core_canonical, finish_canonical, openPorts_canonical, resolve_canonical,
    storeGated_canonical]

theorem execLdV_canonical (la : BitVec 4) (rv : VReg) (rb : SReg) (off : BitVec 6) {s : State} (h : Canonical s) :
    NextCanonical (execLdV la rv rb off s) := by
  unfold execLdV
  grind [addrL_canonical, bind_canonical, core_canonical, finishR_canonical, loadBytes_canonical, openPorts_canonical,
    resolve_canonical, run_canonical]

/-! ## Typed accesses (R63, R253, R254, Table 12.3) -/

theorem typedSpan_canonical (p : Word) (rv : VReg) (store : Bool) : KeepsCanonical (typedSpan p rv store) := by
  unfold typedSpan
  grind [pure_canonical, trap_canonical]

theorem typedPlaces_canonical (p : Word) (va align : Nat) (acc : Acc) (ps : List (Nat × Nat)) :
    KeepsCanonical (typedPlaces p va align acc ps) := by
  induction ps with
  | nil => exact pure_canonical _
  | cons q rest ih =>
    unfold typedPlaces
    grind [bind_canonical, pure_canonical, resolve_canonical, trap_canonical]

theorem typedBytes_canonical (va : Nat) (ps : List (Nat × Nat × Place)) : KeepsCanonical (typedBytes va ps) := by
  induction ps with
  | nil => exact pure_canonical _
  | cons q rest ih =>
    unfold typedBytes
    grind [bind_canonical, loadBytes_canonical, pure_canonical]

theorem execLdVt_canonical (la : BitVec 4) (rv : VReg) (rb : SReg) (off : BitVec 6) {s : State} (h : Canonical s) :
    NextCanonical (execLdVt la rv rb off s) := by
  unfold execLdVt
  grind [addrL_canonical, bind_canonical, core_canonical, finishR_canonical, openPorts_canonical, raise_canonical,
    run_canonical, typedBytes_canonical, typedPlaces_canonical, typedSpan_canonical]

theorem execStVt_canonical (rv : VReg) (rb : SReg) (off : BitVec 6) {s : State} (h : Canonical s) :
    NextCanonical (execStVt rv rb off s) := by
  unfold execStVt
  refine run_canonical ?_ h
  refine bind_canonical (openPorts_canonical _ _) fun _ => bind_canonical core_canonical fun c =>
    bind_canonical (addrL_canonical _ _ _) fun va => bind_canonical (typedSpan_canonical _ _ _) fun span =>
    bind_canonical (typedPlaces_canonical _ _ _ _ _) fun ps => ?_
  grind [asGroup_canonical, bind_canonical, each_canonical, finish_canonical, raise_canonical, storeGated_canonical]

/-! ## Scalar atomics (R255 to R258) -/

theorem issueCombinable_canonical (va : Nat) (pl : Place) (r : AtomReq) : KeepsCanonical (issueCombinable va pl r) := by
  unfold issueCombinable
  grind [becomeIrrevocable_canonical, bind_canonical, get_bind_canonical, modify_canonical, sendCombinable_canonical,
    trapIf_canonical, waitWhile_canonical]

theorem atomicOp_canonical (fn width : Nat) (la : BitVec 4) (ra rb rc : SReg) :
    KeepsCanonical (atomicOp fn width la ra rb rc) := by
  unfold atomicOp
  grind [atomicAt_canonical, bind_canonical, core_canonical, finishL_canonical, finish_canonical, gate_canonical,
    get_bind_canonical, issueCombinable_canonical, modCore_canonical, openPorts_canonical, resolveAtomic_canonical,
    retire_canonical, returning_canonical]

theorem watchOp_canonical (width : Nat) (la : BitVec 4) (ra rb rc : SReg) :
    KeepsCanonical (watchOp width la ra rb rc) := by
  unfold watchOp
  grind [bind_canonical, core_canonical, finishL_canonical, finish_canonical, gate_canonical, get_bind_canonical,
    openPorts_canonical, ownDescriptor_canonical, resolveAtomic_canonical, returning_canonical, trap_canonical,
    watchAt_canonical]

/-! ## Vector memory instructions (R259 to R262) -/

theorem vgLane_canonical (acc : Acc) (p : Word) (idx : VWord) {f : Fin 16 → Nat → Place → M Unit} (i : Fin 16)
    (hf : ∀ x0 x1 x2, KeepsCanonical (f x0 x1 x2)) : KeepsCanonical (vgLane acc p idx f i) := by
  unfold vgLane
  grind [bind_canonical, modCore_canonical, resolveAtomic_canonical, resolve_canonical, trap_canonical]

theorem vgLanes_canonical (acc : Acc) (rb : SReg) (rc : VReg) {f : Fin 16 → Nat → Place → M Unit}
    (hf : ∀ x0 x1 x2, KeepsCanonical (f x0 x1 x2)) : KeepsCanonical (vgLanes acc rb rc f) := by
  unfold vgLanes
  grind [asGroup_canonical, bind_canonical, core_canonical, each_canonical, modCore_canonical, vgLane_canonical]

theorem unlessStalled_canonical (rv : VReg) {m : M Unit} (hm : KeepsCanonical m) :
    KeepsCanonical (unlessStalled rv m) := by
  intro s h
  have hk := hm s h
  unfold unlessStalled
  grind [setCore_canonical]

theorem vgStore_canonical (acc : Acc) (rb : SReg) (rc : VReg) {f : Fin 16 → Nat → Place → M Unit}
    (hf : ∀ x0 x1 x2, KeepsCanonical (f x0 x1 x2)) : KeepsCanonical (vgStore acc rb rc f) := by
  unfold vgStore
  grind [bind_canonical, finish_canonical, openPorts_canonical, vgLanes_canonical]

theorem vgAtomic_canonical (fn : Nat) (ra : VReg) (rb : SReg) (rc : VReg) : KeepsCanonical (vgAtomic fn ra rb rc) := by
  unfold vgAtomic
  grind [bind_canonical, gate_canonical, get_bind_canonical, vgStore_canonical]

theorem execVgGat_canonical (la : BitVec 4) (ra : VReg) (rb : SReg) (rc : VReg) {s : State} (h : Canonical s) :
    NextCanonical (execVgGat la ra rb rc s) := by
  unfold execVgGat
  grind [bind_canonical, core_canonical, finishR_canonical, loadBytes_canonical, modCore_canonical, openPorts_canonical,
    run_canonical, unlessStalled_canonical, vgLanes_canonical]

theorem execVgSca_canonical (ra : VReg) (rb : SReg) (rc : VReg) {s : State} (h : Canonical s) :
    NextCanonical (execVgSca ra rb rc s) := by
  unfold execVgSca
  grind [bind_canonical, core_canonical, run_canonical, storeGated_canonical, vgStore_canonical]

/-! ## Rings (R263 to R268) -/

theorem ringPlace_canonical (rb : Word) : KeepsCanonical (ringPlace rb) := by
  unfold ringPlace
  grind [resolveAtomic_canonical, trap_canonical]

theorem execRgAcq_canonical (la : BitVec 4) (ra rb : SReg) {s : State} (h : Canonical s) :
    NextCanonical (execRgAcq la ra rb s) := by
  unfold execRgAcq
  grind [bind_canonical, core_canonical, finishL_canonical, openPorts_canonical, returning_canonical, ringAcq_canonical,
    ringPlace_canonical, run_canonical]

theorem execRgCmt_canonical (rb rc : SReg) {s : State} (h : Canonical s) : NextCanonical (execRgCmt rb rc s) := by
  unfold execRgCmt
  grind [bind_canonical, core_canonical, finish_canonical, gate_canonical, openPorts_canonical, ringPlace_canonical,
    run_canonical, trap_canonical]

theorem execRgPeek_canonical (la : BitVec 4) (ra rb : SReg) {s : State} (h : Canonical s) :
    NextCanonical (execRgPeek la ra rb s) := by
  unfold execRgPeek
  grind [bind_canonical, core_canonical, finishL_canonical, loadBytes_canonical, logCore_canonical, modify_canonical,
    onlyIf_canonical, openPorts_canonical, ringPlace_canonical, run_canonical]

theorem execRgRel_canonical (rb : SReg) {s : State} (h : Canonical s) : NextCanonical (execRgRel rb s) := by
  unfold execRgRel
  grind [bind_canonical, core_canonical, finish_canonical, gate_canonical, openPorts_canonical, ringPlace_canonical,
    run_canonical]

/-! ## Neighbour queues (R272) -/

theorem portArg_canonical (w : Word) : KeepsCanonical (portArg w) := by
  unfold portArg
  grind [pure_canonical, trap_canonical]

theorem execQpCtl_canonical (sa sb : Src) {s : State} (h : Canonical s) : NextCanonical (execQpCtl sa sb s) := by
  unfold execQpCtl
  refine run_canonical (bind_canonical (openPorts_canonical _ _) fun _ => bind_canonical core_canonical fun c =>
    bind_canonical (portArg_canonical _) fun k => ?_) h
  grind [becomeIrrevocable_canonical, bind_canonical, enqueue_canonical, finish_canonical, get_bind_canonical,
    modify_canonical, stallAtPort_canonical, trap_canonical]

theorem execQpStat_canonical (rd : SReg) (sa : Src) {s : State} (h : Canonical s) :
    NextCanonical (execQpStat rd sa s) := by
  unfold execQpStat
  grind [bind_canonical, core_canonical, finishS_canonical, get_bind_canonical, openPorts_canonical, portArg_canonical,
    run_canonical]

theorem execQpCatch_canonical (sa sb : Src) {s : State} (h : Canonical s) : NextCanonical (execQpCatch sa sb s) := by
  unfold execQpCatch
  grind [bind_canonical, core_canonical, finish_canonical, modCore_canonical, openPorts_canonical, portArg_canonical,
    run_canonical, trap_canonical]

/-! ## Pre-emption (R336) -/

theorem proofEntry_canonical {s : State} (ctx : Nat) (m : Msg) (h : Canonical s) : Canonical (s.proofEntry ctx m) := by
  unfold State.proofEntry
  grind [writeEntry_canonical]

theorem proofed_canonical {s : State} (ctx : Nat) (ms : List Msg) (h : Canonical s) : Canonical (s.proofed ctx ms) := by
  unfold State.proofed
  grind [foldl_canonical, onCtx_canonical, proofEntry_canonical]

theorem preempted_canonical {s : State} (ctx : Nat) (h : Canonical s) : Canonical (s.preempted ctx) := by
  unfold State.preempted
  grind [Canonical, onCtx_canonical, proofed_canonical]

theorem preempt_canonical {s : State} (ctx : Nat) (h : Canonical s) : Canonical (s.preempt ctx) := by
  unfold State.preempt
  grind [foldl_canonical, launch_canonical, onCtx_canonical, preempted_canonical]

theorem parkForResume_canonical {s : State} (m : Msg) (h : Canonical s) : Canonical (s.parkForResume m) := by
  unfold State.parkForResume
  grind [park_canonical]

theorem parkWaiting_canonical {s : State} (c : Nat) (h : Canonical s) : Canonical (s.parkWaiting c) := by
  unfold State.parkWaiting
  grind [parkForResume_canonical, undoWaiting_canonical]

theorem parkFetching_canonical {s : State} (c : Nat) (h : Canonical s) : Canonical (s.parkFetching c) := by
  unfold State.parkFetching
  grind [onCore_canonical, requeueTask_canonical]

theorem halt_canonical {s : State} (c : Nat) (h : Canonical s) : Canonical (s.halt c) := by
  unfold State.halt
  grind [drop_canonical, launch_canonical, leavePins_canonical, onCore_canonical, onCtx_canonical,
    parkFetching_canonical, parkForResume_canonical, parkWaiting_canonical, preempted_canonical, proofed_canonical,
    unpin_canonical]

/-! ## Local stores (R338) -/

theorem moveBytes_canonical {s : State} (tenant src dst n : Nat) (h : Canonical s) :
    Canonical (s.moveBytes tenant src dst n) := by
  unfold State.moveBytes
  grind [Canonical, stampAll_canonical, writePa_canonical]

/-- The body is taken as a function, and the state that the local stores' moves leave gets a name of its own: a term that
    holds the body at its arguments would have the kernel evaluate the moves' addresses. -/
theorem swap_canonical {s : State} (c ctx : Nat) (h : Canonical s) : Canonical (s.swap c ctx) := by
  obtain ⟨f, hf⟩ : ∃ f, f = State.swap := ⟨_, rfl⟩
  rw [← hf]
  delta State.swap at hf
  subst hf
  beta_reduce
  extract_lets +onlyGivenNames x saved moved
  have hs : Canonical saved := by grind [moveBytes_canonical]
  have hm : Canonical moved := moveBytes_canonical _ _ _ _ hs
  obtain ⟨t, ht, e⟩ := hm.named
  rw [e]
  grind [Canonical, kill_canonical, log_canonical, onCore_canonical, onCtx_canonical, restartEngines_canonical]

/-! ## Resume (R337) -/

theorem inFront_canonical {s : State} {f : State → State} (ms : List Msg) (h : Canonical s)
    (hf : ∀ t, Canonical t → Canonical (f t)) : Canonical (s.inFront f ms) := by
  unfold State.inFront
  grind [Canonical]

theorem replaySaved_canonical {s : State} (ctx : Nat) (h : Canonical s) : Canonical (s.replaySaved ctx) := h

theorem resume_canonical {s : State} (ctx : Nat) (h : Canonical s) : Canonical (s.resume ctx) := by
  unfold State.resume
  grind [foldl_canonical, inFront_canonical, kill_canonical, launch_canonical, log_canonical, onCore_canonical,
    onCtx_canonical, redeliver_canonical, replaySaved_canonical, restartEngines_canonical]

/-! ## The numbers (R9, R346, R347) -/

theorem checkNumber_canonical (n : Nat) : KeepsCanonical (checkNumber n) := by
  unfold checkNumber
  grind [bind_canonical, get_bind_canonical, illegal_canonical, pure_canonical, trap_canonical]

/-! ## Writing (R6, R68, R189, R243, R334) -/

theorem rostatSelectTo_canonical {s : State} (v : Word) (h : Canonical s) : Canonical (s.rostatSelectTo v) := h

theorem rostatArmTo_canonical {s : State} (v : Word) (h : Canonical s) : Canonical (s.rostatArmTo v) := h

theorem rostatDisarmTo_canonical {s : State} (v : Word) (h : Canonical s) : Canonical (s.rostatDisarmTo v) := h

theorem rostatTo_canonical {s : State} (v : Word) (h : Canonical s) : Canonical (s.rostatTo v) := by
  unfold State.rostatTo
  grind [rostatArmTo_canonical, rostatDisarmTo_canonical, rostatSelectTo_canonical]

theorem writeReg_canonical {s : State} (n : Nat) (v : Word) (h : Canonical s) : Canonical (s.writeReg n v) := by
  unfold State.writeReg
  grind [onCtx_canonical, onPkg_canonical, onRun_canonical, rostatTo_canonical, setCore_canonical]

theorem ctxctl_canonical {s : State} (ctx : Nat) (v : Word) (h : Canonical s) : Canonical (s.ctxctl ctx v) := by
  unfold State.ctxctl
  grind [kill_canonical, preempt_canonical, resume_canonical]

theorem putReg_canonical (r : SReg) (n : BitVec 10) (f : Word → Word → Word) : KeepsCanonical (putReg r n f) := by
  unfold putReg
  refine bind_canonical (checkNumber_canonical _) fun _ => bind_canonical core_canonical fun c => ?_
  grind [bind_canonical, ctxctl_canonical, finish_canonical, get_bind_canonical, modify_canonical, onlyIf_canonical,
    openPorts_canonical, trap_canonical, writeReg_canonical]

/-! ## The sys group (Table 16.7) -/

theorem execSysInv_canonical {s : State} (h : Canonical s) : NextCanonical (execSysInv s) := by
  unfold execSysInv
  grind [illegal_canonical, run_canonical]

theorem execSysNop_canonical {s : State} (h : Canonical s) : NextCanonical (execSysNop s) := by
  unfold execSysNop
  grind [retire_canonical, run_canonical]

theorem execSysBrk_canonical (imm : BitVec 16) {s : State} (h : Canonical s) : NextCanonical (execSysBrk imm s) := by
  unfold execSysBrk
  grind [run_canonical, trap_canonical]

theorem execSysTrap_canonical (imm : BitVec 16) {s : State} (h : Canonical s) : NextCanonical (execSysTrap imm s) := by
  unfold execSysTrap
  grind [endWith_canonical, run_canonical, takeTrap_canonical]

theorem execSysEret_canonical {s : State} (h : Canonical s) : NextCanonical (execSysEret s) := by
  unfold execSysEret
  grind [bind_canonical, core_canonical, endWith_canonical, illegal_canonical, run_canonical, trapReturn_canonical]

theorem execSysGet_canonical (r : SReg) (n : BitVec 10) {s : State} (h : Canonical s) :
    NextCanonical (execSysGet r n s) := by
  unfold execSysGet
  grind [bind_canonical, checkNumber_canonical, finishS_canonical, get_bind_canonical, openPorts_canonical,
    run_canonical]

theorem execSysKill_canonical (imm : BitVec 16) {s : State} (h : Canonical s) : NextCanonical (execSysKill imm s) := by
  unfold execSysKill
  grind [endWith_canonical, kill_canonical, run_canonical]

/-! ## The fences (R286) -/

theorem execFenceFull_canonical (scope : BitVec 2) {s : State} (h : Canonical s) :
    NextCanonical (execFenceFull scope s) := by
  unfold execFenceFull
  grind [becomeIrrevocable_canonical, bind_canonical, retire_canonical, run_canonical, waitWhile_canonical]

theorem execFenceAcq_canonical (_scope : BitVec 2) {s : State} (h : Canonical s) :
    NextCanonical (execFenceAcq _scope s) := by
  unfold execFenceAcq
  grind [bind_canonical, retire_canonical, run_canonical, waitWhile_canonical]

theorem execFenceRel_canonical (scope : BitVec 2) {s : State} (h : Canonical s) :
    NextCanonical (execFenceRel scope s) := by
  unfold execFenceRel
  grind [bind_canonical, gate_canonical, retire_canonical, run_canonical, waitWhile_canonical]

theorem execFenceEng_canonical (scope : BitVec 2) {s : State} (h : Canonical s) :
    NextCanonical (execFenceEng scope s) := by
  unfold execFenceEng
  grind [becomeIrrevocable_canonical, bind_canonical, retire_canonical, run_canonical, waitWhile_canonical]

/-! ## Words that are no instruction (R26) -/

theorem execUndefinedEncoding_canonical (w : BitVec 32) {s : State} (h : Canonical s) :
    NextCanonical (execUndefinedEncoding w s) := by
  unfold execUndefinedEncoding
  grind [bind_canonical, modCore_canonical, run_canonical, trap_canonical]

/-! ## The steps of register writes -/

theorem execRegisterWrite_canonical (n : BitVec 10) (v : Word) {s : State} (h : Canonical s) :
    NextCanonical (execRegisterWrite n v s) := by
  unfold execRegisterWrite
  grind [next_canonical, writeReg_canonical]

theorem execRostatSelect_canonical (v : Word) {s : State} (h : Canonical s) : NextCanonical (execRostatSelect v s) := by
  unfold execRostatSelect
  grind [next_canonical, rostatSelectTo_canonical]

theorem execRostatArm_canonical (v : Word) {s : State} (h : Canonical s) : NextCanonical (execRostatArm v s) := by
  unfold execRostatArm
  grind [next_canonical, rostatArmTo_canonical]

theorem execRostatDisarm_canonical (v : Word) {s : State} (h : Canonical s) : NextCanonical (execRostatDisarm v s) := by
  unfold execRostatDisarm
  grind [next_canonical, rostatDisarmTo_canonical]

theorem execCtxctlPreempt_canonical (ctx : Nat) {s : State} (h : Canonical s) :
    NextCanonical (execCtxctlPreempt ctx s) := by
  unfold execCtxctlPreempt
  grind [next_canonical, preempt_canonical]

theorem execCtxctlResume_canonical (ctx : Nat) {s : State} (h : Canonical s) :
    NextCanonical (execCtxctlResume ctx s) := by
  unfold execCtxctlResume
  grind [next_canonical, resume_canonical]

theorem execCtxctlKill_canonical (ctx : Nat) {s : State} (h : Canonical s) : NextCanonical (execCtxctlKill ctx s) := by
  unfold execCtxctlKill
  grind [kill_canonical, next_canonical]

/-! ## The checks at issue (Table 10.4) -/

theorem nameTile_canonical (t : TReg) : KeepsCanonical (nameTile t) := fun _ h => h

theorem firstFails_canonical (xs : List (Word × MxOperand)) (f : MxOperand → Bool) :
    KeepsCanonical (firstFails xs f) := by
  unfold firstFails
  grind [pure_canonical, trap_canonical]

theorem checkPointers_canonical (ps : List Word) : KeepsCanonical (checkPointers ps) := by
  unfold checkPointers
  grind [pure_canonical, trap_canonical]

theorem checkFormats_canonical (xs : List (Word × MxOperand)) (sparse : Bool) (other : Option Nat) :
    KeepsCanonical (checkFormats xs sparse other) := by
  unfold checkFormats
  grind [bind_canonical, firstFails_canonical]

theorem checkAlign_canonical (o : MxOperand) : KeepsCanonical (checkAlign o) := by
  unfold checkAlign
  grind [trapIf_canonical]

theorem ownWindow_canonical (va : Nat) : KeepsCanonical (ownWindow va) := by
  unfold ownWindow
  grind [bind_canonical, get_bind_canonical, trapIf_canonical]

theorem operandLine_canonical (va : Nat) : KeepsCanonical (operandLine va) := by
  unfold operandLine
  grind [bind_canonical, pure_canonical, resolveFor_canonical, trap_canonical]

theorem operandLines_canonical (vas : List Nat) : KeepsCanonical (operandLines vas) := by
  induction vas with
  | nil => exact pure_canonical _
  | cons va rest ih =>
    unfold operandLines
    grind [bind_canonical, operandLine_canonical, pure_canonical]

theorem checkLines_canonical (rs : List (Nat × Nat)) : KeepsCanonical (checkLines rs) := by
  unfold checkLines
  grind [bind_canonical, each_canonical, operandLines_canonical, ownWindow_canonical]

theorem readable_canonical (ls : List (Nat × Place)) : KeepsCanonical (readable ls) := by
  unfold readable
  grind [bind_canonical, each_canonical, get_bind_canonical, noteRead_canonical, set_canonical, stall_canonical,
    trap_canonical]

theorem lf8Heads_canonical (n lim row at8 : Nat) : KeepsCanonical (lf8Heads n lim row at8) := by
  induction row generalizing at8 with
  | zero => exact pure_canonical _
  | succ m ih =>
    unfold lf8Heads
    grind [bind_canonical, checkLines_canonical, get_bind_canonical, pure_canonical, readable_canonical]

theorem operandBytes_canonical (o : MxOperand) (rows : List Nat) (k0 k1 : Nat) :
    KeepsCanonical (operandBytes o rows k0 k1) := by
  unfold operandBytes
  grind [bind_canonical, lf8Heads_canonical, pure_canonical]

theorem checkWindows_canonical (rs : List (Nat × Nat)) : KeepsCanonical (checkWindows rs) := by
  unfold checkWindows
  grind [each_canonical, ownWindow_canonical]

theorem checkFetched_canonical (all fetched : List (Nat × Nat)) : KeepsCanonical (checkFetched all fetched) := by
  unfold checkFetched
  grind [bind_canonical, checkLines_canonical, pure_canonical]

/-! ## Entering the queue (R210) -/

theorem issued_canonical {α : Type} {m : M α} (hm : KeepsCanonical m) : KeepsCanonical (issued m) := by
  intro s h
  have hk := hm s h
  unfold issued
  grind [keepMisses_canonical, setCore_canonical]

theorem enterQueue_canonical (op : MxOp) (mask : BitVec 32) (lines : List (Nat × Place)) (dest : Option TReg)
    (la : BitVec 4) (srcs : List SReg) : KeepsCanonical (enterQueue op mask lines dest la srcs) := by
  unfold enterQueue
  refine bind_canonical core_canonical fun c => bind_canonical (onlyIf_canonical _ becomeIrrevocable_canonical) fun _ =>
    bind_canonical core_canonical fun c => ?_
  split
  · exact stall_canonical
  · refine bind_canonical (modCore_canonical _) fun _ => bind_canonical (modify_canonical fun _ h => h) fun _ =>
      bind_canonical (modCore_canonical _) fun _ => ?_
    grind [retireWith_canonical, retire_canonical]

theorem mxDrained_canonical : KeepsCanonical mxDrained := by
  unfold mxDrained
  grind [waitWhile_canonical]

theorem deliverMark_canonical (t : TReg) : KeepsCanonical (deliverMark t) := by
  unfold deliverMark
  grind [bind_canonical, consume_canonical, core_canonical, endWith_canonical, pure_canonical, trap_canonical]

/-! ## The mx group (Table 10.6a) -/

theorem mmaChecks_canonical (wa wb : Word) : KeepsCanonical (mmaChecks wa wb) := by
  unfold mmaChecks
  refine bind_canonical core_canonical fun c => bind_canonical (checkPointers_canonical _) fun _ =>
    bind_canonical (checkFormats_canonical _ _ _) fun _ => bind_canonical (checkAlign_canonical _) fun _ =>
    bind_canonical (checkAlign_canonical _) fun _ => bind_canonical (checkWindows_canonical _) fun _ => ?_
  grind [bind_canonical, checkFetched_canonical, operandBytes_canonical, pure_canonical]

theorem execMxMma_canonical (la : BitVec 4) (ra : TReg) (rb rc : SReg) {s : State} (h : Canonical s) :
    NextCanonical (execMxMma la ra rb rc s) := by
  unfold execMxMma
  grind [bind_canonical, core_canonical, enterQueue_canonical, issued_canonical, mmaChecks_canonical,
    nameTile_canonical, openPorts_canonical, run_canonical]

theorem mmasRecord_canonical (ra : TReg) (wa wb : Word) : KeepsCanonical (mmasRecord ra wa wb) := by
  unfold mmasRecord
  refine bind_canonical core_canonical fun c => bind_canonical (checkPointers_canonical _) fun _ =>
    bind_canonical (checkFormats_canonical _ _ _) fun _ => bind_canonical (trapIf_canonical _ _ _) fun _ =>
    bind_canonical (checkLines_canonical _) fun heads => bind_canonical (readable_canonical _) fun _ =>
    get_bind_canonical fun s h => bind_canonical (trapIf_canonical _ _ _) fun _ =>
    bind_canonical (trapIf_canonical _ _ _) fun _ =>
    bind_canonical (checkPointers_canonical _) fun _ => bind_canonical (checkFormats_canonical _ _ _) fun _ =>
    bind_canonical (checkAlign_canonical _) fun _ => bind_canonical (onlyIf_canonical _ (checkWindows_canonical _)) fun _ => ?_
  grind [bind_canonical, checkFetched_canonical, operandBytes_canonical, pure_canonical]

theorem mmasElement_canonical (ra : TReg) (wa wb : Word) : KeepsCanonical (mmasElement ra wa wb) := by
  unfold mmasElement
  grind [bind_canonical, checkAlign_canonical, checkFetched_canonical, checkFormats_canonical, checkPointers_canonical,
    core_canonical, operandBytes_canonical, pure_canonical, trapIf_canonical]

theorem mmasChecks_canonical (ra : TReg) (wa wb : Word) : KeepsCanonical (mmasChecks ra wa wb) := by
  unfold mmasChecks
  grind [mmasElement_canonical, mmasRecord_canonical]

theorem execMxMmas_canonical (la : BitVec 4) (ra : TReg) (rb rc : SReg) {s : State} (h : Canonical s) :
    NextCanonical (execMxMmas la ra rb rc s) := by
  unfold execMxMmas
  grind [bind_canonical, core_canonical, enterQueue_canonical, issued_canonical, mmasChecks_canonical,
    nameTile_canonical, openPorts_canonical, run_canonical]

theorem execMxZero_canonical (la : BitVec 4) (ra : TReg) {s : State} (h : Canonical s) :
    NextCanonical (execMxZero la ra s) := by
  unfold execMxZero
  grind [bind_canonical, enterQueue_canonical, nameTile_canonical, run_canonical]

theorem execMxLdacc_canonical (la : BitVec 4) (ra : TReg) (rb : SReg) {s : State} (h : Canonical s) :
    NextCanonical (execMxLdacc la ra rb s) := by
  unfold execMxLdacc
  refine run_canonical (bind_canonical (nameTile_canonical _) fun _ => bind_canonical (openPorts_canonical _ _) fun _ =>
    bind_canonical core_canonical fun c => get_bind_canonical fun s hs => bind_canonical (trapIf_canonical _ _ _) fun _ => ?_) h
  grind [bind_canonical, checkLines_canonical, enterQueue_canonical, trap_canonical, trapIf_canonical]

theorem destPart_canonical (va size : Nat) : KeepsCanonical (destPart va size) := by
  unfold destPart
  grind [bind_canonical, ownWindow_canonical, resolve_canonical]

theorem destParts_canonical (va size : Nat) (bs : List Byte) (ps : List (Nat × Nat)) :
    KeepsCanonical (destParts va size bs ps) := by
  induction ps with
  | nil => exact pure_canonical _
  | cons q rest ih =>
    unfold destParts
    grind [bind_canonical, destPart_canonical, pure_canonical]

theorem storeParts_canonical (xs : List (Nat × Place × List Byte)) : KeepsCanonical (storeParts xs) := by
  unfold storeParts
  grind [asGroup_canonical, each_canonical, storeGated_canonical]

theorem execMxStacc_canonical (ra : TReg) (rb rc : SReg) {s : State} (h : Canonical s) :
    NextCanonical (execMxStacc ra rb rc s) := by
  unfold execMxStacc
  refine run_canonical (bind_canonical (nameTile_canonical _) fun _ => bind_canonical (openPorts_canonical _ _) fun _ =>
    bind_canonical core_canonical fun c => ?_) h
  dsimp only
  split
  · exact trap_canonical _ _
  · refine bind_canonical (trapIf_canonical _ _ _) fun _ => bind_canonical (destParts_canonical _ _ _ _) fun parts => ?_
    grind [bind_canonical, deliverMark_canonical, finish_canonical, modCore_canonical, mxDrained_canonical,
      storeParts_canonical]

theorem execMxStsp_canonical (ra : TReg) (rb rc : SReg) {s : State} (h : Canonical s) :
    NextCanonical (execMxStsp ra rb rc s) := by
  unfold execMxStsp
  refine run_canonical (bind_canonical (nameTile_canonical _) fun _ => bind_canonical (openPorts_canonical _ _) fun _ =>
    bind_canonical core_canonical fun c => bind_canonical (trapIf_canonical _ _ _) fun _ =>
    bind_canonical (trapIf_canonical _ _ _) fun _ => bind_canonical (destParts_canonical _ _ _ _) fun _ =>
    bind_canonical mxDrained_canonical fun _ => bind_canonical (deliverMark_canonical _) fun _ =>
    bind_canonical (destParts_canonical _ _ _ _) fun vparts => bind_canonical (destParts_canonical _ _ _ _) fun bparts =>
    bind_canonical (storeParts_canonical _) fun _ => ?_) h
  grind [bind_canonical, finish_canonical, modCore_canonical, trap_canonical]

theorem gangChecks_canonical (leads : Bool) (wa wb : Word) : KeepsCanonical (gangChecks leads wa wb) := by
  unfold gangChecks
  refine bind_canonical core_canonical fun c => bind_canonical (checkPointers_canonical _) fun _ =>
    get_bind_canonical fun s h => bind_canonical (checkFormats_canonical _ _ _) fun _ =>
    bind_canonical (onlyIf_canonical _ (checkAlign_canonical _)) fun _ => bind_canonical (checkAlign_canonical _) fun _ =>
    bind_canonical (checkWindows_canonical _) fun _ => ?_
  cases leads <;> grind [bind_canonical, checkFetched_canonical, operandBytes_canonical, pure_canonical]

theorem execMxGang_canonical (la : BitVec 4) (ra : TReg) (rb rc : SReg) {s : State} (h : Canonical s) :
    NextCanonical (execMxGang la ra rb rc s) := by
  unfold execMxGang
  grind [bind_canonical, core_canonical, enterQueue_canonical, gangChecks_canonical, illegal_canonical,
    issued_canonical, nameTile_canonical, openPorts_canonical, run_canonical]

theorem execMxCfg_canonical (ra rb : SReg) {s : State} (h : Canonical s) : NextCanonical (execMxCfg ra rb s) := by
  unfold execMxCfg
  grind [bind_canonical, core_canonical, enterQueue_canonical, openPorts_canonical, run_canonical, trapIf_canonical]

theorem execMxMask_canonical (ra : TReg) (rb rc : SReg) {s : State} (h : Canonical s) :
    NextCanonical (execMxMask ra rb rc s) := by
  unfold execMxMask
  grind [bind_canonical, core_canonical, deliverMark_canonical, enterQueue_canonical, nameTile_canonical,
    openPorts_canonical, run_canonical, trap_canonical, waitWhile_canonical]

theorem execMxDrain_canonical {s : State} (h : Canonical s) : NextCanonical (execMxDrain s) := by
  unfold execMxDrain
  grind [bind_canonical, mxDrained_canonical, retire_canonical, run_canonical]

/-! ## The engine's own steps -/

theorem dropCmd_canonical {s : State} (c : Nat) (k : MxCmd) (va : Nat) (h : Canonical s) :
    Canonical (s.dropCmd c k va) := h

theorem pin_canonical {s : State} (l : Nat) (h : Canonical s) : Canonical (s.pin l) := h

theorem fetchAt_canonical {s : State} (c : Nat) (k : MxCmd) (va : Nat) (pl : Place) (h : Canonical s) :
    Canonical (s.fetchAt c k va pl) := by
  unfold State.fetchAt
  grind [Canonical, elim_canonical, launch_canonical, noteRead_canonical, onCore_canonical, pin_canonical]

theorem fetchTileLine_canonical {s : State} (c : Nat) (h : Canonical s) : Canonical (s.fetchTileLine c) := by
  unfold State.fetchTileLine
  grind [checkPaged_canonical, dropCmd_canonical, enterMiss_canonical, faultRecord_canonical, fetchAt_canonical,
    launch_canonical, leavePins_canonical, logCore_canonical, onCore_canonical]

theorem product_canonical {s : State} (c : Nat) (k : MxCmd) (t : TReg) (bad : Bool)
    (ps : Nat → Nat → List (Option FVal × Option FVal)) (h : Canonical s) : Canonical (s.product c k t bad ps) := h

theorem noteOwn_canonical {s : State} (c : Nat) (k : MxCmd) (h : Canonical s) : Canonical (s.noteOwn c k) := by
  unfold State.noteOwn
  grind [foldl_canonical, noteSig_canonical]

theorem mxRun_canonical {s : State} (c : Nat) (k : MxCmd) (h : Canonical s) : Canonical (s.mxRun c k) := by
  unfold State.mxRun
  grind [foldl_canonical, noteOwn_canonical, onCore_canonical, product_canonical]

theorem mxKick_canonical {s : State} (c : Nat) (h : Canonical s) : Canonical (s.mxKick c) := by
  unfold State.mxKick
  grind [launch_canonical]

theorem mxDone_canonical {s : State} (c : Nat) (k : MxCmd) (h : Canonical s) : Canonical (s.mxDone c k) := by
  unfold State.mxDone
  grind [mxKick_canonical, onCore_canonical, unpin_canonical]

theorem gang_canonical {s : State} (c : Nat) (h : Canonical s) : Canonical (s.gang c) := by
  unfold State.gang
  grind [foldl_canonical, mxDone_canonical, mxRun_canonical, product_canonical]

theorem mxStep_canonical {s : State} (c : Nat) (h : Canonical s) : Canonical (s.mxStep c) := by
  unfold State.mxStep
  grind [launch_canonical, mxDone_canonical, mxRun_canonical]

theorem execTileFetchLine_canonical (c : Nat) {s : State} (h : Canonical s) :
    NextCanonical (execTileFetchLine c s) := by
  unfold execTileFetchLine
  grind [fetchTileLine_canonical, next_canonical]

theorem execMatrixCommandExecute_canonical (c : Nat) {s : State} (h : Canonical s) :
    NextCanonical (execMatrixCommandExecute c s) := by
  unfold execMatrixCommandExecute
  grind [mxStep_canonical, next_canonical]

theorem execGangStart_canonical (c : Nat) {s : State} (h : Canonical s) : NextCanonical (execGangStart c s) := by
  unfold execGangStart
  grind [gang_canonical, next_canonical]

/-! ## The control word and its checks (R144, R149) -/

theorem ownSide_canonical (va : Nat) : KeepsCanonical (ownSide va) := by
  unfold ownSide
  grind [bind_canonical, get_bind_canonical, pure_canonical, trap_canonical]

theorem issueCopy_canonical (k : CopyCmd) (srcs : List SReg) : KeepsCanonical (issueCopy k srcs) := by
  unfold issueCopy
  grind [bind_canonical, finish_canonical, gate_canonical, get_bind_canonical, kick_canonical, set_canonical,
    stall_canonical]

theorem plainCopy_canonical (op align : Nat) (ra rb rc : SReg) {far : Word → M Word}
    (hfar : ∀ x, KeepsCanonical (far x)) : KeepsCanonical (plainCopy op align ra rb rc far) := by
  unfold plainCopy
  refine bind_canonical (openPorts_canonical _ _) fun _ => bind_canonical core_canonical fun c => get_bind_canonical fun s h =>
    bind_canonical (trapIf_canonical _ _ _) fun _ => bind_canonical (trapIf_canonical _ _ _) fun _ =>
    bind_canonical (ownSide_canonical _) fun own => bind_canonical (trapIf_canonical _ _ _) fun _ =>
    bind_canonical (hfar _) fun f => issueCopy_canonical _ _

theorem copy2d_canonical (op : Nat) (ra rb rc : SReg) : KeepsCanonical (copy2d op ra rb rc) := by
  unfold copy2d
  refine bind_canonical (openPorts_canonical _ _) fun _ => bind_canonical core_canonical fun c =>
    bind_canonical (ownSide_canonical _) fun doff => bind_canonical (trapIf_canonical _ _ _) fun _ =>
    bind_canonical (ownBytes_canonical _ _ _) fun bs => bind_canonical (trapIf_canonical _ _ _) fun _ =>
    get_bind_canonical fun s h => bind_canonical (trapIf_canonical _ _ _) fun _ =>
    bind_canonical (ownSide_canonical _) fun own => bind_canonical (trapIf_canonical _ _ _) fun _ => issueCopy_canonical _ _

/-! ## The cp group (Table 7.5) -/

theorem execCpFill_canonical (ra rb rc : SReg) {s : State} (h : Canonical s) :
    NextCanonical (execCpFill ra rb rc s) := by
  unfold execCpFill
  grind [bind_canonical, core_canonical, get_bind_canonical, issueCopy_canonical, openPorts_canonical, run_canonical,
    trapIf_canonical]

theorem execCpNzpk_canonical (ra rb rc : SReg) {s : State} (h : Canonical s) :
    NextCanonical (execCpNzpk ra rb rc s) := by
  unfold execCpNzpk
  grind [bind_canonical, get_bind_canonical, plainCopy_canonical, pure_canonical, run_canonical, trapIf_canonical]

theorem execCpWptr_canonical (la : BitVec 4) (ra rb : SReg) {s : State} (h : Canonical s) :
    NextCanonical (execCpWptr la ra rb s) := by
  unfold execCpWptr
  grind [bind_canonical, core_canonical, finishL_canonical, openPorts_canonical, run_canonical]

/-! ## The beats (R141 to R148) -/

theorem startNext_canonical {s : State} (c : Nat) (h : Canonical s) : Canonical (s.startNext c) := by
  unfold State.startNext
  grind [foldl_canonical, launch_canonical, onCore_canonical]

theorem endCopy_canonical {s : State} (c : Nat) (k : CopyCmd) (status : Nat) (h : Canonical s) :
    Canonical (s.endCopy c k status) := by
  unfold State.endCopy
  grind [copyStatus_canonical, onCore_canonical, startNext_canonical]

theorem endQueued_canonical {s : State} (c ch : Nat) (h : Canonical s) : Canonical (s.endQueued c ch) := by
  unfold State.endQueued
  grind [copyStatus_canonical, foldl_canonical, onCore_canonical]

theorem faultCopy_canonical {s : State} (c : Nat) (k : CopyCmd) (va : Nat) (h : Canonical s) :
    Canonical (s.faultCopy c k va) := by
  unfold State.faultCopy
  grind [copyStatus_canonical, endQueued_canonical, onCore_canonical, startNext_canonical]

theorem cancelChan_canonical {s : State} (c ch : Nat) (h : Canonical s) : Canonical (s.cancelChan c ch) := by
  unfold State.cancelChan
  grind [copyStatus_canonical, endQueued_canonical, onCore_canonical, startNext_canonical]

theorem reach_canonical {s : State} (c ctx : Nat) (va : Int) (acc : Acc) (h : Canonical s) :
    Canonical (reach s c ctx va acc).2 := by
  unfold reach
  grind [checkPaged_canonical, enterMiss_canonical]

theorem lostBeat_canonical {s : State} (c ctx va : Nat) (pl : Place) (h : Canonical s) :
    Canonical (s.lostBeat c ctx va pl) := by
  unfold State.lostBeat
  grind [elim_canonical, logCore_canonical]

theorem spoil_canonical {s : State} (ctx : Nat) (pl : Place) (h : Canonical s) : Canonical (s.spoil ctx pl) := by
  unfold State.spoil
  grind [Canonical]

theorem noteWaiting_canonical {s : State} (c act : Nat) (pl : Place) (h : Canonical s) :
    Canonical (s.noteWaiting c act pl) := h

theorem readFar_canonical {s : State} (c : Nat) (k : CopyCmd) (va : Int) (ps : List (Nat × Nat)) (h : Canonical s) :
    Canonical (readFar s c k va ps).2 := by
  induction ps generalizing s with
  | nil => exact h
  | cons p rest ih =>
    unfold readFar
    grind [noteRead_canonical, noteWaiting_canonical, reach_canonical]

theorem passBeat_canonical {s : State} (c : Nat) (k : CopyCmd) (n : Nat) (bad : Bool) (h : Canonical s) :
    Canonical (s.passBeat c k n bad) := by
  unfold State.passBeat
  grind [endCopy_canonical, launch_canonical, onCore_canonical]

theorem holdBeat_canonical {s : State} (c : Nat) (k : CopyCmd) (va : Nat) (acc : Acc) (h : Canonical s) :
    Canonical (s.holdBeat c k va acc) := by
  unfold State.holdBeat
  grind [faultRecord_canonical, onCore_canonical]

theorem tableBeat_canonical {s : State} (c : Nat) (k : CopyCmd) (va cls : Nat) (h : Canonical s) :
    Canonical (s.tableBeat c k va cls) := by
  unfold State.tableBeat
  grind [faultCopy_canonical, logCore_canonical]

theorem getBeat_canonical {s : State} (c : Nat) (k : CopyCmd) (h : Canonical s) : Canonical (s.getBeat c k) := by
  unfold State.getBeat
  grind [faultCopy_canonical, holdBeat_canonical, launch_canonical, logCore_canonical, passBeat_canonical,
    perform_canonical, readFar_canonical, spoil_canonical, tableBeat_canonical]

theorem putBeat_canonical {s : State} (c : Nat) (k : CopyCmd) (bytes : Nat → List Byte) (bad : Nat → Bool)
    (h : Canonical s) : Canonical (s.putBeat c k bytes bad) := by
  unfold State.putBeat
  grind [chainIssue_canonical, faultCopy_canonical, holdBeat_canonical, launch_canonical, lostBeat_canonical,
    onCore_canonical, passBeat_canonical, reach_canonical, spoil_canonical, storeAt_canonical, tableBeat_canonical]

theorem nzBeat_canonical {s : State} (c : Nat) (k : CopyCmd) (h : Canonical s) : Canonical (s.nzBeat c k) := by
  unfold State.nzBeat
  grind [dispatchMsg_canonical, foldl_canonical, passBeat_canonical]

theorem copyStep_canonical {s : State} (c ch : Nat) (h : Canonical s) : Canonical (s.copyStep c ch) := by
  unfold State.copyStep
  grind [endCopy_canonical, faultCopy_canonical, getBeat_canonical, launch_canonical, nzBeat_canonical,
    passBeat_canonical, putBeat_canonical, startNext_canonical]

theorem execCpCancel_canonical (ra : SReg) {s : State} (h : Canonical s) : NextCanonical (execCpCancel ra s) := by
  unfold execCpCancel
  refine run_canonical (bind_canonical (openPorts_canonical _ _) fun _ => bind_canonical core_canonical fun c =>
    bind_canonical (onlyIf_canonical _ (bind_canonical (modCore_canonical _) fun _ => stall_canonical)) fun _ =>
    bind_canonical (modify_canonical fun t ht => foldl_canonical (fun _ _ hs => cancelChan_canonical _ _ hs) _ _ ht) fun _ =>
    finish_canonical _) h

theorem execCopyBeat_canonical (c ch : Nat) {s : State} (h : Canonical s) : NextCanonical (execCopyBeat c ch s) := by
  unfold execCopyBeat
  grind [copyStep_canonical, next_canonical]

/-! ## The words of a message (R303, Tables 14.10 and 14.11) -/

theorem checkGroup_canonical (ctl : Word) : KeepsCanonical (checkGroup ctl) := by
  unfold checkGroup
  grind [bind_canonical, get_bind_canonical, trapIf_canonical]

theorem addressed_canonical (w ctl : Word) (m : Msg) : KeepsCanonical (addressed w ctl m) := by
  unfold addressed
  grind [bind_canonical, checkGroup_canonical, get_bind_canonical, pure_canonical, resolveFor_canonical,
    trapIf_canonical]

/-! ## Ending an activation (R306, Table 1.6, R201) -/

theorem endActivation_canonical (how : Nat) (srcs : List SReg) (more : List Gated) :
    KeepsCanonical (endActivation how srcs more) := by
  unfold endActivation
  grind [becomeIrrevocable_canonical, bind_canonical, endTrail_canonical, get_bind_canonical, modCore_canonical,
    modify_canonical, onlyIf_canonical, waitWhile_canonical]

/-! ## The ms instructions (Table 14.9) -/

theorem execMsSend_canonical (ra : SReg) (rb : VReg) (rc : SReg) {s : State} (h : Canonical s) :
    NextCanonical (execMsSend ra rb rc s) := by
  unfold execMsSend
  refine run_canonical (bind_canonical (openPorts_canonical _ _) fun _ => bind_canonical core_canonical fun c =>
    bind_canonical (trapIf_canonical _ _ _) fun _ => bind_canonical (trapIf_canonical _ _ _) fun _ =>
    get_bind_canonical fun s hs => bind_canonical (addressed_canonical _ _ _) fun a => ?_) h
  grind [bind_canonical, finish_canonical, gate_canonical]

theorem execMsSendt_canonical (ra : SReg) (rb : VReg) (rc : SReg) {s : State} (h : Canonical s) :
    NextCanonical (execMsSendt ra rb rc s) := by
  unfold execMsSendt
  refine run_canonical (bind_canonical (openPorts_canonical _ _) fun _ => bind_canonical core_canonical fun c =>
    bind_canonical (trapIf_canonical _ _ _) fun _ => bind_canonical (trapIf_canonical _ _ _) fun _ =>
    bind_canonical (trapIf_canonical _ _ _) fun _ => get_bind_canonical fun s hs => ?_) h
  grind [addressed_canonical, bind_canonical, checkGroup_canonical, finish_canonical, gate_canonical]

theorem execMsSpr_canonical (ra rb rc : SReg) {s : State} (h : Canonical s) : NextCanonical (execMsSpr ra rb rc s) := by
  unfold execMsSpr
  exact run_canonical (bind_canonical (openPorts_canonical _ _) fun _ => bind_canonical core_canonical fun c =>
    bind_canonical (trapIf_canonical _ _ _) fun _ => bind_canonical (trapIf_canonical _ _ _) fun _ =>
    bind_canonical (trapIf_canonical _ _ _) fun _ => get_bind_canonical fun s hs =>
    bind_canonical (trapIf_canonical _ _ _) fun _ =>
    bind_canonical (gate_canonical _) fun _ => finish_canonical _) h

theorem execMsBcast_canonical (ra : SReg) (rb : VReg) (rc : SReg) {s : State} (h : Canonical s) :
    NextCanonical (execMsBcast ra rb rc s) := by
  unfold execMsBcast
  exact run_canonical (bind_canonical (openPorts_canonical _ _) fun _ => bind_canonical core_canonical fun c =>
    bind_canonical (trapIf_canonical _ _ _) fun _ => bind_canonical (trapIf_canonical _ _ _) fun _ =>
    bind_canonical (checkGroup_canonical _) fun _ => get_bind_canonical fun s hs =>
    bind_canonical (trapIf_canonical _ _ _) fun _ =>
    bind_canonical (gate_canonical _) fun _ => finish_canonical _) h

theorem execMsEnd_canonical {s : State} (h : Canonical s) : NextCanonical (execMsEnd s) := by
  unfold execMsEnd
  grind [endActivation_canonical, run_canonical]

theorem execMsEndc_canonical (rb : VReg) (rc : SReg) {s : State} (h : Canonical s) :
    NextCanonical (execMsEndc rb rc s) := by
  unfold execMsEndc
  grind [bind_canonical, checkGroup_canonical, core_canonical, endActivation_canonical, get_bind_canonical,
    openPorts_canonical, run_canonical, trapIf_canonical]

theorem execMsDefer_canonical (ra : SReg) {s : State} (h : Canonical s) : NextCanonical (execMsDefer ra s) := by
  unfold execMsDefer
  grind [bind_canonical, core_canonical, endActivation_canonical, modCore_canonical, openPorts_canonical, run_canonical,
    trapIf_canonical]

/-! ## The tk instructions (Table 14.14) -/

theorem recordOf_canonical (p : Word) : KeepsCanonical (recordOf p) := by
  unfold recordOf
  grind [bind_canonical, pure_canonical, resolveAtomic_canonical, trapIf_canonical]

theorem taskOp_canonical (op : Nat) (rb : SReg) (rc : Option SReg) : KeepsCanonical (taskOp op rb rc) := by
  unfold taskOp
  grind [bind_canonical, core_canonical, finish_canonical, gate_canonical, get_bind_canonical, openPorts_canonical,
    recordOf_canonical]

theorem execTkNew_canonical (la : BitVec 4) (ra rb rc : SReg) {s : State} (h : Canonical s) :
    NextCanonical (execTkNew la ra rb rc s) := by
  unfold execTkNew
  grind [bind_canonical, core_canonical, finishL_canonical, gate_canonical, get_bind_canonical, openPorts_canonical,
    recordOf_canonical, run_canonical]

theorem barrierLimits_canonical (p : Word) (va : Nat) : KeepsCanonical (barrierLimits p va) := by
  unfold barrierLimits
  grind [bind_canonical, get_bind_canonical, trapIf_canonical]

theorem arriveAt_canonical (p : Word) (va : Nat) (pl : Place) : KeepsCanonical (arriveAt p va pl) := by
  unfold arriveAt
  grind [barrierLimits_canonical, bind_canonical, gate_canonical, get_bind_canonical, modCore_canonical]

theorem execTkBarr_canonical (rb : SReg) {s : State} (h : Canonical s) : NextCanonical (execTkBarr rb s) := by
  unfold execTkBarr
  grind [arriveAt_canonical, bind_canonical, core_canonical, finish_canonical, openPorts_canonical, recordOf_canonical,
    run_canonical]

theorem execTkBwait_canonical (rb rc : SReg) {s : State} (h : Canonical s) : NextCanonical (execTkBwait rb rc s) := by
  unfold execTkBwait
  exact run_canonical (bind_canonical (openPorts_canonical _ _) fun _ => bind_canonical core_canonical fun c =>
    bind_canonical (recordOf_canonical _) fun r => bind_canonical (trapIf_canonical _ _ _) fun _ =>
    bind_canonical (checkGroup_canonical _) fun _ => bind_canonical (onlyIf_canonical _ (barrierLimits_canonical _ _)) fun _ =>
    get_bind_canonical fun s hs => bind_canonical (endActivation_canonical _ _ _) fun _ => modCore_canonical _) h

/-! ## The tg instructions (R314, Table 14.15) -/

theorem tagsOp_canonical (op : Nat) (sa : Src) (sb : Option Src) : KeepsCanonical (tagsOp op sa sb) := by
  unfold tagsOp
  grind [bind_canonical, core_canonical, finish_canonical, gate_canonical, openPorts_canonical, getD_canonical]

theorem execTgGet_canonical (rd : SReg) (sa : Src) {s : State} (h : Canonical s) :
    NextCanonical (execTgGet rd sa s) := by
  unfold execTgGet
  grind [bind_canonical, core_canonical, finishS_canonical, get_bind_canonical, openPorts_canonical, run_canonical,
    trap_canonical]

/-! ## Arrival (R290, R294, R336) -/

theorem discardMsg_canonical {s : State} (m : Msg) (h : Canonical s) : Canonical (s.discardMsg m) := by
  unfold State.discardMsg
  grind [forgetKey_canonical, log_canonical]

theorem place_canonical {s : State} (m : Msg) (h : Canonical s) : Canonical (s.place m) := by
  unfold State.place
  dsimp only
  split
  · exact onCore_canonical _ _ h
  · exact onCore_canonical _ _ (evict_canonical _ _ h)
  · split
    · exact onCluster_canonical _ _ h
    · split
      · rename_i hr
        exact onCtx_canonical _ _ (intoRing_canonical _ h _ hr)
      · exact hold_canonical _ h

theorem deliver_canonical {s : State} (m : Msg) (h : Canonical s) : Canonical (s.deliver m) := by
  unfold State.deliver
  grind [Canonical, discardMsg_canonical, forgetKey_canonical, hold_canonical, onCtx_canonical, place_canonical,
    proofEntry_canonical]

theorem refillCore_canonical {s : State} (c n : Nat) (h : Canonical s) : Canonical (s.refillCore c n) := by
  induction n generalizing s with
  | zero => exact h
  | succ n ih =>
    unfold State.refillCore
    grind [onCluster_canonical, onCore_canonical]

theorem refillCluster_canonical {s : State} (k n : Nat) (h : Canonical s) : Canonical (s.refillCluster k n) := by
  induction n generalizing s with
  | zero => exact h
  | succ n ih =>
    unfold State.refillCluster
    grind [onCluster_canonical, onCtx_canonical]

theorem refill_canonical {s : State} (c : Nat) (h : Canonical s) : Canonical (s.refill c) := by
  unfold State.refill
  grind [refillCluster_canonical, refillCore_canonical]

theorem execMessageArrival_canonical (m : Msg) {s : State} (h : Canonical s) :
    NextCanonical (execMessageArrival m s) := by
  unfold execMessageArrival
  grind [deliver_canonical, next_canonical]

/-! ## Dispatch (R13, R166, R186, R201, R228, R259, R291, R292, R343) -/

theorem start_canonical {s : State} (c ctx : Nat) (m : Msg) (h : Canonical s) : Canonical (s.start c ctx m) := by
  unfold State.start
  grind [onCore_canonical, onCtx_canonical, refill_canonical]

theorem onTags_canonical {s : State} (c ctx : Nat) (f : TagSet → TagSet) (h : Canonical s) :
    Canonical (s.onTags c ctx f) := h

theorem onTag_canonical {s : State} (c ctx tag : Nat) (f : TagState → TagState) (h : Canonical s) :
    Canonical (s.onTag c ctx tag f) := h

theorem fetchFor_canonical {s : State} (c ctx : Nat) (m : Msg) (h : Canonical s) : Canonical (s.fetchFor c ctx m) := by
  unfold State.fetchFor
  grind [launch_canonical, onCore_canonical]

theorem take_canonical {s : State} (c ctx tag best : Nat) (m : Msg) (h : Canonical s) :
    Canonical (s.take c ctx tag best m) := by
  unfold State.take
  grind [fetchFor_canonical, onCore_canonical, onTags_canonical, start_canonical]

theorem dispatch_canonical {s : State} (c : Nat) (h : Canonical s) : Canonical (s.dispatch c) := by
  unfold State.dispatch
  grind [onTag_canonical, onTags_canonical, refill_canonical, start_canonical, take_canonical]

theorem execDispatch_canonical (c : Nat) {s : State} (h : Canonical s) : NextCanonical (execDispatch c s) := by
  unfold execDispatch
  grind [dispatch_canonical, next_canonical]

/-! ## Footprint prefetch (R156) -/

theorem fillSlot_canonical {s : State} (c ctx off : Nat) (bs : List Byte) (h : Canonical s) :
    Canonical (s.fillSlot c ctx off bs) := by
  unfold State.fillSlot
  grind [perform_canonical]

theorem deliverTask_canonical {s : State} (c : Nat) (m : Msg) (h : Canonical s) : Canonical (s.deliverTask c m) := by
  unfold State.deliverTask
  grind [deliver_canonical, writeRecord_canonical]

theorem fetched_canonical {s : State} (c : Nat) (m : Msg) (h : Canonical s) : Canonical (s.fetched c m) := by
  unfold State.fetched
  grind [deliverTask_canonical, onCore_canonical]

theorem footprintAbsent_canonical {s : State} (c va : Nat) (m : Msg) (h : Canonical s) :
    Canonical (s.footprintAbsent c va m) := by
  unfold State.footprintAbsent
  grind [faultRecord_canonical, onCore_canonical, requeueTask_canonical]

theorem prefetch_canonical {s : State} (c : Nat) (m0 : Msg) (k : Nat) (h : Canonical s) :
    Canonical (s.prefetch c m0 k) := by
  unfold State.prefetch
  grind [checkPaged_canonical, fetched_canonical, fillSlot_canonical, footprintAbsent_canonical, launch_canonical,
    readFar_canonical]

theorem execFootprintPrefetch_canonical (c : Nat) {s : State} (h : Canonical s) :
    NextCanonical (execFootprintPrefetch c s) := by
  unfold execFootprintPrefetch
  grind [next_canonical, prefetch_canonical]

/-! ## Commit (R280, R300 to R302, R306, R308, R312, R322) -/

theorem deferTrigger_canonical {s : State} (c : Nat) (m : Msg) (h : Canonical s) : Canonical (s.deferTrigger c m) := by
  unfold State.deferTrigger
  grind [onTag_canonical, toHead_canonical]

theorem freeTask_canonical {s : State} (c : Nat) (m : Msg) (h : Canonical s) : Canonical (s.freeTask c m) := by
  unfold State.freeTask
  grind [writeRecord_canonical]

theorem settleTrigger_canonical {s : State} (c : Nat) (m : Msg) (how : Nat) (h : Canonical s) :
    Canonical (s.settleTrigger c m how) := by
  unfold State.settleTrigger
  grind [deferTrigger_canonical, freeTask_canonical, launch_canonical]

theorem settleDomain_canonical {s : State} (m : Msg) (h : Canonical s) : Canonical (s.settleDomain m) := by
  unfold State.settleDomain
  grind [foldl_canonical, launch_canonical, onCtx_canonical]

theorem closeBars_canonical {s : State} (c ctx : Nat) (arrived : List Nat) (h : Canonical s) :
    Canonical (s.closeBars c ctx arrived) := h

theorem committed_canonical {s : State} (c : Nat) (m : Msg) (how : Nat) (arrived : List Nat) (h : Canonical s) :
    Canonical (s.committed c m how arrived) := by
  unfold State.committed
  grind [closeBars_canonical, settleDomain_canonical, settleTrigger_canonical]

theorem commitWaiting_canonical {s : State} (c : Nat) (w : Waiting) (h : Canonical s) :
    Canonical (s.commitWaiting c w) := by
  unfold State.commitWaiting
  grind [committed_canonical, launch_canonical, onCore_canonical, releaseList_canonical]

theorem commitEnded_canonical {s : State} (c how : Nat) (h : Canonical s) : Canonical (s.commitEnded c how) := by
  unfold State.commitEnded
  grind [committed_canonical, onCore_canonical, releaseBuffer_canonical]

theorem commit_canonical {s : State} (c : Nat) (h : Canonical s) : Canonical (s.commit c) := by
  unfold State.commit
  grind [commitEnded_canonical, commitWaiting_canonical]

theorem execActivationCommit_canonical (c : Nat) {s : State} (h : Canonical s) :
    NextCanonical (execActivationCommit c s) := by
  unfold execActivationCommit
  grind [commit_canonical, next_canonical]

/-! ## The sequencer of an ordered domain (R299) -/

theorem keyed_canonical {s : State} (m : Msg) (h : Canonical s) : Canonical (s.keyed m).2 := by
  unfold State.keyed
  grind [onCtx_canonical]

theorem sequence_canonical {s : State} (m : Msg) (h : Canonical s) : Canonical (s.sequence m) := by
  unfold State.sequence
  grind [dispatchMsg_canonical, forgetKey_canonical, keyed_canonical, launch_canonical]

theorem execSequencerArrival_canonical (m : Msg) {s : State} (h : Canonical s) :
    NextCanonical (execSequencerArrival m s) := by
  unfold execSequencerArrival
  grind [next_canonical, sequence_canonical]

/-! ## Task records at home (R308, R309) -/

theorem execTaskAtHome_canonical (r : TaskReq) {s : State} (h : Canonical s) : NextCanonical (execTaskAtHome r s) := by
  unfold execTaskAtHome
  grind [next_canonical, taskHome_canonical]

theorem deadline_canonical {s : State} (ctx va : Nat) (h : Canonical s) : Canonical (s.deadline ctx va) := by
  unfold State.deadline
  grind [queueTask_canonical]

theorem execTaskDeadline_canonical (ctx va : Nat) {s : State} (h : Canonical s) :
    NextCanonical (execTaskDeadline ctx va s) := by
  unfold execTaskDeadline
  grind [deadline_canonical, next_canonical]

theorem takeTask_canonical {s : State} (c : Nat) (h : Canonical s) : Canonical (s.takeTask c) := by
  unfold State.takeTask
  grind [deliverTask_canonical, fetchFor_canonical, onCluster_canonical]

theorem execTaskTake_canonical (c : Nat) {s : State} (h : Canonical s) : NextCanonical (execTaskTake c s) := by
  unfold execTaskTake
  grind [next_canonical, takeTask_canonical]

/-! ## Barriers (R313) -/

theorem settleHeldBars_canonical {s : State} (c ctx : Nat) (h : Canonical s) : Canonical (s.settleHeldBars c ctx) := by
  unfold State.settleHeldBars
  grind [foldl_canonical, onHolder_canonical, send_canonical, settleBars_canonical]

theorem execBarrierAcknowledgement_canonical (c ctx va : Nat) (a : BarAck) {s : State} (h : Canonical s) :
    NextCanonical (execBarrierAcknowledgement c ctx va a s) := by
  unfold execBarrierAcknowledgement
  grind [next_canonical, onHolder_canonical]

theorem execBarrierRelease_canonical (c ctx va gen : Nat) {s : State} (h : Canonical s) :
    NextCanonical (execBarrierRelease c ctx va gen s) := by
  unfold execBarrierRelease
  grind [next_canonical, onHolder_canonical, settleHeldBars_canonical]

/-! ## Neighbour queues (R269, R273, R365) -/

theorem execQueueWordArrival_canonical (c port : Nat) (w : QueueWord) {s : State} (h : Canonical s) :
    NextCanonical (execQueueWordArrival c port w s) := by
  unfold execQueueWordArrival
  grind [Canonical, next_canonical, wordArrives_canonical]

/-! ## Fetch -/

theorem resolveFetch_canonical (va : Nat) (acc : Acc) : KeepsCanonical (resolveFetch va acc) := by
  unfold resolveFetch
  grind [bind_canonical, checkPaged_canonical, consume_canonical, endWith_canonical, enterMiss_canonical,
    get_bind_canonical, notPresent_canonical, pull_canonical, pure_canonical, set_canonical, stall_canonical,
    trap_canonical]

theorem fetchBytes_canonical (va : Nat) (pl : Place) (n : Nat) : KeepsCanonical (fetchBytes va pl n) := by
  unfold fetchBytes
  grind [bind_canonical, consume_canonical, endWith_canonical, get_bind_canonical, pure_canonical, stall_canonical,
    trap_canonical]

theorem noteFetch_canonical {s : State} (c ctx : Nat) (pl : Place) (h : Canonical s) :
    Canonical (s.noteFetch c ctx pl) := by
  unfold State.noteFetch
  grind [askRemote_canonical, count_canonical, fillL1_canonical, fillL2_canonical]

theorem fetchWord_canonical : KeepsCanonical fetchWord := by
  unfold fetchWord
  grind [bind_canonical, core_canonical, fetchBytes_canonical, modify_canonical, noteFetch_canonical, pure_canonical,
    resolveFetch_canonical]

/-! ## Block records (R51, R356) -/

theorem readRec_canonical (va : Nat) : KeepsCanonical (readRec va) := by
  unfold readRec
  grind [bind_canonical, fetchBytes_canonical, pure_canonical, resolveFetch_canonical]

theorem findRec_canonical (base off n : Nat) : KeepsCanonical (findRec base off n) := by
  induction n generalizing base with
  | zero => exact pure_canonical _
  | succ n ih =>
    unfold findRec
    grind [bind_canonical, pure_canonical, readRec_canonical]

theorem readSucc_canonical (va n : Nat) : KeepsCanonical (readSucc va n) := by
  induction n generalizing va with
  | zero => exact pure_canonical _
  | succ n ih =>
    unfold readSucc
    grind [bind_canonical, fetchBytes_canonical, pure_canonical, resolveFetch_canonical]

/-! ## Checking (R357, R358) -/

theorem mismatchAt_canonical {α : Type} (start addr : Nat) : KeepsCanonical (mismatchAt start addr : M α) := by
  unfold mismatchAt
  grind [endWith_canonical, mismatch_canonical]

theorem checkedBlock_canonical (x : Ctx) : KeepsCanonical (checkedBlock x) := by
  unfold checkedBlock
  grind [bind_canonical, core_canonical, findRec_canonical, mismatchAt_canonical, pure_canonical]

theorem checkWord_canonical (w : BitVec 32) : KeepsCanonical (checkWord w) := by
  unfold checkWord
  grind [bind_canonical, checkedBlock_canonical, get_bind_canonical, mismatchAt_canonical, pure_canonical,
    readSucc_canonical]

/-! ## Blocks (R227 to R229) -/

theorem blockDim_canonical : KeepsCanonical blockDim := by
  unfold blockDim
  grind [bind_canonical, core_canonical, illegal_canonical, pure_canonical]

theorem finishBlock_canonical (rd : GReg) (srcs : List SReg) (r : Gauss × FFlags) :
    KeepsCanonical (finishBlock rd srcs r) := by
  unfold finishBlock
  grind [bind_canonical, modCore_canonical, raise_canonical, retire_canonical]

/-! ## Element-wise functions (R233, R236) -/

theorem gauss2_canonical (rd sa sb : GReg) (f : Rm → Lane → Lane → Ar Lane) : KeepsCanonical (gauss2 rd sa sb f) := by
  unfold gauss2
  grind [bind_canonical, blockDim_canonical, core_canonical, finishBlock_canonical]

theorem execGmDamp_canonical (rd sa : GReg) (sb : Src) {s : State} (h : Canonical s) :
    NextCanonical (execGmDamp rd sa sb s) := by
  unfold execGmDamp
  grind [bind_canonical, blockDim_canonical, core_canonical, finishBlock_canonical, openPorts_canonical, run_canonical]

theorem execGmRes_canonical (rd : SReg) (sa sb : GReg) {s : State} (h : Canonical s) :
    NextCanonical (execGmRes rd sa sb s) := by
  unfold execGmRes
  grind [bind_canonical, blockDim_canonical, core_canonical, finishS_canonical, openPorts_canonical, raise_canonical,
    run_canonical]

/-! ## Elimination (R234) -/

theorem gauss1_canonical (rd sa : GReg) (f : Rm → Nat → Gauss → Ar Gauss) : KeepsCanonical (gauss1 rd sa f) := by
  unfold gauss1
  grind [bind_canonical, blockDim_canonical, core_canonical, finishBlock_canonical]

theorem execGmMarg_canonical (rd sa : GReg) (sb : Src) {s : State} (h : Canonical s) :
    NextCanonical (execGmMarg rd sa sb s) := by
  unfold execGmMarg
  grind [bind_canonical, blockDim_canonical, core_canonical, finishBlock_canonical, openPorts_canonical, run_canonical]

/-! ## Linear factors (R235) -/

theorem execGmLin_canonical (rd sa : GReg) (sb : Src) {s : State} (h : Canonical s) :
    NextCanonical (execGmLin rd sa sb s) := by
  unfold execGmLin
  grind [bind_canonical, blockDim_canonical, core_canonical, finishBlock_canonical, openPorts_canonical, run_canonical]

/-! ## Run-out (R244 to R246) -/

theorem execGmConv_canonical (sa sb : Src) {s : State} (h : Canonical s) : NextCanonical (execGmConv sa sb s) := by
  unfold execGmConv
  grind [bind_canonical, finish_canonical, gate_canonical, get_bind_canonical, openPorts_canonical, run_canonical,
    trapIf_canonical]

theorem execGmRdro_canonical (rd : SReg) (sa : Src) {s : State} (h : Canonical s) :
    NextCanonical (execGmRdro rd sa s) := by
  unfold execGmRdro
  grind [bind_canonical, finishS_canonical, get_bind_canonical, openPorts_canonical, run_canonical]

theorem execReportWindowExpiry_canonical (ctx g c : Nat) {s : State} (h : Canonical s) :
    NextCanonical (execReportWindowExpiry ctx g c s) := by
  unfold execReportWindowExpiry
  grind [judge_canonical, next_canonical, onRun_canonical]

theorem execRunOutFire_canonical (ctx g : Nat) {s : State} (h : Canonical s) :
    NextCanonical (execRunOutFire ctx g s) := by
  unfold execRunOutFire
  grind [launch_canonical, next_canonical, onRun_canonical]

/-! ## Node objects (R239, R240) -/

theorem nodeObject_canonical (w : Word) : KeepsCanonical (nodeObject w) := by
  unfold nodeObject
  grind [bind_canonical, get_bind_canonical, ownBytes_canonical, pure_canonical, trap_canonical]

theorem edgeIndex_canonical (w0 : Nat) (reg : Word) (hi lo : Nat) : KeepsCanonical (edgeIndex w0 reg hi lo) := by
  unfold edgeIndex
  grind [pure_canonical, trap_canonical]

theorem storeOwn_canonical (va off : Nat) (bs : List Byte) : KeepsCanonical (storeOwn va off bs) := by
  unfold storeOwn
  grind [bind_canonical, get_bind_canonical, storeGated_canonical]

theorem attachEdge_canonical (va off w0 i : Nat) (entry : Word) : KeepsCanonical (attachEdge va off w0 i entry) := by
  have hstores : ∀ bs cs ds : List Byte, KeepsCanonical (do
      storeOwn (va + 64 + 8 * i) (off + 64 + 8 * i) bs
      storeOwn (va + (128 + 192 * i)) (off + (128 + 192 * i)) cs
      storeOwn va off ds) := by
    grind [bind_canonical, storeOwn_canonical]
  unfold attachEdge
  exact bind_canonical (ownBytes_canonical _ _ _) fun old => bind_canonical (asGroup_canonical (hstores _ _ _)) fun _ =>
    pure_canonical _

theorem execFgAttach_canonical (la : BitVec 4) (ra rb rc : SReg) {s : State} (h : Canonical s) :
    NextCanonical (execFgAttach la ra rb rc s) := by
  unfold execFgAttach
  grind [attachEdge_canonical, bind_canonical, finishL_canonical, get_bind_canonical, nodeObject_canonical,
    openPorts_canonical, run_canonical, trapIf_canonical]

theorem detachEdge_canonical (va off w0 i : Nat) : KeepsCanonical (detachEdge va off w0 i) := by
  unfold detachEdge
  grind [asGroup_canonical, bind_canonical, ownBytes_canonical, storeOwn_canonical]

theorem execFgDetach_canonical (ra rb : SReg) {s : State} (h : Canonical s) : NextCanonical (execFgDetach ra rb s) := by
  unfold execFgDetach
  grind [bind_canonical, core_canonical, detachEdge_canonical, edgeIndex_canonical, finish_canonical,
    nodeObject_canonical, openPorts_canonical, run_canonical]

theorem execFgSlot_canonical (la : BitVec 4) (ra rb rc : SReg) {s : State} (h : Canonical s) :
    NextCanonical (execFgSlot la ra rb rc s) := by
  unfold execFgSlot
  grind [bind_canonical, core_canonical, edgeIndex_canonical, finishL_canonical, nodeObject_canonical,
    openPorts_canonical, run_canonical]

theorem execFgGen_canonical (la : BitVec 4) (ra rb rc : SReg) {s : State} (h : Canonical s) :
    NextCanonical (execFgGen la ra rb rc s) := by
  unfold execFgGen
  grind [bind_canonical, core_canonical, finishL_canonical, nodeObject_canonical, openPorts_canonical,
    ownBytes_canonical, run_canonical, trap_canonical]

/-! ## Posts (R241) -/

theorem execFgPost_canonical (ra : GReg) (rb rc : SReg) {s : State} (h : Canonical s) :
    NextCanonical (execFgPost ra rb rc s) := by
  unfold execFgPost
  exact run_canonical (bind_canonical blockDim_canonical fun d => bind_canonical (openPorts_canonical _ _) fun _ =>
    bind_canonical core_canonical fun c => bind_canonical (nodeObject_canonical _) fun o =>
    bind_canonical (edgeIndex_canonical _ _ _ _) fun i => bind_canonical (trapIf_canonical _ _ _) fun _ =>
    bind_canonical (ownBytes_canonical _ _ _) fun bs => get_bind_canonical fun s hs =>
    bind_canonical (gate_canonical _) fun _ => finish_canonical _) h

theorem postArrive_canonical {s : State} (p : Post) (h : Canonical s) : Canonical (s.postArrive p) := by
  unfold State.postArrive
  grind [Canonical, applyPost_canonical, onHolder_canonical]

theorem execPostArrival_canonical (p : Post) {s : State} (h : Canonical s) : NextCanonical (execPostArrival p s) := by
  unfold execPostArrival
  grind [next_canonical, postArrive_canonical]

theorem postApply_canonical {s : State} (c : Nat) (h : Canonical s) : Canonical (s.postApply c) := by
  unfold State.postApply
  grind [applyPost_canonical, onCore_canonical]

theorem execPostApply_canonical (c : Nat) {s : State} (h : Canonical s) : NextCanonical (execPostApply c s) := by
  unfold execPostApply
  grind [next_canonical, postApply_canonical]

/-! ## Trail mode (R323, R326, R328) -/

theorem enterTrail_canonical (column : Nat → Bool) : KeepsCanonical (enterTrail column) := by
  unfold enterTrail
  grind [becomeIrrevocable_canonical, bind_canonical, get_bind_canonical, illegal_canonical]

theorem execTrlLead_canonical {s : State} (h : Canonical s) : NextCanonical (execTrlLead s) := by
  unfold execTrlLead
  grind [bind_canonical, enterTrail_canonical, foldl_canonical, get_bind_canonical, modCore_canonical, modify_canonical,
    onCore_canonical, retire_canonical, run_canonical, stall_canonical]

theorem execTrlJoin_canonical {s : State} (h : Canonical s) : NextCanonical (execTrlJoin s) := by
  unfold execTrlJoin
  grind [bind_canonical, enterTrail_canonical, modCore_canonical, run_canonical, stall_canonical]

theorem execTrlQuit_canonical {s : State} (h : Canonical s) : NextCanonical (execTrlQuit s) := by
  unfold execTrlQuit
  grind [bind_canonical, endTrail_canonical, get_bind_canonical, modCore_canonical, modify_canonical, retire_canonical,
    run_canonical]

/-! ## The gl instructions (R329 to R333) -/

theorem entryOperand_canonical (w : Word) : KeepsCanonical (entryOperand w) := by
  unfold entryOperand
  grind [pure_canonical, trap_canonical]

theorem glDescriptor_canonical (w : Word) : KeepsCanonical (glDescriptor w) := by
  unfold glDescriptor
  grind [bind_canonical, get_bind_canonical, ownBytes_canonical, pure_canonical, trap_canonical]

theorem execGlArm_canonical (ra rb : SReg) {s : State} (h : Canonical s) : NextCanonical (execGlArm ra rb s) := by
  unfold execGlArm
  grind [bind_canonical, core_canonical, entryOperand_canonical, finish_canonical, gate_canonical, get_bind_canonical,
    glDescriptor_canonical, openPorts_canonical, run_canonical, trapIf_canonical]

theorem execGlDisarm_canonical (ra : SReg) {s : State} (h : Canonical s) : NextCanonical (execGlDisarm ra s) := by
  unfold execGlDisarm
  grind [bind_canonical, core_canonical, entryOperand_canonical, finish_canonical, gate_canonical, openPorts_canonical,
    run_canonical]

theorem execGlTrig_canonical (ra rb : SReg) {s : State} (h : Canonical s) : NextCanonical (execGlTrig ra rb s) := by
  unfold execGlTrig
  grind [bind_canonical, finish_canonical, gate_canonical, get_bind_canonical, openPorts_canonical, run_canonical,
    trapIf_canonical]

theorem readParties_canonical (va n : Nat) : KeepsCanonical (readParties va n) := by
  induction n generalizing va with
  | zero => exact pure_canonical _
  | succ n ih =>
    unfold readParties
    grind [bind_canonical, loadBytes_canonical, pure_canonical, resolve_canonical]

theorem execGlGate_canonical (ra : SReg) {s : State} (h : Canonical s) : NextCanonical (execGlGate ra s) := by
  unfold execGlGate
  refine run_canonical (bind_canonical (openPorts_canonical _ _) fun _ => bind_canonical core_canonical fun c =>
    bind_canonical (glDescriptor_canonical _) fun ws => get_bind_canonical fun s hs => ?_) h
  dsimp only
  split
  · exact trap_canonical _ _
  · exact bind_canonical (trapIf_canonical _ _ _) fun _ => bind_canonical (readParties_canonical _ _) fun ps =>
      bind_canonical (trapIf_canonical _ _ _) fun _ => bind_canonical (gate_canonical _) fun _ => finish_canonical _

theorem tailBytes_canonical (va : Nat) (pl : Place) : KeepsCanonical (tailBytes va pl) := by
  unfold tailBytes
  split
  · exact loadBytes_canonical _ _ _
  · refine get_bind_canonical fun s h => bind_canonical (onlyIf_canonical _ becomeIrrevocable_canonical) fun _ => ?_
    grind [bind_canonical, consume_canonical, endWith_canonical, get_bind_canonical, hostLoad_canonical, noteRead_canonical,
      pure_canonical, set_canonical, stall_canonical, trap_canonical]

theorem execGlIdx_canonical (la : BitVec 4) (ra rb : SReg) {s : State} (h : Canonical s) :
    NextCanonical (execGlIdx la ra rb s) := by
  unfold execGlIdx
  grind [bind_canonical, finishL_canonical, get_bind_canonical, openPorts_canonical, resolve_canonical, run_canonical,
    tailBytes_canonical, trapIf_canonical]

theorem execGlGrp_canonical (la : BitVec 4) (ra rb : SReg) {s : State} (h : Canonical s) :
    NextCanonical (execGlGrp la ra rb s) := by
  unfold execGlGrp
  grind [bind_canonical, finishL_canonical, get_bind_canonical, openPorts_canonical, run_canonical, trapIf_canonical]

/-! ## Firings (R317, R321, R322) -/

theorem execLaunchTrigger_canonical (t : Trig) {s : State} (h : Canonical s) :
    NextCanonical (execLaunchTrigger t s) := by
  unfold execLaunchTrigger
  grind [next_canonical, trigger_canonical]

theorem deal_canonical {s : State} (ctx e : Nat) (l : Launch) (cs : List Nat) (first n : Nat) (h : Canonical s) :
    Canonical (s.deal ctx e l cs first n) := by
  unfold State.deal
  grind [foldl_canonical, send_canonical]

theorem batch_canonical {s : State} (ctx e die : Nat) (h : Canonical s) : Canonical (s.batch ctx e die) := by
  unfold State.batch
  grind [deal_canonical, launch_canonical, onLaunch_canonical, stopFiring_canonical, writeBlock_canonical]

theorem execLaunchBatch_canonical (ctx e die : Nat) {s : State} (h : Canonical s) :
    NextCanonical (execLaunchBatch ctx e die s) := by
  unfold execLaunchBatch
  grind [batch_canonical, next_canonical]

theorem execIndexAcknowledgement_canonical (ctx e i : Nat) {s : State} (h : Canonical s) :
    NextCanonical (execIndexAcknowledgement ctx e i s) := by
  unfold execIndexAcknowledgement
  grind [ackIndex_canonical, next_canonical]

/-! ## Pre-emption and local stores (R336, R338) -/

theorem execPreemptionHalt_canonical (c : Nat) {s : State} (h : Canonical s) :
    NextCanonical (execPreemptionHalt c s) := by
  unfold execPreemptionHalt
  grind [halt_canonical, next_canonical]

theorem execLocalStoreSwap_canonical (c ctx : Nat) {s : State} (h : Canonical s) :
    NextCanonical (execLocalStoreSwap c ctx s) := by
  unfold execLocalStoreSwap
  grind [launch_canonical, next_canonical, swap_canonical]

/-! ## Start gates: a participant (R339, R341, R342) -/

theorem toGate_canonical {s : State} (pkg : Nat) (i : Instr) (h : Canonical s) : Canonical (s.toGate pkg i) := by
  unfold State.toGate
  grind [Canonical, launch_canonical]

theorem setPart_canonical {s : State} (g : Nat) (v : Option (GatePost × GateState)) (h : Canonical s) :
    Canonical (s.setPart g v) := h

theorem armPart_canonical {s : State} (p : GatePost) (h : Canonical s) : Canonical (s.armPart p) := by
  unfold State.armPart
  grind [setPart_canonical, toGate_canonical]

theorem armWaiting_canonical {s : State} (h : Canonical s) : Canonical s.armWaiting := by
  unfold State.armWaiting
  grind [armPart_canonical, foldl_canonical]

theorem gateFault_canonical {s : State} (ctx id : Nat) (h : Canonical s) : Canonical (s.gateFault ctx id) := by
  unfold State.gateFault
  grind [log_canonical]

theorem actGate_canonical {s : State} (p : GatePost) (h : Canonical s) : Canonical (s.actGate p) := by
  unfold State.actGate
  grind [kill_canonical, launch_canonical, preempt_canonical, resume_canonical]

theorem partFault_canonical {s : State} (p : GatePost) (h : Canonical s) : Canonical (s.partFault p) := by
  unfold State.partFault
  grind [gateFault_canonical]

theorem partClock_canonical {s : State} (id : Nat) (h : Canonical s) : Canonical (s.partClock id) := by
  unfold State.partClock
  split
  · split
    · exact setPart_canonical _ _ h
    · exact h
  · split
    · exact actGate_canonical _ (setPart_canonical _ _ h)
    · exact h
  · split
    · exact partFault_canonical _ (setPart_canonical _ _ h)
    · exact h
  · exact h

theorem refusePost_canonical {s : State} (p : GatePost) (h : Canonical s) : Canonical (s.refusePost p) := by
  unfold State.refusePost
  grind [Canonical, note_canonical]

theorem execGatePost_canonical (p : GatePost) {s : State} (h : Canonical s) : NextCanonical (execGatePost p s) := by
  unfold execGatePost
  grind [armPart_canonical, next_canonical, note_canonical, partClock_canonical, refusePost_canonical,
    setPart_canonical]

theorem execGateGo_canonical (id : Nat) (atOnce : Bool) {s : State} (h : Canonical s) :
    NextCanonical (execGateGo id atOnce s) := by
  unfold execGateGo
  grind [actGate_canonical, next_canonical, partClock_canonical, partFault_canonical, setPart_canonical]

theorem execGateAbort_canonical (id : Nat) {s : State} (h : Canonical s) : NextCanonical (execGateAbort id s) := by
  unfold execGateAbort
  grind [next_canonical, partClock_canonical, setPart_canonical]

theorem execGateActionTime_canonical (id : Nat) {s : State} (h : Canonical s) :
    NextCanonical (execGateActionTime id s) := by
  unfold execGateActionTime
  grind [actGate_canonical, next_canonical, setPart_canonical]

theorem execGateArmedTimeout_canonical (id : Nat) {s : State} (h : Canonical s) :
    NextCanonical (execGateArmedTimeout id s) := by
  unfold execGateArmedTimeout
  refine next_canonical ?_
  split
  · split
    · exact partFault_canonical _ (setPart_canonical _ _ h)
    · exact h
  · exact h

/-! ## Start gates: the coordinator (R340, R341) -/

theorem setCoord_canonical {s : State} (k k' : Coord) (h : Canonical s) : Canonical (s.setCoord k k') := h

theorem settleGate_canonical {s : State} (k : Coord) (outcome : Nat) (straggler : Bool) (h : Canonical s) :
    Canonical (s.settleGate k outcome straggler) := by
  unfold State.settleGate
  grind [foldl_canonical, gateFault_canonical, send_canonical, setCoord_canonical, toGate_canonical]

theorem coordClock_canonical {s : State} (id : Nat) (h : Canonical s) : Canonical (s.coordClock id) := by
  unfold State.coordClock
  grind [settleGate_canonical]

theorem execGateArmed_canonical (id pkg : Nat) (deg : Bool) {s : State} (h : Canonical s) :
    NextCanonical (execGateArmed id pkg deg s) := by
  unfold execGateArmed
  grind [coordClock_canonical, next_canonical, setCoord_canonical, settleGate_canonical, toGate_canonical]

theorem execGateGuardDeadline_canonical (id : Nat) {s : State} (h : Canonical s) :
    NextCanonical (execGateGuardDeadline id s) := by
  unfold execGateGuardDeadline
  grind [coordClock_canonical, next_canonical, setPart_canonical]

theorem execGoMarkedNow_canonical (id : Nat) {s : State} (h : Canonical s) : NextCanonical (execGoMarkedNow id s) := by
  unfold execGoMarkedNow
  grind [foldl_canonical, next_canonical, setCoord_canonical, toGate_canonical]

/-! ## Operands shared by pg and ch (R93, R94) -/

theorem needPrivilege_canonical : KeepsCanonical needPrivilege := by
  unfold needPrivilege
  grind [bind_canonical, get_bind_canonical, trapIf_canonical]

theorem mailboxOf_canonical (n : SReg) (w : Word) : KeepsCanonical (mailboxOf n w) := by
  unfold mailboxOf
  grind [bind_canonical, get_bind_canonical, pure_canonical, trap_canonical]

/-! ## The pg instructions -/

theorem execPgInval_canonical (ra rb rc : SReg) {s : State} (h : Canonical s) :
    NextCanonical (execPgInval ra rb rc s) := by
  unfold execPgInval
  grind [bind_canonical, core_canonical, finish_canonical, gate_canonical, get_bind_canonical, mailboxOf_canonical,
    needPrivilege_canonical, openPorts_canonical, run_canonical]

theorem execPgReplay_canonical (ra : SReg) {s : State} (h : Canonical s) : NextCanonical (execPgReplay ra s) := by
  unfold execPgReplay
  grind [bind_canonical, core_canonical, finish_canonical, gate_canonical, needPrivilege_canonical, openPorts_canonical,
    run_canonical]

theorem execPgFbrd_canonical (la : BitVec 4) (ra rb : SReg) {s : State} (h : Canonical s) :
    NextCanonical (execPgFbrd la ra rb s) := by
  unfold execPgFbrd
  grind [becomeIrrevocable_canonical, bind_canonical, finishL_canonical, get_bind_canonical, modify_canonical,
    needPrivilege_canonical, onDie_canonical, openPorts_canonical, run_canonical]

theorem execPgPin_canonical (ra rb rc : SReg) {s : State} (h : Canonical s) : NextCanonical (execPgPin ra rb rc s) := by
  unfold execPgPin
  grind [bind_canonical, core_canonical, finish_canonical, gate_canonical, get_bind_canonical, mailboxOf_canonical,
    needPrivilege_canonical, openPorts_canonical, run_canonical]

theorem hint_canonical {s : State} (a va d : Nat) (h : Canonical s) : Canonical (s.hint a va d) := by
  unfold State.hint
  grind [Canonical, checkPaged_canonical]

theorem execPgHint_canonical (ra rb rc : SReg) {s : State} (h : Canonical s) :
    NextCanonical (execPgHint ra rb rc s) := by
  unfold execPgHint
  grind [bind_canonical, core_canonical, finish_canonical, hint_canonical, modify_canonical, openPorts_canonical,
    run_canonical]

/-! ## Completion of pg.inval and pg.pin (R96, R99) -/

theorem execPgInvalCompletion_canonical (r : InvalReq) {s : State} (h : Canonical s) :
    NextCanonical (execPgInvalCompletion r s) := by
  unfold execPgInvalCompletion
  grind [launch_canonical, mailbox_canonical, next_canonical]

theorem execPgPinCompletion_canonical (r : PinReq) {s : State} (h : Canonical s) :
    NextCanonical (execPgPinCompletion r s) := by
  unfold execPgPinCompletion
  grind [mailbox_canonical, next_canonical, pinPage_canonical]

/-! ## Misses and walks at a slice (R85, R87, R92) -/

theorem execTlbMissAtSlice_canonical (c ctx va : Nat) (acc : Acc) {s : State} (h : Canonical s) :
    NextCanonical (execTlbMissAtSlice c ctx va acc s) := by
  unfold execTlbMissAtSlice
  grind [missAtSlice_canonical, next_canonical]

theorem wake_canonical {s : State} (c : Nat) (h : Canonical s) : Canonical (s.wake c) := h

theorem staleFault_canonical {s : State} (c va : Nat) (acc : Acc) (h : Canonical s) :
    Canonical (s.staleFault c va acc) := by
  unfold State.staleFault
  grind [drop_canonical, faultRecord_canonical, notPresent_canonical, redeliver_canonical]

theorem answer_canonical {s : State} (ctx stamp : Nat) (r : Walk) (first : Bool) (w : Waiter) (h : Canonical s) :
    Canonical (s.answer ctx stamp r first w) := by
  unfold State.answer
  grind [consume_canonical, fillTlb_canonical, notPresent_canonical, staleFault_canonical, wake_canonical]

theorem answerAll_canonical {s : State} (ctx stamp : Nat) (r : Walk) (first : Bool) (ws : List Waiter)
    (h : Canonical s) : Canonical (s.answerAll ctx stamp r first ws) := by
  induction ws generalizing s first with
  | nil => exact h
  | cons w rest ih => exact ih _ (answer_canonical _ _ _ _ _ h)

theorem sliceWalk_canonical {s : State} (die ctx va : Nat) (h : Canonical s) :
    Canonical (sliceWalk s die ctx va).2 := by
  unfold sliceWalk
  grind [walkAt_canonical]

theorem walkDone_canonical {s : State} (die ctx vpage : Nat) (h : Canonical s) :
    Canonical (s.walkDone die ctx vpage) := by
  unfold State.walkDone
  grind [answerAll_canonical, fillSlice_canonical, foldl_canonical, onSlice_canonical, sliceWalk_canonical,
    startWalk_canonical]

theorem execPageWalkComplete_canonical (die ctx vpage : Nat) {s : State} (h : Canonical s) :
    NextCanonical (execPageWalkComplete die ctx vpage s) := by
  unfold execPageWalkComplete
  grind [launch_canonical, next_canonical, walkDone_canonical]

/-! ## Requests follow their page (Table 3.6) -/

theorem follow_canonical {s : State} (f : Place → Place) (h : Canonical s) : Canonical (s.follow f) := h

theorem relink_canonical {s : State} (ctx vpage epa w0 : Nat) (h : Canonical s) :
    Canonical (s.relink ctx vpage epa w0) := by
  unfold State.relink
  grind [shootdown_canonical, stamp_canonical, writePa_canonical]

/-! ## Decisions at an epoch's end (R68 to R70) -/

theorem addMig_canonical {s : State} (g : Migration) (h : Canonical s) : Canonical (s.addMig g) := h

theorem endMig_canonical {s : State} (g : Migration) (h : Canonical s) : Canonical (s.endMig g) := h

theorem promote_canonical {s : State} (ctx vpage epa home frame : Nat) (ds : List Nat) (h : Canonical s) :
    ∀ t, s.promote ctx vpage epa home frame ds = some t → Canonical t := by
  unfold State.promote
  grind [addMig_canonical, launch_canonical, onChain_canonical]

theorem migrate_canonical {s : State} (ctx vpage epa : Nat) (ds : List Nat) (h : Canonical s) :
    Canonical (s.migrate ctx vpage epa ds) := by
  unfold State.migrate
  grind [addMig_canonical, launch_canonical]

theorem placePage_canonical {s : State} (ctx vpage w0 epa : Nat) (h : Canonical s) :
    Canonical (s.placePage ctx vpage w0 epa) := by
  unfold State.placePage
  grind [addMig_canonical, getD_canonical, launch_canonical, migrate_canonical, promote_canonical]

theorem epochEnd_canonical {s : State} (ctx : Nat) (h : Canonical s) : Canonical (s.epochEnd ctx) := by
  unfold State.epochEnd
  grind [Canonical, abandon_canonical, foldl_canonical, onCtx_canonical, placePage_canonical]

theorem execEpochEnd_canonical (ctx : Nat) {s : State} (h : Canonical s) : NextCanonical (execEpochEnd ctx s) := by
  unfold execEpochEnd
  grind [epochEnd_canonical, next_canonical]

/-! ## The switch of a page (R69, R70, R71) -/

theorem movePage_canonical {s : State} (g : Migration) (w0 : Nat) (h : Canonical s) : Canonical (s.movePage g w0) := by
  unfold State.movePage
  grind [Canonical, copyFrame_canonical, follow_canonical, giveFrames_canonical, onPkg_canonical, relink_canonical,
    sigFollow_canonical]

theorem demotePage_canonical {s : State} (g : Migration) (ch w0 : Nat) (h : Canonical s) :
    Canonical (s.demotePage g ch w0) := by
  unfold State.demotePage
  grind [foldl_canonical, follow_canonical, freeEntry_canonical, giveFrames_canonical, relink_canonical,
    sigFollow_canonical]

theorem switchPage_canonical {s : State} (ctx vpage : Nat) (h : Canonical s) : Canonical (s.switchPage ctx vpage) := by
  unfold State.switchPage
  grind [abandon_canonical, demotePage_canonical, endMig_canonical, launch_canonical, movePage_canonical]

theorem execMigrationSwitch_canonical (ctx vpage : Nat) {s : State} (h : Canonical s) :
    NextCanonical (execMigrationSwitch ctx vpage s) := by
  unfold execMigrationSwitch
  grind [next_canonical, switchPage_canonical]

/-! ## The ch instructions -/

theorem chainOp_canonical (fn : Nat) (ra rb rc : SReg) : KeepsCanonical (chainOp fn ra rb rc) := by
  unfold chainOp
  grind [bind_canonical, core_canonical, finish_canonical, gate_canonical, mailboxOf_canonical, openPorts_canonical]

theorem execChLink_canonical (ra rb rc : SReg) {s : State} (h : Canonical s) :
    NextCanonical (execChLink ra rb rc s) := by
  unfold execChLink
  grind [bind_canonical, chainOp_canonical, needPrivilege_canonical, run_canonical]

theorem execChUnlink_canonical (ra rb rc : SReg) {s : State} (h : Canonical s) :
    NextCanonical (execChUnlink ra rb rc s) := by
  unfold execChUnlink
  grind [bind_canonical, chainOp_canonical, needPrivilege_canonical, run_canonical]

theorem execChRelink_canonical (ra rb rc : SReg) {s : State} (h : Canonical s) :
    NextCanonical (execChRelink ra rb rc s) := by
  unfold execChRelink
  grind [bind_canonical, chainOp_canonical, needPrivilege_canonical, run_canonical]

theorem execChClean_canonical (ra rc : SReg) {s : State} (h : Canonical s) : NextCanonical (execChClean ra rc s) := by
  unfold execChClean
  grind [bind_canonical, core_canonical, finish_canonical, gate_canonical, mailboxOf_canonical, openPorts_canonical,
    run_canonical]

theorem execChStat_canonical (la : BitVec 4) (ra rb rc : SReg) {s : State} (h : Canonical s) :
    NextCanonical (execChStat la ra rb rc s) := by
  unfold execChStat
  grind [bind_canonical, finishL_canonical, get_bind_canonical, openPorts_canonical, run_canonical]

theorem execChTail_canonical (la : BitVec 4) (ra rb : SReg) {s : State} (h : Canonical s) :
    NextCanonical (execChTail la ra rb s) := by
  unfold execChTail
  grind [bind_canonical, core_canonical, finishL_canonical, openPorts_canonical, resolve_canonical, run_canonical,
    tailBytes_canonical]

/-! ## Replies of atomics (R132, R134, R135, R257) -/

theorem reply_canonical {s : State} (pkg rtag : Nat) (v : Word) (h : Canonical s) : Canonical (s.reply pkg rtag v) := by
  unfold State.reply
  grind [Canonical]

theorem replyAtomic_canonical {s : State} (r : AtomReq) (v : Word) (h : Canonical s) :
    Canonical (s.replyAtomic r v) := by
  unfold State.replyAtomic
  grind [onHolder_canonical, reply_canonical]

theorem answerAtomic_canonical {s : State} (r : AtomReq) (v : Word) (h : Canonical s) :
    Canonical (s.answerAtomic r v) := by
  unfold State.answerAtomic
  grind [launch_canonical, replyAtomic_canonical]

/-! ## Stores on their way (R102, R103, R105, R112, R113) -/

theorem waitAtLink_canonical {s : State} (st : ChainStore) (h : Canonical s) : Canonical (s.waitAtLink st) := h

theorem routeAgain_canonical {s : State} (st : ChainStore) (e : Chain) (h : Canonical s) :
    Canonical (s.routeAgain st e) := by
  unfold State.routeAgain
  grind [Canonical, waitAtLink_canonical]

theorem sendChain_canonical {s : State} (k : Nat × Nat × Nat) (pkg : Nat) (b : UalBody) (h : Canonical s) :
    Canonical (s.sendChain k pkg b) := h

theorem storeArrives_canonical {s : State} (st : ChainStore) (h : Canonical s) : Canonical (s.storeArrives st) := by
  unfold State.storeArrives
  grind [chainArrive_canonical, conflict_canonical]

theorem execChainStoreAtLink_canonical (st : ChainStore) {s : State} (h : Canonical s) :
    NextCanonical (execChainStoreAtLink st s) := by
  unfold execChainStoreAtLink
  grind [Canonical, next_canonical, note_canonical, routeAgain_canonical, storeArrives_canonical, waitAtLink_canonical]

theorem execChainAcknowledgement_canonical (st : ChainStore) {s : State} (h : Canonical s) :
    NextCanonical (execChainAcknowledgement st s) := by
  unfold execChainAcknowledgement
  grind [chainAck_canonical, next_canonical]

theorem execChainStoreCompletion_canonical (st : ChainStore) {s : State} (h : Canonical s) :
    NextCanonical (execChainStoreCompletion st s) := by
  unfold execChainStoreCompletion
  grind [answerAtomic_canonical, Canonical, next_canonical, onHolder_canonical]

/-! ## Reads (R106) -/

theorem serveCopy_canonical {s : State} (r : MemReq) (tenant pa : Nat) (h : Canonical s) :
    Canonical (s.serveCopy r tenant pa) := by
  unfold State.serveCopy
  grind [reply_canonical]

theorem execChainRead_canonical (r : MemReq) {s : State} (h : Canonical s) : NextCanonical (execChainRead r s) := by
  unfold execChainRead
  grind [fillL1_canonical, launch_canonical, next_canonical, sendChain_canonical, serveCopy_canonical]

theorem execChainTailQuery_canonical (r : MemReq) {s : State} (h : Canonical s) :
    NextCanonical (execChainTailQuery r s) := by
  unfold execChainTailQuery
  grind [launch_canonical, next_canonical, sendChain_canonical, serveCopy_canonical]

/-! ## Sync and promotion (R109, R110, R70) -/

theorem sendSync_canonical {s : State} (ctx ch : Nat) (b : UalBody) (h : Canonical s) :
    Canonical (s.sendSync ctx ch b) := by
  unfold State.sendSync
  grind [sendChain_canonical]

theorem execChainPageCopy_canonical (ctx ch : Nat) {s : State} (h : Canonical s) :
    NextCanonical (execChainPageCopy ctx ch s) := by
  unfold execChainPageCopy
  grind [abandon_canonical, copyFrame_canonical, launch_canonical, next_canonical, onChain_canonical,
    sendSync_canonical]

theorem chainLeaf_canonical {s : State} (g : Migration) (ch : Nat) (h : Canonical s) :
    Canonical (s.chainLeaf g ch) := by
  unfold State.chainLeaf
  grind [follow_canonical, relink_canonical]

theorem nextJoin_canonical {s : State} (g : Migration) (ch : Nat) (h : Canonical s) : Canonical (s.nextJoin g ch) := by
  unfold State.nextJoin
  grind [addMig_canonical, endMig_canonical, launch_canonical, onChain_canonical]

theorem joinMarker_canonical {s : State} (g : Migration) (ch : Nat) (y : Nat × Nat) (h : Canonical s) :
    Canonical (s.joinMarker g ch y) := by
  unfold State.joinMarker
  extract_lets e w0 old s'
  have hs : Canonical s' := copyFrame_canonical _ _ h
  clear_value s' w0 old e
  grind [abandon_canonical, chainLeaf_canonical, launch_canonical, nextJoin_canonical, onChain_canonical]

theorem linkMarker_canonical {s : State} (ctx ch : Nat) (y : Nat × Nat) (h : Canonical s) :
    Canonical (s.linkMarker ctx ch y) := by
  unfold State.linkMarker
  grind [announce_canonical, mailbox_canonical, moveMons_canonical, onChain_canonical, removeLink_canonical]

theorem marker_canonical {s : State} (ctx ch : Nat) (h : Canonical s) : Canonical (s.marker ctx ch) := by
  unfold State.marker
  grind [joinMarker_canonical, linkMarker_canonical]

theorem execChainPromotionMarker_canonical (ctx ch : Nat) {s : State} (h : Canonical s) :
    NextCanonical (execChainPromotionMarker ctx ch s) := by
  unfold execChainPromotionMarker
  grind [marker_canonical, next_canonical]

theorem execChainHeadHandoff_canonical (ctx ch : Nat) {s : State} (h : Canonical s) :
    NextCanonical (execChainHeadHandoff ctx ch s) := by
  unfold execChainHeadHandoff
  grind [announce_canonical, launch_canonical, log_canonical, mailbox_canonical, moveMons_canonical, next_canonical,
    onChain_canonical, unlinkLast_canonical]

theorem execChainCleanDone_canonical (ctx ch : Nat) {s : State} (h : Canonical s) :
    NextCanonical (execChainCleanDone ctx ch s) := by
  unfold execChainCleanDone
  grind [foldl_canonical, launch_canonical, mailbox_canonical, next_canonical, onChain_canonical]

/-! ## The loss of a link (R112, R114) -/

theorem loseLinkOf_canonical {s : State} (l : Nat × Nat) (ctx ch : Nat) (h : Canonical s) :
    Canonical (s.loseLinkOf l ctx ch) := by
  unfold State.loseLinkOf
  grind [dropSync_canonical, removeLink_canonical]

theorem loseForeign_canonical {s : State} (l : Nat × Nat) (f : Foreign) (h : Canonical s) :
    Canonical (s.loseForeign l f) := by
  unfold State.loseForeign
  grind [onChainAt_canonical, removeLink_canonical]

theorem carryStore_canonical {s : State} (f : Foreign) (hop : Nat) (st : ChainStore) (h : Canonical s) :
    Canonical (s.carryStore f hop st) := by
  unfold State.carryStore
  grind [applyStore_canonical, foldl_canonical, onChainAt_canonical, overUal_canonical]

theorem carryStores_canonical {s : State} (f : Foreign) (h : Canonical s) : Canonical (s.carryStores f) := by
  unfold State.carryStores
  grind [carryStore_canonical, foldl_canonical]

theorem freeze_canonical {s : State} (owner : Nat) (h : Canonical s) : Canonical (s.freeze owner) := by
  unfold State.freeze
  grind [Canonical, carryStores_canonical, foldl_canonical, onPkg_canonical]

theorem loseLink_canonical {s : State} (l : Nat × Nat) (h : Canonical s) : Canonical (s.loseLink l) := by
  unfold State.loseLink
  grind [foldl_canonical, freeze_canonical, loseForeign_canonical, loseLinkOf_canonical, stopLost_canonical]

theorem execLinkUnreachable_canonical (pkg die : Nat) {s : State} (h : Canonical s) :
    NextCanonical (execLinkUnreachable pkg die s) := by
  unfold execLinkUnreachable
  grind [loseLink_canonical, next_canonical, onPkg_canonical]

/-! ## Loads and stores at a home slice (R123, R128) -/

theorem waitAtSlice_canonical {s : State} (pa : Nat) (here : Bool) (i : Instr) (h : Canonical s) :
    Canonical (s.waitAtSlice pa here i) := h

theorem serveRead_canonical {s : State} (r : MemReq) (h : Canonical s) : Canonical (s.serveRead r) := by
  unfold State.serveRead
  grind [count_canonical, fillL1_canonical, fillL2_canonical, reply_canonical, waitAtSlice_canonical]

theorem serveWrite_canonical {s : State} (r : MemReq) (h : Canonical s) : Canonical (s.serveWrite r) := by
  unfold State.serveWrite
  grind [Canonical, count_canonical, fillL2_canonical, fireMonitors_canonical, foldl_canonical, launch_canonical,
    logCore_canonical, stamp_canonical, tamper_canonical, waitAtSlice_canonical, writePa_canonical]

theorem execHomeSliceAccess_canonical (r : MemReq) {s : State} (h : Canonical s) :
    NextCanonical (execHomeSliceAccess r s) := by
  unfold execHomeSliceAccess
  grind [next_canonical, serveRead_canonical, serveWrite_canonical, waitAtSlice_canonical]

theorem execInvalidation_canonical (line target : Nat) {s : State} (h : Canonical s) :
    NextCanonical (execInvalidation line target s) := by
  unfold execInvalidation
  grind [dropL1_canonical, launch_canonical, next_canonical]

theorem execInvalidationAck_canonical (line target : Nat) {s : State} (h : Canonical s) :
    NextCanonical (execInvalidationAck line target s) := by
  unfold execInvalidationAck
  grind [Canonical, next_canonical]

/-! ## Atomics at their home (R128, R135, R257) -/

theorem failAtomic_canonical {s : State} (cls : Nat) (pl : Place) (r : AtomReq) (h : Canonical s) :
    Canonical (s.failAtomic cls pl r) := by
  unfold State.failAtomic
  grind [logCore_canonical, onHolder_canonical, replyAtomic_canonical]

theorem foreignAtomic_canonical {s : State} (r : AtomReq) (ch off : Nat) (h : Canonical s) :
    Canonical (s.foreignAtomic r ch off) := by
  unfold State.foreignAtomic
  grind [answerAtomic_canonical, chainArrive_canonical, sendChain_canonical, waitAtSlice_canonical]

theorem execAtomicAtHome_canonical (r : AtomReq) {s : State} (h : Canonical s) :
    NextCanonical (execAtomicAtHome r s) := by
  unfold execAtomicAtHome
  grind [answerAtomic_canonical, atomicAt_canonical, conflict_canonical, failAtomic_canonical, foldl_canonical,
    foreignAtomic_canonical, next_canonical, waitAtSlice_canonical]

theorem execWatchArmAtHome_canonical (r : WatchReq) {s : State} (h : Canonical s) :
    NextCanonical (execWatchArmAtHome r s) := by
  unfold execWatchArmAtHome
  grind [elim_canonical, next_canonical, reply_canonical, waitAtSlice_canonical, watchAt_canonical]

/-! ## Combining (R130 to R134) -/

theorem forward_canonical {s : State} (u : Nat) (r : AtomReq) (h : Canonical s) : Canonical (s.forward u r) := by
  unfold State.forward
  grind [launch_canonical]

theorem onUnit_canonical {s : State} (u : Nat) (f : CombUnit → CombUnit) (h : Canonical s) : Canonical (s.onUnit u f) :=
  h

theorem execCombineRequest_canonical (u port : Nat) (r : AtomReq) {s : State} (h : Canonical s) :
    NextCanonical (execCombineRequest u port r s) := by
  unfold execCombineRequest
  grind [forward_canonical, launch_canonical, next_canonical, onUnit_canonical]

theorem execCombineWindowExpiry_canonical (u id : Nat) {s : State} (h : Canonical s) :
    NextCanonical (execCombineWindowExpiry u id s) := by
  unfold execCombineWindowExpiry
  grind [foldl_canonical, forward_canonical, launch_canonical, next_canonical, onUnit_canonical]

theorem split_canonical {s : State} (base : Word) (ms : List AtomReq) (h : Canonical s) :
    Canonical (s.split base ms) := by
  induction ms generalizing s base with
  | nil => exact h
  | cons m rest ih => exact ih _ (answerAtomic_canonical _ _ h)

theorem execDecombine_canonical (u id : Nat) (v : Word) {s : State} (h : Canonical s) :
    NextCanonical (execDecombine u id v s) := by
  unfold execDecombine
  grind [next_canonical, onUnit_canonical, split_canonical]

theorem replyLost_canonical {s : State} (c : Nat) (applied : Bool) (r : AtomReq) (h : Canonical s) :
    Canonical (s.replyLost c applied r) := by
  unfold State.replyLost
  grind [logCore_canonical, onHolder_canonical]

theorem execAtomicReplyTimeout_canonical (c rtag : Nat) (applied : Bool) {s : State} (h : Canonical s) :
    NextCanonical (execAtomicReplyTimeout c rtag applied s) := by
  unfold execAtomicReplyTimeout
  grind [launch_canonical, next_canonical, replyLost_canonical]

theorem loseReplies_canonical {s : State} (applied : Bool) (ms : List AtomReq) (h : Canonical s) :
    Canonical (s.loseReplies applied ms) := by
  unfold State.loseReplies
  grind [foldl_canonical, launch_canonical]

/-! ## Remote ports (R251) -/

theorem execRemotePortAccess_canonical (r : MemReq) {s : State} (h : Canonical s) :
    NextCanonical (execRemotePortAccess r s) := by
  unfold execRemotePortAccess
  grind [launch_canonical, next_canonical, perform_canonical, reply_canonical]

/-! ## Firings after a loss (Table 15.5) -/

theorem rehandBatch_canonical {s : State} (ctx e : Nat) (b : Nat × Nat × List Nat) (h : Canonical s) :
    Canonical (s.rehandBatch ctx e b) := by
  unfold State.rehandBatch
  grind [deal_canonical, onLaunch_canonical]

theorem rehand_canonical {s : State} (ctx e : Nat) (hit : Nat × Nat × List Nat → Bool) (h : Canonical s) :
    Canonical (s.rehand ctx e hit) := by
  unfold State.rehand
  grind [foldl_canonical, rehandBatch_canonical]

theorem recoverFiring_canonical {s : State} (d ctx e : Nat) (h : Canonical s) :
    Canonical (s.recoverFiring d ctx e) := by
  unfold State.recoverFiring
  grind [log_canonical, onLaunch_canonical, rehand_canonical, stopFiring_canonical, writeBlock_canonical]

theorem recoverFirings_canonical {s : State} (d : Nat) (h : Canonical s) : Canonical (s.recoverFirings d) := by
  unfold State.recoverFirings
  grind [foldl_canonical, recoverFiring_canonical]

theorem restartFiring_canonical {s : State} (ctx e : Nat) (h : Canonical s) : Canonical (s.restartFiring ctx e) := by
  unfold State.restartFiring
  grind [launch_canonical, onLaunch_canonical, rehand_canonical, stopFiring_canonical, writeBlock_canonical]

theorem restartFirings_canonical {s : State} (h : Canonical s) : Canonical s.restartFirings := by
  unfold State.restartFirings
  grind [foldl_canonical, restartFiring_canonical]

/-! ## Loss of a die or of a cluster (R367) -/

theorem loseCores_canonical {s : State} (lo n : Nat) (h : Canonical s) : Canonical (s.loseCores lo n) := by
  unfold State.loseCores
  grind [Canonical, foldl_canonical, forgetKey_canonical, preempted_canonical, unpin_canonical]

theorem logLoss_canonical {s : State} (lo n detail : Nat) (h : Canonical s) : Canonical (s.logLoss lo n detail) := by
  unfold State.logLoss
  grind [foldl_canonical, log_canonical]

theorem removeUnit_canonical {s : State} (u : Nat) (h : Canonical s) : Canonical (s.removeUnit u) := by
  unfold State.removeUnit
  grind [loseReplies_canonical, onUnit_canonical]

theorem removeUnits_canonical {s : State} (lo n : Nat) (h : Canonical s) : Canonical (s.removeUnits lo n) := by
  unfold State.removeUnits
  grind [foldl_canonical, removeUnit_canonical]

theorem loseDie_canonical {s : State} (d : Nat) (h : Canonical s) : Canonical (s.loseDie d) := by
  unfold State.loseDie
  grind [logLoss_canonical, loseCores_canonical, loseLink_canonical, onDie_canonical, recoverFirings_canonical,
    removeUnits_canonical]

theorem loseCluster_canonical {s : State} (k : Nat) (h : Canonical s) : Canonical (s.loseCluster k) := by
  unfold State.loseCluster
  grind [logLoss_canonical, loseCores_canonical, onCluster_canonical, onDie_canonical, recoverFirings_canonical,
    removeUnit_canonical]

/-! ## Repair (R363, R365) -/

theorem repaired_canonical {s : State} (detail addr : Nat) (die : Option Nat) (h : Canonical s) :
    Canonical (s.repaired detail addr die) := by
  unfold State.repaired
  grind [note_canonical, onPkg_canonical]

theorem repairCluster_canonical {s : State} (k : Nat) (h : Canonical s) : Canonical (s.repairCluster k) := by
  unfold State.repairCluster
  grind [launch_canonical, loseDie_canonical, onCluster_canonical, onDie_canonical, onPkg_canonical, repaired_canonical]

theorem repairCore_canonical {s : State} (c : Nat) (h : Canonical s) : Canonical (s.repairCore c) := by
  unfold State.repairCore
  grind [launch_canonical, onCluster_canonical, onCore_canonical, repairCluster_canonical, repaired_canonical]

theorem execRemapComplete_canonical (c : Nat) (whole : Bool) {s : State} (h : Canonical s) :
    NextCanonical (execRemapComplete c whole s) := by
  unfold execRemapComplete
  grind [foldl_canonical, freshRows_canonical, launch_canonical, next_canonical, onCluster_canonical, onCore_canonical,
    onSlice_canonical, onUnit_canonical]

/-! ## Links and routers (R366) -/

theorem removePart_canonical {s : State} (p : NetPart) (h : Canonical s) : Canonical (s.removePart p) := by
  unfold State.removePart
  grind [foldl_canonical, loseCluster_canonical, loseDie_canonical, onPkg_canonical, removeUnit_canonical,
    repairCluster_canonical]

theorem execLinkRemoval_canonical (l : NetPart) {s : State} (h : Canonical s) :
    NextCanonical (execLinkRemoval l s) := by
  unfold execLinkRemoval
  grind [next_canonical, removePart_canonical]

theorem execPacketResendTimeout_canonical (_r : NetPart) {s : State} (h : Canonical s) :
    NextCanonical (execPacketResendTimeout _r s) := by
  unfold execPacketResendTimeout
  grind [next_canonical]

theorem execBridgeLaneSwapDone_canonical (link : Nat) {s : State} (h : Canonical s) :
    NextCanonical (execBridgeLaneSwapDone link s) := by
  unfold execBridgeLaneSwapDone
  grind [next_canonical, repaired_canonical]

theorem execHeartbeatTimeout_canonical (die : Nat) {s : State} (h : Canonical s) :
    NextCanonical (execHeartbeatTimeout die s) := by
  unfold execHeartbeatTimeout
  grind [loseDie_canonical, next_canonical]

/-! ## Detected errors (R350 to R363) -/

theorem poisonLines_canonical {s : State} (ls : List Nat) (integ : Bool) (h : Canonical s) :
    Canonical (s.poisonLines ls integ) := h

theorem retireFrame_canonical {s : State} (frame : Nat) (h : Canonical s) : Canonical (s.retireFrame frame) := by
  unfold State.retireFrame
  grind [foldl_canonical, log_canonical, onPkg_canonical, poisonLines_canonical, repaired_canonical]

theorem badLine_canonical {s : State} (pa : Nat) (integ : Bool) (h : Canonical s) : Canonical (s.badLine pa integ) := by
  unfold State.badLine
  grind [poisonLines_canonical, repaired_canonical, retireFrame_canonical]

theorem badInbox_canonical {s : State} (c k : Nat) (h : Canonical s) : Canonical (s.badInbox c k) := by
  unfold State.badInbox
  grind [forgetKey_canonical, logCore_canonical, loseRow_canonical, onCluster_canonical, onCore_canonical,
    repaired_canonical]

theorem badTask_canonical {s : State} (ctx va pa : Nat) (h : Canonical s) : Canonical (s.badTask ctx va pa) := by
  unfold State.badTask
  grind [foldl_canonical, loseRow_canonical, loseTask_canonical, repaired_canonical]

theorem badCrumb_canonical {s : State} (u id : Nat) (both recurs : Bool) (h : Canonical s) :
    Canonical (s.badCrumb u id both recurs) := by
  unfold State.badCrumb
  grind [loseReplies_canonical, note_canonical, onUnit_canonical, repaired_canonical]

theorem badLane_canonical {s : State} (link : Nat) (h : Canonical s) : Canonical (s.badLane link) := by
  unfold State.badLane
  grind [launch_canonical, onPkg_canonical]

theorem badWay_canonical {s : State} (k set : Nat) (h : Canonical s) : Canonical (s.badWay k set) := by
  unfold State.badWay
  grind [onPkg_canonical, repairCluster_canonical, repaired_canonical]

theorem lasting_canonical {s : State} (e : ErrSite) (h : Canonical s) : Canonical (s.lasting e) := by
  unfold State.lasting
  grind [badCrumb_canonical, badInbox_canonical, badLane_canonical, badLine_canonical, badTask_canonical,
    badWay_canonical, launch_canonical, repairCore_canonical]

theorem execErrorRetry_canonical (e : ErrSite) (recurs : Bool) {s : State} (h : Canonical s) :
    NextCanonical (execErrorRetry e recurs s) := by
  unfold execErrorRetry
  grind [badCrumb_canonical, lasting_canonical, next_canonical, note_canonical]

theorem execLostResponseTimeout_canonical (c : Nat) {s : State} (h : Canonical s) :
    NextCanonical (execLostResponseTimeout c s) := by
  unfold execLostResponseTimeout
  grind [lasting_canonical, next_canonical]

/-! ## The watchdog (R368) -/

theorem execBudgetExpiry_canonical (c : Nat) {s : State} (h : Canonical s) : NextCanonical (execBudgetExpiry c s) := by
  unfold execBudgetExpiry
  grind [next_canonical, onCore_canonical]

/-! ## Mapping its pages (R76 to R79) -/

theorem ownFrames_canonical {s : State} (owner : Nat) (fs : List Nat) (h : Canonical s) :
    Canonical (s.ownFrames owner fs) := h

theorem grabOn_canonical {s : State} (ds : List Nat) (owner : Nat) (h : Canonical s) :
    ∀ p, s.grabOn ds owner = some p → Canonical p.2 := by
  unfold State.grabOn
  grind [ownFrames_canonical, Option.map_eq_some_iff]

theorem grabFrame_canonical {s : State} (owner : Nat) (h : Canonical s) :
    ∀ p, s.grabFrame owner = some p → Canonical p.2 :=
  grabOn_canonical _ owner h

theorem clear_canonical {s : State} (tenant a n : Nat) (h : Canonical s) : Canonical (s.clear tenant a n) := by
  unfold State.clear
  grind [stampAll_canonical, zero_canonical]

theorem grabNode_canonical {s : State} (tenant : Nat) (h : Canonical s) :
    ∀ p, s.grabNode tenant = some p → Canonical p.2 :=
  of_map_eq_some (grabFrame_canonical _ h) fun _ hp => clear_canonical _ _ _ hp

theorem writeNode_canonical {s : State} (tenant a : Nat) (v : Word) (h : Canonical s) :
    Canonical (s.writeNode tenant a v) := by
  unfold State.writeNode
  grind [stampFor_canonical, write64_canonical]

theorem nodeBelow_canonical {s : State} (tenant epa : Nat) (h : Canonical s) :
    ∀ p, s.nodeBelow tenant epa = some p → Canonical p.2 := by
  unfold State.nodeBelow
  dsimp only
  split
  · exact of_map_eq_some (grabNode_canonical _ h) fun _ hp => writeNode_canonical _ _ _ hp
  · exact of_some_eq_some h
  · exact fun _ e => nomatch e

theorem rootOf_canonical {s : State} (ctx : Nat) (h : Canonical s) : ∀ p, s.rootOf ctx = some p → Canonical p.2 := by
  unfold State.rootOf
  dsimp only
  split
  · exact of_some_eq_some h
  · exact of_map_eq_some (grabNode_canonical _ h) fun _ hp => onCtx_canonical _ _ hp

theorem setLeaf_canonical {s : State} (ctx va w0 : Nat) (h : Canonical s) :
    ∀ t, s.setLeaf ctx va w0 = some t → Canonical t := by
  unfold State.setLeaf
  exact of_bind_eq_some (rootOf_canonical _ h) fun _ h3 => of_bind_eq_some (nodeBelow_canonical _ _ h3) fun _ h2 =>
    of_bind_eq_some (nodeBelow_canonical _ _ h2) fun _ h1 => of_bind_eq_some (nodeBelow_canonical _ _ h1) fun _ h0 =>
    of_some_eq_some (writeNode_canonical _ _ _ (writeNode_canonical _ _ _ h0))

theorem mapPage_canonical {s : State} (ctx va : Nat) (ds : List Nat) (flags : Nat) (h : Canonical s) :
    ∀ t, s.mapPage ctx va ds flags = some t → Canonical t := by
  unfold State.mapPage
  split
  · exact of_some_eq_some h
  · exact of_bind_eq_some (grabOn_canonical _ _ h) fun _ hp => setLeaf_canonical _ _ _ hp
  · exact fun _ e => nomatch e

/-! ## Creating its regions (R65, log 29 DESIGN CHOICE) -/

theorem grabRange_canonical {s : State} (ds : List Nat) (n owner : Nat) (h : Canonical s) :
    ∀ p, s.grabRange ds n owner = some p → Canonical p.2 := by
  unfold State.grabRange
  grind [ownFrames_canonical, Option.map_eq_some_iff]

theorem mapStriped_canonical {s : State} (ctx va flags : Nat) (h : Canonical s) :
    ∀ t, s.mapStriped ctx va flags = some t → Canonical t :=
  of_bind_eq_some (grabRange_canonical _ _ _ h) fun _ hp => setLeaf_canonical _ _ _ hp

theorem makeChain_canonical {s : State} (ctx n pages : Nat) (h : Canonical s) :
    ∀ p, s.makeChain ctx n pages = some p → Canonical p.2.2 := by
  unfold State.makeChain
  refine @of_bind_eq_some _ _ (fun _ => True) _ _ _ (fun _ _ => trivial) fun ch _ => ?_
  dsimp only
  split
  · exact fun _ e => nomatch e
  · exact of_bind_eq_some (grabRange_canonical _ _ _ h) fun _ hp => of_some_eq_some (onChain_canonical _ _ _ hp)

theorem makeRegion_canonical {s : State} (ctx : Nat) (r : Region) (h : Canonical s) :
    ∀ t, s.makeRegion ctx r = some t → Canonical t := by
  unfold State.makeRegion
  split
  · exact foldlM_canonical (fun _ _ hs => mapPage_canonical _ _ _ _ hs) _ h
  · exact foldlM_canonical (fun _ _ hs => mapStriped_canonical _ _ _ hs) _ h
  · exact of_bind_eq_some (makeChain_canonical _ _ _ h) fun _ hp =>
      foldlM_canonical (fun _ _ hs => setLeaf_canonical _ _ _ hs) _ hp

theorem fillPage_canonical {s : State} (ctx va : Nat) (bs : List Byte) (h : Canonical s) :
    Canonical (s.fillPage ctx va bs) := by
  unfold State.fillPage
  grind [clear_canonical, perform_canonical]

theorem loadSec_canonical {s : State} (ctx : Nat) (x : Sec) (h : Canonical s) :
    ∀ t, s.loadSec ctx x = some t → Canonical t := by
  unfold State.loadSec
  grind [fillPage_canonical, foldlM_canonical, mapPage_canonical, Option.bind_eq_some_iff]

/-! ## Loading -/

theorem loadLocal_canonical {s : State} (ctx : Nat) (ss : List Sec) (c : Nat) (h : Canonical s) :
    Canonical (s.loadLocal ctx ss c) := by
  unfold State.loadLocal
  grind [clear_canonical, foldl_canonical, writePa_canonical]

theorem armImage_canonical {s : State} (ctx : Nat) (ss : List Sec) (h : Canonical s) :
    Canonical (s.armImage ctx ss) := by
  unfold State.armImage
  grind [armEntry_canonical, foldl_canonical]

theorem settle_canonical {s : State} (ctx : Nat) (cs : List Nat) (h : Canonical s) : Canonical (s.settle ctx cs) := by
  unfold State.settle
  grind [foldl_canonical, launch_canonical]

theorem retag_canonical {s : State} (ctx : Nat) (h : Canonical s) : Canonical (s.retag ctx) := h

theorem loadImage_canonical {s : State} (ctx : Nat) (bs : List Byte) (h : Canonical s) :
    ∀ t, s.loadImage ctx bs = some t → Canonical t := by
  unfold State.loadImage
  dsimp only
  split
  · exact fun _ e => nomatch e
  · refine of_bind_eq_some (foldlM_canonical (fun _ _ hs => loadSec_canonical _ _ hs) _ h) fun s1 h1 =>
      of_bind_eq_some (foldlM_canonical (fun _ _ hs => makeRegion_canonical _ _ hs) _ h1) fun s2 h2 => of_some_eq_some ?_
    grind [armImage_canonical, armWaiting_canonical, foldl_canonical, loadLocal_canonical, onCtx_canonical, onPkg_canonical,
      retag_canonical, settle_canonical]

/-! ## The message window (R372, R373) -/

theorem execHostTriggerRecord_canonical (page off : Nat) (bs : List Byte) {s : State} (h : Canonical s) :
    NextCanonical (execHostTriggerRecord page off bs s) := by
  unfold execHostTriggerRecord
  grind [next_canonical, note_canonical, trigger_canonical]

/-! ## Mailboxes (R374) -/

theorem respond_canonical {s : State} (m : Nat) (resp : List Byte) (result : Nat) (h : Canonical s) :
    Canonical (s.respond m resp result) := by
  unfold State.respond
  grind [launch_canonical, onPkg_canonical]

theorem ring_canonical {s : State} (m code : Nat) (req : List Byte) (h : Canonical s) : Canonical (s.ring m code req) :=
  h

theorem mailboxCmd_canonical (m code : Nat) (req : List Byte) {s : State} {f : State → Option (List Byte × State)}
    (hf : ∀ t, Canonical t → ∀ p, f t = some p → Canonical p.2) (h : Canonical s) :
    NextCanonical (mailboxCmd m code req s f) := by
  unfold mailboxCmd
  grind [next_canonical, respond_canonical, ring_canonical]

theorem execMbxAttest_canonical (m : Nat) (nonce : List Byte) {s : State} (h : Canonical s) :
    NextCanonical (execMbxAttest m nonce s) :=
  mailboxCmd_canonical _ _ _ (fun _ ht => of_some_eq_some ht) h

theorem create_canonical {s : State} (x tenant : Nat) (privileged : Bool) (h : Canonical s) :
    Canonical (s.create x tenant privileged) := h

theorem execMbxCreateContext_canonical (m tenant : Nat) (privileged : Bool) {s : State} (h : Canonical s) :
    NextCanonical (execMbxCreateContext m tenant privileged s) := by
  refine mailboxCmd_canonical _ _ _ (fun t ht => ?_) h
  dsimp only
  split
  · exact fun _ e => nomatch e
  · exact @of_map_eq_some _ _ (fun _ => True) _ _ _ (fun _ _ => trivial) fun _ _ => create_canonical _ _ _ ht

theorem execMbxLoadImage_canonical (m ctx addr len : Nat) {s : State} (h : Canonical s) :
    NextCanonical (execMbxLoadImage m ctx addr len s) := by
  refine mailboxCmd_canonical _ _ _ (fun t ht => ?_) h
  split
  · exact fun _ e => nomatch e
  · exact of_map_eq_some (loadImage_canonical _ _ ht) fun _ hp => onPkg_canonical _ hp

theorem execMbxDestroyContext_canonical (m ctx : Nat) {s : State} (h : Canonical s) :
    NextCanonical (execMbxDestroyContext m ctx s) := by
  refine mailboxCmd_canonical _ _ _ (fun t ht => ?_) h
  grind [kill_canonical, onCtx_canonical, onPkg_canonical]

theorem execMbxTenantKey_canonical (m tenant : Nat) (k : TenantKeys) (ok : Bool) {s : State} (h : Canonical s) :
    NextCanonical (execMbxTenantKey m tenant k ok s) := by
  refine mailboxCmd_canonical _ _ _ (fun t ht => ?_) h
  grind [onPkg_canonical]

theorem execMbxReserveRange_canonical (m tenant die base npg : Nat) {s : State} (h : Canonical s) :
    NextCanonical (execMbxReserveRange m tenant die base npg s) := by
  refine mailboxCmd_canonical _ _ _ (fun t ht => ?_) h
  grind [onPkg_canonical]

theorem execMbxHealthLog_canonical (m seq : Nat) {s : State} (h : Canonical s) :
    NextCanonical (execMbxHealthLog m seq s) :=
  mailboxCmd_canonical _ _ _ (fun _ ht => of_some_eq_some ht) h

theorem execMbxUnlistedCommand_canonical (m code : Nat) {s : State} (h : Canonical s) :
    NextCanonical (execMbxUnlistedCommand m code s) :=
  mailboxCmd_canonical _ _ _ (fun _ _ _ e => nomatch e) h

theorem execMailboxCompletion_canonical (m : Nat) {s : State} (h : Canonical s) :
    NextCanonical (execMailboxCompletion m s) := by
  unfold execMailboxCompletion
  grind [Canonical, next_canonical, onPkg_canonical]

/-! ## Host memory (R375) -/

theorem execHostCompletion_canonical (c : Nat) (ok : Bool) (data : List Byte) {s : State} (h : Canonical s) :
    NextCanonical (execHostCompletion c ok data s) := by
  unfold execHostCompletion
  grind [next_canonical, onCore_canonical]

theorem execHostCompletionTimeout_canonical (c : Nat) {s : State} (h : Canonical s) :
    NextCanonical (execHostCompletionTimeout c s) := by
  unfold execHostCompletionTimeout
  grind [Canonical, next_canonical, onCore_canonical]

/-! ## UALink (R376, R377) -/

theorem releaseRanges_canonical {s : State} (tenant : Nat) (c : ChainRec) (dies : List Nat) (h : Canonical s) :
    Canonical (s.releaseRanges tenant c dies) := h

theorem dropForeign_canonical {s : State} (tenant : Nat) (c : ChainRec) (h : Canonical s) :
    Canonical (s.dropForeign tenant c) := by
  unfold State.dropForeign
  grind [onPkg_canonical, releaseRanges_canonical]

theorem takePage_canonical {s : State} (y : Nat × Nat) (tenant page : Nat) (data : List (Nat × Byte))
    (h : Canonical s) : Canonical (s.takePage y tenant page data) := by
  unfold State.takePage
  exact foldl_canonical (fun _ _ hs => stampFor_canonical _ _ _ hs) _ _ (writeCells_canonical _ (Mem.filter_wf _ h))

theorem takeMark_canonical {s : State} (f : Foreign) (h : Canonical s) : Canonical (s.takeMark f) := by
  unfold State.takeMark
  grind [onChainAt_canonical, sendChain_canonical]

theorem sendPages_canonical {s : State} (f : Foreign) (h : Canonical s) : Canonical (s.sendPages f) := by
  unfold State.sendPages
  grind [copyFrame_canonical, foldl_canonical, sendChain_canonical, takeMark_canonical]

theorem foreignRec_canonical {s : State} (tenant share : Nat) (r : ChainRec) (h : Canonical s) :
    Canonical (s.foreignRec tenant share r) := by
  unfold State.foreignRec
  grind [dropForeign_canonical, foldl_canonical, onPkg_canonical, removeLink_canonical, sendPages_canonical]

theorem enterHub_canonical {s : State} (q : AtomReq) (h : Canonical s) : Canonical (s.enterHub q) := by
  unfold State.enterHub
  grind [launch_canonical]

theorem ringFor_canonical {s : State} (pkg x : Nat) (q : RingReq) (h : Canonical s) :
    Canonical (s.ringFor pkg x q) := by
  unfold State.ringFor
  grind [Canonical, elim_canonical, perform_canonical, reply_canonical]

theorem taskFor_canonical {s : State} (pkg x : Nat) (r : TaskReq) (h : Canonical s) :
    Canonical (s.taskFor pkg x r) := by
  unfold State.taskFor
  grind [perform_canonical, reply_canonical]

theorem acceptReq_canonical {s : State} (r : UalReq) (h : Canonical s) : ∀ t, s.acceptReq r = some t → Canonical t := by
  unfold State.acceptReq
  grind [askChain_canonical, askHead_canonical, dispatchMsg_canonical, enterHub_canonical, foreignRec_canonical,
    launch_canonical, ringFor_canonical, takeMark_canonical, takePage_canonical, taskFor_canonical,
    Option.map_eq_some_iff, Option.bind_eq_some_iff]

theorem refuse_canonical {s : State} (r : UalReq) (h : Canonical s) : Canonical (s.refuse r) := by
  unfold State.refuse
  grind [Canonical, logRefusal_canonical, note_canonical]

theorem execUalinkRequest_canonical (r : UalReq) {s : State} (h : Canonical s) :
    NextCanonical (execUalinkRequest r s) := by
  unfold execUalinkRequest
  grind [acceptReq_canonical, getD_canonical, launch_canonical, next_canonical, refuse_canonical]

/-! ## Ethernet (R380) -/

theorem onQp_canonical {s : State} (k : Nat) (f : QueuePair → QueuePair) (h : Canonical s) : Canonical (s.onQp k f) := h

theorem execEthernetTransmit_canonical (port qp : Nat) {s : State} (h : Canonical s) :
    NextCanonical (execEthernetTransmit port qp s) := by
  unfold execEthernetTransmit
  grind [launch_canonical, next_canonical, onQp_canonical, perform_canonical]

theorem execEthernetReceive_canonical (port qp : Nat) (frame : List Byte) {s : State} (h : Canonical s) :
    NextCanonical (execEthernetReceive port qp frame s) := by
  unfold execEthernetReceive
  grind [launch_canonical, next_canonical, onQp_canonical, perform_canonical, send_canonical]

/-! ## Time (R381, R382) -/

theorem execPtpMessage_canonical (tai err : Nat) {s : State} (h : Canonical s) :
    NextCanonical (execPtpMessage tai err s) := by
  unfold execPtpMessage
  grind [launch_canonical, next_canonical, onPkg_canonical]

theorem execClockDegradedEntry_canonical (err : Nat) {s : State} (h : Canonical s) :
    NextCanonical (execClockDegradedEntry err s) := by
  unfold execClockDegradedEntry
  grind [next_canonical, note_canonical, onPkg_canonical]

theorem execClockDegradedExit_canonical {s : State} (h : Canonical s) : NextCanonical (execClockDegradedExit s) := by
  unfold execClockDegradedExit
  grind [next_canonical, note_canonical, onPkg_canonical]

/-! ## Boot and readiness (R383, R386) -/

theorem startImage_canonical {s : State} (i : BootImage) (h : Canonical s) : Canonical (s.startImage i) := h

theorem recover_canonical {s : State} (h : Canonical s) : Canonical s.recover := h

theorem execBoot_canonical (net flash : BootImage) {s : State} (h : Canonical s) :
    NextCanonical (execBoot net flash s) := by
  unfold execBoot
  grind [next_canonical, recover_canonical, startImage_canonical]

theorem setReady_canonical {s : State} (u : ReadyUnit) (h : Canonical s) : Canonical (s.setReady u) := by
  unfold State.setReady
  grind [onCore_canonical, onDie_canonical, onPkg_canonical]

theorem execSelfTestReady_canonical (u : ReadyUnit) {s : State} (h : Canonical s) :
    NextCanonical (execSelfTestReady u s) := by
  unfold execSelfTestReady
  grind [Canonical, dispatchMsg_canonical, foldl_canonical, next_canonical, restartFirings_canonical,
    setReady_canonical]

/-! ## Power and cooling (R388, R389) -/

theorem execThermalShutdown_canonical {s : State} (h : Canonical s) : NextCanonical (execThermalShutdown s) := by
  unfold execThermalShutdown
  grind [foldl_canonical, kill_canonical, next_canonical, onPkg_canonical]

theorem execPowerCapping_canonical (slots : Nat) {s : State} (h : Canonical s) :
    NextCanonical (execPowerCapping slots s) := by
  unfold execPowerCapping
  grind [next_canonical, onPkg_canonical]

theorem exec_canonical (i : Instr) {s : State} (h : Canonical s) : NextCanonical (exec i s) := by
  cases i with
  | undefinedEncoding => exact execUndefinedEncoding_canonical _ h
  | registerWrite => exact execRegisterWrite_canonical _ _ h
  | rostatSelect => exact execRostatSelect_canonical _ h
  | rostatArm => exact execRostatArm_canonical _ h
  | rostatDisarm => exact execRostatDisarm_canonical _ h
  | ctxctlPreempt => exact execCtxctlPreempt_canonical _ h
  | ctxctlResume => exact execCtxctlResume_canonical _ h
  | ctxctlKill => exact execCtxctlKill_canonical _ h
  | messageArrival => exact execMessageArrival_canonical _ h
  | dispatch => exact execDispatch_canonical _ h
  | activationCommit => exact execActivationCommit_canonical _ h
  | sequencerArrival => exact execSequencerArrival_canonical _ h
  | tlbMissAtSlice => exact execTlbMissAtSlice_canonical _ _ _ _ h
  | pageWalkComplete => exact execPageWalkComplete_canonical _ _ _ h
  | pgInvalCompletion => exact execPgInvalCompletion_canonical _ h
  | pgPinCompletion => exact execPgPinCompletion_canonical _ h
  | epochEnd => exact execEpochEnd_canonical _ h
  | migrationSwitch => exact execMigrationSwitch_canonical _ _ h
  | homeSliceAccess => exact execHomeSliceAccess_canonical _ h
  | invalidation => exact execInvalidation_canonical _ _ h
  | invalidationAck => exact execInvalidationAck_canonical _ _ h
  | atomicAtHome => exact execAtomicAtHome_canonical _ h
  | watchArmAtHome => exact execWatchArmAtHome_canonical _ h
  | combineRequest => exact execCombineRequest_canonical _ _ _ h
  | combineWindowExpiry => exact execCombineWindowExpiry_canonical _ _ h
  | decombine => exact execDecombine_canonical _ _ _ h
  | atomicReplyTimeout => exact execAtomicReplyTimeout_canonical _ _ _ h
  | tileFetchLine => exact execTileFetchLine_canonical _ h
  | matrixCommandExecute => exact execMatrixCommandExecute_canonical _ h
  | gangStart => exact execGangStart_canonical _ h
  | copyBeat => exact execCopyBeat_canonical _ _ h
  | footprintPrefetch => exact execFootprintPrefetch_canonical _ h
  | remotePortAccess => exact execRemotePortAccess_canonical _ h
  | queueWordArrival => exact execQueueWordArrival_canonical _ _ _ h
  | chainStoreAtLink => exact execChainStoreAtLink_canonical _ h
  | chainAcknowledgement => exact execChainAcknowledgement_canonical _ h
  | chainStoreCompletion => exact execChainStoreCompletion_canonical _ h
  | chainRead => exact execChainRead_canonical _ h
  | chainTailQuery => exact execChainTailQuery_canonical _ h
  | chainPageCopy => exact execChainPageCopy_canonical _ _ h
  | chainPromotionMarker => exact execChainPromotionMarker_canonical _ _ h
  | chainHeadHandoff => exact execChainHeadHandoff_canonical _ _ h
  | chainCleanDone => exact execChainCleanDone_canonical _ _ h
  | linkUnreachable => exact execLinkUnreachable_canonical _ _ h
  | postArrival => exact execPostArrival_canonical _ h
  | postApply => exact execPostApply_canonical _ h
  | reportWindowExpiry => exact execReportWindowExpiry_canonical _ _ _ h
  | runOutFire => exact execRunOutFire_canonical _ _ h
  | taskAtHome => exact execTaskAtHome_canonical _ h
  | taskDeadline => exact execTaskDeadline_canonical _ _ h
  | taskTake => exact execTaskTake_canonical _ h
  | barrierAcknowledgement => exact execBarrierAcknowledgement_canonical _ _ _ _ h
  | barrierRelease => exact execBarrierRelease_canonical _ _ _ _ h
  | launchTrigger => exact execLaunchTrigger_canonical _ h
  | launchBatch => exact execLaunchBatch_canonical _ _ _ h
  | indexAcknowledgement => exact execIndexAcknowledgement_canonical _ _ _ h
  | preemptionHalt => exact execPreemptionHalt_canonical _ h
  | localStoreSwap => exact execLocalStoreSwap_canonical _ _ h
  | gatePost => exact execGatePost_canonical _ h
  | gateArmed => exact execGateArmed_canonical _ _ _ h
  | gateGuardDeadline => exact execGateGuardDeadline_canonical _ h
  | gateGo => exact execGateGo_canonical _ _ h
  | gateAbort => exact execGateAbort_canonical _ h
  | gateActionTime => exact execGateActionTime_canonical _ h
  | gateArmedTimeout => exact execGateArmedTimeout_canonical _ h
  | errorRetry => exact execErrorRetry_canonical _ _ h
  | remapComplete => exact execRemapComplete_canonical _ _ h
  | linkRemoval => exact execLinkRemoval_canonical _ h
  | packetResendTimeout r => exact execPacketResendTimeout_canonical r h
  | heartbeatTimeout => exact execHeartbeatTimeout_canonical _ h
  | budgetExpiry => exact execBudgetExpiry_canonical _ h
  | hostTriggerRecord => exact execHostTriggerRecord_canonical _ _ _ h
  | mbxAttest => exact execMbxAttest_canonical _ _ h
  | mbxCreateContext => exact execMbxCreateContext_canonical _ _ _ h
  | mbxLoadImage => exact execMbxLoadImage_canonical _ _ _ _ h
  | mbxDestroyContext => exact execMbxDestroyContext_canonical _ _ h
  | mbxTenantKey => exact execMbxTenantKey_canonical _ _ _ _ h
  | mbxReserveRange => exact execMbxReserveRange_canonical _ _ _ _ _ h
  | mbxHealthLog => exact execMbxHealthLog_canonical _ _ h
  | mbxUnlistedCommand => exact execMbxUnlistedCommand_canonical _ _ h
  | mailboxCompletion => exact execMailboxCompletion_canonical _ h
  | ualinkRequest => exact execUalinkRequest_canonical _ h
  | hostCompletion => exact execHostCompletion_canonical _ _ _ h
  | hostCompletionTimeout => exact execHostCompletionTimeout_canonical _ h
  | ethernetTransmit => exact execEthernetTransmit_canonical _ _ h
  | ethernetReceive => exact execEthernetReceive_canonical _ _ _ h
  | ptpMessage => exact execPtpMessage_canonical _ _ h
  | clockDegradedExit => exact execClockDegradedExit_canonical h
  | boot => exact execBoot_canonical _ _ h
  | selfTestReady => exact execSelfTestReady_canonical _ h
  | thermalShutdown => exact execThermalShutdown_canonical h
  | clockDegradedEntry => exact execClockDegradedEntry_canonical _ h
  | goMarkedNow => exact execGoMarkedNow_canonical _ h
  | bridgeLaneSwapDone => exact execBridgeLaneSwapDone_canonical _ h
  | lostResponseTimeout => exact execLostResponseTimeout_canonical _ h
  | powerCapping => exact execPowerCapping_canonical _ h
  | sysInv => exact execSysInv_canonical h
  | sysNop => exact execSysNop_canonical h
  | sysBrk => exact execSysBrk_canonical _ h
  | sysTrap => exact execSysTrap_canonical _ h
  | sysEret => exact execSysEret_canonical h
  | sysGet => exact execSysGet_canonical _ _ h
  | sysPut | sysSet | sysClr => exact run_canonical (putReg_canonical _ _ _) h
  | sysKill => exact execSysKill_canonical _ h
  | fenceFull => exact execFenceFull_canonical _ h
  | fenceAcq scope => exact execFenceAcq_canonical scope h
  | fenceRel => exact execFenceRel_canonical _ h
  | fenceEng => exact execFenceEng_canonical _ h
  | saAdd | saSub | saMul | saMulh | saMulhn => exact run_canonical (scalar2_canonical _ _ _ fun _ _ => pure_canonical _) h
  | saDiv | saDivn | saRem | saRemn => exact run_canonical (scalar2_canonical _ _ _ fun _ _ => divide_canonical _ _ _) h
  | saMin | saMax | saMinn | saMaxn => exact run_canonical (scalar2_canonical _ _ _ fun _ _ => pure_canonical _) h
  | saPadd => exact run_canonical (scalar2_canonical _ _ _ fun _ _ => pointerAdd_canonical _ _) h
  | saAbs | saNeg => exact run_canonical (scalar1_canonical _ _ _) h
  | sbAnd | sbOr | sbXor | sbAndn | sbShl | sbShr | sbSra | sbRot =>
    exact run_canonical (scalar2_canonical _ _ _ fun _ _ => pure_canonical _) h
  | sbClz | sbCtz | sbPop => exact run_canonical (scalar1_canonical _ _ _) h
  | sbSeq | sbSne | sbSlt | sbSltn => exact run_canonical (scalar2_canonical _ _ _ fun _ _ => pure_canonical _) h
  | sbSel => exact execSbSel_canonical _ _ _ h
  | swAdd | swSub | swMul => exact run_canonical (scalar2_canonical _ _ _ fun _ _ => pure_canonical _) h
  | swDiv | swDivn | swRem | swRemn => exact run_canonical (scalar2_canonical _ _ _ fun _ _ => divideWords_canonical _ _ _) h
  | swShl | swShr | swSra | swMin | swMax => exact run_canonical (scalar2_canonical _ _ _ fun _ _ => pure_canonical _) h
  | siAdd | siAnd | siOr | siXor | siShl | siShr | siSra | siRot | siSlt => exact run_canonical (scalarI_canonical _ _ _) h
  | liHi => exact execLiHi_canonical _ _ h
  | liTop => exact execLiTop_canonical _ _ h
  | brEq | brNe | brLt | brGe | brGt | brLe => exact run_canonical (branchZero_canonical _ _ _) h
  | brAny | brNone => exact run_canonical (branch_canonical _ _ _) h
  | brAlways => exact run_canonical (branch_canonical [] _ fun _ => true) h
  | jmp => exact execJmp_canonical _ h
  | call => exact execCall_canonical _ h
  | jxJr => exact execJxJr_canonical _ h
  | jxCallr => exact execJxCallr_canonical _ _ h
  | jxRet => exact execJxRet_canonical h
  | lpDo => exact execLpDo_canonical _ _ h
  | prAnd | prOr | prXor => exact run_canonical (pred2_canonical _ _ _ _) h
  | prNot => exact execPrNot_canonical _ _ h
  | prSet => exact execPrSet_canonical _ _ h
  | prGet | prCnt | prFirst => exact run_canonical (predS_canonical _ _ _) h
  | ldB | ldBn | ldH | ldHn | ldW | ldWn | ldD => exact run_canonical (loadS_canonical _ _ _ _ _ _) h
  | ldV => exact execLdV_canonical _ _ _ _ h
  | ldVt => exact execLdVt_canonical _ _ _ _ h
  | ldAcq | ldDev => exact run_canonical (loadS_canonical _ _ _ _ _ _) h
  | stB | stH | stW | stD => exact run_canonical (storeS_canonical _ _ _ _ _) h
  | stV | stVm => exact run_canonical (storeV_canonical _ _ _) h
  | stVt => exact execStVt_canonical _ _ _ h
  | stRel | stDev => exact run_canonical (storeS_canonical _ _ _ _ _) h
  | atAdd | atAddcb | atAnd | atOr | atXor | atMin | atMax | atMinn | atMaxn | atSwp | atCas | atFadd | atRed =>
    exact run_canonical (atomicOp_canonical _ _ _ _ _ _) h
  | atWatch => exact run_canonical (watchOp_canonical _ _ _ _ _) h
  | atwAdd | atwAddcb | atwAnd | atwOr | atwXor | atwMin | atwMax | atwMinn | atwMaxn | atwSwp | atwCas | atwFadd
  | atwRed => exact run_canonical (atomicOp_canonical _ _ _ _ _ _) h
  | atwWatch => exact run_canonical (watchOp_canonical _ _ _ _ _) h
  | vaFadd | vaFsub | vaFmul | vaFma | vaFms | vaFmin | vaFmax => exact run_canonical (fvec2_canonical _ _ _ _) h
  | vaFabs | vaFneg | vaFrcp | vaFrsq | vaFsqrt => exact run_canonical (fvec1_canonical _ _ _) h
  | vaFdiv => exact run_canonical (fvec2_canonical _ _ _ _) h
  | viAdd | viSub | viMul | viMulh | viAnd | viOr | viXor | viShl | viShr | viSra | viMin | viMax | viMinn | viMaxn =>
    exact run_canonical (ivec2_canonical _ _ _ _) h
  | vcFeq | vcFne | vcFlt | vcFle | vcFun => exact run_canonical (fcmp_canonical _ _ _ _) h
  | vcIeq | vcIlt | vcIltn => exact run_canonical (icmp_canonical _ _ _ _) h
  | vxBcast | vxExtr | vxIns | vxPerm | vxSel | vxIota => exact run_canonical (move_canonical _ _ _ _) h
  | vxCvtif | vxCvtfi | vxCvtbh | vxCvthb | vxCvtfh | vxCvthf | vxCvt8 | vxCvtq8 | vxCvt4 | vxCvtq4 =>
    exact run_canonical (convert_canonical _ _ _ _) h
  | vrFsum | vrFmax | vrFmin | vrIsum | vrImax | vrImin | vrAnd | vrOr => exact run_canonical (reduce_canonical _ _ _ _) h
  | vgGat => exact execVgGat_canonical _ _ _ _ h
  | vgSca => exact execVgSca_canonical _ _ _ h
  | vgAtadd | vgAtfadd | vgAtmin | vgAtmax | vgAtor => exact run_canonical (vgAtomic_canonical _ _ _ _) h
  | mxMma => exact execMxMma_canonical _ _ _ _ h
  | mxMmas => exact execMxMmas_canonical _ _ _ _ h
  | mxZero => exact execMxZero_canonical _ _ h
  | mxLdacc => exact execMxLdacc_canonical _ _ _ h
  | mxStacc => exact execMxStacc_canonical _ _ _ h
  | mxStsp => exact execMxStsp_canonical _ _ _ h
  | mxGang => exact execMxGang_canonical _ _ _ _ h
  | mxCfg => exact execMxCfg_canonical _ _ h
  | mxMask => exact execMxMask_canonical _ _ _ h
  | mxDrain => exact execMxDrain_canonical h
  | cpGet | cpPut => exact run_canonical (plainCopy_canonical _ _ _ _ _ fun _ => pure_canonical _) h
  | cpGet2d | cpPut2d => exact run_canonical (copy2d_canonical _ _ _ _) h
  | cpFill => exact execCpFill_canonical _ _ _ h
  | cpNzpk => exact execCpNzpk_canonical _ _ _ h
  | cpWptr => exact execCpWptr_canonical _ _ _ h
  | cpCancel => exact execCpCancel_canonical _ h
  | msSend => exact execMsSend_canonical _ _ _ h
  | msSendt => exact execMsSendt_canonical _ _ _ h
  | msSpr => exact execMsSpr_canonical _ _ _ h
  | msBcast => exact execMsBcast_canonical _ _ _ h
  | msEnd => exact execMsEnd_canonical h
  | msEndc => exact execMsEndc_canonical _ _ h
  | msDefer => exact execMsDefer_canonical _ h
  | tkNew => exact execTkNew_canonical _ _ _ _ h
  | tkArr | tkArrd | tkDl | tkKill => exact run_canonical (taskOp_canonical _ _ _) h
  | tkBarr => exact execTkBarr_canonical _ h
  | tkBwait => exact execTkBwait_canonical _ _ h
  | tgEn | tgDis | tgPend | tgClr => exact run_canonical (tagsOp_canonical _ _ _) h
  | tgGet => exact execTgGet_canonical _ _ h
  | gmAdd | gmSub => exact run_canonical (gauss2_canonical _ _ _ _) h
  | gmDamp => exact execGmDamp_canonical _ _ _ h
  | gmMarg => exact execGmMarg_canonical _ _ _ h
  | gmSol | gmCov => exact run_canonical (gauss1_canonical _ _ _) h
  | gmLin => exact execGmLin_canonical _ _ _ h
  | gmRes => exact execGmRes_canonical _ _ _ h
  | gmConv => exact execGmConv_canonical _ _ h
  | gmRdro => exact execGmRdro_canonical _ _ h
  | fgAttach => exact execFgAttach_canonical _ _ _ _ h
  | fgDetach => exact execFgDetach_canonical _ _ h
  | fgSlot => exact execFgSlot_canonical _ _ _ _ h
  | fgPost => exact execFgPost_canonical _ _ _ h
  | fgGen => exact execFgGen_canonical _ _ _ _ h
  | chLink => exact execChLink_canonical _ _ _ h
  | chUnlink => exact execChUnlink_canonical _ _ _ h
  | chRelink => exact execChRelink_canonical _ _ _ h
  | chStat => exact execChStat_canonical _ _ _ _ h
  | chTail => exact execChTail_canonical _ _ _ h
  | chClean => exact execChClean_canonical _ _ h
  | rgAcq => exact execRgAcq_canonical _ _ _ h
  | rgCmt => exact execRgCmt_canonical _ _ h
  | rgPeek => exact execRgPeek_canonical _ _ _ h
  | rgRel => exact execRgRel_canonical _ h
  | qpCtl => exact execQpCtl_canonical _ _ h
  | qpStat => exact execQpStat_canonical _ _ h
  | qpCatch => exact execQpCatch_canonical _ _ h
  | glArm => exact execGlArm_canonical _ _ h
  | glDisarm => exact execGlDisarm_canonical _ h
  | glTrig => exact execGlTrig_canonical _ _ h
  | glGate => exact execGlGate_canonical _ h
  | glIdx => exact execGlIdx_canonical _ _ _ h
  | glGrp => exact execGlGrp_canonical _ _ _ h
  | pgInval => exact execPgInval_canonical _ _ _ h
  | pgReplay => exact execPgReplay_canonical _ h
  | pgFbrd => exact execPgFbrd_canonical _ _ _ h
  | pgPin => exact execPgPin_canonical _ _ _ h
  | pgHint => exact execPgHint_canonical _ _ _ h
  | trlLead => exact execTrlLead_canonical h
  | trlJoin => exact execTrlJoin_canonical h
  | trlQuit => exact execTrlQuit_canonical h

/-! ## Time (R245, R291, R293, R368) -/

theorem ageMsgs_canonical {s : State} (dt : Nat) (h : Canonical s) : Canonical (s.ageMsgs dt) := h

theorem ageUnits_canonical {s : State} (dt : Nat) (h : Canonical s) : Canonical (s.ageUnits dt) := by
  unfold State.ageUnits
  grind [Canonical, foldl_canonical, launch_canonical]

theorem launchDue_canonical {s : State} (h : Canonical s) : Canonical s.launchDue := by
  unfold State.launchDue
  grind [foldl_canonical, launch_canonical]

theorem advance_canonical {s : State} (dt : Nat) (h : Canonical s) : Canonical (s.advance dt) := by
  unfold State.advance
  grind [Canonical, ageMsgs_canonical, ageUnits_canonical, launchDue_canonical, onPkg_canonical]

/-! ## Steps in progress -/

theorem runFlight_canonical {s : State} (k : Nat) (h : Canonical s) : NextCanonical (s.runFlight k) := by
  unfold State.runFlight
  grind [Canonical, exec_canonical, run_canonical, next_canonical]

/-! ## Sprinkle handlers (R224, R225) -/

theorem markNamed_canonical (w : BitVec 32) : KeepsCanonical (markNamed w) := by
  unfold markNamed
  grind [bind_canonical, core_canonical, modCore_canonical, pure_canonical]

theorem sprinkleCheck_canonical (w : BitVec 32) : KeepsCanonical (sprinkleCheck w) := by
  unfold sprinkleCheck
  grind [bind_canonical, core_canonical, endWith_canonical, pure_canonical, sprinkleFail_canonical]

/-! ## Trail mode (R323 to R325) -/

theorem followLeader_canonical (i : Instr) (srcs : List SReg) (r : TrailRec) :
    KeepsCanonical (followLeader i srcs r) := by
  unfold followLeader
  grind [bind_canonical, foldl_canonical, modCore_canonical, modify_canonical, openPorts_canonical, putS_canonical]

/-! ## An instruction with what surrounds it -/

theorem fetchStage_canonical : KeepsCanonical fetchStage := by
  unfold fetchStage
  grind [bind_canonical, checkWord_canonical, core_canonical, fetchWord_canonical, markNamed_canonical,
    modCore_canonical, pure_canonical, sprinkleCheck_canonical]

theorem rejoinCatch_canonical {s : State} (c : Nat) (i : Instr) (h : Canonical s) : Canonical (s.rejoinCatch c i) := by
  unfold State.rejoinCatch
  grind [rejoin_canonical]

theorem shareBlock_canonical {s : State} (c : Nat) (x : Core) (h : Canonical s) : Canonical (s.shareBlock c x) := by
  unfold State.shareBlock
  grind [foldl_canonical, onHolder_canonical]

theorem afterInstr_canonical {s : State} (c : Nat) (x : Core) (i : Instr) (w : BitVec 32) (b : Option Block)
    (h : Canonical s) : Canonical (s.afterInstr c x i w b) := by
  unfold State.afterInstr
  grind [foldl_canonical, onCore_canonical, onHolder_canonical, rejoinCatch_canonical, shareBlock_canonical]

theorem runInstr_canonical {s : State} (i : Instr) (w : BitVec 32) (b : Option Block) (h : Canonical s) :
    NextCanonical (s.runInstr i w b) := by
  unfold State.runInstr
  intro t ht
  have hf := fun srcs r => run_canonical (followLeader_canonical i srcs r) h
  have he := exec_canonical i (setCore_canonical (s.core.beforeInstr i b) h)
  grind [NextCanonical, afterInstr_canonical]

theorem fetchAndRun_canonical {s : State} (h : Canonical s) : NextCanonical s.fetchAndRun := by
  have hf := fetchStage_canonical s h
  unfold State.fetchAndRun
  grind [next_canonical, runInstr_canonical]

theorem runAgain_canonical {s : State} (h : Canonical s) : NextCanonical s.runAgain := by
  unfold State.runAgain
  grind [runInstr_canonical, run_canonical, next_canonical]

/-! ## The turn of a core -/

theorem takeDue_canonical {s : State} (c code : Nat) (val : Word) (h : Canonical s) :
    Canonical (s.takeDue c code val) := by
  unfold State.takeDue
  grind [consume_canonical, endTrail_canonical, logCore_canonical, onCore_canonical, takeTrap_canonical]

theorem waitTurn_canonical {s : State} (h : Canonical s) : NextCanonical s.waitTurn := by
  have hr := runFlight_canonical 0 h
  unfold State.waitTurn
  grind [NextCanonical, next_canonical, onCore_canonical]

theorem runningTurn_canonical {s : State} (h : Canonical s) : NextCanonical s.runningTurn := by
  unfold State.runningTurn
  grind [fetchAndRun_canonical, runAgain_canonical, setCore_canonical, takeDue_canonical, waitTurn_canonical,
    run_canonical, next_canonical]

theorem endingTurn_canonical {s : State} (h : Canonical s) : NextCanonical s.endingTurn := by
  have he := exec_canonical (.activationCommit s.cur) h
  unfold State.endingTurn
  grind [NextCanonical, onCore_canonical, waitTurn_canonical]

theorem idleTurn_canonical {s : State} (h : Canonical s) : NextCanonical s.idleTurn := by
  unfold State.idleTurn
  grind [exec_canonical, runFlight_canonical, run_canonical, next_canonical]

theorem coreTurn_canonical {s : State} (h : Canonical s) : NextCanonical s.coreTurn := by
  unfold State.coreTurn
  grind [endingTurn_canonical, idleTurn_canonical, runFlight_canonical, runningTurn_canonical, run_canonical,
    next_canonical]

/-! ## The turn of the machine -/

theorem act_canonical {s : State} (t : Turn) (h : Canonical s) : NextCanonical (s.act t) := by
  unfold State.act
  grind [Canonical, advance_canonical, coreTurn_canonical, exec_canonical, runFlight_canonical, run_canonical,
    next_canonical]

theorem turn_canonical {s : State} (h : Canonical s) : NextCanonical s.turn := by
  unfold State.turn
  split
  · exact fun _ e => nomatch e
  · split
    · exact act_canonical _ h
    · exact act_canonical _ h

/-! ## Placing an instruction (log 7 DESIGN CHOICE) -/

theorem step_canonical {s : State} (h : Canonical s) : NextCanonical (step s) := by
  unfold step
  grind [turn_canonical, run_canonical, next_canonical]

/-- Settles O59: a step is a turn of the machine, and every function a turn runs keeps `Canonical`. -/
theorem stepKeepsCanonical : Obligations.StepKeepsCanonical := by
  unfold Obligations.StepKeepsCanonical
  exact fun s t h ht => step_canonical h t ht

end Sys2Proof.Machine

end

section
/-!
PROOFS. Words that are no instruction: the decoder finds a word reserved where Table 1.9 does, and the word traps.
-/
namespace Sys2Proof

/-! ## Operands (Table 1.9, checks 6 to 8) -/

section Operands
variable {α β γ δ : Type} (a : Option α) (b : Option β) (c : Option γ) (d : Option δ)

/-- An operand makes a word illegal, never reserved. -/
@[simp] theorem ok1_ne_reserved (k : α → Instr) : ok1 a k ≠ .error .reserved := by
  cases a <;> nofun
@[simp] theorem ok2_ne_reserved (k : α → β → Instr) : ok2 a b k ≠ .error .reserved := by
  cases a <;> cases b <;> nofun
@[simp] theorem ok3_ne_reserved (k : α → β → γ → Instr) : ok3 a b c k ≠ .error .reserved := by
  cases a <;> cases b <;> cases c <;> nofun
@[simp] theorem ok4_ne_reserved (k : α → β → γ → δ → Instr) : ok4 a b c d k ≠ .error .reserved := by
  cases a <;> cases b <;> cases c <;> cases d <;> nofun

end Operands

/-! ## The functions that a major lists (Table 1.7) -/

/-- A major decodes its functions below n, and finds the others reserved. -/
def Lists (dec : BitVec 32 → Decoded) (n : Nat) : Prop := ∀ w, dec w = .error .reserved ↔ n ≤ (wFn w).toNat

theorem lists_sa : Lists decSa 16 := by
  intro w; unfold decSa; split <;> simp [*]; grind
theorem lists_sb : Lists decSb 16 := by
  intro w; unfold decSb; split <;> simp [*]; grind
theorem lists_sw : Lists decSw 12 := by
  intro w; unfold decSw; split <;> simp [*]; grind
theorem lists_br : Lists decBr 9 := by
  intro w; unfold decBr; split <;> simp [*]; grind
theorem lists_jx : Lists decJx 3 := by
  intro w; unfold decJx; split <;> simp [*]; grind
theorem lists_pr : Lists decPr 8 := by
  intro w; unfold decPr; split <;> simp [*]; grind
theorem lists_ld : Lists decLd 11 := by
  intro w; unfold decLd; split <;> simp [*]; grind
theorem lists_st : Lists decSt 9 := by
  intro w; unfold decSt; split <;> simp [*]; grind
theorem lists_at : Lists decAt 14 := by
  intro w; unfold decAt; split <;> simp [*]; grind
theorem lists_atw : Lists decAtw 14 := by
  intro w; unfold decAtw; split <;> simp [*]; grind
theorem lists_va : Lists decVa 13 := by
  intro w; unfold decVa; split <;> simp [*]; grind
theorem lists_vi : Lists decVi 14 := by
  intro w; unfold decVi; split <;> simp [*]; grind
theorem lists_vc : Lists decVc 8 := by
  intro w; unfold decVc; split <;> simp [*]; grind
theorem lists_vx : Lists decVx 16 := by
  intro w; unfold decVx; split <;> simp [*]; grind
theorem lists_vr : Lists decVr 8 := by
  intro w; unfold decVr; split <;> simp [*]; grind
theorem lists_vg : Lists decVg 7 := by
  intro w; unfold decVg; split <;> simp [*]; grind
theorem lists_mx : Lists decMx 10 := by
  intro w; unfold decMx; split <;> simp [*]; grind
theorem lists_cp : Lists decCp 8 := by
  intro w; unfold decCp; split <;> simp [*]; grind
theorem lists_ms : Lists decMs 7 := by
  intro w; unfold decMs; split <;> simp [*]; grind
theorem lists_tk : Lists decTk 7 := by
  intro w; unfold decTk; split <;> simp [*]; grind
theorem lists_tg : Lists decTg 5 := by
  intro w; unfold decTg; split <;> simp [*]; grind
theorem lists_gm : Lists decGm 10 := by
  intro w; unfold decGm; split <;> simp [*]; grind
theorem lists_fg : Lists decFg 5 := by
  intro w; unfold decFg; split <;> simp [*]; grind
theorem lists_ch : Lists decCh 6 := by
  intro w; unfold decCh; split <;> simp [*]; grind
theorem lists_rg : Lists decRg 4 := by
  intro w; unfold decRg; split <;> simp [*]; grind
theorem lists_qp : Lists decQp 3 := by
  intro w; unfold decQp; split <;> simp [*]; grind
theorem lists_gl : Lists decGl 6 := by
  intro w; unfold decGl; split <;> simp [*]; grind
theorem lists_pg : Lists decPg 5 := by
  intro w; unfold decPg; split <;> simp [*]; grind
theorem lists_trl : Lists decTrl 3 := by
  intro w; unfold decTrl; split <;> simp [*]; grind

/-- Major 0x00 lists ten functions, by their number of ten bits. -/
theorem decSys_reserved (w : BitVec 32) : decSys w = .error .reserved ↔ 10 ≤ (xFn w).toNat := by
  unfold decSys; split <;> simp [*]; grind

/-- A fence has two bits for its kind, and each of the four is listed. -/
theorem decFence_ne_reserved (w : BitVec 32) : decFence w ≠ .error .reserved := by
  have := (fKind w).isLt
  unfold decFence; split <;> simp; grind

/-- A shift by an amount has two bits for its function, and each of the four is listed. -/
theorem decSiSh_ne_reserved (w : BitVec 32) : decSiSh w ≠ .error .reserved := by
  have := (shFn w).isLt
  unfold decSiSh; split <;> simp; grind

/-! ## Reserved words (Table 1.9, checks 2 to 5) -/

theorem reservedWord_iff (w : BitVec 32) : reservedWord w = true ↔ listedFns.getD (wOp w).toNat 0 ≤ namedFn w := by
  simp [reservedWord]

section Reserved
variable {w : BitVec 32} {k n : Nat} {d : Decoded}

/-- A major that lists several functions: the others are reserved. -/
theorem reserved_iff_of_lists {dec : BitVec 32 → Decoded} (hl : Lists dec n) (h : (wOp w).toNat = k)
    (hn : listedFns.getD k 0 = n := by rfl) (hk : 2 ≤ k := by decide) (h1 : n ≠ 1 := by decide) :
    dec w = .error .reserved ↔ reservedWord w = true := by
  have hfn : namedFn w = (wFn w).toNat := by
    unfold namedFn
    split
    · omega
    · omega
    · rw [h, hn, if_neg h1]
  rw [reservedWord_iff, h, hn, hfn]
  exact hl w

/-- A major that lists a single word has no reserved one. -/
theorem reserved_iff_of_single (hd : d ≠ .error .reserved) (h : (wOp w).toNat = k) (hn : listedFns.getD k 0 = 1 := by rfl)
    (hk : 2 ≤ k := by decide) : d = .error .reserved ↔ reservedWord w = true := by
  have hfn : namedFn w = 0 := by
    unfold namedFn
    split
    · omega
    · omega
    · rw [h, hn, if_pos rfl]
  refine iff_of_false hd ?_
  rw [reservedWord_iff, h, hn, hfn]
  decide

/-- Major 0x00 names its function by ten bits. -/
theorem reserved_iff_sys (h : (wOp w).toNat = 0) : decSys w = .error .reserved ↔ reservedWord w = true := by
  rw [decSys_reserved, reservedWord_iff]
  simp [namedFn, h, listedFns]

/-- Major 0x01 names its function by ten bits too, of which a fence uses four. -/
theorem reserved_iff_fence (h : (wOp w).toNat = 1) :
    (if (xFn w).toNat > 15 then .error .reserved else decFence w) = .error .reserved ↔ reservedWord w = true := by
  rw [reservedWord_iff]
  simp only [namedFn, h, listedFns]
  split
  · exact iff_of_true rfl (by assumption)
  · exact iff_of_false (decFence_ne_reserved w) (by assumption)

/-- si.sh is illegal where the bits between its fields are not zero (Table 1.9, check 8). -/
theorem siSh_ne_reserved (w : BitVec 32) :
    (if (iImm w).extractLsb' 6 6 = 0 then decSiSh w else .error .illegal) ≠ .error .reserved := by
  split
  · exact decSiSh_ne_reserved w
  · nofun

/-- lp.do is illegal where its unused field is not zero. -/
theorem lpDo_ne_reserved (w : BitVec 32) :
    (if iRd w = 0 then ok2 (some (iRs w)) (some (iImm w)) .lpDo else .error .illegal) ≠ .error .reserved := by
  split
  · simp
  · nofun

/-- A major that Table 1.7 does not list has reserved words alone. -/
theorem reservedWord_of_unlisted (h : 42 ≤ (wOp w).toNat) : reservedWord w = true := by
  have hn : listedFns.getD (wOp w).toNat 0 = 0 := List.getD_eq_default _ _ h
  rw [reservedWord_iff, hn]
  exact Nat.zero_le _

end Reserved

/-- The decoder finds a word reserved exactly where the table does: major by major, in the order of decodeWord. -/
theorem decodeWord_reserved_iff (w : BitVec 32) : decodeWord w = .error .reserved ↔ reservedWord w = true := by
  unfold decodeWord
  split <;> rename_i h
  exacts [reserved_iff_sys h, reserved_iff_fence h, reserved_iff_of_lists lists_sa h, reserved_iff_of_lists lists_sb h,
    reserved_iff_of_lists lists_sw h, reserved_iff_of_single (by simp) h, reserved_iff_of_single (by simp) h,
    reserved_iff_of_single (by simp) h, reserved_iff_of_single (by simp) h, reserved_iff_of_single (siSh_ne_reserved w) h,
    reserved_iff_of_single (by simp) h, reserved_iff_of_single (by simp) h, reserved_iff_of_single (by simp) h,
    reserved_iff_of_lists lists_br h, reserved_iff_of_single (by simp) h, reserved_iff_of_single (by simp) h,
    reserved_iff_of_lists lists_jx h, reserved_iff_of_single (lpDo_ne_reserved w) h, reserved_iff_of_lists lists_pr h,
    reserved_iff_of_lists lists_ld h, reserved_iff_of_lists lists_st h, reserved_iff_of_lists lists_at h,
    reserved_iff_of_lists lists_atw h, reserved_iff_of_lists lists_va h, reserved_iff_of_lists lists_vi h,
    reserved_iff_of_lists lists_vc h, reserved_iff_of_lists lists_vx h, reserved_iff_of_lists lists_vr h,
    reserved_iff_of_lists lists_vg h, reserved_iff_of_lists lists_mx h, reserved_iff_of_lists lists_cp h,
    reserved_iff_of_lists lists_ms h, reserved_iff_of_lists lists_tk h, reserved_iff_of_lists lists_tg h,
    reserved_iff_of_lists lists_gm h, reserved_iff_of_lists lists_fg h, reserved_iff_of_lists lists_ch h,
    reserved_iff_of_lists lists_rg h, reserved_iff_of_lists lists_qp h, reserved_iff_of_lists lists_gl h,
    reserved_iff_of_lists lists_pg h, reserved_iff_of_lists lists_trl h, iff_of_true rfl (reservedWord_of_unlisted (by grind))]

end Sys2Proof

namespace Sys2Proof.Machine

/-- A word's major is its highest six bits. -/
theorem wOp_toNat (w : BitVec 32) : (wOp w).toNat = w.toNat / 2 ^ 26 := by
  simp only [wOp, BitVec.extractLsb'_toNat, Nat.shiftRight_eq_div_pow]
  omega

/-- A word that is no instruction traps, and is the value of the trap. -/
theorem undefinedEncoding_ends (s : State) (w : BitVec 32) :
    Ends (.undefinedEncoding w) s ((s.setCore { s.core with ir := w }).takeTrap s.cur (if reservedWord w then 0x02 else 0x01)
      s.core.pc (w.setWidth 64)) := by
  have hexec : exec (.undefinedEncoding w) s = execUndefinedEncoding w s := rfl
  rw [Ends, hexec, execUndefinedEncoding]
  exact run_error (by rw [bind_ok (modCore_at _), trap_at, setCore_cur, core_setCore])

/-- Settles O30: the decoder and Table 1.9 agree major by major, and either kind of word takes its trap. -/
theorem undefinedWords : Obligations.UndefinedWords := by
  intro s w u
  have htrap := undefinedEncoding_ends s w
  refine ⟨decodeWord_reserved_iff w, fun h => reservedWord_of_unlisted (by rw [wOp_toNat]; exact h), fun h => ?_, fun h => ?_,
    run_error rfl⟩
  · simpa [h] using htrap
  · simpa [h] using htrap

end Sys2Proof.Machine
end

section
/-!
PROOFS. What a scalar instruction leaves unchanged: not the marks of a load of host memory, which every retirement clears.
-/
namespace Sys2Proof.Machine

/-- A retired instruction has put an end to a wait for host memory. -/
theorem withS_hostWait (s : State) (rd : SReg) (srcs : List SReg) (w : Word) : (s.withS rd srcs w).core.hostWait = false := by
  simp [State.withS]

/-- What SameRest keeps includes the mark of a core that waits for host memory. -/
theorem SameRest.hostWait {c d : Core} (h : SameRest c d) : d.hostWait = c.hostWait := by
  unfold SameRest at h
  rw [h]

/-- li.hi to a register other than a port retires in every state. -/
theorem liHi_retires (s : State) {rd : SReg} (imm : BitVec 20) (h : portOf rd = none) :
    exec (.liHi rd imm) s = .next (s.withS rd [] (imm.signExtend 64 <<< 14)) := by
  have hports : openPorts (some rd) [] s = .ok ((), s) := openPorts_none s (by simp [portsOf, h])
  exact run_ok ((bind_ok hports).trans (finishS_at ..))

/-- A machine of one core, whose running activation waits for a load of host memory. -/
def hostWaiting : State := { cores := [(0, { phase := .running, ctx := some 0, hostWait := true })] }

/-- Refutes O5: an instruction that retires clears the marks of a load of host memory, hostWait and hostRd, and SameRest keeps them.
On a core that waits for host memory, li.hi s1, 0 names no port and retires, and hostWait falls from true to false. -/
theorem not_scalarFrame : ¬ Obligations.ScalarFrame := by
  intro h
  have hretired : (hostWaiting.withS 1 [] ((0 : BitVec 20).signExtend 64 <<< 14)).core.icount = hostWaiting.core.icount + 1 := by
    simp [State.withS, State.putS, portOf, Core.dequeue]
  have hframe := h (.liHi 1 0) 1 [] hostWaiting _ rfl rfl (liHi_retires hostWaiting 0 rfl) hretired
  have hwait := hframe.rest.hostWait
  rw [withS_hostWait] at hwait
  exact absurd hwait (by decide)

end Sys2Proof.Machine
end

section
/-!
PROOFS. The steps of an activation and of a context on a core: dispatch, commit, halt and the swap of a local store.
-/
namespace Sys2Proof.Machine

/-! ## The cores of a state after an update -/

section Updates
variable (s : State) (c k : Nat) (f : Core → Core)

@[simp] theorem coreAt_onCore_same : (s.onCore c f).coreAt c = f (s.coreAt c) := by simp [State.onCore]
theorem coreAt_onCore_ne {d : Nat} (h : c ≠ d) : (s.onCore c f).coreAt d = s.coreAt d := coreAt_setCoreAt_ne s c _ h
@[simp] theorem onCore_onCore (g : Core → Core) : (s.onCore c f).onCore c g = s.onCore c fun x => g (f x) := by
  simp [State.onCore, State.setCoreAt, State.coreAt]
@[simp] theorem coreAt_unpin (ls : List Nat) : (s.unpin ls).coreAt c = s.coreAt c := rfl
@[simp] theorem coreAt_leavePins : (s.leavePins k).coreAt c = s.coreAt c := rfl

end Updates

/-! ## Refilling inboxes (R294) -/

/-- Cores differ in their inboxes alone. -/
structure InboxesOnly (s t : State) : Prop where
  cores : ∀ c, ∃ b, t.coreAt c = { s.coreAt c with inbox := b }

theorem InboxesOnly.refl (s : State) : InboxesOnly s s := ⟨fun _ => ⟨_, rfl⟩⟩

theorem InboxesOnly.trans {s t u : State} (h : InboxesOnly s t) (h' : InboxesOnly t u) : InboxesOnly s u := by
  refine ⟨fun c => ?_⟩
  obtain ⟨b, hb⟩ := h.cores c
  obtain ⟨b', hb'⟩ := h'.cores c
  exact ⟨b', by rw [hb', hb]⟩

theorem onCore_inboxesOnly (s : State) (c : Nat) (f : Core → List Msg) :
    InboxesOnly s (s.onCore c fun x => { x with inbox := f x }) := by
  refine ⟨fun d => ?_⟩
  by_cases h : c = d
  · subst h
    exact ⟨_, coreAt_onCore_same ..⟩
  · exact ⟨_, coreAt_onCore_ne _ _ _ h⟩

theorem refillCore_inboxesOnly (s : State) (c n : Nat) : InboxesOnly s (s.refillCore c n) := by
  induction n generalizing s with
  | zero => exact .refl s
  | succ n ih =>
    unfold State.refillCore
    split
    · exact .refl s
    · split
      · exact .refl s
      · exact InboxesOnly.trans ⟨(onCore_inboxesOnly (s.onCluster _ _) c _).cores⟩ (ih _)

theorem refillCluster_inboxesOnly (s : State) (k n : Nat) : InboxesOnly s (s.refillCluster k n) := by
  induction n generalizing s with
  | zero => exact .refl s
  | succ n ih =>
    unfold State.refillCluster
    split
    · exact .refl s
    · split
      · exact .refl s
      · exact ⟨(ih _).cores⟩

theorem refill_inboxesOnly (s : State) (c : Nat) : InboxesOnly s (s.refill c) :=
  ((refillCore_inboxesOnly ..).trans (refillCluster_inboxesOnly ..)).trans (refillCore_inboxesOnly ..)

/-! ## Dispatch (R13, R291, R292) -/

/-- A core that may start an activation is resident for its context. -/
theorem canStart_resident {s : State} {c ctx : Nat} (h : canStart s c = some ctx) : (s.coreAt c).ctx = some ctx := by
  unfold canStart at h
  dsimp only at h
  split at h
  · cases h
  · rename_i x hx
    split at h
    · rw [hx, h]
    · cases h

/-- The payload of the trigger is in m0 to m7 (R13). -/
theorem openScalars_payload (tick : Nat) (pay : List Word) (ta : Word) (i : Fin 8) :
    (openScalars tick pay ta)[48 + i.val] = pay.getD i 0 := by
  have hi : 48 ≤ 48 + i.val ∧ 48 + i.val < 56 := by omega
  simp [openScalars, hi]

/-- A core whose scalar registers are those of a dispatch holds the payload in m0 to m7 (R13). -/
theorem getS_payload {x : Core} {tick : Nat} {pay : List Word} {ta : Word} (h : x.s = openScalars tick pay ta) (i : Fin 8) :
    x.getS (BitVec.ofNat 6 (48 + i)) = pay.getD i 0 := by
  have hn : (BitVec.ofNat 6 (48 + i.val)).toNat = 48 + i.val := by rw [BitVec.toNat_ofNat]; omega
  have h0 : BitVec.ofNat 6 (48 + i.val) ≠ 0 := fun h => by rw [h] at hn; simp at hn; omega
  unfold Core.getS
  rw [if_neg h0]
  simp only [hn, h]
  exact openScalars_payload ..

section Begin
variable (x : Core) (tick ctx : Nat) (y : Ctx) (ts : TagState) (m : Msg)

@[simp] theorem begin_phase : (x.begin tick ctx y ts m).phase = .running := by simp only [Core.begin]
@[simp] theorem begin_ctx : (x.begin tick ctx y ts m).ctx = x.ctx := by simp only [Core.begin]
@[simp] theorem begin_rev : (x.begin tick ctx y ts m).rev = (m.kind != 1) := by simp only [Core.begin]
@[simp] theorem begin_trig : (x.begin tick ctx y ts m).trig = m := by simp only [Core.begin]
@[simp] theorem begin_frm : (x.begin tick ctx y ts m).frm = 0 := by simp only [Core.begin]
@[simp] theorem begin_fflags : (x.begin tick ctx y ts m).fflags = 0 := by simp only [Core.begin]
@[simp] theorem begin_gdim : (x.begin tick ctx y ts m).gdim = 1 := by simp only [Core.begin]
@[simp] theorem begin_lp : (x.begin tick ctx y ts m).lp = {} := by simp only [Core.begin]
@[simp] theorem begin_vprog : (x.begin tick ctx y ts m).vprog = 0 := by simp only [Core.begin]
@[simp] theorem begin_tlv : (x.begin tick ctx y ts m).tlv = 0 := by simp only [Core.begin]
@[simp] theorem begin_icount : (x.begin tick ctx y ts m).icount = 0 := by simp only [Core.begin]
@[simp] theorem begin_pend : (x.begin tick ctx y ts m).pend = [] := by simp only [Core.begin]
@[simp] theorem begin_cbuf : (x.begin tick ctx y ts m).cbuf = [] := by simp only [Core.begin]
@[simp] theorem begin_seq : (x.begin tick ctx y ts m).seq = x.seq + 1 := by simp only [Core.begin]
@[simp] theorem begin_rtag : (x.begin tick ctx y ts m).rtag = rtagOf m := by simp only [Core.begin]
@[simp] theorem begin_tvec : (x.begin tick ctx y ts m).tvec = y.ctvec := by simp only [Core.begin]
@[simp] theorem begin_csel : (x.begin tick ctx y ts m).csel = BitVec.ofNat 6 ctx := by simp only [Core.begin]
@[simp] theorem begin_pc : (x.begin tick ctx y ts m).pc = BitVec.ofNat 52 (handlerEntry ts m.hoff) := by
  simp only [Core.begin]
@[simp] theorem begin_s : (x.begin tick ctx y ts m).s = openScalars tick m.pay (if m.kind = 2 then m.pay.headD 0 else 0) := by
  simp only [Core.begin]

end Begin

/-- A core that begins an activation, with its inbox refilled. -/
theorem beginRefill_coreAt (s : State) (c ctx n : Nat) (ts : TagState) (m : Msg) : ∃ b,
    ((s.onCore c fun x => { x.begin s.tick ctx (s.ctxAt ctx) ts m with started := n }).refill c).coreAt c =
      { (s.coreAt c).begin s.tick ctx (s.ctxAt ctx) ts m with started := n, inbox := b } := by
  obtain ⟨b, hb⟩ := (refill_inboxesOnly (s.onCore c fun x => { x.begin s.tick ctx (s.ctxAt ctx) ts m with started := n }) c).cores c
  exact ⟨b, by rw [hb, coreAt_onCore_same]⟩

/-- The core on which an activation starts. -/
theorem start_coreAt (s : State) (c ctx : Nat) (m : Msg) : ∃ y n b, y.ctvec = (s.ctxAt ctx).ctvec ∧
    (s.start c ctx m).coreAt c =
      { (s.coreAt c).begin s.tick ctx y (Tbl.getD (tagsOf s c ctx).tags m.tag {}) m with started := n, inbox := b } := by
  unfold State.start
  dsimp only
  split
  · obtain ⟨b, hb⟩ := beginRefill_coreAt (s.onCtx ctx fun y => { y with enote := false }) c ctx s.pkg.cyc.toNat
      (Tbl.getD (tagsOf s c ctx).tags m.tag {}) m
    exact ⟨_, _, b, by rw [ctxAt_onCtx_same], hb⟩
  · obtain ⟨b, hb⟩ := beginRefill_coreAt s c ctx s.pkg.cyc.toNat (Tbl.getD (tagsOf s c ctx).tags m.tag {}) m
    exact ⟨_, _, b, rfl, hb⟩

/-- The state in which a head message starts: it has left the inbox, and its tag is the one of its level served last (R291). -/
def State.served (s : State) (c ctx tag best : Nat) (m : Msg) : State :=
  (s.onCore c fun x => { x with inbox := x.inbox.erase m }).onTags c ctx fun t => { t with rr := t.rr.set best tag }

theorem take_eq_start {s : State} {m : Msg} (c ctx tag best : Nat) (h : wantsSlot s m = false) :
    s.take c ctx tag best m = (s.served c ctx tag best m).start c ctx m := by
  simp [State.take, h, State.served]

section Served
variable (s : State) (c ctx tag best : Nat) (m : Msg)

@[simp] theorem served_ctxAt (k : Nat) : (s.served c ctx tag best m).ctxAt k = s.ctxAt k := rfl
@[simp] theorem served_ctx : ((s.served c ctx tag best m).coreAt c).ctx = (s.coreAt c).ctx := by
  simp [State.served, State.onTags]
@[simp] theorem served_seq : ((s.served c ctx tag best m).coreAt c).seq = (s.coreAt c).seq := by
  simp [State.served, State.onTags]
@[simp] theorem served_tags : (tagsOf (s.served c ctx tag best m) c ctx).tags = (tagsOf s c ctx).tags := by
  simp [State.served, State.onTags, tagsOf]

end Served

section Dispatch
variable {s : State} {c ctx tag best : Nat} {m : Msg} {rest : List Msg}

/-- A dispatch takes the oldest message of the chosen tag. -/
theorem dispatch_eq_take (hstart : canStart s c = some ctx)
    (htag : chooseTag (candidates (s.refill c) c ctx) (tagsOf (s.refill c) c ctx).rr = some (tag, best))
    (hm : ofTag ctx tag ((s.refill c).coreAt c).inbox = m :: rest) : s.dispatch c = (s.refill c).take c ctx tag best m := by
  simp [State.dispatch, hstart, htag, hm]

/-- The core on which a message that wants no footprint starts. -/
theorem dispatch_coreAt (hstart : canStart s c = some ctx)
    (htag : chooseTag (candidates (s.refill c) c ctx) (tagsOf (s.refill c) c ctx).rr = some (tag, best))
    (hm : ofTag ctx tag ((s.refill c).coreAt c).inbox = m :: rest) (hslot : wantsSlot (s.refill c) m = false) :
    ∃ (x : Core) (k : Nat) (y : Ctx) (n : Nat) (b : List Msg), x.ctx = some ctx ∧ x.seq = (s.coreAt c).seq ∧
      y.ctvec = ((s.refill c).ctxAt ctx).ctvec ∧
      (s.dispatch c).coreAt c =
        { x.begin k ctx y (Tbl.getD (tagsOf (s.refill c) c ctx).tags m.tag {}) m with started := n, inbox := b } := by
  obtain ⟨i, hi⟩ := (refill_inboxesOnly s c).cores c
  obtain ⟨y, n, b, hvec, hx⟩ := start_coreAt ((s.refill c).served c ctx tag best m) c ctx m
  rw [served_ctxAt] at hvec
  rw [served_tags] at hx
  refine ⟨((s.refill c).served c ctx tag best m).coreAt c, ((s.refill c).served c ctx tag best m).tick, y, n, b, ?_, ?_, hvec, ?_⟩
  · rw [served_ctx, hi]
    exact canStart_resident hstart
  · rw [served_seq, hi]
  · rw [dispatch_eq_take hstart htag hm, take_eq_start c ctx tag best hslot, hx]

end Dispatch

/-! ## Commit (R280, R300, R306) -/

section Commit
variable {s : State} {c : Nat}

/-- A buffer without items is released, and leaves the machine as it is. -/
theorem releaseBuffer_empty (hbuf : (s.coreAt c).cbuf = []) (hcalm : (s.coreAt c).calm = true) :
    s.releaseBuffer c = (s.onCore c fun x => { x with cbuf := [] }, true) := by
  simp [State.releaseBuffer, releaseList, releaseAll, releaseRounds, hbuf, hcalm]

/-- A trigger without a key is that of no ordered activation: it waits for no earlier one (R300). -/
theorem isHead_of_no_key (s : State) {m : Msg} (h : m.key = none) : isHead s m = true := by simp [isHead, h]

theorem settleDomain_of_unordered (s : State) {m : Msg} (h : m.ord = false) : s.settleDomain m = s := by
  simp [State.settleDomain, h]

/-- The trigger of a message whose activation has ended well leaves nothing to do. -/
theorem settleTrigger_of_message (s : State) (c : Nat) {m : Msg} (h : m.kind = 0) : s.settleTrigger c m 0 = s := by
  simp [State.settleTrigger, h]

/-- The commit of an ended activation that holds nothing: the activation is over, and no more than its core changes, where the entries
of the barriers at which it arrived without waiting are closed (R312). -/
theorem commit_of_nothing_held (hphase : (s.coreAt c).phase = .ending 0) (hword : (s.coreAt c).word = none)
    (hbuf : (s.coreAt c).cbuf = []) (hcalm : (s.coreAt c).calm = true) (hkey : (s.coreAt c).trig.key = none)
    (hord : (s.coreAt c).trig.ord = false) (hkind : (s.coreAt c).trig.kind = 0) :
    ∃ bs, s.commit c = s.setCoreAt c { (s.coreAt c).ended with bars := bs } := by
  have hcommit : s.commit c = ((s.onCore c fun x => { x with cbuf := [] }).onCore c Core.ended).closeBars c (s.coreAt c).trig.ctx
      (s.coreAt c).arrived := by
    simp only [State.commit, hword, hphase, State.commitEnded, isHead_of_no_key s hkey, releaseBuffer_empty hbuf hcalm, if_true,
      State.committed, settleTrigger_of_message _ _ hkind, settleDomain_of_unordered _ hord]
  rw [hcommit, State.closeBars, onCore_onCore, onCore_onCore]
  exact ⟨_, rfl⟩

end Commit

/-! ## What a change of memory leaves of cores and contexts (R123, R258, R335) -/

theorem Tbl.getD_mapv {α : Type} (t : Tbl α) (k : Nat) {f : Nat → α → α} {d : α} (h : f k d = d) :
    Tbl.getD (Tbl.mapv t f) k d = f k (Tbl.getD t k d) := by
  induction t with
  | nil => exact h.symm
  | cons e rest ih =>
    by_cases hk : e.1 = k
    · simp [Tbl.mapv, Tbl.getD, hk]
    · simpa [Tbl.mapv, Tbl.getD, hk] using ih

/-- Cores differ in their caches and the monitors of their local stores alone, and every context has the same saved cores. -/
structure CachesOnly (s t : State) : Prop where
  cores : ∀ c, ∃ a i m, t.coreAt c = { s.coreAt c with l1 := a, l1i := i, lmon := m }
  saves : ∀ k, (t.ctxAt k).saves = (s.ctxAt k).saves

theorem CachesOnly.of_same {s t : State} (hc : t.cores = s.cores) (hx : t.ctxs = s.ctxs) : CachesOnly s t :=
  ⟨fun c => ⟨(s.coreAt c).l1, (s.coreAt c).l1i, (s.coreAt c).lmon, by rw [State.coreAt, hc]; rfl⟩,
    fun k => by rw [State.ctxAt, hx]; rfl⟩

theorem CachesOnly.refl (s : State) : CachesOnly s s := .of_same rfl rfl

theorem CachesOnly.trans {s t u : State} (h : CachesOnly s t) (h' : CachesOnly t u) : CachesOnly s u := by
  refine ⟨fun c => ?_, fun k => (h'.saves k).trans (h.saves k)⟩
  obtain ⟨a, i, m, hx⟩ := h.cores c
  obtain ⟨a', i', m', hx'⟩ := h'.cores c
  exact ⟨a', i', m', by rw [hx', hx]⟩

theorem foldl_cachesOnly {α : Type} {f : State → α → State} (h : ∀ s x, CachesOnly s (f s x)) (xs : List α) (s : State) :
    CachesOnly s (xs.foldl f s) := by
  induction xs generalizing s with
  | nil => exact .refl s
  | cons x rest ih => exact (h s x).trans (ih _)

section Changes
variable (s : State) (ctx line : Nat) (writer : Option Nat)

theorem dropL1_cachesOnly (target : Nat) : CachesOnly s (s.dropL1 line target writer) := by
  refine ⟨fun c => ?_, fun _ => rfl⟩
  unfold State.dropL1 State.coreAt
  dsimp only
  rw [Tbl.getD_mapv _ _ (by split <;> rfl)]
  split
  · exact ⟨_, _, _, rfl⟩
  · exact ⟨_, _, _, rfl⟩

theorem invalidate_cachesOnly : CachesOnly s (s.invalidate line writer) :=
  (foldl_cachesOnly (fun s t => dropL1_cachesOnly s line writer t) _ s).trans (.of_same rfl rfl)

theorem evictLine_cachesOnly : CachesOnly s (s.evictLine line) :=
  (foldl_cachesOnly (fun s t => dropL1_cachesOnly s line none t) _ s).trans (.of_same rfl rfl)

theorem fillL2_cachesOnly (pa : Nat) : CachesOnly s (s.fillL2 pa) := by
  unfold State.fillL2
  dsimp only
  split
  · exact .refl s
  · split
    · exact .of_same rfl rfl
    · exact (evictLine_cachesOnly s _).trans (.of_same rfl rfl)
    · exact .refl s

theorem count_cachesOnly (die pa : Nat) (wr : Bool) : CachesOnly s (s.count ctx die pa wr) := by
  unfold State.count
  split
  · exact .refl s
  · dsimp only
    split
    · exact .of_same rfl rfl
    · exact .of_same rfl rfl

theorem stampFor_cores_ctxs (tenant pa : Nat) (whole : Bool) :
    (s.stampFor tenant pa whole).cores = s.cores ∧ (s.stampFor tenant pa whole).ctxs = s.ctxs := by
  unfold State.stampFor
  dsimp only
  split <;> split <;> exact ⟨rfl, rfl⟩

theorem stamp_cachesOnly (pa : Nat) (whole : Bool) : CachesOnly s (s.stamp ctx pa whole) :=
  .of_same (stampFor_cores_ctxs ..).1 (stampFor_cores_ctxs ..).2

theorem tampered_saves (x : Ctx) (pa : Nat) : (x.tampered pa).saves = x.saves := by
  unfold Ctx.tampered
  dsimp only
  split <;> rfl

theorem tamper_cachesOnly (pa : Nat) : CachesOnly s (s.tamper pa) := by
  unfold State.tamper
  split
  · exact .refl s
  · refine ⟨fun c => ⟨_, _, _, rfl⟩, fun k => ?_⟩
    unfold State.ctxAt
    dsimp only
    rw [Tbl.getD_mapv _ _ (by simp [Ctx.tampered, Tbl.has]), tampered_saves]

theorem sendWake_cachesOnly (w : WatchReq) (v : Word) (status : Nat) : CachesOnly s (s.sendWake w v status) := by
  unfold State.sendWake
  split
  · exact .of_same rfl rfl
  · exact .of_same rfl rfl

theorem onCore_lmon_cachesOnly (c : Nat) (ws : List WatchReq) : CachesOnly s (s.onCore c fun x => { x with lmon := ws }) := by
  refine ⟨fun d => ?_, fun _ => rfl⟩
  by_cases h : c = d
  · subst h
    exact ⟨_, _, _, coreAt_onCore_same ..⟩
  · exact ⟨_, _, _, coreAt_onCore_ne _ _ _ h⟩

theorem fireOwn_cachesOnly (c : Nat) : CachesOnly s (s.fireOwn line c) := by
  unfold State.fireOwn
  dsimp only
  split
  · exact .refl s
  · exact (onCore_lmon_cachesOnly s c _).trans (foldl_cachesOnly (fun s (w : WatchReq × Word) => sendWake_cachesOnly s w.1 w.2 0) _ _)

theorem fireMonitors_cachesOnly (pa : Nat) : CachesOnly s (s.fireMonitors pa) := by
  unfold State.fireMonitors
  refine CachesOnly.trans ?_ (foldl_cachesOnly (fun s c => fireOwn_cachesOnly s _ c) _ _)
  refine CachesOnly.trans ?_ (foldl_cachesOnly (fun s (w : WatchReq × Word) => sendWake_cachesOnly s w.1 w.2 0) _ _)
  exact .of_same rfl rfl

/-- What follows from a change of a line changes caches and monitors, and marks save records as altered. -/
theorem lineChanged_cachesOnly (whole : Bool) : CachesOnly s (s.lineChanged ctx writer line whole) := by
  unfold State.lineChanged
  refine CachesOnly.trans ?_ (fireMonitors_cachesOnly ..)
  split
  · refine CachesOnly.trans ?_ (tamper_cachesOnly ..)
    refine CachesOnly.trans ?_ (stamp_cachesOnly ..)
    cases writer with
    | none => exact (fillL2_cachesOnly ..).trans (invalidate_cachesOnly ..)
    | some c => exact ((fillL2_cachesOnly ..).trans (invalidate_cachesOnly ..)).trans (count_cachesOnly ..)
  · exact .refl s

theorem perform_cachesOnly (pa : Nat) (bs : List Byte) : CachesOnly s (s.perform ctx writer pa bs) :=
  CachesOnly.trans (t := s.writePa pa bs) (.of_same rfl rfl)
    (foldl_cachesOnly (fun s l => lineChanged_cachesOnly s ctx l writer _) _ _)

/-! ## Proofing stores (R336) -/

theorem proofEntry_cachesOnly (m : Msg) : CachesOnly s (s.proofEntry ctx m) := by
  unfold State.proofEntry
  dsimp only
  split
  · exact perform_cachesOnly ..
  · exact .refl s

/-- A change of a context that leaves its saved cores. -/
theorem onCtx_cachesOnly {f : Ctx → Ctx} (h : ∀ x, (f x).saves = x.saves) : CachesOnly s (s.onCtx ctx f) := by
  refine ⟨fun c => ⟨_, _, _, rfl⟩, fun k => ?_⟩
  by_cases hk : ctx = k
  · subst hk
    rw [ctxAt_onCtx_same, h]
  · rw [ctxAt_onCtx_ne _ _ _ hk]

theorem proofed_cachesOnly (ms : List Msg) : CachesOnly s (s.proofed ctx ms) := by
  refine foldl_cachesOnly (fun s m => ?_) ms s
  refine (proofEntry_cachesOnly s ctx m).trans ?_
  exact onCtx_cachesOnly _ ctx fun _ => rfl

theorem preempted_cachesOnly : CachesOnly s (s.preempted ctx) := by
  unfold State.preempted
  refine CachesOnly.trans ?_ (onCtx_cachesOnly _ ctx fun _ => rfl)
  refine CachesOnly.trans ?_ (proofed_cachesOnly ..)
  exact .of_same rfl rfl

end Changes

/-! ## The halt of a core (R336) -/

@[simp] theorem Tbl.has_put_same {α : Type} (t : Tbl α) (k : Nat) (v : α) : Tbl.has (Tbl.put t k v) k = true := by
  induction t with
  | nil => simp [Tbl.put, Tbl.has]
  | cons e rest ih =>
    unfold Tbl.put
    split
    · simp [Tbl.has]
    · simpa [Tbl.has] using Or.inr (by simpa [Tbl.has] using ih)

/-- Without a pending result there is no window to close. -/
theorem closeWindows_of_no_pend {x : Core} (h : x.pend = []) : x.closeWindows = x := by
  rw [Core.closeWindows, Core.settle, h]
  change { x with pend := [] } = x
  rw [← h]

theorem parkWaiting_of_none {s : State} {c : Nat} (h : (s.coreAt c).word = none) : s.parkWaiting c = s := by
  simp [State.parkWaiting, h]

theorem parkFetching_of_none {s : State} {c : Nat} (h : (s.coreAt c).fetching = none) : s.parkFetching c = s := by
  simp [State.parkFetching, h]

/-- A core with an outgoing context, in the state in which its record and its messages are stored. -/
def State.saved (s : State) (c ctx : Nat) : State :=
  ((s.onCtx ctx fun y => { y with saves := Tbl.put y.saves c (s.coreAt c).record }).proofed ctx
    ((s.coreAt c).inbox.filter fun m => m.ctx == ctx)).onCore c fun x => x.vacated ctx

section Halt
variable {s : State} {c ctx : Nat}

/-- Saving a core for a context puts its record among those of the context. -/
theorem saved_saves (s : State) (c ctx : Nat) :
    ((s.saved c ctx).ctxAt ctx).saves = Tbl.put (s.ctxAt ctx).saves c (s.coreAt c).record := by
  rw [State.saved, onCore_ctxAt, (proofed_cachesOnly ..).saves, ctxAt_onCtx_same]

/-- A core that has been saved is idle, at trap level 0. -/
theorem saved_coreAt (s : State) (c ctx : Nat) :
    ((s.saved c ctx).coreAt c).phase = .idle ∧ ((s.saved c ctx).coreAt c).tlv = 0 := by
  rw [State.saved, coreAt_onCore_same]
  exact ⟨rfl, rfl⟩

section Idle
variable (hctx : (s.coreAt c).ctx = some ctx) (hstate : (s.ctxAt ctx).state = 1) (hsaves : Tbl.has (s.ctxAt ctx).saves c = false)
variable (hphase : (s.coreAt c).phase = .idle) (hword : (s.coreAt c).word = none) (hfetch : (s.coreAt c).fetching = none)
variable (hpend : (s.coreAt c).pend = []) (hcan : cannotHalt s ctx c = false)
include hctx hstate hsaves hphase hword hfetch hpend hcan

/-- An idle core that may halt, and holds nothing that is parked, is saved; the last core of its context ends the pre-emption. -/
theorem halt_of_idle : ∃ u : State, u.coreAt c = s.coreAt c ∧ u.ctxAt ctx = s.ctxAt ctx ∧
    s.halt c = if allHalted (u.saved c ctx) ctx then (u.saved c ctx).preempted ctx else u.saved c ctx := by
  have hclose : (s.onCore c Core.closeWindows).coreAt c = s.coreAt c := by
    rw [coreAt_onCore_same, closeWindows_of_no_pend hpend]
  have hrun : ¬((s.coreAt c).phase = .running ∧ (s.coreAt c).rev = true) := by simp [hphase]
  have hgo : ¬((s.ctxAt ctx).state ≠ 1 ∨ Tbl.has (s.ctxAt ctx).saves c = true) := by simp [hstate, hsaves]
  rw [← hclose] at hword hfetch
  refine ⟨((s.onCore c Core.closeWindows).unpin ((s.coreAt c).mx.queue.flatMap MxCmd.pins)).leavePins c, hclose, rfl, ?_⟩
  simp only [State.halt, hctx, if_neg hgo, hcan, if_neg hrun, parkWaiting_of_none hword, parkFetching_of_none hfetch, hclose,
    State.saved, coreAt_leavePins, coreAt_unpin, Bool.false_eq_true, if_false]

/-- The record of a core that halts idle is that of its state, and the core is idle at trap level 0. -/
theorem halt_of_idle_saves : ((s.halt c).ctxAt ctx).saves = Tbl.put (s.ctxAt ctx).saves c (s.coreAt c).record ∧
    ((s.halt c).coreAt c).phase = .idle ∧ ((s.halt c).coreAt c).tlv = 0 := by
  obtain ⟨u, hcore, hctxAt, hhalt⟩ := halt_of_idle hctx hstate hsaves hphase hword hfetch hpend hcan
  have hrest : CachesOnly (u.saved c ctx) (s.halt c) := by
    rw [hhalt]
    split
    · exact preempted_cachesOnly ..
    · exact .refl _
  obtain ⟨a, i, l, hx⟩ := hrest.cores c
  rw [hrest.saves, saved_saves, hcore, hctxAt, hx]
  exact ⟨rfl, saved_coreAt u c ctx⟩

end Idle

end Halt

/-! ## The swap of a local store (R338) -/

theorem stampAll_ctxs (s : State) (tenant a n : Nat) : (s.stampAll tenant a n).ctxs = s.ctxs := by
  unfold State.stampAll
  split
  · rfl
  · refine List.foldlRecOn _ _ (motive := fun t : State => t.ctxs = s.ctxs) rfl fun t ht i _ => ?_
    rw [(stampFor_cores_ctxs ..).2, ht]

/-- A byte of a region reads, where the region has been copied to, as it did in the original. -/
theorem Mem.read_copy (m : Mem) (src dst : Nat) {n k : Nat} (h : k < n) :
    (m.writeN dst (m.readN src n)).read (dst + k) = m.read (src + k) := by
  have hk : k < (m.readN src n).length := by simpa [Mem.readN] using h
  rw [Mem.read_writeN_in _ _ _ _ hk]
  simp [Mem.readN]

section MoveBytes
variable (s : State) (tenant src dst n : Nat)

theorem moveBytes_mem : (s.moveBytes tenant src dst n).mem = s.mem.writeN dst (s.mem.readN src n) := by
  unfold State.moveBytes
  dsimp only
  split
  · rw [stampAll_mem]
    rfl
  · rfl

theorem moveBytes_ctxs : (s.moveBytes tenant src dst n).ctxs = s.ctxs := by
  unfold State.moveBytes
  dsimp only
  split
  · rw [stampAll_ctxs]
    rfl
  · rfl

end MoveBytes

/-- A table without a key has no entry for it among the entries that it lists. -/
theorem Tbl.getD_some_of_not_has {α : Type} (t : Tbl α) (k : Nat) (h : Tbl.has t k = false) :
    Tbl.getD (t.map fun e => (e.1, some e.2)) k none = none := by
  induction t with
  | nil => rfl
  | cons e rest ih =>
    simp only [Tbl.has, List.any_cons, Bool.or_eq_false_iff, beq_eq_false_iff_ne] at h
    simp only [List.map_cons, Tbl.getD, if_neg h.1]
    exact ih h.2

/-- A core is no longer to be scrubbed of any context's image. -/
def State.scrubbed (s : State) (c : Nat) : State :=
  { s with ctxs := Tbl.mapv s.ctxs fun _ y => { y with scrub := y.scrub.filter (· != c) } }

theorem scrubbed_saves (s : State) (c k : Nat) : ((s.scrubbed c).ctxAt k).saves = (s.ctxAt k).saves := by
  rw [State.scrubbed, State.ctxAt, Tbl.getD_mapv _ _ rfl]
  rfl

/-- A core that holds no context takes in one without a record for it: it holds the context, and memory is that of the copy to its local
store. The body is taken as a function, and the state that the copy leaves gets a name of its own: a term that holds the body at its
arguments would have the kernel evaluate the copy's addresses. -/
theorem swap_of_free {s : State} {c ctx : Nat} (hctx : (s.coreAt c).ctx = none) (hsaves : Tbl.has (s.ctxAt ctx).saves c = false) :
    ((s.swap c ctx).coreAt c).ctx = some ctx ∧
      (s.swap c ctx).mem = s.mem.writeN (lsPa s c 0) (s.mem.readN (imagePa s ctx c 0) lsSize) := by
  obtain ⟨f, hf⟩ : ∃ f, f = State.swap := ⟨_, rfl⟩
  rw [← hf]
  delta State.swap at hf
  subst hf
  beta_reduce
  extract_lets +onlyGivenNames x kept moved
  have hkept : kept = s := by simp only [kept, x, hctx]
  obtain ⟨u, hu, hmoved⟩ : ∃ u, u = kept.moveBytes (kept.ctxAt ctx).tenant (imagePa kept ctx c 0) (lsPa kept c 0) lsSize ∧
      moved = u := ⟨_, rfl, rfl⟩
  rw [hmoved]
  rw [hkept] at hu
  have hmem : u.mem = s.mem.writeN (lsPa s c 0) (s.mem.readN (imagePa s ctx c 0) lsSize) := by rw [hu, moveBytes_mem]
  have hctxs : u.ctxs = s.ctxs := by rw [hu, moveBytes_ctxs]
  have hnone : Tbl.getD (((u.scrubbed c).ctxAt ctx).saves.map fun e => (e.1, some e.2)) c none = none := by
    rw [scrubbed_saves, State.ctxAt, hctxs]
    exact Tbl.getD_some_of_not_has _ _ hsaves
  dsimp only
  split
  · rename_i saved h
    cases hnone.symm.trans h
  · exact ⟨by rw [coreAt_onCore_same], hmem⟩

theorem lsPa_add (s : State) (c k : Nat) : lsPa s c k = lsPa s c 0 + k := by simp [lsPa]
theorem imagePa_add (s : State) (ctx c k : Nat) : imagePa s ctx c k = imagePa s ctx c 0 + k := by simp [imagePa]

/-! ## The obligation -/

/-- Settles O46: each of the four steps is one operation, whose own lemmas say what it leaves of the core, of the context and of
memory. -/
theorem activationSteps : Obligations.ActivationSteps := by
  refine ⟨?_, fun s c ctx => ⟨?_, ?_, ?_⟩⟩
  · intro s c ctx tag best m rest hstart s1 htag hm hslot hkind
    obtain ⟨x, k, y, n, b, hctx, hseq, hvec, hx⟩ := dispatch_coreAt hstart htag hm hslot
    refine ⟨s.dispatch c, rfl, ?_⟩
    have hregs : ((s.dispatch c).coreAt c).s = openScalars k m.pay (if m.kind = 2 then m.pay.headD 0 else 0) := by rw [hx, begin_s]
    refine ⟨?_, ?_, ?_, ?_, getS_payload hregs, getS_zero _, ?_⟩
    all_goals rw [hx]
    all_goals simp [hkind, hctx, hseq, hvec, s1]
  · intro hphase hword hbuf hcalm hkey hord hkind
    obtain ⟨bs, hcommit⟩ := commit_of_nothing_held hphase hword hbuf hcalm hkey hord hkind
    refine ⟨s.commit c, rfl, ?_⟩
    rw [hcommit, coreAt_setCoreAt_same]
    exact ⟨rfl, rfl, rfl, rfl, rfl, fun _ => rfl⟩
  · intro hctx hstate hsaves hphase hword hfetch hpend hcan
    obtain ⟨hrec, hidle⟩ := halt_of_idle_saves hctx hstate hsaves hphase hword hfetch hpend hcan
    refine ⟨s.halt c, rfl, ?_⟩
    rw [hrec, Tbl.getD_put_same]
    exact ⟨Tbl.has_put_same .., rfl, rfl, hidle⟩
  · intro hcan hsaves hfree
    have hexec : exec (.localStoreSwap c ctx) s = .next (s.swap c ctx) := by
      change execLocalStoreSwap c ctx s = _
      rw [execLocalStoreSwap, if_pos hcan]
    obtain ⟨hres, hmem⟩ := swap_of_free hfree hsaves
    refine ⟨s.swap c ctx, hexec, hres, fun k hk => ?_⟩
    rw [hmem, lsPa_add s c k, imagePa_add s ctx c k]
    exact Mem.read_copy s.mem (imagePa s ctx c 0) (lsPa s c 0) (n := lsSize) hk

end Sys2Proof.Machine
end

section
/-!
PROOFS. The pg instructions: the check of the context, and what each gates or takes behind the checks of its operands.
-/
namespace Sys2Proof.Machine

/-! ## Instructions for privileged contexts (R93) -/

section Privilege
variable {i : Instr} {s u : State} {rest : M Unit}

theorem needPrivilege_privileged (h : (s.ctxAt s.ctxNo).privileged = true) : needPrivilege s = .ok ((), s) := by
  simp [needPrivilege, bind_at, trapIf, h]

theorem needPrivilege_unprivileged (h : (s.ctxAt s.ctxNo).privileged = false) :
    needPrivilege s = .error (s.takeTrap s.cur 0x05 s.core.pc (irWord s)) := by
  simp [needPrivilege, bind_at, trapIf, h]

theorem ends_of_privileged (h : (s.ctxAt s.ctxNo).privileged = true) (hi : exec i s = run (needPrivilege >>= fun _ => rest) s)
    (hr : rest s = .ok ((), u)) : Ends i s u :=
  hi.trans (run_ok ((bind_ok (needPrivilege_privileged h)).trans hr))

theorem traps_of_unprivileged (h : (s.ctxAt s.ctxNo).privileged = false)
    (hi : exec i s = run (needPrivilege >>= fun _ => rest) s) : Ends i s (s.takeTrap s.cur 0x05 s.core.pc (irWord s)) :=
  hi.trans (run_error (bind_error (needPrivilege_unprivileged h)))

end Privilege

/-! ## Commands with a mailbox (R94, R96, R99) -/

/-- The command of pg.inval, of the words that it read, its mailbox and its core (R96). -/
def invalCommand (ws : List Word) (m : Option Nat) (s : State) : Gated :=
  .inval { ctx := fld (ws.getD 0 0) 5 0, first := fld (ws.getD 1 0) 51 16, count := fld (ws.getD 1 0) 15 0 + 1,
           all := bit (ws.getD 0 0).toNat 6, iss := s.ctxNo, mpa := m }

/-- The command of pg.pin (R99). -/
def pinCommand (ws : List Word) (m : Option Nat) (s : State) : Gated :=
  .pin { ctx := fld (ws.getD 0 0) 5 0, unpin := bit (ws.getD 0 0).toNat 6, va := addrOf (ws.getD 1 0), core := s.cur,
         iss := s.ctxNo, mpa := m }

theorem takeAll_third (x : State) (ra rb rc : SReg) : (x.core.takeAll [ra, rb, rc]).getD 2 0 = x.r3 ra rb rc := rfl

/-- An instruction with a mailbox operand gates its command behind the checks of its ports and of its mailbox. -/
theorem mailboxed_done {s t u : State} {ra rb rc : SReg} {m : Option Nat} {command : List Word → Option Nat → State → Gated}
    (hports : Gives (openPorts none [ra, rb, rc]) s () t) (hbox : Gives (mailboxOf rc (t.r3 ra rb rc)) t m t)
    (hgate : Gives (gate (command (t.core.takeAll [ra, rb, rc]) m t)) t () u) :
    (do
      openPorts none [ra, rb, rc]
      let c ← core
      let m ← mailboxOf rc ((c.takeAll [ra, rb, rc]).getD 2 0)
      let s ← get
      gate (command (c.takeAll [ra, rb, rc]) m s)
      finish [ra, rb, rc]) s = .ok ((), u.done [ra, rb, rc]) := by
  rw [bind_ok hports, bind_ok (core_at t), takeAll_third, bind_ok hbox, bind_ok (get_at t), bind_ok hgate, finish_at]

/-! ## The obligation -/

/-- Settles O41: the check of the context comes first; behind the checks of its operands each instruction gates its command, takes
the oldest record of a die, or gives its hint. -/
theorem pagingInstructions : Obligations.PagingInstructions := by
  intro s t u la ra rb rc m
  refine ⟨fun hpriv => ⟨fun hports hbox => ⟨fun hgate => ?inval, fun hgate => ?pin⟩, fun hports hgate => ?replay,
    fun hports hfirm => ?fbrd⟩, fun hpriv i hi => ?unprivileged, fun hports => ?hint⟩
  case inval => exact ends_of_privileged hpriv rfl (mailboxed_done (command := invalCommand) hports hbox hgate)
  case pin => exact ends_of_privileged hpriv rfl (mailboxed_done (command := pinCommand) hports hbox hgate)
  case replay =>
    refine ends_of_privileged hpriv rfl ?_
    rw [bind_ok hports, bind_ok (core_at t)]
    exact (bind_ok hgate).trans (finish_at ..)
  case fbrd =>
    refine ends_of_privileged hpriv rfl ?_
    rw [bind_ok hports, bind_ok hfirm, bind_ok (get_at u)]
    exact finishL_at ..
  case unprivileged =>
    simp only [List.mem_cons, List.not_mem_nil, or_false] at hi
    obtain rfl | rfl | rfl | rfl | rfl | rfl | rfl := hi
    all_goals exact traps_of_unprivileged hpriv rfl
  case hint =>
    refine run_ok ?_
    rw [bind_ok hports, bind_ok (core_at t)]
    exact finish_at ..

end Sys2Proof.Machine
end

section
/-!
PROOFS. The steps of translation and placement: misses and walks at a slice, invalidations and pins, the end of an epoch, and the
switch of a page.
-/
namespace Sys2Proof.Machine

/-- What each step of a fold keeps, the fold keeps. -/
theorem foldl_keeps {α β : Type} {f : State → α → State} (p : State → β) (h : ∀ s x, p (f s x) = p s) (xs : List α)
    (s : State) : p (xs.foldl f s) = p s := by
  induction xs generalizing s with
  | nil => rfl
  | cons x rest ih => exact (ih _).trans (h s x)

/-! ## A slice's table of misses (R85) -/

/-- The misses that a slice's table holds. -/
def missesAt (s : State) (k : Nat) : List Miss := (Tbl.getD s.xl k {}).misses

/-- A miss is on a page of a context. -/
def onPage (ctx vpage : Nat) (m : Miss) : Bool := m.ctx == ctx && m.vpage == vpage

section Misses
variable (s : State) (k j : Nat) (f : Xlate → Xlate)

@[simp] theorem missesAt_onSlice_same : missesAt (s.onSlice k f) k = (f (Tbl.getD s.xl k {})).misses := by
  simp [missesAt, State.onSlice]

theorem missesAt_onSlice_ne (h : k ≠ j) : missesAt (s.onSlice k f) j = missesAt s j := by
  simp [missesAt, State.onSlice, Tbl.getD_put_ne _ _ _ h]

/-- A change of a slice that leaves its table leaves every table. -/
theorem missesAt_onSlice_of_kept (h : ∀ x, (f x).misses = x.misses) : missesAt (s.onSlice k f) j = missesAt s j := by
  by_cases hk : k = j
  · subst hk
    rw [missesAt_onSlice_same, h]
    rfl
  · exact missesAt_onSlice_ne s k j f hk

@[simp] theorem missesAt_launch (i : Instr) : missesAt (s.launch i) k = missesAt s k := rfl

theorem missesAt_fillSlice (die va : Nat) (l : Leaf) : missesAt (s.fillSlice die va l) k = missesAt s k :=
  missesAt_onSlice_of_kept s _ k (fun x => { x with tlb := sliceAdd x.tlb l }) fun _ => rfl

end Misses

/-- A request added to the waiters of a miss on its page. -/
def joined (ctx vpage : Nat) (w : Waiter) (m : Miss) : Miss :=
  if m.ctx == ctx && m.vpage == vpage && !m.waiters.contains w then { m with waiters := m.waiters ++ [w] } else m

section Joined
variable (ctx vpage : Nat) (w : Waiter) (m : Miss)

@[simp] theorem joined_ctx : (joined ctx vpage w m).ctx = m.ctx := by unfold joined; split <;> rfl
@[simp] theorem joined_vpage : (joined ctx vpage w m).vpage = m.vpage := by unfold joined; split <;> rfl
@[simp] theorem joined_walking : (joined ctx vpage w m).walking = m.walking := by unfold joined; split <;> rfl

end Joined

theorem missesAt_joinMiss (s : State) (c ctx va : Nat) (acc : Acc) : ∃ w : Waiter,
    missesAt (s.joinMiss c ctx va acc) (xlKey (dieOf c) ctx va) =
      (missesAt s (xlKey (dieOf c) ctx va)).map (joined ctx (va / 65536) w) :=
  ⟨⟨c, acc, va, ofEngine acc, (s.coreAt c).seq.toNat, (s.coreAt c).pc.toNat⟩, by simp [missesAt, State.joinMiss, joined]⟩

/-! ## The start of a walk (R85, R92) -/

section StartWalk
variable (s : State) (die k : Nat)

@[simp] theorem startWalk_mem : (s.startWalk die k).mem = s.mem := by
  unfold State.startWalk
  dsimp only
  split
  · split <;> rfl
  · rfl

/-- With one of its eight walks free a slice starts that of its oldest pending miss. -/
theorem startWalk_flight {m : Miss} (hm : (missesAt s k).find? (fun m => !m.walking) = some m)
    (hw : ((missesAt s k).filter Miss.walking).length < 8) :
    (s.startWalk die k).flight = s.flight ++ [.pageWalkComplete die m.ctx m.vpage] := by
  unfold State.startWalk walksOf
  unfold missesAt at hm hw
  simp only [hm, if_pos hw]
  rfl

/-- The start of a walk keeps which pages have a miss. -/
theorem startWalk_any_onPage (ctx vpage : Nat) :
    (missesAt (s.startWalk die k) k).any (onPage ctx vpage) = (missesAt s k).any (onPage ctx vpage) := by
  unfold State.startWalk
  dsimp only
  split
  · split
    · rw [missesAt_launch, missesAt_onSlice_same, List.any_map]
      congr 1
      funext n
      simp only [Function.comp]
      split
      · subst_vars; rfl
      · rfl
    · rfl
  · rfl

end StartWalk

/-! ## A miss that finds a place and a free walk (R85) -/

/-- A miss at a slice changes no memory. -/
theorem missAtSlice_mem (s : State) (c ctx va : Nat) (acc : Acc) : (s.missAtSlice c ctx va acc).mem = s.mem := by
  unfold State.missAtSlice
  dsimp only
  split
  · rfl
  · split
    · rfl
    · split
      · rfl
      · exact startWalk_mem ..

/-- The slice's table with a miss added for a page. -/
def State.addMiss (s : State) (k ctx vpage : Nat) : State :=
  s.onSlice k fun x => { x with misses := x.misses ++ [{ ctx := ctx, vpage := vpage }] }

theorem missesAt_addMiss (s : State) (k ctx vpage : Nat) :
    missesAt (s.addMiss k ctx vpage) k = missesAt s k ++ [{ ctx := ctx, vpage := vpage }] := missesAt_onSlice_same ..

section NewMiss
variable {s : State} {c ctx va : Nat} (acc : Acc) (hhit : sliceHit s (dieOf c) ctx va = none)
variable (hnew : (missesAt s (xlKey (dieOf c) ctx va)).any (onPage ctx (va / 65536)) = false)

include hhit hnew in
theorem missAtSlice_of_new (hroom : (missesAt s (xlKey (dieOf c) ctx va)).length < 32) : s.missAtSlice c ctx va acc =
    ((s.addMiss (xlKey (dieOf c) ctx va) ctx (va / 65536)).joinMiss c ctx va acc).startWalk (dieOf c) (xlKey (dieOf c) ctx va) := by
  have hfull : ¬32 ≤ (Tbl.getD s.xl (xlKey (dieOf c) ctx va) {}).misses.length := Nat.not_le.mpr hroom
  unfold missesAt onPage at hnew
  simp only [State.missAtSlice, hhit, hnew, if_neg hfull]
  rfl

include hhit hnew in
/-- The miss is the only one whose walk has not begun, so its walk begins. -/
theorem missAtSlice_flight (hall : (missesAt s (xlKey (dieOf c) ctx va)).all Miss.walking = true)
    (hfree : ((missesAt s (xlKey (dieOf c) ctx va)).filter Miss.walking).length < 8) :
    (s.missAtSlice c ctx va acc).flight = s.flight ++ [.pageWalkComplete (dieOf c) ctx (va / 65536)] := by
  have hwalks := List.filter_eq_self.mpr (List.all_eq_true.mp hall)
  have hold : (missesAt s (xlKey (dieOf c) ctx va)).find? (fun m => !m.walking) = none := by simpa using hall
  obtain ⟨w, hw⟩ := missesAt_joinMiss (s.addMiss (xlKey (dieOf c) ctx va) ctx (va / 65536)) c ctx va acc
  rw [missesAt_addMiss] at hw
  rw [missAtSlice_of_new acc hhit hnew (by rw [← hwalks]; omega),
    startWalk_flight (m := joined ctx (va / 65536) w { ctx := ctx, vpage := va / 65536 })]
  · simp only [joined_ctx, joined_vpage]
    rfl
  · rw [hw, List.find?_map]
    simp [hold]
  · rw [hw, List.filter_map, List.length_map]
    simpa [Function.comp_def] using hfree

end NewMiss

/-! ## A walk that finds a leaf (R85) -/

/-- A leaf reaches the cores that wait for it, and leaves the slices as they are. -/
theorem answerAll_leaf_xl (s : State) (ctx stamp : Nat) (l : Leaf) (n : Nat) (first : Bool) (ws : List Waiter) :
    (s.answerAll ctx stamp (.leaf l n) first ws).xl = s.xl := by
  induction ws generalizing s first with
  | nil => rfl
  | cons w rest ih =>
    refine (ih ..).trans ?_
    unfold State.answer
    split <;> rfl

/-- Of the misses that a walk leaves in the table, none is on its page. -/
theorem filter_not_any_onPage (ctx vpage : Nat) (covered : Miss → Bool) (ms : List Miss) :
    (ms.filter fun m => !(m.ctx == ctx && (m.vpage == vpage || covered m))).any (onPage ctx vpage) = false := by
  rw [List.any_eq_false]
  intro m hm hpage
  obtain ⟨hctx, hvpage⟩ : m.ctx = ctx ∧ m.vpage = vpage := by simpa [onPage] using hpage
  simp [hctx, hvpage] at hm

/-- A walk that finds a leaf takes the misses of its page out of the table. -/
theorem walkDone_leaf {s : State} {die ctx vpage : Nat} {l : Leaf} {n : Nat}
    (h : (sliceWalk s die ctx (vpage * 65536)).1 = .leaf l n) :
    (missesAt (s.walkDone die ctx vpage) (xlKey die ctx (vpage * 65536))).any (onPage ctx vpage) = false := by
  obtain ⟨u, hu⟩ : ∃ u, sliceWalk s die ctx (vpage * 65536) = (.leaf l n, u) := ⟨_, Prod.ext h rfl⟩
  simp only [State.walkDone, hu]
  rw [foldl_keeps (fun t => (missesAt t (xlKey die ctx (vpage * 65536))).any (onPage ctx vpage)) fun t m => by
    simp only [missesAt, answerAll_leaf_xl], startWalk_any_onPage]
  split
  · rw [missesAt_onSlice_same, filter_not_any_onPage]
  · rw [missesAt_fillSlice, missesAt_onSlice_same, filter_not_any_onPage]
  · rw [missesAt_onSlice_same, filter_not_any_onPage]

/-- A walk in flight completes where its page is found or no line holds it up. -/
theorem pageWalkComplete_ends {s : State} {die ctx vpage : Nat} (hwalk : walking s die ctx vpage = true)
    (hheld : (sliceHit s die ctx (vpage * 65536)).isSome = true ∨ walkHeld s die ctx (vpage * 65536) = false) :
    Ends (.pageWalkComplete die ctx vpage) s (s.walkDone die ctx vpage) := by
  have hgo : ((sliceHit s die ctx (vpage * 65536)).isNone && walkHeld s die ctx (vpage * 65536)) = false := by
    rcases hheld with h | h
    · simp [Option.isNone_eq_false_iff.mpr h]
    · simp [h]
  refine congrArg Host.Outcome.next ?_
  rw [if_neg (by simp [hwalk]), if_neg (by simp [hgo])]

/-! ## Invalidation (R96) -/

theorem CachesOnly.l1tlb {s t : State} (h : CachesOnly s t) (k : Nat) : (t.coreAt k).l1tlb = (s.coreAt k).l1tlb := by
  obtain ⟨a, i, m, hk⟩ := h.cores k
  rw [hk]

section Abandon
variable (s : State)

theorem mailbox_cachesOnly (ctx : Nat) (mpa : Option Nat) (status : Nat) : CachesOnly s (s.mailbox ctx mpa status) := by
  cases mpa with
  | none => exact .refl s
  | some pa => exact perform_cachesOnly ..

theorem onChain_cachesOnly (ctx ch : Nat) (f : Chain → Chain) : CachesOnly s (s.onChain ctx ch f) :=
  onCtx_cachesOnly s ctx fun _ => rfl

theorem freeEntry_cachesOnly (ctx ch : Nat) : CachesOnly s (s.freeEntry ctx ch) := by
  refine CachesOnly.trans ?_ (foldl_cachesOnly (fun s (q : Option Nat × List (Nat × Nat × Nat)) => ?_) _ _)
  · exact onCtx_cachesOnly s ctx fun _ => rfl
  · exact mailbox_cachesOnly s ctx q.1 1

/-- A placement operation that is abandoned changes no TLB and no running activation. -/
theorem abandon_cachesOnly (g : Migration) : CachesOnly s (s.abandon g) := by
  unfold State.abandon
  dsimp only
  split
  · exact .of_same rfl rfl
  · split
    · exact .of_same rfl rfl
    · split
      · refine CachesOnly.trans ?_ (freeEntry_cachesOnly ..)
        exact .of_same rfl rfl
      · refine CachesOnly.trans ?_ (onChain_cachesOnly ..)
        exact .of_same rfl rfl

end Abandon

theorem shootdown_l1tlb (s : State) (r : InvalReq) (locks : Bool) (k : Nat) :
    ((s.shootdown r locks).coreAt k).l1tlb = (s.coreAt k).l1tlb.filter fun l => !inRange r l := by
  unfold State.shootdown State.coreAt
  dsimp only
  rw [Tbl.getD_mapv _ _ rfl]

/-- pg.inval takes its range out of every core's TLB. -/
theorem inval_l1tlb (s : State) (r : InvalReq) (k : Nat) :
    ((s.inval r).coreAt k).l1tlb = (s.coreAt k).l1tlb.filter fun l => !inRange r l := by
  refine ((foldl_cachesOnly abandon_cachesOnly _ ((s.rewalk r).shootdown r true)).l1tlb k).trans ?_
  exact shootdown_l1tlb ..

/-- The activation that is dropped holds nothing any more. -/
theorem drop_cbuf (s : State) (c : Nat) : ((s.drop c).coreAt c).cbuf = [] := by
  unfold State.drop
  dsimp only
  rw [coreAt_onCore_same]

theorem forgetKey_coreAt (s : State) (m : Msg) (k : Nat) : (s.forgetKey m).coreAt k = s.coreAt k := by
  unfold State.forgetKey
  dsimp only
  split <;> split <;> rfl

theorem dispatchMsg_coreAt (s : State) (m : Msg) (k : Nat) : (s.dispatchMsg m).coreAt k = s.coreAt k := by
  unfold State.dispatchMsg
  split
  · split
    · exact forgetKey_coreAt ..
    · split <;> rfl
  · split
    · exact forgetKey_coreAt ..
    · rfl

/-- The running activation of a core is discarded where it is revocable and holds an item translated through a removed entry
(R96). -/
def State.dropRunning (s : State) (r : InvalReq) (c : Nat) : State :=
  let x := s.coreAt c
  if x.ctx = some r.ctx && x.phase == .running && x.rev && holdsRange r x.cbuf then
    if (s.trigAt c).ord then (s.drop c).dispatchMsg (s.trigAt c) else (s.drop c).send (s.trigAt c)
  else s

/-- What an invalidation does to the running activation of a core comes behind what it does to the one that waits there. -/
theorem dropHolders_eq_dropRunning (s : State) (r : InvalReq) (c : Nat) :
    ∃ u : State, s.dropHolders r c = u.dropRunning r c := ⟨_, rfl⟩

/-- A revocable activation that goes on holds no item through a removed entry. -/
theorem dropRunning_holdsRange {s : State} {r : InvalReq} {c : Nat} (hctx : ((s.dropRunning r c).coreAt c).ctx = some r.ctx)
    (hphase : ((s.dropRunning r c).coreAt c).phase = .running) (hrev : ((s.dropRunning r c).coreAt c).rev = true) :
    holdsRange r ((s.dropRunning r c).coreAt c).cbuf = false := by
  by_cases h : ((s.coreAt c).ctx = some r.ctx && (s.coreAt c).phase == .running && (s.coreAt c).rev &&
      holdsRange r (s.coreAt c).cbuf) = true
  · have hnone : ((s.dropRunning r c).coreAt c).cbuf = [] := by
      rw [State.dropRunning, if_pos h]
      split
      · rw [dispatchMsg_coreAt, drop_cbuf]
      · exact drop_cbuf s c
    rw [hnone]
    rfl
  · rw [State.dropRunning, if_neg h] at *
    simpa [hctx, hphase, hrev] using h

/-! ## What the end of an epoch reads (R68) -/

/-- The pmctl of a context and the device's clock. -/
def epochBasis (ctx : Nat) (s : State) : Word × Word := ((s.ctxAt ctx).pmctl, s.pkg.cyc)

section Basis
variable (ctx : Nat) (s : State)

theorem epochBasis_onCtx (k : Nat) {f : Ctx → Ctx} (h : ∀ x, (f x).pmctl = x.pmctl) :
    epochBasis ctx (s.onCtx k f) = epochBasis ctx s := by
  unfold epochBasis
  by_cases hk : k = ctx
  · subst hk
    rw [ctxAt_onCtx_same, h]
    rfl
  · rw [ctxAt_onCtx_ne _ _ _ hk]
    rfl

@[simp] theorem epochBasis_launch (i : Instr) : epochBasis ctx (s.launch i) = epochBasis ctx s := rfl

@[simp] theorem epochBasis_addMig (g : Migration) : epochBasis ctx (s.addMig g) = epochBasis ctx s := rfl

@[simp] theorem epochBasis_invalidate (line : Nat) (w : Option Nat) : epochBasis ctx (s.invalidate line w) = epochBasis ctx s :=
  foldl_keeps (f := fun s t => s.dropL1 line t w) (epochBasis ctx) (fun _ _ => rfl) _ s

@[simp] theorem epochBasis_evictLine (line : Nat) : epochBasis ctx (s.evictLine line) = epochBasis ctx s :=
  foldl_keeps (f := fun s t => s.dropL1 line t none) (epochBasis ctx) (fun _ _ => rfl) _ s

@[simp] theorem epochBasis_fillL2 (pa : Nat) : epochBasis ctx (s.fillL2 pa) = epochBasis ctx s := by
  unfold State.fillL2
  dsimp only
  split
  · rfl
  · split
    · rfl
    · exact epochBasis_evictLine ..
    · rfl

@[simp] theorem epochBasis_count (k die pa : Nat) (wr : Bool) : epochBasis ctx (s.count k die pa wr) = epochBasis ctx s := by
  unfold State.count
  split
  · rfl
  · dsimp only
    split <;> rfl

@[simp] theorem epochBasis_stamp (k pa : Nat) (whole : Bool) : epochBasis ctx (s.stamp k pa whole) = epochBasis ctx s := by
  unfold State.stamp State.stampFor
  dsimp only
  split <;> split <;> rfl

@[simp] theorem epochBasis_tamper (pa : Nat) : epochBasis ctx (s.tamper pa) = epochBasis ctx s := by
  unfold State.tamper
  split
  · rfl
  · unfold epochBasis State.ctxAt
    dsimp only
    rw [Tbl.getD_mapv _ _ (by simp [Ctx.tampered, Tbl.has])]
    unfold Ctx.tampered
    dsimp only
    split <;> rfl

@[simp] theorem epochBasis_sendWake (w : WatchReq) (v : Word) (status : Nat) :
    epochBasis ctx (s.sendWake w v status) = epochBasis ctx s := by
  unfold State.sendWake
  split <;> rfl

theorem epochBasis_wakes (ws : List (WatchReq × Word)) :
    epochBasis ctx (ws.foldl (fun s w => s.sendWake w.1 w.2 0) s) = epochBasis ctx s :=
  foldl_keeps (epochBasis ctx) (fun s w => epochBasis_sendWake ctx s w.1 w.2 0) ws s

@[simp] theorem epochBasis_fireOwn (line c : Nat) : epochBasis ctx (s.fireOwn line c) = epochBasis ctx s := by
  unfold State.fireOwn
  dsimp only
  split
  · rfl
  · rw [epochBasis_wakes]
    rfl

@[simp] theorem epochBasis_fireMonitors (pa : Nat) : epochBasis ctx (s.fireMonitors pa) = epochBasis ctx s := by
  unfold State.fireMonitors
  dsimp only
  rw [foldl_keeps (epochBasis ctx) (fun s c => epochBasis_fireOwn ctx s _ c), epochBasis_wakes]
  rfl

@[simp] theorem epochBasis_lineChanged (k line : Nat) (w : Option Nat) (whole : Bool) :
    epochBasis ctx (s.lineChanged k w line whole) = epochBasis ctx s := by
  unfold State.lineChanged
  dsimp only
  rw [epochBasis_fireMonitors]
  split
  · cases w <;> simp
  · rfl

@[simp] theorem epochBasis_perform (k pa : Nat) (w : Option Nat) (bs : List Byte) :
    epochBasis ctx (s.perform k w pa bs) = epochBasis ctx s :=
  foldl_keeps (epochBasis ctx) (fun s l => epochBasis_lineChanged ctx s k l w _) _ (s.writePa pa bs)

@[simp] theorem epochBasis_mailbox (k : Nat) (mpa : Option Nat) (status : Nat) :
    epochBasis ctx (s.mailbox k mpa status) = epochBasis ctx s := by
  cases mpa with
  | none => rfl
  | some pa => exact epochBasis_perform ..

@[simp] theorem epochBasis_onChain (k ch : Nat) (f : Chain → Chain) : epochBasis ctx (s.onChain k ch f) = epochBasis ctx s :=
  epochBasis_onCtx ctx s k fun _ => rfl

@[simp] theorem epochBasis_freeEntry (k ch : Nat) : epochBasis ctx (s.freeEntry k ch) = epochBasis ctx s := by
  refine (foldl_keeps (epochBasis ctx) (fun s (q : Option Nat × List (Nat × Nat × Nat)) => ?_) _ _).trans ?_
  · exact epochBasis_mailbox ctx s k q.1 1
  · exact epochBasis_onCtx ctx s k fun _ => rfl

@[simp] theorem epochBasis_abandon (g : Migration) : epochBasis ctx (s.abandon g) = epochBasis ctx s := by
  unfold State.abandon
  dsimp only
  split
  · rfl
  · split
    · rfl
    · split
      · exact epochBasis_freeEntry ..
      · exact epochBasis_onChain ..

theorem epochBasis_promote (k vpage epa h frame : Nat) (ds : List Nat) {t : State}
    (ht : s.promote k vpage epa h frame ds = some t) : epochBasis ctx t = epochBasis ctx s := by
  unfold State.promote at ht
  dsimp only at ht
  split at ht
  · obtain rfl := Option.some.inj ht
    simp
  · cases ht

@[simp] theorem epochBasis_migrate (k vpage epa : Nat) (ds : List Nat) :
    epochBasis ctx (s.migrate k vpage epa ds) = epochBasis ctx s := by
  unfold State.migrate
  split <;> rfl

/-- A decision for a page changes no pmctl. -/
@[simp] theorem epochBasis_placePage (k vpage w0 epa : Nat) : epochBasis ctx (s.placePage k vpage w0 epa) = epochBasis ctx s := by
  unfold State.placePage
  dsimp only
  split
  · rfl
  · split
    · split
      · rfl
      · split
        · cases h : s.promote k vpage epa _ _ _ with
          | none => exact epochBasis_migrate ..
          | some t => exact epochBasis_promote ctx s _ _ _ _ _ _ h
        · exact epochBasis_migrate ..
    · split
      · split <;> rfl
      · rfl

end Basis

/-! ## The end of an epoch (R68 to R71) -/

/-- The moves that wait for a pin are abandoned, and each page is decided on. -/
def State.placing (s : State) (ctx : Nat) : State :=
  let u := (s.migs.filter (waitsToSwitch s ctx)).foldl State.abandon s
  if bit (s.ctxAt ctx).pmEff.toNat 0 then (pagesOf u ctx).foldl (fun s p => s.placePage ctx p.1 p.2.1 p.2.2) u else u

/-- The next epoch of a context begins. -/
def State.nextEpoch (s : State) (ctx : Nat) : State :=
  { s with counts := s.counts.filter (fun e => !keyOf ctx e.1), hints := s.hints.filter fun h => !keyOf ctx h.1 }.onCtx ctx
    fun y => { y with pmEff := y.pmctl, epochAt := s.pkg.cyc.toNat }

section Epoch
variable {s : State} {ctx : Nat}

theorem epochEnd_of_due (hlive : (s.ctxAt ctx).live = true)
    (hdue : (s.ctxAt ctx).epochAt + epochLen (s.ctxAt ctx).pmEff ≤ s.pkg.cyc.toNat) :
    s.epochEnd ctx = (s.placing ctx).nextEpoch ctx := by
  rw [State.epochEnd, if_neg (by simp [hlive, hdue])]
  rfl

theorem epochEnd_of_early (h : s.pkg.cyc.toNat < (s.ctxAt ctx).epochAt + epochLen (s.ctxAt ctx).pmEff) : s.epochEnd ctx = s := by
  rw [State.epochEnd, if_pos (by simp [h])]

theorem epochBasis_placing (s : State) (ctx : Nat) : epochBasis ctx (s.placing ctx) = epochBasis ctx s := by
  have habandon := foldl_keeps (epochBasis ctx) (epochBasis_abandon ctx) (s.migs.filter (waitsToSwitch s ctx)) s
  unfold State.placing
  dsimp only
  split
  · rw [foldl_keeps (epochBasis ctx) fun s (p : Nat × Nat × Nat) => epochBasis_placePage ctx s ctx p.1 p.2.1 p.2.2, habandon]
  · exact habandon

/-- With placement off and no move waiting nothing is decided. -/
theorem placing_of_off (hoff : (s.ctxAt ctx).pmEff.getLsbD 0 = false) (hmigs : s.migs.filter (waitsToSwitch s ctx) = []) :
    s.placing ctx = s := by
  rw [State.placing, hmigs, bit_toNat_eq_getLsbD, hoff]
  rfl

theorem nextEpoch_pmEff (s : State) (ctx : Nat) : ((s.nextEpoch ctx).ctxAt ctx).pmEff = (epochBasis ctx s).1 := by
  rw [State.nextEpoch, ctxAt_onCtx_same]
  rfl

theorem nextEpoch_epochAt (s : State) (ctx : Nat) : ((s.nextEpoch ctx).ctxAt ctx).epochAt = (epochBasis ctx s).2.toNat := by
  rw [State.nextEpoch, ctxAt_onCtx_same]
  rfl

end Epoch

/-! ## The switch of a page (R69) -/

/-- A migration whose leaf is as it was waits, or moves its page. -/
theorem switchPage_of_leaf {s : State} {ctx vpage : Nat} {g : Migration}
    (hfind : (s.migs.find? fun g => g.ctx == ctx && g.vpage == vpage) = some g) (hchain : g.chain = none)
    (habsent : g.absent = false)
    (hleaf : (s.read64 g.epa).toNat % 4 = 2) (hclass : leafClass (s.read64 g.epa).toNat = 0) (hlost : (s.dieAt g.die).lost = false)
    (hframe : framePoisoned s ctx (leafFrame (s.read64 g.epa).toNat) = false) :
    s.switchPage ctx vpage =
      if switchWaits s ctx vpage (leafFrame (s.read64 g.epa).toNat) then s.launch (.migrationSwitch ctx vpage)
      else (s.endMig g).movePage g (s.read64 g.epa).toNat := by
  simp [State.switchPage, hfind, hchain, habsent, hleaf, hclass, hlost, hframe]

/-! ## The obligation -/

/-- Settles O48: each step is one operation, whose own lemma says what it leaves. -/
theorem translationSteps : Obligations.TranslationSteps := by
  intro s c ctx va die vpage acc l n r p g
  refine ⟨fun hhit => ?hit, fun hhit hnew hall hfree => ?miss, fun hwalk hheld hleaf => ?leaf, fun hgone => ?gone,
    fun k => ⟨fun l hl => ?tlb, ?holders⟩, fun hdone => ?done, fun hgoing => ?going, rfl, fun hlive hdue => ?epoch,
    fun hlive hdue hoff hmigs => ?off, fun hearly => ?early,
    fun hfind hchain habsent hleaf hclass hlost hframe => ?switch⟩
  case hit => exact congrArg Host.Outcome.next (by simp only [State.missAtSlice, hhit])
  case miss => exact ⟨_, rfl, missAtSlice_flight acc hhit hnew hall hfree, fun b => by rw [missAtSlice_mem]⟩
  case leaf => exact ⟨_, pageWalkComplete_ends hwalk hheld, walkDone_leaf hleaf⟩
  case gone => exact congrArg Host.Outcome.next (if_pos (by simp [hgone]))
  case tlb =>
    rw [inval_l1tlb] at hl
    simpa using (List.mem_filter.mp hl).2
  case holders =>
    obtain ⟨u, hu⟩ := dropHolders_eq_dropRunning s r k
    rw [hu]
    exact dropRunning_holdsRange
  case done => exact congrArg Host.Outcome.next (if_pos hdone)
  case going => exact congrArg Host.Outcome.next (if_neg (by simp [hgoing]))
  case epoch =>
    refine ⟨_, congrArg Host.Outcome.next (epochEnd_of_due hlive hdue), ?_, ?_⟩
    · rw [nextEpoch_pmEff, epochBasis_placing]
      rfl
    · rw [nextEpoch_epochAt, epochBasis_placing]
      rfl
  case off =>
    have hend := epochEnd_of_due hlive hdue
    rw [placing_of_off hoff hmigs] at hend
    exact congrArg Host.Outcome.next hend
  case early => exact congrArg Host.Outcome.next (epochEnd_of_early hearly)
  case switch =>
    have hswitch := switchPage_of_leaf hfind hchain habsent hleaf hclass hlost hframe
    exact ⟨fun hw => congrArg Host.Outcome.next (hswitch.trans (if_neg (by simp [hw]))),
      fun hw => congrArg Host.Outcome.next (hswitch.trans (if_pos hw))⟩

end Sys2Proof.Machine
end

section
/-!
PROOFS. The ch instructions: the check of the context, and what each gates or reads behind the checks of its operands.
-/
namespace Sys2Proof.Machine

section ChainCommands
variable {s t u : State} {ra rb rc : SReg} {m : Option Nat}

/-- A reconfiguration gates its command with the words of ra and rb, behind the checks of its ports and of its mailbox (R116). -/
theorem chainOp_done (fn : Nat) (hports : Gives (openPorts none [ra, rb, rc]) s () t)
    (hbox : Gives (mailboxOf rc (t.r3 ra rb rc)) t m t)
    (hgate : Gives (gate (.ch fn (t.r1 ra) (t.r2 ra rb) m)) t () u) :
    chainOp fn ra rb rc s = .ok ((), u.done [ra, rb, rc]) := by
  rw [chainOp, bind_ok hports, bind_ok (core_at t), takeAll_third, bind_ok hbox]
  exact (bind_ok hgate).trans (finish_at ..)

theorem takeAll_second (x : State) (ra rc : SReg) : (x.core.takeAll [ra, rc]).getD 1 0 = x.r2 ra rc := rfl

/-- ch.clean, which any context may issue, gates its command with the word of ra (R119). -/
theorem chClean_ends (hports : Gives (openPorts none [ra, rc]) s () t) (hbox : Gives (mailboxOf rc (t.r2 ra rc)) t m t)
    (hgate : Gives (gate (.ch 5 (t.r1 ra) 0 m)) t () u) : Ends (.chClean ra rc) s (u.done [ra, rc]) := by
  refine run_ok ?_
  rw [bind_ok hports, bind_ok (core_at t), takeAll_second, bind_ok hbox]
  exact (bind_ok hgate).trans (finish_at ..)

end ChainCommands

section ChainReads
variable {s t u v : State} {la : BitVec 4} {ra rb rc : SReg} {pl : Place} {bs : List Byte}

/-- ch.stat of chain 0 reads zero, and of any other chain the word of its entry that rc names (R117). -/
theorem chStat_ends (hports : Gives (openPorts (some ra) [rb, rc]) s () t) :
    Ends (.chStat la ra rb rc) s (t.withL ra la [rb, rc] (if fld (t.r1 rb) 7 0 = 0 then 0 else
      chainWord (chainOf t t.ctxNo (fld (t.r1 rb) 7 0)) (chainPend t t.ctxNo (fld (t.r1 rb) 7 0)) (fld (t.r2 rb rc) 1 0))) := by
  refine run_ok ?_
  rw [bind_ok hports, bind_ok (get_at t)]
  exact finishL_at ..

/-- ch.tail reads eight bytes behind the checks of its address (R118). -/
theorem chTail_ends (hports : Gives (openPorts (some ra) [rb]) s () t) (hplace : Gives (resolve (addrOf (t.r1 rb)) 8 .read) t pl u)
    (hbytes : Gives (tailBytes (addrOf (t.r1 rb)) pl) u bs v) :
    Ends (.chTail la ra rb) s (v.withL ra la [rb] (BitVec.ofNat 64 (ofBytes bs))) := by
  refine run_ok ?_
  rw [bind_ok hports, bind_ok (core_at t)]
  exact (bind_ok hplace).trans ((bind_ok hbytes).trans (finishL_at ..))

end ChainReads

/-- Settles O42: the check of the context comes first; behind the checks of its operands each instruction gates its command, or reads
its word. -/
theorem chainInstructions : Obligations.ChainInstructions := by
  intro s t u v la ra rb rc m pl bs
  refine ⟨fun hpriv hports hbox p hp hgate => ?reconfigure, fun hports hbox hgate => chClean_ends hports hbox hgate,
    fun hports => ⟨fun hzero => ?zero, fun hchain => ?entry⟩, fun hports hplace hbytes => chTail_ends hports hplace hbytes⟩
  case reconfigure =>
    simp only [List.mem_cons, List.not_mem_nil, or_false] at hp
    obtain rfl | rfl | rfl := hp
    all_goals exact ends_of_privileged hpriv rfl (chainOp_done _ hports hbox hgate)
  case zero => simpa only [if_pos hzero] using chStat_ends (la := la) hports
  case entry => simpa only [if_neg hchain] using chStat_ends (la := la) hports

end Sys2Proof.Machine
end

section
/-!
PROOFS. The steps of chains: what a change of memory leaves of the records of chains, then each step as one operation on a record.
-/
namespace Sys2Proof.Machine

/-! ## What a change of memory leaves apart -/

/-- The state apart from what a change of memory reaches: memory and its marks, caches, monitors, counts, what the device sends, and
the marks of altered save records. -/
def State.apart (s : State) : State :=
  { s with
    cores := [], mem := [], poison := [], dir := [], mons := [], l2 := [], counts := [], flight := [], outs := [],
    ctxs := Tbl.mapv s.ctxs fun _ x => { x with altered := [] },
    pkg := { s.pkg with sectag := [] } }

section Apart
variable (s : State) (ctx line pa : Nat) (writer : Option Nat)

theorem foldl_apart {α : Type} {f : State → α → State} (h : ∀ s x, (f s x).apart = s.apart) (xs : List α) :
    (xs.foldl f s).apart = s.apart := foldl_keeps State.apart h xs s

@[simp] theorem launch_apart (i : Instr) : (s.launch i).apart = s.apart := rfl

@[simp] theorem invalidate_apart : (s.invalidate line writer).apart = s.apart :=
  foldl_apart s (f := fun s t => s.dropL1 line t writer) (fun _ _ => rfl) _

@[simp] theorem evictLine_apart : (s.evictLine line).apart = s.apart :=
  foldl_apart s (f := fun s t => s.dropL1 line t none) (fun _ _ => rfl) _

@[simp] theorem fillL2_apart : (s.fillL2 pa).apart = s.apart := by
  unfold State.fillL2
  dsimp only
  split
  · rfl
  · split
    · rfl
    · exact evictLine_apart ..
    · rfl

@[simp] theorem count_apart (die : Nat) (wr : Bool) : (s.count ctx die pa wr).apart = s.apart := by
  unfold State.count
  split
  · rfl
  · dsimp only
    split <;> rfl

@[simp] theorem stampFor_apart (tenant : Nat) (whole : Bool) : (s.stampFor tenant pa whole).apart = s.apart := by
  unfold State.stampFor
  dsimp only
  split <;> split <;> rfl

/-- A write into a save record marks it, and nothing else. -/
theorem tampered_apart (x : Ctx) : { x.tampered pa with altered := [] } = { x with altered := [] } := by
  unfold Ctx.tampered
  dsimp only
  split <;> rfl

@[simp] theorem tamper_apart : (s.tamper pa).apart = s.apart := by
  unfold State.tamper
  split
  · rfl
  · simp [State.apart, Tbl.mapv, tampered_apart]

@[simp] theorem sendWake_apart (w : WatchReq) (v : Word) (status : Nat) : (s.sendWake w v status).apart = s.apart := by
  unfold State.sendWake
  split <;> rfl

theorem wakes_apart (ws : List (WatchReq × Word)) : (ws.foldl (fun s w => s.sendWake w.1 w.2 0) s).apart = s.apart :=
  foldl_apart s (fun s w => sendWake_apart s w.1 w.2 0) ws

@[simp] theorem fireOwn_apart (c : Nat) : (s.fireOwn line c).apart = s.apart := by
  unfold State.fireOwn
  dsimp only
  split
  · rfl
  · exact wakes_apart ..

@[simp] theorem fireMonitors_apart : (s.fireMonitors pa).apart = s.apart := by
  unfold State.fireMonitors
  exact (foldl_apart _ (fun s c => fireOwn_apart s _ c) _).trans (wakes_apart ..)

@[simp] theorem lineChanged_apart (whole : Bool) : (s.lineChanged ctx writer line whole).apart = s.apart := by
  unfold State.lineChanged
  dsimp only
  rw [fireMonitors_apart]
  split
  · cases writer <;> simp [State.stamp]
  · rfl

@[simp] theorem perform_apart (bs : List Byte) : (s.perform ctx writer pa bs).apart = s.apart :=
  foldl_apart (s.writePa pa bs) (fun s l => lineChanged_apart s ctx l writer _) _

@[simp] theorem mailbox_apart (mpa : Option Nat) (status : Nat) : (s.mailbox ctx mpa status).apart = s.apart := by
  cases mpa with
  | none => rfl
  | some pa => exact perform_apart ..

@[simp] theorem applyStore_apart (l : Nat × Nat) (st : ChainStore) : (s.applyStore l st writer).apart = s.apart := by
  have happly : (s.applyAt l st writer).apart = s.apart := by
    unfold State.applyAt
    dsimp only
    split
    · exact foldl_apart _ (fun s p => by simp) _
    · rfl
  unfold State.applyStore
  dsimp only
  split <;> exact happly

theorem tell_apart (told : List (Nat × Nat)) (r : UalReq) : (s.tell told r).apart = s.apart :=
  foldl_apart s (f := fun s p => { s with outs := s.outs ++ [.ual p r] }) (fun _ _ => rfl) _

@[simp] theorem announce_apart (ch : Nat) (told : List (Nat × Nat)) : (s.announce ctx ch told).apart = s.apart := tell_apart ..

@[simp] theorem moveMons_apart (ch : Nat) (old new : Nat × Nat) : (s.moveMons ctx ch old new).apart = s.apart := rfl

end Apart

/-! ## The records of chains after an update (R101, R114) -/

section Records
variable {s t : State} (ctx ch owner : Nat) (f : Chain → Chain)

theorem chainOf_apart : chainOf s.apart ctx ch = chainOf s ctx ch := by
  unfold chainOf State.apart State.ctxAt
  dsimp only
  rw [Tbl.getD_mapv _ _ rfl]

theorem chainAt_apart : chainAt s.apart owner ctx ch = chainAt s owner ctx ch := by
  unfold chainAt
  rw [chainOf_apart]
  rfl

/-- A change of memory leaves every chain's entry. -/
theorem chainOf_of_apart (h : t.apart = s.apart) : chainOf t ctx ch = chainOf s ctx ch := by
  rw [← chainOf_apart, h, chainOf_apart]

/-- A change of memory leaves every chain's record. -/
theorem chainAt_of_apart (h : t.apart = s.apart) : chainAt t owner ctx ch = chainAt s owner ctx ch := by
  rw [← chainAt_apart, h, chainAt_apart]

theorem pkgNum_of_apart (h : t.apart = s.apart) : t.pkg.num = s.pkg.num := by
  have hnum : t.apart.pkg.num = s.apart.pkg.num := by rw [h]
  exact hnum

@[simp] theorem chainOf_onChain_same : chainOf (s.onChain ctx ch f) ctx ch = f (chainOf s ctx ch) := by
  simp [State.onChain, chainOf]

/-- A change of a context that leaves its chains leaves their entries. -/
theorem chainOf_onCtx_of_kept (k : Nat) {g : Ctx → Ctx} (h : ∀ x, (g x).chains = x.chains) :
    chainOf (s.onCtx k g) ctx ch = chainOf s ctx ch := by
  unfold chainOf
  by_cases hk : k = ctx
  · subst hk
    rw [ctxAt_onCtx_same, h]
  · rw [ctxAt_onCtx_ne _ _ _ hk]

/-- An entry of an error log leaves every chain's entry. -/
@[simp] theorem chainOf_log (k cls code cid die : Nat) (hub : Bool) (addr detail : Nat) :
    chainOf (s.log k cls code cid die hub addr detail) ctx ch = chainOf s ctx ch := by
  have hsend : ∀ (u : State) m, chainOf (u.send m) ctx ch = chainOf u ctx ch := fun _ _ => rfl
  unfold State.log
  dsimp only
  split
  · rfl
  · rw [apply_ite (chainOf · ctx ch), hsend, ite_self, chainOf_onCtx_of_kept]
    · split
      · rfl
      · exact chainOf_of_apart ctx ch (perform_apart ..)
    · exact fun _ => rfl

/-- What a change of a record does to a part of it: the record is the changed one, or there is none. -/
theorem chainAt_onChainAt_part {β : Type} (part : Chain → β) (hnone : part (f {}) = part {}) :
    part (chainAt (s.onChainAt owner ctx ch f) owner ctx ch) = part (f (chainAt s owner ctx ch)) := by
  unfold State.onChainAt chainAt
  by_cases hown : owner = s.pkg.num
  · have hnum : owner = (s.onChain ctx ch f).pkg.num := hown
    rw [if_pos hown, if_pos hnum, if_pos hown, chainOf_onChain_same]
  · rw [if_neg hown, if_neg hown, onPkg_pkg]
    dsimp only
    rw [if_neg hown, List.find?_map, Option.map_map]
    have hname : ((fun g : Foreign => g.owner == owner && g.ctx == ctx && g.ch == ch) ∘ fun g : Foreign =>
        if (g.owner == owner && g.ctx == ctx && g.ch == ch) = true then { g with e := f g.e } else g) =
        fun g : Foreign => g.owner == owner && g.ctx == ctx && g.ch == ch := by
      funext g
      simp only [Function.comp]
      split <;> rfl
    rw [hname]
    cases hfound : s.pkg.foreign.find? fun g => g.owner == owner && g.ctx == ctx && g.ch == ch with
    | none => exact hnone.symm
    | some g =>
      have hg := List.find?_some hfound
      simp only [Option.map_some, Option.getD_some, Function.comp, if_pos hg]

@[simp] theorem onChainAt_mem : (s.onChainAt owner ctx ch f).mem = s.mem := by
  unfold State.onChainAt
  split <;> rfl

end Records

/-! ## Bytes written as one change, and the copy of a frame (R109) -/

section Writes
variable {α : Type} (a : α → Nat) (b : α → Byte)

/-- Writes leave every address that is not theirs alone. -/
theorem Mem.read_foldl_write_ne (xs : List α) (m : Mem) {p : Nat} (h : ∀ x ∈ xs, a x ≠ p) :
    Mem.read (xs.foldl (fun m x => Mem.write m (a x) (b x)) m) p = m.read p := by
  induction xs generalizing m with
  | nil => rfl
  | cons x rest ih =>
    rw [List.foldl_cons, ih _ fun y hy => h y (by simp [hy]), Mem.read_write_ne _ _ (h x (by simp))]

/-- Of writes to distinct addresses each byte reads as it was written. -/
theorem Mem.read_foldl_write_mem {xs : List α} (m : Mem) (hdistinct : (xs.map a).Nodup) {x : α} (hx : x ∈ xs) :
    Mem.read (xs.foldl (fun m x => Mem.write m (a x) (b x)) m) (a x) = b x := by
  induction xs generalizing m with
  | nil => cases hx
  | cons y rest ih =>
    rw [List.map_cons, List.nodup_cons] at hdistinct
    obtain ⟨hy, hrest⟩ := hdistinct
    rw [List.foldl_cons]
    rcases List.mem_cons.mp hx with rfl | hx
    · rw [Mem.read_foldl_write_ne a b rest _ fun z hz hp => hy (List.mem_map.mpr ⟨z, hz, hp⟩), Mem.read_write_same]
    · exact ih _ hrest hx

end Writes

theorem Mem.le_of_rises {lo : Nat} {m : Mem} (w : Mem.risesFrom lo m = true) {c : Host.Cell} (hc : c ∈ m) : lo ≤ c.1 := by
  induction m generalizing lo with
  | nil => cases hc
  | cons d rest ih =>
    simp only [Mem.risesFrom, Bool.and_eq_true, decide_eq_true_eq] at w
    rcases List.mem_cons.mp hc with rfl | hc
    · exact w.1.1
    · have := ih w.2 hc
      omega

/-- Memory in canonical form lists no address twice. -/
theorem Mem.nodup_of_rises {lo : Nat} {m : Mem} (w : Mem.risesFrom lo m = true) : (m.map Prod.fst).Nodup := by
  induction m generalizing lo with
  | nil => exact List.nodup_nil
  | cons d rest ih =>
    simp only [Mem.risesFrom, Bool.and_eq_true, decide_eq_true_eq] at w
    rw [List.map_cons, List.nodup_cons]
    refine ⟨fun hd => ?_, ih w.2⟩
    obtain ⟨c, hc, hcd⟩ := List.mem_map.mp hd
    have := Mem.le_of_rises w.2 hc
    omega

theorem Mem.read_of_unlisted {m : Mem} {p : Nat} (h : ∀ c ∈ m, c.1 ≠ p) : m.read p = emptyByte := by
  induction m with
  | nil => rfl
  | cons d rest ih => rw [Mem.read, if_neg (h d (by simp)), ih fun c hc => h c (by simp [hc])]

theorem Mem.read_of_listed {m : Mem} (hdistinct : (m.map Prod.fst).Nodup) {c : Host.Cell} (hc : c ∈ m) : m.read c.1 = c.2 := by
  induction m with
  | nil => cases hc
  | cons d rest ih =>
    rw [List.map_cons, List.nodup_cons] at hdistinct
    obtain ⟨hd, hrest⟩ := hdistinct
    rcases List.mem_cons.mp hc with rfl | hc
    · exact if_pos rfl
    · have hne : d.1 ≠ c.1 := fun h => hd (h ▸ List.mem_map_of_mem hc)
      rw [Mem.read, if_neg hne, ih hrest hc]

/-- A cell lies in a frame. -/
def inFrame (f : Nat) (c : Host.Cell) : Bool := decide (f ≤ c.1) && decide (c.1 < f + 65536)

theorem inFrame_iff (f : Nat) (c : Host.Cell) : inFrame f c = true ↔ f ≤ c.1 ∧ c.1 < f + 65536 := by simp [inFrame]

/-- A copy of a frame takes the cells of its own frame out, and writes those of the original there. -/
theorem copyFrame_mem (s : State) (old new : Nat) : (s.copyFrame old new).mem =
    (s.mem.filter (inFrame old)).foldl (fun (m : Mem) (c : Host.Cell) => Mem.write m (c.1 - old + new) c.2)
      (s.mem.filter fun c => !inFrame new c) := rfl

/-- The cells of a frame go to distinct addresses. -/
theorem nodup_copied {m : Mem} (hdistinct : (m.map Prod.fst).Nodup) (old new : Nat) :
    ((m.filter (inFrame old)).map fun c => c.1 - old + new).Nodup := by
  refine List.Nodup.map_on (fun c hc d hd h => ?_) ((List.Nodup.of_map _ hdistinct).filter _)
  obtain ⟨hc, hcin⟩ := List.mem_filter.mp hc
  obtain ⟨hd, hdin⟩ := List.mem_filter.mp hd
  rw [inFrame_iff] at hcin hdin
  exact List.inj_on_of_nodup_map hdistinct hc hd (by omega)

/-- A byte of a frame reads, where the frame has been copied to, as it did in the original. -/
theorem copyFrame_read {s : State} (old new : Nat) (hcanonical : Canonical s) {i : Nat} (hi : i < 65536) :
    (s.copyFrame old new).mem.read (new + i) = s.mem.read (old + i) := by
  have hdistinct : (s.mem.map Prod.fst).Nodup := Mem.nodup_of_rises hcanonical
  rw [copyFrame_mem]
  by_cases hlisted : ∃ c ∈ s.mem, c.1 = old + i
  · obtain ⟨c, hc, haddr⟩ := hlisted
    have hcell : c ∈ s.mem.filter (inFrame old) := List.mem_filter.mpr ⟨hc, (inFrame_iff ..).mpr (by omega)⟩
    have hplace : new + i = c.1 - old + new := by omega
    rw [hplace, Mem.read_foldl_write_mem (fun c : Host.Cell => c.1 - old + new) (fun c => c.2) _
      (nodup_copied hdistinct old new) hcell, ← haddr, Mem.read_of_listed hdistinct hc]
  · have hold : ∀ c ∈ s.mem, c.1 ≠ old + i := fun c hc h => hlisted ⟨c, hc, h⟩
    rw [Mem.read_of_unlisted hold, Mem.read_foldl_write_ne (fun c : Host.Cell => c.1 - old + new) fun c => c.2]
    · refine Mem.read_of_unlisted fun c hc h => ?_
      have hout := (List.mem_filter.mp hc).2
      have hin : inFrame new c = true := (inFrame_iff ..).mpr (by omega)
      simp [hin] at hout
    · intro c hc h
      obtain ⟨hc, hin⟩ := List.mem_filter.mp hc
      rw [inFrame_iff] at hin
      exact hold c hc (by omega)

/-! ## A store at a link (R102, R103, R113) -/

theorem linkPa_injective (l : Nat × Nat) : Function.Injective (linkPa l) := fun _ _ h => Nat.add_left_cancel h

section Arrival
variable {s : State} {l : Nat × Nat} {st : ChainStore}

theorem applyAt_mem (s : State) (l : Nat × Nat) (st : ChainStore) (writer : Option Nat) :
    (s.applyAt l st writer).mem = st.data.foldl (fun m b => Mem.write m (linkPa l b.1) b.2) s.mem := by
  have hcells : (s.writeCells (st.data.map fun b => (linkPa l b.1, b.2))).mem =
      st.data.foldl (fun m b => Mem.write m (linkPa l b.1) b.2) s.mem := List.foldl_map ..
  unfold State.applyAt
  dsimp only
  split
  · exact (foldl_mem (fun s p => by simp) _ _).trans hcells
  · exact hcells

theorem applyStore_mem (s : State) (l : Nat × Nat) (st : ChainStore) (writer : Option Nat) :
    (s.applyStore l st writer).mem = st.data.foldl (fun m b => Mem.write m (linkPa l b.1) b.2) s.mem := by
  unfold State.applyStore
  dsimp only
  split <;> exact applyAt_mem ..

/-- A store that is counted, where it has bytes, changes counts alone. -/
theorem count_first_apart (s : State) (ctx die : Nat) (p : Nat × Byte → Nat) (o : Option (Nat × Byte)) :
    (o.elim s fun b => s.count ctx die (p b) true).apart = s.apart ∧ (o.elim s fun b => s.count ctx die (p b) true).mem = s.mem := by
  cases o with
  | none => exact ⟨rfl, rfl⟩
  | some b => exact ⟨count_apart .., count_mem ..⟩

/-- A link takes a store: its bytes are written, and the record has one more id among those that have reached the link. -/
theorem takeStore_eq (s : State) (l : Nat × Nat) (st : ChainStore) : ∃ u : State, u.apart = s.apart ∧
    u.mem = st.data.foldl (fun m b => Mem.write m (linkPa l b.1) b.2) s.mem ∧
    s.takeStore l st = u.onChainAt st.pkg st.ctx st.ch fun e => { e with seen := remember l st e.seen } := by
  refine ⟨_, ?_, ?_, rfl⟩
  · simp only [apply_ite State.apart, (count_first_apart ..).1, applyStore_apart, ite_self]
  · simp only [apply_ite State.mem, (count_first_apart ..).2, applyStore_mem, ite_self]

theorem takeStore_mem (s : State) (l : Nat × Nat) (st : ChainStore) :
    (s.takeStore l st).mem = st.data.foldl (fun m b => Mem.write m (linkPa l b.1) b.2) s.mem := by
  obtain ⟨u, -, hmem, htake⟩ := takeStore_eq s l st
  rw [htake, onChainAt_mem, hmem]

/-- A link that takes a store leaves the syncing link of the chain. -/
theorem takeStore_sync (s : State) (l : Nat × Nat) (st : ChainStore) :
    (chainAt (s.takeStore l st) st.pkg st.ctx st.ch).sync = (chainAt s st.pkg st.ctx st.ch).sync := by
  obtain ⟨u, hapart, -, htake⟩ := takeStore_eq s l st
  rw [htake, ← chainAt_of_apart _ _ _ hapart]
  exact chainAt_onChainAt_part _ _ _ (fun e => { e with seen := remember l st e.seen }) Chain.sync rfl

theorem toLink_mem (s : State) (st : ChainStore) : (s.toLink st).mem = s.mem := by
  have hsent : ∀ l st, (s.overUal l st).mem = s.mem := by
    intro l st
    unfold State.overUal
    split <;> rfl
  unfold State.toLink
  simp only [apply_ite State.mem, launch_mem, hsent, ite_self]

theorem toMember_apart (s : State) (st : ChainStore) : (s.toMember st).apart = s.apart ∧ (s.toMember st).mem = s.mem := by
  unfold State.toMember
  split
  · exact ⟨rfl, rfl⟩
  · dsimp only
    split <;> split <;> exact ⟨rfl, rfl⟩

theorem toSync_of_none (h : (chainAt s st.pkg st.ctx st.ch).sync = none) : s.toSync st = s := by
  simp [State.toSync, h]

/-- A store that belongs to no ordered activation discards none. -/
theorem storeArrives_of_unordered (h : st.okey = none) : s.storeArrives st = s.chainArrive st := by
  simp [State.storeArrives, h, orderedBy, State.conflict]

/-- Where no link is syncing, a store that its link takes for the first time writes its bytes to that link's copy alone. -/
theorem chainArrive_mem (hlink : (chainAt s st.pkg st.ctx st.ch).links[st.hop]? = some l)
    (hnew : seenBefore (chainAt s st.pkg st.ctx st.ch) l st = false) (hsync : (chainAt s st.pkg st.ctx st.ch).sync = none)
    (hport : l.1 = s.pkg.num ∨ refuses s l.1 = false) :
    (s.chainArrive st).mem = st.data.foldl (fun m b => Mem.write m (linkPa l b.1) b.2) s.mem := by
  have hopen : ¬(l.1 ≠ s.pkg.num ∧ refuses s l.1 = true) := by
    rcases hport with h | h <;> simp [h]
  unfold State.chainArrive
  simp only [hlink, hnew, if_neg hopen, Bool.false_eq_true, if_false]
  split
  · rw [toLink_mem, onChainAt_mem, takeStore_mem]
  · rw [(toMember_apart ..).2]
    refine (congrArg State.mem (toSync_of_none ?_)).trans (takeStore_mem ..)
    exact (takeStore_sync s l st).trans hsync

/-- The bytes of a store that its link takes for the first time stand in that link's copy. -/
theorem storeArrives_read (hlink : (chainAt s st.pkg st.ctx st.ch).links[st.hop]? = some l)
    (hnew : seenBefore (chainAt s st.pkg st.ctx st.ch) l st = false) (hsync : (chainAt s st.pkg st.ctx st.ch).sync = none)
    (hport : l.1 = s.pkg.num ∨ refuses s l.1 = false) (hfree : st.okey = none) (hdistinct : (st.data.map Prod.fst).Nodup)
    {d : Nat × Byte} (hd : d ∈ st.data) : (s.storeArrives st).mem.read (linkPa l d.1) = d.2 := by
  have hplaces : (st.data.map fun b => linkPa l b.1).Nodup := by
    have hlinked := hdistinct.map (linkPa_injective l)
    rw [List.map_map] at hlinked
    exact hlinked
  rw [storeArrives_of_unordered hfree, chainArrive_mem hlink hnew hsync hport]
  exact Mem.read_foldl_write_mem (fun b : Nat × Byte => linkPa l b.1) Prod.snd _ hplaces hd

end Arrival

section AtLink
variable {s : State} {st : ChainStore}

theorem chainStoreAtLink_barred (hbarred : chainBarred s st = true) : Ends (.chainStoreAtLink st) s
    { s.note 2 (st.pkg * 4096 + st.tenant) 0 with outs := s.outs ++ [.refused st.pkg (ualChain s st (.chainStore st))] } :=
  congrArg Host.Outcome.next (if_pos hbarred)

variable (hpass : chainBarred s st = false)
include hpass

theorem chainStoreAtLink_held (hheld : storeHeld s st = true) : Ends (.chainStoreAtLink st) s (s.waitAtLink st) :=
  congrArg Host.Outcome.next ((if_neg (by simp [hpass])).trans (if_pos hheld))

variable (hgo : storeHeld s st = false)
include hgo

theorem chainStoreAtLink_older (hlive : (chainAt s st.pkg st.ctx st.ch).cst ≠ 3)
    (hrouted : olderGen st.gen (chainAt s st.pkg st.ctx st.ch).gen = true) :
    Ends (.chainStoreAtLink st) s (s.routeAgain st (chainAt s st.pkg st.ctx st.ch)) :=
  congrArg Host.Outcome.next ((if_neg (by simp [hpass])).trans ((if_neg (by simp [hgo])).trans (if_pos ⟨hlive, hrouted⟩)))

theorem chainStoreAtLink_arrives
    (hnew : (chainAt s st.pkg st.ctx st.ch).cst = 3 ∨ olderGen st.gen (chainAt s st.pkg st.ctx st.ch).gen = false) :
    Ends (.chainStoreAtLink st) s (s.storeArrives st) := by
  have hcurrent : ¬((chainAt s st.pkg st.ctx st.ch).cst ≠ 3 ∧ olderGen st.gen (chainAt s st.pkg st.ctx st.ch).gen = true) := by
    rcases hnew with h | h <;> simp [h]
  exact congrArg Host.Outcome.next ((if_neg (by simp [hpass])).trans ((if_neg (by simp [hgo])).trans (if_neg hcurrent)))

end AtLink

/-! ## An acknowledgement and a completion (R103 to R105, R107) -/

theorem fireChain_mem (s : State) (head : Nat × Nat) (st : ChainStore) : (s.fireChain head st).mem = s.mem :=
  foldl_mem (fun _ _ => sendWake_mem ..) _ _

section Acknowledgement
variable {s : State} {st : ChainStore} {h : Nat}

/-- The head's own acknowledgement completes the store, and fires the monitors that the head keeps. -/
theorem chainAck_head (hhop : st.hop = 0) : ∃ t : State, s.chainAck st = t.launch (.chainStoreCompletion st) ∧ t.mem = s.mem ∧
    ((chainAt s st.pkg st.ctx st.ch).links = [] → t = s) ∧
    ∀ x ls, (chainAt s st.pkg st.ctx st.ch).links = x :: ls → t = s.fireChain x st := by
  cases hlinks : (chainAt s st.pkg st.ctx st.ch).links with
  | nil => exact ⟨s, by simp only [State.chainAck, hhop, hlinks], rfl, fun _ => rfl, nofun⟩
  | cons x ls =>
    refine ⟨s.fireChain x st, by simp only [State.chainAck, hhop, hlinks], fireChain_mem .., nofun, ?_⟩
    rintro _ _ ⟨rfl, rfl⟩
    rfl

/-- An acknowledgement takes the store out of the log of the member before, and goes on. -/
theorem chainAck_logged (hhop : st.hop = h + 1)
    (hlogged : logged (chainAt s st.pkg st.ctx st.ch) ((chainAt s st.pkg st.ctx st.ch).links.getD h (0, 0)) st = true) :
    logged (chainAt (s.chainAck st) st.pkg st.ctx st.ch) ((chainAt s st.pkg st.ctx st.ch).links.getD h (0, 0)) st = false ∧
      (s.chainAck st).mem = s.mem := by
  simp only [State.chainAck, hhop, hlogged, if_true]
  refine ⟨?_, by rw [(toMember_apart ..).2, onChainAt_mem]⟩
  rw [chainAt_of_apart _ _ _ (toMember_apart ..).1,
    chainAt_onChainAt_part (part := fun e => logged e ((chainAt s st.pkg st.ctx st.ch).links.getD h (0, 0)) st) (hnone := rfl)]
  simp only [logged, List.any_filter, Bool.not_and_self, List.any_eq_false]
  exact fun _ _ => Bool.false_ne_true

/-- An acknowledgement of a store that is not logged ends there. -/
theorem chainAck_unlogged (hhop : st.hop = h + 1)
    (hlogged : logged (chainAt s st.pkg st.ctx st.ch) ((chainAt s st.pkg st.ctx st.ch).links.getD h (0, 0)) st = false) :
    s.chainAck st = s := by
  simp only [State.chainAck, hhop, hlogged, Bool.false_eq_true, if_false]

end Acknowledgement

/-- What a core's state for a context is changed to is what it is (R135). -/
theorem holder_onHolder_same (s : State) (c ctx : Nat) (f : Core → Core) :
    (s.onHolder c ctx f).holder c ctx = f (s.holder c ctx) := by
  cases hsaved : Tbl.has (s.ctxAt ctx).saves c
  · simp [State.onHolder, State.holder, hsaved]
  · simp [State.onHolder, State.holder, hsaved]

section Completion
variable {s : State} {st : ChainStore} {q : AtomReq} {v : Word}

theorem chainStoreCompletion_own (hown : st.pkg = s.pkg.num) (hplain : st.answer = none) :
    Ends (.chainStoreCompletion st) s (s.onHolder st.core st.ctx fun x => x.completed st) := by
  refine congrArg Host.Outcome.next ?_
  simp only [if_pos hown, hplain]

theorem chainStoreCompletion_own_atomic (hown : st.pkg = s.pkg.num) (hatomic : st.answer = some (q, v)) :
    Ends (.chainStoreCompletion st) s ((s.onHolder st.core st.ctx fun x => x.completed st).answerAtomic q v) := by
  refine congrArg Host.Outcome.next ?_
  simp only [if_pos hown, hatomic]

theorem chainStoreCompletion_other (hother : st.pkg ≠ s.pkg.num) (hplain : st.answer = none) :
    Ends (.chainStoreCompletion st) s { s with outs := s.outs ++ [.chain st.pkg st] } := by
  refine congrArg Host.Outcome.next ?_
  simp only [if_neg hother, hplain]

theorem chainStoreCompletion_other_atomic (hother : st.pkg ≠ s.pkg.num) (hatomic : st.answer = some (q, v)) :
    Ends (.chainStoreCompletion st) s (s.answerAtomic q v) := by
  refine congrArg Host.Outcome.next ?_
  simp only [if_neg hother, hatomic]

end Completion

/-! ## Reads (R102, R106, R114) -/

section FillL1
variable (s : State) (c pa : Nat) (code : Bool)

theorem evictLine_outs (line : Nat) : (s.evictLine line).outs = s.outs :=
  foldl_keeps (f := fun s t => s.dropL1 line t none) State.outs (fun _ _ => rfl) _ s

theorem fillL2_outs : (s.fillL2 pa).outs = s.outs := by
  unfold State.fillL2
  dsimp only
  split
  · rfl
  · split
    · rfl
    · exact evictLine_outs ..
    · rfl

/-- A line that an L1 takes changes caches alone. -/
theorem fillL1_keeps : (s.fillL1 c pa code).apart = s.apart ∧
    (s.fillL1 c pa code).mem = s.mem ∧ (s.fillL1 c pa code).outs = s.outs := by
  have hfill : (s.fillL2 pa).apart = s.apart ∧ (s.fillL2 pa).mem = s.mem ∧ (s.fillL2 pa).outs = s.outs :=
    ⟨fillL2_apart .., fillL2_mem .., fillL2_outs ..⟩
  unfold State.fillL1
  dsimp only
  split
  · split <;> exact hfill
  · exact ⟨rfl, rfl, rfl⟩

end FillL1

/-- The bytes that a copy at an address answers a read with, as they leave for its reader (R106). -/
def State.servedFrom (s : State) (r : MemReq) (pa : Nat) : State :=
  { s with outs := s.outs ++ [.reply r.pkg r.core (BitVec.ofNat 64 (ofBytes (s.readPa pa (min 8 r.len))))] }

/-- A reader of the own package takes its bytes in its own step. -/
theorem serveCopy_own {s : State} {r : MemReq} (tenant pa : Nat) (h : r.pkg = s.pkg.num) : s.serveCopy r tenant pa = s :=
  if_pos (.inl h)

theorem serveCopy_other {s : State} {r : MemReq} {tenant pa : Nat} (h : r.pkg ≠ s.pkg.num) (hgood : sectorError s tenant pa = none) :
    s.serveCopy r tenant pa = s.servedFrom r pa := by
  rw [State.serveCopy, if_neg (by simp [h, hgood]), State.reply, if_neg h]
  rfl

/-- A record serves no read: it is that of a free or a lost chain, or a frozen one of another package (R114). -/
def readless (s : State) (pkg : Nat) (e : Chain) : Prop := e.cst = 0 ∨ e.cst = 3 ∨ (pkg ≠ s.pkg.num ∧ e.reconf = true)

theorem not_readless {s : State} {pkg : Nat} {e : Chain} (hfree : e.cst ≠ 0) (hlost : e.cst ≠ 3)
    (hthawed : pkg = s.pkg.num ∨ e.reconf = false) : ¬readless s pkg e := by
  rintro (h | h | ⟨hpkg, hreconf⟩)
  · exact hfree h
  · exact hlost h
  · rcases hthawed with h | h
    · exact hpkg h
    · simp [h] at hreconf

section Reads
variable {s : State} {r : MemReq} {pkg ctx ch off : Nat} (haddr : chainAddress s r = some ((pkg, ctx, ch), off))
include haddr

theorem chainRead_readless (h : readless s pkg (chainAt s pkg ctx ch)) : Ends (.chainRead r) s s := by
  refine congrArg Host.Outcome.next ?_
  simp only [haddr]
  exact if_pos h

section Read
variable (hgo : ¬readless s pkg (chainAt s pkg ctx ch))
include hgo

theorem chainRead_stale (hstale : staleRead s r (chainAt s pkg ctx ch) = true) : Ends (.chainRead r) s
    (s.sendChain (pkg, ctx, ch) (r.sender.getD r.pkg) (.chainRead { r with gen := (chainAt s pkg ctx ch).gen, sender := none })) := by
  refine congrArg Host.Outcome.next ?_
  simp only [haddr]
  exact (if_neg hgo).trans (if_pos hstale)

variable (hfresh : staleRead s r (chainAt s pkg ctx ch) = false)
include hfresh

theorem chainRead_dirty (hdirty : dirtyAt (chainAt s pkg ctx ch) (linkFor s r (chainAt s pkg ctx ch)) (lineOf off) = true) :
    Ends (.chainRead r) s (s.launch (.chainTailQuery r)) := by
  refine congrArg Host.Outcome.next ?_
  simp only [haddr]
  refine (if_neg hgo).trans ?_
  simp [hfresh, hdirty]

variable (hclean : dirtyAt (chainAt s pkg ctx ch) (linkFor s r (chainAt s pkg ctx ch)) (lineOf off) = false)
include hclean

theorem chainRead_held (hheld : copyHeld s (linkPa (linkFor s r (chainAt s pkg ctx ch)) off) = true) :
    Ends (.chainRead r) s (s.launch (.chainRead r)) := by
  refine congrArg Host.Outcome.next ?_
  simp only [haddr]
  refine (if_neg hgo).trans ?_
  simp [hfresh, hclean, hheld]

variable (hopen : copyHeld s (linkPa (linkFor s r (chainAt s pkg ctx ch)) off) = false)
include hopen

/-- The read of a core of the own package fills the core's L1. -/
theorem chainRead_own (hown : r.pkg = s.pkg.num) :
    Ends (.chainRead r) s (s.fillL1 r.core (linkPa (linkFor s r (chainAt s pkg ctx ch)) off) (r.acc == .fetch)) := by
  refine congrArg Host.Outcome.next ?_
  simp only [haddr]
  refine (if_neg hgo).trans ?_
  simp only [hfresh, hclean, hopen, if_pos hown, Bool.false_eq_true, if_false]
  exact serveCopy_own _ _ (hown.trans (pkgNum_of_apart (fillL1_keeps ..).1).symm)

theorem chainRead_other (hother : r.pkg ≠ s.pkg.num)
    (hgood : sectorError s (chainTenant s (pkg, ctx, ch)) (linkPa (linkFor s r (chainAt s pkg ctx ch)) off) = none) :
    Ends (.chainRead r) s (s.servedFrom r (linkPa (linkFor s r (chainAt s pkg ctx ch)) off)) := by
  refine congrArg Host.Outcome.next ?_
  simp only [haddr]
  refine (if_neg hgo).trans ?_
  simp only [hfresh, hclean, hopen, if_neg hother, Bool.false_eq_true, if_false]
  exact serveCopy_other hother hgood

end Read

section TailQuery

theorem chainTailQuery_idle (h : (chainAt s pkg ctx ch).cst = 0 ∨ (chainAt s pkg ctx ch).cst = 3) :
    Ends (.chainTailQuery r) s s := by
  refine congrArg Host.Outcome.next ?_
  simp only [haddr, if_pos h]

variable (hlive : ¬((chainAt s pkg ctx ch).cst = 0 ∨ (chainAt s pkg ctx ch).cst = 3))
include hlive

theorem chainTailQuery_stale (hstale : staleRead s r (chainAt s pkg ctx ch) = true) : Ends (.chainTailQuery r) s
    (s.sendChain (pkg, ctx, ch) (r.sender.getD r.pkg) (.tailQuery { r with gen := (chainAt s pkg ctx ch).gen, sender := none })) := by
  refine congrArg Host.Outcome.next ?_
  simp only [haddr, if_neg hlive, if_pos hstale]

variable (hfresh : staleRead s r (chainAt s pkg ctx ch) = false)
include hfresh

theorem chainTailQuery_reconf (hreconf : (chainAt s pkg ctx ch).reconf = true) :
    Ends (.chainTailQuery r) s (s.launch (.chainTailQuery r)) := by
  refine congrArg Host.Outcome.next ?_
  simp [haddr, if_neg hlive, hfresh, hreconf]

variable (hsettled : (chainAt s pkg ctx ch).reconf = false)
include hsettled

theorem chainTailQuery_elsewhere (hpkg : pkg ≠ s.pkg.num) (htail : (tailOf (chainAt s pkg ctx ch).links).1 ≠ s.pkg.num) :
    Ends (.chainTailQuery r) s
      (s.sendChain (pkg, ctx, ch) (tailOf (chainAt s pkg ctx ch).links).1 (.tailQuery { r with sender := none })) := by
  refine congrArg Host.Outcome.next ?_
  simp [haddr, if_neg hlive, hfresh, hsettled, hpkg, htail]

variable (hhere : pkg = s.pkg.num ∨ (tailOf (chainAt s pkg ctx ch).links).1 = s.pkg.num)
variable (hopen : copyHeld s (linkPa (tailOf (chainAt s pkg ctx ch).links) off) = false)
include hhere hopen

theorem chainTailQuery_served :
    Ends (.chainTailQuery r) s (s.serveCopy r (chainTenant s (pkg, ctx, ch)) (linkPa (tailOf (chainAt s pkg ctx ch).links) off)) := by
  have hnot : ¬(pkg ≠ s.pkg.num ∧ (tailOf (chainAt s pkg ctx ch).links).1 ≠ s.pkg.num) := by
    rintro ⟨hpkg, htail⟩
    exact hhere.elim hpkg htail
  refine congrArg Host.Outcome.next ?_
  simp only [haddr, if_neg hlive, hfresh, hsettled, if_neg hnot, hopen, Bool.false_eq_true, if_false]

end TailQuery
end Reads

/-! ## Sync and promotion (R109) -/

theorem sendSync_eq (s : State) (ctx ch : Nat) (b : UalBody) : ∃ os, s.sendSync ctx ch b = { s with outs := os } := by
  unfold State.sendSync
  dsimp only
  split
  · split
    · exact ⟨_, rfl⟩
    · exact ⟨s.outs, rfl⟩
  · exact ⟨s.outs, rfl⟩

/-- The in-die offset of the page that a sync copies next. -/
def syncPage (e : Chain) : Nat := (e.base + e.done) * 65536

section Sync
variable {s : State} {ctx ch : Nat} {y : Nat × Nat}

/-- The next page of a sync is copied to its link, and the step that follows is in progress; requests of the sync have left. -/
def State.pageCopied (s : State) (ctx ch : Nat) (y : Nat × Nat) (os : List Out) : State :=
  ((({ s with outs := os } : State).copyFrame (linkPa (tailOf (chainOf s ctx ch).links) (syncPage (chainOf s ctx ch)))
    (linkPa y (syncPage (chainOf s ctx ch)))).onChain ctx ch fun e => { e with done := e.done + 1 }).launch
      (if (chainOf s ctx ch).done = (chainOf s ctx ch).npg then .chainPromotionMarker ctx ch else .chainPageCopy ctx ch)

/-- A page of the range is copied, unless it is the poisoned frame of a promotion (Table 3.6). -/
theorem chainPageCopy_ends (hsync : (chainOf s ctx ch).sync = some y) (hdone : (chainOf s ctx ch).done ≤ (chainOf s ctx ch).npg)
    (hgood : promotionOf s ctx ch = none ∨
      framePoisoned s ctx (linkPa (tailOf (chainOf s ctx ch).links) (syncPage (chainOf s ctx ch))) = false) :
    ∃ os, Ends (.chainPageCopy ctx ch) s (s.pageCopied ctx ch y os) := by
  have hgo : ((promotionOf s ctx ch).filter fun _ =>
      framePoisoned s ctx (linkPa (tailOf (chainOf s ctx ch).links) (syncPage (chainOf s ctx ch)))) = none := by
    rcases hgood with h | h
    · rw [h]
      rfl
    · simp [h]
  unfold State.pageCopied
  unfold syncPage at hgo ⊢
  obtain ⟨os, hpage⟩ := sendSync_eq s ctx ch (.chainPage s.pkg.num ctx ch ((chainOf s ctx ch).base + (chainOf s ctx ch).done)
    (pageData s (tailOf (chainOf s ctx ch).links) ((chainOf s ctx ch).base + (chainOf s ctx ch).done)))
  obtain ⟨os', hmark⟩ := sendSync_eq { s with outs := os } ctx ch (.chainMark s.pkg.num ctx ch)
  by_cases hlast : (chainOf s ctx ch).done = (chainOf s ctx ch).npg
  · refine ⟨os', congrArg Host.Outcome.next ?_⟩
    simp only [hsync, hdone, decide_true, hgo, hpage, if_pos hlast, hmark]
  · refine ⟨os, congrArg Host.Outcome.next ?_⟩
    simp only [hsync, hdone, decide_true, hgo, hpage, if_neg hlast]

theorem pageCopied_done (s : State) (ctx ch : Nat) (y : Nat × Nat) (os : List Out) :
    (chainOf (s.pageCopied ctx ch y os) ctx ch).done = (chainOf s ctx ch).done + 1 := by
  rw [State.pageCopied, chainOf_of_apart _ _ (launch_apart ..), chainOf_onChain_same]
  rfl

theorem pageCopied_read (y : Nat × Nat) (os : List Out) (hcanonical : Canonical s) {i : Nat} (hi : i < 65536) :
    (s.pageCopied ctx ch y os).mem.read (linkPa y (syncPage (chainOf s ctx ch)) + i) =
      s.mem.read (linkPa (tailOf (chainOf s ctx ch).links) (syncPage (chainOf s ctx ch)) + i) :=
  copyFrame_read (s := { s with outs := os }) _ _ hcanonical hi

/-- The marker of a sync that no promotion and no ch.relink began makes the syncing link the tail. -/
theorem marker_promotes (hsync : (chainOf s ctx ch).sync = some y) (hdone : (chainOf s ctx ch).done = (chainOf s ctx ch).npg + 1)
    (hplain : promotionOf s ctx ch = none) (hstays : (chainOf s ctx ch).leaving = none) :
    chainOf (s.marker ctx ch) ctx ch = { (chainOf s ctx ch).promoted y with leaving := none, mbox := none } := by
  have hmarker : s.marker ctx ch = s.linkMarker ctx ch y := by simp [State.marker, hsync, hdone, hplain]
  have hlink : s.linkMarker ctx ch y = ((((s.onChain ctx ch fun e => e.promoted y).announce ctx ch []).onChain ctx ch
      fun e => { e with leaving := none, mbox := none }).mailbox ctx (chainOf s ctx ch).mbox 1) := by
    simp only [State.linkMarker, hstays]
  rw [hmarker, hlink, chainOf_of_apart _ _ (mailbox_apart ..), chainOf_onChain_same, chainOf_of_apart _ _ (announce_apart ..),
    chainOf_onChain_same]

/-- A marker without a finished sync changes nothing (log 8 DESIGN CHOICE). -/
theorem marker_early (h : (chainOf s ctx ch).sync = none ∨ (chainOf s ctx ch).done ≠ (chainOf s ctx ch).npg + 1) :
    s.marker ctx ch = s := by
  unfold State.marker
  dsimp only
  split
  · rfl
  · rename_i y hy
    have hunfinished := h.resolve_left (by simp [hy])
    rw [if_pos hunfinished]

end Sync

/-! ## The hand-off of a head (R111) -/

section Handoff
variable {s : State} {ctx ch : Nat} (hreconf : (chainOf s ctx ch).reconf = true)
include hreconf

theorem chainHeadHandoff_undrained (hdrained : chainDrained s ctx ch = false) :
    Ends (.chainHeadHandoff ctx ch) s (s.launch (.chainHeadHandoff ctx ch)) := by
  refine congrArg Host.Outcome.next ?_
  simp [hreconf, hdrained]

variable (hdrained : chainDrained s ctx ch = true)
include hdrained

/-- A drained head leaves, and the next member has its role. -/
theorem chainHeadHandoff_drained (hmembers : 1 < (chainOf s ctx ch).links.length) :
    ∃ t, Ends (.chainHeadHandoff ctx ch) s t ∧ chainOf t ctx ch = (chainOf s ctx ch).behead := by
  have hmany : ¬(chainOf s ctx ch).links.length ≤ 1 := by omega
  refine ⟨_, rfl, ?_⟩
  simp only [hreconf, hdrained, if_neg hmany, Bool.not_true, Bool.false_eq_true, if_false]
  have hbehead : ∀ told mpa status, chainOf (((((s.moveMons ctx ch ((chainOf s ctx ch).links.headD (0, 0))
      ((chainOf s ctx ch).links.getD 1 (0, 0))).onChain ctx ch Chain.behead).announce ctx ch told).mailbox ctx mpa status)) ctx ch =
      (chainOf s ctx ch).behead := by
    intro told mpa status
    rw [chainOf_of_apart _ _ (mailbox_apart ..), chainOf_of_apart _ _ (announce_apart ..), chainOf_onChain_same,
      chainOf_of_apart _ _ (moveMons_apart ..)]
  split
  · rw [chainOf_log, hbehead]
  · exact hbehead ..

/-- The only member stays, unless the command frees the chain. -/
theorem chainHeadHandoff_last (hlast : (chainOf s ctx ch).links.length ≤ 1) (hfreeing : (chainOf s ctx ch).freeing = false) :
    ∃ t, Ends (.chainHeadHandoff ctx ch) s t ∧
      chainOf t ctx ch = { chainOf s ctx ch with reconf := false, handoff := none, freeing := false } := by
  refine ⟨_, rfl, ?_⟩
  simp only [hreconf, hdrained, if_pos hlast, hfreeing, Bool.not_true, Bool.false_eq_true, if_false]
  rw [chainOf_of_apart _ _ (mailbox_apart ..), chainOf_onChain_same]

end Handoff

/-! ## Clean (R119) -/

/-- A ch.clean still waits: the chain is not lost, and a store that it waits for is in progress. -/
def cleanWaits (s : State) (ctx ch : Nat) (q : Option Nat × List (Nat × Nat × Nat)) : Bool :=
  (chainOf s ctx ch).cst != 3 && q.2.any (openStores s ctx ch).contains

/-- Each ch.clean that waits no longer has its status, and the others stay. -/
def State.cleaned (s : State) (ctx ch : Nat) : State :=
  ((chainOf s ctx ch).clean.filter fun q => !cleanWaits s ctx ch q).foldl
    (fun t q => t.mailbox ctx q.1 (if (chainOf s ctx ch).cst = 3 then 2 else 1))
    (s.onChain ctx ch fun e => { e with clean := (chainOf s ctx ch).clean.filter (cleanWaits s ctx ch) })

theorem chainCleanDone_ends (s : State) (ctx ch : Nat) : Ends (.chainCleanDone ctx ch) s
    (if (chainOf s ctx ch).clean.filter (cleanWaits s ctx ch) = [] then s.cleaned ctx ch
     else (s.cleaned ctx ch).launch (.chainCleanDone ctx ch)) := rfl

theorem cleaned_clean (s : State) (ctx ch : Nat) :
    (chainOf (s.cleaned ctx ch) ctx ch).clean = (chainOf s ctx ch).clean.filter (cleanWaits s ctx ch) := by
  have hstatus : (s.cleaned ctx ch).apart =
      (s.onChain ctx ch fun e => { e with clean := (chainOf s ctx ch).clean.filter (cleanWaits s ctx ch) }).apart :=
    foldl_apart _ (fun t (q : Option Nat × List (Nat × Nat × Nat)) => mailbox_apart t ctx q.1 _) _
  rw [chainOf_of_apart _ _ hstatus, chainOf_onChain_same]

/-- While every ch.clean waits, nothing is sent. -/
theorem cleaned_flight {s : State} {ctx ch : Nat} (h : ∀ x ∈ (chainOf s ctx ch).clean, cleanWaits s ctx ch x = true) :
    (s.cleaned ctx ch).flight = s.flight := by
  have hnone : ((chainOf s ctx ch).clean.filter fun q => !cleanWaits s ctx ch q) = [] := by simpa using h
  rw [State.cleaned, hnone]
  rfl

theorem cleanWaits_iff {s : State} {ctx ch : Nat} {x : Option Nat × List (Nat × Nat × Nat)} :
    cleanWaits s ctx ch x = true ↔ (chainOf s ctx ch).cst ≠ 3 ∧ ∃ i ∈ x.2, i ∈ openStores s ctx ch := by
  simp [cleanWaits]

/-! ## The obligation -/

/-- Settles O51: each step is one operation on the record of a chain, whose own lemmas say what it leaves of the record and of
memory. -/
theorem chainSteps : Obligations.ChainSteps := by
  intro s st r q v ctx ch off pkg die h y l e k
  refine ⟨fun hbarred => ?barred, fun hpass => ⟨chainStoreAtLink_held hpass, fun hgo => ⟨chainStoreAtLink_older hpass hgo,
    chainStoreAtLink_arrives hpass hgo, fun hnew hfree hlink hunseen hsync hport hdistinct => ?stored⟩⟩, fun hhop => ?headAck,
    fun hhop => ⟨fun hlogged => ?logged, fun hlogged => ?unlogged⟩,
    fun hown => ⟨?completed, chainStoreCompletion_own hown, chainStoreCompletion_own_atomic hown⟩,
    fun hother => ⟨chainStoreCompletion_other hother, chainStoreCompletion_other_atomic hother⟩,
    fun haddr => ?reads, fun hsync hdone hgood => ?copied, fun hsync hdone hplain hstays => ?promoted,
    fun hearly => congrArg Host.Outcome.next (marker_early hearly), chainHeadHandoff_undrained,
    fun hreconf hdrained => ⟨fun hmembers => ?handed, fun hlast hfreeing => ?last⟩, fun hdone => ?clean,
    fun hlive hsome hopen => ?waiting, fun hgone => ?gone, fun hother hreached => ?lost⟩
  case barred =>
    exact ⟨_, chainStoreAtLink_barred hbarred, fun _ => rfl, by simp [State.note], rfl⟩
  case stored =>
    exact ⟨_, chainStoreAtLink_arrives hpass hgo hnew, fun d hd => storeArrives_read hlink hunseen hsync hport hfree hdistinct hd⟩
  case headAck =>
    obtain ⟨t, hack, hmem, hnone, hsome⟩ := chainAck_head hhop
    exact ⟨t, congrArg Host.Outcome.next hack, fun b => by rw [hmem], hnone, hsome⟩
  case logged =>
    obtain ⟨hcleared, hmem⟩ := chainAck_logged hhop hlogged
    exact ⟨_, rfl, hcleared, fun b => by rw [hmem]⟩
  case unlogged => exact congrArg Host.Outcome.next (chainAck_unlogged hhop hlogged)
  case completed => exact congrArg Core.chainOut (holder_onHolder_same ..)
  case reads =>
    intro e own tail served
    refine ⟨chainRead_readless haddr, chainTailQuery_idle haddr, fun hfree hlost hstale => ⟨fun hthawed => ?_, ?_⟩,
      fun hfree hlost hfresh hthawed => ⟨?_, ?_, fun hclean hopen => ⟨fun hmine => ?_, ?_⟩⟩, fun hfree hlost => ?_,
      fun hfree hlost hfresh hsettled => ⟨fun hpkg htail => ?_, fun hhere hopen => ⟨fun hmine => ?_, fun hother hgood => ?_⟩⟩⟩
    · exact chainRead_stale haddr (not_readless hfree hlost hthawed) hstale
    · exact chainTailQuery_stale haddr (not_or.mpr ⟨hfree, hlost⟩) hstale
    · exact chainRead_dirty haddr (not_readless hfree hlost hthawed) hfresh
    · exact chainRead_held haddr (not_readless hfree hlost hthawed) hfresh
    · obtain ⟨-, hmem, houts⟩ := fillL1_keeps s r.core (linkPa own off) (r.acc == .fetch)
      exact ⟨_, chainRead_own haddr (not_readless hfree hlost hthawed) hfresh hclean hopen hmine, fun b => by rw [hmem], houts⟩
    · exact chainRead_other haddr (not_readless hfree hlost hthawed) hfresh hclean hopen
    · exact chainTailQuery_reconf haddr (not_or.mpr ⟨hfree, hlost⟩)
    · exact ⟨_, chainTailQuery_elsewhere haddr (not_or.mpr ⟨hfree, hlost⟩) hfresh hsettled hpkg htail, rfl⟩
    · have hserved := chainTailQuery_served haddr (not_or.mpr ⟨hfree, hlost⟩) hfresh hsettled hhere hopen
      rwa [serveCopy_own _ _ hmine] at hserved
    · have hserved := chainTailQuery_served haddr (not_or.mpr ⟨hfree, hlost⟩) hfresh hsettled hhere hopen
      rwa [serveCopy_other hother hgood] at hserved
  case copied =>
    obtain ⟨os, hends⟩ := chainPageCopy_ends hsync hdone hgood
    exact ⟨_, hends, pageCopied_done .., rfl, fun hcanonical i hi => pageCopied_read y os hcanonical hi⟩
  case promoted =>
    have hchain := marker_promotes hsync hdone hplain hstays
    exact ⟨_, rfl, congrArg Chain.links hchain, congrArg Chain.sync hchain⟩
  case handed =>
    obtain ⟨t, hends, hchain⟩ := chainHeadHandoff_drained hreconf hdrained hmembers
    exact ⟨t, hends, congrArg Chain.links hchain, congrArg Chain.reconf hchain⟩
  case last =>
    obtain ⟨t, hends, hchain⟩ := chainHeadHandoff_last hreconf hdrained hlast hfreeing
    exact ⟨t, hends, by rw [hchain], by rw [hchain]⟩
  case clean =>
    have hnone : e.clean.filter (cleanWaits s ctx ch) = [] := by
      rw [List.filter_eq_nil_iff]
      intro x hx hwaits
      obtain ⟨hlive, i, hi, hopen⟩ := cleanWaits_iff.mp hwaits
      exact (hdone x hx).elim hlive fun hclosed => hclosed i hi hopen
    have hends := chainCleanDone_ends s ctx ch
    rw [if_pos hnone] at hends
    exact ⟨_, hends, (cleaned_clean s ctx ch).trans hnone⟩
  case waiting =>
    have hwaits : ∀ x ∈ e.clean, cleanWaits s ctx ch x = true := fun x hx => cleanWaits_iff.mpr ⟨hlive, hopen x hx⟩
    have hall : e.clean.filter (cleanWaits s ctx ch) = e.clean := List.filter_eq_self.mpr hwaits
    have hends := chainCleanDone_ends s ctx ch
    rw [if_neg (by rw [hall]; exact hsome)] at hends
    exact ⟨_, hends, (cleaned_clean s ctx ch).trans hall, congrArg (· ++ [_]) (cleaned_flight hwaits)⟩
  case gone => exact congrArg Host.Outcome.next (if_pos (by simpa using hgone))
  case lost => exact congrArg Host.Outcome.next (if_neg (by simp [hother, hreached]))

end Sys2Proof.Machine
end

section
/-!
PROOFS. The steps of home slices, of combining units and of remote ports: each way in which a step can go is a lemma about the state
that it leaves.
-/
namespace Sys2Proof.Machine

/-! ## Reads and writes at a home slice (R123, R128) -/

section Slice
variable {s : State} {r : MemReq}

/-- A request to a slice that is being moved, or is not ready, waits there. -/
theorem homeSliceAccess_held (hown : ownHbm s r.pa = true) (hheld : accessHeld s r.pa = true) :
    Ends (.homeSliceAccess r) s (s.waitAtSlice r.pa r.here (.homeSliceAccess { r with here := true })) :=
  congrArg Host.Outcome.next ((if_neg (by simp [hown])).trans (if_pos hheld))

theorem homeSliceAccess_read (hown : ownHbm s r.pa = true) (hopen : accessHeld s r.pa = false) (hread : r.data = []) :
    Ends (.homeSliceAccess r) s (s.serveRead r) :=
  congrArg Host.Outcome.next ((if_neg (by simp [hown])).trans ((if_neg (by simp [hopen])).trans (if_pos hread)))

theorem homeSliceAccess_write (hown : ownHbm s r.pa = true) (hopen : accessHeld s r.pa = false) (hwrite : r.data ≠ []) :
    Ends (.homeSliceAccess r) s (s.serveWrite r) :=
  congrArg Host.Outcome.next ((if_neg (by simp [hown])).trans ((if_neg (by simp [hopen])).trans (if_neg hwrite)))

theorem serveRead_held (hheld : lineHeld s r.pa r.here = true) :
    s.serveRead r = s.waitAtSlice r.pa r.here (.homeSliceAccess { r with here := true }) := if_pos hheld

/-- A reader of another package is sent the bytes of the line, which its slice keeps. -/
theorem serveRead_other (hfree : lineHeld s r.pa r.here = false) (hgood : hbmError s r.ctx r.pa = none)
    (hother : r.pkg ≠ s.pkg.num) : s.serveRead r = (s.fillL2 r.pa).servedFrom r r.pa := by
  have hnum : r.pkg ≠ (s.fillL2 r.pa).pkg.num := by rwa [pkgNum_of_apart (fillL2_apart ..)]
  simp only [State.serveRead, hfree, hgood, beq_false_of_ne hother, State.reply, Option.isSome_none, Bool.false_and,
    Bool.false_eq_true, if_false, if_neg hnum]
  rfl

/-- The answer to a reader of another package changes no memory, and is the bytes that the line held. -/
theorem servedFrom_fillL2 (s : State) (r : MemReq) : SameMemory s ((s.fillL2 r.pa).servedFrom r r.pa) ∧
    ((s.fillL2 r.pa).servedFrom r r.pa).outs =
      s.outs ++ [.reply r.pkg r.core (BitVec.ofNat 64 (ofBytes (s.readPa r.pa (min 8 r.len))))] := by
  have hmem : (s.fillL2 r.pa).mem = s.mem := fillL2_mem ..
  have hbytes : (s.fillL2 r.pa).readPa r.pa (min 8 r.len) = s.readPa r.pa (min 8 r.len) := by rw [State.readPa, hmem, State.readPa]
  refine ⟨fun b => congrArg (Mem.read · b) hmem, ?_⟩
  rw [← fillL2_outs s r.pa, ← hbytes]
  rfl

/-- A write that reaches its slice now waits behind the requests that wait there for its line. -/
theorem serveWrite_awaited (hlive : (s.dieAt (hbmDieOf r.pa)).lost = false) (hhere : r.here = false)
    (hwait : lineAwaited s r.pa = true) :
    s.serveWrite r = s.waitAtSlice r.pa r.here (.homeSliceAccess { r with here := true }) := by
  rw [hhere]
  exact (if_neg (by simp [hlive])).trans (if_pos (by simp [hhere, hwait]))

/-- A write that is served writes its bytes; all that follows from it leaves memory. -/
theorem serveWrite_mem (hlive : (s.dieAt (hbmDieOf r.pa)).lost = false) (hturn : r.here = true ∨ lineAwaited s r.pa = false) :
    (s.serveWrite r).mem = s.mem.writeN r.pa r.data := by
  have hserved : (!r.here && lineAwaited s r.pa) = false := by rcases hturn with h | h <;> simp [h]
  simp only [State.serveWrite, hlive, hserved, Bool.false_eq_true, if_false, fireMonitors_mem, tamper_mem, stamp_mem]
  simp only [apply_ite State.mem, count_mem, foldl_mem (fun _ _ => launch_mem ..), ite_self, fillL2_mem, writePa_mem]

end Slice

/-! ## Atomics and watches at their home (R128, R256, R258) -/

section Atomic
variable {s : State} {a : AtomReq} (hplain : a.pkg = s.pkg.num ∨ a.chain = none)
include hplain

/-- An atomic of the own package, or on no chain, is not one for a foreign record. -/
theorem atomic_not_foreign : (if a.pkg = s.pkg.num then none else a.chain) = none := by
  rcases hplain with h | h <;> simp [h]

theorem atomicAtHome_waits (hwait : headWaits s a.core (atomPlace a) a.here = true) :
    Ends (.atomicAtHome a) s (s.waitAtSlice a.pa a.here (.atomicAtHome { a with here := true })) := by
  refine congrArg Host.Outcome.next ?_
  simp only [atomic_not_foreign hplain, hwait, if_true]

/-- An atomic that no ordered activation has made is one step, and its answer leaves, but for one on a chain. -/
theorem atomicAtHome_done (hgo : headWaits s a.core (atomPlace a) a.here = false) (hgood : homeFails s a.ctx (atomPlace a) = none)
    (hfree : ∀ m ∈ membersUnder s 32 a, m.okey = none) :
    let r := s.atomicAt a.core a.ctx (atomPlace a) a.fn a.width a.operand a.cmp a.va (some a)
    Ends (.atomicAtHome a) s (if a.chain.isSome then r.2 else r.2.answerAtomic a r.1) := by
  have hcalm : ∀ (t : State) (ls : Option (List Nat)),
      (membersUnder s 32 a).foldl (fun t m => t.conflict (orderedBy m.ctx m.okey) ls) t = t := fun t ls =>
    List.foldlRecOn (motive := fun u => u = t) _ _ rfl fun u hu m hm => by
      rw [hfree m hm, hu]
      simp [State.conflict, orderedBy]
  refine congrArg Host.Outcome.next ?_
  simp only [atomic_not_foreign hplain, hgo, hgood, hcalm, Bool.false_eq_true, if_false]

end Atomic

section Watch
variable {s : State} {w : WatchReq}

theorem watchArmAtHome_waits (hwait : lineHeld s w.pa w.here = true ∨ accessHeld s w.pa = true) :
    Ends (.watchArmAtHome w) s (s.waitAtSlice w.pa w.here (.watchArmAtHome { w with here := true })) :=
  congrArg Host.Outcome.next (if_pos (by simpa using hwait))

variable (hown : w.origin = none)
include hown

theorem watchArmAtHome_arms (hfree : lineHeld s w.pa w.here = false) (hopen : accessHeld s w.pa = false) :
    Ends (.watchArmAtHome w) s (s.watchAt w) := by
  refine congrArg Host.Outcome.next ((if_neg (by simp [hfree, hopen])).trans ?_)
  rw [hown]
  rfl

theorem watchAt_differs (hdiff : watchDiffers w (watchValue s w) = true) :
    let z := (s.count w.ctx (dieOf w.core) w.pa true).askRemote w.ctx w.pa (.watch w)
    s.watchAt w = z.send (watchWake z w (watchValue s w) 1) := by
  simp [State.watchAt, hown, hdiff, State.sendWake]

theorem watchAt_keeps (hsame : watchDiffers w (watchValue s w) = false) (hrow : rowOf w.pa ≠ .localStore) :
    let z := (s.count w.ctx (dieOf w.core) w.pa true).askRemote w.ctx w.pa (.watch w)
    monsAt z w.pa < 256 → s.watchAt w = { z with mons := z.mons ++ [w] } := by
  intro z hroom
  have hfull : ¬256 ≤ monsAt z w.pa := by omega
  simp only [State.watchAt, hown, hsame, hfull, hrow, z, Option.isSome_none, Bool.false_eq_true, if_false, decide_false,
    Bool.false_and]

end Watch

/-! ## Remote ports (R251) -/

theorem remotePortAccess_write {s : State} {r : MemReq} (hrow : rowOf r.pa = .localStore) (hpkg : paPkg r.pa = s.pkg.num)
    (hopen : placeHeld s (.mem r.pa) = false) (hwrite : r.data ≠ []) :
    Ends (.remotePortAccess r) s
      (s.perform r.ctx (if r.pkg = s.pkg.num then some r.core else none) (lsRedirect s r.ctx r.pa) r.data) :=
  congrArg Host.Outcome.next
    ((if_neg (by simp [hrow, hpkg])).trans ((if_neg (by simp [hopen])).trans (if_neg hwrite)))

/-! ## Combining (R130 to R135) -/

section Units
variable (s : State) (u : Nat) (f g : CombUnit → CombUnit)

@[simp] theorem unitOf_onUnit_same : unitOf (s.onUnit u f) u = f (unitOf s u) := by simp [unitOf, State.onUnit]
@[simp] theorem unitOf_launch (i : Instr) : unitOf (s.launch i) u = unitOf s u := rfl
@[simp] theorem onUnit_onUnit : (s.onUnit u f).onUnit u g = s.onUnit u fun x => g (f x) := by
  simp [State.onUnit, unitOf]

end Units

section Combine
variable {s : State} {u port : Nat} {a : AtomReq} {e : CombEntry}

/-- A unit passes a request that it has passed before (Table 6.3). -/
theorem combineRequest_again (hpassed : a.passed.contains u = true) : Ends (.combineRequest u port a) s (s.forward u a) :=
  congrArg Host.Outcome.next (if_pos hpassed)

variable (hnew : a.passed.contains u = false)
include hnew

theorem combineRequest_joins (hopen : ((unitOf s u).entries.find? fun f => f.admits a) = some e) :
    Ends (.combineRequest u port a) s (s.onUnit u fun x => { x with entries := x.entries.map fun f =>
      if f.id = e.id then { f with members := f.members ++ [(port, a)] } else f }) := by
  refine congrArg Host.Outcome.next ((if_neg (by simpa using hnew)).trans ?_)
  simp only [hopen]

variable (hnone : ((unitOf s u).entries.find? fun f => f.admits a) = none)
include hnone

/-- A unit that combines nothing, has been removed or is full passes a request that no entry admits. -/
theorem combineRequest_passes
    (hshut : s.pkg.cbctl.getLsbD 0 = false ∨ (unitOf s u).removed = true ∨ 32 ≤ (unitOf s u).entries.length) :
    Ends (.combineRequest u port a) s (s.forward u a) := by
  refine congrArg Host.Outcome.next ((if_neg (by simpa using hnew)).trans ?_)
  simp only [hnone]
  exact if_pos (by simpa [bit_toNat_eq_getLsbD, or_assoc] using hshut)

theorem combineRequest_opens (hen : s.pkg.cbctl.getLsbD 0 = true) (hlive : (unitOf s u).removed = false)
    (hroom : (unitOf s u).entries.length < 32) :
    Ends (.combineRequest u port a) s ((s.onUnit u fun x => { x with
      next := x.next + 1, entries := x.entries ++ [⟨x.next, s.pkg.cyc.toNat, windowOf s u, [(port, a)]⟩] }).launch
        (.combineWindowExpiry u (unitOf s u).next)) := by
  refine congrArg Host.Outcome.next ((if_neg (by simpa using hnew)).trans ?_)
  simp only [hnone]
  exact if_neg (by simpa [bit_toNat_eq_getLsbD, hen, hlive] using hroom)

end Combine

/-- An entry that is due becomes one request, whose members the crumb lists. -/
theorem combineWindowExpiry_sends {s : State} {u id : Nat} {e : CombEntry}
    (hentry : ((unitOf s u).entries.find? fun f => f.id == id) = some e) (hdue : entryDue s e = true)
    (hroom : (unitOf s u).crumbs.length + (unitOf s u).retired < 256) :
    Ends (.combineWindowExpiry u id) s
      ((s.onUnit u fun x => { x with
        entries := x.entries.filter (fun f => f.id != id), crumbs := Tbl.put x.crumbs id ⟨some e.inOrder, some e.inOrder⟩ }).forward
        u (combined u id (e.inOrder.map Prod.snd))) := by
  refine congrArg Host.Outcome.next ?_
  simp only [hentry, hdue, Nat.not_le.mpr hroom, Bool.not_true, Bool.false_eq_true, if_false, onUnit_onUnit]

/-! ## The obligation -/

/-- Settles O49: each clause is one way in which a step can go, and the lemma about it says what the step leaves. -/
theorem homeSteps : Obligations.HomeSteps := by
  intro s r a w line target u port id c rtag v lost e
  refine ⟨fun hown => ⟨homeSliceAccess_held hown, fun hopen => ⟨fun hwrite hlive hturn => ?written,
      fun hwrite hlive hhere hwait => ?awaited, fun hread hheld => ?held, fun hread hfree hgood hother => ?answered⟩⟩,
    ⟨_, rfl, rfl, fun _ => rfl⟩,
    ⟨fun hbusy => congrArg Host.Outcome.next (if_pos (by simpa using hbusy)),
      fun hidle => congrArg Host.Outcome.next (if_neg (by simpa using hidle))⟩,
    fun hplain => ⟨atomicAtHome_waits hplain, fun hgo hgood hfree => ?done⟩, watchArmAtHome_waits,
    fun hfree hopen hown => ⟨fun hdiff => ?woken, fun hsame hroom hrow => ?kept⟩, remotePortAccess_write,
    ⟨combineRequest_again, combineRequest_joins, combineRequest_passes, fun hnew hnone hen hlive hroom => ?opened,
      combineWindowExpiry_sends, fun hlost => congrArg Host.Outcome.next (if_neg (by simp [hlost])),
      fun hcrumb => congrArg Host.Outcome.next (if_pos hcrumb)⟩, fun hfound hgone hlate => ?lost⟩
  case written =>
    have hmem := serveWrite_mem hlive hturn
    refine ⟨_, homeSliceAccess_write hown hopen hwrite, fun k hk => ?_, fun b hb => ?_⟩
    · rw [hmem, Mem.read_writeN_in _ _ _ _ hk, List.getD_eq_getElem _ _ hk]
    · rw [hmem, Mem.read_writeN_out _ _ _ _ hb]
  case awaited =>
    rw [← serveWrite_awaited hlive hhere hwait]
    exact homeSliceAccess_write hown hopen hwrite
  case held =>
    rw [← serveRead_held hheld]
    exact homeSliceAccess_read hown hopen hread
  case answered =>
    have hserved := homeSliceAccess_read hown hopen hread
    rw [serveRead_other hfree hgood hother] at hserved
    exact ⟨_, hserved, servedFrom_fillL2 s r⟩
  case done =>
    have hdone := atomicAtHome_done hplain hgo hgood hfree
    exact ⟨fun hmem => by simpa [hmem] using hdone, fun hchain => by simpa [Option.isSome_iff_ne_none, hchain] using hdone⟩
  case woken =>
    rw [← watchAt_differs hown hdiff]
    exact watchArmAtHome_arms hown hfree hopen
  case kept =>
    rw [← watchAt_keeps hown hsame hrow hroom]
    exact watchArmAtHome_arms hown hfree hopen
  case opened =>
    exact ⟨_, combineRequest_opens hnew hnone hen hlive hroom, by rw [unitOf_launch, unitOf_onUnit_same], rfl⟩
  case lost =>
    refine congrArg Host.Outcome.next ?_
    simp only [hfound, hgone, Nat.not_lt.mpr hlate, Bool.false_eq_true, if_false]

end Sys2Proof.Machine
end

section
/-!
PROOFS. The steps of the matrix and copy engines: what a command that completes leaves of its core's tiles, what the share of each
core in a gang reads and writes, and the beats of a channel.
-/
namespace Sys2Proof.Machine

/-! ## The tiles of an engine (R202, R210) -/

section Tiles
variable (x : Core) (m : Matrix) (t n : TReg) (v : MTile)

@[simp] theorem tile_setTile_same : (m.setTile t v).tile t = v := by simp [Matrix.tile, Matrix.setTile]
theorem tile_setTile_ne (h : n ≠ t) : (m.setTile t v).tile n = m.tile n := by
  have hne : t.toNat ≠ n.toNat := fun e => h (BitVec.eq_of_toNat_eq e.symm)
  simp only [Matrix.tile, Matrix.setTile, Vector.getElem_set, if_neg hne]

/-- A shadow that is taken leaves tiles and queue. -/
theorem shadowed_tile : (x.shadowed t).tile n = x.mx.tile n := by
  unfold Core.shadowed
  dsimp only
  split <;> rfl
theorem shadowed_queue : (x.shadowed t).queue = x.mx.queue := by
  unfold Core.shadowed
  dsimp only
  split <;> rfl

variable {k : MxCmd} (fl : FFlags) (hla : k.la = 0)
include hla

/-- A result without a window is in its tile at once. -/
theorem tileResult_mx : (x.tileResult k t v fl).mx = (x.shadowed t).setTile t v := if_pos hla

theorem tileResult_tile_same : (x.tileResult k t v fl).mx.tile t = v := by rw [tileResult_mx x t v fl hla, tile_setTile_same]
theorem tileResult_tile_ne (h : n ≠ t) : (x.tileResult k t v fl).mx.tile n = x.mx.tile n := by
  rw [tileResult_mx x t v fl hla, tile_setTile_ne _ _ _ _ h, shadowed_tile]
theorem tileResult_queue : (x.tileResult k t v fl).mx.queue = x.mx.queue := by
  rw [tileResult_mx x t v fl hla]
  exact shadowed_queue x t

end Tiles

/-- An element of a tile after a multiplication: the sum of its group, or what it was in a masked column (R171, R214, R221). -/
theorem multiply_elem (mask : BitVec 32) (old : Tile) (tick : Nat) (ps : Nat → Nat → List (Option FVal × Option FVal))
    (i j : Fin 32) :
    (multiply mask old tick ps).1[i][j] = if mask.getLsbD j.val then
      (accumulate old[i][j] (Config.freeLane tick (32 * i.val + j.val)) (Config.freeLane tick (1024 + 32 * i.val + j.val))
        (ps i.val j.val)).1
      else old[i][j] := by
  simp only [multiply, Fin.getElem_fin, Vector.getElem_map, Vector.getElem_ofFn]
  split <;> rfl

/-! ## What a command leaves of its core (R125, R127, R301) -/

section Command
variable (s : State) (c d : Nat) (k : MxCmd) (pl : Place)

/-- The lines that a command reads enter a read signature, and nothing else of the engine changes. -/
theorem noteSig_mx : ((s.noteSig c pl).coreAt d).mx = (s.coreAt d).mx := by
  unfold State.noteSig
  dsimp only
  split
  · by_cases h : c = d
    · subst h
      rw [coreAt_onCore_same]
    · rw [coreAt_onCore_ne _ _ _ h]
  · rfl

theorem noteSig_tick : (s.noteSig c pl).tick = s.tick := by
  unfold State.noteSig
  dsimp only
  split <;> rfl

theorem noteOwn_mx : ((s.noteOwn c k).coreAt d).mx = (s.coreAt d).mx :=
  foldl_keeps (f := fun s (l : Nat × Place) => s.noteSig c l.2) (fun s => (s.coreAt d).mx) (fun s l => noteSig_mx s c d l.2) _ s

theorem noteOwn_tick : (s.noteOwn c k).tick = s.tick :=
  foldl_keeps (f := fun s (l : Nat × Place) => s.noteSig c l.2) State.tick (fun s l => noteSig_tick s c l.2) _ s

@[simp] theorem mxKick_coreAt : (s.mxKick c).coreAt d = s.coreAt d := by
  unfold State.mxKick
  split <;> rfl

/-- The only command of a queue leaves it, and the tiles are as it has left them. -/
theorem mxDone_tile (q : MxCmd) (n : TReg) (hqueue : (s.coreAt c).mx.queue = [q]) :
    ((s.mxDone c k).coreAt c).mx.tile n = (s.coreAt c).mx.tile n := by
  simp only [State.mxDone, mxKick_coreAt, coreAt_onCore_same, coreAt_unpin, hqueue]
  rfl

theorem mxDone_coreAt_ne (h : c ≠ d) : (s.mxDone c k).coreAt d = s.coreAt d := by
  rw [State.mxDone, mxKick_coreAt, coreAt_onCore_ne _ _ _ h, coreAt_unpin]

variable (t : TReg) (bad : Bool) (ps : Nat → Nat → List (Option FVal × Option FVal))

/-- A multiplication that completes is the result of its tile. -/
theorem product_coreAt : ∃ mark fl, (s.product c k t bad ps).coreAt c =
    (s.coreAt c).tileResult k t ⟨(multiply k.mask ((s.coreAt c).mx.tile t).t s.tick ps).1, mark⟩ fl := by
  unfold State.product
  dsimp only
  rcases multiply k.mask ((s.coreAt c).mx.tile t).t s.tick ps with ⟨y, fl, undef⟩
  exact ⟨_, fl, coreAt_onCore_same ..⟩

theorem product_coreAt_ne (h : c ≠ d) : (s.product c k t bad ps).coreAt d = s.coreAt d := by
  unfold State.product
  exact coreAt_onCore_ne _ _ _ h

end Command

/-! ## The execution of a command (R210, R214, R216, R218) -/

section Execute
variable {s : State} {c : Nat} {k : MxCmd} {t : TReg}
variable (hqueue : (s.coreAt c).mx.queue = [k]) (hread : unfetched k = []) (hla : k.la = 0) (hown : k.isGang = false)
include hqueue hread hown

/-- The first command of a queue, with its lines read, completes; a gang command is for its row. -/
theorem matrixCommandExecute_runs : Ends (.matrixCommandExecute c) s ((s.mxRun c k).mxDone c k) := by
  refine congrArg Host.Outcome.next ?_
  unfold State.mxStep
  simp only [hqueue, if_neg (not_not_intro hread)]
  split
  · rename_i h
    simp [MxCmd.isGang, h] at hown
  · rfl

include hla

/-- A command whose run is the result of a tile leaves it in the tile, and every other tile as it was. -/
theorem matrixCommandExecute_result {v : MTile} {fl : FFlags}
    (hrun : (s.mxRun c k).coreAt c = ((s.noteOwn c k).coreAt c).tileResult k t v fl) :
    ∃ u, Ends (.matrixCommandExecute c) s u ∧ (u.coreAt c).mx.tile t = v ∧
      ∀ n, n ≠ t → (u.coreAt c).mx.tile n = (s.coreAt c).mx.tile n := by
  have hleft : ((s.mxRun c k).coreAt c).mx.queue = [k] := by rw [hrun, tileResult_queue _ _ _ _ hla, noteOwn_mx, hqueue]
  refine ⟨_, matrixCommandExecute_runs hqueue hread hown, ?_, fun n hn => ?_⟩
  · rw [mxDone_tile _ _ _ _ _ hleft, hrun, tileResult_tile_same _ _ _ _ hla]
  · rw [mxDone_tile _ _ _ _ _ hleft, hrun, tileResult_tile_ne _ _ _ _ _ hla hn, noteOwn_mx]

/-- A command whose run is a multiplication leaves, in each element of an unmasked column, the rounded sum of its group. -/
theorem matrixCommandExecute_product {bad : Bool} {ps : Nat → Nat → List (Option FVal × Option FVal)}
    (hrun : s.mxRun c k = (s.noteOwn c k).product c k t bad ps) :
    ∃ u, Ends (.matrixCommandExecute c) s u ∧ ∀ i j : Fin 32, ((u.coreAt c).mx.tile t).t[i][j] =
      if k.mask.getLsbD j.val then
        (accumulate (((s.coreAt c).mx.tile t).t[i][j]) (Config.freeLane s.tick (32 * i.val + j.val))
          (Config.freeLane s.tick (1024 + 32 * i.val + j.val)) (ps i.val j.val)).1
      else ((s.coreAt c).mx.tile t).t[i][j] := by
  obtain ⟨mark, fl, hcore⟩ := product_coreAt (s.noteOwn c k) c k t bad ps
  obtain ⟨u, hends, htile, -⟩ := matrixCommandExecute_result hqueue hread hla hown (hrun ▸ hcore)
  refine ⟨u, hends, fun i j => ?_⟩
  rw [htile, noteOwn_mx, noteOwn_tick]
  exact multiply_elem ..

end Execute

section Runs
variable {s : State} {c : Nat} {k : MxCmd} {t : TReg} {a b : MxOperand}

theorem mxRun_mma (hop : k.op = .mma t a b) : ∃ bad,
    s.mxRun c k = (s.noteOwn c k).product c k t bad (densePairs (elemOf (mxByte s c k) a) (elemOf (mxByte s c k) b)) := by
  simp only [State.mxRun, hop]
  exact ⟨_, rfl⟩

/-- The record form of mx.mmas is a multiplication over the positions whose bit the record sets (R216). -/
theorem mxRun_mmas {bm vals : Nat} (hop : k.op = .mmas t bm vals a b) : ∃ bad,
    s.mxRun c k = (s.noteOwn c k).product c k t bad fun i j => ((List.range 32).filter fun q => bit bm (32 * i + q)).map fun q =>
      (sparseElem (mxByte s c k) a bm vals i q, elemOf (mxByte s c k) b j q) := by
  simp only [State.mxRun, hop]
  exact ⟨_, rfl⟩

end Runs

/-- A command of another kind is no gang command. -/
theorem isGang_eq_false {k : MxCmd} (h : ∀ t o b, k.op ≠ .gang t o b) : k.isGang = false := by
  unfold MxCmd.isGang
  split
  · rename_i hop
    exact absurd hop (h _ _ _)
  · rfl

/-- The tile that mx.ldacc loads from a block of bytes, each element little-endian; one with an uncorrectable byte is a free value
(R218). -/
def loadedTile (tick : Nat) (byte : Nat → Option Byte) : Tile := Vector.ofFn fun i => Vector.ofFn fun j =>
  let bs := (List.range 4).map fun q => byte (128 * i.val + 4 * j.val + q)
  if bs.any Option.isNone then Config.freeLane tick (32 * i.val + j.val) else BitVec.ofNat 32 (ofBytes (bs.map fun b => b.getD 0))

/-- The mark of a tile that mx.ldacc loads (R203). -/
def loadedMark (byte : Nat → Option Byte) : Mark := if (List.range 4096).any fun a => (byte a).isNone then .data else .clean

/-- The run of mx.ldacc is the tile loaded from its block. -/
theorem mxRun_ldacc {s : State} {c start : Nat} {k : MxCmd} {t : TReg} (hop : k.op = .ldacc t start) :
    let byte := fun n => mxByte s c k (0xE * 2 ^ 48 + start + n)
    (s.mxRun c k).coreAt c =
      ((s.noteOwn c k).coreAt c).tileResult k t ⟨loadedTile (s.noteOwn c k).tick byte, loadedMark byte⟩ 0 := by
  simp only [State.mxRun, hop, coreAt_onCore_same]
  rfl

/-- An element whose four bytes are good is the word that they make up (R5). -/
theorem loadedTile_elem (tick : Nat) {byte : Nat → Option Byte} (i j : Fin 32) {b0 b1 b2 b3 : Byte}
    (h0 : byte (128 * i.val + 4 * j.val) = some b0) (h1 : byte (128 * i.val + 4 * j.val + 1) = some b1)
    (h2 : byte (128 * i.val + 4 * j.val + 2) = some b2) (h3 : byte (128 * i.val + 4 * j.val + 3) = some b3) :
    (loadedTile tick byte)[i][j] = wordOfBytes b0 b1 b2 b3 := by
  have hbytes : (List.range 4).map (fun q => byte (128 * i.val + 4 * j.val + q)) = [some b0, some b1, some b2, some b3] := by
    simp [List.range_succ, h0, h1, h2, h3]
  simp only [loadedTile, Fin.getElem_fin, Vector.getElem_ofFn, hbytes]
  exact ofBytes_word b0 b1 b2 b3

theorem loadedMark_clean {byte : Nat → Option Byte} (h : ∀ n < 4096, (byte n).isSome = true) : loadedMark byte = .clean := by
  refine if_neg ?_
  simpa [Option.isSome_iff_ne_none] using h

/-! ## The gang of a row (R215) -/

/-- What the share of a core in a gang reads is the same in two states. -/
structure SameFor (n : Nat) (s t : State) : Prop where
  core : t.coreAt n = s.coreAt n
  mem : t.mem = s.mem
  poison : t.poison = s.poison
  pkg : t.pkg = s.pkg
  tick : t.tick = s.tick

theorem SameFor.refl (n : Nat) (s : State) : SameFor n s s := ⟨rfl, rfl, rfl, rfl, rfl⟩

theorem SameFor.trans {n : Nat} {s t u : State} (h : SameFor n s t) (h' : SameFor n t u) : SameFor n s u :=
  ⟨h'.core.trans h.core, h'.mem.trans h.mem, h'.poison.trans h.poison, h'.pkg.trans h.pkg, h'.tick.trans h.tick⟩

theorem SameFor.mxByte {n : Nat} {s t : State} (h : SameFor n s t) (k : MxCmd) : mxByte t n k = mxByte s n k := by
  funext va
  unfold Machine.mxByte lsPa poisoned
  rw [h.core, h.mem, h.poison, h.pkg]

/-- The share of a core in its row's gang, where no refetch has failed: its own product, with the A of the leader. -/
def State.gangAt (a : Nat → Nat → Option FVal) (s : State) (n : Nat) : State :=
  match gangHead (s.coreAt n) with
  | some k => match k.op with
    | .gang t _ b =>
      let b := elemOf (mxByte s n k) b
      (s.product n k t (denseBad k.mask a b) (densePairs a b)).mxDone n k
    | _ => s
  | none => s

/-- A gang is the shares of the row's cores, one after another. -/
theorem gang_eq_shares {s : State} {c : Nat} (hready : gangReady s c = true) (hgood : gangFailed s c = false) :
    s.gang c = (rowCores c).foldl (State.gangAt (gangA s c)) s := by
  simp only [State.gang, if_pos hready, hgood]
  rfl

/-- The share of one core leaves what the share of another reads. -/
theorem gangAt_sameFor (a : Nat → Nat → Option FVal) (s : State) {m n : Nat} (h : m ≠ n) : SameFor n s (s.gangAt a m) := by
  have hdone : ∀ (u : State) k, SameFor n u (u.mxDone m k) := fun u k => by
    refine ⟨mxDone_coreAt_ne u m n k h, ?_, ?_, ?_, ?_⟩ <;>
    · unfold State.mxDone State.mxKick
      split <;> rfl
  unfold State.gangAt
  split
  · split
    · exact SameFor.trans ⟨product_coreAt_ne _ _ _ _ _ _ _ h, rfl, rfl, rfl, rfl⟩ (hdone _ _)
    · exact .refl n s
  · exact .refl n s

section Shares
variable {n : Nat} {f : State → Nat → State} (h : ∀ s m, m ≠ n → SameFor n s (f s m))
include h

theorem foldl_sameFor (xs : List Nat) (s : State) (hn : n ∉ xs) : SameFor n s (xs.foldl f s) := by
  induction xs generalizing s with
  | nil => exact .refl n s
  | cons m rest ih =>
    obtain ⟨hm, hrest⟩ := not_or.mp (mt List.mem_cons.mpr hn)
    exact (h s m (Ne.symm hm)).trans (ih _ hrest)

/-- Of shares of distinct cores, one leaves its core as if it alone had been run. -/
theorem foldl_coreAt_of_share (xs : List Nat) (s : State) (hdistinct : xs.Nodup) (hn : n ∈ xs) :
    ∃ v, SameFor n s v ∧ (xs.foldl f s).coreAt n = (f v n).coreAt n := by
  induction xs generalizing s with
  | nil => cases hn
  | cons m rest ih =>
    obtain ⟨hm, hrest⟩ := List.nodup_cons.mp hdistinct
    by_cases hmn : m = n
    · subst hmn
      exact ⟨s, .refl m s, (foldl_sameFor h rest _ hm).core⟩
    · obtain ⟨v, hv, hcore⟩ := ih (f s m) hrest ((List.mem_cons.mp hn).resolve_left (Ne.symm hmn))
      exact ⟨v, (h s m hmn).trans hv, hcore⟩

end Shares

theorem rowCores_nodup (c : Nat) : (rowCores c).Nodup := List.nodup_range.map fun _ _ h => Nat.add_left_cancel h

/-- In a row that is ready, a gang command that is the only one of a core's queue stands first with its lines read. -/
theorem gangHead_of_ready {s : State} {c n : Nat} {k : MxCmd} {t : TReg} {o : Option MxOperand} {b : MxOperand}
    (hready : gangReady s c = true) (hn : n ∈ rowCores c) (hqueue : (s.coreAt n).mx.queue = [k]) (hop : k.op = .gang t o b) :
    gangHead (s.coreAt n) = some k := by
  have hsome : (gangHead (s.coreAt n)).isSome = true := List.all_eq_true.mp hready n hn
  by_cases hread : unfetched k = []
  · simp only [gangHead, hqueue, hop, if_pos hread]
  · simp [gangHead, hqueue, hop, hread] at hsome

section Gang
variable {s : State} {c n : Nat} {k : MxCmd} {t : TReg} {o : Option MxOperand} {b : MxOperand}
variable (hqueue : (s.coreAt n).mx.queue = [k]) (hop : k.op = .gang t o b) (hla : k.la = 0)
include hqueue hop hla

/-- The share of a core adds, to each element of an unmasked column of its tile, the rounded sum of its group. -/
theorem gangAt_elem (a : Nat → Nat → Option FVal) (hhead : gangHead (s.coreAt n) = some k) (i j : Fin 32) :
    (((s.gangAt a n).coreAt n).mx.tile t).t[i][j] = if k.mask.getLsbD j.val then
      (accumulate (((s.coreAt n).mx.tile t).t[i][j]) (Config.freeLane s.tick (32 * i.val + j.val))
        (Config.freeLane s.tick (1024 + 32 * i.val + j.val))
        (densePairs a (elemOf (mxByte s n k) b) i.val j.val)).1
      else ((s.coreAt n).mx.tile t).t[i][j] := by
  obtain ⟨mark, fl, hcore⟩ := product_coreAt s n k t (denseBad k.mask a (elemOf (mxByte s n k) b))
    (densePairs a (elemOf (mxByte s n k) b))
  have hshare : s.gangAt a n = (s.product n k t (denseBad k.mask a (elemOf (mxByte s n k) b))
      (densePairs a (elemOf (mxByte s n k) b))).mxDone n k := by
    unfold State.gangAt
    simp only [hhead, hop]
  rw [hshare, mxDone_tile _ _ _ k _ (by rw [hcore, tileResult_queue _ _ _ _ hla, hqueue]), hcore, tileResult_tile_same _ _ _ _ hla]
  exact multiply_elem ..

/-- A gang leaves in each core of its row what that core's share of it leaves. -/
theorem gang_elem (hready : gangReady s c = true) (hgood : gangFailed s c = false) (hn : n ∈ rowCores c) (i j : Fin 32) :
    (((s.gang c).coreAt n).mx.tile t).t[i][j] = if k.mask.getLsbD j.val then
      (accumulate (((s.coreAt n).mx.tile t).t[i][j]) (Config.freeLane s.tick (32 * i.val + j.val))
        (Config.freeLane s.tick (1024 + 32 * i.val + j.val))
        (densePairs (gangA s c) (elemOf (mxByte s n k) b) i.val j.val)).1
      else ((s.coreAt n).mx.tile t).t[i][j] := by
  obtain ⟨v, hv, hcore⟩ := foldl_coreAt_of_share (f := State.gangAt (gangA s c)) (fun u m h => gangAt_sameFor (gangA s c) u h)
    (rowCores c) s (rowCores_nodup c) hn
  have hhead : gangHead (v.coreAt n) = some k := by rw [hv.core, gangHead_of_ready hready hn hqueue hop]
  rw [gang_eq_shares hready hgood, hcore, gangAt_elem (by rw [hv.core, hqueue]) hop hla _ hhead, hv.core, hv.tick, hv.mxByte]

end Gang

/-! ## The beats of a channel (R141 to R143, R147, R154) -/

section Beats
variable {s : State} {c ch : Nat} {q : CopyCmd}

/-- A channel with nothing in progress takes the next command. -/
theorem copyBeat_idle (hcur : ((s.coreAt c).cp.chans.toList.getD ch {}).cur = none) : Ends (.copyBeat c ch) s (s.startNext c) := by
  refine congrArg Host.Outcome.next ?_
  simp only [State.copyStep, hcur]

variable (hcur : ((s.coreAt c).cp.chans.toList.getD ch {}).cur = some q)
variable (hfree : ((s.coreAt c).cp.chans.toList.getD ch {}).held = false) (hsent : q.sent = 0)
include hcur hfree hsent

theorem copyBeat_cancelled (hcancelled : q.cancelled = true) : Ends (.copyBeat c ch) s (s.endCopy c q 2) := by
  refine congrArg Host.Outcome.next ?_
  simp only [State.copyStep, hcur, hfree, hsent, hcancelled, Bool.false_eq_true, if_false, and_self, if_true]

variable (hgo : q.cancelled = false)
include hgo

theorem copyBeat_empty (hnone : q.len * q.rows = 0) : Ends (.copyBeat c ch) s (s.endCopy c q 1) := by
  refine congrArg Host.Outcome.next ?_
  simp only [State.copyStep, hcur, hfree, hsent, hgo, hnone, Bool.false_eq_true, if_false, and_false, if_true]

variable (hsome : q.len * q.rows ≠ 0)
include hsome

/-- A running command of some bytes moves a beat by its operation: a get. -/
theorem copyBeat_get (hop : q.op = 0) : Ends (.copyBeat c ch) s (s.getBeat c q) := by
  refine congrArg Host.Outcome.next ?_
  simp only [State.copyStep, hcur, hfree, hsent, hgo, hsome, hop, Bool.false_eq_true, if_false, and_false, ne_eq, not_true]

/-- A running command of some bytes moves a beat by its operation: a fill. -/
theorem copyBeat_fill (hop : q.op = 4) : Ends (.copyBeat c ch) s
    (s.putBeat c q (fun n => (List.range n).map fun i => (toBytes 8 q.pat.toNat).getD ((q.done + i) % 8) 0) fun _ => false) := by
  refine congrArg Host.Outcome.next ?_
  simp only [State.copyStep, hcur, hfree, hsent, hgo, hsome, hop, Bool.false_eq_true, if_false, and_false, ne_eq, not_true]

end Beats

section OneRow
variable {s s1 : State} {c : Nat} {k : CopyCmd} (hmore : k.done < k.len)
include hmore

/-- The next byte of a command of one row lies in its row 0, at the bytes that are done. -/
theorem nextByte_of_one_row : k.done / max k.len 1 = 0 ∧ k.done % max k.len 1 = k.done := by
  have hlen : k.done < max k.len 1 := by omega
  exact ⟨Nat.div_eq_of_lt hlen, Nat.mod_eq_of_lt hlen⟩

theorem dst_of_one_row : k.dst = ((k.far + k.done : Nat) : Int) := by
  obtain ⟨hrow, hbyte⟩ := nextByte_of_one_row hmore
  rw [CopyCmd.dst, hrow, hbyte]
  simp

/-- A beat of a get of one row: the bytes read at the far side are written to the own local store, and wptr passes them. -/
theorem getBeat_moves {bs : List Byte} :
    let n := min (k.len - k.done) (64 - (k.own + k.done) % 64)
    readFar s c k ((k.far + k.done : Nat) : Int) (partsOf ((k.far + k.done) % 64) n) = (.ok bs none, s1) →
    s.getBeat c k = (s1.perform k.ctx (some c) (lsPa s1 c (k.own + k.done)) bs).passBeat c
      (k.rewritten (.mem (lsPa s1 c (k.own + k.done))) bs) n false := by
  intro n hread
  obtain ⟨hrow, hbyte⟩ := nextByte_of_one_row hmore
  have hown : rowStart k.own k.ostr 0 = k.own := by simp [rowStart]
  have hfar : (k.far : Int) + ((0 : Nat) : Int) * k.fstr + ((k.done : Nat) : Int) = ((k.far + k.done : Nat) : Int) := by simp
  simp only [State.getBeat, hrow, hbyte, hown, hfar, Int.toNat_natCast, n] at hread ⊢
  simp only [hread, Option.isSome_none, Bool.false_eq_true, if_false]

/-- A beat of a put or a fill of one row whose page is reached and open: its bytes are written at the far side, and wptr passes
them. -/
theorem putBeat_moves {pa : Nat} {bytes : Nat → List Byte} (hsnap : k.snap = [])
    (hreach : reach s c k.ctx ((k.far + k.done : Nat) : Int) .engWrite = (.ok (.mem pa), s1))
    (hport : refusedAt s1 (.mem pa) = false) (hopen : placeHeld s1 (.mem pa) = false)
    (hturn : placeAwaited s1 k.ctx (.mem pa) = false) :
    let n := min (k.len - k.done) (64 - (k.far + k.done) % 64)
    s.putBeat c k bytes (fun _ => false) =
      (s1.storeAt c k.ctx (.mem pa) (k.far + k.done) (bytes n)).passBeat c k n false := by
  intro n
  obtain ⟨-, hbyte⟩ := nextByte_of_one_row hmore
  have hkept : ∀ u : State, k.overwritten u c (.mem pa) (bytes n) false = k := fun u => by simp [CopyCmd.overwritten, hsnap]
  have hwhole : chainLost s1 (.mem pa) = none := rfl
  simp only [State.putBeat, dst_of_one_row hmore, hbyte, hreach, hwhole, hport, hopen, hturn, Int.toNat_natCast, Option.isSome_none,
    Bool.or_false, Bool.false_eq_true, if_false]
  rw [hkept]

end OneRow

/-! ## The obligation -/

/-- Settles O50: a command of one core and the share of each core in a gang are results of a tile; the rest is one branch of each
step. -/
theorem engineSteps : Obligations.EngineSteps := by
  intro s c ch k va pl t a b x
  refine ⟨fun hnext hleast hfirst => ?fetched,
    fun hqueue hread hla => ⟨fun hop => ?zero, fun hop => ?dense, fun bm vals hop => ?sparse, fun start hop => ?loaded⟩,
    fun hready hgood => ⟨_, rfl, fun n k t o b hn hqueue hop hla i j => gang_elem hqueue hop hla hready hgood hn i j⟩,
    fun _ => rfl, fun hwait => congrArg Host.Outcome.next (if_neg (by simp [hwait])),
    copyBeat_idle, fun q hcur hfree hsent => ⟨copyBeat_cancelled hcur hfree hsent, copyBeat_empty hcur hfree hsent,
      fun hgo hrows hmore => ?beats⟩⟩
  case fetched =>
    refine congrArg Host.Outcome.next ?_
    have hfetch : nextFetch s c = some (k, va, pl) := by
      rw [nextFetch, hnext, Option.bind_some, hleast]
      rfl
    simp [State.fetchTileLine, hfetch, hfirst]
  case zero =>
    refine matrixCommandExecute_result hqueue hread hla (isGang_eq_false (by simp [hop])) (fl := 0) ?_
    simp only [State.mxRun, hop, coreAt_onCore_same]
  case dense =>
    obtain ⟨bad, hrun⟩ := mxRun_mma hop
    exact matrixCommandExecute_product hqueue hread hla (isGang_eq_false (by simp [hop])) hrun
  case sparse =>
    obtain ⟨bad, hrun⟩ := mxRun_mmas hop
    exact matrixCommandExecute_product hqueue hread hla (isGang_eq_false (by simp [hop])) hrun
  case loaded =>
    intro byte
    obtain ⟨u, hends, htile, hothers⟩ := matrixCommandExecute_result hqueue hread hla (isGang_eq_false (by simp [hop]))
      (mxRun_ldacc hop)
    refine ⟨u, hends, hothers, fun hgood => ?_, fun i j b0 b1 b2 b3 h0 h1 h2 h3 => ?_⟩
    · rw [htile]
      dsimp only
      exact loadedMark_clean (byte := byte) hgood
    · rw [htile]
      exact loadedTile_elem _ (byte := byte) i j h0 h1 h2 h3
  case beats =>
    have hsome : q.len * q.rows ≠ 0 := by rw [hrows]; omega
    refine ⟨fun bs s1 hop => ?_, fun pa s1 hop hsnap => ?_⟩
    · intro n hfar
      rw [← getBeat_moves hmore hfar]
      exact copyBeat_get hcur hfree hsent hgo hsome hop
    · intro n hreach hport hopen hturn
      rw [← putBeat_moves hmore hsnap hreach hport hopen hturn (bytes := fun n => (List.range n).map fun i =>
        (toBytes 8 q.pat.toNat).getD ((q.done + i) % 8) 0)]
      exact copyBeat_fill hcur hfree hsent hgo hsome hop

end Sys2Proof.Machine
end

section
/-!
PROOFS. The cp instructions: how a command that passed its checks leaves its instruction, then the checks that each form makes before
it, in the order in which it makes them.
-/
namespace Sys2Proof.Machine

/-! ## Checks that pass -/

theorem trapIf_passes {c : Bool} (h : c = false) (code : Nat) (val : Word) (s : State) : trapIf c code val s = .ok ((), s) := by
  subst h
  rfl

theorem onlyIf_passes {c : Bool} (h : c = false) (m : M Unit) (s : State) : onlyIf c m s = .ok ((), s) := by
  subst h
  rfl

theorem onlyIf_of_true {c : Bool} (h : c = true) (m : M Unit) (s : State) : onlyIf c m s = m s := by
  subst h
  rfl

/-- A core that changes and then waits ends with both. -/
theorem modCore_stall_at (f : Core → Core) (s : State) :
    (modCore f >>= fun _ => stall : M Unit) s = .error (s.setCore { f s.core with stalled := true }) := by
  rw [bind_ok (modCore_at f), stall_at, core_setCore, setCore_setCore]

theorem ownSide_of_ownOff {s : State} {va off : Nat} (h : ownOff s va = some off) : ownSide va s = .ok (off, s) := by
  rw [ownSide, bind_ok (get_at s), h]
  rfl

/-- The alignment check of Table 7.5, as the model writes it, on an address and a length that are multiples. -/
theorem alignment_passes {va len align : Nat} (hva : va % align = 0) (hlen : len % align = 0) :
    (va % align != 0 || len % align != 0) = false := by
  simp [hva, hlen]

/-- A word holds the 52 bits of an address whole. -/
theorem word_addrOf_toNat (w : Word) : (word (addrOf w)).toNat = addrOf w := by
  have hlt : addrOf w < 2 ^ 52 := Nat.mod_lt _ (by decide)
  exact Nat.mod_eq_of_lt (hlt.trans (by decide))

/-! ## A command leaves its instruction (R145, Table 7.2) -/

section Issue
variable {i : Instr} {s t v : State} {k : CopyCmd} {srcs : List SReg} {m : M Unit}

/-- A command with the context and the activation that issue it. -/
def CopyCmd.issuedBy (k : CopyCmd) (s : State) : CopyCmd := { k with ctx := s.ctxNo, act := s.core.seq.toNat }

theorem issueCopy_kicked (hget : k.op = 0 ∨ k.op = 2) (hrev : t.core.rev = true)
    (hkick : t.kick t.cur { k.issuedBy t with fwd := heldStores t.core } = some v) :
    issueCopy k srcs t = .ok ((), v.done srcs) := by
  have hatonce : ((k.op == 0 || k.op == 2) && t.core.rev) = true := by simpa [hrev] using hget
  rw [issueCopy, bind_ok (get_at t)]
  dsimp only
  rw [if_pos hatonce]
  simp only [CopyCmd.issuedBy] at hkick
  rw [hkick]
  exact (bind_ok (set_at v)).trans (finish_at ..)

theorem issueCopy_gated (hlater : ¬((k.op = 0 ∨ k.op = 2) ∧ t.core.rev = true)) (hgate : Gives (gate (.copy (k.issuedBy t))) t () v) :
    issueCopy k srcs t = .ok ((), v.done srcs) := by
  have hlate : ¬((k.op == 0 || k.op == 2) && t.core.rev) = true := by simpa using hlater
  rw [issueCopy, bind_ok (get_at t)]
  dsimp only
  rw [if_neg hlate]
  exact (bind_ok hgate).trans (finish_at ..)

/-- An instruction whose checks leave its command to the issue issues that command. -/
theorem issuesCopy_of_issueCopy (hi : exec i s = run m s) (hm : m s = issueCopy k srcs t) : issuesCopy i s t k srcs :=
  ⟨fun hnow _ hkick => hi.trans (run_ok (hm.trans (issueCopy_kicked hnow.1 hnow.2 hkick))),
    fun hlater _ hgate => hi.trans (run_ok (hm.trans (issueCopy_gated hlater hgate)))⟩

end Issue

/-! ## cp.get, cp.put, cp.nzpk and cp.fill: a control word and a range that pass (R149, R151, R152) -/

section Plain
variable {s t : State} {ra rb rc : SReg} (hports : Gives (openPorts none [ra, rb, rc]) s () t)
  (hcontrol : badControl t (t.r3 ra rb rc) = false)
include hports hcontrol

/-- Behind the shared checks the command leaves with its own side and what the form makes of its far side. -/
theorem plainCopy_issues {op align own : Nat} {far : Word → M Word} {f : Word}
    (hfits : addrOf (t.r1 ra) % lsSize + (commandOf op (t.r3 ra rb rc)).len ≤ lsSize) (hown : ownOff t (addrOf (t.r1 ra)) = some own)
    (hva : addrOf (t.r1 ra) % align = 0) (hlen : (commandOf op (t.r3 ra rb rc)).len % align = 0)
    (hfar : far (t.r2 ra rb) t = .ok (f, t)) :
    plainCopy op align ra rb rc far s =
      issueCopy { commandOf op (t.r3 ra rb rc) with own := own, far := f.toNat } [ra, rb, rc] t := by
  rw [plainCopy, bind_ok hports, bind_ok (core_at t)]
  refine (bind_ok (get_at t)).trans ?_
  refine (bind_ok (trapIf_passes hcontrol ..)).trans ?_
  refine (bind_ok (trapIf_passes (decide_eq_false (Nat.not_lt.mpr hfits)) ..)).trans ?_
  refine (bind_ok (ownSide_of_ownOff hown)).trans ?_
  refine (bind_ok (trapIf_passes (alignment_passes hva hlen) ..)).trans ?_
  exact bind_ok hfar

/-- cp.get and cp.put, whose far side is an address of any alignment. -/
theorem plainCopy_address_issues {op own : Nat} (hfits : addrOf (t.r1 ra) % lsSize + (commandOf op (t.r3 ra rb rc)).len ≤ lsSize)
    (hown : ownOff t (addrOf (t.r1 ra)) = some own) :
    plainCopy op 1 ra rb rc (fun b => pure (word (addrOf b))) s =
      issueCopy { commandOf op (t.r3 ra rb rc) with own := own, far := addrOf (t.r2 ra rb) } [ra, rb, rc] t := by
  rw [plainCopy_issues hports hcontrol hfits hown (Nat.mod_one _) (Nat.mod_one _) rfl, word_addrOf_toNat]

/-- cp.nzpk, whose far side is a sprinkle target with no reserved bit and a core of the context (R152). -/
theorem cpNzpk_issues {own : Nat} (hfits : addrOf (t.r1 ra) % lsSize + (commandOf 5 (t.r3 ra rb rc)).len ≤ lsSize)
    (hown : ownOff t (addrOf (t.r1 ra)) = some own) (hva : addrOf (t.r1 ra) % 64 = 0)
    (hlen : (commandOf 5 (t.r3 ra rb rc)).len % 64 = 0) (hzero : fld (t.r2 ra rb) 63 34 = 0)
    (hgroup : inAnyGroup t t.ctxNo (fld (t.r2 ra rb) 11 0) = true) :
    issuesCopy (.cpNzpk ra rb rc) s t { commandOf 5 (t.r3 ra rb rc) with own := own, far := (t.r2 ra rb).toNat } [ra, rb, rc] := by
  have htarget : (fld (t.r2 ra rb) 63 34 != 0 || !inAnyGroup t t.ctxNo (fld (t.r2 ra rb) 11 0)) = false := by
    rw [hzero, hgroup]
    rfl
  refine issuesCopy_of_issueCopy rfl (plainCopy_issues hports hcontrol hfits hown hva hlen ?_)
  rw [bind_ok (get_at t)]
  exact bind_ok (trapIf_passes htarget ..)

/-- cp.fill, which has no own side: its range is the far side (R151). -/
theorem cpFill_issues (hva : addrOf (t.r1 ra) % 8 = 0) (hlen : (commandOf 4 (t.r3 ra rb rc)).len % 8 = 0) :
    issuesCopy (.cpFill ra rb rc) s t { commandOf 4 (t.r3 ra rb rc) with far := addrOf (t.r1 ra), pat := t.r2 ra rb }
      [ra, rb, rc] := by
  refine issuesCopy_of_issueCopy rfl ?_
  rw [bind_ok hports, bind_ok (core_at t)]
  refine (bind_ok (get_at t)).trans ?_
  refine (bind_ok (trapIf_passes hcontrol ..)).trans ?_
  exact bind_ok (trapIf_passes (alignment_passes hva hlen) ..)

end Plain

/-! ## cp.get2d and cp.put2d: a descriptor that passes (R150) -/

/-- Word i of a descriptor. -/
def descriptorWord (bs : List Byte) (i : Nat) : Word := word (ofBytes ((bs.drop (8 * i)).take 8))

/-- The command of a descriptor, from the own offset and the far address of its row 0. -/
def rowsCommand (op own far : Nat) (bs : List Byte) : CopyCmd :=
  { commandOf op (descriptorWord bs 0) with
    own := own, far := far, rows := (descriptorWord bs 1).toNat, ostr := (descriptorWord bs 2).toInt,
    fstr := (descriptorWord bs 3).toInt }

theorem copy2d_issues {s t u : State} {ra rb rc : SReg} {op doff own : Nat} {bs : List Byte}
    (hports : Gives (openPorts none [ra, rb, rc]) s () t) (hdesc : ownOff t (addrOf (t.r3 ra rb rc)) = some doff)
    (halign : addrOf (t.r3 ra rb rc) % 32 = 0) (hbytes : Gives (ownBytes (addrOf (t.r3 ra rb rc)) doff 32) t bs u)
    (hcount : (descriptorWord bs 1).toNat < 2 ^ 16) (hcontrol : badControl u (descriptorWord bs 0) = false)
    (hown : ownOff u (addrOf (t.r1 ra)) = some own) (hfit : rowsFit (rowsCommand op own (addrOf (t.r2 ra rb)) bs) = true) :
    copy2d op ra rb rc s = issueCopy (rowsCommand op own (addrOf (t.r2 ra rb)) bs) [ra, rb, rc] u := by
  rw [copy2d, bind_ok hports, bind_ok (core_at t)]
  refine (bind_ok (ownSide_of_ownOff hdesc)).trans ?_
  refine (bind_ok (trapIf_passes (bne_eq_false_iff_eq.mpr halign) ..)).trans ?_
  refine (bind_ok hbytes).trans ?_
  refine (bind_ok (trapIf_passes (decide_eq_false (Nat.not_le.mpr hcount)) ..)).trans ?_
  refine (bind_ok (get_at u)).trans ?_
  refine (bind_ok (trapIf_passes hcontrol ..)).trans ?_
  refine (bind_ok (ownSide_of_ownOff hown)).trans ?_
  exact bind_ok (trapIf_passes (congrArg not hfit) ..)

/-! ## cp.wptr and cp.cancel (R153, R154) -/

/-- The item of a channel that bits [3:2] of the operand name (R153). -/
def chanItem (x : Core) (w : Word) : Word :=
  let h := x.cp.chans.toList.getD (fld w 1 0) {}
  match fld w 3 2 with
  | 0 => h.wptr
  | 1 => h.icnt
  | 2 => chanStatus x (fld w 1 0)
  | _ => h.fva

section Channel
variable {s t : State} {ra rb : SReg}

theorem cpWptr_ends {la : BitVec 4} (hports : Gives (openPorts (some ra) [rb]) s () t) :
    Ends (.cpWptr la ra rb) s (t.withL ra la [rb] (chanItem t.core (t.r1 rb))) := by
  refine run_ok ?_
  rw [bind_ok hports, bind_ok (core_at t)]
  exact finishL_at ..

/-- The channels that cp.cancel acts on (R154). -/
def cancelledChans (w : Word) : List Nat := if bit w.toNat 2 then List.range 4 else [fld w 1 0]

/-- Between beats, the channels are cancelled at once. -/
theorem cpCancel_between_beats (hports : Gives (openPorts none [ra]) s () t)
    (hbeat : (cancelledChans (t.r1 ra)).any (midBeat t.core) = false) :
    Ends (.cpCancel ra) s (((cancelledChans (t.r1 ra)).foldl (fun s ch => s.cancelChan s.cur ch) t).done [ra]) := by
  refine run_ok ?_
  rw [bind_ok hports, bind_ok (core_at t)]
  refine (bind_ok (onlyIf_passes hbeat ..)).trans ?_
  exact (bind_ok (modify_at _)).trans (finish_at ..)

/-- With a beat on its way, the channels are told to stop and the instruction waits. -/
theorem cpCancel_mid_beat (hports : Gives (openPorts none [ra]) s () t)
    (hbeat : (cancelledChans (t.r1 ra)).any (midBeat t.core) = true) :
    Ends (.cpCancel ra) s (t.setCore { (cancelledChans (t.r1 ra)).foldl Core.stopChan t.core with stalled := true }) := by
  refine run_error ?_
  rw [bind_ok hports, bind_ok (core_at t)]
  exact bind_error ((onlyIf_of_true hbeat ..).trans (modCore_stall_at ..))

end Channel

/-! ## The obligation -/

/-- Settles O40: behind its checks each copy instruction leaves its command to the issue, which kicks or gates it; cp.wptr reads its
item, and cp.cancel acts between beats. -/
theorem copyCommands : Obligations.CopyCommands := by
  intro s t la ra rb rc
  refine ⟨fun hports => ⟨fun hcontrol => ⟨fun p hp own hfits hown => ?plain, fun own hfits hown hva hlen hzero hgroup => ?nzpk,
    fun hva hlen => ?fill⟩, fun bs u doff own hdesc halign hbytes hcount hcontrol hown p hp hfit => ?rows⟩,
    fun hports p hp hitem => ?wptr, fun hports => ⟨fun hbeat => ?between, fun hbeat => ?mid⟩⟩
  case plain =>
    simp only [List.mem_cons, List.not_mem_nil, or_false] at hp
    obtain rfl | rfl := hp
    all_goals exact issuesCopy_of_issueCopy rfl (plainCopy_address_issues hports hcontrol hfits hown)
  case nzpk => exact cpNzpk_issues hports hcontrol hfits hown hva hlen hzero hgroup
  case fill => exact cpFill_issues hports hcontrol hva hlen
  case rows =>
    simp only [List.mem_cons, List.not_mem_nil, or_false] at hp
    obtain rfl | rfl := hp
    all_goals exact issuesCopy_of_issueCopy rfl (copy2d_issues hports hdesc halign hbytes hcount hcontrol hown hfit)
  case wptr =>
    have hread : chanItem t.core (t.r1 rb) = p.2 := by
      simp only [List.mem_cons, List.not_mem_nil, or_false] at hp
      obtain rfl | rfl | rfl | rfl := hp
      all_goals simp only [chanItem, hitem]
    exact hread ▸ cpWptr_ends hports
  case between => exact cpCancel_between_beats hports hbeat
  case mid => exact cpCancel_mid_beat hports hbeat

end Sys2Proof.Machine
end

section
/-!
PROOFS. What a vector instruction leaves unchanged: not the mark of a load of host memory, which a catch leaves set and a vector
instruction's retirement clears.
-/
namespace Sys2Proof.Machine

/-- A retired instruction has put an end to a wait for host memory. -/
theorem withV_hostWait (s : State) (rd : VReg) (srcs : List SReg) (x : VWord) : (s.withV rd srcs x).core.hostWait = false := by
  simp [State.withV]

theorem withV_icount (s : State) (rd : VReg) (x : VWord) : (s.withV rd [] x).core.icount = s.core.icount + 1 := by
  simp [State.withV, Core.dequeue]

/-- vi.add of two vector registers retires in every state. -/
theorem viAdd_retires (s : State) (rd va vb : VReg) :
    exec (.viAdd rd (.vec va) (.vec vb)) s =
      .next (s.withV rd [] (Vector.ofFn fun j => (s.core.getV va)[j] + (s.core.getV vb)[j])) :=
  ivec2_done (sa := .vec va) (sb := .vec vb) (openPorts_none s rfl)

/-- What retires with a vector result on a core marked as waiting for host memory changes that mark, which SameRest keeps. -/
theorem withV_not_sameRest {s : State} (rd : VReg) (srcs : List SReg) (x : VWord) (hwait : s.core.hostWait = true) :
    ¬ SameRest s.core (s.withV rd srcs x).core := by
  intro hrest
  have hkept := hrest.hostWait
  rw [withV_hostWait, hwait] at hkept
  contradiction

/-- A core whose load into port 1 waits for host memory; a control word has come to the port since, and its catch address is
0x100. -/
def caughtLoad : State :=
  { cores := [(0, { phase := .running, ctx := some 0, rev := false, hostWait := true,
                    qin := #v[[], [1#65 <<< 64], [], []], qcatch := #v[0, 0x100, 0, 0] })] }

/-- A catch (R271) leaves the mark of the load that it interrupts: the handler begins on a core marked as waiting. -/
theorem catch_keeps_hostWait :
    ∃ t, exec (.ldD 0 57 1 0) caughtLoad = .next t ∧ t.core.pc = 0x100 ∧ t.core.hostWait = true :=
  ⟨_, rfl, by decide⟩

/-- Refutes O6: an instruction that retires clears hostWait, and SameRest keeps it. In the handler of a catch that interrupted a
load of host memory, vi.add v1, v2, v3 names no port and retires, and hostWait falls from true to false. -/
theorem not_vectorFrame : ¬ Obligations.VectorFrame := by
  intro h
  obtain ⟨s, -, -, hwait⟩ := catch_keeps_hostWait
  have hframe := h (.viAdd 1 (.vec 2) (.vec 3)) [] [1] [] [] s _ rfl rfl (viAdd_retires s 1 2 3) (withV_icount ..)
  exact withV_not_sameRest 1 [] _ hwait hframe.rest

end Sys2Proof.Machine
end

section
/-!
PROOFS. What the plain operations on words give, as numbers: quotients, shifts, extrema, truth values and counts of bits.
-/
namespace Sys2Proof.Machine

/-! ## Extrema and truth values (R177, R179) -/

section Order
variable {w : Nat} (a b : BitVec w)

theorem minS_eq : minS a b = if a.toInt < b.toInt then a else b := by simp [minS, BitVec.slt_iff_toInt_lt]
theorem maxS_eq : maxS a b = if a.toInt < b.toInt then b else a := by simp [maxS, BitVec.slt_iff_toInt_lt]
theorem minU_eq : minU a b = if a.toNat < b.toNat then a else b := by simp [minU, BitVec.ult_iff_toNat_lt]
theorem maxU_eq : maxU a b = if a.toNat < b.toNat then b else a := by simp [maxU, BitVec.ult_iff_toNat_lt]

theorem truth_decide (p : Prop) [Decidable p] : truth (decide p) = if p then 1 else 0 := by simp [truth]
theorem truth_beq : truth (a == b) = if a = b then 1 else 0 := by simp [truth]
theorem truth_bne : truth (a != b) = if a = b then 0 else 1 := by
  by_cases h : a = b <;> simp [truth, h]
theorem truth_slt : truth (a.slt b) = if a.toInt < b.toInt then 1 else 0 := truth_decide _
theorem truth_ult : truth (a.ult b) = if a.toNat < b.toNat then 1 else 0 := truth_decide _

end Order

/-! ## Magnitude, division and shifts (R177 to R179) -/

section Numbers
variable {w : Nat} (a b : BitVec w) (k : Nat)

/-- The negative of a word with its sign bit set is its magnitude; so it is, modulo 2^w, for the most negative one. -/
theorem negate_if_negative : (if a.msb then -a else a) = BitVec.ofInt w |a.toInt| := by
  cases h : a.msb with
  | true =>
    have hneg : a.toInt < 0 := BitVec.toInt_neg_of_msb_true h
    simp [abs_of_neg hneg, BitVec.ofInt_neg]
  | false =>
    have hpos : 0 ≤ a.toInt := by rw [BitVec.toInt_eq_toNat_of_msb h]; omega
    simp [abs_of_nonneg hpos]

theorem quotient_eq : quotient a b = BitVec.ofInt w (a.toInt.tdiv b.toInt) :=
  BitVec.eq_of_toInt_eq (by rw [quotient, BitVec.toInt_sdiv, BitVec.toInt_ofInt])

theorem remainder_eq : remainder a b = BitVec.ofInt w (a.toInt.tmod b.toInt) := by
  rw [remainder, ← BitVec.toInt_srem, BitVec.ofInt_toInt]

theorem udiv_eq_ofNat : a / b = BitVec.ofNat w (a.toNat / b.toNat) := by
  rw [← BitVec.toNat_udiv, BitVec.ofNat_toNat, BitVec.setWidth_eq]

theorem umod_eq_ofNat : a % b = BitVec.ofNat w (a.toNat % b.toNat) := by
  rw [← BitVec.toNat_umod, BitVec.ofNat_toNat, BitVec.setWidth_eq]

theorem shiftLeft_eq_ofNat : a <<< k = BitVec.ofNat w (a.toNat * 2 ^ k) :=
  BitVec.eq_of_toNat_eq (by rw [BitVec.toNat_shiftLeft, Nat.shiftLeft_eq, BitVec.toNat_ofNat])

theorem ushiftRight_eq_ofNat : a >>> k = BitVec.ofNat w (a.toNat / 2 ^ k) := by
  rw [← Nat.shiftRight_eq_div_pow, ← BitVec.toNat_ushiftRight, BitVec.ofNat_toNat, BitVec.setWidth_eq]

theorem sshiftRight_eq_ofInt : a.sshiftRight k = BitVec.ofInt w (a.toInt / 2 ^ k) := by
  rw [BitVec.sshiftRight_eq, Int.shiftRight_eq_div_pow]
  norm_cast

end Numbers

theorem rotate_eq (a : Word) {k : Nat} (h : k < 64) : rotate a k = a >>> k ||| a <<< (64 - k) := by
  rw [rotate, BitVec.rotateRight_def, Nat.mod_eq_of_lt h]

/-! ## Counts of bits (R179, R190) -/

theorem ones_eq {w : Nat} (a : BitVec w) : ones a = (List.range w).countP a.getLsbD := by
  unfold ones
  induction List.range w with
  | nil => rfl
  | cons i is ih =>
    rw [List.map_cons, List.sum_cons, ih, List.countP_cons, Nat.add_comm]
    rfl

/-- A nonzero word between two powers of 2 has that many bits, and the zeros above them lead. -/
theorem leadingZeros_eq {a : Word} {k : Nat} (hk : k ≤ 64) (hlt : a.toNat < 2 ^ (64 - k))
    (hle : k < 64 → 2 ^ (63 - k) ≤ a.toNat) : leadingZeros a = k := by
  rcases Nat.lt_or_eq_of_le hk with hk' | rfl
  · have hpos : 0 < a.toNat := Nat.lt_of_lt_of_le (Nat.two_pow_pos _) (hle hk')
    have hz : a ≠ 0 := by rintro rfl; simp at hpos
    have hlog : Nat.log2 a.toNat = 63 - k :=
      (Nat.log2_eq_iff hpos.ne').2 ⟨hle hk', by rwa [show 63 - k + 1 = 64 - k by omega]⟩
    rw [leadingZeros, if_neg hz, hlog]
    omega
  · have hz : a = 0 := BitVec.eq_of_toNat_eq (by simpa using hlt)
    rw [leadingZeros, if_pos hz]

/-- Trailing zeros are counted up to the first one, or to the bound. -/
theorem trailingFrom_eq {x n i k : Nat} (hi : i ≤ k) (hk : k ≤ i + n) (hzero : ∀ j < k, bit x j = false)
    (hone : k < i + n → bit x k = true) : trailingFrom x n i = k := by
  induction n generalizing i with
  | zero => simp only [trailingFrom]; omega
  | succ n ih =>
    rcases Nat.eq_or_lt_of_le hi with rfl | hlt
    · simp [trailingFrom, hone (by omega)]
    · simpa [trailingFrom, hzero i hlt] using ih hlt (by omega) fun h => hone (by omega)

/-! ## Fat pointers (R64) -/

theorem fld_address (p : Word) : fld p 51 0 = p.toNat % 2 ^ 52 := by simp [fld, bits]

theorem fld_tag (p : Word) : fld p 63 52 = p.toNat / 2 ^ 52 := by
  have := p.isLt
  simp only [fld, bits, Nat.shiftRight_eq_div_pow]
  omega

section Pointers
variable {p d : Word} {sum : Int} {t : State} (hsum : ((p.toNat % 2 ^ 52 : Nat) : Int) + d.toInt = sum)
include hsum

/-- A sum that stays in 52 bits replaces the address; the tag stays. -/
theorem pointerAdd_within (h0 : 0 ≤ sum) (h1 : sum < 2 ^ 52) :
    pointerAdd p d t = .ok (BitVec.ofNat 64 (p.toNat / 2 ^ 52 * 2 ^ 52 + sum.toNat), t) := by
  have hin : ¬ (sum < 0 ∨ 2 ^ 52 ≤ sum) := by omega
  simp only [pointerAdd, fld_address, fld_tag, hsum, if_neg hin]
  rfl

theorem pointerAdd_outside (h : sum < 0 ∨ 2 ^ 52 ≤ sum) : pointerAdd p d t = .error (t.takeTrap t.cur 0x07 t.core.pc p) := by
  simp only [pointerAdd, fld_address, hsum, if_pos h]
  rfl

end Pointers

end Sys2Proof.Machine
end

section
/-!
PROOFS. The scalar groups sa, sb, sw, si and li: an instruction whose ports pass retires with the value of its computation, or takes
the trap that the computation ends in.
-/
namespace Sys2Proof.Machine

/-! ## What an instruction of a scalar form leaves -/

section Forms
variable {i : Instr} {s t : State} {rd rs : SReg} {sa sb : Src} {r : Word}

theorem ends_of_scalar2 {f : Word → Word → Word} (hi : exec i s = run (scalar2 rd sa sb fun a b => pure (f a b)) s)
    (h : Gives (openPorts (some rd) (srcNames sa ++ srcNames sb)) s () t) (hr : f (t.a sa) (t.b sa sb) = r) :
    Ends i s (t.withS rd (srcNames sa ++ srcNames sb) r) :=
  hi.trans (scalar2_done h (by rw [hr]; rfl))

theorem ends_of_scalar1 {f : Word → Word} (hi : exec i s = run (scalar1 rd sa f) s)
    (h : Gives (openPorts (some rd) (srcNames sa)) s () t) (hr : f (t.a sa) = r) :
    Ends i s (t.withS rd (srcNames sa) r) := by
  subst hr
  exact hi.trans (scalar1_done h)

theorem ends_of_scalarI {f : Word → Word} (hi : exec i s = run (scalarI rd rs f) s)
    (h : Gives (openPorts (some rd) [rs]) s () t) (hr : f (t.r1 rs) = r) : Ends i s (t.withS rd [rs] r) :=
  ends_of_scalar1 (sa := .reg rs) hi h hr

/-- An operation on the low words retires with its result sign-extended (R180). -/
theorem ends_of_onWords {f : Lane → Lane → Lane} {x : Lane}
    (hi : exec i s = run (scalar2 rd sa sb fun a b => pure (onWords f a b)) s)
    (h : Gives (openPorts (some rd) (srcNames sa ++ srcNames sb)) s () t)
    (hx : f ((t.a sa).setWidth 32) ((t.b sa sb).setWidth 32) = x) :
    Ends i s (t.withS rd (srcNames sa ++ srcNames sb) (x.signExtend 64)) :=
  ends_of_scalar2 hi h (by rw [onWords, hx])

/-! ## Division (R178) -/

theorem ends_of_divide {f : Word → Word → Word} (hi : exec i s = run (scalar2 rd sa sb (divide f)) s)
    (h : Gives (openPorts (some rd) (srcNames sa ++ srcNames sb)) s () t) (hb : t.b sa sb ≠ 0)
    (hr : f (t.a sa) (t.b sa sb) = r) : Ends i s (t.withS rd (srcNames sa ++ srcNames sb) r) :=
  hi.trans (scalar2_done h (by rw [divide, if_neg hb, hr]; rfl))

theorem ends_of_divideWords {f : Lane → Lane → Lane} {x : Lane} (hi : exec i s = run (scalar2 rd sa sb (divideWords f)) s)
    (h : Gives (openPorts (some rd) (srcNames sa ++ srcNames sb)) s () t) (hb : (t.b sa sb).setWidth 32 ≠ 0#32)
    (hx : f ((t.a sa).setWidth 32) ((t.b sa sb).setWidth 32) = x) :
    Ends i s (t.withS rd (srcNames sa ++ srcNames sb) (x.signExtend 64)) :=
  hi.trans (scalar2_done h (by rw [divideWords, if_neg hb, onWords, hx]; rfl))

theorem divide_by_zero {f : Word → Word → Word} (hi : exec i s = run (scalar2 rd sa sb (divide f)) s)
    (h : Gives (openPorts (some rd) (srcNames sa ++ srcNames sb)) s () t) (hb : t.b sa sb = 0) :
    Ends i s (t.takeTrap t.cur 0x08 t.core.pc (t.a sa)) :=
  hi.trans (scalar2_ends h (by rw [divide, if_pos hb, trap_at]))

theorem divideWords_by_zero {f : Lane → Lane → Lane} (hi : exec i s = run (scalar2 rd sa sb (divideWords f)) s)
    (h : Gives (openPorts (some rd) (srcNames sa ++ srcNames sb)) s () t) (hb : (t.b sa sb).setWidth 32 = 0#32) :
    Ends i s (t.takeTrap t.cur 0x08 t.core.pc (((t.a sa).setWidth 32).signExtend 64)) :=
  hi.trans (scalar2_ends h (by rw [divideWords, if_pos hb, trap_at]))

end Forms

/-- Settles O1: each instruction is of a scalar form; extrema and the magnitude are the facts about words. -/
theorem scalarArithmetic : Obligations.ScalarArithmetic := by
  intro s t rd sa sb
  refine ⟨fun h => ?_, fun h => ?_⟩
  · exact ⟨ends_of_scalar2 rfl h rfl, ends_of_scalar2 rfl h rfl, ends_of_scalar2 rfl h rfl, ends_of_scalar2 rfl h rfl,
      ends_of_scalar2 rfl h rfl, ends_of_scalar2 rfl h (minS_eq ..), ends_of_scalar2 rfl h (maxS_eq ..),
      ends_of_scalar2 rfl h (minU_eq ..), ends_of_scalar2 rfl h (maxU_eq ..)⟩
  · exact ⟨ends_of_scalar1 rfl h (negate_if_negative _), ends_of_scalar1 rfl h (BitVec.zero_sub _).symm⟩

/-- Settles O2: a nonzero divisor gives the quotient or the remainder, a divisor of zero the trap of the division. -/
theorem scalarDivision : Obligations.ScalarDivision := by
  intro s t rd sa sb h
  refine ⟨fun hb => ?_, fun hy => ?_, fun hb i hi => ?_, fun hy i hi => ?_⟩
  · exact ⟨ends_of_divide rfl h hb (quotient_eq ..), ends_of_divide rfl h hb (remainder_eq ..),
      ends_of_divide rfl h hb (udiv_eq_ofNat ..), ends_of_divide rfl h hb (umod_eq_ofNat ..)⟩
  · exact ⟨ends_of_divideWords rfl h hy (quotient_eq ..), ends_of_divideWords rfl h hy (remainder_eq ..),
      ends_of_divideWords rfl h hy (udiv_eq_ofNat ..), ends_of_divideWords rfl h hy (umod_eq_ofNat ..)⟩
  · simp only [List.mem_cons, List.not_mem_nil, or_false] at hi
    obtain rfl | rfl | rfl | rfl := hi
    all_goals exact divide_by_zero rfl h hb
  · simp only [List.mem_cons, List.not_mem_nil, or_false] at hi
    obtain rfl | rfl | rfl | rfl := hi
    all_goals exact divideWords_by_zero rfl h hy

/-! ## Selection and padd -/

section Logic
variable {s t : State} {rd : SReg} {sa sb : Src}

/-- sb.sel retires with the source that the old destination chooses (R179). -/
theorem sbSel_ends (h : Gives (openPorts (some rd) (srcNames sa ++ srcNames sb ++ [rd])) s () t) :
    Ends (.sbSel rd sa sb) s (t.withS rd (srcNames sa ++ srcNames sb ++ [rd])
      (if (((t.core.takeSrc sa).2.takeSrc sb).2.takeS rd).1 = 0 then t.b sa sb else t.a sa)) := by
  have hrun : Ends (.sbSel rd sa sb) s (t.withS rd (srcNames sa ++ srcNames sb ++ [rd])
      (if (((t.core.takeSrc sa).2.takeSrc sb).2.takeS rd).1 ≠ 0 then t.a sa else t.b sa sb)) :=
    run_ok (by rw [bind_ok h, bind_ok (core_at t)]; exact finishS_at ..)
  rwa [ite_not] at hrun

end Logic

/-- Settles O3: the counts of zeros by their characterizations, and padd by the sum that stays in 52 bits or leaves them. -/
theorem scalarLogic : Obligations.ScalarLogic := by
  intro s t rd sa sb
  refine ⟨fun h => ?_, fun h => ?_, sbSel_ends⟩
  · have hk : (t.b sa sb).toNat % 64 < 64 := Nat.mod_lt _ (by decide)
    exact ⟨ends_of_scalar2 rfl h rfl, ends_of_scalar2 rfl h rfl, ends_of_scalar2 rfl h rfl, ends_of_scalar2 rfl h rfl,
      ends_of_scalar2 rfl h (shiftLeft_eq_ofNat ..), ends_of_scalar2 rfl h (ushiftRight_eq_ofNat ..),
      ends_of_scalar2 rfl h (sshiftRight_eq_ofInt ..), ends_of_scalar2 rfl h (rotate_eq _ hk),
      ends_of_scalar2 rfl h (truth_beq ..), ends_of_scalar2 rfl h (truth_bne ..), ends_of_scalar2 rfl h (truth_slt ..),
      ends_of_scalar2 rfl h (truth_ult ..), fun h0 h1 => scalar2_done h (pointerAdd_within rfl h0 h1),
      fun hout => scalar2_ends h (pointerAdd_outside rfl hout)⟩
  · refine ⟨fun k hk hlt hle => ends_of_scalar1 rfl h (congrArg word (leadingZeros_eq hk hlt hle)),
      fun k hk hzero hone => ends_of_scalar1 rfl h (congrArg word (trailingFrom_eq (Nat.zero_le k) (by omega) ?_ ?_)),
      ends_of_scalar1 rfl h (congrArg word (ones_eq _))⟩
    · exact fun j hj => (bit_toNat_eq_getLsbD _ j).trans (hzero j hj)
    · exact fun hlt => (bit_toNat_eq_getLsbD _ k).trans (hone (by omega))

/-! ## Immediates (R181, R182) -/

section Immediates
variable {s t : State} {rd : SReg}

theorem liHi_ends (imm : BitVec 20) (h : Gives (openPorts (some rd) []) s () t) :
    Ends (.liHi rd imm) s (t.withS rd [] (imm.signExtend 64 * 0x4000)) := by
  have hmul : imm.signExtend 64 <<< 14 = imm.signExtend 64 * 0x4000 := BitVec.shiftLeft_eq_mul_twoPow _ 14
  rw [← hmul]
  exact run_ok ((bind_ok h).trans (finishS_at ..))

theorem liTop_ends (imm : BitVec 20) (h : Gives (openPorts (some rd) [rd]) s () t) :
    Ends (.liTop rd imm) s (t.withS rd [rd] (imm ++ (t.r1 rd).extractLsb' 0 44)) :=
  run_ok (by rw [bind_ok h, bind_ok (core_at t)]; exact finishS_at ..)

/-- An immediate has its value in 64 bits too. -/
theorem truth_slt_immediate (a : Word) (imm : BitVec 14) :
    truth (a.slt (imm.signExtend 64)) = if a.toInt < imm.toInt then 1 else 0 := by
  rw [truth_slt, BitVec.toInt_signExtend_of_le (by decide)]

end Immediates

/-- Settles O4: sw by its operation on low words, si as a scalar form of one register, li by its two equations. -/
theorem scalarWordsAndImmediates : Obligations.ScalarWordsAndImmediates := by
  refine ⟨fun s t rd sa sb h => ?_, fun s t rd rs imm amt top => ⟨fun h => ?_, liHi_ends top, liTop_ends top⟩⟩
  · exact ⟨ends_of_onWords rfl h rfl, ends_of_onWords rfl h rfl, ends_of_onWords rfl h rfl,
      ends_of_onWords rfl h (shiftLeft_eq_ofNat ..), ends_of_onWords rfl h (ushiftRight_eq_ofNat ..),
      ends_of_onWords rfl h (sshiftRight_eq_ofInt ..), ends_of_onWords rfl h (minS_eq ..), ends_of_onWords rfl h (maxS_eq ..)⟩
  · exact ⟨ends_of_scalarI rfl h rfl, ends_of_scalarI rfl h rfl, ends_of_scalarI rfl h rfl, ends_of_scalarI rfl h rfl,
      ends_of_scalarI rfl h (shiftLeft_eq_ofNat ..), ends_of_scalarI rfl h (ushiftRight_eq_ofNat ..),
      ends_of_scalarI rfl h (sshiftRight_eq_ofInt ..), ends_of_scalarI rfl h (rotate_eq _ amt.isLt),
      ends_of_scalarI rfl h (truth_slt_immediate ..)⟩

end Sys2Proof.Machine
end

section
/-!
PROOFS. Control flow: br, jmp, call and jx, the start of a hardware loop and the end of an iteration.
-/
namespace Sys2Proof.Machine

/-! ## Words taken from ports (R14, R269) -/

theorem takeS_eq (c : Core) (n : SReg) : ∃ q, (c.takeS n).2 = { c with qin := q } := by
  unfold Core.takeS
  split
  · exact ⟨c.qin, rfl⟩
  · exact ⟨_, rfl⟩

/-- The words that an instruction takes change the input FIFOs of its core alone. -/
theorem dequeue_eq (c : Core) (ns : List SReg) : ∃ q, c.dequeue ns = { c with qin := q } := by
  unfold Core.dequeue
  induction ns generalizing c with
  | nil => exact ⟨c.qin, rfl⟩
  | cons n ns ih =>
    obtain ⟨q, hq⟩ := takeS_eq c n
    obtain ⟨q', hq'⟩ := ih (c.takeS n).2
    exact ⟨q', by rw [List.foldl_cons, hq', hq]⟩

section Dequeue
variable (c : Core) (ns : List SReg)

@[simp] theorem dequeue_pc : (c.dequeue ns).pc = c.pc := by obtain ⟨_, h⟩ := dequeue_eq c ns; rw [h]
@[simp] theorem dequeue_tlv : (c.dequeue ns).tlv = c.tlv := by obtain ⟨_, h⟩ := dequeue_eq c ns; rw [h]
@[simp] theorem dequeue_icount : (c.dequeue ns).icount = c.icount := by obtain ⟨_, h⟩ := dequeue_eq c ns; rw [h]

end Dequeue

/-! ## Branches (R183) -/

section Branches
variable {i : Instr} {s t : State} {srcs : List SReg} {off : BitVec 14} {test : Core → Bool} {p : Prop}

/-- A br goes to its target where its test holds, and goes on behind itself where it fails. -/
theorem branch_ends (hi : exec i s = run (branch srcs off test) s) (h : Gives (openPorts none srcs) s () t)
    (hp : test t.core = true ↔ p) :
    (p → Ends i s (t.wentTo srcs (t.core.pc + off.signExtend 52 * 4))) ∧ (¬p → Ends i s (t.done srcs)) := by
  refine ⟨fun ht => hi.trans (run_ok ?_), fun ht => hi.trans (run_ok ?_)⟩ <;> unfold branch <;>
    rw [bind_ok h, bind_ok (core_at t)]
  · rw [if_pos (hp.2 ht)]
    rfl
  · rw [if_neg (mt hp.1 ht)]
    exact finish_at ..

theorem branchZero_ends {n : SReg} {test : Word → Bool} (hi : exec i s = run (branchZero n off test) s)
    (h : Gives (openPorts none [n]) s () t) (hp : test (t.r1 n) = true ↔ p) :
    (p → Ends i s (t.wentTo [n] (t.core.pc + off.signExtend 52 * 4))) ∧ (¬p → Ends i s (t.done [n])) :=
  branch_ends (test := fun c => test (c.takeS n).1) hi h hp

end Branches

/-! A register compared with zero, as INT64 (R183). -/

section Zero
variable (w : Word)

theorem beq_zero_iff : (w == 0) = true ↔ w.toInt = 0 := by rw [beq_iff_eq, ← BitVec.toInt_inj]; rfl
theorem bne_zero_iff : (w != 0) = true ↔ w.toInt ≠ 0 := by rw [bne, Bool.not_eq_true', ← Bool.not_eq_true, beq_zero_iff]
theorem slt_zero_iff : w.slt 0 = true ↔ w.toInt < 0 := BitVec.slt_iff_toInt_lt
theorem zero_slt_iff : (0#64).slt w = true ↔ 0 < w.toInt := BitVec.slt_iff_toInt_lt
theorem not_slt_zero_iff : (!w.slt 0) = true ↔ 0 ≤ w.toInt := by
  rw [Bool.not_eq_true', ← Bool.not_eq_true, slt_zero_iff, Int.not_lt]
theorem not_zero_slt_iff : (!(0#64).slt w) = true ↔ w.toInt ≤ 0 := by
  rw [Bool.not_eq_true', ← Bool.not_eq_true, zero_slt_iff, Int.not_lt]

end Zero

/-! ## Jumps (R184) -/

section Jumps
variable {s t : State} {sa : Src} {rd : SReg} {w : Word}

theorem jmp_ends (off : BitVec 26) : Ends (.jmp off) s (s.wentTo [] (s.core.pc + off.signExtend 52 * 4)) :=
  rfl

theorem call_ends (off : BitVec 26) :
    Ends (.call off) s (s.setCore
      (((s.core.setS 61 ((s.core.pc + 4).setWidth 64)).deeper).jumped (s.core.pc + off.signExtend 52 * 4))) :=
  rfl

theorem jxTarget_aligned (h : w.toNat % 4 = 0) : jxTarget w t = .ok (w.setWidth 52, t) := by
  rw [jxTarget, if_neg (not_not_intro h)]
  rfl

theorem jxTarget_misaligned (h : w.toNat % 4 ≠ 0) : jxTarget w t = .error (t.takeTrap t.cur 0x03 t.core.pc w) := by
  rw [jxTarget, if_pos h]
  rfl

theorem jxJr_ends (h : Gives (openPorts none (srcNames sa)) s () t) (ha : (t.a sa).toNat % 4 = 0) :
    Ends (.jxJr sa) s (t.wentTo (srcNames sa) ((t.a sa).setWidth 52)) :=
  run_ok (by rw [bind_ok h, bind_ok (core_at t)]; exact bind_ok (jxTarget_aligned ha))

theorem jxJr_traps (h : Gives (openPorts none (srcNames sa)) s () t) (ha : (t.a sa).toNat % 4 ≠ 0) :
    Ends (.jxJr sa) s (t.takeTrap t.cur 0x03 t.core.pc (t.a sa)) :=
  run_error (by rw [bind_ok h, bind_ok (core_at t)]; exact bind_error (jxTarget_misaligned ha))

theorem jxCallr_ends (h : Gives (openPorts (some rd) (srcNames sa)) s () t) (ha : (t.a sa).toNat % 4 = 0) :
    let u := (t.setCore (t.core.dequeue (srcNames sa))).putS rd ((t.core.pc + 4).setWidth 64)
    Ends (.jxCallr rd sa) s (u.setCore (u.core.deeper.jumped ((t.a sa).setWidth 52))) :=
  run_ok (by rw [bind_ok h, bind_ok (core_at t)]; exact bind_ok (jxTarget_aligned ha))

theorem jxRet_ends (h : (s.core.getS 61).toNat % 4 = 0) :
    Ends .jxRet s (s.setCore (s.core.shallower.jumped ((s.core.getS 61).setWidth 52))) :=
  run_ok ((bind_ok (core_at s)).trans (bind_ok (jxTarget_aligned h)))

theorem jxRet_traps (h : (s.core.getS 61).toNat % 4 ≠ 0) :
    Ends .jxRet s (s.takeTrap s.cur 0x03 s.core.pc (s.core.getS 61)) :=
  run_error ((bind_ok (core_at s)).trans (bind_error (jxTarget_misaligned h)))

end Jumps

/-- Settles O7: a br by its test, a jx by the low bits of its target. -/
theorem branchesAndJumps : Obligations.BranchesAndJumps := by
  refine ⟨fun s t n p off => ⟨fun h => ?_, ?_⟩, fun s t off sa rd => ?_⟩
  · exact ⟨branchZero_ends rfl h (beq_zero_iff _), branchZero_ends rfl h (bne_zero_iff _),
      branchZero_ends rfl h (slt_zero_iff _), branchZero_ends rfl h (not_slt_zero_iff _), branchZero_ends rfl h (zero_slt_iff _),
      branchZero_ends rfl h (not_zero_slt_iff _)⟩
  · rintro rfl
    have h : Gives (openPorts none []) t () t := openPorts_none t rfl
    exact ⟨branch_ends rfl h bne_iff_ne, branch_ends rfl h beq_iff_eq,
      (branch_ends (test := fun _ => true) rfl h (by simp)).1 trivial⟩
  · exact ⟨jmp_ends off, call_ends off, jxJr_ends, jxJr_traps, jxCallr_ends, jxRet_ends, jxRet_traps⟩

/-! ## Hardware loops (R187, R188) -/

/-- The core behind an lp.do that has taken its count n, with the end of the loop off words on (R187). -/
def Core.startsLoop (c : Core) (n : Word) (off : BitVec 52) : Core :=
  let start := c.pc + 4
  let last := c.pc + off * 4
  ({ c with lp := ⟨n, start.toNat / 4 * 4, last.toNat / 4 * 4, n != 0, false, c.lp.pending, 0, c.tlv.toNat⟩ }).jumped
    (if n != 0 then start else last + 4)

section Loops
variable (c : Core) (w : Word) (off : BitVec 52) {s t : State} {n : SReg} {imm : BitVec 14}

theorem startsLoop_lp : (c.startsLoop w off).lp = ⟨w, (c.pc + 4).toNat / 4 * 4, (c.pc + off * 4).toNat / 4 * 4, w != 0, false,
    c.lp.pending, 0, c.tlv.toNat⟩ := by rw [Core.startsLoop, jumped_lp]
theorem startsLoop_pc : (c.startsLoop w off).pc = if w = 0 then c.pc + off * 4 + 4 else c.pc + 4 := by
  by_cases h : w = 0#64 <;> simp [Core.startsLoop, h]
theorem startsLoop_icount : (c.startsLoop w off).icount = c.icount + 1 := by rw [Core.startsLoop, jumped_icount]
theorem startsLoop_qin : (c.startsLoop w off).qin = c.qin := by rw [Core.startsLoop, jumped_qin]

theorem lpDo_ends (h : Gives (openPorts none [n]) s () t) (hact : t.core.lp.act = false) (himm : 0 < imm.toInt) :
    Ends (.lpDo n imm) s (t.setCore ((t.core.dequeue [n]).startsLoop (t.r1 n) (imm.signExtend 52))) := by
  have hgo : ¬ (t.core.lp.act || decide (imm.toInt ≤ 0)) = true := by simp [hact, himm]
  refine run_ok ?_
  rw [bind_ok h, bind_ok (core_at t)]
  simp only [if_neg hgo]
  rfl

theorem lpDo_traps (h : Gives (openPorts none [n]) s () t) (hbad : t.core.lp.act = true ∨ imm.toInt ≤ 0) :
    Ends (.lpDo n imm) s (t.takeTrap t.cur 0x0A t.core.pc (t.core.pc.setWidth 64)) := by
  have hstop : (t.core.lp.act || decide (imm.toInt ≤ 0)) = true := by simpa using hbad
  refine run_error ?_
  rw [bind_ok h, bind_ok (core_at t)]
  simp only [if_pos hstop]
  rfl

end Loops

section Turns
variable {c : Core}

/-- The current instruction retires at the loop's level, at its last address (R188). -/
def Core.endsIteration (c : Core) : Prop :=
  c.lp.act = true ∧ c.tlv.toNat = c.lp.level ∧ c.lp.depth = 0 ∧ c.pc.toNat = c.lp.le

/-- The count of iterations that are left, the current one among them: a pending count is taken first (R188, R189). -/
def Loop.left (l : Loop) : Word := if l.pnd then l.pending else l.lc

theorem fallThrough_endsIteration (h : c.endsIteration) : c.fallThrough = c.lp.turn c.pc := by
  obtain ⟨hact, hlevel, hdepth, hpc⟩ := h
  simp [Core.fallThrough, Core.atLoop, hact, hlevel, hdepth, hpc]

theorem fallThrough_not_endsIteration (h : ¬ c.endsIteration) : c.fallThrough = (c.lp, c.pc + 4) := by
  refine if_neg fun hloop => h ?_
  simpa [Core.atLoop, Core.endsIteration, and_assoc] using hloop

/-- The end of an iteration by what is left: the loop ends, or goes on at its start with one less. -/
theorem turn_eq (l : Loop) (pc : BitVec 52) : l.turn pc =
    if l.left.toNat ≤ 1 then ({ l with lc := 0, act := false, pnd := false }, pc + 4)
    else ({ l with lc := l.left - 1, pnd := false }, BitVec.ofNat 52 l.ls) := by
  obtain ⟨lc, ls, le, act, pnd, pending, depth, level⟩ := l
  cases pnd <;> rfl

end Turns

theorem sysNop_ends (s : State) : Ends .sysNop s (s.setCore s.core.retired) := run_ok retire_at

/-- Settles O8: lp.do by its guard, and sys.nop, which only retires, by the turn of the loop. -/
theorem hardwareLoops : Obligations.HardwareLoops := by
  refine ⟨fun s t n imm h => ⟨fun hact himm => ⟨_, lpDo_ends h hact himm, ?_⟩, lpDo_traps h⟩,
    fun s => ⟨_, sysNop_ends s, ?_⟩⟩
  · simp [startsLoop_lp, startsLoop_pc, startsLoop_icount, startsLoop_qin]
  · rw [core_setCore, retired_pc, retired_lp, retired_icount]
    refine ⟨rfl, fun hend hmore => ?_, fun hend hlast => ?_, fun hgoes => ?_⟩
    · have hleft : ¬ s.core.lp.left.toNat ≤ 1 := Nat.not_le.2 hmore
      rw [fallThrough_endsIteration hend, turn_eq, if_neg hleft]
      obtain ⟨hact, -⟩ := hend
      exact ⟨rfl, rfl, hact⟩
    · have hleft : s.core.lp.left.toNat ≤ 1 := hlast
      rw [fallThrough_endsIteration hend, turn_eq, if_pos hleft]
      exact ⟨rfl, rfl, rfl⟩
    · rw [fallThrough_not_endsIteration hgoes]
      exact ⟨rfl, rfl⟩

end Sys2Proof.Machine
end

section
/-!
PROOFS. The pr group: an instruction to a predicate retires in every state, one to a scalar register where its port passes.
-/
namespace Sys2Proof.Machine

section Forms
variable {i : Instr} {s t : State} {p : PReg} {rd : SReg} {x : PSrc}

theorem ends_of_finishP {f : Core → PWord} (hi : exec i s = run (core >>= fun c => finishP p [] (f c)) s) :
    Ends i s (s.withP p [] (f s.core)) :=
  hi.trans (run_ok ((bind_ok (core_at s)).trans (finishP_at ..)))

theorem ends_of_pred2 {y : PSrc} {f : PWord → PWord → PWord} (hi : exec i s = run (pred2 p x y f) s) :
    Ends i s (s.withP p [] (f (s.core.readP x) (s.core.readP y))) :=
  ends_of_finishP (f := fun c => f (c.readP x) (c.readP y)) hi

theorem ends_of_predS {f : PWord → Word} {r : Word} (hi : exec i s = run (predS rd x f) s)
    (h : Gives (openPorts (some rd) []) s () t) (hr : f (t.core.readP x) = r) : Ends i s (t.withS rd [] r) := by
  subst hr
  exact hi.trans (predS_done h)

end Forms

/-- Settles O9: each instruction is of a shared form; the first one bit is the count of zeros below it. -/
theorem predicates : Obligations.Predicates := by
  intro s t p rd x y z
  refine ⟨fun v n k => ⟨rfl, rfl, rfl, rfl, rfl⟩, ends_of_pred2 rfl, ends_of_pred2 rfl, ends_of_pred2 rfl,
    ends_of_finishP (f := fun c => ~~~ c.readP x) rfl, ends_of_finishP (f := fun c => c.readK z) rfl, fun h => ?_⟩
  refine ⟨ends_of_predS rfl h rfl, ends_of_predS rfl h (congrArg word (ones_eq _)), fun k hk hone hzero => ?_, fun hz => ?_⟩
  · exact ends_of_predS rfl h (congrArg word (trailingFrom_eq (Nat.zero_le k) (by omega)
      (fun j hj => (bit_toNat_eq_getLsbD _ j).trans (hzero j hj)) fun _ => (bit_toNat_eq_getLsbD _ k).trans hone))
  · exact ends_of_predS rfl h (congrArg word (trailingFrom_eq (k := 16) (by omega) (by omega)
      (fun j _ => by rw [bit_toNat_eq_getLsbD, hz]; exact BitVec.getLsbD_zero) (by omega)))

end Sys2Proof.Machine
end

section
/-!
PROOFS. The vector groups va, vi, vc, vx and vr: each instruction is of a shared form, which works lane by lane.
-/
namespace Sys2Proof.Machine

/-! ## What an instruction of a vector form leaves -/

section Forms
variable {i : Instr} {s t : State} {rd : VReg} {sa sb : VSrc} {x : VWord} {r : VWord × FFlags}

theorem ends_of_fvec2 {f : Rm → Lane → Lane → Lane → Lane × FFlags} (hi : exec i s = run (fvec2 rd sa sb f) s)
    (h : Gives (openPorts none (vsrcNames sa ++ vsrcNames sb)) s () t)
    (hr : (gather fun j => f t.core.rm (t.va sa).floats[j] (t.vb sa sb).floats[j] (t.core.getV rd)[j]) = r) :
    flagEnd i s t r.2 fun u => u.withV rd (vsrcNames sa ++ vsrcNames sb) r.1 := by
  subst hr
  exact fvec2_ends hi h

theorem ends_of_fvec1 {f : Rm → Lane → Lane × FFlags} (hi : exec i s = run (fvec1 rd sa f) s)
    (h : Gives (openPorts none (vsrcNames sa)) s () t) (hr : (gather fun j => f t.core.rm (t.va sa).floats[j]) = r) :
    flagEnd i s t r.2 fun u => u.withV rd (vsrcNames sa) r.1 := by
  subst hr
  exact fvec1_ends hi h

theorem ends_of_convert {f : Rm → Nat → Opnd → VWord → VWord × FFlags} (hi : exec i s = run (convert rd sa sb f) s)
    (h : Gives (openPorts none (vsrcNames sa ++ vsrcNames sb)) s () t)
    (hr : f t.core.rm (t.vb sa sb).index.val (t.va sa) (t.core.getV rd) = r) :
    flagEnd i s t r.2 fun u => u.withV rd (vsrcNames sa ++ vsrcNames sb) r.1 := by
  subst hr
  exact convert_ends hi h

theorem ends_of_fcmp {rd : PReg} {f : Lane → Lane → Bool × FFlags} {fl : FFlags} {p : Fin 16 → Bool}
    (hi : exec i s = run (fcmp rd sa sb f) s) (h : Gives (openPorts none (vsrcNames sa ++ vsrcNames sb)) s () t)
    (hfl : unionFlags ((List.finRange 16).map fun j => (f (t.va sa).floats[j] (t.vb sa sb).floats[j]).2) = fl)
    (hp : ∀ j, (f ((t.va sa).floats[j]) ((t.vb sa sb).floats[j])).1 = p j) :
    flagEnd i s t fl fun u => u.withP rd (vsrcNames sa ++ vsrcNames sb) (predOf p) := by
  obtain rfl : _ = p := funext hp
  subst hfl
  exact fcmp_ends hi h

theorem ends_of_ivec2 {f : Lane → Lane → Lane} {x : Fin 16 → Lane} (hi : exec i s = run (ivec2 rd sa sb f) s)
    (h : Gives (openPorts none (vsrcNames sa ++ vsrcNames sb)) s () t)
    (hx : ∀ j, f ((t.va sa).ints[j]) ((t.vb sa sb).ints[j]) = x j) :
    Ends i s (t.withV rd (vsrcNames sa ++ vsrcNames sb) (Vector.ofFn x)) := by
  obtain rfl : _ = x := funext hx
  exact hi.trans (ivec2_done h)

theorem ends_of_icmp {rd : PReg} {f : Lane → Lane → Bool} {p : Fin 16 → Bool} (hi : exec i s = run (icmp rd sa sb f) s)
    (h : Gives (openPorts none (vsrcNames sa ++ vsrcNames sb)) s () t)
    (hp : ∀ j, f ((t.va sa).ints[j]) ((t.vb sa sb).ints[j]) = p j) :
    Ends i s (t.withP rd (vsrcNames sa ++ vsrcNames sb) (predOf p)) := by
  obtain rfl : _ = p := funext hp
  exact hi.trans (icmp_done h)

theorem ends_of_move {f : VWord → Opnd → VWord → PWord → VWord} (hi : exec i s = run (move rd sa sb f) s)
    (h : Gives (openPorts none (vsrcNames sa ++ vsrcNames sb)) s () t)
    (hx : f (t.va sa).ints (t.vb sa sb) (t.core.getV rd) (t.core.getP 0) = x) :
    Ends i s (t.withV rd (vsrcNames sa ++ vsrcNames sb) x) := by
  subst hx
  exact hi.trans (move_done h)

/-- A reduction that raises no flag retires with its value. -/
theorem ends_of_reduce {rd : SReg} {f : Rm → Opnd → Opnd → Word × FFlags} {r : Word × FFlags}
    (hi : exec i s = run (reduce rd sa sb f) s) (h : Gives (openPorts (some rd) (vsrcNames sa ++ vsrcNames sb)) s () t)
    (hr : f t.core.rm (t.va sa) (t.vb sa sb) = r) :
    flagEnd i s t r.2 fun u => u.withS rd (vsrcNames sa ++ vsrcNames sb) r.1 := by
  subst hr
  exact reduce_ends hi h

end Forms

/-- Settles O10: each instruction is of a floating-point form with one source or two. -/
theorem vectorFloat : Obligations.VectorFloat := by
  intro s t rd sa sb
  refine ⟨fun h => ⟨?_, ?_, ?_, ?_, ?_, ?_, ?_, ?_⟩, fun h => ⟨?_, ?_, ?_, ?_, ?_⟩⟩
  iterate 8 exact ends_of_fvec2 rfl h rfl
  all_goals exact ends_of_fvec1 rfl h rfl

/-- Settles O11: the integer form of two sources, with shifts and extrema as the facts about words give them. -/
theorem vectorInteger : Obligations.VectorInteger := by
  intro s t rd sa sb h
  refine ⟨?_, ?_, ?_, ?_, ?_, ?_, ?_, ends_of_ivec2 rfl h fun _ => shiftLeft_eq_ofNat ..,
    ends_of_ivec2 rfl h fun _ => ushiftRight_eq_ofNat .., ends_of_ivec2 rfl h fun _ => sshiftRight_eq_ofInt ..,
    ends_of_ivec2 rfl h fun _ => minS_eq .., ends_of_ivec2 rfl h fun _ => maxS_eq .., ends_of_ivec2 rfl h fun _ => minU_eq ..,
    ends_of_ivec2 rfl h fun _ => maxU_eq ..⟩
  all_goals exact ends_of_ivec2 rfl h fun _ => rfl

/-- Settles O12: the comparisons by their two forms. -/
theorem vectorCompare : Obligations.VectorCompare := by
  intro s t rd sa sb h
  refine ⟨?_, ?_, ?_, ?_, ?_, ?_, ?_, ?_⟩
  iterate 5 exact ends_of_fcmp rfl h rfl fun _ => rfl
  all_goals exact ends_of_icmp rfl h fun _ => rfl

/-! ## Data movement (R196) -/

section Lanes
variable (x : Lane) (v : VWord)

theorem splat_eq : splat x = Vector.ofFn fun _ => x := by
  ext j hj
  simp [splat]

theorem set_eq_ofFn (n : Fin 16) : v.set n.val x n.isLt = Vector.ofFn fun j => if j = n then x else v[j] := by
  ext j hj
  simp [Vector.getElem_set, Fin.ext_iff, eq_comm]

theorem splat_set_eq_ofFn : (splat 0).set 0 x = Vector.ofFn fun j => if j = 0 then x else 0 := by
  rw [splat_eq]
  exact (set_eq_ofFn x _ 0).trans (by simp)

end Lanes

/-- Settles O13: the movements by the lanes they write, the conversions by their one form. -/
theorem vectorMovesAndConversions : Obligations.VectorMovesAndConversions := by
  refine ⟨fun s t rd sa sb h => ?_, fun s t rd sa sb h => ?_⟩
  · exact ⟨ends_of_move rfl h (splat_eq _), ends_of_move rfl h (splat_set_eq_ofFn _), ends_of_move rfl h (set_eq_ofFn ..),
      ends_of_move rfl h rfl, ends_of_move rfl h rfl, ends_of_move rfl h rfl⟩
  · refine ⟨?_, ?_, ?_, ?_, ?_, ?_, ?_, ?_, ?_, ?_⟩
    all_goals exact ends_of_convert rfl h rfl

/-! ## Reductions (R198) -/

section Folds
variable (r : Word) (x : Lane)

/-- A lane has its value in 64 bits too. -/
theorem maxS_signExtend : maxS r (x.signExtend 64) = if r.toInt < x.toInt then x.signExtend 64 else r := by
  rw [maxS_eq, BitVec.toInt_signExtend_of_le (by decide)]

theorem minS_signExtend : minS r (x.signExtend 64) = if r.toInt < x.toInt then r else x.signExtend 64 := by
  rw [minS_eq, BitVec.toInt_signExtend_of_le (by decide)]

end Folds

/-- An integer reduction by what one step of it does with a lane. -/
theorem foldI_eq {f : Word → Word → Word} {g : Word → Lane → Word} (hfg : ∀ r x, f r (x.signExtend 64) = g r x) (r : Word)
    (a : VWord) : foldI f r a = (a.toList.foldl g r, 0) := by
  obtain rfl : (fun r x => f r (x.signExtend 64)) = g := funext fun r => funext (hfg r)
  rfl

/-- Settles O14: each instruction is a reduction, and its fold is the one that the statement names. -/
theorem reductions : Obligations.Reductions := by
  intro s t rd sa sb h
  exact ⟨ends_of_reduce rfl h rfl, ends_of_reduce rfl h rfl, ends_of_reduce rfl h rfl,
    ends_of_reduce rfl h (foldI_eq (fun _ _ => rfl) ..), ends_of_reduce rfl h (foldI_eq maxS_signExtend ..),
    ends_of_reduce rfl h (foldI_eq minS_signExtend ..), ends_of_reduce rfl h rfl, ends_of_reduce rfl h rfl⟩

end Sys2Proof.Machine
end

section
/-!
PROOFS. The mx instructions that enter a command: where the queue is full, one with checks waits from the state before them, and what
the checks have left is lost.
-/
namespace Sys2Proof.Machine

/-- Checks that pass with the queue full are undone: the core waits in the state before them. -/
theorem issued_full {α : Type} {m : M α} {a : α} {t u : State} (h : Gives m t a u) (hfull : 2 ≤ mxWaiting u.core.mx.queue) :
    issued m t = .error t.waits := by
  unfold issued
  rw [show m t = .ok (a, u) from h]
  exact if_pos hfull

theorem mxMmas_full {s n t u : State} {la : BitVec 4} {ra : TReg} {rb rc : SReg} {p : MxOp × List (Nat × Place)}
    (hname : Gives (nameTile ra) s () n) (hports : Gives (openPorts none [rb, rc]) n () t)
    (hchecks : Gives (mmasChecks ra (t.r1 rb) (t.r2 rb rc)) t p u) (hfull : 2 ≤ mxWaiting u.core.mx.queue) :
    Ends (.mxMmas la ra rb rc) s t.waits := by
  refine run_error ?_
  rw [bind_ok hname, bind_ok hports, bind_ok (core_at t)]
  exact bind_error (issued_full hchecks hfull)

/-- A machine of one core, which runs an ordered activation with two commands in its matrix queue; s1 is the base of its local
store, where a sparse record without elements lies. -/
def queueFull : State :=
  { cores := [(0, { s := (Vector.replicate 64 0).set 1 0x000E000000000000, phase := .running, ctx := some 0, trig := { ord := true },
                    mx := { queue := [{ id := 0, op := .zero 0 }, { id := 1, op := .zero 1 }], next := 2 } })] }

/-- A part passes and leaves a state that passes a test. -/
def leaves {α : Type} (m : M α) (s : State) (test : State → Bool) : Bool :=
  match m s with
  | .ok (_, u) => test u
  | .error _ => false

theorem gives_of_leaves {α : Type} {m : M α} {s : State} {test : State → Bool} (h : leaves m s test = true) :
    ∃ a u, Gives m s a u ∧ test u = true := by
  unfold leaves at h
  split at h
  case h_1 a u hm => exact ⟨a, u, hm, h⟩
  case h_2 => contradiction

/-- The record's lines are in the read signature, no item is held, and the queue is full. -/
def readAndFull (u : State) : Bool := decide (u.core.rsig ≠ [] ∧ u.core.cbuf = [] ∧ 2 ≤ mxWaiting u.core.mx.queue)

/-- The checks of mx.mmas read the record, and its lines enter the read signature of the activation (R301). -/
theorem mmasChecks_queueFull : leaves (mmasChecks 0 (queueFull.r1 1) (queueFull.r2 1 1)) queueFull readAndFull = true := by
  decide +kernel

theorem heldAtomic_nil (lines : List (Nat × Place)) : lines.any (fun l => heldAtomic [] l.2) = false := by
  simp [heldAtomic]

theorem waits_rsig (s : State) : s.waits.core.rsig = s.core.rsig := by simp [State.waits]

/-- Refutes O38: with the queue full, an instruction that enters a command waits in the state before its checks, and the statement has
it wait in the state behind them. In queueFull, mx.mmas s1, s1 reads its record at issue, which the read signature of the ordered
activation shows behind the checks; but the queue is full, and the core waits with an empty read signature. -/
theorem not_matrixCommands : ¬ Obligations.MatrixCommands := by
  intro h
  obtain ⟨⟨op, lines⟩, u, hchecks, htest⟩ := gives_of_leaves mmasChecks_queueFull
  obtain ⟨hread, hbuf, hfull⟩ := of_decide_eq_true htest
  have hname : Gives (nameTile 0) queueFull () queueFull := rfl
  have hports : Gives (openPorts none [1, 1]) queueFull () queueFull := openPorts_none queueFull rfl
  have hnone : lines.any (fun l => heldAtomic u.core.cbuf l.2) = false := hbuf ▸ heldAtomic_nil lines
  obtain ⟨hcommands, -⟩ := h queueFull queueFull queueFull u 0 0 1 1 1 (operandOf {} 0 false) (operandOf {} 0 true) none op lines hname
  obtain ⟨-, hmmas, -⟩ := hcommands hports
  have hstated : Ends (.mxMmas 0 0 1 1) queueFull u.waits := (hmmas hchecks u (by rw [hnone]; rfl)).2 hfull
  have hmodel : Ends (.mxMmas 0 0 1 1) queueFull queueFull.waits := mxMmas_full hname hports hchecks hfull
  have hsame : u.waits = queueFull.waits := Host.Outcome.next.inj (hstated.symm.trans hmodel)
  have hsig : u.core.rsig = queueFull.core.rsig := by rw [← waits_rsig, hsame, waits_rsig]
  exact hread hsig

end Sys2Proof.Machine
end

section
/-!
PROOFS. The mx instructions that store a tile: behind the earlier commands of their core and with a clean tile, every check and every
part of the store passes in turn.
-/
namespace Sys2Proof.Machine

/-! ## What goes before a tile is read (R203, R223) -/

/-- A meaning that comes to another one in another state ends as that one does there. -/
theorem run_congr {m k : M Unit} {s t : State} (h : m s = k t) : run m s = run k t := by simp only [run, h]

section Order
variable {s : State} {f : State → Bool} {t : TReg}

theorem waitWhile_passes (h : f s = false) : waitWhile f s = .ok ((), s) := by
  simp [waitWhile, bind_at, h]

theorem waitWhile_waits (h : f s = true) : waitWhile f s = .error s.waits := by
  simp [waitWhile, bind_at, h, State.waits]

theorem mxDrained_passes (h : s.core.mx.queue = []) : mxDrained s = .ok ((), s) :=
  waitWhile_passes (bne_eq_false_iff_eq.mpr h)

theorem mxDrained_waits (h : s.core.mx.queue ≠ []) : mxDrained s = .error s.waits :=
  waitWhile_waits (bne_iff_ne.mpr h)

theorem deliverMark_clean (h : (s.core.mx.tile t).mark = .clean) : deliverMark t s = .ok ((), s) := by
  simp [deliverMark, bind_at, h]

end Order

/-! ## mx.stacc (R219) -/

section Stores
variable {s n t : State} {ra : TReg} {rb rc : SReg} (hname : Gives (nameTile ra) s () n)
  (hports : Gives (openPorts none [rb, rc]) n () t)
include hname hports

/-- A tile whose destination has passed its checks is stored whole, and the flags of its conversions are set. -/
theorem mxStacc_ends {u v : State} {size : Nat} {f : Option Fmt} {xs : List (Nat × Place × List Byte)}
    (hlow : (t.r2 rb rc).toNat < 64) (hfmt : staccFmt (t.r2 rb rc).toNat = some (size, f)) :
    let va := addrOf (t.r1 rb)
    let outs := (tileElems (t.core.mx.tile ra).t).map (staccElem size f)
    va % 64 = 0 → Gives (destParts va 64 (outs.flatMap Prod.fst) (partsOf va (1024 * size))) t xs u →
    u.core.mx.queue = [] → (u.core.mx.tile ra).mark = .clean → Gives (storeParts xs) u () v →
    Ends (.mxStacc ra rb rc) s ((v.flagged (unionFlags (outs.map Prod.snd))).done [rb, rc]) := by
  intro va outs halign hdest hqueue hmark hstore
  unfold State.r2 at hlow hfmt
  refine run_ok ?_
  rw [bind_ok hname, bind_ok hports, bind_ok (core_at t)]
  dsimp only
  rw [if_pos hlow, hfmt]
  refine (bind_ok (trapIf_passes (bne_eq_false_iff_eq.mpr halign) ..)).trans ?_
  refine (bind_ok hdest).trans ?_
  rw [bind_ok (mxDrained_passes hqueue), bind_ok (deliverMark_clean hmark), bind_ok hstore, bind_ok (modCore_at _)]
  exact finish_at ..

/-! ## mx.stsp (R220) -/

/-- The elements of a tile that mx.stsp stores from element e0 on, as far as its capacity goes. -/
structure Packed where
  /-- The numbers of the nonzero elements stored, in row-major order. -/
  stored : List Nat
  /-- The first nonzero element without room; 1,024 where there is none. -/
  stop : Nat
  /-- The bytes of the bitmap from the one of e0 to the one of stop. -/
  bitmap : List Byte

def packFrom (elems : List Lane) (e0 cap : Nat) : Packed :=
  let nz := (List.range 1024).filter fun e => decide (e0 ≤ e) && (elems.getD e 0).setWidth 31 != 0
  let stop := (nz[cap]?).getD 1024
  { stored := nz.take cap, stop := stop, bitmap := bitmapBytes elems (e0 / 8) (min (stop / 8) 127) stop }

/-- The values stored. -/
def Packed.values (p : Packed) (elems : List Lane) : List Byte := p.stored.flatMap fun e => toBytes 4 (elems.getD e 0).toNat

/-- The end of mx.stsp behind its stores: a full destination traps with its address, and vprog names the element without room. -/
def stspEnd (stop full : Nat) (srcs : List SReg) : M Unit :=
  if stop < 1024 then do
    modCore fun c => { c with vprog := BitVec.ofNat 11 stop }
    trap 0x0C (word full)
  else do
    modCore fun c => { c with vprog := 0 }
    finish srcs

/-- Behind its checks and its stores, of the values and then of the bitmap, mx.stsp comes to its end. -/
theorem mxStsp_stores {t1 t2 u v : State} {xs ys zs : List (Nat × Place × List Byte)} :
    let elems := tileElems (t.core.mx.tile ra).t
    let bm := addrOf (t.r1 rb)
    let va := addrOf (t.r2 rb rc)
    let bits := bm + t.core.vprog.toNat / 8
    let p := packFrom elems t.core.vprog.toNat (min (fld (t.r2 rb rc) 63 52) 1024)
    bm % 64 = 0 → va % 4 = 0 → Gives (destParts bm 64 [] (partsOf bm 128)) t zs t1 →
    t1.core.mx.queue = [] → (t1.core.mx.tile ra).mark = .clean →
    Gives (destParts va 4 (p.values elems) (partsOf va (4 * p.stored.length))) t1 xs t2 →
    Gives (destParts bits 1 p.bitmap (partsOf bits p.bitmap.length)) t2 ys u → Gives (storeParts (xs ++ ys)) u () v →
    exec (.mxStsp ra rb rc) s = run (stspEnd p.stop (va + 4 * p.stored.length) [rb, rc]) v := by
  simp only [State.r1, State.r2, packFrom, Packed.values]
  intro hbmAlign hvaAlign hbitmap hqueue hmark hvalues hbits hstore
  refine run_congr ?_
  rw [bind_ok hname, bind_ok hports, bind_ok (core_at t)]
  dsimp only
  rw [bind_ok (trapIf_passes (bne_eq_false_iff_eq.mpr hbmAlign) ..), bind_ok (trapIf_passes (bne_eq_false_iff_eq.mpr hvaAlign) ..),
    bind_ok hbitmap, bind_ok (mxDrained_passes hqueue), bind_ok (deliverMark_clean hmark), bind_ok hvalues, bind_ok hbits,
    bind_ok hstore]
  rfl

end Stores

/-- Every element has found room. -/
theorem stspEnd_whole {stop : Nat} (hstop : stop = 1024) (full : Nat) (srcs : List SReg) (v : State) :
    run (stspEnd stop full srcs) v = .next ((v.setCore { v.core with vprog := 0 }).done srcs) := by
  subst hstop
  exact run_ok ((bind_ok (modCore_at _)).trans (finish_at ..))

/-- The destination is full. -/
theorem stspEnd_full {stop : Nat} (hstop : stop < 1024) (full : Nat) (srcs : List SReg) (v : State) :
    let w := v.setCore { v.core with vprog := BitVec.ofNat 11 stop }
    run (stspEnd stop full srcs) v = .next (w.takeTrap w.cur 0x0C w.core.pc (word full)) := by
  refine run_error ?_
  rw [stspEnd, if_pos hstop, bind_ok (modCore_at _)]
  rfl

/-! ## mx.drain (R223), and the obligation -/

theorem mxDrain_retires {s : State} (h : s.core.mx.queue = []) : Ends .mxDrain s (s.done []) := by
  refine run_ok ((bind_ok (mxDrained_passes h)).trans ?_)
  simp [State.done, Core.dequeue]

theorem mxDrain_waits {s : State} (h : s.core.mx.queue ≠ []) : Ends .mxDrain s s.waits :=
  run_error (bind_error (mxDrained_waits h))

/-- Settles O39: behind its checks and the earlier commands, each instruction performs its stores and comes to its end. -/
theorem matrixStores : Obligations.MatrixStores := by
  intro s n t t1 t2 u v ra rb rc size f xs ys zs hname hports
  refine ⟨fun hlow hfmt halign hdest ⟨hqueue, hmark⟩ hstore => ?stacc,
    fun hbmAlign hvaAlign hbitmap ⟨hqueue, hmark⟩ hvalues hbits hstore => ?stsp, mxDrain_retires, mxDrain_waits⟩
  case stacc => exact mxStacc_ends hname hports hlow hfmt halign hdest hqueue hmark hstore
  case stsp =>
    have hend := mxStsp_stores hname hports hbmAlign hvaAlign hbitmap hqueue hmark hvalues hbits hstore
    dsimp only [packFrom] at hend
    exact ⟨fun hwhole => hend.trans (stspEnd_whole hwhole ..), fun hfull => hend.trans (stspEnd_full hfull ..)⟩

end Sys2Proof.Machine
end

section
/-!
PROOFS. Gaussian messages: what an element-wise function of two blocks leaves in each entry, and the gm operations on blocks behind
the check of their dimension.
-/
namespace Sys2Proof.Machine

/-! ## The values of a computation that gathers flags (R229) -/

section Values
variable {α β : Type}

/-- Where the value of each step does not depend on the flags gathered so far, the value of a fold is the fold of the values. -/
theorem foldlM_value {step : β → α → Ar β} {next : β → α → β} (hstep : ∀ b a fl, (step b a fl).1 = next b a) (xs : List α) (b : β)
    (fl : FFlags) : (xs.foldlM step b fl).1 = xs.foldl next b := by
  induction xs generalizing b fl with
  | nil => rfl
  | cons a rest ih =>
    calc ((a :: rest).foldlM step b fl).1
        = (rest.foldlM step (step b a fl).1 (step b a fl).2).1 := by rw [List.foldlM_cons]; rfl
      _ = rest.foldl next (next b a) := by rw [ih, hstep]

/-- Entries set one after another: those listed hold what was set, and the others stay. -/
theorem getD_foldl_set [DecidableEq α] (pos : α → Nat) (v : α → β) (xs : List α) (l : List β) (d : β) {x : α} (hx : pos x < l.length)
    (hinj : ∀ y ∈ xs, pos y = pos x → y = x) :
    (xs.foldl (fun l y => l.set (pos y) (v y)) l).getD (pos x) d = if x ∈ xs then v x else l.getD (pos x) d := by
  induction xs generalizing l with
  | nil => simp
  | cons y rest ih =>
    rw [List.foldl_cons, ih _ (by simpa using hx) fun z hz => hinj z (List.mem_cons_of_mem y hz)]
    by_cases hyx : y = x
    · subst hyx
      simp [List.getD_eq_getElem?_getD, hx]
    · have hpos : pos y ≠ pos x := fun h => hyx (hinj y List.mem_cons_self h)
      simp [List.getD_eq_getElem?_getD, List.getElem?_set_ne hpos, Ne.symm hyx]

end Values

/-! ## Element-wise functions (R229, R233) -/

section Entries
variable (g : Gauss) {d i j : Nat}

theorem foldl_setH (v : Nat → Lane) (xs : List Nat) :
    xs.foldl (fun g i => g.setH i (v i)) g = { g with eta := xs.foldl (fun l i => l.set i (v i)) g.eta } := by
  induction xs generalizing g with
  | nil => rfl
  | cons i rest ih => rw [List.foldl_cons, ih]; rfl

theorem foldl_setAt (v : Nat × Nat → Lane) (xs : List (Nat × Nat)) :
    xs.foldl (fun g e => g.setAt e.1 e.2 (v e)) g =
      { g with lam := xs.foldl (fun l e => l.set (8 * e.1 + e.2) (v e)) g.lam } := by
  induction xs generalizing g with
  | nil => rfl
  | cons e rest ih => rw [List.foldl_cons, ih]; rfl

theorem mem_upper : (i, j) ∈ upper d ↔ i ≤ j ∧ j < d := by
  simp only [upper, List.mem_flatMap, List.mem_map, List.mem_filter, List.mem_range, decide_eq_true_eq, Prod.mk.injEq]
  constructor
  · rintro ⟨_, -, _, ⟨hj, hij⟩, rfl, rfl⟩
    exact ⟨hij, hj⟩
  · rintro ⟨hij, hj⟩
    exact ⟨i, by omega, j, ⟨hj, hij⟩, rfl, rfl⟩

theorem mirrored_h (i : Nat) : g.mirrored.h i = g.h i := rfl

/-- A mirrored block reads below its diagonal what stands above it (R229). -/
theorem mirrored_at (hi : i < 8) (hj : j < 8) : g.mirrored.at i j = g.sym i j := by
  have hk : 8 * i + j < 64 := by omega
  have hrow : (8 * i + j) / 8 = i := by omega
  have hcol : (8 * i + j) % 8 = j := by omega
  simp [Gauss.mirrored, Gauss.at, List.getD_eq_getElem?_getD, hk, hrow, hcol]

/-- The block whose vector entries within a dimension are vh, whose matrix entries on and above the diagonal are vl, and in which
every other entry is +0. -/
def upperBlock (d : Nat) (vh : Nat → Lane) (vl : Nat × Nat → Lane) : Gauss :=
  ⟨(List.range d).foldl (fun l i => l.set i (vh i)) (List.replicate 8 0),
    (upper d).foldl (fun l e => l.set (8 * e.1 + e.2) (vl e)) (List.replicate 64 0)⟩

variable (vh : Nat → Lane) (vl : Nat × Nat → Lane)

theorem upperBlock_h (hi : i < 8) : (upperBlock d vh vl).h i = if i < d then vh i else 0 := by
  have hset := getD_foldl_set id vh (List.range d) (List.replicate 8 0) 0 (by simpa using hi) fun _ _ h => h
  simp only [id, List.mem_range, List.getD_replicate _ hi] at hset
  exact hset

theorem upperBlock_at (hd : d ≤ 8) (hi : i < 8) (hj : j < 8) :
    (upperBlock d vh vl).at i j = if i ≤ j ∧ j < d then vl (i, j) else 0 := by
  have hinj : ∀ e ∈ upper d, 8 * e.1 + e.2 = 8 * i + j → e = (i, j) := by
    rintro ⟨a, b⟩ hab hpos
    obtain ⟨-, hb⟩ := mem_upper.1 hab
    simp only [Prod.mk.injEq]
    omega
  have hk : 8 * i + j < 64 := by omega
  have hset := getD_foldl_set (fun e => 8 * e.1 + e.2) vl (upper d) (List.replicate 64 0) 0 (x := (i, j)) (by simpa using hk) hinj
  simp only [mem_upper, List.getD_replicate _ hk] at hset
  exact hset

/-- The matrix of such a block, read by the mirror, is inside the dimension where both indices are. -/
theorem upperBlock_sym (hd : d ≤ 8) (hi : i < 8) (hj : j < 8) :
    (upperBlock d vh vl).sym i j = if i < d ∧ j < d then vl (min i j, max i j) else 0 := by
  have hinside : min i j ≤ max i j ∧ max i j < d ↔ i < d ∧ j < d := by omega
  rw [Gauss.sym, upperBlock_at vh vl hd (by omega) (by omega)]
  exact if_congr hinside rfl rfl

end Entries

section Pairs
variable {d i j : Nat} {a b : Gauss}

/-- The values of an element-wise function are those of its entries, mirrored. -/
theorem eachEntry_value {fh : Nat → Ar Lane} {fl : Nat → Nat → Ar Lane} {vh : Nat → Lane} {vl : Nat × Nat → Lane}
    (hh : ∀ i flags, (fh i flags).1 = vh i) (hl : ∀ e flags, (fl e.1 e.2 flags).1 = vl e) (flags : FFlags) :
    (eachEntry d fh fl flags).1 = (upperBlock d vh vl).mirrored := by
  refine congrArg Gauss.mirrored ((foldlM_value (next := fun g e => g.setAt e.1 e.2 (vl e)) ?matrix _ _ _).trans ?vector)
  case matrix => exact fun g e flags => congrArg (g.setAt e.1 e.2) (hl e flags)
  case vector =>
    rw [foldlM_value (next := fun g i => g.setH i (vh i)) fun g i flags => congrArg (g.setH i) (hh i flags), foldl_setH,
      foldl_setAt]
    rfl

/-- The entries of two blocks combined: within the dimension the combined entries, mirrored below the diagonal, and +0 outside
(R229, R233). -/
theorem eachPair_entries {f : Lane → Lane → Ar Lane} {op : Lane → Lane → Lane × FFlags}
    (hf : ∀ x y flags, (f x y flags).1 = (op x y).1) (hd : d ≤ 8) (hi : i < 8) (hj : j < 8) :
    (eachPair d a b f 0).1.h i = (if i < d then (op (a.h i) (b.h i)).1 else 0) ∧
    (eachPair d a b f 0).1.at i j =
      (if i < d ∧ j < d then (op (a.at (min i j) (max i j)) (b.at (min i j) (max i j))).1 else 0) := by
  have hvalue : (eachPair d a b f 0).1 = (upperBlock d (fun i => (op (a.h i) (b.h i)).1)
      fun e => (op (a.at e.1 e.2) (b.at e.1 e.2)).1).mirrored :=
    eachEntry_value (fun i => hf (a.h i) (b.h i)) (fun e => hf (a.at e.1 e.2) (b.at e.1 e.2)) 0
  rw [hvalue, mirrored_h, mirrored_at _ hi hj, upperBlock_h _ _ hi, upperBlock_sym _ _ hd hi hj]
  exact ⟨rfl, rfl⟩

end Pairs

/-! ## The dimension (R228) -/

section Dimension
variable {i : Instr} {s t : State}

theorem blockDim_legal (h : 1 ≤ s.core.gdim.toNat ∧ s.core.gdim.toNat ≤ 8) : blockDim s = .ok (s.core.gdim.toNat, s) := by
  rw [blockDim, bind_ok (core_at s)]
  exact congrFun (if_neg (by omega)) s

theorem blockDim_illegal (h : ¬(1 ≤ s.core.gdim.toNat ∧ s.core.gdim.toNat ≤ 8)) :
    blockDim s = .error (s.takeTrap s.cur 0x01 s.core.pc (irWord s)) := by
  rw [blockDim, bind_ok (core_at s)]
  exact congrFun (if_pos (by omega)) s

/-- An instruction that begins with its dimension is illegal where that is not 1 to 8. -/
theorem dimension_illegal {k : Nat → M Unit} (hi : exec i s = run (blockDim >>= k) s)
    (h : ¬(1 ≤ s.core.gdim.toNat ∧ s.core.gdim.toNat ≤ 8)) : Ends i s (s.takeTrap s.cur 0x01 s.core.pc (irWord s)) :=
  hi.trans (run_error (bind_error (blockDim_illegal h)))

end Dimension

/-! ## Block results (R229) -/

/-- The form of gm.damp, gm.marg and gm.lin: a block and a scalar operand that may be a port. -/
def blockOfCore (rd : GReg) (srcs : List SReg) (f : Nat → Core → Gauss × FFlags) : M Unit := do
  let d ← blockDim
  openPorts none srcs
  let c ← core
  finishBlock rd srcs (f d c)

section Blocks
variable {i : Instr} {s t : State} {rd sa sb : GReg} {srcs : List SReg}
  (hdim : 1 ≤ s.core.gdim.toNat ∧ s.core.gdim.toNat ≤ 8)

/-- A meaning that comes to the end of a block result ends with its flags and its block. -/
theorem finishBlock_ends {m : M Unit} {r : Gauss × FFlags} (hi : exec i s = run m s) (hm : m s = finishBlock rd srcs r t) :
    flagEnd i s t r.2 fun u => u.withG rd srcs r.1.regs :=
  flagEnd_of hi hm fun _ => rfl

include hdim

theorem gauss2_ends {f : Rm → Lane → Lane → Ar Lane} (hi : exec i s = run (gauss2 rd sa sb f) s) :
    let r := eachPair s.core.gdim.toNat (readBlock (s.core.getG sa)) (readBlock (s.core.getG sb)) (f s.core.rm) 0
    flagEnd i s s r.2 fun u => u.withG rd [] r.1.regs :=
  finishBlock_ends hi (by rw [gauss2, bind_ok (blockDim_legal hdim), bind_ok (core_at s)])

theorem gauss1_ends {f : Rm → Nat → Gauss → Ar Gauss} (hi : exec i s = run (gauss1 rd sa f) s) :
    let r := f s.core.rm s.core.gdim.toNat (readBlock (s.core.getG sa)) 0
    flagEnd i s s r.2 fun u => u.withG rd [] r.1.regs :=
  finishBlock_ends hi (by rw [gauss1, bind_ok (blockDim_legal hdim), bind_ok (core_at s)])

theorem blockOfCore_ends {f : Nat → Core → Gauss × FFlags} (hi : exec i s = run (blockOfCore rd srcs f) s)
    (hports : Gives (openPorts none srcs) s () t) :
    flagEnd i s t (f s.core.gdim.toNat t.core).2 fun u => u.withG rd srcs (f s.core.gdim.toNat t.core).1.regs :=
  finishBlock_ends hi (by rw [blockOfCore, bind_ok (blockDim_legal hdim), bind_ok hports, bind_ok (core_at t)])

theorem gmDamp_ends {x : Src} (hports : Gives (openPorts none (srcNames x)) s () t) :
    let r := dampBlock t.core.rm s.core.gdim.toNat (t.core.srcF32 x) (readBlock (t.core.getG sa)) (readBlock (t.core.getG rd)) 0
    flagEnd (.gmDamp rd sa x) s t r.2 fun u => u.withG rd (srcNames x) r.1.regs :=
  blockOfCore_ends hdim (f := fun d c => dampBlock c.rm d (c.srcF32 x) (readBlock (c.getG sa)) (readBlock (c.getG rd)) 0) rfl hports

theorem gmMarg_ends {x : Src} (hports : Gives (openPorts none (srcNames x)) s () t) :
    let r := margBlock t.core.rm s.core.gdim.toNat (fld (t.a x) 7 0) (readBlock (t.core.getG sa)) 0
    flagEnd (.gmMarg rd sa x) s t r.2 fun u => u.withG rd (srcNames x) r.1.regs :=
  blockOfCore_ends hdim (f := fun d c => margBlock c.rm d (fld (c.takeSrc x).1 7 0) (readBlock (c.getG sa)) 0) rfl hports

theorem gmLin_ends {x : Src} (hports : Gives (openPorts none (srcNames x)) s () t) :
    let r := linBlock t.core.rm s.core.gdim.toNat (rowCount (t.a x)) (t.core.getG sa) 0
    flagEnd (.gmLin rd sa x) s t r.2 fun u => u.withG rd (srcNames x) r.1.regs :=
  blockOfCore_ends hdim (f := fun d c => linBlock c.rm d (rowCount (c.takeSrc x).1) (c.getG sa) 0) rfl hports

/-- gm.res gives the residual of the differences of two blocks, with its band above it (R236). -/
theorem gmRes_ends {n : SReg} (hports : Gives (openPorts (some n) []) s () t) :
    let d := s.core.gdim.toNat
    let r := eachPair d (readBlock (t.core.getG sa)) (readBlock (t.core.getG sb)) (arSub t.core.rm) 0
    let w := residual ((List.range d).map r.1.h ++ (upper d).map fun e => r.1.at e.1 e.2)
    flagEnd (.gmRes n sa sb) s t r.2 fun u => u.withS n [] (BitVec.ofNat 64 (bandOf w * 2 ^ 32 + w.toNat)) :=
  flagEnd_of rfl (by rw [bind_ok (blockDim_legal hdim), bind_ok hports, bind_ok (core_at t)]; rfl) fun _ => finishS_at ..

end Blocks

/-! ## The obligation -/

/-- Settles O36: behind the check of its dimension each instruction comes to the end of a block result, or to that of its residual;
the entries of a sum and of a difference are those of an element-wise function. -/
theorem gaussianBlocks : Obligations.GaussianBlocks := by
  refine ⟨fun s t rd sa sb x n => ⟨fun hdim => ?legal, fun hdim i hi => ?illegal⟩, fun d rm xs ys i j hd hi hj => ?entries⟩
  case legal =>
    exact ⟨gauss2_ends (f := arAdd) hdim rfl, gauss2_ends (f := arSub) hdim rfl, gauss1_ends (f := solBlock) hdim rfl,
      gauss1_ends (f := covBlock) hdim rfl, fun hports => ⟨gmDamp_ends hdim hports, gmMarg_ends hdim hports, gmLin_ends hdim hports⟩,
      gmRes_ends hdim⟩
  case illegal =>
    simp only [List.mem_cons, List.not_mem_nil, or_false] at hi
    obtain rfl | rfl | rfl | rfl | rfl | rfl | rfl | rfl := hi
    all_goals exact dimension_illegal rfl hdim
  case entries =>
    exact ⟨eachPair_entries (fun _ _ _ => rfl) hd hi hj, eachPair_entries (fun _ _ _ => rfl) hd hi hj⟩

end Sys2Proof.Machine
end

section
/-!
PROOFS. The fg group, gm.conv and gm.rdro: each passes its checks in turn, and comes to its edits, its post or its result.
-/
namespace Sys2Proof.Machine

/-! ## Checks -/

theorem trapIf_traps {c : Bool} (h : c = true) (code : Nat) (val : Word) (s : State) :
    trapIf c code val s = .error (s.takeTrap s.cur code s.core.pc val) := by
  subst h
  rfl

/-- An edge index of the object with zeros in the bits that must be 0 passes check 3 of R239. -/
theorem edgeIndex_passes {w0 hi lo : Nat} {reg : Word} (hzero : fld reg hi lo = 0) (hedge : fld reg 2 0 < edgesOf w0) (s : State) :
    edgeIndex w0 reg hi lo s = .ok (fld reg 2 0, s) :=
  congrFun (if_neg (by omega)) s

/-- A small number as an operand is its low four bits, with zeros above them. -/
theorem fld_ofNat_small {i : Nat} (hi : i < 16) : fld (BitVec.ofNat 64 i) 63 4 = 0 ∧ fld (BitVec.ofNat 64 i) 3 0 = i := by
  have hword : (BitVec.ofNat 64 i).toNat = i := Nat.mod_eq_of_lt (by omega)
  simp only [fld, bits, hword, Nat.shiftRight_eq_div_pow]
  omega

/-! ## fg.attach, fg.slot and fg.gen (R240) -/

/-- What fg.attach does with the lowest free edge of a checked object, or without one. -/
def attachLowest (la : BitVec 4) (ra : SReg) (srcs : List SReg) (va off w0 : Nat) (entry : Word) : M Unit :=
  match (List.range (edgesOf w0)).find? fun i => !bit w0 i with
  | none => finishL ra la srcs 0xFFFFFFFFFFFFFFFF
  | some i => do
    let r ← attachEdge va off w0 i entry
    finishL ra la srcs r

/-- The generation that fg.gen reads: of the object for 8, else of an edge. -/
def readGeneration (la : BitVec 4) (ra : SReg) (srcs : List SReg) (va off w0 i : Nat) : M Unit :=
  if i = 8 then finishL ra la srcs (BitVec.ofNat 64 (bits w0 63 32))
  else do
    let g ← ownBytes (va + 304 + 192 * i) (off + 304 + 192 * i) 2
    finishL ra la srcs (BitVec.ofNat 64 (ofBytes g))

section Object
variable {s t u : State} {la : BitVec 4} {ra rb rc : SReg} {off w0 : Nat}
  (hports : Gives (openPorts (some ra) [rb, rc]) s () t) (hobject : Gives (nodeObject (t.r1 rb)) t (off, w0) u)

theorem attachLowest_full {srcs : List SReg} {va : Nat} {entry : Word} (hfull : ∀ i < edgesOf w0, bit w0 i = true) :
    attachLowest la ra srcs va off w0 entry u = .ok ((), u.withL ra la srcs 0xFFFFFFFFFFFFFFFF) := by
  have hnone : (List.range (edgesOf w0)).find? (fun i => !bit w0 i) = none := by
    simpa [List.find?_eq_none] using hfull
  rw [attachLowest, hnone]
  exact finishL_at ..

theorem attachLowest_free {v : State} {srcs : List SReg} {va i : Nat} {entry w : Word} (hi : i < edgesOf w0) (hfree : bit w0 i = false)
    (hbelow : ∀ j < i, bit w0 j = true) (hedits : Gives (attachEdge va off w0 i entry) u w v) :
    attachLowest la ra srcs va off w0 entry u = .ok ((), v.withL ra la srcs w) := by
  have hsome : (List.range (edgesOf w0)).find? (fun i => !bit w0 i) = some i := by
    rw [List.find?_range_eq_some]
    simpa [hfree, hi] using hbelow
  rw [attachLowest, hsome]
  exact (bind_ok hedits).trans (finishL_at ..)

include hports hobject

/-- With zeros in the reserved bits of its entry, and a core of a group of the context in it, fg.attach comes to the edges. -/
theorem fgAttach_checked (hlow : fld (t.r2 rb rc) 24 16 = 0) (hhigh : fld (t.r2 rb rc) 39 34 = 0)
    (hgroup : inAnyGroup t t.ctxNo (fld (t.r2 rb rc) 63 52) = true) :
    exec (.fgAttach la ra rb rc) s = run (attachLowest la ra [rb, rc] (addrOf (t.r1 rb)) off w0 (t.r2 rb rc)) u := by
  have hentry : (fld (t.r2 rb rc) 24 16 != 0 || fld (t.r2 rb rc) 39 34 != 0 ||
      !inAnyGroup t t.ctxNo (fld (t.r2 rb rc) 63 52)) = false := by
    rw [hlow, hhigh, hgroup]
    rfl
  refine run_congr ?_
  rw [bind_ok hports, bind_ok (get_at t)]
  refine (bind_ok hobject).trans ?_
  exact bind_ok (trapIf_passes hentry ..)

theorem fgSlot_ends (hzero : fld (t.r2 rb rc) 63 3 = 0) (hedge : fld (t.r2 rb rc) 2 0 < edgesOf w0) :
    Ends (.fgSlot la ra rb rc) s
      (u.withL ra la [rb, rc] (t.r1 rb + BitVec.ofNat 64 (128 + 192 * fld (t.r2 rb rc) 2 0))) := by
  refine run_ok ?_
  rw [bind_ok hports, bind_ok (core_at t)]
  refine (bind_ok hobject).trans ?_
  refine (bind_ok (edgeIndex_passes hzero hedge u)).trans ?_
  exact finishL_at ..

theorem fgGen_checked {i : Nat} (hentry : t.r2 rb rc = BitVec.ofNat 64 i) (hi : i ≤ 8) (hedge : i < 8 → i < edgesOf w0) :
    exec (.fgGen la ra rb rc) s = run (readGeneration la ra [rb, rc] (addrOf (t.r1 rb)) off w0 i) u := by
  obtain ⟨hzero, hindex⟩ := fld_ofNat_small (i := i) (by omega)
  rw [← hentry] at hzero hindex
  have hgood : ¬(fld (t.r2 rb rc) 63 4 ≠ 0 ∨ 8 < fld (t.r2 rb rc) 3 0 ∨
      fld (t.r2 rb rc) 3 0 < 8 ∧ edgesOf w0 ≤ fld (t.r2 rb rc) 3 0) := by omega
  refine run_congr ?_
  rw [bind_ok hports, bind_ok (core_at t)]
  refine (bind_ok hobject).trans ?_
  rw [← hindex]
  exact congrFun (if_neg hgood) u

theorem fgGen_object (hentry : t.r2 rb rc = 8) :
    Ends (.fgGen la ra rb rc) s (u.withL ra la [rb, rc] (BitVec.ofNat 64 (bits w0 63 32))) :=
  (fgGen_checked hports hobject hentry le_rfl fun h => absurd h (lt_irrefl 8)).trans (run_ok (finishL_at ..))

theorem fgGen_edge {v : State} {i : Nat} {bs : List Byte} (hi : i < 8) (hentry : t.r2 rb rc = BitVec.ofNat 64 i)
    (hedge : i < edgesOf w0)
    (hbytes : Gives (ownBytes (addrOf (t.r1 rb) + 304 + 192 * i) (off + 304 + 192 * i) 2) u bs v) :
    Ends (.fgGen la ra rb rc) s (v.withL ra la [rb, rc] (BitVec.ofNat 64 (ofBytes bs))) := by
  refine (fgGen_checked hports hobject hentry hi.le fun _ => hedge).trans (run_ok ?_)
  rw [readGeneration, if_neg hi.ne]
  exact (bind_ok hbytes).trans (finishL_at ..)

end Object

/-! ## fg.detach (R240) -/

/-- What fg.detach does with a checked edge: a live one is detached. -/
def detachIfLive (va off w0 i : Nat) (srcs : List SReg) : M Unit := do
  if bit w0 i then detachEdge va off w0 i
  finish srcs

section Detach
variable {s t u : State} {ra rb : SReg} {off w0 : Nat}
  (hports : Gives (openPorts none [ra, rb]) s () t) (hobject : Gives (nodeObject (t.r2 ra rb)) t (off, w0) u)
  (hzero : fld (t.r1 ra) 63 3 = 0) (hedge : fld (t.r1 ra) 2 0 < edgesOf w0)
include hports hobject hzero hedge

theorem fgDetach_checked :
    exec (.fgDetach ra rb) s = run (detachIfLive (addrOf (t.r2 ra rb)) off w0 (fld (t.r1 ra) 2 0) [ra, rb]) u := by
  refine run_congr ?_
  rw [bind_ok hports, bind_ok (core_at t)]
  refine (bind_ok hobject).trans ?_
  exact bind_ok (edgeIndex_passes hzero hedge u)

theorem fgDetach_free (hfree : bit w0 (fld (t.r1 ra) 2 0) = false) : Ends (.fgDetach ra rb) s (u.done [ra, rb]) := by
  refine (fgDetach_checked hports hobject hzero hedge).trans (run_ok ?_)
  rw [detachIfLive, hfree]
  exact finish_at ..

theorem fgDetach_live {v : State} (hlive : bit w0 (fld (t.r1 ra) 2 0) = true)
    (hedits : Gives (detachEdge (addrOf (t.r2 ra rb)) off w0 (fld (t.r1 ra) 2 0)) u () v) :
    Ends (.fgDetach ra rb) s (v.done [ra, rb]) := by
  refine (fgDetach_checked hports hobject hzero hedge).trans (run_ok ?_)
  rw [detachIfLive, if_pos hlive]
  exact (bind_ok hedits).trans (finish_at ..)

end Detach

/-! ## fg.post (R241) -/

section Post
variable {s t u v z : State} {g : GReg} {rb rc : SReg} {off w0 : Nat} {bs : List Byte}

/-- A live edge is read, and its post goes to the gate. -/
theorem fgPost_ends (hdim : 1 ≤ s.core.gdim.toNat ∧ s.core.gdim.toNat ≤ 8) (hports : Gives (openPorts none [rb, rc]) s () t)
    (hobject : Gives (nodeObject (t.r1 rb)) t (off, w0) u) (hzero : fld (t.r2 rb rc) 31 3 = 0)
    (hedge : fld (t.r2 rb rc) 2 0 < edgesOf w0) (hlive : bit w0 (fld (t.r2 rb rc) 2 0) = true)
    (hbytes : Gives (ownBytes (addrOf (t.r1 rb) + 64 + 8 * fld (t.r2 rb rc) 2 0) (off + 64 + 8 * fld (t.r2 rb rc) 2 0) 8) u bs v)
    (hgate : Gives (gate (.post (postOf v s.core.gdim.toNat (v.core.getG g) (BitVec.ofNat 32 (fld (t.r2 rb rc) 63 32))
      (ofBytes bs)))) v () z) : Ends (.fgPost g rb rc) s (z.done [rb, rc]) := by
  refine run_ok ?_
  rw [bind_ok (blockDim_legal hdim), bind_ok hports, bind_ok (core_at t)]
  refine (bind_ok hobject).trans ?_
  refine (bind_ok (edgeIndex_passes hzero hedge u)).trans ?_
  refine (bind_ok (trapIf_passes (congrArg not hlive) ..)).trans ?_
  refine (bind_ok hbytes).trans ?_
  rw [bind_ok (get_at v)]
  exact (bind_ok hgate).trans (finish_at ..)

end Post

/-! ## gm.conv and gm.rdro (R244, R246) -/

section RunOut
variable {s t : State} {rd : SReg} {sa sb : Src}

theorem gmConv_member {v : State} (hports : Gives (openPorts none (srcNames sa ++ srcNames sb)) s () t)
    (hmember : inGroup t t.ctxNo (fld (t.b sa sb) 7 0) t.cur = true)
    (hgate : Gives (gate (.conv (fld (t.b sa sb) 7 0) (t.core.srcF32 sa))) t () v) :
    Ends (.gmConv sa sb) s (v.done (srcNames sa ++ srcNames sb)) := by
  refine run_ok ?_
  rw [bind_ok hports, bind_ok (get_at t)]
  refine (bind_ok (trapIf_passes (congrArg not hmember) ..)).trans ?_
  exact (bind_ok hgate).trans (finish_at ..)

theorem gmConv_other (hports : Gives (openPorts none (srcNames sa ++ srcNames sb)) s () t)
    (hother : inGroup t t.ctxNo (fld (t.b sa sb) 7 0) t.cur = false) :
    Ends (.gmConv sa sb) s (t.takeTrap t.cur 0x05 t.core.pc (t.b sa sb)) := by
  refine run_error ?_
  rw [bind_ok hports, bind_ok (get_at t)]
  exact bind_error (trapIf_traps (congrArg not hother) ..)

theorem gmRdro_ends (hports : Gives (openPorts (some rd) (srcNames sa)) s () t) :
    Ends (.gmRdro rd sa) s (t.withS rd (srcNames sa) (rdroWord t t.ctxNo (fld (t.a sa) 7 0))) := by
  refine run_ok ?_
  rw [bind_ok hports, bind_ok (get_at t)]
  exact finishS_at ..

end RunOut

/-! ## The obligation -/

/-- Settles O37: behind the checks of the object and of the edge each fg instruction comes to its edits, its result or its post, and
behind the check of membership gm.conv to its report. -/
theorem factorGraph : Obligations.FactorGraph := by
  refine ⟨fun s t u v la ra rb rc g off w0 w bs => ⟨fun hports hobject => ⟨fun hlow hhigh hgroup => ?attach,
    fgSlot_ends hports hobject, fgGen_object hports hobject, fun i => fgGen_edge hports hobject⟩,
    fun hports hobject hzero hedge => ?detach, fun hmin hmax hports hobject hzero hedge hlive hbytes z hgate => ?post⟩,
    fun s t v rd sa sb => ⟨fun hports => ⟨gmConv_member hports, gmConv_other hports⟩, gmRdro_ends⟩⟩
  case attach =>
    have hchecked := fgAttach_checked hports hobject hlow hhigh hgroup (la := la)
    exact ⟨fun hfull => hchecked.trans (run_ok (attachLowest_full hfull)),
      fun i hi hfree hbelow hedits => hchecked.trans (run_ok (attachLowest_free hi hfree hbelow hedits))⟩
  case detach => exact ⟨fgDetach_free hports hobject hzero hedge, fgDetach_live hports hobject hzero hedge⟩
  case post => exact fgPost_ends ⟨hmin, hmax⟩ hports hobject hzero hedge hlive hbytes hgate

end Sys2Proof.Machine
end

section
/-!
PROOFS. Loads and stores: each passes its checks in turn, and comes to its result or to the gate; an address that is out of range or
misaligned traps.
-/
namespace Sys2Proof.Machine

/-! ## Numbers and addresses -/

/-- The signed value of the low bits of a number is that of a word of so many bits. -/
theorem signed_eq_toInt {w : Nat} (hw : 0 < w) (n : Nat) : signed w n = (BitVec.ofNat w n).toInt := by
  have hhalf : 2 ^ w = 2 * 2 ^ (w - 1) := by rw [← Nat.pow_succ', Nat.succ_eq_add_one, Nat.sub_add_cancel hw]
  rw [signed, BitVec.toInt_eq_toNat_cond, BitVec.toNat_ofNat]
  push_cast
  split <;> split
  · omega
  · rfl
  · rfl
  · omega

theorem sext64_eq {w : Nat} (hw : 0 < w) (n : Nat) : sext64 w n = (BitVec.ofNat w n).signExtend 64 := by
  rw [sext64, signed_eq_toInt hw]
  rfl

theorem addrOf_eq (w : Word) : addrOf w = w.toNat % 2 ^ 52 := fld_address w

theorem lAddr_eq (p : Word) (off : BitVec 6) (size : Nat) : (addrOf p : Int) + off.toInt * size = lAddr p off size := by
  rw [addrOf_eq, lAddr]

section Address
variable {p : Word} {off : BitVec 6} {size : Nat} {t : State}

theorem addrL_passes (h : inSpace (lAddr p off size)) : addrL p off size t = .ok ((lAddr p off size).toNat, t) := by
  obtain ⟨hlow, hhigh⟩ := h
  rw [addrL, lAddr_eq]
  exact congrFun (if_neg (by omega)) t

theorem addrL_traps (h : ¬inSpace (lAddr p off size)) : addrL p off size t = .error (t.takeTrap t.cur 0x07 t.core.pc p) := by
  rw [addrL, lAddr_eq]
  exact congrFun (if_pos (by unfold inSpace at h; omega)) t

theorem resolve_misaligned {va : Nat} {acc : Acc} (hret : t.core.ret = none) (hidle : t.core.outst = []) (hkind : t.core.trig.kind ≠ 1)
    (h : va % size ≠ 0) : resolve va size acc t = .error (t.takeTrap t.cur 0x03 t.core.pc (BitVec.ofNat 64 va)) := by
  rw [resolve, resolveFor, bind_ok (get_at t)]
  simp [hret, hidle, hkind, h, word]

end Address

/-- An instruction that comes to the raising of flags in another state ends as flagEnd says. -/
theorem flagEnd_of_run {i : Instr} {s t : State} {fl : FFlags} {done : State → State} {rest : M Unit}
    (h : exec i s = run (raise fl >>= fun _ => rest) t) (hr : ∀ u, rest u = .ok ((), done u)) : flagEnd i s t fl done := by
  refine ⟨fun hquiet => h.trans (run_ok ?_), fun hraised => h.trans (run_error (bind_error (raise_enabled hraised)))⟩
  rw [bind_ok (raise_quiet hquiet), hr]

/-! ## Loads (R252, R253) -/

section Loads
variable {i : Instr} {s t : State} {la : BitVec 4} {rv rb : SReg} {v : VReg} {off : BitVec 6} {size : Nat}

/-- A load is its access, and then its result. -/
theorem loadS_eq (ext : Nat → Word) : loadS la rv rb off size ext =
    loadAccess (some rv) rb off size >>= fun bs => finishL rv la [rb] (ext (ofBytes bs)) := by
  simp only [loadS, loadAccess, bind_assoc]

theorem ends_of_loadS {ext : Nat → Word} {bs : List Byte} {w : Word} (hi : exec i s = run (loadS la rv rb off size ext) s)
    (h : Gives (loadAccess (some rv) rb off size) s bs t) (hw : ext (ofBytes bs) = w) : Ends i s (t.withL rv la [rb] w) := by
  rw [Ends, hi, loadS_eq, run_ok]
  rw [bind_ok h, hw]
  exact finishL_at ..

theorem ldV_ends {bs : List Byte} (h : Gives (loadAccess none rb off 64) s bs t) :
    Ends (.ldV la v rb off) s (t.withR (.v v (vecOfBytes bs)) la [rb]) := by
  have hload : exec (.ldV la v rb off) s =
      run (loadAccess none rb off 64 >>= fun bs => finishR (.v v (vecOfBytes bs)) la [rb]) s := by
    simp only [loadAccess, bind_assoc]
    rfl
  rw [Ends, hload, run_ok]
  rw [bind_ok h]
  exact finishR_at ..

/-- The end of ld.vt: a block from a slot, or lanes converted with the flags that they raise. -/
def typedLoadEnd (rm : Rm) (p : Word) (la : BitVec 4) (v : VReg) (rb : SReg) (span : Nat) (bs : List Byte) : M Unit :=
  if span = 176 then finishR (.g (v.extractLsb' 3 3) (slotIn bs)) la [rb]
  else do
    raise (lanesIn rm (fmtOf p) span bs).2
    finishR (.v v (lanesIn rm (fmtOf p) span bs).1) la [rb]

theorem ldVt_loads {span : Nat} {ps : List (Nat × Nat × Place)} {bs : List Byte} {t1 t2 : State}
    (hports : Gives (openPorts none [rb]) s () t) (haddr : inSpace (lAddr (t.r1 rb) off 64))
    (hspan : Gives (typedSpan (t.r1 rb) v false) t span t)
    (hplaces : Gives (typedPlaces (t.r1 rb) (lAddr (t.r1 rb) off 64).toNat (typedAlign span) .read (typedParts span)) t ps t1)
    (hbytes : Gives (typedBytes (lAddr (t.r1 rb) off 64).toNat ps) t1 bs t2) :
    exec (.ldVt la v rb off) s = run (typedLoadEnd t.core.rm (t.r1 rb) la v rb span bs) t2 := by
  refine run_congr ?_
  rw [bind_ok hports, bind_ok (core_at t)]
  refine (bind_ok (addrL_passes haddr)).trans ?_
  refine (bind_ok hspan).trans ?_
  refine (bind_ok hplaces).trans ?_
  exact bind_ok hbytes

end Loads

/-- Settles O15: a load is its access and then its result; ld.vt comes to a block, or to lanes whose flags decide. -/
theorem loads : Obligations.Loads := by
  intro s t la rv rb v off bs
  refine ⟨fun h => ends_of_loadS rfl h (sext64_eq (by decide) _), fun h => ends_of_loadS rfl h rfl,
    fun h => ends_of_loadS rfl h (sext64_eq (by decide) _), fun h => ends_of_loadS rfl h rfl,
    fun h => ends_of_loadS rfl h (sext64_eq (by decide) _), fun h => ends_of_loadS rfl h rfl,
    fun h => ends_of_loadS rfl h rfl, fun h => ends_of_loadS rfl h rfl, fun h => ends_of_loadS rfl h rfl,
    ldV_ends, fun hports span ps t1 t2 haddr hspan hplaces hbytes => ?typed⟩
  case typed =>
    have hload := ldVt_loads (la := la) hports haddr hspan hplaces hbytes
    refine ⟨fun hslot => ?block, fun hlanes => ?lanes⟩
    case block =>
      rw [typedLoadEnd, if_pos hslot] at hload
      exact hload.trans (run_ok (finishR_at ..))
    case lanes =>
      rw [typedLoadEnd, if_neg hlanes] at hload
      exact flagEnd_of_run hload fun _ => finishR_at ..

/-! ## Stores (R252, R254) -/

section Stores
variable {i : Instr} {s t u v : State} {rv rb : SReg} {vr : VReg} {off : BitVec 6} {size : Nat} {pl : Place}

theorem ends_of_storeS {rel : Bool} (hi : exec i s = run (storeS rv rb off size rel) s)
    (hports : Gives (openPorts none [rv, rb]) s () t) :
    let a := lAddr (t.r2 rv rb) off size
    inSpace a → Gives (resolve a.toNat size .write) t pl u →
    Gives (storeGated a.toNat pl (numbered (toBytes size (t.r1 rv).toNat)) rel) u () v → Ends i s (v.done [rv, rb]) := by
  intro a haddr hplace hgate
  rw [Ends, hi, storeS, run_ok]
  rw [bind_ok hports, bind_ok (core_at t)]
  refine (bind_ok (addrL_passes haddr)).trans ?_
  refine (bind_ok hplace).trans ?_
  exact (bind_ok hgate).trans (finish_at ..)

theorem ends_of_storeV {bytes : Core → List (Nat × Byte)} (hi : exec i s = run (storeV rb off bytes) s)
    (hports : Gives (openPorts none [rb]) s () t) (haddr : inSpace (lAddr (t.r1 rb) off 64))
    (hplace : Gives (resolve (lAddr (t.r1 rb) off 64).toNat 64 .write) t pl u)
    (hgate : Gives (storeGated (lAddr (t.r1 rb) off 64).toNat pl (bytes t.core) false) u () v) : Ends i s (v.done [rb]) := by
  rw [Ends, hi, storeV, run_ok]
  rw [bind_ok hports, bind_ok (core_at t)]
  refine (bind_ok (addrL_passes haddr)).trans ?_
  refine (bind_ok hplace).trans ?_
  exact (bind_ok hgate).trans (finish_at ..)

/-- The bytes that st.vt hands to the gate, with the flags of their conversion. -/
def typedStored (c : Core) (p : Word) (vr : VReg) (span : Nat) : List Byte × FFlags :=
  if span = 176 then (slotOut (c.getG (vr.extractLsb' 3 3)), 0) else bytesOut c.rm (fmtOf p) span (c.getV vr)

/-- The parts of a typed store, each handed to the gate. -/
def gateParts (va : Nat) (bs : List Byte) (ps : List (Nat × Nat × Place)) : M Unit :=
  each ps fun q => storeGated (va + q.1) q.2.2 (numbered ((bs.drop q.1).take q.2.1)) false

/-- The end of st.vt: its flags, the gate as a group, and retirement. -/
def typedStoreEnd (va : Nat) (r : List Byte × FFlags) (ps : List (Nat × Nat × Place)) (rb : SReg) : M Unit := do
  raise r.2
  asGroup (gateParts va r.1 ps)
  finish [rb]

theorem stVt_stores {span : Nat} {ps : List (Nat × Nat × Place)}
    (hports : Gives (openPorts none [rb]) s () t) (haddr : inSpace (lAddr (t.r1 rb) off 64))
    (hspan : Gives (typedSpan (t.r1 rb) vr true) t span t)
    (hplaces : Gives (typedPlaces (t.r1 rb) (lAddr (t.r1 rb) off 64).toNat (typedAlign span) .write (typedParts span)) t ps u) :
    exec (.stVt vr rb off) s =
      run (typedStoreEnd (lAddr (t.r1 rb) off 64).toNat (typedStored t.core (t.r1 rb) vr span) ps rb) u := by
  refine run_congr ?_
  rw [bind_ok hports, bind_ok (core_at t)]
  refine (bind_ok (addrL_passes haddr)).trans ?_
  refine (bind_ok hspan).trans ?_
  exact bind_ok hplaces

theorem typedStoreEnd_ends {va : Nat} {r : List Byte × FFlags} {ps : List (Nat × Nat × Place)} (hquiet : r.2 &&& u.core.enabled = 0)
    (hgate : Gives (asGroup (gateParts va r.1 ps)) (u.flagged r.2) () v) :
    run (typedStoreEnd va r ps rb) u = .next (v.done [rb]) := by
  refine run_ok ?_
  rw [typedStoreEnd, bind_ok (raise_quiet hquiet)]
  exact (bind_ok hgate).trans (finish_at ..)

end Stores

/-- Settles O16: a store whose checks pass comes to the gate with the bytes of its register, and retires behind it. -/
theorem stores : Obligations.Stores := by
  intro s t u v rv rb vr off pl
  refine ⟨fun hports => ⟨ends_of_storeS rfl hports, ends_of_storeS rfl hports, ends_of_storeS rfl hports, ends_of_storeS rfl hports,
      ends_of_storeS rfl hports, ends_of_storeS rfl hports⟩,
    fun hports => ⟨fun haddr hplace => ⟨ends_of_storeV (bytes := fun c => numbered (vecBytes (c.getV vr))) rfl hports haddr hplace,
        ends_of_storeV (bytes := fun c => maskedBytes (c.getV vr) (c.getP 0)) rfl hports haddr hplace⟩,
      fun span ps haddr hspan hplaces hquiet hgate => ?typed⟩⟩
  case typed => exact (stVt_stores hports haddr hspan hplaces).trans (typedStoreEnd_ends hquiet hgate)

/-! ## Addresses (R247, R248) -/

/-- What is common to the L-format accesses: behind the ports, an address of a word is formed and its place found. -/
def accessed (d : Option SReg) (srcs : List SReg) (reg : Core → Word) (off : BitVec 6) (size : Nat) (acc : Acc)
    (rest : Core → Nat → Place → M Unit) : M Unit := do
  openPorts d srcs
  let c ← core
  let va ← addrL (reg c) off size
  let pl ← resolve va size acc
  rest c va pl

/-- An access whose address p, off and a size form traps where that is out of range, and where it is misaligned. -/
def TrapsOnBadAddress (i : Instr) (s t : State) (p : Word) (off : BitVec 6) (size : Nat) : Prop :=
  (¬inSpace (lAddr p off size) → Ends i s (t.takeTrap t.cur 0x07 t.core.pc p)) ∧
  (inSpace (lAddr p off size) → t.core.ret = none → t.core.outst = [] → t.core.trig.kind ≠ 1 →
    (lAddr p off size).toNat % size ≠ 0 → Ends i s (t.takeTrap t.cur 0x03 t.core.pc (BitVec.ofNat 64 (lAddr p off size).toNat)))

section Traps
variable {i : Instr} {s t : State} {d : Option SReg} {srcs : List SReg} {la : BitVec 4} {rv rb : SReg} {vr : VReg} {off : BitVec 6}
  {size : Nat}

theorem accessed_trapsOnBadAddress {reg : Core → Word} {acc : Acc} {rest : Core → Nat → Place → M Unit}
    (hi : exec i s = run (accessed d srcs reg off size acc rest) s) (hports : Gives (openPorts d srcs) s () t) :
    TrapsOnBadAddress i s t (reg t.core) off size := by
  refine ⟨fun hout => ?_, fun hin hret hidle hkind hmis => ?_⟩
  · rw [Ends, hi, accessed, run_error]
    rw [bind_ok hports, bind_ok (core_at t)]
    exact bind_error (addrL_traps hout)
  · rw [Ends, hi, accessed, run_error]
    rw [bind_ok hports, bind_ok (core_at t), bind_ok (addrL_passes hin)]
    exact bind_error (resolve_misaligned hret hidle hkind hmis)

theorem loadS_trapsOnBadAddress {ext : Nat → Word} (hi : exec i s = run (loadS la rv rb off size ext) s)
    (hports : Gives (openPorts (some rv) [rb]) s () t) : TrapsOnBadAddress i s t (t.r1 rb) off size :=
  accessed_trapsOnBadAddress (reg := fun c => (c.takeS rb).1) (acc := .read)
    (rest := fun _ va pl => do
      let bs ← loadBytes va pl size
      finishL rv la [rb] (ext (ofBytes bs))) hi hports

theorem ldV_trapsOnBadAddress (hports : Gives (openPorts none [rb]) s () t) :
    TrapsOnBadAddress (.ldV la vr rb off) s t (t.r1 rb) off 64 :=
  accessed_trapsOnBadAddress (reg := fun c => (c.takeS rb).1) (acc := .read)
    (rest := fun _ va pl => do
      let bs ← loadBytes va pl 64
      finishR (.v vr (vecOfBytes bs)) la [rb]) rfl hports

theorem storeS_trapsOnBadAddress {rel : Bool} (hi : exec i s = run (storeS rv rb off size rel) s)
    (hports : Gives (openPorts none [rv, rb]) s () t) : TrapsOnBadAddress i s t (t.r2 rv rb) off size :=
  accessed_trapsOnBadAddress (reg := fun c => ((c.takeS rv).2.takeS rb).1) (acc := .write)
    (rest := fun c va pl => do
      storeGated va pl (numbered (toBytes size (c.takeS rv).1.toNat)) rel
      finish [rv, rb]) hi hports

theorem storeV_trapsOnBadAddress (bytes : Core → List (Nat × Byte)) (hi : exec i s = run (storeV rb off bytes) s)
    (hports : Gives (openPorts none [rb]) s () t) : TrapsOnBadAddress i s t (t.r1 rb) off 64 :=
  accessed_trapsOnBadAddress (reg := fun c => (c.takeS rb).1) (acc := .write)
    (rest := fun c va pl => do
      storeGated va pl (bytes c) false
      finish [rb]) hi hports

end Traps

/-- Settles O19: every ld and st form begins with the forming of its address and the check of its alignment. -/
theorem addressTraps : Obligations.AddressTraps := by
  intro s t la rv rb v off
  exact ⟨loadS_trapsOnBadAddress rfl, loadS_trapsOnBadAddress rfl, loadS_trapsOnBadAddress rfl, loadS_trapsOnBadAddress rfl,
    loadS_trapsOnBadAddress rfl, loadS_trapsOnBadAddress rfl, loadS_trapsOnBadAddress rfl, loadS_trapsOnBadAddress rfl,
    loadS_trapsOnBadAddress rfl, ldV_trapsOnBadAddress, storeS_trapsOnBadAddress rfl, storeS_trapsOnBadAddress rfl,
    storeS_trapsOnBadAddress rfl, storeS_trapsOnBadAddress rfl, storeS_trapsOnBadAddress rfl, storeS_trapsOnBadAddress rfl,
    storeV_trapsOnBadAddress (fun c => numbered (vecBytes (c.getV v))) rfl,
    storeV_trapsOnBadAddress (fun c => maskedBytes (c.getV v) (c.getP 0)) rfl⟩

end Sys2Proof.Machine
end

section
/-!
PROOFS. Scalar atomics and watches: behind the ports and the check of its address, each is gated, returns from its serialisation point
or leaves on the combining path.
-/
namespace Sys2Proof.Machine

theorem exec_of_atomicForm {i : Instr} {fn width : Nat} {la : BitVec 4} {ra rb rc : SReg}
    (h : atomicForm i = some (fn, width, la, ra, rb, rc)) (s : State) : exec i s = run (atomicOp fn width la ra rb rc) s := by
  unfold atomicForm at h
  split at h <;> cases h <;> rfl

/-- The scalar registers that a scalar atomic reads. -/
def atomicSources (fn : Nat) (ra rb rc : SReg) : List SReg := if fn = 10 then [rb, rc, ra] else [rb, rc]

/-- What a scalar atomic does once the place of its address is found. -/
def atomicBehind (fn width : Nat) (la : BitVec 4) (ra rb rc : SReg) (va : Nat) (b old : Word) (pl : Place) : M Unit := do
  let s ← get
  let r := atomReq s fn width va pl b old ra.toNat la.toNat
  if ra = 0 then do
    gate (.atomic pl r)
    finish (atomicSources fn ra rb rc)
  else if combines s fn pl && (portOf ra).isNone && s.core.ret.isNone then do
    issueCombinable va pl r
    modCore fun c => (c.dequeue (atomicSources fn ra rb rc)).awaits ra la r.rtag
    retire
  else do
    let w ← returning va pl fun s => s.atomicAt s.cur s.ctxNo pl fn width b old
    finishL ra la (atomicSources fn ra rb rc) w

section Atomics
variable {s t u v : State} {fn width va : Nat} {la : BitVec 4} {ra rb rc : SReg} {pl : Place} {b old : Word}

theorem atomicOp_checked (hports : Gives (openPorts (some ra) (atomicSources fn ra rb rc)) s () t)
    (hplace : Gives (resolveAtomic ((t.r1 rb).toNat % 2 ^ 52) width .atomic) t pl u) :
    run (atomicOp fn width la ra rb rc) s = run (atomicBehind fn width la ra rb rc ((t.r1 rb).toNat % 2 ^ 52) (t.r2 rb rc)
      (if fn = 10 then t.r3 rb rc ra else 0) pl) u := by
  rw [← addrOf_eq] at hplace ⊢
  refine run_congr ?_
  unfold atomicOp
  refine (bind_ok hports).trans ?_
  rw [bind_ok (core_at t)]
  exact bind_ok hplace

theorem atomicBehind_gated (hdest : ra = 0)
    (hgate : Gives (gate (.atomic pl (atomReq u fn width va pl b old ra.toNat la.toNat))) u () v) :
    run (atomicBehind fn width la ra rb rc va b old pl) u = .next (v.done (atomicSources fn ra rb rc)) := by
  refine run_ok ?_
  rw [atomicBehind, bind_ok (get_at u)]
  refine (congrFun (if_pos hdest) u).trans ?_
  exact (bind_ok hgate).trans (finish_at ..)

theorem atomicBehind_returns {w : Word} (hdest : ra ≠ 0)
    (halone : (combines u fn pl && (portOf ra).isNone && u.core.ret.isNone) = false)
    (hhome : Gives (returning va pl fun s => s.atomicAt s.cur s.ctxNo pl fn width b old) u w v) :
    run (atomicBehind fn width la ra rb rc va b old pl) u = .next (v.withL ra la (atomicSources fn ra rb rc) w) := by
  refine run_ok ?_
  rw [atomicBehind, bind_ok (get_at u)]
  refine (congrFun (if_neg hdest) u).trans ?_
  refine (congrFun (if_neg (by rw [halone]; decide)) u).trans ?_
  exact (bind_ok hhome).trans (finishL_at ..)

/-- A request on the combining path leaves once the activation is irrevocable and its earlier accesses are performed. -/
theorem issueCombinable_at {r : AtomReq} (hopen : refusedBy u pl = none) (hfirm : Gives becomeIrrevocable u () v)
    (hcalm : v.core.calm = true) : issueCombinable va pl r u = .ok ((), v.sendCombinable v.cur pl r) := by
  rw [issueCombinable, bind_ok (get_at u), bind_ok (trapIf_passes (by rw [hopen]; rfl) ..), bind_ok hfirm,
    bind_ok (waitWhile_passes (by simp [hcalm]))]
  rfl

theorem atomicBehind_combines (hdest : ra ≠ 0) (hmeets : combines u fn pl = true) (hreg : portOf ra = none)
    (hfresh : u.core.ret = none) (hopen : refusedBy u pl = none) (hfirm : Gives becomeIrrevocable u () v)
    (hcalm : v.core.calm = true) :
    let r := atomReq u fn width va pl b old ra.toNat la.toNat
    let z := v.sendCombinable v.cur pl r
    run (atomicBehind fn width la ra rb rc va b old pl) u =
      .next (z.setCore (((z.core.dequeue (atomicSources fn ra rb rc)).awaits ra la r.rtag).retired)) := by
  intro r z
  refine run_ok ?_
  rw [atomicBehind, bind_ok (get_at u)]
  refine (congrFun (if_neg hdest) u).trans ?_
  refine (congrFun (if_pos (by rw [hmeets, hreg, hfresh]; rfl)) u).trans ?_
  refine (bind_ok (issueCombinable_at hopen hfirm hcalm)).trans ?_
  rw [bind_ok (modCore_at _), retire_at, core_setCore, setCore_setCore]

/-- The request of an atomic as it leaves on the combining path. -/
def combinableReq (s : State) (pl : Place) (r : AtomReq) : AtomReq :=
  { r with
    pa := homePa s r.ctx pl, since := s.pkg.cyc.toNat,
    chain := match pl with
      | .mem _ => none
      | .chain _ ch off => some (ch, off) }

theorem combinableReq_keeps (s : State) (pl : Place) (r : AtomReq) :
    (combinableReq s pl r).rtag = r.rtag ∧ (combinableReq s pl r).operand = r.operand ∧ (combinableReq s pl r).dest = r.dest :=
  ⟨rfl, rfl, rfl⟩

/-- The request that leaves is the core's youngest outstanding one, and goes to the router of the core's cluster. -/
theorem sendCombinable_leaves (v : State) (pl : Place) (r : AtomReq) :
    (v.sendCombinable v.cur pl r).core.outst = v.core.outst ++ [combinableReq v pl r] ∧
    (v.sendCombinable v.cur pl r).flight = v.flight ++ [.combineRequest (clusterOf v.cur) 0 (combinableReq v pl r)] := by
  refine ⟨?_, by cases pl <;> rfl⟩
  have hcore : (v.sendCombinable v.cur pl r).core =
      ((v.dropOwn v.cur r.ctx pl).onCore v.cur fun x => { x with outst := x.outst ++ [combinableReq v pl r] }).coreAt v.cur := by
    cases pl <;> rfl
  have hkept : ((v.dropOwn v.cur r.ctx pl).coreAt v.cur).outst = v.core.outst := by
    unfold State.dropOwn
    rw [coreAt_onCore_same]
    rfl
  rw [hcore, coreAt_onCore_same, hkept]

end Atomics

/-! ## Watches (R258) -/

/-- What a watch does with a request whose descriptor has passed its checks. -/
def watchBehind (la : BitVec 4) (ra rb rc : SReg) (va : Nat) (pl : Place) (r : WatchReq) : M Unit :=
  if ra = 0 then do
    gate (.watch pl r)
    finish [rb, rc]
  else do
    let v ← returning va pl fun s => (watchValue s r, s.watchAt r)
    finishL ra la [rb, rc] v

/-- The request of a watch with a descriptor. -/
def watchReqOf (v : State) (width va : Nat) (pl : Place) (d : List Word) : WatchReq :=
  { ctx := v.ctxNo, core := fld (d.getD 1 0) 11 0, tag := fld (d.getD 1 0) 17 12, width := width, va := va, pa := watchPa v pl,
    exp := d.getD 0 0 }

section Watches
variable {s t u v z : State} {width va : Nat} {la : BitVec 4} {ra rb rc : SReg} {pl : Place} {d : List Word} {r : WatchReq}

theorem watchOp_checked (hports : Gives (openPorts (some ra) [rb, rc]) s () t)
    (hplace : Gives (resolveAtomic ((t.r1 rb).toNat % 2 ^ 52) width .read) t pl u)
    (hdesc : Gives (ownDescriptor (t.r2 rb rc) 16 16 0x05) u d v) (hzero : fld (d.getD 1 0) 63 18 = 0)
    (hcore : inAnyGroup v v.ctxNo (fld (d.getD 1 0) 11 0) = true) :
    run (watchOp width la ra rb rc) s =
      run (watchBehind la ra rb rc ((t.r1 rb).toNat % 2 ^ 52) pl (watchReqOf v width ((t.r1 rb).toNat % 2 ^ 52) pl d)) v := by
  rw [← addrOf_eq] at hplace ⊢
  refine run_congr ?_
  unfold watchOp
  refine (bind_ok hports).trans ?_
  rw [bind_ok (core_at t)]
  refine (bind_ok hplace).trans ?_
  refine (bind_ok hdesc).trans ?_
  rw [bind_ok (get_at v)]
  exact congrFun (if_neg (by rw [hzero, hcore]; decide)) v

theorem watchBehind_gated (hdest : ra = 0) (hgate : Gives (gate (.watch pl r)) v () z) :
    run (watchBehind la ra rb rc va pl r) v = .next (z.done [rb, rc]) := by
  refine run_ok ?_
  rw [watchBehind, if_pos hdest]
  exact (bind_ok hgate).trans (finish_at ..)

theorem watchBehind_returns {x : Word} (hdest : ra ≠ 0)
    (hhome : Gives (returning va pl fun s => (watchValue s r, s.watchAt r)) v x z) :
    run (watchBehind la ra rb rc va pl r) v = .next (z.withL ra la [rb, rc] x) := by
  refine run_ok ?_
  rw [watchBehind, if_neg hdest]
  exact (bind_ok hhome).trans (finishL_at ..)

end Watches

theorem exec_of_watch {i : Instr} {width : Nat} {la : BitVec 4} {ra rb rc : SReg}
    (h : (width, i) ∈ [(8, Instr.atWatch la ra rb rc), (4, .atwWatch la ra rb rc)]) (s : State) :
    exec i s = run (watchOp width la ra rb rc) s := by
  simp only [List.mem_cons, Prod.mk.injEq, List.not_mem_nil, or_false] at h
  rcases h with ⟨rfl, rfl⟩ | ⟨rfl, rfl⟩ <;> rfl

/-- Settles O20: behind its checks an atomic is gated, returns or combines, by its destination and its place; a watch is gated or
returns. -/
theorem scalarAtomics : Obligations.ScalarAtomics := by
  refine ⟨fun i fn width la ra rb rc s t u v pl w hform => ?atomic,
    fun s t u v z la ra rb rc pl d x width i hi hports => ?watch⟩
  case atomic =>
    intro srcs hports va b old hplace r
    have hchecked := (exec_of_atomicForm hform s).trans (atomicOp_checked hports hplace)
    refine ⟨fun hdest hgate => hchecked.trans (atomicBehind_gated hdest hgate),
      fun hdest halone hhome => hchecked.trans (atomicBehind_returns hdest halone hhome),
      fun hdest hmeets hreg hfresh hopen hfirm hcalm => ⟨?_, combinableReq v pl r, (sendCombinable_leaves v pl r).1,
        (sendCombinable_leaves v pl r).2, combinableReq_keeps v pl r⟩⟩
    exact hchecked.trans (atomicBehind_combines hdest hmeets hreg hfresh hopen hfirm hcalm)
  case watch =>
    intro va hplace hdesc e w r hzero hcore
    have hchecked := (exec_of_watch hi s).trans (watchOp_checked hports hplace hdesc hzero hcore)
    exact ⟨fun hdest hgate => hchecked.trans (watchBehind_gated hdest hgate),
      fun hdest hhome => hchecked.trans (watchBehind_returns hdest hhome)⟩

end Sys2Proof.Machine
end

section
/-!
PROOFS. Atomics at their serialisation point: the function that each applies has a value of the width, and that value is what memory
holds afterwards.
-/
namespace Sys2Proof.Machine

/-! ## Bytes and numbers (R5) -/

section Bytes
variable (n w : Nat) (bs : List Byte)

@[simp] theorem toBytes_length : (toBytes n w).length = n := by
  induction n generalizing w with
  | zero => rfl
  | succ n ih => rw [toBytes, List.length_cons, ih]

theorem ofBytes_lt : ofBytes bs < 2 ^ (8 * bs.length) := by
  induction bs with
  | nil => simp [ofBytes]
  | cons b rest ih =>
    have hb := b.isLt
    rw [ofBytes, List.length_cons, Nat.mul_succ, Nat.pow_add]
    omega

theorem ofBytes_toBytes : ofBytes (toBytes n w) = w % 2 ^ (8 * n) := by
  induction n generalizing w with
  | zero => simp [toBytes, ofBytes, Nat.mod_one]
  | succ n ih =>
    rw [toBytes, ofBytes, ih, BitVec.toNat_ofNat, Nat.mul_succ, Nat.pow_add, Nat.mul_comm (2 ^ (8 * n)), Nat.mod_mul]

theorem ofBytes_toBytes_of_lt {n w : Nat} (h : w < 2 ^ (8 * n)) : ofBytes (toBytes n w) = w := by
  rw [ofBytes_toBytes, Nat.mod_eq_of_lt h]

theorem Mem.readN_length (m : Mem) (a n : Nat) : (m.readN a n).length = n := by simp [Mem.readN]

/-- Bytes read where they have been written are those written. -/
theorem Mem.readN_writeN (m : Mem) (a : Nat) (bs : List Byte) : (m.writeN a bs).readN a bs.length = bs := by
  refine List.ext_getElem (Mem.readN_length ..) fun i _ hi => ?_
  simp only [Mem.readN, List.getElem_map, List.getElem_range]
  exact Mem.read_writeN_in m a bs i hi

end Bytes

/-! ## The values of a format (Table 8.1) -/

/-- The magnitudes that a format names fit into it. -/
structure Fmt.Fits (f : Fmt) : Prop where
  top : f.top < f.sign
  inf : ∀ i ∈ f.inf, i < f.sign
  nan : f.qnan < f.sign

theorem fp64_fits : fp64.Fits := ⟨by decide, by decide, by decide⟩
theorem fp32_fits : fp32.Fits := ⟨by decide, by decide, by decide⟩

section Values
variable {f : Fmt} (h : f.Fits) (rm : Rm)
include h

omit h in
theorem Fmt.signed_lt (neg : Bool) {mag : Nat} (hmag : mag < f.sign) : f.signed neg mag < 2 * f.sign := by
  unfold Fmt.signed
  split <;> omega

theorem Fmt.overflow_lt (neg : Bool) : f.overflow rm neg < 2 * f.sign := by
  have htop := Fmt.signed_lt neg h.top
  unfold Fmt.overflow
  cases hinf : f.inf with
  | none => exact htop
  | some i => exact iteInduction (motive := (· < 2 * f.sign)) (fun _ => htop) fun _ => Fmt.signed_lt neg (h.inf i hinf)

theorem Fmt.round_lt (neg : Bool) (m : Nat) (e : Int) : (f.round rm neg m e).1 < 2 * f.sign := by
  unfold Fmt.round
  dsimp only
  split
  · exact Fmt.signed_lt _ (Nat.two_pow_pos _)
  · split
    · exact Fmt.overflow_lt h rm neg
    · next hraw => exact Fmt.signed_lt _ (by have := h.top; omega)

theorem Fmt.conv_lt (v : FVal) : (f.conv rm v).1 < 2 * f.sign := by
  unfold Fmt.conv
  split
  · have := h.nan
    dsimp only
    omega
  · split
    next i hi => exact Fmt.signed_lt _ (h.inf i hi)
    next => exact Fmt.signed_lt _ h.top
  · exact Fmt.round_lt h rm ..

theorem Fmt.fin_lt (x : Exact) : (f.fin rm x).1 < 2 * f.sign := Fmt.conv_lt h rm x.1

end Values

/-! ## The functions (R256) -/

/-- The format of a floating-point atomic of a width in bytes. -/
def atomicFmt (width : Nat) : Fmt := if width = 8 then fp64 else fp32

theorem atomicFmt_fin_lt {width : Nat} (hwidth : width = 8 ∨ width = 4) (x : Exact) :
    ((atomicFmt width).fin .rne x).1 < 2 ^ (8 * width) := by
  rcases hwidth with rfl | rfl
  · exact Fmt.fin_lt fp64_fits .rne x
  · exact Fmt.fin_lt fp32_fits .rne x

theorem wrapTo_eq (w : Nat) (x : Int) : wrapTo w x = (BitVec.ofInt w x).toNat := by
  rw [wrapTo, BitVec.toNat_ofInt]
  norm_cast

section Functions
variable {fn width x b c : Nat}

/-- A function of two numbers of the width has a value of the width. -/
theorem atomicFn_lt {y : Nat} (hwidth : width = 8 ∨ width = 4) (hx : x < 2 ^ (8 * width)) (hb : b < 2 ^ (8 * width))
    (h : atomicFn fn (8 * width) x b c = some y) : y < 2 ^ (8 * width) := by
  unfold atomicFn at h
  split at h
  case h_11 => split at h <;> simp_all
  case h_12 =>
    have hfmt : (if 8 * width = 64 then fp64 else fp32) = atomicFmt width := by
      rcases hwidth with rfl | rfl <;> rfl
    rw [hfmt] at h
    exact Option.some.inj h ▸ atomicFmt_fin_lt hwidth _
  all_goals
    obtain rfl := Option.some.inj h
  case h_1 => exact Nat.mod_lt _ (Nat.two_pow_pos _)
  case h_2 => exact Nat.mod_lt _ (Nat.two_pow_pos _)
  case h_3 => exact Nat.and_lt_two_pow _ hb
  case h_4 => exact Nat.or_lt_two_pow hx hb
  case h_5 => exact Nat.xor_lt_two_pow hx hb
  case h_6 => split <;> assumption
  case h_7 => split <;> assumption
  case h_8 => omega
  case h_9 => omega
  case h_10 => exact hb
  case h_13 => rw [wrapTo_eq]; exact BitVec.isLt _

end Functions

/-! ## An atomic in memory (R128, R251) -/

/-- Where a context's access acts is the same while its image, and the contexts that the cores run, are. -/
theorem lsRedirect_congr {s t : State} (ctx pa : Nat) (hnum : t.pkg.num = s.pkg.num)
    (hctx : ∀ k, (t.coreAt k).ctx = (s.coreAt k).ctx) (hsave : (t.ctxAt ctx).psave = (s.ctxAt ctx).psave) :
    lsRedirect t ctx pa = lsRedirect s ctx pa := by
  simp only [lsRedirect, imagePa, hnum, hctx, hsave]

theorem dropOwn_ctx (s : State) (c ctx : Nat) (pl : Place) (k : Nat) : ((s.dropOwn c ctx pl).coreAt k).ctx = (s.coreAt k).ctx := by
  unfold State.dropOwn
  by_cases hk : c = k
  · subst hk
    rw [coreAt_onCore_same]
    rfl
  · rw [coreAt_onCore_ne _ _ _ hk]

theorem askRemote_eq (s : State) (ctx pa : Nat) (b : UalBody) : ∃ os, s.askRemote ctx pa b = { s with outs := os } := by
  unfold State.askRemote
  split
  · exact ⟨s.outs, rfl⟩
  · exact ⟨_, rfl⟩

@[simp] theorem askRemote_mem (s : State) (ctx pa : Nat) (b : UalBody) : (s.askRemote ctx pa b).mem = s.mem := by
  obtain ⟨os, h⟩ := askRemote_eq s ctx pa b
  rw [h]

theorem lsRedirect_askRemote (s : State) (ctx k pa a : Nat) (b : UalBody) :
    lsRedirect (s.askRemote k a b) ctx pa = lsRedirect s ctx pa := by
  obtain ⟨os, h⟩ := askRemote_eq s k a b
  rw [h]
  rfl

section Effect
variable {s : State} {c ctx pa : Nat}

/-- A write by an operation on a location that is no register of the device is a write of its bytes. -/
theorem writeHome_mem {va : Nat} {bs : List Byte} {ans : Option (AtomReq × Word)} (hrow : rowOf pa ≠ .device) :
    (s.writeHome c ctx (.mem pa) va bs ans).mem = s.mem.writeN (lsRedirect s ctx pa) bs := by
  simp only [State.writeHome, if_neg hrow, perform_mem]

variable {fn width : Nat} {b cmp : Word}

/-- The new value of a location under an atomic, or none where nothing is written. -/
def atomicValue (s : State) (ctx pa fn width : Nat) (b cmp : Word) : Option Nat :=
  atomicFn fn (8 * width) (ofBytes (s.readPa (lsRedirect s ctx pa) width)) (b.toNat % 2 ^ (8 * width)) (cmp.toNat % 2 ^ (8 * width))

theorem atomicAt_mem (hrow : rowOf pa ≠ .device) (hat : rowOf (lsRedirect s ctx pa) ≠ .device) :
    (s.atomicAt c ctx (.mem pa) fn width b cmp).2.mem = (atomicValue s ctx pa fn width b cmp).elim s.mem fun y =>
      s.mem.writeN (lsRedirect s ctx pa) (toBytes width y) := by
  have hbytes : s.bytesAt (homePa s ctx (.mem pa)) width = s.readPa (lsRedirect s ctx pa) width := if_neg hat
  simp only [State.atomicAt, hbytes]
  cases h : atomicValue s ctx pa fn width b cmp with
  | none =>
    rw [atomicValue] at h
    simp only [h, count_mem, State.askAtomic, askRemote_mem, Option.elim_none]
    rfl
  | some y =>
    rw [atomicValue] at h
    simp only [h, writeHome_mem hrow, State.askAtomic, askRemote_mem, lsRedirect_askRemote, Option.elim_some]
    rw [lsRedirect_congr ctx pa (t := s.dropOwn c ctx (.mem pa)) (s := s) rfl (dropOwn_ctx _ _ _ _) rfl]
    rfl

theorem atomicAt_old (hat : rowOf (lsRedirect s ctx pa) ≠ .device) :
    (s.atomicAt c ctx (.mem pa) fn width b cmp).1 = oldValue width (ofBytes (s.readPa (lsRedirect s ctx pa) width)) := by
  have hbytes : s.bytesAt (homePa s ctx (.mem pa)) width = s.readPa (lsRedirect s ctx pa) width := if_neg hat
  simp only [State.atomicAt, hbytes]
  split <;> rfl

theorem atomicAt_sameOutside (hrow : rowOf pa ≠ .device) (hat : rowOf (lsRedirect s ctx pa) ≠ .device) :
    SameOutside s (s.atomicAt c ctx (.mem pa) fn width b cmp).2 (lsRedirect s ctx pa) width := by
  intro p hp
  rw [atomicAt_mem hrow hat]
  cases atomicValue s ctx pa fn width b cmp with
  | none => rfl
  | some y => exact Mem.read_writeN_out _ _ _ _ (by rwa [toBytes_length])

/-- After an atomic its location holds the function's value, or the old one where nothing is written. -/
theorem atomicAt_now (hwidth : width = 8 ∨ width = 4) (hrow : rowOf pa ≠ .device) (hat : rowOf (lsRedirect s ctx pa) ≠ .device) :
    ofBytes ((s.atomicAt c ctx (.mem pa) fn width b cmp).2.readPa (lsRedirect s ctx pa) width) =
      (atomicValue s ctx pa fn width b cmp).getD (ofBytes (s.readPa (lsRedirect s ctx pa) width)) := by
  rw [State.readPa, atomicAt_mem hrow hat]
  cases h : atomicValue s ctx pa fn width b cmp with
  | none => rfl
  | some y =>
    have hold := ofBytes_lt (s.readPa (lsRedirect s ctx pa) width)
    rw [State.readPa, Mem.readN_length] at hold
    have hy := atomicFn_lt hwidth hold (Nat.mod_lt _ (Nat.two_pow_pos _)) h
    have hread := Mem.readN_writeN s.mem (lsRedirect s ctx pa) (toBytes width y)
    rw [toBytes_length] at hread
    rw [Option.elim_some, hread, ofBytes_toBytes_of_lt hy, Option.getD_some]

end Effect

/-- Settles O21: what memory holds is the value of the atomic's function, which is read off case by case. -/
theorem atomicEffect : Obligations.AtomicEffect := by
  intro s c ctx pa fn width b cmp hwidth w a x y sx sy hrow hat r now
  have hw : 0 < w := by omega
  have hnow : now = (atomicFn fn w x y (cmp.toNat % 2 ^ w)).getD x := atomicAt_now hwidth hrow hat
  have hsx : signed w x = sx := signed_eq_toInt hw x
  have hsy : signed w y = sy := signed_eq_toInt hw y
  refine ⟨atomicAt_old hat, atomicAt_sameOutside hrow hat, ?_, ?_, ?_, ?_, ?_, ?_, ?_, ?_, ?_, ?_, ?_, ?_⟩
  · rintro (rfl | rfl) <;> exact hnow
  · rintro rfl; exact hnow
  · rintro rfl; exact hnow
  · rintro rfl; exact hnow
  · rintro rfl; rw [hnow, ← hsx, ← hsy]; rfl
  · rintro rfl; rw [hnow, ← hsx, ← hsy]; rfl
  · rintro rfl; exact hnow
  · rintro rfl; exact hnow
  · rintro rfl; exact hnow
  · rintro rfl
    rw [hnow, atomicFn]
    split <;> rfl
  · rintro rfl
    rcases hwidth with rfl | rfl <;> exact hnow
  · rintro rfl
    rw [hnow, ← hsx, ← hsy]
    exact wrapTo_eq w _

end Sys2Proof.Machine
end

section
/-!
PROOFS. The commit buffer: a load within one line sees the core's own held stores and leaves marks alone, and the bytes of a store of a
revocable activation are held.
-/
namespace Sys2Proof.Machine

/-! ## What a read leaves behind (R67, R122, R301) -/

/-- Cores differ in their caches, in the monitors of their local stores and in their read signatures alone, and the rest of the state
in the caches and counts of the slices and in what leaves the package. -/
structure ReadMarks (s t : State) : Prop where
  cores : ∀ c, ∃ a i m r, t.coreAt c = { s.coreAt c with l1 := a, l1i := i, lmon := m, rsig := r }
  apart : t.apart = s.apart
  mem : t.mem = s.mem

theorem ReadMarks.of_cachesOnly {s t : State} (h : CachesOnly s t) (hapart : t.apart = s.apart) (hmem : t.mem = s.mem) :
    ReadMarks s t := by
  refine ⟨fun c => ?_, hapart, hmem⟩
  obtain ⟨a, i, m, hc⟩ := h.cores c
  exact ⟨a, i, m, _, hc⟩

theorem ReadMarks.refl (s : State) : ReadMarks s s := .of_cachesOnly (.refl s) rfl rfl

theorem ReadMarks.trans {s t u : State} (h : ReadMarks s t) (h' : ReadMarks t u) : ReadMarks s u := by
  refine ⟨fun c => ?_, h'.apart.trans h.apart, h'.mem.trans h.mem⟩
  obtain ⟨a, i, m, r, hx⟩ := h.cores c
  obtain ⟨a', i', m', r', hx'⟩ := h'.cores c
  exact ⟨a', i', m', r', by rw [hx', hx]⟩

/-- The current core after a read. -/
theorem ReadMarks.core {s t : State} (h : ReadMarks s t) :
    ∃ a i m r, t.core = { s.core with l1 := a, l1i := i, lmon := m, rsig := r } := by
  have hcur : t.apart.cur = s.apart.cur := congrArg State.cur h.apart
  change t.cur = s.cur at hcur
  rw [State.core, hcur]
  exact h.cores s.cur

section Marks
variable (s : State) (c ctx pa : Nat) (pl : Place)

theorem onCore_readMarks {f : Core → Core} (hf : ∀ x, ∃ a i m r, f x = { x with l1 := a, l1i := i, lmon := m, rsig := r }) :
    ReadMarks s (s.onCore c f) := by
  refine ⟨fun d => ?_, rfl, rfl⟩
  by_cases h : c = d
  · subst h
    rw [coreAt_onCore_same]
    exact hf _
  · rw [coreAt_onCore_ne _ _ _ h]
    exact ⟨_, _, _, _, rfl⟩

theorem askRemote_readMarks (b : UalBody) : ReadMarks s (s.askRemote ctx pa b) := by
  obtain ⟨os, h⟩ := askRemote_eq s ctx pa b
  rw [h]
  exact .of_cachesOnly (.of_same rfl rfl) rfl rfl

theorem askChain_readMarks (q : MemReq) : ReadMarks s (s.askChain c q) := by
  unfold State.askChain
  dsimp only
  split
  · exact .refl s
  · split <;> exact askRemote_readMarks ..

theorem count_readMarks (die : Nat) (wr : Bool) : ReadMarks s (s.count ctx die pa wr) :=
  .of_cachesOnly (count_cachesOnly ..) (count_apart ..) (count_mem ..)

theorem fillL2_readMarks : ReadMarks s (s.fillL2 pa) := .of_cachesOnly (fillL2_cachesOnly ..) (fillL2_apart ..) (fillL2_mem ..)

theorem setDir_readMarks (d : Tbl Sharers) : ReadMarks s { s with dir := d } := .of_cachesOnly (.of_same rfl rfl) rfl rfl

theorem fillL1_readMarks (code : Bool) : ReadMarks s (s.fillL1 c pa code) := by
  unfold State.fillL1
  dsimp only
  split
  · split
    · exact fillL2_readMarks s pa
    · refine (fillL2_readMarks s pa).trans ((onCore_readMarks _ c fun x => ?_).trans (setDir_readMarks _ _))
      cases code <;> exact ⟨_, _, _, _, rfl⟩
  · exact .refl s

theorem noteSig_readMarks : ReadMarks s (s.noteSig c pl) := by
  unfold State.noteSig
  dsimp only
  split
  · exact onCore_readMarks s c fun x => ⟨_, _, _, _, rfl⟩
  · exact .refl s

/-- A read that hits the core's L1, or is counted and fills a cache. -/
theorem filled_readMarks (hit clean : Bool) (die home : Nat) : ReadMarks s (if hit then s else
    if clean then (s.count ctx die home false).fillL1 c pa false else (s.count ctx die home false).fillL2 pa) := by
  cases hit with
  | true => exact .refl s
  | false =>
    refine (count_readMarks s ctx home die false).trans ?_
    cases clean with
    | true => exact fillL1_readMarks ..
    | false => exact fillL2_readMarks ..

theorem noteRead_readMarks (fill : Bool) (n : Nat) : ReadMarks s (s.noteRead c ctx pl fill n) := by
  refine ReadMarks.trans ?_ (noteSig_readMarks ..)
  cases pl with
  | mem a => exact (askRemote_readMarks ..).trans (filled_readMarks ..)
  | chain x ch off => exact (askChain_readMarks ..).trans (filled_readMarks ..)

end Marks

/-! ## A load within a line (R249, R250) -/

@[simp] theorem Place.plus_zero (pl : Place) : pl.plus 0 = pl := by cases pl <;> rfl
@[simp] theorem Place.line_line (pl : Place) : pl.line.line = pl.line := by
  cases pl <;> simp [Place.line]

/-- What a load gives where memory, or what stands behind it, holds some bytes: of each byte the youngest held value, else that. -/
def loadedOver (buf : List Gated) (pl : Place) (n : Nat) (bs : List Byte) : List Byte :=
  (List.range n).map fun i => (heldByte buf (pl.plus i)).getD (bs.getD i 0)

section Load
variable {s : State} {va n : Nat} {pl : Place} {bs : List Byte}

theorem memBytes_reads (hread : readPlace s s.cur s.ctxNo pl n = .ok bs) :
    memBytes va pl n s = .ok (bs, s.noteRead s.cur s.ctxNo pl true n) := by
  rw [memBytes, bind_ok (get_at s), hread]
  rfl

/-- Bytes that are held whole are what a load gives. -/
theorem held_eq_loadedOver {buf : List Gated} (h : (((List.range n).map fun i => heldByte buf (pl.plus i)).all Option.isSome) = true) :
    ((List.range n).map fun i => heldByte buf (pl.plus i)).map (fun b => b.getD 0) = loadedOver buf pl n bs := by
  rw [List.map_map, loadedOver]
  refine List.map_congr_left fun i hi => ?_
  obtain ⟨b, hb⟩ := Option.isSome_iff_exists.mp (List.all_eq_true.mp h _ (List.mem_map_of_mem hi))
  simp [hb]

theorem zipWith_eq_loadedOver {buf : List Gated} (hlen : bs.length = n) :
    ((List.range n).map fun i => heldByte buf (pl.plus i)).zipWith (fun h b => h.getD b) bs = loadedOver buf pl n bs := by
  refine List.ext_getElem (by simp [loadedOver, hlen]) fun i hi _ => ?_
  have hib : i < bs.length := by simp at hi; omega
  simp [loadedOver, hib]

/-- A load within a line, with no atomic held on it, gives the held bytes over those of memory, and leaves the marks of a read or
none. -/
theorem loadLine_reads (hfree : heldAtomic s.core.cbuf pl = false) (hread : readPlace s s.cur s.ctxNo pl n = .ok bs)
    (hlen : bs.length = n) :
    ∃ t, loadLine va pl n s = .ok (loadedOver s.core.cbuf pl n bs, t) ∧ (t = s ∨ t = s.noteRead s.cur s.ctxNo pl true n) := by
  by_cases hall : (((List.range n).map fun i => heldByte s.core.cbuf (pl.plus i)).all Option.isSome) = true
  · refine ⟨s, ?_, .inl rfl⟩
    rw [loadLine, bind_ok (get_at s), bind_ok (onlyIf_passes hfree _ s), bind_ok (get_at s), ← held_eq_loadedOver hall]
    exact congrFun (if_pos hall) s
  · refine ⟨_, ?_, .inr rfl⟩
    rw [loadLine, bind_ok (get_at s), bind_ok (onlyIf_passes hfree _ s), bind_ok (get_at s), ← zipWith_eq_loadedOver hlen]
    refine (congrFun (if_neg hall) s).trans ?_
    rw [bind_ok (memBytes_reads hread)]
    rfl

theorem lineParts_within (hfits : pl.inLine + n ≤ 64) : lineParts pl n = [(0, n)] := by
  have hfirst : min n (64 - pl.inLine) = n := by omega
  simp [lineParts, hfirst]

theorem loadBytes_within (hfits : pl.inLine + n ≤ 64) : loadBytes va pl n s = loadLine va pl n s := by
  rw [loadBytes, lineParts_within hfits, loadParts, Place.plus_zero, bind_at]
  cases hline : loadLine (va + 0) pl n s with
  | ok r => simp [loadParts]
  | error t => rfl

end Load

/-! ## A store within a line -/

/-- The bytes of a store by their offset in its line. -/
def inLineOf (pl : Place) (bs : List (Nat × Byte)) : List (Nat × Byte) := bs.map fun b => (pl.inLine + b.1, b.2)

section Store
variable {s : State} {va : Nat} {pl : Place} {bs : List (Nat × Byte)} {rel : Bool}

theorem distinct_replicate {α : Type} [DecidableEq α] (n : Nat) (a : α) : distinct (List.replicate (n + 1) a) = [a] := by
  have hfold : ∀ k, (List.replicate k a).foldl (fun seen x => if x ∈ seen then seen else seen ++ [x]) [a] = [a] := by
    intro k
    induction k with
    | zero => rfl
    | succ k ih => simpa [List.replicate_succ] using ih
  simpa [distinct, List.replicate_succ] using hfold n

/-- The bytes of a store that lie in its first line are gated as one item; a store of no bytes gates nothing. -/
theorem storeGated_within (hne : bs ≠ []) (hline : ∀ b ∈ bs, pl.inLine + b.1 < 64) :
    storeGated va pl bs rel s = gate (.store pl.line (va / 64 * 64) (inLineOf pl bs) rel) s := by
  have hzero : ∀ b ∈ bs, (pl.inLine + b.1) / 64 = 0 := fun b hb => Nat.div_eq_of_lt (hline b hb)
  have hlines : distinct (bs.map fun b => (pl.inLine + b.1) / 64) = [0] := by
    have hmap : bs.map (fun b => (pl.inLine + b.1) / 64) = List.replicate bs.length 0 := by
      rw [List.map_congr_left hzero, List.map_const']
    obtain ⟨b, rest, rfl⟩ := List.exists_cons_of_ne_nil hne
    rw [hmap, List.length_cons, distinct_replicate]
  have hall : bs.filter (fun b => (pl.inLine + b.1) / 64 == 0) = bs := by
    rw [List.filter_eq_self]
    simpa using fun a b hb => hline (a, b) hb
  have hoff : bs.map (fun b => ((pl.inLine + b.1) % 64, b.2)) = inLineOf pl bs :=
    List.map_congr_left fun b hb => by rw [Nat.mod_eq_of_lt (hline b hb)]
  rw [storeGated, hlines]
  simp only [each, hall, hoff, Nat.mul_zero, Place.plus_zero, Nat.add_zero]
  rw [bind_at]
  cases gate (.store pl.line (va / 64 * 64) (inLineOf pl bs) rel) s <;> rfl

/-- The item of a store under the group of its core. -/
theorem grouped_store (x : Core) (l : Place) (a : Nat) (cs : List (Nat × Byte)) (r : Bool) :
    ∃ k, (Gated.store l a cs r).grouped x = .store l a cs r k := by
  unfold Gated.grouped
  split
  · next heq => cases heq; exact ⟨_, rfl⟩
  · next heq => cases heq
  · exact ⟨_, rfl⟩

/-- In a revocable activation with room a store is held. -/
theorem gate_store_held {l : Place} {a : Nat} {cs : List (Nat × Byte)} (hrev : s.core.rev = true) (hread : mxUnread s s.cur l = false)
    (hroom : s.core.held64 + 1 ≤ 64) :
    gate (.store l a cs rel) s =
      .ok ((), s.setCore { s.core with cbuf := heldWith s.core.cbuf ((Gated.store l a cs rel).grouped s.core) }) := by
  obtain ⟨k, hk⟩ := grouped_store s.core l a cs rel
  have hdrop : dropAtomicLine (.store l a cs rel) s = .ok ((), s) := rfl
  rw [gate, bind_ok hdrop, bind_ok (get_at s), hk]
  simp only [mustWait, hread, Bool.false_eq_true, if_false, heldWith]
  refine (congrFun (if_pos hrev) s).trans ?_
  cases mergeStore s.core.cbuf (.store l a cs rel k) with
  | some buf => rfl
  | none => simp [entriesOf, hroom]

end Store

/-- Settles O17: a load within a line is one read under the held stores; a store within a line is one held item. -/
theorem commitBuffer : Obligations.CommitBuffer := by
  refine ⟨fun s va n pl bs hn hfits hlen hfree hread => ?load, fun s va pl bs rel hne hline hrev hunread hroom => ?store⟩
  case load =>
    obtain ⟨t, hload, ht⟩ := loadLine_reads (va := va) hfree hread hlen
    have hmarks : ReadMarks s t := by
      rcases ht with rfl | rfl
      · exact .refl _
      · exact noteRead_readMarks ..
    obtain ⟨a, i, m, r, hcore⟩ := hmarks.core
    refine ⟨t, (loadBytes_within hfits).trans hload, fun b => by rw [hmarks.mem], ?_⟩
    rw [hcore]
    exact ⟨rfl, rfl, rfl, rfl, rfl⟩
  case store => exact (storeGated_within hne hline).trans (gate_store_held hrev hunread hroom)

end Sys2Proof.Machine
end

section
/-!
PROOFS. An instruction that traps does not retire: taking a trap leaves every core's count of retired instructions, also where it ends
the activation or kills the context.
-/
namespace Sys2Proof.Machine

/-- The current core, and the instructions that each core has retired. -/
def State.progress (s : State) : Nat × (Nat → Nat) := (s.cur, fun c => (s.coreAt c).icount)

theorem core_icount_of_progress {s t : State} (h : t.progress = s.progress) : t.core.icount = s.core.icount := by
  obtain ⟨hcur, hcounts⟩ := Prod.mk.inj h
  rw [State.core, hcur]
  exact congrFun hcounts s.cur

theorem progress_of_cachesOnly {s t : State} (h : CachesOnly s t) (hcur : t.cur = s.cur) : t.progress = s.progress := by
  refine Prod.ext hcur (funext fun c => ?_)
  obtain ⟨a, i, m, hc⟩ := h.cores c
  change (t.coreAt c).icount = (s.coreAt c).icount
  rw [hc]

theorem cur_of_apart {s t : State} (h : t.apart = s.apart) : t.cur = s.cur := by
  have hcur : t.apart.cur = s.apart.cur := by rw [h]
  exact hcur

/-- What is read of an entry stays where the change of every entry keeps it. -/
theorem Tbl.getD_mapv_keeps {α β : Type} (t : Tbl α) (k : Nat) {f : Nat → α → α} {d : α} (p : α → β)
    (h : ∀ k x, p (f k x) = p x) :
    p (Tbl.getD (Tbl.mapv t f) k d) = p (Tbl.getD t k d) := by
  induction t with
  | nil => rfl
  | cons e rest ih =>
    by_cases hk : e.1 = k
    · simp [Tbl.mapv, Tbl.getD, hk, h]
    · simpa [Tbl.mapv, Tbl.getD, hk] using ih

section Steps
variable (s : State) (c ctx : Nat)

theorem setCoreAt_progress {x : Core} (h : x.icount = (s.coreAt c).icount) : (s.setCoreAt c x).progress = s.progress := by
  refine Prod.ext rfl (funext fun d => ?_)
  change ((s.setCoreAt c x).coreAt d).icount = (s.coreAt d).icount
  by_cases hd : c = d
  · subst hd
    rw [coreAt_setCoreAt_same, h]
  · rw [coreAt_setCoreAt_ne _ _ _ hd]

theorem onCore_progress {f : Core → Core} (h : ∀ x, (f x).icount = x.icount) : (s.onCore c f).progress = s.progress :=
  setCoreAt_progress s c (h _)

theorem onHolder_progress {f : Core → Core} (h : ∀ x, (f x).icount = x.icount) : (s.onHolder c ctx f).progress = s.progress := by
  unfold State.onHolder
  split
  · rfl
  · exact onCore_progress s c h

theorem ite_progress {p : Prop} [Decidable p] {t u : State} (ht : t.progress = s.progress) (hu : u.progress = s.progress) :
    (if p then t else u).progress = s.progress := by
  split <;> assumption

theorem onCtx_progress (f : Ctx → Ctx) : (s.onCtx ctx f).progress = s.progress := rfl

theorem onPkg_progress (f : Pkg → Pkg) : (s.onPkg f).progress = s.progress := rfl

theorem launch_progress (i : Instr) : (s.launch i).progress = s.progress := rfl

theorem unpin_progress (ls : List Nat) : (s.unpin ls).progress = s.progress := rfl

/-- A change of every core that leaves its count. -/
theorem mapv_progress {t : State} {f : Nat → Core → Core} (hcur : t.cur = s.cur) (hcores : t.cores = Tbl.mapv s.cores f)
    (hf : ∀ k x, (f k x).icount = x.icount) : t.progress = s.progress := by
  refine Prod.ext hcur (funext fun d => ?_)
  change (Tbl.getD t.cores d {}).icount = _
  rw [hcores]
  exact Tbl.getD_mapv_keeps _ d Core.icount hf

theorem perform_progress (writer : Option Nat) (pa : Nat) (bs : List Byte) :
    (s.perform ctx writer pa bs).progress = s.progress :=
  progress_of_cachesOnly (perform_cachesOnly ..) (cur_of_apart (perform_apart ..))

theorem log_progress (cls code cid die : Nat) (hub : Bool) (addr detail : Nat) :
    (s.log ctx cls code cid die hub addr detail).progress = s.progress := by
  unfold State.log
  dsimp only
  split
  · rfl
  · split <;> split
    · rfl
    · exact perform_progress ..
    · rfl
    · exact perform_progress ..

/-! ## What a kill performs first (R369) -/

theorem applyAt_progress (l : Nat × Nat) (st : ChainStore) (writer : Option Nat) : (s.applyAt l st writer).progress = s.progress := by
  unfold State.applyAt
  dsimp only
  split
  · refine foldl_keeps State.progress (fun s p => ?_) _ _
    refine progress_of_cachesOnly ?_ (cur_of_apart (by simp))
    refine ((fillL2_cachesOnly s p).trans (invalidate_cachesOnly _ p writer)).trans (.trans ?_ (tamper_cachesOnly _ p))
    unfold State.stampFor
    dsimp only
    split <;> split <;> exact .of_same rfl rfl
  · rfl

theorem applyStore_progress (l : Nat × Nat) (st : ChainStore) (writer : Option Nat) :
    (s.applyStore l st writer).progress = s.progress := by
  unfold State.applyStore
  dsimp only
  split <;> exact applyAt_progress s l st writer

theorem landStores_progress : (s.landStores ctx).progress = s.progress :=
  foldl_keeps State.progress (fun s _ => foldl_keeps State.progress (fun s l => applyStore_progress s l _ none) _ s) _ s

theorem landAtomic_progress (r : AtomReq) : (s.landAtomic r).progress = s.progress := by
  unfold State.landAtomic
  split
  · rfl
  · split
    · split
      · exact log_progress ..
      · rfl
    · dsimp only
      split
      · split
        · rfl
        · exact foldl_keeps State.progress (fun s p => perform_progress s _ _ p _) _ s
      · rfl

theorem landReleased_progress : (s.landReleased ctx).progress = s.progress :=
  (foldl_keeps State.progress landAtomic_progress _ _).trans (landStores_progress s ctx)

theorem tell_progress (told : List (Nat × Nat)) (r : UalReq) : (s.tell told r).progress = s.progress :=
  foldl_keeps State.progress (f := fun s p => { s with outs := s.outs ++ [.ual p r] }) (fun _ _ => rfl) _ s

theorem freeChains_progress : (s.freeChains ctx).progress = s.progress := by
  refine foldl_keeps State.progress (fun s e => ?_) _ s
  exact tell_progress ..

theorem keepPosts_progress : (s.keepPosts ctx).progress = s.progress := by
  refine foldl_keeps State.progress (fun s e => ?_) _ s
  exact onCore_progress s e.1 fun _ => rfl

/-! ## The rows and the cores that a kill stops (R326, R369) -/

theorem dropGangs_progress : (s.dropGangs c).progress = s.progress := by
  refine foldl_keeps State.progress (fun s i => ?_) _ s
  dsimp only
  refine ite_progress s (ite_progress s rfl rfl) ((launch_progress ..).trans ?_)
  refine (onCore_progress _ i ?_).trans ((unpin_progress ..).trans (ite_progress s rfl rfl))
  exact fun _ => rfl

theorem endTrail_progress : (s.endTrail c).progress = s.progress := by
  refine foldl_keeps State.progress (fun s' i => onHolder_progress s' i _ fun x => ?_) _ s
  split <;> rfl

theorem freed_icount (x : Core) : (x.freed ctx).icount = x.icount := by
  unfold Core.freed
  dsimp only
  split <;> rfl

theorem kill_progress (reason imm : Nat) : (s.kill ctx reason imm).progress = s.progress := by
  simp only [State.kill, onCtx_progress, log_progress, onPkg_progress]
  refine (mapv_progress ?stopped ?cur ?cores fun _ x => freed_icount ctx x).trans ?_
  case cores => rfl
  case cur => rfl
  refine (foldl_keeps State.progress (fun s c => (endTrail_progress (s.dropGangs c) c).trans (dropGangs_progress s c)) _ _).trans ?_
  exact ((keepPosts_progress _ ctx).trans (freeChains_progress _ ctx)).trans (landReleased_progress s ctx)

/-! ## Taking a trap (R344) -/

theorem sprinkleFail_progress : (s.sprinkleFail c).progress = s.progress := by
  refine (log_progress ..).trans (onCore_progress s c fun x => ?_)
  obtain ⟨r, v, m, ps, h⟩ := closeWindows_eq x
  rw [h]

theorem takeTrap_progress (code : Nat) (pcv : BitVec 52) (val : Word) : (s.takeTrap c code pcv val).progress = s.progress := by
  unfold State.takeTrap
  dsimp only
  split
  · exact sprinkleFail_progress s c
  · split
    · exact kill_progress ..
    · split
      · exact kill_progress ..
      · obtain ⟨r, v, m, ps, h⟩ := closeWindows_eq (s.coreAt c)
        refine setCoreAt_progress s c ?_
        rw [h]
        split <;> rfl

/-- A trap is no retirement. -/
theorem takeTrap_icount (code : Nat) (pcv : BitVec 52) (val : Word) :
    (s.takeTrap s.cur code pcv val).core.icount = s.core.icount := core_icount_of_progress (takeTrap_progress ..)

theorem setCore_icount (x : Core) : (s.setCore x).core.icount = x.icount := by rw [core_setCore]

end Steps

end Sys2Proof.Machine
end

section
/-!
PROOFS. The place of an access: where its checks pass, translation has filled TLBs and pointer caches alone, and the place is as aligned
as the address.
-/
namespace Sys2Proof.Machine

/-! ## What a translation leaves behind (R85) -/

/-- Cores differ in their TLBs alone, and the rest of the state in the translation hardware of the slices. -/
structure Translated (s t : State) : Prop where
  cores : ∀ c, ∃ l, t.coreAt c = { s.coreAt c with l1tlb := l }
  rest : ∃ cs x, t = { s with cores := cs, xl := x }

theorem Translated.refl (s : State) : Translated s s := ⟨fun _ => ⟨_, rfl⟩, _, _, rfl⟩

theorem Translated.trans {s t u : State} (h : Translated s t) (h' : Translated t u) : Translated s u := by
  refine ⟨fun c => ?_, ?_⟩
  · obtain ⟨l, hx⟩ := h.cores c
    obtain ⟨l', hx'⟩ := h'.cores c
    exact ⟨l', by rw [hx', hx]⟩
  · obtain ⟨cs, x, rfl⟩ := h.rest
    obtain ⟨cs', x', rfl⟩ := h'.rest
    exact ⟨cs', x', rfl⟩

section Fields
variable {s t : State} (h : Translated s t)
include h

theorem Translated.cur : t.cur = s.cur := by obtain ⟨_, _, hrest⟩ := h.rest; rw [hrest]
theorem Translated.mem : t.mem = s.mem := by obtain ⟨_, _, hrest⟩ := h.rest; rw [hrest]
theorem Translated.pkg : t.pkg = s.pkg := by obtain ⟨_, _, hrest⟩ := h.rest; rw [hrest]
theorem Translated.dies : t.dies = s.dies := by obtain ⟨_, _, hrest⟩ := h.rest; rw [hrest]
theorem Translated.ctxs : t.ctxs = s.ctxs := by obtain ⟨_, _, hrest⟩ := h.rest; rw [hrest]

/-- The current core after a translation. -/
theorem Translated.core : ∃ l, t.core = { s.core with l1tlb := l } := by
  rw [State.core, h.cur]
  exact h.cores s.cur

end Fields

section Translation
variable (s : State) (c ctx va : Nat)

theorem setXl_translated (x : Tbl Xlate) : Translated s { s with xl := x } := ⟨fun _ => ⟨_, rfl⟩, _, _, rfl⟩

theorem fillTlb_translated (l : Leaf) : Translated s (s.fillTlb c l) := by
  refine ⟨fun d => ?_, _, _, rfl⟩
  unfold State.fillTlb
  by_cases h : c = d
  · subst h
    rw [coreAt_onCore_same]
    exact ⟨_, rfl⟩
  · rw [coreAt_onCore_ne _ _ _ h]
    exact ⟨_, rfl⟩

theorem walkAt_translated (k : Nat) : Translated s (walkAt s k ctx va).2 := by
  unfold walkAt
  split
  · exact .refl s
  · exact setXl_translated s _

theorem lookup_translated : Translated s (lookup s c ctx va).2 := by
  unfold lookup
  split
  · exact .refl s
  · split
    · exact .refl s
    · split
      · exact fillTlb_translated ..
      · have hwalk := walkAt_translated s ctx va (xlKey (dieOf c) ctx va)
        split
        next l e t heq =>
          rw [heq] at hwalk
          exact hwalk.trans ((setXl_translated t _).trans (fillTlb_translated ..))
        next w t _ heq =>
          rw [heq] at hwalk
          exact hwalk

theorem checkPaged_state (acc : Acc) (engine : Bool) : (checkPaged s c ctx va acc engine).2 = (lookup s c ctx va).2 := by
  unfold checkPaged
  split
  all_goals rename_i heq
  all_goals rw [heq]
  dsimp only
  repeat' split
  all_goals rfl

/-- A paged access that passes its checks is at the place that a leaf gives. -/
theorem checkPaged_place {acc : Acc} {engine : Bool} {pl : Place} (h : (checkPaged s c ctx va acc engine).1 = .ok pl) :
    ∃ l, pl = leafPlace (lookup s c ctx va).2 l va := by
  unfold checkPaged at h
  split at h
  case h_4 l _ t heq =>
    refine ⟨l, ?_⟩
    rw [heq]
    dsimp only at h
    repeat' split at h
    all_goals cases h
    rfl
  all_goals cases h

end Translation

/-! ## The place of an access (R58, R65, R248) -/

section Alignment
variable {size va : Nat}

/-- A power of two that divides a number divides its remainder by another one. -/
theorem dvd_mod_two_pow {j : Nat} (k : Nat) (h : 2 ^ j ∣ va) : 2 ^ j ∣ va % 2 ^ k := by
  rcases Nat.le_total j k with hjk | hkj
  · exact (Nat.dvd_mod_iff (Nat.pow_dvd_pow 2 hjk)).mpr h
  · rw [Nat.mod_eq_zero_of_dvd ((Nat.pow_dvd_pow 2 hkj).trans h)]
    exact Nat.dvd_zero _

/-- A place in memory is at a multiple of a size. -/
def Place.Aligned (pl : Place) (size : Nat) : Prop := ∀ pa, pl = .mem pa → size ∣ pa

variable {j : Nat} (hj : j ≤ 6) (h : 2 ^ j ∣ va)
include hj h

theorem leafPlace_aligned (s : State) (l : Leaf) : (leafPlace s l va).Aligned (2 ^ j) := by
  have hsize : 2 ^ j ∣ 64 := Nat.pow_dvd_pow 2 hj
  intro pa hpa
  unfold leafPlace at hpa
  dsimp only at hpa
  split at hpa
  · cases hpa
    exact Nat.dvd_add (hsize.trans (by unfold leafFrame; omega)) (dvd_mod_two_pow _ h)
  · cases hpa
    refine Nat.dvd_add (hsize.trans ?_) (dvd_mod_two_pow 12 h)
    unfold diePa paLocal leafFrame hbmDie
    omega
  · cases hpa

theorem checkWindow_aligned {s : State} {c ctx : Nat} {pl : Place} (hok : checkWindow s c ctx va = .ok pl) : pl.Aligned (2 ^ j) := by
  have hsize : 2 ^ j ∣ 64 := Nat.pow_dvd_pow 2 hj
  have hstore : ∀ d, 2 ^ j ∣ lsPa s d (bits va 17 0) := by
    intro d
    refine Nat.dvd_add (hsize.trans ?_) ?_
    · unfold lsRow lsSize
      omega
    · simpa [bits] using dvd_mod_two_pow 18 h
  intro pa hpa
  subst hpa
  unfold checkWindow at hok
  repeat' split at hok
  all_goals cases hok
  · exact hstore _
  · exact hstore _

end Alignment

section Resolve
variable {s t : State} {va size : Nat} {acc : Acc} {pl : Place}

/-- An access whose checks pass leaves a translation behind, and its place is as aligned as its size. -/
theorem resolve_passes {j : Nat} (hj : j ≤ 6) (h : resolve va (2 ^ j) acc s = .ok (pl, t)) :
    Translated s t ∧ pl.Aligned (2 ^ j) := by
  rw [resolve, resolveFor, bind_ok (get_at s)] at h
  dsimp only at h
  split at h
  · cases h
    exact ⟨.refl s, fun pa hpa => by cases hpa; exact Nat.dvd_zero _⟩
  split at h
  · cases h
  split at h
  · cases h
  split at h
  · cases h
  next hmod =>
    have hdvd : 2 ^ j ∣ va := Nat.dvd_of_mod_eq_zero (not_not.mp hmod)
    split at h
    · cases hok : checkWindow s s.cur s.ctxNo va with
      | ok q =>
        rw [hok] at h
        cases h
        exact ⟨.refl s, checkWindow_aligned hj hdvd hok⟩
      | _ => rw [hok] at h; cases h
    split at h
    · cases h
    have hstate := checkPaged_state s s.cur s.ctxNo va acc false
    have hlookup := lookup_translated s s.cur s.ctxNo va
    have hplace := fun pl => checkPaged_place s s.cur s.ctxNo va (acc := acc) (engine := false) (pl := pl)
    rcases hchecked : checkPaged s s.cur s.ctxNo va acc false with ⟨r, u⟩
    rw [hchecked] at hstate hplace
    rw [← hstate] at hlookup hplace
    simp only [Bool.not_true, hchecked] at h
    cases r with
    | ok q =>
      rw [bind_ok (set_at ..)] at h
      obtain ⟨l, hl⟩ := hplace q rfl
      cases hlost : chainLost u q with
      | some ch =>
        simp only [hlost] at h
        cases h
      | none =>
        simp only [hlost] at h
        cases h
        exact ⟨hlookup, hl ▸ leafPlace_aligned hj hdvd _ l⟩
    | _ => cases h

end Resolve

end Sys2Proof.Machine
end

section
/-!
PROOFS. Stores of an irrevocable activation to the own package's memory: each lies in one line, takes effect at once, and writes its
bytes where the redirection of local stores gives them.
-/
namespace Sys2Proof.Machine

/-! ## Lines of the physical map (R55, R251) -/

/-- An address is its line and its offset there. -/
theorem lineOf_add_mod (pa : Nat) : lineOf pa + pa % 64 = pa := by
  unfold lineOf
  omega

section Line
variable {l k : Nat} (hl : l % 64 = 0) (hk : k < 64)
include hl hk

theorem paPkg_inLine : paPkg (l + k) = paPkg l := by
  unfold paPkg
  omega

theorem paLocal_inLine : paLocal (l + k) = paLocal l + k := by
  unfold paLocal
  omega

omit hk in
theorem paLocal_line_mod : paLocal l % 64 = 0 := by
  unfold paLocal
  omega

theorem rowOf_inLine : rowOf (l + k) = rowOf l := by
  have hline := paLocal_line_mod hl
  have hbelow : ∀ n, (paLocal l + k < 64 * n) = (paLocal l < 64 * n) := fun n => by
    rw [eq_iff_iff]
    omega
  simp only [rowOf, paLocal_inLine hl hk]
  rw [show 0xC000000000 = 64 * 0x300000000 from rfl, show 0x10000000000 = 64 * 0x400000000 from rfl,
    show 0x10040000000 = 64 * 0x401000000 from rfl, show 0x18000000000 = 64 * 0x600000000 from rfl,
    show 0x20000000000 = 64 * 0x800000000 from rfl]
  simp only [hbelow]

theorem hbmDieOf_inLine : hbmDieOf (l + k) = hbmDieOf l := by
  have hline := paLocal_line_mod hl
  unfold hbmDieOf
  rw [paLocal_inLine hl hk]
  unfold hbmDie
  omega

/-- Within a line the bytes of an access act at addresses that follow one another. -/
theorem lsRedirect_inLine (s : State) (ctx : Nat) : lsRedirect s ctx (l + k) = lsRedirect s ctx l + k := by
  have hline := paLocal_line_mod hl
  simp only [lsRedirect, rowOf_inLine hl hk, paPkg_inLine hl hk]
  split
  · have howner : lsCore (l + k) = lsCore l := by
      unfold lsCore
      rw [paLocal_inLine hl hk]
      unfold lsRow lsSize
      omega
    rw [howner]
    split
    · rfl
    · rw [paLocal_inLine hl hk, imagePa, imagePa, lsSize, lsRow]
      next hrow _ =>
        have hstore : 0x10000000000 ≤ paLocal l := by
          have hls : rowOf l = .localStore := by simpa using (Bool.and_eq_true_iff.mp hrow).1
          unfold rowOf at hls
          dsimp only at hls
          repeat' split at hls
          all_goals cases hls
          omega
        omega
  · rfl

omit hk in
theorem lsRedirect_line_mod (s : State) (ctx : Nat) : lsRedirect s ctx l % 64 = 0 := by
  have hline := paLocal_line_mod hl
  unfold lsRedirect
  dsimp only
  split
  · split
    · exact hl
    · rw [imagePa, lsSize, lsRow]
      omega
  · exact hl

end Line

/-- The place of a byte lies as far behind that of its line as the byte behind the line. -/
theorem lsRedirect_of_line (s : State) (ctx : Nat) {pa k : Nat} (h : pa % 64 + k < 64) :
    lsRedirect s ctx (pa + k) = lsRedirect s ctx (lineOf pa) + (pa % 64 + k) := by
  rw [← lsRedirect_inLine (by unfold lineOf; omega) h s ctx, ← Nat.add_assoc, lineOf_add_mod]

/-! ## What a store leaves (R249, R275) -/

/-- Memory after writes of bytes at their addresses. -/
def Mem.writes (m : Mem) (cs : List (Nat × Byte)) : Mem := cs.foldl (fun m c => m.write c.1 c.2) m

theorem Mem.writes_append (m : Mem) (cs ds : List (Nat × Byte)) : m.writes (cs ++ ds) = (m.writes cs).writes ds :=
  List.foldl_append

/-- Cells of memory have been written, and caches, monitors, counts and the marks of memory have followed. -/
structure Stored (s t : State) (cs : List (Nat × Byte)) : Prop where
  caches : CachesOnly s t
  apart : t.apart = s.apart
  mem : t.mem = s.mem.writes cs

theorem Stored.refl (s : State) : Stored s s [] := ⟨.refl s, rfl, rfl⟩

theorem Stored.trans {s t u : State} {cs ds : List (Nat × Byte)} (h : Stored s t cs) (h' : Stored t u ds) : Stored s u (cs ++ ds) :=
  ⟨h.caches.trans h'.caches, h'.apart.trans h.apart, by rw [h'.mem, h.mem, Mem.writes_append]⟩

/-- The cells that a store of bytes by offset from an address writes. -/
def cellsAt (s : State) (ctx pa : Nat) (bs : List (Nat × Byte)) : List (Nat × Byte) :=
  bs.map fun b => (lsRedirect s ctx (pa + b.1), b.2)

/-- An address of the own package whose memory serves: no register of the device, and on no lost die. -/
structure Plain (s : State) (pa : Nat) : Prop where
  own : paPkg pa = s.pkg.num
  kept : (s.dieAt (hbmDieOf pa)).lost = false
  memory : rowOf pa ≠ .device

section Frame
variable {s t : State} {cs : List (Nat × Byte)} (h : Stored s t cs)
include h

theorem Stored.cur : t.cur = s.cur := cur_of_apart h.apart

theorem Stored.core : ∃ a i m, t.core = { s.core with l1 := a, l1i := i, lmon := m } := by
  rw [State.core, h.cur]
  exact h.caches.cores s.cur

theorem Stored.progress : t.progress = s.progress := progress_of_cachesOnly h.caches h.cur

theorem Stored.ctxNo : t.ctxNo = s.ctxNo := by
  obtain ⟨a, i, m, hcore⟩ := h.core
  rw [State.ctxNo, hcore]
  rfl

theorem Stored.lsRedirect (ctx pa : Nat) : Machine.lsRedirect t ctx pa = Machine.lsRedirect s ctx pa := by
  refine lsRedirect_congr ctx pa (pkgNum_of_apart h.apart) (fun k => ?_) ?_
  · obtain ⟨a, i, m, hcore⟩ := h.caches.cores k
    rw [hcore]
  · have hsave : (t.apart.ctxAt ctx).psave = (s.apart.ctxAt ctx).psave := by rw [h.apart]
    simp only [State.apart, State.ctxAt] at hsave
    rwa [Tbl.getD_mapv _ _ rfl, Tbl.getD_mapv _ _ rfl] at hsave

theorem Stored.plain {pa : Nat} (hp : Plain s pa) : Plain t pa := by
  have hdies : t.apart.dies = s.apart.dies := by rw [h.apart]
  refine ⟨hp.own.trans (pkgNum_of_apart h.apart).symm, ?_, hp.memory⟩
  have hkept := hp.kept
  rw [State.dieAt] at hkept ⊢
  rwa [show t.dies = s.dies from hdies]

end Frame

theorem writeCells_stored (s : State) (cs : List (Nat × Byte)) : Stored s (s.writeCells cs) cs := ⟨.of_same rfl rfl, rfl, rfl⟩

theorem lineChanged_stored (s : State) (ctx line : Nat) (w : Option Nat) (whole : Bool) (cs : List (Nat × Byte)) :
    Stored s ((s.writeCells cs).lineChanged ctx w line whole) cs := by
  have hcells := writeCells_stored s cs
  exact ⟨hcells.caches.trans (lineChanged_cachesOnly _ ctx line w whole), (lineChanged_apart _ ctx line w whole).trans hcells.apart,
    (lineChanged_mem _ ctx w line whole).trans hcells.mem⟩

section Write
variable {s : State} {pa : Nat}

theorem Plain.line (h : Plain s pa) : Plain s (lineOf pa) := by
  have hl : lineOf pa % 64 = 0 := by unfold lineOf; omega
  have hk : pa % 64 < 64 := Nat.mod_lt _ (by decide)
  obtain ⟨hown, hkept, hrow⟩ := h
  rw [← lineOf_add_mod pa] at hown hkept hrow
  rw [paPkg_inLine hl hk] at hown
  rw [hbmDieOf_inLine hl hk] at hkept
  rw [rowOf_inLine hl hk] at hrow
  exact ⟨hown, hkept, hrow⟩

theorem askWrite_own (c ctx va : Nat) (bs : List Byte) (h : paPkg pa = s.pkg.num) : s.askWrite c ctx pa va bs = s := if_pos h

/-- The bytes of an item of a line take effect in memory. -/
theorem storeBytes_stored (c ctx va : Nat) {bs : List (Nat × Byte)} (h : Plain s pa) (hin : ∀ b ∈ bs, pa % 64 + b.1 < 64) :
    Stored s (s.storeBytes c ctx (.mem (lineOf pa)) va (inLineOf (.mem pa) bs)) (cellsAt s ctx pa bs) := by
  obtain ⟨hown, hkept, hrow⟩ := h.line
  have hasks : ∀ cs : List (Nat × Byte), (∀ b ∈ cs, b.1 < 64) →
      cs.foldl (fun s b => s.askWrite c ctx (lineOf pa + b.1) (va + b.1) [b.2]) s = s := by
    intro cs hcs
    induction cs with
    | nil => rfl
    | cons b rest ih =>
      have hpkg : paPkg (lineOf pa + b.1) = s.pkg.num :=
        (paPkg_inLine (by unfold lineOf; omega) (hcs b List.mem_cons_self)).trans hown
      rw [List.foldl_cons, askWrite_own c ctx _ _ hpkg, ih fun b hb => hcs b (List.mem_cons_of_mem _ hb)]
  have hserves : (refuses s (paPkg (lineOf pa)) || (ownHbm s (lineOf pa) && (s.dieAt (hbmDieOf (lineOf pa))).lost)) = false := by
    simp [refuses, hown, hkept]
  have hcells : (inLineOf (.mem pa) bs).map (fun b => (lsRedirect s ctx (lineOf pa) + b.1, b.2)) = cellsAt s ctx pa bs := by
    rw [inLineOf, List.map_map]
    exact List.map_congr_left fun b hb => by
      rw [lsRedirect_of_line s ctx (hin b hb)]
      rfl
  have hoffsets : ∀ b ∈ inLineOf (.mem pa) bs, b.1 < 64 := by
    intro b hb
    obtain ⟨a, ha, rfl⟩ := List.mem_map.mp hb
    exact hin a ha
  rw [State.storeBytes, hserves, if_neg Bool.false_ne_true, if_neg hrow]
  dsimp only
  rw [hasks _ hoffsets, State.performLine, hcells]
  exact lineChanged_stored ..

end Write

/-! ## Stores at the gate of an irrevocable activation (R249) -/

/-- The activation performs its stores at issue, and discards no other by them. -/
structure Performs (s : State) : Prop where
  irrevocable : s.core.rev = false
  empty : s.core.cbuf = []
  unordered : s.core.trig.ord = false

theorem Stored.performs {s t : State} {cs : List (Nat × Byte)} (h : Stored s t cs) (hp : Performs s) : Performs t := by
  obtain ⟨a, i, m, hcore⟩ := h.core
  obtain ⟨hrev, hbuf, hord⟩ := hp
  exact ⟨by rwa [hcore], by rwa [hcore], by rwa [hcore]⟩

/-- A part of an instruction stores cells, or ends it early without retirement. -/
def StoresOrEnds (m : M Unit) (s : State) (cs : List (Nat × Byte)) : Prop :=
  (∃ t, m s = .ok ((), t) ∧ Stored s t cs) ∨ ∃ t, m s = .error t ∧ t.core.icount = s.core.icount

theorem stall_ends (s : State) (cs : List (Nat × Byte)) : StoresOrEnds stall s cs :=
  .inr ⟨_, stall_at, setCore_icount s _⟩

section Empty
variable {s : State} (hrev : s.core.rev = false) (hbuf : s.core.cbuf = [])
include hbuf

/-- With nothing held there is nothing to release. -/
theorem drain_empty : drain s = .ok ((), s) := by
  rw [drain, bind_ok (get_at s)]
  exact congrFun (if_pos hbuf) s

include hrev

theorem becomeIrrevocable_irrevocable : becomeIrrevocable s = .ok ((), s) := by
  rw [becomeIrrevocable, bind_ok (get_at s)]
  exact (congrFun (if_neg (by rw [hrev]; exact Bool.false_ne_true)) s).trans (drain_empty hbuf)

/-- In an irrevocable activation with nothing held the items of a group are performed at once. -/
theorem asGroup_eq_allAtOnce (m : M Unit) : asGroup m s = allAtOnce m s := by
  have honly : ∀ b : Bool, onlyIf (!s.core.rev || b) becomeIrrevocable s = .ok ((), s) := by
    intro b
    rw [hrev]
    exact becomeIrrevocable_irrevocable hrev hbuf
  rw [asGroup, bind_ok (get_at s)]
  exact bind_ok (honly _)

end Empty

section Gate
variable {s : State} (hs : Performs s) {pa va : Nat} {bs : List (Nat × Byte)} {rel : Bool}
include hs

omit hs in
theorem conflict_unordered {t : State} {m : Msg} {ls : Option (List Nat)} (h : m.ord = false) : t.conflict m ls = t := by
  simp [State.conflict, h]

/-- A store item is performed, or waits. -/
theorem performItem_store (l : Place) (k : List Nat) : performItem s s.cur s.core.trig (.store l va bs rel k) = none ∨
    performItem s s.cur s.core.trig (.store l va bs rel k) = some (s.storeBytes s.cur s.ctxNo l va bs) := by
  have hfor : performFor s s.cur s.core.trig (.store l va bs rel k) = performGated s s.cur (.store l va bs rel k) := if_pos rfl
  rw [performItem, hfor]
  simp only [headPlace, Option.map_none, Option.getD_none, Bool.false_eq_true, if_false, performGated]
  split
  · exact .inl rfl
  · exact .inr (congrArg some (conflict_unordered hs.unordered))

theorem gate_store (h : Plain s pa) (hin : ∀ b ∈ bs, pa % 64 + b.1 < 64) :
    StoresOrEnds (gate (.store (.mem (lineOf pa)) va (inLineOf (.mem pa) bs) rel)) s (cellsAt s s.ctxNo pa bs) := by
  obtain ⟨k, hk⟩ := grouped_store s.core (.mem (lineOf pa)) va (inLineOf (.mem pa) bs) rel
  have hgate : gate (.store (.mem (lineOf pa)) va (inLineOf (.mem pa) bs) rel) s =
      (if mxUnread s s.cur (.mem (lineOf pa)) then stall
        else performNow (.store (.mem (lineOf pa)) va (inLineOf (.mem pa) bs) rel k)) s := by
    have hdrop : dropAtomicLine (.store (.mem (lineOf pa)) va (inLineOf (.mem pa) bs) rel) s = .ok ((), s) := rfl
    rw [gate, bind_ok hdrop, bind_ok (get_at s), hk]
    simp only [mustWait, hs.irrevocable, Bool.false_eq_true, if_false]
    rfl
  unfold StoresOrEnds
  rw [hgate]
  split
  · exact stall_ends s _
  · rw [performNow, bind_ok (drain_empty hs.empty), bind_ok (get_at s)]
    rcases performItem_store hs (rel := rel) (va := va) (bs := inLineOf (.mem pa) bs) (.mem (lineOf pa)) k with hwaits | hdone
    · rw [hwaits]
      exact stall_ends s _
    · rw [hdone]
      exact .inl ⟨_, rfl, storeBytes_stored s.cur s.ctxNo va h hin⟩

/-- A store within a line of the own package's memory. -/
theorem storeGated_plain (h : Plain s pa) (hin : ∀ b ∈ bs, pa % 64 + b.1 < 64) :
    StoresOrEnds (storeGated va (.mem pa) bs rel) s (cellsAt s s.ctxNo pa bs) := by
  by_cases hne : bs = []
  · subst hne
    exact .inl ⟨s, rfl, .refl s⟩
  · unfold StoresOrEnds
    rw [storeGated_within (pl := .mem pa) hne hin]
    exact gate_store hs h hin

end Gate

/-- Stores one after another, each at its own place. -/
theorem each_stores {α : Type} {f : α → M Unit} {cells : α → List (Nat × Byte)} {xs : List α} {s : State}
    (hf : ∀ x ∈ xs, ∀ t ds, Stored s t ds → StoresOrEnds (f x) t (cells x)) : StoresOrEnds (each xs f) s (xs.flatMap cells) := by
  suffices h : ∀ t ds, Stored s t ds → StoresOrEnds (each xs f) t (xs.flatMap cells) from h s [] (.refl s)
  induction xs with
  | nil => exact fun t _ _ => .inl ⟨t, rfl, .refl t⟩
  | cons x rest ih =>
    intro t ds ht
    rcases hf x List.mem_cons_self t ds ht with ⟨u, hx, hu⟩ | ⟨u, hx, hu⟩
    · unfold StoresOrEnds
      rw [each, bind_ok hx]
      rcases ih (fun y hy => hf y (List.mem_cons_of_mem x hy)) u _ (ht.trans hu) with ⟨v, hrest, hv⟩ | ⟨v, hrest, hv⟩
      · exact .inl ⟨v, hrest, hu.trans hv⟩
      · exact .inr ⟨v, hrest, hv.trans (core_icount_of_progress hu.progress)⟩
    · unfold StoresOrEnds
      rw [each, bind_error hx]
      exact .inr ⟨u, rfl, hu⟩

end Sys2Proof.Machine
end

section
/-!
PROOFS. What a store of an irrevocable activation changes in memory: the bytes at the places of its address alone.
-/
namespace Sys2Proof.Machine

/-! ## What a store rests on -/

/-- States in which a store acts alike: one activation at one point, and the same memory and map. -/
structure SameStoring (s t : State) : Prop where
  num : t.pkg.num = s.pkg.num
  dies : t.dies = s.dies
  mem : t.mem = s.mem
  ctxNo : t.ctxNo = s.ctxNo
  redirect : ∀ ctx pa, lsRedirect t ctx pa = lsRedirect s ctx pa
  performs : Performs s → Performs t
  icount : t.core.icount = s.core.icount

theorem SameStoring.trans {s t u : State} (h : SameStoring s t) (h' : SameStoring t u) : SameStoring s u :=
  ⟨h'.num.trans h.num, h'.dies.trans h.dies, h'.mem.trans h.mem, h'.ctxNo.trans h.ctxNo,
    fun ctx pa => (h'.redirect ctx pa).trans (h.redirect ctx pa), fun hp => h'.performs (h.performs hp), h'.icount.trans h.icount⟩

theorem SameStoring.of_translated {s t : State} (h : Translated s t) : SameStoring s t := by
  obtain ⟨l, hcore⟩ := h.core
  refine ⟨by rw [h.pkg], h.dies, h.mem, by rw [State.ctxNo, hcore]; rfl, fun ctx pa => ?_, fun ⟨hrev, hbuf, hord⟩ => ?_,
    by rw [hcore]⟩
  · refine lsRedirect_congr ctx pa (by rw [h.pkg]) (fun k => ?_) (by rw [State.ctxAt, h.ctxs]; rfl)
    obtain ⟨l', hk⟩ := h.cores k
    rw [hk]
  · exact ⟨by rwa [hcore], by rwa [hcore], by rwa [hcore]⟩

theorem SameStoring.of_setCore {s : State} {x : Core} (hctx : x.ctx = s.core.ctx) (hrev : x.rev = s.core.rev)
    (hbuf : x.cbuf = s.core.cbuf) (htrig : x.trig = s.core.trig) (hcount : x.icount = s.core.icount) :
    SameStoring s (s.setCore x) := by
  refine ⟨rfl, rfl, rfl, ?_, fun ctx pa => ?_, fun ⟨h₁, h₂, h₃⟩ => ?_, ?_⟩
  · rw [State.ctxNo, core_setCore, hctx]
    rfl
  · refine lsRedirect_congr ctx pa rfl (fun k => ?_) rfl
    by_cases hk : s.cur = k
    · subst hk
      exact (congrArg Core.ctx (coreAt_setCoreAt_same ..)).trans hctx
    · exact congrArg Core.ctx (coreAt_setCoreAt_ne _ _ _ hk)
  · exact ⟨by rwa [core_setCore, hrev], by rwa [core_setCore, hbuf], by rwa [core_setCore, htrig]⟩
  · rw [core_setCore, hcount]

theorem SameStoring.plain {s t : State} (h : SameStoring s t) {pa : Nat} (hp : Plain s pa) : Plain t pa :=
  ⟨hp.own.trans h.num.symm, by rw [State.dieAt, h.dies]; exact hp.kept, hp.memory⟩

theorem SameStoring.cells {s t : State} (h : SameStoring s t) (pa : Nat) (bs : List (Nat × Byte)) :
    cellsAt t t.ctxNo pa bs = cellsAt s s.ctxNo pa bs := by
  simp only [cellsAt, h.ctxNo, h.redirect]

/-! ## The cells of a store in memory -/

/-- The addresses of the bytes of a line are distinct where their offsets are. -/
theorem cellsAt_nodup (s : State) (ctx : Nat) {pa : Nat} {bs : List (Nat × Byte)} (hin : ∀ b ∈ bs, pa % 64 + b.1 < 64)
    (hbs : (bs.map Prod.fst).Nodup) : ((cellsAt s ctx pa bs).map Prod.fst).Nodup := by
  have haddr : (cellsAt s ctx pa bs).map Prod.fst =
      (bs.map Prod.fst).map fun k => lsRedirect s ctx (lineOf pa) + (pa % 64 + k) := by
    rw [cellsAt, List.map_map, List.map_map]
    exact List.map_congr_left fun b hb => lsRedirect_of_line s ctx (hin b hb)
  rw [haddr]
  exact hbs.map fun a b hab => by omega

theorem writes_read_cell {m : Mem} {cs : List (Nat × Byte)} (hcs : (cs.map Prod.fst).Nodup) {c : Nat × Byte} (hc : c ∈ cs) :
    (m.writes cs).read c.1 = c.2 := Mem.read_foldl_write_mem Prod.fst Prod.snd m hcs hc

theorem writes_read_other {m : Mem} {cs : List (Nat × Byte)} {p : Nat} (h : ∀ c ∈ cs, c.1 ≠ p) : (m.writes cs).read p = m.read p :=
  Mem.read_foldl_write_ne Prod.fst Prod.snd cs m h

/-- A number below the length numbers a byte, and no other does. -/
theorem mem_numbered {bs : List Byte} {b : Nat × Byte} : b ∈ numbered bs ↔ b.1 < bs.length ∧ b.2 = bs.getD b.1 0 := by
  obtain ⟨k, x⟩ := b
  simp only [numbered, List.mem_mapIdx, Prod.mk.injEq]
  constructor
  · rintro ⟨i, hi, rfl, rfl⟩
    exact ⟨hi, by simp [hi]⟩
  · rintro ⟨hk, rfl⟩
    exact ⟨k, hk, rfl, by simp [hk]⟩

theorem numbered_nodup (bs : List Byte) : ((numbered bs).map Prod.fst).Nodup := by
  have hoffsets : (numbered bs).map Prod.fst = List.range bs.length := by
    refine List.ext_getElem (by simp [numbered]) fun i h _ => by simp [numbered]
  rw [hoffsets]
  exact List.nodup_range

/-! ## ld and st forms of one line (R252, R254) -/

/-- The shape of a store of one line: its access, its bytes at the gate, and retirement. -/
def storing (srcs : List SReg) (reg : Core → Word) (off : BitVec 6) (size : Nat) (bytes : Core → List (Nat × Byte)) (rel : Bool) :
    M Unit :=
  accessed none srcs reg off size .write fun c va pl => do
    storeGated va pl (bytes c) rel
    finish srcs

/-- A place aligned to a size of a power of two up to a line's has room for it in its line. -/
theorem aligned_fits {j pa : Nat} (hj : j ≤ 6) (h : 2 ^ j ∣ pa) : pa % 64 + 2 ^ j ≤ 64 := by
  have hmod : 2 ^ j ∣ pa % 64 := dvd_mod_two_pow 6 h
  have hroom : 2 ^ j ∣ 64 - pa % 64 := Nat.dvd_sub (Nat.pow_dvd_pow 2 hj) hmod
  have := Nat.le_of_dvd (by omega) hroom
  omega

section Storing
variable {s t u : State} {i : Instr} {srcs : List SReg} {reg : Core → Word} {off : BitVec 6} {j pa : Nat}
  {bytes : Core → List (Nat × Byte)} {rel : Bool}

/-- What ends early does not retire. -/
theorem not_retired {x : State} (hrun : run m x = .next t) (herr : m x = .error v) (hcount : t.core.icount = s.core.icount + 1)
    (h : v.core.icount = s.core.icount) : False := by
  rw [run_error herr] at hrun
  cases hrun
  omega

theorem storing_writes (hi : exec i s = run (storing srcs reg off (2 ^ j) bytes rel) s) (hj : j ≤ 6) (hports : portsOf srcs = [])
    (hs : Performs s) (ht : exec i s = .next t) (hcount : t.core.icount = s.core.icount + 1)
    (hplace : Gives (resolve (lAddr (reg s.core) off (2 ^ j)).toNat (2 ^ j) .write) s (.mem pa) u) (hp : Plain s pa)
    (hb : ∀ b ∈ bytes s.core, b.1 < 2 ^ j) :
    (∀ b ∈ bytes s.core, pa % 64 + b.1 < 64) ∧ t.mem = s.mem.writes (cellsAt s s.ctxNo pa (bytes s.core)) := by
  obtain ⟨htrans, halign⟩ := resolve_passes hj hplace
  have hin : ∀ b ∈ bytes s.core, pa % 64 + b.1 < 64 := fun b hbs => by
    have := aligned_fits hj (halign pa rfl)
    have := hb b hbs
    omega
  refine ⟨hin, ?_⟩
  have hsame := SameStoring.of_translated htrans
  have hopen : openPorts none srcs s = .ok ((), s) := openPorts_none s hports
  rw [hi] at ht
  by_cases haddr : inSpace (lAddr (reg s.core) off (2 ^ j))
  · have hstart : storing srcs reg off (2 ^ j) bytes rel s =
        (storeGated (lAddr (reg s.core) off (2 ^ j)).toNat (.mem pa) (bytes s.core) rel >>= fun _ => finish srcs) u := by
      rw [storing, accessed, bind_ok hopen, bind_ok (core_at s), bind_ok (addrL_passes haddr), bind_ok hplace]
    rcases storeGated_plain (hsame.performs hs) (hsame.plain hp) hin (va := (lAddr (reg s.core) off (2 ^ j)).toNat) (rel := rel)
      with ⟨v, hgate, hv⟩ | ⟨v, hgate, hv⟩
    · have hend : run (storing srcs reg off (2 ^ j) bytes rel) s = .next (v.done srcs) := by
        refine run_ok ?_
        rw [hstart, bind_ok hgate, finish_at]
      rw [hend] at ht
      cases ht
      exact hv.mem.trans (by rw [hsame.mem, hsame.cells])
    · exact (not_retired ht (hstart.trans (bind_error hgate)) hcount (hv.trans hsame.icount)).elim
  · refine (not_retired ht ?_ hcount (takeTrap_icount s 0x07 s.core.pc (reg s.core))).elim
    rw [storing, accessed, bind_ok hopen, bind_ok (core_at s)]
    exact bind_error (addrL_traps haddr)

/-- The bytes of a store of one line stand at their places, and no other byte of memory has changed. -/
theorem storing_frame (hi : exec i s = run (storing srcs reg off (2 ^ j) bytes rel) s) (hj : j ≤ 6) (hports : portsOf srcs = [])
    (hs : Performs s) (ht : exec i s = .next t) (hcount : t.core.icount = s.core.icount + 1)
    (hplace : Gives (resolve (lAddr (reg s.core) off (2 ^ j)).toNat (2 ^ j) .write) s (.mem pa) u) (hp : Plain s pa)
    (hb : ∀ b ∈ bytes s.core, b.1 < 2 ^ j) (hbs : ((bytes s.core).map Prod.fst).Nodup) :
    (∀ b ∈ bytes s.core, t.mem.read (lsRedirect s s.ctxNo (pa + b.1)) = b.2) ∧
      ∀ p, (∀ b ∈ bytes s.core, p ≠ lsRedirect s s.ctxNo (pa + b.1)) → t.mem.read p = s.mem.read p := by
  obtain ⟨hin, hmem⟩ := storing_writes hi hj hports hs ht hcount hplace hp hb
  rw [hmem]
  refine ⟨fun b hbm => ?_, fun p hne => writes_read_other fun c hc => ?_⟩
  · exact writes_read_cell (c := (_, b.2)) (cellsAt_nodup s s.ctxNo hin hbs) (List.mem_map_of_mem hbm)
  · obtain ⟨b, hbm, rfl⟩ := List.mem_map.mp hc
    exact (hne b hbm).symm

end Storing

/-! ## st.vt (R253, R254) -/

/-- The items of an instruction as one group in an irrevocable activation. -/
theorem asGroup_stores {m : M Unit} {s : State} {cs : List (Nat × Byte)} (hs : Performs s)
    (hm : ∀ n, StoresOrEnds m (s.setCore { s.core with group := some n }) cs) :
    (∃ t, asGroup m s = .ok ((), t) ∧ t.mem = s.mem.writes cs) ∨ ∃ t, asGroup m s = .error t ∧ t.core.icount = s.core.icount := by
  rw [asGroup_eq_allAtOnce hs.irrevocable hs.empty, allAtOnce]
  rcases hm s.core.chainOut.length with ⟨t, ht, hstored⟩ | ⟨t, ht, hends⟩
  · rw [ht]
    exact .inl ⟨_, rfl, hstored.mem⟩
  · rw [ht]
    rw [core_setCore] at hends
    dsimp only
    split
    · exact .inr ⟨_, rfl, setCore_icount _ _⟩
    · exact .inr ⟨_, rfl, (setCore_icount _ _).trans hends⟩

section Typed
variable {s t u : State} {p : Word} {vr : VReg} {rb : SReg} {off : BitVec 6} {span va align : Nat} {ps : List (Nat × Nat × Place)}

/-- The span of a typed access: a slot, or a power of two up to a line. -/
theorem typedSpan_cases {store : Bool} (h : Gives (typedSpan p vr store) s span t) : span = 176 ∨ ∃ j ≤ 6, span = 2 ^ j := by
  unfold Gives typedSpan at h
  split at h
  · cases h
  next hok =>
    cases h
    have hdevice : fmtOf p ≠ 0x08 := by
      intro heq
      simp [heq] at hok
    unfold spanOf
    split
    case h_9 heq => exact absurd heq hdevice
    case h_14 => exact .inl rfl
    case h_3 => exact .inr ⟨5, by decide, rfl⟩
    case h_4 => exact .inr ⟨5, by decide, rfl⟩
    case h_6 => exact .inr ⟨4, by decide, rfl⟩
    case h_7 => exact .inr ⟨4, by decide, rfl⟩
    case h_8 => exact .inr ⟨3, by decide, rfl⟩
    case h_10 => exact .inr ⟨4, by decide, rfl⟩
    case h_13 => exact .inr ⟨4, by decide, rfl⟩
    all_goals exact .inr ⟨6, by decide, rfl⟩

/-- Where two parts of a step go through, each does. -/
theorem ok_of_bind {α β : Type} {m : M α} {f : α → M β} {b : β} (h : (m >>= f) s = .ok (b, t)) :
    ∃ a v, m s = .ok (a, v) ∧ f a v = .ok (b, t) := by
  rw [bind_at] at h
  split at h
  next a v hm => exact ⟨a, v, hm, h⟩
  next => cases h

/-- The places of a typed access: each part has one, as aligned as the access. -/
theorem typedPlaces_passes {j : Nat} (hj : j ≤ 6) {acc : Acc} {parts : List (Nat × Nat)}
    (h : Gives (typedPlaces p va (2 ^ j) acc parts) s ps u) :
    Translated s u ∧ ps.map (fun q => (q.1, q.2.1)) = parts ∧ ∀ q ∈ ps, q.2.2.Aligned (2 ^ j) := by
  induction parts generalizing s ps with
  | nil =>
    cases h
    exact ⟨.refl _, rfl, fun q hq => by cases hq⟩
  | cons q rest ih =>
    unfold Gives at h
    rw [typedPlaces] at h
    split at h
    · obtain ⟨_, _, htrap, _⟩ := ok_of_bind h
      cases htrap
    obtain ⟨pl, w, hplace, h⟩ := ok_of_bind h
    obtain ⟨more, x, hmore, h⟩ := ok_of_bind h
    cases h
    obtain ⟨htrans, halign⟩ := resolve_passes hj hplace
    obtain ⟨hrest, hparts, haligned⟩ := ih hmore
    refine ⟨htrans.trans hrest, by rw [List.map_cons, hparts], fun q' hq => ?_⟩
    rcases List.mem_cons.mp hq with rfl | hq
    · exact halign
    · exact haligned q' hq

end Typed

/-! ### The parts of a typed access -/

section Parts
variable {span : Nat} {q : Nat × Nat}

theorem typedAlign_pow (h : span = 176 ∨ ∃ j ≤ 6, span = 2 ^ j) : ∃ j ≤ 6, typedAlign span = 2 ^ j := by
  rcases h with rfl | ⟨j, hj, rfl⟩
  · exact ⟨6, by decide, rfl⟩
  · refine ⟨j, hj, if_neg fun h => ?_⟩
    have := Nat.pow_le_pow_right (by decide : 0 < 2) hj
    omega

theorem typedParts_within (h : q ∈ typedParts span) : q.1 + q.2 ≤ span ∧ q.2 ≤ typedAlign span := by
  unfold typedParts typedAlign at *
  split at h
  next hslot =>
    simp only [List.mem_cons, List.not_mem_nil, or_false] at h
    rcases h with rfl | rfl | rfl <;> simp [hslot]
  next hline =>
    obtain rfl : q = (0, span) := by simpa using h
    simp [hline]

/-- The parts of a slot each begin a line, and any other typed access has one part. -/
theorem typed_residues {ps : List (Nat × Nat × Place)} {pa : Nat → Nat}
    (hparts : ps.map (fun q => (q.1, q.2.1)) = typedParts span) (halign : ∀ q ∈ ps, typedAlign span ∣ pa q.1)
    {a b : Nat × Nat × Place} (ha : a ∈ ps) (hb : b ∈ ps) : pa a.1 % 64 = pa b.1 % 64 := by
  by_cases hslot : span = 176
  · have hline : ∀ q ∈ ps, pa q.1 % 64 = 0 := fun q hq => by
      have := halign q hq
      rw [typedAlign, if_pos hslot] at this
      exact Nat.mod_eq_zero_of_dvd this
    rw [hline a ha, hline b hb]
  · rw [typedParts, if_neg hslot] at hparts
    obtain ⟨c, rfl, -⟩ := List.map_eq_singleton_iff.mp hparts
    rw [List.mem_singleton.mp ha, List.mem_singleton.mp hb]

end Parts

/-! ### The bytes of a typed store -/

theorem vecBytes_length (x : VWord) : (vecBytes x).length = 64 := by
  simp [vecBytes, List.length_flatMap]

theorem slotOut_length (xs : List VWord) : (slotOut xs).length = 176 := by
  have htriangle : triangle.length = 36 := by decide
  simp [slotOut, List.length_flatMap, htriangle]

theorem typedStored_length (c : Core) (p : Word) (vr : VReg) (span : Nat) : (typedStored c p vr span).1.length = span := by
  unfold typedStored
  split
  next hslot => rw [slotOut_length, hslot]
  next =>
    unfold bytesOut
    split
    next hline => rw [vecBytes_length, hline]
    next => exact toBytes_length ..

/-- The cells of a typed store, part by part. -/
def typedCells (s : State) (pa : Nat → Nat) (bs : List Byte) (ps : List (Nat × Nat × Place)) : List (Nat × Byte) :=
  ps.flatMap fun q => cellsAt s s.ctxNo (pa q.1) (numbered ((bs.drop q.1).take q.2.1))

section TypedStore
variable {s t u : State} {p : Word} {vr : VReg} {rb : SReg} {off : BitVec 6} {span va : Nat} {ps : List (Nat × Nat × Place)}
  {pa : Nat → Nat} {bs : List Byte}

/-- A part of a typed store lies in its line. -/
theorem part_inLine {q : Nat × Nat × Place} (hfits : pa q.1 % 64 + q.2.1 ≤ 64) :
    ∀ b ∈ numbered ((bs.drop q.1).take q.2.1), pa q.1 % 64 + b.1 < 64 := by
  intro b hb
  have hlen := (mem_numbered.mp hb).1
  rw [List.length_take] at hlen
  omega

theorem gateParts_stores (hs : Performs s) (hplaces : ∀ q ∈ ps, q.2.2 = .mem (pa q.1) ∧ Plain s (pa q.1))
    (hfits : ∀ q ∈ ps, pa q.1 % 64 + q.2.1 ≤ 64) : StoresOrEnds (gateParts va bs ps) s (typedCells s pa bs ps) := by
  refine each_stores fun q hq t ds ht => ?_
  obtain ⟨hplace, hplain⟩ := hplaces q hq
  have hcells : cellsAt t t.ctxNo = cellsAt s s.ctxNo := by
    funext a cs
    simp only [cellsAt, ht.ctxNo, ht.lsRedirect]
  rw [hplace, ← hcells]
  exact storeGated_plain (ht.performs hs) (ht.plain hplain) (part_inLine (hfits q hq))

/-- A typed store that retires has written the cells of its parts. -/
theorem typedStore_writes {r : List Byte × FFlags} (hs : Performs s)
    (hplaces : ∀ q ∈ ps, q.2.2 = .mem (pa q.1) ∧ Plain s (pa q.1)) (hfits : ∀ q ∈ ps, pa q.1 % 64 + q.2.1 ≤ 64)
    (ht : run (typedStoreEnd va r ps rb) s = .next t) (hcount : t.core.icount = s.core.icount + 1) :
    t.mem = s.mem.writes (typedCells s pa r.1 ps) := by
  by_cases hquiet : r.2 &&& s.core.enabled = 0
  · have hflagged : SameStoring s (s.flagged r.2) := .of_setCore rfl rfl rfl rfl rfl
    have hgroup : ∀ n, SameStoring s ((s.flagged r.2).setCore { (s.flagged r.2).core with group := some n }) := fun n =>
      hflagged.trans (.of_setCore rfl rfl rfl rfl rfl)
    have hcells : ∀ n, typedCells ((s.flagged r.2).setCore { (s.flagged r.2).core with group := some n }) pa r.1 ps =
        typedCells s pa r.1 ps := fun n => by simp only [typedCells, (hgroup n).cells]
    have hparts := asGroup_stores (hflagged.performs hs) (m := gateParts va r.1 ps) (cs := typedCells s pa r.1 ps) fun n => by
      rw [← hcells n]
      exact gateParts_stores ((hgroup n).performs hs) (fun q hq => ⟨(hplaces q hq).1, (hgroup n).plain (hplaces q hq).2⟩) hfits
    rcases hparts with ⟨v, hgate, hmem⟩ | ⟨v, hgate, hends⟩
    · rw [typedStoreEnd_ends hquiet hgate] at ht
      cases ht
      exact hmem
    · refine (not_retired ht (v := v) ?_ hcount (hends.trans hflagged.icount)).elim
      rw [typedStoreEnd, bind_ok (raise_quiet hquiet)]
      exact bind_error hgate
  · refine (not_retired ht (v := (s.flagged r.2).takeTrap s.cur 0x09 s.core.pc (r.2.setWidth 64)) ?_ hcount ?_).elim
    · rw [typedStoreEnd]
      exact bind_error (raise_enabled hquiet)
    · exact (takeTrap_icount (s.flagged r.2) _ _ _).trans (setCore_icount _ _)

/-- The cells of the parts of a typed store are distinct where no two parts lie at one place. -/
theorem typedCells_nodup (hfits : ∀ q ∈ ps, pa q.1 % 64 + q.2.1 ≤ 64) (hres : ∀ a ∈ ps, ∀ b ∈ ps, pa a.1 % 64 = pa b.1 % 64)
    (hdistinct : (ps.map fun q => lsRedirect s s.ctxNo (pa q.1 + 0)).Nodup) : ((typedCells s pa bs ps).map Prod.fst).Nodup := by
  rw [typedCells, List.map_flatMap, List.nodup_flatMap]
  refine ⟨fun q hq => cellsAt_nodup s _ (part_inLine (hfits q hq)) (numbered_nodup _), ?_⟩
  refine (List.pairwise_map.mp hdistinct).imp_of_mem fun {a b} ha hb hab => ?_
  intro x hxa hxb
  obtain ⟨c, hc, rfl⟩ := List.mem_map.mp hxa
  obtain ⟨d, hd, hcd⟩ := List.mem_map.mp hxb
  obtain ⟨k, hk, rfl⟩ := List.mem_map.mp hc
  obtain ⟨m, hm, rfl⟩ := List.mem_map.mp hd
  have hka := part_inLine (hfits a ha) k hk
  have hmb := part_inLine (hfits b hb) m hm
  have hline := hres a ha b hb
  dsimp only at hcd
  rw [lsRedirect_of_line s _ hka, lsRedirect_of_line s _ hmb] at hcd
  rw [Ne, lsRedirect_of_line s _ (by omega), lsRedirect_of_line s _ (by omega)] at hab
  have hmoda := lsRedirect_line_mod (l := lineOf (pa a.1)) (by unfold lineOf; omega) s s.ctxNo
  have hmodb := lsRedirect_line_mod (l := lineOf (pa b.1)) (by unfold lineOf; omega) s s.ctxNo
  omega

/-- The bytes of a typed store stand at the places of its parts, and no other byte of memory has changed. -/
theorem typedStore_frame {r : List Byte × FFlags} (hfits : ∀ q ∈ ps, pa q.1 % 64 + q.2.1 ≤ 64)
    (hlen : ∀ q ∈ ps, q.1 + q.2.1 ≤ r.1.length) (hres : ∀ a ∈ ps, ∀ b ∈ ps, pa a.1 % 64 = pa b.1 % 64)
    (hdistinct : (ps.map fun q => lsRedirect s s.ctxNo (pa q.1 + 0)).Nodup)
    (hmem : t.mem = s.mem.writes (typedCells s pa r.1 ps)) :
    (∀ q ∈ ps, ∀ k < q.2.1, t.mem.read (lsRedirect s s.ctxNo (pa q.1 + k)) = r.1.getD (q.1 + k) 0) ∧
      ∀ p, (∀ q ∈ ps, ∀ k < q.2.1, p ≠ lsRedirect s s.ctxNo (pa q.1 + k)) → t.mem.read p = s.mem.read p := by
  rw [hmem]
  refine ⟨fun q hq k hk => ?_, fun p hne => writes_read_other fun c hc => ?_⟩
  · have hroom := hlen q hq
    have hbyte : (k, r.1.getD (q.1 + k) 0) ∈ numbered ((r.1.drop q.1).take q.2.1) := by
      refine mem_numbered.mpr ⟨by rw [List.length_take, List.length_drop]; dsimp only; omega, ?_⟩
      simp [List.getD_eq_getElem?_getD, hk]
    exact writes_read_cell (c := (lsRedirect s s.ctxNo (pa q.1 + k), r.1.getD (q.1 + k) 0)) (typedCells_nodup hfits hres hdistinct)
      (List.mem_flatMap.mpr ⟨q, hq, List.mem_map.mpr ⟨_, hbyte, rfl⟩⟩)
  · obtain ⟨q, hq, hcell⟩ := List.mem_flatMap.mp hc
    obtain ⟨b, hb, rfl⟩ := List.mem_map.mp hcell
    have hk := (mem_numbered.mp hb).1
    rw [List.length_take] at hk
    exact (hne q hq b.1 (by omega)).symm

/-- st.vt in an irrevocable activation: a typed store to the places of its parts. -/
theorem stVt_writes (hport : portOf rb = none) (hs : Performs s) (ht : exec (.stVt vr rb off) s = .next t)
    (hcount : t.core.icount = s.core.icount + 1) (hspan : Gives (typedSpan (s.core.getS rb) vr true) s span s)
    (hplaces : Gives (typedPlaces (s.core.getS rb) (lAddr (s.core.getS rb) off 64).toNat (typedAlign span) .write (typedParts span))
      s ps u) (hplain : ∀ q ∈ ps, q.2.2 = .mem (pa q.1) ∧ Plain s (pa q.1)) (hfits : ∀ q ∈ ps, pa q.1 % 64 + q.2.1 ≤ 64)
    (hsame : SameStoring s u) :
    t.mem = s.mem.writes (typedCells s pa (typedStored s.core (s.core.getS rb) vr span).1 ps) := by
  have hreg : s.r1 rb = s.core.getS rb := by simp [State.r1, Core.takeS, hport]
  have hopen : openPorts none [rb] s = .ok ((), s) := openPorts_none s (by simp [portsOf, hport])
  rw [← hreg] at hspan hplaces ⊢
  by_cases haddr : inSpace (lAddr (s.r1 rb) off 64)
  · rw [stVt_stores hopen haddr hspan hplaces] at ht
    have hmem := typedStore_writes (hsame.performs hs) (fun q hq => ⟨(hplain q hq).1, hsame.plain (hplain q hq).2⟩) hfits ht
      (by rw [hsame.icount, hcount])
    rw [hmem, hsame.mem]
    simp only [typedCells, hsame.cells]
  · have htrap : exec (.stVt vr rb off) s = .next (s.takeTrap s.cur 0x07 s.core.pc (s.r1 rb)) := by
      refine run_error ((bind_ok hopen).trans ((bind_ok (core_at s)).trans ?_))
      exact bind_error (addrL_traps haddr)
    have hcounts := takeTrap_icount s 0x07 s.core.pc (s.r1 rb)
    rw [htrap] at ht
    cases ht
    omega

end TypedStore

/-! ## The obligation -/

section Frame
variable {s t u : State} {i : Instr} {rv rb : SReg} {vr : VReg} {off : BitVec 6} {pa : Nat} (hs : Performs s)
  (hcount : t.core.icount = s.core.icount + 1) (hrb : portOf rb = none) (hp : Plain s pa)
include hs hcount hrb hp

theorem storeS_frame {j : Nat} {rel : Bool} (hj : j ≤ 3) (hi : exec i s = run (storeS rv rb off (2 ^ j) rel) s)
    (ht : exec i s = .next t) (hrv : portOf rv = none)
    (hplace : Gives (resolve (lAddr (s.core.getS rb) off (2 ^ j)).toNat (2 ^ j) .write) s (.mem pa) u) :
    (∀ k < 2 ^ j, t.mem.read (lsRedirect s s.ctxNo (pa + k)) = (toBytes (2 ^ j) (s.core.getS rv).toNat).getD k 0) ∧
      ∀ b, (∀ k < 2 ^ j, b ≠ lsRedirect s s.ctxNo (pa + k)) → t.mem.read b = s.mem.read b := by
  have hreg : ((s.core.takeS rv).2.takeS rb).1 = s.core.getS rb := by simp [Core.takeS, hrv, hrb]
  have hval : (s.core.takeS rv).1 = s.core.getS rv := by simp [Core.takeS, hrv]
  have hstore : exec i s = run (storing [rv, rb] (fun c => ((c.takeS rv).2.takeS rb).1) off (2 ^ j)
      (fun c => numbered (toBytes (2 ^ j) (c.takeS rv).1.toNat)) rel) s := hi
  obtain ⟨hbytes, hother⟩ := storing_frame hstore (by omega) (by simp [portsOf, hrv, hrb]) hs ht hcount (by rwa [hreg]) hp
    (fun b hb => by simpa using (mem_numbered.mp hb).1) (numbered_nodup _)
  rw [hval] at hbytes hother
  refine ⟨fun k hk => ?_, fun b hb => hother b fun c hc => hb c.1 (by simpa using (mem_numbered.mp hc).1)⟩
  exact hbytes (k, _) (mem_numbered.mpr ⟨by simpa using hk, rfl⟩)

/-- st.v and st.vm: the bytes of the lanes that a test selects. -/
theorem storeV_frame {on : Nat → Bool} {bytes : Core → List (Nat × Byte)} (hi : exec i s = run (storeV rb off bytes) s)
    (hbytes : bytes s.core = (numbered (vecBytes (s.core.getV vr))).filter fun b => on b.1) (ht : exec i s = .next t)
    (hplace : Gives (resolve (lAddr (s.core.getS rb) off 64).toNat 64 .write) s (.mem pa) u) :
    (∀ k < 64, on k = true → t.mem.read (lsRedirect s s.ctxNo (pa + k)) = (vecBytes (s.core.getV vr)).getD k 0) ∧
      ∀ b, (∀ k < 64, on k = true → b ≠ lsRedirect s s.ctxNo (pa + k)) → t.mem.read b = s.mem.read b := by
  have hreg : (s.core.takeS rb).1 = s.core.getS rb := by simp [Core.takeS, hrb]
  have hstore : exec i s = run (storing [rb] (fun c => (c.takeS rb).1) off (2 ^ 6) bytes false) s := hi
  have hmem : ∀ b ∈ bytes s.core, b.1 < 64 ∧ on b.1 = true := fun b hb => by
    rw [hbytes, List.mem_filter, mem_numbered, vecBytes_length] at hb
    exact ⟨hb.1.1, hb.2⟩
  obtain ⟨hread, hother⟩ := storing_frame hstore (by decide) (by simp [portsOf, hrb]) hs ht hcount (by rwa [hreg]) hp
    (fun b hb => (hmem b hb).1) (by rw [hbytes]; exact (numbered_nodup _).sublist (List.filter_sublist.map _))
  refine ⟨fun k hk hon => hread (k, _) ?_, fun b hb => hother b fun c hc => hb c.1 (hmem c hc).1 (hmem c hc).2⟩
  rw [hbytes, List.mem_filter]
  exact ⟨mem_numbered.mpr ⟨by rwa [vecBytes_length], rfl⟩, hon⟩

end Frame

/-- Settles O18: what retires has passed its checks; its bytes are cells of one line, or of the lines of its parts, and those alone are
written. -/
theorem storeFrame : Obligations.StoreFrame := by
  intro s t u rv rb vr off i hrb hrev hbuf hord ht hcount p plain spot
  have hs : Performs s := ⟨hrev, hbuf, hord⟩
  have hplain : ∀ pa, plain pa → Plain s pa := fun pa ⟨hown, hkept, hrow⟩ => ⟨hown, hkept, hrow⟩
  refine ⟨fun size pa hmem hrv hplace hp => ?scalar, fun pa hi hplace hp => ?line,
    fun span ps pa hi hspan hplaces hps hdistinct => ?typed⟩
  case scalar =>
    simp only [List.mem_cons, List.not_mem_nil, or_false, Prod.mk.injEq] at hmem
    rcases hmem with ⟨rfl, rfl⟩ | ⟨rfl, rfl⟩ | ⟨rfl, rfl⟩ | ⟨rfl, rfl⟩ | ⟨rfl, rfl⟩ | ⟨rfl, rfl⟩
    · exact storeS_frame (j := 0) hs hcount hrb (hplain pa hp) (by decide) rfl ht hrv hplace
    · exact storeS_frame (j := 1) hs hcount hrb (hplain pa hp) (by decide) rfl ht hrv hplace
    · exact storeS_frame (j := 2) hs hcount hrb (hplain pa hp) (by decide) rfl ht hrv hplace
    all_goals exact storeS_frame (j := 3) hs hcount hrb (hplain pa hp) (by decide) rfl ht hrv hplace
  case line =>
    rcases hi with rfl | rfl
    · have hframe := storeV_frame (vr := vr) (on := fun _ => true) hs hcount hrb (hplain pa hp) rfl (by simp) ht hplace
      exact ⟨fun k hk _ => hframe.1 k hk rfl, fun b hb => hframe.2 b fun k hk _ => hb k hk (.inl rfl)⟩
    · have hframe := storeV_frame (vr := vr) (on := fun k => (s.core.getP 0).getLsbD (k / 4)) hs hcount hrb (hplain pa hp) rfl rfl ht
        hplace
      exact ⟨fun k hk hon => hframe.1 k hk (hon.resolve_left nofun), fun b hb => hframe.2 b fun k hk hon => hb k hk (.inr hon)⟩
  case typed =>
    subst hi
    have hcases := typedSpan_cases hspan
    obtain ⟨j, hj, hjspan⟩ := typedAlign_pow hcases
    have hpassed := hplaces
    rw [hjspan] at hpassed
    obtain ⟨htrans, hparts, haligned⟩ := typedPlaces_passes hj hpassed
    have hwithin : ∀ q ∈ ps, q.1 + q.2.1 ≤ span ∧ q.2.1 ≤ 2 ^ j := fun q hq => by
      rw [← hjspan]
      exact typedParts_within (q := (q.1, q.2.1)) (hparts ▸ List.mem_map_of_mem (f := fun q => (q.1, q.2.1)) hq)
    have hdvd : ∀ q ∈ ps, 2 ^ j ∣ pa q.1 := fun q hq => haligned q hq _ (hps q hq).1
    have hfits : ∀ q ∈ ps, pa q.1 % 64 + q.2.1 ≤ 64 := fun q hq => by
      have := aligned_fits hj (hdvd q hq)
      have := (hwithin q hq).2
      omega
    have hres : ∀ a ∈ ps, ∀ b ∈ ps, pa a.1 % 64 = pa b.1 % 64 := fun a ha b hb =>
      typed_residues hparts (hjspan ▸ hdvd) ha hb
    have hplains : ∀ q ∈ ps, q.2.2 = .mem (pa q.1) ∧ Plain s (pa q.1) := fun q hq => ⟨(hps q hq).1, hplain _ (hps q hq).2⟩
    have hmem := stVt_writes hrb hs ht hcount hspan hplaces hplains hfits (.of_translated htrans)
    have hframe := typedStore_frame hfits (fun q hq => by rw [typedStored_length]; exact (hwithin q hq).1) hres hdistinct
      hmem
    have hbytes : (typedStored s.core p vr span).1 = if span = 176 then slotOut (s.core.getG (vr.extractLsb' 3 3))
        else (bytesOut s.core.rm (fmtOf p) span (s.core.getV vr)).1 := by
      unfold typedStored
      split <;> rfl
    rw [hbytes] at hframe
    exact hframe

end Sys2Proof.Machine
end

section
/-!
PROOFS. Rings and neighbour queues: the instructions behind their checks, and what the ring operations leave in the control block.
-/
namespace Sys2Proof.Machine

/-! ## The ring instructions (R264 to R267) -/

section Rings
variable {s t u v : State} {la : BitVec 4} {ra rb rc : SReg} {pl : Place} {w : Word} {bs : List Byte}
  (hplace : Gives (ringPlace (t.r1 rb)) t pl u)
include hplace

theorem rgAcq_ends (hports : Gives (openPorts (some ra) [rb]) s () t)
    (hacq : Gives (returning ((t.r1 rb).toNat % 2 ^ 52) pl fun s => s.ringAcq s.cur s.ctxNo pl ((t.r1 rb).toNat % 2 ^ 52)) u w v) :
    Ends (.rgAcq la ra rb) s (v.withL ra la [rb] w) := by
  rw [← addrOf_eq] at hacq
  refine run_ok ?_
  rw [bind_ok hports, bind_ok (core_at t)]
  refine (bind_ok hplace).trans ?_
  exact (bind_ok hacq).trans (finishL_at ..)

/-- rg.peek comes to its log entry, where the block is malformed, and to its result. -/
theorem rgPeek_comes (hports : Gives (openPorts (some ra) [rb]) s () t)
    (hload : Gives (loadBytes ((t.r1 rb).toNat % 2 ^ 52) pl 64) u bs v) :
    exec (.rgPeek la ra rb) s = run (do
      onlyIf (ringOf bs).bad (modify fun s => s.logCore s.ctxNo 0x29 0 s.cur ((t.r1 rb).toNat % 2 ^ 52) 0)
      finishL ra la [rb] (if !(ringOf bs).bad && decide ((ringOf bs).tail < (ringOf bs).cmt) then
        word ((ringOf bs).slot ((t.r1 rb).toNat % 2 ^ 52) (ringOf bs).tail) else 0)) v := by
  rw [← addrOf_eq] at *
  refine run_congr ?_
  rw [bind_ok hports, bind_ok (core_at t)]
  refine (bind_ok hplace).trans ?_
  exact bind_ok hload

theorem rgCmt_ends (hports : Gives (openPorts none [rb, rc]) s () t)
    (hbehind : (t.r1 rb).toNat % 2 ^ 52 + 64 ≤ (t.r2 rb rc).toNat % 2 ^ 52)
    (hline : ((t.r2 rb rc).toNat % 2 ^ 52 - (t.r1 rb).toNat % 2 ^ 52) % 64 = 0)
    (hgate : Gives (gate (.rgCmt pl ((t.r1 rb).toNat % 2 ^ 52) ((t.r2 rb rc).toNat % 2 ^ 52))) u () v) :
    Ends (.rgCmt rb rc) s (v.done [rb, rc]) := by
  rw [← addrOf_eq, ← addrOf_eq] at *
  have hslot : ¬(addrOf (t.r2 rb rc) < addrOf (t.r1 rb) + 64 ∨ (addrOf (t.r2 rb rc) - addrOf (t.r1 rb)) % 64 ≠ 0) := by omega
  refine run_ok ?_
  rw [bind_ok hports, bind_ok (core_at t)]
  refine (bind_ok hplace).trans ?_
  refine (congrFun (if_neg hslot) u).trans ?_
  exact (bind_ok hgate).trans (finish_at ..)

theorem rgRel_ends (hports : Gives (openPorts none [rb]) s () t)
    (hgate : Gives (gate (.rgRel pl ((t.r1 rb).toNat % 2 ^ 52))) u () v) : Ends (.rgRel rb) s (v.done [rb]) := by
  rw [← addrOf_eq] at hgate
  refine run_ok ?_
  rw [bind_ok hports, bind_ok (core_at t)]
  refine (bind_ok hplace).trans ?_
  exact (bind_ok hgate).trans (finish_at ..)

end Rings

/-! ## The neighbour-queue instructions (R272) -/

theorem portArg_passes {w : Word} (h : w.toNat ≤ 3) (s : State) : portArg w s = .ok (w.toNat, s) :=
  congrFun (if_neg (by omega)) s

section Queues
variable {s t u : State} {sa sb : Src} {rd : SReg}

theorem qpCtl_ends (hports : Gives (openPorts none (srcNames sa ++ srcNames sb)) s () t) (hk : (t.a sa).toNat ≤ 3)
    (hneighbour : (neighbour t.cur (t.a sa).toNat).isSome = true) (hirr : Gives becomeIrrevocable t () u)
    (hcredit : credit u u.cur (t.a sa).toNat ≠ 0) :
    Ends (.qpCtl sa sb) s ((u.enqueue (t.a sa).toNat (1#1 ++ t.b sa sb)).done (srcNames sa ++ srcNames sb)) := by
  have hsome : ¬(neighbour t.cur (t.a sa).toNat).isNone = true := by
    rw [Option.isNone_iff_eq_none, ← Option.not_isSome_iff_eq_none, not_not]
    exact hneighbour
  refine run_ok ?_
  dsimp only
  rw [bind_ok hports, bind_ok (core_at t)]
  refine (bind_ok (portArg_passes hk t)).trans ?_
  rw [bind_ok (get_at t)]
  refine (congrFun (if_neg hsome) t).trans ?_
  rw [bind_ok hirr, bind_ok (get_at u)]
  refine (congrFun (if_neg hcredit) u).trans ?_
  rw [bind_ok (modify_at _)]
  exact finish_at ..

theorem qpStat_ends (hports : Gives (openPorts (some rd) (srcNames sa)) s () t) (hk : (t.a sa).toNat ≤ 3) :
    Ends (.qpStat rd sa) s (t.withS rd (srcNames sa) (portStatus t (t.a sa).toNat)) := by
  refine run_ok ?_
  rw [bind_ok hports, bind_ok (core_at t)]
  refine (bind_ok (portArg_passes hk t)).trans ?_
  rw [bind_ok (get_at t)]
  exact finishS_at ..

/-- A core with the catch address of a port set. -/
def Core.withCatch (c : Core) (k : Nat) (w : Word) : Core :=
  { c with qcatch := Vector.ofFn fun i => if i.val = k then w else c.qcatch[i] }

theorem qpCatch_ends (hports : Gives (openPorts none (srcNames sa ++ srcNames sb)) s () t) (hk : (t.a sa).toNat ≤ 3)
    (haligned : (t.b sa sb).toNat % 4 = 0) :
    Ends (.qpCatch sa sb) s
      ((t.setCore (t.core.withCatch (t.a sa).toNat (t.b sa sb))).done (srcNames sa ++ srcNames sb)) := by
  refine run_ok ?_
  dsimp only
  rw [bind_ok hports, bind_ok (core_at t)]
  refine (bind_ok (portArg_passes hk t)).trans ?_
  refine (congrFun (if_neg (not_not.mpr haligned)) t).trans ?_
  rw [bind_ok (modCore_at _)]
  exact finish_at ..

end Queues

/-! ## The control block of a ring (R263, R266) -/

/-- Bytes read within those written. -/
theorem Mem.readN_writeN_within (m : Mem) (a : Nat) (bs : List Byte) {k n : Nat} (h : k + n ≤ bs.length) :
    (m.writeN a bs).readN (a + k) n = (bs.drop k).take n := by
  refine List.ext_getElem (by rw [Mem.readN_length, List.length_take, List.length_drop]; omega) fun i hi _ => ?_
  rw [Mem.readN_length] at hi
  simp only [Mem.readN, List.getElem_map, List.getElem_range, List.getElem_take, List.getElem_drop]
  rw [Nat.add_assoc, Mem.read_writeN_in m a bs (k + i) (by omega)]

/-- A doubleword of a block is below 2^64. -/
theorem doubleword_lt (bs : List Byte) (k : Nat) : ofBytes ((bs.drop k).take 8) < 2 ^ 64 := by
  refine (ofBytes_lt _).trans_le (Nat.pow_le_pow_right (by decide) ?_)
  rw [List.length_take]
  omega

section Bits
variable {m j k : Nat}

theorem bit_succ (m i : Nat) : bit m (i + 1) = bit (m / 2) i := by
  rw [bit, bit, Nat.shiftRight_succ_inside]

/-- The set bits that lead out of a number are shifted out of it. -/
theorem ringShift_eq {n : Nat} (c : Nat) (hj : j ≤ n) (hones : ∀ i < j, bit m i = true) (hend : bit m j = false) :
    ringShift n m c = (m / 2 ^ j, c + j) := by
  induction n generalizing m c j with
  | zero =>
    obtain rfl : j = 0 := by omega
    simp [ringShift]
  | succ n ih =>
    cases j with
    | zero =>
      have hlow : m % 2 ≠ 1 := by simpa [bit] using hend
      simp [ringShift, hlow]
    | succ j =>
      have hlow : m % 2 = 1 := by simpa [bit] using hones 0 (by omega)
      have hrest := ih (m := m / 2) (j := j) (c + 1) (by omega) (fun i hi => by rw [← bit_succ]; exact hones (i + 1) (by omega))
        (by rw [← bit_succ]; exact hend)
      rw [ringShift, if_pos hlow, hrest, Nat.div_div_eq_div_mul, ← Nat.pow_succ']
      congr 1
      omega

/-- A clear bit that is set stays within the word. -/
theorem add_two_pow_lt (hm : m < 2 ^ 64) (hk : k < 64) (hclear : bit m k = false) : m + 2 ^ k < 2 ^ 64 := by
  have hpos := Nat.two_pow_pos k
  have hwidth : 2 ^ 64 = 2 ^ (63 - k) * 2 * 2 ^ k := by rw [← Nat.pow_succ, ← Nat.pow_add]; congr 1; omega
  have heven : m / 2 ^ k % 2 ≠ 1 := by simpa [bit, Nat.shiftRight_eq_div_pow] using hclear
  have hhigh : m / 2 ^ k < 2 ^ (63 - k) * 2 := Nat.div_lt_of_lt_mul (by rw [Nat.mul_comm, ← hwidth]; exact hm)
  rw [hwidth, ← Nat.div_lt_iff_lt_mul hpos, Nat.add_div_right _ hpos]
  omega

/-- A word of 64 bits has at most 64 leading set bits. -/
theorem ones_le (hm : m < 2 ^ 64) (hones : ∀ i < j, bit m i = true) : j ≤ 64 := by
  by_contra h
  have := hones 64 (by omega)
  simp [bit, Nat.shiftRight_eq_div_pow] at this
  omega

end Bits

/-! ## The ring operations at a control block in memory (R265 to R267) -/

section Operations
variable {s : State} {c ctx pa cb : Nat}

/-- A ring operation's request to another package leaves the rest of the state. -/
theorem askRing_eq (s : State) (op c ctx : Nat) (pl : Place) (cb slot : Nat) :
    ∃ os, s.askRing op c ctx pl cb slot = { s with outs := os } := askRemote_eq ..

theorem ringAt_readPa {a : Nat} (h : rowOf a ≠ .device) : ringAt s a = ringOf (s.readPa a 64) := congrArg ringOf (if_neg h)

/-- The doubleword of bytes in memory at an address and an offset. -/
theorem readPa_of_writeN {t : State} {m : Mem} {a : Nat} {bs : List Byte} (h : t.mem = m.writeN a bs) {k n : Nat}
    (hk : k + n ≤ bs.length) : t.readPa (a + k) n = (bs.drop k).take n := by
  rw [State.readPa, h, Mem.readN_writeN_within _ _ _ hk]

theorem sameOutside_of_writeN {t : State} {a n : Nat} {bs : List Byte} (h : t.mem = s.mem.writeN a bs) (hn : bs.length = n) :
    SameOutside s t a n := by
  intro p hp
  rw [h]
  exact Mem.read_writeN_out _ _ _ _ (by rwa [hn])

/-- What rg.acq leaves at a block that is well-formed, by whether a slot is free. -/
theorem ringAcq_block (hrow : rowOf pa ≠ .device) (hat : rowOf (lsRedirect s ctx pa) ≠ .device) :
    let r := ringOf (s.readPa (lsRedirect s ctx pa) 64)
    let got := s.ringAcq c ctx (.mem pa) cb
    (r.bad = true → got.1 = 0) ∧ (r.bad = false → r.full = true → got.1 = 0 ∧ got.2.mem = s.mem) ∧
    (r.bad = false → r.full = false → got.1 = word (r.slot cb r.head) ∧
      got.2.mem = s.mem.writeN (lsRedirect s ctx pa) (toBytes 8 (r.head + 1))) := by
  intro r got
  obtain ⟨os, hask⟩ := askRing_eq s 0 c ctx (.mem pa) cb 0
  have hr : ringAt s (homePa s ctx (.mem pa)) = r := ringAt_readPa hat
  refine ⟨fun hbad => ?_, fun hbad hfull => ?_, fun hbad hfull => ?_⟩
  · simp only [got, State.ringAcq, hr, hbad, if_true]
  · simp only [got, State.ringAcq, hr, hbad, hfull, Bool.false_eq_true, if_false, if_true, hask, State.asked, count_mem, and_self]
  · simp only [got, State.ringAcq, hr, hbad, hfull, Bool.false_eq_true, if_false, hask, writeHome_mem hrow, true_and]
    rfl

theorem ringRel_mem (hrow : rowOf (pa + 16) ≠ .device) (hat : rowOf (lsRedirect s ctx pa) ≠ .device)
    (hhome : homeFails s ctx (.mem pa) = none) :
    let r := ringOf (s.readPa (lsRedirect s ctx pa) 64)
    r.bad = false → r.tail < r.cmt → (s.ringRel c ctx (.mem pa) cb).mem =
      s.mem.writeN (lsRedirect s ctx (pa + 16)) (toBytes 8 (r.tail + 1)) := by
  intro r hbad hlt
  obtain ⟨os, hask⟩ := askRing_eq s 2 c ctx (.mem pa) cb 0
  have hfails : homeFails { s with outs := os } ctx (.mem pa) = none := hhome
  have hr : ringAt { s with outs := os } (homePa { s with outs := os } ctx (.mem pa)) = r := ringAt_readPa hat
  have hgo : (r.bad || decide (r.cmt ≤ r.tail)) = false := by simp [hbad, hlt]
  simp only [State.ringRel, hask, hfails, hr, hgo, Bool.false_eq_true, if_false, Place.plus]
  exact writeHome_mem hrow

/-- The open slot with the least sequence number is the one named. -/
theorem named_of_least {r : Ring} {d q : Nat} (hslot : d % r.z = 0) (hin : d / r.z < r.n)
    (hfree : r.cmt ≤ q ∧ q < r.cmt + 64 ∧ q < r.head ∧ q % r.n = d / r.z ∧ bit r.cmap (q - r.cmt) = false)
    (hleast : ∀ q' < q, ¬(r.cmt ≤ q' ∧ q' < r.cmt + 64 ∧ q' < r.head ∧ q' % r.n = d / r.z ∧ bit r.cmap (q' - r.cmt) = false)) :
    r.named d = some q := by
  obtain ⟨hlow, hhigh, hhead, hname, hclear⟩ := hfree
  rw [Ring.named, if_neg (by omega), List.find?_map, Option.map_eq_some_iff]
  refine ⟨q - r.cmt, List.find?_range_eq_some.mpr ⟨?_, List.mem_range.mpr (by omega), fun k hk => ?_⟩, by omega⟩
  · simp [Function.comp, show r.cmt + (q - r.cmt) = q by omega, hhead, hname, hclear]
  · have hnot := hleast (r.cmt + k) (by omega)
    simp only [Nat.add_sub_cancel_left] at hnot
    simp only [Function.comp, Bool.not_eq_true', Nat.add_sub_cancel_left]
    rw [Bool.eq_false_iff]
    intro hfound
    simp only [Bool.and_eq_true, decide_eq_true_eq, beq_iff_eq, Bool.not_eq_true'] at hfound
    exact hnot ⟨by omega, by omega, hfound.1.1, hfound.1.2, hfound.2⟩

/-- What rg.cmt writes for a sequence number behind which j set bits lead out of cmap, and the notify of the first commit. -/
theorem ringCmt_block {slot q j : Nat} (hrow : rowOf pa ≠ .device) (hat : rowOf (lsRedirect s ctx pa) ≠ .device)
    (hhome : homeFails s ctx (.mem pa) = none) :
    let r := ringOf (s.readPa (lsRedirect s ctx pa) 64)
    let m := r.cmap + 2 ^ (q - r.cmt)
    let got := s.ringCmt c ctx (.mem pa) cb slot
    r.bad = false → r.named (slot - cb - 64) = some q → ringShift 64 m r.cmt = (m / 2 ^ j, r.cmt + j) →
      got.mem = s.mem.writeN (lsRedirect s ctx pa)
        (toBytes 8 r.head ++ toBytes 8 (r.cmt + j) ++ toBytes 8 r.tail ++ toBytes 8 (m / 2 ^ j)) ∧
      (0 < j → r.cmt = r.tail → bit r.w5 18 = true → ∃ v : State,
        got = v.send (unitMsg v ctx (bits r.w5 11 0) (bits r.w5 17 12) [word cb, word (r.cmt + j)])) := by
  intro r m got hbad hnamed hshift
  obtain ⟨os, hask⟩ := askRing_eq s 1 c ctx (.mem pa) cb slot
  have hfails : homeFails { s with outs := os } ctx (.mem pa) = none := hhome
  have hr : ringAt { s with outs := os } (homePa { s with outs := os } ctx (.mem pa)) = r := ringAt_readPa hat
  have hcommits : r.commits q = (toBytes 8 r.head ++ toBytes 8 (r.cmt + j) ++ toBytes 8 r.tail ++ toBytes 8 (m / 2 ^ j),
      if decide (r.cmt < r.cmt + j) && r.cmt == r.tail && bit r.w5 18 then some (r.cmt + j) else none) := by
    rw [Ring.commits, hshift]
  obtain ⟨v, hmem, hgot⟩ : ∃ v : State, v.mem = s.mem.writeN (lsRedirect s ctx pa)
        (toBytes 8 r.head ++ toBytes 8 (r.cmt + j) ++ toBytes 8 r.tail ++ toBytes 8 (m / 2 ^ j)) ∧
      got = (if decide (r.cmt < r.cmt + j) && r.cmt == r.tail && bit r.w5 18 then some (r.cmt + j) else none).elim v
        fun t => v.send (ringNotify v r ctx cb t) := by
    refine ⟨_, writeHome_mem (s := { s with outs := os }) (c := c) (va := cb) (ans := none) hrow, ?_⟩
    simp only [got, State.ringCmt, hask, hfails, hr, hbad, hnamed, hcommits, Bool.false_eq_true, if_false]
  rw [hgot]
  refine ⟨?_, fun hpos htail hnotify => ⟨v, ?_⟩⟩
  · split
    · exact hmem
    · exact hmem
  · rw [if_pos (by simp [hpos, htail, hnotify])]
    rfl

end Operations

/-! ## The obligation -/

theorem mem_eq_sameMemory {s t : State} (h : t.mem = s.mem) : SameMemory s t := fun b => by rw [h]

/-- A doubleword that has been written reads as it was written, modulo 2^64. -/
theorem ofBytes_written {t : State} {m : Mem} {a x : Nat} (h : t.mem = m.writeN a (toBytes 8 x)) :
    ofBytes (t.readPa a 8) = x % 2 ^ 64 := by
  have hread := readPa_of_writeN h (k := 0) (n := 8) (by simp)
  rw [Nat.add_zero, List.drop_zero, List.take_of_length_le (by simp)] at hread
  rw [hread, ofBytes_toBytes]

/-- The four doublewords that rg.cmt writes, as they are read. -/
theorem four_doublewords {t : State} {m : Mem} {a w x y z : Nat}
    (h : t.mem = m.writeN a (toBytes 8 w ++ toBytes 8 x ++ toBytes 8 y ++ toBytes 8 z)) :
    ofBytes (t.readPa (a + 0) 8) = w % 2 ^ 64 ∧ ofBytes (t.readPa (a + 8) 8) = x % 2 ^ 64 ∧
      ofBytes (t.readPa (a + 16) 8) = y % 2 ^ 64 ∧ ofBytes (t.readPa (a + 24) 8) = z % 2 ^ 64 := by
  have hbehind : ∀ v k, 8 ≤ k → (toBytes 8 v).drop k = [] := fun v k hk => List.drop_eq_nil_of_le (by simpa using hk)
  have hwhole : ∀ v, (toBytes 8 v).take 8 = toBytes 8 v := fun v => List.take_of_length_le (by simp)
  refine ⟨?_, ?_, ?_, ?_⟩
  all_goals rw [readPa_of_writeN h (by simp)]
  all_goals simp [List.drop_append, ofBytes_toBytes, hbehind, hwhole]

section Block
variable {s : State} {c ctx pa cb slot : Nat}

theorem ringAcq_effect (hrow : rowOf pa ≠ .device) (hat : rowOf (lsRedirect s ctx pa) ≠ .device) :
    let a := lsRedirect s ctx pa
    let r := ringOf (s.readPa a 64)
    let full := r.head - r.tail = r.n ∨ r.head - r.cmt = 64
    let got := s.ringAcq c ctx (.mem pa) cb
    (r.bad = true → got.1 = 0) ∧ (r.bad = false → full → got.1 = 0 ∧ SameMemory s got.2) ∧
    (r.bad = false → ¬full → got.1 = BitVec.ofNat 64 (cb + 64 + r.head % r.n * r.z) ∧
      ofBytes (got.2.readPa (a + 0) 8) = (r.head + 1) % 2 ^ 64 ∧ SameOutside s got.2 a 8) := by
  intro a r full got
  obtain ⟨hbad, hfull, hfree⟩ := ringAcq_block (c := c) (cb := cb) hrow hat
  refine ⟨hbad, fun hok h => ?_, fun hok h => ?_⟩
  · obtain ⟨hzero, hmem⟩ := hfull hok (by simpa [Ring.full] using h)
    exact ⟨hzero, mem_eq_sameMemory hmem⟩
  · obtain ⟨hslot, hmem⟩ := hfree hok (by simpa [Ring.full, full] using h)
    exact ⟨hslot, ofBytes_written hmem, sameOutside_of_writeN hmem (toBytes_length ..)⟩

theorem ringCmt_effect {q j : Nat} (hrow : rowOf pa ≠ .device) (hat : rowOf (lsRedirect s ctx pa) ≠ .device)
    (hhome : homeFails s ctx (.mem pa) = none) :
    let a := lsRedirect s ctx pa
    let r := ringOf (s.readPa a 64)
    let m := r.cmap + 2 ^ (q - r.cmt)
    let got := s.ringCmt c ctx (.mem pa) cb slot
    let at8 := fun (k : Nat) => ofBytes (got.readPa (a + k) 8)
    r.bad = false → r.named (slot - cb - 64) = some q → q - r.cmt < 64 → bit r.cmap (q - r.cmt) = false →
    (∀ i < j, bit m i = true) → bit m j = false →
    at8 0 = r.head ∧ at8 8 = (r.cmt + j) % 2 ^ 64 ∧ at8 16 = r.tail ∧ at8 24 = m / 2 ^ j ∧ SameOutside s got a 32 ∧
      (0 < j → r.cmt = r.tail → bit r.w5 18 = true → ∃ v : State,
        got = v.send (unitMsg v ctx (bits r.w5 11 0) (bits r.w5 17 12) [BitVec.ofNat 64 cb, BitVec.ofNat 64 (r.cmt + j)])) := by
  intro a r m got at8 hbad hnamed hnear hclear hones hend
  have hm : m < 2 ^ 64 := add_two_pow_lt (doubleword_lt ..) hnear hclear
  have hshift := ringShift_eq r.cmt (ones_le hm hones) hones hend
  obtain ⟨hmem, hnotify⟩ := ringCmt_block hrow hat hhome hbad hnamed hshift
  obtain ⟨hhead, hcmt, htail, hmap⟩ := four_doublewords hmem
  refine ⟨?_, hcmt, ?_, ?_, sameOutside_of_writeN hmem (by simp), hnotify⟩
  · exact hhead.trans (Nat.mod_eq_of_lt (doubleword_lt ..))
  · exact htail.trans (Nat.mod_eq_of_lt (doubleword_lt ..))
  · exact hmap.trans (Nat.mod_eq_of_lt ((Nat.div_le_self ..).trans_lt hm))

end Block

/-- Settles O23: each instruction by its checks one after another; each ring operation by the write that it comes to. -/
theorem ringsAndQueues : Obligations.RingsAndQueues := by
  intro s t u v la ra rb rc rd sa sb pl w bs
  refine ⟨fun hports hplace => ⟨rgAcq_ends hplace hports, fun hload => ?peek⟩, fun hports hplace => rgCmt_ends hplace hports,
    fun hports hplace => rgRel_ends hplace hports, fun hports hk => ⟨qpCtl_ends hports hk, fun haligned => ?catchAt⟩, qpStat_ends,
    fun c ctx pa cb slot => ?block⟩
  case peek =>
    have hpeek := rgPeek_comes (la := la) hplace hports hload
    refine ⟨fun hok => ?_, fun hbad => ?_⟩
    · refine hpeek.trans (run_ok ?_)
      simp only [hok, onlyIf, Bool.false_eq_true, if_false, Bool.not_false, Bool.true_and, decide_eq_true_eq]
      exact finishL_at ..
    · refine hpeek.trans (run_ok ?_)
      simp only [hbad, onlyIf, if_true, Bool.not_true, Bool.false_and, Bool.false_eq_true, if_false]
      exact finishL_at ..
  case catchAt =>
    refine ⟨_, qpCatch_ends hports hk haligned, by rw [core_setCore], fun j => ?_⟩
    rw [core_setCore]
    exact Vector.getElem_ofFn ..
  case block =>
    intro a r at8 full hrow hat
    refine ⟨ringAcq_effect hrow hat, fun hhome hok => ⟨?cmt, fun hlt hrel => ?rel⟩⟩
    case cmt =>
      intro q j hslot hin free hfree hleast m hones hend
      have hnamed := named_of_least hslot hin hfree hleast
      obtain ⟨hlow, hhigh, -, -, hclear⟩ := hfree
      have hnear : q - r.cmt < 64 := by omega
      exact ringCmt_effect hrow hat hhome hok hnamed hnear hclear hones hend
    case rel =>
      have hmem := ringRel_mem (c := c) (cb := cb) hrel hat hhome hok hlt
      exact ⟨ofBytes_written hmem, sameOutside_of_writeN hmem (toBytes_length ..)⟩

end Sys2Proof.Machine
end

section
/-!
PROOFS. Vector memory: lanes that pass one after another carry the instruction to its end.
-/
namespace Sys2Proof.Machine

/-! ## Lanes one after another (R260, R261) -/

section Run
variable {acc : Acc} {p : Word} {idx : VWord} {f : Fin 16 → Nat → Place → M Unit}
  {F : Fin 16 → Nat → Place → State → State → Prop} {s u : State}

theorem laneAddr_eq (p : Word) (idx : VWord) (i : Fin 16) : (addrOf p : Int) + (idx[i]).toInt * 4 = laneAddr p idx i := by
  rw [addrOf_eq, laneAddr]

/-- A lane that passes is done. -/
theorem vgLane_of_step {i : Fin 16} (hf : ∀ va pl w u, F i va pl w u → f i va pl w = .ok ((), u))
    (h : laneStep acc p idx F i s u) : vgLane acc p idx f i s = .ok ((), u) := by
  obtain ⟨⟨hlow, hhigh⟩, pl, w, hplace, hdone⟩ := h
  rw [vgLane, bind_ok (modCore_at _), laneAddr_eq]
  refine (congrFun (if_neg (by omega)) _).trans ?_
  by_cases hacc : acc = .atomic
  · rw [if_pos hacc] at hplace ⊢
    exact (bind_ok hplace).trans (hf _ _ _ _ hdone)
  · rw [if_neg hacc] at hplace ⊢
    exact (bind_ok hplace).trans (hf _ _ _ _ hdone)

theorem lanes_of_run {is : List (Fin 16)} (hf : ∀ i va pl w u, F i va pl w u → f i va pl w = .ok ((), u))
    (h : lanesRun (laneStep acc p idx F) is s u) : each is (vgLane acc p idx f) s = .ok ((), u) := by
  induction is generalizing s with
  | nil =>
    cases h
    rfl
  | cons i rest ih =>
    obtain ⟨w, hlane, hrest⟩ := h
    rw [each, bind_ok (vgLane_of_step (hf i) hlane)]
    exact ih hrest

end Run

/-! ## Items of one instruction as a group (R262) -/

/-- A state whose core's group is set back, as an instruction of several items leaves it. -/
def State.groupOf (u t : State) : State := u.setCore { u.core with group := t.core.group }

section Group
variable {m : M Unit} {t u v : State}

theorem allAtOnce_passes (h : m t.inGroup = .ok ((), u)) : allAtOnce m t = .ok ((), u.groupOf t) := by
  rw [allAtOnce]
  change (match m t.inGroup with | .ok (_, v) => _ | .error v => _) = _
  rw [h]
  rfl

/-- In an irrevocable activation with nothing held a group is performed. -/
theorem asGroup_irrevocable (hrev : t.core.rev = false) (hbuf : t.core.cbuf = []) (h : m t.inGroup = .ok ((), u)) :
    asGroup m t = .ok ((), u.groupOf t) := (asGroup_eq_allAtOnce hrev hbuf m).trans (allAtOnce_passes h)

/-- In a revocable activation whose buffer has room a group is held. -/
theorem asGroup_revocable (hrev : t.core.rev = true) (hroom : m t = .ok ((), v)) (hv : v.core.rev = true)
    (h : m t.inGroup = .ok ((), u)) : asGroup m t = .ok ((), u.groupOf t) := by
  rw [asGroup, bind_ok (get_at t)]
  refine (bind_ok (a := ()) (t := t) ?_).trans (allAtOnce_passes h)
  rw [hroom, hrev]
  simp [onlyIf, hv]

end Group

/-! ## The instructions behind their lanes -/

section Instructions
variable {s t u v : State} {la : BitVec 4} {ra rc : VReg} {rb : SReg} {acc : Acc} {f : Fin 16 → Nat → Place → M Unit} {i : Instr}

/-- The lanes of a vector memory instruction. -/
def lanesOf (acc : Acc) (rb : SReg) (rc : VReg) (f : Fin 16 → Nat → Place → M Unit) (t : State) : M Unit :=
  each (activeLanes t.core) (vgLane acc (t.r1 rb) (t.core.getV rc) f)

theorem activeLanes_eq (c : Core) : (lanesFrom (c.vprog.toNat % 16)).filter (fun i => (c.getP 0).getLsbD i.val) = activeLanes c := by
  rw [lanesFrom, List.filter_filter, activeLanes]
  exact List.filter_congr fun i _ => Bool.and_comm ..

theorem vgLanes_grouped (hacc : acc ≠ .read) (h : asGroup (lanesOf acc rb rc f t) t = .ok ((), u)) :
    vgLanes acc rb rc f t = .ok ((), u.setCore { u.core with vprog := 0 }) := by
  rw [vgLanes, bind_ok (core_at t)]
  simp only [activeLanes_eq]
  rw [if_neg hacc]
  exact (bind_ok h).trans (modCore_at _)

theorem vgLanes_read (h : lanesOf .read rb rc f t t = .ok ((), u)) :
    vgLanes .read rb rc f t = .ok ((), u.setCore { u.core with vprog := 0 }) := by
  rw [vgLanes, bind_ok (core_at t)]
  simp only [activeLanes_eq, if_true]
  exact (bind_ok h).trans (modCore_at _)

theorem vgStore_ends (hi : exec i s = run (vgStore acc rb rc f) s) (hports : Gives (openPorts none [rb]) s () t) (hacc : acc ≠ .read)
    (h : asGroup (lanesOf acc rb rc f t) t = .ok ((), u)) : Ends i s ((u.setCore { u.core with vprog := 0 }).done [rb]) := by
  refine hi.trans (run_ok ?_)
  rw [vgStore, bind_ok hports, bind_ok (vgLanes_grouped hacc h)]
  exact finish_at ..

/-- A vector atomic or a scatter whose lanes pass comes to its end, in either kind of activation. -/
theorem vgStore_passes {F : Fin 16 → Nat → Place → State → State → Prop} (hi : exec i s = run (vgStore acc rb rc f) s)
    (hports : Gives (openPorts none [rb]) s () t) (hacc : acc ≠ .read)
    (hf : ∀ i va pl w u, F i va pl w u → f i va pl w = .ok ((), u)) :
    let go := lanesRun (laneStep acc (t.r1 rb) (t.core.getV rc) F) (activeLanes t.core)
    let done := (u.setCore { u.core with vprog := 0, group := t.core.group }).done [rb]
    (t.core.rev = false → t.core.cbuf = [] → go t.inGroup u → Ends i s done) ∧
      (t.core.rev = true → go t v → v.core.rev = true → go t.inGroup u → Ends i s done) := by
  intro go done
  have hdone : done = ((u.groupOf t).setCore { (u.groupOf t).core with vprog := 0 }).done [rb] := by
    rw [State.groupOf, core_setCore, setCore_setCore]
  rw [hdone]
  refine ⟨fun hrev hbuf hrun => ?_, fun hrev hroom hv hrun => ?_⟩
  · exact vgStore_ends hi hports hacc (asGroup_irrevocable hrev hbuf (lanes_of_run hf hrun))
  · exact vgStore_ends hi hports hacc (asGroup_revocable hrev (lanes_of_run hf hroom) hv (lanes_of_run hf hrun))

/-- With p0 zero no lane is active. -/
theorem vgStore_no_lane (hi : exec i s = run (vgStore acc rb rc f) s) (hports : Gives (openPorts none [rb]) s () t) (hacc : acc ≠ .read)
    (hp0 : t.core.getP 0 = 0) (h : t.core.rev = true ∨ t.core.cbuf = []) :
    Ends i s ((t.setCore { t.core with vprog := 0 }).done [rb]) := by
  have hnone : activeLanes t.core = [] := List.filter_eq_nil_iff.mpr fun i _ => by rw [hp0]; simp
  have hlanes : ∀ w, lanesOf acc rb rc f t w = .ok ((), w) := fun w => by rw [lanesOf, hnone]; rfl
  have hgroup : asGroup (lanesOf acc rb rc f t) t = .ok ((), t.inGroup.groupOf t) := by
    by_cases hrev : t.core.rev = true
    · exact asGroup_revocable hrev (hlanes t) hrev (hlanes _)
    · exact asGroup_irrevocable (by simpa using hrev) (h.resolve_left hrev) (hlanes _)
  have hend := vgStore_ends hi hports hacc hgroup
  rwa [State.groupOf, State.inGroup, core_setCore, setCore_setCore, core_setCore, setCore_setCore] at hend

/-- vg.gat whose lanes pass comes to its result. -/
theorem vgGat_passes (hports : Gives (openPorts none [rb]) s () t)
    (h : lanesRun (laneStep .read (t.r1 rb) (t.core.getV rc) (gatherLane ra)) (activeLanes t.core) t u) :
    Ends (.vgGat la ra rb rc) s
      ((u.setCore { u.core.setV ra (t.core.getV ra) with vprog := 0 }).withR (.v ra (u.core.getV ra)) la [rb]) := by
  have hlanes := vgLanes_read (rb := rb) (rc := rc) (lanes_of_run (f := fun i va pl => do
      let bs ← loadBytes va pl 4
      modCore fun c => c.setV ra ((c.getV ra).set i.val (BitVec.ofNat 32 (ofBytes bs)) i.isLt)) ?_ h)
  · refine run_ok ?_
    rw [bind_ok hports, bind_ok (core_at t)]
    refine (bind_ok (a := ()) (t := u.setCore { u.core with vprog := 0 }) ?_).trans ?_
    · rw [unlessStalled, hlanes]
    · rw [bind_ok (core_at _), core_setCore]
      refine (bind_ok (modCore_at _)).trans ?_
      rw [core_setCore, setCore_setCore]
      exact finishR_at ..
  · rintro i va pl w u ⟨bs, z, hload, rfl⟩
    rw [bind_ok hload, modCore_at]

end Instructions

end Sys2Proof.Machine
end

section
/-!
PROOFS. Lanes in the own local store: each resolves by its window, is held or read there, and leaves the rest of the state.
-/
namespace Sys2Proof.Machine

/-! ## What a lane in the own local store leaves -/

/-- The current core differs in vprog, its buffer, its vector registers, its read signature, its L1 data cache and its group
alone, and no other part of the state differs. -/
structure Lanewise (s t : State) : Prop where
  state : ∃ cs, t = { s with cores := cs }
  others : ∀ c, c ≠ s.cur → t.coreAt c = s.coreAt c
  core : ∃ vp b v r l g, t.core = { s.core with vprog := vp, cbuf := b, v := v, rsig := r, l1 := l, group := g }

theorem Lanewise.refl (s : State) : Lanewise s s := ⟨⟨_, rfl⟩, fun _ _ => rfl, _, _, _, _, _, _, rfl⟩

theorem Lanewise.cur {s t : State} (h : Lanewise s t) : t.cur = s.cur := by
  obtain ⟨cs, rfl⟩ := h.state
  rfl

theorem Lanewise.trans {s t u : State} (h : Lanewise s t) (h' : Lanewise t u) : Lanewise s u := by
  refine ⟨?_, fun c hc => (h'.others c (h.cur ▸ hc)).trans (h.others c hc), ?_⟩
  · obtain ⟨cs, ht⟩ := h.state
    obtain ⟨cs', hu⟩ := h'.state
    exact ⟨cs', by rw [hu, ht]⟩
  · obtain ⟨vp, b, v, r, l, g, hx⟩ := h.core
    obtain ⟨vp', b', v', r', l', g', hx'⟩ := h'.core
    exact ⟨vp', b', v', r', l', g', by rw [hx', hx]⟩

theorem setCore_lanewise (s : State) (x : Core)
    (h : ∃ vp b v r l g, x = { s.core with vprog := vp, cbuf := b, v := v, rsig := r, l1 := l, group := g }) :
    Lanewise s (s.setCore x) := by
  refine ⟨⟨_, rfl⟩, fun c hc => coreAt_setCoreAt_ne _ _ _ hc.symm, ?_⟩
  rwa [core_setCore]

section Fields
variable {s t : State} (h : Lanewise s t)
include h

theorem Lanewise.pkg : t.pkg = s.pkg := by obtain ⟨cs, ht⟩ := h.state; rw [ht]
theorem Lanewise.mem : t.mem = s.mem := by obtain ⟨cs, ht⟩ := h.state; rw [ht]
theorem Lanewise.poison : t.poison = s.poison := by obtain ⟨cs, ht⟩ := h.state; rw [ht]
theorem Lanewise.tick : t.tick = s.tick := by obtain ⟨cs, ht⟩ := h.state; rw [ht]
theorem Lanewise.ctxs : t.ctxs = s.ctxs := by obtain ⟨cs, ht⟩ := h.state; rw [ht]
theorem Lanewise.clusters : t.clusters = s.clusters := by obtain ⟨cs, ht⟩ := h.state; rw [ht]

theorem Lanewise.coreCtx : t.core.ctx = s.core.ctx := by obtain ⟨vp, b, v, r, l, g, hc⟩ := h.core; rw [hc]
theorem Lanewise.rev : t.core.rev = s.core.rev := by obtain ⟨vp, b, v, r, l, g, hc⟩ := h.core; rw [hc]
theorem Lanewise.trig : t.core.trig = s.core.trig := by obtain ⟨vp, b, v, r, l, g, hc⟩ := h.core; rw [hc]
theorem Lanewise.outst : t.core.outst = s.core.outst := by obtain ⟨vp, b, v, r, l, g, hc⟩ := h.core; rw [hc]
theorem Lanewise.ret : t.core.ret = s.core.ret := by obtain ⟨vp, b, v, r, l, g, hc⟩ := h.core; rw [hc]
theorem Lanewise.remap : t.core.remap = s.core.remap := by obtain ⟨vp, b, v, r, l, g, hc⟩ := h.core; rw [hc]
theorem Lanewise.mx : t.core.mx = s.core.mx := by obtain ⟨vp, b, v, r, l, g, hc⟩ := h.core; rw [hc]
theorem Lanewise.word : t.core.word = s.core.word := by obtain ⟨vp, b, v, r, l, g, hc⟩ := h.core; rw [hc]
theorem Lanewise.icount : t.core.icount = s.core.icount := by obtain ⟨vp, b, v, r, l, g, hc⟩ := h.core; rw [hc]

theorem Lanewise.ctxNo : t.ctxNo = s.ctxNo := by rw [State.ctxNo, h.coreCtx]; rfl

theorem Lanewise.coreAt_ctx (k : Nat) : (t.coreAt k).ctx = (s.coreAt k).ctx := by
  by_cases hk : k = s.cur
  · subst hk
    have hctx := h.coreCtx
    rwa [State.core, h.cur] at hctx
  · rw [h.others k hk]

theorem Lanewise.lsRedirect (ctx pa : Nat) : Machine.lsRedirect t ctx pa = Machine.lsRedirect s ctx pa :=
  lsRedirect_congr ctx pa (by rw [h.pkg]) h.coreAt_ctx (by rw [State.ctxAt, h.ctxs]; rfl)

end Fields

/-! ## The own local store (R58, R59, R251) -/

/-- Nothing of the current core stands in the way of an access to its own local store. -/
structure StoreServes (s : State) : Prop where
  resident : s.core.ctx.isSome = true
  noSprinkle : s.core.trig.kind ≠ 1
  noAtomic : s.core.outst = []
  noResult : s.core.ret = none
  inPackage : s.cur < 4096
  still : moving s s.cur = false

theorem Lanewise.serves {s t : State} (h : Lanewise s t) (hs : StoreServes s) : StoreServes t := by
  obtain ⟨hres, hkind, hidle, hret, hcur, hstill⟩ := hs
  refine ⟨by rwa [h.coreCtx], by rwa [h.trig], by rwa [h.outst], by rwa [h.ret], by rwa [h.cur], ?_⟩
  have hremap := h.remap
  rw [State.core, State.core, h.cur] at hremap
  rwa [moving, h.cur, hremap, State.clusterAt, h.clusters]

section Local
variable {s : State} (hs : StoreServes s) {va : Nat} (hwindow : va / 2 ^ 18 = 0xE * 2 ^ 30) (halign : va % 4 = 0)

/-- A place of the own local store by an address of window 0xE. -/
def ownPa (s : State) (va : Nat) : Nat := lsPa s s.cur (va % 2 ^ 18)

include hs in
theorem paLocal_ownPa : paLocal (ownPa s va) = lsRow + (s.cur * lsSize + va % 2 ^ 18) := by
  have hcur := hs.inPackage
  unfold paLocal ownPa lsPa lsRow lsSize
  omega

include hs in
theorem paPkg_ownPa : paPkg (ownPa s va) = s.pkg.num := by
  have hcur := hs.inPackage
  unfold paPkg ownPa lsPa lsRow lsSize
  omega

include hs in
theorem rowOf_ownPa : rowOf (ownPa s va) = .localStore := by
  have hcur := hs.inPackage
  unfold rowOf
  rw [paLocal_ownPa hs]
  unfold lsRow lsSize
  dsimp only
  rw [if_neg (by omega), if_neg (by omega), if_pos (by omega)]

include hs in
theorem lsCore_ownPa : lsCore (ownPa s va) = s.cur := by
  rw [lsCore, paLocal_ownPa hs]
  unfold lsRow lsSize
  omega

include hs in
theorem lsRedirect_ownPa : lsRedirect s s.ctxNo (ownPa s va) = ownPa s va := by
  obtain ⟨ctx, hctx⟩ := Option.isSome_iff_exists.mp hs.resident
  have hno : (s.coreAt s.cur).ctx = some s.ctxNo := by
    rw [State.ctxNo, hctx]
    exact hctx
  simp [lsRedirect, rowOf_ownPa hs, paPkg_ownPa hs, lsCore_ownPa hs, hno]

include halign in
theorem ownPa_mod_four : ownPa s va % 4 = 0 := by
  unfold ownPa lsPa lsRow lsSize
  omega

include hs hwindow halign in
/-- An aligned address of the own local store passes every check. -/
theorem resolve_ownPa (acc : Acc) : resolve va 4 acc s = .ok (.mem (ownPa s va), s) := by
  have hw : window va = 0xE := by unfold window; omega
  have hhigh : bits va 47 18 = 0 := by
    rw [bits, Nat.shiftRight_eq_div_pow]
    omega
  have hcheck : checkWindow s s.cur s.ctxNo va = .ok (.mem (ownPa s va)) := by
    rw [checkWindow, if_pos hw, if_pos hhigh]
    simp [ownPa, bits]
  rw [resolve, resolveFor, bind_ok (get_at s)]
  simp [hs.noResult, hs.noAtomic, hs.noSprinkle, halign, hw, hcheck]

include hs hwindow halign in
theorem resolveAtomic_ownPa (acc : Acc) : resolveAtomic va 4 acc s = .ok (.mem (ownPa s va), s) := by
  rw [resolveAtomic, bind_ok (resolve_ownPa hs hwindow halign acc)]
  simp [rowOf_ownPa hs]

end Local

/-! ## Reads of the own local store (R249, R251, R301) -/

/-- An address of the own local store, where the accesses of the activation act. -/
structure InOwnStore (s : State) (pa : Nat) : Prop where
  row : rowOf pa = .localStore
  pkg : paPkg pa = s.pkg.num
  owner : lsCore pa = s.cur
  here : lsRedirect s s.ctxNo pa = pa

theorem StoreServes.inOwnStore {s : State} (hs : StoreServes s) (va : Nat) : InOwnStore s (ownPa s va) :=
  ⟨rowOf_ownPa hs, paPkg_ownPa hs, lsCore_ownPa hs, lsRedirect_ownPa hs⟩

section Read
variable {s : State} {va pa n : Nat}

theorem readPlace_own (hs : StoreServes s) (h : InOwnStore s pa) (hclean : poisoned s pa = false) :
    readPlace s s.cur s.ctxNo (.mem pa) n = .ok (s.readPa pa n) := by
  have hfree : copying s s.cur = false := by
    have hstill := hs.still
    rw [moving, Bool.or_eq_false_iff] at hstill
    simp [copying, copyingCluster, hstill]
  have hopen : accessHeld s pa = false := by simp [accessHeld, h.row, h.pkg, h.owner, hfree]
  simp [readPlace, readMem, h.row, h.pkg, hopen, h.here, ownHbm, hclean]

/-- A read of the own local store leaves its place in the read signature alone. -/
theorem noteRead_own (h : InOwnStore s pa) : s.noteRead s.cur s.ctxNo (.mem pa) true n = s.noteSig s.cur (.mem pa) := by
  have hown : ownHbm s pa = false := by simp [ownHbm, h.row]
  have hcount : ∀ die, s.count s.ctxNo die (homePa s s.ctxNo (.mem pa)) false = s := by
    intro die
    simp [State.count, homePa, h.here, hown]
  have hask : ∀ b, s.askRemote s.ctxNo pa b = s := fun b => if_pos h.pkg
  simp [State.noteRead, servedPa, hask, hcount, State.fillL1, hown]

theorem noteSig_lanewise (pl : Place) : Lanewise s (s.noteSig s.cur pl) ∧ (s.noteSig s.cur pl).core.cbuf = s.core.cbuf ∧
    (s.noteSig s.cur pl).core.v = s.core.v := by
  unfold State.noteSig
  dsimp only
  split
  · have hmarked : ∀ r, Lanewise s (s.setCore { s.core with rsig := r }) ∧
        (s.setCore { s.core with rsig := r }).core.cbuf = s.core.cbuf ∧ (s.setCore { s.core with rsig := r }).core.v = s.core.v :=
      fun r => ⟨setCore_lanewise s _ ⟨_, _, _, _, _, _, rfl⟩, by rw [core_setCore], by rw [core_setCore]⟩
    exact hmarked _
  · exact ⟨.refl _, rfl, rfl⟩

/-- A word of the own local store, under the held stores. -/
theorem loadBytes_ownPa (hs : StoreServes s) (halign : va % 4 = 0) (hfree : heldAtomic s.core.cbuf (.mem (ownPa s va)) = false)
    (hclean : poisoned s (ownPa s va) = false) :
    ∃ z, Gives (loadBytes va (.mem (ownPa s va)) 4) s
        (loadedOver s.core.cbuf (.mem (ownPa s va)) 4 (s.readPa (ownPa s va) 4)) z ∧
      Lanewise s z ∧ z.core.cbuf = s.core.cbuf ∧ z.core.v = s.core.v := by
  have hfits : (Place.mem (ownPa s va)).inLine + 4 ≤ 64 := by
    have := ownPa_mod_four (s := s) halign
    change ownPa s va % 64 + 4 ≤ 64
    omega
  have hown := hs.inOwnStore va
  obtain ⟨z, hload, hz⟩ := loadLine_reads (va := va) hfree (readPlace_own hs (n := 4) hown hclean) (Mem.readN_length ..)
  refine ⟨z, (loadBytes_within hfits).trans hload, ?_⟩
  rcases hz with rfl | rfl
  · exact ⟨.refl _, rfl, rfl⟩
  · rw [noteRead_own hown]
    exact noteSig_lanewise _

end Read

/-! ## The lanes of vg.gat -/

/-- A register with some lanes written, one after another. -/
def setLanes (w : Fin 16 → Lane) (is : List (Fin 16)) (x : VWord) : VWord := is.foldl (fun x i => x.set i.val (w i) i.isLt) x

theorem setLanes_eq (w : Fin 16 → Lane) (is : List (Fin 16)) (x : VWord) :
    setLanes w is x = Vector.ofFn fun i => if i ∈ is then w i else x[i] := by
  induction is generalizing x with
  | nil => exact Vector.ext fun i hi => by simp [setLanes]
  | cons k rest ih =>
    refine (ih _).trans (Vector.ext fun i hi => ?_)
    simp only [Vector.getElem_ofFn, List.mem_cons, Fin.getElem_fin, Vector.getElem_set]
    by_cases hk : k.val = i
    · obtain rfl : k = ⟨i, hi⟩ := Fin.ext hk
      simp
    · have hne : ¬(⟨i, hi⟩ : Fin 16) = k := fun h => hk (congrArg Fin.val h).symm
      simp [hk, hne]

section Lanes
variable {s : State} {p : Word} {idx : VWord} {is : List (Fin 16)}

/-- The lanes of a list lie in the own local store, aligned. -/
def LanesOwn (p : Word) (idx : VWord) (is : List (Fin 16)) : Prop :=
  ∀ i ∈ is, inSpace (laneAddr p idx i) ∧ (laneAddr p idx i).toNat / 2 ^ 18 = 0xE * 2 ^ 30 ∧ (laneAddr p idx i).toNat % 4 = 0

theorem Lanewise.ownPa {t : State} (h : Lanewise s t) (va : Nat) : Machine.ownPa t va = Machine.ownPa s va := by
  rw [Machine.ownPa, Machine.ownPa, lsPa, lsPa, h.pkg, h.cur]

/-- A state in which vprog names a lane. -/
def State.atLane (t : State) (i : Fin 16) : State := t.setCore { t.core with vprog := BitVec.ofNat 11 i.val }

theorem atLane_lanewise (t : State) (i : Fin 16) : Lanewise t (t.atLane i) := setCore_lanewise t _ ⟨_, _, _, _, _, _, rfl⟩

theorem atLane_core (t : State) (i : Fin 16) : (t.atLane i).core = { t.core with vprog := BitVec.ofNat 11 i.val } := core_setCore ..

/-- A lane of the own local store is done where its access is. -/
theorem laneStep_own {acc : Acc} {F : Fin 16 → Nat → Place → State → State → Prop} {t u : State} {i : Fin 16} (hs : StoreServes s)
    (hown : LanesOwn p idx is) (hi : i ∈ is) (ht : Lanewise s t)
    (hdone : F i (laneAddr p idx i).toNat (.mem (ownPa s (laneAddr p idx i).toNat)) (t.atLane i) u) :
    laneStep acc p idx F i t u := by
  obtain ⟨hin, hwindow, halign⟩ := hown i hi
  have hlane := ht.trans (atLane_lanewise t i)
  refine ⟨hin, _, _, ?_, hdone⟩
  rw [← hlane.ownPa]
  split
  · exact resolveAtomic_ownPa (hlane.serves hs) hwindow halign acc
  · exact resolve_ownPa (hlane.serves hs) hwindow halign acc

/-- The word that a lane of vg.gat loads. -/
def gathered (s : State) (p : Word) (idx : VWord) (i : Fin 16) : Lane :=
  let pa := ownPa s (laneAddr p idx i).toNat
  BitVec.ofNat 32 (ofBytes (loadedOver s.core.cbuf (.mem pa) 4 (s.readPa pa 4)))

theorem gatherLanes_run {ra : VReg} (hs : StoreServes s) (hown : LanesOwn p idx is)
    (hfree : ∀ i ∈ is, heldAtomic s.core.cbuf (.mem (ownPa s (laneAddr p idx i).toNat)) = false ∧
      poisoned s (ownPa s (laneAddr p idx i).toNat) = false) {t : State} (ht : Lanewise s t) (hbuf : t.core.cbuf = s.core.cbuf) :
    ∃ u, lanesRun (laneStep .read p idx (gatherLane ra)) is t u ∧ Lanewise s u ∧ u.core.cbuf = s.core.cbuf ∧
      u.core.v = t.core.v.set ra.toNat (setLanes (gathered s p idx) is (t.core.getV ra)) ra.isLt := by
  induction is generalizing t with
  | nil => exact ⟨t, rfl, ht, hbuf, (Vector.set_getElem_self ..).symm⟩
  | cons i rest ih =>
    obtain ⟨hunheld, hclean⟩ := hfree i List.mem_cons_self
    obtain ⟨-, -, halign⟩ := hown i List.mem_cons_self
    have hlane := ht.trans (atLane_lanewise t i)
    have hbufLane : (t.atLane i).core.cbuf = s.core.cbuf := by rw [atLane_core]; exact hbuf
    have hvLane : (t.atLane i).core.v = t.core.v := by rw [atLane_core]
    obtain ⟨z, hload, hz, hzbuf, hzv⟩ := loadBytes_ownPa (s := t.atLane i) (hlane.serves hs) halign
      (by rw [hbufLane, hlane.ownPa]; exact hunheld) (by rw [poisoned, hlane.poison, hlane.ownPa]; exact hclean)
    rw [hbufLane, hlane.ownPa, State.readPa, hlane.mem] at hload
    have hstored : ∀ x, Lanewise z (z.setCore (z.core.setV ra x)) := fun x => setCore_lanewise z _ ⟨_, _, _, _, _, _, rfl⟩
    obtain ⟨u, hrun, hu, hubuf, huv⟩ := ih (fun j hj => hown j (List.mem_cons_of_mem i hj))
      (fun j hj => hfree j (List.mem_cons_of_mem i hj)) ((hlane.trans hz).trans (hstored ((z.core.getV ra).set i.val _ i.isLt)))
      (by rw [core_setCore]; exact hzbuf.trans hbufLane)
    refine ⟨u, ⟨_, laneStep_own hs hown List.mem_cons_self ht ⟨_, z, hload, rfl⟩, hrun⟩, hu, hubuf, huv.trans ?_⟩
    have hv : z.core.v = t.core.v := hzv.trans hvLane
    have hget : z.core.getV ra = t.core.getV ra := by rw [Core.getV, Core.getV, hv]
    rw [core_setCore, getV_setV_same, Core.setV, hv, hget, Vector.set_set]
    rfl

end Lanes

/-! ## Items held one after another (R249, R262, R296) -/

/-- An item of one entry takes up at most one more. -/
theorem held64_heldWith {x y : Core} {g : Gated} (hword : y.word = x.word) (hbuf : y.cbuf = heldWith x.cbuf g)
    (hone : entriesOf g = 1) : y.held64 ≤ x.held64 + 1 := by
  have hsum : ((heldWith x.cbuf g).map entriesOf).sum ≤ (x.cbuf.map entriesOf).sum + 1 := by
    unfold heldWith
    cases hmerge : mergeStore x.cbuf g with
    | none => simp [hone]
    | some buf =>
      unfold mergeStore at hmerge
      split at hmerge
      next pl' va' bs' rel' k' hlast =>
        split at hmerge
        · cases hmerge
          have hsplit := List.dropLast_append_getLast? _ hlast
          conv_rhs => rw [← hsplit]
          simp [entriesOf]
        · cases hmerge
      next => cases hmerge
  rw [Core.held64, Core.held64, hbuf, hword]
  omega

/-- What an item's group depends on. -/
theorem grouped_congr {x y : Core} (hgroup : y.group = x.group) (hcount : y.icount = x.icount) (g : Gated) :
    g.grouped y = g.grouped x := by
  unfold Gated.grouped
  rw [hgroup, hcount]

/-- A lane that leaves one more item in the buffer, and the rest of the activation's registers and its group. -/
structure HoldsOne (t u : State) (g : Gated) : Prop where
  near : Lanewise t u
  vectors : u.core.v = t.core.v
  group : u.core.group = t.core.group
  held : u.core.cbuf = heldWith t.core.cbuf g

theorem setBuf_holdsOne (t : State) (g : Gated) : HoldsOne t (t.setCore { t.core with cbuf := heldWith t.core.cbuf g }) g :=
  ⟨setCore_lanewise t _ ⟨_, _, _, _, _, _, rfl⟩, by rw [core_setCore], by rw [core_setCore], by rw [core_setCore]⟩

section Held
variable {s : State} {p : Word} {idx : VWord} {is : List (Fin 16)} {acc : Acc} {F : Fin 16 → Nat → Place → State → State → Prop}
  {item : Fin 16 → Gated} {gr : Option Nat}

theorem heldLanes_run (hs : StoreServes s) (hown : LanesOwn p idx is) (hone : ∀ i, entriesOf (item i) = 1)
    (hstep : ∀ i ∈ is, ∀ t, Lanewise s t → t.core.v = s.core.v → t.core.group = gr → t.core.held64 + 1 ≤ 64 →
      ∃ u, F i (laneAddr p idx i).toNat (.mem (ownPa s (laneAddr p idx i).toNat)) t u ∧ HoldsOne t u (item i))
    {t : State} (ht : Lanewise s t) (hv : t.core.v = s.core.v) (hgroup : t.core.group = gr)
    (hroom : t.core.held64 + is.length ≤ 64) :
    ∃ u, lanesRun (laneStep acc p idx F) is t u ∧ Lanewise s u ∧ u.core.v = s.core.v ∧
      u.core.cbuf = is.foldl (fun b i => heldWith b (item i)) t.core.cbuf := by
  induction is generalizing t with
  | nil => exact ⟨t, rfl, ht, hv, rfl⟩
  | cons i rest ih =>
    rw [List.length_cons] at hroom
    have hcore := atLane_core t i
    have hlane := ht.trans (atLane_lanewise t i)
    have hheld : (t.atLane i).core.held64 = t.core.held64 := by
      rw [hcore]
      rfl
    obtain ⟨w, hdone, hw⟩ := hstep i List.mem_cons_self (t.atLane i) hlane (by rw [hcore]; exact hv) (by rw [hcore]; exact hgroup)
      (by omega)
    have hgrown := held64_heldWith hw.near.word hw.held (hone i)
    obtain ⟨u, hrun, hu, huv, hubuf⟩ := ih (fun j hj => hown j (List.mem_cons_of_mem i hj))
      (fun j hj => hstep j (List.mem_cons_of_mem i hj)) (hlane.trans hw.near) (by rw [hw.vectors, hcore]; exact hv)
      (by rw [hw.group, hcore]; exact hgroup) (by omega)
    refine ⟨u, ⟨w, laneStep_own hs hown List.mem_cons_self ht hdone, hrun⟩, hu, huv, hubuf.trans ?_⟩
    rw [hw.held, hcore]
    rfl

end Held

/-! ## The lanes of vg.sca and of the vector atomics -/

section Gate
variable {t : State} {pa va : Nat} (hrev : t.core.rev = true) (hqueue : t.core.mx.queue = []) (hroom : t.core.held64 + 1 ≤ 64)
include hrev hroom

include hqueue in
/-- A word stored in a line is held as one item. -/
theorem storeGated_word (halign : pa % 4 = 0) (x : Nat) :
    ∃ u, Gives (storeGated va (.mem pa) (numbered (toBytes 4 x)) false) t () u ∧
      HoldsOne t u ((Gated.store (Place.mem pa).line (va / 64 * 64) (inLineOf (.mem pa) (numbered (toBytes 4 x))) false).grouped
        t.core) := by
  have hne : numbered (toBytes 4 x) ≠ [] := by simp [numbered, toBytes]
  have hline : ∀ b ∈ numbered (toBytes 4 x), (Place.mem pa).inLine + b.1 < 64 := by
    intro b hb
    have hk := (mem_numbered.mp hb).1
    rw [toBytes_length] at hk
    change pa % 64 + b.1 < 64
    omega
  have hread : mxUnread t t.cur (Place.mem pa).line = false := by
    have hnone : (t.coreAt t.cur).mx.queue = [] := hqueue
    simp [mxUnread, hnone]
  exact ⟨_, (storeGated_within hne hline).trans (gate_store_held hrev hread hroom), setBuf_holdsOne t _⟩

/-- An atomic of a function that a lane names is held as one item; the core's own L1 copy of its line is gone (R124). -/
theorem gate_atomic (pl : Place) (r : AtomReq) :
    ∃ u, Gives (gate (.atomic pl r)) t () u ∧ HoldsOne t u ((Gated.atomic pl r).grouped t.core) := by
  obtain ⟨l, hl⟩ : ∃ l, t.dropOwn t.cur t.ctxNo pl = t.setCore { t.core with l1 := l } := ⟨_, rfl⟩
  have hdropped : dropAtomicLine (.atomic pl r) t = .ok ((), t.setCore { t.core with l1 := l }) := by
    rw [dropAtomicLine, modify_at, hl]
  have hnear : Lanewise t (t.setCore { t.core with l1 := l }) := setCore_lanewise t _ ⟨_, _, _, _, _, _, rfl⟩
  have hcore : (t.setCore { t.core with l1 := l }).core = { t.core with l1 := l } := core_setCore ..
  generalize t.setCore { t.core with l1 := l } = w at hdropped hnear hcore
  have hrevw : w.core.rev = true := by rw [hcore]; exact hrev
  have hroomw : w.core.held64 + 1 ≤ 64 := by rw [hcore]; exact hroom
  obtain ⟨r', hitem⟩ : ∃ r', (Gated.atomic pl r).grouped w.core = .atomic pl r' := by
    unfold Gated.grouped
    split
    next heq => cases heq
    next heq => cases heq; exact ⟨_, rfl⟩
    next => exact ⟨_, rfl⟩
  have hgroup : (Gated.atomic pl r).grouped t.core = .atomic pl r' := by
    rw [← hitem]
    exact (grouped_congr (by rw [hcore]) (by rw [hcore]) _).symm
  have hheld := setBuf_holdsOne w (.atomic pl r')
  refine ⟨_, ?_, ⟨hnear.trans hheld.near, hheld.vectors.trans (by rw [hcore]), hheld.group.trans (by rw [hcore]), ?_⟩⟩
  · rw [Gives, gate, bind_ok hdropped, bind_ok (get_at w), hitem]
    have hgo : ¬mustWait w (.atomic pl r') = true := Bool.false_ne_true
    refine (congrFun (if_neg hgo) w).trans ((congrFun (if_pos hrevw) w).trans ?_)
    exact congrFun (if_pos hroomw) w
  · rw [hgroup, hheld.held, hcore]

end Gate

/-- The request of an atomic is the same behind other lanes. -/
theorem Lanewise.atomReq {s t : State} (h : Lanewise s t) (fn width va pa : Nat) (b c : Word) (dest la : Nat) :
    Machine.atomReq t fn width va (.mem pa) b c dest la = Machine.atomReq s fn width va (.mem pa) b c dest la := by
  simp only [Machine.atomReq, homePa, h.cur, h.pkg, h.ctxNo, h.lsRedirect, h.tick, h.trig]

end Sys2Proof.Machine
end

section
/-!
PROOFS. The vector memory obligation: lanes that pass carry the instruction to its end, and lanes in the own local store pass.
-/
namespace Sys2Proof.Machine

theorem inGroup_lanewise (s : State) : Lanewise s s.inGroup := setCore_lanewise s _ ⟨_, _, _, _, _, _, rfl⟩

theorem inGroup_core (s : State) : s.inGroup.core = { s.core with group := some s.core.chainOut.length } := core_setCore ..

section Store
variable {s : State} {i : Instr} {acc : Acc} {f : Fin 16 → Nat → Place → M Unit}
  {F : Fin 16 → Nat → Place → State → State → Prop}
  {base : Fin 16 → Gated} {rb : SReg} {rc : VReg}

/-- A scatter or a vector atomic whose lanes lie in the own local store leaves one item for each lane in the buffer. -/
theorem vgStore_own (hi : exec i s = run (vgStore acc rb rc f) s) (hacc : acc ≠ .read)
    (hf : ∀ i va pl w u, F i va pl w u → f i va pl w = .ok ((), u)) (hport : portOf rb = none) (hs : StoreServes s)
    (hown : LanesOwn (s.core.getS rb) (s.core.getV rc) (activeLanes s.core)) (hrev : s.core.rev = true)
    (hroom : s.core.held64 + (activeLanes s.core).length ≤ 64) (hone : ∀ (i : Fin 16) (c : Core), entriesOf ((base i).grouped c) = 1)
    (hstep : ∀ i ∈ activeLanes s.core, ∀ t, Lanewise s t → t.core.v = s.core.v → t.core.held64 + 1 ≤ 64 →
      ∃ u, F i (laneAddr (s.core.getS rb) (s.core.getV rc) i).toNat
        (.mem (ownPa s (laneAddr (s.core.getS rb) (s.core.getV rc) i).toNat)) t u ∧ HoldsOne t u ((base i).grouped t.core)) :
    ∃ z, Ends i s (z.done [rb]) ∧ z.core.vprog = 0 ∧
      z.core.cbuf = (activeLanes s.core).foldl (fun b i => heldWith b ((base i).grouped s.inGroup.core)) s.core.cbuf ∧
      SameMemory s z ∧ z.core.s = s.core.s ∧ z.core.v = s.core.v ∧ z.core.p = s.core.p ∧ z.core.pc = s.core.pc := by
  have hreg : s.r1 rb = s.core.getS rb := by simp [State.r1, Core.takeS, hport]
  have hopen : openPorts none [rb] s = .ok ((), s) := openPorts_none s (by simp [portsOf, hport])
  have hlanes : ∀ t : State, Lanewise s t → t.core.v = s.core.v → t.core.held64 = s.core.held64 →
      ∃ u, lanesRun (laneStep acc (s.r1 rb) (s.core.getV rc) F) (activeLanes s.core) t u ∧ Lanewise s u ∧ u.core.v = s.core.v ∧
        u.core.cbuf = (activeLanes s.core).foldl (fun b i => heldWith b ((base i).grouped t.core)) t.core.cbuf := by
    intro t ht hv hheld
    rw [hreg]
    refine heldLanes_run (gr := t.core.group) hs hown (fun i => hone i _) (fun i hi w hw hwv hgroup hwroom => ?_) ht hv rfl (by omega)
    rw [← grouped_congr hgroup (hw.icount.trans ht.icount.symm)]
    exact hstep i hi w hw hwv hwroom
  obtain ⟨v, hroomRun, hv, -, -⟩ := hlanes s (.refl s) rfl rfl
  obtain ⟨u, hrun, hu, huv, hubuf⟩ := hlanes s.inGroup (inGroup_lanewise s) (by rw [inGroup_core]) (by rw [inGroup_core]; rfl)
  obtain ⟨-, hends⟩ := vgStore_passes (v := v) hi hopen hacc hf
  obtain ⟨vp, b, w, r, l, g, hcore⟩ := hu.core
  refine ⟨_, hends hrev hroomRun (hv.rev.trans hrev) hrun, ?_⟩
  rw [core_setCore]
  refine ⟨rfl, ?_, fun a => congrArg (Mem.read · a) hu.mem, by rw [hcore], huv, by rw [hcore], by rw [hcore]⟩
  rw [hubuf, inGroup_core]

end Store

/-! ## The lanes by the registers of the instruction -/

/-- The address of a lane by registers. -/
def laneVa (s : State) (rb : SReg) (rc : VReg) (i : Fin 16) : Nat := (laneAddr (s.core.getS rb) (s.core.getV rc) i).toNat

/-- The place of a lane in the own local store. -/
def lanePa (s : State) (rb : SReg) (rc : VReg) (i : Fin 16) : Nat := ownPa s (laneVa s rb rc i)

/-- The item of a lane of vg.sca, before it belongs to a group. -/
def scattered (s : State) (ra : VReg) (rb : SReg) (rc : VReg) (i : Fin 16) : Gated :=
  .store (Place.mem (lanePa s rb rc i)).line (laneVa s rb rc i / 64 * 64)
    (inLineOf (.mem (lanePa s rb rc i)) (numbered (toBytes 4 ((s.core.getV ra)[i]).toNat))) false

/-- The item of a lane of a vector atomic, before it belongs to a group. -/
def requested (s : State) (fn : Nat) (ra : VReg) (rb : SReg) (rc : VReg) (i : Fin 16) : Gated :=
  .atomic (.mem (lanePa s rb rc i))
    (atomReq s fn 4 (laneVa s rb rc i) (.mem (lanePa s rb rc i)) (((s.core.getV ra)[i]).setWidth 64) 0 0 0)

/-- A byte of a lane in the own local store, under the held stores. -/
def laneByte (s : State) (rb : SReg) (rc : VReg) (i : Fin 16) (k : Nat) : Byte :=
  (heldByte s.core.cbuf ((Place.mem (lanePa s rb rc i)).plus k)).getD (s.mem.read (lanePa s rb rc i + k))

theorem gathered_eq (s : State) (rb : SReg) (rc : VReg) (i : Fin 16) : gathered s (s.core.getS rb) (s.core.getV rc) i =
    BitVec.ofNat 32 (ofBytes ((List.range 4).map (laneByte s rb rc i))) := by
  rw [gathered]
  refine congrArg (fun bs => BitVec.ofNat 32 (ofBytes bs)) (List.map_congr_left fun k hk => ?_)
  have hread : (s.readPa (lanePa s rb rc i) 4).getD k 0 = s.mem.read (lanePa s rb rc i + k) := by
    have hk4 := List.mem_range.mp hk
    simp [State.readPa, Mem.readN, hk4]
  rw [laneByte, ← hread]
  rfl

section Own
variable {s : State} {ra rc : VReg} {rb : SReg} (hport : portOf rb = none) (hs : StoreServes s)
  (hown : LanesOwn (s.core.getS rb) (s.core.getV rc) (activeLanes s.core))
include hport hs hown

theorem vgSca_own (hrev : s.core.rev = true) (hqueue : s.core.mx.queue = [])
    (hroom : s.core.held64 + (activeLanes s.core).length ≤ 64) :
    ∃ z, Ends (.vgSca ra rb rc) s (z.done [rb]) ∧ z.core.vprog = 0 ∧
      z.core.cbuf = (activeLanes s.core).foldl (fun b i => heldWith b (.store (Place.mem (lanePa s rb rc i)).line
        (laneVa s rb rc i / 64 * 64) (inLineOf (.mem (lanePa s rb rc i)) (numbered (toBytes 4 ((s.core.getV ra)[i]).toNat))) false
        [s.core.icount + 1])) s.core.cbuf ∧
      SameMemory s z ∧ z.core.s = s.core.s ∧ z.core.v = s.core.v ∧ z.core.p = s.core.p ∧ z.core.pc = s.core.pc := by
  have hlane : ∀ i ∈ activeLanes s.core, ∀ t, Lanewise s t → t.core.v = s.core.v → t.core.held64 + 1 ≤ 64 →
      ∃ u, scatterLane ra i (laneVa s rb rc i) (.mem (lanePa s rb rc i)) t u ∧
        HoldsOne t u ((scattered s ra rb rc i).grouped t.core) := by
    intro i hi t ht hv hheld
    obtain ⟨-, -, halign⟩ := hown i hi
    have hreg : t.core.getV ra = s.core.getV ra := by rw [Core.getV, Core.getV, hv]
    unfold scatterLane
    rw [hreg]
    exact storeGated_word (ht.rev.trans hrev) ((congrArg Matrix.queue ht.mx).trans hqueue) hheld (ownPa_mod_four halign) _
  have hone : ∀ (i : Fin 16) (c : Core), entriesOf ((scattered s ra rb rc i).grouped c) = 1 := fun i c => by
    obtain ⟨k, hk⟩ := grouped_store c (Place.mem (lanePa s rb rc i)).line (laneVa s rb rc i / 64 * 64)
      (inLineOf (.mem (lanePa s rb rc i)) (numbered (toBytes 4 ((s.core.getV ra)[i]).toNat))) false
    rw [scattered, hk]
    rfl
  obtain ⟨z, hends, hvp, hbuf, hrest⟩ := vgStore_own (i := .vgSca ra rb rc) rfl (by decide)
    (fun i va pl w u hdone => (bind_ok (core_at w)).trans hdone) hport hs hown hrev hroom hone hlane
  refine ⟨z, hends, hvp, hbuf.trans ?_, hrest⟩
  rw [inGroup_core]
  rfl

theorem vgAtomic_own {fn : Nat} {i : Instr} (hi : exec i s = run (vgAtomic fn ra rb rc) s) (hrev : s.core.rev = true)
    (hroom : s.core.held64 + (activeLanes s.core).length ≤ 64) :
    ∃ z, Ends i s (z.done [rb]) ∧ z.core.vprog = 0 ∧
      z.core.cbuf = (activeLanes s.core).foldl (fun b i => heldWith b (.atomic (.mem (lanePa s rb rc i))
        { atomReq s fn 4 (laneVa s rb rc i) (.mem (lanePa s rb rc i)) (((s.core.getV ra)[i]).setWidth 64) 0 0 0 with
          grp := [s.core.icount + 1] })) s.core.cbuf ∧
      SameMemory s z ∧ z.core.s = s.core.s ∧ z.core.v = s.core.v ∧ z.core.p = s.core.p ∧ z.core.pc = s.core.pc := by
  have hlane : ∀ i ∈ activeLanes s.core, ∀ t, Lanewise s t → t.core.v = s.core.v → t.core.held64 + 1 ≤ 64 →
      ∃ u, atomicLane fn ra i (laneVa s rb rc i) (.mem (lanePa s rb rc i)) t u ∧
        HoldsOne t u ((requested s fn ra rb rc i).grouped t.core) := by
    intro i _ t ht hv hheld
    have hreg : t.core.getV ra = s.core.getV ra := by rw [Core.getV, Core.getV, hv]
    unfold atomicLane
    rw [hreg, ht.atomReq]
    exact gate_atomic (ht.rev.trans hrev) hheld _ _
  have hone : ∀ (i : Fin 16) (c : Core), entriesOf ((requested s fn ra rb rc i).grouped c) = 1 := fun i c => by
    unfold Gated.grouped
    split <;> rfl
  obtain ⟨z, hends, hvp, hbuf, hrest⟩ := vgStore_own (i := i) hi (by decide)
    (fun i va pl w u hdone => (bind_ok (get_at w)).trans hdone) hport hs hown hrev hroom hone hlane
  refine ⟨z, hends, hvp, hbuf.trans ?_, hrest⟩
  rw [inGroup_core]
  rfl

theorem vgGat_own {la : BitVec 4} (hfree : ∀ i ∈ activeLanes s.core, heldAtomic s.core.cbuf (.mem (lanePa s rb rc i)) = false ∧
      poisoned s (lanePa s rb rc i) = false) :
    ∃ z, Ends (.vgGat la ra rb rc) s (z.withR (.v ra (Vector.ofFn fun i => if i ∈ activeLanes s.core then
        BitVec.ofNat 32 (ofBytes ((List.range 4).map (laneByte s rb rc i))) else (s.core.getV ra)[i])) la [rb]) ∧
      z.core.vprog = 0 ∧ z.core.cbuf = s.core.cbuf ∧
      SameMemory s z ∧ z.core.s = s.core.s ∧ z.core.v = s.core.v ∧ z.core.p = s.core.p ∧ z.core.pc = s.core.pc := by
  have hreg : s.r1 rb = s.core.getS rb := by simp [State.r1, Core.takeS, hport]
  have hopen : openPorts none [rb] s = .ok ((), s) := openPorts_none s (by simp [portsOf, hport])
  obtain ⟨u, hrun, hu, hbuf, hv⟩ := gatherLanes_run (ra := ra) hs hown hfree (.refl s) rfl
  rw [← hreg] at hrun
  have hends := vgGat_passes (la := la) hopen hrun
  have hnew : u.core.getV ra = Vector.ofFn fun i => if i ∈ activeLanes s.core then
      BitVec.ofNat 32 (ofBytes ((List.range 4).map (laneByte s rb rc i))) else (s.core.getV ra)[i] := by
    rw [Core.getV, hv, setLanes_eq]
    simp only [Vector.getElem_set_self, gathered_eq]
  rw [hnew] at hends
  obtain ⟨vp, b, w, r, l, g, hcore⟩ := hu.core
  refine ⟨_, hends, ?_⟩
  rw [core_setCore]
  refine ⟨rfl, hbuf, fun a => congrArg (Mem.read · a) hu.mem, ?_, ?_, ?_, ?_⟩
  · rw [hcore]
    rfl
  · change (u.core.setV ra (s.core.getV ra)).v = s.core.v
    rw [Core.setV, hv, Vector.set_set]
    exact Vector.set_getElem_self ..
  · rw [hcore]
    rfl
  · rw [hcore]
    rfl

end Own

/-- Settles O22: the instructions come to their ends with their lanes, and in the own local store every lane passes. -/
theorem vectorMemory : Obligations.VectorMemory := by
  intro s t u v la ra rc rb atomics
  have hfn : ∀ x ∈ atomics, ∀ s : State, exec x.2 s = run (vgAtomic x.1 ra rb rc) s := by
    intro x hx s
    simp only [atomics, List.mem_cons, List.not_mem_nil, or_false] at hx
    rcases hx with rfl | rfl | rfl | rfl | rfl <;> rfl
  refine ⟨fun hports => ?run, fun hport => ?own⟩
  case run =>
    refine ⟨vgStore_passes rfl hports (by decide) fun i va pl w u h => (bind_ok (core_at w)).trans h,
      fun x hx => vgStore_passes (hfn x hx s) hports (by decide) fun i va pl w u h => (bind_ok (get_at w)).trans h,
      vgGat_passes hports, fun hp0 hbuf i hi => ?_⟩
    rcases List.mem_cons.mp hi with rfl | hi
    · exact vgStore_no_lane rfl hports (by decide) hp0 hbuf
    · obtain ⟨x, hx, rfl⟩ := List.mem_map.mp hi
      exact vgStore_no_lane (hfn x hx s) hports (by decide) hp0 hbuf
  case own =>
    intro p idx lanes hlocal va pl x holds
    obtain ⟨hres, hkind, hidle, hret, hcur, hstill, hown⟩ := hlocal
    have hs : StoreServes s := ⟨hres, hkind, hidle, hret, hcur, hstill⟩
    exact ⟨fun hrev hqueue hroom => ⟨vgSca_own hport hs hown hrev hqueue hroom,
      fun a ha => vgAtomic_own hport hs hown (hfn a ha s) hrev hroom⟩, vgGat_own hport hs hown⟩

end Sys2Proof.Machine
end

section
/-!
PROOFS. Nothing stops the machine but a shutdown: each instruction answers a next state, and so does each part of a turn.
-/
namespace Sys2Proof.Machine

/-- The machine goes on: an outcome is a next state. -/
def Continues (o : Host.Outcome State Fault Refusal) : Prop := ∃ t, o = .next t

theorem next_continues (s : State) : Continues (.next s) := ⟨s, rfl⟩

/-- A meaning that goes through and one that ends early both end in a next state. -/
theorem run_continues (m : M Unit) (s : State) : Continues (run m s) := by
  unfold run
  split
  · exact next_continues _
  · exact next_continues _

/-- An instruction of a program is a meaning that is run; a step of the device or of the outside world is a next state outright, and a
PTP message is one whether a port listens or not. -/
theorem exec_continues (i : Instr) (s : State) : Continues (exec i s) := by
  cases i
  case ptpMessage tai err =>
    change Continues (execPtpMessage tai err s)
    unfold execPtpMessage
    split
    · exact next_continues _
    · exact next_continues _
  case registerWrite | rostatSelect | rostatArm | rostatDisarm | ctxctlPreempt | ctxctlResume | ctxctlKill |
      messageArrival | dispatch | activationCommit | sequencerArrival | tlbMissAtSlice | pageWalkComplete |
      pgInvalCompletion | pgPinCompletion | epochEnd | migrationSwitch | homeSliceAccess | invalidation |
      invalidationAck | atomicAtHome | watchArmAtHome | combineRequest | combineWindowExpiry | decombine |
      atomicReplyTimeout | tileFetchLine | matrixCommandExecute | gangStart | copyBeat | footprintPrefetch |
      remotePortAccess | queueWordArrival | chainStoreAtLink | chainAcknowledgement | chainStoreCompletion | chainRead
      | chainTailQuery | chainPageCopy | chainPromotionMarker | chainHeadHandoff | chainCleanDone | linkUnreachable |
      postArrival | postApply | reportWindowExpiry | runOutFire | taskAtHome | taskDeadline | taskTake |
      barrierAcknowledgement | barrierRelease | launchTrigger | launchBatch | indexAcknowledgement | preemptionHalt |
      localStoreSwap | gatePost | gateArmed | gateGuardDeadline | gateGo | gateAbort | gateActionTime |
      gateArmedTimeout | errorRetry | remapComplete | linkRemoval | packetResendTimeout | heartbeatTimeout |
      budgetExpiry | hostTriggerRecord | mailboxCompletion | ualinkRequest | hostCompletion | hostCompletionTimeout |
      ethernetTransmit | ethernetReceive | clockDegradedExit | boot | selfTestReady | thermalShutdown |
      clockDegradedEntry | goMarkedNow | bridgeLaneSwapDone | lostResponseTimeout | powerCapping | mbxAttest |
      mbxCreateContext | mbxLoadImage | mbxDestroyContext | mbxTenantKey | mbxReserveRange | mbxHealthLog |
      mbxUnlistedCommand =>
    exact next_continues _
  all_goals
    delta exec
    exact run_continues _ _

/-! ## A step in progress, and a core's instruction -/

theorem runFlight_continues (s : State) (k : Nat) : Continues (s.runFlight k) := by
  unfold State.runFlight
  dsimp only
  split
  · exact exec_continues _ _
  · exact next_continues _

theorem runInstr_continues (s : State) (i : Instr) (w : BitVec 32) (b : Option Block) : Continues (s.runInstr i w b) := by
  unfold State.runInstr
  dsimp only
  split
  · exact next_continues _
  · split
    · exact run_continues _ _
    · exact exec_continues _ _

theorem fetchAndRun_continues (s : State) : Continues s.fetchAndRun := by
  unfold State.fetchAndRun
  split
  · exact runInstr_continues _ _ _ _
  · exact next_continues _

/-! ## The turn of a core, by its phase -/

theorem waitTurn_continues (s : State) : Continues s.waitTurn := by
  unfold State.waitTurn
  split
  · exact next_continues _
  · exact runFlight_continues s 0

theorem runningTurn_continues (s : State) : Continues s.runningTurn := by
  unfold State.runningTurn
  dsimp only
  split
  · exact next_continues _
  · split
    · exact waitTurn_continues _
    · split
      · exact runInstr_continues _ _ _ _
      · split
        · exact waitTurn_continues _
        · exact fetchAndRun_continues _

theorem endingTurn_continues (s : State) : Continues s.endingTurn := by
  unfold State.endingTurn
  split
  · exact waitTurn_continues s
  · split
    · exact next_continues _
    · exact exec_continues _ _

theorem idleTurn_continues (s : State) : Continues s.idleTurn := by
  unfold State.idleTurn
  dsimp only
  split
  · exact exec_continues _ _
  · split
    · exact runFlight_continues _ _
    · split
      · split
        · exact next_continues _
        · split
          · split
            · exact next_continues _
            · exact runFlight_continues _ _
          · exact exec_continues _ _
      · exact exec_continues _ _

theorem coreTurn_continues (s : State) : Continues s.coreTurn := by
  unfold State.coreTurn
  split
  · exact runningTurn_continues s
  · exact endingTurn_continues s
  · exact idleTurn_continues s
  · exact runFlight_continues s 0

/-! ## The turn of the machine -/

theorem act_continues (s : State) (t : Turn) : Continues (s.act t) := by
  cases t with
  | core dt c comb => exact coreTurn_continues _
  | event dt i => exact exec_continues _ _
  | pending dt k => exact runFlight_continues _ _

theorem turn_continues {s : State} (h : s.pkg.down = false) : Continues s.turn := by
  unfold State.turn
  rw [if_neg (by simp [h])]
  split
  · exact act_continues _ _
  · exact act_continues _ _

theorem turn_of_down {s : State} (h : s.pkg.down = true) : s.turn = .fault .shutDown := if_pos h

/-- Settles O60: a step is a turn of the machine, and what a turn runs answers a next state; the shutdown alone is a fault. -/
theorem nothingStops : Obligations.NothingStops :=
  ⟨exec_continues, fun _ h => turn_continues h, fun _ h => turn_of_down h⟩

end Sys2Proof.Machine
end

section
/-!
PROOFS. The worked encodings of Table 1.10, and the machine after reset.
-/
namespace Sys2Proof.Machine

/-- Settles O55: each instruction of the table has its word, and what has a word is decoded from it; the words traced below the table
fail at the checks that Table 1.9 names. -/
theorem workedEncodings : Obligations.WorkedEncodings := by
  refine ⟨fun p hp => Laws.Encoding.decodeWord_encode p.2 p.1 ?encoded, ?reserved⟩
  case encoded =>
    revert p
    decide
  case reserved => exact ⟨by decide, by decide, .illegal, by decide, by decide⟩

/-- A core as it is after reset. -/
theorem reset_coreAt (c : Nat) : State.reset.coreAt c = {} := rfl

theorem fresh_getS (n : SReg) : ({} : Core).getS n = 0 := by simp [Core.getS]

theorem fresh_getV (n : VReg) : ({} : Core).getV n = Vector.replicate 16 0 := by simp [Core.getV]

theorem fresh_getP (n : PReg) : ({} : Core).getP n = 0 := by simp [Core.getP]

/-- Settles O58: the machine after reset lists no core, no context and no memory, so each is as a fresh one. -/
theorem resetState : Obligations.ResetState := by
  refine ⟨rfl, rfl, fun _ => rfl, rfl, rfl, rfl, rfl, fun c => ?_⟩
  rw [reset_coreAt]
  exact ⟨rfl, rfl, rfl, rfl, fresh_getS, fresh_getV, fresh_getP, rfl, rfl, rfl, rfl, rfl⟩

end Sys2Proof.Machine
end

section
/-!
PROOFS. The sys group: system registers and their checks, and the traps of a core with the returns from them.
-/
namespace Sys2Proof.Machine

/-! ## The checks of a register number (R346, R347) -/

section Numbers
variable {s : State} {n : Nat}

theorem checkNumber_unprivileged (hn : 0x100 ≤ n) (h : (s.ctxAt s.ctxNo).privileged = false) :
    checkNumber n s = .error (s.takeTrap s.cur 0x05 s.core.pc (irWord s)) := by
  simp [checkNumber, bind_at, hn, h]

/-- A number that the context's privilege admits. -/
def Lawful (s : State) (n : Nat) : Prop := n < 0x100 ∨ (s.ctxAt s.ctxNo).privileged = true

theorem checkNumber_of_lawful (h : Lawful s n) : checkNumber n s =
    (if !assigned n then illegal else if perContext n && !(s.ctxAt s.core.csel.toNat).live then trap 0x05 (irWord s)
      else pure () : M Unit) s := by
  have hpass : ¬(0x100 ≤ n ∧ (!(s.ctxAt s.ctxNo).privileged) = true) := by
    rintro ⟨hn, hp⟩
    rcases h with h | h
    · omega
    · simp [h] at hp
  exact congrFun (if_neg hpass) s

theorem checkNumber_unassigned (h : Lawful s n) (ha : assigned n = false) :
    checkNumber n s = .error (s.takeTrap s.cur 0x01 s.core.pc (irWord s)) := by
  rw [checkNumber_of_lawful h, ha]
  rfl

theorem checkNumber_absent (h : Lawful s n) (ha : assigned n = true) (hp : perContext n = true)
    (hl : (s.ctxAt s.core.csel.toNat).live = false) :
    checkNumber n s = .error (s.takeTrap s.cur 0x05 s.core.pc (irWord s)) := by
  rw [checkNumber_of_lawful h, ha, hp, hl]
  rfl

/-- ls and le are registers of the activation, which every context may name. -/
theorem checkNumber_loopBound (h : loopBound n = true) : checkNumber n s = .ok ((), s) := by
  have hn : n = 0x031 ∨ n = 0x032 := by simpa [loopBound] using h
  rcases hn with rfl | rfl
  · rw [checkNumber_of_lawful (.inl (by decide))]
    rfl
  · rw [checkNumber_of_lawful (.inl (by decide))]
    rfl

end Numbers

/-! ## Reads and writes of a register -/


section Writing
variable {s t : State} {r : SReg} {n : BitVec 10} {f : Word → Word → Word}

/-- What follows the checks of a number in a write: the register takes the value, the instruction retires, and a request of ctxctl is
made (R334). -/
theorem putReg_passes (hcheck : Gives (checkNumber n.toNat) s () s) (hloop : (s.core.lp.act && loopBound n.toNat) = false)
    (hports : Gives (openPorts none [r]) s () t) :
    putReg r n f s = .ok ((),
      let v := f (sysOld t n.toNat) (t.r1 r)
      let u := (t.writeReg n.toNat v).done [r]
      if n.toNat = 0x12A then u.ctxctl t.core.csel.toNat v else u) := by
  unfold putReg
  rw [bind_ok hcheck, bind_ok (core_at s)]
  refine (congrFun (if_neg (by simp [hloop])) s).trans ?_
  dsimp only
  rw [bind_ok hports, bind_ok (get_at t), bind_ok (modify_at _), bind_ok (finish_at ..)]
  unfold onlyIf
  by_cases hn : n.toNat = 0x12A
  · simp only [hn, beq_self_eq_true, if_true]
    rfl
  · rw [if_neg (by simpa using hn), if_neg hn]
    rfl

theorem putReg_stops {u : State} (hcheck : checkNumber n.toNat s = .error u) : putReg r n f s = .error u := bind_error hcheck

theorem putReg_in_loop (hact : s.core.lp.act = true) (hbound : loopBound n.toNat = true) :
    putReg r n f s = .error (s.takeTrap s.cur 0x0A s.core.pc (irWord s)) := by
  unfold putReg
  rw [bind_ok (checkNumber_loopBound hbound), bind_ok (core_at s)]
  refine (congrFun (if_pos (by simp [hact, hbound])) s).trans ?_
  rfl

theorem sysGet_ends (hcheck : Gives (checkNumber n.toNat) s () s) (hports : Gives (openPorts (some r) []) s () t) :
    Ends (.sysGet r n) s (t.withS r [] (sysRead t n.toNat)) := by
  refine run_ok ?_
  rw [bind_ok hcheck, bind_ok hports, bind_ok (get_at t)]
  exact finishS_at ..

/-- An instruction of sys on a register stops where the check of its number stops it. -/
theorem sysRegister_stops {u : State} (hcheck : checkNumber n.toNat s = .error u) :
    ∀ i ∈ [Instr.sysGet r n, .sysPut r n, .sysSet r n, .sysClr r n], Ends i s u := by
  simp only [List.forall_mem_cons, List.not_mem_nil, false_imp_iff, implies_true, and_true]
  exact ⟨run_error (bind_error hcheck), run_error (putReg_stops hcheck), run_error (putReg_stops hcheck),
    run_error (putReg_stops hcheck)⟩

end Writing

/-- Settles O24: a number that passes is read or written; the checks of a number stop all four instructions, and those of an active
loop the three that write. -/
theorem systemRegisters : Obligations.SystemRegisters := by
  refine ⟨fun s t r n hcheck => ⟨sysGet_ends hcheck, fun hloop hports => ?write⟩,
    fun s r n => ⟨?unprivileged, ?unassigned, ?absent, ?loop⟩⟩
  case write =>
    exact ⟨run_ok (putReg_passes hcheck hloop hports), run_ok (putReg_passes hcheck hloop hports),
      run_ok (putReg_passes hcheck hloop hports)⟩
  case unprivileged => exact fun hn hp => sysRegister_stops (checkNumber_unprivileged hn hp)
  case unassigned => exact fun hl ha => sysRegister_stops (checkNumber_unassigned hl ha)
  case absent => exact fun hl ha hp hlive => sysRegister_stops (checkNumber_absent hl ha hp hlive)
  case loop =>
    intro hn hact
    have hbound : loopBound n.toNat = true := by rcases hn with rfl | rfl <;> rfl
    simp only [List.forall_mem_cons, List.not_mem_nil, false_imp_iff, implies_true, and_true]
    exact ⟨run_error (putReg_in_loop hact hbound), run_error (putReg_in_loop hact hbound), run_error (putReg_in_loop hact hbound)⟩

end Sys2Proof.Machine
end

section
/-!
PROOFS. Taking a trap and returning from it: the core alone changes, its windows close, and its level rises or falls by one.
-/
namespace Sys2Proof.Machine

/-! ## Windows that close (R19, Table 1.6) -/

theorem mem_of_mem_stay {ps : List Pend} {q : Pend} (h : q ∈ (duePends ps).2) : q ∈ ps := by
  induction ps with
  | nil => exact h
  | cons p rest ih =>
    unfold duePends at h
    dsimp only at h
    split at h
    · exact List.mem_cons_of_mem _ (ih h)
    · rcases List.mem_cons.mp h with rfl | h
      · exact List.mem_cons_self ..
      · exact List.mem_cons_of_mem _ (ih h)

/-- Results whose windows have ended and whose values have come are all due. -/
theorem stay_eq_nil {ps : List Pend} (hleft : ∀ q ∈ ps, q.left = 0) (hwait : ∀ q ∈ ps, q.wait = none) : (duePends ps).2 = [] := by
  induction ps with
  | nil => rfl
  | cons p rest ih =>
    have hstay := ih (fun q hq => hleft q (by simp [hq])) fun q hq => hwait q (by simp [hq])
    unfold duePends
    simp [hstay, hleft p (by simp), hwait p (by simp)]

section Windows
variable (x : Core)

theorem closeWindows_pend : x.closeWindows.pend = (duePends (x.pend.map fun p => { p with left := 0 })).2 := by
  obtain ⟨s, v, m, h⟩ := foldl_apply_eq { x with pend := (duePends (x.pend.map fun p => { p with left := 0 })).2 }
    (duePends (x.pend.map fun p => { p with left := 0 })).1
  rw [Core.closeWindows, Core.settle]
  exact (congrArg Core.pend h).trans rfl

/-- Of the results pending at a core those alone stay whose replies have not come, and no window of theirs is open. -/
theorem closeWindows_closed : (∀ q ∈ x.closeWindows.pend, q.left = 0) ∧
    ((∀ q ∈ x.pend, q.wait = none) → x.closeWindows.pend = []) := by
  have hleft : ∀ q ∈ x.pend.map fun p => { p with left := 0 }, q.left = 0 := by simp
  rw [closeWindows_pend]
  refine ⟨fun q hq => hleft q (mem_of_mem_stay hq), fun hwait => stay_eq_nil hleft ?_⟩
  simpa using hwait

theorem tickWindows_of_no_pend {x : Core} (h : x.pend = []) : x.tickWindows = x := by
  rw [Core.tickWindows, Core.settle, h]
  change { x with pend := [] } = x
  rw [← h]

end Windows

/-! ## Taking a trap (R344) -/

/-- What a trap leaves of a core that goes to its handler: the registers of the level, the level and the program counter aside, its
windows close and nothing else of what is named changes. -/
structure Trapped (x y : Core) : Prop where
  pend : y.pend = x.closeWindows.pend
  icount : y.icount = x.icount
  fflags : y.fflags = x.fflags
  lp : y.lp = x.lp
  registers : x.pend = [] → y.s = x.s ∧ y.v = x.v ∧ y.p = x.p

/-- The registers of a trap level as a trap writes them: its scratch register stays (Tables 16.3 to 16.5). -/
def TrapRegs.saving (r : TrapRegs) (rev : Bool) (code : Nat) (pcv : BitVec 52) (val : Word) : TrapRegs :=
  { r with cause := word (code + flag rev 8), pc := word (pcv.toNat / 4 * 4), val := val }

section Trap
variable {s : State} {c code : Nat} {pcv : BitVec 52} {val : Word}

/-- The core that a trap leaves, before its level is written. -/
def Core.interrupted (x : Core) : Core :=
  { x.closeWindows with
    held := none, stalled := false, due := none, hostWait := false, hostRd := none, hostGot := [], ret := none,
    trail := x.closeWindows.trail.leave x.closeWindows.pc.toNat x.closeWindows.tlv.toNat }

theorem takeTrap_handled (hk : (s.coreAt c).trig.kind ≠ 1) (hl : (s.coreAt c).tlv.toNat ≠ 2) (hb : fld (s.coreAt c).tvec 51 8 ≠ 0) :
    s.takeTrap c code pcv val = s.setCoreAt c (
      let x := (s.coreAt c).interrupted
      let base := fld (s.coreAt c).tvec 51 8 * 256
      let block := { x.chk.cur with addr := pcv.toNat }
      if x.tlv = 0 then
        { x with t1 := x.t1.saving (s.coreAt c).rev code pcv val, tlv := 1, pc := BitVec.ofNat 52 base,
                 chk := { x.chk with lv1 := block, cur := { how := 3 } } }
      else
        { x with t2 := x.t2.saving (s.coreAt c).rev code pcv val, tlv := 2, pc := BitVec.ofNat 52 (base + 256),
                 chk := { x.chk with lv2 := block, cur := { how := 3 } } }) := by
  unfold State.takeTrap
  dsimp only
  rw [if_neg hk, if_neg hl, if_neg hb]
  simp only [TrapRegs.saving, Nat.add_comm code]
  rfl

theorem interrupted_eq (x : Core) : ∃ s v m ps t, x.interrupted = { x with
    s := s, v := v, mx := m, pend := ps, held := none, stalled := false, due := none, hostWait := false, hostRd := none, hostGot := [],
    ret := none, trail := t } := by
  obtain ⟨r, v, m, ps, h⟩ := closeWindows_eq x
  exact ⟨r, v, m, ps, _, by rw [Core.interrupted, h]⟩

theorem interrupted_trapped (x : Core) : Trapped x x.interrupted := by
  obtain ⟨r, v, m, ps, t, h⟩ := interrupted_eq x
  refine ⟨rfl, by rw [h], by rw [h], by rw [h], fun hpend => ?_⟩
  rw [Core.interrupted, closeWindows_of_no_pend hpend]
  exact ⟨rfl, rfl, rfl⟩

/-- At level 0 the registers of level 1 are written, and control goes to the handler's base. -/
theorem takeTrap_from_zero (hk : (s.coreAt c).trig.kind ≠ 1) (hl : (s.coreAt c).tlv = 0) (hb : fld (s.coreAt c).tvec 51 8 ≠ 0) :
    ∃ x, s.takeTrap c code pcv val = s.setCoreAt c x ∧ x.t1 = (s.coreAt c).t1.saving (s.coreAt c).rev code pcv val ∧
      x.t2 = (s.coreAt c).t2 ∧ x.tlv = 1 ∧ x.pc = BitVec.ofNat 52 (fld (s.coreAt c).tvec 51 8 * 256) ∧ Trapped (s.coreAt c) x := by
  obtain ⟨hpend, hicount, hfflags, hlp, hregs⟩ := interrupted_trapped (s.coreAt c)
  obtain ⟨r, v, m, ps, t, h⟩ := interrupted_eq (s.coreAt c)
  have hlevel : (s.coreAt c).interrupted.tlv = 0 := by rw [h]; exact hl
  have htrap := takeTrap_handled (code := code) (pcv := pcv) (val := val) hk (by simp [hl]) hb
  dsimp only at htrap
  rw [if_pos hlevel] at htrap
  refine ⟨_, htrap, ?_, ?_, rfl, rfl, hpend, hicount, hfflags, hlp, hregs⟩
  · dsimp only
    rw [h]
  · dsimp only
    rw [h]

/-- At level 1 the registers of level 2 are written, and control goes 256 bytes behind the handler's base. -/
theorem takeTrap_from_one (hk : (s.coreAt c).trig.kind ≠ 1) (hl : (s.coreAt c).tlv = 1) (hb : fld (s.coreAt c).tvec 51 8 ≠ 0) :
    ∃ x, s.takeTrap c code pcv val = s.setCoreAt c x ∧ x.t2 = (s.coreAt c).t2.saving (s.coreAt c).rev code pcv val ∧
      x.t1 = (s.coreAt c).t1 ∧ x.tlv = 2 ∧ x.pc = BitVec.ofNat 52 (fld (s.coreAt c).tvec 51 8 * 256 + 256) ∧
      Trapped (s.coreAt c) x := by
  obtain ⟨hpend, hicount, hfflags, hlp, hregs⟩ := interrupted_trapped (s.coreAt c)
  obtain ⟨r, v, m, ps, t, h⟩ := interrupted_eq (s.coreAt c)
  have hlevel : ¬(s.coreAt c).interrupted.tlv = 0 := by rw [h]; simp [hl]
  have htrap := takeTrap_handled (code := code) (pcv := pcv) (val := val) hk (by simp [hl]) hb
  dsimp only at htrap
  rw [if_neg hlevel] at htrap
  refine ⟨_, htrap, ?_, ?_, rfl, rfl, hpend, hicount, hfflags, hlp, hregs⟩
  · dsimp only
    rw [h]
  · dsimp only
    rw [h]

end Trap

/-- Settles O26: sys.brk and sys.trap take their trap, which at levels 0 and 1 goes to the handler, and else kills the context. -/
theorem trapEntry : Obligations.TrapEntry := by
  intro s imm i code ret hi hk base closed saved
  have hends : Ends i s (s.takeTrap s.cur code ret (imm.setWidth 64)) := by
    simp only [List.mem_cons, List.not_mem_nil, or_false, Prod.mk.injEq] at hi
    rcases hi with ⟨rfl, rfl, rfl⟩ | ⟨rfl, rfl, rfl⟩
    · exact run_error (trap_at _ _)
    · exact run_error (endWith_at fun s => s.takeTrap s.cur 0x13 (s.core.pc + 4) (imm.setWidth 64))
  have hbase : base ≠ 0 → fld s.core.tvec 51 8 ≠ 0 := fun h h0 => h (by simp [base, h0])
  refine ⟨_, hends, fun hl hb => ?zero, fun hl hb => ?one, takeTrap_level2 hk, fun hl hb => ?none⟩
  case zero =>
    obtain ⟨x, htrap, ht1, ht2, hlv, hpc, hx⟩ := takeTrap_from_zero (c := s.cur) hk hl (hbase hb)
    obtain ⟨hpend, hicount, hfflags, hlp, hregs⟩ := hx
    exact ⟨x, htrap, ht1, ht2, hlv, hpc, by simp only [closed, hpend]; exact closeWindows_closed s.core, hicount, hfflags, hlp, hregs⟩
  case one =>
    obtain ⟨x, htrap, ht2, ht1, hlv, hpc, hx⟩ := takeTrap_from_one (c := s.cur) hk hl (hbase hb)
    obtain ⟨hpend, hicount, hfflags, hlp, hregs⟩ := hx
    exact ⟨x, htrap, ht2, ht1, hlv, hpc, by simp only [closed, hpend]; exact closeWindows_closed s.core, hicount, hfflags, hlp, hregs⟩
  case none =>
    have hlevel : s.core.tlv.toNat ≠ 2 := by omega
    have hnone : fld s.core.tvec 51 8 = 0 := by simpa [base] using hb
    exact takeTrap_no_handler hk hlevel hnone

/-! ## Returning from a trap (R348) -/

section Return
variable {s : State}

/-- A core at a level of traps that returns to an address: the level falls, and the instruction retires. -/
def Core.returned (x : Core) (level : BitVec 2) (saved : Block) (target : Nat) : Core :=
  ({ x with tlv := level, chk := x.chk.resume saved target }).jumped (BitVec.ofNat 52 target)

/-- A core that has left no stream, or that left it at another level, does not rejoin it (R325). -/
theorem rejoin_apart {c target : Nat} (h : (s.coreAt c).trail.left = none ∨ (s.coreAt c).trail.level ≠ (s.coreAt c).tlv.toNat) :
    s.rejoin c target = s := by
  unfold State.rejoin
  dsimp only
  split
  · rfl
  · next a ha =>
    rcases h with h | h
    · exact absurd (h.symm.trans ha) (by simp)
    · exact if_pos h

theorem returned_keeps (x : Core) (level : BitVec 2) (saved : Block) (target : Nat) :
    (x.returned level saved target).tlv = level ∧ (x.returned level saved target).pc = BitVec.ofNat 52 target ∧
    (x.returned level saved target).t1 = x.t1 ∧ (x.returned level saved target).t2 = x.t2 ∧
    (x.returned level saved target).icount = x.icount + 1 ∧ (x.returned level saved target).p = x.p ∧
    (x.pend = [] → (x.returned level saved target).s = x.s ∧ (x.returned level saved target).v = x.v) := by
  refine ⟨by simp [Core.returned], by simp [Core.returned], by simp [Core.returned], by simp [Core.returned],
    by simp [Core.returned], by simp [Core.returned], fun hpend => ?_⟩
  unfold Core.returned Core.jumped
  rw [tickWindows_of_no_pend (by exact hpend)]
  exact ⟨rfl, rfl⟩

theorem trapReturn_from_one (hl : s.core.tlv = 1) (h : s.core.trail.left = none ∨ s.core.trail.level ≠ 0) :
    s.trapReturn s.cur = s.setCore (s.core.returned 0 s.core.chk.lv1 (fld s.core.t1.pc 51 2 * 4)) := by
  unfold State.trapReturn
  dsimp only
  rw [if_pos (by rw [show s.coreAt s.cur = s.core from rfl, hl]; rfl)]
  refine (rejoin_apart ?_).trans rfl
  rw [coreAt_onCore_same]
  simpa [State.core] using h

theorem trapReturn_from_two (hl : s.core.tlv = 2) (h : s.core.trail.left = none ∨ s.core.trail.level ≠ 1) :
    s.trapReturn s.cur = s.setCore (s.core.returned 1 s.core.chk.lv2 (fld s.core.t2.pc 51 2 * 4)) := by
  unfold State.trapReturn
  dsimp only
  rw [if_neg (by rw [show s.coreAt s.cur = s.core from rfl, hl]; decide)]
  refine (rejoin_apart ?_).trans rfl
  rw [coreAt_onCore_same]
  simpa [State.core] using h

theorem sysEret_ends (hl : s.core.tlv ≠ 0) : Ends .sysEret s (s.trapReturn s.cur) := by
  refine run_error ?_
  rw [bind_ok (core_at s)]
  exact congrFun (if_neg hl) s

end Return

/-- Settles O27: at level 0 the instruction is illegal; above it the core alone returns, and rejoins no stream. -/
theorem trapReturn : Obligations.TrapReturn := by
  intro s
  refine ⟨fun hl => ?zero, fun hl h => ?one, fun hl h => ?two⟩
  case zero =>
    refine run_error ?_
    rw [bind_ok (core_at s)]
    exact congrFun (if_pos hl) s
  case one =>
    refine ⟨_, ?_, returned_keeps s.core 0 s.core.chk.lv1 _⟩
    rw [← trapReturn_from_one hl h]
    exact sysEret_ends (by simp [hl])
  case two =>
    refine ⟨_, ?_, returned_keeps s.core 1 s.core.chk.lv2 _⟩
    rw [← trapReturn_from_two hl h]
    exact sysEret_ends (by simp [hl])

end Sys2Proof.Machine
end

section
/-!
PROOFS. The fences and sys.nop, and trail mode: what each waits for, and what a row's four cores are when the leader starts it.
-/
namespace Sys2Proof.Machine

/-! ## Retiring (R18) -/

theorem done_nil (s : State) : s.done [] = s.setCore s.core.retired := by simp [State.done, Core.dequeue]

theorem retire_done (s : State) : retire s = .ok ((), s.done []) := by rw [retire_at, done_nil]

/-! ## The fences (R285, R286) -/

section Fences
variable {i : Instr} {s t u : State} {f : State → Bool} {rest : M Unit}

/-- An instruction whose condition no longer holds goes on behind it. -/
theorem ends_behind_wait (hi : exec i s = run (waitWhile f >>= fun _ => rest) t) (hf : f t = false) (hr : rest t = .ok ((), u)) :
    Ends i s u :=
  hi.trans (run_ok ((bind_ok (waitWhile_passes hf)).trans hr))

/-- An instruction waits while its condition holds. -/
theorem waits_while (hi : exec i s = run (waitWhile f >>= fun _ => rest) t) (hf : f t = true) : Ends i s t.waits :=
  hi.trans (run_error (bind_error (waitWhile_waits hf)))

theorem fenceFull_comes (scope : BitVec 2) (h : Gives becomeIrrevocable s () t) : exec (.fenceFull scope) s =
    run (waitWhile (fun s => s.core.outst != [] || chainPending s s.cur scope.toNat) >>= fun _ => retire) t :=
  run_congr (bind_ok h)

theorem fenceEng_comes (scope : BitVec 2) (h : Gives becomeIrrevocable s () t) : exec (.fenceEng scope) s =
    run (waitWhile (fun s => enginesBusy s.core || chainPending s s.cur scope.toNat) >>= fun _ => retire) t :=
  run_congr (bind_ok h)

end Fences

/-- Settles O29: an irrevocable fence first becomes so; each then waits for what is outstanding, and retires behind it. -/
theorem fences : Obligations.Fences := by
  intro s t scope waits
  refine ⟨fun hirr => ?irrevocable, fun hout => ?acq, fun hout => ?waiting, fun hout hgate => ?rel, ?nop⟩
  case irrevocable =>
    refine ⟨fun h => ?_, fun h => ?_, fun h => ?_, fun h => ?_⟩
    · exact ends_behind_wait (fenceFull_comes scope hirr) (by simpa using h) (retire_done t)
    · exact waits_while (fenceFull_comes scope hirr) (by simpa using h)
    · exact ends_behind_wait (fenceEng_comes scope hirr) (by simpa using h) (retire_done t)
    · exact waits_while (fenceEng_comes scope hirr) (by simpa using h)
  case acq => exact ends_behind_wait rfl (by simp [hout]) (retire_done s)
  case waiting => exact ⟨waits_while rfl (by simpa using hout), waits_while rfl (by simpa using hout)⟩
  case rel => exact ends_behind_wait rfl (by simp [hout]) ((bind_ok hgate).trans (retire_done t))
  case nop => exact run_ok (retire_done s)

/-! ## Cores changed one after another -/

section Folds
variable (f : Core → Core)

theorem coreAt_foldl_onCore_out (cs : List Nat) {s : State} {i : Nat} (h : i ∉ cs) :
    (cs.foldl (fun t c => t.onCore c f) s).coreAt i = s.coreAt i := by
  induction cs generalizing s with
  | nil => rfl
  | cons c rest ih =>
    rw [List.foldl_cons, ih fun hi => h (List.mem_cons_of_mem _ hi), coreAt_onCore_ne _ _ _ fun hc => h (by simp [hc])]

theorem coreAt_foldl_onCore_in {cs : List Nat} {s : State} {i : Nat} (hcs : cs.Nodup) (h : i ∈ cs) :
    (cs.foldl (fun t c => t.onCore c f) s).coreAt i = f (s.coreAt i) := by
  induction cs generalizing s with
  | nil => cases h
  | cons c rest ih =>
    obtain ⟨hc, hrest⟩ := List.nodup_cons.mp hcs
    rw [List.foldl_cons]
    rcases List.mem_cons.mp h with rfl | h
    · rw [coreAt_foldl_onCore_out f rest hc, coreAt_onCore_same]
    · have hne : c ≠ i := fun e => hc (e.symm ▸ h)
      rw [ih hrest h, coreAt_onCore_ne _ _ _ hne]

theorem foldl_onCore_cur (cs : List Nat) (s : State) : (cs.foldl (fun t c => t.onCore c f) s).cur = s.cur :=
  foldl_keeps (f := fun t c => t.onCore c f) State.cur (fun _ _ => rfl) cs s

end Folds

/-! ## The cores of a row (R323) -/

theorem not_mem_others (c : Nat) : c ∉ others c := by simp [others]

theorem others_nodup (c : Nat) : (others c).Nodup := by
  refine List.Nodup.filter _ (List.Nodup.map (fun i j h => ?_) List.nodup_range)
  simpa using h

theorem joined_keeps (x : Core) (pc : BitVec 52) :
    (x.joined pc).trail = { role := .trailing } ∧ (x.joined pc).pc = pc ∧ (x.joined pc).icount = x.icount + 1 := by
  simp [Core.joined]

section Trail
variable {s t : State}

theorem enterTrail_illegal {column : Nat → Bool} (h : column (s.cur % 4) = false ∨ s.core.inTrail = true) :
    enterTrail column s = .error (s.takeTrap s.cur 0x01 s.core.pc (irWord s)) := by
  have hbad : (!column (s.cur % 4) || s.core.inTrail) = true := by simpa using h
  exact congrFun (if_pos hbad) s

theorem enterTrail_passes {column : Nat → Bool} (hc : column (s.cur % 4) = true) (hout : s.core.inTrail = false)
    (hirr : Gives becomeIrrevocable s () t) : enterTrail column s = .ok ((), t) := by
  have hgood : ¬(!column (s.cur % 4) || s.core.inTrail) = true := by simp [hc, hout]
  exact (congrFun (if_neg hgood) s).trans hirr

/-- The current core leads its row, and its trl.lead has retired. -/
def State.led (t : State) : State := (t.setCore { t.core with trail := { role := .leader } }).done []

theorem led_core (t : State) : t.led.core = ({ t.core with trail := { role := .leader } } : Core).retired := by
  rw [State.led, done_nil, core_setCore, core_setCore]

theorem led_cur (t : State) : t.led.cur = t.cur := by rw [State.led, done_nil, setCore_cur, setCore_cur]

theorem led_coreAt_ne (t : State) {i : Nat} (h : t.cur ≠ i) : t.led.coreAt i = t.coreAt i := by
  rw [State.led, done_nil]
  exact (coreAt_setCore_ne (s := t.setCore _) _ h).trans (coreAt_setCore_ne _ _ h)

/-- The leader of a row goes on with its next instruction, and the others in its stream (R323). -/
def State.ledRow (t : State) : State := (others t.led.cur).foldl (fun u i => u.onCore i fun x => x.joined t.led.core.pc) t.led

theorem ledRow_core (t : State) : t.ledRow.core = t.led.core := by
  rw [State.core, State.ledRow, foldl_onCore_cur, coreAt_foldl_onCore_out _ _ (not_mem_others _)]
  rfl

theorem ledRow_leader (t : State) : t.ledRow.core.trail = { role := .leader } ∧ t.ledRow.core.pc = t.core.fallThrough.2 ∧
    t.ledRow.core.icount = t.core.icount + 1 := by
  rw [ledRow_core, led_core, retired_trail, retired_pc, retired_icount]
  exact ⟨rfl, rfl, rfl⟩

theorem ledRow_others (t : State) {i : Nat} (hi : i ∈ others t.cur) :
    (t.ledRow.coreAt i).trail = { role := .trailing } ∧ (t.ledRow.coreAt i).pc = t.ledRow.core.pc ∧
      (t.ledRow.coreAt i).icount = (t.coreAt i).icount + 1 := by
  have hcur : t.cur ≠ i := fun e => not_mem_others t.cur (e.symm ▸ hi)
  have hcore : t.ledRow.coreAt i = (t.coreAt i).joined t.ledRow.core.pc := by
    rw [ledRow_core, State.ledRow, led_cur, coreAt_foldl_onCore_in _ (others_nodup _) hi, led_coreAt_ne t hcur]
  rw [hcore]
  exact joined_keeps _ _

theorem trlLead_comes (hc : s.cur % 4 = 0) (hout : s.core.inTrail = false) (hirr : Gives becomeIrrevocable s () t) :
    exec .trlLead s = run (if ((others t.cur).all fun i => hasJoined (t.coreAt i) t.core) = true then do
        modCore fun x => { x with trail := { role := .leader } }
        retire
        modify fun s => (others s.cur).foldl (fun t i => t.onCore i fun x => x.joined s.core.pc) s
      else do
        modCore fun x => { x with trail := { role := .waiting } }
        stall) t := by
  refine run_congr ?_
  rw [bind_ok (enterTrail_passes (by simp [hc]) hout hirr), bind_ok (get_at t)]

/-- A core that waits for its row. -/
def State.awaitsRow (t : State) : State := t.setCore { t.core with trail := { role := .waiting }, stalled := true }

theorem wait_for_row (t : State) : (do
    modCore fun x => { x with trail := { role := .waiting } }
    stall : M Unit) t = .error t.awaitsRow := by
  rw [bind_ok (modCore_at _), stall_at, core_setCore, setCore_setCore]
  rfl

end Trail

/-- Settles O31: the column and the mode are checked first; a row that has joined starts, and else its core waits; trl.quit ends the
mode for its core, or for its row in a handler. -/
theorem trailMode : Obligations.TrailMode := by
  intro s t here illegal
  refine ⟨fun h => ?lead, fun h => ?join, fun hout hirr => ⟨fun hc => ?waits, fun hc hall => ?leads, fun hc hall => ?alone⟩,
    fun h => ?quit, fun h => ?quitRow⟩
  case lead => exact run_error (bind_error (enterTrail_illegal (by simpa [here] using h)))
  case join => exact run_error (bind_error (enterTrail_illegal (by simpa [here] using h)))
  case waits =>
    refine run_error ?_
    rw [bind_ok (enterTrail_passes (by simpa [here] using hc) hout hirr)]
    exact wait_for_row t
  case leads =>
    obtain ⟨htrail, hpc, hicount⟩ := ledRow_leader t
    refine ⟨t.ledRow, (trlLead_comes hc hout hirr).trans (run_ok ?_), htrail, hpc, hicount, fun i hi => ledRow_others t hi⟩
    rw [if_pos hall, bind_ok (modCore_at _), bind_ok (retire_done _), modify_at]
    rfl
  case alone =>
    refine (trlLead_comes hc hout hirr).trans (run_error ?_)
    rw [if_neg (by simp [hall])]
    exact wait_for_row t
  case quit =>
    refine run_ok ?_
    rw [bind_ok (get_at s), if_neg (by simp [h]), bind_ok (modCore_at _)]
    exact retire_done _
  case quitRow =>
    refine run_ok ?_
    rw [bind_ok (get_at s), if_pos h, bind_ok (modify_at _)]
    exact retire_done _

end Sys2Proof.Machine
end

section
/-! PROOFS. The refutation of the statement about kills (R349, R369): a kill leaves the monitor of a watch that has come from another
package, whose ctx names a context there. -/
namespace Sys2Proof.Machine

/-- A watch of context 0 of package 1, held in a monitor here. -/
def foreignWatch : WatchReq := { origin := some (1, 0) }

/-- A machine that holds nothing but the watch of another package. -/
def watchedFromAfar : State := { mons := [foreignWatch] }

theorem foreignWatch_stays : foreignWatch ∈ (watchedFromAfar.kill 0 6 0).mons := by decide

theorem ctxctlKill_ends (ctx : Nat) (s : State) : Ends (.ctxctlKill ctx) s (s.kill ctx 6 0) := by
  delta Ends exec
  rfl

/-- Refutes O28: a monitor with a watch of another package's context 0 is still there after a kill of the own context 0, and its
ctx is 0, so that a monitor whose ctx is the killed number remains. -/
theorem not_contextKill : ¬ Obligations.ContextKill := by
  unfold Obligations.ContextKill
  intro h
  obtain ⟨t, hends, _, _, _, _, _, hmons, _⟩ := h watchedFromAfar (.ctxctlKill 0) 0 6 0 0 (by simp)
  have hnext : Host.Outcome.next (watchedFromAfar.kill 0 6 0) = .next t := (ctxctlKill_ends 0 watchedFromAfar).symm.trans hends
  injection hnext with ht
  exact hmons foreignWatch (ht ▸ foreignWatch_stays) rfl

end Sys2Proof.Machine
end

section
/-! PROOFS. The tg group (R314, Table 14.15): operations on the tags of a mask, and the status and the masks that tg.get reads. -/
namespace Sys2Proof.Machine

/-! ## The word of a mask -/

theorem maskOf_succ (n : Nat) (f : Nat → Bool) : maskOf (n + 1) f = maskOf n f + flag (f n) n := by
  simp [maskOf, List.range_succ]

theorem maskOf_lt (n : Nat) (f : Nat → Bool) : maskOf n f < 2 ^ n := by
  induction n with
  | zero => simp [maskOf]
  | succ n ih =>
    rw [maskOf_succ, Nat.pow_succ]
    cases h : f n <;> simp [flag] <;> omega

/-- Each flag stands in its own bit. -/
theorem testBit_maskOf (n : Nat) (f : Nat → Bool) {i : Nat} (hi : i < n) : (maskOf n f).testBit i = f i := by
  induction n with
  | zero => omega
  | succ n ih =>
    rw [maskOf_succ]
    have hlt := maskOf_lt n f
    rcases Nat.lt_succ_iff_lt_or_eq.mp hi with hi' | rfl
    · rw [← ih hi']
      cases h : f n
      · rfl
      · rw [Nat.add_comm]
        exact Nat.testBit_two_pow_add_gt hi' _
    · cases h : f i
      · exact Nat.testBit_lt_two_pow hlt
      · rw [Nat.add_comm, flag, if_pos rfl, Nat.testBit_two_pow_add_eq, Nat.testBit_lt_two_pow hlt]
        rfl

theorem getLsbD_word_maskOf (f : Nat → Bool) (i : Nat) (hi : i < 64) : (word (maskOf 64 f)).getLsbD i = f i := by
  rw [word, BitVec.getLsbD_ofNat, testBit_maskOf 64 f hi]
  simp [hi]

/-! ## An operation on a tag set -/

/-- A tag with a handler, when its bit of the mask is set. -/
def TagState.after (x : TagState) (op : Nat) (arg : Word) : TagState :=
  match op with
  | 0 => { x with en := true, prio := if bit arg.toNat 2 then fld arg 1 0 else x.prio }
  | 1 => { x with en := false }
  | 2 => if x.spnd then x else { x with spnd := true, sage := 0 }
  | _ => { x with spnd := false, sage := 0 }

theorem op_tags (x : TagSet) (op : Nat) (m arg : Word) : (x.op op m arg).tags =
    Tbl.mapv x.tags fun i y => if y.dflt.isSome && bit m.toNat i then y.after op arg else y := rfl

theorem tag_op (x : TagSet) (op : Nat) (m arg : Word) (i : Nat) : Tbl.getD (x.op op m arg).tags i {} =
    if (Tbl.getD x.tags i {}).dflt.isSome && bit m.toNat i then (Tbl.getD x.tags i {}).after op arg else Tbl.getD x.tags i {} := by
  rw [op_tags, Tbl.getD_mapv x.tags i rfl]

theorem tag_op_stays {x : TagSet} {m : Word} {i : Nat} (h : m.getLsbD i = false ∨ (Tbl.getD x.tags i {}).dflt = none)
    (op : Nat) (arg : Word) : Tbl.getD (x.op op m arg).tags i {} = Tbl.getD x.tags i {} := by
  rw [tag_op, bit_toNat_eq_getLsbD]
  refine if_neg ?_
  rcases h with h | h <;> simp [h]

theorem tag_op_named {x : TagSet} {m : Word} {i : Nat} (hm : m.getLsbD i = true) (hd : (Tbl.getD x.tags i {}).dflt ≠ none)
    (op : Nat) (arg : Word) : Tbl.getD (x.op op m arg).tags i {} = (Tbl.getD x.tags i {}).after op arg := by
  rw [tag_op, bit_toNat_eq_getLsbD]
  exact if_pos (by simp [hm, Option.isSome_iff_ne_none, hd])

section After
variable (x : TagState) (arg : Word)

theorem after_dflt (op : Nat) : (x.after op arg).dflt = x.dflt := by
  unfold TagState.after
  split
  · rfl
  · rfl
  · split <;> rfl
  · rfl

theorem after_en : (x.after 0 arg).en = true ∧ (x.after 0 arg).spnd = x.spnd ∧
    (x.after 0 arg).prio = if arg.getLsbD 2 then fld arg 1 0 else x.prio := by
  rw [← bit_toNat_eq_getLsbD]
  exact ⟨rfl, rfl, rfl⟩

/-- A tag that is pending already stays as it is. -/
theorem after_pend : (x.after 2 arg).spnd = true ∧ (x.after 2 arg).en = x.en ∧ (x.after 2 arg).prio = x.prio := by
  cases h : x.spnd <;> simp [TagState.after, h]

end After

/-! ## The instructions -/

section Instructions
variable {s t v : State} {rd : SReg} {sa sb : Src}

theorem tgEn_ends (hports : Gives (openPorts none (srcNames sa ++ srcNames sb)) s () t)
    (hgate : Gives (gate (.tg 0 (t.a sa) (t.b sa sb))) t () v) : Ends (.tgEn sa sb) s (v.done (srcNames sa ++ srcNames sb)) := by
  refine run_ok ((bind_ok hports).trans ?_)
  exact (bind_ok (core_at t)).trans ((bind_ok hgate).trans (finish_at _ v))

/-- An operation that takes no argument. -/
theorem tagsOp_ends (op : Nat) (hports : Gives (openPorts none (srcNames sa)) s () t)
    (hgate : Gives (gate (.tg op (t.a sa) 0)) t () v) : run (tagsOp op sa none) s = .next (v.done (srcNames sa)) := by
  have hsrcs : srcNames sa ++ (Option.map srcNames none).getD [] = srcNames sa := List.append_nil _
  refine run_ok ?_
  unfold tagsOp
  rw [hsrcs]
  exact (bind_ok hports).trans ((bind_ok (core_at t)).trans ((bind_ok hgate).trans (finish_at _ v)))

/-- What follows the port checks of tg.get. -/
theorem tgGet_reads (hports : Gives (openPorts (some rd) (srcNames sa)) s () t) : exec (.tgGet rd sa) s = run (
    match fld (t.a sa) 7 6 with
    | 0 => finishS rd (srcNames sa) (tagStatus t (fld (t.a sa) 5 0) (Tbl.getD (tagView t).tags (fld (t.a sa) 5 0) {}))
    | 1 => finishS rd (srcNames sa) (word (maskOf 64 fun i => (Tbl.getD (tagView t).tags i {}).en))
    | 2 => finishS rd (srcNames sa) (word (maskOf 64 fun i => tagPending t t.cur t.ctxNo i (Tbl.getD (tagView t).tags i {})))
    | _ => trap 0x05 (t.a sa)) t :=
  run_congr ((bind_ok hports).trans ((bind_ok (core_at t)).trans (bind_ok (get_at t))))

/-- A choice of tg.get that answers a word. -/
theorem tgGet_ends (hports : Gives (openPorts (some rd) (srcNames sa)) s () t) :
    (fld (t.a sa) 7 6 = 0 → Ends (.tgGet rd sa) s (t.withS rd (srcNames sa)
      (tagStatus t (fld (t.a sa) 5 0) (Tbl.getD (tagView t).tags (fld (t.a sa) 5 0) {})))) ∧
    (fld (t.a sa) 7 6 = 1 → Ends (.tgGet rd sa) s (t.withS rd (srcNames sa)
      (word (maskOf 64 fun i => (Tbl.getD (tagView t).tags i {}).en)))) ∧
    (fld (t.a sa) 7 6 = 2 → Ends (.tgGet rd sa) s (t.withS rd (srcNames sa)
      (word (maskOf 64 fun i => tagPending t t.cur t.ctxNo i (Tbl.getD (tagView t).tags i {}))))) ∧
    (fld (t.a sa) 7 6 = 3 → Ends (.tgGet rd sa) s (t.takeTrap t.cur 0x05 t.core.pc (t.a sa))) := by
  refine ⟨fun h => ?_, fun h => ?_, fun h => ?_, fun h => ?_⟩ <;> refine (tgGet_reads hports).trans ?_ <;> rw [h]
  · exact run_ok (finishS_at _ _ _ t)
  · exact run_ok (finishS_at _ _ _ t)
  · exact run_ok (finishS_at _ _ _ t)
  · exact run_error (trap_at _ _)

end Instructions

/-- Settles O35: an operation hands its mask to the gate; it then maps over the tag set, where a tag outside the mask or without a
handler is its own image. -/
theorem tagOperations : Obligations.TagOperations := by
  unfold Obligations.TagOperations
  intro s t v rd sa sb
  refine ⟨tgEn_ends, fun hports p hp hgate => ?_, fun hports => ?_, fun x op m arg i => ⟨fun h => tag_op_stays h op arg, ?_⟩⟩
  · simp only [List.mem_cons, List.not_mem_nil, or_false] at hp
    rcases hp with rfl | rfl | rfl
    · exact tagsOp_ends 1 hports hgate
    · exact tagsOp_ends 2 hports hgate
    · exact tagsOp_ends 3 hports hgate
  · obtain ⟨hstatus, hen, hpending, htrap⟩ := tgGet_ends hports
    exact ⟨hstatus, fun h => ⟨_, hen h, getLsbD_word_maskOf _⟩, fun h => ⟨_, hpending h, getLsbD_word_maskOf _⟩, htrap⟩
  · intro hm hd
    rw [tag_op_named hm hd]
    refine ⟨after_dflt _ _ _, ?_, ?_, ?_, ?_⟩ <;> rintro rfl
    · exact after_en _ _
    · exact ⟨rfl, rfl, rfl⟩
    · exact after_pend _ _
    · exact ⟨rfl, rfl, rfl⟩

end Sys2Proof.Machine
end

section
/-! PROOFS. The ms and the tk group: the messages that an instruction sends, the end of an activation, and the operations on task
records and barriers. -/
namespace Sys2Proof.Machine

/-! ## A message and its destination (R303) -/

section Addressed
variable {s t : State} {w ctl : Word} {m : Msg}

theorem checkGroup_passes (h : groupExists s s.ctxNo (fld ctl 15 8) = true) : checkGroup ctl s = .ok ((), s) :=
  trapIf_passes (by rw [h]; rfl) 0x05 ctl s

theorem addressed_near (h63 : bit w.toNat 63 = false) (h62 : bit w.toNat 62 = false)
    (hgroup : groupExists s s.ctxNo (fld ctl 15 8) = true) (hin : inGroup s s.ctxNo (fld ctl 15 8) (fld w 11 0) = true) :
    addressed w ctl m s = .ok ((none, { m with dcore := fld w 11 0 }), s) := by
  rw [addressed, h63, h62]
  refine (bind_ok (checkGroup_passes hgroup)).trans ((bind_ok (get_at s)).trans ?_)
  exact bind_ok (trapIf_passes (by rw [hin]; rfl) 0x05 w s)

theorem addressed_far (h63 : bit w.toNat 63 = false) (h62 : bit w.toNat 62 = true) :
    addressed w ctl m s = .ok ((some (fld w 57 48), { m with ctx := fld w 47 42, dcore := fld w 11 0 }), s) := by
  rw [addressed, h63, h62]
  rfl

theorem addressed_object {pl : Place} (h63 : bit w.toNat 63 = true) (hgroup : groupExists s s.ctxNo (fld ctl 15 8) = true)
    (hplace : Gives (resolveFor false false (addrOf w) 1 .read) s pl t) :
    addressed w ctl m s = .ok ((none, { m with obj := some (addrOf w), sent := true, odie := objDie t t.cur pl }), t) := by
  rw [addressed, h63]
  exact (bind_ok (checkGroup_passes hgroup)).trans ((bind_ok hplace).trans (bind_ok (get_at t)))

end Addressed

/-! ## ms.send and ms.sendt (R304) -/

section Sends
variable {s t u v : State} {ra rc : SReg} {rb : VReg} {pkg : Option Nat} {m : Msg}

/-- The item of a message for another package, or for its place in the own one. -/
def sentTo (w : Word) (here : Msg → Gated) (pkg : Option Nat) (m : Msg) : Gated :=
  match pkg with
  | some n => .sendRemote n m w
  | none => here m

theorem msSend_ends (hports : Gives (openPorts none [ra, rc]) s () t) (hdest : destReserved (t.r1 ra) = false)
    (hctl : ctlReserved (t.r2 ra rc) false = false)
    (haddr : addressed (t.r1 ra) (t.r2 ra rc) (messageOf t (t.r2 ra rc) (vecPay (t.core.getV rb))) t = .ok ((pkg, m), u))
    (hgate : Gives (gate (sentTo (t.r1 ra) .send pkg m)) u () v) : Ends (.msSend ra rb rc) s (v.done [ra, rc]) := by
  refine run_ok ((bind_ok hports).trans ((bind_ok (core_at t)).trans ((bind_ok (trapIf_passes hdest _ _ t)).trans ?_)))
  refine (bind_ok (trapIf_passes hctl _ _ t)).trans ((bind_ok (get_at t)).trans ((bind_ok haddr).trans ?_))
  cases pkg <;> exact (bind_ok hgate).trans (finish_at _ v)

/-- The timestamp of a message of an activation of an ordered domain is above the activation's own. -/
theorem timestamp_passes (hts : t.core.trig.ord = true → t.core.tsn.toNat < fld (t.r2 ra rc) 63 32) :
    (t.core.trig.ord && decide (fld (t.r2 ra rc) 63 32 ≤ t.core.tsn.toNat)) = false := by
  cases h : t.core.trig.ord
  · rfl
  · simpa using hts h

/-- What follows the checks on the words of ms.sendt. -/
theorem msSendt_checked (hports : Gives (openPorts none [ra, rc]) s () t) (hdest : destReserved (t.r1 ra) = false)
    (hctl : ctlReserved (t.r2 ra rc) true = false)
    (hts : t.core.trig.ord = true → t.core.tsn.toNat < fld (t.r2 ra rc) 63 32) : exec (.msSendt ra rb rc) s = run (
      if t.r1 ra = 0 then do
        checkGroup (t.r2 ra rc)
        gate (.sendt { messageOf t (t.r2 ra rc) (vecPay (t.core.getV rb)) with ord := true, ts := fld (t.r2 ra rc) 63 32 })
        finish [ra, rc]
      else do
        let (pkg, m) ← addressed (t.r1 ra) (t.r2 ra rc)
          { messageOf t (t.r2 ra rc) (vecPay (t.core.getV rb)) with ord := true, ts := fld (t.r2 ra rc) 63 32 }
        match pkg with
        | some n => do gate (.sendRemote n m (t.r1 ra)); finish [ra, rc]
        | none => do gate (.sendt m); finish [ra, rc]) t := by
  refine run_congr ((bind_ok hports).trans ((bind_ok (core_at t)).trans ((bind_ok (trapIf_passes hdest _ _ t)).trans ?_)))
  refine (bind_ok (trapIf_passes hctl _ _ t)).trans ((bind_ok (trapIf_passes (timestamp_passes hts) _ _ t)).trans ?_)
  exact bind_ok (get_at t)

/-- A destination word of 0 names no core in particular. -/
theorem msSendt_nowhere (hports : Gives (openPorts none [ra, rc]) s () t) (hdest : destReserved (t.r1 ra) = false)
    (hctl : ctlReserved (t.r2 ra rc) true = false)
    (hts : t.core.trig.ord = true → t.core.tsn.toNat < fld (t.r2 ra rc) 63 32) (hzero : t.r1 ra = 0)
    (hgroup : groupExists t t.ctxNo (fld (t.r2 ra rc) 15 8) = true)
    (hgate : Gives (gate (.sendt
      { messageOf t (t.r2 ra rc) (vecPay (t.core.getV rb)) with ord := true, ts := fld (t.r2 ra rc) 63 32 })) t () v) :
    Ends (.msSendt ra rb rc) s (v.done [ra, rc]) := by
  refine (msSendt_checked hports hdest hctl hts).trans (run_ok ((congrFun (if_pos hzero) t).trans ?_))
  exact (bind_ok (checkGroup_passes hgroup)).trans ((bind_ok hgate).trans (finish_at _ v))

theorem msSendt_ends (hports : Gives (openPorts none [ra, rc]) s () t) (hdest : destReserved (t.r1 ra) = false)
    (hctl : ctlReserved (t.r2 ra rc) true = false)
    (hts : t.core.trig.ord = true → t.core.tsn.toNat < fld (t.r2 ra rc) 63 32) (hsome : t.r1 ra ≠ 0)
    (haddr : addressed (t.r1 ra) (t.r2 ra rc)
      { messageOf t (t.r2 ra rc) (vecPay (t.core.getV rb)) with ord := true, ts := fld (t.r2 ra rc) 63 32 } t = .ok ((pkg, m), u))
    (hgate : Gives (gate (sentTo (t.r1 ra) .sendt pkg m)) u () v) : Ends (.msSendt ra rb rc) s (v.done [ra, rc]) := by
  refine (msSendt_checked hports hdest hctl hts).trans (run_ok ((congrFun (if_neg hsome) t).trans ((bind_ok haddr).trans ?_)))
  cases pkg <;> exact (bind_ok hgate).trans (finish_at _ v)

end Sends

/-! ## ms.bcast and ms.spr (R304, R305) -/

section Copies
variable {s t v : State} {ra rb rc : SReg} {x : VReg}

theorem msBcast_ends (hports : Gives (openPorts none [ra, rc]) s () t) (hword : fld (t.r1 ra) 63 8 = 0)
    (hctl : ctlReserved (t.r2 ra rc) false = false) (hgroup : groupExists t t.ctxNo (fld (t.r2 ra rc) 15 8) = true)
    (hto : groupExists t t.ctxNo (fld (t.r1 ra) 7 0) = true)
    (hgate : Gives (gate (.bcast (fld (t.r1 ra) 7 0) (messageOf t (t.r2 ra rc) (vecPay (t.core.getV x))))) t () v) :
    Ends (.msBcast ra x rc) s (v.done [ra, rc]) := by
  have hword' : (fld (t.r1 ra) 63 8 != 0) = false := bne_eq_false_iff_eq.mpr hword
  refine run_ok ((bind_ok hports).trans ((bind_ok (core_at t)).trans ((bind_ok (trapIf_passes hword' _ _ t)).trans ?_)))
  refine (bind_ok (trapIf_passes hctl _ _ t)).trans ((bind_ok (checkGroup_passes hgroup)).trans ((bind_ok (get_at t)).trans ?_))
  refine (bind_ok (trapIf_passes ((congrArg not hto).trans Bool.not_true) _ _ t)).trans ?_
  exact (bind_ok hgate).trans (finish_at _ v)

theorem msSpr_ends (hports : Gives (openPorts none [ra, rb, rc]) s () t) (ha : fld (t.r1 ra) 63 18 = 0)
    (hb : fld (t.r2 ra rb) 63 16 = 0) (hc : fld (t.r3 ra rb rc) 63 32 = 0)
    (hin : inAnyGroup t t.ctxNo (fld (t.r1 ra) 11 0) = true)
    (hgate : Gives (gate (.send { scid := t.cur, spkg := t.pkg.num, ctx := t.ctxNo, tag := fld (t.r1 ra) 17 12, kind := 1,
                                  dcore := fld (t.r1 ra) 11 0, pay := [t.r2 ra rb, t.r3 ra rb rc, 0, 0, 0, 0, 0, 0] })) t () v) :
    Ends (.msSpr ra rb rc) s (v.done [ra, rb, rc]) := by
  refine run_ok ((bind_ok hports).trans ((bind_ok (core_at t)).trans ?_))
  refine (bind_ok (trapIf_passes (bne_eq_false_iff_eq.mpr ha) _ _ t)).trans ?_
  refine (bind_ok (trapIf_passes (bne_eq_false_iff_eq.mpr hb) _ _ t)).trans ?_
  refine (bind_ok (trapIf_passes (bne_eq_false_iff_eq.mpr hc) _ _ t)).trans ((bind_ok (get_at t)).trans ?_)
  refine (bind_ok (trapIf_passes ((congrArg not hin).trans Bool.not_true) _ _ t)).trans ?_
  exact (bind_ok hgate).trans (finish_at _ v)

end Copies

/-- Settles O32: the checks pass one after another, the destination word gives the message its place, and the gate takes it. -/
theorem messageSends : Obligations.MessageSends := by
  unfold Obligations.MessageSends
  refine ⟨fun s t u v ra rc rb pl hports => ⟨fun hdest hctl => ⟨?_, ?_, ?_⟩, fun hdest hctl hts => ⟨?_, fun hsome => ⟨?_, ?_, ?_⟩⟩⟩,
    fun s t v ra rb rc x => ⟨fun hports => msBcast_ends hports, fun hports => msSpr_ends hports⟩⟩
  · exact fun h63 h62 hgroup hin => msSend_ends hports hdest hctl (addressed_near h63 h62 hgroup hin)
  · exact fun h63 h62 => msSend_ends hports hdest hctl (addressed_far h63 h62)
  · exact fun h63 hgroup hplace => msSend_ends hports hdest hctl (addressed_object h63 hgroup hplace)
  · exact msSendt_nowhere hports hdest hctl hts
  · exact fun h63 h62 hgroup hin => msSendt_ends hports hdest hctl hts hsome (addressed_near h63 h62 hgroup hin)
  · exact fun h63 h62 => msSendt_ends hports hdest hctl hts hsome (addressed_far h63 h62)
  · exact fun h63 hgroup hplace => msSendt_ends hports hdest hctl hts hsome (addressed_object h63 hgroup hplace)

end Sys2Proof.Machine
end

section
/-! PROOFS. The end of an activation (R306), and the operations on task records and barriers (R307, R310 to R312). -/
namespace Sys2Proof.Machine

/-! ## The end of an activation -/

/-- Trail mode ends for the row in the handler of a core that has left its stream (R326). -/
def State.streamLeft (t : State) : State :=
  if t.core.inTrail = true ∧ t.core.trail.left.isSome = true then t.endTrail t.cur else t

/-- The current activation has ended and waits for its commit, with its windows closed and some more items held. -/
def State.endedWith (t : State) (how : Nat) (srcs : List SReg) (more : List Gated) : State :=
  let c := t.streamLeft.core.closeWindows.dequeue srcs
  t.streamLeft.setCore
    { c with cbuf := c.cbuf ++ more, phase := .ending how, icount := c.icount + 1, stalled := false, trail := {} }

section Ends
variable {s t : State} {ra rc : SReg} {x : VReg}

theorem streamLeft_at (t : State) :
    onlyIf (t.core.inTrail && t.core.trail.left.isSome) (modify fun s => s.endTrail s.cur) t = .ok ((), t.streamLeft) := by
  by_cases h : t.core.inTrail = true ∧ t.core.trail.left.isSome = true
  · rw [State.streamLeft, if_pos h]
    exact onlyIf_of_true (Bool.and_eq_true_iff.mpr h) _ t
  · rw [State.streamLeft, if_neg h]
    exact onlyIf_passes (by rwa [← Bool.and_eq_true_iff, Bool.not_eq_true] at h) _ t

/-- Nothing is outstanding, no matrix command is unfinished, and n more entries fit into the buffer. -/
def MayEnd (t : State) (n : Nat) : Prop := t.core.outst = [] ∧ t.core.mx.queue = [] ∧ (t.core.rev = true → t.core.held64 + n ≤ 64)

theorem endActivation_ends {how : Nat} {srcs : List SReg} {more : List Gated} (h : MayEnd t (more.map entriesOf).sum) :
    endActivation how srcs more t = .ok ((), t.endedWith how srcs more) := by
  obtain ⟨hout, hqueue, hroom⟩ := h
  have hdone : (t.core.outst != [] || t.core.mx.queue != []) = false := by rw [hout, hqueue]; rfl
  have hfits : (t.core.rev && decide (64 < t.core.held64 + (more.map entriesOf).sum)) = false := by
    cases hrev : t.core.rev
    · rfl
    · simpa using hroom hrev
  refine (bind_ok (waitWhile_passes hdone)).trans ((bind_ok (get_at t)).trans ((bind_ok (onlyIf_passes hfits _ t)).trans ?_))
  exact (bind_ok (get_at t)).trans ((bind_ok (streamLeft_at t)).trans (modCore_at _))

theorem msEndc_ends (hports : Gives (openPorts none [rc]) s () t) (hctl : ctlReserved (t.r1 rc) false = false)
    (hgroup : groupExists t t.ctxNo (fld (t.r1 rc) 15 8) = true) (h : MayEnd t 1) :
    Ends (.msEndc x rc) s (t.endedWith 1 [rc] [.endc (messageOf t (t.r1 rc) (vecPay (t.core.getV x)))]) := by
  refine run_ok ((bind_ok hports).trans ((bind_ok (core_at t)).trans ((bind_ok (trapIf_passes hctl _ _ t)).trans ?_)))
  exact (bind_ok (checkGroup_passes hgroup)).trans ((bind_ok (get_at t)).trans (endActivation_ends h))

theorem msDefer_ends (hports : Gives (openPorts none [ra]) s () t) (hord : t.core.trig.ord = false) (h : MayEnd t 0) :
    Ends (.msDefer ra) s ((t.endedWith 2 [ra] []).setCore
      (if bit (t.r1 ra).toNat 6 then
        { (t.endedWith 2 [ra] []).core with trig := { (t.endedWith 2 [ra] []).core.trig with tag := fld (t.r1 ra) 5 0 } }
      else (t.endedWith 2 [ra] []).core)) := by
  refine run_ok ((bind_ok hports).trans ((bind_ok (core_at t)).trans ((bind_ok (trapIf_passes hord _ _ t)).trans ?_)))
  exact (bind_ok (endActivation_ends h)).trans (modCore_at _)

end Ends

/-- Settles O33: the operands pass, and endActivation waits for nothing and has room for what it holds. -/
theorem activationEnds : Obligations.ActivationEnds := by
  unfold Obligations.ActivationEnds
  refine fun s t ra rc x => ⟨fun h => run_ok (endActivation_ends h), fun hports hctl hgroup h => msEndc_ends hports hctl hgroup h,
    fun hports hord h => ?_⟩
  refine (msDefer_ends hports hord h).trans (congrArg Host.Outcome.next ?_)
  exact apply_ite (t.endedWith 2 [ra] []).setCore _ _ _

/-! ## Task records and barriers -/

section Tasks
variable {s t u v w : State} {ra rb rc : SReg} {la : BitVec 4} {va : Nat} {pl : Place}

/-- An operation without an argument. -/
theorem taskOp_ends (op : Nat) (hports : Gives (openPorts none [rb]) s () t) (hrec : Gives (recordOf (t.r1 rb)) t (va, pl) u)
    (hgate : Gives (gate (taskReq u op va pl 0)) u () v) : run (taskOp op rb none) s = .next (v.done [rb]) := by
  refine run_ok ((bind_ok hports).trans ((bind_ok (core_at t)).trans ((bind_ok hrec).trans ?_)))
  exact (bind_ok (get_at u)).trans ((bind_ok hgate).trans (finish_at _ v))

/-- An operation with its argument in a register. -/
theorem taskOp_ends_arg (op : Nat) (hports : Gives (openPorts none [rb, rc]) s () t)
    (hrec : Gives (recordOf (t.r1 rb)) t (va, pl) u) (hgate : Gives (gate (taskReq u op va pl (t.r2 rb rc))) u () v) :
    run (taskOp op rb (some rc)) s = .next (v.done [rb, rc]) := by
  refine run_ok ((bind_ok hports).trans ((bind_ok (core_at t)).trans ((bind_ok hrec).trans ?_)))
  exact (bind_ok (get_at u)).trans ((bind_ok hgate).trans (finish_at _ v))

theorem tkNew_ends (hports : Gives (openPorts (some ra) [rb, rc]) s () t) (hrec : Gives (recordOf (t.r1 rb)) t (va, pl) u)
    (hgate : Gives (gate (taskReq u 0 va pl (t.r2 rb rc))) u () v) :
    Ends (.tkNew la ra rb rc) s (v.withL ra la [rb, rc] (word (va / 64))) := by
  refine run_ok ((bind_ok hports).trans ((bind_ok (core_at t)).trans ((bind_ok hrec).trans ?_)))
  exact (bind_ok (get_at u)).trans ((bind_ok hgate).trans (finishL_at _ _ _ _ v))

/-! ### The limits on arrivals (R312) -/

/-- The core holds no entry for the barrier, and fewer than four. -/
def MayArrive (u : State) (va : Nat) : Prop :=
  ¬(u.ctxNo, va) ∈ barKeys u.core u.ctxNo ∧ (barKeys u.core u.ctxNo).length < 4

theorem mayArrive_iff (u : State) (va : Nat) : MayArrive u va ↔
    ((barKeys u.core u.ctxNo).contains (u.ctxNo, va) || decide (4 ≤ (barKeys u.core u.ctxNo).length)) = false := by
  simp [MayArrive]

theorem barrierLimits_passes (p : Word) (h : MayArrive u va) : barrierLimits p va u = .ok ((), u) :=
  (bind_ok (get_at u)).trans (trapIf_passes ((mayArrive_iff u va).mp h) 0x05 p u)

theorem barrierLimits_traps (p : Word) (h : ¬MayArrive u va) :
    barrierLimits p va u = .error (u.takeTrap u.cur 0x05 u.core.pc p) :=
  (bind_ok (get_at u)).trans (trapIf_traps (Bool.not_eq_false _ ▸ mt (mayArrive_iff u va).mpr h) 0x05 p u)

/-- What follows the operands of tk.barr. -/
theorem tkBarr_reads (hports : Gives (openPorts none [rb]) s () t) (hrec : Gives (recordOf (t.r1 rb)) t (va, pl) u) :
    exec (.tkBarr rb) s = run (do arriveAt (t.r1 rb) va pl; finish [rb]) u := by
  refine run_congr ((bind_ok hports).trans ((bind_ok (core_at t)).trans ((bind_ok hrec).trans ?_)))
  rfl

theorem tkBarr_ends (hports : Gives (openPorts none [rb]) s () t) (hrec : Gives (recordOf (t.r1 rb)) t (va, pl) u)
    (hfree : MayArrive u va) (hgate : Gives (gate (taskReq u 5 va pl 0)) u () w) :
    Ends (.tkBarr rb) s ((w.setCore { w.core with arrived := w.core.arrived ++ [va] }).done [rb]) := by
  have harrive : arriveAt (t.r1 rb) va pl u = .ok ((), w.setCore { w.core with arrived := w.core.arrived ++ [va] }) :=
    (bind_ok (barrierLimits_passes _ hfree)).trans ((bind_ok (get_at u)).trans ((bind_ok hgate).trans (modCore_at _)))
  exact (tkBarr_reads hports hrec).trans (run_ok ((bind_ok harrive).trans (finish_at _ _)))

theorem tkBarr_traps (hports : Gives (openPorts none [rb]) s () t) (hrec : Gives (recordOf (t.r1 rb)) t (va, pl) u)
    (hfull : ¬MayArrive u va) : Ends (.tkBarr rb) s (u.takeTrap u.cur 0x05 u.core.pc (t.r1 rb)) :=
  (tkBarr_reads hports hrec).trans (run_error (bind_error (bind_error (barrierLimits_traps _ hfull))))

/-! ### The wait at a barrier (R312) -/

/-- The activation notes that it has arrived at a barrier, unless it has before. -/
def Core.arrivedAt (c : Core) (there : Bool) (va : Nat) : Core := if there then c else { c with arrived := c.arrived ++ [va] }

theorem tkBwait_ends (hports : Gives (openPorts none [rb, rc]) s () t) (hrec : Gives (recordOf (t.r1 rb)) t (va, pl) u)
    (hctl : ctlReserved (t.r2 rb rc) false = false) (hgroup : groupExists u u.ctxNo (fld (t.r2 rb rc) 15 8) = true)
    (hfree : t.core.arrived.contains va = false → MayArrive u va) (h : MayEnd u 1) : Ends (.tkBwait rb rc) s
      (let e := u.endedWith 3 [rb, rc] [taskReq u (if t.core.arrived.contains va then 6 else 7) va pl (t.r2 rb rc)]
       e.setCore (e.core.arrivedAt (t.core.arrived.contains va) va)) := by
  have hlimits : onlyIf (!t.core.arrived.contains va) (barrierLimits (t.r1 rb) va) u = .ok ((), u) := by
    cases hthere : t.core.arrived.contains va
    · exact barrierLimits_passes _ (hfree hthere)
    · rfl
  refine run_ok ((bind_ok hports).trans ((bind_ok (core_at t)).trans ((bind_ok hrec).trans ?_)))
  refine (bind_ok (trapIf_passes hctl _ _ u)).trans ((bind_ok (checkGroup_passes hgroup)).trans ((bind_ok hlimits).trans ?_))
  exact (bind_ok (get_at u)).trans ((bind_ok (endActivation_ends h)).trans (modCore_at _))

end Tasks

/-- Settles O34: the record passes its checks, its limits leave room for an arrival, and the operation goes to the gate, or into
the buffer of the activation that ends. -/
theorem taskOperations : Obligations.TaskOperations := by
  unfold Obligations.TaskOperations
  refine fun s t u v la ra rb rc va pl => ⟨fun hports hrec => ⟨?_, ?_, ?_, ?_⟩, fun hports hrec => ⟨?_, ?_, ?_⟩,
    fun hports hrec => tkNew_ends hports hrec⟩
  · exact taskOp_ends 1 hports hrec
  · exact taskOp_ends 4 hports hrec
  · rintro hfree ⟨w, hgate, rfl⟩
    exact tkBarr_ends hports hrec hfree hgate
  · exact tkBarr_traps hports hrec
  · exact taskOp_ends_arg 2 hports hrec
  · exact taskOp_ends_arg 3 hports hrec
  · intro ctl hctl hgroup there hfree hout hqueue hroom
    have hmay : MayEnd u 1 := ⟨hout, hqueue, hroom⟩
    have hlimit (hnot : t.core.arrived.contains va = false) : MayArrive u va :=
      hfree.resolve_left (by simpa [there] using hnot)
    refine (tkBwait_ends hports hrec hctl hgroup hlimit hmay).trans (congrArg Host.Outcome.next ?_)
    by_cases hthere : va ∈ t.core.arrived
    · rw [List.contains_iff_mem.mpr hthere]
      simp only [there, hthere, if_true, Core.arrivedAt, State.endedWith, setCore_setCore, core_setCore, List.append_nil]
      rfl
    · rw [Bool.eq_false_iff.mpr (mt List.contains_iff_mem.mp hthere)]
      simp only [there, hthere, if_false, Bool.false_eq_true, Core.arrivedAt, State.endedWith, setCore_setCore, core_setCore]
      rfl

end Sys2Proof.Machine
end

section
/-! PROOFS. The gl group (R318, R330 to R333, R340), on operands and descriptors that pass their checks. -/
namespace Sys2Proof.Machine

section Operands
variable {s t u v w : State} {la : BitVec 4} {ra rb : SReg} {ws : List Word} {g : GateEntry} {ps : List Nat}

theorem entryOperand_passes {a : Word} (h : fld a 63 6 = 0) : entryOperand a t = .ok (fld a 5 0, t) :=
  congrFun (if_neg (not_not_intro h)) t

theorem glArm_ends (hports : Gives (openPorts none [ra, rb]) s () t) (ha : fld (t.r1 ra) 63 6 = 0)
    (hdesc : Gives (glDescriptor (t.r2 ra rb)) t ws u) (hgood : badLaunch u ws = false)
    (hgate : Gives (gate (.arm (fld (t.r1 ra) 5 0) (wordOf ws 0) (wordOf ws 1))) u () v) :
    Ends (.glArm ra rb) s (v.done [ra, rb]) := by
  refine run_ok ((bind_ok hports).trans ((bind_ok (core_at t)).trans ((bind_ok (entryOperand_passes ha)).trans ?_)))
  refine (bind_ok hdesc).trans ((bind_ok (get_at u)).trans ((bind_ok (trapIf_passes hgood _ _ u)).trans ?_))
  exact (bind_ok hgate).trans (finish_at _ v)

theorem glDisarm_ends (hports : Gives (openPorts none [ra]) s () t) (ha : fld (t.r1 ra) 63 6 = 0)
    (hgate : Gives (gate (.disarm (fld (t.r1 ra) 5 0))) t () v) : Ends (.glDisarm ra) s (v.done [ra]) := by
  refine run_ok ((bind_ok hports).trans ((bind_ok (core_at t)).trans ((bind_ok (entryOperand_passes ha)).trans ?_)))
  exact (bind_ok hgate).trans (finish_at _ v)

/-- The item of a trigger word: for the own context, or for a context of another package. -/
def trigItem (t : State) (a b : Word) : Gated :=
  if bit a.toNat 6 then .trigRemote (fld a 17 8) ⟨fld a 23 18, true, fld a 5 0, b⟩ a else .trig ⟨t.ctxNo, true, fld a 5 0, b⟩

theorem glTrig_ends (hports : Gives (openPorts none [ra, rb]) s () t) (ha : badTrigger (t.r1 ra) = false)
    (hgate : Gives (gate (trigItem t (t.r1 ra) (t.r2 ra rb))) t () v) : Ends (.glTrig ra rb) s (v.done [ra, rb]) := by
  refine run_ok ((bind_ok hports).trans ((bind_ok (get_at t)).trans ((bind_ok (trapIf_passes ha _ _ t)).trans ?_)))
  unfold trigItem at hgate
  split at hgate
  next hfar =>
    refine (congrFun (if_pos hfar) t).trans ?_
    exact (bind_ok hgate).trans (finish_at _ v)
  next hnear =>
    refine (congrFun (if_neg hnear) t).trans ?_
    exact (bind_ok hgate).trans (finish_at _ v)

/-- The packages of a gate's list are below 1024 and distinct (R340). -/
theorem parties_pass (hlt : ∀ p ∈ ps, p < 1024) (hnodup : ps.Nodup) :
    (ps.any (fun p => decide (1024 ≤ p)) || !decide ps.Nodup) = false := by
  simpa [hnodup] using hlt

theorem glGate_ends (hports : Gives (openPorts none [ra]) s () t) (hdesc : Gives (glDescriptor (t.r1 ra)) t ws u)
    (hgateFor : gateFor u (fld (wordOf ws 0) 63 32) u.ctxNo = some g) (hgood : badGate ws = false)
    (hparties : Gives (readParties (fld (wordOf ws 2) 51 0) (fld (wordOf ws 0) 10 0)) u ps v)
    (hlt : ∀ p ∈ ps, p < 1024) (hnodup : ps.Nodup)
    (hgate : Gives (gate (.gate
      { id := fld (wordOf ws 0) 63 32, time := (wordOf ws 1).toNat, action := g.action, partly := g.partly, guard := g.guard,
        pay := wordOf ws 3 } (fld (wordOf ws 0) 23 12) (fld (wordOf ws 0) 29 24) ps)) v () w) :
    Ends (.glGate ra) s (w.done [ra]) := by
  refine run_ok ((bind_ok hports).trans ((bind_ok (core_at t)).trans ((bind_ok hdesc).trans ((bind_ok (get_at u)).trans ?_))))
  rw [hgateFor]
  refine (bind_ok (trapIf_passes hgood _ _ u)).trans ((bind_ok hparties).trans ?_)
  exact (bind_ok (trapIf_passes (parties_pass hlt hnodup) _ _ v)).trans ((bind_ok hgate).trans (finish_at _ w))

end Operands

/-! ## gl.idx and gl.grp (R332, R333) -/

section Queries
variable {s t u v : State} {la : BitVec 4} {ra rb : SReg} {pl : Place} {bs : List Byte}

/-- What follows the check of gl.idx's operand. -/
theorem glIdx_reads (hports : Gives (openPorts (some ra) [rb]) s () t) (hb : fld (t.r1 rb) 63 8 = 0) :
    exec (.glIdx la ra rb) s = run (
      let l := launchOf t t.ctxNo (fld (t.r1 rb) 5 0)
      match fld (t.r1 rb) 7 6 with
      | 0 => finishL ra la [rb] (statusWord l)
      | 1 => finishL ra la [rb] l.saved
      | k =>
        if !l.fired then finishL ra la [rb] 0
        else do
          let va := fld (t.ctxAt t.ctxNo).lcbase 51 12 * 4096 + 64 * fld (t.r1 rb) 5 0 + 8 * (k - 2)
          let pl ← resolve va 8 .read
          let bs ← tailBytes va pl
          finishL ra la [rb] (word (ofBytes bs))) t := by
  refine run_congr ((bind_ok hports).trans ((bind_ok (get_at t)).trans ?_))
  refine (bind_ok (trapIf_passes (bne_eq_false_iff_eq.mpr hb) _ _ t)).trans ?_
  rfl

theorem glIdx_status (hports : Gives (openPorts (some ra) [rb]) s () t) (hb : fld (t.r1 rb) 63 8 = 0) (hk : fld (t.r1 rb) 7 6 = 0) :
    Ends (.glIdx la ra rb) s (t.withL ra la [rb] (statusWord (launchOf t t.ctxNo (fld (t.r1 rb) 5 0)))) := by
  refine (glIdx_reads hports hb).trans (run_ok ?_)
  dsimp only
  rw [hk]
  exact finishL_at _ _ _ _ t

theorem glIdx_saved (hports : Gives (openPorts (some ra) [rb]) s () t) (hb : fld (t.r1 rb) 63 8 = 0) (hk : fld (t.r1 rb) 7 6 = 1) :
    Ends (.glIdx la ra rb) s (t.withL ra la [rb] (launchOf t t.ctxNo (fld (t.r1 rb) 5 0)).saved) := by
  refine (glIdx_reads hports hb).trans (run_ok ?_)
  dsimp only
  rw [hk]
  exact finishL_at _ _ _ _ t

theorem glIdx_never {k : Nat} (hports : Gives (openPorts (some ra) [rb]) s () t) (hb : fld (t.r1 rb) 63 8 = 0)
    (hk : fld (t.r1 rb) 7 6 = k + 2) (hnot : (launchOf t t.ctxNo (fld (t.r1 rb) 5 0)).fired = false) :
    Ends (.glIdx la ra rb) s (t.withL ra la [rb] 0) := by
  refine (glIdx_reads hports hb).trans (run_ok ?_)
  dsimp only
  rw [hk, hnot]
  exact finishL_at _ _ _ _ t

theorem glIdx_block {k : Nat} (hports : Gives (openPorts (some ra) [rb]) s () t) (hb : fld (t.r1 rb) 63 8 = 0)
    (hk : fld (t.r1 rb) 7 6 = k + 2) (hfired : (launchOf t t.ctxNo (fld (t.r1 rb) 5 0)).fired = true)
    (hplace : Gives (resolve (fld (t.ctxAt t.ctxNo).lcbase 51 12 * 4096 + 64 * fld (t.r1 rb) 5 0 + 8 * k) 8 .read) t pl u)
    (hread : Gives (tailBytes (fld (t.ctxAt t.ctxNo).lcbase 51 12 * 4096 + 64 * fld (t.r1 rb) 5 0 + 8 * k) pl) u bs v) :
    Ends (.glIdx la ra rb) s (v.withL ra la [rb] (word (ofBytes bs))) := by
  refine (glIdx_reads hports hb).trans (run_ok ?_)
  dsimp only
  rw [hk, hfired]
  exact (bind_ok hplace).trans ((bind_ok hread).trans (finishL_at _ _ _ _ v))

theorem glGrp_ends (hports : Gives (openPorts (some ra) [rb]) s () t) (hb : fld (t.r1 rb) 63 10 = 0)
    (hgroup : fld (t.r1 rb) 9 8 = 3 → groupExists t t.ctxNo (fld (t.r1 rb) 7 0) = true) :
    Ends (.glGrp la ra rb) s (t.withL ra la [rb] (groupItem t (fld (t.r1 rb) 7 0) (fld (t.r1 rb) 9 8))) := by
  have hgood : (fld (t.r1 rb) 63 10 != 0 ||
      (fld (t.r1 rb) 9 8 == 3 && !groupExists t t.ctxNo (fld (t.r1 rb) 7 0))) = false := by
    simpa [hb] using hgroup
  refine run_ok ((bind_ok hports).trans ((bind_ok (get_at t)).trans ?_))
  exact (bind_ok (trapIf_passes hgood _ _ t)).trans (finishL_at _ _ _ _ t)

end Queries

/-- Settles O43: the operands and the descriptor pass one check after another; then the item is gated, or the value is read. -/
theorem launchInstructions : Obligations.LaunchInstructions := by
  unfold Obligations.LaunchInstructions
  refine fun s t u v w la ra rb ws pl bs g ps => ⟨fun hports => ⟨fun ha hdesc => glArm_ends hports ha hdesc,
    fun ha => ⟨fun hnear hgate => ?_, fun hfar hgate => ?_⟩⟩,
    fun hports => ⟨glDisarm_ends hports, fun hdesc => glGate_ends hports hdesc⟩,
    fun hports => ⟨fun hb => ⟨glIdx_status hports hb, glIdx_saved hports hb, fun hk => ?_,
      fun k _ hk hfired hplace => glIdx_block hports hb hk hfired hplace⟩, glGrp_ends hports⟩⟩
  · exact glTrig_ends hports ha (by rwa [trigItem, hnear])
  · exact glTrig_ends hports ha (by rwa [trigItem, hfar])
  · obtain ⟨k, hk⟩ := Nat.exists_eq_add_of_le' hk
    exact glIdx_never hports hb hk

end Sys2Proof.Machine
end

section
/-! PROOFS. The steps of launches (R317, R321) and of start gates (R339 to R342). -/
namespace Sys2Proof.Machine

/-! ## The launch entries of a context -/

section Launches
variable {s t : State} (ctx e k : Nat)

/-- A change of memory leaves every launch entry. -/
theorem launches_of_apart (h : t.apart = s.apart) : (t.ctxAt ctx).launches = (s.ctxAt ctx).launches := by
  have happ (u : State) : (u.apart.ctxAt ctx).launches = (u.ctxAt ctx).launches := by
    unfold State.apart State.ctxAt
    dsimp only
    rw [Tbl.getD_mapv _ _ rfl]
  rw [← happ, h, happ]

theorem launches_onCtx_of_kept {f : Ctx → Ctx} (h : ∀ x, (f x).launches = x.launches) :
    ((s.onCtx k f).ctxAt ctx).launches = (s.ctxAt ctx).launches := by
  by_cases hk : k = ctx
  · subst hk
    rw [ctxAt_onCtx_same, h]
  · rw [ctxAt_onCtx_ne _ _ _ hk]

/-- An entry of an error log leaves every launch entry. -/
theorem log_launches (cls code cid die : Nat) (hub : Bool) (addr detail : Nat) :
    ((s.log k cls code cid die hub addr detail).ctxAt ctx).launches = (s.ctxAt ctx).launches := by
  have hsend : ∀ (u : State) m, ((u.send m).ctxAt ctx).launches = (u.ctxAt ctx).launches := fun _ _ => rfl
  unfold State.log
  dsimp only
  split
  · rfl
  · rw [apply_ite (fun u : State => (u.ctxAt ctx).launches), hsend, ite_self, launches_onCtx_of_kept]
    · split
      · rfl
      · exact launches_of_apart ctx (perform_apart ..)
    · exact fun _ => rfl

theorem deviceStore_launches (ch : Nat) (data : List (Nat × Byte)) :
    ((s.deviceStore k ch data).ctxAt ctx).launches = (s.ctxAt ctx).launches := by
  have hual : ∀ (u : State) l st, ((u.overUal l st).ctxAt ctx).launches = (u.ctxAt ctx).launches := by
    intro u l st
    unfold State.overUal
    split <;> rfl
  unfold State.deviceStore
  dsimp only
  rw [launch_ctxAt, hual, launches_onCtx_of_kept]
  exact fun _ => rfl

theorem writeBlock_launches : ((s.writeBlock k e).ctxAt ctx).launches = (s.ctxAt ctx).launches := by
  unfold State.writeBlock
  dsimp only
  split
  · exact launches_of_apart ctx (perform_apart ..)
  · exact deviceStore_launches ..
  · rfl

theorem deal_launches (l : Launch) (cs : List Nat) (first n : Nat) :
    ((s.deal k e l cs first n).ctxAt ctx).launches = (s.ctxAt ctx).launches := by
  unfold State.deal
  exact foldl_keeps (f := fun u j => u.send (indexMsg u k e l (cs.getD (j % cs.length) 0) (first + j)))
    (fun u : State => (u.ctxAt ctx).launches) (fun _ _ => rfl) _ s

theorem launchOf_of_launches (h : (t.ctxAt ctx).launches = (s.ctxAt ctx).launches) : launchOf t ctx e = launchOf s ctx e := by
  rw [launchOf, h, launchOf]

theorem launchOf_onLaunch_same (f : Launch → Launch) : launchOf (s.onLaunch ctx e f) ctx e = f (launchOf s ctx e) := by
  rw [launchOf, State.onLaunch, ctxAt_onCtx_same, Tbl.getD_put_same]
  rfl

theorem launchOf_log (cls code cid die : Nat) (hub : Bool) (addr detail : Nat) :
    launchOf (s.log k cls code cid die hub addr detail) ctx e = launchOf s ctx e :=
  launchOf_of_launches ctx e (log_launches ..)

theorem launchOf_writeBlock (d : Nat) : launchOf (s.writeBlock k d) ctx e = launchOf s ctx e :=
  launchOf_of_launches ctx e (writeBlock_launches ..)

end Launches

/-! ## Triggers (R317, Table 15.1) -/

section Triggers
variable {s : State} {x : Trig} {e : Nat}

/-- An entry that is not empty notes the cycle of a trigger. -/
def State.noteHit (s : State) (ctx e : Nat) : State :=
  s.onLaunch ctx e fun l => if l.st = .empty then l else { l with hit := some s.pkg.cyc.toNat }

theorem noteHit_empty (h : (launchOf s x.ctx e).st = .empty) : launchOf (s.noteHit x.ctx e) x.ctx e = launchOf s x.ctx e := by
  rw [State.noteHit, launchOf_onLaunch_same, if_pos h]

theorem noteHit_hit (h : (launchOf s x.ctx e).st ≠ .empty) :
    launchOf (s.noteHit x.ctx e) x.ctx e = { launchOf s x.ctx e with hit := some s.pkg.cyc.toNat } := by
  rw [State.noteHit, launchOf_onLaunch_same, if_neg h]

theorem trigger_dropped (h : (s.ctxAt x.ctx).live = false ∨ (s.ctxAt x.ctx).state = 3) : s.trigger x = s :=
  if_pos (h.symm.imp_right fun hl => by rw [hl]; rfl)

/-- The context of a trigger is there and not killed. -/
def Admits (s : State) (x : Trig) : Prop := (s.ctxAt x.ctx).live = true ∧ (s.ctxAt x.ctx).state ≠ 3

theorem trigger_of_admits (h : Admits s x) : s.trigger x = match if x.byTag then entryOf s x.ctx x.n else some x.n with
    | none => s.log x.ctx 0x2D 0 0xFFF 0 false 0 x.n
    | some e => match (launchOf (s.noteHit x.ctx e) x.ctx e).st with
      | .empty => (s.noteHit x.ctx e).log x.ctx 0x2D 0 0xFFF 0 false 0 (launchOf (s.noteHit x.ctx e) x.ctx e).trig
      | .armed => (s.noteHit x.ctx e).fire x.ctx e x.pay
      | _ => (s.noteHit x.ctx e).onLaunch x.ctx e fun l => { l with missed := min 0xFFFF (l.missed + 1), saved := x.pay } := by
  obtain ⟨hlive, hstate⟩ := h
  refine (if_neg (by simp [hlive, hstate])).trans ?_
  rfl

variable (h : Admits s x)
include h

theorem trigger_unheld (htag : x.byTag = true) (hnone : entryOf s x.ctx x.n = none) :
    s.trigger x = s.log x.ctx 0x2D 0 0xFFF 0 false 0 x.n := by
  rw [trigger_of_admits h, htag, if_pos rfl, hnone]

variable (he : (if x.byTag then entryOf s x.ctx x.n else some x.n) = some e)
include he

theorem trigger_empty (hst : (launchOf s x.ctx e).st = .empty) :
    s.trigger x = (s.noteHit x.ctx e).log x.ctx 0x2D 0 0xFFF 0 false 0 (launchOf s x.ctx e).trig := by
  rw [trigger_of_admits h, he]
  dsimp only
  rw [noteHit_empty hst, hst]

theorem trigger_armed (hst : (launchOf s x.ctx e).st = .armed) : s.trigger x = (s.noteHit x.ctx e).fire x.ctx e x.pay := by
  rw [trigger_of_admits h, he]
  dsimp only
  rw [noteHit_hit (by rw [hst]; decide)]
  dsimp only
  rw [hst]

theorem trigger_missed (hst : (launchOf s x.ctx e).st = .idle ∨ (launchOf s x.ctx e).st = .firing) : s.trigger x =
    (s.noteHit x.ctx e).onLaunch x.ctx e fun l => { l with missed := min 0xFFFF (l.missed + 1), saved := x.pay } := by
  rw [trigger_of_admits h, he]
  dsimp only
  rcases hst with hst | hst <;> rw [noteHit_hit (by rw [hst]; decide)] <;> dsimp only <;> rw [hst]

end Triggers

/-- A firing leaves its entry as its first step sets it. -/
theorem launchOf_fire (s : State) (ctx e : Nat) (pay : Word) : launchOf (s.fire ctx e pay) ctx e =
    let l := launchOf s ctx e
    let d := liveDie s ctx l.grp
    { l with st := .firing, fires := (l.fires + 1) % 256, pay := pay, next := 0, low := 0, batches := [], relead := false,
             led := d.isSome, leader := d.getD l.leader, fired := true, kept := none } := by
  unfold State.fire
  dsimp only
  have hlaunch (u : State) (i : Instr) : launchOf (u.launch i) ctx e = launchOf u ctx e := rfl
  split
  · rw [hlaunch, launchOf_writeBlock, launchOf_onLaunch_same]
  · rw [launchOf_log, launchOf_writeBlock, launchOf_onLaunch_same]

/-! ## Batches (R321) -/

/-- A batch is handed to a live die with ready members of the group. -/
theorem batch_handed {s : State} {ctx e die : Nat} (hmay : (launchOf s ctx e).mayHand = true) (hblocks : blocksLost s ctx e = false)
    (hlive : (s.dieAt die).lost = false)
    (hnear : ((readyMembers s ctx (launchOf s ctx e).grp).any fun c => dieOf c == die) = true) :
    let l := launchOf s ctx e
    launchOf (s.batch ctx e die) ctx e = { l with
      next := l.next + min 64 (l.count - l.next),
      batches := l.batches ++ [(l.next, die, (List.range (min 64 (l.count - l.next))).map (l.next + ·))] } := by
  intro l
  have hfiring : ¬l.st ≠ .firing := by
    simp only [Launch.mayHand, Bool.and_eq_true, beq_iff_eq] at hmay
    obtain ⟨⟨⟨hst, -⟩, -⟩, -⟩ := hmay
    exact not_not_intro hst
  have hcores : (readyMembers s ctx l.grp).filter (fun c => dieOf c == die && !(s.dieAt die).lost) ≠ [] := by
    obtain ⟨c, hc, hdie⟩ := List.any_eq_true.mp hnear
    refine List.ne_nil_of_mem (List.mem_filter.mpr ⟨hc, ?_⟩)
    rw [hdie, hlive]
    rfl
  have hlaunch (u : State) (i : Instr) : launchOf (u.launch i) ctx e = launchOf u ctx e := rfl
  unfold State.batch
  dsimp only
  rw [if_neg hfiring, hblocks, if_neg Bool.false_ne_true, hmay, if_neg (by decide), if_neg hcores]
  dsimp only
  rw [if_neg hcores]
  split
  · split
    · rw [hlaunch, launchOf_writeBlock, launchOf_onLaunch_same, launchOf_of_launches ctx e (deal_launches ..)]
    · rw [launchOf_writeBlock, launchOf_onLaunch_same, launchOf_of_launches ctx e (deal_launches ..)]
  · rw [launchOf_writeBlock, launchOf_onLaunch_same, launchOf_of_launches ctx e (deal_launches ..)]

/-! ## A participant of a start gate (R339 to R342) -/

section Parts
variable {s : State} {id : Nat} {p : GatePost} {g : GateEntry}

/-- A gate with no part here has nothing to decide. -/
theorem partClock_none (h : partOf s id = none) : s.partClock id = s := by rw [State.partClock, h]

theorem partClock_waiting (h : partOf s id = some (p, .waiting)) (hearly : s.pkg.now.toNat + p.guard < p.time) :
    s.partClock id = s := by
  rw [State.partClock, h]
  exact if_neg (by omega)

theorem partClock_go (h : partOf s id = some (p, .go)) (hdue : p.time ≤ s.pkg.now.toNat) :
    s.partClock id = (s.setPart id none).actGate p := by
  rw [State.partClock, h]
  exact if_pos hdue

theorem partClock_armed_late (h : partOf s id = some (p, .armed)) (hlate : p.time + 1000000 ≤ s.pkg.now.toNat) :
    s.partClock id = (s.setPart id none).partFault p := by
  rw [State.partClock, h]
  exact if_pos hlate

theorem partClock_armed (h : partOf s id = some (p, .armed)) (hearly : s.pkg.now.toNat < p.time + 1000000) :
    s.partClock id = s := by
  rw [State.partClock, h]
  exact if_neg (by omega)

/-- The outcome of a post, after what the clock has decided. -/
theorem gatePost_ends (hclock : s.partClock (postName p) = s) : Ends (.gatePost p) s
    (if !postFits s p then s.refusePost p
     else if (partOf s (postName p)).isSome then s
     else match matching s p with
       | some _ => s.armPart p
       | none => (s.setPart (postName p) (some (p, .waiting))).note 4 p.id p.tenant) := by
  change execGatePost p s = _
  rw [execGatePost, hclock] <;> rfl

theorem gatePost_refused (hclock : s.partClock (postName p) = s) (hfits : postFits s p = false) :
    Ends (.gatePost p) s (s.refusePost p) := by
  have h := gatePost_ends hclock
  rwa [hfits, if_pos (by rfl)] at h

theorem gatePost_ignored (hclock : s.partClock (postName p) = s) (hfits : postFits s p = true)
    (hpart : (partOf s (postName p)).isSome = true) : Ends (.gatePost p) s s := by
  have h := gatePost_ends hclock
  rwa [hfits, if_neg (by decide), if_pos hpart] at h

/-- A first post, by whether an installed entry matches it. -/
theorem gatePost_first (hfits : postFits s p = true) (hpart : partOf s (postName p) = none) :
    (matching s p = some g → Ends (.gatePost p) s (s.armPart p)) ∧
    (matching s p = none → Ends (.gatePost p) s ((s.setPart (postName p) (some (p, .waiting))).note 4 p.id p.tenant)) := by
  have h := gatePost_ends (partClock_none hpart)
  rw [hfits, if_neg (by decide), hpart, if_neg (by decide)] at h
  exact ⟨fun hm => by rwa [hm] at h, fun hm => by rwa [hm] at h⟩

/-- The outcome of a GO at an armed participant before T + 1 ms. -/
theorem gateGo_armed (atOnce : Bool) (h : partOf s id = some (p, .armed)) (hearly : s.pkg.now.toNat < p.time + 1000000) :
    Ends (.gateGo id atOnce) s
      (if atOnce then (s.setPart id none).actGate p
       else if p.time < s.pkg.now.toNat then ((s.setPart id none).partFault p).actGate p
       else s.setPart id (some (p, .go))) := by
  change execGateGo id atOnce s = _
  rw [execGateGo, partClock_armed h hearly, h]

theorem gateGo_waits (h : partOf s id = some (p, .armed)) (hearly : s.pkg.now.toNat ≤ p.time) :
    Ends (.gateGo id false) s (s.setPart id (some (p, .go))) := by
  have hends := gateGo_armed false h (by omega)
  rwa [if_neg Bool.false_ne_true, if_neg (by omega)] at hends

theorem gateGo_late (h : partOf s id = some (p, .armed)) (hpast : p.time < s.pkg.now.toNat)
    (hearly : s.pkg.now.toNat < p.time + 1000000) :
    Ends (.gateGo id false) s (((s.setPart id none).partFault p).actGate p) := by
  have hends := gateGo_armed false h hearly
  rwa [if_neg Bool.false_ne_true, if_pos hpast] at hends

/-- The outcome of the timeout at an armed participant. -/
theorem gateArmedTimeout_ends (h : partOf s id = some (p, .armed)) : Ends (.gateArmedTimeout id) s
    (if p.time + 1000000 ≤ s.pkg.now.toNat then (s.setPart id none).partFault p else s) := by
  change execGateArmedTimeout id s = _
  rw [execGateArmedTimeout, h]

theorem gateActionTime_acts (h : partOf s id = some (p, .go)) (hdue : p.time ≤ s.pkg.now.toNat) :
    Ends (.gateActionTime id) s ((s.setPart id none).actGate p) := by
  change execGateActionTime id s = _
  rw [execGateActionTime, h]
  exact congrArg Host.Outcome.next (if_pos hdue)

/-- ABORT ends a part that its clock has left as it is and that does not wait for its entry. -/
theorem gateAbort_ends {st : GateState} (h : partOf s id = some (p, st)) (hst : st ≠ .waiting) (hclock : s.partClock id = s) :
    Ends (.gateAbort id) s (s.setPart id none) := by
  change execGateAbort id s = _
  rw [execGateAbort, hclock, h]
  cases st
  · exact absurd rfl hst
  · rfl
  · rfl

theorem gateAbort_waiting (h : partOf s id = some (p, .waiting)) (hearly : s.pkg.now.toNat + p.guard < p.time) :
    Ends (.gateAbort id) s s := by
  change execGateAbort id s = _
  rw [execGateAbort, partClock_waiting h hearly, h]

end Parts

/-! ## The coordinator of a start gate (R340, R341) -/

section Coordinator
variable {s : State} {id pkg : Nat} {deg : Bool} {k : Coord} {p : GatePost}

theorem coordClock_none (h : coordOf s id = none) : s.coordClock id = s := by rw [State.coordClock, h]

/-- The coordinator's clock decides nothing twice, and nothing before T - guard. -/
theorem coordClock_stays (h : coordOf s id = some k)
    (hstays : k.decided = true ∨ s.pkg.now.toNat + k.p.guard < k.p.time) : s.coordClock id = s := by
  rw [State.coordClock, h]
  refine if_pos ?_
  rcases hstays with hdec | hearly
  · rw [hdec]
    rfl
  · have hnot : ¬k.p.time ≤ s.pkg.now.toNat + k.p.guard := by omega
    rw [decide_eq_false hnot]
    exact Bool.or_true _

theorem coordClock_decides (h : coordOf s id = some k) (hdec : k.decided = false)
    (hdue : k.p.time ≤ s.pkg.now.toNat + k.p.guard) :
    s.coordClock id = if k.p.partly && k.armed != [] then s.settleGate k 1 true else s.settleGate k 2 true := by
  rw [State.coordClock, h]
  dsimp only
  rw [hdec, decide_eq_true hdue]
  exact if_neg (by decide)

theorem gateArmed_decided (h : coordOf s id = some k) (hdec : k.decided = true) :
    Ends (.gateArmed id pkg deg) s (s.toGate pkg (.gateAbort id)) := by
  change execGateArmed id pkg deg s = _
  rw [execGateArmed, coordClock_stays h (.inl hdec)]
  dsimp only
  rw [h]
  exact congrArg Host.Outcome.next (if_pos hdec)

/-- A gate's coordinator notes an armed package, and decides when it is the last one. -/
theorem gateArmed_noted (h : coordOf s id = some k) (hdec : k.decided = false)
    (hearly : s.pkg.now.toNat + k.p.guard < k.p.time) (hin : pkg ∈ k.pkgs) (hnew : (k.armed.any fun a => a.1 == pkg) = false) :
    let k' := { k with armed := k.armed ++ [(pkg, deg)] }
    let t := s.setCoord k k'
    Ends (.gateArmed id pkg deg) s (if k'.armed.length = k'.pkgs.length then t.settleGate k' 0 false else t) := by
  intro k' t
  have hmember : ¬(!k.pkgs.contains pkg || k.armed.any fun a => a.1 == pkg) = true := by simp [hin, hnew]
  change execGateArmed id pkg deg s = _
  rw [execGateArmed, coordClock_stays h (.inr hearly)]
  dsimp only
  rw [h]
  refine congrArg Host.Outcome.next ?_
  refine (if_neg (Bool.eq_false_iff.mp hdec)).trans (if_neg hmember)

theorem goMarkedNow_sends (h : coordOf s id = some k) (hlate : k.late = true) (hdue : k.p.time ≤ s.pkg.now.toNat) :
    Ends (.goMarkedNow id) s
      (k.armed.foldl (fun s a => s.toGate a.1 (.gateGo id true)) (s.setCoord k { k with late := false })) := by
  change execGoMarkedNow id s = _
  rw [execGoMarkedNow, h]
  dsimp only
  rw [hlate, decide_eq_true hdue]
  rfl

theorem gateGuardDeadline_waiting (h : partOf s id = some (p, .waiting)) (hcoord : coordOf s id = none)
    (hdue : p.time ≤ s.pkg.now.toNat + p.guard) : Ends (.gateGuardDeadline id) s (s.setPart id none) := by
  have hpart : coordOf (s.setPart id none) id = none := hcoord
  change execGateGuardDeadline id s = _
  rw [execGateGuardDeadline, h]
  dsimp only
  rw [if_pos hdue, coordClock_none hpart]

theorem gateGuardDeadline_coordinator (h : coordOf s id = some k) (hpart : partOf s id = none) (hdec : k.decided = false)
    (hdue : k.p.time ≤ s.pkg.now.toNat + k.p.guard) : Ends (.gateGuardDeadline id) s
      (if k.p.partly && k.armed != [] then s.settleGate k 1 true else s.settleGate k 2 true) := by
  change execGateGuardDeadline id s = _
  rw [execGateGuardDeadline, hpart]
  dsimp only
  rw [coordClock_decides h hdec hdue]

end Coordinator

/-- Settles O52: a trigger and a batch by what they leave of their entry, a gate's step by what the clocks and its part decide. -/
theorem launchSteps : Obligations.LaunchSteps := by
  unfold Obligations.LaunchSteps
  refine fun s x ctx e die id pkg p g k st deg => ⟨fun hlive hstate he => ⟨fun hst => ?_, fun hst => ?_, fun hst => ?_⟩,
    fun h => congrArg Host.Outcome.next (trigger_dropped h),
    fun hlive hstate htag hnone => congrArg Host.Outcome.next (trigger_unheld ⟨hlive, hstate⟩ htag hnone),
    fun hmay hblocks hdie hnear => ⟨_, rfl, ?_⟩,
    ⟨fun hfits hpart => gatePost_first hfits hpart, fun hfits hpart hclock => gatePost_ignored hclock hfits hpart,
      fun hfits hclock => gatePost_refused hclock hfits⟩,
    fun h => ⟨fun hearly => gateGo_armed true h hearly, gateGo_waits h, gateGo_late h, fun hlate => ?_, fun hearly => ?_⟩,
    gateActionTime_acts, partClock_go, partClock_armed_late, gateAbort_ends,
    fun h => ⟨gateAbort_waiting h, gateGuardDeadline_waiting h⟩,
    fun h => ⟨gateArmed_decided h, gateArmed_noted h, goMarkedNow_sends h, gateGuardDeadline_coordinator h⟩⟩
  · refine ⟨s.noteHit x.ctx e, congrArg Host.Outcome.next (trigger_empty ⟨hlive, hstate⟩ he hst), noteHit_empty hst, ?_⟩
    exact fun _ => rfl
  · refine ⟨_, congrArg Host.Outcome.next (trigger_armed ⟨hlive, hstate⟩ he hst), ?_⟩
    rw [launchOf_fire, noteHit_hit (by rw [hst]; decide)]
    exact ⟨rfl, rfl, rfl, rfl, rfl⟩
  · refine ⟨_, congrArg Host.Outcome.next (trigger_missed ⟨hlive, hstate⟩ he hst), ?_⟩
    rw [launchOf_onLaunch_same, noteHit_hit (by rcases hst with hst | hst <;> rw [hst] <;> decide)]
    exact ⟨rfl, rfl⟩
  · rw [batch_handed hmay hblocks hdie hnear]
    exact ⟨rfl, rfl⟩
  · have hends := gateArmedTimeout_ends h
    rwa [if_pos hlate] at hends
  · have hends := gateArmedTimeout_ends h
    rwa [if_neg (by omega)] at hends

end Sys2Proof.Machine
end

section
/-! PROOFS. The steps of repair: errors and their retries, a moved core or cluster, links, and the loss of a die (R350, R363, R365 to
R368). -/
namespace Sys2Proof.Machine

/-! ## Errors (R350) -/

section Errors
variable {s : State} {e : ErrSite}

theorem errorRetry_core (c : Nat) (recurs : Bool) : Ends (.errorRetry (.core c) recurs) s (s.repairCore c) := by
  cases recurs <;> rfl

theorem errorRetry_crumb (u id : Nat) (both recurs : Bool) :
    Ends (.errorRetry (.crumb u id both) recurs) s (s.badCrumb u id both recurs) := by
  cases recurs <;> rfl

/-- An error of a site that is read again: by its retry alone. -/
theorem errorRetry_read (hcore : ∀ x, e ≠ .core x) (hcrumb : ∀ u i b, e ≠ .crumb u i b) :
    Ends (.errorRetry e false) s (s.note 0 0 (errAddr e) (errDie e)) ∧ Ends (.errorRetry e true) s (s.lasting e) := by
  cases e with
  | core x => exact absurd rfl (hcore x)
  | crumb u i b => exact absurd rfl (hcrumb u i b)
  | line | task | inbox | way | lane | flit => exact ⟨rfl, rfl⟩

end Errors

/-! ## A core or a cluster that moves (R365) -/

section Moves
variable {s : State} {c i : Nat} {whole : Bool}

/-- What a move leaves of a core: its registers, and empty caches. -/
def Core.settled (x : Core) : Core := { x with remap := false, l1 := [], l1i := [], l1tlb := [] }

theorem clusterAt_onCluster_same (s : State) (k : Nat) (f : Cluster → Cluster) :
    (s.onCluster k f).clusterAt k = f (s.clusterAt k) := by
  rw [State.clusterAt, State.onCluster, Tbl.getD_put_same]

theorem movedCores_nodup (c : Nat) (whole : Bool) : (movedCores c whole).Nodup := by
  cases whole
  · exact List.nodup_singleton c
  · exact List.nodup_range.map fun a b h => Nat.add_left_cancel h

theorem remapComplete_core (hmoving : (s.coreAt c).remap = true) (hfree : holdsActivation (s.coreAt c) = false) :
    ∃ t, Ends (.remapComplete c false) s t ∧ t.coreAt c = (s.coreAt c).settled := by
  refine ⟨((s.onCore c Core.settled).freshRows [c]), ?_, coreAt_onCore_same ..⟩
  change execRemapComplete c false s = _
  simp [execRemapComplete, movedCores, hmoving, hfree]
  rfl

theorem remapComplete_held (hmoving : (s.coreAt c).remap = true) (hheld : holdsActivation (s.coreAt c) = true) :
    Ends (.remapComplete c false) s (s.launch (.remapComplete c false)) := by
  change execRemapComplete c false s = _
  simp [execRemapComplete, movedCores, hmoving, hheld]

theorem remapComplete_still (hstill : (s.coreAt c).remap = false) : Ends (.remapComplete c false) s s := by
  change execRemapComplete c false s = _
  simp [execRemapComplete, hstill]

/-- The cores that move go on with empty caches. -/
def State.coresMoved (s : State) (c : Nat) (whole : Bool) : State :=
  (movedCores c whole).foldl (fun s i => s.onCore i Core.settled) s

/-- The cluster of cores that have moved, with its combining unit and its slice's TLB. -/
def State.clusterFresh (t : State) (c : Nat) : State :=
  let k := clusterOf c
  let t := (t.freshRows (movedCores c true)).freshRows [4096 + k, 8192 + k]
  ((t.onCluster k fun x => { x with remap := false }).onUnit k fun u => { u with removed := false }).onSlice k fun x =>
    { x with tlb := [], ptc := [] }

theorem clusterFresh_coreAt (t : State) (c i : Nat) : (t.clusterFresh c).coreAt i = t.coreAt i := by
  simp only [State.clusterFresh, State.onSlice, State.onUnit, State.onCluster, State.freshRows, State.onPkg, State.coreAt]

theorem clusterFresh_remap (t : State) (c : Nat) : ((t.clusterFresh c).clusterAt (clusterOf c)).remap = false := by
  have hclusters (u : State) f g : ((u.onUnit (clusterOf c) f).onSlice (clusterOf c) g).clusterAt (clusterOf c) =
      u.clusterAt (clusterOf c) := rfl
  rw [State.clusterFresh, hclusters, clusterAt_onCluster_same]

theorem coresMoved_coreAt (s : State) {c : Nat} {whole : Bool} (hi : i ∈ movedCores c whole) :
    (s.coresMoved c whole).coreAt i = (s.coreAt i).settled := by
  rw [State.coresMoved, coreAt_foldl_onCore_in Core.settled (movedCores_nodup c whole) hi]

theorem remapComplete_cluster (hmoving : (s.clusterAt (clusterOf c)).remap = true)
    (hfree : ∀ i ∈ movedCores c true, holdsActivation (s.coreAt i) = false) :
    Ends (.remapComplete c true) s ((s.coresMoved c true).clusterFresh c) := by
  have hnone : ¬((movedCores c true).any fun i => holdsActivation (s.coreAt i)) = true := by simpa using hfree
  have hmoves : ¬(!(s.clusterAt (clusterOf c)).remap) = true := by rw [hmoving]; decide
  exact congrArg Host.Outcome.next ((if_neg hmoves).trans (if_neg hnone))

end Moves

/-! ## Links and lanes (R363, R366) -/

section Links
variable {s : State} {p : NetPart}

theorem linkRemoval_again (h : p ∈ s.pkg.removedParts) : Ends (.linkRemoval p) s s :=
  congrArg Host.Outcome.next (if_pos (List.contains_iff_mem.mpr h))

theorem linkRemoval_ualink {port : Nat} (h : .ualink port ∉ s.pkg.removedParts) : Ends (.linkRemoval (.ualink port)) s
    (s.onPkg fun q => { q with removedParts := q.removedParts ++ [.ualink port], ual := q.ual.filter (· != port) }) :=
  congrArg Host.Outcome.next (if_neg (mt List.contains_iff_mem.mp h))

theorem linkRemoval_mesh {d n port : Nat} (h : .mesh d n port ∉ s.pkg.removedParts) :
    let t := s.onPkg fun q => { q with removedParts := q.removedParts ++ [.mesh d n port] }
    Ends (.linkRemoval (.mesh d n port)) s ((cutOff t d).foldl State.loseCluster t) :=
  congrArg Host.Outcome.next (if_neg (mt List.contains_iff_mem.mp h))

end Links

/-! ## The loss of a die (R367) -/

/-- A lost core is as after reset, and no context that is pre-empted by the loss changes it beyond its caches. -/
theorem loseCores_coreAt (s : State) {lo n c : Nat} (h : inIds lo n c = true) :
    ((s.loseCores lo n).coreAt c).ready = false ∧ ((s.loseCores lo n).coreAt c).inbox = [] := by
  have hpreempt : ∀ (t : State) (y : Nat × Ctx),
      CachesOnly t (if y.2.state = 1 && allHalted t y.1 then t.preempted y.1 else t) := by
    intro t y
    split
    · exact preempted_cachesOnly ..
    · exact .refl t
  unfold State.loseCores
  dsimp only
  obtain ⟨a, i, m, hcore⟩ := (foldl_cachesOnly hpreempt _ _).cores c
  rw [hcore]
  have hreset (t : State) : Tbl.getD (Tbl.mapv t.cores fun c x => if inIds lo n c then {} else x) c {} = ({} : Core) := by
    rw [Tbl.getD_mapv (f := fun c x => if inIds lo n c then ({} : Core) else x) _ _ (if_pos h)]
    exact if_pos h
  refine ⟨?_, ?_⟩
  · exact congrArg Core.ready (hreset _)
  · exact congrArg Core.inbox (hreset _)

theorem inIds_of_dieOf {c die : Nat} (h : dieOf c = die) : inIds (512 * die) 512 c = true := by
  have hdiv : c / 512 = die := h
  simp only [inIds, Bool.and_eq_true, decide_eq_true_eq]
  omega

/-- Settles O53: each step by its branch, a move by the core that it leaves, and a loss by the cores after reset. -/
theorem repairSteps : Obligations.RepairSteps := by
  unfold Obligations.RepairSteps
  refine fun s e p c die link => ⟨errorRetry_read, errorRetry_crumb, errorRetry_core c true, errorRetry_core c false, rfl,
    fun hmoving hfree => ?_, remapComplete_held, remapComplete_still, fun hmoving hfree => ?_, linkRemoval_again,
    fun h port hp => ?_, fun h d n port hp => ?_, rfl, fun h => ?_, fun h => ⟨s.repaired 0 link none, ?_, rfl⟩, rfl,
    fun h => if_pos (.inr h), fun c hc => loseCores_coreAt s (inIds_of_dieOf hc), fun hrun hkind hset hdue hnone => ?_⟩
  · obtain ⟨t, hends, hcore⟩ := remapComplete_core hmoving hfree
    exact ⟨t, hends, by rw [hcore]; exact ⟨rfl, rfl, rfl, rfl, rfl⟩⟩
  · refine ⟨_, remapComplete_cluster hmoving hfree, clusterFresh_remap _ c, fun i hi => ?_⟩
    rw [clusterFresh_coreAt, coresMoved_coreAt s hi]
    exact ⟨rfl, rfl, rfl, rfl, rfl⟩
  · subst hp
    exact linkRemoval_ualink h
  · subst hp
    exact linkRemoval_mesh h
  · exact congrArg Host.Outcome.next (if_pos h)
  · exact congrArg Host.Outcome.next (if_neg h)
  · exact congrArg Host.Outcome.next (if_pos ⟨hrun, hkind, hset, hdue, hnone⟩)

end Sys2Proof.Machine
end

section
/-! PROOFS. Arrivals: of messages at their cores and sequencers (R290, R294, R299), of queue words (R269), of posts (R241) and of
reports (R245). -/
namespace Sys2Proof.Machine

/-! ## Messages (R290, R294) -/

section Messages
variable {s : State} {m : Msg}

theorem deliver_dropped (h : (s.ctxAt m.ctx).live = false ∨ (s.ctxAt m.ctx).state = 3) : s.deliver m = s :=
  if_pos (h.imp_left fun hl => by rw [hl]; rfl)

theorem deliver_proofed (hlive : (s.ctxAt m.ctx).live = true) (hstate : (s.ctxAt m.ctx).state = 2)
    (hroom : (s.ctxAt m.ctx).store1.length + (s.ctxAt m.ctx).store2.length < storeCap (fld (s.ctxAt m.ctx).proof 4 0)) :
    s.deliver m = (s.proofEntry m.ctx { m with first := false }).onCtx m.ctx fun y =>
      { y with store2 := y.store2 ++ [{ m with first := false }] } := by
  refine (if_neg ?_).trans ((if_pos (.inl hstate)).trans (if_pos hroom))
  simp [hlive, hstate]

/-- Nothing moves a core or its cluster. -/
theorem copying_of_still {c : Nat} (hcore : (s.coreAt c).remap = false) (hcluster : (s.clusterAt (clusterOf c)).remap = false) :
    copying s c = false := by
  rw [copying, copyingCluster, hcore, hcluster]
  rfl

/-- A message of a running context at a ready core that is not being moved, for a tag with a handler, finds its place. -/
theorem deliver_placed (hlive : (s.ctxAt m.ctx).live = true) (hstate : (s.ctxAt m.ctx).state = 0)
    (hlost : coreLost s m.dcore = false) (hready : (s.coreAt m.dcore).ready = true) (hcopy : copying s m.dcore = false)
    (htag : (Tbl.getD (tagsKnown s m.dcore m.ctx).tags m.tag {}).dflt ≠ none) : s.deliver m = s.place m := by
  have hhandler : ¬(Tbl.getD (tagsKnown s m.dcore m.ctx).tags m.tag {}).dflt.isNone = true := by simpa using htag
  refine (if_neg (by simp [hlive, hstate])).trans ((if_neg (by simp [hstate])).trans ?_)
  refine (if_neg (by simp [hlost])).trans ((if_neg (by simp [hready])).trans ?_)
  exact (if_neg (by simp [hcopy])).trans (if_neg hhandler)

/-- A message of a tag of which nothing is spilled enters the core's inbox, which has room. -/
theorem place_inbox (hring : (s.ctxAt m.ctx).ring.any (sameTag m) = false)
    (hcluster : (s.clusterAt (clusterOf m.dcore)).inbox.any (sameTag m) = false)
    (hroom : (s.coreAt m.dcore).inbox.length < coreCap s m.dcore) :
    s.place m = s.onCore m.dcore fun x => { x with inbox := x.inbox ++ [{ m with first := false }] } := by
  unfold State.place
  dsimp only
  rw [hring, hcluster, decide_eq_true hroom]
  rfl

end Messages

/-! ## The sequencer (R299) -/

section Sequencer
variable {s : State} {m : Msg}

/-- The key that a message receives: its timestamp or the frontier, and the count of arrivals. -/
def keyFor (d : Domain) (m : Msg) : Nat × Nat := (max m.ts d.front, d.next)

/-- A domain that has given a key. -/
def Domain.given (d : Domain) (m : Msg) : Domain := { d with next := d.next + 1, keys := d.keys ++ [keyFor d m] }

/-- The state with a message's key given. -/
def State.keyGiven (s : State) (m : Msg) : State :=
  s.onCtx m.ctx fun x => { x with domains := Tbl.put x.domains m.grp ((domainOf s m.ctx m.grp).given m) }

theorem keyed_fresh (h : m.key = none) : s.keyed m = (keyFor (domainOf s m.ctx m.grp) m, s.keyGiven m) := by
  rw [State.keyed, h]
  rfl

theorem domainOf_keyGiven : domainOf (s.keyGiven m) m.ctx m.grp = (domainOf s m.ctx m.grp).given m := by
  rw [domainOf, State.keyGiven, ctxAt_onCtx_same, Tbl.getD_put_same]

/-- A message that can never run leaves its domain's count and frontier. -/
theorem domainOf_forgetKey (t : State) (m : Msg) : ∃ keys, domainOf (t.forgetKey m) m.ctx m.grp =
    { domainOf t m.ctx m.grp with keys := keys } := by
  have hnote : domainOf (if m.note then t.onCtx m.ctx fun x => { x with enote := false } else t) m.ctx m.grp =
      domainOf t m.ctx m.grp := by
    split
    · rw [domainOf, ctxAt_onCtx_same]
      rfl
    · rfl
  unfold State.forgetKey
  dsimp only
  split
  next k _ =>
    refine ⟨(domainOf t m.ctx m.grp).keys.erase k, ?_⟩
    rw [domainOf, ctxAt_onCtx_same]
    dsimp only
    rw [Tbl.getD_put_same, ← hnote]
    rfl
  · exact ⟨_, hnote⟩

theorem domainOf_dispatchMsg (t : State) (m : Msg) : ∃ keys, domainOf (t.dispatchMsg m) m.ctx m.grp =
    { domainOf t m.ctx m.grp with keys := keys } := by
  unfold State.dispatchMsg
  split
  · split
    · exact domainOf_forgetKey t m
    · split <;> exact ⟨_, rfl⟩
  · split
    · exact domainOf_forgetKey t m
    · exact ⟨_, rfl⟩

/-- A message for a core that is not lost keeps its key. -/
theorem domainOf_dispatchMsg_kept {t : State} {m : Msg} (hobj : m.obj = none) (hlost : coreLost t m.dcore = false) :
    domainOf (t.dispatchMsg m) m.ctx m.grp = domainOf t m.ctx m.grp := by
  have hroute : route t m = some m.dcore := by rw [route, hobj]
  unfold State.dispatchMsg
  rw [hroute]
  dsimp only
  rw [hlost, if_neg Bool.false_ne_true]
  split <;> rfl

theorem domainOf_sequence (hkey : m.key = none) : ∃ keys, domainOf (s.sequence m) m.ctx m.grp =
    { (domainOf s m.ctx m.grp).given m with keys := keys } := by
  unfold State.sequence
  rw [keyed_fresh hkey, ← domainOf_keyGiven]
  dsimp only
  split
  · split
    · exact domainOf_forgetKey (s.keyGiven m) { m with key := some (keyFor (domainOf s m.ctx m.grp) m) }
    · exact ⟨_, rfl⟩
  · exact domainOf_dispatchMsg (s.keyGiven m) { m with key := some (keyFor (domainOf s m.ctx m.grp) m), dcore := _, obj := none }

/-- With no core lost and a member in the group the message keeps the key it has received. -/
theorem domainOf_sequence_kept (hkey : m.key = none) (hlost : ∀ c, coreLost s c = false)
    (hmember : groupMembers s m.ctx m.grp ≠ []) : domainOf (s.sequence m) m.ctx m.grp = (domainOf s m.ctx m.grp).given m := by
  have hlost' (c : Nat) : coreLost (s.keyGiven m) c = false := hlost c
  have hgroup : groupMembers (s.keyGiven m) m.ctx m.grp = groupMembers s m.ctx m.grp := by
    rw [groupMembers, State.keyGiven, ctxAt_onCtx_same]
    rfl
  have hnotAll : ¬((groupMembers (s.keyGiven m) m.ctx m.grp).all (coreLost (s.keyGiven m))) = true := by
    rw [hgroup, List.all_eq_true]
    obtain ⟨c, hc⟩ := List.exists_mem_of_ne_nil _ hmember
    exact fun hall => by simpa [hlost' c] using hall c hc
  unfold State.sequence
  rw [keyed_fresh hkey, ← domainOf_keyGiven]
  dsimp only
  rw [if_neg hnotAll]
  split
  · rfl
  · exact domainOf_dispatchMsg_kept (m := { m with key := some (keyFor (domainOf s m.ctx m.grp) m), dcore := _, obj := none })
      rfl (hlost' _)

theorem sequencerArrival_ends (hlive : (s.ctxAt m.ctx).live = true) (hstate : (s.ctxAt m.ctx).state ≠ 3) :
    Ends (.sequencerArrival m) s (s.sequence m) := by
  refine congrArg Host.Outcome.next (if_pos ?_)
  simp [hlive, hstate]

end Sequencer

/-! ## Words of neighbour queues (R269) -/

section Words
variable {s : State} {c port ctx : Nat}

theorem fifo_setFifo_same (x : Core) (q : List (BitVec 65)) (h : port < 4) : (x.setFifo port q).fifo port = q := by
  simp [Core.fifo, Core.setFifo, h]

theorem fifo_setFifo_ne (x : Core) (q : List (BitVec 65)) {k : Nat} (hk : k < 4) (hne : k ≠ port) :
    (x.setFifo port q).fifo k = x.fifo k := by
  simp [Core.fifo, Core.setFifo, hk, hne]

/-- A word for the context that its core holds enters the FIFO last. -/
theorem queueWordArrival_enters {w : BitVec 65} (hmove : moving s c = false) (hfrom : moving s ((neighbour c port).getD c) = false)
    (hctx : (s.coreAt c).ctx = some ctx) (hsave : Tbl.has (s.ctxAt ctx).saves c = false) :
    Ends (.queueWordArrival c port ⟨ctx, w⟩) s (s.onCore c fun x => x.setFifo port ((s.coreAt c).fifo port ++ [w])) := by
  have hfifo : fifoOf s ctx c port = (s.coreAt c).fifo port := by rw [fifoOf, hsave, if_neg Bool.false_ne_true, if_pos hctx]
  have harrives : s.wordArrives c port ⟨ctx, w⟩ = s.onCore c fun x => x.setFifo port ((s.coreAt c).fifo port ++ [w]) := by
    rw [State.wordArrives, hsave, if_neg Bool.false_ne_true, if_pos hctx, hfifo]
  exact congrArg Host.Outcome.next ((if_neg (by rw [hmove, hfrom]; decide)).trans harrives)

end Words

/-! ## Posts (R241) and reports (R245) -/

section Posts
variable {s : State} {p : Post} {ctx g c : Nat}

/-- A post at a core that holds its context's state and has room. -/
theorem postArrive_received (hsave : Tbl.has (s.ctxAt p.ctx).saves p.ncore = false) (hroom : (s.coreAt p.ncore).posts.length < 16)
    (hcopy : copying s p.ncore = false) : s.postArrive p =
      if (s.coreAt p.ncore).phase != .idle || (s.coreAt p.ncore).posts != [] then
        s.onCore p.ncore fun x => { x with posts := x.posts ++ [p] }
      else s.applyPost p := by
  have hholder : s.holder p.ncore p.ctx = s.coreAt p.ncore := by rw [State.holder, hsave, if_neg Bool.false_ne_true]
  have hon (f : Core → Core) : s.onHolder p.ncore p.ctx f = s.onCore p.ncore f := by
    rw [State.onHolder, hsave, if_neg Bool.false_ne_true]
  have hfull : ¬(decide (16 ≤ (s.coreAt p.ncore).posts.length) || copying s p.ncore) = true := by
    simpa [hcopy] using hroom
  rw [State.postArrive]
  rw [hholder, hsave, hon, if_neg hfull, Bool.false_or]

theorem postArrival_applies (hsave : Tbl.has (s.ctxAt p.ctx).saves p.ncore = false) (hroom : (s.coreAt p.ncore).posts.length < 16)
    (hcopy : copying s p.ncore = false) (hidle : (s.coreAt p.ncore).phase = .idle) (hnone : (s.coreAt p.ncore).posts = []) :
    Ends (.postArrival p) s (s.applyPost p) :=
  congrArg Host.Outcome.next ((postArrive_received hsave hroom hcopy).trans (if_neg (by simp [hidle, hnone])))

theorem postArrival_buffers (hsave : Tbl.has (s.ctxAt p.ctx).saves p.ncore = false) (hroom : (s.coreAt p.ncore).posts.length < 16)
    (hcopy : copying s p.ncore = false) (hbusy : (s.coreAt p.ncore).phase ≠ .idle) :
    Ends (.postArrival p) s (s.onCore p.ncore fun x => { x with posts := x.posts ++ [p] }) :=
  congrArg Host.Outcome.next ((postArrive_received hsave hroom hcopy).trans (if_pos (by simp [hbusy])))

theorem postApply_oldest {rest : List Post} (hposts : (s.coreAt c).posts = p :: rest) (hidle : (s.coreAt c).phase = .idle)
    (hfree : (s.coreAt c).holdsPosts = false) :
    Ends (.postApply c) s ((s.onCore c fun x => { x with posts := rest }).applyPost p) := by
  change execPostApply c s = _
  rw [execPostApply, State.postApply, hposts]
  exact congrArg Host.Outcome.next (if_pos ⟨hidle, by rw [hfree]; rfl⟩)

/-- Seeing the quiet condition afresh leaves the reports. -/
theorem judge_reports (s : State) : (runOf (s.judge ctx g) ctx g).reports = (runOf s ctx g).reports := by
  rw [State.judge, runOf_onRun_same]
  rfl

theorem runOutFire_fires (hstate : (s.ctxAt ctx).state < 2) (hdue : (runOf s ctx g).due = true) : Ends (.runOutFire ctx g) s
    ((s.onRun ctx g fun u => { u with fired := true, arm := false, cond := false, count := 0, done := false }).launch
      (.launchTrigger ⟨ctx, false, (runOf s ctx g).lent.toNat, word g⟩)) :=
  congrArg Host.Outcome.next (if_pos (by simp [hstate, hdue]))

end Posts

/-- Settles O45: each arrival by its branch, and the domain, the FIFO or the unit that it leaves. -/
theorem arrivalSteps : Obligations.ArrivalSteps := by
  unfold Obligations.ArrivalSteps
  refine ⟨fun s m c port ctx w => ⟨fun h => congrArg Host.Outcome.next (deliver_dropped h),
    fun hlive hstate hroom => congrArg Host.Outcome.next (deliver_proofed hlive hstate hroom), ?_, ?_, ?_⟩,
    fun s p rest ctx g c => ⟨fun hsave hroom hcore hcluster => ⟨?_, ?_⟩, postApply_oldest, ?_, ?_⟩⟩
  · intro hlive hstate hlost hready hcore hcluster htag hring hbox hroom
    have hcopy := copying_of_still hcore hcluster
    exact congrArg Host.Outcome.next ((deliver_placed hlive hstate hlost hready hcopy htag).trans (place_inbox hring hbox hroom))
  · intro hlive hstate hkey
    obtain ⟨keys, hdomain⟩ := domainOf_sequence (s := s) hkey
    refine ⟨_, sequencerArrival_ends hlive hstate, ?_, ?_, fun hlost hmember => ?_⟩
    · rw [hdomain]
      rfl
    · rw [hdomain]
      rfl
    · rw [domainOf_sequence_kept hkey hlost hmember]
      rfl
  · intro hmove hfrom hport hctx hsave
    refine ⟨_, queueWordArrival_enters hmove hfrom hctx hsave, ?_, fun q hq hne => ?_⟩
    · rw [coreAt_onCore_same, fifo_setFifo_same _ _ hport]
    · rw [coreAt_onCore_same, fifo_setFifo_ne _ _ hq hne]
  · exact postArrival_applies hsave hroom (copying_of_still hcore hcluster)
  · exact postArrival_buffers hsave hroom (copying_of_still hcore hcluster)
  · refine ⟨_, rfl, ?_⟩
    rw [judge_reports, runOf_onRun_same]
  · intro hstate hdue
    have hlaunch (u : State) (i : Instr) : runOf (u.launch i) ctx g = runOf u ctx g := rfl
    refine ⟨_, runOutFire_fires hstate hdue, ?_, ?_, rfl⟩
    · rw [hlaunch, runOf_onRun_same]
    · rw [hlaunch, runOf_onRun_same]

end Sys2Proof.Machine
end

section
/-! PROOFS. The steps of tasks and barriers (R308, R309, R311 to R313, R322, R156). -/
namespace Sys2Proof.Machine

/-! ## The states of contexts, which no write changes -/

section States
variable {s t : State} (x : Nat)

theorem state_of_apart (h : t.apart = s.apart) : (t.ctxAt x).state = (s.ctxAt x).state := by
  have happ (u : State) : (u.apart.ctxAt x).state = (u.ctxAt x).state := by
    unfold State.apart State.ctxAt
    dsimp only
    rw [Tbl.getD_mapv _ _ rfl]
  rw [← happ, h, happ]

theorem state_onCtx_of_kept (k : Nat) {f : Ctx → Ctx} (h : ∀ y, (f y).state = y.state) :
    ((s.onCtx k f).ctxAt x).state = (s.ctxAt x).state := by
  by_cases hk : k = x
  · subst hk
    rw [ctxAt_onCtx_same, h]
  · rw [ctxAt_onCtx_ne _ _ _ hk]

theorem log_state (k cls code cid die : Nat) (hub : Bool) (addr detail : Nat) :
    ((s.log k cls code cid die hub addr detail).ctxAt x).state = (s.ctxAt x).state := by
  have hsend : ∀ (u : State) m, ((u.send m).ctxAt x).state = (u.ctxAt x).state := fun _ _ => rfl
  unfold State.log
  dsimp only
  split
  · rfl
  · rw [apply_ite (fun u : State => (u.ctxAt x).state), hsend, ite_self, state_onCtx_of_kept]
    · split
      · rfl
      · exact state_of_apart x (perform_apart ..)
    · exact fun _ => rfl

theorem onHolder_state (c k : Nat) (f : Core → Core) : ((s.onHolder c k f).ctxAt x).state = (s.ctxAt x).state := by
  unfold State.onHolder
  split
  · exact state_onCtx_of_kept x k fun _ => rfl
  · rfl

theorem onChainAt_state (owner k ch : Nat) (f : Chain → Chain) :
    ((s.onChainAt owner k ch f).ctxAt x).state = (s.ctxAt x).state := by
  unfold State.onChainAt
  split
  · exact state_onCtx_of_kept x k fun _ => rfl
  · rfl

theorem overUal_state (l : Nat × Nat) (st : ChainStore) : ((s.overUal l st).ctxAt x).state = (s.ctxAt x).state := by
  unfold State.overUal
  split <;> rfl

theorem toSync_state (st : ChainStore) : ((s.toSync st).ctxAt x).state = (s.ctxAt x).state := by
  unfold State.toSync
  dsimp only
  split
  · split <;> split
    · rw [onChainAt_state, state_of_apart x (applyStore_apart ..), overUal_state]
    · exact overUal_state ..
    · rw [onChainAt_state, state_of_apart x (applyStore_apart ..)]
    · rfl
  · rfl

theorem toLink_state (st : ChainStore) : ((s.toLink st).ctxAt x).state = (s.ctxAt x).state := by
  unfold State.toLink
  dsimp only
  split <;> split
  · exact overUal_state ..
  · exact overUal_state ..
  · rfl
  · rfl

theorem refuseStore_state (st : ChainStore) (pkg : Nat) : ((s.refuseStore st pkg).ctxAt x).state = (s.ctxAt x).state := by
  unfold State.refuseStore
  dsimp only
  split
  · exact onHolder_state ..
  · exact log_state ..

theorem takeStore_state (l : Nat × Nat) (st : ChainStore) : ((s.takeStore l st).ctxAt x).state = (s.ctxAt x).state := by
  obtain ⟨u, hapart, -, htake⟩ := takeStore_eq s l st
  rw [htake, onChainAt_state, state_of_apart x hapart]

theorem toMember_state (st : ChainStore) : ((s.toMember st).ctxAt x).state = (s.ctxAt x).state :=
  state_of_apart x (toMember_apart s st).1

theorem chainArrive_state (st : ChainStore) : ((s.chainArrive st).ctxAt x).state = (s.ctxAt x).state := by
  unfold State.chainArrive
  dsimp only
  split
  · split
    · exact toSync_state ..
    · exact log_state ..
  · split
    · split
      · rfl
      · exact toMember_state ..
    · split
      · rw [toMember_state, refuseStore_state]
      · split
        · rw [toLink_state, onChainAt_state, takeStore_state]
        · rw [toMember_state, toSync_state, takeStore_state]

/-- The bytes of a record, written in memory or down its chain, change no context's state. -/
theorem writeRecord_state (c ctx pa : Nat) (bs : List Byte) : ((s.writeRecord c ctx pa bs).ctxAt x).state = (s.ctxAt x).state := by
  unfold State.writeRecord
  split
  · unfold State.writeHome
    dsimp only
    split
    · rw [launch_ctxAt, onHolder_state]
    · rw [chainArrive_state, onHolder_state]
  · exact state_of_apart x (perform_apart ..)

end States

/-! ## Records and queues (R307 to R309) -/

section Records
variable {s : State}

/-- Off the chain lines a record is written in its own bytes alone. -/
theorem writeRecord_bytes {ctx pa : Nat} (c : Nat) (h : chainHolding s ctx pa = none) (bs : List Byte) :
    (s.writeRecord c ctx pa bs).readPa pa bs.length = bs ∧ SameOutside s (s.writeRecord c ctx pa bs) pa bs.length := by
  have hmem : (s.writeRecord c ctx pa bs).mem = s.mem.writeN pa bs := by
    rw [State.writeRecord, h]
    exact perform_mem ..
  refine ⟨?_, sameOutside_of_writeN hmem rfl⟩
  have hread := readPa_of_writeN hmem (k := 0) (n := bs.length) (by omega)
  rwa [Nat.add_zero, List.drop_zero, List.take_length] at hread

theorem mem_insertTask (r : Ready) (qs : List Ready) : r ∈ insertTask r qs := by
  induction qs with
  | nil => exact List.mem_singleton_self r
  | cons q rest ih =>
    unfold insertTask
    split
    · exact List.mem_cons_self
    · exact List.mem_cons_of_mem q ih

/-- A message that takes an entry of its context's ring stays as it is otherwise. -/
theorem intoRing_keeps (m : Msg) : ((s.intoRing m).getD (m, s)).1.ctx = m.ctx ∧ ((s.intoRing m).getD (m, s)).1.kind = m.kind ∧
    ((s.intoRing m).getD (m, s)).1.pay = m.pay := by
  unfold State.intoRing
  cases ringSlot s m.ctx <;> exact ⟨rfl, rfl, rfl⟩

/-- A task of a context that is not killed stands in the ready queue, spilled or not. -/
theorem enqueueTask_ready (k : Nat) (r : Ready) (h : (s.ctxAt r.m.ctx).state ≠ 3) :
    ∃ q ∈ ((s.enqueueTask k r).clusterAt k).ready, q.m.ctx = r.m.ctx ∧ q.m.kind = r.m.kind ∧ q.m.pay = r.m.pay := by
  unfold State.enqueueTask
  rw [if_neg h]
  dsimp only
  split
  · rw [clusterAt_onCluster_same]
    exact ⟨_, mem_insertTask _ _, intoRing_keeps _⟩
  · rw [clusterAt_onCluster_same]
    exact ⟨_, mem_insertTask _ _, rfl, rfl, rfl⟩

theorem queueTask_ready (c ctx va pa status count : Nat) (h : (s.ctxAt ctx).state ≠ 3) :
    ∃ q ∈ ((s.queueTask c ctx va pa status count).clusterAt (clusterOf c)).ready,
      q.m.ctx = ctx ∧ q.m.kind = 2 ∧ q.m.pay.take 2 = [word va, word status] := by
  have hstate : ((s.writeRecord c ctx pa (taskWord0 2 (taskAt s pa).gen count)).ctxAt ctx).state ≠ 3 := by
    rwa [writeRecord_state]
  obtain ⟨q, hq, hctx, hkind, hpay⟩ := enqueueTask_ready (clusterOf c)
    { m := taskMsg _ ctx va status (taskAt s pa), since := _, mig := _ } hstate
  exact ⟨q, hq, hctx, hkind, by rw [hpay]; rfl⟩

end Records

/-! ## A tk operation at its record (R308, R311, Table 14.13) -/

section Home
variable {s : State} {r : TaskReq}

/-- The state after an operation's request to the package of its record (R376). -/
def State.taskAsked (s : State) (r : TaskReq) : State := s.askRemote r.ctx r.pa (.task r)

theorem taskAsked_reads (s : State) (r : TaskReq) :
    taskAt (s.taskAsked r) r.pa = taskAt s r.pa ∧ recordError (s.taskAsked r) r.ctx r.pa = recordError s r.ctx r.pa := by
  unfold State.taskAsked State.askRemote
  split <;> exact ⟨rfl, rfl⟩

/-- What an operation does at a record that reads well. -/
theorem taskHome_readable (herr : recordError s r.ctx r.pa = none) (hbad : (taskAt s r.pa).bad = false) : s.taskHome r =
    let t := taskAt s r.pa
    let u := s.taskAsked r
    match r.op with
    | 0 =>
      let n := r.arg.toNat % 2 ^ 32
      if t.st ≠ 0 ∨ (t.bar ∧ n = 0) then u.logCore r.ctx 0x2B 0 r.core r.va 0
      else
        let v := u.onCtx r.ctx fun x => { x with armed := Tbl.put x.armed r.va r.core }
        if n = 0 then v.queueTask r.core r.ctx r.va r.pa 0 0
        else v.writeRecord r.core r.ctx r.pa (taskWord0 1 t.gen n)
    | 1 => u.arrive r 1
    | 2 => u.arrive r (r.arg.toNat % 2 ^ 32)
    | 3 => if t.bar then u.logCore r.ctx 0x2B 0 r.core r.va 0
      else u.writeRecord r.core r.ctx (r.pa + 32) (toBytes 8 r.arg.toNat)
    | 4 =>
      if t.st = 1 ∨ t.st = 2 then (u.unqueue r.ctx r.va).writeRecord r.core r.ctx r.pa (taskWord0 0 t.gen t.count)
      else u
    | _ => u.arrive r 1 := by
  obtain ⟨hread, hfails⟩ := taskAsked_reads s r
  have hasked : s.askRemote r.ctx r.pa (.task r) = s.taskAsked r := rfl
  unfold State.taskHome
  dsimp only
  rw [hasked, hread, hfails, herr, hbad] <;> rfl

section Operations
variable (herr : recordError s r.ctx r.pa = none) (hbad : (taskAt s r.pa).bad = false)
include herr hbad

theorem taskHome_new (hop : r.op = 0) (hst : (taskAt s r.pa).st = 0) :
    let n := r.arg.toNat % 2 ^ 32
    let v := (s.taskAsked r).onCtx r.ctx fun x => { x with armed := Tbl.put x.armed r.va r.core }
    (n ≠ 0 → s.taskHome r = v.writeRecord r.core r.ctx r.pa (taskWord0 1 (taskAt s r.pa).gen n)) ∧
    (n = 0 → (taskAt s r.pa).bar = false → s.taskHome r = v.queueTask r.core r.ctx r.va r.pa 0 0) := by
  intro n v
  rw [taskHome_readable herr hbad]
  dsimp only
  rw [hop, hst]
  refine ⟨fun hn => ?_, fun hn hbar => ?_⟩
  · exact (if_neg fun h => h.elim (absurd rfl) fun h => hn h.2).trans (if_neg hn)
  · exact (if_neg fun h => h.elim (absurd rfl) fun h => Bool.eq_false_iff.mp hbar h.1).trans (if_pos hn)

/-- A single arrival, which is one at a barrier by its operation 5. -/
theorem taskHome_arrives (hop : r.op = 1 ∨ r.op = 5) : s.taskHome r = (s.taskAsked r).arrive r 1 := by
  rw [taskHome_readable herr hbad]
  dsimp only
  rcases hop with hop | hop <;> rw [hop] <;> rfl

theorem taskHome_arrd (hop : r.op = 2) : s.taskHome r = (s.taskAsked r).arrive r (r.arg.toNat % 2 ^ 32) := by
  rw [taskHome_readable herr hbad]
  dsimp only
  rw [hop]
  rfl

theorem taskHome_deadline (hop : r.op = 3) (hbar : (taskAt s r.pa).bar = false) :
    s.taskHome r = (s.taskAsked r).writeRecord r.core r.ctx (r.pa + 32) (toBytes 8 r.arg.toNat) := by
  rw [taskHome_readable herr hbad]
  dsimp only
  rw [hop]
  exact if_neg (Bool.eq_false_iff.mp hbar)

theorem taskHome_kill (hop : r.op = 4) : s.taskHome r =
    if (taskAt s r.pa).st = 1 ∨ (taskAt s r.pa).st = 2 then ((s.taskAsked r).unqueue r.ctx r.va).writeRecord r.core r.ctx r.pa
      (taskWord0 0 (taskAt s r.pa).gen (taskAt s r.pa).count)
    else s.taskAsked r := by
  rw [taskHome_readable herr hbad]
  dsimp only
  rw [hop]
  rfl

end Operations

/-! ### Arrivals -/

/-- The acknowledgement that a barrier's arrival has (R313). -/
def State.acked (s : State) (r : TaskReq) (gen : Nat) : State :=
  if r.op = 5 then s.launch (.barrierAcknowledgement r.core r.ctx r.va ⟨gen, r.ent⟩) else s

theorem acked_of_ne {gen : Nat} (h : r.op ≠ 5) : s.acked r gen = s := if_neg h

section Arrivals
variable {t : Task} {n : Nat} (ht : taskAt s r.pa = t)
include ht

theorem arrive_misuse (hn : n ≠ 0) (hst : t.st = 0 ∨ t.st = 4) : s.arrive r n = s.logCore r.ctx 0x2B 0 r.core r.va 0 := by
  subst ht
  rw [State.arrive]
  exact (if_neg hn).trans (if_pos hst)

/-- Arrivals that a waiting record still awaits. -/
theorem arrive_counted (hn : n ≠ 0) (hst : t.st = 1) (hle : n ≤ t.count) : s.arrive r n =
    if t.count - n = 0 then
      if t.bar then (s.acked r t.gen).releaseBarrier r.core r.ctx r.va r.pa t
      else (s.acked r t.gen).queueTask r.core r.ctx r.va r.pa 0 0
    else (s.acked r t.gen).writeRecord r.core r.ctx r.pa (taskWord0 1 t.gen (t.count - n)) := by
  subst ht
  have hcount : (taskAt s r.pa).count ≠ 0 := by omega
  have hwell : ¬((taskAt s r.pa).count < n ∨ (taskAt s r.pa).count = 0) := by omega
  have hwaits : ¬((taskAt s r.pa).st = 0 ∨ (taskAt s r.pa).st = 4) := by rw [hst]; omega
  rw [State.arrive]
  refine (if_neg hn).trans ((if_neg hwaits).trans ?_)
  rw [if_neg hwell, hst]
  exact if_congr ⟨fun h => h.2.1, fun h => ⟨rfl, h, .inl hcount⟩⟩ rfl rfl

theorem arrive_lowers (hop : r.op ≠ 5) (hn : n ≠ 0) (hst : t.st = 1) (hlt : n < t.count) :
    s.arrive r n = s.writeRecord r.core r.ctx r.pa (taskWord0 1 t.gen (t.count - n)) := by
  rw [arrive_counted ht hn hst hlt.le, if_neg (by omega), acked_of_ne hop]

theorem arrive_last (hop : r.op ≠ 5) (hn : n ≠ 0) (hst : t.st = 1) (heq : n = t.count) (hbar : t.bar = false) :
    s.arrive r n = s.queueTask r.core r.ctx r.va r.pa 0 0 := by
  rw [arrive_counted ht hn hst heq.le, if_pos (by omega), hbar, acked_of_ne hop]
  rfl

/-- An arrival at a barrier by operation 5 is acknowledged first. -/
theorem arrive_barrier (hop : r.op = 5) (hst : t.st = 1) (hbar : t.bar = true) :
    let v := s.launch (.barrierAcknowledgement r.core r.ctx r.va ⟨t.gen, r.ent⟩)
    (1 < t.count → s.arrive r 1 = v.writeRecord r.core r.ctx r.pa (taskWord0 1 t.gen (t.count - 1))) ∧
    (t.count = 1 → s.arrive r 1 = v.releaseBarrier r.core r.ctx r.va r.pa t) := by
  intro v
  have hacked : s.acked r t.gen = v := if_pos hop
  refine ⟨fun hmore => ?_, fun hone => ?_⟩
  · rw [arrive_counted ht one_ne_zero hst hmore.le, if_neg (by omega), hacked]
  · rw [arrive_counted ht one_ne_zero hst hone.ge, if_pos (by omega), if_pos hbar, hacked]

end Arrivals

/-- The releases of a barrier to its members, one after another. -/
theorem foldl_launch_flight_map (f : Nat → Instr) (ks : List Nat) (s : State) :
    ks.foldl (fun s k => s.launch (f k)) s = { s with flight := s.flight ++ ks.map f } := by
  induction ks generalizing s with
  | nil => simp
  | cons k rest ih =>
    rw [List.foldl_cons, ih]
    simp [State.launch]

/-- The last arrival at a barrier: its record, and a release to each member. -/
theorem releaseBarrier_eq (s : State) (c ctx va pa : Nat) (t : Task) : s.releaseBarrier c ctx va pa t =
    let v := s.writeRecord c ctx pa (taskWord0 1 (t.gen + 1) (bits t.w3 63 32))
    { v with flight := v.flight ++ (groupMembers v ctx (bits t.w1 39 32)).map fun k => .barrierRelease k ctx va t.gen } :=
  foldl_launch_flight_map _ _ _

end Home

/-! ## Tasks that a core takes (R309, R156) -/

section Takes
variable {s : State} {c ctx k : Nat} {q : Ready}

/-- The state without a task that a core takes from a cluster's queue. -/
def State.without (s : State) (k : Nat) (q : Ready) : State :=
  s.onCluster k fun x => { x with ready := refillTasks (readyCap s k) (x.ready.erase q) }

theorem foldl_older_mem (rest : List (Nat × Ready)) (e : Nat × Ready) : rest.foldl older e ∈ e :: rest := by
  induction rest generalizing e with
  | nil => exact List.mem_singleton_self e
  | cons b rest ih =>
    have hmem : older e b = e ∨ older e b = b := by
      unfold older
      split
      · exact .inr rfl
      · exact .inl rfl
    rw [List.foldl_cons]
    rcases List.mem_cons.mp (ih (older e b)) with h | h
    · rw [h]
      rcases hmem with h | h <;> simp [h]
    · exact List.mem_cons_of_mem e (List.mem_cons_of_mem b h)

/-- A task that is found for a core is one that the core may take. -/
theorem taskFor_ctx (h : taskFor s c ctx = some (k, q)) : q.m.ctx = ctx := by
  have hall : ∀ e ∈ s.clusters.flatMap fun e => (e.2.ready.filter fun r => mayTake s c ctx e.1 r).map fun r => (e.1, r),
      e.2.m.ctx = ctx := by
    intro e he
    obtain ⟨x, -, hx⟩ := List.mem_flatMap.mp he
    obtain ⟨r, hr, rfl⟩ := List.mem_map.mp hx
    have hmay := (List.mem_filter.mp hr).2
    simp only [mayTake, Bool.and_eq_true, beq_iff_eq] at hmay
    obtain ⟨⟨⟨⟨hctx, -⟩, -⟩, -⟩, -⟩ := hmay
    exact hctx
  have hlevel (p : Nat × Ready → Bool) : (match (s.clusters.flatMap fun e => (e.2.ready.filter fun r =>
      mayTake s c ctx e.1 r).map fun r => (e.1, r)).filter p with
    | [] => none
    | e :: rest => some (rest.foldl older e)) = some (k, q) → q.m.ctx = ctx := by
    split
    · exact fun h => nomatch h
    next e rest hlist =>
      intro hsome
      have hin : (k, q) ∈ e :: rest := Option.some.inj hsome ▸ foldl_older_mem rest e
      rw [← hlist] at hin
      exact hall _ (List.mem_filter.mp hin).1
  unfold taskFor at h
  dsimp only at h
  rcases Option.or_eq_some_iff.mp h with h | ⟨-, h⟩
  · rcases Option.or_eq_some_iff.mp h with h | ⟨-, h⟩
    · exact hlevel _ h
    · exact hlevel _ h
  · exact hlevel _ h

theorem takeTask_found (hcan : canStart s c = some ctx)
    (hidle : ((tagsOf s c ctx).tags.any fun e => e.2.en && tagPending s c ctx e.1 e.2) = false)
    (hfree : (s.coreAt c).fetching = none) (htask : taskFor s c ctx = some (k, q)) : s.takeTask c =
      if wantsSlot s { q.m with dcore := c } then
        if (freeSlot s c ctx).isNone then s else (s.without k q).fetchFor c ctx { q.m with dcore := c }
      else (s.without k q).deliverTask c { q.m with dcore := c } := by
  unfold State.takeTask
  rw [hcan]
  dsimp only
  rw [hfree, hidle, htask]
  rfl

theorem fetchFor_slot {m : Msg} {j : Nat} (h : freeSlot s c ctx = some j) :
    s.fetchFor c ctx m = (s.onCore c fun x => { x with fetching := some (m, j) }).launch (.footprintPrefetch c) := by
  rw [State.fetchFor, h]

theorem deliverTask_present {m : Msg} {pa : Nat} (h : recordPa s m.ctx (m.pay.headD 0).toNat = some pa) :
    s.deliverTask c m = (s.writeRecord c m.ctx pa (taskWord0 3 (taskAt s pa).gen (taskAt s pa).count)).deliver m := by
  rw [State.deliverTask, h]

theorem deliverTask_absent {m : Msg} (h : recordPa s m.ctx (m.pay.headD 0).toNat = none) : s.deliverTask c m = s.deliver m := by
  rw [State.deliverTask, h]

/-- A footprint that has been read whole. -/
theorem footprintPrefetch_read {m : Msg} {n : Nat} {bs : List Byte} {s1 : State} (h : (s.coreAt c).fetching = some (m, n))
    (hread : readFar s c { ctx := m.ctx, act := 2 ^ 52 } m.fp (partsOf (m.fp % 64) m.fplen) = (.ok bs none, s1)) :
    Ends (.footprintPrefetch c) s
      ((s1.fillSlot c m.ctx (slotOff (s1.ctxAt m.ctx).fparea n) bs).fetched c { m with slot := some n }) := by
  change execFootprintPrefetch c s = _
  rw [execFootprintPrefetch, h]
  dsimp only
  rw [State.prefetch]
  dsimp only
  rw [hread]

end Takes

/-! ## Barrier entries and indices (R313, R322) -/

section Entries
variable {s : State} {c ctx va : Nat}

theorem onHolder_own (h : Tbl.has (s.ctxAt ctx).saves c = false) (f : Core → Core) : s.onHolder c ctx f = s.onCore c f := by
  rw [State.onHolder, h]
  rfl

/-- Sending messages leaves the cores. -/
theorem foldl_send_coreAt (ms : List Msg) (s : State) : (ms.foldl State.send s).coreAt c = s.coreAt c :=
  foldl_keeps (f := State.send) (fun u : State => u.coreAt c) (fun _ _ => rfl) ms s

theorem settleBars_bars (s : State) (c : Nat) :
    ((s.settleBars c).coreAt c).bars = (s.coreAt c).bars.filter fun b => !b.ripe := by
  unfold State.settleBars
  dsimp only
  rw [foldl_send_coreAt, coreAt_onCore_same]

theorem settleHeldBars_own (h : Tbl.has (s.ctxAt ctx).saves c = false) : s.settleHeldBars c ctx = s.settleBars c := by
  rw [State.settleHeldBars, h]
  rfl

theorem barrierAcknowledgement_ends (gen ent : Nat) (h : Tbl.has (s.ctxAt ctx).saves c = false) :
    Ends (.barrierAcknowledgement c ctx va ⟨gen, ent⟩) s (s.onCore c fun x => { x with bars := x.bars.map fun b =>
      if b.ctx == ctx && b.va == va && b.id == ent && b.gen.isNone then { b with gen := some gen } else b }) :=
  congrArg Host.Outcome.next (onHolder_own h _)

theorem barrierRelease_ends (gen : Nat) (h : Tbl.has (s.ctxAt ctx).saves c = false) :
    Ends (.barrierRelease c ctx va gen) s ((s.onCore c fun x => { x with bars := x.bars.map fun b =>
      (if b.ctx == ctx && b.va == va && b.gen == some gen then { b with released := true } else b) }).settleBars c) := by
  refine congrArg Host.Outcome.next ?_
  rw [onHolder_own h]
  exact settleHeldBars_own h

/-- An index that is acknowledged in a firing that goes on leaves its batch. -/
theorem ackIndex_batches {e i : Nat} :
    let u := s.onLaunch ctx e fun l =>
      let l := { l with batches := dropIndex i l.batches }
      { l with low := advanceLow l }
    let l := launchOf u ctx e
    l.st ≠ .firing ∨ (blocksLost u ctx e = false ∧ l.low ≠ l.count) →
      (launchOf (s.ackIndex ctx e i) ctx e).batches = dropIndex i (launchOf s ctx e).batches := by
  intro u l hgoes
  have hbatches : (launchOf u ctx e).batches = dropIndex i (launchOf s ctx e).batches := by rw [launchOf_onLaunch_same]
  have hlaunch (v : State) (j : Instr) : launchOf (v.launch j) ctx e = launchOf v ctx e := rfl
  rw [← hbatches, State.ackIndex]
  by_cases hfiring : l.st ≠ .firing
  · rw [if_pos hfiring]
  · obtain ⟨hblocks, hlow⟩ := hgoes.resolve_left hfiring
    have hmore : ¬(l.low = l.count ∧ l.count ≠ 0) := fun hdone => hlow hdone.1
    rw [if_neg hfiring, hblocks, if_neg Bool.false_ne_true, if_neg hmore]
    split
    · split
      · rw [hlaunch, launchOf_writeBlock]
      · rw [launchOf_writeBlock]
    · rw [launchOf_writeBlock]

end Entries

/-- Settles O47: an operation by what it does at its record, a task by its queue, and the entries by what a step leaves of them. -/
theorem taskSteps : Obligations.TaskSteps := by
  unfold Obligations.TaskSteps
  intro s r c ctx va gen ent e i k m q pa
  refine ⟨fun herr hbad => ?_, fun h bs => writeRecord_bytes c h bs, fun h => queueTask_ready c ctx va pa e i h,
    fun hpa hdue => ?_, fun hcan hidle hfree htask => ?_, fun h => ?_, fun h => ?_, fun h => ⟨_, rfl, ackIndex_batches h⟩,
    fun n bs s1 hfetch hread => ?_⟩
  · obtain ⟨hread, -⟩ := taskAsked_reads s r
    refine ⟨fun hop hst => ?_, fun hop hst => ⟨fun hlt => ?_, fun hone hbar => ?_⟩,
      fun hop hst hn => ⟨fun hlt => ?_, fun hlast hbar => ?_⟩,
      fun hop hst => ?_, fun hop hbar => ?_, fun hop => ⟨fun hst => ?_, fun h1 h2 => ?_⟩, fun hop hbar hst => ?_⟩
    · obtain ⟨hwaits, hqueues⟩ := taskHome_new herr hbad hop hst
      exact ⟨fun hn => congrArg Host.Outcome.next (hwaits hn), fun hn hbar => congrArg Host.Outcome.next (hqueues hn hbar)⟩
    · exact congrArg Host.Outcome.next
        ((taskHome_arrives herr hbad (.inl hop)).trans (arrive_lowers hread (by omega) one_ne_zero hst hlt))
    · exact congrArg Host.Outcome.next
        ((taskHome_arrives herr hbad (.inl hop)).trans (arrive_last hread (by omega) one_ne_zero hst hone.symm hbar))
    · exact congrArg Host.Outcome.next ((taskHome_arrd herr hbad hop).trans (arrive_lowers hread (by omega) hn hst hlt))
    · exact congrArg Host.Outcome.next ((taskHome_arrd herr hbad hop).trans (arrive_last hread (by omega) hn hst hlast hbar))
    · exact congrArg Host.Outcome.next ((taskHome_arrives herr hbad (.inl hop)).trans (arrive_misuse hread one_ne_zero hst))
    · exact congrArg Host.Outcome.next (taskHome_deadline herr hbad hop hbar)
    · exact congrArg Host.Outcome.next ((taskHome_kill herr hbad hop).trans (if_pos hst))
    · exact congrArg Host.Outcome.next ((taskHome_kill herr hbad hop).trans (if_neg (not_or.mpr ⟨h1, h2⟩)))
    · obtain ⟨hmore, hone⟩ := arrive_barrier hread hop hst hbar
      have harrives := taskHome_arrives herr hbad (.inr hop)
      exact ⟨fun hlt => congrArg Host.Outcome.next (harrives.trans (hmore hlt)),
        fun hlast => congrArg Host.Outcome.next ((harrives.trans (hone hlast)).trans (releaseBarrier_eq ..))⟩
  · change execTaskDeadline ctx va s = _
    rw [execTaskDeadline, State.deadline, hpa]
    exact congrArg Host.Outcome.next (if_pos hdue)
  · have htakes := takeTask_found hcan hidle hfree htask
    have hctx := taskFor_ctx htask
    refine ⟨fun j hwants hslot hleft => congrArg Host.Outcome.next ?_, fun hwants hnone => congrArg Host.Outcome.next ?_,
      fun hwants => ⟨fun hpa => congrArg Host.Outcome.next ?_, fun hpa => congrArg Host.Outcome.next ?_⟩⟩
    · rw [htakes, if_pos hwants, hslot]
      exact fetchFor_slot hleft
    · rw [htakes, if_pos hwants, hnone]
      rfl
    · subst hctx
      rw [htakes, hwants]
      exact deliverTask_present hpa
    · subst hctx
      rw [htakes, hwants]
      exact deliverTask_absent hpa
  · refine ⟨_, barrierAcknowledgement_ends gen ent h, ?_⟩
    rw [coreAt_onCore_same]
    exact List.map_congr_left fun b _ => if_congr (by simp [and_assoc]) rfl rfl
  · refine ⟨_, barrierRelease_ends gen h, ?_⟩
    rw [settleBars_bars, coreAt_onCore_same]
    refine congrArg (List.filter _) (List.map_congr_left fun b _ => if_congr (by simp [and_assoc]) rfl rfl)
  · refine ⟨fun hboxed => (footprintPrefetch_read hfetch hread).trans (congrArg Host.Outcome.next ?_),
      fun hboxed => (footprintPrefetch_read hfetch hread).trans (congrArg Host.Outcome.next ?_)⟩
    · exact if_pos hboxed
    · exact if_neg (Bool.eq_false_iff.mp hboxed)

end Sys2Proof.Machine
end

section
/-! PROOFS. The refutation of the statement about the steps of the package (R372 to R389): a transmission waits for the lines of its
slot as it waits for the control block's (R123), and the statement asks for the control block's alone. -/
namespace Sys2Proof.Machine

/-- The control block of a transmit ring of two slots of 128 bytes, whose first slot is committed, and the length of the frame
there, 60 bytes. -/
def committedRing : List Byte := [1, 1, 0, 0, 0x101, 0, 0, 0, 60].flatMap (toBytes 8)

/-- A machine with one queue pair whose transmit ring lies in HBM at 0x50000. The line of its oldest committed slot, 0x50040, has an
invalidation that is not acknowledged. -/
def slotBusy : State :=
  { dies := [(0, { slices := List.range 32 })], ctxs := [(0, { live := true })],
    pkg := { hbm := List.range 16, eth := [0], qps := [(0, { tx := 0x50000 })] },
    mem := Mem.writeN [] 0x50000 committedRing, dir := [(0x50040, { busy := [8] })] }

theorem slotBusy_ring :
    let tx := ringAt slotBusy 0x50000
    ringFails slotBusy 0 0x50000 64 = false ∧ ringWaits slotBusy 0x50000 = false ∧
      ringFails slotBusy 0 (tx.slot 0x50000 tx.tail) (ofBytes (slotBusy.readPa (tx.slot 0x50000 tx.tail) 8) + 8) = false ∧
      tx.bad = false ∧ tx.tail < tx.cmt ∧ goodLength tx (ofBytes (slotBusy.readPa (tx.slot 0x50000 tx.tail) 8)) = true := by
  decide +kernel

/-- The transmission waits for the line of the slot: it is in progress again, and its queue pair has sent nothing. -/
theorem slotBusy_transmit_waits : Ends (.ethernetTransmit 0 0) slotBusy (slotBusy.launch (.ethernetTransmit 0 0)) := by
  refine congrArg Host.Outcome.next ((if_neg ?_).trans (if_pos ?_)) <;> decide +kernel

/-- Refutes O54: with the slot's line busy, the hypotheses on the transmit ring hold, the transmission ends as it began, and no frame
is sent. -/
theorem not_packageSteps : ¬ Obligations.PackageSteps := by
  unfold Obligations.PackageSteps
  rintro ⟨h, -⟩
  obtain ⟨-, -, -, -, -, -, -, -, -, -, hsend⟩ := h slotBusy 0 0 0 0 0 0 0 0 0 0 0 0 0 0 0 [] {} true true { body := .msg {} }
  obtain ⟨hfails, hwaits, hslot, hgood, htail, hlength⟩ := slotBusy_ring
  obtain ⟨t, hends, hsent, -⟩ := (hsend (by decide) (by decide) (by decide)).1 hfails hwaits hslot hgood htail hlength
  have hnext : Host.Outcome.next (slotBusy.launch (.ethernetTransmit 0 0)) = .next t := slotBusy_transmit_waits.symm.trans hends
  injection hnext with ht
  subst ht
  exact absurd hsent (by decide +kernel)

end Sys2Proof.Machine
end
